-- ==== Sys2Proof/Word.lean ====
section
/-!
DEFINITION. The words of the machine and their plainest arithmetic (spec/00_scope.md R3 to R5; spec/07_arithmetic.md R134).
-/

namespace Sys2Proof

/-- A 64-bit scalar register or word (R134). -/
abbrev Word := BitVec 64

/-- One byte. -/
abbrev Byte := BitVec 8

/-- A 57-bit byte address of code or of a `g:` page (R211, R109). -/
abbrev Addr := BitVec 57

/-- The slice x<m:n> of R4, as a number of `m - n + 1` bits. -/
def slice {w : Nat} (x : BitVec w) (hi lo : Nat) : BitVec (hi - lo + 1) :=
  x.extractLsb' lo (hi - lo + 1)

/-- One bit of a word, as a truth value. -/
def bit {w : Nat} (x : BitVec w) (i : Nat) : Bool := x.getLsbD i

end Sys2Proof
end

