-- ==== Sys2Proof/Syntax.lean ====
section
/-!
DEFINITION. The instructions: one constructor per row of spec/opcode_table.json. The rows of the instruction set carry
their tail fields (spec/11_formats_and_opcode_map.md R219); the rows that are steps of the package (a reset, a host command,
a flip...) act on the objects that the machine's `arg` names (State, the event's arguments). A wide-immediate or expression-token prefix (R213) is part of the operand it gives.
-/

namespace Sys2Proof

/-- A scalar register s0 to s31 (R226). -/
abbrev Sreg := Fin 32
/-- A predicate p0 to p7 (R226). -/
abbrev Preg := Fin 8
/-- A vector row v0 to v63 (R103). -/
abbrev Row := Fin 64
/-- A ring handle h0 to h15 (R105). -/
abbrev Hnd := Fin 16

/-- The five address spaces, in the order of their codes (R219). -/
inductive Space where
  | w | a | c | g | m
  deriving DecidableEq, Repr

/-- A tile buffer (R95). -/
inductive Buf where
  | w | a | c
  deriving DecidableEq, Repr

/-- Scopes `.thr` to `.sys`, in the order of their codes (R121). -/
inductive Scope where
  | thr | tile | pod | part | pkg | sys
  deriving DecidableEq, Repr

/-- Order qualifiers, in the order of their codes (R219). -/
inductive Order where
  | relaxed | acq | rel | ar
  deriving DecidableEq, Repr

/-- Rounding modes, in the order of their codes (R138, R237). -/
inductive Rm where
  | rne | rz | ru | rd
  deriving DecidableEq, Repr

/-- Region and row operators, in the order of their codes (R162, R275). -/
inductive RedOp where
  | iadd | fadd | min | max | maxi | mini | mul | and | or | xor
  deriving DecidableEq, Repr

/-- Matrix A formats and the source formats of `vcvt`, in the order of their codes (R97, R274, R287). -/
inductive Fmt7 where
  | i8 | u8 | i16 | i32 | f16 | bf16 | f32
  deriving DecidableEq, Repr

/-- How many weights of a group of 32 a command keeps (R287). -/
inductive Keep where
  | n32 | n16 | n8
  deriving DecidableEq, Repr

/-- The operation of a `signal` (R313). -/
inductive SigOp where
  | set | add | maxu
  deriving DecidableEq, Repr

/-- A branch target as coded: line offset and head index (R219, class BR). -/
structure Target where
  off : BitVec 24
  idx : BitVec 5
  deriving DecidableEq, Repr

/-- A memory operand of class MEM (R219). -/
structure MemOp where
  disp : BitVec 19
  space : Space
  base : Sreg
  deriving DecidableEq, Repr

/-- A memory operand of class ATOM (R219). -/
structure AtomOp where
  disp : BitVec 32
  space : Space
  scope : Scope
  order : Order
  base : Sreg
  deriving DecidableEq, Repr

/-- The token fields TE and TK of class ENG (R299). -/
structure TokF where
  te : Bool
  tk : Fin 16
  deriving DecidableEq, Repr

/-- The second operand of a row instruction: a row, or a broadcast scalar (B of R267). -/
inductive VB where
  | row (v : Row)
  | scalar (s : Sreg)
  deriving DecidableEq, Repr

/-- The count of a `loop`: an immediate or a register (R240). -/
inductive LoopCount where
  | imm (n : BitVec 24)
  | reg (s : Sreg)
  deriving DecidableEq, Repr

/-- An endpoint of a copy (R299). -/
inductive CEnd where
  | mem (space : Space) (base : Sreg) (disp : BitVec 18)
  | ring (h : Hnd)
  | queue (q : Fin 4)
  deriving DecidableEq, Repr

/-- A host command: the function, the queue and the entry's monotonic index (R46). -/
structure CmdRef where
  fn : Nat
  q : Nat
  idx : Nat
  deriving DecidableEq, Repr

/-- What runs threads: a tile of a partition, by its logical number, or the controller of a die. -/
inductive Agent where
  | tile (p t : Nat)
  | ctrl (d : Nat)
  deriving DecidableEq, Repr

/-- The instructions, then the steps of the package, each group in the order of spec/opcode_table.json. -/
inductive Instr where
  -- scalar, predicate and control (spec/12)
  | nopInstruction
  | yield
  | tsync
  | addReg (d a b : Sreg)
  | addImm (d a : Sreg) (imm : Word)
  | subReg (d a b : Sreg)
  | subImm (d a : Sreg) (imm : Word)
  | andReg (d a b : Sreg)
  | andImm (d a : Sreg) (imm : Word)
  | orReg (d a b : Sreg)
  | orImm (d a : Sreg) (imm : Word)
  | xorReg (d a b : Sreg)
  | xorImm (d a : Sreg) (imm : Word)
  | shlReg (d a b : Sreg)
  | shlImm (d a : Sreg) (imm : Word)
  | shrReg (d a b : Sreg)
  | shrImm (d a : Sreg) (imm : Word)
  | sraReg (d a b : Sreg)
  | sraImm (d a : Sreg) (imm : Word)
  | mulReg (d a b : Sreg)
  | mulImm (d a : Sreg) (imm : Word)
  | mulhReg (d a b : Sreg)
  | mulhImm (d a : Sreg) (imm : Word)
  | mulhuReg (d a b : Sreg)
  | mulhuImm (d a : Sreg) (imm : Word)
  | divReg (d a b : Sreg)
  | divImm (d a : Sreg) (imm : Word)
  | divuReg (d a b : Sreg)
  | divuImm (d a : Sreg) (imm : Word)
  | remReg (d a b : Sreg)
  | remImm (d a : Sreg) (imm : Word)
  | remuReg (d a b : Sreg)
  | remuImm (d a : Sreg) (imm : Word)
  | minReg (d a b : Sreg)
  | minImm (d a : Sreg) (imm : Word)
  | maxReg (d a b : Sreg)
  | maxImm (d a : Sreg) (imm : Word)
  | minuReg (d a b : Sreg)
  | minuImm (d a : Sreg) (imm : Word)
  | maxuReg (d a b : Sreg)
  | maxuImm (d a : Sreg) (imm : Word)
  | andnReg (d a b : Sreg)
  | andnImm (d a : Sreg) (imm : Word)
  | ornReg (d a b : Sreg)
  | ornImm (d a : Sreg) (imm : Word)
  | clz (d a : Sreg)
  | popc (d a : Sreg)
  | movReg (d a : Sreg)
  | movImm (d : Sreg) (imm : Word)
  | sel (d : Sreg) (c : Preg) (a b : Sreg)
  | sext (d a : Sreg) (n : BitVec 6)
  | zext (d a : Sreg) (n : BitVec 6)
  | cmpEqReg (d : Preg) (a b : Sreg)
  | cmpEqImm (d : Preg) (a : Sreg) (imm : Word)
  | cmpNeReg (d : Preg) (a b : Sreg)
  | cmpNeImm (d : Preg) (a : Sreg) (imm : Word)
  | cmpLtReg (d : Preg) (a b : Sreg)
  | cmpLtImm (d : Preg) (a : Sreg) (imm : Word)
  | cmpGeReg (d : Preg) (a b : Sreg)
  | cmpGeImm (d : Preg) (a : Sreg) (imm : Word)
  | cmpLtuReg (d : Preg) (a b : Sreg)
  | cmpLtuImm (d : Preg) (a : Sreg) (imm : Word)
  | cmpGeuReg (d : Preg) (a b : Sreg)
  | cmpGeuImm (d : Preg) (a : Sreg) (imm : Word)
  | fadd (d a b : Sreg)
  | fsub (d a b : Sreg)
  | fmul (d a b : Sreg)
  | fmin (d a b : Sreg)
  | fmax (d a b : Sreg)
  | fabs (d a : Sreg)
  | fneg (d a : Sreg)
  | fma (d a b c : Sreg)
  | fcmpEq (d : Preg) (a b : Sreg)
  | fcmpNe (d : Preg) (a b : Sreg)
  | fcmpLt (d : Preg) (a b : Sreg)
  | fcmpLe (d : Preg) (a b : Sreg)
  | fcmpUn (d : Preg) (a b : Sreg)
  | fdiv (d a b : Sreg)
  | fsqrt (d a : Sreg)
  | fcvtS (rm : Rm) (d a : Sreg)
  | fcvtU (rm : Rm) (d a : Sreg)
  | scvtF (rm : Rm) (d a : Sreg)
  | ucvtF (rm : Rm) (d a : Sreg)
  | fclass (d a : Sreg)
  | pand (d a b : Preg)
  | por (d a b : Preg)
  | pxor (d a b : Preg)
  | pnot (d a : Preg)
  | pmov (d a : Preg)
  | pset (d : Preg) (v : Bool)
  | psave (d : Sreg)
  | pload (a : Sreg)
  | br (t : Target)
  | brr (a : Sreg)
  | call (t : Target)
  | callr (a : Sreg)
  | ret
  | loop (l : Fin 4) (n : LoopCount) (t : Target)
  | lexit (l : Fin 4)
  | enter (n8 : BitVec 18)
  | leave (n8 : BitVec 18)
  -- memory, rings, superstep (spec/13)
  | ldBMem (d : Sreg) (m : MemOp)
  | ldBAtom (d : Sreg) (m : AtomOp)
  | ldBuMem (d : Sreg) (m : MemOp)
  | ldBuAtom (d : Sreg) (m : AtomOp)
  | ldHMem (d : Sreg) (m : MemOp)
  | ldHAtom (d : Sreg) (m : AtomOp)
  | ldHuMem (d : Sreg) (m : MemOp)
  | ldHuAtom (d : Sreg) (m : AtomOp)
  | ldWMem (d : Sreg) (m : MemOp)
  | ldWAtom (d : Sreg) (m : AtomOp)
  | ldWuMem (d : Sreg) (m : MemOp)
  | ldWuAtom (d : Sreg) (m : AtomOp)
  | ldDMem (d : Sreg) (m : MemOp)
  | ldDAtom (d : Sreg) (m : AtomOp)
  | stBMem (d : Sreg) (m : MemOp)
  | stBAtom (d : Sreg) (m : AtomOp)
  | stHMem (d : Sreg) (m : MemOp)
  | stHAtom (d : Sreg) (m : AtomOp)
  | stWMem (d : Sreg) (m : MemOp)
  | stWAtom (d : Sreg) (m : AtomOp)
  | stDMem (d : Sreg) (m : MemOp)
  | stDAtom (d : Sreg) (m : AtomOp)
  | amoAdd (d : Sreg) (m : AtomOp) (x : Sreg)
  | amoAnd (d : Sreg) (m : AtomOp) (x : Sreg)
  | amoOr (d : Sreg) (m : AtomOp) (x : Sreg)
  | amoXor (d : Sreg) (m : AtomOp) (x : Sreg)
  | amoMin (d : Sreg) (m : AtomOp) (x : Sreg)
  | amoMax (d : Sreg) (m : AtomOp) (x : Sreg)
  | amoMinu (d : Sreg) (m : AtomOp) (x : Sreg)
  | amoMaxu (d : Sreg) (m : AtomOp) (x : Sreg)
  | cas (d : Sreg) (m : AtomOp) (x z : Sreg)
  | swap (d : Sreg) (m : AtomOp) (x : Sreg)
  | fence (o : Order) (sc : Scope)
  | waitf (h : Hnd) (a : Sreg) (imm : Word)
  | waite (h : Hnd) (a : Sreg) (imm : Word)
  | advp (h : Hnd) (a : Sreg) (imm : Word)
  | advc (h : Hnd) (a : Sreg) (imm : Word)
  | fix (bitmap : BitVec 32) (m : Fin 17) (off : BitVec 22)
  | fixEnd (bitmap : BitVec 32) (m : Fin 17) (off : BitVec 22)
  | vote (v : Fin 3) (a : Sreg)
  | stage (a : Sreg) (imm : Word)
  | wbk (base : Sreg) (src : Buf) (off : BitVec 19) (len : BitVec 13) (disp : BitVec 20) (tok : TokF)
  | kwait (k : Fin 16)
  | mwait
  | twait (d : Preg) (a : Sreg)
  -- vector (spec/14)
  | vadd (d a : Row) (b : VB) (sat : Bool)
  | vsub (d a : Row) (b : VB) (sat : Bool)
  | vmul (d a : Row) (b : VB) (sat : Bool)
  | vmin (d a : Row) (b : VB) (sat : Bool)
  | vmax (d a : Row) (b : VB) (sat : Bool)
  | vabs (d a : Row) (sat : Bool)
  | vneg (d a : Row) (sat : Bool)
  | vfma (d a : Row) (b : VB) (c : Row) (sat : Bool)
  | vand (d a : Row) (b : VB)
  | vor (d a : Row) (b : VB)
  | vxor (d a : Row) (b : VB)
  | vnot (d a : Row)
  | vshl (d a : Row) (b : VB)
  | vshr (d a : Row) (b : VB)
  | vsra (d a : Row) (b : VB)
  | vcmpEq (d a : Row) (b : VB) (u : Bool)
  | vcmpNe (d a : Row) (b : VB) (u : Bool)
  | vcmpLt (d a : Row) (b : VB) (u : Bool)
  | vcmpLe (d a : Row) (b : VB) (u : Bool)
  | vcmpGt (d a : Row) (b : VB) (u : Bool)
  | vcmpGe (d a : Row) (b : VB) (u : Bool)
  | vsel (d m a b : Row)
  | vbcast (d : Row) (a : Sreg)
  | vbcastElement (d a : Row) (b : Sreg)
  | vperm (d a b : Row)
  | vpermRot (d a : Row) (b : Sreg)
  | vmov (d a : Row)
  | vcvt (rm : Rm) (sf : Fmt7) (part : Fin 4) (d a : Row)
  | vscan (o : RedOp) (d a : Row)
  | vred (o : RedOp) (d a : Row)
  | vredScalar (o : RedOp) (d : Sreg) (a : Row)
  | vexp2 (d a : Row)
  | vlog2 (d a : Row)
  | vrcp (d a : Row)
  | vrsq (d a : Row)
  | vtanh (d a : Row)
  | vsig (d a : Row)
  | mpdef (slot : Fin 4) (off : BitVec 22) (n1 : BitVec 4)
  | mprun (slot : Fin 4) (d a b c : Row)
  | expr (w : Word) (d a b c : Row)
  -- matrix and quantisation (spec/15)
  | mma (af : Fmt7) (n : Keep) (q : Fin 4) (k : Sreg) (pitch aoff : BitVec 12) (woff : BitVec 19) (bank : Fin 8) (tok : TokF)
  | mldt (af : Fmt7) (pitch aoff : BitVec 12) (bank : Fin 8) (tok : TokF)
  | mzero (bank : Fin 8) (tok : TokF)
  | quant (col : Bool) (srcC : Bool) (off pitch : BitVec 12) (emax : BitVec 8) (cnt : Sreg) (woff : BitVec 19) (tok : TokF)
  -- engines, exchange, collectives, launch, system (spec/16)
  | cpy (cq : Fin 8) (dst src : CEnd) (cnt : Sreg) (tok : TokF)
  | cpyD (cq : Fin 8) (dst src : CEnd) (cnt : Sreg) (tok : TokF)
  | xsync
  | xmit (slot : BitVec 12) (off : BitVec 16) (idx : Fin 8) (srcC : Bool) (soff : BitVec 12) (tok : TokF)
  | xsel (slot : BitVec 12) (port : Fin 4) (doff : BitVec 12) (tok : TokF)
  | enl (moff : BitVec 12) (r : Sreg) (tok : TokF)
  | rsto (base data : Sreg) (disp : BitVec 20) (wide : Bool) (tok : TokF)
  | cpost (base cnt : Sreg) (srcC : Bool) (soff : BitVec 16) (disp : BitVec 20) (tok : TokF)
  | armInstruction (r : Sreg)
  | patchInstruction (r v : Sreg) (off : BitVec 8) (len1 : BitVec 3)
  | postInstruction (r : Sreg) (p : Option Sreg)
  | signalInstruction (base v : Sreg) (op : SigOp) (disp : BitVec 20) (tok : TokF)
  | csrr (d : Sreg) (n : BitVec 12)
  | csrwReg (n : BitVec 12) (a : Sreg)
  | csrwImm (n : BitVec 12) (imm : Word)
  | trap (code : BitVec 16)
  | rft
  | halt
  | tlbi (p v n : Sreg)
  | tlbiAll (p : Sreg)
  -- package, boot, mailbox (spec/01)
  | packageReset
  | pcieHotReset
  | mailboxGo
  | mailboxChunkAppended
  | mailboxLast
  | mailboxImageVerified
  | mailboxAbort
  -- host interface (spec/02, spec/03)
  | registerWrite
  | notify
  | queueSlotAssign
  | queueStarved
  | nonpreemptibleLimitExpiry
  | nop
  | writeRecord
  | patch
  | arm
  | post
  | signalWait
  | signalWaitPoll
  | signal
  | map
  | unmap
  | copyIn
  | copyOut
  | createPartition
  | destroyPartition
  | bindVf
  | unbindVf
  | quiesceHold
  | quiesceSheet
  | sheetWriteDone
  | quiesceRelease
  | quiesceRestore
  | attest
  | coalesceWrite
  | coalesceCountReached
  | coalesceTimeExpiry
  | msixUnmask
  | monitorSelect
  | monitorClear
  | monitorPeriodicSample
  | vfFunctionLevelReset
  | pfFunctionLevelReset
  -- links, time, power (spec/01)
  | flitReceived
  | replayRequest
  | portRetrain
  | widthNarrowPropose
  | widthProposalAccept
  | widthProposalLapse
  | widthChangeDone
  | timingBeatSend
  | timingBeat
  | slewStep
  | powerMeasure
  | thermalThrottle
  | thermalStop
  | thermalResume
  | leaseRenewal
  | leaseTakeoverAttempt
  | hbmScrub
  | pageRetire
  | qcntAdvance
  -- scheduler, supersteps (spec/04 to spec/09)
  | dispatch
  | extentBuildDone
  | lineArrival
  | blockingWaitDone
  | exchangeBarrier
  | exchangeRelease
  | xmitSlot
  | datumLanded
  | xselSlot
  | reductionStream
  | reductionDone
  | enlTransfer
  | enlComplete
  | tileVote
  | barrierCombine
  | releaseArrival
  | flip
  | washLimitHalt
  | leadReset
  | writeBehindDrainDone
  | launchComplete
  | watchdog
  | preemptBoundExpiry
  | quiesceBoundExpiry
  | quantumExpiry
  | tileSaved
  | copyComplete
  | matrixCommandChosen
  | matrixCommandComplete
  | quantComplete
  | wbkComplete
  | signalComplete
  -- HBM4 training (spec/22)
  | hchTrainWrite
  | trainEffective
  | patternTestStart
  | patternTestDone
  | hchRdall
  | hchWrall
  -- outside events and completions without a row of their own above
  | outsideWrite
  | powerLoss
  | lossOfAPackage
  | spillCopyBackDone
  | engineSlotDelivered
  | resumeFromSaveArea
  deriving DecidableEq, Repr

end Sys2Proof
end

