-- ==== Sys2Proof/Config.lean ====
section
/-!
DEFINITION. What one part fixes and the manual leaves open, as constants with no body (free values), and the figures
the manual gives (spec/00_scope.md R1; spec/05_tile_and_pod.md R93, R95; spec/08_fabric_and_collectives.md R150).
-/

namespace Sys2Proof

/-- What takes a time that no table of the manual gives. -/
inductive Delay where
  | lineFetch | memRead | mgmtRead | atomic | copy | ringSlot | copyBack | wbk | signal | quantStart | contrib
  | reduction | endpoint | enl | extent | drain | sheet | save | resume | verify | chunk | tlbi | fence | barrier | release | transfer
  deriving DecidableEq, Repr

namespace Config

/-- DESIGN CHOICE (log entry 1): the cycles a thing takes where the manual gives no figure, for the n-th time it is asked. -/
opaque delay : Delay → Nat → Nat

/-- The SHAKE256 digest (R1), named and not stated by the manual: PRESUMED nothing of it (log entry 6). -/
opaque shake256 : List Byte → List Byte
/-- SLH-DSA-SHAKE-256s verification of a signature over a message under a key (R22, R66; log entry 6). -/
opaque slhVerify : List Byte → List Byte → List Byte → Bool
/-- SLH-DSA-SHAKE-256s signature with the device key (R28, R32, R63; log entry 6). -/
opaque deviceSign : List Byte → List Byte
/-- The device public key, 64 bytes, derived from the PUF (R28; log entry 6). -/
opaque devicePublicKey : List Byte
/-- The digest of Krery's firmware root key held in the boot ROM (R22; log entry 6). -/
opaque rootKeyDigest : List Byte
/-- Krery's manufacturing public key, which verifies the manufacturing record (R29; log entry 6). -/
opaque manufacturingKey : List Byte
/-- The manufacturing record's fields as the boot ROM reads them from its bytes, whose layout the manual does not give
(R29; log entry 9): the identity it names, the disabled-pod map, the minimum security version and the repair word of a channel. -/
opaque recIdentity : List Byte → List Byte
opaque recSigned : List Byte → List Byte
opaque recSignature : List Byte → List Byte
opaque recDisabled : List Byte → BitVec 256
opaque recMinSecurity : List Byte → BitVec 32
opaque recRepair : List Byte → Nat → BitVec 32
/-- A field record's generation and retirements (R29; log entry 9): pages, channels, routers, ports and sequencers. -/
opaque fieldGeneration : List Byte → BitVec 32
opaque fieldPages : List Byte → List Nat
opaque fieldChannels : List Byte → List Nat
opaque fieldRouters : List Byte → List Nat
opaque fieldPorts : List Byte → List Nat
opaque fieldSequencers : List Byte → List Nat
/-- The lane repairs that a field record names for channels that failed training: the repair word by channel. -/
opaque fieldRepairs : List Byte → List (Nat × BitVec 32)
/-- The bytes of a new field record: signed with the device key, of generation one higher (R29; log entry 9). -/
opaque fieldEncode : BitVec 32 → List Nat → List Nat → List (Nat × BitVec 32) → List Nat → List Nat → List Nat → List Byte
/-- Where firmware code starts after boot, and after a verified mailbox image starts (R23, R27; log entry 9). -/
opaque firmwareEntry : Nat → Addr
/-- The page of HBM from which on the boot ROM places the firmware body (R23; log entry 9). -/
opaque firmwarePage : Nat
/-- The first 64 KiB page of a partition's fault ring in its translation (R183; log entry 5). -/
opaque faultRingPage : Nat → BitVec 41
/-- Whether HBM4 lane l of channel ch passes a pattern test, under its read and write delay codes, for the n-th test
(R344, R349; log entry 8). -/
opaque lanePasses : Nat → Nat → BitVec 5 → BitVec 5 → Nat → Bool
/-- The channel whose slice holds a physical byte of HBM (R344; the manual gives no address map; log entry 56). -/
opaque channelOf : Nat → Nat
/-- The payloads of the flits that carry a datum to another package, from the route word that is left for it, its slot, format and bytes, and
the datum that such a payload completes (R12; log entry 34). -/
opaque slotPayload : Nat → Nat → Byte → List Byte → List (List Byte)
opaque slotDatum : List Byte → Option (Nat × Nat × Byte × List Byte)
/-- The same for a datum that goes by its tags over the memory network: the payloads, from the port that it leaves by, the route word that is left for
it, its slot, format and bytes; and the tile, landing port, slot, format and bytes of the datum that such a payload completes (R160; log entry 34). -/
opaque tagPayload : Nat → Nat → Nat → Byte → List Byte → List (List Byte)
opaque tagDatum : List Byte → Option (Nat × Nat × Nat × Byte × List Byte)
/-- Whether in a cycle the other packages of a system group still have data of the exchange to send: no message tells it (R160; log entry 34). -/
opaque groupSends : Nat → Bool
/-- The one-way delay of a port in cycles, half of the round trip that training measures (R16; log entry 8). -/
opaque portDelay : Nat → Nat
/-- The value in the detail of a `cpost` whose elements run past the region (R311 gives none; log entry 16). -/
opaque cpostPast : Nat → BitVec 32
/-- Which of the unordered writes of a byte of a tile buffer a race leaves, for the k-th commit, by buffer and offset (R128; log entry 4). -/
opaque raceChoice : Nat → Nat → Nat → Nat

/-- Healthy 64 KiB pages of HBM: 512 GB in all (R1, R5). -/
def hbmPages : Nat := 512000000000 / 65536
/-- 57-bit addresses (R109, R211). -/
def addrSize : Nat := 2 ^ 57
/-- Buffer sizes in bytes (R95). -/
def bufSize : Buf → Nat
  | .w => 393216
  | .a => 262144
  | .c => 131072
/-- Bank sizes in bytes (R95). -/
def bankSize : Buf → Nat
  | .w => 24576
  | .a => 16384
  | .c => 16384
/-- Latent store granules on chip (R108). -/
def latentGranules : Nat := 2048
/-- Code line buffer lines: 32 KiB (R1). -/
def lineBufferLines : Nat := 512
/-- Cycles in one microsecond and one millisecond at 1.8 GHz (R17). -/
def usCycles : Nat := 1800
def msCycles : Nat := 1800000
/-- Cycles from a partition's last vote to its decision, and from the decision to F (R81 and the table of R82). -/
def decisionCycles : Nat := 84
def distributionCycles : Nat := 96
/-- The distribution bound of a barrier tree that spans packages (R82). -/
def systemDistribution : Nat := 2326
/-- Cycles from the latest arrival at an exchange barrier to its release at the tiles (the table of R161; DEDUCED, log entry 18). -/
def releaseCycles : Nat := 52
/-- Cycles from F to the first issue of the next superstep (R81). -/
def issueAfterFlip : Nat := 90
/-- Dispatch: from the pick to the first issue on logical tile 0, and the spread of the other tiles (R84). -/
def dispatchCycles : Nat := 72

end Config

end Sys2Proof
end

