-- ==== Sys2Proof/Machine/State.lean ====
section
/-!
DEFINITION. The state of the machine as plain data: everything the manual gives the part (INVENTORY.md, '## State'),
the reasons a step can stop, and the state right after reset.
-/

namespace Sys2Proof.Machine

/-- Reasons the machine stops. -/
inductive Fault where
  /-- Raised by `step` when the part has no power and nothing outside is still to come (POWER_LOSS). Safe: nothing runs. -/
  | poweredOff
  deriving DecidableEq, Repr

/-- Instructions without a meaning. -/
inductive Refusal where
  /-- Raised by an arm of `exec` whose instruction has no meaning yet. Safe. -/
  | notModelled (mnemonic : String)
  deriving DecidableEq, Repr

/-- What a step answers. -/
abbrev Result (σ : Type) := Host.Outcome σ Fault Refusal

/-- Bytes by address, strictly rising, none equal to zero: an unlisted address reads zero (log entry 3). -/
abbrev Memory := List Host.Cell

/-- Modes of a thread (R172). -/
inductive Mode where
  | task | handler | firmware
  deriving DecidableEq, Repr

/-- Memory kinds, in the order of their codes (R117). -/
inductive Kind where
  | v | l | red | cav
  deriving DecidableEq, Repr

/-- Fault causes with their codes (R173). -/
inductive Cause where
  | none | illegalOp | illegalLine | orphanPrefix | illegalTarget | priv | align | unstaged | prot | stackLimit | slip | late | skew
  | eccUncorr | parity | linkFail | watchdog | boundWash | trap | voteWash | handlerFault | chainExhausted | resumeMismatch
  deriving DecidableEq, Repr

/-- A physical byte address: package HBM or host memory. -/
structure Loc where
  host : Bool
  addr : Nat
  deriving DecidableEq, Repr

/-- Where a tagged word stands: a live word of memory, a word of `m:` of a die (R117), or a word of a tile buffer. -/
inductive TagAt where
  | word (l : Loc)
  | mgmt (die addr : Nat)
  | buf (p t : Nat) (b : Buf) (addr : Nat)
  deriving DecidableEq, Repr

/-- The tag of an aligned 8-byte word that a release wrote (R123): its scope and source, and what happens before it (R124). `on` says
that the word has not been written since; `held` names the bytes of the word, 0 to 7, that still hold what the release wrote,
so that a later acquire may read it. -/
structure Tag where
  at_ : TagAt
  held : List Nat
  on : Bool
  scope : Scope
  src : Agent
  th : Nat
  hb : List Nat
  deriving DecidableEq, Repr

/-! ### Writes of a superstep -/

/-- Who made a write, for R127 and R128. -/
inductive WClass where
  | task | matrix | engine
  deriving DecidableEq, Repr

/-- A write of the superstep: its place in happens-before (its own identity and those that happen before it, R124), its
IssueKey (R127), and its bytes at consecutive addresses. `at` is an offset of a buffer, a byte of `loc`, or an element. -/
structure WRec where
  id : Nat
  cls : WClass
  q : Nat
  ltile : Nat
  th : Nat
  seq : Nat
  hb : List Nat
  buf : Option Buf
  loc : Loc
  data : List Byte
  deriving DecidableEq, Repr

/-! ### Threads -/

/-- What a landing write changes: a register, or the bytes of a vector row, a write whose identity and IssueKey are those of its
issue (R124, R127). -/
inductive Dest where
  | s (r : Sreg)
  | p (r : Preg)
  | csr (n : BitVec 12)
  | row (w : WRec)
  deriving DecidableEq, Repr

/-- A register or row write that has not landed (R92): it lands at the end of cycle `land`. -/
structure Pend where
  land : Nat
  dest : Dest
  val : Word
  flags : Byte
  deriving DecidableEq, Repr

/-- The issue unit a thread executes or waits in (R213): its address, the next unit's address, whether a prefix stands
before the governed head, the first prefix head and the governed head. -/
structure IssueUnit where
  addr : Addr
  next : Addr
  hasPfx : Bool
  pfx : BitVec 16
  head : BitVec 16
  deriving DecidableEq, Repr

/-- A named byte range of a buffer (R65, R257). -/
structure Range where
  buf : Buf
  start : Nat
  len : Nat
  deriving DecidableEq, Repr

/-- Why a thread with a task is not ready (R90). -/
inductive Wait where
  | ready
  | line (la : Addr)
  | result (d : Option Sreg) (v : Word)
  | mload (d : Sreg) (addr n : Nat) (signed : Bool) (sc : Option Scope)
  | ring (h : Hnd) (full : Bool) (n : Word)
  | token (k : Fin 16)
  | matrix (ops : List Nat)
  | tsync (round : Nat)
  | time (d : Preg) (t : Word)
  | xsync
  | fixed
  | entry (op : Nat)
  | room (k : Fin 16)
  | store
  | chan (k : Nat) (d : Option Sreg) (v : Word)
  | pass (d : Sreg) (addr n : Nat) (signed : Bool)
  | target (tgt : Addr) (cause : Cause) (detail : Word)
  | tlbi (p vpn n : Nat)
  | stopped
  | woken
  deriving DecidableEq, Repr

/-- What a `fix` recorded (R258). -/
structure FixRec where
  bitmap : BitVec 32
  regs : Vector Word 32
  ranges : List Range
  resume : Addr
  ends : Bool
  deriving DecidableEq, Repr

/-- A thread's committed version (R82, R258, R340). -/
structure Committed where
  pc : Addr
  bitmap : BitVec 32
  regs : Vector Word 32
  ranges : List Range
  ct : BitVec 3
  slim : BitVec 18
  deriving DecidableEq, Repr

/-- A thread's task (R79). -/
inductive TaskSt where
  | absent | running | finished
  deriving DecidableEq, Repr

/-- A hardware thread of a tile, or the one thread of a die controller. -/
structure Thread where
  task : TaskSt
  mode : Mode
  pc : Addr
  regs : Vector Word 32
  preds : Vector Bool 8
  lb : Vector Addr 4
  le : Vector Addr 4
  lc : Vector Word 4
  pend : List Pend
  readyAt : Nat
  wait : Wait
  waitFrom : Nat
  unit : IssueUnit
  coord : Word
  par : Vector Word 32
  ct : BitVec 3
  slim : BitVec 18
  oob : Word
  clamp : Bool
  drop : Bool
  ceil : Scope
  fflag : Byte
  lrerr : Word
  tvec : Word
  tepc : Addr
  tcause : Byte
  tpvote : BitVec 2
  tforced : Bool
  tpfx : Bool
  tchain : Bool
  thops : BitVec 3
  tdet : Word
  vote : BitVec 2
  hvote : BitVec 2
  vor : BitVec 32
  vmax : BitVec 32
  vdet : BitVec 32
  atfix : Bool
  fixRec : Option FixRec
  committed : Committed
  xsynced : Bool
  rounds : Nat
  seq : Nat
  hb : List Nat
  relF : List (Scope × List Nat)
  seen : List (List Tag)
  handling : Bool
  deriving DecidableEq, Repr

/-! ### Contributions -/

/-- A contribution to one element of a region (R129, R312): a plain store's record, or a fold of a thread. -/
structure Contrib where
  base : Nat
  elem : Nat
  fold : Bool
  wrec : WRec
  deriving DecidableEq, Repr

/-! ### Tiles -/

/-- A granule of the latent store: 64 bytes of a buffer, or 64 bytes of a tile's contributions to the region at a base (R107, R164). -/
inductive Gran where
  | buf (b : Buf) (n : Nat)
  | reg (base n : Nat)
  deriving DecidableEq, Repr

/-- One extent of a tile (R110): a run of 64 KiB virtual pages, their physical base and attributes, the runs of them that the page-fetch
list names with CODE (R109), and the cycle since which it exists (R116). -/
structure Extent where
  vpn : Nat
  pages : Nat
  loc : Loc
  kind : Kind
  r : Bool
  w : Bool
  x : Bool
  scope : Scope
  code : List (Nat × Nat)
  born : Nat
  deriving DecidableEq, Repr

/-- A ring handle (R105, R106): the fields of %hcfg and the two pointers. -/
structure Ring where
  space : BitVec 2
  slot : BitVec 4
  count : BitVec 12
  base : BitVec 18
  prod : BitVec 32
  cons : BitVec 32
  deriving DecidableEq, Repr

/-- One operation of a micro-program (R281). -/
structure MpEntry where
  code : Byte
  k : BitVec 2
  reg : Sreg
  imm : BitVec 32
  deriving DecidableEq, Repr

/-- A line of a code line buffer (R209). -/
structure Line where
  addr : Addr
  bytes : List Byte
  deriving DecidableEq, Repr

/-- A fault of the superstep as a tile may report it (R180): thread number, or 8 for a tile event. -/
structure FaultSum where
  who : Nat
  vote : BitVec 2
  cause : Cause
  detail : Word
  deriving DecidableEq, Repr

/-- A datum of the exchange on its way or landed (R152): its `xmit`, slot of arrival, port, format code and bytes, and the
mesh links it uses, and what happens before it. A tile number from 2,048 on names the Hinath port through which it leaves, and `rest`
then is the route word that is left for the package at the far end. -/
structure Datum where
  op : Nat
  tile : Nat
  slot : Nat
  port : Nat
  fmt : Byte
  bytes : List Byte
  links : List (Nat × Nat)
  lost : Bool
  hb : List Nat
  rest : Word := 0
  deriving DecidableEq, Repr

/-- A tile of a partition, at its logical number; `build` numbers the build of its extent table that is under way (R110). -/
structure Tile where
  w : Memory
  a : Memory
  c : Memory
  latent : List WRec
  granules : List Gran
  copyBack : List Gran
  fmt : Vector Byte 40
  fmtC : Vector Byte 40
  rings : Vector Ring 16
  ringsC : Vector Ring 16
  ringHb : Vector (List Nat) 16
  queues : Vector (List (List Byte)) 4
  slots : Vector (List MpEntry) 4
  flpa : Addr
  flpn : Nat
  flpaC : Addr
  flpnC : Nat
  ext : List Extent
  spare : List Extent
  building : Bool
  build : Nat
  append : List Nat
  appendFull : Bool
  appended : List Nat
  appendedFull : Bool
  lines : List Line
  fetching : List Addr
  flt : Word
  fltd : Word
  curTh : Nat
  consec : Nat
  lastIssue : Nat
  faults : List FaultSum
  flost : Bool
  barrier : Bool
  raisers : List Nat
  released : Bool
  voted : Bool
  contribs : List Contrib
  streamed : List Nat
  landed : List Datum
  syncHb : List (Nat × List Nat)
  stopIssue : Bool
  saved : Bool
  finRanges : List Range
  threads : List Thread
  deriving DecidableEq, Repr

/-! ### Engine operations -/

/-- An endpoint of a copy, resolved at issue (R299, R300). -/
inductive EndR where
  | buf (b : Buf) (addr : Word) (fmt : Byte)
  | glob (va : Word)
  | mgmt (addr : Word)
  | ring (h : Hnd) (fmt : Byte)
  | queue (q : Fin 4)
  deriving DecidableEq, Repr

/-- A dimension of a copy descriptor or layout map (R169, R301). -/
structure Dim where
  extent : Nat
  sstride : Int
  dstride : Int
  pos : Nat
  deriving DecidableEq, Repr

/-- What an engine operation does (R115). -/
inductive OpKind where
  | copy (cq : Fin 8) (dims : Option (List Dim)) (es : Nat) (dst src : EndR) (count : Nat)
  | mma (af : Byte) (n : Nat) (q : Fin 4) (k : Nat) (pitch aoff woff : Nat) (wfmt cfmt : Byte) (bank : Nat)
  | mldt (af : Byte) (pitch aoff : Nat) (cfmt : Byte) (bank : Nat)
  | mzero (bank : Nat)
  | quant (col : Bool) (src : Buf) (off pitch : Nat) (sfmt : Byte) (emax n : Nat) (woff : Nat) (wfmt : Byte)
  | enl (srcBuf : Buf) (srcBase dstBase step : Nat) (dims : List Dim) (sp : Nat) (dests : List Nat) (r : Nat) (sfmt : Byte)
  | wbk (va : Word) (src : Buf) (off granules : Nat)
  | signal (va : Word) (op : SigOp) (v : Word)
  | fold (base elem : Nat) (esize : Nat) (data : List Byte)
  | xmit (slot port dst : Nat) (links : List (Nat × Nat)) (src : Buf) (off : Nat) (fmt : Byte) (rest : Word)
  | xsel (slot port : Nat) (dst : Nat)
  deriving DecidableEq, Repr

/-- How far an engine operation has come; one that is done stays until F for happens-before (R124). -/
inductive OpSt where
  | queued | running | moved | done
  deriving DecidableEq, Repr

/-- An engine operation forked by a thread in the superstep (R124), in issue order: `prog` counts the slots, entries or groups
done, `parts` the identities of the writes of its slots done (R124, R254), `masks` the sparsity entries popped (R289), `stamp` the cycle it started in, and
`fetchA`, `fetchW` and `fetchC` the operand bytes that a matrix command has fetched (R289). -/
structure EngOp where
  id : Nat
  agent : Agent
  th : Nat
  tok : Option (Fin 16)
  seq : Nat
  hb : List Nat
  ltile : Nat
  kind : OpKind
  st : OpSt
  prog : Nat
  prog0 : BitVec 32
  parts : List Nat
  flags : Byte
  masks : List (List Byte)
  stamp : Nat
  fetchA : List (List Byte)
  fetchW : List (List Byte)
  fetchC : List Byte
  unit : IssueUnit
  deriving DecidableEq, Repr

/-! ### Partitions -/

/-- A page of a translation (R48). `size` is 1 or 32 pages of 64 KiB. -/
structure PageT where
  vpn : Nat
  size : Nat
  loc : Loc
  kind : Kind
  r : Bool
  w : Bool
  x : Bool
  scope : Scope
  deriving DecidableEq, Repr

/-- States of a launch record (R72). -/
inductive RecSt where
  | idle | armed | posted | eligible | running
  deriving DecidableEq, Repr

/-- A launch record (R70 to R76, R122): image, snapshot, state, counts, order of eligibility, posting function, POST command, and
for a launch that was switched out the function whose save area holds it with the SSN it was saved at (R60, R67). -/
structure LRec where
  image : List Byte
  snap : List Byte
  st : RecSt
  snapValid : Bool
  rearm : Bool
  counts : Vector (BitVec 16) 4
  order : Nat
  postFn : Nat
  postCmd : Option CmdRef
  savedIn : Option (Nat × BitVec 32)
  deriving DecidableEq, Repr

/-- A record operation waiting for a fix or wash point (R73): of the host, of a device thread, or of another partition. -/
inductive RecOp where
  | write (i : Nat) (image : List Byte)
  | patch (i off : Nat) (data : List Byte)
  | arm (i : Nat)
  | post (i : Nat)
  | postTo (p i : Nat)
  | postFrom (poster fn i : Nat)
  deriving DecidableEq, Repr

structure RecReq where
  op : RecOp
  tile : Nat
  th : Nat
  seq : Nat
  cmd : Option CmdRef
  deriving DecidableEq, Repr

/-- Run states of a partition (R83). -/
inductive RunSt where
  | idle | dispatching | running | voting | saving | held | halted | thermal
  deriving DecidableEq, Repr

/-- The running launch (R77, R86): its record, the posting function, when it began, and the attributes of its image. -/
structure Launch where
  rcd : Nat
  fn : Nat
  since : Nat
  spanOff : Nat
  pods : Nat
  stages : Nat
  prio : Nat
  nonPre : Bool
  watchdog : Nat
  bound : Nat
  ended : Bool
  deriving DecidableEq, Repr

/-- A barrier message's fields that combine (R80). -/
structure BarMsg where
  vote : BitVec 2
  flost : Bool
  skewf : Bool
  cause : Cause
  ctile : Nat
  pev : Bool
  ssn : BitVec 32
  detail : Word
  latest : Nat
  orv : BitVec 32
  maxv : BitVec 32
  deriving DecidableEq, Repr

/-- What a package of a system group knows of the exchange barrier of a superstep (R148, R149): the ports below whose packages have raised
it, whether one of them asks for the exchange phase, their SKEWF, the latest arrival so far, and whether its own message has gone up. -/
structure ExchBar where
  kids : List Nat
  need : Bool
  skewf : Bool
  latest : Nat
  sent : Bool
  deriving DecidableEq, Repr

def ExchBar.zero : ExchBar := ⟨[], false, false, 0, false⟩

/-- A monitor (R20). -/
structure Monitor where
  en : Bool
  shift : BitVec 5
  src : Byte
  min : BitVec 32
  max : BitVec 32
  bins : Vector (BitVec 32) 16
  deriving DecidableEq, Repr

/-- Why a partition will stop at its next fix or wash (R56, R86, R54). -/
inductive StopReq where
  | preempt (requester : Nat)
  | quiesce (cmd : CmdRef)
  | reset (fn : Nat)
  | unbind (fn : Nat)
  deriving DecidableEq, Repr

/-- A result of a region, held like write-behind (R168). -/
structure Held where
  loc : Loc
  data : List Byte
  deriving DecidableEq, Repr

/-- A partition (R38 to R42). `wireSlots` are the slots of a port's frame that its wire share holds (R40); `links` are, for a partition of a
system group, the Hinath ports that join it with other members and the number of the member at the far end (R150); `regen` says that
routes wait to be regenerated (R157); `drains` holds the cycles of the fixes whose write-behind still drains (R56, R81); `inPorts` are the ports by
which data of the superstep came in, and `failedPorts` those that failed after its decision (R191); `saveFn` and `saveAlso` are the functions whose launches are being saved (R87). -/
structure Partition where
  valid : Bool
  base : Nat
  len : Nat
  wire : Nat
  wireSlots : List Nat
  redSlots : Nat
  nrec : Nat
  trans : List PageT
  transTlb : List PageT
  transBuild : List PageT
  transNow : List PageT
  run : RunSt
  ssn : BitVec 32
  bred : Word
  lead : Nat
  sinceLate : Nat
  washes : List (Cause × Word × Nat)
  washRuns : Nat
  dogFrom : Nat
  dogFired : Nat
  lastFixAt : Nat
  fixAt : Nat
  issueFrom : Nat
  seed : List (Nat × List Extent)
  stops : List (StopReq × Nat)
  sheet : Option CmdRef
  launch : Option Launch
  recs : List LRec
  nextOrder : Nat
  reqs : List RecReq
  outs : List CmdRef
  stale : List (Loc × Byte)
  wb : List WRec
  held : List Held
  drains : List Nat
  codeOld : List (Loc × Byte)
  decision : Option BarMsg
  flipAt : Nat
  remote : List BarMsg
  events : List FaultSum
  exchS : Option Nat
  exchSkew : Bool
  xbar : ExchBar
  arbitrated : Bool
  regen : Bool
  sysGroup : Bool
  links : List (Nat × Nat)
  up : Option Nat
  down : List Nat
  kids : List Nat
  sentUp : Bool
  flight : List Datum
  inPorts : List Nat
  failedPorts : List Nat
  reduced : List Nat
  reducing : List Nat
  podwt : List (BitVec 32)
  arb : List (Nat × Nat)
  arrayEnd : List Nat
  thermalHeld : Bool
  shadow : List Nat
  restored : Bool
  releasing : Bool
  dogHeld : Nat
  monitors : Vector Monitor 8
  saveFn : Option Nat
  saveAlso : List Nat
  savePrio : Nat
  saveSlot : Bool
  lostData : Bool
  tileErrs : Nat
  retiring : List Nat
  sliceTo : Option Nat
  runFn : Nat
  sliceFrom : Nat
  tiles : List Tile
  deriving DecidableEq, Repr

/-! ### Host side -/

/-- Interrupt coalescing of one vector (R52, R53): `active` is the TIME in effect since the last event counted. -/
structure Vec where
  time : BitVec 16
  count : BitVec 8
  pend : Nat
  t0 : Nat
  masked : Bool
  pba : Bool
  active : BitVec 16
  deriving DecidableEq, Repr

/-- A host queue (R45, R46). `taken` counts the entries taken for execution, `done` those completed ahead of HEAD, and
`hold` is the command that holds the queue; `met` tells that a read of its word has found it at or above the operand (R338). -/
structure Queue where
  tail : BitVec 32
  head : BitVec 32
  taken : BitVec 32
  ring : Word
  log2 : Nat
  known : Bool
  stopped : Bool
  done : List (BitVec 32)
  hold : Option (BitVec 32)
  met : Bool
  deriving DecidableEq, Repr

/-- A virtual function's binding (R43, R61). -/
structure Binding where
  part : Nat
  ceil : Scope
  cls : Nat
  quantum : Nat
  first : Nat
  count : Nat
  save : Loc
  saveSize : Nat
  deriving DecidableEq, Repr

/-- A function: number 0 is the physical one (R33, R45, R50). -/
structure Fn where
  cpage : Word
  nerr : Bool
  evtBase : Word
  evtLost : Bool
  evtHead : BitVec 32
  evtTail : BitVec 32
  lost : Nat
  vecs : Vector Vec 16
  queues : Vector Queue 8
  bind : Option Binding
  deriving DecidableEq, Repr

/-- A hardware queue slot's owner (R49): function and queue. -/
abbrev SlotOwner := Option (Nat × Nat)

/-- A queue's bit in the pending-unmapped bitmap: since when, whether QUEUE_STARVED was posted, and the slot that is being freed for
it, with the partition whose launch is in the way (R49, R50). -/
structure PendBit where
  fn : Nat
  q : Nat
  since : Word
  starved : Bool
  via : Option (Nat × Nat)
  deriving DecidableEq, Repr

/-! ### Package -/

/-- A flit that waits at a port (R14): its class, partition and payload; or `again`, the whole bytes of one that is sent again (R13). -/
structure Waiting where
  cls : Nat
  part : Nat
  data : List Byte
  again : Bool
  deriving DecidableEq, Repr

/-- A Hinath or die-crossing port (R11 to R15): `missing` lists the sequence numbers for which it has asked a replay, with the replays of
each that failed; `sending` is the cycle from which it may send. -/
structure Port where
  width : Nat
  lanes : BitVec 16
  failed : Bool
  rxSeq : BitVec 18
  txSeq : BitVec 18
  store : List (List Byte)
  missing : List (BitVec 18 × Nat)
  proposed : Option Nat
  proposedAt : Nat
  pausedUntil : Nat
  queue : List Waiting
  sending : Nat
  out : List (List Byte)
  deriving DecidableEq, Repr

/-- An HBM4 channel block (R343 to R347): `trainAt` is the cycle from which a new TRAIN = 1 takes effect. -/
structure Channel where
  train : Bool
  trainAsked : Bool
  trainAt : Nat
  goAsked : Bool
  err : Bool
  busy : Bool
  pass0 : Word
  pass1 : BitVec 2
  repair : BitVec 32
  rd : Vector (BitVec 5) 66
  wr : Vector (BitVec 5) 66
  deriving DecidableEq, Repr

/-- A lease cell (R30). -/
structure Lease where
  epoch : BitVec 32
  holder : BitVec 2
  expiry : Word
  deriving DecidableEq, Repr

/-- A die controller (R6, R321, R322): its thread, SRAM and code lines. `back` is the thread as it stood before its last unit (the model's own,
log entry 19). -/
structure Ctrl where
  th : Thread
  sram : Memory
  lines : List Line
  fetching : List Addr
  back : Option Thread
  deriving DecidableEq, Repr

/-- The boot ROM's result and the recovery window (R23 to R27). -/
structure Boot where
  done : Bool
  stage : Byte
  cause : Byte
  mbrdy : Bool
  recov : Bool
  failA : BitVec 32
  failB : BitVec 32
  busy : Bool
  err : Bool
  mblen : BitVec 12
  mboff : BitVec 32
  chunk : BitVec 12
  imgFail : BitVec 32
  mbox : Memory
  last : Bool
  image : Bool
  slot : Nat
  fieldFail : List Byte
  deriving DecidableEq, Repr

/-- The retirements in force (R29): those of the field record, with the repairs of channels that failed training (R349). -/
structure Retired where
  generation : BitVec 32
  older : Bool
  pages : List Nat
  channels : List Nat
  repairs : List (Nat × BitVec 32)
  routers : List Nat
  ports : List Nat
  sequencers : List Nat
  deriving DecidableEq, Repr

/-- Package time's place in the timing tree (R16); `seen` is the largest counter difference that a beat has shown (R173). -/
structure Timing where
  keeper : Bool
  bound : Nat
  slew : Int
  lastSlew : Nat
  skew : Bool
  parent : Nat
  children : List Nat
  seen : Nat
  deriving DecidableEq, Repr

/-- Power and heat (R18, R19). -/
structure Power where
  limit : Nat
  watts : Nat
  withheld : List Nat
  temps : Vector Nat 4
  throttled : Vector Bool 4
  stopped : Vector Bool 4
  deriving DecidableEq, Repr

/-- A page in quarantine with the counter's value at its freeing (R116). -/
structure Quarantined where
  page : Nat
  q : Nat
  deriving DecidableEq, Repr

/-- The objects a step of the package acts on: a function, queue and entry index (a host command); a partition `p` and tile
`t`; an engine operation `op` or region base; a number `n` (a port, channel, die, page, vector, monitor) and `m`; a value `v`;
a register offset and size; an agent and thread; bytes and numbers. -/
structure Arg where
  fn : Nat := 0
  q : Nat := 0
  idx : Nat := 0
  p : Nat := 0
  t : Nat := 0
  op : Nat := 0
  n : Nat := 0
  m : Nat := 0
  v : Word := 0
  off : Nat := 0
  size : Nat := 0
  agent : Agent := .ctrl 0
  th : Nat := 0
  addr : Addr := 0
  data : List Byte := []
  nats : List Nat := []
  deriving DecidableEq, Repr

/-- A step that is due at a cycle, with its arguments. -/
structure Due where
  at_ : Nat
  ev : Instr
  arg : Arg
  deriving DecidableEq, Repr

/-- The unit being executed: whose, and on which thread. -/
structure Cur where
  agent : Agent
  th : Nat
  deriving DecidableEq, Repr

/-- The machine. -/
structure State where
  powered : Bool
  cycle : Nat
  ptime : Word
  timing : Timing
  boot : Boot
  flash : Memory
  flashBad : List Nat
  disabled : BitVec 256
  minSecurity : BitVec 32
  retired : Retired
  logical : List Nat
  leases : Vector Lease 4
  leader : Nat
  epoch : BitVec 32
  qcnt : Nat
  qLast : Nat
  qOp : Nat
  quarantine : List Quarantined
  heldFree : List Nat
  usedPages : List Nat
  hbm : Memory
  poison : List Nat
  corrected : List (Nat × Nat)
  ctrls : Vector Ctrl 4
  hchain : Vector (BitVec 32) 256
  chans : Vector Channel 256
  ports : Vector Port 40
  power : Power
  host : Memory
  cxl : Bool
  pfStarve : Nat
  pfNpLimit : Nat
  fns : List Fn
  qslots : Vector SlotOwner 64
  pendBits : List PendBit
  lastServed : Nat
  msgs : List (Nat × Nat)
  parts : List Partition
  ops : List EngOp
  cpTurn : Vector Nat 32
  tags : List Tag
  opCtr : Nat
  fresh : Nat
  inputs : List Due
  agenda : List Due
  cur : Cur
  visited : Nat
  arg : Arg
  deriving DecidableEq, Repr

/-! ### Reset -/

def IssueUnit.zero : IssueUnit := ⟨0, 0, false, 0, 0⟩

def Committed.zero : Committed := ⟨0, 0, Vector.replicate 32 0, [], 0, 0⟩

/-- A thread with no task and every register zero. -/
def Thread.zero : Thread :=
  { task := .absent, mode := .task, pc := 0, regs := Vector.replicate 32 0, preds := Vector.replicate 8 false,
    lb := Vector.replicate 4 0, le := Vector.replicate 4 0, lc := Vector.replicate 4 0, pend := [], readyAt := 0,
    wait := .ready, waitFrom := 0, unit := IssueUnit.zero, coord := 0, par := Vector.replicate 32 0, ct := 0, slim := 0, oob := 0,
    clamp := false, drop := false, ceil := .sys, fflag := 0, lrerr := 0, tvec := 0, tepc := 0, tcause := 0, tpvote := 0,
    tforced := false, tpfx := false, tchain := false, thops := 0, tdet := 0, vote := 0, hvote := 0, vor := 0, vmax := 0,
    vdet := 0, atfix := false, fixRec := none, committed := Committed.zero, xsynced := false, rounds := 0, seq := 0,
    hb := [], relF := [], seen := [], handling := false }

def Ring.zero : Ring := ⟨0, 0, 0, 0, 0, 0⟩

/-- Format codes at CREATE_PARTITION (R98): BF16 in W and A, FP32 in C. -/
def resetFmt : Vector Byte 40 := Vector.ofFn fun i => if i.val < 32 then 0x05 else 0x06

/-- A tile as CREATE_PARTITION leaves it (R39, R98, R102). -/
def Tile.zero : Tile :=
  { w := [], a := [], c := [], latent := [], granules := [], copyBack := [], fmt := resetFmt, fmtC := resetFmt,
    rings := Vector.replicate 16 Ring.zero, ringsC := Vector.replicate 16 Ring.zero, ringHb := Vector.replicate 16 [],
    queues := Vector.replicate 4 [], slots := Vector.replicate 4 [], flpa := 0, flpn := 0, flpaC := 0, flpnC := 0,
    ext := [], spare := [], building := false, build := 0, append := [], appendFull := false, appended := [], appendedFull := false, lines := [], fetching := [],
    flt := 0, fltd := 0, curTh := 0, consec := 0, lastIssue := 0, faults := [], flost := false, barrier := false, raisers := [],
    released := false, voted := false, contribs := [], streamed := [], landed := [], syncHb := [], stopIssue := false,
    saved := false, finRanges := [], threads := List.replicate 8 Thread.zero }

/-- A monitor's reset values (R20). -/
def Monitor.zero : Monitor := ⟨false, 0, 0, 0xFFFFFFFF, 0, Vector.replicate 16 0⟩

/-- A partition that does not exist (R38). -/
def Partition.absent : Partition :=
  { valid := false, base := 0, len := 0, wire := 0, wireSlots := [], redSlots := 0, nrec := 0, trans := [], transTlb := [], transBuild := [], transNow := [], run := .idle,
    ssn := 0, bred := 0, lead := 0, sinceLate := 0, washes := [], washRuns := 0, dogFrom := 0,
    dogFired := 0, lastFixAt := 0, fixAt := 0, issueFrom := 0, seed := [], stops := [], sheet := none, launch := none, recs := [], nextOrder := 1, reqs := [],
    outs := [], stale := [], wb := [], held := [], drains := [], codeOld := [], decision := none, flipAt := 0, remote := [],
    events := [], exchS := none, exchSkew := false, xbar := ExchBar.zero, arbitrated := false, regen := false, sysGroup := false, links := [], up := none, down := [], kids := [], sentUp := false, flight := [], inPorts := [], failedPorts := [], reduced := [], reducing := [],
    podwt := [], arb := [], arrayEnd := [], thermalHeld := false, shadow := [], restored := false,
    releasing := false, dogHeld := 0, monitors := Vector.replicate 8 Monitor.zero, saveFn := none, saveAlso := [], savePrio := 0, saveSlot := false, lostData := false, tileErrs := 0, retiring := [], sliceTo := none,
    runFn := 0, sliceFrom := 0, tiles := [] }

def Vec.zero : Vec := ⟨0, 1, 0, 0, false, false, 0⟩

def Queue.zero : Queue := ⟨0, 0, 0, 0, 0, false, false, [], none, false⟩

/-- A function's registers at reset (R45, R50, R52; log entry 2). -/
def Fn.zero : Fn :=
  ⟨0, false, 0, false, 0, 0, 0, Vector.replicate 16 Vec.zero, Vector.replicate 8 Queue.zero, none⟩

def Port.zero : Port := ⟨16, 0xFFFF, false, 0, 0, [], [], none, 0, 0, [], 0, []⟩

/-- A channel at reset (R344 to R347): in training, every delay 8. -/
def Channel.zero : Channel :=
  ⟨true, false, 0, false, false, false, 0, 0, 0, Vector.replicate 66 8, Vector.replicate 66 8⟩

/-- A controller at reset: firmware mode, every register zero (log entry 2), issuing nothing until firmware starts (R23). -/
def Ctrl.zero : Ctrl := ⟨{ Thread.zero with mode := .firmware }, [], [], [], none⟩

/-- The recovery window at reset (R26): stage 0x01. -/
def Boot.zero : Boot :=
  ⟨false, 0x01, 0, false, false, 0, 0, false, false, 0, 0, 0, 0, [], false, false, 0, [0, 0]⟩

/-- The machine right after package reset, before the boot ROM has run (R23; log entries 2 and 3). -/
def State.reset : State :=
  { powered := true, cycle := 0, ptime := 0, timing := ⟨true, 0, 0, 0, false, 0, [], 0⟩, boot := Boot.zero, flash := [], flashBad := [],
    disabled := 0, minSecurity := 0, retired := ⟨0, false, [], [], [], [], [], []⟩, logical := [],
    leases := Vector.replicate 4 ⟨0, 0, 0⟩, leader := 0, epoch := 0, qcnt := 0, qLast := 0, qOp := 0, quarantine := [],
    heldFree := [], usedPages := [], hbm := [],
    poison := [], corrected := [], ctrls := Vector.replicate 4 Ctrl.zero, hchain := Vector.replicate 256 0,
    chans := Vector.replicate 256 Channel.zero, ports := Vector.replicate 40 Port.zero,
    power := ⟨1600, 0, [], Vector.replicate 4 25, Vector.replicate 4 false, Vector.replicate 4 false⟩, host := [],
    cxl := true, pfStarve := 10000, pfNpLimit := 50000, fns := List.replicate 1025 Fn.zero,
    qslots := Vector.replicate 64 none, pendBits := [], lastServed := 0, msgs := [],
    parts := List.replicate 64 Partition.absent, ops := [], cpTurn := Vector.replicate 32 0, tags := [], opCtr := 0, fresh := 0, inputs := [], agenda := [],
    cur := ⟨.ctrl 0, 0⟩, visited := 0, arg := {} }

end Sys2Proof.Machine
end

