-- ==== Sys2Proof/Machine/Fp.lean ====
section
/-!
DEFINITION. Floating-point arithmetic (spec/07_arithmetic.md R135 to R139, R146, R147; spec/12 R234 to R237; spec/14 R278,
R279): exact arithmetic on dyadic numbers, rounded once.
-/

namespace Sys2Proof.Machine

/-! ### Flags (R137) -/

def fNX : Byte := 0x01
def fUF : Byte := 0x02
def fOF : Byte := 0x04
def fDZ : Byte := 0x08
def fNV : Byte := 0x10
def fSAT : Byte := 0x40
def fDAZ : Byte := 0x80

/-- A result's encoding with the flags it sets. -/
structure FR where
  bits : Nat
  flags : Byte
  deriving DecidableEq, Repr

/-! ### Formats (R135) -/

/-- A binary format: exponent and fraction bits. -/
structure FFmt where
  eb : Nat
  fb : Nat
  deriving DecidableEq, Repr

def fp32 : FFmt := ⟨8, 23⟩
def fp16 : FFmt := ⟨5, 10⟩
def bf16 : FFmt := ⟨8, 7⟩

def FFmt.bias (f : FFmt) : Int := 2 ^ (f.eb - 1) - 1
def FFmt.width (f : FFmt) : Nat := 1 + f.eb + f.fb
def FFmt.inf (f : FFmt) : Nat := (2 ^ f.eb - 1) * 2 ^ f.fb
def FFmt.signBit (f : FFmt) : Nat := 2 ^ (f.eb + f.fb)
/-- The canonical NaN (R136). -/
def FFmt.nan (f : FFmt) : Nat := f.inf + 2 ^ (f.fb - 1)
/-- The exponent of the least subnormal. -/
def FFmt.qmin (f : FFmt) : Int := 1 - f.bias - f.fb
/-- An encoding with a sign. -/
def FFmt.signed (f : FFmt) (neg : Bool) (x : Nat) : Nat := if neg then f.signBit + x else x

/-- A decoded number: a finite one is (-1)^neg × m × 2^e, a zero with m = 0. -/
inductive FV where
  | nan (sig : Bool)
  | inf (neg : Bool)
  | fin (neg : Bool) (m : Nat) (e : Int)
  deriving DecidableEq, Repr

/-- The number an encoding stands for (R135). -/
def FFmt.dec (f : FFmt) (x : Nat) : FV :=
  let neg := x / f.signBit % 2 = 1
  let mag := x % f.signBit
  let ex := mag / 2 ^ f.fb
  let fr := mag % 2 ^ f.fb
  if mag = f.inf then .inf neg
  else if f.inf < mag then .nan (fr < 2 ^ (f.fb - 1))
  else if ex = 0 then .fin neg fr f.qmin
  else .fin neg (fr + 2 ^ f.fb) (f.qmin + ex - 1)

def FV.isNan : FV → Bool
  | .nan _ => true
  | _ => false
def FV.isSnan : FV → Bool
  | .nan s => s
  | _ => false
def FV.isInf : FV → Bool
  | .inf _ => true
  | _ => false
def FV.isZero : FV → Bool
  | .fin _ m _ => m = 0
  | _ => false
def FV.neg? : FV → Bool
  | .nan _ => false
  | .inf n => n
  | .fin n _ _ => n
/-- The sign inverted. -/
def FV.flip : FV → FV
  | .nan s => .nan s
  | .inf n => .inf (!n)
  | .fin n m e => .fin (!n) m e

/-- Whether a magnitude of integer part s, remainder r of `half` twice, and a further part below, rounds up. -/
def roundsUp (rm : Rm) (neg : Bool) (odd : Bool) (r half : Nat) (sticky : Bool) : Bool :=
  match rm with
  | .rne => half < r || (r == half && (sticky || odd))
  | .rz => false
  | .ru => !neg && (r != 0 || sticky)
  | .rd => neg && (r != 0 || sticky)

/-- m × 2^e, with a further part below m's last bit when `sticky`, as a multiple of 2^q: the rounded multiple and whether
it is inexact. -/
def roundAt (rm : Rm) (neg : Bool) (m : Nat) (e q : Int) (sticky : Bool) : Nat × Bool :=
  if q ≤ e then (m * 2 ^ (e - q).toNat, sticky)
  else
    let sh := (q - e).toNat
    let s := m / 2 ^ sh
    let r := m % 2 ^ sh
    (if roundsUp rm neg (s % 2 == 1) r (2 ^ (sh - 1)) sticky then s + 1 else s, r != 0 || sticky)

/-- A positive magnitude m × 2^e (and a part below m's last bit when `sticky`), rounded once to a format: overflow and
underflow by R137 and R139, tininess after rounding (R234). A mode that keeps the largest finite value overflows when the
exact magnitude exceeds it (DEDUCED from spec/07's worked row for .rz, log entry 11). -/
def FFmt.round (f : FFmt) (rm : Rm) (neg : Bool) (m : Nat) (e : Int) (sticky : Bool) : FR :=
  if m = 0 then ⟨f.signed neg 0, if sticky then fNX ||| fUF else 0⟩
  else
    let ex : Int := (Nat.log2 m : Int) + e
    let q := max (ex - f.fb) f.qmin
    let r := roundAt rm neg m e q sticky
    let bits := (q - f.qmin).toNat * 2 ^ f.fb + r.1
    let toInf := match rm with
      | .rne => true
      | .rz => false
      | .ru => !neg
      | .rd => neg
    if f.inf ≤ bits || (!toInf && r.2 && bits == f.inf - 1) then
      ⟨f.signed neg (if toInf then f.inf else f.inf - 1), fOF ||| fNX⟩
    else
      let tiny := ex < 1 - f.bias &&
        !(ex == -f.bias && (roundAt rm neg m e (ex - f.fb) sticky).1 == 2 ^ (f.fb + 1))
      ⟨f.signed neg bits, if r.2 then (if tiny then fNX ||| fUF else fNX) else 0⟩

/-- An exact signed number i × 2^e rounded to a format; an exact zero takes the sign `zneg`. -/
def FFmt.roundI (f : FFmt) (rm : Rm) (i : Int) (e : Int) (zneg : Bool) : FR :=
  if i = 0 then ⟨f.signed zneg 0, 0⟩ else f.round rm (i < 0) i.natAbs e false

/-- The canonical NaN, with NV where `inv`. -/
def FFmt.nanR (f : FFmt) (inv : Bool) : FR := ⟨f.nan, if inv then fNV else 0⟩

/-- A finite number's integer at exponent `e0`, which is at most its own. -/
def finAt (neg : Bool) (m : Nat) (e e0 : Int) : Int :=
  let v : Int := (m * 2 ^ (e - e0).toNat : Nat)
  if neg then -v else v

/-- The sum of two numbers, rounded once (R234, R270). -/
def FFmt.addV (f : FFmt) (rm : Rm) (x y : FV) : FR :=
  match x, y with
  | .nan s, .nan t => f.nanR (s || t)
  | .nan s, _ => f.nanR s
  | _, .nan t => f.nanR t
  | .inf a, .inf b => if a = b then ⟨f.signed a f.inf, 0⟩ else f.nanR true
  | .inf a, _ => ⟨f.signed a f.inf, 0⟩
  | _, .inf b => ⟨f.signed b f.inf, 0⟩
  | .fin a m e, .fin b n g =>
    let e0 := min e g
    f.roundI rm (finAt a m e e0 + finAt b n g e0) e0
      (if m = 0 ∧ n = 0 then (if a = b then a else rm = .rd) else rm = .rd)

/-- The exact product of two numbers that are no NaN and not 0 × inf. -/
def mulV (x y : FV) : FV :=
  match x, y with
  | .nan s, _ => .nan s
  | _, .nan s => .nan s
  | .inf a, y => .inf (a != y.neg?)
  | x, .inf b => .inf (x.neg? != b)
  | .fin a m e, .fin b n g => .fin (a != b) (m * n) (e + g)

/-- 0 × inf, in either order. -/
def zeroTimesInf (x y : FV) : Bool := (x.isZero && y.isInf) || (x.isInf && y.isZero)

/-- The product, rounded once. -/
def FFmt.mulR (f : FFmt) (rm : Rm) (x y : FV) : FR :=
  if x.isNan || y.isNan then f.nanR (x.isSnan || y.isSnan)
  else if zeroTimesInf x y then f.nanR true
  else match mulV x y with
    | .nan s => f.nanR s
    | .inf n => ⟨f.signed n f.inf, 0⟩
    | .fin n m e => if m = 0 then ⟨f.signed n 0, 0⟩ else f.round rm n m e false

/-- x × y + z, exact, rounded once; 0 × inf is invalid even with a quiet NaN z (R235). -/
def FFmt.fmaV (f : FFmt) (rm : Rm) (x y z : FV) : FR :=
  if zeroTimesInf x y then f.nanR true
  else if x.isNan || y.isNan || z.isNan then f.nanR (x.isSnan || y.isSnan || z.isSnan)
  else f.addV rm (mulV x y) z

/-- The integer square root, by bits from bit k - 1 down. -/
def isqrtLoop : (k n r : Nat) → Nat
  | 0, _, r => r
  | k + 1, n, r => if (r + 2 ^ k) * (r + 2 ^ k) ≤ n then isqrtLoop k n (r + 2 ^ k) else isqrtLoop k n r

def isqrt (n : Nat) : Nat := isqrtLoop (Nat.log2 n / 2 + 1) n 0

/-- The quotient, rounded once (R234, R237). -/
def FFmt.divV (f : FFmt) (rm : Rm) (x y : FV) : FR :=
  match x, y with
  | .nan s, .nan t => f.nanR (s || t)
  | .nan s, _ => f.nanR s
  | _, .nan t => f.nanR t
  | .inf _, .inf _ => f.nanR true
  | .inf a, y => ⟨f.signed (a != y.neg?) f.inf, 0⟩
  | .fin a _ _, .inf b => ⟨f.signed (a != b) 0, 0⟩
  | .fin a m e, .fin b n g =>
    if n = 0 then (if m = 0 then f.nanR true else ⟨f.signed (a != b) f.inf, fDZ⟩)
    else if m = 0 then ⟨f.signed (a != b) 0, 0⟩
    else
      let k := Nat.log2 n + 64
      f.round rm (a != b) (m * 2 ^ k / n) (e - g - k) (m * 2 ^ k % n != 0)

/-- The square root, rounded once (R237); -0 gives -0. -/
def FFmt.sqrtV (f : FFmt) (rm : Rm) (x : FV) : FR :=
  match x with
  | .nan s => f.nanR s
  | .inf true => f.nanR true
  | .inf false => ⟨f.inf, 0⟩
  | .fin a m e =>
    if m = 0 then ⟨f.signed a 0, 0⟩
    else if a then f.nanR true
    else
      let odd := e % 2 != 0
      let n := (if odd then m * 2 else m) * 2 ^ 64
      let g := (if odd then e - 1 else e) / 2
      let s := isqrt n
      f.round rm false s (g - 32) (s * s != n)

/-- A conversion between formats (R139). -/
def FFmt.cvt (src dst : FFmt) (rm : Rm) (x : Nat) : FR :=
  match src.dec x with
  | .nan s => dst.nanR s
  | .inf n => ⟨dst.signed n dst.inf, 0⟩
  | .fin n m e => if m = 0 then ⟨dst.signed n 0, 0⟩ else dst.round rm n m e false

/-- An integer to a format (R139). -/
def FFmt.ofInt (f : FFmt) (rm : Rm) (i : Int) : FR := f.roundI rm i 0 false

/-- An integer with the flags its production sets. -/
structure IR where
  val : Int
  flags : Byte
  deriving DecidableEq, Repr

/-- A clamp to a range, setting `fl` when it clamps. -/
def clampI (lo hi : Int) (fl : Byte) (i : Int) : IR :=
  if i < lo then ⟨lo, fl⟩ else if hi < i then ⟨hi, fl⟩ else ⟨i, 0⟩

/-- A number to an integer of a range (R139). -/
def toIntV (rm : Rm) (lo hi : Int) (x : FV) : IR :=
  match x with
  | .nan _ => ⟨0, fNV⟩
  | .inf n => ⟨if n then lo else hi, fSAT ||| fNV⟩
  | .fin n m e =>
    let r := roundAt rm n m e 0 false
    let i : Int := if n then -(r.1 : Int) else r.1
    let c := clampI lo hi (fSAT ||| fNV ||| fNX) i
    ⟨c.val, c.flags ||| (if r.2 then fNX else 0)⟩

/-- The position of an encoding that is no NaN in -inf < … < -0 < +0 < … < +inf (R147). -/
def FFmt.key (f : FFmt) (x : Nat) : Int := if f.signBit ≤ x then -(x - f.signBit : Nat) - 1 else x

/-- Min and max of R146: a NaN operand gives the canonical NaN, no flag. -/
def FFmt.minMax (f : FFmt) (big : Bool) (x y : Nat) : Nat :=
  if (f.dec x).isNan || (f.dec y).isNan then f.nan
  else if big then (if f.key x < f.key y then y else x) else (if f.key y < f.key x then y else x)

/-- Min and max of R146 as a step of a row reduction, a micro-program or an expression: NV for a signalling NaN (R137). -/
def FFmt.minMaxR (f : FFmt) (big : Bool) (x y : Nat) : FR :=
  ⟨f.minMax big x y, if (f.dec x).isSnan || (f.dec y).isSnan then fNV else 0⟩

/-- FMinMax of R235: the number when only one operand is a NaN. -/
def fMinMax (big : Bool) (x y : Nat) : FR :=
  let a := fp32.dec x
  let b := fp32.dec y
  let fl := if a.isSnan || b.isSnan then fNV else 0
  if a.isNan && b.isNan then ⟨fp32.nan, fl⟩
  else if a.isNan then ⟨y, fl⟩
  else if b.isNan then ⟨x, fl⟩
  else ⟨fp32.minMax big x y, fl⟩

/-- The order of two numbers that are no NaN: -1, 0 or 1, with -0 equal to +0 (R236). -/
def cmpV (x y : FV) : Int :=
  match x, y with
  | .inf a, .inf b => if a = b then 0 else if a then -1 else 1
  | .inf a, _ => if a then -1 else 1
  | _, .inf b => if b then 1 else -1
  | .fin a m e, .fin b n g =>
    let e0 := min e g
    let d := finAt a m e e0 - finAt b n g e0
    if d < 0 then -1 else if d = 0 then 0 else 1
  | _, _ => 0

/-- The class mask of `fclass` (R237). -/
def fclassMask (x : Nat) : Nat :=
  match fp32.dec x with
  | .nan s => if s then 2 ^ 8 else 2 ^ 9
  | .inf n => if n then 2 ^ 0 else 2 ^ 7
  | .fin n m _ =>
    if m = 0 then (if n then 2 ^ 3 else 2 ^ 4)
    else if m < 2 ^ 23 then (if n then 2 ^ 2 else 2 ^ 5)
    else (if n then 2 ^ 1 else 2 ^ 6)

/-! ### Special functions (R278, R279): fixed-point series of 256 fraction bits, rounded once -/

/-- Fraction bits of the series. -/
def sfP : Nat := 256

/-- 2 × atanh(z / 2^sfP), by its series: z the argument, z2 its square, t the current power, k the next odd divisor. -/
def atanhLoop : (fuel : Nat) → (z2 t : Nat) → (k acc : Nat) → Nat
  | 0, _, _, _, acc => 2 * acc
  | n + 1, z2, t, k, acc => atanhLoop n z2 (t * z2 / 2 ^ sfP) (k + 2) (acc + t / k)

/-- ln 2 in fixed point: 2 × atanh(1/3). -/
def ln2Fix : Nat := let z := 2 ^ sfP / 3; atanhLoop 90 (z * z / 2 ^ sfP) z 1 0

/-- e^(y / 2^sfP) in fixed point, by its series from term k on. -/
def expLoop : (fuel : Nat) → (y t k acc : Nat) → Nat
  | 0, _, _, _, acc => acc
  | n + 1, y, t, k, acc => expLoop n y (t * y / 2 ^ sfP / k) (k + 1) (acc + t)

/-- 2^(x / 2^sfP) for x below 2^sfP, in fixed point. -/
def exp2Fix (x : Nat) : Nat := expLoop 64 (x * ln2Fix / 2 ^ sfP) (2 ^ sfP) 1 0

/-- 2^x rounded to FP32 (R278). -/
def exp2F (x : Nat) : FR :=
  match fp32.dec x with
  | .nan s => fp32.nanR s
  | .inf n => if n then ⟨0, 0⟩ else ⟨fp32.inf, 0⟩
  | .fin n m e =>
    if m = 0 then ⟨0x3F800000, 0⟩
    else if 8 ≤ (Nat.log2 m : Int) + e then
      (if n then fp32.round .rne false 1 (-400) true else ⟨fp32.inf, fOF ||| fNX⟩)
    else
      -- x as an integer number of 2^-149
      let v : Int := finAt n m e (-149)
      let ip := v / 2 ^ 149
      let fr := (v % 2 ^ 149).toNat
      if fr = 0 then fp32.round .rne false 1 ip false
      else fp32.round .rne false (exp2Fix (fr * 2 ^ (sfP - 149))) (ip - sfP) true

/-- ln(t) in fixed point for t = m / 2^w in [1, 2). -/
def lnFix (m w : Nat) : Nat :=
  let z := (m - 2 ^ w) * 2 ^ sfP / (m + 2 ^ w)
  atanhLoop 90 (z * z / 2 ^ sfP) z 1 0

/-- log2 x rounded to FP32 (R278). -/
def log2F (x : Nat) : FR :=
  match fp32.dec x with
  | .nan s => fp32.nanR s
  | .inf n => if n then fp32.nanR true else ⟨fp32.inf, 0⟩
  | .fin n m e =>
    if m = 0 then ⟨fp32.signed true fp32.inf, fDZ⟩
    else if n then fp32.nanR true
    else
      let w := Nat.log2 m
      let k : Int := w + e
      if m = 2 ^ w then fp32.ofInt .rne k
      else
        let v : Int := k * 2 ^ sfP + (lnFix m w * 2 ^ sfP / ln2Fix : Nat)
        fp32.round .rne (v < 0) v.natAbs (-sfP) true

/-- 1 / x rounded to FP32 (R278). -/
def rcpF (x : Nat) : FR := fp32.divV .rne (.fin false 1 0) (fp32.dec x)

/-- 1 / √x rounded to FP32 (R278). -/
def rsqF (x : Nat) : FR :=
  match fp32.dec x with
  | .nan s => fp32.nanR s
  | .inf n => if n then fp32.nanR true else ⟨0, 0⟩
  | .fin n m e =>
    if m = 0 then ⟨fp32.signed n fp32.inf, fDZ⟩
    else if n then fp32.nanR true
    else
      let odd := e % 2 != 0
      let d := if odd then m * 2 else m
      let g := (if odd then e - 1 else e) / 2
      let s := isqrt (2 ^ 160 / d)
      fp32.round .rne false s (-80 - g) (s * s * d != 2 ^ 160)

/-- FP32 sum, product and fused product with one rounding, on encodings. -/
def f32add (x y : Nat) : FR := fp32.addV .rne (fp32.dec x) (fp32.dec y)
def f32sub (x y : Nat) : FR := fp32.addV .rne (fp32.dec x) (fp32.dec y).flip
def f32mul (x y : Nat) : FR := fp32.mulR .rne (fp32.dec x) (fp32.dec y)
def f32fma (x y z : Nat) : FR := fp32.fmaV .rne (fp32.dec x) (fp32.dec y) (fp32.dec z)

/-- Sig of R279, the bits alone. -/
def sigBits (x : Nat) : Nat :=
  let t := (f32mul x 0xBFB8AA3B).bits
  let u := (f32add 0x3F800000 (exp2F t).bits).bits
  (rcpF u).bits

/-- Tanh of R279, the bits alone. -/
def tanhBits (x : Nat) : Nat :=
  let small := match fp32.dec x with
    | .fin _ m e => m = 0 || (Nat.log2 m : Int) + e < -12
    | _ => false
  if small then x else (f32fma 0x40000000 (sigBits (f32mul 0x40000000 x).bits) 0xBF800000).bits

/-- The flags of `vtanh` and `vsig` (R279): NV for a signalling NaN, NX for a finite non-zero result. -/
def compR (g : Nat → Nat) (x : Nat) : FR :=
  match fp32.dec x with
  | .nan s => fp32.nanR s
  | _ =>
    let r := g x
    match fp32.dec r with
    | .fin _ m _ => ⟨r, if m = 0 then 0 else fNX⟩
    | _ => ⟨r, 0⟩

def sigF (x : Nat) : FR := compR sigBits x
def tanhF (x : Nat) : FR := compR tanhBits x

end Sys2Proof.Machine
end

