-- ==== Sys2Proof/WellFormed.lean ====
section
/-!
DEFINITION. Which instructions have an encoding: the limits of the operand fields beyond their types (spec/11 R219, R220;
the instruction chapters, spec/12 to spec/16). The rows that are steps of the package have no encoding and no limit here.
-/

namespace Sys2Proof

/-- Token k of an expression token word (R283). -/
def exprToken (w : Word) (k : Nat) : Nat := (w.extractLsb' (4 * k) 4).toNat

/-- The depth of the lane's stack after a token, or none where it underflows or exceeds 4 entries (R283). -/
def exprDepth (tok depth : Nat) : Option Nat :=
  let r : Option Nat :=
    if tok = 0xF ∨ (1 ≤ tok ∧ tok ≤ 4) then some (depth + 1)
    else if tok = 0xD then (if depth = 0 then none else some (depth + 1))
    else if tok = 0xE then (if depth < 2 then none else some depth)
    else if tok = 0xA then (if depth < 3 then none else some (depth - 2))
    else if tok = 0xB ∨ tok = 0xC then (if depth = 0 then none else some depth)
    else (if depth < 2 then none else some (depth - 1))
  r.bind fun d => if d ≤ 4 then some d else none

/-- The check of a token word from token k on: `ops` operators so far, at `depth` entries (R283). -/
def exprCheck (w : Word) : (fuel k depth ops : Nat) → Bool
  | 0, _, _, _ => false
  | fuel + 1, k, depth, ops =>
    let tok := exprToken w k
    if tok = 0 then depth = 1 && ops ≤ 7 && (w >>> (4 * k)) = 0
    else match exprDepth tok depth with
      | none => false
      | some d => exprCheck w fuel (k + 1) d (if 5 ≤ tok ∧ tok ≤ 0xC then ops + 1 else ops)

/-- A token word that `expr` accepts (R283). -/
def exprOk (w : Word) : Bool := exprCheck w 16 0 0 0

/-- The CSR numbers that the map assigns in task and handler mode (R316). -/
def csrAssigned (n : BitVec 12) : Bool :=
  let k := n.toNat
  k ≤ 6 || (8 ≤ k && k ≤ 0x13) || (0x20 ≤ k && k ≤ 0x23) || (0x40 ≤ k && k ≤ 0x46) || (0x80 ≤ k && k ≤ 0x9F)
    || (0x100 ≤ k && k ≤ 0x10F) || (0x110 ≤ k && k ≤ 0x114) || (0x118 ≤ k && k ≤ 0x11A) || k = 0x120

/-- The CSR numbers that the map assigns in firmware mode (R316). -/
def csrFirmware (n : BitVec 12) : Bool :=
  let k := n.toNat
  (3 ≤ k && k ≤ 5) || (8 ≤ k && k ≤ 0x13) || (0x20 ≤ k && k ≤ 0x23) || k = 0x41

/-- Order and scope of a load: relaxed with scope 0, or acquire (R248). -/
def AtomOp.loadOk (m : AtomOp) : Bool := (m.order = .relaxed && m.scope = .thr) || m.order = .acq
/-- Order and scope of a store: relaxed with scope 0, or release (R248). -/
def AtomOp.storeOk (m : AtomOp) : Bool := (m.order = .relaxed && m.scope = .thr) || m.order = .rel
/-- An `mma` A format (R287). -/
def Fmt7.mmaOk (f : Fmt7) : Bool := f != .i32 && f != .f32
/-- An `mldt` A format (R291). -/
def Fmt7.mldtOk (f : Fmt7) : Bool := f != .i32

/-- A source of `mpdef`'s, `fix`'s and `wbk`'s lengths in granules (R262). -/
def wbkLenOk (len : BitVec 13) : Bool := 1 ≤ len.toNat && len.toNat ≤ 6144

/-- The instruction has an encoding, or is a step of the package. -/
def Instr.wf : Instr → Bool
  | .ldBAtom _ m | .ldBuAtom _ m | .ldHAtom _ m | .ldHuAtom _ m | .ldWAtom _ m | .ldWuAtom _ m | .ldDAtom _ m => m.loadOk
  | .stBAtom _ m | .stHAtom _ m | .stWAtom _ m | .stDAtom _ m => m.storeOk
  | .fence o _ => o != .relaxed
  | .wbk _ _ _ len _ _ => wbkLenOk len
  | .expr w _ _ _ _ => exprOk w
  | .mma af n q _ _ _ _ _ _ => af.mmaOk && (n != .n32 || q = 0)
  | .mldt af _ _ _ _ => af.mldtOk
  | .quant col _ _ pitch _ _ _ _ => col || pitch = 0
  | .cpost _ _ _ _ _ _ => true
  | .csrr _ n | .csrwReg n _ | .csrwImm n _ => csrAssigned n
  | _ => true

end Sys2Proof
end

