-- ==== Sys2Proof/Decode.lean ====
section
/-!
DEFINITION. Lines, heads, tails and issue units (spec/11_formats_and_opcode_map.md R209 to R221), the decoder of a
governed head, and the encoder written from the same tables.
-/

namespace Sys2Proof

/-! ### Bytes -/

/-- A little-endian number from its bytes. -/
def leNat : List Byte → Nat
  | [] => 0
  | b :: bs => b.toNat + 256 * leNat bs

/-- The `n` little-endian bytes of a number. -/
def leBytes : Nat → Nat → List Byte
  | 0, _ => []
  | n + 1, v => BitVec.ofNat 8 v :: leBytes n (v / 256)

/-- `n` bytes from position `i`. -/
def bytesAt (bs : List Byte) (i n : Nat) : List Byte := (bs.drop i).take n

/-! ### Heads (R212) -/

def headTL (h : BitVec 16) : Nat := (h.extractLsb' 14 2).toNat
def headOP (h : BitVec 16) : Nat := (h.extractLsb' 8 6).toNat
def headGap (h : BitVec 16) : Nat := (h.extractLsb' 5 3).toNat
def headSW (h : BitVec 16) : Bool := h.getLsbD 4
def headEnd (h : BitVec 16) : Bool := h.getLsbD 3
def headFN (h : BitVec 16) : Nat := (h.extractLsb' 0 3).toNat

/-- The bytes of a tail by its head (R209). -/
def tailLen (h : BitVec 16) : Nat := if headTL h = 0 then 0 else 2 ^ headTL h

/-- A head with its tail, zero-extended. -/
structure HT where
  head : BitVec 16
  tail : BitVec 64
  deriving DecidableEq, Repr

/-- Heads from index i on, up to and with the first END head (R209). -/
def lineHeads (bs : List Byte) : (fuel i : Nat) → Option (List (BitVec 16))
  | 0, _ => none
  | fuel + 1, i =>
    let h : BitVec 16 := BitVec.ofNat 16 (leNat (bytesAt bs (2 * i) 2))
    if headEnd h then some [h] else (lineHeads bs fuel (i + 1)).map (h :: ·)

/-- The tails of the heads, from the top of the line down (R209). -/
def lineTails (bs : List Byte) : (cum : Nat) → List (BitVec 16) → List HT
  | _, [] => []
  | cum, h :: hs =>
    let len := tailLen h
    ⟨h, BitVec.ofNat 64 (leNat (bytesAt bs (64 - cum - len) len))⟩ :: lineTails bs (cum + len) hs

/-- DecodeLine of R209: the heads and tails of a legal line, or none for an illegal one. -/
def decodeLine (bs : List Byte) : Option (List HT) :=
  match lineHeads bs 32 0 with
  | none => none
  | some hs =>
    let cum := (hs.map tailLen).sum
    if 2 * hs.length + cum > 64 then none else some (lineTails bs 0 hs)

/-! ### Prefixes and issue units (R213, R214) -/

inductive PfxKind where
  | pred | wide | token
  deriving DecidableEq, Repr

/-- The prefix a head is, by its OP and FN (R213). -/
def pfxKind (h : BitVec 16) : Option PfxKind :=
  if headOP h = 1 ∧ headFN h ≠ 0 then some .pred
  else if headOP h = 2 ∧ headFN h = 0 then some .wide
  else if headOP h = 2 ∧ headFN h = 1 then some .token
  else none

/-- The wide or token prefix of a unit, with its tail. -/
inductive Pfx where
  | none
  | wide (v : Word)
  | token (w : Word)
  deriving DecidableEq, Repr

/-- A raw unit: its prefixes and its governed head, or none where the line ends before one. -/
structure RawUnit where
  pfxs : List HT
  gov : Option HT
  deriving DecidableEq, Repr

/-- The unit at the start of a list of heads (R213). -/
def rawUnit : List HT → RawUnit
  | [] => ⟨[], none⟩
  | x :: xs =>
    match pfxKind x.head with
    | none => ⟨[], some x⟩
    | some _ => let r := rawUnit xs; ⟨x :: r.pfxs, r.gov⟩

/-- How many heads a unit takes. -/
def RawUnit.size (u : RawUnit) : Nat := u.pfxs.length + (if u.gov.isSome then 1 else 0)

/-- Which head indexes of a line begin a unit (R213, R217): `start` says whether the next head begins one. -/
def unitStarts : (start : Bool) → List HT → List Bool
  | _, [] => []
  | start, x :: xs => start :: unitStarts (pfxKind x.head).isNone xs

/-- Why a unit is malformed: an orphan prefix, or ILLEGAL_OP with the head at fault (R214). -/
inductive UnitErr where
  | orphan
  | illegal (h : BitVec 16)
  deriving DecidableEq, Repr

/-- A prefix head whose TL differs from R213. -/
def pfxBadTL (x : HT) : Bool :=
  match pfxKind x.head with
  | some .pred => headTL x.head != 0
  | some _ => headTL x.head != 3
  | none => false

/-- The first wide or token prefix that follows a wide or token prefix (R214). -/
def secondWide : (seen : Bool) → List HT → Option (BitVec 16)
  | _, [] => none
  | seen, x :: xs =>
    if pfxKind x.head = some .pred then secondWide seen xs
    else if seen then some x.head else secondWide true xs

/-- The predicate number of a unit, 0 without a predicate prefix. -/
def unitPred (pfxs : List HT) : Preg :=
  match pfxs with
  | x :: _ => if pfxKind x.head = some .pred then (x.head.extractLsb' 0 3).toFin else 0
  | [] => 0

/-- The wide or token prefix of a unit. -/
def unitPfx : List HT → Pfx
  | [] => .none
  | x :: xs =>
    match pfxKind x.head with
    | some .wide => .wide x.tail
    | some .token => .token x.tail
    | _ => unitPfx xs

/-- The checks of R214 on the prefixes, in its order. -/
def pfxCheck (u : RawUnit) : Option UnitErr :=
  match u.gov with
  | none => some .orphan
  | some _ =>
    match u.pfxs.find? pfxBadTL with
    | some x => some (.illegal x.head)
    | none =>
      match (u.pfxs.drop 1).find? fun x => pfxKind x.head == some .pred with
      | some x => some (.illegal x.head)
      | none => (secondWide false u.pfxs).map .illegal

/-! ### Codes of R219 -/

def Space.ofCode (c : BitVec 3) : Option Space :=
  match c.toNat with
  | 0 => some .w | 1 => some .a | 2 => some .c | 3 => some .g | 4 => some .m | _ => none
def Space.code : Space → BitVec 3
  | .w => 0 | .a => 1 | .c => 2 | .g => 3 | .m => 4

def Scope.ofCode (c : BitVec 3) : Option Scope :=
  match c.toNat with
  | 0 => some .thr | 1 => some .tile | 2 => some .pod | 3 => some .part | 4 => some .pkg | 5 => some .sys | _ => none
def Scope.code : Scope → BitVec 3
  | .thr => 0 | .tile => 1 | .pod => 2 | .part => 3 | .pkg => 4 | .sys => 5

def Order.ofCode (c : BitVec 3) : Option Order :=
  match c.toNat with
  | 0 => some .relaxed | 1 => some .acq | 2 => some .rel | 3 => some .ar | _ => none
def Order.code : Order → BitVec 3
  | .relaxed => 0 | .acq => 1 | .rel => 2 | .ar => 3

def Rm.ofCode (c : BitVec 2) : Rm :=
  match c.toNat with
  | 0 => .rne | 1 => .rz | 2 => .ru | _ => .rd
def Rm.code : Rm → BitVec 2
  | .rne => 0 | .rz => 1 | .ru => 2 | .rd => 3

def RedOp.ofCode (c : BitVec 4) : Option RedOp :=
  match c.toNat with
  | 0 => some .iadd | 1 => some .fadd | 2 => some .min | 3 => some .max | 4 => some .maxi | 5 => some .mini
  | 6 => some .mul | 7 => some .and | 8 => some .or | 9 => some .xor | _ => none
def RedOp.code : RedOp → BitVec 4
  | .iadd => 0 | .fadd => 1 | .min => 2 | .max => 3 | .maxi => 4 | .mini => 5 | .mul => 6 | .and => 7 | .or => 8 | .xor => 9

def Fmt7.ofCode (c : BitVec 3) : Option Fmt7 :=
  match c.toNat with
  | 0 => some .i8 | 1 => some .u8 | 2 => some .i16 | 3 => some .i32 | 4 => some .f16 | 5 => some .bf16 | 6 => some .f32
  | _ => none
def Fmt7.code : Fmt7 → BitVec 3
  | .i8 => 0 | .u8 => 1 | .i16 => 2 | .i32 => 3 | .f16 => 4 | .bf16 => 5 | .f32 => 6

def Keep.ofCode (c : BitVec 2) : Option Keep :=
  match c.toNat with
  | 0 => some .n32 | 1 => some .n16 | 2 => some .n8 | _ => none
def Keep.code : Keep → BitVec 2
  | .n32 => 0 | .n16 => 1 | .n8 => 2

def SigOp.ofCode (c : BitVec 2) : Option SigOp :=
  match c.toNat with
  | 1 => some .set | 2 => some .add | 3 => some .maxu | _ => none
def SigOp.code : SigOp → BitVec 2
  | .set => 1 | .add => 2 | .maxu => 3

def Buf.ofCode (c : BitVec 2) : Option Buf :=
  match c.toNat with
  | 0 => some .w | 1 => some .a | 2 => some .c | _ => none
def Buf.code : Buf → BitVec 2
  | .w => 0 | .a => 1 | .c => 2

/-! ### The decoder of a governed head (R219 to R222, and the tails of the instruction chapters) -/

/-- Bits <lo + n - 1 : lo> of a tail. -/
abbrev tf (t : BitVec 64) (lo n : Nat) : BitVec n := t.extractLsb' lo n

/-- The reserved bits <lo + n - 1 : lo> are clear (R220). -/
def rz (t : BitVec 64) (lo n : Nat) : Bool := tf t lo n == 0

def tS (t : BitVec 64) (lo : Nat) : Sreg := (tf t lo 5).toFin
def tP (t : BitVec 64) (lo : Nat) : Preg := (tf t lo 3).toFin
def tV (t : BitVec 64) (lo : Nat) : Row := (tf t lo 6).toFin

/-- The instruction where a condition on the reserved bits holds. -/
def onlyIf (c : Bool) (i : Instr) : Option Instr := if c then some i else none

/-- The second operand of class RRI: the sign-extended field, or a wide prefix's value over a zero field (R214, R216). -/
def rriImm (t : BitVec 64) (p : Pfx) : Option Word :=
  match p with
  | .none => some ((tf t 10 22).signExtend 64)
  | .wide v => if rz t 10 22 then some v else none
  | .token _ => none

/-- Rows with a register form and an immediate form (R227). -/
def dAlu (tl : Nat) (t : BitVec 64) (p : Pfx) (r : Sreg → Sreg → Sreg → Instr) (i : Sreg → Sreg → Word → Instr) : Option Instr :=
  match tl with
  | 1 => onlyIf (p == .none && rz t 15 1) (r (tS t 0) (tS t 5) (tS t 10))
  | 2 => (rriImm t p).map fun y => i (tS t 0) (tS t 5) y
  | _ => none

/-- `clz` and `popc`: field b or the immediate is reserved (R229). -/
def dUn2 (tl : Nat) (t : BitVec 64) (p : Pfx) (f : Sreg → Sreg → Instr) : Option Instr :=
  match tl with
  | 1 => onlyIf (p == .none && rz t 10 6) (f (tS t 0) (tS t 5))
  | 2 => (rriImm t p).bind fun y => onlyIf (y == 0) (f (tS t 0) (tS t 5))
  | _ => none

/-- Compares: field d names a predicate (R232). -/
def dCmp (tl : Nat) (t : BitVec 64) (p : Pfx) (r : Preg → Sreg → Sreg → Instr) (i : Preg → Sreg → Word → Instr) : Option Instr :=
  if !rz t 3 2 then none else
  match tl with
  | 1 => onlyIf (p == .none && rz t 15 1) (r (tP t 0) (tS t 5) (tS t 10))
  | 2 => (rriImm t p).map fun y => i (tP t 0) (tS t 5) y
  | _ => none

/-- Class RRR with three scalars, without a prefix. -/
def dRRR (tl : Nat) (t : BitVec 64) (p : Pfx) (f : Sreg → Sreg → Sreg → Instr) : Option Instr :=
  onlyIf (tl == 1 && p == .none && rz t 15 1) (f (tS t 0) (tS t 5) (tS t 10))

/-- Class RRR with b reserved. -/
def dRR (tl : Nat) (t : BitVec 64) (p : Pfx) (f : Sreg → Sreg → Instr) : Option Instr :=
  onlyIf (tl == 1 && p == .none && rz t 10 6) (f (tS t 0) (tS t 5))

/-- Class RRR with a rounding mode in b<1:0> (R237). -/
def dRRm (tl : Nat) (t : BitVec 64) (p : Pfx) (f : Rm → Sreg → Sreg → Instr) : Option Instr :=
  onlyIf (tl == 1 && p == .none && rz t 12 4) (f (Rm.ofCode (tf t 10 2)) (tS t 0) (tS t 5))

/-- FP compares (R236). -/
def dFcmp (tl : Nat) (t : BitVec 64) (p : Pfx) (f : Preg → Sreg → Sreg → Instr) : Option Instr :=
  onlyIf (tl == 1 && p == .none && rz t 15 1 && rz t 3 2) (f (tP t 0) (tS t 5) (tS t 10))

/-- Three predicates (R233). -/
def dPPP (tl : Nat) (t : BitVec 64) (p : Pfx) (f : Preg → Preg → Preg → Instr) : Option Instr :=
  onlyIf (tl == 1 && p == .none && rz t 13 3 && rz t 8 2 && rz t 3 2) (f (tP t 0) (tP t 5) (tP t 10))

/-- Two predicates (R233). -/
def dPP (tl : Nat) (t : BitVec 64) (p : Pfx) (f : Preg → Preg → Instr) : Option Instr :=
  onlyIf (tl == 1 && p == .none && rz t 8 8 && rz t 3 2) (f (tP t 0) (tP t 5))

/-- A branch target of class BR (R219). -/
def dTarget (t : BitVec 64) : Option Target :=
  if rz t 29 3 then some ⟨tf t 5 24, tf t 0 5⟩ else none

/-- A memory operand of class MEM. -/
def dMem (t : BitVec 64) : Option MemOp := (Space.ofCode (tf t 10 3)).map fun s => ⟨tf t 13 19, s, tS t 5⟩

/-- A memory operand of class ATOM. -/
def dAtom (t : BitVec 64) : Option AtomOp :=
  if !rz t 29 3 then none else
  match Space.ofCode (tf t 26 3), Scope.ofCode (tf t 23 3), Order.ofCode (tf t 20 3) with
  | some s, some sc, some o => some ⟨tf t 32 32, s, sc, o, tS t 5⟩
  | _, _, _ => none

/-- Loads and stores: TL 2 is class MEM, TL 3 class ATOM with the orders that `ok` allows (R248). -/
def dLdSt (tl : Nat) (t : BitVec 64) (p : Pfx) (ok : AtomOp → Bool) (f : Sreg → MemOp → Instr) (g : Sreg → AtomOp → Instr) :
    Option Instr :=
  if p != .none then none else
  match tl with
  | 2 => (dMem t).map (f (tS t 0))
  | 3 => (dAtom t).bind fun m => onlyIf (ok m && rz t 10 10) (g (tS t 0) m)
  | _ => none

/-- Atomics with one operand (R251). A space other than `g:` and `m:` is refused by the check of the access (R247). -/
def dAmo (tl : Nat) (t : BitVec 64) (p : Pfx) (f : Sreg → AtomOp → Sreg → Instr) : Option Instr :=
  if p != .none || tl != 3 then none else
  (dAtom t).bind fun m => onlyIf (rz t 15 5) (f (tS t 0) m (tS t 10))

/-- Ring instructions (R253). -/
def dRing (tl : Nat) (t : BitVec 64) (p : Pfx) (f : Hnd → Sreg → Word → Instr) : Option Instr :=
  if tl != 2 || !rz t 4 1 then none else
  (rriImm t p).map fun y => f (tf t 0 4).toFin (tS t 5) y

/-- Token fields of class ENG (R299). -/
def dTok (t : BitVec 64) : TokF := ⟨t.getLsbD 4, (tf t 0 4).toFin⟩

/-- `fix` and `fix.end` (R257). -/
def dFix (tl : Nat) (t : BitVec 64) (p : Pfx) (f : BitVec 32 → Fin 17 → BitVec 22 → Instr) : Option Instr :=
  if tl != 3 || p != .none || !rz t 0 5 then none else
  if h : (tf t 27 5).toNat < 17 then some (f (tf t 32 32) ⟨(tf t 27 5).toNat, h⟩ (tf t 5 22)) else none

/-- The second operand of class VEC: bit 24 is B (R267). -/
def dVB (t : BitVec 64) : Option VB :=
  if t.getLsbD 24 then (if rz t 17 1 then some (.scalar (tS t 12)) else none) else some (.row (tV t 12))

/-- Row 0x18 without vc (R270). -/
def dV2 (t : BitVec 64) (f : Row → Row → VB → Bool → Instr) : Option Instr :=
  (dVB t).bind fun b => onlyIf (rz t 26 6 && rz t 18 6) (f (tV t 0) (tV t 6) b (t.getLsbD 25))

/-- Row 0x19 with B (R271). -/
def dV1 (t : BitVec 64) (f : Row → Row → VB → Instr) : Option Instr :=
  (dVB t).bind fun b => onlyIf (rz t 25 7 && rz t 18 6) (f (tV t 0) (tV t 6) b)

def dec03 (tl fn : Nat) (t : BitVec 64) (p : Pfx) : Option Instr :=
  match fn with
  | 0 => dAlu tl t p .addReg .addImm
  | 1 => dAlu tl t p .subReg .subImm
  | 2 => dAlu tl t p .andReg .andImm
  | 3 => dAlu tl t p .orReg .orImm
  | 4 => dAlu tl t p .xorReg .xorImm
  | 5 => dAlu tl t p .shlReg .shlImm
  | 6 => dAlu tl t p .shrReg .shrImm
  | _ => dAlu tl t p .sraReg .sraImm

def dec04 (tl fn : Nat) (t : BitVec 64) (p : Pfx) : Option Instr :=
  match fn with
  | 0 => dAlu tl t p .mulReg .mulImm
  | 1 => dAlu tl t p .mulhReg .mulhImm
  | 2 => dAlu tl t p .mulhuReg .mulhuImm
  | 3 => dAlu tl t p .divReg .divImm
  | 4 => dAlu tl t p .divuReg .divuImm
  | 5 => dAlu tl t p .remReg .remImm
  | 6 => dAlu tl t p .remuReg .remuImm
  | _ => none

def dec05 (tl fn : Nat) (t : BitVec 64) (p : Pfx) : Option Instr :=
  match fn with
  | 0 => dAlu tl t p .minReg .minImm
  | 1 => dAlu tl t p .maxReg .maxImm
  | 2 => dAlu tl t p .minuReg .minuImm
  | 3 => dAlu tl t p .maxuReg .maxuImm
  | 4 => dAlu tl t p .andnReg .andnImm
  | 5 => dAlu tl t p .ornReg .ornImm
  | 6 => dUn2 tl t p .clz
  | _ => dUn2 tl t p .popc

def dec06 (tl fn : Nat) (t : BitVec 64) (p : Pfx) : Option Instr :=
  match fn with
  | 0 => if tl == 1 then dRR tl t p .movReg
         else if tl == 2 && rz t 5 5 then (rriImm t p).map (.movImm (tS t 0)) else none
  | 1 => onlyIf (tl == 2 && p == .none && rz t 20 12 && rz t 18 2) (.sel (tS t 0) (tP t 15) (tS t 5) (tS t 10))
  | 2 => if tl != 2 then none else (rriImm t p).bind fun y =>
           onlyIf (y.extractLsb' 6 58 == 0) (.sext (tS t 0) (tS t 5) (y.setWidth 6))
  | 3 => if tl != 2 then none else (rriImm t p).bind fun y =>
           onlyIf (y.extractLsb' 6 58 == 0) (.zext (tS t 0) (tS t 5) (y.setWidth 6))
  | _ => none

def dec07 (tl fn : Nat) (t : BitVec 64) (p : Pfx) : Option Instr :=
  match fn with
  | 0 => dCmp tl t p .cmpEqReg .cmpEqImm
  | 1 => dCmp tl t p .cmpNeReg .cmpNeImm
  | 2 => dCmp tl t p .cmpLtReg .cmpLtImm
  | 3 => dCmp tl t p .cmpGeReg .cmpGeImm
  | 4 => dCmp tl t p .cmpLtuReg .cmpLtuImm
  | 5 => dCmp tl t p .cmpGeuReg .cmpGeuImm
  | _ => none

def dec08 (tl fn : Nat) (t : BitVec 64) (p : Pfx) : Option Instr :=
  match fn with
  | 0 => dRRR tl t p .fadd
  | 1 => dRRR tl t p .fsub
  | 2 => dRRR tl t p .fmul
  | 3 => dRRR tl t p .fmin
  | 4 => dRRR tl t p .fmax
  | 5 => dRR tl t p .fabs
  | 6 => dRR tl t p .fneg
  | _ => onlyIf (tl == 2 && p == .none && rz t 20 12) (.fma (tS t 0) (tS t 5) (tS t 10) (tS t 15))

def dec09 (tl fn : Nat) (t : BitVec 64) (p : Pfx) : Option Instr :=
  match fn with
  | 0 => dFcmp tl t p .fcmpEq
  | 1 => dFcmp tl t p .fcmpNe
  | 2 => dFcmp tl t p .fcmpLt
  | 3 => dFcmp tl t p .fcmpLe
  | 4 => dFcmp tl t p .fcmpUn
  | _ => none

def dec0A (tl fn : Nat) (t : BitVec 64) (p : Pfx) : Option Instr :=
  match fn with
  | 0 => dRRR tl t p .fdiv
  | 1 => dRR tl t p .fsqrt
  | 2 => dRRm tl t p .fcvtS
  | 3 => dRRm tl t p .fcvtU
  | 4 => dRRm tl t p .scvtF
  | 5 => dRRm tl t p .ucvtF
  | 6 => dRR tl t p .fclass
  | _ => none

def dec0B (tl fn : Nat) (t : BitVec 64) (p : Pfx) : Option Instr :=
  match fn with
  | 0 => dPPP tl t p .pand
  | 1 => dPPP tl t p .por
  | 2 => dPPP tl t p .pxor
  | 3 => dPP tl t p .pnot
  | 4 => dPP tl t p .pmov
  | 5 => onlyIf (tl == 1 && p == .none && rz t 6 10 && rz t 3 2) (.pset (tP t 0) (t.getLsbD 5))
  | 6 => onlyIf (tl == 1 && p == .none && rz t 5 11) (.psave (tS t 0))
  | _ => onlyIf (tl == 1 && p == .none && rz t 10 6 && rz t 0 5) (.pload (tS t 5))

def dec0C (tl fn : Nat) (t : BitVec 64) (p : Pfx) : Option Instr :=
  if p != .none then none else
  match fn with
  | 0 => if tl != 2 then none else (dTarget t).map .br
  | 1 => onlyIf (tl == 1 && rz t 10 6 && rz t 0 5) (.brr (tS t 5))
  | 2 => if tl != 2 then none else (dTarget t).map .call
  | 3 => onlyIf (tl == 1 && rz t 10 6 && rz t 0 5) (.callr (tS t 5))
  | 4 => onlyIf (tl == 1 && rz t 0 16) .ret
  | 5 => if tl != 3 then none else (dTarget t).bind fun tg =>
           if t.getLsbD 34 then onlyIf (rz t 35 5) (.loop (tf t 32 2).toFin (.imm (tf t 40 24)) tg)
           else onlyIf (rz t 40 24) (.loop (tf t 32 2).toFin (.reg (tS t 35)) tg)
  | 6 => onlyIf (tl == 1 && rz t 2 14) (.lexit (tf t 0 2).toFin)
  | _ => none

/-- The byte count of `enter` and `leave`: below 2^21 and a multiple of 8, under a prefix too (R244). -/
def dFrame (tl : Nat) (t : BitVec 64) (p : Pfx) (f : BitVec 18 → Instr) : Option Instr :=
  if tl != 2 || !rz t 0 10 then none else
  match p with
  | .none => onlyIf (rz t 31 1 && rz t 10 3) (f (tf t 13 18))
  | .wide v => onlyIf (rz t 10 22 && v.extractLsb' 21 43 == 0 && v.extractLsb' 0 3 == 0) (f (v.extractLsb' 3 18))
  | .token _ => none

def dec0D (tl fn : Nat) (t : BitVec 64) (p : Pfx) : Option Instr :=
  match fn with
  | 0 => dFrame tl t p .enter
  | 1 => dFrame tl t p .leave
  | _ => none

def dec10 (tl fn : Nat) (t : BitVec 64) (p : Pfx) : Option Instr :=
  match fn with
  | 0 => dLdSt tl t p (·.loadOk) .ldBMem .ldBAtom
  | 1 => dLdSt tl t p (·.loadOk) .ldBuMem .ldBuAtom
  | 2 => dLdSt tl t p (·.loadOk) .ldHMem .ldHAtom
  | 3 => dLdSt tl t p (·.loadOk) .ldHuMem .ldHuAtom
  | 4 => dLdSt tl t p (·.loadOk) .ldWMem .ldWAtom
  | 5 => dLdSt tl t p (·.loadOk) .ldWuMem .ldWuAtom
  | 6 => dLdSt tl t p (·.loadOk) .ldDMem .ldDAtom
  | _ => none

def dec11 (tl fn : Nat) (t : BitVec 64) (p : Pfx) : Option Instr :=
  match fn with
  | 0 => dLdSt tl t p (·.storeOk) .stBMem .stBAtom
  | 1 => dLdSt tl t p (·.storeOk) .stHMem .stHAtom
  | 2 => dLdSt tl t p (·.storeOk) .stWMem .stWAtom
  | 3 => dLdSt tl t p (·.storeOk) .stDMem .stDAtom
  | _ => none

def dec12 (tl fn : Nat) (t : BitVec 64) (p : Pfx) : Option Instr :=
  match fn with
  | 0 => dAmo tl t p .amoAdd
  | 1 => dAmo tl t p .amoAnd
  | 2 => dAmo tl t p .amoOr
  | 3 => dAmo tl t p .amoXor
  | 4 => dAmo tl t p .amoMin
  | 5 => dAmo tl t p .amoMax
  | 6 => dAmo tl t p .amoMinu
  | _ => dAmo tl t p .amoMaxu

def dec13 (tl fn : Nat) (t : BitVec 64) (p : Pfx) : Option Instr :=
  match fn with
  | 0 => if p != .none || tl != 3 then none else
         (dAtom t).map fun m => .cas (tS t 0) m (tS t 10) (tS t 15)
  | 1 => dAmo tl t p .swap
  | 2 => if tl != 1 || p != .none || !rz t 6 10 then none else
         match Order.ofCode (tf t 0 3), Scope.ofCode (tf t 3 3) with
         | some o, some sc => onlyIf (o != .relaxed) (.fence o sc)
         | _, _ => none
  | _ => none

def dec14 (tl fn : Nat) (t : BitVec 64) (p : Pfx) : Option Instr :=
  match fn with
  | 0 => dRing tl t p .waitf
  | 1 => dRing tl t p .waite
  | 2 => dRing tl t p .advp
  | 3 => dRing tl t p .advc
  | _ => none

def dec15 (tl fn : Nat) (t : BitVec 64) (p : Pfx) : Option Instr :=
  match fn with
  | 0 => dFix tl t p .fix
  | 1 => dFix tl t p .fixEnd
  | 2 => if tl != 2 || !rz t 0 5 then none else (rriImm t p).bind fun y =>
         if h : y.toNat < 3 then some (.vote ⟨y.toNat, h⟩ (tS t 5)) else none
  | 3 => if tl != 2 || !rz t 0 5 then none else (rriImm t p).map (.stage (tS t 5))
  | 4 => if tl != 3 || p != .none then none else (Buf.ofCode (tf t 57 2)).bind fun b =>
         onlyIf (wbkLenOk (tf t 25 13)) (.wbk (tS t 59) b (tf t 38 19) (tf t 25 13) (tf t 5 20) (dTok t))
  | _ => none

def dec16 (tl fn : Nat) (t : BitVec 64) (p : Pfx) : Option Instr :=
  match fn with
  | 0 => onlyIf (tl == 1 && p == .none && rz t 4 12) (.kwait (tf t 0 4).toFin)
  | 1 => onlyIf (tl == 0 && p == .none) .mwait
  | 2 => onlyIf (tl == 1 && p == .none && rz t 10 6 && rz t 3 2) (.twait (tP t 0) (tS t 5))
  | _ => none

def dec18 (fn : Nat) (t : BitVec 64) : Option Instr :=
  match fn with
  | 0 => dV2 t .vadd
  | 1 => dV2 t .vsub
  | 2 => dV2 t .vmul
  | 3 => dV2 t .vmin
  | 4 => dV2 t .vmax
  | 5 => onlyIf (rz t 26 6 && rz t 12 13) (.vabs (tV t 0) (tV t 6) (t.getLsbD 25))
  | 6 => onlyIf (rz t 26 6 && rz t 12 13) (.vneg (tV t 0) (tV t 6) (t.getLsbD 25))
  | _ => (dVB t).bind fun b => onlyIf (rz t 26 6) (.vfma (tV t 0) (tV t 6) b (tV t 18) (t.getLsbD 25))

def dec19 (fn : Nat) (t : BitVec 64) : Option Instr :=
  match fn with
  | 0 => dV1 t .vand
  | 1 => dV1 t .vor
  | 2 => dV1 t .vxor
  | 3 => onlyIf (rz t 12 20) (.vnot (tV t 0) (tV t 6))
  | 4 => dV1 t .vshl
  | 5 => dV1 t .vshr
  | 6 => dV1 t .vsra
  | _ => none

def dec1A (fn : Nat) (t : BitVec 64) : Option Instr :=
  match fn with
  | 0 => dV2 t .vcmpEq
  | 1 => dV2 t .vcmpNe
  | 2 => dV2 t .vcmpLt
  | 3 => dV2 t .vcmpLe
  | 4 => dV2 t .vcmpGt
  | 5 => dV2 t .vcmpGe
  | _ => none

def dec1B (fn : Nat) (t : BitVec 64) : Option Instr :=
  match fn with
  | 0 => onlyIf (rz t 24 8) (.vsel (tV t 0) (tV t 18) (tV t 6) (tV t 12))
  | 1 => if t.getLsbD 24 then onlyIf (rz t 25 7 && rz t 17 7) (.vbcastElement (tV t 0) (tV t 6) (tS t 12))
         else onlyIf (rz t 25 7 && rz t 11 13) (.vbcast (tV t 0) (tS t 6))
  | 2 => if t.getLsbD 24 then onlyIf (rz t 25 7 && rz t 17 7) (.vpermRot (tV t 0) (tV t 6) (tS t 12))
         else onlyIf (rz t 25 7 && rz t 18 6) (.vperm (tV t 0) (tV t 6) (tV t 12))
  | 3 => onlyIf (rz t 12 20) (.vmov (tV t 0) (tV t 6))
  | _ => none

/-- `vcvt` (R274): the rounding mode is FN. -/
def dec1C (fn : Nat) (t : BitVec 64) : Option Instr :=
  if fn ≥ 4 then none else
  (Fmt7.ofCode (tf t 24 3)).bind fun sf =>
    onlyIf (rz t 27 1 && rz t 30 2 && rz t 12 12)
      (.vcvt (Rm.ofCode (BitVec.ofNat 2 fn)) sf (tf t 28 2).toFin (tV t 0) (tV t 6))

def dec1D (fn : Nat) (t : BitVec 64) : Option Instr :=
  (RedOp.ofCode (tf t 24 4)).bind fun o =>
  match fn with
  | 0 => onlyIf (rz t 28 4 && rz t 12 12) (.vscan o (tV t 0) (tV t 6))
  | 1 => if t.getLsbD 28 then onlyIf (rz t 29 3 && rz t 12 12 && rz t 5 1) (.vredScalar o (tS t 0) (tV t 6))
         else onlyIf (rz t 29 3 && rz t 12 12) (.vred o (tV t 0) (tV t 6))
  | _ => none

def dec1E (fn : Nat) (t : BitVec 64) : Option Instr :=
  if !rz t 12 20 then none else
  match fn with
  | 0 => some (.vexp2 (tV t 0) (tV t 6))
  | 1 => some (.vlog2 (tV t 0) (tV t 6))
  | 2 => some (.vrcp (tV t 0) (tV t 6))
  | 3 => some (.vrsq (tV t 0) (tV t 6))
  | 4 => some (.vtanh (tV t 0) (tV t 6))
  | 5 => some (.vsig (tV t 0) (tV t 6))
  | _ => none

def dec1F (tl fn : Nat) (t : BitVec 64) (p : Pfx) : Option Instr :=
  match fn with
  | 0 => onlyIf (tl == 3 && p == .none && rz t 36 6 && rz t 7 25 && rz t 0 5)
           (.mpdef (tf t 5 2).toFin (tf t 42 22) (tf t 32 4))
  | 1 => onlyIf (tl == 2 && p == .none && rz t 26 6) (.mprun (tf t 24 2).toFin (tV t 0) (tV t 6) (tV t 12) (tV t 18))
  | 2 => match p with
         | .token w => onlyIf (tl == 2 && rz t 24 8 && exprOk w) (.expr w (tV t 0) (tV t 6) (tV t 12) (tV t 18))
         | _ => none
  | _ => none

def dec20 (fn : Nat) (t : BitVec 64) : Option Instr :=
  match fn with
  | 0 => match Fmt7.ofCode (tf t 61 3), Keep.ofCode (tf t 59 2) with
         | some af, some n =>
           onlyIf (af.mmaOk && (n != .n32 || rz t 57 2) && rz t 8 1)
             (.mma af n (tf t 57 2).toFin (tS t 52) (tf t 40 12) (tf t 28 12) (tf t 9 19) (tf t 5 3).toFin (dTok t))
         | _, _ => none
  | 1 => (Fmt7.ofCode (tf t 61 3)).bind fun af =>
         onlyIf (af.mldtOk && rz t 52 9 && rz t 8 20)
           (.mldt af (tf t 40 12) (tf t 28 12) (tf t 5 3).toFin (dTok t))
  | 2 => onlyIf (rz t 8 56) (.mzero (tf t 5 3).toFin (dTok t))
  | _ => none

def dec21 (fn : Nat) (t : BitVec 64) : Option Instr :=
  if fn ≠ 0 then none else
  onlyIf (rz t 5 1 && (t.getLsbD 63 || rz t 38 12))
    (.quant (t.getLsbD 63) (t.getLsbD 62) (tf t 50 12) (tf t 38 12) (tf t 30 8) (tS t 25) (tf t 6 19) (dTok t))

/-- An endpoint of a copy: space code, base field and displacement (R299). Code 6 is a queue, code 7 is reserved. -/
def dEnd (code : BitVec 3) (base : BitVec 5) (disp : BitVec 18) : Option CEnd :=
  match code.toNat with
  | 5 => if base.getLsbD 4 || disp != 0 then none else some (.ring (base.setWidth 4).toFin)
  | 6 => if base.extractLsb' 2 3 != 0 || disp != 0 then none else some (.queue (base.setWidth 2).toFin)
  | _ => (Space.ofCode code).map fun s => .mem s base.toFin disp

def dec22 (fn : Nat) (t : BitVec 64) : Option Instr :=
  if !rz t 5 1 then none else
  match dEnd (tf t 61 3) (tf t 53 5) (tf t 24 18), dEnd (tf t 58 3) (tf t 48 5) (tf t 6 18) with
  | some d, some s =>
    let q : Fin 8 := (BitVec.ofNat 3 fn).toFin
    if t.getLsbD 42 then some (.cpyD q d s (tS t 43) (dTok t)) else some (.cpy q d s (tS t 43) (dTok t))
  | _, _ => none

def dec23 (tl fn : Nat) (t : BitVec 64) (p : Pfx) : Option Instr :=
  if p != .none then none else
  match fn with
  | 0 => onlyIf (tl == 0) .xsync
  | 1 => onlyIf (tl == 3 && rz t 5 15)
           (.xmit (tf t 52 12) (tf t 36 16) (tf t 33 3).toFin (t.getLsbD 32) (tf t 20 12) (dTok t))
  | 2 => onlyIf (tl == 3 && rz t 5 33) (.xsel (tf t 52 12) (tf t 50 2).toFin (tf t 38 12) (dTok t))
  | _ => none

def dec24 (fn : Nat) (t : BitVec 64) : Option Instr :=
  match fn with
  | 0 => onlyIf (rz t 5 42) (.enl (tf t 52 12) (tS t 47) (dTok t))
  | 1 => onlyIf (rz t 5 28) (.rsto (tS t 59) (tS t 54) (tf t 34 20) (t.getLsbD 33) (dTok t))
  | 2 => onlyIf (rz t 5 11 && (tf t 52 2 == 1 || tf t 52 2 == 2))
           (.cpost (tS t 59) (tS t 54) (tf t 52 2 == 2) (tf t 36 16) (tf t 16 20) (dTok t))
  | _ => none

def dec25 (fn : Nat) (t : BitVec 64) : Option Instr :=
  match fn with
  | 0 => onlyIf (rz t 0 59) (.armInstruction (tS t 59))
  | 1 => onlyIf (rz t 0 43) (.patchInstruction (tS t 59) (tS t 54) (tf t 46 8) (tf t 43 3))
  | 2 => if t.getLsbD 53 then onlyIf (rz t 0 53) (.postInstruction (tS t 59) (some (tS t 54)))
         else onlyIf (rz t 0 59) (.postInstruction (tS t 59) none)
  | 3 => (SigOp.ofCode (tf t 52 2)).bind fun o =>
         onlyIf (rz t 5 27) (.signalInstruction (tS t 59) (tS t 54) o (tf t 32 20) (dTok t))
  | _ => none

/-- The operand of `csrw` in I form: the sign-extended field, or a wide prefix's value over a zero field (R214, R216). -/
def csrImm (t : BitVec 64) (p : Pfx) : Option Word :=
  match p with
  | .none => some ((tf t 22 10).signExtend 64)
  | .wide v => if rz t 22 10 then some v else none
  | .token _ => none

def dec3C (tl fn : Nat) (t : BitVec 64) (p : Pfx) : Option Instr :=
  match fn with
  | 0 => onlyIf (tl == 2 && p == .none && rz t 22 10 && rz t 5 5 && csrAssigned (tf t 10 12)) (.csrr (tS t 0) (tf t 10 12))
  | 1 => if tl != 2 || !rz t 6 4 || !csrAssigned (tf t 10 12) then none else
         if t.getLsbD 5 then (if rz t 0 5 then (csrImm t p).map (.csrwImm (tf t 10 12)) else none)
         else onlyIf (p == .none && rz t 22 10) (.csrwReg (tf t 10 12) (tS t 0))
  | 2 => if tl != 2 || !rz t 0 10 then none else
         match p with
         | .none => onlyIf (rz t 26 6) (.trap (tf t 10 16))
         | .wide v => onlyIf (rz t 10 22 && v.extractLsb' 16 48 == 0) (.trap (v.setWidth 16))
         | .token _ => none
  | 3 => onlyIf (tl == 0 && p == .none) .rft
  | 4 => onlyIf (tl == 0 && p == .none) .halt
  | 5 => if tl != 3 || p != .none || !rz t 0 48 then none else
         if t.getLsbD 48 then onlyIf (rz t 49 10) (.tlbiAll (tS t 59)) else some (.tlbi (tS t 59) (tS t 54) (tS t 49))
  | _ => none

/-- Class VEC: TL 2 and no prefix. -/
def vec (tl : Nat) (p : Pfx) (r : Option Instr) : Option Instr := if tl == 2 && p == .none then r else none
/-- Class ENG: TL 3 and no prefix. -/
def eng (tl : Nat) (p : Pfx) (r : Option Instr) : Option Instr := if tl == 3 && p == .none then r else none

/-- The rows of the opcode map (R221). -/
def decodeRow (op tl fn : Nat) (t : BitVec 64) (p : Pfx) : Option Instr :=
  match op with
  | 0x00 => match fn with
            | 0 => onlyIf (tl == 0 && p == .none) .nopInstruction
            | 1 => onlyIf (tl == 0 && p == .none) .yield
            | 2 => onlyIf (tl == 0 && p == .none) .tsync
            | _ => none
  | 0x03 => dec03 tl fn t p
  | 0x04 => dec04 tl fn t p
  | 0x05 => dec05 tl fn t p
  | 0x06 => dec06 tl fn t p
  | 0x07 => dec07 tl fn t p
  | 0x08 => dec08 tl fn t p
  | 0x09 => dec09 tl fn t p
  | 0x0A => dec0A tl fn t p
  | 0x0B => dec0B tl fn t p
  | 0x0C => dec0C tl fn t p
  | 0x0D => dec0D tl fn t p
  | 0x10 => dec10 tl fn t p
  | 0x11 => dec11 tl fn t p
  | 0x12 => dec12 tl fn t p
  | 0x13 => dec13 tl fn t p
  | 0x14 => dec14 tl fn t p
  | 0x15 => dec15 tl fn t p
  | 0x16 => dec16 tl fn t p
  | 0x18 => vec tl p (dec18 fn t)
  | 0x19 => vec tl p (dec19 fn t)
  | 0x1A => vec tl p (dec1A fn t)
  | 0x1B => vec tl p (dec1B fn t)
  | 0x1C => vec tl p (dec1C fn t)
  | 0x1D => vec tl p (dec1D fn t)
  | 0x1E => vec tl p (dec1E fn t)
  | 0x1F => dec1F tl fn t p
  | 0x20 => eng tl p (dec20 fn t)
  | 0x21 => eng tl p (dec21 fn t)
  | 0x22 => eng tl p (dec22 fn t)
  | 0x23 => dec23 tl fn t p
  | 0x24 => eng tl p (dec24 fn t)
  | 0x25 => eng tl p (dec25 fn t)
  | 0x3C => dec3C tl fn t p
  | _ => none

/-- The instruction of a governed head with its tail and its wide or token prefix, or none for ILLEGAL_OP. -/
def decodeGoverned (h : BitVec 16) (t : BitVec 64) (p : Pfx) : Option Instr := decodeRow (headOP h) (headTL h) (headFN h) t p

/-- A decoded issue unit. -/
structure Unit' where
  pred : Preg
  hasPfx : Bool
  pfx : BitVec 16
  head : BitVec 16
  size : Nat
  instr : Instr
  deriving DecidableEq, Repr

/-- The unit at the start of a list of heads, or why it is malformed (R214, R220, R221). -/
def decodeUnit (hs : List HT) : Except UnitErr Unit' :=
  let u := rawUnit hs
  match pfxCheck u with
  | some e => .error e
  | none =>
    match u.gov with
    | none => .error .orphan
    | some g =>
      match decodeGoverned g.head g.tail (unitPfx u.pfxs) with
      | none => .error (.illegal g.head)
      | some i => .ok ⟨unitPred u.pfxs, !u.pfxs.isEmpty, ((u.pfxs.head?).map (·.head)).getD 0, g.head, u.size, i⟩

/-! ### The encoder -/

/-- The encoding of an instruction: its wide or token prefix, its head without gap, switch-away and END, and its tail. -/
structure Enc where
  pfx : Pfx
  head : BitVec 16
  tail : BitVec 64
  deriving DecidableEq, Repr

/-- A head from TL, OP and FN (R212). -/
def mkHead (tl : BitVec 2) (op : BitVec 6) (fn : BitVec 3) : BitVec 16 := tl ++ op ++ (0 : BitVec 5) ++ fn

def sf (s : Sreg) : BitVec 5 := BitVec.ofFin s
def pf (p : Preg) : BitVec 3 := BitVec.ofFin p
def vf (v : Row) : BitVec 6 := BitVec.ofFin v
def bf (b : Bool) : BitVec 1 := BitVec.ofBool b

/-- A tail of 16 bits, of 32 bits. -/
def t16 (x : BitVec 16) : BitVec 64 := x.setWidth 64
def t32 (x : BitVec 32) : BitVec 64 := x.setWidth 64

/-- An immediate fits the 22-bit field of class RRI. -/
def fits22 (y : Word) : Bool := (y.setWidth 22).signExtend 64 == y

/-- Class RRI: the field where the immediate fits, a wide prefix otherwise (R200, R216). -/
def eRRI (op : BitVec 6) (fn : BitVec 3) (d a : BitVec 5) (y : Word) : Option Enc :=
  if fits22 y then some ⟨.none, mkHead 2 op fn, t32 (y.setWidth 22 ++ a ++ d)⟩
  else some ⟨.wide y, mkHead 2 op fn, t32 ((0 : BitVec 22) ++ a ++ d)⟩
def eRRR (op : BitVec 6) (fn : BitVec 3) (d a b : BitVec 5) : Option Enc :=
  some ⟨.none, mkHead 1 op fn, t16 ((0 : BitVec 1) ++ b ++ a ++ d)⟩
def eRRRR (op : BitVec 6) (fn : BitVec 3) (d a b c : BitVec 5) : Option Enc :=
  some ⟨.none, mkHead 2 op fn, t32 ((0 : BitVec 12) ++ c ++ b ++ a ++ d)⟩
def e5 (p : Preg) : BitVec 5 := (0 : BitVec 2) ++ pf p
def eTarget (t : Target) : BitVec 32 := (0 : BitVec 3) ++ t.off ++ t.idx
def eMem (op : BitVec 6) (fn : BitVec 3) (d : Sreg) (m : MemOp) : Option Enc :=
  some ⟨.none, mkHead 2 op fn, t32 (m.disp ++ m.space.code ++ sf m.base ++ sf d)⟩
def eAtom (op : BitVec 6) (fn : BitVec 3) (d : Sreg) (m : AtomOp) (x z : Sreg) : Option Enc :=
  some ⟨.none, mkHead 3 op fn,
    m.disp ++ (0 : BitVec 3) ++ m.space.code ++ m.scope.code ++ m.order.code ++ sf z ++ sf x ++ sf m.base ++ sf d⟩
def eN (op : BitVec 6) (fn : BitVec 3) : Option Enc := some ⟨.none, mkHead 0 op fn, 0⟩
def eVec (op : BitVec 6) (fn : BitVec 3) (ctl : BitVec 8) (c b a d : BitVec 6) : Option Enc :=
  some ⟨.none, mkHead 2 op fn, t32 (ctl ++ c ++ b ++ a ++ d)⟩
def eEng (op : BitVec 6) (fn : BitVec 3) (t : BitVec 64) : Option Enc := some ⟨.none, mkHead 3 op fn, t⟩
def vbField : VB → BitVec 6
  | .row v => vf v
  | .scalar s => (0 : BitVec 1) ++ sf s
def vbBit : VB → BitVec 1
  | .row _ => 0
  | .scalar _ => 1
def eV2 (op : BitVec 6) (fn : BitVec 3) (d a : Row) (b : VB) (sat : Bool) : Option Enc :=
  eVec op fn ((0 : BitVec 6) ++ bf sat ++ vbBit b) 0 (vbField b) (vf a) (vf d)
def eV1 (fn : BitVec 3) (d a : Row) (b : VB) : Option Enc :=
  eVec 0x19 fn ((0 : BitVec 7) ++ vbBit b) 0 (vbField b) (vf a) (vf d)
def eTok (k : TokF) : BitVec 5 := bf k.te ++ (BitVec.ofFin k.tk : BitVec 4)
def eFix (fn : BitVec 3) (bm : BitVec 32) (m : Fin 17) (off : BitVec 22) : Option Enc :=
  eEng 0x15 fn (bm ++ BitVec.ofNat 5 m.val ++ off ++ (0 : BitVec 5))
def eRing (fn : BitVec 3) (h : Hnd) (a : Sreg) (y : Word) : Option Enc :=
  eRRI 0x14 fn ((0 : BitVec 1) ++ (BitVec.ofFin h : BitVec 4)) (sf a) y
def eEnd : CEnd → BitVec 3 × BitVec 5 × BitVec 18
  | .mem s b d => (s.code, sf b, d)
  | .ring h => (5, (0 : BitVec 1) ++ (BitVec.ofFin h : BitVec 4), 0)
  | .queue q => (6, (0 : BitVec 3) ++ (BitVec.ofFin q : BitVec 2), 0)
def eCpy (q : Fin 8) (dd : Bool) (d s : CEnd) (c : Sreg) (k : TokF) : Option Enc :=
  eEng 0x22 (BitVec.ofFin q) ((eEnd d).1 ++ (eEnd s).1 ++ (eEnd d).2.1 ++ (eEnd s).2.1 ++ sf c ++ bf dd ++ (eEnd d).2.2
    ++ (eEnd s).2.2 ++ (0 : BitVec 1) ++ eTok k)

/-- The encoding of an instruction (the tables of R219, R221 and the instruction chapters); none for a step of the package. -/
def encode : Instr → Option Enc
  | .nopInstruction => eN 0x00 0
  | .yield => eN 0x00 1
  | .tsync => eN 0x00 2
  | .addReg d a b => eRRR 0x03 0 (sf d) (sf a) (sf b)
  | .addImm d a y => eRRI 0x03 0 (sf d) (sf a) y
  | .subReg d a b => eRRR 0x03 1 (sf d) (sf a) (sf b)
  | .subImm d a y => eRRI 0x03 1 (sf d) (sf a) y
  | .andReg d a b => eRRR 0x03 2 (sf d) (sf a) (sf b)
  | .andImm d a y => eRRI 0x03 2 (sf d) (sf a) y
  | .orReg d a b => eRRR 0x03 3 (sf d) (sf a) (sf b)
  | .orImm d a y => eRRI 0x03 3 (sf d) (sf a) y
  | .xorReg d a b => eRRR 0x03 4 (sf d) (sf a) (sf b)
  | .xorImm d a y => eRRI 0x03 4 (sf d) (sf a) y
  | .shlReg d a b => eRRR 0x03 5 (sf d) (sf a) (sf b)
  | .shlImm d a y => eRRI 0x03 5 (sf d) (sf a) y
  | .shrReg d a b => eRRR 0x03 6 (sf d) (sf a) (sf b)
  | .shrImm d a y => eRRI 0x03 6 (sf d) (sf a) y
  | .sraReg d a b => eRRR 0x03 7 (sf d) (sf a) (sf b)
  | .sraImm d a y => eRRI 0x03 7 (sf d) (sf a) y
  | .mulReg d a b => eRRR 0x04 0 (sf d) (sf a) (sf b)
  | .mulImm d a y => eRRI 0x04 0 (sf d) (sf a) y
  | .mulhReg d a b => eRRR 0x04 1 (sf d) (sf a) (sf b)
  | .mulhImm d a y => eRRI 0x04 1 (sf d) (sf a) y
  | .mulhuReg d a b => eRRR 0x04 2 (sf d) (sf a) (sf b)
  | .mulhuImm d a y => eRRI 0x04 2 (sf d) (sf a) y
  | .divReg d a b => eRRR 0x04 3 (sf d) (sf a) (sf b)
  | .divImm d a y => eRRI 0x04 3 (sf d) (sf a) y
  | .divuReg d a b => eRRR 0x04 4 (sf d) (sf a) (sf b)
  | .divuImm d a y => eRRI 0x04 4 (sf d) (sf a) y
  | .remReg d a b => eRRR 0x04 5 (sf d) (sf a) (sf b)
  | .remImm d a y => eRRI 0x04 5 (sf d) (sf a) y
  | .remuReg d a b => eRRR 0x04 6 (sf d) (sf a) (sf b)
  | .remuImm d a y => eRRI 0x04 6 (sf d) (sf a) y
  | .minReg d a b => eRRR 0x05 0 (sf d) (sf a) (sf b)
  | .minImm d a y => eRRI 0x05 0 (sf d) (sf a) y
  | .maxReg d a b => eRRR 0x05 1 (sf d) (sf a) (sf b)
  | .maxImm d a y => eRRI 0x05 1 (sf d) (sf a) y
  | .minuReg d a b => eRRR 0x05 2 (sf d) (sf a) (sf b)
  | .minuImm d a y => eRRI 0x05 2 (sf d) (sf a) y
  | .maxuReg d a b => eRRR 0x05 3 (sf d) (sf a) (sf b)
  | .maxuImm d a y => eRRI 0x05 3 (sf d) (sf a) y
  | .andnReg d a b => eRRR 0x05 4 (sf d) (sf a) (sf b)
  | .andnImm d a y => eRRI 0x05 4 (sf d) (sf a) y
  | .ornReg d a b => eRRR 0x05 5 (sf d) (sf a) (sf b)
  | .ornImm d a y => eRRI 0x05 5 (sf d) (sf a) y
  | .clz d a => eRRR 0x05 6 (sf d) (sf a) 0
  | .popc d a => eRRR 0x05 7 (sf d) (sf a) 0
  | .movReg d a => eRRR 0x06 0 (sf d) (sf a) 0
  | .movImm d y => eRRI 0x06 0 (sf d) 0 y
  | .sel d c a b => eRRRR 0x06 1 (sf d) (sf a) (sf b) (e5 c)
  | .sext d a n => eRRI 0x06 2 (sf d) (sf a) (n.setWidth 64)
  | .zext d a n => eRRI 0x06 3 (sf d) (sf a) (n.setWidth 64)
  | .cmpEqReg d a b => eRRR 0x07 0 (e5 d) (sf a) (sf b)
  | .cmpEqImm d a y => eRRI 0x07 0 (e5 d) (sf a) y
  | .cmpNeReg d a b => eRRR 0x07 1 (e5 d) (sf a) (sf b)
  | .cmpNeImm d a y => eRRI 0x07 1 (e5 d) (sf a) y
  | .cmpLtReg d a b => eRRR 0x07 2 (e5 d) (sf a) (sf b)
  | .cmpLtImm d a y => eRRI 0x07 2 (e5 d) (sf a) y
  | .cmpGeReg d a b => eRRR 0x07 3 (e5 d) (sf a) (sf b)
  | .cmpGeImm d a y => eRRI 0x07 3 (e5 d) (sf a) y
  | .cmpLtuReg d a b => eRRR 0x07 4 (e5 d) (sf a) (sf b)
  | .cmpLtuImm d a y => eRRI 0x07 4 (e5 d) (sf a) y
  | .cmpGeuReg d a b => eRRR 0x07 5 (e5 d) (sf a) (sf b)
  | .cmpGeuImm d a y => eRRI 0x07 5 (e5 d) (sf a) y
  | .fadd d a b => eRRR 0x08 0 (sf d) (sf a) (sf b)
  | .fsub d a b => eRRR 0x08 1 (sf d) (sf a) (sf b)
  | .fmul d a b => eRRR 0x08 2 (sf d) (sf a) (sf b)
  | .fmin d a b => eRRR 0x08 3 (sf d) (sf a) (sf b)
  | .fmax d a b => eRRR 0x08 4 (sf d) (sf a) (sf b)
  | .fabs d a => eRRR 0x08 5 (sf d) (sf a) 0
  | .fneg d a => eRRR 0x08 6 (sf d) (sf a) 0
  | .fma d a b c => eRRRR 0x08 7 (sf d) (sf a) (sf b) (sf c)
  | .fcmpEq d a b => eRRR 0x09 0 (e5 d) (sf a) (sf b)
  | .fcmpNe d a b => eRRR 0x09 1 (e5 d) (sf a) (sf b)
  | .fcmpLt d a b => eRRR 0x09 2 (e5 d) (sf a) (sf b)
  | .fcmpLe d a b => eRRR 0x09 3 (e5 d) (sf a) (sf b)
  | .fcmpUn d a b => eRRR 0x09 4 (e5 d) (sf a) (sf b)
  | .fdiv d a b => eRRR 0x0A 0 (sf d) (sf a) (sf b)
  | .fsqrt d a => eRRR 0x0A 1 (sf d) (sf a) 0
  | .fcvtS rm d a => eRRR 0x0A 2 (sf d) (sf a) ((0 : BitVec 3) ++ rm.code)
  | .fcvtU rm d a => eRRR 0x0A 3 (sf d) (sf a) ((0 : BitVec 3) ++ rm.code)
  | .scvtF rm d a => eRRR 0x0A 4 (sf d) (sf a) ((0 : BitVec 3) ++ rm.code)
  | .ucvtF rm d a => eRRR 0x0A 5 (sf d) (sf a) ((0 : BitVec 3) ++ rm.code)
  | .fclass d a => eRRR 0x0A 6 (sf d) (sf a) 0
  | .pand d a b => eRRR 0x0B 0 (e5 d) (e5 a) (e5 b)
  | .por d a b => eRRR 0x0B 1 (e5 d) (e5 a) (e5 b)
  | .pxor d a b => eRRR 0x0B 2 (e5 d) (e5 a) (e5 b)
  | .pnot d a => eRRR 0x0B 3 (e5 d) (e5 a) 0
  | .pmov d a => eRRR 0x0B 4 (e5 d) (e5 a) 0
  | .pset d v => eRRR 0x0B 5 (e5 d) ((0 : BitVec 4) ++ bf v) 0
  | .psave d => eRRR 0x0B 6 (sf d) 0 0
  | .pload a => eRRR 0x0B 7 0 (sf a) 0
  | .br t => some ⟨.none, mkHead 2 0x0C 0, t32 (eTarget t)⟩
  | .brr a => eRRR 0x0C 1 0 (sf a) 0
  | .call t => some ⟨.none, mkHead 2 0x0C 2, t32 (eTarget t)⟩
  | .callr a => eRRR 0x0C 3 0 (sf a) 0
  | .ret => eRRR 0x0C 4 0 0 0
  | .loop l (.imm n) t => eEng 0x0C 5 (n ++ (0 : BitVec 5) ++ (1 : BitVec 1) ++ (BitVec.ofFin l : BitVec 2) ++ eTarget t)
  | .loop l (.reg s) t => eEng 0x0C 5 ((0 : BitVec 24) ++ sf s ++ (0 : BitVec 1) ++ (BitVec.ofFin l : BitVec 2) ++ eTarget t)
  | .lexit l => eRRR 0x0C 6 ((0 : BitVec 3) ++ (BitVec.ofFin l : BitVec 2)) 0 0
  | .enter n8 => some ⟨.none, mkHead 2 0x0D 0, t32 ((0 : BitVec 1) ++ n8 ++ (0 : BitVec 13))⟩
  | .leave n8 => some ⟨.none, mkHead 2 0x0D 1, t32 ((0 : BitVec 1) ++ n8 ++ (0 : BitVec 13))⟩
  | .ldBMem d m => eMem 0x10 0 d m
  | .ldBAtom d m => eAtom 0x10 0 d m 0 0
  | .ldBuMem d m => eMem 0x10 1 d m
  | .ldBuAtom d m => eAtom 0x10 1 d m 0 0
  | .ldHMem d m => eMem 0x10 2 d m
  | .ldHAtom d m => eAtom 0x10 2 d m 0 0
  | .ldHuMem d m => eMem 0x10 3 d m
  | .ldHuAtom d m => eAtom 0x10 3 d m 0 0
  | .ldWMem d m => eMem 0x10 4 d m
  | .ldWAtom d m => eAtom 0x10 4 d m 0 0
  | .ldWuMem d m => eMem 0x10 5 d m
  | .ldWuAtom d m => eAtom 0x10 5 d m 0 0
  | .ldDMem d m => eMem 0x10 6 d m
  | .ldDAtom d m => eAtom 0x10 6 d m 0 0
  | .stBMem d m => eMem 0x11 0 d m
  | .stBAtom d m => eAtom 0x11 0 d m 0 0
  | .stHMem d m => eMem 0x11 1 d m
  | .stHAtom d m => eAtom 0x11 1 d m 0 0
  | .stWMem d m => eMem 0x11 2 d m
  | .stWAtom d m => eAtom 0x11 2 d m 0 0
  | .stDMem d m => eMem 0x11 3 d m
  | .stDAtom d m => eAtom 0x11 3 d m 0 0
  | .amoAdd d m x => eAtom 0x12 0 d m x 0
  | .amoAnd d m x => eAtom 0x12 1 d m x 0
  | .amoOr d m x => eAtom 0x12 2 d m x 0
  | .amoXor d m x => eAtom 0x12 3 d m x 0
  | .amoMin d m x => eAtom 0x12 4 d m x 0
  | .amoMax d m x => eAtom 0x12 5 d m x 0
  | .amoMinu d m x => eAtom 0x12 6 d m x 0
  | .amoMaxu d m x => eAtom 0x12 7 d m x 0
  | .cas d m x z => eAtom 0x13 0 d m x z
  | .swap d m x => eAtom 0x13 1 d m x 0
  | .fence o sc => some ⟨.none, mkHead 1 0x13 2, t16 ((0 : BitVec 10) ++ sc.code ++ o.code)⟩
  | .waitf h a y => eRing 0 h a y
  | .waite h a y => eRing 1 h a y
  | .advp h a y => eRing 2 h a y
  | .advc h a y => eRing 3 h a y
  | .fix bm m off => eFix 0 bm m off
  | .fixEnd bm m off => eFix 1 bm m off
  | .vote v a => eRRI 0x15 2 0 (sf a) (BitVec.ofNat 64 v.val)
  | .stage a y => eRRI 0x15 3 0 (sf a) y
  | .wbk b src off len disp k => eEng 0x15 4 (sf b ++ src.code ++ off ++ len ++ disp ++ eTok k)
  | .kwait k => eRRR 0x16 0 ((0 : BitVec 1) ++ (BitVec.ofFin k : BitVec 4)) 0 0
  | .mwait => eN 0x16 1
  | .twait d a => eRRR 0x16 2 (e5 d) (sf a) 0
  | .vadd d a b s => eV2 0x18 0 d a b s
  | .vsub d a b s => eV2 0x18 1 d a b s
  | .vmul d a b s => eV2 0x18 2 d a b s
  | .vmin d a b s => eV2 0x18 3 d a b s
  | .vmax d a b s => eV2 0x18 4 d a b s
  | .vabs d a s => eVec 0x18 5 ((0 : BitVec 6) ++ bf s ++ (0 : BitVec 1)) 0 0 (vf a) (vf d)
  | .vneg d a s => eVec 0x18 6 ((0 : BitVec 6) ++ bf s ++ (0 : BitVec 1)) 0 0 (vf a) (vf d)
  | .vfma d a b c s => eVec 0x18 7 ((0 : BitVec 6) ++ bf s ++ vbBit b) (vf c) (vbField b) (vf a) (vf d)
  | .vand d a b => eV1 0 d a b
  | .vor d a b => eV1 1 d a b
  | .vxor d a b => eV1 2 d a b
  | .vnot d a => eVec 0x19 3 0 0 0 (vf a) (vf d)
  | .vshl d a b => eV1 4 d a b
  | .vshr d a b => eV1 5 d a b
  | .vsra d a b => eV1 6 d a b
  | .vcmpEq d a b u => eV2 0x1A 0 d a b u
  | .vcmpNe d a b u => eV2 0x1A 1 d a b u
  | .vcmpLt d a b u => eV2 0x1A 2 d a b u
  | .vcmpLe d a b u => eV2 0x1A 3 d a b u
  | .vcmpGt d a b u => eV2 0x1A 4 d a b u
  | .vcmpGe d a b u => eV2 0x1A 5 d a b u
  | .vsel d m a b => eVec 0x1B 0 0 (vf m) (vf b) (vf a) (vf d)
  | .vbcast d a => eVec 0x1B 1 0 0 0 ((0 : BitVec 1) ++ sf a) (vf d)
  | .vbcastElement d a b => eVec 0x1B 1 1 0 ((0 : BitVec 1) ++ sf b) (vf a) (vf d)
  | .vperm d a b => eVec 0x1B 2 0 0 (vf b) (vf a) (vf d)
  | .vpermRot d a b => eVec 0x1B 2 1 0 ((0 : BitVec 1) ++ sf b) (vf a) (vf d)
  | .vmov d a => eVec 0x1B 3 0 0 0 (vf a) (vf d)
  | .vcvt rm f part d a => eVec 0x1C ((0 : BitVec 1) ++ rm.code)
      ((0 : BitVec 2) ++ (BitVec.ofFin part : BitVec 2) ++ (0 : BitVec 1) ++ f.code) 0 0 (vf a) (vf d)
  | .vscan o d a => eVec 0x1D 0 ((0 : BitVec 4) ++ o.code) 0 0 (vf a) (vf d)
  | .vred o d a => eVec 0x1D 1 ((0 : BitVec 4) ++ o.code) 0 0 (vf a) (vf d)
  | .vredScalar o d a => eVec 0x1D 1 ((1 : BitVec 4) ++ o.code) 0 0 (vf a) ((0 : BitVec 1) ++ sf d)
  | .vexp2 d a => eVec 0x1E 0 0 0 0 (vf a) (vf d)
  | .vlog2 d a => eVec 0x1E 1 0 0 0 (vf a) (vf d)
  | .vrcp d a => eVec 0x1E 2 0 0 0 (vf a) (vf d)
  | .vrsq d a => eVec 0x1E 3 0 0 0 (vf a) (vf d)
  | .vtanh d a => eVec 0x1E 4 0 0 0 (vf a) (vf d)
  | .vsig d a => eVec 0x1E 5 0 0 0 (vf a) (vf d)
  | .mpdef slot off n1 => eEng 0x1F 0 (off ++ (0 : BitVec 6) ++ n1 ++ (0 : BitVec 25) ++ (BitVec.ofFin slot : BitVec 2) ++ (0 : BitVec 5))
  | .mprun slot d a b c => eVec 0x1F 1 ((0 : BitVec 6) ++ (BitVec.ofFin slot : BitVec 2)) (vf c) (vf b) (vf a) (vf d)
  | .expr w d a b c => some ⟨.token w, mkHead 2 0x1F 2, t32 ((0 : BitVec 8) ++ vf c ++ vf b ++ vf a ++ vf d)⟩
  | .mma af n q k pitch aoff woff bank tok => eEng 0x20 0 (af.code ++ n.code ++ (BitVec.ofFin q : BitVec 2) ++ sf k ++ pitch ++ aoff
      ++ woff ++ (0 : BitVec 1) ++ (BitVec.ofFin bank : BitVec 3) ++ eTok tok)
  | .mldt af pitch aoff bank tok => eEng 0x20 1 (af.code ++ (0 : BitVec 9) ++ pitch ++ aoff ++ (0 : BitVec 20)
      ++ (BitVec.ofFin bank : BitVec 3) ++ eTok tok)
  | .mzero bank tok => eEng 0x20 2 ((0 : BitVec 56) ++ (BitVec.ofFin bank : BitVec 3) ++ eTok tok)
  | .quant col srcC off pitch emax cnt woff tok => eEng 0x21 0 (bf col ++ bf srcC ++ off ++ pitch ++ emax ++ sf cnt ++ woff
      ++ (0 : BitVec 1) ++ eTok tok)
  | .cpy q d s c k => eCpy q false d s c k
  | .cpyD q d s c k => eCpy q true d s c k
  | .xsync => eN 0x23 0
  | .xmit slot off idx srcC soff k => eEng 0x23 1 (slot ++ off ++ (BitVec.ofFin idx : BitVec 3) ++ bf srcC ++ soff ++ (0 : BitVec 15) ++ eTok k)
  | .xsel slot port doff k => eEng 0x23 2 (slot ++ (BitVec.ofFin port : BitVec 2) ++ doff ++ (0 : BitVec 33) ++ eTok k)
  | .enl moff r k => eEng 0x24 0 (moff ++ sf r ++ (0 : BitVec 42) ++ eTok k)
  | .rsto b d disp wide k => eEng 0x24 1 (sf b ++ sf d ++ disp ++ bf wide ++ (0 : BitVec 28) ++ eTok k)
  | .cpost b c srcC soff disp k => eEng 0x24 2 (sf b ++ sf c ++ (if srcC then (2 : BitVec 2) else 1) ++ soff ++ disp ++ (0 : BitVec 11) ++ eTok k)
  | .armInstruction r => eEng 0x25 0 (sf r ++ (0 : BitVec 59))
  | .patchInstruction r v off len1 => eEng 0x25 1 (sf r ++ sf v ++ off ++ len1 ++ (0 : BitVec 43))
  | .postInstruction r none => eEng 0x25 2 (sf r ++ (0 : BitVec 59))
  | .postInstruction r (some p) => eEng 0x25 2 (sf r ++ sf p ++ (1 : BitVec 1) ++ (0 : BitVec 53))
  | .signalInstruction b v op disp k => eEng 0x25 3 (sf b ++ sf v ++ op.code ++ disp ++ (0 : BitVec 27) ++ eTok k)
  | .csrr d n => some ⟨.none, mkHead 2 0x3C 0, t32 ((0 : BitVec 10) ++ n ++ (0 : BitVec 5) ++ sf d)⟩
  | .csrwReg n a => some ⟨.none, mkHead 2 0x3C 1, t32 ((0 : BitVec 10) ++ n ++ (0 : BitVec 5) ++ sf a)⟩
  | .csrwImm n y =>
    if (y.setWidth 10).signExtend 64 == y then
      some ⟨.none, mkHead 2 0x3C 1, t32 (y.setWidth 10 ++ n ++ (1 : BitVec 5) ++ (0 : BitVec 5))⟩
    else some ⟨.wide y, mkHead 2 0x3C 1, t32 ((0 : BitVec 10) ++ n ++ (1 : BitVec 5) ++ (0 : BitVec 5))⟩
  | .trap code => some ⟨.none, mkHead 2 0x3C 2, t32 ((0 : BitVec 6) ++ code ++ (0 : BitVec 10))⟩
  | .rft => eN 0x3C 3
  | .halt => eN 0x3C 4
  | .tlbi p v n => eEng 0x3C 5 (sf p ++ sf v ++ sf n ++ (0 : BitVec 49))
  | .tlbiAll p => eEng 0x3C 5 (sf p ++ (0 : BitVec 10) ++ (1 : BitVec 1) ++ (0 : BitVec 48))
  | _ => none

/-! ### A line of one instruction -/

/-- A line whose first unit is the given head and tail; a head without END is followed by a `nop` that carries it. -/
def lineOf (h : BitVec 16) (tail : List Byte) : List Byte :=
  let heads := leBytes 2 h.toNat ++ (if headEnd h then [] else leBytes 2 0x0008)
  heads ++ List.replicate (64 - heads.length - tail.length) 0 ++ tail

/-- The line of a word of spec/opcode_table.json: the head in its top 16 bits and the tail bits below it. -/
def tableLine (nbits w : Nat) : List Byte :=
  let h : BitVec 16 := BitVec.ofNat 16 (w / 2 ^ (nbits - 16))
  lineOf h (leBytes (tailLen h) (w % 2 ^ (nbits - 16)))

/-- The instruction the decoder reads from a word numbered as spec/opcode_table.json numbers it. -/
def decodeTableWord (nbits w : Nat) : Option Instr :=
  match decodeLine (tableLine nbits w) with
  | none => none
  | some hs => match decodeUnit hs with
    | .ok u => some u.instr
    | .error _ => none

end Sys2Proof
end

