-- ==== Sys2Proof/Machine/Memory.lean ====
section
/-!
DEFINITION. Operations on a memory: a strictly rising list of non-zero bytes by address (log entry 3).
-/

namespace Sys2Proof.Machine

/-- The canonical form: addresses strictly rising, no entry equal to what an unlisted address reads as. -/
def Memory.wf (m : Memory) : Bool := decide (m.Pairwise fun x y => x.1 < y.1) && m.all fun x => x.2 != 0

/-- One byte. An unlisted address reads zero (log entry 3). -/
def Memory.read (m : Memory) (a : Nat) : Byte := (m.lookup a).getD 0

/-- The bytes of addresses a to a + n - 1. -/
def Memory.readRun : Memory → Nat → Nat → List Byte
  | [], _, n => List.replicate n 0
  | (k, v) :: r, a, n =>
    if n = 0 then []
    else if k < a then readRun r a n
    else if a + n ≤ k then List.replicate n 0
    else List.replicate (k - a) 0 ++ v :: readRun r (k + 1) (n - (k - a) - 1)

/-- The cells of bytes at consecutive addresses, zeros left out. -/
def cellsOf : Nat → List Byte → Memory
  | _, [] => []
  | a, b :: bs => if b = 0 then cellsOf (a + 1) bs else (a, b) :: cellsOf (a + 1) bs

/-- The memory with the bytes stored at consecutive addresses from a. -/
def Memory.writeRun (m : Memory) (a : Nat) (bs : List Byte) : Memory :=
  m.filter (fun x => x.1 < a) ++ (cellsOf a bs ++ m.filter fun x => a + bs.length ≤ x.1)

/-- The memory with one byte stored. -/
def Memory.write (m : Memory) (a : Nat) (v : Byte) : Memory := m.writeRun a [v]

/-- A little-endian number of n bytes. -/
def Memory.readNat (m : Memory) (a n : Nat) : Nat := leNat (m.readRun a n)

/-- A little-endian number of n bytes stored. -/
def Memory.writeNat (m : Memory) (a n v : Nat) : Memory := m.writeRun a (leBytes n v)

/-- The memory that holds only the bytes a test keeps. -/
def Memory.keep (m : Memory) (f : Nat → Bool) : Memory := m.filter fun x => f x.1

end Sys2Proof.Machine
end

