-- ==== Sys2Proof/Machine/Bfp.lean ====
section
/-!
DEFINITION. Element formats, conversion between them and block floating point (spec/07_arithmetic.md R134, R139 to R142;
spec/05_tile_and_pod.md R97, R99).
-/

namespace Sys2Proof.Machine

/-- The element size of a format code in bytes; 1 for BFP (whose blocks have no element bytes) (R97). -/
def elemSize (c : Byte) : Nat :=
  match c.toNat with
  | 0x00 | 0x01 => 1
  | 0x02 | 0x04 | 0x05 => 2
  | 0x03 | 0x06 => 4
  | 0x07 => 8
  | _ => 1

/-- The bits b of a BFP code, 0 for another format (R97). -/
def bfpBits (c : Byte) : Nat := if 0x12 ≤ c.toNat ∧ c.toNat ≤ 0x18 then c.toNat - 0x10 else 0

/-- The floating-point format of a code (R97). -/
def fpOf (c : Byte) : Option FFmt :=
  match c.toNat with
  | 0x04 => some fp16
  | 0x05 => some bf16
  | 0x06 => some fp32
  | _ => none

/-- The range of an integer code (R134). -/
def intRange (c : Byte) : Option (Int × Int) :=
  match c.toNat with
  | 0x00 => some (-128, 127)
  | 0x01 => some (0, 255)
  | 0x02 => some (-32768, 32767)
  | 0x03 => some (-2147483648, 2147483647)
  | _ => none

/-- Whether a bank may hold a code (R97). -/
def fmtAllowed (b : Buf) (c : Byte) : Bool :=
  let k := c.toNat
  match b with
  | .w => k ≤ 2 || k = 4 || k = 5 || (0x12 ≤ k && k ≤ 0x18)
  | .a => k ≤ 2 || k = 4 || k = 5 || k = 6
  | .c => k = 0 || (2 ≤ k && k ≤ 7)

/-- The w low bits of an integer. -/
def wrapN (w : Nat) (i : Int) : Nat := (i % (2 ^ w : Nat)).toNat

/-- The signed value of w bits. -/
def signedN (w : Nat) (x : Nat) : Int := if 2 ^ (w - 1) ≤ x % 2 ^ w then (x % 2 ^ w : Int) - 2 ^ w else (x % 2 ^ w : Nat)

/-- An integer element's value: UINT8 unsigned, the others two's complement (R134). -/
def intVal (c : Byte) (x : Nat) : Int := if c = 0x01 then (x % 256 : Nat) else signedN (8 * elemSize c) x

/-- An element converted from format s to format d (R139); equal formats copy bits (R136). -/
def convElem (rm : Rm) (s d : Byte) (x : Nat) : FR :=
  if s = d then ⟨x, 0⟩
  else match fpOf s, fpOf d with
    | some fs, some fd => fs.cvt fd rm x
    | some fs, none =>
      match intRange d with
      | some (lo, hi) => let r := toIntV rm lo hi (fs.dec x); ⟨wrapN (8 * elemSize d) r.val, r.flags⟩
      | none => ⟨x, 0⟩
    | none, some fd => fd.ofInt rm (intVal s x)
    | none, none =>
      match intRange d with
      | some (lo, hi) => let r := clampI lo hi fSAT (intVal s x); ⟨wrapN (8 * elemSize d) r.val, r.flags⟩
      | none => ⟨x, 0⟩

/-- Capacity of a BFPb bank in blocks (R99). -/
def bfpBlocks (b : Nat) : Nat := 24576 / (4 * b + 1)

/-- The bank offset of a block's exponent byte (R99). -/
def bfpExpOff (b j : Nat) : Nat := 24576 - bfpBlocks b + j

/-- BlockDecode of one mantissa (R140), FP32 bits. -/
def blockDecode1 (E : Nat) (b : Nat) (m : Int) : Nat :=
  if E = 0 then 0 else if E = 255 then fp32.nan else (fp32.roundI .rne m ((E : Int) - 126 - b) false).bits

/-- The mantissas of a block from its 4b bytes, read as one bit string (R140). -/
def blockMants (b : Nat) (bytes : List Byte) : List Int :=
  let v := leNat bytes
  (List.range 32).map fun i => signedN b (v / 2 ^ (b * i))

/-- The 4b bytes of a block's mantissas (R140). -/
def blockBytes (b : Nat) (ms : List Int) : List Byte :=
  leBytes (4 * b) ((ms.zipIdx.map fun mi => wrapN b mi.1 * 2 ^ (b * mi.2)).sum)

/-- An encoded block. -/
structure Block where
  e : Nat
  m : List Int
  sat : Bool
  deriving DecidableEq, Repr

/-- BlockEncode of R141, on FP32 encodings. -/
def blockEncode (xs : List Nat) (b emax : Nat) : Block :=
  if xs.any fun x => (fp32.dec x).isNan then ⟨255, xs.map fun _ => 0, false⟩
  else
    let a := xs.foldl (fun m x => max m (x % 2 ^ 31)) 0
    if a = 0 then ⟨0, xs.map fun _ => 0, false⟩
    else
      let E := min (a / 2 ^ 23 + 1) emax
      let lim : Int := 2 ^ (b - 1) - 1
      let q := xs.map fun x =>
        match fp32.dec x with
        | .fin n m e => let r := (roundAt .rne n m e ((E : Int) - 126 - b) false).1; if n then -(r : Int) else (r : Int)
        | .inf n => if n then -lim - 1 else lim + 1
        | .nan _ => 0
      ⟨E, q.map fun i => (clampI (-lim) lim 0 i).val, q.any fun i => i < -lim || lim < i⟩

/-! ### Max- and min-with-index pairs (R147) -/

/-- MaxIdx and MinIdx on (FP32 value, index) pairs. -/
def pairOp (big : Bool) (p q : Nat × Nat) : Nat × Nat :=
  let pn := (fp32.dec p.1).isNan
  let qn := (fp32.dec q.1).isNan
  if pn && qn then (fp32.nan, min p.2 q.2)
  else if pn then (fp32.nan, p.2)
  else if qn then (fp32.nan, q.2)
  else
    let kp := fp32.key p.1
    let kq := fp32.key q.1
    if (if big then kq < kp else kp < kq) then p
    else if (if big then kp < kq else kq < kp) then q
    else if q.2 < p.2 then q else p

/-- A region or row operator on two elements, in FP32 or INT32 (R146); `isInt` selects the integer forms. Pairs are packed as
value + 2^32 × index. -/
def redOp (o : RedOp) (isInt : Bool) (x y : Nat) : FR :=
  let i32 (i : Int) : FR := ⟨wrapN 32 i, 0⟩
  let sx := signedN 32 x
  let sy := signedN 32 y
  let pk (p : Nat × Nat) : FR := ⟨p.1 + 2 ^ 32 * p.2, 0⟩
  let up (v : Nat) : Nat × Nat := (v % 2 ^ 32, v / 2 ^ 32)
  match o with
  | .iadd => i32 (sx + sy)
  | .fadd => f32add x y
  | .min => if isInt then i32 (min sx sy) else fp32.minMaxR false x y
  | .max => if isInt then i32 (max sx sy) else fp32.minMaxR true x y
  | .mul => if isInt then i32 (sx * sy) else f32mul x y
  | .maxi => pk (pairOp true (up x) (up y))
  | .mini => pk (pairOp false (up x) (up y))
  | .and => ⟨x % 2 ^ 32 &&& y % 2 ^ 32, 0⟩
  | .or => ⟨x % 2 ^ 32 ||| y % 2 ^ 32, 0⟩
  | .xor => ⟨(x % 2 ^ 32) ^^^ (y % 2 ^ 32), 0⟩

/-- The identity of a region operator (R146). -/
def redIdentity (o : RedOp) (isInt : Bool) : Nat :=
  match o with
  | .iadd => 0
  | .fadd => 0x80000000
  | .min => if isInt then 0x7FFFFFFF else 0x7F800000
  | .max => if isInt then 0x80000000 else 0xFF800000
  | .mini => 0x7F800000 + 2 ^ 32 * 0xFFFFFFFF
  | .maxi => 0xFF800000 + 2 ^ 32 * 0xFFFFFFFF
  | .mul => if isInt then 1 else 0x3F800000
  | .and => 0xFFFFFFFF
  | .or => 0
  | .xor => 0

/-- PairwiseReduce of R145 on the row's elements: `fuel` halvings. -/
def pairwise (op : Nat → Nat → FR) : (fuel : Nat) → List Nat → Byte → FR
  | 0, xs, fl => ⟨xs.headD 0, fl⟩
  | n + 1, xs, fl =>
    if xs.length ≤ 1 then ⟨xs.headD 0, fl⟩
    else
      let rs := (List.range (xs.length / 2)).map fun i => op (xs.getD (2 * i) 0) (xs.getD (2 * i + 1) 0)
      pairwise op n (rs.map (·.bits)) (rs.foldl (fun f r => f ||| r.flags) fl)

/-- SequentialScan of R145: the accumulator first. -/
def seqScan (op : Nat → Nat → FR) : (acc : Nat) → (fl : Byte) → List Nat → List Nat × Byte
  | acc, fl, [] => ([acc], fl)
  | acc, fl, x :: xs =>
    let r := op acc x
    let t := seqScan op r.bits (fl ||| r.flags) xs
    (acc :: t.1, t.2)

/-! ### Matrix groups (R144) -/

/-- MmaGroup for FP formats: the accumulator and the decoded operands of one group. Flags are NV and OF alone (R137). -/
def mmaGroup (c : Nat) (ps : List (FV × FV)) : FR :=
  let zi := ps.any fun p => zeroTimesInf p.1 p.2
  let anyNan := zi || ps.any fun p => p.1.isNan || p.2.isNan
  let sn := ps.any fun p => p.1.isSnan || p.2.isSnan
  let prods := ps.map fun p => mulV p.1 p.2
  let pinf := prods.any fun v => v.isInf && !v.neg?
  let ninf := prods.any fun v => v.isInf && v.neg?
  let g : FR :=
    if anyNan then ⟨fp32.nan, if sn || zi then fNV else 0⟩
    else if pinf && ninf then ⟨fp32.nan, 0⟩
    else if pinf then ⟨fp32.inf, 0⟩
    else if ninf then ⟨fp32.signed true fp32.inf, 0⟩
    else
      let e0 : Int := prods.foldl (fun m v => match v with | .fin _ _ e => min m e | _ => m) 0
      let s : Int := (prods.map fun v => match v with | .fin n m e => finAt n m e e0 | _ => 0).sum
      let r := fp32.roundI .rne s e0 false
      ⟨r.bits, r.flags &&& fOF⟩
  let r := f32add c g.bits
  ⟨r.bits, g.flags ||| (r.flags &&& (fNV ||| fOF))⟩

/-- MmaGroupInt. -/
def mmaGroupInt (c : Nat) (ps : List (Int × Int)) : Nat := wrapN 32 (signedN 32 c + (ps.map fun p => p.1 * p.2).sum)

end Sys2Proof.Machine
end

