-- ==== Sys2Proof/Machine/Flags.lean ====
section
/-!
DEFINITION. The sticky registers of a thread: %fflag (spec/07 R137), %oob (spec/05 R101), %scl (spec/06 R122), %lrerr
(spec/04 R73), and the flag results of the scalar FP32 instructions (spec/12 R234 to R237).
-/

namespace Sys2Proof.Machine

/-- Flags ORed into %fflag (R137). -/
def Thread.orFlags (t : Thread) (f : Byte) : Thread := { t with fflag := t.fflag ||| f }

/-- A pending write of ones to the sticky register n that would land by now leaves the bits that a later head sets (R92, R223). -/
def Thread.keepClear (t : Thread) (cyc : Nat) (n : BitVec 12) (mask : Word) : Thread :=
  { t with pend := t.pend.map fun x => if x.land ≤ cyc ∧ x.dest = .csr n then { x with val := x.val &&& ~~~mask } else x }

/-- Flags of a head that takes effect in its own cycle (R137, R92). -/
def Thread.orNow (t : Thread) (cyc : Nat) (f : Byte) : Thread := (t.keepClear cyc 0x005 (f.setWidth 64)).orFlags f

/-- The first out-of-range access recorded in %oob, with the lowest out-of-range byte address (R101). -/
def Thread.recordOob (t : Thread) (space : Nat) (wr : Bool) (addr : Nat) : Thread :=
  if t.oob.getLsbD 63 then t
  else { t with oob := BitVec.ofNat 64 (2 ^ 63 + space % 4 * 2 ^ 61 + (if wr then 2 ^ 60 else 0) + addr % 2 ^ 57) }

/-- The same, of a head in its own cycle (R92, R223). -/
def Thread.oobNow (t : Thread) (cyc : Nat) (space : Nat) (wr : Bool) (addr : Nat) : Thread :=
  (if t.oob.getLsbD 63 then t else t.keepClear cyc 0x003 (BitVec.ofNat 64 (2 ^ 63))).recordOob space wr addr

/-- The code of a space in %oob (R101). -/
def bufCode : Buf → Nat
  | .w => 0
  | .a => 1
  | .c => 2

/-- The rank of a scope (R121). -/
def scopeRank (sc : Scope) : Nat := sc.code.toNat

/-- The value of %scl (R122). -/
def Thread.scl (t : Thread) : Word :=
  BitVec.ofNat 64 (scopeRank t.ceil + (if t.clamp then 256 else 0) + (if t.drop then 512 else 0))

/-- A scope clamped to the thread's ceiling (R122). -/
def Thread.clampScope (t : Thread) (sc : Scope) : Scope := if scopeRank t.ceil < scopeRank sc then t.ceil else sc

/-- CLAMP set when a qualifier is wider than the ceiling (R122). -/
def Thread.noteClamp (t : Thread) (cyc : Nat) (sc : Scope) : Thread :=
  if scopeRank t.ceil < scopeRank sc then { t.keepClear cyc 0x004 0x100 with clamp := true } else t

/-- %lrerr set when it is clear (R73). -/
def Thread.setLrerr (t : Thread) (code part rcd : Nat) : Thread :=
  if t.lrerr.extractLsb' 40 8 != 0 then t
  else { t with lrerr := BitVec.ofNat 64 (code % 256 * 2 ^ 40 + part % 64 * 2 ^ 32 + rcd % 2 ^ 32) }

/-- An FP32 operand of a scalar register (R226). -/
def f32 (w : Word) : Nat := (w.setWidth 32).toNat

/-- An FP32 result in a scalar register (R226). -/
def f32W (n : Nat) : Word := (BitVec.ofNat 32 n).setWidth 64

/-- The conditions of `fcmp` (R236). -/
inductive Fcc where
  | eq | ne | lt | le | un
  deriving DecidableEq, Repr

/-- `fcmp.cc` on two FP32 encodings: the predicate and the flags (R236). -/
def fcmpR (cc : Fcc) (x y : Nat) : Bool × Byte :=
  let a := fp32.dec x
  let b := fp32.dec y
  let nan := a.isNan || b.isNan
  let sig := a.isSnan || b.isSnan
  let c := cmpV a b
  match cc with
  | .eq => (!nan && c == 0, if sig then fNV else 0)
  | .ne => (nan || c != 0, if sig then fNV else 0)
  | .lt => (!nan && c < 0, if nan then fNV else 0)
  | .le => (!nan && c ≤ 0, if nan then fNV else 0)
  | .un => (nan, if sig then fNV else 0)

end Sys2Proof.Machine
end

