-- ==== Sys2Proof/Machine/Access.lean ====
section
/-!
DEFINITION. Reaching the parts of the state: partitions, tiles, threads; scheduled events; physical memory; buffers through
the latent store (spec/05 R101, R107, R108); translations, extents (spec/05 R109 to R111) and regions (spec/08 R162 to R164).
-/

namespace Sys2Proof.Machine

/-! ### Parts of the state -/

def State.part (s : State) (p : Nat) : Partition := s.parts.getD p Partition.absent
def State.modPart (s : State) (p : Nat) (f : Partition → Partition) : State := { s with parts := s.parts.modify p f }
def Partition.tile (P : Partition) (t : Nat) : Tile := P.tiles.getD t Tile.zero
def Partition.modTile (P : Partition) (t : Nat) (f : Tile → Tile) : Partition := { P with tiles := P.tiles.modify t f }
def State.tile (s : State) (p t : Nat) : Tile := (s.part p).tile t
def State.modTile (s : State) (p t : Nat) (f : Tile → Tile) : State := s.modPart p fun P => P.modTile t f
def Tile.thread (T : Tile) (i : Nat) : Thread := T.threads.getD i Thread.zero
def Tile.modThread (T : Tile) (i : Nat) (f : Thread → Thread) : Tile := { T with threads := T.threads.modify i f }
def State.ctrl (s : State) (d : Nat) : Ctrl := s.ctrls.toList.getD d Ctrl.zero
def State.modCtrl (s : State) (d : Nat) (f : Ctrl → Ctrl) : State :=
  if h : d < 4 then { s with ctrls := s.ctrls.set d (f s.ctrls[d]) } else s
def State.thread (s : State) (a : Agent) (i : Nat) : Thread :=
  match a with
  | .tile p t => (s.tile p t).thread i
  | .ctrl d => (s.ctrl d).th
def State.modThread (s : State) (a : Agent) (i : Nat) (f : Thread → Thread) : State :=
  match a with
  | .tile p t => s.modTile p t fun T => T.modThread i f
  | .ctrl d => s.modCtrl d fun c => { c with th := f c.th }

/-- The thread whose unit is being executed. -/
def State.here (s : State) : Thread := s.thread s.cur.agent s.cur.th
def State.modHere (s : State) (f : Thread → Thread) : State := s.modThread s.cur.agent s.cur.th f

/-- The current thread's tile, for a tile. -/
def State.hereTile (s : State) : Tile :=
  match s.cur.agent with
  | .tile p t => s.tile p t
  | .ctrl _ => Tile.zero
def State.modHereTile (s : State) (f : Tile → Tile) : State :=
  match s.cur.agent with
  | .tile p t => s.modTile p t f
  | .ctrl _ => s
def State.herePart (s : State) : Partition :=
  match s.cur.agent with
  | .tile p _ => s.part p
  | .ctrl _ => Partition.absent
def State.hereP (s : State) : Nat :=
  match s.cur.agent with
  | .tile p _ => p
  | .ctrl _ => 0
def State.hereT (s : State) : Nat :=
  match s.cur.agent with
  | .tile _ t => t
  | .ctrl _ => 0
/-- The logical tile of an agent (R77); a controller has none. -/
def agentTile : Agent → Nat
  | .tile _ t => t
  | .ctrl _ => 0

/-- The number of an agent in the order of a cycle: tiles by partition and number, then controllers. -/
def agentKey : Agent → Nat
  | .tile p t => 2048 * p + t
  | .ctrl d => 2048 * 64 + d

/-- The current thread exists: its partition, tile and thread number stand in the state. -/
def State.Here (s : State) : Bool :=
  match s.cur.agent with
  | .tile p t => decide (p < s.parts.length) && decide (t < (s.part p).tiles.length) &&
      decide (s.cur.th < ((s.part p).tile t).threads.length)
  | .ctrl d => decide (d < 4)

/-! ### Scheduled steps -/

/-- A step of the package due dt cycles from now. -/
def State.schedule (s : State) (dt : Nat) (ev : Instr) (arg : Arg) : State :=
  { s with agenda := s.agenda ++ [⟨s.cycle + dt, ev, arg⟩] }

/-- A step due after a time that the manual leaves open (log entry 1). -/
def State.scheduleFree (s : State) (k : Delay) (ev : Instr) (arg : Arg) : State :=
  { s.schedule (1 + Config.delay k s.fresh) ev arg with fresh := s.fresh + 1 }

/-- A new identity for a write or an engine operation (happens-before, R124). -/
def State.newId (s : State) : State := { s with opCtr := s.opCtr + 1 }

/-! ### Physical memory -/

/-- Bytes of physical memory. In recovery mode HBM is not available (R25): it reads zero, and writes to it are dropped (DESIGN CHOICE, log
entry 61). HBM holds a byte at every package physical address, one above its 512 GB too (DESIGN CHOICE, log entry 63). -/
def State.physRead (s : State) (l : Loc) (n : Nat) : List Byte :=
  if l.host then s.host.readRun l.addr n else if s.boot.recov then List.replicate n 0 else s.hbm.readRun l.addr n

/-- The aligned 8-byte words of a physical range. -/
def wordsOf (l : Loc) (n : Nat) : List Loc :=
  if n = 0 then [] else (List.range ((l.addr + n - 1) / 8 + 1 - l.addr / 8)).map fun k => ⟨l.host, 8 * (l.addr / 8 + k)⟩

/-- A tag stands on a word of a physical range. -/
def Tag.within (g : Tag) (l : Loc) (n : Nat) : Bool :=
  match g.at_ with
  | .word w => decide (w.host = l.host) && decide (w.addr < l.addr + n) && decide (l.addr < w.addr + 8)
  | .mgmt .. | .buf .. => false

/-- A tag after n bytes from `lo` are written where its word stands at `base`: a write of the word clears it (R123), and the bytes
written no longer hold what the release wrote (R124). -/
def Tag.written (g : Tag) (base lo n : Nat) : Option Tag :=
  if lo + n ≤ base ∨ base + 8 ≤ lo then some g
  else
    let h := g.held.filter fun k => decide (base + k < lo) || decide (lo + n ≤ base + k)
    if h = [] then none else some { g with held := h, on := false }

/-- A tag after a write of n bytes of physical memory. -/
def Tag.afterPhys (l : Loc) (n : Nat) (g : Tag) : Option Tag :=
  match g.at_ with
  | .word w => if w.host = l.host then g.written w.addr l.addr n else some g
  | .mgmt .. | .buf .. => some g

/-- A write clears the tags of the words it writes (R123), and the poison of every 32-byte unit it covers whole (R189). -/
def State.physWrite (s : State) (l : Loc) (bs : List Byte) : State :=
  let s := { s with tags := s.tags.filterMap (Tag.afterPhys l bs.length) }
  if l.host then { s with host := s.host.writeRun l.addr bs }
  else if s.boot.recov then s
  else { s with hbm := s.hbm.writeRun l.addr bs,
                poison := s.poison.filter fun u => !(decide (l.addr ≤ 32 * u) && decide (32 * u + 32 ≤ l.addr + bs.length)) }

def Loc.plus (l : Loc) (n : Nat) : Loc := { l with addr := l.addr + n }

/-- Bytes of a page of kind V as a partition's superstep sees them: what reached the page from outside since the partition's last
fix or wash point stays unseen (R119). -/
def State.seen (s : State) (p : Nat) (l : Loc) (n : Nat) : List Byte :=
  let old := (s.part p).stale
  if old = [] then s.physRead l n else ((s.physRead l n).zipIdx).map fun b => (old.lookup (l.plus b.2)).getD b.1

def State.physNat (s : State) (l : Loc) (n : Nat) : Nat := leNat (s.physRead l n)

/-- The first poisoned unit that a physical range reaches (R189). -/
def State.poisonAt (s : State) (l : Loc) (n : Nat) : Option Nat :=
  if l.host then none else s.poison.find? fun u => decide (32 * u < l.addr + n) && decide (l.addr < 32 * u + 32)

/-! ### Tile buffers (R95, R101, R107, R108) -/

def Tile.buf (T : Tile) : Buf → Memory
  | .w => T.w
  | .a => T.a
  | .c => T.c

/-- The bytes of one record laid over a run of bytes from offset a. -/
def overlay (a : Nat) (bs : List Byte) (start : Nat) (data : List Byte) : List Byte :=
  if start + data.length ≤ a ∨ a + bs.length ≤ start then bs
  else if a ≤ start then
    bs.take (start - a) ++ data.take (a + bs.length - start) ++ bs.drop (start - a + data.length)
  else data.drop (a - start) |>.take bs.length |> fun d => d ++ bs.drop d.length

/-- In-range bytes of a buffer through the latent store: the latest latent write of each byte, else the committed byte
(R107). -/
def Tile.readIn (T : Tile) (b : Buf) (a n : Nat) : List Byte :=
  T.latent.foldl (fun bs w => if w.buf = some b then overlay a bs w.loc.addr w.data else bs) ((T.buf b).readRun a n)

/-- A read of n bytes of a buffer: bytes at or above the buffer size return zero (R101). -/
def Tile.readBuf (T : Tile) (b : Buf) (a n : Nat) : List Byte :=
  let k := min n (Config.bufSize b - a)
  T.readIn b a k ++ List.replicate (n - k) 0

/-- The first byte of a range that is out of range (R101). -/
def oobByte (b : Buf) (a n : Nat) : Option Nat :=
  if n = 0 ∨ a + n ≤ Config.bufSize b then none else some (max a (Config.bufSize b))

/-- The granules of a range, by number. -/
def granulesOf (a n : Nat) : List Nat := if n = 0 then [] else (List.range ((a + n - 1) / 64 + 1 - a / 64)).map (a / 64 + ·)

/-- Granules that the latent store comes to hold, in order (R107, R108). -/
def Tile.takeGranules (T : Tile) (gs : List Gran) : Tile := { T with granules := T.granules ++ gs.filter fun g => !T.granules.contains g }

/-- A write to a buffer as latent granules (R107): out-of-range bytes are dropped (R101), and new granules are counted for
the spill of R108. -/
def Tile.writeLatent (T : Tile) (b : Buf) (w : WRec) : Tile :=
  let data := w.data.take (Config.bufSize b - w.loc.addr)
  if data = [] then T
  else { T with latent := T.latent ++ [{ w with buf := some b, data := data }] }.takeGranules ((granulesOf w.loc.addr data.length).map (.buf b))

/-- The granules that the latent store had no room for (R108). -/
def Tile.overflow (T : Tile) : List Gran := T.granules.drop Config.latentGranules

/-- A granule of the range is in the shadow area (R108). -/
def Tile.spilled (T : Tile) (b : Buf) (a n : Nat) : Bool :=
  (granulesOf a n).any fun g => T.overflow.contains (.buf b g) || T.copyBack.contains (.buf b g)

/-- The format code in force of a bank that holds an offset (R98); bank 15 of W beyond the buffer. -/
def Tile.fmtAt (T : Tile) (b : Buf) (a : Nat) : Byte :=
  let k := match b with
    | .w => min (a / 24576) 15
    | .a => 16 + min (a / 16384) 15
    | .c => 32 + min (a / 16384) 7
  T.fmt.toList.getD k 0

/-- A tag after a write of n bytes of a tile's buffer. -/
def Tag.afterBuf (p t : Nat) (b : Buf) (a n : Nat) (g : Tag) : Option Tag :=
  match g.at_ with
  | .word _ | .mgmt .. => some g
  | .buf q u b2 x => if q = p ∧ u = t ∧ b2 = b then g.written x a n else some g

/-- A write to a tile's buffer: latent bytes, and the tags of the words written go (R123, R107). -/
def State.bufWrite (s : State) (p t : Nat) (b : Buf) (w : WRec) : State :=
  { s.modTile p t fun T => T.writeLatent b w with tags := s.tags.filterMap (Tag.afterBuf p t b w.loc.addr w.data.length) }

/-! ### Translations and extents -/

/-- The page of a translation that holds a virtual 64 KiB page. -/
def findPage (tr : List PageT) (vpn : Nat) : Option PageT := tr.find? fun e => decide (e.vpn ≤ vpn) && decide (vpn < e.vpn + e.size)

/-- The physical byte of a virtual address. -/
def PageT.locOf (e : PageT) (va : Nat) : Loc := e.loc.plus (va - e.vpn * 65536)

def translate (tr : List PageT) (va : Nat) : Option Loc := (findPage tr (va / 65536)).map fun e => e.locOf va

/-- The pieces of a virtual range that lie within one 64 KiB page each: (virtual address, length). -/
def pagePieces : (fuel va n : Nat) → List (Nat × Nat)
  | 0, _, _ => []
  | f + 1, va, n => if n = 0 then [] else
      let k := min n (65536 - va % 65536)
      (va, k) :: pagePieces f (va + k) (n - k)

/-- The pages a range can touch bound the pieces. -/
def pieces (va n : Nat) : List (Nat × Nat) := pagePieces (n / 65536 + 2) va n

/-- Committed bytes at virtual addresses of a translation; an untranslated byte reads zero. -/
def State.vread (s : State) (tr : List PageT) (va n : Nat) : List Byte :=
  (pieces va n).flatMap fun x => match translate tr x.1 with
    | some l => s.physRead l x.2
    | none => List.replicate x.2 0

/-- Bytes written at virtual addresses of a translation. -/
def State.vwrite (s : State) (tr : List PageT) (va : Nat) (bs : List Byte) : State :=
  (pieces va bs.length).foldl (fun s x => match translate tr x.1 with
    | some l => s.physWrite l ((bs.drop (x.1 - va)).take x.2)
    | none => s) s

/-! ### Outside writes (R119, R133) -/

/-- A partition stands still: it has no running launch, or is held or halted, so what comes from outside applies at once (R48, R73,
R119). -/
def Partition.still (P : Partition) : Bool :=
  P.launch.isNone || decide (P.run = .held) || decide (P.run = .halted) || decide (P.run = .idle)

/-- A partition maps a physical byte on a page of kind V: by the translation of its superstep, or by one that a change has made since and
that comes into use at a later fix (R48, R119, R132). -/
def Partition.mapsV (P : Partition) (l : Loc) : Bool :=
  (P.transNow ++ P.transBuild ++ P.transTlb ++ P.trans).any fun e => decide (e.kind = .v) && decide (e.loc.host = l.host) && decide (e.loc.addr ≤ l.addr) && decide (l.addr < e.loc.addr + 65536 * e.size)

/-- A partition may execute code at a physical byte, in this superstep or the next one: by the translations of the two (R132). -/
def Partition.executes (P : Partition) (l : Loc) : Bool :=
  (P.transNow ++ P.transBuild).any fun e => e.x && decide (e.loc.host = l.host) && decide (e.loc.addr ≤ l.addr) && decide (l.addr < e.loc.addr + 65536 * e.size)

/-- Bytes about to change, with what they hold now. -/
def State.oldBytes (s : State) (l : Loc) (n : Nat) : List (Loc × Byte) := ((s.physRead l n).zipIdx).map fun b => (l.plus b.2, b.1)

/-- A byte lies in a physical range. -/
def Loc.within (l : Loc) (lo : Loc) (n : Nat) : Bool := decide (l.host = lo.host) && decide (lo.addr ≤ l.addr) && decide (l.addr < lo.addr + n)

/-- Bytes about to be written from outside keep their old values in the view of every other partition that runs and maps them with
kind V, until its next fix or wash point. A partition that stands still takes them at once, as code too: nothing of it has fetched them since
(R119, R133; log entry 13). -/
def State.hide (s : State) (except : Option Nat) (l : Loc) (n : Nat) : State :=
  let old := s.oldBytes l n
  { s with parts := s.parts.zipIdx.map fun x =>
      if some x.2 = except ∨ !x.1.valid then x.1
      else if x.1.still then { x.1 with codeOld := x.1.codeOld.filter fun o => !o.1.within l n }
      else { x.1 with stale := x.1.stale ++ old.filter fun o => x.1.mapsV o.1 && (x.1.stale.lookup o.1).isNone } }

/-- A write that comes from outside a partition's supersteps (R119). -/
def State.outsideWrite (s : State) (except : Option Nat) (l : Loc) (bs : List Byte) : State := (s.hide except l bs.length).physWrite l bs

/-- Bytes written from outside at virtual addresses of a translation (R119). -/
def State.outsideVwrite (s : State) (except : Option Nat) (tr : List PageT) (va : Nat) (bs : List Byte) : State :=
  (pieces va bs.length).foldl (fun s x => match translate tr x.1 with
    | some l => s.outsideWrite except l ((bs.drop (x.1 - va)).take x.2)
    | none => s) s

/-- The extent of a tile that holds a virtual address (R110). -/
def Tile.extent (T : Tile) (va : Nat) : Option Extent :=
  T.ext.find? fun e => decide (e.vpn ≤ va / 65536) && decide (va / 65536 < e.vpn + e.pages)

def Extent.locOf (e : Extent) (va : Nat) : Loc := e.loc.plus (va - e.vpn * 65536)

/-! ### Regions (R162, R163) -/

/-- A region of a partition with its header's fields: base, bytes of its run of pages, and what the header says. -/
structure Region where
  base : Nat
  bytes : Nat
  cav : Bool
  ne : Nat
  op : RedOp
  isInt : Bool
  esize : Nat
  first : Nat
  m : Nat
  ok : Bool
  deriving DecidableEq, Repr

/-- Bytes of one copy, slot or result: the elements rounded up to 64 (R162). -/
def Region.c (r : Region) : Nat := (r.ne * r.esize + 63) / 64 * 64

/-- The start of the run of pages of one kind that holds a page: `fuel` pages back at most. -/
def runStart (tr : List PageT) (k : Kind) : (fuel vpn : Nat) → Nat
  | 0, vpn => vpn
  | f + 1, vpn => if vpn = 0 then 0 else
      match findPage tr (vpn - 1) with
      | some e => if e.kind = k then runStart tr k f e.vpn else vpn
      | none => vpn

/-- The end of that run (the first page past it). -/
def runEnd (tr : List PageT) (k : Kind) : (fuel vpn : Nat) → Nat
  | 0, vpn => vpn
  | f + 1, vpn =>
      match findPage tr vpn with
      | some e => if e.kind = k then runEnd tr k f (e.vpn + e.size) else vpn
      | none => vpn

/-- The operator, element type and header of a region checked by R163; nTiles is the partition's number of tiles. -/
def regionOf (s : State) (tr : List PageT) (nTiles va : Nat) : Option Region :=
  match findPage tr (va / 65536) with
  | none => none
  | some e =>
    if e.kind = .red ∨ e.kind = .cav then
      let b := runStart tr e.kind tr.length e.vpn
      let z := runEnd tr e.kind (tr.length + 1) b
      let base := b * 65536
      let h := s.vread tr base 64
      let fld (i n : Nat) : Nat := leNat (bytesAt h i n)
      let op := RedOp.ofCode (BitVec.ofNat 4 (fld 4 1))
      let ty := fld 5 1
      let isInt := ty = 3
      let esize := if ty = 7 then 8 else 4
      let o := op.getD .iadd
      let pairOk : Bool := match o with
        | .iadd | .and | .or | .xor => decide (ty = 3)
        | .fadd => decide (ty = 6)
        | .min | .max | .mul => decide (ty = 3) || decide (ty = 6)
        | .maxi | .mini => decide (ty = 7)
      let ne := fld 0 4
      let m := fld 12 4
      let c := (ne * esize + 63) / 64 * 64
      let cav := e.kind = .cav
      let bytes := (z - b) * 65536
      some { base := base, bytes := bytes, cav := cav, ne := ne, op := o, isInt := isInt, esize := esize, first := fld 8 4, m := m,
             ok := decide (fld 4 1 < 10) && op.isSome && pairOk && decide (1 ≤ ne) && decide (ne ≤ 2 ^ 24) &&
               decide (fld 6 2 = 0) && (bytesAt h 16 48).all (· = 0) && decide (1 ≤ m) && decide (m ≤ 2048) &&
               decide (fld 8 4 + m ≤ nTiles) &&
               decide ((if cav then 64 + 2 * m * c else 64 + (m + 1) * c) ≤ bytes) }
    else none

/-- The logical tiles of the running launch's span (R71). -/
def Partition.inSpan (P : Partition) (t : Nat) : Bool :=
  match P.launch with
  | none => false
  | some l => decide (8 * l.spanOff ≤ t) && decide (t < 8 * (l.spanOff + l.pods * l.stages))

/-- A tile is a contributor to a region in this superstep (R163). -/
def Region.contributor (r : Region) (P : Partition) (t : Nat) : Bool :=
  decide (r.first ≤ t) && decide (t < r.first + r.m) && P.inSpan t

/-- The contributors of a region in rank order (R163). -/
def Partition.contributors (P : Partition) (r : Region) : List Nat := (List.range P.tiles.length).filter fun t => r.contributor P t

/-- The offset of a tile's staging slot (R162). -/
def Region.slotOff (r : Region) (t : Nat) : Nat := 64 + ((if r.cav then r.m else 1) + (t - r.first)) * r.c

/-- The offset of the bytes that element offset x (from base + 64) reaches for a tile: its own copy in a CAV region (R162). -/
def Region.ownOff (r : Region) (contrib : Bool) (t x : Nat) : Nat := if r.cav ∧ contrib then 64 + (t - r.first) * r.c + x else 64 + x

/-! ### Checks of a global access (R247 step 4, R111, R117, R162 to R164) -/

/-- How an access uses a global byte. -/
inductive Use where
  | load | store | atomic | line
  deriving DecidableEq, Repr

/-- The cause and detail of a refused access. -/
abbrev Refuse := Cause × Word

/-- The detail of UNSTAGED for a page the tile's extents lack. The re-run that was staged with the page in its append list faults
PROT where the page has no translation, and all ones where it needed one extent or one entry too many (R111). -/
def unstagedAs (P : Partition) (T : Tile) (va : Nat) : Refuse :=
  let page := va / 65536
  if T.appended.contains page then
    (if (findPage P.transNow page).isNone then (.prot, BitVec.ofNat 64 va) else (.unstaged, BitVec.allOnes 64))
  else if T.appendedFull then (.unstaged, BitVec.allOnes 64)
  else (.unstaged, BitVec.ofNat 64 (page * 65536))

/-- A piece of a global range, whole within one page, lies outside the extents (R111). -/
def extentCheck (P : Partition) (T : Tile) (va : Nat) : Option Refuse :=
  if (T.extent va).isNone then some (unstagedAs P T va) else none

/-- The extent of a piece forbids the access, or its kind does (R111, R117). -/
def permCheck (T : Tile) (u : Use) (va : Nat) : Option Refuse :=
  match T.extent va with
  | none => none
  | some e =>
    let allowed : Bool := match u with
      | .load => e.r
      | .store => e.w
      | .atomic => e.w && decide (e.kind = .l)
      | .line => e.x && decide (e.kind = .v)
    if allowed then none else some (.prot, BitVec.ofNat 64 va)

/-- The checks of an access that reaches a RED or CAV page (R162 to R164, R247): `t` the tile. -/
def regionCheck (s : State) (P : Partition) (t : Nat) (u : Use) (va n : Nat) : Option Refuse :=
  match regionOf s P.transNow P.tiles.length va with
  | none => none
  | some r =>
    let off := va - r.base
    let con := r.contributor P t
    let past : Bool := decide (64 + r.c < off + n)
    match u with
    | .store =>
      if off < 64 then some (.prot, BitVec.ofNat 64 va)
      else if !r.ok then some (.illegalTarget, BitVec.ofNat 64 r.base)
      else if past then some (.prot, BitVec.ofNat 64 (max va (r.base + 64 + r.c)))
      else if !con then some (.prot, BitVec.ofNat 64 va)
      else if (off - 64) % r.esize ≠ 0 ∨ n % r.esize ≠ 0 then some (.align, BitVec.ofNat 64 va)
      else none
    | _ => if r.ok && past then some (.prot, BitVec.ofNat 64 (max va (r.base + 64 + r.c))) else none

/-- The first check of R247 step 4 that fails for n bytes from a 64-bit address, in the order of its list. -/
def globalCheck (s : State) (p t : Nat) (u : Use) (ea : Word) (n : Nat) : Option Refuse :=
  let P := s.part p
  let T := P.tile t
  if ea.extractLsb' 57 7 != 0 then some (.prot, ea)
  else
    let ps := pieces ea.toNat n
    ((ps.find? fun x => decide (Config.addrSize ≤ x.1)).map fun x => (Cause.prot, BitVec.ofNat 64 x.1)).or <|
    (ps.findSome? fun x => extentCheck P T x.1).or <|
    (ps.findSome? fun x => permCheck T u x.1).or <|
    ps.findSome? fun x => match T.extent x.1 with
      | some e => if e.kind = .red ∨ e.kind = .cav then regionCheck s P t u x.1 x.2 else none
      | none => none

/-- Checks of a line fetch at a line address (R111, R117). -/
def lineCheck (s : State) (a : Agent) (la : Addr) : Option Refuse :=
  match a with
  | .tile p t => (extentCheck (s.part p) (s.tile p t) la.toNat).or (permCheck (s.tile p t) .line la.toNat)
  | .ctrl _ => none

/-! ### Code bytes (R133, R322) -/

/-- The bytes of a code line as the running superstep sees them: changes committed at the last fix stay unseen (R133). A mailbox image
runs from die 0's SRAM (R27). -/
def State.codeBytes (s : State) (a : Agent) (la : Addr) : List Byte :=
  match a with
  | .ctrl d => if s.boot.image ∧ d = 0 then (s.ctrl 0).sram.readRun la.toNat 64 else s.hbm.readRun la.toNat 64
  | .tile p t =>
    match (s.tile p t).extent la.toNat with
    | none => []
    | some e =>
      let l := e.locOf la.toNat
      ((s.seen p l 64).zipIdx).map fun b => ((s.part p).codeOld.lookup (l.plus b.2)).getD b.1

/-- A line of an agent's code line buffer. -/
def State.lineAt (s : State) (a : Agent) (la : Addr) : Option (List Byte) :=
  let ls := match a with
    | .tile p t => (s.tile p t).lines
    | .ctrl d => (s.ctrl d).lines
  (ls.find? fun l => l.addr == la).map (·.bytes)

/-- A line joins a code line buffer of 512 lines (R1): of a full one the line that came first leaves (DESIGN CHOICE, log entry 13). -/
def putLine (ls : List Line) (l : Line) : List Line := (l :: ls).take Config.lineBufferLines

/-- The line address of an address. -/
def lineOfAddr (a : Addr) : Addr := (a >>> 6) <<< 6

/-- The head index of an address. -/
def headIdx (a : Addr) : Nat := (a.extractLsb' 1 5).toNat

end Sys2Proof.Machine
end

