-- ==== Sys2Proof/Machine/Csr.lean ====
section
/-!
DEFINITION. The control registers by number: reads, writes by field and what each holds (spec/16 R316 to R318 and the
register maps it names).
-/

namespace Sys2Proof.Machine

/-- A cause's code (R173). -/
def Cause.code : Cause → Nat
  | .none => 0
  | .illegalOp => 0x01
  | .illegalLine => 0x02
  | .orphanPrefix => 0x03
  | .illegalTarget => 0x04
  | .priv => 0x05
  | .align => 0x06
  | .unstaged => 0x08
  | .prot => 0x09
  | .stackLimit => 0x0A
  | .slip => 0x10
  | .late => 0x11
  | .skew => 0x12
  | .eccUncorr => 0x14
  | .parity => 0x15
  | .linkFail => 0x16
  | .watchdog => 0x18
  | .boundWash => 0x19
  | .trap => 0x20
  | .voteWash => 0x21
  | .handlerFault => 0x22
  | .chainExhausted => 0x23
  | .resumeMismatch => 0x24

/-- The SSN that follows another (R78). -/
def nextSsn (n : BitVec 32) : BitVec 32 := if n = 0xFFFFFFFE then 0 else n + 1

/-- %tstat (R176). -/
def Thread.tstat (t : Thread) : Word :=
  BitVec.ofNat 64 (t.tcause.toNat * 256 + t.tpvote.toNat * 64 + (if t.tforced then 32 else 0) + (if t.tpfx then 16 else 0)
    + (if t.tchain then 8 else 0) + t.thops.toNat)

/-- %vstat (R265). -/
def Thread.vstat (t : Thread) : Word := BitVec.ofNat 64 (t.vor.toNat * 2 ^ 32 + t.hvote.toNat * 4 + t.vote.toNat)

/-- The number of slots of a ring (R105). -/
def Ring.slots (r : Ring) : Nat := r.count.toNat + 1
/-- A slot's size in bytes (R105). -/
def Ring.slotSize (r : Ring) : Nat := 2 ^ (r.slot.toNat + 6)
/-- Filled and free counts (R106). -/
def Ring.filled (r : Ring) : Nat := (r.prod - r.cons).toNat
def Ring.free (r : Ring) : Nat := r.slots - r.filled
def Ring.unused (r : Ring) : Bool := r.space = 0
def Ring.buf (r : Ring) : Buf := if r.space = 1 then .a else .c

/-- %hcfg's value (R105). -/
def Ring.word (r : Ring) : Word :=
  BitVec.ofNat 64 (r.space.toNat * 2 ^ 62 + r.slot.toNat * 2 ^ 58 + r.count.toNat * 2 ^ 44 + r.base.toNat)

/-- A ring as a write to %hcfg leaves it: both pointers 0, and unused where the value breaks R105. -/
def Ring.ofWord (v : Word) : Ring :=
  let r : Ring := ⟨v.extractLsb' 62 2, v.extractLsb' 58 4, v.extractLsb' 44 12, v.extractLsb' 0 18, 0, 0⟩
  if (r.space = 1 ∨ r.space = 2) ∧ r.slot.toNat ≤ 8 ∧ r.base.toNat % r.slotSize = 0 ∧
      r.base.toNat + r.slots * r.slotSize ≤ Config.bufSize r.buf then r
  else ⟨0, 0, 0, 0, 0, 0⟩

/-- The index of the first bank of a format register, by its number from 0x110 (R98). -/
def fmtBase (k : Nat) : Nat := 8 * k

/-- The buffer of a bank index of the 40 format bytes. -/
def fmtBuf (i : Nat) : Buf := if i < 16 then .w else if i < 32 then .a else .c

/-- A format register written: a byte that its bank does not allow is ignored (R98). -/
def Tile.writeFmt (T : Tile) (k : Nat) (v : Word) : Tile :=
  (List.range 8).foldl (fun T i =>
    let j := fmtBase k + i
    let b : Byte := v.extractLsb' (8 * i) 8
    if h : j < 40 then (if fmtAllowed (fmtBuf j) b then { T with fmt := T.fmt.set j b } else T) else T) T

/-- A format register's value. -/
def Tile.readFmt (T : Tile) (k : Nat) : Word := BitVec.ofNat 64 (leNat ((T.fmt.toList.drop (fmtBase k)).take 8))

/-- The build of a tile's extent table begins, of the next superstep's or, with k 1, of the current one (R110, R333). An earlier build of the tile that
has not ended is given up: its end names another build. -/
def State.beginBuild (s : State) (p t k : Nat) : State :=
  (s.modTile p t fun T => { T with building := true, build := s.fresh }).scheduleFree .extent .extentBuildDone { p := p, t := t, n := k, m := s.fresh }

/-- The build of the next extent table restarted from the list in force (R110). -/
def State.restartBuild (s : State) (p t : Nat) : State := s.beginBuild p t 0

/-- %flpa and %flpn written (R109, R261). -/
def State.writeFlp (s : State) (p t : Nat) (a : Option Addr) (n : Option Nat) : State :=
  (s.modTile p t fun T => { T with flpa := a.getD T.flpa, flpn := n.getD T.flpn }).restartBuild p t

/-- The pod's weights of a tile's pod (R112). -/
def Partition.podWeight (P : Partition) (t : Nat) : BitVec 32 := P.podwt.getD (t / 8) 0x11111111

/-- The value of a control register (R316 to R318). -/
def csrRead (s : State) (a : Agent) (i : Nat) (n : BitVec 12) : Word :=
  let th := s.thread a i
  let k := n.toNat
  let (P, T) : Partition × Tile := match a with
    | .tile p t => (s.part p, s.tile p t)
    | .ctrl _ => (Partition.absent, Tile.zero)
  if k = 0 then th.coord
  else if k = 1 then th.ct.setWidth 64
  else if k = 2 then th.slim.setWidth 64
  else if k = 3 then th.oob
  else if k = 4 then th.scl
  else if k = 5 then th.fflag.setWidth 64
  else if k = 6 then th.lrerr
  else if 0x008 ≤ k ∧ k ≤ 0x00B then (th.lb.toList.getD (k - 8) 0).setWidth 64
  else if 0x00C ≤ k ∧ k ≤ 0x00F then (th.le.toList.getD (k - 12) 0).setWidth 64
  else if 0x010 ≤ k ∧ k ≤ 0x013 then th.lc.toList.getD (k - 16) 0
  else if k = 0x020 then th.tvec
  else if k = 0x021 then th.tepc.setWidth 64
  else if k = 0x022 then th.tstat
  else if k = 0x023 then th.tdet
  else if k = 0x040 then (nextSsn P.ssn).setWidth 64
  else if k = 0x041 then s.ptime
  else if k = 0x042 then P.bred
  else if k = 0x043 then BitVec.ofNat 64 P.lead
  else if k = 0x044 then th.vstat
  else if k = 0x045 then T.flpa.setWidth 64
  else if k = 0x046 then BitVec.ofNat 64 T.flpn
  else if 0x080 ≤ k ∧ k ≤ 0x09F then th.par.toList.getD (k - 0x80) 0
  else if 0x100 ≤ k ∧ k ≤ 0x10F then (T.rings.toList.getD (k - 0x100) Ring.zero).word
  else if 0x110 ≤ k ∧ k ≤ 0x114 then T.readFmt (k - 0x110)
  else if k = 0x118 then T.flt
  else if k = 0x119 then T.fltd
  else if k = 0x11A then BitVec.ofNat 64 s.qcnt
  else if k = 0x120 then (match a with
    | .tile _ t => (P.podWeight t).setWidth 64
    | .ctrl _ => 0)
  else 0

/-- The registers with a field that `csrw` can write (R318); %fltd has none (DEDUCED, log entry 12). -/
def csrWritable (n : BitVec 12) : Bool :=
  let k := n.toNat
  (1 ≤ k && k ≤ 6) || (8 ≤ k && k ≤ 0x13) || (0x20 ≤ k && k ≤ 0x22) || k = 0x45 || k = 0x46 || (0x100 ≤ k && k ≤ 0x10F)
    || (0x110 ≤ k && k ≤ 0x114) || k = 0x118 || k = 0x120

/-- Why a `csrw` is refused, where it is: PRIV with the register number (R318, R176). -/
def csrRefused (t : Thread) (n : BitVec 12) : Bool :=
  !csrWritable n || (t.mode = .task && (n = 0x021 || n = 0x022))

/-- The thread's own registers written by field: RW, W1C or unchanged (R318 and the register maps). -/
def Thread.csrSet (th : Thread) (k : Nat) (v : Word) : Thread :=
  if k = 1 then { th with ct := v.setWidth 3 }
  else if k = 2 then { th with slim := v.setWidth 18 }
  else if k = 3 then (if v.getLsbD 63 then { th with oob := 0 } else th)
  else if k = 4 then { th with drop := th.drop && !v.getLsbD 9, clamp := th.clamp && !v.getLsbD 8 }
  else if k = 5 then { th with fflag := th.fflag &&& ~~~(v.setWidth 8 &&& 0xDF) }
  else if k = 6 then { th with lrerr := th.lrerr &&& ~~~(v &&& 0x0000FF0000000000) }
  else if h : 0x008 ≤ k ∧ k ≤ 0x00B then { th with lb := th.lb.set (k - 8) (v.setWidth 57 &&& ~~~1) }
  else if h : 0x00C ≤ k ∧ k ≤ 0x00F then { th with le := th.le.set (k - 12) (v.setWidth 57 &&& ~~~1) }
  else if h : 0x010 ≤ k ∧ k ≤ 0x013 then { th with lc := th.lc.set (k - 16) v }
  else if k = 0x020 then { th with tvec := v &&& 0x01FFFFFFFFFFFFC0 }
  else if k = 0x021 then { th with tepc := v.setWidth 57 &&& ~~~1 }
  else if k = 0x022 then { th with tpfx := v.getLsbD 4 }
  else th

/-- A control register written (R318). -/
def csrWrite (s : State) (a : Agent) (i : Nat) (n : BitVec 12) (v : Word) : State :=
  let k := n.toNat
  match a with
  | .ctrl _ => s.modThread a i fun t => t.csrSet k v
  | .tile p t =>
    if k = 0x045 then s.writeFlp p t (some (v.setWidth 57)) none
    else if k = 0x046 then s.writeFlp p t none (some (v.setWidth 8).toNat)
    else if h : 0x100 ≤ k ∧ k ≤ 0x10F then s.modTile p t fun T =>
      { T with rings := T.rings.set (k - 0x100) (Ring.ofWord v), ringHb := T.ringHb.set (k - 0x100) [] }
    else if 0x110 ≤ k ∧ k ≤ 0x114 then s.modTile p t fun T => T.writeFmt (k - 0x110) v
    else if k = 0x118 then (if v.getLsbD 63 then s.modTile p t fun T => { T with flt := 0, fltd := 0 } else s)
    else if k = 0x120 then s.modPart p fun P => { P with podwt := P.podwt.set (t / 8) (v.setWidth 32) }
    else s.modThread a i fun t => t.csrSet k v

end Sys2Proof.Machine
end

