-- ==== Sys2Proof/Machine/Ops.lean ====
section
/-!
DEFINITION. The operations the meanings share: register reads and writes with their landing times (spec/05 R92, R93),
fault records (spec/09 R183 to R186), taking a trap and returning from one (R174 to R182, R195), control transfers and loop
ends (spec/11 R217, R218; spec/12 R241), and the forking of engine operations (spec/06 R124).
-/

namespace Sys2Proof.Machine

/-! ### Registers (R226, R92) -/

/-- A scalar register of a thread; s0 reads zero. -/
def Thread.sreg (t : Thread) (r : Sreg) : Word := if r = 0 then 0 else t.regs[r]
/-- A predicate of a thread; p0 reads 1. -/
def Thread.preg (t : Thread) (p : Preg) : Bool := if p = 0 then true else t.preds[p]
/-- A scalar register written; a write to s0 is discarded. -/
def Thread.setS (t : Thread) (r : Sreg) (v : Word) : Thread := if r = 0 then t else { t with regs := t.regs.set r.val v }
/-- A predicate written; a write to p0 is discarded. -/
def Thread.setP (t : Thread) (p : Preg) (v : Bool) : Thread := if p = 0 then t else { t with preds := t.preds.set p.val v }

/-- The scalar registers and predicates of the current thread. -/
def State.sr (s : State) (r : Sreg) : Word := s.here.sreg r
def State.pr (s : State) (p : Preg) : Bool := s.here.preg p

/-- Writes to one register that would land no later than the cycle of a later-issued write: the later-issued one wins, and
the earlier one keeps its flags alone (R92, R137). -/
def giveWay (cyc : Nat) (d : Dest) (ps : List Pend) : List Pend := ps.map fun x => if x.land ≤ cyc ∧ x.dest = d then { x with dest := .s 0 } else x

def Thread.drop1 (t : Thread) (cyc : Nat) (d : Dest) : Thread := { t with pend := giveWay cyc d t.pend }

/-- A write that lands at the end of the cycle it issues in (class I). -/
def Thread.putS (t : Thread) (cyc : Nat) (d : Sreg) (v : Word) : Thread := (t.drop1 cyc (.s d)).setS d v
def Thread.putP (t : Thread) (cyc : Nat) (d : Preg) (v : Bool) : Thread := (t.drop1 cyc (.p d)).setP d v

/-- A scalar result of latency L, with the flags set in the cycle of the write (R92, R137). -/
def State.writeS (s : State) (L : Nat) (d : Sreg) (v : Word) (fl : Byte) : State :=
  if L ≤ 1 then s.modHere fun t => (t.putS s.cycle d v).orNow s.cycle fl
  else s.modHere fun t => { t with pend := t.pend ++ [⟨s.cycle + L - 1, .s d, v, fl⟩] }

/-- A predicate result of class I, with its flags. -/
def State.writeP (s : State) (d : Preg) (v : Bool) (fl : Byte) : State :=
  s.modHere fun t => (t.putP s.cycle d v).orNow s.cycle fl

/-- The identities of a thread's row writes that have not landed. -/
def Thread.rowIds (t : Thread) : List Nat := t.pend.filterMap fun x => match x.dest with
  | .row w => some w.id
  | .s _ | .p _ | .csr _ => none

/-- What happens before a write that reaches the latent store now: its thread's own row writes follow their landing times (R92,
R351), so those still to land do not. -/
def Thread.landedHb (t : Thread) : List Nat := t.hb.filter fun x => !t.rowIds.contains x

/-- A buffer write by a thread, in the latent store, with its identity and what happens before it (R107, R124). -/
def State.taskLatent (s : State) (p t i : Nat) (b : Buf) (a : Nat) (data : List Byte) : State :=
  let th := (s.tile p t).thread i
  let w : WRec := { id := s.opCtr, cls := .task, q := 8, ltile := t, th := i, seq := th.seq, hb := th.landedHb, buf := some b,
                    loc := ⟨false, a⟩, data := data }
  (s.newId.bufWrite p t b w).modTile p t fun T => T.modThread i fun th => { th with hb := s.opCtr :: th.hb, seq := th.seq + 1 }

/-- What happens before a thread or operation grows. -/
def joinHb (a b : List Nat) : List Nat := a.filter (fun x => !b.contains x) ++ b

/-- The identities of a thread's writes in its tile's latent store. -/
def Tile.ownIds (T : Tile) (i : Nat) : List Nat :=
  T.latent.filterMap fun w => if w.cls = .task ∧ w.th = i then some w.id else none

/-- A pending write applied as it lands. A row write keeps the identity and the IssueKey of its issue, and follows what its thread
has landed since (R92, R124, R351). -/
def applyPend (a : Agent) (i : Nat) (s : State) (x : Pend) : State :=
  let s := s.modThread a i fun t => t.orFlags x.flags
  match x.dest with
  | .s r => s.modThread a i fun t => t.setS r x.val
  | .p r => s.modThread a i fun t => t.setP r (x.val != 0)
  | .csr n => csrWrite s a i n x.val
  | .row w =>
    match a with
    | .tile p t => s.bufWrite p t .c { w with hb := joinHb ((s.tile p t).ownIds i) w.hb }
    | .ctrl _ => s

/-- The thread's writes due by the end of cycle c land, in issue order (R92). -/
def landThread (s : State) (a : Agent) (i : Nat) (c : Nat) : State :=
  ((s.thread a i).pend.filter fun x => decide (x.land ≤ c)).foldl
    (fun s x => applyPend a i (s.modThread a i fun t => { t with pend := t.pend.erase x }) x) s

/-- A pending `csrw` of a register that lands by the end of cycle c. -/
def Pend.csrDue (c : Nat) (f : BitVec 12 → Bool) (x : Pend) : Bool := decide (x.land ≤ c) && match x.dest with
  | .csr n => f n
  | .s _ | .p _ | .row _ => false

/-- The trap registers that `csrw` writes: %tvec, %tepc and %tstat (R176). -/
def isTrapCsr (n : BitVec 12) : Bool := n == 0x020 || n == 0x021 || n == 0x022

/-- A thread whose writes of the trap registers that land by the end of cycle c have landed: what a trap of that cycle does comes one cycle
later (R175, R223). -/
def Thread.landTrap (t : Thread) (c : Nat) : Thread :=
  { (t.pend.filter (Pend.csrDue c isTrapCsr)).foldl (fun t x => match x.dest with
      | .csr n => t.csrSet n.toNat x.val
      | .s _ | .p _ | .row _ => t) t with pend := t.pend.filter fun x => !x.csrDue c isTrapCsr }

/-- A tile whose threads' clears of %flt that land by the end of cycle c have landed (R175, R186, R223). -/
def Tile.landFlt (T : Tile) (c : Nat) : Tile :=
  let due (x : Pend) : Bool := x.csrDue c (· == 0x118)
  if T.threads.any fun t => t.pend.any fun x => due x && x.val.getLsbD 63 then
    { T with flt := 0, fltd := 0, threads := T.threads.map fun t => { t with pend := t.pend.filter fun x => !due x } }
  else T

/-- A tile before thread i of it takes a trap of this cycle. -/
def State.beforeTrap (s : State) (p t i : Nat) : State := s.modTile p t fun T => (T.landFlt s.cycle).modThread i fun th => th.landTrap s.cycle

/-- The cycle in which the last write of a thread lands, at least `c`. -/
def Thread.lastLand (t : Thread) (c : Nat) : Nat := t.pend.foldl (fun m x => max m x.land) c

/-! ### Fault records (R183 to R186) -/

/-- The bytes of a fault record (R184). -/
def recordBytes (s : State) (P : Partition) (lt th : Option Nat) (src : Nat) (cause : Cause) (detail : Word) (tepc : Word)
    (u : IssueUnit) (phys : Nat) (wr : Nat) : List Byte :=
  leBytes 8 s.ptime.toNat ++ leBytes 4 (nextSsn P.ssn).toNat ++ leBytes 1 cause.code ++ leBytes 1 src ++ leBytes 1 (th.getD 0xFF)
    ++ leBytes 1 (min P.washRuns 255) ++ leBytes 2 (lt.getD 0xFFFF) ++ leBytes 6 0 ++ leBytes 8 detail.toNat ++ leBytes 8 tepc.toNat
    ++ leBytes 8 (u.head.toNat + if u.hasPfx then u.pfx.toNat * 65536 else 0) ++ leBytes 8 phys ++ leBytes 4 0 ++ leBytes 4 wr

/-- A management event: a controller that `halt` stopped goes on (R320). -/
def State.wakeCtrls (s : State) : State :=
  { s with ctrls := s.ctrls.map fun c => if c.th.wait = .stopped then { c with th := { c.th with wait := .woken } } else c }

/-- RecordFault on a partition's fault ring (R185): whether the record was lost. -/
def recordFault (s : State) (p : Nat) (lt th : Option Nat) (src : Nat) (cause : Cause) (detail tepc : Word) (u : IssueUnit)
    (phys : Nat) : State × Bool :=
  let P := s.part p
  let va := (Config.faultRingPage p).toNat * 65536
  let hd := s.vread P.trans va 16
  let wr := leNat (bytesAt hd 0 4)
  let rd := leNat (bytesAt hd 4 4)
  let s := (s.vwrite P.trans va (leBytes 4 (wr + 1))).wakeCtrls
  if (wr + 2 ^ 32 - rd) % 2 ^ 32 < 4096 then
    (s.vwrite P.trans (va + 64 + 64 * (wr % 4096)) (recordBytes s P lt th src cause detail tepc u phys wr), false)
  else
    let lost := leNat (bytesAt hd 12 4)
    ((s.vwrite P.trans (va + 8) (leBytes 1 ((leNat (bytesAt hd 8 1)) ||| 1))).vwrite P.trans (va + 12)
      (leBytes 4 (min (lost + 1) 0xFFFFFFFF)), true)

/-- %flt and %fltd after a fault of the tile: the first since dispatch is kept, later ones are counted (R186). -/
def Tile.noteFlt (T : Tile) (ssn : BitVec 32) (th : Nat) (cause : Cause) (detail : Word) : Tile :=
  if T.flt.getLsbD 63 then
    let n := (T.flt.extractLsb' 32 16).toNat
    { T with flt := T.flt + (if n < 65535 then BitVec.ofNat 64 (2 ^ 32) else 0) }
  else { T with flt := BitVec.ofNat 64 (2 ^ 63 + th * 2 ^ 56 + cause.code * 2 ^ 48 + ssn.toNat), fltd := detail }

/-- RecordFault for a fault of a tile: the ring, %flt, FLOST in the vote and the tile's list for R180. `who` is the thread, or
8 for a tile event. -/
def tileFault (s : State) (p t who : Nat) (src : Nat) (cause : Cause) (vote : BitVec 2) (detail tepc : Word) (u : IssueUnit)
    (phys : Nat) : State :=
  let r := recordFault s p (some t) (if who < 8 then some who else none) src cause detail tepc u phys
  let ssn := nextSsn (s.part p).ssn
  r.1.modTile p t fun T =>
    let T := T.noteFlt ssn (if who < 8 then who else 0) cause detail
    { T with flost := T.flost || r.2, faults := T.faults ++ [⟨who, vote, cause, detail⟩] }

/-- The location word of an uncorrectable error (R189). -/
def eccWord (cls : Nat) (l : Loc) : Word := BitVec.ofNat 64 (cls * 2 ^ 62 + l.addr)

/-! ### Taking a trap (R174 to R182) -/

/-- The causes whose wash vote is forced (R173). -/
def Cause.forced : Cause → Bool
  | .unstaged | .slip | .late | .eccUncorr | .parity | .linkFail | .watchdog | .boundWash => true
  | _ => false

def maxVote (a b : BitVec 2) : BitVec 2 := if a < b then b else a

/-- The first cycle a handler's head, or the head an `rft` returns to, may issue: n cycles on, and after every write of the
thread has landed (R224). -/
def Thread.afterLanding (t : Thread) (cyc n : Nat) : Nat := max (cyc + n) (t.lastLand cyc + 1)

/-- The registers of a trap entry (R175): `chain` holds the hops of an entry by a chain message. With %tvec clear the
default action follows: the thread acts as if it had executed `fix`. -/
def Thread.enterTrap (t : Thread) (cyc : Nat) (cause : Cause) (detail : Word) (tepc : Addr) (pfx : Bool) (chain : Option Nat) :
    Thread :=
  let t := { t with tepc := tepc, tcause := BitVec.ofNat 8 cause.code, tpvote := t.vote, tforced := cause.forced, tpfx := pfx,
                    tchain := chain.isSome, thops := BitVec.ofNat 3 (chain.getD 0), tdet := detail, hvote := 0,
                    xsynced := t.xsynced && decide (t.wait ≠ Wait.xsync), vote := maxVote t.vote 1, fixRec := none, atfix := false, readyAt := t.afterLanding cyc 6, wait := .ready }
  if t.tvec = 0 then { t with atfix := true, wait := .fixed, pc := tepc }
  else { t with mode := .handler, pc := t.tvec.setWidth 57 }

/-- A page that UNSTAGED names joins the tile's append list of 16 (R111). -/
def Tile.appendPage (T : Tile) (detail : Word) : Tile :=
  if detail = BitVec.allOnes 64 then T
  else
    let page := detail.toNat / 65536
    if T.append.contains page then T
    else if T.append.length < 16 then { T with append := T.append ++ [page] } else { T with appendFull := true }

/-- The bytes of a line: as the line buffer holds them, else as a fetch would bring them. -/
def State.lineBytes (s : State) (a : Agent) (la : Addr) : List Byte := (s.lineAt a la).getD (s.codeBytes a la)

/-- The unit that begins at an address (R213), with no head where the line is illegal. -/
def State.unitAt (s : State) (a : Agent) (e : Addr) : IssueUnit :=
  match decodeLine (s.lineBytes a (lineOfAddr e)) with
  | none => ⟨e, lineOfAddr e + 64, false, 0, 0⟩
  | some hs =>
    let k := headIdx e
    let r := rawUnit (hs.drop k)
    let first := ((hs.drop k).head?.map (·.head)).getD 0
    ⟨e, if k + r.size < hs.length then lineOfAddr e + BitVec.ofNat 57 (2 * (k + r.size)) else lineOfAddr e + 64, !r.pfxs.isEmpty,
     if r.pfxs.isEmpty then 0 else first, (r.gov.map (·.head)).getD first⟩

/-- A receiver of a chain message: the lowest-numbered thread with an unfinished task that is not in handler mode (R182); none after the
tile has contributed its vote (R178). -/
def Tile.receiver (T : Tile) : Option Nat :=
  if T.voted then none else (List.range T.threads.length).find? fun i =>
    let t := T.thread i
    decide (t.task = .running) && decide (t.mode ≠ .handler)

/-- The chain word (R182): the hops in two bits. -/
def chainWord (cause : Cause) (lt th hops : Nat) : Word :=
  BitVec.ofNat 64 (cause.code + lt * 2 ^ 8 + th * 2 ^ 19 + hops % 4 * 2 ^ 22)

/-- The entries of %hchain of a pod from e on, as (valid, tile) (R181). -/
def chainEntries (v : BitVec 32) (h : Nat) : List Nat :=
  ((List.range 3).drop h).filterMap fun e => if v.getLsbD (4 * e + 3) then some (v.extractLsb' (4 * e) 3).toNat else none

/-- The physical pod of a logical pod of a partition (R37, R38). -/
def State.physPod (s : State) (p lpod : Nat) : Nat := s.logical.getD ((s.part p).base + lpod) 0

/-- The exhausted chain: every tile of the pod votes halt and its threads stop issuing (R182). -/
def chainExhausted (s : State) (p t : Nat) (w : Word) : State :=
  (List.range 8).foldl (fun s k =>
    let u := t / 8 * 8 + k
    let s := tileFault s p u 8 2 .chainExhausted 2 w 0 IssueUnit.zero 0
    s.modTile p u fun T => { T with stopIssue := true, threads := T.threads.map fun th =>
      if th.task = .running then { th with vote := 2, atfix := true, wait := .fixed } else th }) s

/-- ChainForward of R182, for a fault of a thread in handler mode: the receiver's unit is its own next one. -/
def chainForward (s : State) (p t i : Nat) (cause : Cause) (detail : Word) (u : IssueUnit) (phys : Nat) : State :=
  let th := (s.tile p t).thread i
  let s := tileFault s p t i 0 cause 1 detail (u.addr.setWidth 64) u phys
  let h := if th.tchain then th.thops.toNat else 0
  let s := s.modTile p t fun T => T.modThread i fun th =>
    { th with vote := maxVote th.vote 1, atfix := true, wait := .fixed, mode := .task, fixRec := none }
  let w := chainWord cause t i (h + 1)
  let pod := t / 8
  let cands := (chainEntries (s.hchain.toList.getD (s.physPod p pod) 0) h).filterMap fun e =>
    let r := pod * 8 + e
    if r = t then none else ((s.tile p r).receiver).map fun j => (r, j)
  match cands with
  | [] => chainExhausted s p t w
  | (r, j) :: _ =>
    let v := s.unitAt (.tile p r) ((s.tile p r).thread j).pc
    let s := tileFault (s.beforeTrap p r j) p r j 2 .handlerFault 1 w (v.addr.setWidth 64) v 0
    s.modTile p r fun T => T.modThread j fun th => th.enterTrap s.cycle .handlerFault w v.addr v.hasPfx (some (h + 1))

/-- TrapEntry of R175 on a thread of a tile. -/
def trapTile (s : State) (p t i : Nat) (cause : Cause) (detail : Word) (u : IssueUnit) (phys : Nat) : State :=
  let s := s.beforeTrap p t i
  let th := (s.tile p t).thread i
  let s := if cause = .unstaged then s.modTile p t fun T => T.appendPage detail else s
  if th.mode = .handler then chainForward s p t i cause detail u phys
  else
    let tepc := if cause = .trap then u.next else u.addr
    let s := tileFault s p t i 0 cause 1 detail (tepc.setWidth 64) u phys
    s.modTile p t fun T => T.modThread i fun th => th.enterTrap s.cycle cause detail tepc u.hasPfx none

/-- A trap in firmware mode (R195): the controller's handler, or a reset of the controller for a nested fault (DEDUCED, log entry 26). -/
def trapCtrl (s : State) (d : Nat) (cause : Cause) (detail : Word) (u : IssueUnit) : State :=
  let th := (s.ctrl d).th.landTrap s.cycle
  if th.handling || th.tvec = 0 then s.modCtrl d fun c => { Ctrl.zero with sram := c.sram }
  else s.modCtrl d fun c =>
    { c with back := none, th :=
      { th with
        tepc := (if cause = .trap then u.next else u.addr), tcause := BitVec.ofNat 8 cause.code, tpfx := u.hasPfx, tforced := cause.forced
        tdet := detail, handling := true, pc := th.tvec.setWidth 57, wait := .ready, readyAt := th.afterLanding s.cycle 6 } }

/-- A trap on a thread of an agent. -/
def State.trapOn (s : State) (a : Agent) (i : Nat) (cause : Cause) (detail : Word) (u : IssueUnit) (phys : Nat) : State :=
  match a with
  | .tile p t => trapTile s p t i cause detail u phys
  | .ctrl d => trapCtrl s d cause detail u

/-- A trap charged to the unit being executed, which has no effect (R174). -/
def State.raise (s : State) (cause : Cause) (detail : Word) : State := s.trapOn s.cur.agent s.cur.th cause detail s.here.unit 0

/-- The head being executed, as a detail word. -/
def State.headWord (s : State) : Word := s.here.unit.head.setWidth 64

/-- The detail word of a refused operand: reason, head and value (R288). -/
def State.reason (s : State) (r v : Nat) : Word :=
  BitVec.ofNat 64 (r + s.here.unit.head.toNat * 2 ^ 16 + v % 2 ^ 32 * 2 ^ 32)

/-- The first element of a list for which a test holds changed. -/
def modFirst {α : Type} (test : α → Bool) (f : α → α) : List α → List α
  | [] => []
  | x :: xs => if test x then f x :: xs else x :: modFirst test f xs

/-- The fault that a thread's handler has been entered for, the last of the thread's in the tile's list, takes the vote that `rft` or the handler's
`vote` leaves it with (R177, R180). -/
def Tile.setFaultVote (T : Tile) (who : Nat) (f : BitVec 2 → BitVec 2) : Tile :=
  { T with faults := (modFirst (fun x => decide (x.who = who)) (fun x => { x with vote := f x.vote }) T.faults.reverse).reverse }

/-- ReturnFromTrap of R177. -/
def Thread.returnFromTrap (t : Thread) (cyc : Nat) : Thread :=
  { t with vote := maxVote (maxVote t.tpvote t.hvote) (if t.tforced then 1 else 0), mode := .task, pc := t.tepc, wait := .ready,
           readyAt := t.afterLanding cyc 4 }

/-- A tile event: a fault record and a forced vote, no handler (R173). -/
def tileEvent (s : State) (p t : Nat) (cause : Cause) (vote : BitVec 2) (detail : Word) (phys : Nat) : State :=
  tileFault s p t 8 1 cause vote detail 0 IssueUnit.zero phys

/-- A partition event: its record (none for BOUND_WASH) and its contribution at the root (R80, R173). -/
def partEvent (s : State) (p : Nat) (cause : Cause) (vote : BitVec 2) (detail : Word) : State :=
  let s := if cause = .boundWash then s else (recordFault s p none none 3 cause detail 0 IssueUnit.zero 0).1
  s.modPart p fun P => if vote = 0 then P else { P with events := P.events ++ [⟨8, vote, cause, detail⟩] }

/-! ### Control transfers and loop ends (R217, R218, R241) -/

/-- Why an address is not a legal target, with the fault's detail (R217, R218); none for a legal one. -/
def targetFault (s : State) (a : Agent) (tgt : Addr) : Option Refuse :=
  let la := lineOfAddr tgt
  if tgt.getLsbD 0 then some (.illegalTarget, tgt.setWidth 64)
  else
    match (if (s.lineAt a la).isSome then none else lineCheck s a la) with
    | some r => some r
    | none =>
      match decodeLine (s.lineBytes a la) with
      | none => some (.illegalLine, la.setWidth 64)
      | some hs => if (unitStarts true hs).getD (headIdx tgt) false then none else some (.illegalTarget, tgt.setWidth 64)

/-- NextUnit of the unit at an address (R175): the head after its last head, or byte 0 of the next line after END. -/
def nextUnitAt (s : State) (a : Agent) (e : Addr) : Addr := (s.unitAt a e).next

/-- LoopEnd of R241 over the levels from 3 down: the levels' new counts, and where a level that stays open returns to. -/
def loopWalk (a : Addr) : List (Fin 4) → Thread → Thread × Option Addr
  | [], t => (t, none)
  | L :: Ls, t =>
    if t.lc[L] ≠ 0 ∧ t.le[L] = a then
      let t' := { t with lc := t.lc.set L.val (t.lc[L] - 1) }
      if t.lc[L] - 1 ≠ 0 then (t', some t.lb[L]) else loopWalk a Ls t'
    else loopWalk a Ls t

/-- LoopEnd for the unit being executed. -/
def loopEnd (a : Addr) (t : Thread) : Thread × Option Addr := loopWalk a [3, 2, 1, 0] t

/-- The cycle in which the unit being executed issued: now, or where its wait began. -/
def State.issuedAt (s : State) : Nat := if s.here.wait = .ready then s.cycle else s.here.waitFrom

/-- The first cycle in which the head after the unit may issue: the gap counts from the unit's issue, and a transfer holds the thread
for a cycle after it (R92, R93). -/
def State.nextIssue (s : State) (taken : Bool) : Nat :=
  max (s.cycle + 1) (s.issuedAt + 1 + max (headGap s.here.unit.head) (if taken then 1 else 0))

/-- A transfer that will fail its check: the unit has no effect, and the thread holds the fault until the target line is present and
the thread would issue there (R218; log entry 19). -/
def State.holdTarget (s0 : State) (tgt : Addr) (r : Refuse) : State :=
  s0.modHere fun t => { t with wait := .target tgt r.1 r.2, waitFrom := s0.cycle, readyAt := s0.nextIssue true }

/-- Pending writes after LoopEnd has changed the loop counts from `old` to `new`: one of a count that it lowers, which an earlier head has
pending for this cycle, gives way (R92, R223). -/
def dropCounts (cyc : Nat) (old new : Vector Word 4) (ps : List Pend) : List Pend :=
  [0, 1, 2, 3].foldl (fun ps (L : Fin 4) => if new[L] = old[L] then ps else giveWay cyc (.csr (BitVec.ofNat 12 (0x010 + L.val))) ps) ps

/-- The unit being executed ends: `s0` is the state at its issue, `s` the state with its effect, `taken` its own transfer.
LoopEnd is applied, a transfer or a loop return is checked (R218: on a fault the unit has no effect; a register target with bit 0
set faults at issue), and the program counter moves; the thread is held by the gap, and for a cycle after a transfer (R92, R93). -/
def State.finishAt (s0 s : State) (taken : Option Addr) : State :=
  let u := s0.here.unit
  let w := loopEnd u.addr s.here
  let tgt := taken.or w.2
  match tgt.bind fun a => (targetFault s0 s0.cur.agent a).map fun r => (a, r) with
  | some r => if r.1.getLsbD 0 then s0.raise r.2.1 r.2.2 else s0.holdTarget r.1 r.2
  | none =>
    s.modHere fun _ => { w.1 with pend := dropCounts s.cycle s.here.lc w.1.lc w.1.pend, pc := tgt.getD u.next, wait := .ready, readyAt := s0.nextIssue tgt.isSome }

/-- The unit ends without a transfer of its own. -/
def State.finish (s0 s : State) : State := s0.finishAt s none

/-- The unit blocks: it ends when its wait completes (R241). -/
def State.block (s : State) (w : Wait) : State := s.modHere fun t => { t with wait := w, waitFrom := s.cycle }

/-- Where the loop return of a blocking unit leads when the unit completes, from the loop registers as they will stand then (R241). -/
def Thread.returnAt (t0 : Thread) : Option Addr :=
  let t := t0.pend.foldl (fun t x => match x.dest with
    | .csr n => if 0x008 ≤ n.toNat ∧ n.toNat ≤ 0x013 then t.csrSet n.toNat x.val else t
    | .s _ | .p _ | .row _ => t) t0
  (loopEnd t.unit.addr t).2

/-- Where the loop return of a blocking unit would fault when the unit completes: the unit has no effect (R218, R241). -/
def State.returnRefused (s0 : State) : Option (Addr × Refuse) :=
  s0.here.returnAt.bind fun a => (targetFault s0 s0.cur.agent a).map fun r => (a, r)

/-- A blocking unit with effects at its issue: `s` with them, or none and the fault of its loop return held (R241; log entry 19). -/
def State.orHold (s0 s : State) : State :=
  match s0.returnRefused with
  | some r => s0.holdTarget r.1 r.2
  | none => s

/-- The unit blocks for a time that the manual leaves open (log entry 1). -/
def State.blockFor (s : State) (k : Delay) (w : Wait) : State :=
  (s.block w).scheduleFree k .blockingWaitDone { agent := s.cur.agent, th := s.cur.th, op := s.cycle }

/-- The channel in training that holds a byte of HBM: requests to it wait at its slice (R344). -/
def State.chanHolds (s : State) (l : Loc) : Option Nat :=
  if !l.host && s.chans.toList.any (·.train) && (s.chans.toList.getD (Config.channelOf l.addr) Channel.zero).train then
    some (Config.channelOf l.addr) else none

/-- A channel out of service holds a byte: its TRAIN has taken effect. Before that it still completes the requests that it has accepted (R344). -/
def State.outOfService (s : State) (l : Loc) : Bool :=
  let c := s.chans.toList.getD (Config.channelOf l.addr) Channel.zero
  !l.host && c.train && !c.trainAsked

/-- A channel out of service holds a byte of a range: a request that was made before waits at its slice. -/
def State.rangeHeld (s : State) (l : Loc) (n : Nat) : Bool :=
  !l.host && s.chans.toList.any (·.train) && (List.range (n / 32 + 2)).any fun k => s.outOfService (l.plus (min (32 * k) (n - 1)))

/-- The channels in training that hold bytes of a range. -/
def State.heldChans (s : State) (l : Loc) (n : Nat) : List Nat :=
  if l.host || !s.chans.toList.any (·.train) then [] else ((List.range (n / 32 + 2)).filterMap fun k => s.chanHolds (l.plus (min (32 * k) (n - 1)))).dedup

/-- The unit blocks until memory answers, at once or when its channel is in service again. -/
def State.blockRead (s : State) (l : Loc) (k : Delay) (d : Option Sreg) (v : Word) : State :=
  match s.chanHolds l with
  | some c => s.block (.chan c d v)
  | none => s.blockFor k (.result d v)

/-- Where a spilled granule of a tile's buffer stands: in the tile's ten shadow pages, in the order in which granules spilled (R108; DESIGN CHOICE, log
entry 66). -/
def State.shadowAt (s : State) (p t : Nat) (g : Gran) : Option Loc :=
  let T := s.tile p t
  ((T.overflow.findIdx? (· = g)).or (T.copyBack.findIdx? (· = g))).bind fun i =>
    (s.part p).shadow[10 * t + i / 1024]?.map fun k => ⟨false, 65536 * k + 64 * (i % 1024)⟩

/-- The channels in training that hold spilled granules of a range of a tile's buffer (R344). -/
def State.shadowChans (s : State) (p t : Nat) (b : Buf) (a n : Nat) : List Nat :=
  (granulesOf a n).flatMap fun g => ((s.shadowAt p t (.buf b g)).map fun l => s.heldChans l 64).getD []

/-- The unit blocks for a read of spilled granules, which waits for the channels of a list while they are in training (R108, R344). -/
def State.blockSpilled (s : State) (chs : List Nat) (w : Wait) : State :=
  (s.block w).scheduleFree .memRead .blockingWaitDone { agent := s.cur.agent, th := s.cur.th, op := s.cycle, nats := chs }

/-- A unit of task and handler mode alone: in firmware mode ILLEGAL_OP (R222). -/
def State.tileOnly (s : State) (k : State) : State :=
  if s.here.mode = .firmware then s.raise .illegalOp s.headWord else k

/-! ### Engine operations (R124, R305) -/

/-- Operations not yet complete. -/
def EngOp.live (o : EngOp) : Bool := o.st ≠ .done

/-- The count of a join token: operations that named it and are not complete (R305). -/
def State.tokenCount (s : State) (a : Agent) (i : Nat) (k : Fin 16) : Nat :=
  (s.ops.filter fun o => o.live && decide (o.agent = a) && decide (o.th = i) && decide (o.tok = some k)).length

/-- The queue of an operation: its kind, its place (a tile, or a pod for `quant`) and its capacity (R112, R152, R263, R298,
R300). -/
def EngOp.queue (o : EngOp) : Option (Nat × Nat × Nat) :=
  match o.kind with
  | .copy cq .. => some (cq.val, agentKey o.agent, 16)
  | .mma .. | .mldt .. | .mzero .. => some (8, agentKey o.agent, 8)
  | .wbk .. => some (9, agentKey o.agent, 16)
  | .xmit .. | .xsel .. => some (10, agentKey o.agent, 32)
  | .quant .. => some (11, agentKey o.agent / 8, 16)
  | .enl .. | .signal .. | .fold .. => none

/-- A matrix command. -/
def EngOp.isMatrix (o : EngOp) : Bool :=
  match o.kind with
  | .mma .. | .mldt .. | .mzero .. => true
  | _ => false

/-- Every access of an operation happens before every access of a later one: copies of one thread on one queue, the quantisation commands of a
pod's queue, and the matrix commands of one tile (R125, R295, R298, R351). -/
def EngOp.before (o n : EngOp) : Bool :=
  decide (o.queue = n.queue) && match o.kind with
    | .mma .. | .mldt .. | .mzero .. | .quant .. => true
    | .copy .. => decide (o.agent = n.agent) && decide (o.th = n.th)
    | _ => false

/-- A tile with the row writes of a list that have not landed written, in the order in which they land. -/
def Tile.seenAfter (T : Tile) (hb : List Nat) : Tile :=
  ((T.threads.flatMap (·.pend)).insertionSort fun x y => x.land ≤ y.land).foldl (fun T x => match x.dest with
    | .row w => if hb.contains w.id then T.writeLatent .c w else T
    | .s _ | .p _ | .csr _ => T) T

/-- The buffers of its tile as an operation sees them: with the row writes that happen before it, landed or not (R124, R269, R298, R351; DEDUCED, log
entry 66). -/
def State.forkView (s : State) (o : EngOp) : Tile :=
  match o.agent with
  | .tile p t => (s.tile p t).seenAfter o.hb
  | .ctrl _ => Tile.zero

/-- An operation's accesses and all that happens before them. -/
def EngOp.made (o : EngOp) : List Nat := o.id :: (o.parts ++ o.hb)

/-- An operation of the current thread: forked at issue, after every earlier access of the thread and the operations it is
ordered after (R124, R125). -/
def State.fork (s : State) (kind : OpKind) (tok : TokF) : State :=
  let t := s.here
  let o : EngOp := { id := s.opCtr, agent := s.cur.agent, th := s.cur.th, tok := if tok.te then some tok.tk else none, seq := t.seq,
                     hb := t.hb, ltile := agentTile s.cur.agent, kind := kind, st := .queued, prog := 0, prog0 := 0, parts := [], flags := 0,
                     masks := [], stamp := s.cycle, fetchA := [], fetchW := [], fetchC := [], unit := t.unit }
  let hb := (s.ops.filter fun x => x.before o).foldl (fun h x => joinHb x.made h) t.hb
  { s.newId.modHere fun t => { t with seq := t.seq + 1 } with ops := s.ops ++ [{ o with hb := hb }] }

def State.modOp (s : State) (id : Nat) (f : EngOp → EngOp) : State :=
  { s with ops := s.ops.map fun o => if o.id = id then f o else o }
def State.op? (s : State) (id : Nat) : Option EngOp := s.ops.find? fun o => o.id = id

/-- An operation's write to a buffer of its tile (R107): its place in happens-before and its IssueKey are the operation's. -/
def State.opWrite (s : State) (o : EngOp) (cls : WClass) (q p t : Nat) (b : Buf) (a : Nat) (data : List Byte) : State :=
  s.bufWrite p t b { id := o.id, cls := cls, q := q, ltile := o.ltile, th := o.th, seq := o.seq, hb := o.hb, buf := some b,
                     loc := ⟨false, a⟩, data := data }

/-- An operation completes: its token falls (R305), and its flags go to its thread (R137). -/
def State.opDone (s : State) (id : Nat) (fl : Byte) : State :=
  match s.op? id with
  | none => s
  | some o => (s.modOp id fun o => { o with st := .done }).modThread o.agent o.th fun t => t.orFlags fl

end Sys2Proof.Machine
end

