-- ==== Sys2Proof/Machine/Hbm.lean ====
section
/-!
DEFINITION. The HBM4 channel blocks (spec/22 R343 to R348), the monitors (spec/01 R20), the management space `m:`
(spec/16 R322, spec/09 R181, spec/01 R30) and the channels' rows of the table.
-/

namespace Sys2Proof.Machine

/-! ### Channels (R343 to R348) -/

def State.chan (s : State) (ch : Nat) : Channel := s.chans.toList.getD ch Channel.zero
def State.modChan (s : State) (ch : Nat) (f : Channel → Channel) : State :=
  if h : ch < 256 then { s with chans := s.chans.set ch (f s.chans[ch]) } else s

/-- A dropped write sets ERR (R348). -/
def Channel.drop (c : Channel) : Channel := { c with err := true }

/-- HCH_CTL's value (R344). -/
def Channel.ctl (c : Channel) : Nat := if c.train then 4 else 0
/-- HCH_STAT's value (R345). -/
def Channel.stat (c : Channel) : Nat := (if c.err then 2 else 0) + (if c.busy then 1 else 0)

/-- The last cycle in which a memory request accepted so far completes. -/
def State.lastAnswer (s : State) : Nat := s.agenda.foldl (fun m d => match d.ev with
  | .blockingWaitDone | .lineArrival | .engineSlotDelivered | .copyComplete | .wbkComplete | .signalComplete | .copyIn | .copyOut | .writeBehindDrainDone | .extentBuildDone | .resumeFromSaveArea => max m d.at_
  | _ => m) s.cycle

/-- A write to HCH_CTL without GO: TRAIN set or cleared; setting it takes effect once the requests accepted so far have completed
(R344). -/
def trainWrite (s : State) (ch : Nat) (x : BitVec 32) : State :=
  let c := s.chan ch
  if c.busy then s.modChan ch Channel.drop
  else if x.getLsbD 2 then
    if c.train then s
    else (s.modChan ch fun c => { c with train := true, trainAsked := true, trainAt := s.lastAnswer + 1 }).schedule (s.lastAnswer + 1 - s.cycle) .trainEffective { n := ch }
  else s.modChan ch fun c => { c with train := false, trainAsked := false }

/-- TRAIN = 1 has taken effect, and not an earlier one that was taken back: a test that waits for it begins (R344). -/
def trainEffective (s : State) (ch : Nat) : State :=
  let c := s.chan ch
  if !c.trainAsked ∨ s.cycle < c.trainAt then s
  else
    let s' := s.modChan ch fun c => { c with trainAsked := false, goAsked := false }
    if c.goAsked then s'.schedule 3600 .patternTestDone { n := ch } else s'

/-- GO: one pattern test of 3,600 cycles, or ERR (R344, R348). -/
def patternStart (s : State) (ch : Nat) : State :=
  let c := s.chan ch
  if c.busy || !c.train then s.modChan ch Channel.drop
  else if c.trainAsked then s.modChan ch fun c => { c with busy := true, goAsked := true }
  else (s.modChan ch fun c => { c with busy := true }).schedule 3600 .patternTestDone { n := ch }

/-- The lane that carries data lane l under the repair (R347). -/
def Channel.carrier (c : Channel) (l : Nat) : Nat :=
  if c.repair.getLsbD 7 && decide ((c.repair.extractLsb' 0 6).toNat = l) then 64
  else if c.repair.getLsbD 15 && decide ((c.repair.extractLsb' 8 6).toNat = l) then 65
  else l

/-- Whether a physical lane passes a test: a free value of its delays (log entry 8). -/
def Channel.laneOk (c : Channel) (ch n l : Nat) : Bool := Config.lanePasses ch l (c.rd.toList.getD l 8) (c.wr.toList.getD l 8) n

/-- A register's value from n bytes (R248). -/
def extendN (n : Nat) (signed : Bool) (v : Nat) : Word :=
  if signed then (BitVec.ofNat (8 * n) v).signExtend 64 else BitVec.ofNat 64 v

/-- An address in a channel's PASS0 or PASS1. -/
def inPass (ch addr : Nat) : Bool := decide (0x20000020 + 0x10000 * ch ≤ addr) && decide (addr < 0x20000030 + 0x10000 * ch)

/-- What a load of n bytes of PASS0 or PASS1 returns. -/
def passBytes (c : Channel) (addr n : Nat) : Nat :=
  (if addr % 0x10 < 8 then c.pass0.toNat / 2 ^ (8 * (addr % 8)) else c.pass1.toNat / 2 ^ (8 * (addr % 8))) % 2 ^ (8 * n)

/-- A pattern test ends: the pass words, and BUSY clear; the loads that reached them while it ran return this test's result
(R345). -/
def patternDone (s : State) (ch : Nat) : State :=
  let c := s.chan ch
  if !c.busy then s
  else
    let n := s.fresh
    let p0 := ((List.range 64).map fun l => if c.laneOk ch n (c.carrier l) then 2 ^ l else 0).sum
    let p1 := ((List.range 2).map fun k => if c.laneOk ch n (64 + k) then 2 ^ k else 0).sum
    let s := { s.modChan ch fun c => { c with busy := false, pass0 := BitVec.ofNat 64 p0, pass1 := BitVec.ofNat 2 p1 } with fresh := n + 1 }
    (List.range 4).foldl (fun s d => match (s.ctrl d).th.wait with
      | .pass r addr k sg =>
        if inPass ch addr then
          (s.modCtrl d fun c => { c with th := { c.th with wait := .result (some r) (extendN k sg (passBytes (s.chan ch) addr k)) } }).schedule 0
            .blockingWaitDone { agent := .ctrl d, th := 0, op := (s.ctrl d).th.waitFrom }
        else s
      | _ => s) s

/-- A write to the delay or repair registers: dropped while BUSY, and while TRAIN is 0 (R348). -/
def Channel.setDelay (c : Channel) (f : Channel → Channel) : Channel := if c.busy || !c.train then c.drop else f c

/-- The read delay, write delay of every lane set (R346). -/
def Channel.rdAll (c : Channel) (x : BitVec 32) : Channel := c.setDelay fun c => { c with rd := Vector.replicate 66 (x.setWidth 5) }
def Channel.wrAll (c : Channel) (x : BitVec 32) : Channel := c.setDelay fun c => { c with wr := Vector.replicate 66 (x.setWidth 5) }

/-- Bits of HCH_REPAIR that hold a value (R347). -/
def repairMask : BitVec 32 := 0x0000BFBF

/-- One 32-bit word of a channel block (R343). -/
def chanRead4 (c : Channel) (off : Nat) : Nat :=
  if off = 0x000 then c.ctl
  else if off = 0x008 then c.stat
  else if off = 0x020 then c.pass0.toNat % 2 ^ 32
  else if off = 0x024 then c.pass0.toNat / 2 ^ 32
  else if off = 0x028 then c.pass1.toNat
  else if off = 0x030 then c.repair.toNat
  else if 0x200 ≤ off ∧ off < 0x200 + 4 * 66 then (c.rd.toList.getD ((off - 0x200) / 4) 0).toNat
  else if 0x400 ≤ off ∧ off < 0x400 + 4 * 66 then (c.wr.toList.getD ((off - 0x400) / 4) 0).toNat
  else 0

/-- Whether a register stands at an offset of a channel block (R343). -/
def chanHas (off : Nat) : Bool :=
  off = 0x000 || off = 0x008 || off = 0x020 || off = 0x024 || off = 0x028 || off = 0x02C || off = 0x030 || off = 0x3FC || off = 0x5FC
    || (0x200 ≤ off && off < 0x200 + 4 * 66) || (0x400 ≤ off && off < 0x400 + 4 * 66)

/-- One 32-bit word written in a channel block (R343 to R348). -/
def chanWrite4 (s : State) (ch off : Nat) (x : BitVec 32) : State :=
  if off = 0x000 then (if x.getLsbD 0 then patternStart s ch else trainWrite s ch x)
  else if off = 0x008 then (if x.getLsbD 1 then s.modChan ch fun c => { c with err := false } else s)
  else if off = 0x030 then s.modChan ch fun c => c.setDelay fun c => { c with repair := x &&& repairMask }
  else if off = 0x3FC then s.modChan ch fun c => c.rdAll x
  else if off = 0x5FC then s.modChan ch fun c => c.wrAll x
  else if h : 0x200 ≤ off ∧ off < 0x200 + 4 * 66 then
    s.modChan ch fun c => c.setDelay fun c => { c with rd := c.rd.set ((off - 0x200) / 4) (x.setWidth 5) }
  else if h : 0x400 ≤ off ∧ off < 0x400 + 4 * 66 then
    s.modChan ch fun c => c.setDelay fun c => { c with wr := c.wr.set ((off - 0x400) / 4) (x.setWidth 5) }
  else if chanHas off then s.modChan ch fun c => if c.busy then c.drop else c
  else s

/-! ### Monitors (R20) -/

/-- The bin of a sample (R20). -/
def Monitor.bin (m : Monitor) (v : Nat) : Nat :=
  let sh := m.shift.toNat
  if v < 2 ^ (sh + 1) then 0 else if 2 ^ (sh + 15) ≤ v then 15 else Nat.log2 v - sh

/-- A sample taken (R20). -/
def Monitor.sample (m : Monitor) (v : Nat) : Monitor :=
  let v := Nat.min v 0xFFFFFFFF
  let k := Nat.min (m.bin v) 15
  { m with min := BitVec.ofNat 32 (Nat.min m.min.toNat v), max := BitVec.ofNat 32 (Nat.max m.max.toNat v),
           bins := Vector.ofFn fun i => if i.val = k then (if m.bins[i] = 0xFFFFFFFF then m.bins[i] else m.bins[i] + 1) else m.bins[i] }

/-- A sample offered to a partition's monitors that watch a source (R20). -/
def Partition.sample (P : Partition) (src v : Nat) : Partition :=
  { P with monitors := P.monitors.map fun m => if m.en && decide (m.src.toNat = src) then m.sample v else m }

/-- MON_SEL's fields written (R20): a reserved code leaves SRC. -/
def Monitor.select (m : Monitor) (x : BitVec 32) : Monitor :=
  { m with en := x.getLsbD 31, shift := x.extractLsb' 8 5, src := if (x.setWidth 8).toNat ≤ 9 then x.setWidth 8 else m.src }

/-- CLR (R20). -/
def Monitor.clear (m : Monitor) : Monitor := { m with min := 0xFFFFFFFF, max := 0, bins := Vector.replicate 16 0 }

def Monitor.read4 (m : Monitor) (off : Nat) : Nat :=
  if off = 0x00 then (if m.en then 2 ^ 31 else 0) + m.shift.toNat * 256 + m.src.toNat
  else if off = 0x04 then m.min.toNat
  else if off = 0x08 then m.max.toNat
  else if 0x0C ≤ off ∧ off < 0x0C + 64 then (m.bins.toList.getD ((off - 0x0C) / 4) 0).toNat
  else 0

def State.modMon (s : State) (p i : Nat) (f : Monitor → Monitor) : State :=
  s.modPart p fun P => if h : i < 8 then { P with monitors := P.monitors.set i (f P.monitors[i]) } else P

/-- A 32-bit word of the monitors' block of 64 KiB written: only MON_SEL takes writes (R20). -/
def monWrite4 (s : State) (off : Nat) (x : BitVec 32) : State :=
  if off % 0x80 = 0 then
    s.modMon (off / 0x400) (off % 0x400 / 0x80) fun m => let m := m.select x; if x.getLsbD 30 then m.clear else m
  else s

def monRead4 (s : State) (off : Nat) : Nat :=
  ((s.part (off / 0x400)).monitors.toList.getD (off % 0x400 / 0x80) Monitor.zero).read4 (off % 0x80)

/-! ### The management space (R322) -/

def State.lease (s : State) (d : Nat) : Lease := s.leases.toList.getD d ⟨0, 0, 0⟩

/-- A lease cell written; a cell that holds a higher epoch drops a write that carries a lower one (R31). -/
def State.setLease (s : State) (d : Nat) (l : Lease) : State :=
  if h : d < 4 then (if l.epoch.toNat < s.leases[d].epoch.toNat then s else { s with leases := s.leases.set d l }) else s

/-- The die whose SRAM an address reaches, with the offset, for an access by die d's controller (R322). -/
def sramAt (d addr : Nat) : Option (Nat × Nat) :=
  if addr < 0x400000 then some (d, addr)
  else if 0x01000000 ≤ addr ∧ addr < 0x01000000 + 4 * 0x400000 then some ((addr - 0x01000000) / 0x400000, (addr - 0x01000000) % 0x400000)
  else none

/-- A register block's 32-bit word at an address, or none where no register stands (R322). -/
def mReg4 (s : State) (addr : Nat) : Option Nat :=
  if 0x10000000 ≤ addr ∧ addr < 0x10000000 + 0x1000 * 256 then
    if (addr - 0x10000000) % 0x1000 = 0 then some (s.hchain.toList.getD ((addr - 0x10000000) / 0x1000) 0).toNat else none
  else if 0x20000000 ≤ addr ∧ addr < 0x20000000 + 0x10000 * 256 then
    let off := (addr - 0x20000000) % 0x10000
    if chanHas off then some (chanRead4 (s.chan ((addr - 0x20000000) / 0x10000)) off) else none
  else if 0x40000000 ≤ addr ∧ addr < 0x40000000 + 0x40 * 4 then
    let l := s.lease ((addr - 0x40000000) / 0x40)
    let off := (addr - 0x40000000) % 0x40
    if off = 0 then some l.epoch.toNat else if off = 4 then some l.holder.toNat
    else if off = 8 then some (l.expiry.toNat % 2 ^ 32) else if off = 12 then some (l.expiry.toNat / 2 ^ 32) else none
  else if addr = 0x41000000 then some (s.ptime.toNat % 2 ^ 32)
  else if addr = 0x41000004 then some (s.ptime.toNat / 2 ^ 32)
  else if 0x42010000 ≤ addr ∧ addr < 0x42020000 then
    let off := (addr - 0x42010000) % 0x80
    if off < 0x4C then some (monRead4 s (addr - 0x42010000)) else none
  else none

/-- An address lies in a register block of the map, which takes accesses of 4 and 8 bytes alone (R322; the monitors, R20). -/
def mBlock (addr : Nat) : Bool :=
  (0x10000000 ≤ addr && addr < 0x10100000) || (0x20000000 ≤ addr && addr < 0x21000000) || (0x30000000 ≤ addr && addr < 0x30028000)
    || (0x40000000 ≤ addr && addr < 0x40000100) || (0x41000000 ≤ addr && addr < 0x41000008) || (0x42010000 ≤ addr && addr < 0x42020000)

/-- The first byte of an access behind which no register stands (R247 step 5). -/
def mMissing (s : State) (d addr n : Nat) : Option Nat :=
  if (sramAt d addr).isSome then none
  else if 0xFFFFFFFF < addr ∨ !mBlock addr then some addr
  else (List.range ((n + 3) / 4)).findSome? fun i => if (mReg4 s (addr + 4 * i)).isNone then some (addr + 4 * i) else none

/-- A load through `m:` by die d's controller (R322). -/
def mRead (s : State) (d addr n : Nat) : Nat :=
  match sramAt d addr with
  | some (e, off) => (s.ctrl e).sram.readNat off n
  | none =>
    if 0xFFFFFFFF < addr then 0
    else ((List.range ((n + 3) / 4)).map fun i => ((mReg4 s (addr + 4 * i)).getD 0) * 2 ^ (32 * i)).sum

/-- A 32-bit word of a register block written (R322). -/
def mWrite4 (s : State) (addr : Nat) (x : BitVec 32) : State :=
  if 0x10000000 ≤ addr ∧ addr < 0x10000000 + 0x1000 * 256 then
    if h : (addr - 0x10000000) % 0x1000 = 0 ∧ (addr - 0x10000000) / 0x1000 < 256 then
      { s with hchain := s.hchain.set ((addr - 0x10000000) / 0x1000) (x &&& 0xFFF) h.2 } else s
  else if 0x20000000 ≤ addr ∧ addr < 0x20000000 + 0x10000 * 256 then
    chanWrite4 s ((addr - 0x20000000) / 0x10000) ((addr - 0x20000000) % 0x10000) x
  else if 0x40000000 ≤ addr ∧ addr < 0x40000000 + 0x40 * 4 then
    let d := (addr - 0x40000000) / 0x40
    let l := s.lease d
    let off := (addr - 0x40000000) % 0x40
    if off = 0 then s.setLease d { l with epoch := x }
    else if off = 4 then s.setLease d { l with holder := x.setWidth 2 }
    else if off = 8 then s.setLease d { l with expiry := BitVec.ofNat 64 (l.expiry.toNat / 2 ^ 32 * 2 ^ 32 + x.toNat) }
    else if off = 12 then s.setLease d { l with expiry := BitVec.ofNat 64 (x.toNat * 2 ^ 32 + l.expiry.toNat % 2 ^ 32) }
    else s
  else if 0x42010000 ≤ addr ∧ addr < 0x42020000 then monWrite4 s (addr - 0x42010000) x
  else s

/-- The word of `m:` that an address lies in, as die d's controller names it: a word of a die's SRAM, or one of the map (number 4). -/
def mWord (d addr : Nat) : TagAt := match sramAt d addr with
  | some (e, off) => .mgmt e (off / 8 * 8)
  | none => .mgmt 4 (addr / 8 * 8)

/-- A tag after a write of n bytes through `m:`. -/
def Tag.afterMgmt (d addr n : Nat) (g : Tag) : Option Tag :=
  if g.at_ = mWord d addr then g.written 0 (addr % 8) n else some g

/-- A store through `m:` of n bytes by die d's controller (R322). It clears the tag of its word (R117, R123). -/
def mWrite (s : State) (d addr n v : Nat) : State :=
  let s := { s with tags := s.tags.filterMap (Tag.afterMgmt d addr n) }
  match sramAt d addr with
  | some (e, off) => s.modCtrl e fun c => { c with sram := c.sram.writeNat off n v }
  | none =>
    if 0xFFFFFFFF < addr then s
    else if 0x40000000 ≤ addr ∧ addr < 0x40000000 + 0x40 * 4 ∧ addr % 0x40 = 0 ∧ n = 8 then
      let k := (addr - 0x40000000) / 0x40
      s.setLease k { s.lease k with epoch := BitVec.ofNat 32 v, holder := BitVec.ofNat 2 (v / 2 ^ 32) }
    else (List.range ((n + 3) / 4)).foldl (fun s i => mWrite4 s (addr + 4 * i) (BitVec.ofNat 32 (v / 2 ^ (32 * i)))) s

/-- A load of PASS0 or PASS1 waits while its channel's test runs (R345). -/
def mBusy (s : State) (addr : Nat) : Bool :=
  decide (0x20000000 ≤ addr) && decide (addr < 0x20000000 + 0x10000 * 256) &&
    (let off := (addr - 0x20000000) % 0x10000; decide (0x020 ≤ off) && decide (off < 0x030)) &&
    (s.chan ((addr - 0x20000000) / 0x10000)).busy

/-! ### Meanings -/

/-- HCH_TRAIN_WRITE (R344): a write of `arg.v` without GO to HCH_CTL of channel `arg.n`. -/
def execHchTrainWrite (s : State) : Result State := .next (trainWrite s s.arg.n (s.arg.v.setWidth 32))
/-- TRAIN_EFFECTIVE (R344) for channel `arg.n`. -/
def execTrainEffective (s : State) : Result State := .next (trainEffective s s.arg.n)
/-- PATTERN_TEST_START (R344): a write with GO to HCH_CTL of channel `arg.n`. -/
def execPatternTestStart (s : State) : Result State := .next (patternStart s s.arg.n)
/-- PATTERN_TEST_DONE (R345) for channel `arg.n`. -/
def execPatternTestDone (s : State) : Result State := .next (patternDone s s.arg.n)
/-- HCH_RDALL (R346): a write of `arg.v`. -/
def execHchRdall (s : State) : Result State := .next (s.modChan s.arg.n fun c => c.rdAll (s.arg.v.setWidth 32))
/-- HCH_WRALL (R346): a write of `arg.v`. -/
def execHchWrall (s : State) : Result State := .next (s.modChan s.arg.n fun c => c.wrAll (s.arg.v.setWidth 32))
/-- MONITOR_SELECT (R20): `arg.v` to MON_SEL of monitor `arg.n` of partition `arg.p`; not in recovery mode (R25). -/
def execMonitorSelect (s : State) : Result State := .next (if s.boot.recov then s else s.modMon s.arg.p s.arg.n fun m => m.select (s.arg.v.setWidth 32))
/-- MONITOR_CLEAR (R20); not in recovery mode (R25). -/
def execMonitorClear (s : State) : Result State := .next (if s.boot.recov then s else s.modMon s.arg.p s.arg.n Monitor.clear)

end Sys2Proof.Machine
end

