-- ==== Sys2Proof/Machine/Operands.lean ====
section
/-!
DEFINITION. Operand forms: effective addresses and the checks of an access (spec/13 R247, spec/16 R322), and the row
operands of the vector unit (spec/05 R103; spec/14 R266 to R268).
-/

namespace Sys2Proof.Machine

/-! ### Memory operands (R247) -/

/-- The effective address: base plus the sign-extended displacement, modulo 2^64. -/
def State.ea (s : State) (base : Sreg) {w : Nat} (disp : BitVec w) : Word := s.sr base + disp.signExtend 64

/-- A memory operand of either class: space, base, displacement, order and scope (R219, R248). -/
structure MemRef where
  space : Space
  base : Sreg
  disp : Word
  order : Order
  scope : Scope
  deriving DecidableEq, Repr

end Sys2Proof.Machine

namespace Sys2Proof

/-- A class MEM operand: relaxed. -/
def MemOp.ref (m : MemOp) : Machine.MemRef := ⟨m.space, m.base, m.disp.signExtend 64, .relaxed, .thr⟩
/-- A class ATOM operand. -/
def AtomOp.ref (m : AtomOp) : Machine.MemRef := ⟨m.space, m.base, m.disp.signExtend 64, m.order, m.scope⟩

end Sys2Proof

namespace Sys2Proof.Machine

/-- A buffer of a space, for `w:`, `a:` and `c:`. -/
def spaceBuf : Space → Option Buf
  | .w => some .w
  | .a => some .a
  | .c => some .c
  | .g | .m => none

/-- The first check of R247 that fails for n bytes at ea, in units of `width` bytes, with its cause and detail. -/
def accessCheck (s : State) (sp : Space) (ea : Word) (n width : Nat) (u : Use) : Option Refuse :=
  let fw : Bool := s.here.mode = .firmware
  if sp = .m ∧ !fw then some (.priv, ea)
  else if (spaceBuf sp).isSome ∧ fw then some (.priv, ea)
  else if ea.toNat % width ≠ 0 ∨ (sp = .m ∧ width < 4 ∧ mBlock ea.toNat) then some (.align, ea)
  else match sp with
    | .w => if u = .load then none else some (.prot, ea)
    | .a | .c => if u = .atomic then some (.prot, ea) else none
    | .g => if fw then (if ea.extractLsb' 57 7 != 0 then some (.prot, ea) else none) else globalCheck s s.hereP s.hereT u ea n
    | .m => none

/-! ### Row operands (R103, R266, R267) -/

/-- The C bank of the thread's accumulator tile. -/
def State.bank (s : State) : Nat := s.here.ct.toNat
/-- The format code of that bank, in the issue cycle. -/
def State.rowFmt (s : State) : Byte := s.hereTile.fmt.toList.getD (32 + s.bank) 0
/-- The offset in `c:` of a row of a bank. -/
def rowAddr (bank : Nat) (r : Row) : Nat := 16384 * bank + 256 * r.val
/-- The 256 bytes of a row. -/
def State.rowBytes (s : State) (r : Row) : List Byte := s.hereTile.readBuf .c (rowAddr s.bank r) 256

/-- Bytes cut into little-endian elements of n bytes. -/
def elemsOf (n : Nat) (bs : List Byte) : List Nat := (List.range (bs.length / n)).map fun i => leNat (bytesAt bs (n * i) n)
/-- Elements of n bytes laid out little-endian. -/
def bytesOf (n : Nat) (xs : List Nat) : List Byte := xs.flatMap (leBytes n)

/-- A row's elements in the bank's format. -/
def State.row (s : State) (r : Row) : List Nat := elemsOf (elemSize s.rowFmt) (s.rowBytes r)

/-- A broadcast scalar as an element of a format (R267). -/
def bcast (f : Byte) (v : Word) : Nat :=
  match f.toNat with
  | 0x04 => (fp32.cvt fp16 .rne (f32 v)).bits
  | 0x05 => (fp32.cvt bf16 .rne (f32 v)).bits
  | _ => v.toNat % 2 ^ (8 * elemSize f)

/-- The second operand of a row instruction: a row's elements, or the broadcast value n times. -/
def State.vb (s : State) (b : VB) : List Nat :=
  match b with
  | .row r => s.row r
  | .scalar a => List.replicate (256 / elemSize s.rowFmt) (bcast s.rowFmt (s.sr a))

/-- Kinds of bank formats (R268). -/
def isIntFmt (f : Byte) : Bool := f = 0x00 || f = 0x02 || f = 0x03
def isFpFmt (f : Byte) : Bool := (fpOf f).isSome
def isPairFmt (f : Byte) : Bool := f = 0x07

/-- The detail word of a format that an instruction does not allow (R268). -/
def State.fmtDetail (s : State) : Word :=
  BitVec.ofNat 64 (s.rowFmt.toNat + s.bank * 256 + s.here.unit.head.toNat * 65536)

/-- A destination row written at the end of cycle t + L - 1, with its flags (R266). The write is an access of the thread from its
issue on (R124, R269). -/
def State.writeRow (s : State) (L : Nat) (d : Row) (bs : List Byte) (fl : Byte) : State :=
  let t := s.here
  let w : WRec := { id := s.opCtr, cls := .task, q := 8, ltile := s.hereT, th := s.cur.th, seq := t.seq, hb := t.landedHb, buf := some .c,
                    loc := ⟨false, rowAddr s.bank d⟩, data := bs }
  s.newId.modHere fun t => { t with pend := t.pend ++ [⟨s.cycle + L - 1, .row w, 0, fl⟩], hb := s.opCtr :: t.hb, seq := t.seq + 1 }

/-- The rows that a second operand reads. -/
def vbRows : VB → List Row
  | .row r => [r]
  | .scalar _ => []

/-- A row instruction with the write of its result pending ends; one that read a spilled granule is of class BL, and its thread waits
until the row has been read and the result has landed (R93, R108). -/
def State.endRow (s s1 : State) (L : Nat) (rd : List Row) : State :=
  if rd.any fun r => s.hereTile.spilled .c (rowAddr s.bank r) 256 then
    s.orHold { (s1.block (.result none 0)).schedule (1 + L + Config.delay .memRead s.fresh) .blockingWaitDone
      { agent := s.cur.agent, th := s.cur.th, op := s.cycle, nats := rd.flatMap fun r => s.shadowChans s.hereP s.hereT .c (rowAddr s.bank r) 256 } with
      fresh := s.fresh + 1 }
  else s.finish s1

end Sys2Proof.Machine
end

