-- ==== Sys2Proof/Machine/Issue.lean ====
section
/-!
DEFINITION. Issue: which thread of an agent issues (spec/04 R90, R91), the fetch and decoding of its next unit (spec/11 R210
to R215, R218), the mode of a cell (R222), and the events that are due.
-/

namespace Sys2Proof.Machine

/-! ### Choosing a thread (R90, R91) -/

/-- The address a thread issues at next: the target of a transfer whose fault is held, else its program counter (R218). -/
def Thread.nextAddr (t : Thread) : Addr := match t.wait with
  | .target a .. => a
  | _ => t.pc

/-- A thread may issue in a cycle, its line apart. -/
def Thread.mayIssue (t : Thread) (cyc : Nat) : Bool :=
  decide (t.task = .running) && (match t.wait with
    | .ready | .target .. => true
    | _ => false) && decide (t.readyAt ≤ cyc)

/-- The table of an instruction: its distance from the instruction's line, in lines, and its number of lines (R257, R281, R308). -/
def tableOf : Instr → Option (Addr × Nat)
  | .mpdef _ off n1 => some (off.signExtend 57, (8 * (n1.toNat + 1) + 63) / 64)
  | .fix _ m off | .fixEnd _ m off => some (off.signExtend 57, (8 * m.val + 63) / 64)
  | .xmit _ off .. => some (off.signExtend 57, 1)
  | _ => none

/-- The unit at a thread's program counter, where its line is present and one begins there. -/
def State.unitHere (s : State) (a : Agent) (t : Thread) : Option Unit' :=
  (s.lineAt a (lineOfAddr t.pc)).bind fun bs => (decodeLine bs).bind fun hs =>
    if t.pc.getLsbD 0 || !(unitStarts true hs).getD (headIdx t.pc) false then none else (decodeUnit (hs.drop (headIdx t.pc))).toOption

/-- The lines of the table that the next unit of a tile's thread reads: without them it is not ready (R258, R281, R308). -/
def State.tableLines (s : State) (a : Agent) (t : Thread) : List Addr :=
  match a, t.wait with
  | .tile .., .ready => match (s.unitHere a t).bind fun u => if t.preg u.pred then tableOf u.instr else none with
    | some (off, n) => let base : Addr := lineOfAddr t.pc + off <<< 6; (List.range n).map fun i => base + BitVec.ofNat 57 (64 * i)
    | none => []
  | _, _ => []

/-- The first line that a thread needs and that is absent, though it can be fetched: that of its next head, or of its table. -/
def State.absentLine (s : State) (a : Agent) (t : Thread) : Option Addr :=
  (lineOfAddr t.nextAddr :: s.tableLines a t).find? fun la => (s.lineAt a la).isNone && (lineCheck s a la).isNone

/-- A thread is ready: it may issue, and the lines that it needs are present, or their fetch faults (R90, R111). -/
def State.threadReady (s : State) (a : Agent) (t : Thread) : Bool := t.mayIssue s.cycle && (s.absentLine a t).isNone

/-- A fetch brings a line to an agent. -/
def State.fetches (s : State) (a : Agent) (la : Addr) : Bool := match a with
  | .tile p u => (s.tile p u).fetching.contains la
  | .ctrl d => (s.ctrl d).fetching.contains la

/-- A thread that may issue needs a line that no fetch is bringing. -/
def State.needsLine (s : State) (a : Agent) (t : Thread) : Bool := t.mayIssue s.cycle && ((s.absentLine a t).map fun la => !s.fetches a la).getD false

/-- Issue passes on from the current thread: after a switch-away (consec 65), or after 64 consecutive cycles (R91). -/
def Tile.passes (T : Tile) (cyc : Nat) : Bool :=
  decide (T.consec = 65) || (decide (64 ≤ T.consec) && decide (T.lastIssue + 1 = cyc))

/-- The thread of a tile that issues next: the current one while it is ready and keeps issue, else the next ready thread in
increasing number, wrapping (R91). -/
def Tile.pick (T : Tile) (cyc : Nat) (rdy : Nat → Bool) : Option Nat :=
  if rdy T.curTh && !T.passes cyc then some T.curTh
  else ((List.range 8).map fun k => (T.curTh + 1 + k) % 8).find? rdy

/-- The tile's issue state after thread i issues a head in a cycle. -/
def Tile.noteIssue (T : Tile) (i cyc : Nat) (sw : Bool) : Tile :=
  let n := if T.curTh = i ∧ T.lastIssue + 1 = cyc ∧ T.consec < 65 then min (T.consec + 1) 64 else 1
  { T with curTh := i, lastIssue := cyc, consec := if sw then 65 else n }

/-- A partition's threads may issue: it runs or is dispatched, or the votes of others are awaited (R81, R83); in Saving those of a newer
requester (R87); once the superstep is decided none does. A tile that starts or has flipped issues from its threads' `readyAt` on, and from the package
time `issueFrom` of the partition on (R81). -/
def Partition.issues (P : Partition) : Bool :=
  P.valid && !P.releasing && P.decision.isNone && (decide (P.run = .running) || decide (P.run = .dispatching) || (decide (P.run = .saving) && P.launch.isSome))

/-- A partition that comes to Running with a thermal stop or a function-level reset pending washes the superstep that it is in (R19, R54,
R83; log entry 58). -/
def Partition.washPending (P : Partition) : Partition :=
  let ev (b : Bool) (d : Word) : List FaultSum := if b then [⟨8, 1, .boundWash, d⟩] else []
  { P with events := P.events ++ ev P.thermalHeld 2 ++ ev (P.stops.any fun x => match x.1 with | .reset _ => true | _ => false) 3 }

/-- The first issue on the span's logical tile 0: Dispatching becomes Running, and the watchdog counts (R83, R88). -/
def Partition.began (P : Partition) (t cyc : Nat) : Partition := match P.launch with
  | some l => if P.run = .dispatching ∧ t = 8 * l.spanOff then ({ P with run := .running, dogFrom := cyc } : Partition).washPending else P
  | none => P

/-- Heat holds a tile's issue back (R19): a stopped die issues nothing, a throttled one in every second cycle (log entry 51). -/
def State.heatHolds (s : State) (p t : Nat) : Bool :=
  let d := s.physPod p (t / 8) / 64
  s.power.stopped.toList.getD d false || (s.power.throttled.toList.getD d false && decide (s.cycle % 2 = 1))

/-- Power withholds a vector or matrix head in as many of sixteen cycles as its pod has steps (R18; log entry 51). -/
def State.powerHolds (s : State) (a : Agent) (h : BitVec 16) : Bool :=
  match a with
  | .tile p t =>
    decide (0x18 ≤ headOP h) && decide (headOP h ≤ 0x21) &&
      decide (s.cycle % 16 < (s.power.withheld.filter (· = s.physPod p (t / 8))).length)
  | .ctrl _ => false

/-- The thread of a tile to visit: one that needs a line first, since its fetch takes no issue slot; else the one that issues. -/
def State.visitTile (s : State) (p t : Nat) : Option Nat :=
  let T := s.tile p t
  ((List.range T.threads.length).find? fun i => s.needsLine (.tile p t) (T.thread i)).or
    (T.pick s.cycle fun i => s.threadReady (.tile p t) (T.thread i))

/-- The agents with a thread to visit in this cycle, in order. -/
def State.nextAgent (s : State) : Option (Agent × Nat) :=
  let tiles := (List.range s.parts.length).findSome? fun p =>
    let P := s.part p
    if P.issues && decide (P.issueFrom ≤ s.ptime.toNat) && decide (s.visited < 2048 * p + 2048) then
      (List.range P.tiles.length).findSome? fun t =>
        if s.visited ≤ 2048 * p + t ∧ !(P.tile t).stopIssue ∧ !s.heatHolds p t then (s.visitTile p t).map fun i => (Agent.tile p t, i) else none
    else none
  tiles.or ((List.range 4).findSome? fun d =>
    if s.visited ≤ 2048 * 64 + d ∧ (s.needsLine (.ctrl d) (s.ctrl d).th || s.threadReady (.ctrl d) (s.ctrl d).th) then some (Agent.ctrl d, 0) else none)

/-! ### Lines (R90, R111) -/

/-- A fetch of a line for an agent begins, unless one is under way. -/
def State.fetchLine (s : State) (a : Agent) (la : Addr) : State :=
  match a with
  | .tile p t =>
    if (s.tile p t).fetching.contains la then s
    else (s.modTile p t fun T => { T with fetching := la :: T.fetching }).scheduleFree .lineFetch .lineArrival { agent := a, addr := la, op := s.cycle }
  | .ctrl d =>
    if (s.ctrl d).fetching.contains la then s
    else (s.modCtrl d fun c => { c with fetching := la :: c.fetching }).scheduleFree .lineFetch .lineArrival { agent := a, addr := la, op := s.cycle }

/-- The thread waits for a line that its unit needs. -/
def State.waitLine (s : State) (a : Agent) (i : Nat) (la : Addr) : State :=
  (s.fetchLine a la).modThread a i fun t => { t with wait := .line la }

/-- A line whose fetch began in a cycle arrives in an agent's buffer, and threads that wait for it become ready (R90); from a channel in training
it comes later (R344). A fetch from a partition's HBM pages is a read that monitor source 0x04 samples (R20). A controller's buffer too holds 512
lines (DESIGN CHOICE, log entry 13). -/
def lineArrives (s : State) (a : Agent) (la : Addr) (since : Nat) : State :=
  let put (ls : List Line) : List Line := putLine ls ⟨la, s.codeBytes a la⟩
  let wake (t : Thread) : Thread := if t.wait = .line la then { t with wait := .ready } else t
  let l : Loc := match a with
    | .tile p t => (((s.tile p t).extent la.toNat).map fun e => e.locOf la.toNat).getD ⟨true, 0⟩
    | .ctrl d => if s.boot.image ∧ d = 0 then ⟨true, 0⟩ else ⟨false, la.toNat⟩
  if s.rangeHeld l 64 then s.scheduleFree .lineFetch .lineArrival { agent := a, addr := la, op := since }
  else match a with
  | .tile p t =>
    if (s.tile p t).fetching.contains la then
      let s0 := if l.host then s else s.modPart p fun P => P.sample 4 (s.cycle - since)
      let s1 := s0.modTile p t fun T => { T with lines := put T.lines, fetching := T.fetching.filter (· != la), threads := T.threads.map wake }
      match ((s.tile p t).extent la.toNat).bind fun e => if (s.poisonAt (e.locOf la.toNat) 64).isSome then some (e.locOf la.toNat) else none with
      | some l => if (s.part p).decision.isSome then s1 else tileEvent s1 p t .eccUncorr 1 (eccWord 3 l) l.addr
      | none => s1
    else s
  | .ctrl d =>
    if (s.ctrl d).fetching.contains la then
      s.modCtrl d fun c => { c with lines := put c.lines, fetching := c.fetching.filter (· != la), th := wake c.th }
    else s

/-! ### The mode of a cell (R222) -/

/-- The decode trap of an instruction in a mode, for a unit under a false predicate too (R215, R222). -/
def modeFault (i : Instr) (m : Mode) : Option Cause :=
  match m with
  | .firmware =>
    match i with
    | .waitf .. | .waite .. | .advp .. | .advc .. | .vadd .. | .vsub .. | .vmul .. | .vmin .. | .vmax .. | .vabs .. | .vneg ..
    | .vfma .. | .vand .. | .vor .. | .vxor .. | .vnot .. | .vshl .. | .vshr .. | .vsra .. | .vcmpEq .. | .vcmpNe .. | .vcmpLt ..
    | .vcmpLe .. | .vcmpGt .. | .vcmpGe .. | .vsel .. | .vbcast .. | .vbcastElement .. | .vperm .. | .vpermRot .. | .vmov ..
    | .vcvt .. | .vscan .. | .vred .. | .vredScalar .. | .vexp2 .. | .vlog2 .. | .vrcp .. | .vrsq .. | .vtanh .. | .vsig ..
    | .mpdef .. | .mprun .. | .expr .. | .mma .. | .mldt .. | .mzero .. | .quant .. | .xsync | .xmit .. | .xsel .. | .fix ..
    | .fixEnd .. | .vote .. | .stage .. | .wbk .. | .tsync | .mwait => some .illegalOp
    | .csrr _ n | .csrwReg n _ | .csrwImm n _ => if csrFirmware n then none else some .illegalOp
    | _ => none
  | .task =>
    match i with
    | .rft => some .illegalOp
    | .tlbi .. | .tlbiAll .. => some .priv
    | _ => none
  | .handler =>
    match i with
    | .tlbi .. | .tlbiAll .. => some .priv
    | _ => none

/-! ### The next unit of a thread -/

/-- What a visit of a thread comes to: it waits or traps, or runs an instruction in a state. -/
inductive Issued where
  | settled (s : State)
  | runs (s : State) (i : Instr)

/-- The partition's run state after an issue (R83). -/
def State.noteBegan (s : State) : State := match s.cur.agent with
  | .tile p t => if (s.part p).run = .dispatching then s.modPart p fun P => P.began t s.cycle else s
  | .ctrl _ => s

/-- A line of a page that the extent table lists with CODE is present from the superstep's start (R94, R110, R133): it joins the
buffer when it is first read. A line that cannot be fetched, that carries an uncorrectable error, or whose channel is in training (R344) does not (log
entry 13). From one of the partition's pages of HBM it is a read, which monitor source 0x04 samples with a time that no table gives (R20; log entry
37). -/
def State.prefetched (s : State) (a : Agent) (la : Addr) : State :=
  match a with
  | .ctrl _ => s
  | .tile p t =>
    match (s.tile p t).extent la.toNat with
    | none => s
    | some e =>
      let l := e.locOf la.toNat
      if !(e.code.any fun x => decide (x.1 ≤ la.toNat / 65536) && decide (la.toNat / 65536 < x.1 + x.2)) || (s.lineAt a la).isSome || (lineCheck s a la).isSome ||
          (s.poisonAt l 64).isSome || s.rangeHeld l 64 then s
      else
        let s1 := s.modTile p t fun T => { T with lines := putLine T.lines ⟨la, s.codeBytes a la⟩ }
        if l.host then s1 else { s1.modPart p fun P => P.sample 4 (1 + Config.delay .lineFetch s.fresh) with fresh := s.fresh + 1 }

/-- A line that a thread needs is fetched: a line of a CODE page is present at once. The tile's issue slot stays free (R90). -/
def State.bringLine (s : State) (a : Agent) (la : Addr) : State :=
  let s := s.prefetched a la
  if (s.lineAt a la).isSome then s else s.fetchLine a la

/-- A thread as it stood before its last unit left that unit by a control transfer (R218), which may lead to the next unit too. -/
def State.transferred (s : State) (a : Agent) (t : Thread) : Bool :=
  (loopEnd t.unit.addr t).2.isSome || ((s.unitHere a { t with pc := t.unit.addr }).map fun u => t.preg u.pred && match u.instr with
    | .br .. | .brr .. | .call .. | .callr .. | .ret | .rft => true
    | _ => false).getD false

/-- What a controller's transfer is charged to, whose target line has become illegal since its issue: the thread as it was then, but for what has
landed (R218, R322); none for a head that no transfer has reached. -/
def State.backOut (s : State) : Option State := match s.cur.agent with
  | .tile .. => none
  | .ctrl d => (s.ctrl d).back.bind fun t =>
    if s.here.pc = t.unit.next ∧ !s.transferred s.cur.agent t then none else some (landThread (s.modHere fun _ => t) s.cur.agent s.cur.th (s.cycle - 1))

/-- An instruction of a controller that changes more than its thread. -/
def reachesOut : Instr → Bool
  | .stBMem .. | .stBAtom .. | .stHMem .. | .stHAtom .. | .stWMem .. | .stWAtom .. | .stDMem .. | .stDAtom .. | .amoAdd .. | .amoAnd .. | .amoOr ..
  | .amoXor .. | .amoMin .. | .amoMax .. | .amoMinu .. | .amoMaxu .. | .cas .. | .swap .. | .cpy .. | .cpyD .. | .signalInstruction .. | .tlbi .. | .tlbiAll .. => true
  | _ => false

/-- The absent line to which a loop returns from a controller's unit that changes more than its thread: the unit waits for it, so that it has no effect
where the return is illegal (R218, R241; log entry 19). -/
def State.returnAbsent (s : State) (i : Instr) : Option Addr := match s.cur.agent with
  | .tile .. => none
  | .ctrl _ => if reachesOut i then [(loopEnd s.here.unit.addr s.here).2, s.here.returnAt].findSome? fun x => (x.map lineOfAddr).bind fun la =>
      if (s.lineAt s.cur.agent la).isNone then some la else none else none

/-- A controller's unit issues: its thread as it stands is kept until the next one does (R218, R322). -/
def State.noteBack (s : State) : State := match s.cur.agent with
  | .tile .. => s
  | .ctrl d => s.modCtrl d fun c => { c with back := some c.th }

/-- A held fault of a transfer falls due (R218): a controller's line may have become legal since, and the transfer then issues again (log entry 19). -/
def State.heldFault (s : State) (tgt : Addr) (c : Cause) (d : Word) : State := match s.cur.agent with
  | .tile .. => s.raise c d
  | .ctrl _ => match targetFault s s.cur.agent tgt with
    | some r => s.raise r.1 r.2
    | none => s.modHere fun t => { t with wait := .ready }

/-- The unit at the thread's program counter is taken for issue: the thread's unit is set, and the decode traps of R210, R214,
R215, R218 and R222 are raised. A held fault of a transfer is recorded, on the transferring unit. A thread that is chosen becomes the current
one, though its unit faults (R91). -/
def State.issue (s : State) (a : Agent) (i : Nat) : Issued :=
  let t := s.thread a i
  let la := lineOfAddr t.nextAddr
  match (if s.needsLine a t then s.absentLine a t else none) with
  | some x => .settled (s.bringLine a x)
  | none =>
  let s := { s with cur := ⟨a, i⟩, visited := agentKey a + 1 }
  let bare := s.modHere fun t => { t with unit := ⟨t.pc, t.pc, false, 0, 0⟩ }
  let took (s : State) : State := s.modHereTile fun T => T.noteIssue i s.cycle false
  let bad (c : Cause) (dT dR : Word) : Issued := match s.backOut with
    | some b => .settled ((took b).raise c dT)
    | none => .settled ((took bare).noteBegan.raise c dR)
  match t.wait with
  | .target e c d => .settled ((took s).heldFault e c d)
  | _ =>
  match s.lineAt a la with
  | none =>
    match lineCheck s a la with
    | some r => bad r.1 r.2 r.2
    | none => .settled s
  | some bs =>
    match decodeLine bs with
    | none => bad .illegalLine (la.setWidth 64) (t.pc.setWidth 64)
    | some hs =>
      let k := headIdx t.pc
      if t.pc.getLsbD 0 || !(unitStarts true hs).getD k false then bad .illegalTarget (t.pc.setWidth 64) (t.pc.setWidth 64)
      else
        let r := rawUnit (hs.drop k)
        let first := ((hs.drop k).head?.map (·.head)).getD 0
        let next := if k + r.size < hs.length then la + BitVec.ofNat 57 (2 * (k + r.size)) else la + 64
        let gov := (r.gov.map (·.head)).getD first
        if s.powerHolds a gov then .settled s
        else
          let s := s.modHere fun t => { t with unit := ⟨t.pc, next, !r.pfxs.isEmpty, if r.pfxs.isEmpty then 0 else first, gov⟩ }
          let s := (s.modHereTile fun T => T.noteIssue i s.cycle (headSW gov)).noteBack.noteBegan
          match decodeUnit (hs.drop k) with
          | .error .orphan => .settled (s.raise .orphanPrefix (t.pc.setWidth 64))
          | .error (.illegal h) => .settled (s.raise .illegalOp (h.setWidth 64))
          | .ok u =>
            if t.preg u.pred then (match s.returnAbsent u.instr with
              | some x => .settled (s.waitLine a i x)
              | none => .runs s u.instr)
            else match modeFault u.instr t.mode with
              | some c => .settled (s.raise c s.headWord)
              | none => .settled (s.finish s)

/-! ### Events that are due -/

/-- The first due element of a list, with the rest. -/
def takeDue (c : Nat) : List Due → Option (Due × List Due)
  | [] => none
  | d :: ds => if d.at_ ≤ c then some (d, ds) else (takeDue c ds).map fun r => (r.1, d :: r.2)

/-- An event in which an engine may advance a ring pointer: it follows the threads' issue of its cycle (R254). -/
def afterIssue (ev : Instr) : Bool := match ev with
  | .engineSlotDelivered => true
  | _ => false

/-- The next due event, inputs first, with the state it acts in. Those that follow the threads' issue are left. -/
def State.dueEvent (s : State) : Option (State × Instr) :=
  match takeDue s.cycle s.inputs with
  | some (d, ds) => some ({ s with inputs := ds, arg := d.arg }, d.ev)
  | none => (takeDue s.cycle (s.agenda.filter fun d => !afterIssue d.ev)).map fun r => ({ s with agenda := s.agenda.erase r.1, arg := r.1.arg }, r.1.ev)

/-- The next due event of those that follow the threads' issue. -/
def State.dueSlot (s : State) : Option (State × Instr) :=
  (takeDue s.cycle (s.agenda.filter fun d => afterIssue d.ev)).map fun r => ({ s with agenda := s.agenda.erase r.1, arg := r.1.arg }, r.1.ev)

/-! ### Ports (R12, R14) -/

/-- A flit as it is sent (R12), its CRC apart: the header and the payload of 240 bytes. -/
def flitBody (cls part : Nat) (seq : BitVec 18) (payload : List Byte) : List Byte :=
  leBytes 8 (cls * 2 ^ 5 + part * 2 ^ 8 + seq.toNat * 2 ^ 14 + payload.length * 2 ^ 32) ++ (payload ++ List.replicate (240 - payload.length) 0)

/-- CRC-64 with the ECMA-182 polynomial, most significant bit first, from zero (R12; log entry 7). -/
def crcByte (c : BitVec 64) (b : Byte) : BitVec 64 :=
  (List.range 8).foldl (fun c _ => if c.msb then (c <<< 1) ^^^ 0x42F0E1EBA9EA3693 else c <<< 1) (c ^^^ (b.setWidth 64 <<< 56))
def crc64 (bs : List Byte) : BitVec 64 := bs.foldl crcByte 0

/-- The bytes of a flit of a class, partition and sequence number with a payload. -/
def flitBytes (cls part : Nat) (seq : BitVec 18) (payload : List Byte) : List Byte :=
  let b := flitBody cls part seq payload
  b ++ leBytes 8 (crc64 b).toNat

/-- A flit waits at a port in class order: before those of a later class, after those of its own and earlier ones (R14). -/
def enqueueFlit (q : List Waiting) (w : Waiting) : List Waiting :=
  (q.takeWhile fun x => decide (x.cls ≤ w.cls)) ++ w :: q.dropWhile fun x => decide (x.cls ≤ w.cls)

/-- Whole cycles at 1.8 GHz that the 256 bytes of a flit take at a width of so many lanes of 200 Gb/s (R11, R17). -/
def flitCycles (width : Nat) : Nat := (18432 + (1000 * width - 1)) / (1000 * width)

/-- The slot of a port's frame, 128 slots of 8 cycles, at a package time (R40). -/
def wireSlot (time : Nat) : Nat := time / 8 % 128

/-- The first of the slots, which are kept for firmware and the memory network (R40). -/
def keptSlots : Nat := 8

/-- A flit may start at a port of a width (R14, R40, R41): one of class 0 or 1 outside the slots; any other in a slot that it does not overrun, of
class 2 in a slot of its partition's share, of class 3 there or in the kept slots, of class 4 in the kept ones (log entry 64). -/
def State.mayStart (s : State) (width : Nat) (w : Waiting) : Bool :=
  let n := wireSlot s.ptime.toNat
  let own := (s.part w.part).valid && (s.part w.part).wireSlots.contains n
  decide (w.cls ≤ 1) || (decide (s.ptime.toNat % 8 + flitCycles width ≤ 8) && match w.cls with
    | 2 => own
    | 3 => own || decide (n < keptSlots)
    | _ => decide (n < keptSlots))

/-- A port at a flit boundary, that is up and not in a width change, sends the first flit of its queue that may start (R13 to R15, R41). A new
flit gets the next sequence number; a request for a replay, of class 4, names the flit asked for and has none of its own. The last 64 numbered
flits are kept. -/
def Port.sendNext (p : Port) (may : Waiting → Bool) (cyc : Nat) : Port :=
  if p.failed || decide (cyc < p.sending) || decide (cyc < p.pausedUntil) then p
  else match p.queue.find? may with
    | none => p
    | some w =>
      let q := { p with queue := p.queue.erase w, sending := cyc + flitCycles p.width }
      if w.again then { q with out := p.out ++ [w.data] }
      else
        let f := flitBytes w.cls w.part p.txSeq w.data
        { q with out := p.out ++ [f], txSeq := p.txSeq + 1, store := ((p.store ++ [f]).reverse.take 64).reverse }

/-- Every port goes on sending; in recovery mode none does (R25). -/
def State.sendPorts (s : State) : State :=
  if s.boot.recov || s.ports.toList.all fun p => p.queue.isEmpty then s
  else { s with ports := s.ports.map fun p => p.sendNext (s.mayStart p.width) s.cycle }

/-- The cycle ends: due register writes land (R92), ports send (R14), and package time goes on (R2). -/
def State.tick (s : State) : State :=
  let land (s : State) (a : Agent) (i : Nat) : State := if (s.thread a i).pend = [] then s else landThread s a i s.cycle
  let s := (List.range s.parts.length).foldl (fun s p =>
    (List.range (s.part p).tiles.length).foldl (fun s t =>
      (List.range (s.tile p t).threads.length).foldl (fun s i => land s (.tile p t) i) s) s) s
  let s := ((List.range 4).foldl (fun s d => land s (.ctrl d) 0) s).sendPorts
  { s with cycle := s.cycle + 1, ptime := s.ptime + 1, visited := 0 }

/-! ### Meanings -/

/-- LINE_ARRIVAL (R90): the line `arg.addr` of the agent `arg.agent`. -/
def execLineArrival (s : State) : Result State := .next (lineArrives s s.arg.agent s.arg.addr s.arg.op)

end Sys2Proof.Machine
end

