-- ==== Sys2Proof/Machine/Scalar.lean ====
section
/-!
DEFINITION. Scalar integer, move, compare and predicate instructions (spec/12 R226 to R233).
-/

namespace Sys2Proof.Machine

/-! ### Values (R229, R230) -/

/-- High halves of the products. -/
def mulHigh (a b : Word) : Word := BitVec.ofInt 64 (a.toInt * b.toInt / 2 ^ 64)
def mulHighU (a b : Word) : Word := BitVec.ofNat 64 (a.toNat * b.toNat / 2 ^ 64)
/-- Quotients and remainders; a division by zero gives all ones and the dividend. -/
def quotS (a b : Word) : Word := if b = 0 then BitVec.allOnes 64 else a.sdiv b
def quotU (a b : Word) : Word := if b = 0 then BitVec.allOnes 64 else a / b
def remS (a b : Word) : Word := if b = 0 then a else a.srem b
def remU (a b : Word) : Word := if b = 0 then a else a % b
/-- Shifts by the low six bits. -/
def shlW (a b : Word) : Word := a <<< (b.toNat % 64)
def shrW (a b : Word) : Word := a >>> (b.toNat % 64)
def sraW (a b : Word) : Word := a.sshiftRight (b.toNat % 64)
/-- Minima and maxima. -/
def minS (a b : Word) : Word := if b.slt a then b else a
def maxS (a b : Word) : Word := if a.slt b then b else a
def minU (a b : Word) : Word := if b < a then b else a
def maxU (a b : Word) : Word := if a < b then b else a
def clzW (a : Word) : Word := BitVec.ofNat 64 (if a = 0 then 64 else 63 - Nat.log2 a.toNat)
def popcW (a : Word) : Word := BitVec.ofNat 64 ((List.range 64).countP fun i => a.getLsbD i)
/-- Bits n to 0 extended to 64 bits. -/
def sextW (a : Word) (n : BitVec 6) : Word := (a.extractLsb' 0 (n.toNat + 1)).signExtend 64
def zextW (a : Word) (n : BitVec 6) : Word := (a.extractLsb' 0 (n.toNat + 1)).setWidth 64

/-! ### Shared shapes -/

/-- A scalar result of latency L, and the unit ends. -/
def State.scalarOp (s : State) (L : Nat) (d : Sreg) (v : Word) (fl : Byte) : State := s.finish (s.writeS L d v fl)
/-- A predicate result of class I, and the unit ends. -/
def State.predOp (s : State) (d : Preg) (v : Bool) (fl : Byte) : State := s.finish (s.writeP d v fl)

/-! ### Integer arithmetic (R229, R230) -/

/-- `add`, register form (R229). -/
def execAddReg (d a b : Sreg) (s : State) : Result State := .next (s.scalarOp 1 d (s.sr a + s.sr b) 0)
/-- `add`, immediate form (R229). -/
def execAddImm (d a : Sreg) (imm : Word) (s : State) : Result State := .next (s.scalarOp 1 d (s.sr a + imm) 0)
/-- `sub`, register form (R229). -/
def execSubReg (d a b : Sreg) (s : State) : Result State := .next (s.scalarOp 1 d (s.sr a - s.sr b) 0)
/-- `sub`, immediate form (R229). -/
def execSubImm (d a : Sreg) (imm : Word) (s : State) : Result State := .next (s.scalarOp 1 d (s.sr a - imm) 0)
/-- `and`, register form (R229). -/
def execAndReg (d a b : Sreg) (s : State) : Result State := .next (s.scalarOp 1 d (s.sr a &&& s.sr b) 0)
/-- `and`, immediate form (R229). -/
def execAndImm (d a : Sreg) (imm : Word) (s : State) : Result State := .next (s.scalarOp 1 d (s.sr a &&& imm) 0)
/-- `or`, register form (R229). -/
def execOrReg (d a b : Sreg) (s : State) : Result State := .next (s.scalarOp 1 d (s.sr a ||| s.sr b) 0)
/-- `or`, immediate form (R229). -/
def execOrImm (d a : Sreg) (imm : Word) (s : State) : Result State := .next (s.scalarOp 1 d (s.sr a ||| imm) 0)
/-- `xor`, register form (R229). -/
def execXorReg (d a b : Sreg) (s : State) : Result State := .next (s.scalarOp 1 d (s.sr a ^^^ s.sr b) 0)
/-- `xor`, immediate form (R229). -/
def execXorImm (d a : Sreg) (imm : Word) (s : State) : Result State := .next (s.scalarOp 1 d (s.sr a ^^^ imm) 0)
/-- `shl`, register form (R229). -/
def execShlReg (d a b : Sreg) (s : State) : Result State := .next (s.scalarOp 1 d (shlW (s.sr a) (s.sr b)) 0)
/-- `shl`, immediate form (R229). -/
def execShlImm (d a : Sreg) (imm : Word) (s : State) : Result State := .next (s.scalarOp 1 d (shlW (s.sr a) imm) 0)
/-- `shr`, register form (R229). -/
def execShrReg (d a b : Sreg) (s : State) : Result State := .next (s.scalarOp 1 d (shrW (s.sr a) (s.sr b)) 0)
/-- `shr`, immediate form (R229). -/
def execShrImm (d a : Sreg) (imm : Word) (s : State) : Result State := .next (s.scalarOp 1 d (shrW (s.sr a) imm) 0)
/-- `sra`, register form (R229). -/
def execSraReg (d a b : Sreg) (s : State) : Result State := .next (s.scalarOp 1 d (sraW (s.sr a) (s.sr b)) 0)
/-- `sra`, immediate form (R229). -/
def execSraImm (d a : Sreg) (imm : Word) (s : State) : Result State := .next (s.scalarOp 1 d (sraW (s.sr a) imm) 0)
/-- `mul`, register form (R230). -/
def execMulReg (d a b : Sreg) (s : State) : Result State := .next (s.scalarOp 3 d (s.sr a * s.sr b) 0)
/-- `mul`, immediate form (R230). -/
def execMulImm (d a : Sreg) (imm : Word) (s : State) : Result State := .next (s.scalarOp 3 d (s.sr a * imm) 0)
/-- `mulh`, register form (R230). -/
def execMulhReg (d a b : Sreg) (s : State) : Result State := .next (s.scalarOp 3 d (mulHigh (s.sr a) (s.sr b)) 0)
/-- `mulh`, immediate form (R230). -/
def execMulhImm (d a : Sreg) (imm : Word) (s : State) : Result State := .next (s.scalarOp 3 d (mulHigh (s.sr a) imm) 0)
/-- `mulhu`, register form (R230). -/
def execMulhuReg (d a b : Sreg) (s : State) : Result State := .next (s.scalarOp 3 d (mulHighU (s.sr a) (s.sr b)) 0)
/-- `mulhu`, immediate form (R230). -/
def execMulhuImm (d a : Sreg) (imm : Word) (s : State) : Result State := .next (s.scalarOp 3 d (mulHighU (s.sr a) imm) 0)
/-- `div`, register form (R230). -/
def execDivReg (d a b : Sreg) (s : State) : Result State := .next (s.scalarOp 16 d (quotS (s.sr a) (s.sr b)) 0)
/-- `div`, immediate form (R230). -/
def execDivImm (d a : Sreg) (imm : Word) (s : State) : Result State := .next (s.scalarOp 16 d (quotS (s.sr a) imm) 0)
/-- `divu`, register form (R230). -/
def execDivuReg (d a b : Sreg) (s : State) : Result State := .next (s.scalarOp 16 d (quotU (s.sr a) (s.sr b)) 0)
/-- `divu`, immediate form (R230). -/
def execDivuImm (d a : Sreg) (imm : Word) (s : State) : Result State := .next (s.scalarOp 16 d (quotU (s.sr a) imm) 0)
/-- `rem`, register form (R230). -/
def execRemReg (d a b : Sreg) (s : State) : Result State := .next (s.scalarOp 16 d (remS (s.sr a) (s.sr b)) 0)
/-- `rem`, immediate form (R230). -/
def execRemImm (d a : Sreg) (imm : Word) (s : State) : Result State := .next (s.scalarOp 16 d (remS (s.sr a) imm) 0)
/-- `remu`, register form (R230). -/
def execRemuReg (d a b : Sreg) (s : State) : Result State := .next (s.scalarOp 16 d (remU (s.sr a) (s.sr b)) 0)
/-- `remu`, immediate form (R230). -/
def execRemuImm (d a : Sreg) (imm : Word) (s : State) : Result State := .next (s.scalarOp 16 d (remU (s.sr a) imm) 0)
/-- `min`, register form (R229). -/
def execMinReg (d a b : Sreg) (s : State) : Result State := .next (s.scalarOp 1 d (minS (s.sr a) (s.sr b)) 0)
/-- `min`, immediate form (R229). -/
def execMinImm (d a : Sreg) (imm : Word) (s : State) : Result State := .next (s.scalarOp 1 d (minS (s.sr a) imm) 0)
/-- `max`, register form (R229). -/
def execMaxReg (d a b : Sreg) (s : State) : Result State := .next (s.scalarOp 1 d (maxS (s.sr a) (s.sr b)) 0)
/-- `max`, immediate form (R229). -/
def execMaxImm (d a : Sreg) (imm : Word) (s : State) : Result State := .next (s.scalarOp 1 d (maxS (s.sr a) imm) 0)
/-- `minu`, register form (R229). -/
def execMinuReg (d a b : Sreg) (s : State) : Result State := .next (s.scalarOp 1 d (minU (s.sr a) (s.sr b)) 0)
/-- `minu`, immediate form (R229). -/
def execMinuImm (d a : Sreg) (imm : Word) (s : State) : Result State := .next (s.scalarOp 1 d (minU (s.sr a) imm) 0)
/-- `maxu`, register form (R229). -/
def execMaxuReg (d a b : Sreg) (s : State) : Result State := .next (s.scalarOp 1 d (maxU (s.sr a) (s.sr b)) 0)
/-- `maxu`, immediate form (R229). -/
def execMaxuImm (d a : Sreg) (imm : Word) (s : State) : Result State := .next (s.scalarOp 1 d (maxU (s.sr a) imm) 0)
/-- `andn`, register form (R229). -/
def execAndnReg (d a b : Sreg) (s : State) : Result State := .next (s.scalarOp 1 d (s.sr a &&& ~~~(s.sr b)) 0)
/-- `andn`, immediate form (R229). -/
def execAndnImm (d a : Sreg) (imm : Word) (s : State) : Result State := .next (s.scalarOp 1 d (s.sr a &&& ~~~imm) 0)
/-- `orn`, register form (R229). -/
def execOrnReg (d a b : Sreg) (s : State) : Result State := .next (s.scalarOp 1 d (s.sr a ||| ~~~(s.sr b)) 0)
/-- `orn`, immediate form (R229). -/
def execOrnImm (d a : Sreg) (imm : Word) (s : State) : Result State := .next (s.scalarOp 1 d (s.sr a ||| ~~~imm) 0)
/-- `clz` (R229). -/
def execClz (d a : Sreg) (s : State) : Result State := .next (s.scalarOp 1 d (clzW (s.sr a)) 0)
/-- `popc` (R229). -/
def execPopc (d a : Sreg) (s : State) : Result State := .next (s.scalarOp 1 d (popcW (s.sr a)) 0)

/-! ### Moves (R231) -/

/-- `mov`, register form (R231). -/
def execMovReg (d a : Sreg) (s : State) : Result State := .next (s.scalarOp 1 d (s.sr a) 0)
/-- `mov`, immediate form (R231). -/
def execMovImm (d : Sreg) (imm : Word) (s : State) : Result State := .next (s.scalarOp 1 d imm 0)
/-- `sel` (R231). -/
def execSel (d : Sreg) (c : Preg) (a b : Sreg) (s : State) : Result State :=
  .next (s.scalarOp 1 d (if s.pr c then s.sr a else s.sr b) 0)
/-- `sext` (R231). -/
def execSext (d a : Sreg) (n : BitVec 6) (s : State) : Result State := .next (s.scalarOp 1 d (sextW (s.sr a) n) 0)
/-- `zext` (R231). -/
def execZext (d a : Sreg) (n : BitVec 6) (s : State) : Result State := .next (s.scalarOp 1 d (zextW (s.sr a) n) 0)

/-! ### Compares (R232) -/

/-- `cmp.eq`, register form (R232). -/
def execCmpEqReg (d : Preg) (a b : Sreg) (s : State) : Result State := .next (s.predOp d (s.sr a == s.sr b) 0)
/-- `cmp.eq`, immediate form (R232). -/
def execCmpEqImm (d : Preg) (a : Sreg) (imm : Word) (s : State) : Result State := .next (s.predOp d (s.sr a == imm) 0)
/-- `cmp.ne`, register form (R232). -/
def execCmpNeReg (d : Preg) (a b : Sreg) (s : State) : Result State := .next (s.predOp d (s.sr a != s.sr b) 0)
/-- `cmp.ne`, immediate form (R232). -/
def execCmpNeImm (d : Preg) (a : Sreg) (imm : Word) (s : State) : Result State := .next (s.predOp d (s.sr a != imm) 0)
/-- `cmp.lt`, register form (R232). -/
def execCmpLtReg (d : Preg) (a b : Sreg) (s : State) : Result State := .next (s.predOp d ((s.sr a).slt (s.sr b)) 0)
/-- `cmp.lt`, immediate form (R232). -/
def execCmpLtImm (d : Preg) (a : Sreg) (imm : Word) (s : State) : Result State := .next (s.predOp d ((s.sr a).slt imm) 0)
/-- `cmp.ge`, register form (R232). -/
def execCmpGeReg (d : Preg) (a b : Sreg) (s : State) : Result State := .next (s.predOp d (!(s.sr a).slt (s.sr b)) 0)
/-- `cmp.ge`, immediate form (R232). -/
def execCmpGeImm (d : Preg) (a : Sreg) (imm : Word) (s : State) : Result State := .next (s.predOp d (!(s.sr a).slt imm) 0)
/-- `cmp.ltu`, register form (R232). -/
def execCmpLtuReg (d : Preg) (a b : Sreg) (s : State) : Result State := .next (s.predOp d ((s.sr a).ult (s.sr b)) 0)
/-- `cmp.ltu`, immediate form (R232). -/
def execCmpLtuImm (d : Preg) (a : Sreg) (imm : Word) (s : State) : Result State := .next (s.predOp d ((s.sr a).ult imm) 0)
/-- `cmp.geu`, register form (R232). -/
def execCmpGeuReg (d : Preg) (a b : Sreg) (s : State) : Result State := .next (s.predOp d (!(s.sr a).ult (s.sr b)) 0)
/-- `cmp.geu`, immediate form (R232). -/
def execCmpGeuImm (d : Preg) (a : Sreg) (imm : Word) (s : State) : Result State := .next (s.predOp d (!(s.sr a).ult imm) 0)

/-! ### Predicates (R233) -/

/-- `pand` (R233). -/
def execPand (d a b : Preg) (s : State) : Result State := .next (s.predOp d (s.pr a && s.pr b) 0)
/-- `por` (R233). -/
def execPor (d a b : Preg) (s : State) : Result State := .next (s.predOp d (s.pr a || s.pr b) 0)
/-- `pxor` (R233). -/
def execPxor (d a b : Preg) (s : State) : Result State := .next (s.predOp d (s.pr a != s.pr b) 0)
/-- `pnot` (R233). -/
def execPnot (d a : Preg) (s : State) : Result State := .next (s.predOp d (!s.pr a) 0)
/-- `pmov` (R233). -/
def execPmov (d a : Preg) (s : State) : Result State := .next (s.predOp d (s.pr a) 0)
/-- `pset` (R233). -/
def execPset (d : Preg) (v : Bool) (s : State) : Result State := .next (s.predOp d v 0)

/-- The eight predicates as a word (R233). -/
def Thread.predWord (t : Thread) : Word := BitVec.ofNat 64 ((List.finRange 8).map fun p => if t.preg p then 2 ^ p.val else 0).sum
/-- p1 to p7 set from a word's bits (R233). -/
def Thread.setPreds (t : Thread) (cyc : Nat) (v : Word) : Thread :=
  (List.finRange 8).foldl (fun t p => t.putP cyc p (v.getLsbD p.val)) t

/-- `psave` (R233). -/
def execPsave (d : Sreg) (s : State) : Result State := .next (s.scalarOp 1 d s.here.predWord 0)
/-- `pload` (R233). -/
def execPload (a : Sreg) (s : State) : Result State := .next (s.finish (s.modHere fun t => t.setPreds s.cycle (s.sr a)))

end Sys2Proof.Machine
end

