-- ==== Sys2Proof/Machine/Float.lean ====
section
/-!
DEFINITION. Scalar FP32 instructions (spec/12 R234 to R237).
-/

namespace Sys2Proof.Machine

/-- An FP32 result of latency L. -/
def State.fpOp (s : State) (L : Nat) (d : Sreg) (r : FR) : State := s.scalarOp L d (f32W r.bits) r.flags
/-- The FP32 operand in a register. -/
def State.fr (s : State) (a : Sreg) : Nat := f32 (s.sr a)

/-- `fadd` (R235). -/
def execFadd (d a b : Sreg) (s : State) : Result State := .next (s.fpOp 4 d (f32add (s.fr a) (s.fr b)))
/-- `fsub` (R235). -/
def execFsub (d a b : Sreg) (s : State) : Result State := .next (s.fpOp 4 d (f32sub (s.fr a) (s.fr b)))
/-- `fmul` (R235). -/
def execFmul (d a b : Sreg) (s : State) : Result State := .next (s.fpOp 4 d (f32mul (s.fr a) (s.fr b)))
/-- `fmin` (R235). -/
def execFmin (d a b : Sreg) (s : State) : Result State := .next (s.fpOp 4 d (fMinMax false (s.fr a) (s.fr b)))
/-- `fmax` (R235). -/
def execFmax (d a b : Sreg) (s : State) : Result State := .next (s.fpOp 4 d (fMinMax true (s.fr a) (s.fr b)))
/-- `fabs` (R235). -/
def execFabs (d a : Sreg) (s : State) : Result State := .next (s.fpOp 4 d ⟨s.fr a % 2 ^ 31, 0⟩)
/-- `fneg` (R235). -/
def execFneg (d a : Sreg) (s : State) : Result State := .next (s.fpOp 4 d ⟨s.fr a ^^^ 2 ^ 31, 0⟩)
/-- `fma` (R235). -/
def execFma (d a b c : Sreg) (s : State) : Result State := .next (s.fpOp 4 d (f32fma (s.fr a) (s.fr b) (s.fr c)))

/-- An FP32 compare (R236). -/
def State.fcmp (s : State) (cc : Fcc) (d : Preg) (a b : Sreg) : State :=
  let r := fcmpR cc (s.fr a) (s.fr b)
  s.predOp d r.1 r.2
/-- `fcmp.eq` (R236). -/
def execFcmpEq (d : Preg) (a b : Sreg) (s : State) : Result State := .next (s.fcmp .eq d a b)
/-- `fcmp.ne` (R236). -/
def execFcmpNe (d : Preg) (a b : Sreg) (s : State) : Result State := .next (s.fcmp .ne d a b)
/-- `fcmp.lt` (R236). -/
def execFcmpLt (d : Preg) (a b : Sreg) (s : State) : Result State := .next (s.fcmp .lt d a b)
/-- `fcmp.le` (R236). -/
def execFcmpLe (d : Preg) (a b : Sreg) (s : State) : Result State := .next (s.fcmp .le d a b)
/-- `fcmp.un` (R236). -/
def execFcmpUn (d : Preg) (a b : Sreg) (s : State) : Result State := .next (s.fcmp .un d a b)
/-- `fdiv` (R237). -/
def execFdiv (d a b : Sreg) (s : State) : Result State := .next (s.fpOp 16 d (fp32.divV .rne (fp32.dec (s.fr a)) (fp32.dec (s.fr b))))
/-- `fsqrt` (R237). -/
def execFsqrt (d a : Sreg) (s : State) : Result State := .next (s.fpOp 16 d (fp32.sqrtV .rne (fp32.dec (s.fr a))))

/-- An FP32 value as an integer of 64 bits, clamped to a range (R237, R139). -/
def State.fcvt (s : State) (rm : Rm) (lo hi : Int) (d a : Sreg) : State :=
  let r := toIntV rm lo hi (fp32.dec (s.fr a))
  s.scalarOp 4 d (BitVec.ofInt 64 r.val) r.flags
/-- `fcvt.s` (R237). -/
def execFcvtS (rm : Rm) (d a : Sreg) (s : State) : Result State := .next (s.fcvt rm (-2 ^ 63) (2 ^ 63 - 1) d a)
/-- `fcvt.u` (R237). -/
def execFcvtU (rm : Rm) (d a : Sreg) (s : State) : Result State := .next (s.fcvt rm 0 (2 ^ 64 - 1) d a)
/-- `scvt.f` (R237). -/
def execScvtF (rm : Rm) (d a : Sreg) (s : State) : Result State := .next (s.fpOp 4 d (fp32.ofInt rm (s.sr a).toInt))
/-- `ucvt.f` (R237). -/
def execUcvtF (rm : Rm) (d a : Sreg) (s : State) : Result State := .next (s.fpOp 4 d (fp32.ofInt rm (s.sr a).toNat))
/-- `fclass` (R237). -/
def execFclass (d a : Sreg) (s : State) : Result State := .next (s.scalarOp 4 d (BitVec.ofNat 64 (fclassMask (s.fr a))) 0)

end Sys2Proof.Machine
end

