-- ==== Sys2Proof/Machine/Control.lean ====
section
/-!
DEFINITION. Control transfers, loops and the stack frame (spec/12 R238 to R244).
-/

namespace Sys2Proof.Machine

/-- The unit being executed. -/
def State.unit (s : State) : IssueUnit := s.here.unit

/-- The target of class BR for a unit at an address (R219). -/
def brTarget (a : Addr) (t : Target) : Addr := lineOfAddr a + ((t.off.signExtend 57) <<< 6) + ((t.idx.setWidth 57) <<< 1)

/-- `nop` (R238). -/
def execNopInstruction (s : State) : Result State := .next (s.finish s)
/-- `yield` (R238): issue passes on, as a set SW bit does (R91). -/
def execYield (s : State) : Result State := .next (s.finish (s.modHereTile fun T => { T with consec := 65 }))

/-- The link written by a call: s1 := NextUnit (R239). -/
def State.link (s : State) : State := s.writeS 1 1 (s.unit.next.setWidth 64) 0

/-- `br` (R239). -/
def execBr (t : Target) (s : State) : Result State := .next (s.finishAt s (some (brTarget s.unit.addr t)))
/-- `brr` (R239). -/
def execBrr (a : Sreg) (s : State) : Result State := .next (s.finishAt s (some ((s.sr a).setWidth 57)))
/-- `call` (R239). -/
def execCall (t : Target) (s : State) : Result State := .next (s.finishAt s.link (some (brTarget s.unit.addr t)))
/-- `callr` (R239): the register is read before the link is written. -/
def execCallr (a : Sreg) (s : State) : Result State := .next (s.finishAt s.link (some ((s.sr a).setWidth 57)))
/-- `ret` (R239). -/
def execRet (s : State) : Result State := .next (s.finishAt s (some ((s.sr 1).setWidth 57)))

/-- Writes to a level's registers that land in the cycle of a later `loop` give way to it (R92, R223). -/
def Thread.dropLoop (t : Thread) (cyc : Nat) (l : Fin 4) : Thread :=
  ((t.drop1 cyc (.csr (BitVec.ofNat 12 (0x010 + l.val)))).drop1 cyc (.csr (BitVec.ofNat 12 (0x008 + l.val)))).drop1 cyc
    (.csr (BitVec.ofNat 12 (0x00C + l.val)))

/-- LoopSetup of R240. -/
def State.loopSetup (s : State) (l : Fin 4) (n : Word) (e : Addr) : State :=
  if n = 0 then s.finishAt s (some (nextUnitAt s s.cur.agent e))
  else s.finish (s.modHere fun t => { t.dropLoop s.cycle l with lb := t.lb.set l.val s.unit.next, le := t.le.set l.val e, lc := t.lc.set l.val n })
/-- The count of a `loop`. -/
def State.loopCount (s : State) (n : LoopCount) : Word :=
  match n with
  | .imm v => v.setWidth 64
  | .reg r => s.sr r
/-- `loop` (R240). -/
def execLoop (l : Fin 4) (n : LoopCount) (t : Target) (s : State) : Result State :=
  .next (s.loopSetup l (s.loopCount n) (brTarget s.unit.addr t))

/-- LoopExit of R242: the level and the levels nested in it. -/
def Thread.loopExit (t : Thread) (l : Fin 4) : Thread :=
  { t with lc := Vector.ofFn fun k =>
      if k = l ∨ (t.lc[k] ≠ 0 ∧ t.lb[l] ≤ t.le[k] ∧ t.le[k] ≤ t.le[l]) then 0 else t.lc[k] }
/-- `lexit` (R242). -/
def execLexit (l : Fin 4) (s : State) : Result State :=
  .next (if s.here.lc[l] = 0 then s.finish s
         else s.finishAt (s.modHere fun t => { t.loopExit l with pend := dropCounts s.cycle t.lc (t.loopExit l).lc (t.loopExit l).pend }) (some (nextUnitAt s s.cur.agent s.here.le[l])))

/-- The bytes of a frame operand. -/
def frameBytes (n8 : BitVec 18) : Word := (n8.setWidth 64) <<< 3
/-- `enter` (R244). -/
def execEnter (n8 : BitVec 18) (s : State) : Result State :=
  let t := s.sr 2 - frameBytes n8
  .next (if t.slt (s.here.slim.setWidth 64) then s.raise .stackLimit t else s.scalarOp 1 2 t 0)
/-- `leave` (R244). -/
def execLeave (n8 : BitVec 18) (s : State) : Result State := .next (s.scalarOp 1 2 (s.sr 2 + frameBytes n8) 0)

end Sys2Proof.Machine
end

