-- ==== Sys2Proof/Machine/LoadStore.lean ====
section
/-!
DEFINITION. Loads, stores, atomics and fences (spec/13 R247 to R252), with the orders and scopes of spec/06 (R117 to R124).
-/

namespace Sys2Proof.Machine

/-! ### Orders and scopes (R121 to R124) -/

/-- The host, as the source of a release. -/
def hostAgent : Agent := .ctrl 4

/-- The scope of an operation by thread i of an agent includes thread j of another (R121). -/
def covers (sc : Scope) (a : Agent) (i : Nat) (b : Agent) (j : Nat) : Bool :=
  match sc with
  | .thr => decide (a = b) && decide (i = j)
  | .tile => decide (a = b)
  | .pod => match a, b with
    | .tile p t, .tile q u => decide (p = q) && decide (t / 8 = u / 8)
    | _, _ => decide (a = b)
  | .part => match a, b with
    | .tile p _, .tile q _ => decide (p = q)
    | _, _ => decide (a = b)
  | .pkg => decide (b ≠ hostAgent)
  | .sys => true

/-- An acquire at a scope meets the tags of a word: an edge from each release whose value it reads, where the two scopes cover each
other (R124); DROP where none of the tags that stand on a word of memory does (R123). A tag whose value was not read names no byte
in `held`. -/
def Thread.acquire (t : Thread) (cyc : Nat) (me : Agent) (i : Nat) (sc : Scope) (gs : List Tag) : Thread :=
  let ok (g : Tag) : Bool := covers g.scope g.src g.th me i && covers sc me i g.src g.th
  let live (g : Tag) : Bool := g.on && (match g.at_ with
    | .word _ | .mgmt .. => true
    | .buf .. => false)
  let t := { t with hb := (gs.filter fun g => ok g && decide (g.held ≠ [])).foldl (fun h g => joinHb g.hb h) t.hb }
  if gs.any live && !gs.any fun g => live g && ok g then { t.keepClear cyc 0x004 0x200 with drop := true } else t

/-- The scope of a qualifier as its space lets it act: `.tile` at most on a buffer (R122), `.pkg` at most on `m:` (R117). -/
def scopeIn (sp : Space) (sc : Scope) : Scope :=
  match sp with
  | .w | .a | .c => if scopeRank sc ≤ 1 then sc else .tile
  | .m => if scopeRank sc ≤ 4 then sc else .pkg
  | .g => sc

/-- The scope at which an order qualifier acts: none for a relaxed access and on kinds V, RED and CAV, `.tile` at most on a
buffer, and the ceiling at most (R122, R250). -/
def Thread.orderScope (t : Thread) (sp : Space) (k : Kind) (o : Order) (sc : Scope) : Option Scope :=
  if o = .relaxed then none
  else if sp = .g ∧ k ≠ .l then none
  else some (t.clampScope (scopeIn sp sc))

/-- CLAMP for a qualifier wider than the ceiling, where the qualifier acts (R122). -/
def Thread.noteOrder (t : Thread) (cyc : Nat) (sp : Space) (k : Kind) (o : Order) (sc : Scope) : Thread :=
  if o = .relaxed ∨ (sp = .g ∧ k ≠ .l) then t else t.noteClamp cyc (scopeIn sp sc)

/-- A load of n bytes from byte `lo` of a word meets the word's tags: an acquire acts on them, and a later fence may (R124, R252). -/
def State.meetTag (s : State) (w : TagAt) (lo n : Nat) (sc : Option Scope) : State :=
  let gs := (s.tags.filter fun g => g.at_ = w).map fun g =>
    if g.held.any fun k => decide (lo ≤ k) && decide (k < lo + n) then g else { g with held := [] }
  if gs = [] then s
  else s.modHere fun t =>
    let t := { t with seen := gs :: t.seen }
    match sc with
    | some c => t.acquire s.cycle s.cur.agent s.cur.th c gs
    | none => t

/-- The releases that a store carries: its own, and those of earlier fences, on live words, `m:` and buffers (R124, R252). -/
def Thread.release (t : Thread) (sp : Space) (k : Kind) (own : Option Scope) : List (Scope × List Nat) :=
  if sp = .g ∧ k ≠ .l then []
  else (own.map fun c => (c, t.hb)).toList ++ t.relF.map fun r => (scopeIn sp r.1, r.2)

/-- The bytes `lo` to `lo + n - 1` of a word tagged by the releases of the current thread (R123). -/
def State.tagWord (s : State) (w : TagAt) (lo n : Nat) (rs : List (Scope × List Nat)) : State :=
  { s with tags := (rs.map fun r => ⟨w, (List.range n).map (lo + ·), true, r.1, s.cur.agent, s.cur.th, r.2⟩) ++ s.tags }

/-! ### Global bytes -/

/-- Where a checked global access reaches physical memory, with its kind: a contributor's own copy in a CAV region (R162,
R164), and a physical address in firmware mode (R322). -/
def State.gAt (s : State) (ea : Word) : Loc × Kind :=
  match s.cur.agent with
  | .ctrl _ => (⟨false, ea.toNat⟩, .l)
  | .tile p t =>
    let P := s.part p
    match (P.tile t).extent ea.toNat with
    | none => (⟨false, 0⟩, .v)
    | some e =>
      let own : Option Loc := if e.kind = .cav then
          (regionOf s P.transNow P.tiles.length ea.toNat).bind fun r =>
            if r.ok ∧ 64 ≤ ea.toNat - r.base then translate P.transNow (r.base + r.ownOff (r.contributor P t) t (ea.toNat - r.base - 64)) else none
        else none
      (own.getD (e.locOf ea.toNat), e.kind)

/-- An access to `m:` where no register stands records in %oob (R247). -/
def State.noteM (s : State) (ea : Word) (n : Nat) (wr : Bool) : State :=
  match s.cur.agent with
  | .ctrl d => match mMissing s d ea.toNat n with
    | some a => s.modHere fun t => t.oobNow s.cycle 3 wr a
    | none => s
  | .tile .. => s

/-- The out-of-range bytes of a buffer access recorded in %oob (R101). -/
def State.noteOob (s : State) (b : Buf) (ea : Word) (n : Nat) (wr : Bool) : State :=
  match oobByte b ea.toNat n with
  | some a => s.modHere fun t => t.oobNow s.cycle (bufCode b) wr a
  | none => s

/-- A write-behind record of the current thread for bytes at a physical place (R81, R127). -/
def State.taskRec (s : State) (l : Loc) (data : List Byte) : WRec :=
  let t := s.here
  { id := s.opCtr, cls := .task, q := 8, ltile := s.hereT, th := s.cur.th, seq := t.seq, hb := t.hb, buf := none, loc := l, data := data }

/-- The thread has made a write with a record: its identity joins what happens before its later accesses. -/
def State.madeWrite (s : State) : State :=
  s.newId.modHere fun t => { t with hb := s.opCtr :: t.hb, seq := t.seq + 1 }

/-! ### Loads (R249) -/

/-- The number that n bytes of a checked global place hold for the current thread (R117, R119). Of the writes of a live word that R126 allows a load to
return it is the latest in the order of steps (DESIGN CHOICE, log entry 66). -/
def State.gValue (s : State) (g : Loc × Kind) (n : Nat) : Nat := if g.2 = .v then leNat (s.seen s.hereP g.1 n) else s.physNat g.1 n

/-- Monitor source 0x04: a read of the current agent's partition's HBM pages took n cycles (R20). -/
def State.sampleRead (s : State) (n : Nat) : State :=
  match s.cur.agent with
  | .tile p _ => s.modPart p fun P => P.sample 4 n
  | .ctrl _ => s

/-- Monitor source 0x04: the latency of a load or atomic of the partition's HBM pages, which takes a time of kind k (R20); of one that waits for a
channel in training it is known when that wait ends. -/
def State.noteRead (s : State) (k : Delay) (l : Loc) : State :=
  if l.host ∨ (s.chanHolds l).isSome then s else s.sampleRead (1 + Config.delay k s.fresh)

/-- LoadStore of R249 for a load of n bytes. -/
def State.load (s : State) (n : Nat) (signed : Bool) (d : Sreg) (m : MemRef) : State :=
  let ea := s.ea m.base m.disp
  match accessCheck s m.space ea n n .load with
  | some r => s.raise r.1 r.2
  | none =>
    match spaceBuf m.space with
    | some b =>
      let v := extendN n signed (leNat (s.hereTile.readBuf b ea.toNat n))
      let s1 := (s.noteOob b ea n false).modHere fun t => t.noteOrder s.cycle m.space .v m.order m.scope
      let s2 := s1.meetTag (.buf s.hereP s.hereT b (ea.toNat / 8 * 8)) (ea.toNat % 8) n (s.here.orderScope m.space .v m.order m.scope)
      if s.hereTile.spilled b ea.toNat n then s.orHold (s2.blockSpilled (s.shadowChans s.hereP s.hereT b ea.toNat n) (.result (some d) v)) else s.finish (s2.writeS 4 d v 0)
    | none =>
      if m.space = .m then
        s.orHold (((s.noteM ea n false).modHere fun t => t.noteOrder s.cycle .m .l m.order m.scope).blockFor .mgmtRead
          (.mload d ea.toNat n signed (s.here.orderScope .m .l m.order m.scope)))
      else
        let g := s.gAt ea
        let v := extendN n signed (s.gValue g n)
        match s.poisonAt g.1 n with
        | some u =>
          let l : Loc := ⟨false, max g.1.addr (32 * u)⟩
          if g.2 = .l then s.trapOn s.cur.agent s.cur.th .eccUncorr (eccWord 2 l) s.here.unit l.addr
          else match s.cur.agent with
            | .tile p t => s.orHold (((tileEvent s p t .eccUncorr 2 (eccWord 1 l) l.addr).noteRead .memRead g.1).blockRead g.1 .memRead (some d) v)
            | .ctrl _ => s
        | none =>
          let s1 := s.modHere fun t => t.noteOrder s.cycle .g g.2 m.order m.scope
          let s2 := if g.2 = .l then s1.meetTag (.word ⟨g.1.host, g.1.addr / 8 * 8⟩) (g.1.addr % 8) n (s.here.orderScope .g g.2 m.order m.scope) else s1
          s.orHold ((s2.noteRead .memRead g.1).blockRead g.1 .memRead (some d) v)

/-! ### Stores (R249) -/

/-- The tile's write-behind queue of 16 entries is full (R250, R263). -/
def State.wbkFull (s : State) (p t : Nat) : Bool :=
  decide (16 ≤ (s.ops.filter fun o => o.live && decide (o.agent = .tile p t) && (match o.kind with | .wbk .. => true | _ => false)).length)

/-- A contribution of one element joins a tile's latent store; where its granule finds no room there, its bytes go to the tile's staging
slot of the region (R108, R164; log entry 57). -/
def State.takeContrib (s : State) (p t : Nat) (r : Region) (c : Contrib) : State :=
  let g : Gran := .reg r.base (c.elem * r.esize / 64)
  let s1 := s.modTile p t fun T => { T with contribs := T.contribs ++ [c] }.takeGranules [g]
  if (s1.tile p t).overflow.contains g then s1.outsideVwrite (some p) (s.part p).transNow (r.base + r.slotOff t + c.elem * r.esize) c.wrec.data else s1

/-- Plain contributions of whole elements to a region from a record, one for each element (R129, R164). -/
def State.contribute (s : State) (p t : Nat) (r : Region) (off : Nat) (w : WRec) : State :=
  (List.range (w.data.length / r.esize)).foldl (fun s k =>
    s.takeContrib p t r ⟨r.base, (off - 64) / r.esize + k, false, { w with data := bytesAt w.data (k * r.esize) r.esize }⟩) s

/-- A checked store to `g:` (R249). -/
def State.gStore (s : State) (ea : Word) (data : List Byte) (m : MemRef) : State :=
  let g := s.gAt ea
  let s1 := s.modHere fun t => t.noteOrder s.cycle .g g.2 m.order m.scope
  match g.2 with
  | .v => (s1.modPart s.hereP fun P => { P with wb := P.wb ++ [s.taskRec g.1 data] }).madeWrite
  | .l => (s1.physWrite g.1 data).tagWord (.word ⟨g.1.host, g.1.addr / 8 * 8⟩) (g.1.addr % 8) data.length
      (s.here.release .g .l (s.here.orderScope .g .l m.order m.scope))
  | .red | .cav =>
    let P := s.herePart
    match regionOf s P.transNow P.tiles.length ea.toNat with
    | some r => (s1.contribute s.hereP s.hereT r (ea.toNat - r.base) (s.taskRec ⟨false, 0⟩ data)).madeWrite
    | none => s1

/-- Row writes of the current thread that land in this cycle land before a later-issued store of the cycle (R92, R223, R249). -/
def State.landRows (s : State) : State :=
  (s.here.pend.filter fun x => decide (x.land ≤ s.cycle) && (match x.dest with
    | .row _ => true
    | .s _ | .p _ | .csr _ => false)).foldl
      (fun s x => applyPend s.cur.agent s.cur.th (s.modHere fun t => { t with pend := t.pend.erase x }) x) s

/-- LoadStore of R249 for a store of n bytes. -/
def State.store (s : State) (n : Nat) (d : Sreg) (m : MemRef) : State :=
  let ea := s.ea m.base m.disp
  let data := leBytes n (s.sr d).toNat
  match accessCheck s m.space ea n n .store with
  | some r => s.raise r.1 r.2
  | none =>
    match spaceBuf m.space with
    | some b =>
      let s1 := ((if b = .c then s.landRows else s).noteOob b ea n true).modHere fun t => t.noteOrder s.cycle m.space .v m.order m.scope
      let s2 := s1.taskLatent s.hereP s.hereT s.cur.th b ea.toNat data
      s.finish (s2.tagWord (.buf s.hereP s.hereT b (ea.toNat / 8 * 8)) (ea.toNat % 8) n
        (s2.here.release m.space .v (s.here.orderScope m.space .v m.order m.scope)))
    | none =>
      if m.space = .m then
        match s.cur.agent with
        | .ctrl k => s.finish ((mWrite ((s.noteM ea n true).modHere fun t => t.noteOrder s.cycle .m .l m.order m.scope) k ea.toNat n (leNat data)).tagWord
            (mWord k ea.toNat) (ea.toNat % 8) n (s.here.release .m .l (s.here.orderScope .m .l m.order m.scope)))
        | .tile .. => s
      else if s.cur.agent = .tile s.hereP s.hereT ∧ s.wbkFull s.hereP s.hereT then s.block .store
      else s.finish (s.gStore ea data m)

/-! ### Atomics (R251) -/

/-- What an atomic does to a word. -/
inductive Amo where
  | add | and | or | xor | min | max | minu | maxu | cas | swap
  deriving DecidableEq, Repr

/-- The new word from the old one and the operands; none where nothing is written. -/
def Amo.apply (f : Amo) (o x z : Word) : Option Word :=
  match f with
  | .add => some (o + x)
  | .and => some (o &&& x)
  | .or => some (o ||| x)
  | .xor => some (o ^^^ x)
  | .min => some (minS o x)
  | .max => some (maxS o x)
  | .minu => some (minU o x)
  | .maxu => some (maxU o x)
  | .cas => if o = x then some z else none
  | .swap => some x

/-- The acquire and release sides of an order. -/
def Order.acqSide (o : Order) : Bool := o = .acq || o = .ar
def Order.relSide (o : Order) : Bool := o = .rel || o = .ar

/-- Atomic of R251. -/
def State.atomic (s : State) (f : Amo) (d : Sreg) (m : MemRef) (x z : Word) : State :=
  let ea := s.ea m.base m.disp
  match accessCheck s m.space ea 8 8 .atomic with
  | some r => s.raise r.1 r.2
  | none =>
    if m.space = .m then
      match s.cur.agent with
      | .ctrl k =>
        let o := BitVec.ofNat 64 (mRead s k ea.toNat 8)
        let sc := s.here.orderScope .m .l m.order m.scope
        let w := mWord k ea.toNat
        let s1 := ((s.noteM ea 8 false).modHere fun t => t.noteOrder s.cycle .m .l m.order m.scope).meetTag w 0 8 (if Order.acqSide m.order then sc else none)
        let s2 := match f.apply o x z with
          | some v => (mWrite s1 k ea.toNat 8 v.toNat).tagWord w 0 8 (s1.here.release .m .l (if Order.relSide m.order then sc else none))
          | none => s1
        s.orHold (s2.blockFor .atomic (.result (some d) o))
      | .tile .. => s
    else
      let l := (s.gAt ea).1
      match s.poisonAt l 8 with
      | some u =>
        let q : Loc := ⟨false, max l.addr (32 * u)⟩
        s.trapOn s.cur.agent s.cur.th .eccUncorr (eccWord 2 q) s.here.unit q.addr
      | none =>
        let o := BitVec.ofNat 64 (s.physNat l 8)
        let sc := s.here.orderScope .g .l m.order m.scope
        let w : TagAt := .word ⟨l.host, l.addr / 8 * 8⟩
        let s1 := (s.modHere fun t => t.noteOrder s.cycle .g .l m.order m.scope).meetTag w 0 8 (if Order.acqSide m.order then sc else none)
        let s2 := match f.apply o x z with
          | some v => (s1.physWrite l (leBytes 8 v.toNat)).tagWord w 0 8 (s1.here.release .g .l (if Order.relSide m.order then sc else none))
          | none => s1
        s.orHold ((s2.noteRead .atomic l).blockRead l .atomic (some d) o)

/-! ### Fences (R252) -/

/-- A fence's edges: earlier loads act as acquires, later stores as releases, at its clamped scope (R124, R252). -/
def State.fenceEdges (s : State) (o : Order) (sc : Scope) : State :=
  s.modHere fun t =>
    let c := t.clampScope sc
    let t := t.noteClamp s.cycle sc
    let t := if Order.acqSide o then t.seen.foldl (fun t gs => t.acquire s.cycle s.cur.agent s.cur.th c gs) t else t
    if Order.relSide o then { t with relF := (c, t.hb) :: t.relF.filter fun r => decide (r.1 ≠ c) } else t

/-- `fence` (R252): every earlier load has returned its value when the thread's register writes have landed, and every store
is visible. -/
def execFence (o : Order) (sc : Scope) (s : State) : Result State :=
  let s1 := s.fenceEdges o sc
  .next (if s.here.pend = [] then s.finish s1
         else s.orHold ((s1.block (.result none 0)).schedule (s.here.lastLand s.cycle + 1 - s.cycle) .blockingWaitDone
           { agent := s.cur.agent, th := s.cur.th, op := s.cycle }))

/-! ### Meanings of rows 0x10 to 0x13 -/

/-- `ld.b`, class MEM (R248, R249). -/
def execLdBMem (d : Sreg) (m : MemOp) (s : State) : Result State := .next (s.load 1 true d m.ref)
/-- `ld.b`, class ATOM (R248, R249). -/
def execLdBAtom (d : Sreg) (m : AtomOp) (s : State) : Result State := .next (s.load 1 true d m.ref)
/-- `ld.bu`, class MEM (R248, R249). -/
def execLdBuMem (d : Sreg) (m : MemOp) (s : State) : Result State := .next (s.load 1 false d m.ref)
/-- `ld.bu`, class ATOM (R248, R249). -/
def execLdBuAtom (d : Sreg) (m : AtomOp) (s : State) : Result State := .next (s.load 1 false d m.ref)
/-- `ld.h`, class MEM (R248, R249). -/
def execLdHMem (d : Sreg) (m : MemOp) (s : State) : Result State := .next (s.load 2 true d m.ref)
/-- `ld.h`, class ATOM (R248, R249). -/
def execLdHAtom (d : Sreg) (m : AtomOp) (s : State) : Result State := .next (s.load 2 true d m.ref)
/-- `ld.hu`, class MEM (R248, R249). -/
def execLdHuMem (d : Sreg) (m : MemOp) (s : State) : Result State := .next (s.load 2 false d m.ref)
/-- `ld.hu`, class ATOM (R248, R249). -/
def execLdHuAtom (d : Sreg) (m : AtomOp) (s : State) : Result State := .next (s.load 2 false d m.ref)
/-- `ld.w`, class MEM (R248, R249). -/
def execLdWMem (d : Sreg) (m : MemOp) (s : State) : Result State := .next (s.load 4 true d m.ref)
/-- `ld.w`, class ATOM (R248, R249). -/
def execLdWAtom (d : Sreg) (m : AtomOp) (s : State) : Result State := .next (s.load 4 true d m.ref)
/-- `ld.wu`, class MEM (R248, R249). -/
def execLdWuMem (d : Sreg) (m : MemOp) (s : State) : Result State := .next (s.load 4 false d m.ref)
/-- `ld.wu`, class ATOM (R248, R249). -/
def execLdWuAtom (d : Sreg) (m : AtomOp) (s : State) : Result State := .next (s.load 4 false d m.ref)
/-- `ld.d`, class MEM (R248, R249). -/
def execLdDMem (d : Sreg) (m : MemOp) (s : State) : Result State := .next (s.load 8 false d m.ref)
/-- `ld.d`, class ATOM (R248, R249). -/
def execLdDAtom (d : Sreg) (m : AtomOp) (s : State) : Result State := .next (s.load 8 false d m.ref)
/-- `st.b`, class MEM (R248, R249). -/
def execStBMem (d : Sreg) (m : MemOp) (s : State) : Result State := .next (s.store 1 d m.ref)
/-- `st.b`, class ATOM (R248, R249). -/
def execStBAtom (d : Sreg) (m : AtomOp) (s : State) : Result State := .next (s.store 1 d m.ref)
/-- `st.h`, class MEM (R248, R249). -/
def execStHMem (d : Sreg) (m : MemOp) (s : State) : Result State := .next (s.store 2 d m.ref)
/-- `st.h`, class ATOM (R248, R249). -/
def execStHAtom (d : Sreg) (m : AtomOp) (s : State) : Result State := .next (s.store 2 d m.ref)
/-- `st.w`, class MEM (R248, R249). -/
def execStWMem (d : Sreg) (m : MemOp) (s : State) : Result State := .next (s.store 4 d m.ref)
/-- `st.w`, class ATOM (R248, R249). -/
def execStWAtom (d : Sreg) (m : AtomOp) (s : State) : Result State := .next (s.store 4 d m.ref)
/-- `st.d`, class MEM (R248, R249). -/
def execStDMem (d : Sreg) (m : MemOp) (s : State) : Result State := .next (s.store 8 d m.ref)
/-- `st.d`, class ATOM (R248, R249). -/
def execStDAtom (d : Sreg) (m : AtomOp) (s : State) : Result State := .next (s.store 8 d m.ref)
/-- `amo.add` (R251). -/
def execAmoAdd (d : Sreg) (m : AtomOp) (x : Sreg) (s : State) : Result State := .next (s.atomic .add d m.ref (s.sr x) 0)
/-- `amo.and` (R251). -/
def execAmoAnd (d : Sreg) (m : AtomOp) (x : Sreg) (s : State) : Result State := .next (s.atomic .and d m.ref (s.sr x) 0)
/-- `amo.or` (R251). -/
def execAmoOr (d : Sreg) (m : AtomOp) (x : Sreg) (s : State) : Result State := .next (s.atomic .or d m.ref (s.sr x) 0)
/-- `amo.xor` (R251). -/
def execAmoXor (d : Sreg) (m : AtomOp) (x : Sreg) (s : State) : Result State := .next (s.atomic .xor d m.ref (s.sr x) 0)
/-- `amo.min` (R251). -/
def execAmoMin (d : Sreg) (m : AtomOp) (x : Sreg) (s : State) : Result State := .next (s.atomic .min d m.ref (s.sr x) 0)
/-- `amo.max` (R251). -/
def execAmoMax (d : Sreg) (m : AtomOp) (x : Sreg) (s : State) : Result State := .next (s.atomic .max d m.ref (s.sr x) 0)
/-- `amo.minu` (R251). -/
def execAmoMinu (d : Sreg) (m : AtomOp) (x : Sreg) (s : State) : Result State := .next (s.atomic .minu d m.ref (s.sr x) 0)
/-- `amo.maxu` (R251). -/
def execAmoMaxu (d : Sreg) (m : AtomOp) (x : Sreg) (s : State) : Result State := .next (s.atomic .maxu d m.ref (s.sr x) 0)
/-- `cas` (R251). -/
def execCas (d : Sreg) (m : AtomOp) (x z : Sreg) (s : State) : Result State := .next (s.atomic .cas d m.ref (s.sr x) (s.sr z))
/-- `swap` (R251). -/
def execSwap (d : Sreg) (m : AtomOp) (x : Sreg) (s : State) : Result State := .next (s.atomic .swap d m.ref (s.sr x) 0)

end Sys2Proof.Machine
end

