-- ==== Sys2Proof/Machine/Superstep.lean ====
section
/-!
DEFINITION. Rings, tile sync, the closing of the superstep, write-behind and the waits (spec/13 R253 to R264; spec/16 R305,
R306; spec/15 R293): the instructions, and BLOCKING_WAIT_DONE (spec/05 R93).
-/

namespace Sys2Proof.Machine

/-! ### Engine queues (R112, R152, R263, R298, R300) -/

/-- An operation still takes an entry of its queue: a matrix command leaves it when it is chosen (R112). -/
def EngOp.holdsEntry (o : EngOp) : Bool :=
  match o.kind with
  | .mma .. | .mldt .. | .mzero .. => decide (o.st = .queued)
  | _ => o.live

/-- How many entries of its queue stand before an operation. -/
def State.rank (s : State) (o : EngOp) : Nat :=
  ((s.ops.takeWhile fun x => decide (x.id ≠ o.id)).filter fun x => x.holdsEntry && decide (x.queue = o.queue)).length

/-- An operation has an entry of its queue. -/
def State.hasEntry (s : State) (o : EngOp) : Bool :=
  match o.queue with
  | none => true
  | some (_, _, cap) => decide (s.rank o < cap)

/-- An engine instruction queues an operation: the thread waits for a token that stands at 255 (R305), and for an entry of a
full queue. `s0` is the state at its issue, `s` with what it notes of its own. -/
def State.engineAt (s0 s : State) (kind : OpKind) (tok : TokF) : State :=
  if tok.te ∧ 255 ≤ s0.tokenCount s0.cur.agent s0.cur.th tok.tk then s0.block (.room tok.tk)
  else
    let s1 := s.fork kind tok
    match s1.op? s0.opCtr with
    | some o => if s1.hasEntry o then s0.finish s1 else s0.orHold (s1.block (.entry s0.opCtr))
    | none => s0.finish s1

/-- An engine instruction that notes nothing of its own at issue. -/
def State.engine (s : State) (kind : OpKind) (tok : TokF) : State := s.engineAt s kind tok

/-- An engine instruction whose operation completes after a time that the manual leaves open (log entry 1). -/
def State.engineDue (s : State) (kind : OpKind) (tok : TokF) (k : Delay) (ev : Instr) : State :=
  let s1 := s.engine kind tok
  if s1.opCtr = s.opCtr then s1 else s1.scheduleFree k ev { p := s.hereP, t := s.hereT, op := s.opCtr }

/-! ### Tables read through the code line buffer (R257, R281, R308) -/

/-- The address of a table: the unit's line plus 64 times a line offset. -/
def State.tableAt (s : State) {w : Nat} (off : BitVec w) : Addr := lineOfAddr s.unit.addr + ((off.signExtend 57) <<< 6)

/-- The bytes of a table of n lines, once its lines are present: the thread waits for an absent line (R90), and a line that
cannot be fetched raises its fault (R111). -/
def State.withTable (s : State) (base : Addr) (n : Nat) (k : List Byte → State) : State :=
  let las := (List.range n).map fun i => base + BitVec.ofNat 57 (64 * i)
  let s := las.foldl (fun s la => s.prefetched s.cur.agent la) s
  match las.find? fun la => (s.lineAt s.cur.agent la).isNone with
  | some la => match lineCheck s s.cur.agent la with
    | some r => s.raise r.1 r.2
    | none => s.waitLine s.cur.agent s.cur.th la
  | none => k (las.flatMap fun la => (s.lineAt s.cur.agent la).getD [])

/-! ### Rings (R253 to R255) -/

def Tile.ring (T : Tile) (h : Hnd) : Ring := T.rings[h]

/-- The detail of a refused ring instruction (R253). -/
def ringDetail (h : Hnd) (fn : Nat) (n : Word) : Word := BitVec.ofNat 64 (h.val + fn * 16 + n.toNat % 2 ^ 32 * 2 ^ 32)

/-- The wait on a ring is illegal: the handle is unused, or the count exceeds the slots. -/
def Ring.badWait (r : Ring) (n : Word) : Bool := r.unused || decide (r.slots < n.toNat)
/-- The condition of `waitf` (full) and `waite`. -/
def Ring.holds (r : Ring) (full : Bool) (n : Word) : Bool := decide (n.toNat ≤ if full then r.filled else r.free)

/-- A satisfied ring wait acts as an acquire at `.tile` (R255). -/
def State.ringAcquire (s : State) (h : Hnd) : State :=
  let hb := s.hereTile.ringHb[h]
  s.modHere fun t => { t with hb := joinHb hb t.hb }

/-- Monitor source 0x05: the cycles that a satisfied ring wait took (R20). -/
def State.noteRingWait (s : State) (n : Nat) : State := s.modPart s.hereP fun P => P.sample 5 n

/-- `waitf` and `waite` of a count n. -/
def State.ringWait (s : State) (full : Bool) (h : Hnd) (n : Word) : State :=
  let r := s.hereTile.ring h
  if r.badWait n then s.raise .illegalTarget (ringDetail h (if full then 0 else 1) n)
  else if r.holds full n then s.finish ((if n = 0 then s else s.ringAcquire h).noteRingWait 0)
  else s.block (.ring h full n)

/-- A ring with a pointer advanced: the producer, or the consumer. -/
def Ring.advance (r : Ring) (prod : Bool) (n : Nat) : Ring :=
  if prod then { r with prod := r.prod + BitVec.ofNat 32 n } else { r with cons := r.cons + BitVec.ofNat 32 n }

/-- A tile's ring advanced by an agent whose accesses so far are `hb`, which is a release at `.tile` (R254, R255). -/
def Tile.advance (T : Tile) (h : Hnd) (prod : Bool) (n : Nat) (hb : List Nat) : Tile :=
  { T with rings := T.rings.set h.val (T.rings[h].advance prod n), ringHb := T.ringHb.set h.val (joinHb hb T.ringHb[h]) }

/-- `advp` and `advc` of a count n. -/
def State.ringAdvance (s : State) (prod : Bool) (h : Hnd) (n : Word) : State :=
  let r := s.hereTile.ring h
  if r.unused ∨ (if prod then r.free else r.filled) < n.toNat then
    s.raise .illegalTarget (ringDetail h (if prod then 2 else 3) n)
  else s.finish (if n = 0 then s else s.modHereTile fun T => T.advance h prod n.toNat s.here.hb)

/-- `waitf` (R253). -/
def execWaitf (h : Hnd) (a : Sreg) (imm : Word) (s : State) : Result State := .next (s.tileOnly (s.ringWait true h (s.sr a + imm)))
/-- `waite` (R253). -/
def execWaite (h : Hnd) (a : Sreg) (imm : Word) (s : State) : Result State := .next (s.tileOnly (s.ringWait false h (s.sr a + imm)))
/-- `advp` (R253). -/
def execAdvp (h : Hnd) (a : Sreg) (imm : Word) (s : State) : Result State := .next (s.tileOnly (s.ringAdvance true h (s.sr a + imm)))
/-- `advc` (R253). -/
def execAdvc (h : Hnd) (a : Sreg) (imm : Word) (s : State) : Result State := .next (s.tileOnly (s.ringAdvance false h (s.sr a + imm)))

/-! ### Tile sync (R256) -/

/-- What the accesses before a round's `tsync` have made, by round. -/
def joinSync (l : List (Nat × List Nat)) (k : Nat) (hb : List Nat) : List (Nat × List Nat) :=
  (k, joinHb hb ((l.lookup k).getD [])) :: l.filter fun x => x.1 != k

/-- Round k of a tile is complete: every thread with an unfinished task has issued its k-th `tsync` or has fixed. -/
def Tile.roundDone (T : Tile) (k : Nat) : Bool :=
  T.threads.all fun t => decide (t.task ≠ .running) || t.atfix || decide (k ≤ t.rounds)

/-- `tsync` (R256). -/
def execTsync (s : State) : Result State :=
  let k := s.here.rounds + 1
  let s1 := (s.modHere fun t => { t with rounds := k }).modHereTile fun T => { T with syncHb := joinSync T.syncHb k s.here.hb }
  .next (s.tileOnly (s.orHold (s1.block (.tsync k))))

/-! ### fix, vote and stage (R257 to R261) -/

/-- A descriptor of a range table breaks R258. -/
def badRange (d : Word) : Bool :=
  let start := (d.extractLsb' 0 19).toNat
  let len := (d.extractLsb' 32 13).toNat
  match Buf.ofCode (d.extractLsb' 62 2) with
  | none => true
  | some b => d.extractLsb' 45 17 != 0 || d.extractLsb' 19 13 != 0 || decide (start % 64 ≠ 0) || len = 0
      || decide (Config.bufSize b < start + 64 * len)

/-- The range a descriptor names. -/
def rangeOf (d : Word) : Range :=
  ⟨(Buf.ofCode (d.extractLsb' 62 2)).getD .w, (d.extractLsb' 0 19).toNat, 64 * (d.extractLsb' 32 13).toNat⟩

/-- The named registers as they stand; the others zero. -/
def Thread.named (t : Thread) (bitmap : BitVec 32) : Vector Word 32 :=
  Vector.ofFn fun i => if bitmap.getLsbD i.val ∧ i ≠ 0 then t.regs[i] else 0

/-- The thread counts as having executed `fix` (R258). -/
def Thread.recordFix (t : Thread) (bitmap : BitVec 32) (rs : List Range) (ends : Bool) : Thread :=
  { t with fixRec := some ⟨bitmap &&& ~~~1, t.named bitmap, rs, t.unit.next, ends⟩, atfix := true, wait := .fixed }

/-- `fix` and `fix.end` (R258, R259). -/
def State.fixOp (s : State) (bitmap : BitVec 32) (m : Nat) (off : BitVec 22) (ends : Bool) : State :=
  if s.here.pend ≠ [] then s.modHere fun t => { t with readyAt := t.lastLand s.cycle + 1 }
  else
    let base := s.tableAt off
    s.withTable base ((8 * m + 63) / 64) fun bs =>
      let ds : List Word := (List.range m).map fun k => BitVec.ofNat 64 (leNat (bytesAt bs (8 * k) 8))
      match ds.findIdx? badRange with
      | some k => s.raise .illegalTarget ((base.setWidth 64) + BitVec.ofNat 64 (8 * k))
      | none => s.modHere fun t => t.recordFix bitmap (ds.map rangeOf) ends

/-- `fix` (R258). -/
def execFix (bitmap : BitVec 32) (m : Fin 17) (off : BitVec 22) (s : State) : Result State :=
  .next (s.tileOnly (s.fixOp bitmap m.val off false))
/-- `fix.end` (R259). -/
def execFixEnd (bitmap : BitVec 32) (m : Fin 17) (off : BitVec 22) (s : State) : Result State :=
  .next (s.tileOnly (s.fixOp bitmap m.val off true))

/-- Vote of R260. -/
def Thread.castVote (t : Thread) (v : BitVec 2) (x : BitVec 32) : Thread :=
  { t with vote := maxVote t.vote v, vor := t.vor ||| x, vmax := if t.vmax < x then x else t.vmax, vdet := x,
           hvote := if t.mode = .handler then maxVote t.hvote v else t.hvote }

/-- A handler's vote is reported with the cause and detail of its entry (R177, R180). -/
def State.reportVote (s : State) (v : BitVec 2) : State :=
  if s.here.mode = .handler then s.modHereTile fun T => T.setFaultVote s.cur.th fun x => maxVote x v else s

/-- `vote` (R260). -/
def execVote (v : Fin 3) (a : Sreg) (s : State) : Result State :=
  let c := BitVec.ofNat 2 v.val
  .next (s.tileOnly (s.finish ((s.reportVote c).modHere fun t => t.castVote c ((s.sr a).setWidth 32))))

/-- Writes of the two registers by `csrw` that land in the cycle of a later-issued `stage` give way to it (R92, R261). -/
def Tile.dropFlp (T : Tile) (cyc : Nat) : Tile :=
  { T with threads := T.threads.map fun t => (t.drop1 cyc (.csr 0x045)).drop1 cyc (.csr 0x046) }

/-- `stage` (R261). -/
def execStage (a : Sreg) (imm : Word) (s : State) : Result State :=
  .next (s.tileOnly (s.finish ((s.modHereTile fun T => T.dropFlp s.cycle).writeFlp s.hereP s.hereT (some ((s.sr a).setWidth 57))
    (some (min imm.toNat 128)))))

/-! ### Write-behind (R263) -/

/-- The first byte of a range that lies on a page of a kind other than the one given. -/
def Tile.otherKind (T : Tile) (k : Kind) (va n : Nat) : Option Nat :=
  ((pieces va n).find? fun x => match T.extent x.1 with
    | some e => decide (e.kind ≠ k)
    | none => true).map (·.1)

/-- `wbk` (R263). -/
def execWbk (base : Sreg) (src : Buf) (off : BitVec 19) (len : BitVec 13) (disp : BitVec 20) (tok : TokF) (s : State) :
    Result State :=
  let ea := s.ea base disp
  let n := 64 * len.toNat
  .next (s.tileOnly
    (match accessCheck s .g ea n 64 .store with
    | some r => s.raise r.1 r.2
    | none =>
      if off.toNat % 64 ≠ 0 then s.raise .align (off.setWidth 64)
      else match s.hereTile.otherKind .v ea.toNat n with
        | some va => s.raise .prot (BitVec.ofNat 64 va)
        | none => s.engineDue (.wbk ea src off.toNat len.toNat) tok .wbk .wbkComplete))

/-! ### Joins and times (R264, R293, R306) -/

/-- The operations of a join have completed: their accesses happen before the thread's later ones (R124). -/
def State.joinOps (s : State) (f : EngOp → Bool) : State :=
  let hb := (s.ops.filter f).foldl (fun h o => joinHb o.made h) []
  s.modHere fun t => { t with hb := joinHb hb t.hb }

/-- Operations of the current thread that named a token. -/
def State.ofToken (s : State) (k : Fin 16) (o : EngOp) : Bool :=
  decide (o.agent = s.cur.agent) && decide (o.th = s.cur.th) && decide (o.tok = some k)

/-- `kwait` (R306). -/
def execKwait (k : Fin 16) (s : State) : Result State :=
  .next (if s.tokenCount s.cur.agent s.cur.th k = 0 then s.finish (s.joinOps (s.ofToken k)) else s.block (.token k))

/-- `mwait` (R293): the commands that entered the tile's queue before it. -/
def execMwait (s : State) : Result State :=
  let ids := (s.ops.filter fun o => o.isMatrix && decide (o.agent = s.cur.agent) && s.hasEntry o).map (·.id)
  let live := s.ops.any fun o => o.live && ids.contains o.id
  .next (s.tileOnly (if live then s.block (.matrix ids) else s.finish (s.joinOps fun o => ids.contains o.id)))

/-- `twait` (R264). -/
def execTwait (d : Preg) (a : Sreg) (s : State) : Result State :=
  let t := s.sr a
  .next (if t < s.ptime then s.predOp d true 0
         else if t = s.ptime then s.predOp d false 0
         else s.block (.time d t))

/-! ### Cached translations (R132, R321) -/

/-- A page of a translation overlaps n pages from vpn. -/
def PageT.overlaps (e : PageT) (vpn n : Nat) : Bool := decide (e.vpn < vpn + n) && decide (vpn < e.vpn + e.size)

/-- The 64 KiB pages of an entry that lie in n pages from vpn, or that do not. -/
def PageT.pick (e : PageT) (inside : Bool) (vpn n : Nat) : List PageT :=
  if (decide (vpn ≤ e.vpn) && decide (e.vpn + e.size ≤ vpn + n)) && inside then [e]
  else (List.range e.size).filterMap fun i =>
    if (decide (vpn ≤ e.vpn + i) && decide (e.vpn + i < vpn + n)) = inside then some { e with vpn := e.vpn + i, size := 1, loc := e.loc.plus (65536 * i) } else none

/-- A translation without n pages from vpn: an entry that only part of the range reaches is split. -/
def lessPages (tr : List PageT) (vpn n : Nat) : List PageT := tr.flatMap fun e => if e.overlaps vpn n then e.pick false vpn n else [e]

/-- A `tlbi` of n pages from vpn completes: tables whose build begins after the partition's next fix use the new translation;
with no running launch, or a halt, the next launch's do (R132). -/
def Partition.tlbi (P : Partition) (vpn n : Nat) : Partition :=
  let t := lessPages P.transTlb vpn n ++ (P.trans.filter fun e => e.overlaps vpn n).flatMap fun e => e.pick true vpn n
  { P with transTlb := t, transBuild := if P.launch.isNone || decide (P.run = .halted) then t else P.transBuild }

/-! ### Completion of a wait (R93, R241) -/

/-- The wait of a thread may complete: what it waits for has come, or its ring handle has become illegal (R254). Waits for
data, lines and F complete through events of their own. -/
def State.waitMet (s : State) (a : Agent) (i : Nat) : Bool :=
  match (s.thread a i).wait with
  | .ring h full n => match a with
    | .tile p t => let r := (s.tile p t).ring h; r.badWait n || r.holds full n
    | .ctrl _ => true
  | .token k => decide (s.tokenCount a i k = 0)
  | .room k => decide (s.tokenCount a i k < 255)
  | .matrix ids => !(s.ops.any fun o => o.live && ids.contains o.id)
  | .tsync k => match a with
    | .tile p t => (s.tile p t).roundDone k
    | .ctrl _ => true
  | .time _ t => decide (t ≤ s.ptime)
  | .xsync => match a with
    | .tile p t => (s.tile p t).released
    | .ctrl _ => true
  | .entry id => match s.op? id with
    | some o => s.hasEntry o
    | none => true
  | .store => !s.wbkFull (match a with | .tile p _ => p | .ctrl _ => 0) (agentTile a)
  | .chan k .. => !(s.chan k).train
  | .woken => true
  | _ => false

/-- The current thread's wait completes: its result is written, and LoopEnd is applied (R93, R241). -/
def State.completeWait (s : State) : State :=
  match s.here.wait with
  | .result d v => s.finish (match d with
    | some d => s.modHere fun t => t.putS s.cycle d v
    | none => s)
  | .chan _ d v => s.finish ((match d with
    | some d => s.modHere fun t => t.putS s.cycle d v
    | none => s).sampleRead (s.cycle - s.here.waitFrom))
  | .mload d addr n sg sc =>
    match s.cur.agent with
    | .ctrl k =>
      if mBusy s addr then s.modHere fun t => { t with wait := .pass d addr n sg }
      else s.finish ((s.meetTag (mWord k addr) (addr % 8) n sc).modHere fun t => t.putS s.cycle d (extendN n sg (mRead s k addr n)))
    | .tile .. => s
  | .ring h full n =>
    let r := s.hereTile.ring h
    if r.badWait n then s.raise .illegalTarget (ringDetail h (if full then 0 else 1) n)
    else if r.holds full n then s.finish ((if n = 0 then s else s.ringAcquire h).noteRingWait (s.cycle - s.here.waitFrom)) else s
  | .token k => s.finish (s.joinOps (s.ofToken k))
  | .room _ | .store => s.modHere fun t => { t with wait := .ready }
  | .matrix ids => s.finish (s.joinOps fun o => ids.contains o.id)
  | .tsync k =>
    let hb := (s.hereTile.syncHb.lookup k).getD []
    s.finish (s.modHere fun t => { t with hb := joinHb hb t.hb })
  | .time d _ => s.predOp d false 0
  | .xsync | .entry _ | .woken => s.finish s
  | .tlbi p vpn n => s.finish (s.modPart p fun P => P.tlbi vpn n)
  | .ready | .line _ | .fixed | .stopped | .pass .. | .target .. => s

/-- A wait that an event of its own completes. -/
def Wait.timed : Wait → Bool
  | .result .. | .mload .. | .tlbi .. => true
  | _ => false

/-- BLOCKING_WAIT_DONE (R93) of thread `arg.th` of `arg.agent`; for a wait that an event of its own completes, of the wait that began in
cycle `arg.op`. One that reads spilled granules waits while one of the channels `arg.nats` is in training (R344). -/
def execBlockingWaitDone (s : State) : Result State :=
  let s1 := { s with cur := ⟨s.arg.agent, s.arg.th⟩ }
  .next (if s.arg.nats.any fun c => (s.chan c).train then s.scheduleFree .memRead .blockingWaitDone s.arg
    else if (s1.here.wait.timed && decide (s1.here.waitFrom = s.arg.op)) || s1.waitMet s.arg.agent s.arg.th then s1.completeWait else s)

end Sys2Proof.Machine
end

