-- ==== Sys2Proof/Machine/Vector.lean ====
section
/-!
DEFINITION. Vector instructions, row reductions and special functions (spec/14 R266 to R279).
-/

namespace Sys2Proof.Machine

/-! ### Elements -/

/-- An element's bits widened exactly to FP32; a signalling NaN stays one (R266). -/
def widenF (f : Byte) (x : Nat) : Nat :=
  match f.toNat with
  | 0x04 => if (fp16.dec x).isNan then fp32.signed (decide (32768 ≤ x)) (fp32.inf + x % 1024 * 8192) else (fp16.cvt fp32 .rne x).bits
  | 0x05 => x * 65536
  | _ => x

/-- An element widened: FP32 on an FP bank, INT32 on an integer bank, itself on a pair bank (R266). -/
def widen (f : Byte) (x : Nat) : Nat :=
  if isFpFmt f then widenF f x else if isIntFmt f then wrapN 32 (signedN (8 * elemSize f) x) else x

/-- An element widened for a reduction, a micro-program or an expression, with the flags of that conversion: a NaN becomes canonical,
and a signalling one sets NV (R139, R145). -/
def widenR (f : Byte) (x : Nat) : FR := if isFpFmt f && f != 0x06 then convElem .rne f 0x06 x else ⟨widen f x, 0⟩

/-- A widened result converted once to the bank's format (R139, RNE). -/
def narrow (f : Byte) (x : Nat) : FR :=
  if isFpFmt f then convElem .rne 0x06 f x else if isIntFmt f then convElem .rne 0x03 f x else ⟨x, 0⟩

/-- The results' flags, ORed (R137). -/
def orFl (rs : List FR) : Byte := rs.foldl (fun f r => f ||| r.flags) 0

/-- A row written with the elements of a list of results, latency L, by an instruction that read the rows `rd`, and the unit ends. -/
def State.rowOp (s : State) (L : Nat) (rd : List Row) (d : Row) (rs : List FR) : State :=
  s.endRow (s.writeRow L d (bytesOf (elemSize s.rowFmt) (rs.map (·.bits))) (orFl rs)) L rd

/-- A row instruction of task and handler mode whose format is allowed, else ILLEGAL_TARGET (R268). -/
def State.vec (s : State) (ok : Bool) (k : State) : State :=
  s.tileOnly (if ok then k else s.raise .illegalTarget s.fmtDetail)

/-- The latency class VI on integer banks and VF otherwise (R93, R221). -/
def State.viVf (s : State) : Nat := if isIntFmt s.rowFmt then 2 else 4

def isArith (f : Byte) : Bool := isIntFmt f || isFpFmt f
def isAnyRow (f : Byte) : Bool := isArith f || isPairFmt f

/-- An exact integer reduced to the element width: it wraps, or clamps and sets SAT (R270). -/
def intElem (f : Byte) (sat : Bool) (i : Int) : FR :=
  let w := 8 * elemSize f
  if sat then let r := clampI (-2 ^ (w - 1)) (2 ^ (w - 1) - 1) fSAT i; ⟨wrapN w r.val, r.flags⟩ else ⟨wrapN w i, 0⟩

def elemInt (f : Byte) (x : Nat) : Int := signedN (8 * elemSize f) x

/-! ### Arithmetic (R270) -/

/-- The two-operand row operations, and the one-operand ones, which ignore the second. -/
inductive RowFn where
  | add | sub | mul | min | max | abs | neg
  deriving DecidableEq, Repr

/-- On integers, exactly. -/
def RowFn.int (g : RowFn) (x y : Int) : Int :=
  match g with
  | .add => x + y
  | .sub => x - y
  | .mul => x * y
  | .min => if y < x then y else x
  | .max => if x < y then y else x
  | .abs => |x|
  | .neg => -x

/-- On FP elements of one format: arithmetic rounded once by RNE, the minima and maxima of R146, and bit operations. -/
def RowFn.fp (g : RowFn) (f : FFmt) (x y : Nat) : FR :=
  match g with
  | .add => f.addV .rne (f.dec x) (f.dec y)
  | .sub => f.addV .rne (f.dec x) (f.dec y).flip
  | .mul => f.mulR .rne (f.dec x) (f.dec y)
  | .min => ⟨f.minMax false x y, 0⟩
  | .max => ⟨f.minMax true x y, 0⟩
  | .abs => ⟨x % f.signBit, 0⟩
  | .neg => ⟨x ^^^ f.signBit, 0⟩

/-- The operation has a meaning on a pair bank (R147). -/
def RowFn.onPairs (g : RowFn) : Bool := g = .min || g = .max

/-- One element of a two-operand row instruction. -/
def RowFn.elem (g : RowFn) (f : Byte) (sat : Bool) (x y : Nat) : FR :=
  match fpOf f with
  | some ff => g.fp ff x y
  | none =>
    if isPairFmt f then
      let r := pairOp (decide (g = .max)) (x % 2 ^ 32, x / 2 ^ 32) (y % 2 ^ 32, y / 2 ^ 32)
      ⟨r.1 + 2 ^ 32 * r.2, 0⟩
    else intElem f sat (g.int (elemInt f x) (elemInt f y))

/-- A two-operand row instruction. -/
def State.rowBin (s : State) (g : RowFn) (d a : Row) (b : VB) (sat : Bool) : State :=
  s.vec (isArith s.rowFmt || (g.onPairs && isPairFmt s.rowFmt))
    (s.rowOp s.viVf (a :: vbRows b) d (List.zipWith (g.elem s.rowFmt sat) (s.row a) (s.vb b)))

/-- `vadd` (R270). -/
def execVadd (d a : Row) (b : VB) (sat : Bool) (s : State) : Result State := .next (s.rowBin .add d a b sat)
/-- `vsub` (R270). -/
def execVsub (d a : Row) (b : VB) (sat : Bool) (s : State) : Result State := .next (s.rowBin .sub d a b sat)
/-- `vmul` (R270). -/
def execVmul (d a : Row) (b : VB) (sat : Bool) (s : State) : Result State := .next (s.rowBin .mul d a b sat)
/-- `vmin` (R270). -/
def execVmin (d a : Row) (b : VB) (sat : Bool) (s : State) : Result State := .next (s.rowBin .min d a b sat)
/-- `vmax` (R270). -/
def execVmax (d a : Row) (b : VB) (sat : Bool) (s : State) : Result State := .next (s.rowBin .max d a b sat)
/-- `vabs` (R270). -/
def execVabs (d a : Row) (sat : Bool) (s : State) : Result State := .next (s.rowBin .abs d a (.row a) sat)
/-- `vneg` (R270). -/
def execVneg (d a : Row) (sat : Bool) (s : State) : Result State := .next (s.rowBin .neg d a (.row a) sat)

/-- One element of `vfma`. -/
def fmaElem (f : Byte) (sat : Bool) (x y z : Nat) : FR :=
  match fpOf f with
  | some ff => ff.fmaV .rne (ff.dec x) (ff.dec y) (ff.dec z)
  | none => intElem f sat (elemInt f x * elemInt f y + elemInt f z)
/-- `vfma` (R270). -/
def execVfma (d a : Row) (b : VB) (c : Row) (sat : Bool) (s : State) : Result State :=
  .next (s.vec (isArith s.rowFmt)
    (s.rowOp s.viVf (a :: c :: vbRows b) d (List.zipWith (fun xy z => fmaElem s.rowFmt sat xy.1 xy.2 z) ((s.row a).zip (s.vb b)) (s.row c))))

/-! ### Logic and shifts (R271) -/

/-- A row instruction on raw elements of w bits, with no flags. -/
def State.rowRaw (s : State) (ok : Bool) (g : Nat → Nat → Nat → Nat) (d a : Row) (b : VB) : State :=
  let w := 8 * elemSize s.rowFmt
  s.vec ok (s.rowOp 2 (a :: vbRows b) d (List.zipWith (fun x y => ⟨g w x y % 2 ^ w, 0⟩) (s.row a) (s.vb b)))

/-- `vand` (R271). -/
def execVand (d a : Row) (b : VB) (s : State) : Result State :=
  .next (s.rowRaw (isAnyRow s.rowFmt) (fun _ x y => x &&& y) d a b)
/-- `vor` (R271). -/
def execVor (d a : Row) (b : VB) (s : State) : Result State :=
  .next (s.rowRaw (isAnyRow s.rowFmt) (fun _ x y => x ||| y) d a b)
/-- `vxor` (R271). -/
def execVxor (d a : Row) (b : VB) (s : State) : Result State :=
  .next (s.rowRaw (isAnyRow s.rowFmt) (fun _ x y => x ^^^ y) d a b)
/-- `vshl` (R271). -/
def execVshl (d a : Row) (b : VB) (s : State) : Result State :=
  .next (s.rowRaw (isIntFmt s.rowFmt) (fun w x y => x <<< (y % w)) d a b)
/-- `vshr` (R271). -/
def execVshr (d a : Row) (b : VB) (s : State) : Result State :=
  .next (s.rowRaw (isIntFmt s.rowFmt) (fun w x y => x >>> (y % w)) d a b)
/-- `vsra` (R271). -/
def execVsra (d a : Row) (b : VB) (s : State) : Result State :=
  .next (s.rowRaw (isIntFmt s.rowFmt) (fun w x y => wrapN w (signedN w x / 2 ^ (y % w))) d a b)
/-- `vnot` (R271). -/
def execVnot (d a : Row) (s : State) : Result State :=
  .next (s.rowRaw (isAnyRow s.rowFmt) (fun w x _ => 2 ^ w - 1 - x) d a (.row a))

/-! ### Compares (R272) -/

/-- The conditions of `vcmp`. -/
inductive Vcc where
  | eq | ne | lt | le | gt | ge
  deriving DecidableEq, Repr

/-- A condition on the sign of a comparison. -/
def Vcc.holds (c : Vcc) (k : Int) : Bool :=
  match c with
  | .eq => k == 0
  | .ne => k != 0
  | .lt => k < 0
  | .le => k ≤ 0
  | .gt => 0 < k
  | .ge => 0 ≤ k

/-- One element of `vcmp`: all ones or zero, with the flags. -/
def cmpElem (f : Byte) (c : Vcc) (u : Bool) (x y : Nat) : FR :=
  let w := 8 * elemSize f
  let out (t : Bool) (fl : Byte) : FR := ⟨if t then 2 ^ w - 1 else 0, fl⟩
  match fpOf f with
  | some ff =>
    let a := ff.dec x
    let b := ff.dec y
    let nan := a.isNan || b.isNan
    let sig := a.isSnan || b.isSnan
    let quiet : Bool := c = .eq || c = .ne
    out (if nan then c = .ne else c.holds (cmpV a b)) (if (if quiet then sig else nan) then fNV else 0)
  | none => out (c.holds (if u then (x : Int) - y else elemInt f x - elemInt f y)) 0

/-- `vcmp.cc` on a bank. -/
def State.rowCmp (s : State) (c : Vcc) (d a : Row) (b : VB) (u : Bool) : State :=
  s.vec (isArith s.rowFmt) (s.rowOp s.viVf (a :: vbRows b) d (List.zipWith (cmpElem s.rowFmt c u) (s.row a) (s.vb b)))

/-- `vcmp.eq` (R272). -/
def execVcmpEq (d a : Row) (b : VB) (u : Bool) (s : State) : Result State := .next (s.rowCmp .eq d a b u)
/-- `vcmp.ne` (R272). -/
def execVcmpNe (d a : Row) (b : VB) (u : Bool) (s : State) : Result State := .next (s.rowCmp .ne d a b u)
/-- `vcmp.lt` (R272). -/
def execVcmpLt (d a : Row) (b : VB) (u : Bool) (s : State) : Result State := .next (s.rowCmp .lt d a b u)
/-- `vcmp.le` (R272). -/
def execVcmpLe (d a : Row) (b : VB) (u : Bool) (s : State) : Result State := .next (s.rowCmp .le d a b u)
/-- `vcmp.gt` (R272). -/
def execVcmpGt (d a : Row) (b : VB) (u : Bool) (s : State) : Result State := .next (s.rowCmp .gt d a b u)
/-- `vcmp.ge` (R272). -/
def execVcmpGe (d a : Row) (b : VB) (u : Bool) (s : State) : Result State := .next (s.rowCmp .ge d a b u)

/-! ### Select, broadcast, permute and move (R273) -/

/-- A row of raw elements, on any bank. -/
def State.rowMove (s : State) (L : Nat) (rd : List Row) (d : Row) (xs : List Nat) : State :=
  s.vec (isAnyRow s.rowFmt) (s.rowOp L rd d (xs.map fun x => ⟨x, 0⟩))

/-- The element count of the bank's rows. -/
def State.rowN (s : State) : Nat := 256 / elemSize s.rowFmt

/-- `vsel` (R273). -/
def execVsel (d m a b : Row) (s : State) : Result State :=
  .next (s.rowMove 2 [m, a, b] d (List.zipWith (fun k xy => if k ≠ 0 then xy.1 else xy.2) (s.row m) ((s.row a).zip (s.row b))))
/-- `vbcast` of a scalar (R273). -/
def execVbcast (d : Row) (a : Sreg) (s : State) : Result State := .next (s.rowMove 2 [] d (s.vb (.scalar a)))
/-- `vbcast` of an element (R273). -/
def execVbcastElement (d a : Row) (b : Sreg) (s : State) : Result State :=
  .next (s.rowMove 2 [a] d (List.replicate s.rowN ((s.row a).getD ((s.sr b).toNat % s.rowN) 0)))
/-- `vperm` (R273). -/
def execVperm (d a b : Row) (s : State) : Result State :=
  .next (s.rowMove 8 [a, b] d ((s.row b).map fun y => (s.row a).getD (y % 256 % s.rowN) 0))
/-- `vperm.rot` (R273). -/
def execVpermRot (d a : Row) (b : Sreg) (s : State) : Result State :=
  .next (s.rowMove 8 [a] d ((List.range s.rowN).map fun i => (s.row a).getD ((i + (s.sr b).toNat) % s.rowN) 0))
/-- `vmov` (R273). -/
def execVmov (d a : Row) (s : State) : Result State := .next (s.rowMove 2 [a] d (s.row a))

/-! ### Conversion (R274) -/

/-- VCvt of R274: the elements of the destination row. -/
def vcvtRow (rm : Rm) (sf df : Byte) (part : Nat) (src old : List Byte) : List FR :=
  let ns := 256 / elemSize sf
  let nd := 256 / elemSize df
  let xs := elemsOf (elemSize sf) src
  if nd ≤ ns then ((xs.drop (part * nd)).take nd).map (convElem rm sf df)
  else
    let os := elemsOf (elemSize df) old
    (os.take (part * ns)).map (fun x => ⟨x, 0⟩) ++ xs.map (convElem rm sf df) ++ (os.drop (part * ns + ns)).map fun x => ⟨x, 0⟩

/-- `vcvt` (R274): only a conversion to narrower elements, which keeps the other parts of the destination, reads it. -/
def execVcvt (rm : Rm) (sf : Fmt7) (part : Fin 4) (d a : Row) (s : State) : Result State :=
  let f : Byte := (Fmt7.code sf).setWidth 8
  let ns := 256 / elemSize f
  let nd := s.rowN
  .next (s.vec (isArith s.rowFmt && decide (part.val < max ns nd / min ns nd))
    (s.rowOp 4 (if ns < nd then [a, d] else [a]) d (vcvtRow rm f s.rowFmt part.val (s.rowBytes a) (s.rowBytes d))))

/-! ### Scans and reductions (R275 to R277) -/

def RedOp.isIndex (o : RedOp) : Bool := o = .maxi || o = .mini

/-- The operator suits the bank (R276). -/
def RedOp.suits (o : RedOp) (f : Byte) : Bool :=
  match o with
  | .iadd | .and | .or | .xor => isIntFmt f
  | .fadd => isFpFmt f
  | .min | .max | .mul => isArith f
  | .maxi | .mini => isFpFmt f || isPairFmt f

/-- The elements an operator works on: widened, and paired with their index on an FP bank for an index operator. -/
def redElems (o : RedOp) (f : Byte) (xs : List Nat) : List Nat :=
  let ys := xs.map fun x => (widenR f x).bits
  if RedOp.isIndex o ∧ isFpFmt f then ys.zipIdx.map fun p => p.1 + 2 ^ 32 * p.2 else ys

/-- The flags of the widening of a row's elements. -/
def widenFl (f : Byte) (xs : List Nat) : Byte := orFl (xs.map (widenR f))

/-- An element of a scan with a NaN in its canonical form, in a pair its value's: the first element too passes no payload on (R136). -/
def quieted (f : Byte) (x : Nat) : Nat :=
  if isFpFmt f then (if (fp32.dec x).isNan then fp32.nan else x)
  else if f = 0x07 then (if (fp32.dec (x % 2 ^ 32)).isNan then fp32.nan + 2 ^ 32 * (x / 2 ^ 32) else x)
  else x

/-- `vscan` (R277). -/
def execVscan (o : RedOp) (d a : Row) (s : State) : Result State :=
  let f := s.rowFmt
  let xs := redElems o f (s.row a)
  let r := seqScan (redOp o (isIntFmt f)) (xs.headD 0) (if RedOp.isIndex o then 0 else widenFl f (s.row a)) (xs.drop 1)
  let ys := r.1.map fun y => narrow f (quieted f y)
  .next (s.vec (RedOp.suits o f && !(RedOp.isIndex o && isFpFmt f))
    (s.endRow (s.writeRow 8 d (bytesOf (elemSize f) (ys.map (·.bits))) (r.2 ||| orFl ys)) 8 [a]))

/-- PairwiseReduce over a row (R145, R277). -/
def State.rowReduce (s : State) (o : RedOp) (a : Row) : FR :=
  pairwise (redOp o (isIntFmt s.rowFmt)) 8 (redElems o s.rowFmt (s.row a)) (widenFl s.rowFmt (s.row a))

/-- `vred` into a row (R277). -/
def execVred (o : RedOp) (d a : Row) (s : State) : Result State :=
  let f := s.rowFmt
  let r := s.rowReduce o a
  let e := elemSize f
  let idx : Bool := RedOp.isIndex o && isFpFmt f
  let n := if idx then narrow f (r.bits % 2 ^ 32) else narrow f r.bits
  let head := if idx then [n.bits, r.bits / 2 ^ 32 % 2 ^ (8 * e)] else [n.bits]
  .next (s.vec (RedOp.suits o f)
    (s.endRow (s.writeRow 8 d (bytesOf e (head ++ List.replicate (s.rowN - head.length) 0)) (if RedOp.isIndex o then 0 else r.flags ||| n.flags))
      8 [a]))

/-- `vred` into a scalar (R277). -/
def execVredScalar (o : RedOp) (d : Sreg) (a : Row) (s : State) : Result State :=
  let f := s.rowFmt
  let r := s.rowReduce o a
  let v : Word := if isIntFmt f then (BitVec.ofNat 32 r.bits).signExtend 64 else BitVec.ofNat 64 r.bits
  .next (s.vec (RedOp.suits o f) (s.endRow (s.writeS 8 d v (if RedOp.isIndex o then 0 else r.flags)) 8 [a]))

/-! ### Special functions (R278, R279) -/

/-- A special function on each element, with the flags of the function, and those of the conversion where `conv` is set. -/
def State.rowSfn (s : State) (g : Nat → FR) (conv : Bool) (d a : Row) : State :=
  let f := s.rowFmt
  s.vec (isFpFmt f) (s.rowOp 12 [a] d ((s.row a).map fun x =>
    let r := g (widen f x)
    let n := narrow f r.bits
    ⟨n.bits, if conv then r.flags ||| n.flags else r.flags⟩))

/-- `vexp2` (R278). -/
def execVexp2 (d a : Row) (s : State) : Result State := .next (s.rowSfn exp2F true d a)
/-- `vlog2` (R278). -/
def execVlog2 (d a : Row) (s : State) : Result State := .next (s.rowSfn log2F true d a)
/-- `vrcp` (R278). -/
def execVrcp (d a : Row) (s : State) : Result State := .next (s.rowSfn rcpF true d a)
/-- `vrsq` (R278). -/
def execVrsq (d a : Row) (s : State) : Result State := .next (s.rowSfn rsqF true d a)
/-- `vtanh` (R279). -/
def execVtanh (d a : Row) (s : State) : Result State := .next (s.rowSfn tanhF false d a)
/-- `vsig` (R279). -/
def execVsig (d a : Row) (s : State) : Result State := .next (s.rowSfn sigF false d a)

end Sys2Proof.Machine
end

