-- ==== Sys2Proof/Machine/Micro.lean ====
section
/-!
DEFINITION. Micro-programs and expressions (spec/14 R280 to R284).
-/

namespace Sys2Proof.Machine

/-! ### Micro-programs (R280 to R282) -/

/-- Operation codes on FP banks, and on integer banks (R281). -/
def mpFp (c : Nat) : Bool := 1 ≤ c && c ≤ 0x0C
def mpInt (c : Nat) : Bool := 0x10 ≤ c && c ≤ 0x1A
def mpUnary (c : Nat) : Bool := 7 ≤ c && c ≤ 0x0C

/-- An entry of an operation table, or none for a reserved code or a set reserved bit (R281). -/
def mpEntry (e : Word) : Option MpEntry :=
  let c := (e.extractLsb' 0 8).toNat
  let k : BitVec 2 := e.extractLsb' 13 2
  let r : BitVec 5 := e.extractLsb' 8 5
  let imm : BitVec 32 := e.extractLsb' 32 32
  if (mpFp c || mpInt c) && e.extractLsb' 15 17 == 0 && (k == 0 || r == 0) && (k == 1 || imm == 0)
      && (!mpUnary c || (k == 0 && r == 0)) then
    some ⟨e.extractLsb' 0 8, k, r.toFin, imm⟩
  else none

/-- `mpdef` (R281). -/
def execMpdef (slot : Fin 4) (off : BitVec 22) (n1 : BitVec 4) (s : State) : Result State :=
  let n := n1.toNat + 1
  let base := s.tableAt off
  .next (s.tileOnly (s.withTable base ((8 * n + 63) / 64) fun bs =>
    let es : List Word := (List.range n).map fun k => BitVec.ofNat 64 (leNat (bytesAt bs (8 * k) 8))
    match es.findIdx? fun e => (mpEntry e).isNone with
    | some k => s.raise .illegalTarget ((base.setWidth 64) + BitVec.ofNat 64 (8 * k))
    | none => s.finish (s.modHereTile fun T => { T with slots := T.slots.set slot.val (es.filterMap mpEntry) })))

/-- One FP operation on FP32 encodings. -/
def mpFpOp (c t y : Nat) : FR :=
  match c with
  | 0x01 => f32add t y
  | 0x02 => f32sub t y
  | 0x03 => f32sub y t
  | 0x04 => f32mul t y
  | 0x05 => fp32.minMaxR false t y
  | 0x06 => fp32.minMaxR true t y
  | 0x07 => ⟨t % 2 ^ 31, 0⟩
  | 0x08 => ⟨t ^^^ 2 ^ 31, 0⟩
  | 0x09 => exp2F t
  | 0x0A => log2F t
  | 0x0B => rcpF t
  | 0x0C => rsqF t
  | _ => ⟨t, 0⟩

/-- One integer operation on INT32 values. -/
def mpIntOp (c t y : Nat) : Nat :=
  let a := signedN 32 t
  let b := signedN 32 y
  match c with
  | 0x10 => wrapN 32 (a + b)
  | 0x11 => wrapN 32 (a - b)
  | 0x12 => wrapN 32 (a * b)
  | 0x13 => wrapN 32 (min a b)
  | 0x14 => wrapN 32 (max a b)
  | 0x15 => t &&& y
  | 0x16 => t ||| y
  | 0x17 => t ^^^ y
  | 0x18 => t <<< (y % 32) % 2 ^ 32
  | 0x19 => t >>> (y % 32)
  | 0x1A => wrapN 32 (a / 2 ^ (y % 32))
  | _ => t

/-- One operation of a micro-program on the temporary. -/
def mpOp (c t y : Nat) : FR := if mpFp c then mpFpOp c t y else ⟨mpIntOp c t y, 0⟩

/-- The second operand of an entry: a scalar, an immediate, or an element of row b or c, widened. -/
def State.mpArg (s : State) (e : MpEntry) (b c : Nat) : Nat :=
  match e.k.toNat with
  | 0 => f32 (s.sr e.reg)
  | 1 => e.imm.toNat
  | 2 => b
  | _ => c

/-- The flags of the widening of the row elements that a micro-program reads (R139). -/
def mpFl (es : List MpEntry) (a b c : FR) : Byte :=
  a.flags ||| (if es.any (·.k = 2) then b.flags else 0) ||| (if es.any (·.k = 3) then c.flags else 0)

/-- MpRun of R282 on one element, from widened inputs. -/
def State.mpElem (s : State) (es : List MpEntry) (a b c : FR) : FR :=
  let r := es.foldl (fun (r : FR) e => let x := mpOp e.code.toNat r.bits (s.mpArg e b.bits c.bits); ⟨x.bits, r.flags ||| x.flags⟩)
    ⟨a.bits, mpFl es a b c⟩
  let n := narrow s.rowFmt r.bits
  ⟨n.bits, r.flags ||| n.flags⟩

/-- A slot's operations suit the bank. -/
def mpSuits (f : Byte) (es : List MpEntry) : Bool :=
  es.all fun e => if mpFp e.code.toNat then isFpFmt f else isIntFmt f

/-- `mprun` (R282). -/
def execMprun (slot : Fin 4) (d a b c : Row) (s : State) : Result State :=
  let es := s.hereTile.slots[slot]
  let w := widenR s.rowFmt
  let rd := a :: ((if es.any (·.k = 2) then [b] else []) ++ if es.any (·.k = 3) then [c] else [])
  .next (s.vec (!es.isEmpty && mpSuits s.rowFmt es)
    (s.rowOp (3 + 2 * es.length) rd d (List.zipWith (fun x yz => s.mpElem es (w x) (w yz.1) (w yz.2)) (s.row a) ((s.row b).zip (s.row c)))))

/-! ### Expressions (R283, R284) -/

/-- A binary operator of an expression, on FP32 or INT32. -/
def exprBin (isInt : Bool) (tok x y : Nat) : FR :=
  match tok with
  | 5 => if isInt then ⟨mpIntOp 0x10 x y, 0⟩ else f32add x y
  | 6 => if isInt then ⟨mpIntOp 0x11 x y, 0⟩ else f32sub x y
  | 7 => if isInt then ⟨mpIntOp 0x12 x y, 0⟩ else f32mul x y
  | 8 => if isInt then ⟨mpIntOp 0x13 x y, 0⟩ else fp32.minMaxR false x y
  | _ => if isInt then ⟨mpIntOp 0x14 x y, 0⟩ else fp32.minMaxR true x y

/-- A unary operator: negation (0xB) or absolute value (0xC). On FP32 it acts on the sign bit, as `fneg` and `fabs` do: a NaN keeps its payload, and no
flag is set (R283 says only -x and |x|; DEDUCED, log entry 66). -/
def exprUn (isInt : Bool) (tok x : Nat) : Nat :=
  if isInt then (if tok = 0xB then wrapN 32 (-signedN 32 x) else wrapN 32 |signedN 32 x|)
  else if tok = 0xB then x ^^^ 2 ^ 31 else x % 2 ^ 31

def exprMadd (isInt : Bool) (x y z : Nat) : FR :=
  if isInt then ⟨wrapN 32 (signedN 32 x * signedN 32 y + signedN 32 z), 0⟩ else f32fma x y z

/-- The lane's stack after one token, with the flags so far (R283). -/
def exprTok (isInt : Bool) (a b c d tok : Nat) (st : List Nat) (fl : Byte) : List Nat × Byte :=
  match tok, st with
  | 1, _ => (a :: st, fl)
  | 2, _ => (b :: st, fl)
  | 3, _ => (c :: st, fl)
  | 4, _ => (d :: st, fl)
  | 0xA, z :: y :: x :: r => let v := exprMadd isInt x y z; (v.bits :: r, fl ||| v.flags)
  | 0xB, x :: r => (exprUn isInt 0xB x :: r, fl)
  | 0xC, x :: r => (exprUn isInt 0xC x :: r, fl)
  | 0xD, x :: r => (x :: x :: r, fl)
  | 0xE, y :: x :: r => (x :: y :: r, fl)
  | 0xF, _ => (0 :: st, fl)
  | _, y :: x :: r => let v := exprBin isInt tok x y; (v.bits :: r, fl ||| v.flags)
  | _, _ => (st, fl)

/-- The token word evaluated from token k on. -/
def exprRun (w : Word) (isInt : Bool) (a b c d : Nat) : (fuel k : Nat) → List Nat → Byte → FR
  | 0, _, st, fl => ⟨st.headD 0, fl⟩
  | n + 1, k, st, fl =>
    if exprToken w k = 0 then ⟨st.headD 0, fl⟩
    else let r := exprTok isInt a b c d (exprToken w k) st fl; exprRun w isInt a b c d n (k + 1) r.1 r.2

/-- The operator tokens of a token word. -/
def exprOps (w : Word) : Nat := (List.range 16).countP fun k => 5 ≤ exprToken w k && exprToken w k ≤ 0xC

/-- A token of a token word pushes an input. -/
def exprUses (w : Word) (tok : Nat) : Bool := (List.range 16).any fun k => exprToken w k = tok

/-- The flags of the widening of an input that the token word reads (R139). -/
def exprFl (w : Word) (tok : Nat) (x : FR) : Byte := if exprUses w tok then x.flags else 0

/-- One element of an expression, from raw elements. -/
def exprElem (f : Byte) (w : Word) (a b c d : Nat) : FR :=
  let wd := widenR f
  let r := exprRun w (isIntFmt f) (wd a).bits (wd b).bits (wd c).bits (wd d).bits 16 0 []
    (exprFl w 1 (wd a) ||| exprFl w 2 (wd b) ||| exprFl w 3 (wd c) ||| exprFl w 4 (wd d))
  let n := narrow f r.bits
  ⟨n.bits, r.flags ||| n.flags⟩

/-- `expr` (R284). -/
def execExpr (w : Word) (d a b c : Row) (s : State) : Result State :=
  .next (s.vec (isArith s.rowFmt)
    (s.rowOp (4 + 2 * exprOps w) ([(1, a), (2, b), (3, c), (4, d)].filterMap fun x => if exprUses w x.1 then some x.2 else none) d
      (List.zipWith (fun xy zd => exprElem s.rowFmt w xy.1 xy.2 zd.1 zd.2) ((s.row a).zip (s.row b)) ((s.row c).zip (s.row d)))))

end Sys2Proof.Machine
end

