-- ==== Sys2Proof/Machine/Matrix.lean ====
section
/-!
DEFINITION. Matrix commands and quantisation (spec/15 R285 to R298): the checks at issue, what a command computes when it
runs, the pod's arbiter and array (spec/05 R112, R114), and the rows MATRIX_COMMAND_CHOSEN, MATRIX_COMMAND_COMPLETE and
QUANT_COMPLETE.
-/

namespace Sys2Proof.Machine

/-! ### Operand extents and banks (R285, R288) -/

/-- The banks of a buffer that hold an in-range byte of a range. -/
def banksOf (b : Buf) (a n : Nat) : List Nat :=
  let k := min n (Config.bufSize b - a)
  if k = 0 then [] else (List.range ((a + k - 1) / Config.bankSize b + 1 - a / Config.bankSize b)).map (a / Config.bankSize b + ·)

/-- The format code of a bank. -/
def Tile.bankFmt (T : Tile) (b : Buf) (k : Nat) : Byte :=
  T.fmt.toList.getD ((match b with | .w => 0 | .a => 16 | .c => 32) + k) 0

/-- The first format code, in the order of the ranges, that differs from a code. -/
def Tile.otherCode (T : Tile) (b : Buf) (c : Byte) (ranges : List (Nat × Nat)) : Option Byte :=
  ranges.findSome? fun r => ((banksOf b r.1 r.2).map (T.bankFmt b)).find? fun x => x != c

/-- The kept values per group. -/
def Keep.count : Keep → Nat
  | .n32 => 32
  | .n16 => 16
  | .n8 => 8

def isFp16ish (c : Byte) : Bool := c = 0x04 || c = 0x05
def isInt8ish (c : Byte) : Bool := c = 0x00 || c = 0x01

/-- The pairing of an A and a W format (R286). -/
def mmaPaired (af wf : Byte) : Bool :=
  if isFp16ish af then isFp16ish wf || bfpBits wf != 0
  else if isInt8ish af then isInt8ish wf || wf = 0x02
  else if af = 0x02 then isInt8ish wf || wf = 0x02
  else false

/-- The C format that an A format requires (R286). -/
def mmaCFmt (af : Byte) : Byte := if isFp16ish af then 0x06 else 0x03

/-- Array cycles of a K-group, in 32nds (R286). -/
def groupCycles32 (af wf : Byte) (n : Nat) : Nat :=
  if bfpBits wf != 0 then bfpBits wf * n
  else if isFp16ish af then 16 * n
  else if isInt8ish af && isInt8ish wf then 8 * n
  else 32 * n

/-- Bytes of the W operand of K/32 groups of N kept values. -/
def wBytes (wf : Byte) (k n : Nat) : Nat :=
  if bfpBits wf = 0 then k / 32 * 64 * n * elemSize wf else k / 32 * 64 * n / 32 * (4 * bfpBits wf)

/-- The A row pitch in bytes. -/
def aPitch (pitch k e : Nat) : Nat := if pitch = 0 then k * e else 64 * pitch

/-- The A operand's rows as ranges. -/
def aRows (aoff pitch len : Nat) : List (Nat × Nat) := (List.range 64).map fun m => (aoff + m * pitch, len)

/-- A BFP operand of some blocks at an offset lies at a block boundary in the mantissa area of one bank, below nb (R288, R297). -/
def bfpPlaced (wf : Byte) (woff blocks : Nat) : Bool :=
  let b := bfpBits wf
  let o := woff % 24576
  decide (o % (4 * b) = 0) && decide (o / (4 * b) < bfpBlocks b) && decide (o / (4 * b) + blocks ≤ bfpBlocks b)

/-- The first check of R288 that an `mma` fails: reason and value. -/
def Tile.mmaCheck (T : Tile) (af : Byte) (n k pitch aoff woff bank : Nat) : Option (Nat × Nat) :=
  if k % 32 ≠ 0 ∨ k < 32 ∨ 4096 < k then some (1, k)
  else
    let e := elemSize af
    match T.otherCode .a af (aRows aoff (aPitch pitch k e) (k * e)) with
    | some c => some (2, c.toNat)
    | none =>
      let wf := T.fmtAt .w woff
      let inW : Bool := decide (woff < Config.bufSize .w)
      if inW && !(mmaPaired af wf && (T.otherCode .w wf [(woff, wBytes wf k n)]).isNone) then
        some (3, wf.toNat)
      else
        let cf := T.bankFmt .c bank
        if cf ≠ mmaCFmt af then some (4, cf.toNat)
        else if !inW || (if bfpBits wf = 0 then decide (woff % 64 ≠ 0) else !bfpPlaced wf woff (k / 32 * 64 * n / 32)) then some (5, woff)
        else none

/-- A refused matrix or quantisation command: ILLEGAL_TARGET with reason and value, else it is queued (R288, R297). -/
def State.queued (s : State) (c : Option (Nat × Nat)) (kind : OpKind) (tok : TokF) : State :=
  match c with
  | some r => s.raise .illegalTarget (s.reason r.1 r.2)
  | none => s.engine kind tok

/-! ### What a command reads -/

/-- A BF16 or FP16 operand with its subnormals flushed to a zero of the same sign, and whether it was flushed (R138). -/
def flushV (f : FFmt) (x : Nat) : FV × Bool :=
  let v := f.dec x
  let sub : Bool := decide (x % f.signBit < 2 ^ f.fb) && decide (x % f.signBit ≠ 0)
  (if sub then .fin v.neg? 0 0 else v, sub)

/-- The bytes of an operand range, out-of-range bytes zero (R288, R101). -/
def Tile.operand (T : Tile) (b : Buf) (a n : Nat) : List Byte := T.readBuf b a n

/-- Elements of an FP operand with the flush flag of all of them. -/
def fpOperand (f : FFmt) (xs : List Nat) : List FV × Bool :=
  let r := xs.map (flushV f)
  (r.map (·.1), r.any (·.2))

/-- The blocks of a BFP weight operand: each its exponent byte and its mantissa bytes (R285). -/
def Tile.bfpBytes (T : Tile) (wf : Byte) (woff blocks : Nat) : List (List Byte) :=
  let b := bfpBits wf
  let base := woff / 24576 * 24576
  let j0 := woff % 24576 / (4 * b)
  (List.range blocks).map fun k => T.readBuf .w (base + bfpExpOff b (j0 + k)) 1 ++ T.readBuf .w (base + 4 * b * (j0 + k)) (4 * b)

/-- The units of n values of consecutive BFP blocks (R285). -/
def bfpUnitsOf (wf : Byte) (n : Nat) (blocks : List (List Byte)) : List (List Nat) :=
  let b := bfpBits wf
  blocks.flatMap fun x =>
    let ms := (blockMants b (x.drop 1)).map (blockDecode1 (leNat (x.take 1)) b)
    (List.range (32 / n)).map fun u => (ms.drop (u * n)).take n

/-- The units of a BFP weight operand: n values each, from consecutive blocks (R285). -/
def Tile.bfpUnits (T : Tile) (wf : Byte) (woff blocks n : Nat) : List (List Nat) := bfpUnitsOf wf n (T.bfpBytes wf woff blocks)

/-- Units of n elements. -/
def unitsOf (n : Nat) (xs : List Nat) : List (List Nat) := (List.range (xs.length / n)).map fun u => (xs.drop (u * n)).take n

/-- Expand of R290: kept values at the marked positions k to 31 of a mask. -/
def expandW {α : Type} (zero : α) (mask : Nat) : (fuel k : Nat) → List α → List α
  | 0, _, _ => []
  | f + 1, k, vs =>
    match vs with
    | v :: r => if mask.testBit k then v :: expandW zero mask f (k + 1) r else zero :: expandW zero mask f (k + 1) vs
    | [] => zero :: expandW zero mask f (k + 1) []

/-- The weights of a group's column: the unit, or the unit expanded by the column's mask. -/
def weightsOf {α : Type} (zero : α) (masks : Option (List Byte)) (n : Nat) (vs : List α) : List α :=
  match masks with
  | none => vs
  | some m => expandW zero (leNat (bytesAt m (4 * n) 4)) 32 0 vs

/-- One group of FP pairings on the accumulator rows. -/
def groupFp (c : List (List Nat)) (a w : List (List FV)) : List (List FR) :=
  List.zipWith (fun cr ar => List.zipWith (fun x wn => mmaGroup x (ar.zip wn)) cr w) c a
/-- One group of integer pairings. -/
def groupInt (c : List (List Nat)) (a w : List (List Int)) : List (List FR) :=
  List.zipWith (fun cr ar => List.zipWith (fun x wn => ⟨mmaGroupInt x (ar.zip wn), 0⟩) cr w) c a

/-- The groups of MmaRun in increasing order: a and w by group. -/
def mmaLoop {α : Type} (step : List (List Nat) → List (List α) → List (List α) → List (List FR)) :
    List (List (List α) × List (List α)) → List (List Nat) → Byte → List (List Nat) × Byte
  | [], c, fl => (c, fl)
  | (a, w) :: gs, c, fl =>
    let r := step c a w
    mmaLoop step gs (r.map fun row => row.map (·.bits)) (r.foldl (fun f row => f ||| orFl row) fl)

/-- The operand bytes of a matrix command: the A rows, the W range or blocks, and the C bank. -/
def Tile.fetchOps (T : Tile) (k : OpKind) : List (List Byte) × List (List Byte) × List Byte :=
  match k with
  | .mma af n _ k pitch aoff woff wf _ bank =>
    let e := elemSize af
    ((aRows aoff (aPitch pitch k e) (k * e)).map fun r => T.readBuf .a r.1 r.2,
     if bfpBits wf = 0 then [T.readBuf .w woff (wBytes wf k n)] else T.bfpBytes wf woff (k / 32 * 64 * n / 32),
     T.readBuf .c (16384 * bank) 16384)
  | .mldt af pitch aoff _ _ =>
    let e := elemSize af
    ((aRows aoff (aPitch pitch 64 e) (64 * e)).map fun r => T.readBuf .a r.1 r.2, [], [])
  | _ => ([], [], [])

/-- A matrix command fetches its operands as it starts streaming (R289, R294; log entry 4). -/
def EngOp.fetch (o : EngOp) (T : Tile) : EngOp :=
  let r := T.fetchOps o.kind
  { o with fetchA := r.1, fetchW := r.2.1, fetchC := r.2.2 }

/-- MmaRun of R289 on the operand bytes fetched: the bank's bytes and the flags. -/
def mmaRun (af : Byte) (n k : Nat) (wf : Byte) (fa fw : List (List Byte)) (fc : List Byte) (masks : List (List Byte)) : List Byte × Byte :=
  let e := elemSize af
  let rows := fa.map (elemsOf e)
  let units := if bfpBits wf = 0 then unitsOf n (elemsOf (elemSize wf) (fw.headD [])) else bfpUnitsOf wf n fw
  let mask (g : Nat) : Option (List Byte) := if n = 32 then none else some (masks.getD g [])
  let c := unitsOf 64 (elemsOf 4 fc)
  match fpOf af with
  | some f =>
    let ar := rows.map (fpOperand f)
    let wf' : FFmt := (fpOf wf).getD fp32
    let wu : List (List FV × Bool) := if bfpBits wf = 0 then units.map (fpOperand wf') else units.map fun u => (u.map fp32.dec, false)
    let daz : Bool := ar.any (·.2) || wu.any (·.2)
    let gs := (List.range (k / 32)).map fun g =>
      (ar.map fun r => (r.1.drop (32 * g)).take 32,
       (((wu.drop (64 * g)).take 64).zipIdx).map fun u => weightsOf (.fin false 0 0) (mask g) u.2 u.1.1)
    let r := mmaLoop groupFp gs c 0
    (bytesOf 4 r.1.flatten, r.2 ||| if daz then fDAZ else 0)
  | none =>
    let gs := (List.range (k / 32)).map fun g =>
      (rows.map fun r => ((r.drop (32 * g)).take 32).map (intVal af),
       (((units.drop (64 * g)).take 64).zipIdx).map fun u => weightsOf (0 : Int) (mask g) u.2 (u.1.map (intVal wf)))
    let r := mmaLoop groupInt gs c 0
    (bytesOf 4 r.1.flatten, 0)

/-- Flags that the matrix unit and the engines set (R137). -/
def engFlags (f : Byte) : Byte := f &&& (fDAZ ||| fSAT ||| fNV ||| fOF)

/-- `mldt` of R291: element (n, m) of C is the conversion of element (m, n) of A. -/
def mldtRun (af cf : Byte) (fa : List (List Byte)) : List Byte × Byte :=
  let rows := fa.map (elemsOf (elemSize af))
  let conv (x : Nat) : FR :=
    if isFp16ish af then
      let f := (fpOf af).getD fp16
      let fl := (flushV f x).2
      let r := convElem .rne af cf (if fl then x / f.signBit * f.signBit else x)
      ⟨r.bits, r.flags ||| if fl then fDAZ else 0⟩
    else convElem .rne af cf x
  let out := (List.range 64).map fun n => (List.range 64).map fun m => conv ((rows.getD m []).getD n 0)
  (bytesOf 4 (out.flatten.map (·.bits)), engFlags (orFl out.flatten))

/-! ### Issue (R287 to R292, R297) -/

/-- `mma` (R288, R289). -/
def execMma (af : Fmt7) (n : Keep) (q : Fin 4) (k : Sreg) (pitch aoff : BitVec 12) (woff : BitVec 19) (bank : Fin 8) (tok : TokF)
    (s : State) : Result State :=
  let f : Byte := (Fmt7.code af).setWidth 8
  let kk := (s.sr k).toNat
  .next (s.tileOnly (s.queued
    (s.hereTile.mmaCheck f (Keep.count n) kk pitch.toNat (64 * aoff.toNat) woff.toNat bank.val)
    (.mma f (Keep.count n) q kk pitch.toNat (64 * aoff.toNat) woff.toNat (s.hereTile.fmtAt .w woff.toNat) (mmaCFmt f) bank.val) tok))

/-- `mldt` (R291). -/
def execMldt (af : Fmt7) (pitch aoff : BitVec 12) (bank : Fin 8) (tok : TokF) (s : State) : Result State :=
  let f : Byte := (Fmt7.code af).setWidth 8
  let T := s.hereTile
  let cf := T.bankFmt .c bank.val
  let e := elemSize f
  .next (s.tileOnly (s.queued
    (match T.otherCode .a f (aRows (64 * aoff.toNat) (aPitch pitch.toNat 64 e) (64 * e)) with
    | some c => some (2, c.toNat)
    | none => if cf = 0x06 ∨ cf = 0x03 then none else some (4, cf.toNat))
    (.mldt f pitch.toNat (64 * aoff.toNat) cf bank.val) tok))

/-- `mzero` (R292). -/
def execMzero (bank : Fin 8) (tok : TokF) (s : State) : Result State := .next (s.tileOnly (s.queued none (.mzero bank.val) tok))

/-- The source ranges of a quantisation of n blocks. -/
def quantRanges (col : Bool) (off pitch e n : Nat) : List (Nat × Nat) :=
  let P := if pitch = 0 then 64 * e else 64 * pitch
  if col then ((List.range (n / 64 * 32)).map fun r => (off + r * P, 64 * e)) ++
    if n % 64 = 0 then [] else (List.range 32).map fun i => (off + (n / 64 * 32 + i) * P, n % 64 * e)
  else [(off, 32 * n * e)]

/-- The first check of R297 that a `quant` fails. A source of no blocks, or one that lies past the buffer, touches no bank. -/
def Tile.quantCheck (T : Tile) (col : Bool) (src : Buf) (off pitch emax n woff : Nat) : Option (Nat × Nat) :=
  let wf := T.fmtAt .w woff
  if bfpBits wf = 0 ∨ Config.bufSize .w ≤ woff ∨ !bfpPlaced wf woff n then some (6, woff)
  else
    let sf := T.fmtAt src off
    match T.otherCode src sf (quantRanges col off pitch (elemSize sf) n) with
    | some c => some (7, c.toNat)
    | none =>
      if sf = 0x07 ∧ 0 < n ∧ off < Config.bufSize src then some (7, 7)
      else if n = 0 ∨ (col ∧ n % 64 ≠ 0) then some (8, n)
      else if emax = 0 ∨ emax = 255 then some (8, emax)
      else none

/-! ### The pod's sequencer (R112, R294) -/

/-- Commands of a pod, in queue order. -/
def State.podOps (s : State) (p pod : Nat) : List EngOp :=
  s.ops.filter fun o => o.live && (match o.agent with | .tile q t => decide (q = p) && decide (t / 8 = pod) | .ctrl _ => false)

/-- The first pending matrix command of a tile. -/
def State.pendingMatrix (s : State) (p t : Nat) : Option EngOp :=
  s.ops.find? fun o => o.live && o.isMatrix && decide (o.agent = .tile p t) && decide (o.st = .queued)

/-- A matrix command of a tile is under way: its next can be chosen once it has completed (R294). -/
def State.matrixBusy (s : State) (p t : Nat) : Bool :=
  s.ops.any fun o => o.live && o.isMatrix && decide (o.agent = .tile p t) && decide (o.st ≠ .queued)

/-- A tile's weight: 0 acts as 1 (R112). -/
def Partition.weight (P : Partition) (t : Nat) : Nat :=
  let w := (P.podWeight t).toNat / 16 ^ (t % 8) % 16
  if w = 0 then 1 else w

/-- The tile that a pod's arbiter visits, and how many of its commands the visit may still start: the visit goes on while commands are
pending and the tile's weight, read as the visit began, allows; then the arbiter visits the next tile with pending commands (R112). -/
def State.visit (s : State) (p pod : Nat) : Option (Nat × Nat) :=
  let P := s.part p
  let (v, left) := P.arb.getD pod (7, 0)
  let pend (t : Nat) : Bool := (s.pendingMatrix p (8 * pod + t)).isSome
  if 0 < left ∧ pend v then some (v, left)
  else (((List.range 8).map fun k => (v + 1 + k) % 8).find? pend).map fun t => (t, P.weight (8 * pod + t))

/-- The arbiter's choice in a pod: the first pending command of the tile it visits, once the tile's previous one has completed; with the
new place of the arbiter (R112, R294). -/
def State.arbiter (s : State) (p pod : Nat) : Option (EngOp × Nat × Nat) :=
  (s.visit p pod).bind fun v =>
    if s.matrixBusy p (8 * pod + v.1) then none
    else (s.pendingMatrix p (8 * pod + v.1)).map fun o => (o, v.1, v.2 - 1)

/-- Port cycles of a command (R294). -/
def EngOp.portCycles (o : EngOp) : Nat :=
  let up (x : Nat) : Nat := (x + 255) / 256
  match o.kind with
  | .mma af n _ k _ _ _ wf _ _ => max (max (up (64 * k * elemSize af)) (up (wBytes wf k n))) 128
  | .mldt af .. => max (up (4096 * elemSize af)) 64
  | _ => 64

/-- Array cycles of a command (R294). -/
def EngOp.arrayCycles (o : EngOp) : Nat :=
  match o.kind with
  | .mma af n _ k _ _ _ wf _ _ => (k / 32 * groupCycles32 af wf n + 31) / 32
  | .mldt .. => 16
  | _ => 0

/-- The sparsity entries a command pops, and from which queue (R114, R290). -/
def EngOp.pops (o : EngOp) : Nat × Nat :=
  match o.kind with
  | .mma _ n q k .. => if n = 32 then (0, 0) else (q.val, k / 32)
  | _ => (0, 0)

/-- The command at the head of the array: the one of the pod chosen first whose array work is not yet fixed. -/
def State.arrayHead (s : State) (p pod : Nat) : Option EngOp :=
  let rs := (s.podOps p pod).filter fun o => o.isMatrix && decide (o.st = .running)
  rs.foldl (fun m o => match m with
    | none => some o
    | some x => if o.prog0 < x.prog0 then some o else some x) none

/-- The command at the head of the array pops what its queue holds; once it has all its entries, its completion is due (R294). -/
def State.arrayStep (s : State) (p pod : Nat) : State :=
  match s.arrayHead p pod with
  | none => s
  | some o =>
    let (q, need) := o.pops
    let t := agentTile o.agent
    let have_ := (s.tile p t).queues.toList.getD q []
    let k := min (need - o.masks.length) have_.length
    let s1 := if k = 0 then s else (s.modTile p t fun T => { T with queues := T.queues.setIfInBounds q (have_.drop k) }).modOp o.id
      fun o => { o with masks := o.masks ++ have_.take k }
    if o.masks.length + k < need then s1
    else
      let prev := (s.part p).arrayEnd.getD pod 0
      let s_c := max o.stamp prev
      let stall := if need = 0 then 0 else s.cycle
      let e_c := max (max (s_c + o.arrayCycles) (o.stamp + o.portCycles)) stall
      ((s1.modOp o.id fun o => { o with st := .moved }).modPart p fun P => { P with arrayEnd := P.arrayEnd.set pod e_c }).schedule
        (e_c + 16 - s.cycle) .matrixCommandComplete { p := p, t := t, op := o.id }

/-- Array steps while commands can be fixed: at most eight are chosen. -/
def State.arraySteps (s : State) (p pod : Nat) : State := (List.range 8).foldl (fun s _ => s.arrayStep p pod) s

/-- A command is chosen: it starts streaming its operands, which it fetches (R289, R294). -/
def chooseMatrix (s : State) (p pod : Nat) : State :=
  match s.arbiter p pod with
  | none => s
  | some (o, v, used) =>
    ((s.modOp o.id fun o => { o.fetch (s.forkView o) with st := .running, stamp := s.cycle, prog0 := BitVec.ofNat 32 s.fresh }).modPart p fun P =>
      { P with arb := P.arb.set pod (v, used) }) |> fun s => ({ s with fresh := s.fresh + 1 } : State).arraySteps p pod

/-- The first out-of-range byte that a command's operands reach, in A and in W, recorded in %oob (R288). -/
def noteOperandOob (o : EngOp) (t : Thread) : Thread :=
  let aRec (t : Thread) (rs : List (Nat × Nat)) : Thread := match rs.findSome? fun r => oobByte .a r.1 r.2 with
    | some x => t.recordOob 1 false x
    | none => t
  match o.kind with
  | .mma af n _ k pitch aoff woff wf _ _ =>
    let t := aRec t (aRows aoff (aPitch pitch k (elemSize af)) (k * elemSize af))
    match oobByte .w woff (wBytes wf k n) with
    | some x => t.recordOob 0 false x
    | none => t
  | .mldt af pitch aoff _ _ => aRec t (aRows aoff (aPitch pitch 64 (elemSize af)) (64 * elemSize af))
  | _ => t

/-- A matrix command's result from the operands it fetched: its bank's bytes and flags. -/
def EngOp.matrixRun (o : EngOp) : Nat × List Byte × Byte :=
  match o.kind with
  | .mma af n _ k _ _ _ wf _ bank => (bank, mmaRun af n k wf o.fetchA o.fetchW o.fetchC o.masks)
  | .mldt af _ _ cf bank => (bank, mldtRun af cf o.fetchA)
  | .mzero bank => (bank, List.replicate 16384 0, 0)
  | _ => (0, [], 0)

/-- A matrix command completes: its C bytes are latent, its flags set, its token falls (R289, R294). -/
def completeMatrix (s : State) (id : Nat) : State :=
  match s.op? id with
  | none => s
  | some o => match o.agent with
    | .ctrl _ => s
    | .tile p t =>
      if o.st ≠ .moved ∨ !o.isMatrix then s
      else
        let r := o.matrixRun
        ((s.opWrite o .matrix 8 p t .c (16384 * r.1) r.2.1).modThread o.agent o.th (noteOperandOob o)).opDone id (engFlags r.2.2)

/-- MATRIX_COMMAND_CHOSEN (R294) in pod `arg.n` of partition `arg.p`. -/
def execMatrixCommandChosen (s : State) : Result State := .next (chooseMatrix s s.arg.p s.arg.n)
/-- MATRIX_COMMAND_COMPLETE (R294) of the operation `arg.op`. -/
def execMatrixCommandComplete (s : State) : Result State := .next (completeMatrix s s.arg.op)

/-! ### Quantisation (R296 to R298) -/

/-- QuantRun of R297, which sets SAT alone: the blocks with their places in the bank: offset and bytes, and whether one saturated. -/
def Tile.quantRun (T : Tile) (col : Bool) (src : Buf) (off pitch : Nat) (sf : Byte) (emax n woff : Nat) (wf : Byte) :
    List (Nat × List Byte) × Byte :=
  let b := bfpBits wf
  let e := elemSize sf
  let base := woff / 24576 * 24576
  let j0 := woff % 24576 / (4 * b)
  let P := if pitch = 0 then 64 * e else 64 * pitch
  let src1 (a : Nat) : FR := convElem .rne sf 0x06 (leNat (T.readBuf src a e))
  let ins := (List.range n).map fun u =>
    (List.range 32).map fun i => if col then src1 (off + (32 * (u / 64) + i) * P + u % 64 * e) else src1 (off + (32 * u + i) * e)
  let blks := ins.zipIdx.map fun x => (x.2, blockEncode (x.1.map (·.bits)) b emax)
  (blks.flatMap fun x => [(base + 4 * b * (j0 + x.1), blockBytes b x.2.m), (base + bfpExpOff b (j0 + x.1), [BitVec.ofNat 8 x.2.e])],
   if blks.any fun x => x.2.sat then fSAT else 0)

/-- The first pending command of a pod's quantisation engine starts when none runs: 20 cycles and one a block (R298). -/
def startQuant (s : State) (p pod : Nat) : State :=
  let qs := (s.podOps p pod).filter fun o => match o.kind with | .quant .. => true | _ => false
  match qs with
  | [] => s
  | o :: _ =>
    if o.st ≠ .queued then s
    else
      let n := match o.kind with | .quant _ _ _ _ _ _ n _ _ => n | _ => 0
      (s.modOp o.id fun o => { o with st := .running, stamp := s.cycle }).schedule (20 + n) .quantComplete { p := p, n := pod, op := o.id }

/-- A quantisation command completes, and the next starts (R298). -/
def completeQuant (s : State) (id : Nat) : State :=
  match s.op? id with
  | none => s
  | some o => match o.agent, o.kind with
    | .tile p t, .quant col src off pitch sf emax n woff wf =>
      if o.st ≠ .running then s
      else
        let r := (s.forkView o).quantRun col src off pitch sf emax n woff wf
        let s1 := r.1.foldl (fun s x => s.opWrite o .engine 11 p t .w x.1 x.2) s
        let s2 := match (quantRanges col off pitch (elemSize sf) n).findSome? fun x => oobByte src x.1 x.2 with
          | some a => s1.modThread o.agent o.th fun t => t.recordOob (bufCode src) false a
          | none => s1
        startQuant (s2.opDone id r.2) p (t / 8)
    | _, _ => s

/-- `quant` (R297). -/
def execQuant (col srcC : Bool) (off pitch : BitVec 12) (emax : BitVec 8) (cnt : Sreg) (woff : BitVec 19) (tok : TokF) (s : State) :
    Result State :=
  let T := s.hereTile
  let src : Buf := if srcC then .c else .a
  let n := (s.sr cnt).toNat
  let o := 64 * off.toNat
  .next (s.tileOnly (match T.quantCheck col src o pitch.toNat emax.toNat n woff.toNat with
    | some r => s.raise .illegalTarget (s.reason r.1 r.2)
    | none => startQuant (s.engine (.quant col src o pitch.toNat (T.fmtAt src o) emax.toNat n woff.toNat (T.fmtAt .w woff.toNat)) tok)
        s.hereP (s.hereT / 8)))

/-- QUANT_COMPLETE (R298) of the operation `arg.op`. -/
def execQuantComplete (s : State) : Result State := .next (completeQuant s s.arg.op)

end Sys2Proof.Machine
end

