-- ==== Sys2Proof/Machine/Queues.lean ====
section
/-!
DEFINITION. The host's queues as other units see them (spec/02 R45, R46, R47, R49; spec/20 R338): functions and bindings, command entries, hardware
slots, and the waits at the heads of the queues.
-/

namespace Sys2Proof.Machine

/-! ### Functions -/

def State.fn (s : State) (n : Nat) : Fn := s.fns.getD n Fn.zero
def State.modFn (s : State) (n : Nat) (f : Fn → Fn) : State := { s with fns := s.fns.modify n f }
def Fn.queue (f : Fn) (q : Nat) : Queue := f.queues.toList.getD q Queue.zero
def State.modQueue (s : State) (n q : Nat) (f : Queue → Queue) : State :=
  s.modFn n fun F => if h : q < 8 then { F with queues := F.queues.set q (f F.queues[q]) } else F
def Fn.vec (f : Fn) (v : Nat) : Vec := f.vecs.toList.getD v Vec.zero
def State.modVec (s : State) (n v : Nat) (f : Vec → Vec) : State :=
  s.modFn n fun F => if h : v < 16 then { F with vecs := F.vecs.set v (f F.vecs[v]) } else F

/-- The functions bound to a partition, in increasing number (R43). -/
def State.boundTo (s : State) (p : Nat) : List Nat :=
  (List.range s.fns.length).filter fun n => match (s.fn n).bind with
    | some b => decide (b.part = p)
    | none => false

/-- The partition a function is bound to. -/
def State.bound? (s : State) (n : Nat) : Option Binding := (s.fn n).bind

/-! ### Command pages, rings and entries (R45, R46) -/

/-- Bytes at an offset of a base word whose bit 0 selects the memory (R45); of a function that is not bound the device memory reads zero
(DESIGN CHOICE, log entry 61). -/
def State.fnRead (s : State) (n : Nat) (base : Word) (off k : Nat) : List Byte :=
  let a := (base &&& ~~~0xFFF).toNat + off
  if base.getLsbD 0 then
    match s.bound? n with
    | some b => s.vread (s.part b.part).trans a k
    | none => List.replicate k 0
  else s.physRead ⟨true, a⟩ k

/-- Bytes stored there by the device. -/
def State.fnWrite (s : State) (n : Nat) (base : Word) (off : Nat) (bs : List Byte) : State :=
  let a := (base &&& ~~~0xFFF).toNat + off
  if base.getLsbD 0 then
    match s.bound? n with
    | some b => s.vwrite (s.part b.part).trans a bs
    | none => s
  else s.physWrite ⟨true, a⟩ bs

/-- The offset of an entry in its ring. -/
def Queue.entryOff (q : Queue) (idx : Nat) : Nat := 64 * (idx % 2 ^ q.log2)

/-- The 64 bytes of a command entry (R46). -/
def State.entry (s : State) (r : CmdRef) : List Byte :=
  let q := (s.fn r.fn).queue r.q
  s.fnRead r.fn q.ring (q.entryOff r.idx) 64

/-- A little-endian field of an entry or an image. -/
def fldOf (e : List Byte) (i n : Nat) : Nat := leNat (bytesAt e i n)

/-- The partition a command acts on: the bound one; for function 0 the one that byte 37 or 33 names, where the command names an
existing one (R47, R48). -/
def State.cmdPart (s : State) (fn : Nat) (e : List Byte) : Option Nat :=
  let op := fldOf e 0 1
  if fn ≠ 0 then (s.bound? fn).map (·.part)
  else if (1 ≤ op ∧ op ≤ 5) ∨ (7 ≤ op ∧ op ≤ 10) then some (fldOf e 37 1)
  else if op = 0x42 ∨ op = 0x44 then some (fldOf e 33 1)
  else none

/-- The word of a command's signal: in the translation of its partition, else in host memory (DEDUCED, log entry 21). -/
def State.signalLoc (s : State) (fn : Nat) (e : List Byte) : Option Loc :=
  match s.cmdPart fn e with
  | none => some ⟨true, fldOf e 16 8⟩
  | some p => translate (s.part p).trans (fldOf e 16 8)

/-! ### Slots and waits (R49, R338) -/

/-- A queue holds a hardware slot; function 0's are always mapped (R47, R49). -/
def State.mapped (s : State) (fn q : Nat) : Bool := decide (fn = 0) || s.qslots.toList.contains (some (fn, q))

/-- The mapped queues: function 0's, and those that hold a slot (R47, R49). -/
def State.queuesOn (s : State) : List (Nat × Nat) := (List.range 8).map (fun q => (0, q)) ++ s.qslots.toList.filterMap id

/-- The word of a SIGNAL_WAIT is at least the operand. -/
def State.waitOver (s : State) (r : CmdRef) : Bool :=
  let e := s.entry r
  match s.signalLoc r.fn e with
  | some l => decide (fldOf e 24 8 ≤ s.physNat l 8)
  | none => false

/-- The queues of which a wait may stand at the head: the mapped ones, and those that have lost their slot (R49, R338). -/
def State.waitQueues (s : State) : List (Nat × Nat) := s.queuesOn ++ s.pendBits.map fun b => (b.fn, b.q)

/-- Every SIGNAL_WAIT at the head of its queue reads its word (R338). -/
def State.noteWaits (s : State) : State :=
  s.waitQueues.foldl (fun s x => match ((s.fn x.1).queue x.2).hold with
    | none => s
    | some h => if ((s.fn x.1).queue x.2).head = h ∧ s.waitOver ⟨x.1, x.2, h.toNat⟩ then s.modQueue x.1 x.2 fun Q => { Q with met := true } else s) s

end Sys2Proof.Machine
end

