-- ==== Sys2Proof/Machine/Engines.lean ====
section
/-!
DEFINITION. Copy engines, write-behind by `wbk` and signals (spec/16 R299 to R306, R315; spec/05 R106, R115; spec/13 R263;
spec/02 R51): the instructions, and the rows COPY_COMPLETE, ENGINE_SLOT_DELIVERED, WBK_COMPLETE and SIGNAL_COMPLETE.
-/

namespace Sys2Proof.Machine

/-! ### Descriptors and endpoints (R299, R301) -/

/-- The 160 bytes of a descriptor: its dimensions and byte 1, or none where it breaks R301; `both` tells that both endpoints lie
in `g:` or `m:`. -/
def descriptorOf (bs : List Byte) (both : Bool) : Option (List Dim × Nat) :=
  let fld (i n : Nat) : Nat := leNat (bytesAt bs i n)
  let n := fld 0 1
  let dims := (List.range n).map fun k =>
    let i := 16 + 16 * k
    (⟨fld i 4, signedN 32 (fld (i + 4) 4), signedN 32 (fld (i + 8) 4), k⟩ : Dim)
  if 1 ≤ n ∧ n ≤ 9 ∧ (!both ∨ fld 1 1 ≤ 3) ∧ fld 2 14 = 0 ∧ (dims.all fun d => decide (1 ≤ d.extent) && decide (d.extent ≤ 65535)) ∧
      ((List.range n).all fun k => fld (28 + 16 * k) 4 = 0) ∧ fld (16 + 16 * n) (16 * (9 - n)) = 0 ∧
      (dims.map (·.extent)).prod ≤ 2 ^ 32 then some (dims, fld 1 1)
  else none

/-- The format of an endpoint in the tile's buffers. -/
def EndR.fmt? : EndR → Option Byte
  | .buf _ _ f => some f
  | .ring _ f => some f
  | .glob _ | .mgmt _ | .queue _ => none

/-- An endpoint resolved at issue, with the codes in force (R98, R100). -/
def State.endOf (s : State) (prod : Bool) (e : CEnd) : EndR :=
  match e with
  | .ring h =>
    let r := s.hereTile.ring h
    .ring h (s.hereTile.fmtAt r.buf (r.base.toNat + (if prod then r.prod else r.cons).toNat % r.slots * r.slotSize))
  | .queue q => .queue q
  | .mem sp b d =>
    let ea := s.sr b + (d.signExtend 64) * 4
    match sp with
    | .w => .buf .w ea (s.hereTile.fmtAt .w ea.toNat)
    | .a => .buf .a ea (s.hereTile.fmtAt .a ea.toNat)
    | .c => .buf .c ea (s.hereTile.fmtAt .c ea.toNat)
    | .g => .glob ea
    | .m => .mgmt ea

/-- The address of a memory endpoint. -/
def EndR.addr? : EndR → Option Word
  | .buf _ a _ | .glob a | .mgmt a => some a
  | .ring .. | .queue _ => none

/-- Elements are converted: two tile buffers of different formats (R302). -/
def convEnds (dst src : EndR) : Bool :=
  match dst.fmt?, src.fmt? with
  | some a, some b => a != b
  | _, _ => false

/-- The element sizes of source and destination: as R301 finds them for a descriptor; in the linear form the banks' where
elements are converted, else 4 bytes of raw data. -/
def endSizes (desc : Bool) (both : Nat) (dst src : EndR) : Nat × Nat :=
  if !desc && !convEnds dst src then (4, 4)
  else
    let sz (e o : EndR) : Nat := match e.fmt?, o.fmt? with
      | some f, _ => elemSize f
      | none, some f => elemSize f
      | none, none => 2 ^ both
    (sz src dst, sz dst src)

/-! ### The checks of R300 -/

/-- Bytes of an element range from the lowest to the highest a stride reaches, as an offset and a length (R300). -/
def boundOf (dims : List Dim) (dst : Bool) (e : Nat) : Int × Nat :=
  let st (d : Dim) : Int := if dst then d.dstride else d.sstride
  let lo := (dims.map fun d => min 0 ((d.extent - 1 : Nat) * st d)).sum
  let hi := (dims.map fun d => max 0 ((d.extent - 1 : Nat) * st d)).sum
  (lo * e, ((hi - lo + 1) * e).toNat)

/-- A BFP range of a number of blocks lies at block boundaries in the mantissa area of the bank of its first byte (R99, R142). -/
def bfpRange (f : Byte) (a blocks : Nat) : Bool := decide (a < Config.bufSize .w) && bfpPlaced f a blocks

/-- Check 1 of R300. -/
def State.copyCheck1 (s : State) (desc : Bool) (dst src : CEnd) : Option Refuse :=
  let fw : Bool := s.here.mode = .firmware
  let stream (e : CEnd) : Bool := match e with | .ring _ | .queue _ => true | .mem .. => false
  let ring (e : CEnd) : Option Hnd := match e with | .ring h => some h | _ => none
  let isM (e : CEnd) : Bool := match e with | .mem .m .. => true | _ => false
  let tileSp (e : CEnd) : Bool := match e with | .mem .g .. | .mem .m .. => false | _ => true
  let srcQ : Bool := match src with | .queue _ => true | _ => false
  if srcQ || (desc && (stream dst || stream src)) || ((ring dst).isSome && (ring src).isSome)
      || (!fw && (isM dst || isM src)) || (fw && (tileSp dst || tileSp src)) then some (.illegalTarget, s.reason 9 0)
  else match [ring dst, ring src].findSome? fun h => h.bind fun h => if (s.hereTile.ring h).unused then some h else none with
    | some h => some (.illegalTarget, s.reason 15 h.val)
    | none => none

/-- Check 3 of R300: alignment of the linear form. -/
def State.copyAlign (s : State) (dst src : EndR) (count : Word) : Option Refuse :=
  let mis (e : EndR) : Option Refuse := e.addr?.bind fun a => if a.toNat % 4 ≠ 0 then some (.align, a) else none
  let unit (e : EndR) : Nat := match e with
    | .ring h _ => (s.hereTile.ring h).slotSize
    | .queue _ => 256
    | _ => 4
  (mis dst).or <| (mis src).or <|
    if count.toNat % 4 ≠ 0 ∨ count.toNat % unit dst ≠ 0 ∨ count.toNat % unit src ≠ 0 then some (.align, count) else none

/-- Check 3 of R300 in the descriptor form; a narrow element in a register block of `m:` is misaligned too (R322). -/
def descAlign (dst src : EndR) (es ed : Nat) : Option Refuse :=
  let mis (e : EndR) (n : Nat) : Option Refuse := e.addr?.bind fun a =>
    let narrow : Bool := match e with | .mgmt a => decide (n < 4) && mBlock a.toNat | _ => false
    if a.toNat % n ≠ 0 ∨ narrow then some (.align, a) else none
  (mis dst ed).or (mis src es)

/-- Check 4 of R300: no copy writes C (R96). -/
def State.copyWriters (s : State) (dst : EndR) : Option Refuse :=
  match dst with
  | .buf .c a _ => some (.prot, a)
  | .ring h _ =>
    let r := s.hereTile.ring h
    if r.buf = .c then some (.prot, BitVec.ofNat 64 (r.base.toNat + r.prod.toNat % r.slots * r.slotSize)) else none
  | _ => none

/-- Check 5 of R300 for one endpoint: n bytes from an offset of its address. The descriptor form moves one element of e bytes at a time,
each of which covers whole elements of a region (R164). -/
def State.copyGlobal (s : State) (desc : Bool) (u : Use) (e : EndR) (off : Int) (n es : Nat) : Option Refuse :=
  match e with
  | .glob a =>
    let a := a + BitVec.ofInt 64 off
    if n = 0 then none
    else if s.here.mode = .firmware then
      (if a.extractLsb' 57 7 != 0 then some (.prot, a) else if 2 ^ 57 < a.toNat + n then some (.prot, BitVec.ofNat 64 (2 ^ 57)) else none)
    else (globalCheck s s.hereP s.hereT u a n).or <|
      match desc, regionOf s s.herePart.transNow s.herePart.tiles.length a.toNat with
      | true, some r => if u = .store ∧ es % r.esize ≠ 0 then some (.align, a) else none
      | _, _ => none
  | _ => none

/-- Check 6 of R300: the code of the bank at fault, which is the source bank where both are in a BFP or the pair format. -/
def copyFormats (desc : Bool) (dst src : EndR) (count es : Nat) : Option Byte :=
  let isB (e : EndR) : Bool := (e.fmt?.map bfpBits).getD 0 != 0
  let isP (e : EndR) : Bool := e.fmt? = some 0x07
  let code (e : EndR) : Byte := e.fmt?.getD 0
  let worst : Option Byte := if isB src || isP src then some (code src) else if isB dst || isP dst then some (code dst) else none
  let elems : Nat := if isB src then count / (4 * bfpBits (code src)) * 32 else count / es
  let addr (e : EndR) : Nat := (e.addr?.getD 0).toNat
  if desc ∧ (isB src ∨ isB dst) then worst
  else if !convEnds dst src then none
  else if isP src ∨ isP dst then worst
  else if isB src ∧ (count % (4 * bfpBits (code src)) ≠ 0 ∨ !bfpRange (code src) (addr src) (elems / 32)) then worst
  else if isB dst ∧ (elems % 32 ≠ 0 ∨ !bfpRange (code dst) (addr dst) (elems / 32)) then worst
  else none

/-! ### Moving elements (R302) -/

/-- Elements from number `first` on of an operand in its format, and the format they are in: BFP ones are decoded to FP32
(R140, R142). -/
def Tile.elems (T : Tile) (b : Buf) (f : Byte) (a : Nat) (first n : Nat) : List Nat × Byte :=
  if bfpBits f = 0 then (elemsOf (elemSize f) (T.readBuf b (a + first * elemSize f) (n * elemSize f)), f)
  else (((T.bfpUnits f (a + first / 32 * (4 * bfpBits f)) ((first % 32 + n + 31) / 32) 32).flatten.drop (first % 32)).take n, 0x06)

/-- What elements become in a destination format from number `first` on of a range at a: runs of bytes by offset, and the
flags (R139, R141, R142). -/
def placed (f : Byte) (a first : Nat) (xs : List Nat) (xf : Byte) : List (Nat × List Byte) × Byte :=
  if bfpBits f = 0 then
    let ys := xs.map fun x => convElem .rne xf f x
    ([(a + first * elemSize f, bytesOf (elemSize f) (ys.map (·.bits)))], engFlags (orFl ys))
  else
    let b := bfpBits f
    let base := a / 24576 * 24576
    let ys := xs.map fun x => convElem .rne xf 0x06 x
    let blks := (List.range (ys.length / 32)).map fun k => (a % 24576 / (4 * b) + first / 32 + k,
      blockEncode (((ys.drop (32 * k)).take 32).map (·.bits)) b 254)
    (blks.flatMap fun x => [(base + 4 * b * x.1, blockBytes b x.2.m), (base + bfpExpOff b x.1, [BitVec.ofNat 8 x.2.e])],
     engFlags (orFl ys) ||| if blks.any fun x => x.2.sat then fSAT else 0)

/-- The virtual address that an access of a tile to a region reaches: a contributor's own copy in a CAV region (R162). -/
def State.ownVa (s : State) (p t va : Nat) : Nat :=
  let P := s.part p
  match regionOf s P.transNow P.tiles.length va with
  | some r => if r.cav && r.ok && decide (64 ≤ va - r.base) then r.base + r.ownOff (r.contributor P t) t (va - r.base - 64) else va
  | none => va

/-- The parts of a range in one page that lie in a region's header and past it (R162). -/
def State.headerParts (s : State) (p va n : Nat) : List (Nat × Nat) :=
  match regionOf s (s.part p).transNow (s.part p).tiles.length va with
  | some r => let k := min n (r.base + 64 - va); if k = 0 ∨ k = n then [(va, n)] else [(va, k), (va + k, n - k)]
  | none => [(va, n)]

/-- Bytes of a checked global range as an engine of an agent reads them: live, committed, or the last result (R117). -/
def State.gRead (s : State) (a : Agent) (va n : Nat) : List Byte :=
  match a with
  | .ctrl _ => s.physRead ⟨false, va⟩ n
  | .tile p t => (pieces va n).flatMap fun x => match (s.tile p t).extent x.1 with
    | none => List.replicate x.2 0
    | some e => if e.kind = .cav then (s.headerParts p x.1 x.2).flatMap fun y => s.vread (s.part p).transNow (s.ownVa p t y.1) y.2
      else if e.kind = .v then s.seen p (e.locOf x.1) x.2 else s.physRead (e.locOf x.1) x.2

/-- A poisoned byte of n bytes at a place: how many bytes stand before it, and its place. -/
def State.poisonIn (s : State) (l : Loc) (n : Nat) : Option (Nat × Loc) :=
  (s.poisonAt l n).map fun u => (32 * u - l.addr, ⟨false, max l.addr (32 * u)⟩)

/-- A poisoned byte of a global range, at the places that gRead reads: how many bytes stand before it, its place, and whether the page is live
(R162, R189). -/
def State.gPoison (s : State) (a : Agent) (va n : Nat) : Option (Nat × Loc × Bool) :=
  match a with
  | .ctrl _ => (s.poisonIn ⟨false, va⟩ n).map fun x => (x.1, x.2, true)
  | .tile p t => (pieces va n).findSome? fun x => ((s.tile p t).extent x.1).bind fun e =>
      if e.kind = .cav then (s.headerParts p x.1 x.2).findSome? fun y =>
        let own := s.ownVa p t y.1
        (pieces own y.2).findSome? fun z => (translate (s.part p).transNow z.1).bind fun l =>
          (s.poisonIn l z.2).map fun u => (y.1 - va + (z.1 - own) + u.1, u.2, false)
      else (s.poisonIn (e.locOf x.1) x.2).map fun u => (x.1 - va + u.1, u.2, decide (e.kind = .l))

/-- An engine's write to a checked global range (R302): write-behind on kind V, at once on kind L, contributions elsewhere. -/
def State.gPut (s : State) (a : Agent) (va : Nat) (w : WRec) : State :=
  match a with
  | .ctrl _ => s.physWrite ⟨false, va⟩ w.data
  | .tile p t => (pieces va w.data.length).foldl (fun s x => match (s.tile p t).extent x.1 with
    | none => s
    | some e =>
      let d := (w.data.drop (x.1 - va)).take x.2
      match e.kind with
      | .v => s.modPart p fun P => { P with wb := P.wb ++ [{ w with loc := e.locOf x.1, data := d }] }
      | .l => s.physWrite (e.locOf x.1) d
      | .red | .cav => match regionOf s (s.part p).transNow (s.part p).tiles.length x.1 with
        | some r => s.contribute p t r (x.1 - r.base) { w with data := d }
        | none => s) s

/-- The record of an operation's writes (R127). -/
def EngOp.wrec (o : EngOp) (q : Nat) (data : List Byte) : WRec :=
  { id := o.id, cls := .engine, q := q, ltile := o.ltile, th := o.th, seq := o.seq, hb := o.hb, buf := none, loc := ⟨false, 0⟩,
    data := data }

/-- Bytes of `m:` in words of 4, or one narrower element. -/
def mBytes (s : State) (d a n : Nat) : List Byte :=
  if n < 4 then leBytes n (mRead s d a n) else (List.range (n / 4)).flatMap fun i => leBytes 4 (mRead s d (a + 4 * i) 4)
def mPut (s : State) (d a : Nat) (bs : List Byte) : State :=
  if bs.length < 4 then mWrite s d a bs.length (leNat bs)
  else (List.range (bs.length / 4)).foldl (fun s i => mWrite s d (a + 4 * i) 4 (leNat (bytesAt bs (4 * i) 4))) s

/-- Out-of-range bytes of a run of elements recorded in %oob: of the element that comes first, its read before its write
(R101, R302). -/
def noteRuns (src dst : Option (Buf × Nat × Nat)) (n : Nat) (t : Thread) : Thread :=
  let fst (r : Option (Buf × Nat × Nat)) : Option (Nat × Buf × Nat) := r.bind fun x =>
    let i := (Config.bufSize x.1 - x.2.1) / x.2.2
    if i < n then some (i, x.1, max (x.2.1 + i * x.2.2) (Config.bufSize x.1)) else none
  match fst src, fst dst with
  | some a, some b => if b.1 < a.1 then t.recordOob (bufCode b.2.1) true b.2.2 else t.recordOob (bufCode a.2.1) false a.2.2
  | some a, none => t.recordOob (bufCode a.2.1) false a.2.2
  | none, some b => t.recordOob (bufCode b.2.1) true b.2.2
  | none, none => t

/-- What a run of elements of a copy comes to: the state, its flags, and whether the copy was cancelled (R189). -/
structure Moved where
  st : State
  fl : Byte
  stopped : Bool

/-- A tile event of an engine that meets poisoned data: live data cancels the operation, committed data is lost (R189, R190). None is recorded once the
superstep is decided, whose records are all written by then (R185). -/
def State.engineEcc (s : State) (a : Agent) (l : Loc) (live : Bool) : State :=
  match a with
  | .tile p t => if (s.part p).decision.isSome then s else tileEvent s p t .eccUncorr (if live then 1 else 2) (eccWord (if live then 2 else 1) l) l.addr
  | .ctrl _ => s

/-- The address of an element's first byte from an address, in elements of e bytes: it never wraps into a buffer, neither past 2^64 nor, with a
negative sum, below it (R101). -/
def elemAddr (a : Word) (i : Int) (e : Nat) : Nat :=
  let x : Int := a.toNat + i * e
  if 0 ≤ x then x.toNat else (x % 2 ^ 64).toNat

/-- The elements a run reads, the format they are in (none for raw bytes), how many bytes come before an error in live data. -/
def State.runRead (s : State) (o : EngOp) (src : EndR) (conv : Bool) (es : Nat) (i : Int) (n : Nat) : List Nat × Byte :=
  match src, o.agent with
  | .buf b a f, .tile .. =>
    if conv then (s.forkView o).elems b f (elemAddr a (if bfpBits f = 0 then i else 0) es) (if bfpBits f = 0 then 0 else i.toNat) n
    else (elemsOf es ((s.forkView o).readBuf b (elemAddr a i es) (n * es)), 0)
  | .glob va, a => (elemsOf es (s.gRead a (elemAddr va i es) (n * es)), 0)
  | .mgmt a, .ctrl d => (elemsOf es (mBytes s d (elemAddr a i es) (n * es)), 0)
  | _, _ => ([], 0)

/-- A run's elements written from element number i of the destination. -/
def State.runWrite (s : State) (o : EngOp) (q : Nat) (dst : EndR) (conv : Bool) (ed : Nat) (i : Int) (xs : List Nat) (xf : Byte) :
    State × Byte :=
  match dst, o.agent with
  | .buf b a f, .tile p t =>
    if conv then
      let r := placed f (elemAddr a (if bfpBits f = 0 then i else 0) ed) (if bfpBits f = 0 then 0 else i.toNat) xs xf
      (r.1.foldl (fun s x => s.opWrite o .engine q p t b x.1 x.2) s, r.2)
    else (s.opWrite o .engine q p t b (elemAddr a i ed) (bytesOf ed xs), 0)
  | .glob va, a => (s.gPut a (elemAddr va i ed) (o.wrec q (bytesOf ed xs)), 0)
  | .mgmt a, .ctrl d => (mPut s d (elemAddr a i ed) (bytesOf ed xs), 0)
  | _, _ => (s, 0)

/-- n consecutive elements moved, from element si of the source to element di of the destination. -/
def State.moveRun (s : State) (o : EngOp) (q : Nat) (dst src : EndR) (es ed : Nat) (si di : Int) (n : Nat) : Moved :=
  let conv := convEnds dst src
  let bad := match src with
    | .glob va => s.gPoison o.agent (elemAddr va si es) (n * es)
    | _ => none
  let k := match bad with
    | some (k, _, true) => k / es
    | _ => n
  let rng (e : EndR) (i : Int) (z : Nat) : Option (Buf × Nat × Nat) := match e with
    | .buf b a f => if bfpBits f = 0 then some (b, elemAddr a i z, z) else none
    | _ => none
  let s1 := s.modThread o.agent o.th (noteRuns (rng src si es) (rng dst di ed) k)
  let x := s1.runRead o src conv es si k
  let r := s1.runWrite o q dst conv ed di x.1 x.2
  match bad with
  | some (_, l, live) => ⟨r.1.engineEcc o.agent l live, r.2, live⟩
  | none => ⟨r.1, r.2, false⟩

/-- The aligned 4-byte words of a destination in memory that the first j runs of an operation have written whole: no later run writes into one. -/
def wordsDone (a : Word) (ed : Nat) (rs : List (Int × Int × Nat)) (j : Nat) : List Nat :=
  let word (r : Int × Int × Nat) : Nat := elemAddr a r.2.1 ed / 4
  let later := (rs.drop j).map word
  (((rs.take j).map word).dedup).filter fun w => !later.contains w

/-- A state with the words of a list as a later state `m` has them. -/
def State.keepWords (s m : State) (o : EngOp) (q : Nat) (dst : EndR) (ws : List Nat) : State :=
  match dst, o.agent with
  | .glob _, a => ws.foldl (fun s w => s.gPut a (4 * w) (o.wrec q (m.gRead a (4 * w) 4))) s
  | .mgmt _, .ctrl d => ws.foldl (fun s w => mPut s d (4 * w) (mBytes m d (4 * w) 4)) s
  | _, _ => m

/-- Runs moved one after another until one is cancelled: element of the source, of the destination, and length. A cancelled operation of
narrow elements leaves each aligned word of its destination in memory old or new (R131, R189). -/
def State.moveRuns (s : State) (o : EngOp) (q : Nat) (dst src : EndR) (es ed : Nat) (rs : List (Int × Int × Nat)) : Moved :=
  let m : Moved × State × Nat := rs.foldl (fun m r => if m.1.stopped then m else
    let x := m.1.st.moveRun o q dst src es ed r.1 r.2.1 r.2.2
    (⟨x.st, m.1.fl ||| x.fl, x.stopped⟩, m.1.st, m.2.2 + if x.stopped then 0 else 1)) (⟨s, 0, false⟩, s, 0)
  if m.1.stopped && decide (ed < 4) then
    match dst.addr?, rs[m.2.2]? with
    | some a, some r =>
      let x := (s.keepWords m.2.1 o q dst (wordsDone a ed rs m.2.2)).moveRun o q dst src es ed r.1 r.2.1 r.2.2
      ⟨x.st, m.1.fl ||| x.fl, true⟩
    | _, _ => m.1
  else m.1

/-- The index tuples of a descriptor as element offsets of source and destination, dimension 0 fastest (R302). -/
def tuplesOf : List Dim → List (Int × Int)
  | [] => [(0, 0)]
  | d :: ds => (tuplesOf ds).flatMap fun x => (List.range d.extent).map fun i => (x.1 + i * d.sstride, x.2 + i * d.dstride)

/-- How many elements a linear copy moves. -/
def linearElems (src : EndR) (conv : Bool) (es count : Nat) : Nat :=
  let b := (src.fmt?.map bfpBits).getD 0
  if conv && b != 0 then count / (4 * b) * 32 else count / es

/-- A linear copy's runs of n elements from a first one: one run, or one element (one block of a BFP endpoint) after another
where source and destination may overlap, for each read sees the writes before it (R302, R107); `live` tells that a write to the
destination's pages is seen at once (R117). -/
def linearRuns (live : Bool) (dst src : EndR) (si di : Int) (n : Nat) : List (Int × Int × Nat) :=
  let ovl : Bool := match dst, src with
    | .buf b .., .buf b2 .. => decide (b = b2)
    | .glob _, .glob _ => live
    | .mgmt _, .mgmt _ => true
    | _, _ => false
  let blk : Bool := convEnds dst src && ((dst.fmt?.map bfpBits).getD 0 != 0 || (src.fmt?.map bfpBits).getD 0 != 0)
  let u := if !ovl then max n 1 else if blk then 32 else 1
  (List.range ((n + u - 1) / u)).map fun k => (si + (k * u : Nat), di + (k * u : Nat), min u (n - k * u))

/-- An endpoint reaches a page of kind L, or a controller's physical address, in n bytes. -/
def State.endLive (s : State) (a : Agent) (e : EndR) (n : Nat) : Bool :=
  match e, a with
  | .glob va, .tile p t => (pieces va.toNat n).any fun x => ((s.tile p t).extent x.1).any fun e => decide (e.kind = .l)
  | .glob _, .ctrl _ => true
  | _, _ => false

/-- A channel in training holds a byte of n bytes from an offset of an endpoint: the operation waits (R344). -/
def State.endHeld (s : State) (a : Agent) (e : EndR) (off : Int) (n : Nat) : Bool :=
  match e, a with
  | .glob va, .tile p t => s.chans.toList.any (·.train) && (pieces (elemAddr va off 1) n).any fun x =>
      ((s.tile p t).extent x.1).any fun e => s.rangeHeld (e.locOf x.1) x.2
  | .glob va, .ctrl _ => s.rangeHeld ⟨false, elemAddr va off 1⟩ n
  | _, _ => false

/-- The die whose copy engines serve an agent (R115). -/
def State.dieOf (s : State) (a : Agent) : Nat :=
  match a with
  | .tile p t => s.physPod p (t / 8) / 64
  | .ctrl d => d

/-! ### One operation at a time on each queue's engine (R125, R303, R304) -/

/-- A copy that is live, with its queue number. -/
def EngOp.copyQ (o : EngOp) : Option Nat :=
  match o.kind with
  | .copy cq .. => if o.live then some cq.val else none
  | _ => none

/-- A copy moves slot by slot: an endpoint is a ring or a sparsity queue (R303). -/
def EngOp.slotted (o : EngOp) : Bool :=
  match o.kind with
  | .copy _ _ _ dst src _ => (match dst, src with | .ring .., _ | _, .ring .. | .queue _, _ => true | _, _ => false)
  | _ => false

/-- A copy's first or next slot, or its completion, is due after a free time. -/
def State.copyDue (s : State) (o : EngOp) : State :=
  let arg : Arg := { p := (match o.agent with | .tile p _ => p | .ctrl _ => 0), op := o.id }
  if o.slotted then s.scheduleFree .ringSlot .engineSlotDelivered arg else s.scheduleFree .copy .copyComplete arg

/-- What happens before an operation that starts: its fork, and all that the operations it is ordered after have made (R124, R125). -/
def State.orderedHb (s : State) (o : EngOp) : List Nat :=
  ((s.ops.takeWhile fun x => decide (x.id ≠ o.id)).filter fun x => x.before o).foldl (fun h x => joinHb x.made h) o.hb

/-- The engine of a queue of a die takes its next operation when it is idle: round-robin over the tiles, in issue order for each
(R304). -/
def State.kickCopy (s : State) (die cq : Nat) : State :=
  let os := s.ops.filter fun o => decide (o.copyQ = some cq) && decide (s.dieOf o.agent = die)
  if os.any fun o => decide (o.st ≠ .queued) then s
  else
    let turn := s.cpTurn.toList.getD (8 * die + cq) 0
    let best (f : EngOp → Bool) : Option EngOp := (os.filter f).foldl (fun m o => match m with
      | none => some o
      | some x => if agentKey o.agent < agentKey x.agent then some o else some x) none
    match (best fun o => decide (turn < agentKey o.agent)).or (best fun _ => true) with
    | none => s
    | some o => (({ s with cpTurn := s.cpTurn.setIfInBounds (8 * die + cq) (agentKey o.agent) }).modOp o.id
        fun o => { o with st := .running, stamp := s.cycle, hb := s.orderedHb o }).copyDue o

/-- A copy between memories, or the whole source or destination of one that moves in slots, waits for a channel in training (R344). -/
def State.copyHeld (s : State) (o : EngOp) : Bool :=
  s.chans.toList.any (·.train) && match o.kind with
  | .copy _ dims es0 dst src count =>
    let (es, ed) := endSizes dims.isSome es0 dst src
    let rng (d : Bool) (e : Nat) : Int × Nat := match dims with
      | some ds => boundOf ds d e
      | none => (0, linearElems src (convEnds dst src) es count * e)
    s.endHeld o.agent dst (rng true ed).1 (rng true ed).2 || s.endHeld o.agent src (rng false es).1 (rng false es).2
  | _ => false

/-- Monitor source 0x04 of a copy whose source is HBM: the cycles from its start to its end (R20). -/
def State.noteCopyRead (s : State) (o : EngOp) : State :=
  match o.agent, o.kind with
  | .tile p t, .copy _ _ _ _ (.glob va) _ =>
    if (((s.tile p t).extent va.toNat).map fun e => !e.loc.host).getD false then s.modPart p fun P => P.sample 4 (s.cycle - o.stamp) else s
  | _, _ => s

/-- A copy ends, complete or cancelled: its claims go with it, and the engine takes its next operation. -/
def State.copyEnd (s : State) (o : EngOp) (fl : Byte) : State :=
  ((s.noteCopyRead o).opDone o.id (o.flags ||| fl)).kickCopy (s.dieOf o.agent) (o.copyQ.getD 0)

/-- COPY_COMPLETE: a copy between memories is made, and any copy ends (R302). -/
def completeCopy (s : State) (id : Nat) : State :=
  match s.op? id with
  | none => s
  | some o => match o.kind with
    | .copy cq dims es0 dst src count =>
      if o.st ≠ .running ∧ o.st ≠ .moved then s
      else if o.slotted then s.copyEnd o 0
      else if s.copyHeld o then s.copyDue o
      else
        let (es, ed) := endSizes dims.isSome es0 dst src
        let rs := match dims with
          | some ds => (tuplesOf ds).map fun x => (x.1, x.2, 1)
          | none => linearRuns (s.endLive o.agent dst count) dst src 0 0 (linearElems src (convEnds dst src) es count)
        let m := s.moveRuns o cq.val dst src es ed rs
        m.st.copyEnd o m.fl
    | _ => s

/-- Another copy holds the fill or the drain claim of a ring of a tile (R303). -/
def State.claimed (s : State) (o : EngOp) (h : Hnd) (fill : Bool) : Bool :=
  s.ops.any fun x => decide (x.id ≠ o.id) && x.live && decide (x.st = .moved) && decide (x.agent = o.agent) &&
    (match x.kind with
    | .copy _ _ _ dst src _ => (match (if fill then dst else src) with | .ring g _ => decide (g = h) | _ => false)
    | _ => false)

/-- The place of slot i of a ring (R106). -/
def Ring.slotAddr (r : Ring) (i : BitVec 32) : Nat := r.base.toNat + i.toNat % r.slots * r.slotSize

/-- The next slot is not ready: the engine waits (R106, R114). -/
def State.slotWait (s : State) (o : EngOp) : State := s.copyDue o

/-- The identity of an operation's next slot: its accesses follow those of the slots before it, and a ring wait that sees its pointer
follows it alone (R124, R254). -/
def EngOp.slotOp (o : EngOp) (id : Nat) : EngOp := { o with id := id, hb := o.made }

/-- A slot is done: the copy ends after its last, else its next slot is due. -/
def Moved.next (m : Moved) (o : EngOp) (id : Nat) (last : Bool) : State :=
  let s1 := m.st.modOp o.id fun x => { x with flags := x.flags ||| m.fl, prog := x.prog + 1, parts := id :: x.parts }
  if m.stopped then s1.copyEnd { o with flags := o.flags ||| m.fl } 0
  else if last then s1.schedule 0 .copyComplete { op := o.id }
  else s1.copyDue o

/-- The copy takes the claim, with the pointer at that moment (R303). -/
def State.takeClaim (s : State) (o : EngOp) (ptr : BitVec 32) : State :=
  if o.st = .running then s.modOp o.id fun x => { x with st := .moved, prog0 := ptr } else s

/-- One slot of a copy into a ring (R106, R303). -/
def fillSlot (s : State) (o : EngOp) (p t cq : Nat) (h : Hnd) (f : Byte) (src : EndR) (count : Nat) : State :=
  let r := (s.tile p t).ring h
  if (o.st = .running ∧ s.claimed o h true) ∨ r.unused ∨ r.free = 0 then s.slotWait o
  else
    let p0 := if o.st = .running then r.prod else o.prog0
    let d : EndR := .buf r.buf (BitVec.ofNat 64 (r.slotAddr (p0 + BitVec.ofNat 32 o.prog))) f
    let (es, ed) := endSizes false 0 d src
    let per := r.slotSize / ed
    let total := linearElems src (convEnds d src) es count
    let n := min per (total - o.prog * per)
    let m := (s.newId.takeClaim o r.prod).moveRuns (o.slotOp s.opCtr) cq d src es ed (linearRuns false d src (o.prog * per : Nat) 0 n)
    let m' : Moved := if m.stopped ∨ n < per then m else { m with st := m.st.modTile p t fun T => T.advance h true 1 (s.opCtr :: o.made) }
    (m'.next o s.opCtr (total ≤ (o.prog + 1) * per))

/-- Elements of a slot join those gathered of the slots before it, and whole blocks of 32 of them are encoded in a destination whose format is of
blocks (R142): `first` is the number of the first one gathered. -/
def State.gatherBlocks (s : State) (o : EngOp) (id q : Nat) (dst : EndR) (es ed first : Nat) (xs : List Nat) (xf : Byte) : Moved :=
  let ys := elemsOf es o.masks.flatten ++ xs
  let k := ys.length / 32 * 32
  let r := s.runWrite (o.slotOp id) q dst true ed first (ys.take k) xf
  ⟨r.1.modOp o.id fun x => { x with masks := [bytesOf es (ys.drop k)] }, r.2, false⟩

/-- One slot of a copy out of a ring to memory; a slot that ends inside a block is gathered with the next one (R142). -/
def drainSlot (s : State) (o : EngOp) (p t cq : Nat) (h : Hnd) (f : Byte) (dst : EndR) (count : Nat) : State :=
  let r := (s.tile p t).ring h
  if (o.st = .running ∧ s.claimed o h false) ∨ r.unused ∨ r.filled = 0 then s.slotWait o
  else
    let p0 := if o.st = .running then r.cons else o.prog0
    let e : EndR := .buf r.buf (BitVec.ofNat 64 (r.slotAddr (p0 + BitVec.ofNat 32 o.prog))) f
    let (es, ed) := endSizes false 0 dst e
    let per := r.slotSize / es
    let s1 := s.newId.takeClaim o r.cons
    let blocks := convEnds dst e && (dst.fmt?.map bfpBits).getD 0 != 0 && decide (per % 32 ≠ 0)
    let m := if blocks then
        let x := s1.runRead o e true es 0 per
        s1.gatherBlocks o s.opCtr cq dst es ed (o.prog * per / 32 * 32) x.1 x.2
      else s1.moveRuns (o.slotOp s.opCtr) cq dst e es ed (linearRuns false dst e 0 (o.prog * per : Nat) per)
    let m' : Moved := if m.stopped then m else { m with st := m.st.modTile p t fun T => T.advance h false 1 (s.opCtr :: o.made) }
    (m'.next o s.opCtr (count ≤ (o.prog + 1) * r.slotSize))

/-- The bytes from offset off of a memory source, for a sparsity queue; its error in live data, if any. -/
def State.streamRead (s : State) (o : EngOp) (src : EndR) (off n : Nat) : List Byte × Option (Loc × Bool) :=
  match src, o.agent with
  | .buf b a _, .tile .. => ((s.forkView o).readBuf b (a.toNat + off) n, none)
  | .glob va, a =>
    let va := va.toNat + off
    (s.gRead a va n, (s.gPoison a va n).map (·.2))
  | _, _ => ([], none)

/-- One entry pushed on a sparsity queue, or a part of one gathered (R114, R290). -/
def pushQueue (s : State) (o : EngOp) (p t : Nat) (q : Fin 4) (bs : List Byte) : State :=
  let cur := o.masks.flatten ++ bs
  if cur.length < 256 then s.modOp o.id fun x => { x with masks := [cur] }
  else ((s.modOp o.id fun x => { x with masks := [] }).modTile p t fun T =>
    { T with queues := T.queues.set q.val (T.queues[q] ++ [cur.take 256]) }).arraySteps p (t / 8)

/-- One unit of a copy into a sparsity queue: 256 bytes, or a slot of a smaller ring. -/
def queueSlot (s : State) (o : EngOp) (p t : Nat) (q : Fin 4) (src : EndR) (count : Nat) : State :=
  if 32 ≤ ((s.tile p t).queues[q]).length then s.slotWait o
  else match src with
    | .ring h _ =>
      let r := (s.tile p t).ring h
      if (o.st = .running ∧ s.claimed o h false) ∨ r.unused ∨ r.filled = 0 then s.slotWait o
      else
        let u := min r.slotSize 256
        let off := o.prog * u
        let p0 := if o.st = .running then r.cons else o.prog0
        let a := r.slotAddr (p0 + BitVec.ofNat 32 (off / r.slotSize)) + off % r.slotSize
        let s1 := pushQueue (s.newId.takeClaim o r.cons) o p t q ((s.forkView o).readBuf r.buf a u)
        let s2 := if (off + u) % r.slotSize = 0 then s1.modTile p t fun T => T.advance h false 1 (s.opCtr :: o.made) else s1
        Moved.next ⟨s2, 0, false⟩ o s.opCtr (count ≤ off + u)
    | _ =>
      let r := s.streamRead o src (256 * o.prog) 256
      let ovl : Option (Buf × Nat × Nat) := match src with
        | .buf b a _ => some (b, a.toNat + 256 * o.prog, 4)
        | _ => none
      let s0 := s.newId.modThread o.agent o.th (noteRuns ovl none 64)
      match r.2 with
      | some (l, true) => Moved.next ⟨s0.engineEcc o.agent l true, 0, true⟩ o s.opCtr false
      | some (l, false) => let s1 := pushQueue (s0.engineEcc o.agent l false) o p t q r.1
                           Moved.next ⟨s1, 0, false⟩ o s.opCtr (count ≤ 256 * (o.prog + 1))
      | none => let s1 := pushQueue s0 o p t q r.1
                Moved.next ⟨s1, 0, false⟩ o s.opCtr (count ≤ 256 * (o.prog + 1))

/-- ENGINE_SLOT_DELIVERED: the next slot or entry of a copy (R106, R303). -/
def engineSlot (s : State) (id : Nat) : State :=
  match s.op? id with
  | none => s
  | some o => match o.agent, o.kind with
    | .tile p t, .copy cq _ _ dst src count =>
      if o.st ≠ .running ∧ o.st ≠ .moved then s
      else if s.copyHeld o then s.slotWait o
      else match dst, src with
        | .queue q, _ => queueSlot s o p t q src count
        | .ring h f, _ => fillSlot s o p t cq.val h f src count
        | _, .ring h f => drainSlot s o p t cq.val h f dst count
        | _, _ => s
    | _, _ => s

/-! ### Issue of a copy -/

/-- A checked copy of `count` bytes, or of a descriptor's elements, is queued; a copy of no bytes queues nothing (R300). -/
def State.queueCopy (s : State) (cq : Fin 8) (dims : Option (List Dim)) (es : Nat) (dst src : EndR) (count : Nat) (tok : TokF) :
    State :=
  if dims.isNone ∧ count = 0 then s.finish s
  else (s.engine (.copy cq dims es dst src count) tok).kickCopy (s.dieOf s.cur.agent) cq.val

/-- The first check that the linear form of `cpy` fails (R300). -/
def State.linearRefused (s : State) (dst src : CEnd) (count : Word) : Option Refuse :=
  let d := s.endOf true dst
  let c := s.endOf false src
  let n := count.toNat
  let (es, ed) := endSizes false 0 d c
  (s.copyCheck1 false dst src).or <|
    (if 2 ^ 32 < n then some (Cause.illegalTarget, s.reason 11 0xFFFFFFFF) else none).or <|
    (s.copyAlign d c count).or <| (s.copyWriters d).or <| (s.copyGlobal false .store d 0 (n / es * ed) ed).or <|
    (s.copyGlobal false .load c 0 n es).or <| (copyFormats false d c n es).map fun f => (.illegalTarget, s.reason 12 f.toNat)

/-- The linear form of `cpy` (R300). -/
def State.copyLinear (s : State) (cq : Fin 8) (dst src : CEnd) (count : Word) (tok : TokF) : State :=
  match s.linearRefused dst src count with
  | some r => s.raise r.1 r.2
  | none => s.queueCopy cq none 0 (s.endOf true dst) (s.endOf false src) count.toNat tok

/-- The dimensions and element bytes of the descriptor form of `cpy`, or the first check that it fails (R300, R301). -/
def State.descParsed (s : State) (dst src : CEnd) (off : Word) : Except Refuse (List Dim × Nat) :=
  let d := s.endOf true dst
  let c := s.endOf false src
  match s.copyCheck1 true dst src with
  | some r => .error r
  | none =>
    let bad10 : Refuse := (.illegalTarget, s.reason 10 off.toNat)
    if off.toNat % 64 ≠ 0 ∨ Config.bufSize .a < off.toNat + 160 then .error bad10
    else match descriptorOf (s.hereTile.readBuf .a off.toNat 160) (d.fmt?.isNone && c.fmt?.isNone) with
      | none => .error bad10
      | some (dims, b1) =>
        let (es, ed) := endSizes true b1 d c
        let bd := boundOf dims true ed
        let bs := boundOf dims false es
        let bad : Option Refuse := (descAlign d c es ed).or <| (s.copyWriters d).or <| (s.copyGlobal true .store d bd.1 bd.2 ed).or <|
          (s.copyGlobal true .load c bs.1 bs.2 es).or <| (copyFormats true d c 0 es).map fun f => (.illegalTarget, s.reason 12 f.toNat)
        match bad with
        | some r => .error r
        | none => .ok (dims, b1)

/-- The descriptor form of `cpy` (R300, R301). -/
def State.copyDesc (s : State) (cq : Fin 8) (dst src : CEnd) (off : Word) (tok : TokF) : State :=
  match s.descParsed dst src off with
  | .error r => s.raise r.1 r.2
  | .ok x => s.queueCopy cq (some x.1) x.2 (s.endOf true dst) (s.endOf false src) 0 tok

/-- `cpy.cqN` in the linear form (R299, R300). -/
def execCpy (cq : Fin 8) (dst src : CEnd) (cnt : Sreg) (tok : TokF) (s : State) : Result State :=
  .next (s.copyLinear cq dst src (s.sr cnt) tok)
/-- `cpy.cqN.d`, the descriptor form (R299 to R301). -/
def execCpyD (cq : Fin 8) (dst src : CEnd) (cnt : Sreg) (tok : TokF) (s : State) : Result State :=
  .next (s.copyDesc cq dst src (s.sr cnt) tok)
/-- COPY_COMPLETE (R302) of the operation `arg.op`. -/
def execCopyComplete (s : State) : Result State := .next (completeCopy s s.arg.op)
/-- ENGINE_SLOT_DELIVERED (R106, R303) of the operation `arg.op`. -/
def execEngineSlotDelivered (s : State) : Result State := .next (engineSlot s s.arg.op)

/-! ### Write-behind (R263) -/

/-- WBK_COMPLETE: an operation that has an entry of its queue, and whose bytes reach no channel in training (R344), reads its source and queues
its bytes as write-behind (R263). -/
def completeWbk (s : State) (id : Nat) : State :=
  match s.op? id with
  | none => s
  | some o => match o.agent, o.kind with
    | .tile p t, .wbk va b off g =>
      if !o.live then s
      else if !s.hasEntry o || s.endHeld o.agent (.glob va) 0 (64 * g) then s.scheduleFree .wbk .wbkComplete { p := p, t := t, op := id }
      else
        let data := (s.forkView o).readBuf b off (64 * g)
        let s1 := s.modThread o.agent o.th (noteRuns (some (b, off, 64)) none g)
        (s1.gPut o.agent va.toNat (o.wrec 8 data)).opDone id 0
    | _, _ => s

/-- WBK_COMPLETE (R263) of the operation `arg.op`. -/
def execWbkComplete (s : State) : Result State := .next (completeWbk s s.arg.op)

/-! ### Signals (R51, R315) -/

/-- What a signal leaves in its word (R51). -/
def sigResult (f : SigOp) (o v : Word) : Word :=
  match f with
  | .set => v
  | .add => o + v
  | .maxu => maxU o v

/-- A signal performed on an 8-byte word at a physical place: a remote atomic (R51), after which every wait at the head of its queue reads its
word (R338). -/
def State.signalAt (s : State) (l : Loc) (f : SigOp) (v : Word) : State :=
  (s.physWrite l (leBytes 8 (sigResult f (BitVec.ofNat 64 (s.physNat l 8)) v).toNat)).noteWaits

/-- Monitor source 0x04: a signal that reads its word has read one of the partition's HBM pages (R20). -/
def State.noteSignalRead (s : State) (o : EngOp) (l : Loc) (f : SigOp) : State :=
  match o.agent with
  | .tile p _ => if l.host ∨ f = .set then s else s.modPart p fun P => P.sample 4 (s.cycle - o.stamp)
  | .ctrl _ => s

/-- SIGNAL_COMPLETE of an instruction's signal: the atomic, a release at the thread's ceiling (R315). -/
def completeSignal (s : State) (id : Nat) : State :=
  match s.op? id with
  | none => s
  | some o => match o.kind with
    | .signal va f v =>
      if !o.live then s
      else
        let l : Loc := match o.agent with
          | .ctrl _ => ⟨false, va.toNat⟩
          | .tile p t => (((s.tile p t).extent va.toNat).map fun e => e.locOf va.toNat).getD ⟨false, 0⟩
        if s.rangeHeld l 8 then s.scheduleFree .signal .signalComplete s.arg
        else match s.poisonAt l 8 with
        | some u => (s.engineEcc o.agent ⟨false, max l.addr (32 * u)⟩ true).opDone id 0
        | none =>
          let s1 := (s.noteSignalRead o l f).signalAt l f v
          { s1 with tags := ⟨.word l, List.range 8, true, (s.thread o.agent o.th).ceil, o.agent, o.th, o.hb⟩ :: s1.tags }.opDone id 0
    | _ => s

/-- `signal` (R313, R315). -/
def execSignalInstruction (base v : Sreg) (op : SigOp) (disp : BitVec 20) (tok : TokF) (s : State) : Result State :=
  let ea := s.ea base disp
  .next (match accessCheck s .g ea 8 8 .atomic with
    | some r => s.raise r.1 r.2
    | none => s.engineDue (.signal ea op (s.sr v)) tok .signal .signalComplete)

/-- SIGNAL_COMPLETE (R51, R315) of the operation `arg.op`. -/
def execSignalComplete (s : State) : Result State := .next (completeSignal s s.arg.op)

end Sys2Proof.Machine
end

