-- ==== Sys2Proof/Machine/System.lean ====
section
/-!
DEFINITION. Control registers, traps, halts and `tlbi` (spec/16 R316 to R321; spec/09 R172 to R182).
-/

namespace Sys2Proof.Machine

/-! ### Control registers (R316, R318) -/

/-- A register number that the mode does not assign (R316). -/
def State.csrUnassigned (s : State) (n : BitVec 12) : Bool := decide (s.here.mode = .firmware) && !csrFirmware n

/-- `csrr` (R316, R318): class CS. -/
def execCsrr (d : Sreg) (n : BitVec 12) (s : State) : Result State :=
  .next (if s.csrUnassigned n then s.raise .illegalOp s.headWord
         else s.finish (s.writeS 2 d (csrRead s s.cur.agent s.cur.th n) 0))

/-- A format register's write takes effect for every later instruction of the tile (R98). -/
def isFmtCsr (n : BitVec 12) : Bool := decide (0x110 ≤ n.toNat) && decide (n.toNat ≤ 0x114)

/-- `csrw` of a value: PRIV with the register number, or the write, which lands at t + 2 (R318). -/
def State.csrwOp (s : State) (n : BitVec 12) (v : Word) : State :=
  if s.csrUnassigned n then s.raise .illegalOp s.headWord
  else if csrRefused s.here n then s.raise .priv (n.setWidth 64)
  else if isFmtCsr n then s.finish (csrWrite s s.cur.agent s.cur.th n v)
  else s.finish (s.modHere fun t => { t with pend := t.pend ++ [⟨s.cycle + 1, .csr n, v, 0⟩] })

/-- `csrw` of a register (R316). -/
def execCsrwReg (n : BitVec 12) (a : Sreg) (s : State) : Result State := .next (s.csrwOp n (s.sr a))
/-- `csrw` of an immediate (R316). -/
def execCsrwImm (n : BitVec 12) (imm : Word) (s : State) : Result State := .next (s.csrwOp n imm)

/-! ### Traps, returns and halts (R177, R319, R320) -/

/-- `trap` (R319). -/
def execTrap (code : BitVec 16) (s : State) : Result State := .next (s.raise .trap (code.setWidth 64))

/-- The head at an address, and whether it is a prefix. -/
def State.headAt (s : State) (a : Agent) (e : Addr) : BitVec 16 × Bool :=
  match decodeLine (s.lineBytes a (lineOfAddr e)) with
  | none => (0, false)
  | some hs => let r := rawUnit (hs.drop (headIdx e)); (((hs.drop (headIdx e)).head?.map (·.head)).getD 0, !r.pfxs.isEmpty)

/-- A return to %tepc, a control transfer (R218): on a legal target f applies. With PFX set and no prefix there, ORPHAN_PREFIX
(R177), charged to the returning unit as R218 charges an illegal target (DEDUCED, log entry 14). -/
def State.returnTo (s : State) (f : State → State) : State :=
  let t := s.here
  let s1 := s.finishAt s (some t.tepc)
  if (targetFault s s.cur.agent t.tepc).isSome then s1
  else if t.tpfx && !(s.headAt s.cur.agent t.tepc).2 then s.holdTarget t.tepc (.orphanPrefix, t.tepc.setWidth 64)
  else f s1

/-- `rft` (R177, R320). -/
def execRft (s : State) : Result State :=
  let t := s.here
  .next (match t.mode with
  | .task => s.raise .illegalOp s.headWord
  | .handler =>
    let v := maxVote t.hvote (if t.tforced then 1 else 0)
    s.returnTo fun s1 => (s1.modHereTile fun T => T.setFaultVote s.cur.th fun _ => v).modHere fun x =>
      { x.returnFromTrap s.cycle with readyAt := max x.readyAt (x.afterLanding s.cycle 4) }
  | .firmware => s.returnTo fun s1 => s1.modHere fun x =>
      { x with handling := false, readyAt := max x.readyAt (x.afterLanding s.cycle 4) })

/-- The stop of the default action: the thread counts as having executed `fix` (R175). -/
def Thread.stopUntilF (t : Thread) : Thread := { t with atfix := true, fixRec := none, wait := .fixed }

/-- `halt` (R320): in firmware mode it blocks until the next management event, and LoopEnd is applied then (R241). -/
def execHalt (s : State) : Result State :=
  .next (if s.here.mode = .firmware then s.orHold (s.block .stopped)
         else ((s.reportVote 2).modHere fun t => (t.castVote 2 0).stopUntilF))

/-! ### tlbi (R321) -/

/-- `tlbi` of n pages from vpn of partition p. -/
def State.tlbiOp (s : State) (p : Word) (vpn n : Nat) : State :=
  if s.here.mode ≠ .firmware then s.raise .priv s.headWord
  else if 63 < p.toNat ∨ !(s.part p.toNat).valid then s.raise .illegalTarget p
  else if n = 0 then s.finish s
  else s.blockFor .tlbi (.tlbi p.toNat vpn n)

/-- `tlbi` (R321). -/
def execTlbi (p v n : Sreg) (s : State) : Result State :=
  .next (s.tlbiOp (s.sr p) ((s.sr v).extractLsb' 16 41).toNat (s.sr n).toNat)
/-- `tlbi.all` (R321): every page. -/
def execTlbiAll (p : Sreg) (s : State) : Result State := .next (s.tlbiOp (s.sr p) 0 (2 ^ 41))

end Sys2Proof.Machine
end

