-- ==== Sys2Proof/Machine/Exchange.lean ====
section
/-!
DEFINITION. The exchange (spec/08 R148 to R160; spec/16 R307 to R309): routes and their regeneration, `xsync`, `xmit`, `xsel`, and
the rows EXCHANGE_BARRIER, EXCHANGE_RELEASE, XMIT_SLOT, DATUM_LANDED and XSEL_SLOT.
-/

namespace Sys2Proof.Machine

/-! ### Routers and routes (R36, R154, R155) -/

/-- The router one hop from a router (die × 64 + y × 8 + x) in a direction: across a die-crossing port at the two corners, none off
another edge of the package (R7, R154). -/
def hop (r d : Nat) : Option Nat :=
  let die := r / 64
  let x := r % 8
  let y := r / 8 % 8
  match d with
  | 0 => if y < 7 then some (r + 8) else none
  | 1 => if x < 7 then some (r + 1) else if y = 0 then some ((die + 1) % 4 * 64) else none
  | 2 => if 0 < y then some (r - 8) else none
  | _ => if 0 < x then some (r - 1) else if y = 0 then some ((die + 3) % 4 * 64 + 7) else none

/-- The die-crossing port of a hop that leaves its die: 32 + 2 × die eastward and the next westward (R7). -/
def crossing (r d : Nat) : Option Nat :=
  if d = 1 ∧ r % 64 = 7 then some (32 + 2 * (r / 64)) else if d = 3 ∧ r % 64 = 0 then some (33 + 2 * (r / 64)) else none

/-- The Hinath port at the edge that a hop from a router leaves by, from the table of R154. -/
def hinathPort (r d : Nat) : Option Nat :=
  (([(1, 7, 0), (3, 7, 0), (4, 7, 0), (6, 7, 0), (0, 3, 3), (7, 3, 1), (0, 5, 3), (7, 5, 1)] : List (Nat × Nat × Nat)).findIdx? fun e =>
    e = (r % 8, r / 8 % 8, d)).map fun k => 8 * (r / 64) + k

/-- The router that carries a Hinath port, and the edge on which it stands (R154). -/
def portEdge (k : Nat) : Nat × Nat :=
  (([(1, 7, 0), (3, 7, 0), (4, 7, 0), (6, 7, 0), (0, 3, 3), (7, 3, 1), (0, 5, 3), (7, 5, 1)] : List (Nat × Nat × Nat))[k % 8]?.map fun e =>
    (64 * (k / 8) + 8 * e.2.1 + e.1, e.2.2)).getD (0, 0)

/-- The link by which data come in through a Hinath port: it stands beside the 256 routers' own links. -/
def inLink (k : Nat) : Nat × Nat := (256 + k, 0)

/-- The port that a mesh link goes through. -/
def linkPort (l : Nat × Nat) : Option Nat := if 256 ≤ l.1 then some (l.1 - 256) else match hop l.1 l.2 with
  | some _ => crossing l.1 l.2
  | none => hinathPort l.1 l.2

/-- A turn's new heading (R154). -/
def turned (d turn : Nat) : Nat := match turn with
  | 1 => (d + 3) % 4
  | 2 => (d + 1) % 4
  | _ => d

/-- Turn j of a route word (R308). -/
def routeTurn (w : Word) (j : Nat) : Nat := w.toNat / 2 ^ (8 + 2 * j) % 4

/-- The walk of R155 from a router: the ejecting router and the links used, or the index of the turn that fails. A route of a system
group ends, as far as this package sees it, at the Hinath port through which it leaves (`far`, R150, R154): the port, and the turn that took
it there; one of the turns left to it ejects. -/
def walkRoute (ok eject : Nat → Bool) (portOk : Nat → Bool) (far : Bool) (w : Word) :
    (fuel : Nat) → (r d : Nat) → (links : List (Nat × Nat)) → Except Nat (Nat × Option (Nat × Nat) × List (Nat × Nat))
  | 0, _, _, _ => .error 28
  | n + 1, r, d, ls =>
    let j := 27 - n
    let k := routeTurn w j
    if !ok r then .error j
    else if k = 3 then (if eject r then .ok (r, none, ls) else .error j)
    else
      let e := turned d k
      match hop r e with
      | none => match hinathPort r e with
        | some q => if !(far && portOk q) then .error j
          else if (List.range n).any fun i => routeTurn w (j + 1 + i) = 3 then .ok (r, some (q, j), ls ++ [(r, e)]) else .error 28
        | none => .error j
      | some r' => if ok r' && ((crossing r e).map portOk).getD true then walkRoute ok eject portOk far w n r' e (ls ++ [(r, e)]) else .error j

/-- The physical pods of a partition. -/
def State.podsOf (s : State) (p : Nat) : List Nat := (List.range (s.part p).len).map (s.physPod p)

/-- A router that a route of a partition may use (R155). -/
def State.routerOk (s : State) (p r : Nat) : Bool :=
  ((s.podsOf p).contains r || s.disabled.getLsbD r) && !s.retired.routers.contains r
def State.portUp (s : State) (k : Nat) : Bool := !s.retired.ports.contains k && !(s.ports.toList.getD k Port.zero).failed

/-- The tile that a router and a tile index name in a partition. -/
def State.tileAt (s : State) (p r i : Nat) : Option Nat := ((s.podsOf p).findIdx? (· = r)).map fun k => 8 * k + i

/-- A route walked over the routers of a partition from one of them. -/
def State.walk (s : State) (p : Nat) (far : Bool) (w : Word) (r d : Nat) (links : List (Nat × Nat)) : Except Nat (Nat × Option (Nat × Nat) × List (Nat × Nat)) :=
  walkRoute (s.routerOk p) (fun r => (s.podsOf p).contains r) s.portUp far w 28 r d links

/-- The walk of a route word from a tile (R155). -/
def State.walkFrom (s : State) (p t : Nat) (w : Word) : Except Nat (Nat × Option (Nat × Nat) × List (Nat × Nat)) :=
  s.walk p (s.part p).sysGroup w (s.physPod p (t / 8)) (w.toNat % 4) []

/-- The destination tile and links of a route word from a tile, or the failing turn's index (R155); 2,048 and the port's number where
the route leaves the package. -/
def State.route (s : State) (p t : Nat) (w : Word) : Except Nat (Nat × List (Nat × Nat)) :=
  if w.getLsbD 7 then .error 0
  else match s.walkFrom p t w with
    | .error j => .error j
    | .ok (_, some q, ls) => .ok (2048 + q.1, ls)
    | .ok (r, none, ls) => match s.tileAt p r (w.extractLsb' 4 3).toNat with
      | some u => .ok (u, ls)
      | none => .error 0

/-- A route word without its turns up to the j-th: what is left for the package at the far end of a link (R154). -/
def routeRest (w : Word) (j : Nat) : Word := (w >>> (2 * (j + 1)) &&& ~~~0xFF) ||| (w &&& 0xFF)

/-- What is left of a route word where it leaves the package. -/
def State.routeLeft (s : State) (p t : Nat) (w : Word) : Word := match s.walkFrom p t w with
  | .ok (_, some q, _) => routeRest w q.2
  | _ => 0

/-- The tile and links that a datum which comes in through a Hinath port reaches, heading inward, over what is left of its route (R154); a
route crosses at most one Hinath link (R150). -/
def State.routeIn (s : State) (p k : Nat) (w : Word) : Option (Nat × List (Nat × Nat)) :=
  let e := portEdge k
  match s.walk p false w e.1 ((e.2 + 2) % 4) [inLink k] with
  | .ok (r, none, ls) => (s.tileAt p r (w.extractLsb' 4 3).toNat).map fun u => (u, ls)
  | _ => none

/-! ### Relocation tables and regeneration (R156, R157) -/

/-- A relocation entry (R157). -/
structure Reloc where
  word : Nat
  unit : Nat
  src : Nat
  dst : Nat
  port : Nat
  deriving DecidableEq, Repr

/-- The tables that the records of a partition name, each once, as (address, entries). -/
def Partition.relocTables (P : Partition) : List (Nat × Nat) :=
  ((P.recs.map fun r => (leNat (bytesAt r.image 88 8), leNat (bytesAt r.image 96 4))).filter fun x => x.1 != 0).dedup

/-- The entries of a partition's tables, from the committed image. -/
def State.relocs (s : State) (p : Nat) : List Reloc :=
  let P := s.part p
  P.relocTables.flatMap fun x => (List.range x.2).map fun i =>
    let b := s.vread P.trans (x.1 + 32 * i) 32
    let f (k n : Nat) : Nat := leNat (bytesAt b k n)
    ⟨f 0 8, f 8 8, f 16 2, f 18 2, f 20 1⟩

/-- Distances in hops to a router over allowed routers: one list of routers for each distance. -/
def levels (ok : Nat → Bool) (portOk : Nat → Bool) : (fuel : Nat) → (front seen : List Nat) → List (List Nat)
  | 0, _, _ => []
  | n + 1, front, seen =>
    let next := ((List.range 256).filter fun r => ok r && !seen.contains r && (List.range 4).any fun d =>
      match hop r d with
      | some q => front.contains q && ((crossing r d).map portOk).getD true
      | none => false)
    front :: (if next = [] then [] else levels ok portOk n next (next ++ seen))

/-- The number of hops from a router, by the lists of distances. -/
def distOf (ls : List (List Nat)) (r : Nat) : Option Nat := ls.findIdx? fun l => l.contains r

/-- The least turns of a shortest path from a router with a heading, k hops from the goal (R156). -/
def leastTurns (ls : List (List Nat)) (portOk : Nat → Bool) : (k r d : Nat) → Option (List Nat)
  | 0, _, _ => some [3]
  | k + 1, r, d => [0, 1, 2].findSome? fun t =>
    let e := turned d t
    match hop r e with
    | some q => if distOf ls q = some k ∧ ((crossing r e).map portOk).getD true then (leastTurns ls portOk k q e).map (t :: ·) else none
    | none => none

/-- The regenerated route word for an entry: starting direction and turns least, tile and port as before (R156). -/
def State.regenerate (s : State) (p : Nat) (e : Reloc) : Option Word :=
  let a := s.physPod p (e.src / 8)
  let b := s.physPod p (e.dst / 8)
  let ls := if s.routerOk p b then levels (s.routerOk p) s.portUp 28 [b] [b] else []
  match distOf ls a with
  | none => none
  | some k => if !s.routerOk p a then none else ((List.range 4).findSome? fun d => (leastTurns ls s.portUp k a d).map fun ts => (d, ts)).map fun x =>
      BitVec.ofNat 64 (x.1 + 4 * (e.port % 4) + 16 * (e.dst % 8) + (x.2.zipIdx.map fun t => t.1 * 2 ^ (8 + 2 * t.2)).sum)

/-- The size class of a partition (R150): its base lead and its flight allowance in slots. -/
def sizeClass (len : Nat) : Nat × Nat := if len ≤ 1 then (64, 2) else if len ≤ 16 then (128, 8) else if len ≤ 64 then (256, 24) else (512, 64)
/-- A partition of a system group is of class 4 (R150). -/
def Partition.sizeClass (P : Partition) : Nat × Nat := if P.sysGroup then (2048, 112) else Machine.sizeClass P.len
def Partition.baseLead (P : Partition) : Nat := P.sizeClass.1
def Partition.flightSlots (P : Partition) : Nat := P.sizeClass.2

/-- The slot of the `xmit` unit at an address of the committed code. -/
def State.xmitSlotAt (s : State) (p va : Nat) : Option Nat :=
  let la := va / 64 * 64
  match decodeLine (s.vread (s.part p).trans la 64) with
  | none => none
  | some hs => match decodeUnit (hs.drop (va % 64 / 2)) with
    | .ok u => (match u.instr with | .xmit sl .. => some sl.toNat | _ => none)
    | .error _ => none

/-- A regenerated route's time exceeds the flight allowance (R150). -/
def routeLate (P : Partition) (ls : List (Nat × Nat)) : Bool :=
  decide (8 * P.flightSlots < 2 * ls.length + 24 * (ls.filter fun l => (crossing l.1 l.2).isSome).length + 12)

/-- Firmware regenerates a partition's routes: the new words by address of the entries, and whether the partition becomes
arbitrated (R156). -/
def State.newRoutes (s : State) (p : Nat) : List (Nat × Word) × Bool :=
  let es := s.relocs p
  let ws := es.map fun e => (e, s.regenerate p e)
  let uses := ws.filterMap fun x => match x.2 with
    | none => none
    | some w => match s.route p x.1.src w with
      | .ok (u, ls) => some (s.xmitSlotAt p x.1.unit, u, x.1.port, ls, routeLate (s.part p) ls)
      | .error _ => none
  let clash : Bool := uses.zipIdx.any fun x => uses.zipIdx.any fun y => decide (x.2 < y.2) && decide (x.1.1 = y.1.1) &&
    (decide (x.1.2.1 = y.1.2.1 ∧ x.1.2.2.1 = y.1.2.2.1) || x.1.2.2.2.1.any fun l => y.1.2.2.2.1.contains l)
  (ws.filterMap fun x => x.2.map fun w => (x.1.word, w),
   (ws.any fun x => x.2.isNone) || (uses.any fun u => u.2.2.2.2) || clash)

/-- Regeneration by firmware: the route words are written as outside writes, seen by all but partition `except` at its next fix or
wash point, and lines in the code line buffers are refreshed (R156, R157). -/
def State.regenerateNow (s : State) (except : Option Nat) (p : Nat) : State :=
  let r := s.newRoutes p
  let s1 := r.1.foldl (fun s x => s.outsideVwrite except (s.part p).trans x.1 (leBytes 8 x.2.toNat)) s
  let hit (la : Nat) : Bool := r.1.any fun x => decide (x.1 / 64 * 64 = la)
  let refresh (T : Tile) : Tile := { T with lines := T.lines.map fun l =>
      if (hit l.addr.toNat) then ⟨l.addr, s1.vread (s1.part p).trans l.addr.toNat 64⟩ else l }
  let ls := r.1.filterMap fun x => translate (s.part p).trans (x.1 / 64 * 64)
  if except = none then s1.modPart p fun P => { P with arbitrated := r.2 }
  else s1.modPart p fun P => { P with arbitrated := r.2, tiles := P.tiles.map refresh,
                                      codeOld := P.codeOld.filter fun o => !ls.any fun l => decide (l.host = o.1.host) && decide (l.addr ≤ o.1.addr) && decide (o.1.addr < l.addr + 64) }

/-- What has been retired changes the routes of every partition (R157): at once where it stands still, else at its next wash point, or when it
comes to stand still. -/
def State.regenerateAll (s : State) : State :=
  (List.range s.parts.length).foldl (fun s p =>
    if !(s.part p).valid then s
    else if (s.part p).still then s.regenerateNow (some p) p else s.modPart p fun P => { P with regen := true }) s

/-- Routes that wait to be regenerated are, as the partition stands still or is at a wash point (R157). -/
def State.regenerateDue (s : State) (p : Nat) : State :=
  if (s.part p).regen then (s.regenerateNow (some p) p).modPart p fun P => { P with regen := false } else s

/-! ### Ports that a partition uses (R15, R167, R191) -/

/-- The bases of the regions a tile has contributed to. -/
def Tile.bases (T : Tile) : List Nat := (T.contribs.map (·.base)).dedup

/-- The bases of the regions that the running launch has contributed to, in increasing order (R167). -/
def Partition.bases (P : Partition) : List Nat := (((List.range P.tiles.length).filter P.inSpan).flatMap fun t => (P.tile t).bases).dedup.insertionSort (· ≤ ·)

/-- The dies that the streams of a region pass: from the first contributor's, in rank order, to the last's (R163, R167). -/
def State.streamDies (s : State) (p base : Nat) : List Nat :=
  let P := s.part p
  match regionOf s P.transNow P.tiles.length base with
  | none => []
  | some r =>
    let ds := (P.contributors r).map fun t => s.physPod p (t / 8) / 64
    (List.range 4).filter fun d => ds.any (fun x => decide (x ≤ d)) && ds.any fun x => decide (d ≤ x)

/-- The regions that are reduced in the sequencers, with the sequencers on their paths: in increasing order of base each takes one of the partition's
slots in the home sequencer of every die that its streams pass, where all have one free, none is retired, and none stands in a port that is
(R167). -/
def State.seqRegions (s : State) (p : Nat) : List (Nat × List Nat) :=
  (s.part p).bases.foldl (fun rs b =>
    let path := (s.streamDies p b).map fun d => 32 + 2 * d
    if path.all fun k => !s.retired.sequencers.contains k && s.portUp k && decide ((rs.filter fun x => x.2.contains k).length < (s.part p).redSlots)
    then rs ++ [(b, path)] else rs) []

/-- The ports that the streams of a region go through: the home ports of the dies they pass, and the far end of every crossing (R167). -/
def crossed (path : List Nat) : List Nat := path ++ path.dropLast.map fun k => 33 + 2 * (((k - 32) / 2 + 1) % 4)

/-- The ports on the reduction paths of a superstep (R167, R191). -/
def State.redPath (s : State) (p : Nat) : List Nat := (s.seqRegions p).flatMap fun x => crossed x.2

/-- The die-crossing ports between die d and the next one: this end's and the other's (R7). -/
def crossEnds (d : Nat) : List Nat := [32 + 2 * (d % 4), 33 + 2 * ((d + 1) % 4)]

/-- The arc of dies that a partition's barrier tree spans: its first die and its number of crossings. The tree joins the partition's dies, and those of
its ports to other packages, over the crossings of the ring that are up; of several arcs it takes one with the fewest crossings, then one on which the last die is the nearest to the
root's, then the one that begins at the lowest die (R7, R80, R191; DESIGN CHOICE, log entry 40). -/
def State.treeArc (s : State) (p : Nat) : Option (Nat × Nat) :=
  let dies := ((s.podsOf p).map (· / 64) ++ ((s.part p).up.toList ++ (s.part p).down).map (· / 8)).dedup
  let place (a d : Nat) : Nat := (d + 4 - a) % 4
  let depth (x : Nat × Nat) : Nat := let i := place x.1 (s.physPod p 0 / 64); max i (x.2 - i)
  let joins (x : Nat × Nat) : Bool := (dies.all fun d => decide (place x.1 d ≤ x.2)) && (List.range x.2).all fun k => (crossEnds (x.1 + k)).all s.portUp
  let key (x : Nat × Nat) : Nat := 100 * x.2 + 10 * depth x + x.1
  (((List.range 4).flatMap fun a => (List.range 4).map fun n => (a, n)).filter joins).foldl (fun m x => match m with
    | some y => if key x < key y then some x else some y
    | none => some x) none

/-- The die-crossing ports that a partition's barrier tree goes through. -/
def State.treeCrossings (s : State) (p : Nat) : List Nat :=
  ((s.treeArc p).map fun x => (List.range x.2).flatMap fun k => crossEnds (x.1 + k)).getD []

/-- A barrier-tree edge of a partition goes through a port: a die-crossing one between two dies that its tree joins, or a Hinath one where its tree
leaves by it. -/
def State.treePort (s : State) (p k : Nat) : Bool :=
  let P := s.part p
  if k < 32 then decide (P.up = some k) || P.down.contains k else (s.treeCrossings p).contains k

/-- A route of the partition's superstep goes through a port: that of a transfer queued or made, of a datum on its way, or of one that has come in
through it (R15, R155, R191). -/
def State.routePort (s : State) (p k : Nat) : Bool :=
  let P := s.part p
  let by_ (ls : List (Nat × Nat)) : Bool := ls.any fun l => decide (linkPort l = some k)
  P.inPorts.contains k || (P.flight.any fun x => by_ x.links) || s.ops.any fun o => (match o.agent with
    | .tile q _ => decide (q = p)
    | .ctrl _ => false) && (match o.kind with
    | .xmit _ _ _ ls .. => by_ ls
    | _ => false)

/-- A route, a reduction path or a barrier-tree edge of a partition's superstep goes through a port (R191). -/
def State.usesPort (s : State) (p k : Nat) : Bool :=
  (s.part p).valid && (s.treePort p k || (s.redPath p).contains k || s.routePort p k)

/-- The ports that the routes of a partition go through: the routes that its relocation tables give, and those of its superstep (R20, R157; DEDUCED,
log entry 40). -/
def State.routesUse (s : State) (p k : Nat) : Bool :=
  (s.part p).valid && (s.routePort p k || (s.relocs p).any fun e =>
    let w : Word := BitVec.ofNat 64 (leNat (s.vread (s.part p).trans e.word 8))
    match s.route p e.src w with
    | .ok x => x.2.any fun l => decide (linkPort l = some k)
    | .error _ => false)

/-- A partition may use a port: its superstep does, one of its routes goes through it, as its relocation tables give them, or it joins the partition
with another member of its system group (R15). -/
def State.mayUsePort (s : State) (p k : Nat) : Bool :=
  s.usesPort p k || s.routesUse p k || ((s.part p).valid && ((s.part p).links.any fun x => decide (x.1 = k)))

/-- The port of a partition's tree toward the package above, while its link is up. -/
def State.upPort (s : State) (p : Nat) : Option Nat := (s.part p).up.filter s.portUp
/-- The ports of its tree toward the packages below whose links are up. -/
def State.downPorts (s : State) (p : Nat) : List Nat := (s.part p).down.filter s.portUp

/-! ### Sending a flit (R12, R14) -/

def State.port (s : State) (k : Nat) : Port := s.ports.toList.getD k Port.zero
def State.modPort (s : State) (k : Nat) (f : Port → Port) : State :=
  if h : k < 40 then { s with ports := s.ports.set k (f s.ports[k]) } else s

/-- A port takes a flit to send into its queue. -/
def State.sendFlit (s : State) (k cls part : Nat) (payload : List Byte) : State :=
  s.modPort k fun p => { p with queue := enqueueFlit p.queue ⟨cls, part, payload, false⟩ }

/-- The payload of a barrier message (R80). -/
def BarMsg.bytes (m : BarMsg) : List Byte :=
  leBytes 8 (m.vote.toNat + m.flost.toNat * 2 ^ 2 + m.skewf.toNat * 2 ^ 3 + m.cause.code * 2 ^ 8 + m.ctile % 2048 * 2 ^ 16 + m.pev.toNat * 2 ^ 27 +
    m.ssn.toNat * 2 ^ 32) ++ leBytes 8 m.detail.toNat ++ leBytes 8 m.latest ++ leBytes 4 m.orv.toNat ++ leBytes 4 m.maxv.toNat

/-- The message of an exchange barrier or of its release (R148, R149): VOTE, CAUSE and CTILE zero. Its detail, which a commit's message has at
zero, is not zero: 3 where the exchange phase is asked for, else 1 (DESIGN CHOICE, log entry 34). -/
def exchMsg (need skewf : Bool) (ssn : BitVec 32) (latest : Nat) : BarMsg :=
  { vote := 0, flost := false, skewf := skewf, cause := .none, ctile := 0, pev := false, ssn := ssn, detail := if need then 3 else 1, latest := latest, orv := 0, maxv := 0 }

/-- A barrier message is one of the exchange barrier. -/
def BarMsg.isExch (m : BarMsg) : Bool := decide (m.vote = 0) && decide (m.detail ≠ 0)

/-! ### The exchange barrier and release (R148, R149) -/

/-- An engine operation of a tile. -/
def EngOp.ofTile (o : EngOp) (p t : Nat) : Bool := decide (o.agent = .tile p t)
def EngOp.ofPart (o : EngOp) (p : Nat) : Bool := match o.agent with
  | .tile q _ => decide (q = p)
  | .ctrl _ => false

/-- A tile holds tasks of the running launch. -/
def Tile.active (T : Tile) : Bool := T.threads.any fun t => decide (t.task ≠ .absent)

/-- Every unfinished task of the tile has executed `xsync` or `fix` (R148). -/
def Tile.atBarrier (T : Tile) : Bool := T.active && T.threads.all fun t => decide (t.task ≠ .running) || t.xsynced || t.atfix

/-- The threads with an unfinished task that have executed `xsync` or `fix`: those that raise the barrier (R148, R158). -/
def Tile.raising (T : Tile) : List Nat :=
  (List.range T.threads.length).filter fun i => decide ((T.thread i).task = .running) && ((T.thread i).xsynced || (T.thread i).atfix)

/-- The logical tiles of the running launch's span. -/
def Partition.spanTiles (P : Partition) : List Nat := (List.range P.tiles.length).filter P.inSpan

/-- Every tile of the span has raised the exchange barrier. -/
def Partition.allRaised (P : Partition) : Bool := P.spanTiles.all fun t => (P.tile t).barrier

/-- The superstep has an exchange phase (R148). -/
def State.exchangeNeeded (s : State) (p : Nat) : Bool :=
  let P := s.part p
  (P.spanTiles.any fun t => !(P.tile t).contribs.isEmpty || (P.tile t).threads.any fun th => th.xsynced) ||
    s.ops.any fun o => o.ofPart p && (match o.kind with | .enl .. => true | _ => false)

/-- The time by which no port that the partition may use is inside a width change (R15). -/
def State.portsFree (s : State) (p S : Nat) : Nat :=
  s.ports.toList.zipIdx.foldl (fun m x => if s.cycle < x.1.pausedUntil ∧ s.mayUsePort p x.2 then
    max m (s.ptime.toNat + (x.1.pausedUntil - s.cycle)) else m) S

/-- The exchange phase is asked for here, or by a package below (R148). -/
def State.exchangeAsked (s : State) (p : Nat) : Bool := s.exchangeNeeded p || (s.part p).xbar.need

/-- Nothing of a partition can still ask for the exchange phase: its tasks have all fixed, and no operation is under way. -/
def State.nothingMore (s : State) (p : Nat) : Bool :=
  ((s.part p).spanTiles.all fun t => (s.tile p t).threads.all fun th => decide (th.task ≠ .running) || th.atfix) && !(s.ops.any fun o => o.live && o.ofPart p)

/-- Every tile of the package and every package below has raised the exchange barrier (R148), and there is something to do: the root has a
phase to begin, be it for a contribution that an operation made after the last tile raised it (R148, R168); below a root the one message of
the barrier is to go up (R41), as soon as it is known what it asks. -/
def State.exchangeDue (s : State) (p : Nat) : Bool :=
  let P := s.part p
  P.exchS.isNone && P.allRaised && ((s.downPorts p).all fun k => P.xbar.kids.contains k) &&
    (s.exchangeAsked p || ((s.upPort p).isSome && s.nothingMore p)) && !((s.upPort p).isSome && P.xbar.sent)

/-- The tiles that an exchange release reaches: those of the span, and with SKEWF every tile of the partition (R149, R160). -/
def Partition.releaseTiles (P : Partition) (skew : Bool) : List Nat := if skew then List.range P.tiles.length else P.spanTiles

/-- An exchange release with a start time goes to the tiles, at the root's distance or at a time that no table gives (log entry 1), and on to the
packages below (R149). -/
def State.exchRelease (s : State) (p S : Nat) (skew : Bool) (root : Bool) : State :=
  let P := s.part p
  let go (s : State) (t : Nat) : State :=
    if root then s.schedule Config.releaseCycles .exchangeRelease { p := p, t := t } else s.scheduleFree .release .exchangeRelease { p := p, t := t }
  (s.downPorts p).foldl (fun s k => s.sendFlit k 0 p (exchMsg true skew (nextSsn P.ssn) S).bytes)
    ((P.releaseTiles skew).foldl go (s.modPart p fun P => { P with exchS := some S, exchSkew := skew }))

/-- Once every tile has raised the barrier, the root sends the release with its start time (R149); a package below one sends the exchange
barrier's message up. -/
def State.startExchange (s : State) (p : Nat) : State :=
  let P := s.part p
  let skew := s.timing.skew || P.xbar.skewf
  if !s.exchangeDue p then s
  else match s.upPort p with
    | some k => (s.modPart p fun P => { P with xbar := { P.xbar with sent := true } }).sendFlit k 0 p
        (exchMsg (s.exchangeAsked p) skew (nextSsn P.ssn) P.xbar.latest).bytes
    | none => s.exchRelease p (s.portsFree p (P.xbar.latest + P.lead)) skew true

/-- A message of the exchange barrier from another package: a package below has raised it, or the release comes from above (R148, R149). -/
def State.takeExchange (s : State) (k p : Nat) (m : BarMsg) : State :=
  let P := s.part p
  if P.up = some k then (if P.exchS.isSome then s else s.exchRelease p (s.portsFree p m.latest) m.skewf false)
  else if P.down.contains k then
    (s.modPart p fun P => { P with xbar := { P.xbar with kids := k :: P.xbar.kids, need := P.xbar.need || decide (m.detail.getLsbD 1), skewf := P.xbar.skewf || m.skewf
                                                         latest := max P.xbar.latest m.latest } }).startExchange p
  else s

/-- EXCHANGE_BARRIER of a tile: what its threads have done so far happens before its transfers (R124, R148). -/
def raiseBarrier (s : State) (p t : Nat) : State :=
  let T := s.tile p t
  if T.atBarrier && !T.barrier then
    ((s.modTile p t fun T => { T with barrier := true, raisers := T.raising, syncHb := joinSync T.syncHb 0 (T.threads.foldl (fun h th => joinHb th.hb h) []) }).modPart p
      fun P => { P with xbar := { P.xbar with latest := max P.xbar.latest s.ptime.toNat } }).startExchange p
  else s.startExchange p

/-- EXCHANGE_BARRIER (R148) of tile `arg.t` of partition `arg.p`. -/
def execExchangeBarrier (s : State) : Result State := .next (raiseBarrier s s.arg.p s.arg.t)

/-- Exchange data of a partition moves by tag match (R160). -/
def Partition.byTag (P : Partition) : Bool := P.arbitrated || P.exchSkew

/-- The slot action of a transfer is due (R152), or its datum is sent under arbitrated delivery (R160). -/
def State.slotDue (s : State) (p t : Nat) (o : EngOp) : State :=
  let P := s.part p
  let at_ (k d : Nat) : Nat := P.exchS.getD 0 + 8 * k + d - s.ptime.toNat
  let arg : Arg := { p := p, t := t, op := o.id }
  match o.kind with
  | .xmit k .. => if P.byTag then s.scheduleFree .transfer .xmitSlot arg else s.schedule (at_ k 0) .xmitSlot arg
  | .xsel k .. => if P.byTag then s else s.schedule (at_ k 7) .xselSlot arg
  | .enl .. => s.scheduleFree .enl .enlTransfer arg
  | _ => s

/-- LATE: the lead in force as the detail (R159). -/
def State.lateAt (s : State) (p t i : Nat) (u : IssueUnit) : State :=
  trapTile s p t i .late (BitVec.ofNat 64 (s.part p).lead) u 0

/-- EXCHANGE_RELEASE at a tile, before the superstep is decided (R185): `xsync` completes, SKEW or LATE is raised, and queued transfers get their times (R149, R159,
R160). A tile without a task of the launch records SKEW alone. -/
def releaseTile (s : State) (p t : Nat) : State :=
  let P := s.part p
  let T := P.tile t
  match P.exchS with
  | none => s
  | some S =>
    if T.released ∨ P.decision.isSome then s
    else
      let s1 := if P.exchSkew then tileEvent s p t .skew 0 (BitVec.ofNat 64 s.timing.seen) 0 else s
      if !P.inSpan t then s1 else
      let s2 := s1.modTile p t fun T => { T with released := true }
      let s3 := if !P.byTag && decide (S ≤ s.ptime.toNat) then
          (match (List.range T.threads.length).find? fun i => (T.thread i).xsynced with
          | some i => s2.lateAt p t i (T.thread i).unit
          | none => s2)
        else s2
      (s.ops.filter fun o => o.live && o.ofTile p t).foldl (fun s o => s.slotDue p t o) s3

/-- EXCHANGE_RELEASE (R149) at tile `arg.t` of partition `arg.p`. -/
def execExchangeRelease (s : State) : Result State := .next (releaseTile s s.arg.p s.arg.t)

/-! ### Instructions (R307 to R309) -/

/-- `xsync` (R307): a second one completes at once (R148). -/
def execXsync (s : State) : Result State :=
  .next (s.tileOnly (if s.here.xsynced then s.finish s else s.orHold ((s.modHere fun t => { t with xsynced := true }).block .xsync)))

/-- The (slot, kind, port) of a queued transfer. -/
def EngOp.slotOf (o : EngOp) : Option (Nat × Option Nat) :=
  match o.kind with
  | .xmit k .. => some (k, none)
  | .xsel k q _ => some (k, some q)
  | _ => none

/-- A transfer is queued, where its slot is free and has not begun (R152, R159). -/
def State.queueTransfer (s : State) (k : Nat) (port : Option Nat) (walk : Option Refuse) (kind : OpKind) (tok : TokF) : State :=
  if (s.ops.any fun o => decide (o.agent = s.cur.agent) && decide (o.slotOf = some (k, port))) then s.raise .illegalTarget (s.reason 16 k)
  else match walk with
    | some r => s.raise r.1 r.2
    | none =>
      let P := s.herePart
      if !P.byTag && ((P.exchS.map fun S => decide (S + 8 * k ≤ s.ptime.toNat)).getD false) then
        s.raise .late (BitVec.ofNat 64 P.lead)
      else
        let s1 := s.engine kind tok
        match (if s1.opCtr = s.opCtr ∨ !s.hereTile.released then none else s1.op? s.opCtr) with
        | some o => s1.slotDue s.hereP s.hereT o
        | none => s1

/-- The destination that the relocation tables give the `xmit` at an address (R157). -/
def State.relocDst (s : State) (p va : Nat) : Option Nat := ((s.relocs p).find? fun e => e.unit = va).map (·.dst)

/-- `xmit` (R308, R309). -/
def execXmit (slot : BitVec 12) (off : BitVec 16) (idx : Fin 8) (srcC : Bool) (soff : BitVec 12) (tok : TokF) (s : State) : Result State :=
  let b : Buf := if srcC then .c else .a
  let src := 64 * soff.toNat
  .next (s.tileOnly (s.withTable (s.tableAt off) 1 fun bs =>
    let w : Word := BitVec.ofNat 64 (leNat (bytesAt bs (8 * idx.val) 8))
    let r := s.route s.hereP s.hereT w
    let walk : Option Refuse := match r with
      | .error j => if s.herePart.arbitrated then none else some (.illegalTarget, s.reason 18 j)
      | .ok _ => none
    let dst : Nat × List (Nat × Nat) := if s.herePart.arbitrated then
        ((s.relocDst s.hereP s.unit.addr.toNat).getD (match r with | .ok x => x.1 | .error _ => 2048), [])
      else (match r with | .ok x => x | .error _ => (2048, []))
    s.queueTransfer slot.toNat none walk
      (.xmit slot.toNat (w.extractLsb' 2 2).toNat dst.1 dst.2 b src (s.hereTile.fmtAt b src) (s.routeLeft s.hereP s.hereT w)) tok))

/-- `xsel` (R308, R309). -/
def execXsel (slot : BitVec 12) (port : Fin 4) (doff : BitVec 12) (tok : TokF) (s : State) : Result State :=
  .next (s.tileOnly (s.queueTransfer slot.toNat (some port.val) none (.xsel slot.toNat port.val (64 * doff.toNat)) tok))

/-! ### Slots (R152 to R160) -/

/-- The detail of SLIP (R158). -/
def slipDetail (k port : Nat) : Word := BitVec.ofNat 64 (k % 4096 + 4096 * port)

/-- SLIP for a datum that no `xsel` takes: on the lowest-numbered thread that raised the barrier (R158). -/
def State.slipTile (s : State) (p t k port : Nat) : State :=
  let T := s.tile p t
  if T.voted ∨ (s.part p).decision.isSome then s
  else match T.raisers.head? with
    | some i => trapTile s p t i .slip (slipDetail k port) (T.thread i).unit 0
    | none => s

/-- Data of a partition on its way changed. -/
def Partition.modFlight (P : Partition) (f : Datum → Datum) : Partition := { P with flight := P.flight.map f }

/-- A datum leaves through a Hinath port in flits of its partition's wire slots, or by its tags over the memory network under arbitrated delivery
(R12, R154, R160); what their payloads hold the manual does not say (log entry 34). -/
def State.sendFar (s : State) (p k : Nat) (d : Datum) : State :=
  if (s.part p).byTag then (Config.tagPayload k d.rest.toNat d.slot d.fmt d.bytes).foldl (fun s b => s.sendFlit k 3 p (b.take 240)) s
  else (Config.slotPayload d.rest.toNat d.slot d.fmt d.bytes).foldl (fun s b => s.sendFlit k 2 p (b.take 240)) s

/-- A datum is on its way: of two that need one link in one slot both are lost (R155). -/
def Partition.fly (P : Partition) (d : Datum) : Partition :=
  let hit (x : Datum) : Bool := !P.byTag && decide (x.slot = d.slot) && x.links.any fun l => d.links.contains l
  { P with flight := (P.flight.map fun x => if hit x then { x with lost := true } else x) ++ [{ d with lost := d.lost || P.flight.any hit }] }

/-- What the tasks of a partition did before their tiles raised the exchange barrier: it happens before every transfer (R124). -/
def Partition.exchHb (P : Partition) : List Nat := P.spanTiles.foldl (fun h t => joinHb (((P.tile t).syncHb.lookup 0).getD []) h) []

/-- XMIT_SLOT: 256 bytes of the source are sent along the route; two data on one link in one slot are both lost (R152, R155). One that leaves the
package does so at the end of its slot, when no other has taken its links. -/
def sendDatum (s : State) (id : Nat) : State :=
  match s.op? id with
  | none => s
  | some o => match o.agent, o.kind with
    | .tile p t, .xmit k port dst links b off f rest =>
      let P := s.part p
      let S := P.exchS.getD 0
      if !o.live then s
      else if !P.byTag && decide (s.ptime.toNat < S + 8 * k) then s.slotDue p t o
      else
        let d : Datum := ⟨id, dst, k + P.flightSlots, port, f, (s.forkView o).readBuf b off 256, links, false, joinHb P.exchHb o.made, rest⟩
        let s2 := ((s.modPart p fun P => P.fly d).modThread o.agent o.th (noteRuns (some (b, off, 4)) none 64)).opDone id 0
        let arg : Arg := { p := p, t := dst, op := id }
        if P.byTag then s2.scheduleFree .transfer .datumLanded arg
        else s2.schedule ((if 2048 ≤ dst then S + 8 * k + 8 else S + 8 * (k + P.flightSlots)) - s.ptime.toNat) .datumLanded arg
    | _, _ => s

/-- XMIT_SLOT (R152) of the operation `arg.op`. -/
def execXmitSlot (s : State) : Result State := .next (sendDatum s s.arg.op)

/-- Every task of the partition has fixed, and every datum sent has landed, be it of another package of its system group: the end of the phase
(R160). -/
def State.phaseOver (s : State) (p : Nat) : Bool :=
  let P := s.part p
  P.exchS.isSome && !(P.sysGroup && P.byTag && Config.groupSends s.cycle) && P.flight.isEmpty && (P.spanTiles.all fun t => (P.tile t).threads.all fun th => decide (th.task ≠ .running) || th.atfix) &&
    !(s.ops.any fun o => o.live && o.ofPart p && (match o.kind with | .xmit .. => true | _ => false))

/-- The live `xsel` of a tile for a slot and port. -/
def State.xselFor (s : State) (p t k port : Nat) : Option EngOp :=
  s.ops.find? fun o => o.live && o.ofTile p t && decide (o.slotOf = some (k, some port))

/-- A datum that an `xsel` has taken under arbitrated delivery is discarded, for a second one with its tags has come: the bytes written go,
and the `xsel` is without a datum (R160). -/
def State.untake (s : State) (o : EngOp) (p t : Nat) : State :=
  (s.modTile p t fun T => { T with latent := T.latent.filter fun w => w.id ≠ o.id }).modOp o.id fun x => { x with st := .queued }

/-- An `xsel` of a tile names a slot and port in this superstep, done or not. -/
def State.xselNames (s : State) (p t k port : Nat) : Bool := s.ops.any fun o => o.ofTile p t && decide (o.slotOf = some (k, some port))

/-- The end of a datum's slot at the Hinath port by which it leaves: it goes, unless it is lost, and takes its links until the slot in which it would
arrive has ended (R152, R155; log entry 34). -/
def leaveDatum (s : State) (p : Nat) (d : Datum) : State :=
  let s1 := (if d.lost then s else s.sendFar p (d.tile - 2048) d).modPart p fun P =>
    P.modFlight fun x => if x.op = d.op then { x with tile := d.tile + 2048 } else x
  s1.schedule ((s.part p).exchS.getD 0 + 8 * d.slot - s.ptime.toNat) .datumLanded { p := p, t := d.tile + 2048, op := d.op }

/-- DATUM_LANDED: the datum of the `xmit` id lands on its port, leaves the package, is lost, or meets no `xsel` (R155, R158, R160). One that comes
from another package by its tags waits for the release that begins the phase here. -/
def landDatum (s : State) (p id : Nat) : State :=
  let P := s.part p
  match P.flight.find? fun d => d.op = id with
  | some d =>
    let same (x : Datum) : Bool := decide (x.tile = d.tile) && decide (x.slot = d.slot) && decide (x.port = d.port)
    let s1 := s.modPart p fun P => { P with flight := P.flight.filter fun x => x.op ≠ id }
    if 4096 ≤ d.tile then s1
    else if 2048 ≤ d.tile then (if P.byTag then s1.sendFar p (d.tile - 2048) d else leaveDatum s p d)
    else if P.exchS.isNone then s.scheduleFree .transfer .datumLanded s.arg
    else if P.byTag then
      match s1.ops.find? fun o => decide (o.st = .done) && o.ofTile p d.tile && decide (o.slotOf = some (d.slot, some d.port)) with
      | some o => (s1.untake o p d.tile).modTile p d.tile fun T => { T with landed := T.landed ++ [{ d with lost := true }] }
      | none =>
        let twin := (P.tile d.tile).landed.any same
        s1.modTile p d.tile fun T =>
          { T with landed := (T.landed.map fun x => if same x then { x with lost := true } else x) ++ [{ d with lost := twin }] }
    else if d.lost then (if (s.xselFor p d.tile d.slot d.port).isSome then s1 else s1.slipTile p d.tile d.slot d.port)
    else if ((s1.part p).flight.any fun x => same x && !x.lost) then s1.modPart p fun P => P.modFlight fun x => if same x then { x with lost := true } else x
    else if (s.xselFor p d.tile d.slot d.port).isSome then s1.modTile p d.tile fun T => { T with landed := T.landed ++ [d] }
    else s1.slipTile p d.tile d.slot d.port
  | none =>
    match P.spanTiles.findSome? fun t => ((P.tile t).landed.find? fun d => d.op = id).map fun d => (t, d) with
    | some (t, d) =>
      if P.byTag && s.phaseOver p then
        let s1 := s.modTile p t fun T => { T with landed := T.landed.filter fun x => x.op ≠ id }
        if d.lost && s.xselNames p t d.slot d.port then s1 else s1.slipTile p t d.slot d.port
      else s
    | none => s

/-- DATUM_LANDED (R155) of the datum of the operation `arg.op` in partition `arg.p`. -/
def execDatumLanded (s : State) : Result State := .next (landDatum s s.arg.p s.arg.op)

/-- The 256 bytes of a datum taken into `a:` in the format of the destination's bank (R142, R152). -/
def State.takeDatum (s : State) (o : EngOp) (p t dst : Nat) (d : Datum) : State :=
  let T := s.tile p t
  let f := T.fmtAt .a dst
  let o' := { o with hb := joinHb d.hb (joinHb (s.part p).exchHb o.hb) }
  let r := placed f dst 0 (elemsOf (elemSize d.fmt) d.bytes) d.fmt
  let s1 := r.1.foldl (fun s x => s.opWrite o' .engine 10 p t .a x.1 x.2) s
  ((s1.modOp o.id fun x => { x with hb := o'.hb }).modThread o.agent o.th
    (noteRuns none (some (.a, dst, elemSize f)) (256 / elemSize d.fmt))).opDone o.id r.2

/-- XSEL_SLOT: the landed datum is taken, or SLIP is raised (R152, R158, R309). -/
def takeSlot (s : State) (id : Nat) : State :=
  match s.op? id with
  | none => s
  | some o => match o.agent, o.kind with
    | .tile p t, .xsel k port dst =>
      let P := s.part p
      if !o.live then s
      else if !P.byTag && decide (s.ptime.toNat < P.exchS.getD 0 + 8 * k + 7) then s.slotDue p t o
      else match (P.tile t).landed.find? fun d => decide (d.slot = k) && decide (d.port = port) && !d.lost with
        | some d =>
          let s1 := s.modTile p t fun T => { T with landed := T.landed.filter fun x => x.op ≠ d.op }
          if d.fmt = 0x07 then (s1.opDone id 0).slipTile p t k port else s1.takeDatum o p t dst d
        | none =>
          if P.byTag && !s.phaseOver p then s
          else
            let s1 := s.opDone id 0
            if (P.tile t).voted ∨ P.decision.isSome then s1 else trapTile s1 p t o.th .slip (slipDetail k port) o.unit 0
    | _, _ => s

/-- XSEL_SLOT (R152) of the operation `arg.op`. -/
def execXselSlot (s : State) : Result State := .next (takeSlot s s.arg.op)

end Sys2Proof.Machine
end

