-- ==== Sys2Proof/Machine/Collective.lean ====
section
/-!
DEFINITION. Contributions, reductions and the enlarger (spec/08 R162 to R171; spec/16 R310 to R312): `enl`, `rsto`, `cpost`, and the
rows REDUCTION_STREAM, REDUCTION_DONE, ENL_TRANSFER and ENL_COMPLETE.
-/

namespace Sys2Proof.Machine

/-- The forms that firmware mode refuses with reason 9 (R322). -/
def State.notFirmware (s : State) (k : State) : State :=
  if s.here.mode = .firmware then s.raise .illegalTarget (s.reason 9 0) else k

/-! ### The winning write (R127, R129) -/

/-- IssueKey compared left to right (R127). -/
def WRec.keyLe (x y : WRec) : Bool :=
  let a : List Nat := [x.q, x.ltile, x.th, x.seq]
  let b : List Nat := [y.q, y.ltile, y.th, y.seq]
  decide (a = b) || decide (a < b)

/-- The write chosen among writes to one place: of those that no other follows in happens-before, the one of the highest key; of
one operation's, the later (R127). -/
def winner (ws : List WRec) : Option WRec :=
  let top := ws.filter fun x => !ws.any fun y => y.hb.contains x.id
  top.foldl (fun m x => match m with
    | none => some x
    | some y => if y.keyLe x then some x else some y) none

/-! ### What a tile contributes (R129, R312) -/

/-- The fold T_t of a thread over its values in issue order, with its flags (R312). -/
def foldOf (o : RedOp) (isInt : Bool) (xs : List Nat) : FR :=
  xs.foldl (fun a x => let r := redOp o isInt a.bits x; ⟨r.bits, a.flags ||| r.flags⟩) ⟨redIdentity o isInt, 0⟩

/-- A tile's contributions to an element. -/
def Tile.contribsAt (T : Tile) (base elem : Nat) : List Contrib := T.contribs.filter fun c => decide (c.base = base) && decide (c.elem = elem)

/-- A thread's values for an element by `rsto` and `cpost`, in issue order. -/
def threadFolds (cs : List Contrib) (i : Nat) : List Nat :=
  ((cs.filter fun c => c.fold && decide (c.wrec.th = i)).insertionSort fun x y => x.wrec.seq ≤ y.wrec.seq).map fun c => leNat c.wrec.data

/-- A tile's contribution to an element of a region (R312). -/
def Tile.contribution (T : Tile) (r : Region) (elem : Nat) : Nat :=
  let cs := T.contribsAt r.base elem
  let id := redIdentity r.op r.isInt
  let p := ((winner ((cs.filter fun c => !c.fold).map (·.wrec))).map fun w => leNat w.data).getD id
  let f := (List.range 8).foldl (fun a i => (redOp r.op r.isInt a (foldOf r.op r.isInt (threadFolds cs i)).bits).bits) id
  (redOp r.op r.isInt p f).bits

/-! ### Results (R165, R166) -/

/-- RedResult of R165. -/
def redResult (o : RedOp) (isInt : Bool) (xs : List Nat) : Nat := xs.foldl (fun a x => (redOp o isInt a x).bits) (redIdentity o isInt)

/-- The prefixes p[0], ... of CavityResults. -/
def prefixes (o : RedOp) (isInt : Bool) : (acc : Nat) → List Nat → List Nat
  | acc, [] => [acc]
  | acc, x :: xs => acc :: prefixes o isInt (redOp o isInt acc x).bits xs

/-- CavityResults of R166. -/
def cavityResults (o : RedOp) (isInt : Bool) (xs : List Nat) : List Nat :=
  let id := redIdentity o isInt
  let p := prefixes o isInt id xs
  let sfx := (prefixes o isInt id xs.reverse).reverse.drop 1
  (List.range xs.length).map fun i => (redOp o isInt (p.getD i id) (sfx.getD i id)).bits

/-- Bytes held at the channel slices for a virtual range (R168). -/
def Partition.hold (P : Partition) (va : Nat) (bs : List Byte) : Partition :=
  { P with held := P.held ++ (pieces va bs.length).filterMap fun x => (translate P.transNow x.1).map fun l =>
      ⟨l, (bs.drop (x.1 - va)).take x.2⟩ }

/-- The results of a region: elements 0 to n_e - 1 of the result, or of each contributor's copy (R165, R166, R328). -/
def reduceRegion (P : Partition) (r : Region) : Partition :=
  let ts := P.contributors r
  let rows := (List.range r.ne).map fun j => ts.map fun t => (P.tile t).contribution r j
  if r.cav then
    let ys := rows.map fun xs => cavityResults r.op r.isInt xs
    (ts.zipIdx).foldl (fun P x => P.hold (r.base + 64 + (x.1 - r.first) * r.c) (bytesOf r.esize (ys.map fun y => y.getD x.2 0))) P
  else P.hold (r.base + 64) (bytesOf r.esize (rows.map fun xs => redResult r.op r.isInt xs))

/-! ### Streaming (R167, R168) -/

/-- Every task has fixed or finished, and every operation by which the tile may still contribute has completed (R168). -/
def State.tileQuiet (s : State) (p t : Nat) : Bool :=
  let T := s.tile p t
  T.active && (T.threads.all fun th => decide (th.task ≠ .running) || th.atfix) &&
    !(s.ops.any fun o => o.live && o.ofTile p t && (match o.kind with | .copy _ _ _ (.glob _) _ _ => true | _ => false))

/-- A tile may stream a region's contributions now. -/
def State.mayStream (s : State) (p t : Nat) : Bool :=
  let T := s.tile p t
  T.released && s.tileQuiet p t && T.bases.any fun b => !T.streamed.contains b

/-- Every tile is quiet and has streamed: the regions still to be reduced, in increasing order of base (R167). -/
def State.regionsDue (s : State) (p : Nat) : List Nat :=
  let P := s.part p
  if P.spanTiles.all fun t => s.tileQuiet p t && (P.tile t).bases.all fun b => (P.tile t).streamed.contains b then
    P.bases.filter fun b => !P.reduced.contains b
  else []

/-- A region is reduced in the sequencers; else at the endpoints, with the same bits (R167). -/
def State.bySequencer (s : State) (p base : Nat) : Bool := (s.seqRegions p).any fun x => decide (x.1 = base)

/-- The next region's results are due, from the sequencers or from the endpoints (R167). -/
def State.reduceNext (s : State) (p : Nat) : State :=
  match s.regionsDue p with
  | [] => s
  | b :: _ =>
    if (s.part p).reducing ≠ [] then s
    else (s.modPart p fun P => { P with reducing := [b] }).scheduleFree (if s.bySequencer p b then .reduction else .endpoint) .reductionDone { p := p, op := b }

/-- REDUCTION_STREAM: a tile streams its contributions, and the next region is begun when it may be (R167, R168). -/
def streamTile (s : State) (p t : Nat) : State :=
  if s.mayStream p t then (s.modTile p t fun T => { T with streamed := T.bases }).reduceNext p else s.reduceNext p

/-- A spilled contribution of a tile to a region whose staging slot holds an uncorrectable error where it is read back: its place (R164, R168, R189). -/
def State.stagingPoison (s : State) (p t : Nat) (r : Region) : Option Loc :=
  ((s.tile p t).overflow.filterMap fun g => match g with
    | .reg b k => if b = r.base then some (r.base + r.slotOff t + 64 * k) else none
    | .buf .. => none).findSome? fun va => (pieces va 64).findSome? fun x =>
      (translate (s.part p).transNow x.1).bind fun l => (s.poisonIn l x.2).map (·.2)

/-- The errors that a region's reduction meets, by contributor: tile events of class 0, with a forced wash, while the superstep is undecided (R168,
R185, R189). -/
def State.reductionErrors (s : State) (p : Nat) (r : Region) : State :=
  if (s.part p).decision.isSome then s
  else ((s.part p).contributors r).foldl (fun s t => match s.stagingPoison p t r with
    | some l => tileEvent s p t .eccUncorr 1 (eccWord 0 l) l.addr
    | none => s) s

/-- REDUCTION_DONE: the results of the region at a base are held at the channel slices (R167, R168). -/
def reductionDone (s : State) (p base : Nat) : State :=
  let P := s.part p
  if !P.reducing.contains base then s
  else
    let s1 := s.modPart p fun P => { P with reducing := [], reduced := base :: P.reduced }
    match regionOf s P.transNow P.tiles.length base with
    | some r => (if r.ok then (s1.reductionErrors p r).modPart p fun P => reduceRegion P r else s1).reduceNext p
    | none => s1.reduceNext p

/-- REDUCTION_STREAM (R168) of tile `arg.t` of partition `arg.p`. -/
def execReductionStream (s : State) : Result State := .next (streamTile s s.arg.p s.arg.t)
/-- REDUCTION_DONE (R167) of the region at `arg.op` of partition `arg.p`. -/
def execReductionDone (s : State) : Result State := .next (reductionDone s s.arg.p s.arg.op)

/-! ### rsto and cpost (R311, R312) -/

/-- The first byte of a range whose page is not of kind RED or CAV. -/
def Tile.notRegion (T : Tile) (va n : Nat) : Option Nat :=
  ((pieces va n).find? fun x => match T.extent x.1 with
    | some e => decide (e.kind ≠ .red) && decide (e.kind ≠ .cav)
    | none => true).map (·.1)

/-- The checks of an element range of n bytes: R247 step 4, R163, and the kind of its pages (R311). -/
def State.foldCheck (s : State) (ea : Word) (n : Nat) : Option Refuse :=
  (globalCheck s s.hereP s.hereT .store ea n).or ((s.hereTile.notRegion ea.toNat n).map fun a => (.prot, BitVec.ofNat 64 a))

/-- Values combined into the thread's folds from an element on; the operation forks and completes, and sets NV and OF (R137,
R312). `note` is what the unit notes of the source it reads. -/
def State.foldIn (s : State) (note : Thread → Thread) (r : Region) (elem : Nat) (xs : List Nat) (tok : TokF) : State :=
  let s1 := s.engineAt (s.modHere note) (.fold r.base elem r.esize (bytesOf r.esize xs)) tok
  match (if s1.opCtr = s.opCtr then none else s1.op? s.opCtr) with
  | none => s1
  | some o =>
    let cs : List Contrib := xs.zipIdx.map fun x => ⟨r.base, elem + x.2, true, o.wrec 8 (leBytes r.esize x.1)⟩
    let T := s.hereTile
    let fl := xs.zipIdx.foldl (fun f x =>
      let old := (foldOf r.op r.isInt (threadFolds (T.contribsAt r.base (elem + x.2)) s.cur.th)).bits
      f ||| (redOp r.op r.isInt old x.1).flags) 0
    (cs.foldl (fun s c => s.takeContrib s1.hereP s1.hereT r c) s1).opDone o.id (fl &&& (fNV ||| fOF))

/-- `rsto` (R311). -/
def execRsto (base data : Sreg) (disp : BitVec 20) (wide : Bool) (tok : TokF) (s : State) : Result State :=
  let ea := s.ea base disp
  let n := if wide then 8 else 4
  .next (s.notFirmware (match s.foldCheck ea n with
    | some r => s.raise r.1 r.2
    | none => match regionOf s s.herePart.transNow s.herePart.tiles.length ea.toNat with
      | none => s.raise .prot ea
      | some r =>
        if r.esize ≠ n then s.raise .align ea
        else s.foldIn id r ((ea.toNat - r.base - 64) / n) [(s.sr data).toNat % 2 ^ (8 * n)] tok))

/-- The format code of a region's elements. -/
def Region.code (r : Region) : Byte := if r.esize = 8 then 0x07 else if r.isInt then 0x03 else 0x06

/-- `cpost` (R311). -/
def execCpost (base cnt : Sreg) (srcC : Bool) (soff : BitVec 16) (disp : BitVec 20) (tok : TokF) (s : State) : Result State :=
  let ea := s.ea base disp
  let b : Buf := if srcC then .c else .a
  let off := 4 * soff.toNat
  let n := (s.sr cnt).toNat
  let reg := regionOf s s.herePart.transNow s.herePart.tiles.length ea.toNat
  let es := (reg.map (·.esize)).getD 4
  .next (s.notFirmware (match s.foldCheck ea (n * es) with
    | some r => s.raise r.1 r.2
    | none =>
      if n = 0 then s.finish s
      else match reg with
        | none => s.raise .prot ea
        | some r =>
          let f := s.hereTile.fmtAt b off
          let e0 := (ea.toNat - r.base - 64) / es
          if f ≠ r.code then s.raise .illegalTarget (s.reason 12 f.toNat)
          else if r.ne < e0 + n then
            { s.raise .illegalTarget (s.reason 14 (Config.cpostPast s.fresh).toNat) with fresh := s.fresh + 1 }
          else s.foldIn (noteRuns (some (b, off, es)) none n) r e0 (elemsOf es ((s.hereTile.seenAfter s.here.hb).readBuf b off (n * es))) tok))

/-! ### The enlarger (R169 to R171, R310) -/

/-- A layout map as read at issue (R169). -/
structure LayoutMap where
  space : Buf
  srcBase : Nat
  dstBase : Nat
  step : Nat
  sp : Nat
  dims : List Dim
  dests : List Nat
  deriving DecidableEq, Repr

/-- The layout map at an offset of `a:`, or none where it breaks R170 in itself. -/
def Tile.layoutMap (T : Tile) (off : Nat) : Option LayoutMap :=
  let h := T.readBuf .a off 208
  let f (i n : Nat) : Nat := leNat (bytesAt h i n)
  let n := f 0 1
  let nd := f 16 2
  let dims := (List.range n).map fun k => (⟨f (64 + 16 * k) 4, signedN 32 (f (68 + 16 * k) 4), 0, f (72 + 16 * k) 1⟩ : Dim)
  let dests := elemsOf 2 (T.readBuf .a (off + 208) (2 * nd))
  let sp := f 1 1
  if 1 ≤ n ∧ n ≤ 9 ∧ sp < n ∧ (f 2 1 = 1 ∨ f 2 1 = 2) ∧ f 3 1 = 0 ∧ f 12 4 % 64 = 0 ∧ 1 ≤ nd ∧ nd ≤ 2048 ∧ f 18 46 = 0 ∧
      (dims.all fun d => decide (1 ≤ d.extent) && decide (d.extent ≤ 65535)) ∧ ((List.range n).all fun k => f (73 + 16 * k) 7 = 0) ∧
      f (64 + 16 * n) (16 * (9 - n)) = 0 ∧ ((List.range n).all fun k => (dims.filter fun d => d.pos = k).length = 1) ∧
      ((dims.map (·.extent)).getD sp 0) % nd = 0 then
    some ⟨if f 2 1 = 1 then .a else .c, f 4 4, f 8 4, f 12 4, sp, dims, dests⟩
  else none

/-- The rest of R170 for a map and a slab index: the source range, the destination tiles, the slab and its place, and R142. -/
def LayoutMap.fits (m : LayoutMap) (nTiles r : Nat) (sf : Byte) (desize : Nat) : Bool :=
  let (lo, len) := boundOf m.dims false (elemSize sf)
  let slab := (m.dims.map (·.extent)).prod / m.dests.length * desize
  decide (r ≤ 2047) && decide (0 ≤ (m.srcBase : Int) + lo) && decide ((m.srcBase : Int) + lo + len ≤ Config.bufSize m.space) &&
    (m.dests.all fun d => decide (d < nTiles)) && decide (slab ≤ m.step) && decide (r * m.step + m.step ≤ Config.bufSize .a) &&
    sf != 0x07

/-- Where slab r begins in `a:` of a destination: the endpoint's first byte, whose bank gives the format (R100, R171). -/
def LayoutMap.slabBase (m : LayoutMap) (r : Nat) : Nat := m.dstBase + r * m.step

/-- The largest element size among the destination banks of slab r, as they stand. -/
def Partition.destSize (P : Partition) (m : LayoutMap) (r : Nat) : Nat :=
  m.dests.foldl (fun x d => max x (elemSize ((P.tile d).fmtAt .a (m.slabBase r)))) 0

/-- How many bytes of `a:` a layout map takes: its header and its list of destinations (R169). -/
def LayoutMap.size (m : LayoutMap) : Nat := 208 + 2 * m.dests.length

/-- `enl` (R310). -/
def execEnl (moff : BitVec 12) (r : Sreg) (tok : TokF) (s : State) : Result State :=
  let T := s.hereTile
  let off := 64 * moff.toNat
  let k := (s.sr r).toNat
  let bad := s.raise .illegalTarget (s.reason 13 off)
  .next (s.notFirmware (match T.layoutMap off with
    | none => bad
    | some m =>
      let sf := T.fmtAt m.space m.srcBase
      if !m.fits s.herePart.tiles.length k sf (s.herePart.destSize m k) then bad
      else
        let s1 := s.engineAt (s.noteOob .a (BitVec.ofNat 64 off) m.size false) (.enl m.space m.srcBase m.dstBase m.step m.dims m.sp m.dests k sf) tok
        match (if s1.opCtr = s.opCtr ∨ !T.released then none else s1.op? s.opCtr) with
        | some o => s1.slotDue s.hereP s.hereT o
        | none => s1))

/-- Index tuples of extents. -/
def tuplesIdx : List Nat → List (List Nat)
  | [] => [[]]
  | e :: es => (List.range e).flatMap fun i => (tuplesIdx es).map (i :: ·)

/-- Where EnlPlace takes an index tuple: the destination number, the element's offset there and the source element (R171). -/
def enlPlace (dims : List Dim) (sp h : Nat) (i : List Nat) : Nat × Nat × Int :=
  let x (k : Nat) : Nat := if k = sp then i.getD k 0 % h else i.getD k 0
  let off := (List.range dims.length).foldl (fun off q =>
    match dims.findIdx? fun d => d.pos = q with
    | some k => off * (if k = sp then h else (dims.map (·.extent)).getD k 1) + x k
    | none => off) 0
  (i.getD sp 0 / h, off, (dims.zipIdx.map fun d => (i.getD d.2 0 : Int) * d.1.sstride).sum)

/-- ENL_TRANSFER: the slabs are placed (R171). -/
def enlTransfer (s : State) (id : Nat) : State :=
  match s.op? id with
  | none => s
  | some o => match o.agent, o.kind with
    | .tile p t, .enl b sb db step dims sp dests r sf =>
      if o.st ≠ .queued then s
      else
        let T := s.forkView o
        let es := elemSize sf
        let o' := { o with hb := joinHb (s.part p).exchHb o.hb }
        let h := (dims.map (·.extent)).getD sp 1 / dests.length
        let put (x : State × Byte) (i : List Nat) : State × Byte :=
          let (j, off, se) := enlPlace dims sp h i
          let u := dests.getD j 0
          let f := (s.tile p u).fmtAt .a (db + r * step)
          let a := db + r * step + off * elemSize f
          let v := convElem .rne sf f (leNat (T.readBuf b ((sb : Int) + se * es).toNat es))
          ((x.1.opWrite o' .engine 9 p u .a a (leBytes (elemSize f) v.bits)).modThread o.agent o.th
            (noteRuns none (some (.a, a, elemSize f)) 1), x.2 ||| engFlags v.flags)
        let r1 := (tuplesIdx (dims.map (·.extent))).foldl put (s, 0)
        (r1.1.modOp id fun x => { x with st := .moved, hb := o'.hb, flags := r1.2 }).scheduleFree .enl .enlComplete { p := p, t := t, op := id }
    | _, _ => s

/-- ENL_COMPLETE (R171): the token falls. -/
def enlComplete (s : State) (id : Nat) : State :=
  match s.op? id with
  | none => s
  | some o => if decide (o.st = .moved) && (match o.kind with | .enl .. => true | _ => false) then s.opDone id o.flags else s

/-- ENL_TRANSFER (R171) of the operation `arg.op`. -/
def execEnlTransfer (s : State) : Result State := .next (enlTransfer s s.arg.op)
/-- ENL_COMPLETE (R171) of the operation `arg.op`. -/
def execEnlComplete (s : State) : Result State := .next (enlComplete s s.arg.op)

end Sys2Proof.Machine
end

