-- ==== Sys2Proof/Machine/HostOps.lean ====
section
/-!
DEFINITION. What the host's commands and the device's events share (spec/02 R45 to R53; spec/06 R116): event rings, interrupt
coalescing, command entries and their completion, and the free pages of HBM with the quarantine.
-/

namespace Sys2Proof.Machine

/-! ### Interrupts (R52, R53) -/

/-- The count that sends a message; 0 acts as 1 (R52). -/
def Vec.limit (v : Vec) : Nat := max 1 v.count.toNat

/-- A vector's message: sent, or pending while the vector is masked (R53). -/
def State.sendVec (s : State) (n v : Nat) : State :=
  if (s.fn n).vec v |>.masked then s.modVec n v fun x => { x with pba := true }
  else { s.modVec n v fun x => { x with pend := 0 } with msgs := s.msgs ++ [(n, v)] }

/-- The count trigger (R53). -/
def State.countTrigger (s : State) (n v : Nat) : State :=
  let x := (s.fn n).vec v
  if x.limit ≤ x.pend then s.sendVec n v else s

/-- The time trigger of a vector whose first pending event came at t0 (R53). -/
def State.coalesceTimer (s : State) (n v t0 : Nat) (time : BitVec 16) : State :=
  s.schedule (t0 + 180 * time.toNat - s.ptime.toNat) .coalesceTimeExpiry { fn := n, n := v, op := t0 }

/-- One event counted on a vector: COUNT and TIME take effect as they stand, TIME from the first pending event on (R53). -/
def State.countVec (s : State) (n v : Nat) : State :=
  let x := (s.fn n).vec v
  let t0 := if x.pend = 0 then s.ptime.toNat else x.t0
  let s1 := s.modVec n v fun x => { x with pend := x.pend + 1, t0 := t0, active := x.time }
  let s2 := if x.time = 0 ∨ (x.pend ≠ 0 ∧ x.active = x.time) then s1 else s1.coalesceTimer n v t0 x.time
  s2.countTrigger n v

/-! ### Event rings (R50) -/

/-- The address of a function's event ring. -/
def Fn.evtAddr (f : Fn) : Nat := (f.evtBase &&& 0x01FFFFFFFFFFF000).toNat

/-- The 32 bytes of an event. -/
def eventBytes (code fn q part lost : Nat) (time : Word) (detail : List Byte) : List Byte :=
  leBytes 2 code ++ leBytes 2 fn ++ leBytes 1 q ++ leBytes 1 part ++ leBytes 2 lost ++ leBytes 8 time.toNat ++
    (detail ++ List.replicate 16 0).take 16

/-- EVENT_POST in the ring of function n: stored, lost when the ring is full, dropped when it is disabled (R50). -/
def State.postRing (s : State) (n code fn q part : Nat) (detail : List Byte) : State :=
  let f := s.fn n
  let cap := if n = 0 then 4096 else 128
  if f.evtAddr = 0 then s
  else if (f.evtTail - f.evtHead).toNat = cap then s.modFn n fun f => { f with evtLost := true, lost := min (f.lost + 1) 0xFFFF }
  else
    let s1 := s.physWrite ⟨true, f.evtAddr + 32 * (f.evtTail.toNat % cap)⟩ (eventBytes code fn q part f.lost s.ptime detail)
    (s1.modFn n fun f => { f with evtTail := f.evtTail + 1, lost := 0 }).countVec n (if n = 0 then 0 else 8)

/-- An event of the package: in function 0's ring, and in the rings of the functions it concerns (R50). -/
def State.postEvent (s : State) (code fn q part : Nat) (detail : List Byte) (rings : List Nat) : State :=
  rings.foldl (fun s n => s.postRing n code fn q part detail) (s.postRing 0 code fn q part detail)

/-! ### Commands complete (R47) -/

/-- A command's signal (R51). -/
def State.cmdSignal (s : State) (fn : Nat) (e : List Byte) : State :=
  let v : Word := BitVec.ofNat 64 (fldOf e 24 8)
  match s.signalLoc fn e, fldOf e 32 1 with
  | some l, 1 => s.signalAt l .set v
  | some l, 2 => s.signalAt l .add v
  | some l, 3 => s.signalAt l .maxu v
  | _, _ => s

/-- HEAD moves past the leading completed entries. -/
def Queue.advance : (fuel : Nat) → Queue → Queue
  | 0, q => q
  | f + 1, q => if q.done.contains q.head then ({ q with done := q.done.filter (· != q.head), head := q.head + 1 } : Queue).advance f else q

/-- An entry has been taken and has not completed. -/
def Queue.open (q : Queue) (idx : Nat) : Bool :=
  let i : BitVec 32 := BitVec.ofNat 32 idx
  decide ((i - q.head).toNat < (q.taken - q.head).toNat) && !q.done.contains i

/-- An entry is in the ring and has not completed: it may, even when it is to be taken anew (R31). -/
def Queue.pending (q : Queue) (idx : Nat) : Bool :=
  let i : BitVec 32 := BitVec.ofNat 32 idx
  decide ((i - q.head).toNat < (q.tail - q.head).toNat) && !q.done.contains i

/-- The next entries of a queue that have completed already are passed over (R31). -/
def Queue.skipDone : (fuel : Nat) → Queue → Queue
  | 0, q => q
  | f + 1, q => if q.taken ≠ q.tail ∧ q.done.contains q.taken then ({ q with taken := q.taken + 1 } : Queue).skipDone f else q

/-- One entry of a queue is taken. -/
def Queue.takeOne (q : Queue) : Queue := ({ q with taken := q.taken + 1 } : Queue).skipDone q.done.length

/-- An entry completes: HEAD moves past what is complete, and nothing that is is taken again (R31, R47). -/
def Queue.finish (q : Queue) (i : BitVec 32) : Queue :=
  let q1 := ({ q with done := i :: q.done, hold := if q.hold = some i then none else q.hold, met := q.met && decide (q.hold ≠ some i) } : Queue).advance (q.done.length + 1)
  ({ q1 with taken := if 2 ^ 31 ≤ (q1.taken - q1.head).toNat then q1.head else q1.taken } : Queue).skipDone q1.done.length

/-- COMMAND_COMPLETION: the status byte (and byte 3), HEAD, the signal of a command that succeeded, then the interrupt count
(R47). -/
def State.completeAs (s : State) (r : CmdRef) (status : Nat) (b3 : Option Nat) (sig : Bool) : State :=
  let q := (s.fn r.fn).queue r.q
  if !q.pending r.idx then s
  else
    let e := s.entry r
    let s1 := s.fnWrite r.fn q.ring (q.entryOff r.idx + 2) (leBytes 1 status ++ match b3 with
      | some b => leBytes 1 b
      | none => [])
    let s2 := s1.modQueue r.fn r.q fun q => q.finish (BitVec.ofNat 32 r.idx)
    let s3 := s2.fnWrite r.fn (s2.fn r.fn).cpage (32 * r.q + 12) (leBytes 4 ((s2.fn r.fn).queue r.q).head.toNat)
    let s4 := if sig && decide (status = 1) then s3.cmdSignal r.fn e else s3
    let s5 := s4.noteWaits
    if (fldOf e 1 1).testBit 0 then s5.countVec r.fn (if r.fn = 0 then r.q + 1 else r.q) else s5

def State.complete (s : State) (r : CmdRef) (status : Nat) : State := s.completeAs r status none true

/-- A command completed if there is one. -/
def State.completeOpt (s : State) (r : Option CmdRef) (status : Nat) : State :=
  match r with
  | some r => s.complete r status
  | none => s

/-! ### The pending-unmapped bitmap (R49, R50) -/

/-- The bit of a queue without a slot that has commands waiting, or a SIGNAL_WAIT that holds it, is set, and starvation is timed, by PF_STARVE as it
stands then (R49, R50; that a later write leaves a running time alone is DESIGN CHOICE, log entry 63). -/
def State.setPending (s : State) (fn q : Nat) : State :=
  let Q := (s.fn fn).queue q
  if (Q.taken = Q.tail ∧ Q.hold = none) ∨ s.mapped fn q ∨ (s.pendBits.any fun b => decide (b.fn = fn) && decide (b.q = q)) then s
  else State.schedule { s with pendBits := s.pendBits ++ [⟨fn, q, s.ptime, false, none⟩] } (s.pfStarve * Config.usCycles) .queueStarved { fn := fn, q := q, v := s.ptime }

/-! ### Free pages (R48, R116) -/

/-- A 64 KiB page of HBM is healthy and free (log entry 5). -/
def State.pageFree (s : State) (k : Nat) : Bool :=
  decide (k < Config.hbmPages) && !s.usedPages.contains k && !s.retired.pages.contains k && !(s.quarantine.any fun x => x.page = k) &&
    !s.heldFree.contains k

/-- The first run of `size` free pages aligned to it, from a place on. -/
def State.findPages (s : State) (size : Nat) : (fuel k : Nat) → Option Nat
  | 0, _ => none
  | f + 1, k => if (List.range size).all fun i => s.pageFree (size * k + i) then some (size * k) else s.findPages size f (k + 1)

/-- How far a search for free pages may have to go. -/
def State.pageFuel (s : State) : Nat := s.usedPages.length + s.retired.pages.length + s.quarantine.length + s.heldFree.length + 1

/-- Pages in use, free of data: they read zero (R39, R48). -/
def State.zeroPages (s : State) (k size : Nat) : State :=
  let l : Loc := ⟨false, 65536 * k⟩
  { s with hbm := s.hbm.keep fun a => decide (a < 65536 * k) || decide (65536 * (k + size) ≤ a),
           poison := s.poison.filter fun u => !(decide (2048 * k ≤ u) && decide (u < 2048 * (k + size))),
           tags := s.tags.filter fun g => !g.within l (65536 * size) }

/-- `n` runs of `size` pages taken from the free pool, or none where too few are free. -/
def State.takePages (s : State) (size : Nat) : (n : Nat) → Option (State × List Nat)
  | 0 => some (s, [])
  | n + 1 => (s.findPages size s.pageFuel 0).bind fun k =>
      (State.takePages ({ s with usedPages := (List.range size).map (k + ·) ++ s.usedPages }.zeroPages k size) size n).map
        fun r => (r.1, k :: r.2)

/-- A page returned to the free pool passes the quarantine; while that is full it stays with its owner (R116). -/
def State.freePage (s : State) (k : Nat) : State :=
  if s.quarantine.length < 4096 then { s with usedPages := s.usedPages.filter (· ≠ k), quarantine := s.quarantine ++ [⟨k, s.qcnt⟩] }
  else { s with heldFree := s.heldFree ++ [k] }

/-- QUARANTINE_RELEASE: pages whose time has come leave, and held ones enter (R116). -/
def State.releaseQuarantine (s : State) : State :=
  let q := s.quarantine.filter fun x => decide (s.qcnt < x.q + 2)
  let n := 4096 - q.length
  { s with quarantine := q ++ (s.heldFree.take n).map fun k => ⟨k, s.qcnt⟩, heldFree := s.heldFree.drop n,
           usedPages := s.usedPages.filter fun k => !(s.heldFree.take n).contains k }

/-- A partition other than p maps the 64 KiB page k of HBM (a SHARE page, R48). -/
def State.sharedPage (s : State) (p k : Nat) : Bool :=
  (s.parts.zipIdx).any fun x => decide (x.2 ≠ p) && x.1.valid &&
    x.1.trans.any fun e => !e.loc.host && decide (e.loc.addr ≤ 65536 * k) && decide (65536 * k < e.loc.addr + 65536 * e.size)

/-- The physical pages of an entry that left partition p's translation (R48). -/
def State.freeEntry (s : State) (p : Nat) (e : PageT) : State :=
  if e.loc.host then s
  else (List.range e.size).foldl (fun s i =>
    let k := e.loc.addr / 65536 + i
    if s.sharedPage p k then s else s.freePage k) s

end Sys2Proof.Machine
end

