-- ==== Sys2Proof/Machine/Records.lean ====
section
/-!
DEFINITION. Launch records (spec/04 R70 to R76; spec/16 R313, R314; spec/20 R336): the states of a record, the operations of host
and device on it, `arm`, `patch` and `post`, requests for pre-emption (R86), and LAUNCH_COMPLETE.
-/

namespace Sys2Proof.Machine

/-! ### Images (R70, R71) -/

def LRec.fld (r : LRec) (i n : Nat) : Nat := fldOf r.image i n

/-- A record as CREATE_PARTITION leaves it (R70, R72). -/
def LRec.idle : LRec :=
  { image := List.replicate 512 0, snap := List.replicate 256 0, st := .idle, snapValid := false, rearm := false,
    counts := Vector.replicate 4 0, order := 0, postFn := 0, postCmd := none, savedIn := none }

/-- A reserved byte or bit of an image is set (R70). -/
def imageReserved (g : List Byte) : Bool :=
  fldOf g 14 1 / 8 != 0 || fldOf g 15 1 / 8 != 0 || fldOf g 61 3 != 0 || fldOf g 72 1 / 64 != 0 || fldOf g 72 1 / 4 % 4 != 0
    || fldOf g 73 7 != 0 || fldOf g 100 156 != 0

def LRec.prio (r : LRec) : Nat := r.fld 14 1 % 8
def LRec.nonPre (r : LRec) : Bool := (r.fld 15 1).testBit 0
def LRec.conditional (r : LRec) : Bool := (r.fld 15 1).testBit 1
def LRec.rearms (r : LRec) : Bool := (r.fld 15 1).testBit 2

/-- A field of an image lies outside the limits of R70. -/
def badField (tr : List PageT) (g : List Byte) : Bool :=
  imageReserved g || fldOf g 0 8 % 64 != 0 || decide (fldOf g 10 2 < 1) || decide (256 < fldOf g 10 2) || decide (fldOf g 12 1 < 1)
    || decide (16 < fldOf g 12 1) || fldOf g 13 1 == 0 || decide (1000000 < fldOf g 20 4) || decide (128 < fldOf g 32 4)
    || decide (3 < fldOf g 60 1) || fldOf g 88 8 % 64 != 0
    || ((fldOf g 15 1).testBit 1 && (fldOf g 48 8 % 8 != 0 || match findPage tr (fldOf g 48 8 / 65536) with
        | some e => decide (e.kind ≠ .l)
        | none => true))

/-- Why ARM refuses an image, as a code of %lrerr, with 9 for a span that does not fit (R71). -/
def Partition.armRefusal (P : Partition) (g : List Byte) : Nat :=
  if badField P.trans g then 7 else if P.len < fldOf g 8 2 + fldOf g 12 1 * fldOf g 10 2 then 9 else 0

/-! ### States of a record (R72) -/

def Partition.rcd (P : Partition) (i : Nat) : LRec := P.recs.getD i LRec.idle
def Partition.modRcd (P : Partition) (i : Nat) (f : LRec → LRec) : Partition := { P with recs := P.recs.modify i f }

/-- Armed: a fresh snapshot, and the counts of the image (R72). -/
def LRec.arm (r : LRec) : LRec :=
  { r with st := .armed, snap := (r.image.drop 256).take 256, snapValid := true, rearm := false, order := 0, savedIn := none,
           counts := Vector.ofFn fun k => BitVec.ofNat 16 (r.fld (40 + 2 * k.val) 2) }

/-- A record becomes Eligible (R72, R84). -/
def Partition.makeEligible (P : Partition) (i : Nat) : Partition :=
  { P.modRcd i fun r => { r with st := .eligible, order := P.nextOrder } with nextOrder := P.nextOrder + 1 }

/-- WRITE_RECORD: the image is replaced (R72). -/
def Partition.recWrite (P : Partition) (i : Nat) (g : List Byte) : Partition × Nat :=
  if (P.rcd i).st ≠ .idle then (P, 2) else (P.modRcd i fun r => { r with image := g }, 0)

/-- ARM (R72). -/
def Partition.recArm (P : Partition) (i : Nat) : Partition × Nat :=
  if (P.rcd i).st ≠ .idle then (P, 2)
  else if P.armRefusal (P.rcd i).image ≠ 0 then (P, P.armRefusal (P.rcd i).image)
  else (P.modRcd i LRec.arm, 0)

/-- PATCH: the live parameter block alone (R72). -/
def Partition.recPatch (P : Partition) (i off : Nat) (d : List Byte) : Partition × Nat :=
  if d = [] ∨ 256 < off + d.length then (P, 5)
  else (P.modRcd i fun r => { r with image := r.image.take (256 + off) ++ d ++ r.image.drop (256 + off + d.length) }, 0)

/-- POST, with the posting function and the command behind it (R72, R122); one that a new leader runs again finds its record posted (R31). -/
def Partition.recPost (P : Partition) (i fn : Nat) (cmd : Option CmdRef) : Partition × Nat :=
  let r := P.rcd i
  if cmd.isSome ∧ r.postCmd = cmd then (P, 0)
  else match r.st with
  | .idle => (P, 3)
  | .armed =>
    let P := P.modRcd i fun r => { r with postFn := fn, postCmd := cmd }
    if r.counts.toList.all (· == 0) then (P.makeEligible i, 0) else (P.modRcd i fun r => { r with st := .posted }, 0)
  | _ => (P, 6)

/-- The host's status for a refusal (R71 to R73). -/
def recStatus (code : Nat) : Nat := match code with
  | 0 => 1
  | 7 => 3
  | 1 | 5 | 9 => 4
  | 4 => 7
  | _ => 5

/-! ### Extent tables (R109 to R111) -/

/-- Two extents are one run of pages with the same attributes (R110). -/
def Extent.joins (a b : Extent) : Bool :=
  decide (a.vpn + a.pages = b.vpn) && decide (a.loc.host = b.loc.host) && decide (a.loc.addr + 65536 * a.pages = b.loc.addr) &&
    decide (a.kind = b.kind) && decide (a.r = b.r) && decide (a.w = b.w) && decide (a.x = b.x) && decide (a.scope = b.scope)

/-- The extent of two that join. -/
def Extent.join (a b : Extent) : Extent := { a with pages := a.pages + b.pages, code := a.code ++ b.code, born := min a.born b.born }

def mergeExtents : List Extent → List Extent
  | [] => []
  | e :: es => match mergeExtents es with
    | f :: r => if e.joins f then e.join f :: r else e :: f :: r
    | [] => [e]

/-- The translated pages of a run of virtual pages; pages without a translation are left out. -/
def extentRun (tr : List PageT) (code : Bool) (cyc : Nat) : (fuel vpn n : Nat) → List Extent
  | 0, _, _ => []
  | f + 1, vpn, n => if n = 0 then [] else
    match findPage tr vpn with
    | some e =>
      let k := min n (e.vpn + e.size - vpn)
      ⟨vpn, k, e.loc.plus (65536 * (vpn - e.vpn)), e.kind, e.r, e.w, e.x, e.scope, if code then [(vpn, k)] else [], cyc⟩ ::
        extentRun tr code cyc f (vpn + k) (n - k)
    | none =>
      match ((tr.map (·.vpn)).filter fun v => decide (vpn < v) && decide (v < vpn + n)).min? with
      | some v => extentRun tr code cyc f v (n - (v - vpn))
      | none => []

/-- An entry of a page-fetch list: first page, count and CODE; none where reserved bits are set (R109, R110). One whose page count is not 1 to 65,536
adds no extent either (R109 gives it no outcome; DESIGN CHOICE, log entry 66). -/
def listEntry (b : List Byte) : Option (Nat × Nat × Bool) :=
  let w0 : Word := BitVec.ofNat 64 (leNat (bytesAt b 0 8))
  let n := leNat (bytesAt b 8 8)
  if w0.extractLsb' 57 7 != 0 || w0.extractLsb' 2 14 != 0 || decide (n < 1) || decide (65536 < n) then none
  else some ((w0.extractLsb' 16 41).toNat, n, w0.getLsbD 1)

/-- Bytes of a page-fetch list as a partition's supersteps see them (R117, R119). -/
def State.listBytes (s : State) (p : Nat) (tr : List PageT) (va n : Nat) : List Byte :=
  (pieces va n).flatMap fun x => match findPage tr (x.1 / 65536) with
    | some e => if e.kind = .v then s.seen p (e.locOf x.1) x.2 else s.physRead (e.locOf x.1) x.2
    | none => List.replicate x.2 0

/-- A channel out of service holds bytes of a page-fetch list: its reader waits (R344). -/
def State.listHeld (s : State) (tr : List PageT) (a : Addr) (n : Nat) : Bool :=
  s.chans.toList.any (·.train) && (pieces (a.toNat / 16 * 16) (16 * min n 128)).any fun x => match findPage tr (x.1 / 65536) with
    | some e => s.rangeHeld (e.locOf x.1) x.2
    | none => false

/-- The table that the staging unit builds from a list of n entries at an address (R109, R110): 128 extents at most. -/
def State.buildTable (s : State) (p : Nat) (tr : List PageT) (a : Addr) (n : Nat) : List Extent :=
  let base := a.toNat / 16 * 16
  let es := (List.range (min n 128)).filterMap fun i => listEntry (s.listBytes p tr (base + 16 * i) 16)
  (mergeExtents (es.flatMap fun e => extentRun tr e.2.2 s.cycle (2 * tr.length + 2) e.1 e.2.1)).take 128

/-- A table with one more run: it joins the extent before it and the one after it where they make one run (R110). -/
def addExtent (ext : List Extent) (x : Extent) : List Extent :=
  let a := ext.find? fun e => e.joins x
  let y := (a.map fun e => e.join x).getD x
  let rest := ext.filter fun e => decide (some e ≠ a)
  match rest.find? fun e => y.joins e with
  | some b => (rest.filter fun e => decide (e ≠ b)) ++ [y.join b]
  | none => rest ++ [y]

/-- The pages of an append list join a table, while it has room (R111). -/
def appendPages (tr : List PageT) (cyc : Nat) (ext : List Extent) (pages : List Nat) : List Extent :=
  pages.foldl (fun ext v =>
    if ext.any fun e => decide (e.vpn ≤ v) && decide (v < e.vpn + e.pages) then ext
    else match extentRun tr false cyc 2 v 1 with
      | x :: _ => let es := addExtent ext x; if es.length ≤ 128 then es else ext
      | [] => ext) ext

/-! ### The order of records (R84) -/

/-- A record is dispatched before another. -/
def LRec.before (a b : LRec) : Bool := decide (b.prio < a.prio) || (decide (a.prio = b.prio) && decide (a.order < b.order))

/-- The Eligible record of a choice that R84 picks. -/
def Partition.best (P : Partition) (ok : LRec → Bool) : Option Nat :=
  ((List.range P.recs.length).filter fun i => decide ((P.rcd i).st = .eligible) && ok (P.rcd i)).foldl (fun m i => match m with
    | some j => if (P.rcd i).before (P.rcd j) then some i else some j
    | none => some i) none

/-- The record the dispatcher picks: of the function that a time slice goes to, if it has one (R44, R84); in Saving, that of a newer
requester of still higher priority (R87). -/
def Partition.pickRecord (P : Partition) : Option Nat :=
  if P.run = .saving then P.best fun r => decide (max P.savePrio ((P.launch.map (·.prio)).getD 0) < r.prio) && r.savedIn.isNone
  else (P.sliceTo.bind fun f => P.best fun r => decide (r.postFn = f)).or (P.best fun _ => true)

/-- The record whose seed the dispatcher stages: while the partition runs another launch the Eligible one of highest priority, else the one it will
pick (R84). -/
def Partition.toStage (P : Partition) : Option Nat := if P.launch.isSome && decide (P.run ≠ .saving) then P.best fun _ => true else P.pickRecord

/-- The dispatcher stages a seed page-fetch list, translated for logical tile 0 of its record's span; that of a launch whose first tile has not
started stays (R84). A list with bytes in a channel out of service is not staged yet (R344). -/
def State.stageSeed (s : State) (p : Nat) : State :=
  s.modPart p fun P =>
    let list (i : Nat) : Addr × Nat := (BitVec.ofNat 57 ((P.rcd i).fld 24 8), (P.rcd i).fld 32 4)
    { P with seed := (P.seed.filter fun x => decide (P.launch.map (·.rcd) = some x.1)) ++
        (P.toStage.toList.filter fun i => !s.listHeld P.transBuild (list i).1 (list i).2).map fun i => (i, s.buildTable p P.transBuild (list i).1 (list i).2) }

/-- The seed of a record is staged: a record in state Eligible is eligible (R84). -/
def Partition.staged (P : Partition) (i : Nat) : Bool := P.seed.any fun x => decide (x.1 = i)

/-! ### Requests for pre-emption (R86) -/

/-- The binding of the function whose launch runs: its save area (R60). -/
def State.runBinding (s : State) (p : Nat) : Option Binding := (s.part p).launch.bind fun l =>
  match s.bound? l.fn with
  | some b => if b.part = p then some b else none
  | none => none

/-- A partition's stop at its next fix is pending for a pre-emption. -/
def Partition.preempting (P : Partition) : Bool := P.stops.any fun x => match x.1 with | .preempt _ => true | _ => false

/-- The wait bound of a pending pre-emption starts (R86). -/
def State.startBound (s : State) (p : Nat) : State :=
  match (s.part p).launch with
  | none => s
  | some l =>
    if (s.part p).preempting then
      let n := l.bound * Config.usCycles
      (s.modPart p fun P => { P with stops := P.stops.map fun x => match x.1 with | .preempt k => (.preempt k, s.cycle + n) | _ => x }).schedule n
        .preemptBoundExpiry { p := p, op := l.since }
    else s

/-- A partition in which a request for pre-emption waits until it is released or has cooled (R83; log entry 58). -/
def Partition.waits (P : Partition) : Bool := decide (P.run = .held) || decide (P.run = .thermal)

/-- A pre-emption of the running launch is requested; a non-pre-emptible launch defers it until its residency bound (R50, R86). A
launch without a save area is not switched out (log entry 22). -/
def State.requestPreempt (s : State) (p kind : Nat) : State :=
  let P := s.part p
  match P.launch with
  | none => s
  | some l =>
    if P.preempting || (s.runBinding p).isNone || decide (P.run = .saving) || decide (P.run = .halted) then s
    else if l.nonPre ∧ s.cycle < l.since + s.pfNpLimit * Config.usCycles then
      s.schedule (l.since + s.pfNpLimit * Config.usCycles - s.cycle) .nonpreemptibleLimitExpiry { p := p, n := kind, op := l.since }
    else
      let s1 := s.modPart p fun P => { P with stops := P.stops ++ [(.preempt kind, 0)] }
      if P.waits then s1 else s1.startBound p

/-- An Eligible record of higher priority than the running launch. -/
def Partition.higherEligible (P : Partition) : Bool := match P.launch with
  | some l => P.recs.any fun r => decide (r.st = .eligible) && decide (l.prio < r.prio)
  | none => false

/-- After records change: the best record's seed is staged (R84), and a record of higher priority requests pre-emption (R86). -/
def State.afterRecords (s : State) (p : Nat) : State :=
  let s := s.stageSeed p
  if (s.part p).higherEligible then s.requestPreempt p 0 else s

/-! ### Record operations (R73, R74, R314) -/

/-- An operation on a partition's pool applied: the code of its refusal. -/
def State.applyRec (s : State) (p : Nat) (op : RecOp) (fn : Nat) (cmd : Option CmdRef) : State × Nat :=
  let P := s.part p
  let idx := match op with
    | .write i _ | .patch i _ _ | .arm i | .post i | .postTo _ i | .postFrom _ _ i => i
  if P.recs.length ≤ idx then (s, 1)
  else
    let r : Partition × Nat := match op with
      | .write i g => P.recWrite i g
      | .patch i off d => P.recPatch i off d
      | .arm i => P.recArm i
      | .post i | .postTo _ i => P.recPost i fn cmd
      | .postFrom q f i => if q ≠ p ∧ !((P.rcd i).fld 80 8).testBit q then (P, 4) else P.recPost i f cmd
    let s1 := s.modPart p fun _ => r.1
    let s2 := match op with
      | .write _ g => if r.2 = 0 ∧ fldOf g 88 8 ≠ 0 then s1.regenerateNow none p else s1
      | _ => s1
    (s2.afterRecords p, r.2)

/-- The word of %lrerr (R73). -/
def lrerrWord (code p idx : Nat) : Word := BitVec.ofNat 64 ((if code = 9 then 7 else code) * 2 ^ 40 + p % 64 * 2 ^ 32 + idx % 2 ^ 32)

/-- A refusal of a device operation sets %lrerr of its thread, when that is clear (R73). -/
def State.noteRefusal (s : State) (p t th code target idx : Nat) : State :=
  if code = 0 then s
  else s.modTile p t fun T => T.modThread th fun x => if x.lrerr.extractLsb' 40 8 = 0 then { x with lrerr := lrerrWord code target idx } else x

/-- The record range that the running launch of a partition may name (R314). -/
def State.recRange (s : State) (p fn : Nat) : Nat × Nat :=
  match s.bound? fn with
  | some b => if fn ≠ 0 ∧ b.part = p then (b.first, b.count) else (0, (s.part p).recs.length)
  | none => (0, (s.part p).recs.length)

/-- A host operation, or one of another partition, applied at once or held for the next fix or wash point (R73, R74). -/
def State.applyHostReq (s : State) (p : Nat) (r : RecReq) : State :=
  match r.op with
  | .postFrom q f i =>
    let x := s.applyRec p r.op f none
    x.1.noteRefusal q r.tile r.th x.2 p i
  | .post _ =>
    let x := s.applyRec p r.op ((r.cmd.map (·.fn)).getD 0) r.cmd
    if x.2 = 0 then x.1 else x.1.completeOpt r.cmd (recStatus x.2)
  | _ =>
    let x := s.applyRec p r.op 0 none
    x.1.completeOpt r.cmd (recStatus x.2)

def State.hostReq (s : State) (p : Nat) (r : RecReq) : State :=
  if (s.part p).still then s.applyHostReq p r else s.modPart p fun P => { P with reqs := P.reqs ++ [r] }

/-- A request of the device's own threads. -/
def RecReq.device (r : RecReq) : Bool := r.cmd.isNone && match r.op with | .postFrom .. => false | _ => true

/-- A device operation of a fixed superstep (R73, R74, R314). -/
def State.applyDevReq (s : State) (p fn : Nat) (r : RecReq) : State :=
  let rng := s.recRange p fn
  let own (i : Nat) : State :=
    if i < rng.1 ∨ rng.1 + rng.2 ≤ i then s.noteRefusal p r.tile r.th 1 p i
    else let x := s.applyRec p r.op fn none; x.1.noteRefusal p r.tile r.th x.2 p i
  match r.op with
  | .arm i | .post i | .patch i _ _ => own i
  | .postTo q i =>
    if 63 < q ∨ !(s.part q).valid then s.noteRefusal p r.tile r.th 8 q i
    else if q = p then let x := s.applyRec p r.op fn none; x.1.noteRefusal p r.tile r.th x.2 p i
    else s.hostReq q { r with op := .postFrom p fn i }
  | .write .. | .postFrom .. => s

/-- The order of device operations: logical tile, thread, program order (R73). -/
def RecReq.le (a b : RecReq) : Bool := decide ([a.tile, a.th, a.seq] < [b.tile, b.th, b.seq]) || decide ([a.tile, a.th, a.seq] = [b.tile, b.th, b.seq])

/-- The operations held for a fix or wash point applied: the host's, then at a fix the superstep's own (R73). -/
def State.applyReqs (s : State) (p fn : Nat) (fix : Bool) : State :=
  let rs := (s.part p).reqs
  let s1 := (rs.filter fun r => !r.device).foldl (fun s r => s.applyHostReq p r) (s.modPart p fun P => { P with reqs := [] })
  if fix then ((rs.filter RecReq.device).insertionSort fun x y => RecReq.le x y = true).foldl (fun s r => s.applyDevReq p fn r) s1 else s1

/-! ### arm, patch and post (R313, R314) -/

/-- A record instruction joins the superstep's latent version. -/
def State.recInstr (s : State) (op : RecOp) : State :=
  let t := s.here
  s.notFirmware (s.finish ((s.modPart s.hereP fun P => { P with reqs := P.reqs ++ [⟨op, s.hereT, s.cur.th, t.seq, none⟩] }).modHere
    fun t => { t with seq := t.seq + 1 }))

/-- `arm` (R313, R314). -/
def execArmInstruction (r : Sreg) (s : State) : Result State := .next (s.recInstr (.arm (s.sr r).toNat))
/-- `patch` (R313, R314). -/
def execPatchInstruction (r v : Sreg) (off : BitVec 8) (len1 : BitVec 3) (s : State) : Result State :=
  .next (s.recInstr (.patch (s.sr r).toNat off.toNat (leBytes (len1.toNat + 1) (s.sr v).toNat)))
/-- `post` (R313, R314). -/
def execPostInstruction (r : Sreg) (p : Option Sreg) (s : State) : Result State :=
  .next (s.recInstr (match p with
    | some q => .postTo (s.sr q).toNat (s.sr r).toNat
    | none => .post (s.sr r).toNat))

/-! ### Completion of a launch (R75, R76, R336) -/

/-- The condition of a conditional record (R70, R75). -/
def LRec.holds (r : LRec) (w : Nat) : Bool := match r.fld 60 1 with
  | 0 => w != 0
  | 1 => w == 0
  | 2 => decide (r.fld 64 8 ≤ w)
  | _ => decide (w < r.fld 64 8)

/-- The next record and its counter (R75). -/
def LRec.next (r : LRec) (w : Nat) : Nat × Nat :=
  if r.conditional && !r.holds w then (r.fld 56 4, r.fld 72 1 / 16 % 4) else (r.fld 36 4, r.fld 72 1 % 4)

/-- The records reachable from a list through successor and alternative links (R76). -/
def Partition.reach (P : Partition) : (fuel : Nat) → (todo seen : List Nat) → List Nat
  | 0, _, seen => seen
  | _ + 1, [], seen => seen
  | f + 1, i :: todo, seen =>
    if seen.contains i ∨ P.recs.length ≤ i then P.reach f todo seen
    else P.reach f (todo ++ [(P.rcd i).fld 36 4, (P.rcd i).fld 56 4]) (seen ++ [i])

/-- GRAPH_RE_ARM: one record of the graph (R76). -/
def State.rearmOne (s : State) (p i : Nat) : State :=
  let r := (s.part p).rcd i
  if r.st = .idle then
    if (s.part p).armRefusal r.image ≠ 0 then partEvent s p .illegalTarget 0 (BitVec.ofNat 64 i)
    else s.modPart p fun P => P.modRcd i LRec.arm
  else s.modPart p fun P => P.modRcd i fun r => { r with rearm := true }

/-- A decrement of R75, by a completion of posting function fn. -/
def Partition.decrement (P : Partition) (i k fn : Nat) : Partition :=
  let r := P.rcd i
  let c := r.counts.toList.getD k 0
  if (r.st = .armed ∨ r.st = .posted) ∧ c ≠ 0 then
    let r' := { r with counts := if h : k < 4 then r.counts.set k (c - 1) else r.counts,
                       postFn := if r.st = .posted then r.postFn else fn }
    let P := P.modRcd i fun _ => r'
    if r'.counts.toList.all (· == 0) then P.makeEligible i else P
  else P

/-- LAUNCH_COMPLETE of record i (R75, R76, R336). -/
def launchComplete (s : State) (p i : Nat) : State :=
  let P := s.part p
  let r := P.rcd i
  if r.st ≠ .running ∨ (P.launch.map (·.rcd)) = some i ∨ P.recs.length ≤ i then s
  else
    let x := r.next (leNat (s.vread P.trans (r.fld 48 8) 8))
    let s1 := s.modPart p fun P => P.modRcd i fun r =>
      if r.rearm then { r.arm with postCmd := none } else { r with st := .idle, order := 0, postCmd := none, savedIn := none }
    let s2 : State := if x.1 = 0xFFFFFFFF then s1
      else if P.recs.length ≤ x.1 then partEvent s1 p .illegalTarget 0 (BitVec.ofNat 64 x.1)
      else
        let s1 := if r.conditional && r.rearms then ((s1.part p).reach (2 * P.recs.length + 2) [x.1] []).foldl (fun s j => s.rearmOne p j) s1 else s1
        s1.modPart p fun P => P.decrement x.1 x.2 r.postFn
    (s2.completeOpt r.postCmd 1).afterRecords p

/-- LAUNCH_COMPLETE (R72, R75, R76) of record `arg.n` of partition `arg.p`: the write-behind of the fix in cycle `arg.op`, its last, has drained. -/
def execLaunchComplete (s : State) : Result State :=
  .next ((launchComplete s s.arg.p s.arg.n).modPart s.arg.p fun P => { P with drains := P.drains.erase s.arg.op })

/-- NONPREEMPTIBLE_LIMIT_EXPIRY (R50, R86): the deferred request of partition `arg.p` is made. -/
def execNonpreemptibleLimitExpiry (s : State) : Result State :=
  .next (if ((s.part s.arg.p).launch.map (·.since)) = some s.arg.op ∧ (s.arg.n ≠ 0 ∨ (s.part s.arg.p).higherEligible) then
    s.requestPreempt s.arg.p s.arg.n else s)

end Sys2Proof.Machine
end

