-- ==== Sys2Proof/Machine/Sheet.lean ====
section
/-!
DEFINITION. The contact sheet and the save area as bytes (spec/03 R60 to R66; spec/19 R332): tasks at dispatch (spec/04 R77,
spec/05 R104), tile sections and their loading, the other sections, the header and directory, and validation.
-/

namespace Sys2Proof.Machine

/-! ### Digests (R1, R28) -/

/-- A byte string cut or filled with zeros to a length. -/
def fit (n : Nat) (bs : List Byte) : List Byte := (bs ++ List.replicate n 0).take n
/-- The first n bytes of the SHAKE256 digest (log entry 6). -/
def digest (n : Nat) (bs : List Byte) : List Byte := fit n (Config.shake256 bs)
/-- The device public key and identity (R28). -/
def deviceKey : List Byte := fit 64 Config.devicePublicKey
def deviceIdentity : List Byte := digest 32 deviceKey
/-- A signature with the device key (R28, R63). -/
def signDevice (bs : List Byte) : List Byte := fit 29792 (Config.deviceSign bs)

/-! ### Launches and tasks (R70, R77, R104) -/

/-- A record's launch at a cycle, for a posting function (R70, R71). -/
def LRec.launch (r : LRec) (i fn cyc : Nat) : Launch :=
  { rcd := i, fn := fn, since := cyc, spanOff := r.fld 8 2, pods := r.fld 10 2, stages := r.fld 12 1, prio := r.prio,
    nonPre := r.nonPre, watchdog := 1024 * (if r.fld 16 4 = 0 then 1048576 else r.fld 16 4),
    bound := if r.fld 20 4 = 0 then 100 else r.fld 20 4, ended := false }

/-- %coord of a task on logical tile t (R77). -/
def Launch.coord (l : Launch) (t th : Nat) : Word :=
  let k := t / 8 - l.spanOff
  BitVec.ofNat 64 (t % 2048 * 2 ^ 32 + k / l.pods % 16 * 2 ^ 28 + k % l.pods * 2 ^ 20 + t % 8 * 2 ^ 17 + th * 2 ^ 14)

/-- The stack pointer and limit a thread starts with (R104). -/
def stackTop (th : Nat) : Nat := 0x40000 - 0x1000 * th

/-- A task at dispatch on a tile's thread (R77, R104): every register zero but s2, %slim, %coord, the parameters and the ceiling. -/
def LRec.task (r : LRec) (l : Launch) (t th : Nat) (ceil : Scope) (cyc : Nat) : Thread :=
  let regs : Vector Word 32 := (Vector.replicate 32 0).set 2 (BitVec.ofNat 64 (stackTop th))
  let pc : Addr := BitVec.ofNat 57 (r.fld 0 8)
  let slim : BitVec 18 := BitVec.ofNat 18 (stackTop th - 0x1000)
  { Thread.zero with
    task := .running, pc := pc, regs := regs, slim := slim, coord := l.coord t th, ceil := ceil, readyAt := cyc
    par := Vector.ofFn fun k => BitVec.ofNat 64 (leNat (bytesAt r.snap (8 * k.val) 8))
    committed := ⟨pc, 0, regs, [], 0, slim⟩ }

/-- The scope ceiling of a launch's posting function (R122). -/
def State.ceilOf (s : State) (fn : Nat) : Scope := if fn = 0 then .sys else ((s.bound? fn).map (·.ceil)).getD .sys

/-! ### Tile sections (R65, R332) -/

/-- Runs of consecutive numbers of a rising list, as (first, count). -/
def runsOf : List Nat → List (Nat × Nat)
  | [] => []
  | g :: gs => match runsOf gs with
    | (h, n) :: r => if g + 1 = h then (g, n + 1) :: r else (g, 1) :: (h, n) :: r
    | [] => [(g, 1)]

/-- The granules of a buffer that ranges name, rising. -/
def grainsOf (rs : List Range) (b : Buf) : List Nat :=
  (((rs.filter fun r => r.buf = b).flatMap fun r => granulesOf r.start r.len).dedup).insertionSort (· ≤ ·)

/-- Ranges merged, in order of space and start. -/
def mergeRanges (rs : List Range) : List Range :=
  [Buf.w, .a, .c].flatMap fun b => (runsOf (grainsOf rs b)).map fun x => ⟨b, 64 * x.1, 64 * x.2⟩

/-- Ranges less the granules that others name. -/
def lessRanges (rs others : List Range) : List Range :=
  [Buf.w, .a, .c].flatMap fun b =>
    (runsOf ((grainsOf rs b).filter fun g => !(grainsOf others b).contains g)).map fun x => ⟨b, 64 * x.1, 64 * x.2⟩

/-- The ranges of unfinished tasks. -/
def Tile.taskRanges (T : Tile) : List Range := (T.threads.filter fun t => t.task = .running).flatMap fun t => t.committed.ranges

def bufNum : Buf → Nat
  | .w => 0
  | .a => 1
  | .c => 2

/-- The named registers of a bitmap, s0 apart. -/
def namedRegs (bm : BitVec 32) : List (Fin 32) := (List.finRange 32).filter fun i => i ≠ 0 && bm.getLsbD i.val

def Ring.bytes (r : Ring) : List Byte :=
  if r.unused then List.replicate 16 0
  else leBytes 1 r.space.toNat ++ leBytes 1 (r.slot.toNat + 6) ++ leBytes 2 r.slots ++ leBytes 4 r.base.toNat ++
    leBytes 4 r.prod.toNat ++ leBytes 4 r.cons.toNat

def Committed.bytes (c : Committed) : List Byte :=
  leBytes 8 c.pc.toNat ++ leBytes 4 c.bitmap.toNat ++ leBytes 2 c.ct.toNat ++ leBytes 2 0 ++
    (namedRegs c.bitmap).flatMap fun i => leBytes 8 c.regs[i].toNat

/-- A tile's section: its committed version (R65). -/
def Tile.bytes (T : Tile) (t : Nat) : List Byte :=
  let run := (List.range 8).filter fun i => (T.thread i).task = .running
  let fin := mergeRanges T.finRanges
  let rs := fin.map (fun r => (r, 1)) ++ (lessRanges T.taskRanges T.finRanges).map fun r => (r, 0)
  let head := leBytes 4 t ++ leBytes 1 (run.map (2 ^ ·)).sum ++ leBytes 1 0 ++ leBytes 2 rs.length ++ leBytes 8 T.flpaC.toNat ++
    leBytes 4 T.flpnC ++ List.replicate 44 0 ++ T.fmtC.toList ++ List.replicate 24 0 ++ T.ringsC.toList.flatMap Ring.bytes
  let body := head ++ (run.flatMap fun i => (T.thread i).committed.bytes) ++ rs.flatMap fun x =>
    leBytes 1 (bufNum x.1.buf) ++ leBytes 1 x.2 ++ leBytes 2 0 ++ leBytes 4 x.1.start ++ leBytes 4 x.1.len ++ leBytes 4 0
  if rs = [] then body else fit ((body.length + 63) / 64 * 64) body ++ rs.flatMap fun x => (T.buf x.1.buf).readRun x.1.start x.1.len

/-- A ring as a section holds it. -/
def ringOf (b : List Byte) : Ring :=
  if fldOf b 0 1 = 0 then Ring.zero
  else ⟨BitVec.ofNat 2 (fldOf b 0 1), BitVec.ofNat 4 (fldOf b 1 1 - 6), BitVec.ofNat 12 (fldOf b 2 2 - 1), BitVec.ofNat 18 (fldOf b 4 4),
        BitVec.ofNat 32 (fldOf b 8 4), BitVec.ofNat 32 (fldOf b 12 4)⟩

/-- A thread of a section over the task it had at dispatch: its length in bytes, and the thread at its resume point (R65, R340). -/
def loadThread (b : List Byte) (t0 : Thread) : Nat × Thread :=
  let bm : BitVec 32 := BitVec.ofNat 32 (fldOf b 8 4)
  let ns := namedRegs bm
  let regs : Vector Word 32 := Vector.ofFn fun i => match ns.findIdx? (· = i) with
    | some k => BitVec.ofNat 64 (fldOf b (16 + 8 * k) 8)
    | none => t0.regs[i]
  let pc : Addr := BitVec.ofNat 57 (fldOf b 0 8)
  let ct : BitVec 3 := BitVec.ofNat 3 (fldOf b 12 2)
  (16 + 8 * ns.length, { t0 with pc := pc, regs := regs, ct := ct, committed := ⟨pc, bm &&& ~~~1, regs, [], ct, t0.slim⟩ })

/-- A tile loaded from its section, whose ranges without FIN are committed bytes of its unfinished tasks (R65, R68, R332): `task i` is what thread i had at dispatch, and `mask` the launch's thread mask on
this tile. -/
def loadTile (sec : List Byte) (task : Nat → Thread) (mask : Nat) : Tile :=
  let run := fldOf sec 4 1
  let m := fldOf sec 6 2
  let ths := (List.range 8).foldl (fun (x : Nat × List Thread) i =>
    if run.testBit i then
      let r := loadThread (sec.drop x.1) (task i)
      (x.1 + r.1, x.2 ++ [r.2])
    else (x.1, x.2 ++ [if mask.testBit i then { Thread.zero with task := .finished } else Thread.zero])) (384, [])
  let ds := (List.range m).map fun k => let d := bytesAt sec (ths.1 + 16 * k) 16
    ((⟨(match fldOf d 0 1 with | 1 => Buf.a | 2 => .c | _ => .w), fldOf d 4 4, fldOf d 8 4⟩ : Range), (fldOf d 1 1).testBit 0)
  let start := (ths.1 + 16 * m + 63) / 64 * 64
  let put (b : Buf) : Memory := (ds.foldl (fun (x : Nat × Memory) d =>
    (x.1 + d.1.len, if d.1.buf = b then x.2.writeRun d.1.start (bytesAt sec x.1 d.1.len) else x.2)) (start, [])).2
  let fmt : Vector Byte 40 := Vector.ofFn fun i => sec.getD (64 + i.val) 0
  let rings : Vector Ring 16 := Vector.ofFn fun i => ringOf (bytesAt sec (128 + 16 * i.val) 16)
  { Tile.zero with
    w := put .w, a := put .a, c := put .c, fmt := fmt, fmtC := fmt, rings := rings, ringsC := rings
    flpa := BitVec.ofNat 57 (fldOf sec 8 8), flpaC := BitVec.ofNat 57 (fldOf sec 8 8), flpn := fldOf sec 16 4, flpnC := fldOf sec 16 4
    finRanges := (ds.filter (·.2)).map (·.1)
    threads := match ths.2.findIdx? fun t => decide (t.task = .running) with
      | some i => ths.2.modify i fun t => { t with committed := { t.committed with ranges := (ds.filter fun d => !d.2).map (·.1) } }
      | none => ths.2 }

/-! ### The other sections (R64) -/

def kindCode : Kind → Nat
  | .v => 0
  | .l => 1
  | .red => 2
  | .cav => 3
def kindOf (n : Nat) : Kind := match n % 4 with
  | 0 => .v
  | 1 => .l
  | 2 => .red
  | _ => .cav
def scopeCode : Scope → Nat
  | .thr => 0
  | .tile => 1
  | .pod => 2
  | .part => 3
  | .pkg => 4
  | .sys => 5
def scopeOf (n : Nat) : Scope := match n with
  | 0 => .thr
  | 1 => .tile
  | 2 => .pod
  | 3 => .part
  | 4 => .pkg
  | _ => .sys

/-- A page of the fault ring (R183). -/
def ringPage (p vpn : Nat) : Bool := let b := (Config.faultRingPage p).toNat; decide (b ≤ vpn) && decide (vpn < b + 5)

/-- The pages of the page map, in increasing virtual address. -/
def Partition.mapPages (P : Partition) (p : Nat) : List PageT :=
  (P.trans.filter fun e => !ringPage p e.vpn).insertionSort fun a b => a.vpn ≤ b.vpn

/-- The 64 KiB pages a list of entries needs on the device. -/
def devicePages (es : List PageT) : Nat := ((es.filter fun e => !e.loc.host).map (·.size)).sum

def PageT.prot (e : PageT) : Nat := (if e.r then 1 else 0) + (if e.w then 2 else 0) + (if e.x then 4 else 0)

def PageT.bytes (e : PageT) : List Byte :=
  leBytes 8 (65536 * e.vpn) ++ leBytes 1 (kindCode e.kind + if e.loc.host then 128 else 0) ++ leBytes 1 e.prot ++ leBytes 1 (scopeCode e.scope) ++
    leBytes 1 (if e.size = 32 then 1 else 0) ++ leBytes 4 0

/-- Section 0x20. -/
def State.pageSection (s : State) (p : Nat) : List Byte :=
  let es := (s.part p).mapPages p
  leBytes 8 es.length ++ es.flatMap PageT.bytes ++
    (es.filter fun e => !e.loc.host).flatMap fun e => s.physRead e.loc (65536 * e.size)

/-- The rank of an Eligible record in the order they became Eligible, from 1 (R64). -/
def Partition.rank (P : Partition) (r : LRec) : Nat :=
  if r.st = .eligible then (P.recs.filter fun x => decide (x.st = .eligible) && decide (x.order ≤ r.order)).length else 0

def recCode : RecSt → Nat
  | .idle => 0
  | .armed => 1
  | .posted => 2
  | .eligible => 3
  | .running => 4
def recOf (n : Nat) : RecSt := match n with
  | 1 => .armed
  | 2 => .posted
  | 3 => .eligible
  | 4 => .running
  | _ => .idle

def LRec.bytes (r : LRec) (rank : Nat) : List Byte :=
  fit 512 r.image ++ fit 256 r.snap ++ leBytes 1 (recCode r.st + (if r.snapValid then 8 else 0) + if r.rearm then 16 else 0) ++ List.replicate 7 0 ++
    r.counts.toList.flatMap (fun c => leBytes 2 c.toNat) ++ leBytes 8 rank ++ List.replicate 232 0

/-- Section 0x04. -/
def Partition.poolSection (P : Partition) : List Byte :=
  leBytes 4 P.recs.length ++ List.replicate 60 0 ++ P.recs.flatMap fun r => r.bytes (P.rank r)

/-- Section 0x02, for the running record's number. -/
def Partition.stateSection (P : Partition) (rcd : Nat) : List Byte :=
  leBytes 4 P.ssn.toNat ++ leBytes 4 rcd ++ leBytes 4 P.lead ++ List.replicate 20 0

def Partition.runIndex (P : Partition) : Nat := (P.launch.map (·.rcd)).getD 0xFFFFFFFF

/-- Section 0x01. Its count of logical HBM pages is in units of 64 KiB, and host-backed pages are no HBM pages (R64 gives no unit; DESIGN CHOICE, log
entry 66). -/
def State.descSection (s : State) (p : Nat) : List Byte :=
  let P := s.part p
  fit 64 (leBytes 4 P.len ++ leBytes 4 (8 * P.len) ++ leBytes 4 P.wire ++ leBytes 4 P.redSlots ++ leBytes 4 P.recs.length ++
    leBytes 8 (devicePages (P.mapPages p)))

/-- Section 0x03. -/
def State.fnSection (s : State) (p : Nat) : List Byte :=
  let fs := (s.boundTo p).filterMap fun n => (s.bound? n).map fun b => (n, b)
  leBytes 4 fs.length ++ List.replicate 12 0 ++ fs.flatMap fun x => leBytes 1 (scopeCode x.2.ceil) ++ leBytes 1 x.2.cls ++ leBytes 2 x.1 ++
    leBytes 4 x.2.quantum ++ leBytes 4 x.2.first ++ leBytes 4 x.2.count

/-- The fault ring's bytes: its header and 4,096 records (R183). -/
def ringBytes : Nat := 64 + 64 * 4096
def State.ringSection (s : State) (p : Nat) : List Byte := s.vread (s.part p).trans ((Config.faultRingPage p).toNat * 65536) ringBytes

def Monitor.bytes (m : Monitor) : List Byte :=
  leBytes 4 (m.read4 0) ++ leBytes 4 m.min.toNat ++ leBytes 4 m.max.toNat ++ m.bins.toList.flatMap (fun b => leBytes 4 b.toNat) ++ leBytes 4 0
/-- Section 0x40. -/
def Partition.monSection (P : Partition) : List Byte := leBytes 4 8 ++ P.monitors.toList.flatMap Monitor.bytes

def monitorOf (b : List Byte) : Monitor :=
  let m := Monitor.zero.select (BitVec.ofNat 32 (fldOf b 0 4))
  { m with min := BitVec.ofNat 32 (fldOf b 4 4), max := BitVec.ofNat 32 (fldOf b 8 4),
           bins := Vector.ofFn fun k => BitVec.ofNat 32 (fldOf b (12 + 4 * k.val) 4) }

/-! ### Header and directory (R63) -/

/-- A section: type, index and body. -/
structure Sec where
  typ : Nat
  idx : Nat
  body : List Byte
  deriving DecidableEq, Repr

/-- The offsets of sections from a place on. -/
def secOffsets : (at_ : Nat) → List Sec → List Nat
  | _, [] => []
  | a, x :: xs => let o := (a + 63) / 64 * 64; o :: secOffsets (o + x.body.length) xs

/-- The first byte past the sections. -/
def secEnd : (at_ : Nat) → List Sec → Nat
  | a, [] => a
  | a, x :: xs => secEnd ((a + 63) / 64 * 64 + x.body.length) xs

def dirEnd (n : Nat) : Nat := 192 + 96 * n

def directory (xs : List Sec) : List Byte :=
  (xs.zip (secOffsets (dirEnd xs.length) xs)).flatMap fun x =>
    leBytes 4 x.1.typ ++ leBytes 4 x.1.idx ++ leBytes 8 x.2 ++ leBytes 8 x.1.body.length ++ digest 64 x.1.body ++ leBytes 8 0

def sheetMagic : Nat := 0x4F584353

/-- A sheet's length (R63). -/
def sheetLength (xs : List Sec) (signed : Bool) : Nat := secEnd (dirEnd xs.length) xs + if signed then 29792 else 0

def sheetHeader (xs : List Sec) (signed : Bool) (time : Word) : List Byte :=
  leBytes 4 sheetMagic ++ leBytes 4 0x00010000 ++ leBytes 8 (sheetLength xs signed) ++ leBytes 4 xs.length ++ leBytes 4 (if signed then 1 else 0) ++
    deviceIdentity ++ leBytes 8 time.toNat ++ digest 64 (directory xs) ++ if signed then deviceKey else List.replicate 64 0

/-- The sections laid out after a prefix, each on a 64-byte boundary. -/
def layOut : (acc : List Byte) → List Sec → List Byte
  | acc, [] => acc
  | acc, x :: xs => layOut (fit ((acc.length + 63) / 64 * 64) acc ++ x.body) xs

/-- A whole sheet (R63). -/
def sheetBytes (xs : List Sec) (signed : Bool) (time : Word) : List Byte :=
  let h := sheetHeader xs signed time
  layOut (h ++ directory xs) xs ++ if signed then signDevice h else []

/-- The sections of a save area, or of a sheet, of a partition whose tiles stand in place (R62). -/
def Partition.tileSecs (P : Partition) : List Sec := P.tiles.zipIdx.map fun x => ⟨0x10, x.2, x.1.bytes x.2⟩
def Partition.saveSecs (P : Partition) : List Sec := [⟨0x02, 0, P.stateSection P.runIndex⟩, ⟨0x04, 0, P.poolSection⟩] ++ P.tileSecs

/-! ### Reading a sheet back (R66) -/

/-- The sections a sheet's directory lists. -/
def secsOf (b : List Byte) : List Sec :=
  (List.range (fldOf b 16 4)).map fun k =>
    let e := bytesAt b (192 + 96 * k) 96
    ⟨fldOf e 0 4, fldOf e 4 4, bytesAt b (fldOf e 8 8) (fldOf e 16 8)⟩

def findSec (xs : List Sec) (typ : Nat) : List Byte := ((xs.find? fun x => x.typ = typ).map (·.body)).getD []

/-- The types and indexes of the entries, as R63 orders them for a LEN. -/
def sheetKeys (len : Nat) : List (Nat × Nat) :=
  [(1, 0), (2, 0), (3, 0), (4, 0)] ++ (List.range (8 * len)).map (fun t => (0x10, t)) ++ [(0x20, 0), (0x30, 0), (0x40, 0)]

/-- The checks of R66, in order, for an area of `size` bytes. -/
def validSheet (b : List Byte) (size : Nat) : Bool :=
  let n := fldOf b 16 4
  let total := fldOf b 8 8
  let xs := secsOf b
  decide (fldOf b 0 4 = sheetMagic) && decide (fldOf b 4 4 / 65536 = 1) && decide (total ≤ size) && decide (dirEnd n ≤ total) &&
    decide (digest 64 (bytesAt b 192 (96 * n)) = bytesAt b 64 64) &&
    decide (xs.map (fun x => (x.typ, x.idx)) = sheetKeys (fldOf (findSec xs 1) 0 4)) &&
    ((List.range n).all fun k =>
      let e := bytesAt b (192 + 96 * k) 96
      decide (fldOf e 8 8 % 64 = 0) && decide (dirEnd n ≤ fldOf e 8 8) && decide (fldOf e 8 8 + fldOf e 16 8 ≤ total) &&
        decide (digest 64 (bytesAt b (fldOf e 8 8) (fldOf e 16 8)) = bytesAt e 24 64)) &&
    (!(fldOf b 20 4).testBit 0 ||
      (Config.slhVerify (bytesAt b 128 64) (bytesAt b 0 192) (bytesAt b (total - 29792) 29792) &&
        decide (digest 32 (bytesAt b 128 64) = bytesAt b 24 32)))

end Sys2Proof.Machine
end

