-- ==== Sys2Proof/Machine/Commit.lean ====
section
/-!
DEFINITION. What the flip time F does to memory and threads (spec/04 R81, R82; spec/05 R102, R108 to R110; spec/06 R119, R127, R128,
R133; spec/13 R258, R259; spec/21 R340): extent tables, the choice among writes, outside writes, the committed tile, and the start of
a superstep.
-/

namespace Sys2Proof.Machine

/-! ### Extent tables (R110, R333) -/

/-- EXTENT_BUILD_DONE: the spare table of the next superstep (R110), or the current one of a restored tile (R333). -/
def State.buildDone (s : State) (p t : Nat) (now : Bool) : State :=
  let P := s.part p
  let T := P.tile t
  let es := s.buildTable p P.transBuild T.flpa T.flpn
  s.modTile p t fun T => if now then { T with ext := es, building := false } else { T with spare := es, building := false }

/-! ### The choice among writes (R127, R128) -/

def WRec.covers (w : WRec) (l : Loc) : Bool := decide (w.loc.host = l.host) && decide (w.loc.addr ≤ l.addr) && decide (l.addr < w.loc.addr + w.data.length)
def WRec.byteAt (w : WRec) (l : Loc) : Byte := w.data.getD (l.addr - w.loc.addr) 0

/-- The bytes that two unordered writes both reach. -/
def clash (x y : WRec) : List Loc :=
  let a := max x.loc.addr y.loc.addr
  let z := min (x.loc.addr + x.data.length) (y.loc.addr + y.data.length)
  if decide (z ≤ a) || x.loc.host != y.loc.host || decide (x.id = y.id) || y.hb.contains x.id || x.hb.contains y.id then []
  else (List.range (z - a)).map fun i => ⟨x.loc.host, a + i⟩

def clashes : List WRec → List Loc
  | [] => []
  | x :: xs => xs.flatMap (clash x) ++ clashes xs

/-- The last write of each operation, of those that no other follows in happens-before. -/
def topWrites (ws : List WRec) : List WRec :=
  let top := ws.filter fun x => !ws.any fun y => y.hb.contains x.id
  (top.zipIdx.filter fun x => !(top.drop (x.2 + 1)).any fun y => y.id = x.1.id).map (·.1)

/-- The write a byte of a tile buffer takes: R127 among engine writes; of unordered writes with a task's or the matrix unit's among
them, one of them, and which one is free (R128; log entry 4). -/
def bufWinner (k b a : Nat) (ws : List WRec) : Option WRec :=
  let top := topWrites ws
  if top.all fun w => w.cls = .engine then winner ws else top[Config.raceChoice k b a % top.length]?

/-- A buffer with its latent writes merged in (R102, R107, R127, R128). -/
def Tile.settled (T : Tile) (k : Nat) (b : Buf) : Memory :=
  let ws := T.latent.filter fun w => w.buf = some b
  let m := ws.foldl (fun m w => m.writeRun w.loc.addr w.data) (T.buf b)
  (clashes ws).dedup.foldl (fun m l => match bufWinner k (bufNum b) l.addr (ws.filter fun w => w.covers l) with
    | some w => m.write l.addr (w.byteAt l)
    | none => m) m

/-- The bytes of a buffer that ranges name; every other byte reads zero (R102). -/
def keepNamed (m : Memory) (rs : List Range) (b : Buf) : Memory :=
  (mergeRanges (rs.filter fun r => r.buf = b)).foldl (fun acc r => acc.writeRun r.start (m.readRun r.start r.len)) []

/-! ### Write-behind (R81, R127) -/

/-- The write-behind of a fix becomes part of the image (R81, R127). -/
def State.commitWrites (s : State) (p : Nat) (ws : List WRec) : State :=
  let s1 := ws.foldl (fun s w => s.outsideWrite (some p) w.loc w.data) s
  (clashes ws).dedup.foldl (fun s l => match winner (ws.filter fun w => w.covers l) with
    | some w => s.physWrite l [w.byteAt l]
    | none => s) s1

/-! ### Threads at F (R82, R179, R243, R258, R259, R340) -/

/-- What every thread is after F: task mode, predicates and loop registers zero, nothing pending, and the vote's fields clear. -/
def Thread.afterF (t : Thread) (ready : Nat) : Thread :=
  { t with
    mode := .task, preds := Vector.replicate 8 false, lb := Vector.replicate 4 0, le := Vector.replicate 4 0,
    lc := Vector.replicate 4 0, pend := [], readyAt := ready, wait := .ready, vote := 0, hvote := 0, vor := 0, vmax := 0, vdet := 0,
    atfix := false, fixRec := none, xsynced := false, rounds := 0, seq := 0, hb := [], relF := [], seen := [] }

/-- Fix (R258, R259). -/
def Thread.commit (t : Thread) (ready : Nat) : Thread :=
  let u := t.afterF ready
  match t.task, t.fixRec with
  | .running, some r =>
    { u with pc := r.resume, regs := r.regs, task := if r.ends then .finished else .running,
             committed := ⟨r.resume, r.bitmap, r.regs, r.ranges, t.ct, t.slim⟩ }
  | _, _ => u

/-- Wash (R82, R340). -/
def Thread.wash (t : Thread) (ready : Nat) : Thread :=
  let u := t.afterF ready
  if t.task = .running then { u with pc := t.committed.pc, regs := t.committed.regs, ct := t.committed.ct, slim := t.committed.slim } else u

/-! ### Tiles at F -/

/-- What every tile is at the start of a superstep. -/
def Tile.fresh (T : Tile) : Tile :=
  { T with latent := [], granules := [], queues := Vector.replicate 4 [], slots := Vector.replicate 4 [], ringHb := Vector.replicate 16 [],
           lines := [], fetching := [], faults := [], flost := false, barrier := false, raisers := [], released := false, voted := false, contribs := [],
           streamed := [], landed := [], syncHb := [], stopIssue := false }

/-- The ranges that the fix instructions of a tile's threads name, finished ones among them (R102, R259). -/
def Tile.fixRanges (T : Tile) (ends : Bool) : List Range := T.threads.flatMap fun t => match t.task, t.fixRec with
  | .running, some r => if !ends || r.ends then r.ranges else []
  | _, _ => []

/-- A tile's latent version becomes its committed one (R81, R102, R108, R110). -/
def Tile.commit (T : Tile) (k ready : Nat) : Tile :=
  let rs := T.finRanges ++ T.fixRanges false
  { T.fresh with
    w := keepNamed (T.settled k .w) rs .w, a := keepNamed (T.settled k .a) rs .a, c := keepNamed (T.settled k .c) rs .c
    copyBack := T.overflow.filter fun g => match g with | .buf .. => true | .reg .. => false, fmtC := T.fmt, ringsC := T.rings, flpaC := T.flpa, flpnC := T.flpn
    ext := T.spare, spare := [], append := [], appendFull := false, appended := [], appendedFull := false
    finRanges := mergeRanges (T.finRanges ++ T.fixRanges true), threads := T.threads.map fun t => t.commit ready }

/-- A tile without what its launch has not fixed: the committed formats, rings and list, no task and no extents (R82, R98, R106). -/
def Tile.unplaced (T : Tile) : Tile :=
  { T.fresh with
    fmt := T.fmtC, rings := T.ringsC, flpa := T.flpaC, flpn := T.flpnC, ext := [], spare := [], append := [], appendFull := false, appended := []
    appendedFull := false, threads := List.replicate 8 Thread.zero }

/-- A tile returns to its committed version, and pages of the append list are staged (R82, R111). -/
def Tile.wash (T : Tile) (tr : List PageT) (cyc ready : Nat) : Tile :=
  { T.fresh with
    fmt := T.fmtC, rings := T.ringsC, flpa := T.flpaC, flpn := T.flpnC, ext := appendPages tr cyc T.ext T.append, spare := []
    appended := T.append, appendedFull := T.appendFull
    threads := T.threads.map fun t => t.wash ready }

/-! ### The start of a superstep -/

/-- What a partition forgets at F. -/
def Partition.fresh (P : Partition) : Partition :=
  { P with remote := [], events := [], decision := none, flipAt := 0, exchS := none, exchSkew := false, xbar := ExchBar.zero, flight := [], inPorts := [], reduced := [],
           reducing := [], kids := [], sentUp := false, wb := [], held := [], stale := [], outs := [], arrayEnd := P.arrayEnd.map fun _ => 0 }

/-- A partition's engine operations end, with the tags of its buffers; the copy engines turn to what others have queued. -/
def State.endOps (s : State) (p : Nat) : State :=
  let s1 := { s with ops := s.ops.filter fun o => !o.ofPart p, tags := s.tags.filter fun g => match g.at_ with
      | .buf q .. => decide (q ≠ p)
      | .word _ | .mgmt .. => true }
  (List.range 4).foldl (fun s d => (List.range 8).foldl (fun s q => s.kickCopy d q) s) s1

/-- The builds of the next superstep's tables begin on the span's tiles (R110). -/
def State.startBuilds (s : State) (p : Nat) : State :=
  (s.part p).spanTiles.foldl (fun s t => s.restartBuild p t) s

/-! ### Translations that change, and pages that are retired (R29, R48, R132, R188) -/

/-- A tile's extents under a changed translation (R48: at once where the partition stands still). -/
def Tile.remap (now build : List PageT) (cyc : Nat) (T : Tile) : Tile :=
  let re (tr : List PageT) (es : List Extent) : List Extent :=
    (mergeExtents (es.flatMap fun e => (extentRun tr false cyc (2 * tr.length + 2) e.vpn e.pages).map fun x =>
      { x with code := e.code })).take 128
  { T with ext := re now T.ext, spare := re build T.spare }

/-- A translation changed for n pages from vpn (R48, R132). -/
def State.setTrans (s : State) (p : Nat) (tr : List PageT) (vpn n : Nat) : State :=
  (s.modPart p fun P =>
    let P1 := { P with trans := tr }.tlbi vpn n
    let t := P1.transTlb
    if P1.still then { P1 with transBuild := t, transNow := t, tiles := P1.tiles.map (Tile.remap t t s.cycle) } else P1).stageSeed p

/-- The place of field record A or B in flash (R21). -/
def fieldBase (b : Bool) : Nat := if b then 0x2030000 else 0x2020000

/-- FIELD_RECORD_WRITE: a record of generation one higher goes over the older of the two. -/
def State.writeField (s : State) (r : Retired) : State :=
  let g := r.generation + 1
  { s with flash := s.flash.writeRun (fieldBase r.older) (fit 65536 (Config.fieldEncode g r.pages r.channels r.repairs r.routers r.ports r.sequencers))
           retired := { r with generation := g, older := !r.older } }

/-- Physical page k of HBM has become page n. -/
def Loc.moved (k n : Nat) (l : Loc) : Loc := if !l.host && decide (l.addr / 65536 = k) then ⟨false, 65536 * n + l.addr % 65536⟩ else l

/-- A translation with physical page n in the place of page k. -/
def movePage (k n : Nat) (tr : List PageT) : List PageT :=
  tr.flatMap fun e =>
    if !e.loc.host && decide (e.loc.addr ≤ 65536 * k) && decide (65536 * k < e.loc.addr + 65536 * e.size) then
      (List.range e.size).map fun i => { e with vpn := e.vpn + i, size := 1, loc := (e.loc.plus (65536 * i)).moved k n }
    else [e]

/-- A partition after page k of HBM has become page n (R132, R188): its translations, its tables, and what it holds for the page. -/
def Partition.moved (k n cyc : Nat) (P : Partition) : Partition :=
  let mv := movePage k n
  { P with
    trans := mv P.trans, transTlb := mv P.transTlb, transBuild := mv P.transBuild, transNow := mv P.transNow
    wb := P.wb.map fun w => { w with loc := w.loc.moved k n }, held := P.held.map fun h => { h with loc := h.loc.moved k n }
    stale := P.stale.map fun x => (x.1.moved k n, x.2), codeOld := P.codeOld.map fun x => (x.1.moved k n, x.2)
    retiring := P.retiring.filter (· ≠ k), tiles := P.tiles.map (Tile.remap (mv P.transNow) (mv P.transBuild) cyc) }

/-- A worn page is retired (R188): its contents go to a healthy page, which takes its place in every translation that maps it, and the old
page passes the quarantine. -/
def retirePage (s : State) (k : Nat) : State :=
  match s.takePages 1 1 with
  | some (s1, n :: _) =>
    let s2 := s1.physWrite ⟨false, 65536 * n⟩ (s.physRead ⟨false, 65536 * k⟩ 65536)
    let at_ (g : Tag) : TagAt := match g.at_ with | .word l => .word (l.moved k n) | x => x
    let s3 : State := { s2 with
      poison := s2.poison.map fun u => if u / 2048 = k then 2048 * n + u % 2048 else u
      tags := s2.tags.map fun g => { g with at_ := at_ g }
      parts := s2.parts.map (Partition.moved k n s.cycle) }
    let s4 := (List.range s3.parts.length).foldl (fun s p => if (s.part p).seed = [] then s else s.stageSeed p) s3
    (s4.freePage k).writeField { s.retired with pages := s.retired.pages ++ [k] }
  | _ => s

end Sys2Proof.Machine
end

