-- ==== Sys2Proof/Machine/Sched.lean ====
section
/-!
DEFINITION. The scheduler (spec/04 R77 to R89; spec/09 R179, R180, R190 to R194): votes, the barrier, the flip with its fix, wash and
halt, saving and resuming a launch, dispatch, the watchdog and the bounds.
-/

namespace Sys2Proof.Machine

/-! ### Votes (R79, R180) -/

/-- The tile's vote: the largest of its threads' and of its tile events. -/
def Tile.vote (T : Tile) : BitVec 2 :=
  let ev := (T.faults.filter fun f => decide (f.who = 8)).foldl (fun v f => maxVote v f.vote) 0
  (T.threads.filter fun t => decide (t.task = .running)).foldl (fun v t => maxVote v t.vote) ev

/-- Lexicographic order of lists of numbers. -/
def lexLt : List Nat → List Nat → Bool
  | [], _ => false
  | _ :: _, [] => false
  | a :: as, b :: bs => decide (a < b) || (decide (a = b) && lexLt as bs)

def FaultSum.key (f : FaultSum) : List Nat := [f.who, f.cause.code, f.detail.toNat]

/-- The least fault of a list by thread, cause and detail. -/
def leastFault (fs : List FaultSum) : Option FaultSum :=
  fs.foldl (fun m f => match m with
    | some g => if lexLt f.key g.key then some f else some g
    | none => some f) none

/-- The cause and detail that a tile reports with its vote (R180). -/
def Tile.report (T : Tile) : Cause × Word :=
  let v := T.vote
  let own : Cause × Word := (.voteWash, ((T.threads.find? fun t => decide (t.task = .running) && decide (t.vote = v)).map fun t => t.vdet.setWidth 64).getD 0)
  match leastFault (T.faults.filter fun f => decide (f.vote = v)) with
  | some f => if v = 0 then own else (f.cause, f.detail)
  | none => own

/-- The conditions of a tile's contribution (R79, R110, R149, R160). -/
def State.mayVote (s : State) (p t : Nat) : Bool :=
  let P := s.part p
  let T := P.tile t
  P.valid && P.inSpan t && P.decision.isNone && T.active && !T.voted && !T.building && P.allRaised &&
    (T.threads.all fun th => decide (th.task ≠ .running) || th.atfix) && !(s.ops.any fun o => o.live && o.ofTile p t) &&
    (T.bases.all fun b => P.reduced.contains b) &&
    (!s.exchangeNeeded p || (T.released && T.landed.isEmpty && !(P.flight.any fun d => decide (d.tile = t)) &&
      !(s.ops.any fun o => o.live && o.ofPart p && (match o.kind with | .xmit _ _ u .. => decide (u = t) | _ => false)) &&
      (!P.byTag || s.phaseOver p)))

/-- Every tile of the span has contributed (R83). -/
def Partition.allVoted (P : Partition) : Bool := P.launch.isSome && P.spanTiles.all fun t => (P.tile t).voted

/-- A partition's run state changes unless it is saving, which a save alone ends (R87). -/
def Partition.setRun (P : Partition) (r : RunSt) : Partition := if P.run = .saving then P else { P with run := r }

/-- TILE_VOTE of tile t: its contribution goes to the root. -/
def tileVote (s : State) (p t : Nat) : State :=
  if !s.mayVote p t then s
  else
    let T := s.tile p t
    let (c, d) := T.report
    let ths := T.threads.filter fun th => decide (th.task = .running)
    let m : BarMsg := { vote := T.vote, flost := T.flost, skewf := s.timing.skew, cause := c, ctile := t, pev := false, ssn := nextSsn (s.part p).ssn,
                        detail := d, latest := s.ptime.toNat, orv := ths.foldl (fun x th => x ||| th.vor) 0,
                        maxv := ths.foldl (fun x th => if x < th.vmax then th.vmax else x) 0 }
    s.modPart p fun P =>
      let P1 := { P.modTile t fun T => { T with voted := true } with remote := P.remote ++ [m] }
      if P1.allVoted then P1.setRun .voting else P1

/-- TILE_VOTE (R79) of tile `arg.t` of partition `arg.p`. -/
def execTileVote (s : State) : Result State := .next (tileVote s s.arg.p s.arg.t)

/-! ### The barrier (R80, R81) -/

/-- What orders messages of one vote: PEV and CTILE, and of two events of the partition the cause and detail, so that no order of arrival
shows (R80, R353; DEDUCED, log entry 60). -/
def BarMsg.key (m : BarMsg) : List Nat := [m.pev.toNat, m.ctile, m.cause.code, m.detail.toNat]

/-- Whether a's cause stands when a and b combine (R80). -/
def BarMsg.wins (a b : BarMsg) : Bool :=
  if a.vote = b.vote then !lexLt b.key a.key else decide (b.vote < a.vote)

/-- Combine of R80. -/
def combine (a b : BarMsg) : BarMsg :=
  let v := maxVote a.vote b.vote
  let w := if a.wins b then a else b
  { vote := v, flost := a.flost || b.flost, skewf := a.skewf || b.skewf, cause := if v = 0 then .none else w.cause, ctile := if v = 0 then 0 else w.ctile,
    pev := !decide (v = 0) && w.pev, ssn := a.ssn, detail := if v = 0 then 0 else w.detail, latest := max a.latest b.latest, orv := a.orv ||| b.orv,
    maxv := if a.maxv < b.maxv then b.maxv else a.maxv }

/-- The detail of RESUME_MISMATCH: the SSN expected, and the member's (R173). -/
def mismatchDetail (expected own : BitVec 32) : Word := expected ++ own

/-- A message as the node takes it: VOTE 3 as 2, and a halt where the SSN differs (R80, R173). -/
def BarMsg.taken (m : BarMsg) (ssn : BitVec 32) : BarMsg :=
  if m.ssn ≠ ssn then { m with vote := 2, cause := .resumeMismatch, pev := false, detail := mismatchDetail ssn m.ssn }
  else { m with vote := if m.vote = 3 then 2 else m.vote }

/-- A partition event as a contribution at the root (R80). -/
def FaultSum.msg (f : FaultSum) (ssn : BitVec 32) : BarMsg :=
  { vote := f.vote, flost := false, skewf := false, cause := f.cause, ctile := 0, pev := true, ssn := ssn, detail := f.detail, latest := 0, orv := 0, maxv := 0 }

/-- An event that forces the root's decision before the votes are in: the watchdog, or a bound, a thermal stop or a reset (R80,
R88). -/
def Partition.forced (P : Partition) : Bool :=
  let now (c : Cause) : Bool := decide (c = .watchdog) || decide (c = .boundWash)
  (P.events.any fun e => now e.cause) || P.remote.any fun m => m.pev && now m.cause

def Partition.latestVote (P : Partition) : Nat := P.remote.foldl (fun m x => max m x.latest) 0

/-- The node may combine what has come to it: as the root it decides (R81), below a root of another package it sends the result up, once
(R80, R150). A link that is down is no edge of the tree: the package below it decides for itself, and none is waited for over it (R191). -/
def State.mayDecide (s : State) (p : Nat) : Bool :=
  let P := s.part p
  P.valid && P.decision.isNone && P.launch.isSome && (decide (P.run = .running) || decide (P.run = .voting) || decide (P.run = .saving)) && !(P.sentUp && (s.upPort p).isSome) &&
    (P.forced || (P.allVoted && ((s.downPorts p).all fun k => P.kids.contains k) && decide (P.latestVote + Config.decisionCycles ≤ s.ptime.toNat)))

/-- Cycles from the decision to F: the tree's distribution bound (R81, R82). -/
def Partition.distribution (P : Partition) : Nat := if P.sysGroup then Config.systemDistribution else Config.distributionCycles

/-- The barrier message that a payload holds (R80). -/
def barrierOf (b : List Byte) : BarMsg :=
  let w : Word := BitVec.ofNat 64 (fldOf b 0 8)
  let causes : List Cause := [.illegalOp, .illegalLine, .orphanPrefix, .illegalTarget, .priv, .align, .unstaged, .prot, .stackLimit, .slip, .late, .skew,
    .eccUncorr, .parity, .linkFail, .watchdog, .boundWash, .trap, .voteWash, .handlerFault, .chainExhausted, .resumeMismatch]
  { vote := w.extractLsb' 0 2, flost := w.getLsbD 2, skewf := w.getLsbD 3, cause := (causes.find? fun c => decide (c.code = (w.extractLsb' 8 8).toNat)).getD .none
    ctile := (w.extractLsb' 16 11).toNat, pev := w.getLsbD 27, ssn := w.extractLsb' 32 32, detail := BitVec.ofNat 64 (fldOf b 8 8)
    latest := fldOf b 16 8, orv := BitVec.ofNat 32 (fldOf b 24 4), maxv := BitVec.ofNat 32 (fldOf b 28 4) }

/-- Cycles between the first and the last contribution of a vote, when all are in (R20): an exchange barrier gives no sample (DESIGN CHOICE, log
entry 63). -/
def Partition.skewSample (P : Partition) : Partition :=
  if P.allVoted then P.sample 2 (P.latestVote - P.remote.foldl (fun m x => min m x.latest) P.latestVote) else P

/-- A member whose SSN differs is recorded as its tile's event (R80, R173). -/
def State.recordMismatch (s : State) (p : Nat) (n : BitVec 32) (m : BarMsg) : State :=
  if m.ssn = n then s else (recordFault s p (some m.ctile) none 1 .resumeMismatch (mismatchDetail n m.ssn) 0 IssueUnit.zero 0).1

/-- A release with its flip time goes on to the packages below, in the layout of a barrier message with F as its latest arrival (R81; log entry 34). -/
def State.passDown (s : State) (p : Nat) (d : BarMsg) (F : Nat) : State :=
  (s.downPorts p).foldl (fun s k => s.sendFlit k 0 p ({ d with latest := F } : BarMsg).bytes) s

/-! ### Counts of washes (R89) -/

/-- A wash that R89 counts. -/
def countedCause (c : Cause) : Bool := decide (c ≠ .boundWash) && decide (c ≠ .watchdog)

def Partition.washCount (P : Partition) (c : Cause) (d : Word) : Nat :=
  ((P.washes.find? fun x => decide (x.1 = c) && decide (x.2.1 = d)).map (·.2.2)).getD 0

def Partition.countWash (P : Partition) (c : Cause) (d : Word) : Partition :=
  let P := { P with washRuns := P.washRuns + 1 }
  if countedCause c then
    { P with washes := (c, d, P.washCount c d + 1) :: P.washes.filter fun x => !(decide (x.1 = c) && decide (x.2.1 = d)) }
  else P

/-- The wash that the root has decided is the third of its cause and detail (R89). -/
def State.thirdWash (s : State) (p : Nat) : Bool := let P := s.part p; match P.decision with
  | some d => (s.upPort p).isNone && decide (d.vote = 1) && countedCause d.cause && decide (2 ≤ P.washCount d.cause d.detail)
  | none => false

/-! ### The decision and its release (R80, R81) -/

/-- The root's release with its flip time goes to the tiles, the last of which it reaches 79 cycles later (the table of R82), and to the packages
below. -/
def State.sendRelease (s : State) (p : Nat) (d : BarMsg) (F : Nat) : State :=
  (s.passDown p d F).schedule 79 .releaseArrival { p := p, op := F }

/-- BARRIER_COMBINE: the messages combined. At the root that is the decision, whose release with the flip time F goes to the tiles, and to
the packages below (R81); the third wash becomes a halt before its release is sent (R89, R193). It is a management event (R320). -/
def barrierCombine (s : State) (p : Nat) : State :=
  if !s.mayDecide p then s
  else
    let P := s.part p
    let n := nextSsn P.ssn
    match (P.remote.map fun m => m.taken n) ++ P.events.map fun e => e.msg n with
    | [] => s
    | m :: ms =>
      let d := ms.foldl combine m
      let d1 := if d.vote = 0 then { d with cause := .none, ctile := 0, detail := 0, pev := false } else d
      let s1 := P.remote.foldl (fun s m => s.recordMismatch p n m) s
      let F := s.ptime.toNat + P.distribution
      match s.upPort p with
      | some k => (s1.modPart p fun P => { P.skewSample with sentUp := true }).sendFlit k 0 p d1.bytes
      | none =>
        let s2 := s1.wakeCtrls.modPart p fun P => { P.skewSample.setRun .voting with decision := some d1, flipAt := F }
        if s2.thirdWash p then s2 else s2.sendRelease p d1 F

/-- WASH_LIMIT_HALT (R89) of partition `arg.p`: the third wash becomes a halt, which the release tells. -/
def execWashLimitHalt (s : State) : Result State :=
  let p := s.arg.p
  let P := s.part p
  .next (match P.decision with
    | some d => if s.thirdWash p then (s.modPart p fun P => { P with decision := some { d with vote := 2 } }).sendRelease p { d with vote := 2 } P.flipAt else s
    | none => s)

/-- A barrier message from another package: one of the exchange barrier; of a package below, a vote, which joins the combine; or from above the
release, which reaches the tiles, the last of them at a time that no table gives, and goes on to the packages below (R80, R81, R148, R149). One
that reaches the last tile after F is applied as it does, to all tiles of this package (DESIGN CHOICE, log entry 66). -/
def State.takeBarrier (s : State) (k p : Nat) (m : BarMsg) : State :=
  let P := s.part p
  if !P.valid || P.launch.isNone || P.decision.isSome then s
  else if m.isExch then s.takeExchange k p m
  else if P.up = some k then
    let last := s.ptime.toNat + 1 + Config.delay .release s.fresh
    ((s.modPart p fun P => { P.setRun .voting with decision := some m, flipAt := max m.latest last }).passDown p m m.latest).scheduleFree .release .releaseArrival
      { p := p, op := m.latest }
  else if P.down.contains k then s.modPart p fun P => { P with remote := P.remote ++ [m], kids := k :: P.kids }
  else s

/-- BARRIER_COMBINE (R80) of partition `arg.p`. -/
def execBarrierCombine (s : State) : Result State := .next (barrierCombine s s.arg.p)

/-- RELEASE_ARRIVAL (R81) at the last tile of partition `arg.p`: `arg.op` is F. -/
def execReleaseArrival (s : State) : Result State := .next (s.modPart s.arg.p fun P => P.sample 3 (s.ptime.toNat - s.arg.op))

/-- The vote has reached the root: its outcome stands (R56, R86). -/
def State.reachedRoot (s : State) (p : Nat) : Bool :=
  let P := s.part p
  P.decision.isSome || (P.allVoted && decide (P.latestVote + 81 ≤ s.ptime.toNat))

/-! ### Saving (R60, R86, R87) -/

/-- The area of a function bound to a partition. -/
def State.areaOf (s : State) (p fn : Nat) : Option Binding := match s.bound? fn with
  | some b => if b.part = p then some b else none
  | none => none

/-- The die of a logical tile (R36, R37). -/
def State.tileDie (s : State) (p t : Nat) : Nat := s.physPod p (t / 8) / 64

/-- The tiles of a die that are not yet saved, in the order of the engine: the newest requester's span first (R87). -/
def State.saveOrder (s : State) (p die : Nat) : List Nat :=
  let P := s.part p
  let left := (List.range P.tiles.length).filter fun t => decide (s.tileDie p t = die) && !(P.tile t).saved
  left.filter P.inSpan ++ left.filter fun t => !P.inSpan t

/-- The context-switch engine of a die goes on to its next tile. -/
def State.saveNext (s : State) (p die : Nat) : State :=
  match s.saveOrder p die with
  | [] => s
  | t :: _ => s.scheduleFree .save .tileSaved { p := p, t := t, n := die }

/-- The engines turn to the tiles in the order that now holds; a copy of a tile under way begins anew when its turn comes (R87). -/
def State.reorderSaves (s : State) (p : Nat) : State :=
  let other (d : Due) : Bool := match d.ev with
    | .tileSaved => decide (d.arg.p ≠ p)
    | _ => true
  let s1 : State := { s with agenda := s.agenda.filter other }
  ((List.range 4).filter fun d => s1.saveOrder p d ≠ []).foldl (fun s d => s.saveNext p d) s1

/-- The running launch of a partition is switched out: the bytes of its area but for the magic are written, its record is Eligible again, and the tiles
of its span, or all tiles, are to be saved (R86; log entry 23). -/
def State.switchOut (s : State) (p : Nat) (l : Launch) (b : Binding) (all_ : Bool) : State :=
  let s1 := s.outsideWrite none b.save (leBytes 4 0 ++ (sheetBytes (s.part p).saveSecs false s.ptime).drop 4)
  s1.modPart p fun P =>
    { P.modRcd l.rcd fun r => { r with st := .eligible, savedIn := some (l.fn, P.ssn) } with
      launch := none
      tiles := P.tiles.zipIdx.map fun x => if all_ || P.inSpan x.2 then { x.1.fresh with saved := false, threads := List.replicate 8 Thread.zero } else x.1 }

/-- Saving begins (R86). -/
def startSave (s : State) (p kind : Nat) : State :=
  match (s.part p).launch with
  | none => s
  | some l => match s.areaOf p l.fn with
    | none => s
    | some b =>
      let s1 := (s.switchOut p l b true).modPart p fun P =>
        let prios := (P.recs.zipIdx.filter fun r => decide (r.1.st = .eligible) && decide (r.2 ≠ l.rcd)).map (·.1.prio)
        { P with
          run := .saving, saveFn := some l.fn, saveAlso := [], savePrio := prios.foldl max l.prio, saveSlot := decide (kind = 1)
          sliceTo := if 2 ≤ kind then some (kind - 2) else none
          stops := P.stops.filter fun x => match x.1 with | .preempt _ => false | _ => true }
      ((s1.regenerateDue p).stageSeed p).reorderSaves p

/-! ### Dispatch (R77, R84) -/

/-- The running launch has fixed no superstep yet. -/
def Partition.unfixed (P : Partition) : Bool := (P.launch.map fun l => decide (P.fixAt = l.since)).getD true

/-- A stop that holds the partition (R54, R56, R334). -/
def StopReq.holds : StopReq → Bool
  | .preempt _ => false
  | _ => true

/-- The dispatcher may pick a record (R84, R87): not where the launch has ended and a stop waits for its drain (R47, R54, R56, R334). -/
def Partition.dispatches (P : Partition) : Bool :=
  P.valid && ((decide (P.run = .idle) && P.launch.isNone && !(P.stops.any fun x => x.1.holds)) || (decide (P.run = .saving) && P.unfixed && P.decision.isNone)) && !P.thermalHeld && P.pickRecord.isSome

/-- A channel out of service holds bytes of the page-fetch list of the record that the dispatcher picks: it waits (R344). -/
def State.seedHeld (s : State) (p : Nat) : Bool :=
  let P := s.part p
  match P.pickRecord with
  | some i => s.listHeld P.transBuild (BitVec.ofNat 57 ((P.rcd i).fld 24 8)) ((P.rcd i).fld 32 4)
  | none => false

/-- The record that the dispatcher picks is eligible: its seed is staged (R84). -/
def Partition.mayDispatch (P : Partition) : Bool := P.dispatches && (P.pickRecord.map P.staged).getD false

/-- A launch that was dispatched in Saving, and has fixed, gives way to a request of still higher priority: it is switched out in its turn, while the
earlier save goes on (R87; DEDUCED, log entry 58). One whose area is being written already goes on. -/
def State.saveAgain (s : State) (p : Nat) : State :=
  let P := s.part p
  match P.launch.bind fun l => (s.areaOf p l.fn).map fun b => (l, b) with
  | none => s.startBuilds p
  | some x =>
    if P.higherEligible && !P.unfixed && !(P.saveFn.toList ++ P.saveAlso).contains x.1.fn then
      (((s.switchOut p x.1 x.2 false).modPart p fun P => { P with saveAlso := x.1.fn :: P.saveAlso, savePrio := x.1.prio }).stageSeed p).reorderSaves p
    else s.startBuilds p

/-- A launch that was dispatched in Saving and has fixed nothing gives way to a newer requester: its superstep is washed, and its record is
Eligible as before (R87; DEDUCED, log entry 58). -/
def State.withdraw (s : State) (p : Nat) : State :=
  match (s.part p).launch with
  | none => s
  | some l =>
    let s1 := (s.endOps p).applyReqs p l.fn false
    let s2 := (s.part p).outs.foldl (fun s r => s.complete r 1) s1
    s2.modPart p fun P => { (P.modRcd l.rcd fun r => { r with st := .eligible }).fresh with
      launch := none, failedPorts := [], tiles := P.tiles.zipIdx.map fun x => if P.inSpan x.2 && x.1.saved then x.1.unplaced else x.1 }

/-- A tile receives its tasks (R77), with the extent table of the seed list: of logical tile 0 of the span the one that was staged for its
record, if any (R84). -/
def State.placeTile (s : State) (p t ready : Nat) : State :=
  let P := s.part p
  match P.launch with
  | none => s
  | some l =>
    let r := P.rcd l.rcd
    let seed : Addr := BitVec.ofNat 57 (r.fld 24 8)
    let c := s.ceilOf l.fn
    let staged := if t = 8 * l.spanOff then P.seed.lookup l.rcd else none
    (s.modPart p fun P => { P.modTile t fun T =>
      { T.fresh with
        flpa := seed, flpaC := seed, flpn := r.fld 32 4, flpnC := r.fld 32 4, ext := staged.getD (s.buildTable p P.transBuild seed (r.fld 32 4))
        spare := [], append := [], appendFull := false, appended := [], appendedFull := false, flt := 0, fltd := 0, finRanges := [], copyBack := []
        threads := (List.range 8).map fun i => if (r.fld 13 1).testBit i then r.task l t i c ready else Thread.zero } with
      seed := if staged.isSome then P.seed.filter fun x => decide (x.1 ≠ l.rcd) else P.seed }).restartBuild p t

/-- The cycle in which a tile of the span may issue first: the others within 64 cycles of the first (R84; log entry 1). -/
def State.firstIssue (s : State) (l : Launch) (t : Nat) : Nat :=
  max s.cycle (l.since + Config.dispatchCycles + if t = 8 * l.spanOff then 0 else Config.delay .release (s.fresh + t) % 65)

/-- DISPATCH: the picked record runs (R77, R84). The counts of washes and of watchdog firings are those of the SSN, and a quantum those of
the function, so that neither begins anew (R44, R88, R89); time in which the partition stands idle or held between launches of one function counts
toward its quantum (DESIGN CHOICE, log entry 63). -/
def dispatch (s : State) (p : Nat) : State :=
  if !(s.part p).mayDispatch then s
  else match (s.part p).pickRecord with
    | none => s
    | some i =>
      let s := s.withdraw p
      let P := s.part p
      let r := P.rcd i
      let l := r.launch i r.postFn s.cycle
      let saving := decide (P.run = .saving)
      let s1 := s.modPart p fun P =>
        { (P.modRcd i fun r => { r with st := .running }).fresh.setRun .dispatching with
          launch := some l, podwt := P.podwt.map fun _ => 0x11111111, dogFrom := s.cycle, transNow := P.transBuild
          seed := P.seed.filter fun x => decide (x.1 = i)
          lastFixAt := s.cycle, fixAt := s.cycle, runFn := r.postFn, sliceFrom := if P.runFn = r.postFn then P.sliceFrom else s.cycle, sliceTo := none }
      match r.savedIn with
      | some _ => (s1.modPart p fun P => { P with seed := [] }).scheduleFree .resume .resumeFromSaveArea { p := p, n := i }
      | none =>
        let s2 := ((s1.part p).spanTiles.filter fun t => !saving || (P.tile t).saved).foldl (fun s t => s.placeTile p t (s.firstIssue l t)) { s1 with fresh := s1.fresh + 1 }
        if saving then s2.reorderSaves p else s2

/-- DISPATCH (R84) in partition `arg.p`: the record picked becomes eligible when its seed is staged, and then runs. -/
def execDispatch (s : State) : Result State :=
  let P := s.part s.arg.p
  .next (if s.seedHeld s.arg.p then s else if P.dispatches && !P.mayDispatch then s.stageSeed s.arg.p else dispatch s s.arg.p)

/-! ### Tiles saved (R86, R87) -/

/-- The slots of a function's queues that POSTed a saved launch are released, and the one taken for a bit passes over to it (R49 rule 3). -/
def State.releaseSlots (s : State) (p : Nat) : State :=
  let P := s.part p
  if !P.saveSlot then s
  else
    let qs := P.recs.filterMap fun r => if r.savedIn.map (·.1) = P.saveFn then r.postCmd.map fun c => (c.fn, c.q) else none
    let mine (b : PendBit) : Bool := decide (b.via.map (·.2) = some p)
    let heir (k : Nat) : Option (Nat × Nat) := (s.pendBits.find? fun b => mine b && decide (b.via.map (·.1) = some k)).map fun b => (b.fn, b.q)
    let s1 := { s with
      qslots := Vector.ofFn fun i => (heir i.val).or ((s.qslots[i]).bind fun q => if qs.contains q then none else some q)
      pendBits := s.pendBits.filter fun b => !mine b }
    (qs.foldl (fun s q => s.setPending q.1 q.2) s1).modPart p fun P => { P with saveSlot := false }

/-- What a partition waits to do is settled as soon as the steps due now are over. -/
def State.kickStops (s : State) (p : Nat) : State :=
  if (s.part p).stops = [] then s else s.schedule 0 .writeBehindDrainDone { p := p, m := 1 }

/-- The save is complete: the magic is written, and the partition is Idle, or runs the requester's launch (R83, R87); what waited for it follows
(R54, R59). -/
def State.saveDone (s : State) (p : Nat) : State :=
  let P := s.part p
  let s1 : State := (P.saveFn.toList ++ P.saveAlso).foldl (fun s fn => match s.areaOf p fn with
    | some b => s.outsideWrite none b.save (leBytes 4 sheetMagic)
    | none => s) s
  let s2 := (s1.releaseSlots p).modPart p fun P =>
    let P1 := { P with saveFn := none, saveAlso := [] }
    if P.run ≠ .saving then P1
    else if P.launch.isSome then ({ P1 with run := if P.decision.isSome || P.allVoted then .voting else .running, dogFrom := s.cycle } : Partition).washPending
    else { P1 with run := .idle }
  (s2.kickStops p).afterRecords p

/-- TILE_SAVED: tile t of a die stands in the save area, and a newer requester's task starts on it (R87). -/
def tileSaved (s : State) (p t die : Nat) : State :=
  let P := s.part p
  if P.saveFn.isNone || (P.tile t).saved then s
  else
    let s1 := s.modTile p t fun T => { T with saved := true }
    let s2 := match P.launch with
      | some l => if P.inSpan t then s1.placeTile p t (s1.firstIssue l t) else s1
      | none => s1
    if (s2.part p).tiles.all (·.saved) then s2.saveDone p else s2.saveNext p die

/-- TILE_SAVED (R86, R87) of tile `arg.t` of partition `arg.p` by the engine of die `arg.n`. -/
def execTileSaved (s : State) : Result State := .next (tileSaved s s.arg.p s.arg.t s.arg.n)

/-! ### Halting (R83, R193, R194) -/

/-- The partition enters Halted: the event, and the running record's POST (R50, R83, R194). -/
def haltPart (s : State) (p : Nat) (d : BarMsg) : State :=
  let P := s.part p
  let detail := leBytes 1 d.cause.code ++ leBytes 1 (if d.pev then 1 else 0) ++ leBytes 2 (if d.pev then 0xFFFF else d.ctile) ++
    leBytes 4 (nextSsn P.ssn).toNat ++ leBytes 8 d.detail.toNat
  let s1 := s.postEvent 0x82 0 0 p detail (s.boundTo p)
  let cmd := P.launch.bind fun l => (P.rcd l.rcd).postCmd
  let s2 := s1.modPart p fun P =>
    { (match P.launch with | some l => P.modRcd l.rcd fun r => { r with postCmd := none } | none => P) with
      run := .halted, lostData := decide (d.cause = .eccUncorr) && decide (d.detail.extractLsb' 62 2 = 1), transBuild := P.transTlb, transNow := P.transTlb, dogHeld := s.cycle - P.dogFrom
      stops := P.stops.filter fun x => match x.1 with | .preempt _ => false | _ => true }
  (s2.completeOpt cmd 6).kickStops p

/-! ### After a fix or wash point -/

/-- The function that a time slice goes to (R44). -/
def StopReq.slice : StopReq → Option Nat
  | .preempt k => if 2 ≤ k then some (k - 2) else none
  | _ => none

/-- A QUIESCE waits while the partition is in Thermal hold (R83). -/
def StopReq.cool : StopReq → Bool
  | .reset _ | .unbind _ => true
  | _ => false

/-- The partition is held at its fix point; what waited for that follows once the write-behind of every fixed superstep has drained (R56). -/
def State.holdPart (s : State) (p : Nat) : State :=
  ((s.modPart p fun P => { P with run := .held, dogHeld := s.cycle - P.dogFrom }).regenerateDue p).kickStops p

/-- A partition goes on to run: the watchdog counts on, the next tables are built, and a request that waited is made (R83, R86, R88). -/
def State.toRunning (s : State) (p : Nat) : State :=
  (((s.modPart p fun P => ({ P with run := .running, dogFrom := s.cycle - P.dogHeld } : Partition).washPending).startBuilds p).startBound p).afterRecords p

/-- A function has work: a record that is Eligible, or a POST that the next fix or wash point applies. What its queues have not yet dispatched, be
it behind a SIGNAL_WAIT or a FENCE or for want of a hardware slot, is no work yet (R44 says only "undispatched work"; DESIGN CHOICE, log entry 66). -/
def State.hasWork (s : State) (p fn : Nat) : Bool :=
  let P := s.part p
  (P.recs.any fun r => decide (r.st = .eligible) && decide (r.postFn = fn)) || P.reqs.any fun r => decide (r.cmd.map (·.fn) = some fn) && match r.op with
    | .post _ => true
    | _ => false

/-- The next bound function in increasing number, wrapping around, that has work (R44). -/
def State.nextFn (s : State) (p fn : Nat) : Option Nat :=
  let fs := (s.boundTo p).filter fun n => decide (n ≠ fn) && s.hasWork p n
  (fs.find? fun n => decide (fn < n)).or fs.head?

/-- A time slice goes to the function that has work when the switch is made, if any has (R44). -/
def State.sliceNow (s : State) (p k : Nat) : Option Nat :=
  if k < 2 then some k else (s.nextFn p (((s.part p).launch.map (·.fn)).getD 0)).map (2 + ·)

/-- Where a partition goes from a fix or wash point with its launch not ended, by the stops that were pending (R83). -/
def State.goOn (s : State) (p : Nat) (stops : List StopReq) : State :=
  let P := s.part p
  if P.run = .saving then s.saveAgain p
  else if stops.any fun x => x.holds && (!P.thermalHeld || x.cool) then s.holdPart p
  else if P.thermalHeld then (s.modPart p fun P => { P with run := .thermal, dogHeld := s.cycle - P.dogFrom }).startBuilds p
  else match (stops.findSome? fun x => match x with | .preempt k => some k | _ => none).bind (s.sliceNow p) with
    | some k => startSave s p k
    | none =>
      let s1 := (s.modPart p fun P => { P with run := .running, stops := P.stops.filter fun x => x.1.holds }).startBuilds p
      if P.preempting then s1.afterRecords p else s1

/-! ### Fix (R81) -/

/-- Errors of a partition's pages corrected since a cycle (R20, R187). -/
def State.correctedSince (s : State) (P : Partition) (c : Nat) : Nat :=
  (s.corrected.filter fun x => decide (c ≤ x.2) && P.trans.any fun e => !e.loc.host && decide (e.loc.addr / 65536 ≤ x.1) &&
    decide (x.1 < e.loc.addr / 65536 + e.size)).length

/-- The old bytes of code that this fix changes: what the next superstep still executes (R133). -/
def State.codeBefore (s : State) (P : Partition) : List (Loc × Byte) :=
  (P.stale.filter fun o => P.executes o.1) ++
    ((P.wb.map fun w => (w.loc, w.data.length)) ++ P.held.map fun h => (h.loc, h.data.length)).flatMap fun x =>
      (s.oldBytes x.1 x.2).filter fun o => P.executes o.1

/-- The launch has ended: every task of the span has finished (R79). -/
def Partition.finished (P : Partition) : Bool :=
  P.launch.isSome && P.spanTiles.all fun t => (P.tile t).threads.all fun th => decide (th.task ≠ .running)

/-- The span's tiles after the launch: no tasks, no extents. Registers keep their values until the next dispatch (R77). -/
def Partition.clearTasks (P : Partition) : Partition :=
  { P with tiles := P.tiles.zipIdx.map fun x => if P.inSpan x.2 then
      { x.1 with threads := x.1.threads.map fun th => { th with task := .absent }, ext := [], spare := [], building := false } else x.1 }

/-- The memory and records of a fix: latent versions, record operations, write-behind, outside writes and held commands (R73, R81, R119,
R133). -/
def fixImage (s : State) (p : Nat) : State :=
  let P := s.part p
  let fn := (P.launch.map (·.fn)).getD 0
  let ready := s.cycle + Config.issueAfterFlip
  let s1 := { s.modPart p fun P => { P with tiles := P.tiles.zipIdx.map fun x => if P.inSpan x.2 then x.1.commit s.fresh ready else x.1 } with fresh := s.fresh + 1 }
  let s2 := P.spanTiles.foldl (fun s t => if (s.tile p t).copyBack = [] then s else s.scheduleFree .copyBack .spillCopyBackDone { p := p, t := t }) s1
  let s3 := s2.applyReqs p fn true
  let s4 := s3.modPart p fun Q => { Q with codeOld := s3.codeBefore Q }
  let s5 := P.held.foldl (fun s h => s.outsideWrite (some p) h.loc h.data) (s4.commitWrites p P.wb)
  P.outs.foldl (fun s r => s.complete r 1) s5

/-- A link that failed after the decision of a superstep that used it: its event comes with the next superstep, where the partition goes on (R185, R191;
DESIGN CHOICE, log entry 66). -/
def State.raiseFailed (s : State) (p : Nat) : State :=
  let ks := (s.part p).failedPorts
  let s1 := s.modPart p fun P => { P with failedPorts := [] }
  if (s.part p).still then s1 else ks.foldl (fun s k => partEvent s p .linkFail 1 (BitVec.ofNat 64 k)) s1

/-- A fix (R81): everything above, the SSN, %bred and the monitors, and the end of the launch when every task has finished. -/
def fixPoint (s : State) (p : Nat) (d : BarMsg) : State :=
  let P := s.part p
  let stops := P.stops.map (·.1)
  let rcd := (P.launch.map (·.rcd)).getD 0
  let s1 := (fixImage s p).modPart p fun Q =>
    let Q1 := ((Q.sample 1 (s.cycle - P.lastFixAt)).sample 8 (s.correctedSince P P.fixAt + P.tileErrs)).sample 9 P.washRuns
    { Q1.fresh with
      tileErrs := 0, ssn := nextSsn P.ssn, bred := BitVec.ofNat 64 (d.orv.toNat + d.maxv.toNat * 2 ^ 32), washes := [], washRuns := 0, dogFired := 0
      dogFrom := s.cycle, lastFixAt := s.cycle, fixAt := s.cycle, issueFrom := s.ptime.toNat + Config.issueAfterFlip, sinceLate := P.sinceLate + 1
      transNow := Q.transBuild, transBuild := Q.transTlb, drains := Q.drains ++ [s.cycle] }
  let s2 := P.retiring.foldl (fun s k => retirePage s k) ((s1.endOps p).modPart p fun Q => { Q with retiring := [] })
  let ends := (s2.part p).finished
  let held := (P.wb.flatMap fun w => s2.heldChans w.loc w.data.length) ++ P.held.flatMap fun h => s2.heldChans h.loc h.data.length
  let s3 := s2.scheduleFree .drain .writeBehindDrainDone { p := p, op := s.cycle, n := if ends then rcd + 1 else 0, nats := held }
  if ends then
    (s3.modPart p fun Q =>
      { Q.clearTasks.setRun (if stops.any fun x => match x with | .quiesce _ => true | _ => false then .held else .idle) with
        launch := none, failedPorts := [], stops := Q.stops.filter fun x => x.1.holds
        sliceTo := (stops.findSome? fun x => x.slice).bind fun _ => s3.nextFn p ((P.launch.map (·.fn)).getD 0) }).regenerateDue p |>.stageSeed p
  else ((s3.goOn p stops).raiseFailed p).stageSeed p

/-! ### Wash (R82) -/

/-- A wash: the superstep is discarded, host operations apply, and outside writes become visible (R73, R82, R119). -/
def washImage (s : State) (p : Nat) : State :=
  let P := s.part p
  let fn := (P.launch.map (·.fn)).getD 0
  let s1 := (s.modPart p fun P => { P with
    tiles := P.tiles.zipIdx.map fun x => if P.inSpan x.2 then x.1.wash P.transNow s.cycle (s.cycle + Config.issueAfterFlip) else x.1 }).applyReqs p fn false
  let s2 := s1.modPart p fun Q => { Q with codeOld := Q.codeOld ++ (Q.stale.filter fun o => Q.executes o.1 && (Q.codeOld.lookup o.1).isNone) }
  P.outs.foldl (fun s r => s.complete r 1) s2

/-- LATE doubles the lead (R151). -/
def Partition.lateLead (P : Partition) (c : Cause) : Partition :=
  if c = .late then { P with lead := min (2 * P.lead) 4096, sinceLate := 0 } else P

/-- Firmware rebuilds the barrier tree over the links that remain (R191): a lost one toward a member gives way to the first of its other links to that
member that is up, if any. -/
def State.rebuildTree (s : State) (p : Nat) : State :=
  s.modPart p fun P =>
    let alt (k : Nat) : Nat := if s.portUp k then k else
      ((P.links.find? fun x => decide (P.links.lookup k = some x.2) && s.portUp x.1).map (·.1)).getD k
    { P with up := P.up.map alt, down := P.down.map alt }

/-- A partition's barrier tree cannot be built: no arc of the package's ring joins its dies over crossings that are up, or a port of its to another
package has failed (R7, R80, R191). -/
def State.cutOff (s : State) (p : Nat) : Bool :=
  let P := s.part p
  (P.up.toList ++ P.down).any (fun k => !s.portUp k) || (s.treeArc p).isNone

/-- A wash (R82): routes that wait for it are regenerated before the re-run, and the tree rebuilt; after LINK_FAIL the re-run fails again
where no path remains (R157, R191); a halt follows it where the decision is one. A wash that the watchdog called for restarts its count (R88). -/
def washPoint (s : State) (p : Nat) (d : BarMsg) : State :=
  let P := s.part p
  let stops := P.stops.map (·.1)
  let s1 := (washImage s p).modPart p fun Q =>
    let Q1 := ((Q.sample 1 (s.cycle - P.lastFixAt)).countWash d.cause d.detail).lateLead d.cause
    { Q1.fresh with failedPorts := [], lastFixAt := s.cycle, issueFrom := s.ptime.toNat + Config.issueAfterFlip
                    dogFrom := if P.events.any fun e => decide (e.cause = .watchdog) then s.cycle else Q.dogFrom }
  let s2 := s1.endOps p
  let lf : Option Word := ((P.events.find? fun e => decide (e.cause = .linkFail)).map (·.detail)).or (P.failedPorts.head?.map (BitVec.ofNat 64))
  let s3 := (s2.regenerateDue p).rebuildTree p
  if d.vote = 1 then
    match lf with
    | some x => if s3.cutOff p then partEvent (s3.goOn p stops) p .linkFail 1 x else s3.goOn p stops
    | none => s3.goOn p stops
  else haltPart s3 p d

/-- A halt decided while a save is under way takes effect when the save is over: a save is never abandoned, and no transition leads from Saving to
Halted (R83, R87; DEDUCED, log entry 58). -/
def Partition.haltWaits (P : Partition) : Bool := decide (P.run = .saving) && decide (P.decision.map (·.vote) = some 2)

/-- FLIP: the decision takes effect at F (R81, R82). -/
def flip (s : State) (p : Nat) : State :=
  match (s.part p).decision with
  | none => s
  | some d => if (s.part p).haltWaits then s else if d.vote = 0 then fixPoint s p d else washPoint s p d

/-- FLIP (R81) of partition `arg.p`. -/
def execFlip (s : State) : Result State := .next (flip s s.arg.p)

/-- Firmware joins a partition into a system group, below the package at one port and above those at others, with the Hinath ports that join it
with other members and the member at the far end of each (R150; log entry 59). -/
def Partition.joinGroup (P : Partition) (up : Option Nat) (down : List Nat) (links : List (Nat × Nat)) : Partition :=
  let Q : Partition := { P with sysGroup := true, up := up, down := down, links := links }
  { Q with lead := Q.baseLead }

/-- LEAD_RESET (R151) of partition `arg.p`: 256 fixes without a LATE. With `arg.q` 1 firmware sets the lead of a partition that joins a
system group, with `arg.n` the port upward when that is below 32, `arg.nats` those downward, and in `arg.data` each link's port and member (R150; log
entry 59). -/
def execLeadReset (s : State) : Result State :=
  .next (s.modPart s.arg.p fun P =>
    if s.arg.q = 1 then (if P.valid && P.launch.isNone then P.joinGroup (if s.arg.n < 32 then some s.arg.n else none) s.arg.nats
      ((List.range (s.arg.data.length / 2)).map fun i => ((s.arg.data.getD (2 * i) 0).toNat, (s.arg.data.getD (2 * i + 1) 0).toNat)) else P)
    else if 256 ≤ P.sinceLate then { P with lead := P.baseLead } else P)

/-- SPILL_COPY_BACK_DONE (R108) of tile `arg.t` of partition `arg.p`. -/
def execSpillCopyBackDone (s : State) : Result State := .next (s.modTile s.arg.p s.arg.t fun T => { T with copyBack := [] })

/-- OUTSIDE_WRITE (R119): `arg.data` reaches physical address `arg.v` of HBM, or of host memory when `arg.n` is 1. -/
def execOutsideWrite (s : State) : Result State := .next (s.outsideWrite none ⟨decide (s.arg.n = 1), s.arg.v.toNat⟩ s.arg.data)

/-! ### Resuming (R60, R67, R87) -/

/-- The tiles of a launch whose save area holds another SSN than the one expected raise RESUME_MISMATCH and do not issue: their votes halt
the partition (R67, R80, R173, R193). -/
def State.mismatch (s : State) (p : Nat) (l : Launch) (r : LRec) (expected own : BitVec 32) : State :=
  let stop (t k : Nat) : Thread := { r.task l t k (s.ceilOf l.fn) s.cycle with atfix := true, wait := .fixed }
  let s1 := s.modPart p fun P => { P with
    run := .running, dogFrom := s.cycle
    tiles := P.tiles.zipIdx.map fun x => if P.inSpan x.2 then
      { x.1.fresh with flt := 0, fltd := 0, threads := (List.range 8).map fun k => if (r.fld 13 1).testBit k then stop x.2 k else Thread.zero } else x.1 }
  (s1.part p).spanTiles.foldl (fun s t => tileEvent s p t .resumeMismatch 2 (mismatchDetail expected own) 0) s1

/-- A launch returns from its save area: the area's magic and SSN are checked, and its tiles loaded (R67, R80, R87). The launch-record pool in the area
is not read back over the pool in place, which host and device commands have changed meanwhile (DESIGN CHOICE, log entry 63). -/
def resumeSaved (s : State) (p i : Nat) : State :=
  let P := s.part p
  let r := P.rcd i
  match P.launch, r.savedIn with
  | some l, some (fn, ssn) =>
    if l.rcd ≠ i ∨ P.run ≠ .dispatching then s
    else
      let area := match s.areaOf p fn with
        | some b => s.physRead b.save (min b.saveSize (leNat (s.physRead (b.save.plus 8) 8)))
        | none => []
      let xs := secsOf area
      let st := findSec xs 0x02
      if fldOf area 0 4 ≠ sheetMagic ∨ fldOf st 0 4 ≠ ssn.toNat then s.mismatch p l r ssn (BitVec.ofNat 32 (fldOf st 0 4))
      else
        let c := s.ceilOf l.fn
        let s1 := s.modPart p fun P =>
          { P.modRcd i fun r => { r with savedIn := none } with
            lead := fldOf st 8 4
            tiles := P.tiles.zipIdx.map fun x => if P.inSpan x.2 then
              loadTile ((xs.find? fun y => decide (y.typ = 0x10) && decide (y.idx = x.2)).map (·.body) |>.getD [])
                (fun k => r.task l x.2 k c (s.firstIssue l x.2)) (r.fld 13 1) else x.1 }
        (P.spanTiles.foldl (fun s t => s.buildDone p t true) s1).startBuilds p
  | _, _ => s

/-- A channel out of service holds bytes of a save area, or of a page-fetch list of a tile that has been loaded from it: the resume waits (R344). -/
def State.resumeHeld (s u : State) (p : Nat) : Bool :=
  let P := u.part p
  s.chans.toList.any (·.train) &&
    (((P.launch.bind fun l => s.areaOf p l.fn).map fun b => s.rangeHeld b.save b.saveSize).getD false ||
      P.spanTiles.any fun t => s.listHeld P.transBuild (P.tile t).flpa (P.tile t).flpn)

/-- RESUME_FROM_SAVE_AREA (R87) of record `arg.n` of partition `arg.p`. -/
def execResumeFromSaveArea (s : State) : Result State :=
  let u := resumeSaved s s.arg.p s.arg.n
  .next (if s.resumeHeld u s.arg.p then s.scheduleFree .resume .resumeFromSaveArea s.arg else u)

/-! ### Extent tables (R110, R333) -/

/-- A table is built. Of a released restored partition it is the current one, and the last one lets its threads issue (R333). -/
def extentBuilt (s : State) (p t : Nat) (now : Bool) (build : Nat) : State :=
  if !(s.tile p t).building || decide ((s.tile p t).build ≠ build) then s
  else
    let s1 := s.buildDone p t now
    let P := s1.part p
    if now && P.releasing && !(P.tiles.any (·.building)) then
      (s1.modPart p fun P => { P with releasing := false }).toRunning p
    else s1

/-- EXTENT_BUILD_DONE (R110) of build `arg.m` of tile `arg.t` of partition `arg.p`: with `arg.n` 1 the current table (R333). A build whose list has bytes
in a channel out of service waits (R344). -/
def execExtentBuildDone (s : State) : Result State :=
  let T := s.tile s.arg.p s.arg.t
  .next (if T.building && decide (T.build = s.arg.m) && s.listHeld (s.part s.arg.p).transBuild T.flpa T.flpn then s.scheduleFree .extent .extentBuildDone s.arg
    else extentBuilt s s.arg.p s.arg.t (decide (s.arg.n = 1)) s.arg.m)

/-! ### The watchdog and the bounds (R86, R88) -/

/-- The watchdog's count exceeds the limit. -/
def State.dogDue (s : State) (p : Nat) : Bool :=
  let P := s.part p
  match P.launch with
  | some l => P.valid && (decide (P.run = .running) || decide (P.run = .voting)) && P.decision.isNone && !P.forced && decide (l.watchdog < s.cycle - P.dogFrom)
  | none => false

/-- WATCHDOG (R88) of partition `arg.p`. -/
def execWatchdog (s : State) : Result State :=
  let p := s.arg.p
  let P := s.part p
  .next (if s.dogDue p then
      (partEvent s p .watchdog (if P.dogFired = 0 then 1 else 2) (BitVec.ofNat 64 ((s.cycle - P.dogFrom) / 1024))).modPart p
        fun P => { P with dogFired := P.dogFired + 1 }
    else s)

/-- A bound elapses before the vote has reached the root: the superstep is washed (R56, R83, R86). -/
def State.boundWash (s : State) (p : Nat) (detail : Word) : State :=
  let P := s.part p
  if s.reachedRoot p || !(decide (P.run = .running) || decide (P.run = .voting)) then s
  else (partEvent s p .boundWash 1 detail).modPart p fun P => { P with run := .voting }

/-- A thermal stop or a function-level reset washes the current superstep, whatever the votes are (R19, R54, R83). A decision that the root has
made stands, for its release is on its way, and the stop follows it (R81; DESIGN CHOICE, log entry 66). -/
def State.forceWash (s : State) (p : Nat) (detail : Word) : State :=
  let P := s.part p
  if !(decide (P.run = .running) || decide (P.run = .voting)) || P.decision.isSome then s
  else (partEvent s p .boundWash 1 detail).modPart p fun P => { P with run := .voting }

/-- A pre-emption whose bound has elapsed is pending. -/
def Partition.preemptDue (P : Partition) (cyc : Nat) : Bool := P.stops.any fun x => match x.1 with
  | .preempt _ => decide (x.2 ≤ cyc)
  | _ => false

/-- PREEMPT_BOUND_EXPIRY (R86) of partition `arg.p`, for the launch that began at `arg.op`: before the first issue it waits for that, and a
partition that is held or hot starts the bound anew when it goes on (R83; log entry 58). -/
def execPreemptBoundExpiry (s : State) : Result State :=
  let P := s.part s.arg.p
  .next (if P.preemptDue s.cycle && decide (P.launch.map (·.since) = some s.arg.op) then
      (if P.run = .dispatching then s.schedule 1 .preemptBoundExpiry s.arg else s.boundWash s.arg.p 0)
    else s)

/-- QUIESCE_BOUND_EXPIRY (R56) of partition `arg.p`, for the command of function 0's queue `arg.q` at `arg.idx`: while a save is
under way, in Thermal hold or before the first issue it waits (R59, R83). -/
def execQuiesceBoundExpiry (s : State) : Result State :=
  let P := s.part s.arg.p
  let waits : Bool := P.stops.any fun x => decide (x.1 = .quiesce ⟨s.arg.fn, s.arg.q, s.arg.idx⟩) && decide (x.2 ≠ 0) && decide (x.2 ≤ s.cycle)
  .next (if !waits then s
    else if P.run = .saving ∨ P.run = .thermal then s.schedule Config.usCycles .quiesceBoundExpiry s.arg
    else if P.run = .dispatching then s.schedule 1 .quiesceBoundExpiry s.arg
    else s.boundWash s.arg.p 1)

end Sys2Proof.Machine
end

