-- ==== Sys2Proof/Machine/Quiesce.lean ====
section
/-!
DEFINITION. Holding a partition and what follows from it (spec/03 R54 to R59, R66 to R69; spec/19 R332 to R334): QUIESCE in its four
modes, the contact sheet, restoration, function-level resets and UNBIND_VF.
-/

namespace Sys2Proof.Machine

/-! ### Taking a command (R46, R47) -/

/-- The leader of the package is at work (R30, R31): the die it stands on answers, and its lease has not run out. -/
def State.leaderLive (s : State) : Bool :=
  decide ((s.ctrl s.leader).th.task ≠ .absent) && ((List.range 4).filter fun d => let l := s.lease d
    decide (l.holder.toNat = s.leader) && decide (l.epoch = s.epoch) && decide (s.ptime < l.expiry)).length ≥ 3

/-- Reserved bits of a command page register or ring base (R45): on function 0 bit 0 as well. -/
def baseReserved (fn : Nat) (w : Word) : Bool := w.extractLsb' 1 11 != 0 || (decide (fn = 0) && w.getLsbD 0)

/-- The leader takes the entry `idx` of a queue next: the queue is mapped, runs, and is not held; a FENCE waits for every earlier
command, and the commands of functions bound to a held partition wait (R46, R47, R49, R56). -/
def State.mayTake (s : State) (r : CmdRef) : Bool :=
  let Q := (s.fn r.fn).queue r.q
  decide (r.q < 8) && decide (r.fn < s.fns.length) && Q.known && !Q.stopped && decide (Q.taken ≠ Q.tail) && decide (Q.taken.toNat = r.idx) && Q.hold.isNone &&
    s.mapped r.fn r.q && s.leaderLive && (!(fldOf (s.entry r) 1 1).testBit 1 || decide (Q.head = Q.taken)) &&
    (match s.bound? r.fn with
     | some b => decide ((s.part b.part).run ≠ .held)
     | none => true)

/-- The command that a row of the package acts on. -/
def State.cmd (s : State) : CmdRef := ⟨s.arg.fn, s.arg.q, s.arg.idx⟩

def knownOp (op : Nat) : Bool := decide (op ≤ 0x0A) || (decide (0x40 ≤ op) && decide (op ≤ 0x45))

/-- A record command (R47). -/
def recordOp (op : Nat) : Bool := decide (1 ≤ op) && decide (op ≤ 5)

/-- The signal fields break R47; the address is checked only where a signal or a wait uses it, and one on a page that is not mapped is refused like one
on a page whose kind is not L (DESIGN CHOICE, log entries 61 and 63). -/
def State.badSignal (s : State) (fn : Nat) (e : List Byte) : Bool :=
  let used : Bool := fldOf e 32 1 != 0 || fldOf e 0 1 == 5
  let a := fldOf e 16 8
  decide (3 < fldOf e 32 1) || (used && (decide (a % 8 ≠ 0) || (match s.cmdPart fn e with
    | none => false
    | some p => (s.part p).valid && match findPage (s.part p).trans (a / 65536) with
      | some g => decide (g.kind ≠ .l)
      | none => true)))

/-- The reserved bytes and the other cases of status 0x03 that every command shares (R46, R47). -/
def State.badEntry (s : State) (r : CmdRef) (e : List Byte) : Bool :=
  let op := fldOf e 0 1
  decide (fldOf e 4 4 ≠ r.idx) || decide (3 < fldOf e 1 1) || fldOf e 3 1 != 0 || fldOf e 12 4 != 0 || s.badSignal r.fn e ||
    (decide (r.fn ≠ 0) && (recordOp op || (decide (7 ≤ op) && decide (op ≤ 10))) && fldOf e 37 1 != 0)

/-- A command taken from its queue: the first refusal in the order of R47, else `ok`. `is` says whether the entry is this command's;
`bad` gives its own cases of status 0x03, and `rest` its later status, 0 for none. -/
def State.withCommand (s : State) (is : Nat → Bool) (bad : State → CmdRef → List Byte → Bool) (rest : State → CmdRef → List Byte → Nat)
    (ok : State → CmdRef → List Byte → State) : State :=
  let r := s.cmd
  let e := s.entry r
  let op := fldOf e 0 1
  if !s.mayTake r || !is op then s
  else
    let s1 := s.modQueue r.fn r.q Queue.takeOne
    if r.fn ≠ 0 ∧ ((s.bound? r.fn).isNone ∨ (0x40 ≤ op ∧ op ≤ 0x4F)) then s1.complete r 7
    else if !knownOp op then s1.complete r 2
    else if s.badEntry r e || bad s r e then s1.complete r 3
    else if rest s r e ≠ 0 then s1.complete r (rest s r e)
    else ok s1 r e

/-! ### The sheet (R57, R58, R60, R63, R64) -/

/-- The bytes of the save area that a sheet is read from. -/
def State.savedBytes (s : State) (b : Binding) : Nat := min b.saveSize (leNat (s.physRead (b.save.plus 8) 8))

/-- The launch of an idle or held partition that stands in a save area: its record, function and area (R59, R60); of several
functions' the one of the lowest record index (DESIGN CHOICE, log entry 63). -/
def State.savedOut (s : State) (p : Nat) : Option (Nat × Binding) :=
  let P := s.part p
  if P.launch.isSome then none
  else (List.range P.recs.length).findSome? fun i => (P.rcd i).savedIn.bind fun x => (s.areaOf p x.1).map fun b => (i, b)

/-- The sections of a partition's contact sheet (R64): a switched-out launch's tiles and pool come from its save area (R59, R60). -/
def State.sheetSecs (s : State) (p : Nat) : List Sec :=
  let P := s.part p
  let parts : Nat × List Byte × List Sec := match s.savedOut p with
    | some (i, b) =>
      let xs := secsOf (s.physRead b.save (s.savedBytes b))
      (i, findSec xs 0x04, xs.filter fun (x : Sec) => decide (x.typ = 0x10))
    | none => (P.runIndex, P.poolSection, P.tileSecs)
  [⟨0x01, 0, s.descSection p⟩, ⟨0x02, 0, P.stateSection parts.1⟩, ⟨0x03, 0, s.fnSection p⟩, ⟨0x04, 0, parts.2.1⟩] ++ parts.2.2 ++
    [⟨0x20, 0, s.pageSection p⟩, ⟨0x30, 0, s.ringSection p⟩, ⟨0x40, 0, P.monSection⟩]

/-- A byte that the sheet's copy reads is poisoned: of the partition's pages of HBM, of the ring in its fault ring's, or of the saved bytes in the save
area: the copy meets an uncorrectable error (R58, R60, R64). -/
def State.sheetPoison (s : State) (p : Nat) : Bool :=
  let used (e : PageT) : Nat := if ringPage p e.vpn then min (65536 * e.size) (ringBytes - 65536 * (e.vpn - (Config.faultRingPage p).toNat)) else 65536 * e.size
  ((s.part p).trans.any fun e => !e.loc.host && decide (used e ≠ 0) && (s.poisonAt e.loc (used e)).isSome) ||
    (match s.savedOut p with
     | some (_, b) => (s.poisonAt b.save (s.savedBytes b)).isSome
     | none => false)

/-- SHEET of a partition that stands still (R58): refused after a loss of committed data (R190) or in too small an area; else every
byte but the magic is written. The model reads every byte of the sheet when the copy starts, so that a live word written during the copy has
its old value, and writes none where the copy would meet an uncorrectable error (DESIGN CHOICE, log entries 61 and 62). -/
def startSheet (s : State) (p : Nat) (r : CmdRef) (e : List Byte) : State :=
  let signed := (fldOf e 35 1).testBit 0
  let xs := s.sheetSecs p
  if (s.part p).lostData || decide (fldOf e 48 8 < sheetLength xs signed) then s.complete r 6
  else if s.sheetPoison p then s.complete r 6
  else
    let bs := sheetBytes xs signed s.ptime
    ((s.modPart p fun P => { P with sheet := some r }).vwrite (s.part p).trans (fldOf e 40 8) (leBytes 4 0 ++ bs.drop 4)).scheduleFree .sheet .sheetWriteDone
      { p := p, fn := r.fn, q := r.q, idx := r.idx, v := BitVec.ofNat 64 (fldOf e 40 8), m := s.epoch.toNat }

/-- A QUIESCE whose partition is held: HOLD is done, and SHEET writes its sheet (R56, R58). -/
def finishQuiesce (s : State) (p : Nat) (r : CmdRef) : State :=
  let e := s.entry r
  if fldOf e 34 1 = 1 then startSheet s p r e else s.complete r 1

/-! ### Function-level reset (R54) and unbinding (R334) -/

/-- A function's records are disarmed, the Running one among them, and the reset is announced (R54). The event's partition field is 0, as it
does not say which partition a reset function is bound to (DESIGN CHOICE, log entry 61). The held launch of a record that is disarmed stays in the
partition, and a RELEASE lets it run on (R54 does not say what becomes of it; DESIGN CHOICE, log entry 66). -/
def finishReset (s : State) (fn : Nat) : State :=
  let s1 : State := match s.bound? fn with
    | some b => s.modPart b.part fun P =>
      { P with recs := P.recs.zipIdx.map fun (x : LRec × Nat) =>
          if b.first ≤ x.2 ∧ x.2 < b.first + b.count then { x.1 with st := .idle, order := 0, postCmd := none, savedIn := none, rearm := false } else x.1 }
    | none => s
  s1.postEvent 0x83 fn 0 0 [] [fn]

/-- The pages of a class 0 save area are freed (R61). -/
def State.freeArea (s : State) (b : Binding) : State :=
  if b.cls = 0 then (List.range (b.saveSize / 65536)).foldl (fun s i => s.freePage (b.save.addr / 65536 + i)) s else s

/-- Every command of a function that has not completed ends with a status and no signal (R334). -/
def State.dropCommands (s : State) (fn status : Nat) : State :=
  (List.range 8).foldl (fun s q =>
    let Q := (s.fn fn).queue q
    let s1 := s.modQueue fn q fun Q => { Q with taken := Q.tail, hold := none }
    (List.range (Q.tail - Q.head).toNat).foldl (fun s k => s.complete ⟨fn, q, (Q.head + BitVec.ofNat 32 k).toNat⟩ status) s1) s

/-- Nothing of a partition refers to the commands of a function any more. -/
def Partition.forgetCommands (P : Partition) (fn : Nat) : Partition :=
  let mine (c : CmdRef) : Bool := decide (c.fn = fn)
  { P with reqs := P.reqs.filter fun r => !(r.cmd.map mine).getD false, outs := P.outs.filter fun r => !mine r,
           recs := P.recs.map fun r => if (r.postCmd.map mine).getD false then { r with postCmd := none } else r }

/-- UNBIND_VF takes effect (R334). -/
def finishUnbind (s : State) (fn : Nat) : State :=
  match s.bound? fn with
  | none => s
  | some b => ((((s.modPart b.part fun P => P.forgetCommands fn).dropCommands fn 5).freeArea b).modFn fn fun f => { f with bind := none })

/-- The UNBIND_VF commands of function 0 that wait for a function to be unbound complete. -/
def State.unbound (s : State) (fn : Nat) : State :=
  let rs := (List.range 8).flatMap fun q =>
    let Q := (s.fn 0).queue q
    (List.range (Q.taken - Q.head).toNat).filterMap fun k =>
      let r : CmdRef := ⟨0, q, (Q.head + BitVec.ofNat 32 k).toNat⟩
      let e := s.entry r
      if Q.open r.idx ∧ fldOf e 0 1 = 0x43 ∧ fldOf e 34 2 = fn then some r else none
  rs.foldl (fun s r => s.complete r 1) s

/-- A partition that stands still between supersteps: held, halted or idle. -/
def Partition.atRest (P : Partition) : Bool := decide (P.run = .held) || decide (P.run = .halted) || decide (P.run = .idle)

/-- The superstep of a function's running launch is to be left: the stop waits for the next fix or wash point (R54, R56). -/
def State.stopAt (s : State) (p : Nat) (x : StopReq) : State := s.modPart p fun P => { P with stops := P.stops ++ [(x, s.cycle)] }

/-- Whether the running launch, or the one being saved, is a function's. -/
def Partition.busyWith (P : Partition) (fn : Nat) : Bool :=
  (decide (P.launch.map (·.fn) = some fn) && !P.atRest) || (decide (P.run = .saving) && (P.saveFn.toList ++ P.saveAlso).contains fn)

/-- A virtual function's registers at reset, its queues unmapped (R54). -/
def State.clearFn (s : State) (fn : Nat) : State :=
  let s1 : State := { s with qslots := s.qslots.map fun (x : SlotOwner) => if (x.map (·.1)) = some fn then none else x, pendBits := s.pendBits.filter fun b => b.fn ≠ fn }
  s1.modFn fn fun f => { Fn.zero with bind := f.bind }

/-- VF_FUNCTION_LEVEL_RESET of a function (R54). In Thermal hold the superstep is washed when the partition has cooled (R83; log entry 58). -/
def vfReset (s : State) (fn : Nat) : State :=
  if fn = 0 ∨ s.fns.length ≤ fn then s
  else
    let s1 := s.clearFn fn
    match s.bound? fn with
    | none => finishReset s1 fn
    | some b =>
      let p := b.part
      let P := s.part p
      let s2 := s1.modPart p fun P => P.forgetCommands fn
      if P.busyWith fn then (s2.stopAt p (.reset fn)).forceWash p 3 else finishReset s2 fn

/-- VF_FUNCTION_LEVEL_RESET (R54) of function `arg.fn`; in recovery mode there are no virtual functions (R25). -/
def execVfFunctionLevelReset (s : State) : Result State := .next (if s.boot.recov then s else vfReset s s.arg.fn)

/-! ### Destroying a partition (R42) -/

/-- A partition and its shares end; its BASE and LEN fields read zero with VALID clear (DESIGN CHOICE, log entry 61): its pages and shadow pages are freed, and commands that waited on it, a QUIESCE
among them, end with status 0x05 (log entry 24). -/
def destroyPart (s : State) (p : Nat) : State :=
  let P := s.part p
  let cmds := P.recs.filterMap (·.postCmd) ++ P.reqs.filterMap (·.cmd) ++ P.outs ++ P.sheet.toList ++ P.stops.filterMap fun x => match x.1 with | .quiesce r => some r | _ => none
  let s1 := P.trans.foldl (fun s e => s.freeEntry p e) s
  let s2 := P.shadow.foldl (fun s k => s.freePage k) s1
  let s3 := (s2.endOps p).modPart p fun _ => Partition.absent
  cmds.foldl (fun s r => s.complete r 5) s3

/-- PF_FUNCTION_LEVEL_RESET (R54): every virtual function is reset, and every partition destroyed. No binding outlives its partition, so every function
is unbound and its class 0 save area freed (DESIGN CHOICE, log entry 63). -/
def execPfFunctionLevelReset (s : State) : Result State :=
  let s1 := (List.range s.fns.length).foldl (fun s fn =>
    if fn = 0 then s
    else
      let s1 := s.clearFn fn
      let s2 : State := match s.bound? fn with
        | some b => (s1.modPart b.part fun P => P.forgetCommands fn).freeArea b
        | none => s1
      (finishReset s2 fn).modFn fn fun f => { f with bind := none }) s
  .next ((List.range s1.parts.length).foldl (fun s p => if (s.part p).valid then destroyPart s p else s) s1)

/-! ### QUIESCE (R55 to R58, R66 to R68) -/

/-- Every page of an area is mapped, of kind L, and allows the access (R55). -/
def Partition.areaOk (P : Partition) (va n : Nat) (write : Bool) : Bool :=
  (pieces va n).all fun x => match findPage P.trans (x.1 / 65536) with
    | some e => decide (e.kind = .l) && if write then e.w else e.r
    | none => false

/-- The cases of status 0x03 of a QUIESCE (R55), a wash bound above 1,000,000 µs among them (DESIGN CHOICE, log entry 61). -/
def quiesceBad (s : State) (_ : CmdRef) (e : List Byte) : Bool :=
  let mode := fldOf e 34 1
  let va := fldOf e 40 8
  decide (3 < mode) || decide (63 < fldOf e 33 1) || decide (1 < fldOf e 35 1) || decide (1000000 < fldOf e 36 4) || fldOf e 60 4 != 0 ||
    ((decide (mode = 1) || decide (mode = 3)) && (decide (va % 64 ≠ 0) || match findPage (s.part (fldOf e 33 1)).trans (va / 65536) with
      | some g => decide (g.kind ≠ .l)
      | none => false))

/-- Status 0x04 of a QUIESCE (R55). -/
def quiesceRange (s : State) (_ : CmdRef) (e : List Byte) : Nat :=
  let P := s.part (fldOf e 33 1)
  let mode := fldOf e 34 1
  if !P.valid then 4
  else if (mode = 1 ∨ mode = 3) ∧ !P.areaOk (fldOf e 40 8) (fldOf e 48 8) (decide (mode = 1)) then 4 else 0

/-- The microseconds of the wash bound (R55). -/
def washBound (e : List Byte) : Nat := if fldOf e 36 4 = 0 then 1000 else fldOf e 36 4

/-- HOLD and SHEET (R56): at once where the partition stands still and its write-behind has drained, else after the drain; where it runs, at its next
fix within the bound. -/
def startQuiesce (s : State) (r : CmdRef) (e : List Byte) : State :=
  let p := fldOf e 33 1
  let P := s.part p
  if P.atRest && !P.drains.isEmpty then
    s.modPart p fun P => { P with run := if P.run = .idle then .held else P.run, stops := P.stops ++ [(.quiesce r, 0)] }
  else if P.run = .idle then finishQuiesce (s.modPart p fun P => { P with run := .held }) p r
  else if P.atRest then finishQuiesce (s.modPart p fun P => { P with releasing := false, restored := P.restored || P.releasing, tiles := P.tiles.map fun T => { T with building := false } }) p r
  else (s.modPart p fun P => { P with stops := P.stops ++ [(.quiesce r, s.cycle + washBound e * Config.usCycles)] }).schedule
    (washBound e * Config.usCycles) .quiesceBoundExpiry { p := p, fn := r.fn, q := r.q, idx := r.idx }

/-- RELEASE of a held partition (R58, R83): at SSN + 1, after the restored tiles' tables are built (R333), or Idle. -/
def release (s : State) (p : Nat) : State :=
  let P := s.part p
  if P.run ≠ .held ∨ P.releasing then s
  else if P.launch.isNone then s.modPart p fun P => { P with run := .idle, restored := false }
  else
    let tasks := P.spanTiles.filter fun t => (P.tile t).threads.any fun th => th.task = .running
    if P.restored ∧ tasks ≠ [] then
      tasks.foldl (fun s t => s.beginBuild p t 1)
        (s.modPart p fun P => { P with releasing := true, restored := false })
    else (s.modPart p fun P => { P with restored := false }).toRunning p

/-! ### Restoration (R66 to R68) -/

/-- The entries of a page map (R64). -/
def mapEntries (b : List Byte) : List PageT :=
  (List.range (fldOf b 0 8)).map fun k =>
    let e := bytesAt b (8 + 16 * k) 16
    ⟨fldOf e 0 8 / 65536, if fldOf e 11 1 = 1 then 32 else 1, ⟨(fldOf e 8 1).testBit 7, 0⟩, kindOf (fldOf e 8 1), (fldOf e 9 1).testBit 0,
     (fldOf e 9 1).testBit 1, (fldOf e 9 1).testBit 2, scopeOf (fldOf e 10 1)⟩

/-- The pages of a partition without those that RESTORE unmaps (R68): host-backed ones and the fault ring's. -/
def Partition.keptPages (P : Partition) (p : Nat) : List PageT := P.trans.filter fun e => e.loc.host || ringPage p e.vpn

/-- New pages of HBM for a list of entries (R68). -/
def State.mapFresh (s : State) : List PageT → Option (State × List PageT)
  | [] => some (s, [])
  | e :: es => match s.takePages e.size 1 with
    | some (s1, k :: _) => (s1.mapFresh es).map fun r => (r.1, { e with loc := ⟨false, 65536 * k⟩ } :: r.2)
    | _ => none

/-- RESTORE_SHAPE (R67). -/
def State.badShape (s : State) (p : Nat) (xs : List Sec) : Bool :=
  let P := s.part p
  let desc := findSec xs 0x01
  let es := (mapEntries (findSec xs 0x20)).filter fun e => !e.loc.host
  let fs := findSec xs 0x03
  decide (P.len < fldOf desc 0 4) || decide (P.recs.length < fldOf (findSec xs 0x04) 0 4) || (s.mapFresh es).isNone ||
    (es.any fun e => P.trans.any fun g => g.loc.host && g.overlaps e.vpn e.size) ||
    ((List.range (fldOf fs 0 4)).any fun k =>
      let f := bytesAt fs (16 + 16 * k) 16
      match s.areaOf p (fldOf f 2 2) with
      | some b => decide (scopeCode b.ceil < fldOf f 0 1)
      | none => true)

/-- A record of the pool section (R64): posted by the function whose range holds it. -/
def recFrom (b : List Byte) (fn : Nat) : LRec :=
  { image := bytesAt b 0 512, snap := bytesAt b 512 256, st := recOf (fldOf b 768 1 % 8), snapValid := (fldOf b 768 1).testBit 3,
    rearm := (fldOf b 768 1).testBit 4, counts := Vector.ofFn fun k => BitVec.ofNat 16 (fldOf b (776 + 2 * k.val) 2), order := fldOf b 784 8,
    postFn := fn, postCmd := none, savedIn := none }

/-- The function whose record range holds a record, or 0. -/
def State.rangeFn (s : State) (p i : Nat) : Nat :=
  ((s.boundTo p).find? fun n => match s.bound? n with
    | some b => decide (b.first ≤ i) && decide (i < b.first + b.count)
    | none => false).getD 0

/-- Continuation (R68). -/
def restore (s : State) (p : Nat) (xs : List Sec) : State :=
  let P := s.part p
  let st := findSec xs 0x02
  let pool := findSec xs 0x04
  let pm := findSec xs 0x20
  let all := mapEntries pm
  let kept := P.keptPages p
  let old := P.recs.filterMap (·.postCmd)
  let s1 := (P.trans.filter fun e => !kept.contains e).foldl (fun s e => s.freeEntry p e) (s.modPart p fun P => { P with trans := kept })
  match s1.mapFresh (all.filter fun e => !e.loc.host) with
  | none => s
  | some (s2, es) =>
    let trans := kept ++ es
    let s3 := (es.foldl (fun (x : State × Nat) e => (x.1.physWrite e.loc (bytesAt pm x.2 (65536 * e.size)), x.2 + 65536 * e.size))
      (s2, 8 + 16 * all.length)).1
    let s4 := s3.vwrite trans ((Config.faultRingPage p).toNat * 65536) (findSec xs 0x30)
    let recs := (List.range P.recs.length).map fun i =>
      if i < fldOf pool 0 4 then recFrom (bytesAt pool (64 + 1024 * i) 1024) (s.rangeFn p i) else LRec.idle
    let i := fldOf st 4 4
    let l : Option Launch := if i < recs.length then some ((recs.getD i LRec.idle).launch i (s.rangeFn p i) s.cycle) else none
    let r := recs.getD i LRec.idle
    let mons := findSec xs 0x40
    let s5 := s4.modPart p fun P =>
      let P := { P.fresh with launch := l }
      { P with
        trans := trans, transTlb := trans, transBuild := trans, transNow := trans, seed := [], recs := recs, nextOrder := recs.foldl (fun m r => max m (r.order + 1)) 1
        ssn := BitVec.ofNat 32 (fldOf st 0 4), lead := fldOf st 8 4, sinceLate := 0, bred := 0, washes := [], washRuns := 0, dogFired := 0, dogHeld := 0
        run := .held, restored := true, releasing := false, lostData := false, stops := P.stops.filter fun x => x.1.holds, drains := [], codeOld := []
        lastFixAt := s.cycle, fixAt := s.cycle, runFn := s.rangeFn p i, sliceFrom := s.cycle, sliceTo := none, podwt := P.podwt.map fun _ => 0x11111111
        monitors := Vector.ofFn fun k => monitorOf (bytesAt mons (4 + 80 * k.val) 80)
        tiles := (List.range P.tiles.length).map fun t =>
          match xs.find? fun y => decide (y.typ = 0x10) && decide (y.idx = t), l with
          | some y, some l => loadTile y.body (fun k => r.task l t k (s.ceilOf l.fn) s.cycle) (if P.inSpan t then r.fld 13 1 else 0)
          | some y, none => loadTile y.body (fun _ => Thread.zero) 0
          | none, _ => Tile.zero }
    (old.foldl (fun s r => s.complete r 5) (s5.endOps p)).regenerateNow (some p) p

/-- The bytes of a sheet area. -/
def State.sheetIn (s : State) (p : Nat) (e : List Byte) : List Byte :=
  let P := s.part p
  s.vread P.trans (fldOf e 40 8) (min (fldOf e 48 8) (max 192 (leNat (s.vread P.trans (fldOf e 40 8 + 8) 8))))

/-- RESTORE (R66 to R68): refused for an invalid sheet, or in a partition that does not stand still (R55, R66); else the outcome's cause goes
into byte 3 of the entry (R67). -/
def performRestore (s : State) (p : Nat) (r : CmdRef) (e : List Byte) : State :=
  let xs := secsOf (s.sheetIn p e)
  if !validSheet (s.sheetIn p e) (fldOf e 48 8) then s.complete r 3
  else if !(s.part p).atRest then s.complete r 5
  else if fldOf e 56 4 ≠ 0xFFFFFFFF ∧ fldOf e 56 4 ≠ fldOf (findSec xs 0x02) 0 4 then s.completeAs r 7 (some 0x24) false
  else if s.badShape p xs then s.completeAs r 7 (some 0x25) false
  else (restore s p xs).completeAs r 1 (some 0) true

/-! ### QUIESCE commands in their order (R59) -/

/-- A QUIESCE waits for an earlier one, for a save that is under way, or for a hot partition (R59, R83). -/
def Partition.quiesceWaits (P : Partition) : Bool :=
  P.sheet.isSome || (P.stops.any fun x => match x.1 with | .quiesce _ => true | _ => false) || decide (P.run = .saving) || decide (P.run = .thermal)

/-- A QUIESCE whose turn has come, by its mode. -/
def performQuiesce (s : State) (p : Nat) (r : CmdRef) : State :=
  let e := s.entry r
  match fldOf e 34 1 with
  | 2 => (release s p).complete r 1
  | 3 => performRestore s p r e
  | _ => startQuiesce s r e

/-- A QUIESCE taken from its queue: performed, or put behind the earlier ones of its partition, where its bound has not begun: the time 0 says so
(R56, R59). A RESTORE into a partition that stands still waits for the drain of what it has fixed (DESIGN CHOICE, log entry 66). -/
def takeQuiesce (s : State) (r : CmdRef) (e : List Byte) : State :=
  let p := fldOf e 33 1
  let P := s.part p
  if P.quiesceWaits || (decide (fldOf e 34 1 = 3) && P.atRest && !P.drains.isEmpty) then s.modPart p fun P => { P with stops := P.stops ++ [(.quiesce r, 0)] }
  else performQuiesce s p r

/-- One stop that was pending is settled where its time has come; else it stays, a HOLD or SHEET that waits for its fix with the bound that it has begun
(R54, R56, R59, R83, R334). -/
def settleOne (p : Nat) (s : State) (x : StopReq × Nat) : State :=
  let P := s.part p
  let keep : State := s.modPart p fun P => { P with stops := P.stops ++ [x] }
  match x.1 with
  | .preempt _ => if P.launch.isSome then keep else s
  | .quiesce r => if P.quiesceWaits || (decide (x.2 ≠ 0) && !P.atRest) then keep else performQuiesce s p r
  | .reset fn => if P.atRest then finishReset s fn else keep
  | .unbind fn => if P.atRest then (finishUnbind s fn).unbound fn else keep

/-- The pending stops of a partition are settled, in order. -/
def settleStops (s : State) (p : Nat) : State :=
  (s.part p).stops.foldl (settleOne p) (s.modPart p fun P => { P with stops := [] })

/-- The stops of a partition are settled where there are any: at rest once the write-behind of every fixed superstep has drained (R56, R64). -/
def State.settleDrained (s : State) (p : Nat) : State :=
  let P := s.part p
  if P.stops.isEmpty || (P.atRest && !P.drains.isEmpty) then s else settleStops s p

/-- WRITE_BEHIND_DRAIN_DONE (R56, R72, R81) of partition `arg.p`: the write-behind of the fix in cycle `arg.op`, the last of record `arg.n` − 1 when
that is not 0: the record completes, and then stops are settled. With `arg.m` 1 stops are settled alone. A write to one of the channels `arg.nats` waits
while that is in training (R344). -/
def execWriteBehindDrainDone (s : State) : Result State :=
  let p := s.arg.p
  .next (if s.arg.nats.any fun c => (s.chan c).train then s.scheduleFree .drain .writeBehindDrainDone s.arg
    else if s.arg.m = 1 then s.settleDrained p
    else if s.arg.n ≠ 0 then (s.schedule 0 .launchComplete { p := p, n := s.arg.n - 1, op := s.arg.op }).kickStops p
    else (s.modPart p fun P => { P with drains := P.drains.erase s.arg.op }).settleDrained p)

/-- A page of a partition's lies in a channel in training: a copy of its pages waits (R344). -/
def State.pagesHeld (s : State) (p : Nat) : Bool :=
  s.chans.toList.any (·.train) && (s.part p).trans.any fun e => s.rangeHeld e.loc (65536 * e.size)

/-- SHEET_WRITE_DONE (R58) of the command `arg` of partition `arg.p`, written under the leader's epoch `arg.m`: the magic at `arg.v`, and
completion; a former leader's write is dropped (R31). QUIESCE commands that waited follow (R59). -/
def execSheetWriteDone (s : State) : Result State :=
  let p := s.arg.p
  .next (if s.pagesHeld p then s.scheduleFree .sheet .sheetWriteDone s.arg
  else if (s.part p).sheet = some s.cmd ∧ s.arg.m = s.epoch.toNat ∧ ((s.fn s.arg.fn).queue s.arg.q).open s.arg.idx then
    settleStops (((s.modPart p fun P => { P with sheet := none }).vwrite (s.part p).trans s.arg.v.toNat (leBytes 4 sheetMagic)).complete s.cmd 1) p else s)

/-- The sheet that a partition is writing ends in an uncorrectable error: status 0x06, and no magic (R58). -/
def State.failSheet (s : State) (p : Nat) : State :=
  match (s.part p).sheet with
  | some r => settleStops ((s.modPart p fun P => { P with sheet := none }).complete r 6) p
  | none => s

/-- A QUIESCE of a mode. -/
def State.quiesce (s : State) (mode : Nat) : State :=
  let m := fldOf (s.entry s.cmd) 34 1
  if m = mode ∨ (mode = 0 ∧ 3 < m) then s.withCommand (fun op => decide (op = 0x44)) quiesceBad quiesceRange takeQuiesce else s

/-- QUIESCE_HOLD (R56). -/
def execQuiesceHold (s : State) : Result State := .next (s.quiesce 0)
/-- QUIESCE_SHEET (R56 to R58). -/
def execQuiesceSheet (s : State) : Result State := .next (s.quiesce 1)
/-- QUIESCE_RELEASE (R58). -/
def execQuiesceRelease (s : State) : Result State := .next (s.quiesce 2)
/-- QUIESCE_RESTORE (R66 to R68). -/
def execQuiesceRestore (s : State) : Result State := .next (s.quiesce 3)

end Sys2Proof.Machine
end

