-- ==== Sys2Proof/Machine/Commands.lean ====
section
/-!
DEFINITION. The host's commands (spec/02 R38 to R48; spec/01 R32; spec/03 R61; spec/20 R338): each row takes the entry `arg.idx` of queue
`arg.q` of function `arg.fn`.
-/

namespace Sys2Proof.Machine

def noneBad (_ : State) (_ : CmdRef) (_ : List Byte) : Bool := false
def noneRest (_ : State) (_ : CmdRef) (_ : List Byte) : Nat := 0

/-- NOP, and an opcode that R47 does not list. -/
def execNop (s : State) : Result State :=
  .next (s.withCommand (fun op => decide (op = 0) || !knownOp op) noneBad noneRest fun s r _ => s.complete r 1)

/-! ### Record commands (R47, R70 to R73) -/

/-- The partition and record of a record command, or none out of range (R47). -/
def State.cmdRecord (s : State) (r : CmdRef) (e : List Byte) : Option (Nat × Nat) :=
  let i := fldOf e 8 4
  if r.fn = 0 then
    let p := fldOf e 37 1
    if p < s.parts.length ∧ (s.part p).valid ∧ i < (s.part p).recs.length then some (p, i) else none
  else (s.bound? r.fn).bind fun b => if i < b.count then some (b.part, b.first + i) else none

def recordRest (s : State) (r : CmdRef) (e : List Byte) : Nat := if (s.cmdRecord r e).isNone then 4 else 0

/-- A record command: its operation is applied at once or at the next fix or wash point (R73). -/
def State.recordCommand (s : State) (code : Nat) (bad : State → CmdRef → List Byte → Bool) (rest : List Byte → Nat) (op : State → Nat → List Byte → RecOp) : State :=
  s.withCommand (fun o => decide (o = code)) bad (fun s r e => if (s.cmdRecord r e).isNone then 4 else rest e) fun s1 r e =>
    match s.cmdRecord r e with
    | some (p, i) => s1.hostReq p ⟨op s i e, 0, 0, 0, some r⟩
    | none => s1

/-- The image of a WRITE_RECORD, read when the command is taken. -/
def State.imageOf (s : State) (e : List Byte) : List Byte := s.physRead ⟨true, fldOf e 40 8⟩ 512

/-- WRITE_RECORD (R47, R70). -/
def execWriteRecord (s : State) : Result State :=
  .next (s.recordCommand 0x01 (fun s _ e => imageReserved (s.imageOf e)) (fun _ => 0) fun s i e => .write i (s.imageOf e))
/-- PATCH (R47, R72). A length of 25 to 255, for which the entry has no data, has status 0x03 (DESIGN CHOICE, log entry 63). -/
def execPatch (s : State) : Result State :=
  .next (s.recordCommand 0x02 (fun _ _ e => decide (24 < fldOf e 36 1)) (fun e => if fldOf e 36 1 = 0 ∨ 256 < fldOf e 34 2 + fldOf e 36 1 then 4 else 0)
    fun _ i e => .patch i (fldOf e 34 2) (bytesAt e 40 (fldOf e 36 1)))
/-- ARM (R47, R71, R72). -/
def execArm (s : State) : Result State := .next (s.recordCommand 0x03 noneBad (fun _ => 0) fun _ i _ => .arm i)
/-- POST (R47, R72): it completes with its launch. -/
def execPost (s : State) : Result State := .next (s.recordCommand 0x04 noneBad (fun _ => 0) fun _ i _ => .post i)

/-! ### Signals (R47, R51, R338) -/

/-- SIGNAL_WAIT: the queue is held (R47, R338); its record index is checked as every record command's. -/
def execSignalWait (s : State) : Result State :=
  .next (s.withCommand (fun op => decide (op = 0x05)) noneBad recordRest fun s r _ =>
    (s.modQueue r.fn r.q fun q => { q with hold := some (BitVec.ofNat 32 r.idx), met := false }).noteWaits)

/-- SIGNAL_WAIT_POLL (R338): the wait at the head of its queue reads its word. -/
def execSignalWaitPoll (s : State) : Result State :=
  let r := s.cmd
  let Q := (s.fn r.fn).queue r.q
  .next (if Q.hold = some (BitVec.ofNat 32 r.idx) ∧ Q.head.toNat = r.idx ∧ (Q.met ∨ s.waitOver r) then s.completeAs r 1 none false else s)

/-- SIGNAL (R47, R51). -/
def execSignal (s : State) : Result State := .next (s.withCommand (fun op => decide (op = 0x06)) noneBad noneRest fun s r _ => s.complete r 1)

/-! ### MAP and UNMAP (R48) -/

/-- The partition a page command acts on. -/
def State.pagePart (s : State) (r : CmdRef) (e : List Byte) : Nat := (s.cmdPart r.fn e).getD 64

def partRest (s : State) (r : CmdRef) (e : List Byte) : Nat := if (s.part (s.pagePart r e)).valid then 0 else 4

/-- The size in 64 KiB pages of a MAP's or UNMAP's pages, and their first page numbers. -/
def pageSize (e : List Byte) : Nat := if fldOf e 36 1 = 1 then 32 else 1
def pageNumbers (e : List Byte) : List Nat := (List.range (fldOf e 48 4)).map fun k => fldOf e 40 8 / 65536 + pageSize e * k

/-- The cases of status 0x03 that MAP and UNMAP share. -/
def badPages (e : List Byte) : Bool :=
  decide (1 < fldOf e 36 1) || decide (fldOf e 40 8 % (65536 * pageSize e) ≠ 0) || decide (fldOf e 48 4 < 1) || decide (65536 < fldOf e 48 4) || fldOf e 52 4 != 0 ||
    decide (Config.addrSize < fldOf e 40 8 + 65536 * pageSize e * fldOf e 48 4)

/-- The physical page that a SHARE takes from its source, when R48 allows it. -/
def State.sharePage (s : State) (e : List Byte) (k : Nat) : Option Loc :=
  let P := s.part (fldOf e 39 1)
  let vpn := fldOf e 56 8 / 65536 + pageSize e * k
  (findPage P.trans vpn).bind fun g =>
    if P.valid ∧ (g.scope = .pkg ∨ g.scope = .sys) ∧ g.kind = kindOf (fldOf e 33 1) ∧ vpn + pageSize e ≤ g.vpn + g.size ∧
        (g.loc.plus (65536 * (vpn - g.vpn))).addr % (65536 * pageSize e) = 0 then some (g.loc.plus (65536 * (vpn - g.vpn))) else none

/-- The cases of status 0x03 of a MAP: among them a byte 39 that is not zero without SHARE, and a range past 2^57 (DESIGN CHOICE, log entry 61), and a
host-backed page with SHARE, which R48 gives no outcome (DESIGN CHOICE, log entry 66). -/
def mapBad (s : State) (r : CmdRef) (e : List Byte) : Bool :=
  let host := (fldOf e 33 1).testBit 7
  let share := (fldOf e 38 1).testBit 0
  badPages e || fldOf e 33 1 / 4 % 32 != 0 || decide (7 < fldOf e 34 1) || decide (fldOf e 35 1 < 3) || decide (5 < fldOf e 35 1) || decide (1 < fldOf e 38 1) ||
    (share && decide (r.fn ≠ 0)) || (!share && fldOf e 39 1 != 0) || (host && (share || decide (fldOf e 35 1 ≠ 5) || decide (fldOf e 56 8 % (65536 * pageSize e) ≠ 0))) ||
    (!host && !share && fldOf e 56 8 != 0) ||
    (share && (decide (fldOf e 56 8 % (65536 * pageSize e) ≠ 0) || (List.range (fldOf e 48 4)).any fun k => (s.sharePage e k).isNone))

/-- The physical pages of a MAP, or none where too few are free. -/
def State.mapPages (s : State) (e : List Byte) : Option (State × List Loc) :=
  let n := fldOf e 48 4
  if (fldOf e 33 1).testBit 7 then some (s, (List.range n).map fun k => ⟨true, fldOf e 56 8 + 65536 * pageSize e * k⟩)
  else if (fldOf e 38 1).testBit 0 then some (s, (List.range n).filterMap fun k => s.sharePage e k)
  else (s.takePages (pageSize e) n).map fun x => (x.1, x.2.map fun k => ⟨false, 65536 * k⟩)

/-- The later cases of a MAP. -/
def mapRest (s : State) (r : CmdRef) (e : List Byte) : Nat :=
  let P := s.part (s.pagePart r e)
  if !P.valid then 4
  else if (pageNumbers e).any fun v => P.trans.any fun g => g.overlaps v (pageSize e) then 5
  else if (s.mapPages e).isNone then 6 else 0

/-- MAP (R48). -/
def execMap (s : State) : Result State :=
  .next (s.withCommand (fun op => decide (op = 0x07)) mapBad mapRest fun s r e =>
    let p := s.pagePart r e
    match s.mapPages e with
    | none => s.complete r 6
    | some (s1, ls) =>
      let pr := fldOf e 34 1
      let es : List PageT := ((pageNumbers e).zip ls).map fun x => ⟨x.1, pageSize e, x.2, kindOf (fldOf e 33 1), pr.testBit 0, pr.testBit 1, pr.testBit 2, scopeOf (fldOf e 35 1)⟩
      (s1.setTrans p ((s1.part p).trans ++ es) (fldOf e 40 8 / 65536) (pageSize e * fldOf e 48 4)).complete r 1)

/-- The 64 KiB pages that an UNMAP reaches. -/
def unmapRun (e : List Byte) : Nat × Nat := (fldOf e 40 8 / 65536, pageSize e * fldOf e 48 4)

/-- The cases of status 0x03 of an UNMAP: among them a misaligned address, a page count that is not 1 to 65,536 and a range past 2^57, which R48 lists for
MAP alone (DESIGN CHOICE, log entry 66). -/
def unmapBad (_ : State) (_ : CmdRef) (e : List Byte) : Bool := badPages e || fldOf e 33 3 != 0 || fldOf e 38 2 != 0 || fldOf e 56 8 != 0

/-- UNMAP (R48). -/
def execUnmap (s : State) : Result State :=
  .next (s.withCommand (fun op => decide (op = 0x08)) unmapBad
    (fun s r e =>
      let P := s.part (s.pagePart r e)
      let (v, n) := unmapRun e
      if !P.valid then 4 else if (List.range n).all fun i => (findPage P.trans (v + i)).isSome then 0 else 5) fun s r e =>
      let p := s.pagePart r e
      let (v, n) := unmapRun e
      let tr := (s.part p).trans
      (((tr.filter fun g => g.overlaps v n).flatMap fun g => g.pick true v n).foldl (fun s g => s.freeEntry p g) (s.setTrans p (lessPages tr v n) v n)).complete r 1)

/-! ### COPY_IN and COPY_OUT (R48, R119) -/

/-- The cases of status 0x03 of a copy. -/
def copyBad (_ : State) (_ : CmdRef) (e : List Byte) : Bool :=
  let n := fldOf e 48 4
  fldOf e 33 4 != 0 || fldOf e 38 2 != 0 || fldOf e 52 4 != 0 || decide (fldOf e 40 8 % 64 ≠ 0) || decide (fldOf e 56 8 % 64 ≠ 0) || decide (n % 64 ≠ 0) ||
    decide (n < 64) || decide (2 ^ 31 < n)

/-- Status 0x04 of a copy: a page of its range is not mapped, lacks the access, or is host-backed for COPY_IN. -/
def copyRest (out : Bool) (s : State) (r : CmdRef) (e : List Byte) : Nat :=
  let P := s.part (s.pagePart r e)
  if P.valid ∧ (pieces (fldOf e 40 8) (fldOf e 48 4)).all fun x => match findPage P.trans (x.1 / 65536) with
      | some g => if out then g.r else g.w && !g.loc.host
      | none => false
  then 0 else 4

/-- A COPY_IN or COPY_OUT that reaches a channel in training: its requests wait at the channel's slice, and the leader takes it when they need not
(R344; log entry 65). -/
def State.copyTrains (s : State) (r : CmdRef) : Bool :=
  let e := s.entry r
  s.chans.toList.any (·.train) && (decide (fldOf e 0 1 = 0x09) || decide (fldOf e 0 1 = 0x0A)) &&
    (pieces (fldOf e 40 8) (min (fldOf e 48 4) (2 ^ 31))).any fun x => match translate (s.part (s.pagePart r e)).trans x.1 with
      | some l => s.rangeHeld l x.2
      | none => false

/-- COPY_IN: outside writes, on kind V visible from the next fix or wash point on, when the command completes (R48, R119). -/
def execCopyIn (s : State) : Result State :=
  .next (s.withCommand (fun op => decide (op = 0x09)) copyBad (copyRest false) fun s r e =>
    let p := s.pagePart r e
    let va := fldOf e 40 8
    let ps := pieces va (fldOf e 48 4)
    let bs := s.physRead ⟨true, fldOf e 56 8⟩ (fldOf e 48 4)
    let tr := (s.part p).trans
    let s1 := ps.foldl (fun s x => match translate tr x.1 with
      | some l => s.outsideWrite none l (bytesAt bs (x.1 - va) x.2)
      | none => s) s
    let onV : Bool := ps.any fun x => match findPage tr (x.1 / 65536) with
      | some g => decide (g.kind = .v)
      | none => false
    if onV && !(s.part p).still then s1.modPart p fun P => { P with outs := P.outs ++ [r] } else s1.complete r 1)

/-- Monitor source 0x04: a COPY_OUT that reads HBM pages of a partition has read them, in a time that no rule gives (R20; log entries 1 and 37). -/
def State.noteCopyOut (s : State) (p va n : Nat) : State :=
  if (pieces va n).any fun x => match translate (s.part p).trans x.1 with
    | some l => !l.host
    | none => false
  then { s.modPart p fun P => P.sample 4 (1 + Config.delay .memRead s.fresh) with fresh := s.fresh + 1 } else s

/-- COPY_OUT (R48). -/
def execCopyOut (s : State) : Result State :=
  .next (s.withCommand (fun op => decide (op = 0x0A)) copyBad (copyRest true) fun s r e =>
    let p := s.pagePart r e
    let va := fldOf e 40 8
    let bs := (pieces va (fldOf e 48 4)).flatMap fun x => match findPage (s.part p).trans (x.1 / 65536) with
      | some g => if g.kind = .v then s.seen p (g.locOf x.1) x.2 else s.physRead (g.locOf x.1) x.2
      | none => List.replicate x.2 0
    ((s.physWrite ⟨true, fldOf e 56 8⟩ bs).noteCopyOut p va (fldOf e 48 4)).complete r 1)

/-! ### Partitions (R38 to R42) -/

/-- The shares a CREATE_PARTITION asks for, with their defaults (R40): wire slots, reduction slots and records. -/
def State.shares (s : State) (e : List Byte) : Nat × Nat × Nat :=
  (if fldOf e 37 1 = 0 then max 1 (120 * fldOf e 35 2 / s.logical.length) else fldOf e 37 1, fldOf e 38 1, if fldOf e 40 2 = 0 then 64 else fldOf e 40 2)

def createBad (_ : State) (_ : CmdRef) (e : List Byte) : Bool :=
  decide (63 < fldOf e 33 1) || decide (120 < fldOf e 37 1) || decide (32 < fldOf e 38 1) || fldOf e 40 2 % 16 != 0 || decide (4096 < fldOf e 40 2)

/-- Pages that a partition of n tiles takes at its creation: the fault ring's five, and ten of shadow area for each tile (R108, R183). -/
def createPages (tiles : Nat) : Nat := 5 + 10 * tiles

/-- The status of a CREATE_PARTITION that is refused (R39, R40); 0x06 also where too few pages are free for the fault ring and the shadow area
(DESIGN CHOICE, log entry 61). -/
def createRest (s : State) (_ : CmdRef) (e : List Byte) : Nat :=
  let p := fldOf e 33 1
  let base := fldOf e 34 1
  let len := fldOf e 35 2
  let live := s.parts.filter (·.valid)
  let sh := s.shares e
  if len = 0 ∨ s.logical.length < base + len then 4
  else if (s.part p).valid ∨ live.any fun P => decide (P.base < base + len) && decide (base < P.base + P.len) then 5
  else if 120 < (live.map (·.wire)).sum + sh.1 ∨ 32 < (live.map (·.redSlots)).sum + sh.2.1 ∨ 4096 < (live.map (·.nrec)).sum + sh.2.2 ∨
    (s.takePages 1 (createPages (8 * len))).isNone then 6 else 0

/-- A new partition: its tiles read zero, its records are Idle, and its fault ring is mapped read-only (R39, R78, R151, R183). -/
def newPartition (p base len wire red nrec : Nat) (ring shadow : List Nat) (hot : Bool) : Partition :=
  let tr : List PageT := ring.zipIdx.map fun x => ⟨(Config.faultRingPage p).toNat + x.2, 1, ⟨false, 65536 * x.1⟩, .l, true, false, false, .part⟩
  { Partition.absent with
    valid := true, base := base, len := len, wire := wire, redSlots := red, nrec := nrec, trans := tr, transTlb := tr, transBuild := tr, transNow := tr
    lead := (Machine.sizeClass len).1, recs := List.replicate nrec LRec.idle, podwt := List.replicate len 0x11111111, arb := List.replicate len (7, 0)
    arrayEnd := List.replicate len 0, shadow := shadow, thermalHeld := hot, tiles := List.replicate (8 * len) Tile.zero }

/-- The slots of a new partition's share in the frames of the ports: the lowest free ones after those kept for firmware (R40; log entry 64). -/
def State.freeSlots (s : State) (n : Nat) : List Nat :=
  (((List.range 128).drop keptSlots).filter fun k => !(s.parts.any fun P => P.valid && P.wireSlots.contains k)).take n

/-- CREATE_PARTITION (R39, R40). -/
def execCreatePartition (s : State) : Result State :=
  .next (s.withCommand (fun op => decide (op = 0x40)) createBad createRest fun s r e =>
    let p := fldOf e 33 1
    let len := fldOf e 35 2
    let sh := s.shares e
    let hot : Bool := (List.range len).any fun k => s.power.stopped.toList.getD (s.logical.getD (fldOf e 34 1 + k) 0 / 64) false
    match s.takePages 1 (createPages (8 * len)) with
    | none => s.complete r 6
    | some (s1, ks) => (s1.modPart p fun _ => { newPartition p (fldOf e 34 1) len sh.1 sh.2.1 sh.2.2 (ks.take 5) (ks.drop 5) hot with
        wireSlots := s.freeSlots sh.1 }).complete r 1)

/-- DESTROY_PARTITION (R42). -/
def execDestroyPartition (s : State) : Result State :=
  .next (s.withCommand (fun op => decide (op = 0x41)) (fun _ _ e => decide (63 < fldOf e 33 1))
    (fun s _ e => if !(s.part (fldOf e 33 1)).valid then 4 else if s.boundTo (fldOf e 33 1) ≠ [] then 5 else 0) fun s r e =>
      (destroyPart s (fldOf e 33 1)).complete r 1)

/-! ### Virtual functions (R43, R61, R334) -/

/-- A partition's worst-case save size (R61). -/
def worstSave (len nrec : Nat) : Nat := (851968 * 8 * len + 1024 * nrec + 65536 + 2097151) / 2097152 * 2097152

def bindBad (_ : State) (_ : CmdRef) (e : List Byte) : Bool :=
  decide (5 < fldOf e 36 1) || decide (2 < fldOf e 37 1) || decide (fldOf e 40 2 = 0) || fldOf e 46 2 != 0 || fldOf e 60 4 != 0

/-- The run of pages of a class 0 area (R61). -/
def State.areaPages (s : State) (P : Partition) : Option Nat := s.findPages (worstSave P.len P.nrec / 65536) s.pageFuel 0

def bindRest (s : State) (_ : CmdRef) (e : List Byte) : Nat :=
  let fn := fldOf e 34 2
  let p := fldOf e 33 1
  let P := s.part p
  let first := fldOf e 42 2
  let n := fldOf e 44 2
  if !P.valid ∨ P.recs.length < first + n ∨ fn = 0 ∨ s.fns.length ≤ fn then 4
  else if (s.bound? fn).isSome ∨ (s.boundTo p).any fun m => match s.bound? m with
      | some b => decide (b.first < first + n) && decide (first < b.first + b.count)
      | none => false
  then 5
  else if fldOf e 37 1 = 0 then (if (s.areaPages P).isNone then 6 else 0)
  else if (fldOf e 37 1 = 2 ∧ !s.cxl) ∨ 65536 * fldOf e 56 4 < worstSave P.len P.nrec then 6 else 0

/-- BIND_VF (R43, R61). -/
def execBindVf (s : State) : Result State :=
  .next (s.withCommand (fun op => decide (op = 0x42)) bindBad bindRest fun s r e =>
    let p := fldOf e 33 1
    let P := s.part p
    let n := worstSave P.len P.nrec / 65536
    let k := (s.areaPages P).getD 0
    let b : Binding := ⟨p, scopeOf (fldOf e 36 1), fldOf e 37 1, fldOf e 40 2, fldOf e 42 2, fldOf e 44 2,
      if fldOf e 37 1 = 0 then ⟨false, 65536 * k⟩ else ⟨true, fldOf e 48 8⟩, if fldOf e 37 1 = 0 then 65536 * n else 65536 * fldOf e 56 4⟩
    let s1 := if fldOf e 37 1 = 0 then { s with usedPages := (List.range n).map (k + ·) ++ s.usedPages }.zeroPages k n else s
    (s1.modFn (fldOf e 34 2) fun f => { f with bind := some b }).complete r 1)

/-- UNBIND_VF (R47, R334): a running launch of the function is held first. -/
def execUnbindVf (s : State) : Result State :=
  .next (s.withCommand (fun op => decide (op = 0x43)) noneBad (fun s _ e => if fldOf e 34 2 = 0 ∨ s.fns.length ≤ fldOf e 34 2 then 4 else 0) fun s r e =>
    let fn := fldOf e 34 2
    match s.bound? fn with
    | none => s.complete r 1
    | some b => if (s.part b.part).busyWith fn then s.stopAt b.part (.unbind fn) else (finishUnbind s fn).complete r 1)

/-! ### Attestation (R32) -/

/-- Bytes of flash. -/
def State.flashRead (s : State) (a n : Nat) : List Byte := s.flash.readRun a n

/-- The first 96 bytes of the running firmware image's header. -/
def State.runningHeader (s : State) : List Byte :=
  if s.boot.slot = 2 then (s.ctrl 0).sram.readRun 0 96 else s.flashRead (0x1000000 * s.boot.slot) 96

/-- The report of ATTEST (R32). -/
def State.report (s : State) (nonce : List Byte) : List Byte :=
  let h := leBytes 4 0x4F584154 ++ deviceIdentity ++ deviceKey ++ digest 64 s.runningHeader ++ leBytes 4 s.boot.slot ++ digest 64 (s.flashRead 0x2000000 65536) ++
    nonce ++ leBytes 8 s.ptime.toNat
  h ++ signDevice h

/-- ATTEST (R32). -/
def execAttest (s : State) : Result State :=
  .next (s.withCommand (fun op => decide (op = 0x45))
    (fun _ _ e => decide (fldOf e 40 8 % 8 ≠ 0) || decide (fldOf e 48 8 % 8 ≠ 0) || fldOf e 33 7 != 0 || fldOf e 56 8 != 0) noneRest fun s r e =>
      (s.physWrite ⟨true, fldOf e 48 8⟩ (s.report (s.physRead ⟨true, fldOf e 40 8⟩ 32))).complete r 1)

end Sys2Proof.Machine
end

