-- ==== Sys2Proof/Machine/Registers.lean ====
section
/-!
DEFINITION. What the host writes on the port (spec/02 R35, R45, R46, R49 to R53; spec/01 R25 to R27): BAR0 of every function, notifies and
queue slots, interrupt coalescing, and the recovery window with its mailbox.
-/

namespace Sys2Proof.Machine

/-! ### Notifies (R45, R46) -/

/-- The partition field of an event about a function's queue. -/
def State.eventPart (s : State) (fn : Nat) : Nat := ((s.bound? fn).map (·.part)).getD 0

/-- A queue's event, in function 0's ring and in the function's own (R50). -/
def State.queueEvent (s : State) (code fn q : Nat) (detail : List Byte) : State :=
  s.postEvent code fn q (s.eventPart fn) detail (if fn = 0 then [] else [fn])

/-- QUEUE_STOP (R46): HEAD and ENABLE := 0 go to the descriptor, where the command page may be reached. Where the command page register itself has
reserved bits set, the descriptor is left as it is (R46 does not say; DESIGN CHOICE, log entry 66). -/
def State.stopQueue (s : State) (fn q : Nat) (page : Bool) (case : Nat) : State :=
  let s1 := s.modQueue fn q fun Q => { Q with stopped := true }
  let f := s1.fn fn
  let s2 := if page then
      let b := leNat (s1.fnRead fn f.cpage (32 * q + 9) 1)
      (s1.fnWrite fn f.cpage (32 * q + 12) (leBytes 4 (f.queue q).head.toNat)).fnWrite fn f.cpage (32 * q + 9) (leBytes 1 (b / 2 * 2))
    else s1
  s2.queueEvent 0x81 fn q (leBytes 1 case)

/-- A queue descriptor is bad (R46). -/
def badDescriptor (fn : Nat) (d : List Byte) : Bool :=
  decide (fldOf d 8 1 < 4) || decide (16 < fldOf d 8 1) || baseReserved fn (BitVec.ofNat 64 (fldOf d 0 8)) || decide (1 < fldOf d 9 1) || fldOf d 10 2 != 0 ||
    fldOf d 16 16 != 0

/-- A restarted queue (R46): head and tail from the descriptor. -/
def Queue.restart (q : Queue) (h : BitVec 32) : Queue :=
  if q.stopped then { q with head := h, tail := h, taken := h, stopped := false, done := [], hold := none } else q

/-- NOTIFY of queue q with a tail, the reserved bits being clear (R46 cases 2 to 4). -/
def State.notifyQueue (s : State) (fn q : Nat) (tail : BitVec 32) : State :=
  let f := s.fn fn
  if baseReserved fn f.cpage then s.stopQueue fn q false 3
  else
    let d := s.fnRead fn f.cpage (32 * q) 32
    if !(fldOf d 9 1).testBit 0 then s
    else if badDescriptor fn d then s.stopQueue fn q true 2
    else
      let s1 := s.modQueue fn q fun Q =>
        { Q.restart (BitVec.ofNat 32 (fldOf d 12 4)) with ring := BitVec.ofNat 64 (fldOf d 0 8), log2 := fldOf d 8 1, known := true }
      let Q := (s1.fn fn).queue q
      let ahead := (tail - Q.tail).toNat
      if ahead = 0 ∨ 2 ^ 31 ≤ ahead then s1
      else if 2 ^ Q.log2 < (tail - Q.head).toNat then s1.stopQueue fn q true 1
      else (s1.modQueue fn q fun Q => { Q with tail := tail }).setPending fn q

/-- A write of `size` bytes to a notify register (R45, R46); a host notify is a management event (R320). -/
def notify (s0 : State) (fn : Nat) (v : Word) (size : Nat) : State :=
  let s := s0.wakeCtrls
  if size ≠ 8 ∨ v.extractLsb' 35 29 ≠ 0 then s.modFn fn fun f => { f with nerr := true }
  else s.notifyQueue fn (v.extractLsb' 32 3).toNat (v.setWidth 32)

/-- NOTIFY (R46): `arg.v` to the notify register of function `arg.fn`, in `arg.size` bytes. -/
def execNotify (s : State) : Result State := .next (if s.boot.recov then s else notify s s.arg.fn s.arg.v s.arg.size)

/-! ### Queue slots (R49, R50) -/

/-- The running launch of a queue's POST: its partition, and the launch. -/
def State.slotLaunch (s : State) (fn q : Nat) : Option (Nat × Launch) :=
  (s.bound? fn).bind fun b =>
    let P := s.part b.part
    P.launch.bind fun l => match (P.rcd l.rcd).postCmd with
      | some c => if c.fn = fn ∧ c.q = q then some (b.part, l) else none
      | none => none

/-- A launch may be pre-empted now (R49 rule 3, R50, R86). -/
def State.preemptible (s : State) (p : Nat) (l : Launch) : Bool :=
  let P := s.part p
  (decide (P.run = .running) || decide (P.run = .dispatching) || decide (P.run = .voting)) && !P.preempting && (s.runBinding p).isSome &&
    !(l.nonPre && decide (s.cycle < l.since + s.pfNpLimit * Config.usCycles))

def PendBit.key (b : PendBit) : Nat := 8 * b.fn + b.q

/-- A bit has been served by rule 3: the slot that it took passes over when the save of the launch in the way has released it (R49). -/
def State.awaits (s : State) (b : PendBit) : Bool := match b.via with
  | some (_, p) => (s.part p).saveSlot || (s.part p).stops.any fun x => decide (x.1 = .preempt 1)
  | none => false

/-- The bit the leader serves next: round-robin in increasing order, after the bit served last (R49). -/
def State.nextBit (s : State) : Option PendBit :=
  let bs := s.pendBits.filter fun b => !s.awaits b
  let least (bs : List PendBit) : Option PendBit := bs.foldl (fun m b => match m with
    | some x => if b.key < x.key then some b else some x
    | none => some b) none
  (least (bs.filter fun b => decide (s.lastServed < b.key))).or (least bs)

/-- A slot has been taken for a bit by rule 3 (R49). -/
def State.slotTaken (s : State) (k : Nat) : Bool := s.pendBits.any fun b => s.awaits b && decide (b.via.map (·.1) = some k)

/-- A free slot, or one whose queue is idle, that no bit has taken (R49 rules 1 and 2). -/
def State.slotFor (s : State) : Option Nat :=
  let os := s.qslots.toList
  let ks := (List.range os.length).filter fun k => !s.slotTaken k
  (ks.find? fun k => (os.getD k none).isNone).or (ks.find? fun k => match os.getD k none with
    | some (fn, q) => let Q := (s.fn fn).queue q; decide (Q.head = Q.tail) && (s.slotLaunch fn q).isNone
    | none => false)

/-- The slot that rule 3 yields, with the partition whose launch is in the way: of lowest priority, then the lowest slot (R49). -/
def State.slotVictim (s : State) : Option (Nat × Nat) :=
  let os := s.qslots.toList
  let xs := ((List.range os.length).filter fun k => !s.slotTaken k).filterMap fun k => (os.getD k none).bind fun x =>
    (s.slotLaunch x.1 x.2).bind fun y => if s.preemptible y.1 y.2 then some (k, y.1, y.2.prio) else none
  (xs.foldl (fun m x => match m with
    | some y => if x.2.2 < y.2.2 then some x else some y
    | none => some x) none).map fun x => (x.1, x.2.1)

/-- QUEUE_SLOT_ASSIGN (R49): the next bit is served with a slot of rules 1 and 2, or with one that passes over to it after a save. -/
def execQueueSlotAssign (s : State) : Result State :=
  .next (match s.nextBit with
  | none => s
  | some b => match s.slotFor with
    | some k => { s with qslots := Vector.ofFn fun i => if i.val = k then some (b.fn, b.q) else s.qslots[i],
                         pendBits := s.pendBits.filter fun x => x.key ≠ b.key, lastServed := b.key }
    | none => match s.slotVictim with
      | some v => State.requestPreempt { s with pendBits := s.pendBits.map fun x => { x with via := if x.key = b.key then some v else if s.awaits x then x.via else none }
                                                lastServed := b.key } v.2 1
      | none => s)

/-- QUEUE_STARVED (R50): the bit of queue `arg.q` of function `arg.fn`, set at `arg.v`, still waits. -/
def execQueueStarved (s : State) : Result State :=
  let mine (b : PendBit) : Bool := decide (b.fn = s.arg.fn) && decide (b.q = s.arg.q) && decide (b.since = s.arg.v) && !b.starved
  .next (if s.pendBits.any mine then
      State.queueEvent { s with pendBits := s.pendBits.map fun b => if mine b then { b with starved := true } else b } 0x26 s.arg.fn s.arg.q (leBytes 8 s.arg.v.toNat)
    else s)

/-! ### Interrupt coalescing (R52, R53) -/

/-- A write of VF_COAL or PF_COAL: a COUNT below the pending count sends at once (R53). -/
def coalesceWrite (s : State) (fn v : Nat) (x : BitVec 32) : State :=
  let s1 := s.modVec fn v fun c => { c with time := x.extractLsb' 8 16, count := x.setWidth 8 }
  let c := (s1.fn fn).vec v
  if c.limit < c.pend then s1.sendVec fn v else s1

/-- Vectors of a function (R52). -/
def vecCount (fn : Nat) : Nat := if fn = 0 then 16 else 9

/-- COALESCE_WRITE (R53): `arg.v` to the coalescing register of vector `arg.n` of function `arg.fn`. -/
def execCoalesceWrite (s : State) : Result State :=
  .next (if s.boot.recov ∨ vecCount s.arg.fn ≤ s.arg.n then s else coalesceWrite s s.arg.fn s.arg.n (s.arg.v.setWidth 32))
/-- COALESCE_COUNT_REACHED (R53) of vector `arg.n` of function `arg.fn`. -/
def execCoalesceCountReached (s : State) : Result State := .next (s.countTrigger s.arg.fn s.arg.n)
/-- COALESCE_TIME_EXPIRY (R53): the time in effect since `arg.op`, the first pending event, has passed, or is waited for. -/
def execCoalesceTimeExpiry (s : State) : Result State :=
  let c := (s.fn s.arg.fn).vec s.arg.n
  .next (if c.pend = 0 ∨ c.t0 ≠ s.arg.op ∨ c.active = 0 then s
    else if c.t0 + 180 * c.active.toNat ≤ s.ptime.toNat then s.sendVec s.arg.fn s.arg.n
    else s.coalesceTimer s.arg.fn s.arg.n c.t0 c.active)
/-- MSIX_UNMASK (R53): the mask bit of vector `arg.n` of function `arg.fn` is written with `arg.m`; a pending vector that it
unmasks sends exactly one message. In recovery mode nothing but the recovery window is reached (R25). -/
def execMsixUnmask (s : State) : Result State :=
  let c := (s.fn s.arg.fn).vec s.arg.n
  let s1 := s.modVec s.arg.fn s.arg.n fun c => { c with masked := false, pba := false }
  .next (if s.boot.recov then s
         else if s.arg.m = 1 then s.modVec s.arg.fn s.arg.n fun c => { c with masked := true }
         else if c.masked && c.pba then s1.sendVec s.arg.fn s.arg.n else s1)

/-! ### The mailbox (R26, R27) -/

/-- MBRDY (R26, R27). -/
def Boot.accepts (b : Boot) : Bool := b.recov && b.mbrdy && !b.busy

/-- GO, with LAST: a chunk of the length that LEN holds then is taken, or ERR is set (R27). -/
def mailboxGo (s : State) (last : Bool) : State :=
  let b := s.boot
  if !b.recov || (!b.mbrdy && !b.busy) then s
  else if b.busy || b.mblen = 0 || decide (2048 < b.mblen.toNat) then { s with boot := { b with err := true } }
  else if 2 ^ 20 < b.mboff.toNat + b.mblen.toNat then
    { s with boot := { b with err := true, imgFail := BitVec.ofNat 32 (0x0B * 2 ^ 24 + b.mboff.toNat) } }
  else State.scheduleFree { s with boot := { b with busy := true, mbrdy := false, last := last, chunk := b.mblen } } .chunk .mailboxChunkAppended { n := if last then 1 else 0 }

/-- MAILBOX_GO (R27). -/
def execMailboxGo (s : State) : Result State := .next (mailboxGo s false)
/-- MAILBOX_LAST (R27). -/
def execMailboxLast (s : State) : Result State := .next (mailboxGo s true)

/-- MAILBOX_CHUNK_APPENDED (R27): the chunk joins the receiving region, the first 1 MiB of die 0's SRAM; a last one is verified. -/
def execMailboxChunkAppended (s : State) : Result State :=
  let b := s.boot
  .next (if !b.busy then s
  else
    let s1 := s.modCtrl 0 fun c => { c with sram := c.sram.writeRun b.mboff.toNat (b.mbox.readRun 0 b.chunk.toNat) }
    let b1 := { b with mboff := b.mboff + b.chunk.setWidth 32 }
    if b.last then State.scheduleFree { s1 with boot := b1 } .verify .mailboxImageVerified {}
    else { s1 with boot := { b1 with busy := false, mbrdy := true } })

/-- MAILBOX_ABORT (R26): the image received so far is discarded. While BUSY is 1 the append or the verification under way goes on (DESIGN CHOICE, log
entry 63). -/
def mailboxAbort (s : State) : State := { s with boot := { s.boot with mboff := 0 } }

/-- MAILBOX_ABORT (R26). -/
def execMailboxAbort (s : State) : Result State := .next (if s.boot.recov then mailboxAbort s else s)

/-- The recovery window's registers, as 32-bit words (R26). -/
def Boot.read4 (b : Boot) (off : Nat) : Nat := match off with
  | 0x000 => b.stage.toNat * 2 ^ 24 + b.cause.toNat * 2 ^ 16 + (if b.mbrdy then 2 else 0) + if b.recov then 1 else 0
  | 0x004 => b.failA.toNat
  | 0x008 => b.failB.toNat
  | 0x00C => (if b.busy then 2 ^ 31 else 0) + if b.err then 2 ^ 30 else 0
  | 0x010 => b.mblen.toNat
  | 0x014 => b.mboff.toNat
  | 0x018 => b.imgFail.toNat
  | _ => if 0x800 ≤ off ∧ off < 0x1000 then leNat (b.mbox.readRun (off - 0x800) 4) else 0

/-- A 32-bit write to the recovery window (R26, R27, R35): inert after a normal boot. Of ABORT and GO in one write ABORT acts first (DESIGN
CHOICE, log entry 61: the manual gives no order). -/
def recoveryWrite (s : State) (off : Nat) (x : BitVec 32) : State :=
  let b := s.boot
  if !b.recov then s
  else if off = 0x00C then
    let s1 := if x.getLsbD 30 then { s with boot := { b with err := false } } else s
    let s2 := if x.getLsbD 3 then mailboxAbort s1 else s1
    if x.getLsbD 1 then mailboxGo s2 (x.getLsbD 2) else s2
  else if off = 0x010 then { s with boot := { b with mblen := x.setWidth 12 } }
  else if 0x800 ≤ off ∧ off < 0x1000 then
    if b.busy then { s with boot := { b with err := true } }
    else { s with boot := { b with mbox := b.mbox.writeRun (off - 0x800) (leBytes 4 x.toNat) } }
  else s

/-! ### BAR0 (R35, R45, R50, R52) -/

/-- A half of a 64-bit register written. -/
def setHalf (w : Word) (high : Bool) (x : BitVec 32) : Word :=
  if high then BitVec.ofNat 64 (x.toNat * 2 ^ 32 + w.toNat % 2 ^ 32) else BitVec.ofNat 64 (w.toNat / 2 ^ 32 * 2 ^ 32 + x.toNat)

def evtMask : Word := 0x01FFFFFFFFFFF000

/-- PF_EVTBASE or VF_EVTBASE, of which bit 63 is the lost flag (R50). -/
def Fn.evtWord (f : Fn) : Word := (f.evtBase &&& evtMask) ||| if f.evtLost then 0x8000000000000000 else 0

/-- A half of an event base written: the address is RW, the lost flag W1C (R50). R50 gives the fields of VF_EVTBASE alone: PF_EVTBASE has the same
ones here (DESIGN CHOICE, log entry 66). -/
def Fn.writeEvt (f : Fn) (high : Bool) (x : BitVec 32) : Fn :=
  { f with evtBase := setHalf f.evtBase high x &&& evtMask, evtLost := f.evtLost && !(high && x.getLsbD 31) }

/-- A write to an event head: dropped where it would place the head ahead of the tail (R50). -/
def Fn.writeHead (f : Fn) (x : BitVec 32) : Fn := if 2 ^ 31 ≤ (f.evtTail - x).toNat then f else { f with evtHead := x }

/-- A 32-bit write to BAR0 of a function outside its notify register. -/
def barWrite4 (s : State) (fn off : Nat) (x : BitVec 32) : State :=
  if s.boot.recov ∧ ¬ (fn = 0 ∧ off < 0x1000) then s
  else if fn = 0 then
    if off < 0x1000 then recoveryWrite s off x
    else if off = 0x1000 ∨ off = 0x1004 then s.modFn 0 fun f => { f with cpage := setHalf f.cpage (decide (off = 0x1004)) x }
    else if off = 0x1008 ∨ off = 0x100C then notify s 0 (x.setWidth 64) 4
    else if off = 0x1010 ∨ off = 0x1014 then s.modFn 0 fun f => f.writeEvt (decide (off = 0x1014)) x
    else if off = 0x1018 then (if 1 ≤ x.toNat ∧ x.toNat ≤ 1000000 then { s with pfStarve := x.toNat } else s)
    else if off = 0x101C then (if 1 ≤ x.toNat ∧ x.toNat ≤ 1000000 then { s with pfNpLimit := x.toNat } else s)
    else if off = 0x1020 then s.modFn 0 fun f => f.writeHead x
    else if 0x3000 ≤ off ∧ off < 0x3040 ∧ off % 4 = 0 then coalesceWrite s 0 ((off - 0x3000) / 4) x
    else if 0x10000 ≤ off ∧ off < 0x20000 then monWrite4 s (off - 0x10000) x
    else s
  else if off = 0x000 ∨ off = 0x004 then s.modFn fn fun f => { f with cpage := setHalf f.cpage (decide (off = 0x004)) x }
  else if off = 0x008 ∨ off = 0x00C then notify s fn (x.setWidth 64) 4
  else if off = 0x010 then s.modFn fn fun f => { f with nerr := f.nerr && !x.getLsbD 1 }
  else if off = 0x018 ∨ off = 0x01C then s.modFn fn fun f => f.writeEvt (decide (off = 0x01C)) x
  else if off = 0x020 then s.modFn fn fun f => f.writeHead x
  else if 0x100 ≤ off ∧ off < 0x124 ∧ off % 4 = 0 then coalesceWrite s fn ((off - 0x100) / 4) x
  else s

/-- The notify register of a function. -/
def notifyOff (fn : Nat) : Nat := if fn = 0 then 0x1008 else 0x008

/-- A host write to BAR0 (R35): one of 8 bytes is two words, the notify register apart, which takes 8 bytes alone (R45). One of 1 or 2 bytes
elsewhere is dropped (DESIGN CHOICE, log entry 61: the manual gives BAR0 no access sizes). -/
def barWrite (s : State) (fn off size : Nat) (v : Word) : State :=
  if notifyOff fn ≤ off ∧ off < notifyOff fn + 8 then
    (if s.boot.recov then s else notify s fn v (if off = notifyOff fn then size else 0))
  else if size = 8 then barWrite4 (barWrite4 s fn off (v.setWidth 32)) fn (off + 4) (v.extractLsb' 32 32)
  else if size = 4 then barWrite4 s fn off (v.setWidth 32) else s

/-- REGISTER_WRITE (R35): `arg.v` in `arg.size` bytes at offset `arg.off` of BAR0 of function `arg.fn`. -/
def execRegisterWrite (s : State) : Result State := .next (barWrite s s.arg.fn s.arg.off s.arg.size s.arg.v)

/-- VF_STATUS (R45). -/
def State.vfStatus (s : State) (fn : Nat) : Nat :=
  let f := s.fn fn
  ((List.range 8).filter fun q => (f.queue q).stopped).foldl (fun m q => m + 2 ^ (8 + q)) ((if f.nerr then 2 else 0) + if f.bind.isSome then 1 else 0)

/-- A 32-bit read of BAR0 of a function (R35, R38, R45, R50, R52, R183): it changes nothing. -/
def barRead4 (s : State) (fn off : Nat) : Nat :=
  let f := s.fn fn
  let half (w : Word) (k : Nat) : Nat := w.toNat / 2 ^ (32 * k) % 2 ^ 32
  let coal (v : Nat) : Nat := let c := f.vec v; c.time.toNat * 256 + c.count.toNat
  if s.boot.recov then (if fn = 0 ∧ off < 0x1000 then s.boot.read4 off else 0)
  else if fn = 0 then
    if off < 0x1000 then s.boot.read4 off
    else if off = 0x1000 ∨ off = 0x1004 then half f.cpage ((off - 0x1000) / 4)
    else if off = 0x1010 ∨ off = 0x1014 then half f.evtWord ((off - 0x1010) / 4)
    else if off = 0x1018 then s.pfStarve
    else if off = 0x101C then s.pfNpLimit
    else if off = 0x1020 then f.evtHead.toNat
    else if off = 0x1024 then f.evtTail.toNat
    else if 0x2000 ≤ off ∧ off < 0x2400 ∧ off % 8 = 0 then
      let P := s.part ((off - 0x2000) / 16)
      if off % 16 = 0 then (if P.valid then 2 ^ 31 + P.base else 0) else 0
    else if 0x2000 ≤ off ∧ off < 0x2400 ∧ off % 16 = 4 then (if (s.part ((off - 0x2000) / 16)).valid then (s.part ((off - 0x2000) / 16)).len else 0)
    else if 0x3000 ≤ off ∧ off < 0x3040 ∧ off % 4 = 0 then coal ((off - 0x3000) / 4)
    else if 0x4000 ≤ off ∧ off < 0x4200 ∧ off % 4 = 0 then
      let p := (off - 0x4000) / 8
      if (s.part p).valid then (Config.faultRingPage p).toNat * 65536 / 2 ^ (32 * (off / 4 % 2)) % 2 ^ 32 else 0
    else if 0x10000 ≤ off ∧ off < 0x20000 then monRead4 s (off - 0x10000)
    else 0
  else if off = 0x000 ∨ off = 0x004 then half f.cpage (off / 4)
  else if off = 0x010 then s.vfStatus fn
  else if off = 0x018 ∨ off = 0x01C then half f.evtWord ((off - 0x018) / 4)
  else if off = 0x020 then f.evtHead.toNat
  else if off = 0x024 then f.evtTail.toNat
  else if 0x100 ≤ off ∧ off < 0x124 ∧ off % 4 = 0 then coal ((off - 0x100) / 4)
  else 0

end Sys2Proof.Machine
end

