-- ==== Sys2Proof/Machine/Boot.lean ====
section
/-!
DEFINITION. Boot (spec/01 R21 to R30; spec/02 R36, R37): the boot ROM's stages, the checks of a firmware image, the configuration records,
the logical order of pods, and recovery mode.
-/

namespace Sys2Proof.Machine

/-! ### Firmware images (R22, R23, R24) -/

/-- The checks of a firmware image, read by `rd offset length`, of which `bad` names the first byte that cannot be read: the failure code and
the offset of the field or of the failing read, or (0x01, 0) (R23, R24). -/
def verifyImage (rd : Nat → Nat → List Byte) (bad : Nat → Nat → Option Nat) (minSec : BitVec 32) : Nat × Nat :=
  let f (i n : Nat) : Nat := leNat (rd i n)
  let get (i n : Nat) (next : Nat × Nat) : Nat × Nat := ((bad i n).map fun o => (0x02, o)).getD next
  let len := f 12 4
  let key := rd 32768 64
  get 0 4 <| if f 0 4 ≠ 0x4F584657 then (0x03, 0)
  else get 12 4 <| if len < 1 ∨ 16744448 < len then (0x04, 12)
  else get 32768 64 <| if digest 64 key ≠ fit 64 Config.rootKeyDigest then (0x05, 32768)
  else get 32768 len <| get 32 64 <| if digest 64 (rd 32768 len) ≠ rd 32 64 then (0x06, 32)
  else get 0 96 <| get 96 29792 <| if !Config.slhVerify key (rd 0 96) (rd 96 29792) then (0x07, 96)
  else if f 8 4 < minSec.toNat then (0x08, 8)
  else (0x01, 0)

/-- RCV_FAILA, RCV_FAILB and RCV_IMGFAIL's form of a failure (R26). -/
def failWord (c : Nat × Nat) : BitVec 32 := BitVec.ofNat 32 (c.1 * 2 ^ 24 + c.2)

/-- The first byte of a run of flash that cannot be read. -/
def State.flashFails (s : State) (a n : Nat) : Option Nat := s.flashBad.find? fun x => decide (a ≤ x) && decide (x < a + n)

/-- The checks of the image in a slot, under a minimum security version. -/
def State.verifySlot (s : State) (slot : Nat) (min : BitVec 32) : Nat × Nat :=
  verifyImage (fun i n => s.flashRead (0x1000000 * slot + i) n) (fun i n => (s.flashFails (0x1000000 * slot + i) n).map (· - 0x1000000 * slot)) min

/-- The manufacturing record, and a field record. -/
def State.mfgRecord (s : State) : List Byte := s.flashRead 0x2000000 65536
def State.fieldRecord (s : State) (b : Bool) : List Byte := s.flashRead (fieldBase b) 65536

/-- A record's failure code under a key (R24, R29): its signature, then the identity it names. -/
def recordCode (r key : List Byte) : Nat :=
  if !Config.slhVerify key (Config.recSigned r) (Config.recSignature r) then 0x09
  else if Config.recIdentity r ≠ deviceIdentity then 0x0A else 0x01

/-- The failure code of a field record: one that cannot be read is invalid (DEDUCED, log entry 9). -/
def State.fieldCode (s : State) (b : Bool) : Nat :=
  if (s.flashFails (fieldBase b) 65536).isSome then 0x0C else recordCode (s.fieldRecord b) deviceKey

/-- The minimum security version: the configuration record is read without trust, and counts 0 where it cannot be read (R23). -/
def State.minVersion (s : State) : BitVec 32 := if (s.flashFails 0x2000000 65536).isSome then 0 else Config.recMinSecurity s.mfgRecord

/-! ### The logical order (R36, R37) -/

/-- HilbertXY of R36: `n` rounds from the square of side s. -/
def hilbertGo : (n : Nat) → (x y t s : Nat) → Nat × Nat
  | 0, x, y, _, _ => (x, y)
  | n + 1, x, y, t, s =>
    let rx := t / 2 % 2
    let ry := (t + rx) % 2
    let q : Nat × Nat := if ry = 0 then (if rx = 1 then (s - 1 - y, s - 1 - x) else (y, x)) else (x, y)
    hilbertGo n (q.1 + s * rx) (q.2 + s * ry) (t / 4) (2 * s)

/-- The place (x, y) of position d on a die's curve. -/
def hilbertXY (d : Nat) : Nat × Nat := hilbertGo 3 0 0 d 1

/-- BUILD_LOGICAL_ORDER (R37): the healthy pods' physical numbers in logical order. -/
def logicalOrder (disabled : BitVec 256) : List Nat :=
  ((List.range 4).flatMap fun die => (List.range 64).map fun d => let q := hilbertXY d; 64 * die + 8 * q.2 + q.1).filter fun k => !disabled.getLsbD k

/-! ### The boot ROM (R23) -/

/-- What a package reset clears, and what it does not reach: flash, memories, the environment, and what the host has received. The power
controller keeps the limit that firmware has set and the steps that it withholds (the manual does not say; DESIGN CHOICE, log entry 54). -/
def State.resetCore (s : State) : State :=
  { State.reset with
    flash := s.flash, flashBad := s.flashBad, host := s.host, cxl := s.cxl, hbm := s.hbm, poison := s.poison, corrected := s.corrected, inputs := s.inputs, cycle := s.cycle
    msgs := s.msgs, power := s.power, fresh := s.fresh, opCtr := s.opCtr }

/-- Recovery mode is entered (R23, R25 to R27). -/
def State.recover (s : State) (cause : Byte) : State :=
  { s with boot := { s.boot with done := true, stage := 0xF0, cause := cause, recov := true, mbrdy := true } }

/-- The field record in force (R29): the valid one of higher generation, A on a tie. -/
def State.fieldChoice (s : State) (okA okB : Bool) : Option Bool :=
  if okA && okB then some (decide ((Config.fieldGeneration (s.fieldRecord false)).toNat < (Config.fieldGeneration (s.fieldRecord true)).toNat))
  else if okA then some false else if okB then some true else none

/-- The retirements of a field record. -/
def retiredOf (r : List Byte) (older : Bool) : Retired :=
  ⟨Config.fieldGeneration r, older, Config.fieldPages r, Config.fieldChannels r, Config.fieldRepairs r, Config.fieldRouters r, Config.fieldPorts r,
   Config.fieldSequencers r⟩

/-- A controller as firmware starts on it (R23). -/
def startCtrl (k cyc : Nat) : Ctrl :=
  { Ctrl.zero with th := { Thread.zero with task := .running, mode := .firmware, pc := Config.firmwareEntry k, readyAt := cyc + 1 } }

def leaseTerm : Nat := 8 * Config.msCycles
def leasePeriod : Nat := 2 * Config.msCycles
/-- Cycles in a day (R187, R188). -/
def dayCycles : Nat := 86400000 * Config.msCycles

/-- The steps of the package that recur from boot on (R16, R18, R20, R30, R116, R187). -/
def State.startPeriodic (s : State) : State :=
  (((((((s.schedule 4096 .qcntAdvance {}).schedule 1800 .powerMeasure {}).schedule 65536 .timingBeatSend {}).schedule leasePeriod .leaseRenewal {}).schedule dayCycles
    .hbmScrub {}).schedule 1800 .monitorPeriodicSample { n := 6 }).schedule Config.msCycles .monitorPeriodicSample { n := 7 })

/-- Stage 0x05: the manufacturing record is verified, and the valid field record of higher generation applied on top of it (R29). The SRAM repair
maps change no bit that the manual shows. -/
def State.applyRecords (s : State) : State :=
  let m := s.mfgRecord
  if (s.flashFails 0x2000000 65536).isSome ∨ recordCode m Config.manufacturingKey ≠ 0x01 then s.recover 0x02
  else
    let ca := s.fieldCode false
    let cb := s.fieldCode true
    let ret : Retired := match s.fieldChoice (decide (ca = 1)) (decide (cb = 1)) with
      | some b => retiredOf (s.fieldRecord b) (!b)
      | none => State.reset.retired
    let dis := Config.recDisabled m
    let ign (c : Nat) : Byte := if c = 1 then 0 else BitVec.ofNat 8 c
    let fix_ (ch : Nat) : BitVec 32 := ((ret.repairs.lookup ch).getD (Config.recRepair m ch)) &&& repairMask
    { s with
      boot := { s.boot with stage := 0x06, fieldFail := [ign ca, ign cb] }
      disabled := dis, minSecurity := Config.recMinSecurity m, retired := ret, logical := logicalOrder dis
      chans := Vector.ofFn fun ch => { Channel.zero with repair := fix_ ch.val } }

/-- Stage 0x06: firmware starts on all four controllers (log entry 9). -/
def State.startFirmware (s : State) : State :=
  let at_ := 0x1000000 * s.boot.slot
  let len := leNat (s.flashRead (at_ + 12) 4)
  { s with
    boot := { s.boot with stage := 0x07 }
    ctrls := Vector.ofFn fun d => startCtrl d.val s.cycle
    hbm := s.hbm.writeRun (65536 * Config.firmwarePage) (s.flashRead (at_ + 32768) len)
    usedPages := (List.range ((len + 65535) / 65536)).map (Config.firmwarePage + ·) }

/-! ### Training (R23, R344 to R349) -/

/-- A pattern test, the n-th: which data lanes pass, by the lanes that carry them, and which spares do (R345, R347). -/
def Channel.passList (c : Channel) (ch n : Nat) : List Bool :=
  (List.range 66).map fun l => c.laneOk ch n (if l < 64 then c.carrier l else l)

/-- The longest run of passing codes, the first of equal ones: its start and length (R349). -/
def eyeOf (bs : List Bool) : Nat × Nat :=
  (bs.zipIdx.foldl (fun (x : (Nat × Nat) × (Nat × Nat)) b =>
    let run : Nat × Nat := if b.1 then (if x.2.2 = 0 then b.2 else x.2.1, x.2.2 + 1) else (0, 0)
    (if x.1.2 < run.2 then run else x.1, run)) ((0, 0), (0, 0))).1

/-- Sweep and eye centre of one direction: the channel with its codes, the lanes that failed, and the results of the sweep's tests (R349). -/
def Channel.centre (c : Channel) (ch n : Nat) (write : Bool) : Channel × List Nat × List (List Bool) :=
  let at_ (k : Nat) : Channel := if write then { c with wr := Vector.replicate 66 (BitVec.ofNat 5 k) } else { c with rd := Vector.replicate 66 (BitVec.ofNat 5 k) }
  let ps := (List.range 32).map fun k => (at_ k).passList ch (n + k)
  let eyes := (List.range 66).map fun l => eyeOf (ps.map fun p => p.getD l false)
  let code (l : Nat) : BitVec 5 := let e := eyes.getD l (0, 0); BitVec.ofNat 5 (e.1 + (max e.2 1 - 1) / 2)
  (if write then { c with wr := Vector.ofFn fun l => code l.val } else { c with rd := Vector.ofFn fun l => code l.val },
   (List.range 66).filter (fun l => decide ((eyes.getD l (0, 0)).2 < 6)), ps)

/-- The repair word for the lanes that failed, or none where a spare is wanted that is not healthy (R349). -/
def repairWord (bad : List Nat) : Option (BitVec 32) :=
  match bad.filter (· < 64) with
  | [] => some 0
  | [a] => if bad.contains 64 then none else some (BitVec.ofNat 32 (0x80 + a))
  | [a, b] => if bad.contains 64 || bad.contains 65 then none else some (BitVec.ofNat 32 (0x80 + a + 0x100 * (0x80 + b)))
  | _ => none

/-- The number whose bits are a list's, bit 0 first. -/
def bitWord (bs : List Bool) : Nat := (bs.zipIdx.map fun b => if b.1 then 2 ^ b.2 else 0).sum

/-- The pass words of a test. -/
def Channel.withPass (c : Channel) (p : List Bool) : Channel :=
  { c with pass0 := BitVec.ofNat 64 (bitWord (p.take 64)), pass1 := BitVec.ofNat 2 (bitWord (p.drop 64)) }

/-- What the routine leaves at `m:`0x3_F800 of its controller: the pass words of the write sweep by code, then the masks of the lanes and spares that
failed in either sweep (R349). -/
def trainScratch (ps : List (List Bool)) (bad : List Nat) : List Byte :=
  let words (p : List Bool) : List Byte := leBytes 8 (bitWord (p.take 64)) ++ leBytes 8 (bitWord (p.drop 64))
  (ps.flatMap words) ++ words ((List.range 66).map fun l => bad.contains l)

/-- The training routine on channel ch, from the n-th test on: the channel, its status, and what is left in the scratch area (R349). -/
def Channel.trained (c : Channel) (ch n : Nat) : Channel × Nat × List Byte :=
  let r := Channel.centre { c with train := true } ch n false
  let w := r.1.centre ch (n + 32) true
  let bad := (List.range 66).filter fun l => r.2.1.contains l || w.2.1.contains l
  let scratch := trainScratch w.2.2 bad
  match repairWord bad with
  | none => (w.1.withPass (w.2.2.getLastD []), 1, scratch)
  | some x =>
    let d := { w.1 with repair := x }
    let p := d.passList ch (n + 64)
    (d.withPass p, if (p.take 64).all id then 0 else 2, scratch)

/-- The 64 KiB pages with a byte on a channel (R349; log entry 56). -/
def channelPages (ch : Nat) : List Nat :=
  (List.range Config.hbmPages).filter fun k => (List.range 2048).any fun u => decide (Config.channelOf (65536 * k + 32 * u) = ch)

/-- Channels that failed training are retired with their pages, in a new field record (R29, R349). -/
def State.retireChannels (s : State) (bad : List Nat) : State :=
  let r := s.retired
  let new := bad.filter fun ch => !r.channels.contains ch
  s.writeField { r with channels := r.channels ++ new, pages := r.pages ++ (new.flatMap channelPages).filter fun k => !r.pages.contains k
                        repairs := (bad.map fun ch => (ch, (s.chan ch).repair)) ++ r.repairs.filter fun x => !bad.contains x.1 }

/-- Stage 0x07: each die's controller trains its 64 channels, in increasing order (DESIGN CHOICE, log entry 48), and its scratch area holds what the last
one left; a channel that fails is retired before its TRAIN clears (R23, R349). -/
def State.trainChannels (s : State) : State :=
  let rs := (List.range 256).map fun ch => (s.chan ch).trained ch (s.fresh + 65 * ch)
  let got (ch : Nat) : Channel × Nat × List Byte := rs.getD ch (Channel.zero, 0, [])
  let bad := (List.range 256).filter fun ch => (got ch).2.1 ≠ 0
  let s1 : State := { s with fresh := s.fresh + 65 * 256, boot := { s.boot with stage := 0x08 }
                             chans := Vector.ofFn fun ch => { (got ch.val).1 with train := false }
                             ctrls := Vector.ofFn fun d => { s.ctrls[d] with sram := s.ctrls[d].sram.writeRun 0x3F800 (got (64 * d.val + 63)).2.2 } }
  if bad = [] then s1 else s1.retireChannels bad

/-- Stage 0x08 leaves every port at full width (log entry 48), and the part is ready: die 0 leads, and says so (R23, R29, R30, R50). -/
def State.bootReady (s : State) : State :=
  let s1 : State := { s with
    boot := { s.boot with done := true, stage := 0x09 }
    leader := 0, epoch := 1, leases := Vector.replicate 4 ⟨1, 0, s.ptime + BitVec.ofNat 64 leaseTerm⟩ }
  (s1.postEvent 0x80 0 0 0 (leBytes 1 0 ++ List.replicate 3 0 ++ leBytes 4 1 ++ s1.boot.fieldFail) []).startPeriodic

/-- The boot ROM runs the stage that STAGE shows (R23). -/
def State.bootStage (s : State) : State :=
  let next (n : Byte) : State := { s with boot := { s.boot with stage := n } }
  match s.boot.stage.toNat with
  | 0x01 => next 0x02
  | 0x02 => next 0x03
  | 0x03 =>
    let c := s.verifySlot 0 s.minVersion
    { s with boot := { s.boot with failA := failWord c, slot := 0, stage := if c.1 = 1 then 0x05 else 0x04 } }
  | 0x04 =>
    let c := s.verifySlot 1 s.minVersion
    let s1 : State := { s with boot := { s.boot with failB := failWord c, slot := 1, stage := 0x05 } }
    if c.1 = 1 then s1 else s1.recover 0x01
  | 0x05 => s.applyRecords
  | 0x06 => s.startFirmware
  | 0x07 => s.trainChannels
  | 0x08 => s.bootReady
  | _ => s

/-- PACKAGE_RESET (R23): the part is as at reset, at stage 0x01; while it boots (`arg.q` 1) it runs its next stage. -/
def execPackageReset (s : State) : Result State :=
  .next (if !s.boot.done && decide (s.arg.q = 1) then s.bootStage else s.resetCore)

/-- PCIE_HOT_RESET (R25): RCV_MBCTL, RCV_MBLEN and RCV_MBOFF return to their reset values. -/
def execPcieHotReset (s : State) : Result State :=
  .next { s with boot := { s.boot with busy := false, err := false, mblen := 0, mboff := 0, mbrdy := s.boot.mbrdy || (s.boot.recov && s.boot.busy) } }

/-- MAILBOX_IMAGE_VERIFIED (R27): the image runs from SRAM, or its failure is reported. -/
def execMailboxImageVerified (s : State) : Result State :=
  let b := s.boot
  .next (if !b.busy || !b.last then s
  else
    let c := verifyImage (fun i n => (s.ctrl 0).sram.readRun i n) (fun _ _ => none) s.minVersion
    if c.1 = 1 then
      { s.modCtrl 0 fun k => { startCtrl 4 s.cycle with sram := k.sram } with boot := { b with busy := false, mbrdy := false, image := true, slot := 2 } }
    else { s with boot := { b with busy := false, mbrdy := true, imgFail := failWord c, cause := 0x03, mboff := 0 } })

/-- POWER_LOSS (R29): nothing runs until a package reset, and HBM loses its contents; a field record that is being written holds the
bytes `arg.data`, and the other is as it was. The bytes `arg.nats` of flash can no longer be read (R24; log entry 8). -/
def execPowerLoss (s : State) : Result State :=
  .next { s with powered := false, hbm := [], poison := [], flashBad := s.arg.nats ++ s.flashBad
                 flash := if s.arg.data = [] then s.flash else s.flash.writeRun (fieldBase s.retired.older) s.arg.data }

end Sys2Proof.Machine
end

