-- ==== Sys2Proof/Machine/Links.lean ====
section
/-!
DEFINITION. Hinath and die-crossing ports and package time (spec/01 R11 to R16; spec/09 R191; spec/03 R69): flits and their CRC, replay,
retraining and LINK_FAIL, width changes, timing beats and slewing.
-/

namespace Sys2Proof.Machine

/-! ### Flits (R12) -/

/-- A flit's header (R12). -/
structure FlitHeader where
  cls : Nat
  part : Nat
  seq : BitVec 18
  len : Nat
  deriving DecidableEq, Repr

/-- The header of a flit, with whether its reserved bits are zero and its class and length stand (R12). -/
def headerOf (f : List Byte) : FlitHeader × Bool :=
  let w : Word := BitVec.ofNat 64 (fldOf f 0 8)
  (⟨(w.extractLsb' 5 3).toNat, (w.extractLsb' 8 6).toNat, w.extractLsb' 14 18, (w.extractLsb' 32 8).toNat⟩,
   w.extractLsb' 0 5 == 0 && w.extractLsb' 40 24 == 0 && decide ((w.extractLsb' 5 3).toNat ≤ 4) && decide ((w.extractLsb' 32 8).toNat ≤ 240))

/-- A flit is whole: its CRC is right and its header is legal (R12). -/
def flitGood (f : List Byte) : Bool := decide (f.length = 256) && decide ((crc64 (f.take 248)).toNat = fldOf f 248 8) && (headerOf f).2

/-- The payload of a flit: the bytes past its length are ignored (R12). -/
def payloadOf (f : List Byte) : List Byte := fit 240 ((f.drop 8).take (headerOf f).1.len)

/-! ### Failed links (R13, R29, R191) -/

/-- A link that a partition's superstep uses has failed: its event, or, after the superstep's decision, what is left for the next one (R185, R191). -/
def State.linkLost (s : State) (p k : Nat) : State :=
  if (s.part p).decision.isSome then s.modPart p fun P => { P with failedPorts := P.failedPorts ++ [k] } else partEvent s p .linkFail 1 (BitVec.ofNat 64 k)

/-- LINK_FAIL of a port (R13, R16, R29, R157, R191): firmware retires it, which changes routes. The partitions whose superstep uses it vote forced
wash. -/
def linkFail (s : State) (k : Nat) : State :=
  let users := (List.range s.parts.length).filter fun p => s.usesPort p k
  let s1 := s.modPort k fun p => { p with failed := true, proposed := none }
  let s2 := { s1 with retired := { s1.retired with ports := s1.retired.ports ++ [k] } }
  let s3 := s2.writeField s2.retired
  let s4 := if !s3.timing.keeper && decide (s3.timing.parent = k) then { s3 with timing := { s3.timing with skew := true } } else s3
  (users.filter fun p => (s.part p).launch.isSome && !(s.part p).still).foldl (fun s p => s.linkLost p k) s4.regenerateAll

/-- The lanes of a mask that are good. -/
def laneCount (m : BitVec 16) : Nat := ((List.range 16).filter fun i => m.getLsbD i).length

/-- The widest width that lanes allow (R11, R13). -/
def laneWidth (m : BitVec 16) : Nat := let n := laneCount m; if n = 16 then 16 else if 8 ≤ n then 8 else 4

/-- A request for a replay of the flit of a sequence number (R13): a flit of class 4, which names it (DESIGN CHOICE, log entry 7). -/
def replayRequest (seq : BitVec 18) : Waiting := ⟨4, 0, flitBytes 4 0 seq [], true⟩

/-- The flits that a port lacks are asked for, with no failed replay counted. -/
def Port.askAgain (p : Port) : Port :=
  { p with missing := p.missing.map fun x => (x.1, 0), queue := p.missing.foldl (fun q x => enqueueFlit q (replayRequest x.1)) p.queue }

/-- PORT_RETRAIN (R13) of port `arg.n`, whose lanes of the mask `arg.m` train: the widest width they allow, or LINK_FAIL. What the port lacks
is then asked for again. -/
def execPortRetrain (s : State) : Result State :=
  let k := s.arg.n
  let m : BitVec 16 := BitVec.ofNat 16 s.arg.m
  .next (if 40 ≤ k ∨ (s.port k).failed ∨ s.boot.recov then s
  else if laneCount m < 4 then linkFail (s.modPort k fun p => { p with missing := [], lanes := m }) k
  else s.modPort k fun p => { p with lanes := m, width := laneWidth m }.askAgain)

/-- LOSS_OF_A_PACKAGE (R69): the links `arg.nats` fall silent, and report LINK_FAIL in the end. -/
def execLossOfAPackage (s : State) : Result State :=
  .next (s.arg.nats.foldl (fun s k => s.scheduleFree .resume .portRetrain { n := k, m := 0 }) s)

/-! ### Package time (R16) -/

/-- The skew flag follows the bound. -/
def skewOf (bound : Nat) : Bool := decide (3 < bound)

/-- A timing beat from the parent's port: its counter and bound (R16); the largest difference seen is kept for SKEW (R173). -/
def timingBeat (s : State) (k : Nat) (v : Word) (b : Nat) : State :=
  if s.timing.keeper ∨ s.timing.parent ≠ k ∨ s.boot.recov then s
  else
    let d : Int := (s.ptime - (v + BitVec.ofNat 64 (Config.portDelay k))).toInt
    let bound := b + d.natAbs
    let s1 := { s with timing := { s.timing with slew := d, bound := bound, skew := skewOf bound, seen := max s.timing.seen d.natAbs } }
    if d = 0 then s1 else s1.schedule (s.timing.lastSlew + 1024 - s.cycle) .slewStep {}

/-- TIMING_BEAT (R16): the counter `arg.v` and the bound `arg.m` through port `arg.n`. -/
def execTimingBeat (s : State) : Result State := .next (timingBeat s s.arg.n s.arg.v s.arg.m)

/-- SLEW_STEP (R16): at most once in 1,024 cycles the counter advances by 2 in a cycle, or by 0, toward d = 0. -/
def execSlewStep (s : State) : Result State :=
  let t := s.timing
  .next (if t.slew = 0 ∨ (t.lastSlew ≠ 0 ∧ s.cycle < t.lastSlew + 1024) then s
  else
    let up := decide (t.slew < 0)
    let s1 := { s with ptime := if up then s.ptime + 1 else s.ptime - 1, timing := { t with slew := if up then t.slew + 1 else t.slew - 1, lastSlew := s.cycle } }
    if s1.timing.slew = 0 then s1 else s1.schedule 1024 .slewStep {})

/-- Firmware gives the package its place in the timing tree (R16): the timekeeper, or the child at a port, with its own children's ports. -/
def Timing.place (t : Timing) (keeper : Bool) (parent : Nat) (children : List Nat) : Timing :=
  if keeper then { t with keeper := true, bound := 0, slew := 0, skew := false, children := children }
  else { t with keeper := false, parent := parent, children := children }

/-- TIMING_BEAT_SEND (R16): a class 1 flit to every child in the timing tree, every 65,536 cycles. With `arg.q` 1 firmware builds the tree: the
package is the timekeeper when `arg.m` is 1, else the child at port `arg.n`, and has children at the ports `arg.nats` (log entry 8). -/
def execTimingBeatSend (s : State) : Result State :=
  if s.arg.q = 1 then .next { s with timing := s.timing.place (decide (s.arg.m = 1)) s.arg.n s.arg.nats } else
  let b := if s.timing.keeper then 0 else s.timing.bound
  .next (((if s.boot.recov then [] else s.timing.children).foldl (fun s k => s.sendFlit k 1 0 (leBytes 8 s.ptime.toNat ++ leBytes 8 b)) s).schedule 65536 .timingBeatSend {})

/-! ### Receiving (R12, R13) -/

/-- REPLAY_REQUEST of a sequence number: the flit is sent again from the store (R13), in its class's place (R14). -/
def State.replay (s : State) (k : Nat) (seq : BitVec 18) : State :=
  s.modPort k fun p => match p.store.find? fun f => decide ((headerOf f).1.seq = seq) with
    | some f => { p with queue := enqueueFlit p.queue ⟨(headerOf f).1.cls, (headerOf f).1.part, f, true⟩ }
    | none => p

/-- REPLAY_REQUEST (R13) of sequence number `arg.m` at port `arg.n`. -/
def execReplayRequest (s : State) : Result State := .next (s.replay s.arg.n (BitVec.ofNat 18 s.arg.m))

/-- The flits of an exchange datum from another package have come through a port: it goes on over what is left of its route, and lands in its slot; on
the way it holds its links as any datum does (R152, R154, R155; log entry 34). One whose route ends at no tile of the partition is lost. -/
def State.datumFrom (s : State) (k p : Nat) (x : Nat × Nat × Byte × List Byte) : State :=
  let P := s.part p
  let w : Word := BitVec.ofNat 64 x.1
  match (if !P.valid || P.launch.isNone then none else s.routeIn p k w) with
  | none => s
  | some (t, ls) =>
    let d : Datum := ⟨s.opCtr, t, x.2.1, (w.extractLsb' 2 2).toNat, x.2.2.1, fit 256 x.2.2.2, ls, false, [], 0⟩
    (s.newId.modPart p fun P => { P.fly d with inPorts := k :: P.inPorts }).schedule (P.exchS.getD 0 + 8 * x.2.1 - s.ptime.toNat) .datumLanded
      { p := p, t := t, op := d.op }

/-- The flits of a datum from another package that goes by its tags have come: it is on its way to its tile over the memory network, by no route
(R160; log entry 34). -/
def State.taggedFrom (s : State) (p : Nat) (x : Nat × Nat × Nat × Byte × List Byte) : State :=
  let P := s.part p
  if !P.valid || P.launch.isNone || decide (P.tiles.length ≤ x.1) then s
  else
    let d : Datum := ⟨s.opCtr, x.1, x.2.2.1, x.2.1 % 4, x.2.2.2.1, fit 256 x.2.2.2.2, [], false, [], 0⟩
    (s.newId.modPart p fun P => P.fly d).scheduleFree .transfer .datumLanded { p := p, t := x.1, op := d.op }

/-- A good flit is taken by its class (R12): a barrier message, a timing beat, an exchange datum of a tile of this package, in its slot (class 2) or by
its tags over the memory network (class 3, R160), or a link control request. Nothing else of the memory network of other packages reaches anything
here (log entry 34). -/
def State.takeFlit (s : State) (k : Nat) (f : List Byte) : State :=
  let h := (headerOf f).1
  let b := payloadOf f
  match h.cls with
  | 0 => s.takeBarrier k h.part (barrierOf b)
  | 1 => timingBeat s k (BitVec.ofNat 64 (fldOf b 0 8)) (fldOf b 8 8)
  | 2 => match Config.slotDatum (b.take h.len) with
    | some x => s.datumFrom k h.part x
    | none => s
  | 3 => match Config.tagDatum (b.take h.len) with
    | some x => s.taggedFrom h.part x
    | none => s
  | 4 => s.replay k h.seq
  | _ => s

/-- The sequence number of a flit that failed: its own where the port has asked for it, else that of the next one (R13; DESIGN CHOICE, log
entry 7). -/
def Port.failedSeq (p : Port) (f : List Byte) : BitVec 18 :=
  let q := (headerOf f).1.seq
  if p.missing.any fun x => decide (x.1 = q) then q else p.rxSeq

/-- A port after a good flit: it lacks it no more, and expects the one after the last new one. A request of class 4 has no number. -/
def Port.received (p : Port) (f : List Byte) : Port :=
  let h := (headerOf f).1
  if h.cls = 4 then p
  else if p.missing.any fun x => decide (x.1 = h.seq) then { p with missing := p.missing.filter fun x => x.1 ≠ h.seq }
  else { p with rxSeq := h.seq + 1 }

/-- A port after a flit that failed: a replay of it is asked for, and one more failed replay counted (R13). -/
def Port.missed (p : Port) (f : List Byte) : Port :=
  let q := p.failedSeq f
  let again := p.missing.any fun x => decide (x.1 = q)
  { p with missing := if again then p.missing.map fun x => if x.1 = q then (x.1, x.2 + 1) else x else p.missing ++ [(q, 0)]
           rxSeq := if again then p.rxSeq else p.rxSeq + 1, queue := enqueueFlit p.queue (replayRequest q) }

/-- FLIT_RECEIVED (R12, R13): port `arg.n` takes the 256 bytes `arg.data`, or asks for a replay; after four failed replays of one flit it
retrains. -/
def execFlitReceived (s : State) : Result State :=
  let k := s.arg.n
  let f := s.arg.data
  .next (if 40 ≤ k ∨ (s.port k).failed ∨ s.boot.recov then s
  else if flitGood f then (s.modPort k fun p => p.received f).takeFlit k f
  else
    let s1 := s.modPort k fun p => p.missed f
    if (s1.port k).missing.any fun x => decide (4 ≤ x.2) then s1.schedule 0 .portRetrain { n := k, m := (s.port k).lanes.toNat } else s1)

/-! ### Width changes (R15) -/

/-- An exchange may use a port's slots in the next 512 cycles. -/
def State.slotSoon (s : State) (k : Nat) : Bool :=
  (List.range s.parts.length).any fun p => s.mayUsePort p k && match (s.part p).exchS with
    | some S => decide (S ≤ s.ptime.toNat + 512) && !s.phaseOver p
    | none => false

/-- WIDTH_NARROW_PROPOSE (R15) at port `arg.n`, whose load has stayed low for `arg.m` cycles. The rule says only that a new width is proposed:
which one is the controller's, `arg.op` lanes, and half the present width where that names none (DESIGN CHOICE, log entry 61). A narrowing waits
for its two conditions; a widening needs lanes that are good, and has none. -/
def execWidthNarrowPropose (s : State) : Result State :=
  let k := s.arg.n
  let p := s.port k
  let w := if s.arg.op = 4 ∨ s.arg.op = 8 ∨ s.arg.op = 16 then s.arg.op else p.width / 2
  let narrow := decide (w < p.width)
  .next (if 40 ≤ k ∨ s.boot.recov ∨ p.failed ∨ p.proposed.isSome ∨ w < 4 ∨ w = p.width ∨ laneWidth p.lanes < w ∨
      (narrow ∧ (s.arg.m < 100 * Config.usCycles ∨ s.slotSoon k)) then s
  else (s.modPort k fun p => { p with proposed := some w, proposedAt := s.cycle }).schedule 16 .widthProposalLapse { n := k })

/-- A proposal stands, and is not yet accepted. -/
def Port.open (p : Port) (cyc : Nat) : Bool := p.proposed.isSome && decide (p.pausedUntil ≤ cyc)

/-- A width change begins (R15): this end stops sending for at most 360 cycles. -/
def State.changeWidth (s : State) (k : Nat) : State :=
  let n := 1 + Config.delay .release s.fresh % 360
  State.schedule { s.modPort k fun p => { p with pausedUntil := s.cycle + n } with fresh := s.fresh + 1 } n .widthChangeDone { n := k }

/-- WIDTH_PROPOSAL_ACCEPT (R15) at port `arg.n`: both ends stop sending. With `arg.q` 1 it is this port that accepts: the far end proposes `arg.op`
lanes, as far as no change of its own is under way and its lanes are good; else the proposal lapses there (log entry 61). -/
def execWidthProposalAccept (s : State) : Result State :=
  let k := s.arg.n
  let p := s.port k
  let w := s.arg.op
  .next (if s.boot.recov then s
    else if s.arg.q = 1 then
      (if 40 ≤ k ∨ p.failed ∨ p.proposed.isSome ∨ (w ≠ 4 ∧ w ≠ 8 ∧ w ≠ 16) ∨ laneWidth p.lanes < w then s
       else (s.modPort k fun p => { p with proposed := some w, proposedAt := s.cycle }).changeWidth k)
    else if p.open s.cycle && decide (s.cycle ≤ p.proposedAt + 16) then s.changeWidth k else s)

/-- WIDTH_PROPOSAL_LAPSE (R15) at port `arg.n`. -/
def execWidthProposalLapse (s : State) : Result State :=
  .next (s.modPort s.arg.n fun p => if p.open s.cycle && decide (p.proposedAt + 16 ≤ s.cycle) then { p with proposed := none } else p)

/-- WIDTH_CHANGE_DONE (R15) at port `arg.n`: the new width, where the port's lanes still allow it (R13). -/
def execWidthChangeDone (s : State) : Result State :=
  .next (s.modPort s.arg.n fun p => match p.proposed with
    | some w => { p with width := min w (laneWidth p.lanes), proposed := none }
    | none => p)

end Sys2Proof.Machine
end

