-- ==== Sys2Proof/Machine/Power.lean ====
section
/-!
DEFINITION. What the package does by itself (spec/01 R18 to R20, R30, R31; spec/02 R44; spec/05 R116; spec/09 R187, R188): power and heat,
periodic monitor samples, the lease of the leader, scrubbing and page retirement, the quiescence counter, and time slices.
-/

namespace Sys2Proof.Machine

/-! ### Power and heat (R18, R19) -/

/-- Firmware sets the limit, between 400 W and 1,600 W (R18). -/
def State.setPowerLimit (s : State) (w : Nat) : State := if 400 ≤ w ∧ w ≤ 1600 then { s with power := { s.power with limit := w } } else s

/-- POWER_MEASURE (R18), every 1,800 cycles: over the limit one more sixteenth of a pod's matrix and vector issue is withheld, else all of it
returns. With `arg.m` not 0 the package draws that many watts from now on, and nothing is measured yet; with `arg.q` 1 firmware sets the limit `arg.m`
(log entry 8). -/
def execPowerMeasure (s : State) : Result State :=
  if s.arg.q = 1 then .next (s.setPowerLimit s.arg.m)
  else if s.arg.m ≠ 0 then .next { s with power := { s.power with watts := s.arg.m } }
  else
  let w := s.power.watts
  let pod := Config.delay .release s.fresh % 256
  let over_ := decide (s.power.limit < w)
  .next (State.schedule { s with fresh := s.fresh + 1, power := { s.power with watts := w, withheld := if over_ then s.power.withheld ++ [pod] else [] } } 1800 .powerMeasure {})

/-- A die's temperature. -/
def State.setTemp (s : State) (d t : Nat) : State :=
  if h : d < 4 then { s with power := { s.power with temps := s.power.temps.set d t, throttled := s.power.throttled.set d (decide (105 ≤ t)) } } else s

/-- A partition has a pod on a die. -/
def State.onDie (s : State) (p d : Nat) : Bool := (s.part p).valid && (s.podsOf p).any fun k => decide (k / 64 = d)

/-- THERMAL_THROTTLE (R19): die `arg.n` at `arg.m` °C. -/
def execThermalThrottle (s : State) : Result State := .next (s.setTemp s.arg.n s.arg.m)

/-- THERMAL_STOP (R19) of die `arg.n` at `arg.m` °C: its partitions wash, and go into Thermal hold. -/
def execThermalStop (s : State) : Result State :=
  let d := s.arg.n
  .next (if h : d < 4 then
      if s.arg.m < 115 then s.setTemp d s.arg.m
      else
        let s1 := s.setTemp d s.arg.m
        let s2 := { s1 with power := { s1.power with stopped := s1.power.stopped.set d true } }
        (List.range s.parts.length).foldl (fun s p =>
          if s.onDie p d && !(s.part p).thermalHeld then (s.modPart p fun P => { P with thermalHeld := true }).forceWash p 2 else s) s2
    else s)

/-- A partition leaves Thermal hold once every die of its is below 100 °C (R19, R83, R88). -/
def State.coolPart (s : State) (p : Nat) : State :=
  let P := s.part p
  let cold : Bool := (s.podsOf p).all fun k => decide (s.power.temps.toList.getD (k / 64) 0 < 100)
  if P.thermalHeld && cold then
    let s1 := s.modPart p fun P => { P with thermalHeld := false }
    if P.run = .thermal then (s1.toRunning p).kickStops p else s1
  else s

/-- THERMAL_RESUME (R19): die `arg.n` has cooled to `arg.m` °C. -/
def execThermalResume (s : State) : Result State :=
  let d := s.arg.n
  .next (if h : d < 4 then
      if 100 ≤ s.arg.m then s.setTemp d s.arg.m
      else
        let s1 := s.setTemp d s.arg.m
        let s2 := { s1 with power := { s1.power with stopped := s1.power.stopped.set d false } }
        (List.range s.parts.length).foldl (fun s p => s.coolPart p) s2
    else s)

/-! ### Periodic samples (R20) -/

/-- MONITOR_PERIODIC_SAMPLE (R20): for `arg.n` 6 the width of every port that a partition's routes use, every 1,800 cycles; for 7 the temperature of
each of its dies, every millisecond. -/
def execMonitorPeriodicSample (s : State) : Result State :=
  let one (s : State) (p : Nat) : State :=
    let xs := if s.arg.n = 6 then ((List.range 40).filter fun k => s.routesUse p k).map fun k => (s.port k).width
      else ((List.range 4).filter fun d => s.onDie p d).map fun d => s.power.temps.toList.getD d 0
    s.modPart p fun P => xs.foldl (fun P v => P.sample s.arg.n v) P
  let s1 := ((List.range s.parts.length).filter fun p => (s.part p).valid).foldl one s
  .next (if s.arg.n = 6 then s1.schedule 1800 .monitorPeriodicSample { n := 6 }
    else if s.arg.n = 7 then s1.schedule Config.msCycles .monitorPeriodicSample { n := 7 } else s)

/-! ### The lease (R30, R31) -/

/-- Every lease cell written for a holder (R30). -/
def State.writeLeases (s : State) (epoch : BitVec 32) (holder : BitVec 2) : State :=
  (List.range 4).foldl (fun s d => s.setLease d ⟨epoch, holder, s.ptime + BitVec.ofNat 64 leaseTerm⟩) s

/-- LEASE_RENEWAL (R30): every 2 ms, while the leader's controller runs. The renewal time is a management event (R320). -/
def execLeaseRenewal (s : State) : Result State :=
  let s1 := s.wakeCtrls
  .next (if s.leaderLive then (s1.writeLeases s.epoch (BitVec.ofNat 2 s.leader)).schedule leasePeriod .leaseRenewal {} else s1)

/-- The cells' highest epoch and latest expiry. -/
def State.topEpoch (s : State) : BitVec 32 := s.leases.toList.foldl (fun m l => if m < l.epoch then l.epoch else m) 0
def State.leaseEnd (s : State) : Nat := s.leases.toList.foldl (fun m l => max m l.expiry.toNat) 0

/-- Die d's controller may try to take the lease (R30). -/
def State.mayTakeLease (s : State) (d : Nat) : Bool :=
  decide ((s.ctrl d).th.task ≠ .absent) && !s.boot.recov && !s.leaderLive && decide (s.leaseEnd + (d + 1) * (Config.msCycles / 2) ≤ s.ptime.toNat)

/-- A queue whose accepted commands that have not completed are to be taken again from the first on (R31). -/
def Queue.rewind (q : Queue) : Queue := ({ q with taken := q.head, hold := none } : Queue).skipDone q.done.length

/-- A partition without what the old leader's commands had begun in it: operations that wait for a fix, writes that wait to be seen, stops, and
a sheet that is being written. Launches go on (R31). -/
def Partition.dropHost (P : Partition) : Partition :=
  { P with reqs := P.reqs.filter fun r => r.cmd.isNone, outs := [], sheet := none
           stops := P.stops.filter fun x => match x.1 with | .quiesce _ | .unbind _ => false | _ => true }

/-- A new leader runs again, from its start, every command that was accepted and has not completed (R31, R59). -/
def State.redoCommands (s : State) : State :=
  let s1 : State := { s with fns := s.fns.map fun f => { f with queues := f.queues.map Queue.rewind }, parts := s.parts.map Partition.dropHost }
  (List.range s1.fns.length).foldl (fun s fn => (List.range 8).foldl (fun s q => s.setPending fn q) s) s1

/-- LEASE_TAKEOVER_ATTEMPT (R30, R31, R50) by die `arg.n`: it holds the lease when at least three cells take its new epoch. -/
def execLeaseTakeoverAttempt (s : State) : Result State :=
  let d := s.arg.n
  let e := s.topEpoch + 1
  .next (if d < 4 ∧ s.mayTakeLease d then
      let s1 := s.writeLeases e (BitVec.ofNat 2 d)
      if 3 ≤ ((List.range 4).filter fun k => decide ((s1.lease k).epoch = e)).length then
        ((State.schedule { s1 with leader := d, epoch := e } leasePeriod .leaseRenewal {}).postEvent 0x80 0 0 0
          (leBytes 1 d ++ List.replicate 3 0 ++ leBytes 4 e.toNat ++ s.boot.fieldFail) []).redoCommands
      else s1
    else s)

/-! ### Scrubbing and page retirement (R187, R188) -/

/-- Corrected errors of pages are counted for a day (R188). -/
def State.noteCorrected (s : State) (pages : List Nat) : State :=
  { s with corrected := (s.corrected.filter fun x => decide (s.cycle ≤ x.2 + dayCycles)) ++ pages.map fun k => (k, s.cycle) }

/-- A tile event of a tile that is in a superstep that is not yet decided. -/
def State.eccEvent (s : State) (p t : Nat) (cause : Cause) (vote : BitVec 2) (detail : Word) (phys : Nat) : State :=
  let P := s.part p
  if P.valid ∧ P.launch.isSome ∧ P.inSpan t ∧ t < P.tiles.length ∧ P.decision.isNone then tileEvent s p t cause vote detail phys else s

/-- The sheets that are being written and whose bytes cannot be corrected end (R58). -/
def State.sheetErrors (s : State) : State :=
  (List.range s.parts.length).foldl (fun s p => if (s.part p).sheet.isSome && s.sheetPoison p then s.failSheet p else s) s

/-- An error that a code finds (R187, R189, R190; log entry 8), by `arg.q`. 1: the 32-byte unit `arg.n` of HBM is uncorrectable, or, with `arg.m` 1, its retry
reads correct data. 2: an error of page `arg.n` is corrected. 3: an error in the memories of tile `arg.t` of partition `arg.p` is. 4: parity of
that tile's structure `arg.n`. 5: its latent data at `arg.v` are uncorrectable. 6: its committed data are, which a sheet that is being written reads too
(R58). 7: its code line buffer is, in the line at `arg.v`. -/
def State.eccError (s : State) : State :=
  let a := s.arg
  match a.q with
  | 1 => if a.m = 1 then s.noteCorrected [a.n / 2048] else ({ s with poison := a.n :: s.poison.filter (· ≠ a.n) } : State).sheetErrors
  | 2 => s.noteCorrected [a.n]
  | 3 => s.modPart a.p fun P => { P with tileErrs := P.tileErrs + 1 }
  | 4 => s.eccEvent a.p a.t .parity 1 (BitVec.ofNat 64 (a.n % 256)) 0
  | 5 => s.eccEvent a.p a.t .eccUncorr 1 (eccWord 0 ⟨false, a.v.toNat % 2 ^ 62⟩) (a.v.toNat % 2 ^ 62)
  | 6 => (s.eccEvent a.p a.t .eccUncorr 2 (eccWord 1 ⟨false, a.v.toNat % 2 ^ 62⟩) (a.v.toNat % 2 ^ 62)).failSheet a.p
  | 7 => s.eccEvent a.p a.t .eccUncorr 1 (eccWord 3 ⟨false, a.v.toNat % 2 ^ 62⟩) (a.v.toNat % 2 ^ 62)
  | _ => s

/-- HBM_SCRUB (R187): every row once in 24 hours; `arg.nats` are the pages on which it corrected errors. With `arg.q` from 1 on it is an error that
an access or another memory's code finds. -/
def execHbmScrub (s : State) : Result State :=
  .next (if s.arg.q = 0 then (s.noteCorrected s.arg.nats).schedule dayCycles .hbmScrub {} else s.eccError)

/-- The partitions that map a page of HBM. -/
def State.ownersOf (s : State) (k : Nat) : List Nat :=
  (List.range s.parts.length).filter fun p => (s.part p).valid && ((s.part p).trans.any fun e => !e.loc.host && decide (e.loc.addr ≤ 65536 * k) &&
    decide (65536 * k < e.loc.addr + 65536 * e.size))

/-- Page k shows 16 corrected errors in the last 24 hours (R188). -/
def State.worn (s : State) (k : Nat) : Bool :=
  decide (16 ≤ (s.corrected.filter fun x => decide (x.1 = k) && decide (s.cycle ≤ x.2 + dayCycles)).length) && !s.retired.pages.contains k

/-- Firmware retires routers, ports and ring sequencers in service: a new field record names them, and routes go around them (R29, R157). -/
def State.retireFabric (s : State) (routers ports seqs : List Nat) : State :=
  let r := s.retired
  let add (old new : List Nat) : List Nat := old ++ new.filter fun k => !old.contains k
  let r' := { r with routers := add r.routers routers, ports := add r.ports ports, sequencers := add r.sequencers seqs }
  ({ s with retired := r' }.writeField r').regenerateAll

/-- The routers, ports and sequencers of a die. -/
def dieFabric (d : Nat) : List Nat × List Nat × List Nat :=
  ((List.range 64).map (64 * d + ·), (List.range 8).map (8 * d + ·) ++ [32 + 2 * d, 33 + 2 * d], (List.range 8).map (8 * d + ·) ++ [32 + 2 * d, 33 + 2 * d])

/-- PAGE_RETIRE (R188) of page `arg.n`, for every partition that maps it: at the next fix point of the first of them that has a superstep under way, or
at once. By `arg.q` firmware retires something else (R29, R157; log entry 46): 1 router `arg.n`, 2 the ring sequencer of port `arg.n`, 3 die `arg.n`. -/
def execPageRetire (s : State) : Result State :=
  let k := s.arg.n
  let ps := s.ownersOf k
  .next (if s.arg.q = 1 then (if k < 256 then s.retireFabric [k] [] [] else s)
    else if s.arg.q = 2 then (if k < 40 then s.retireFabric [] [] [k] else s)
    else if s.arg.q = 3 then (if k < 4 then s.retireFabric (dieFabric k).1 (dieFabric k).2.1 (dieFabric k).2.2 else s)
    else if !s.worn k then s
    else if ps = [] then s.writeField { s.retired with pages := s.retired.pages ++ [k] }
    else match ps.find? fun p => !(s.part p).still with
      | none => retirePage s k
      | some p => s.modPart p fun P => { P with retiring := P.retiring ++ [k] })

/-- A page to retire: worn, not waiting for a fix, and with a healthy page to take its place where one is needed (R188). -/
def State.wornPage (s : State) : Option Nat :=
  (s.corrected.find? fun x => s.worn x.1 && !(s.parts.any fun P => P.retiring.contains x.1) && (decide (s.ownersOf x.1 = []) || (s.takePages 1 1).isSome)).map (·.1)

/-! ### The quiescence counter (R116) -/

/-- A thread waits for memory since before the previous advance. -/
def Thread.oldAccess (t : Thread) (since : Nat) : Bool := match t.wait with
  | .result .. | .mload .. | .chan .. | .pass .. => decide (t.waitFrom ≤ since)
  | _ => false

/-- A line fetch that began before the previous advance. -/
def Due.oldFetch (d : Due) (since : Nat) : Bool := match d.ev with
  | .lineArrival => decide (d.arg.op ≤ since)
  | _ => false

/-- Every access and extent that existed at the previous advance has ended: an extent when it is in no table, an access when it has completed at
its memory. -/
def State.quiesced (s : State) : Bool :=
  !(s.parts.any fun P => (P.wb.any fun w => decide (w.id < s.qOp)) || (P.drains.any fun c => decide (c ≤ s.qLast)) || (P.seed.any fun x => x.2.any fun e => decide (e.born ≤ s.qLast)) || P.tiles.any fun T =>
      (T.ext.any fun e => decide (e.born ≤ s.qLast)) || (T.spare.any fun e => decide (e.born ≤ s.qLast)) || T.threads.any fun t => t.oldAccess s.qLast) &&
    !(s.ctrls.toList.any fun c => c.th.oldAccess s.qLast) && !(s.agenda.any fun d => d.oldFetch s.qLast) && !(s.ops.any fun o => o.live && decide (o.id < s.qOp))

/-- QCNT_ADVANCE (R116): tried every 4,096 cycles. -/
def execQcntAdvance (s : State) : Result State :=
  .next ((if s.quiesced then State.releaseQuarantine { s with qcnt := s.qcnt + 1, qLast := s.cycle, qOp := s.opCtr } else s).schedule 4096 .qcntAdvance {})

/-! ### Time slices (R44) -/

/-- The running function's quantum of 10 µs units has elapsed, and another has work (R44). -/
def State.sliceDue (s : State) (p : Nat) : Option Nat :=
  let P := s.part p
  P.launch.bind fun l => (s.areaOf p l.fn).bind fun b =>
    if s.preemptible p l && decide (P.sliceFrom + 10 * b.quantum * Config.usCycles ≤ s.cycle) then s.nextFn p l.fn else none

/-- QUANTUM_EXPIRY (R44) of partition `arg.p`. -/
def execQuantumExpiry (s : State) : Result State :=
  .next (match s.sliceDue s.arg.p with
    | some f => s.requestPreempt s.arg.p (2 + f)
    | none => s)

end Sys2Proof.Machine
end

