-- ==== Sys2Proof/Machine/Auto.lean ====
section
/-!
DEFINITION. Which step of the package happens because its condition holds, and not at a time set before: the first one in the order given
here (log entry 17).
-/

namespace Sys2Proof.Machine

/-- The first element of a list for which something is found to do. -/
abbrev Doing := Option (Instr × Arg)

/-- A wait of a partition's threads that is over (R93). -/
def State.autoWait (s : State) (p : Nat) : Doing :=
  let P := s.part p
  (List.range P.tiles.length).findSome? fun t => (List.range (P.tile t).threads.length).findSome? fun i =>
    if ((P.tile t).thread i).task = .running ∧ ((P.tile t).thread i).wait ≠ .ready ∧ s.waitMet (.tile p t) i then
      some (Instr.blockingWaitDone, ({ agent := .tile p t, th := i } : Arg)) else none

/-- The exchange: a barrier to raise, a transfer by tag that may be taken, or what is left at the end of the phase (R148, R160). -/
def State.autoExchange (s : State) (p : Nat) : Doing :=
  let P := s.part p
  ((P.spanTiles.find? fun t => (P.tile t).atBarrier && !(P.tile t).barrier).map fun t => (Instr.exchangeBarrier, ({ p := p, t := t } : Arg))).or <|
    (if s.exchangeDue p then P.spanTiles.head?.map fun t => (Instr.exchangeBarrier, ({ p := p, t := t } : Arg)) else none).or <|
    if !P.byTag || P.exchS.isNone then none
    else
      let over_ := s.phaseOver p
      ((s.ops.find? fun o => o.live && o.ofPart p && (match o.agent, o.kind with
        | .tile _ t, .xsel k q _ => (P.tile t).released && (over_ || (P.tile t).landed.any fun d => decide (d.slot = k) && decide (d.port = q) && !d.lost)
        | _, _ => false)).map fun o => (Instr.xselSlot, ({ p := p, op := o.id } : Arg))).or <|
        if over_ then (P.spanTiles.findSome? fun t => (P.tile t).landed.head?).map fun d => (Instr.datumLanded, ({ p := p, op := d.op } : Arg)) else none

/-- Reductions: a tile that may stream, or a region that is due (R167, R168). -/
def State.autoReduce (s : State) (p : Nat) : Doing :=
  let P := s.part p
  if P.spanTiles.all fun t => (P.tile t).contribs.isEmpty then none
  else ((P.spanTiles.find? fun t => s.mayStream p t).or (if P.reducing = [] ∧ s.regionsDue p ≠ [] then P.spanTiles.head? else none)).map
    fun t => (Instr.reductionStream, ({ p := p, t := t } : Arg))

/-- A pod whose arbiter may start a command (R112). -/
def State.autoMatrix (s : State) (p : Nat) : Doing :=
  ((List.range (s.part p).len).find? fun k => (s.arbiter p k).isSome).map fun k => (Instr.matrixCommandChosen, ({ p := p, n := k } : Arg))

/-- The scheduler's steps of a partition (R44, R79 to R89, R151). -/
def State.autoSched (s : State) (p : Nat) : Doing :=
  let P := s.part p
  let it (b : Bool) (ev : Instr) : Doing := if b then some (ev, { p := p }) else none
  ((P.spanTiles.find? fun t => s.mayVote p t).map fun t => (Instr.tileVote, ({ p := p, t := t } : Arg))).or <|
    (it (s.mayDecide p) .barrierCombine).or <| (it (s.thirdWash p) .washLimitHalt).or <|
    (it (P.decision.isSome && decide (P.flipAt ≤ s.ptime.toNat) && !P.haltWaits) .flip).or <| (it (s.dogDue p) .watchdog).or <|
    (it (decide (256 ≤ P.sinceLate) && decide (P.lead ≠ P.baseLead)) .leadReset).or <| (it (P.dispatches && !s.seedHeld p) .dispatch).or <|
    it (s.sliceDue p).isSome .quantumExpiry

/-- What a partition may do. -/
def State.autoPart (s : State) (p : Nat) : Doing :=
  let P := s.part p
  if !P.valid then none
  else (if P.issues then (s.autoWait p).or <| (s.autoExchange p).or <| (s.autoReduce p).or (s.autoMatrix p) else none).or (s.autoSched p)

/-- The row of a command, by its opcode and, for QUIESCE, its mode (R47, R55). -/
def commandRow (e : List Byte) : Instr := match fldOf e 0 1 with
  | 0x01 => .writeRecord
  | 0x02 => .patch
  | 0x03 => .arm
  | 0x04 => .post
  | 0x05 => .signalWait
  | 0x06 => .signal
  | 0x07 => .map
  | 0x08 => .unmap
  | 0x09 => .copyIn
  | 0x0A => .copyOut
  | 0x40 => .createPartition
  | 0x41 => .destroyPartition
  | 0x42 => .bindVf
  | 0x43 => .unbindVf
  | 0x44 => (match fldOf e 34 1 with
    | 1 => .quiesceSheet
    | 2 => .quiesceRelease
    | 3 => .quiesceRestore
    | _ => .quiesceHold)
  | 0x45 => .attest
  | _ => .nop

/-- What the leader may do for the host: a command to take, a wait that is over, a slot to give (R46, R49, R338). -/
def State.autoHost (s : State) : Doing :=
  (s.queuesOn.findSome? fun x =>
    let Q := (s.fn x.1).queue x.2
    if !Q.known then none
    else
      let r : CmdRef := ⟨x.1, x.2, Q.taken.toNat⟩
      let arg (i : Nat) : Arg := { fn := x.1, q := x.2, idx := i }
      if s.mayTake r && !s.copyTrains r then some (commandRow (s.entry r), arg r.idx)
      else none).or <|
    (s.waitQueues.findSome? fun x =>
      let Q := (s.fn x.1).queue x.2
      Q.hold.bind fun h => if Q.head = h ∧ (Q.met ∨ s.waitOver ⟨x.1, x.2, h.toNat⟩) then
        some (Instr.signalWaitPoll, ({ fn := x.1, q := x.2, idx := h.toNat } : Arg)) else none).or <|
    if s.nextBit.isSome ∧ s.leaderLive ∧ (s.slotFor.isSome ∨ s.slotVictim.isSome) then some (.queueSlotAssign, {}) else none

/-- Waits of the controllers, and a lease to take (R30, R93). -/
def State.autoCtrl (s : State) : Doing :=
  ((List.range 4).find? fun d => decide ((s.ctrl d).th.wait ≠ .ready) && s.waitMet (.ctrl d) 0).map (fun d => (Instr.blockingWaitDone, ({ agent := .ctrl d } : Arg))) |>.or <|
    ((List.range 4).find? fun d => s.mayTakeLease d).map fun d => (Instr.leaseTakeoverAttempt, ({ n := d } : Arg))

/-- A worn page to retire (R188). -/
def State.autoRetire (s : State) : Doing := s.wornPage.map fun k => (Instr.pageRetire, ({ n := k } : Arg))

/-- The next step of the package whose condition holds. -/
def State.autoEvent (s : State) : Doing :=
  ((List.range s.parts.length).findSome? fun p => s.autoPart p).or <| s.autoHost.or <| s.autoCtrl.or s.autoRetire

end Sys2Proof.Machine
end

