-- ==== Sys2Proof/Machine/Dispatch.lean ====
section
/-!
DEFINITION. The meaning of each instruction: one arm per constructor of `Instr`, each one call of that instruction's meaning.
-/

namespace Sys2Proof.Machine

def exec (i : Instr) (s : State) : Host.Outcome State Fault Refusal :=
  match i with
  | .nopInstruction => Sys2Proof.Machine.execNopInstruction s
  | .yield => Sys2Proof.Machine.execYield s
  | .tsync => Sys2Proof.Machine.execTsync s
  | .addReg d a b => Sys2Proof.Machine.execAddReg d a b s
  | .addImm d a imm => Sys2Proof.Machine.execAddImm d a imm s
  | .subReg d a b => Sys2Proof.Machine.execSubReg d a b s
  | .subImm d a imm => Sys2Proof.Machine.execSubImm d a imm s
  | .andReg d a b => Sys2Proof.Machine.execAndReg d a b s
  | .andImm d a imm => Sys2Proof.Machine.execAndImm d a imm s
  | .orReg d a b => Sys2Proof.Machine.execOrReg d a b s
  | .orImm d a imm => Sys2Proof.Machine.execOrImm d a imm s
  | .xorReg d a b => Sys2Proof.Machine.execXorReg d a b s
  | .xorImm d a imm => Sys2Proof.Machine.execXorImm d a imm s
  | .shlReg d a b => Sys2Proof.Machine.execShlReg d a b s
  | .shlImm d a imm => Sys2Proof.Machine.execShlImm d a imm s
  | .shrReg d a b => Sys2Proof.Machine.execShrReg d a b s
  | .shrImm d a imm => Sys2Proof.Machine.execShrImm d a imm s
  | .sraReg d a b => Sys2Proof.Machine.execSraReg d a b s
  | .sraImm d a imm => Sys2Proof.Machine.execSraImm d a imm s
  | .mulReg d a b => Sys2Proof.Machine.execMulReg d a b s
  | .mulImm d a imm => Sys2Proof.Machine.execMulImm d a imm s
  | .mulhReg d a b => Sys2Proof.Machine.execMulhReg d a b s
  | .mulhImm d a imm => Sys2Proof.Machine.execMulhImm d a imm s
  | .mulhuReg d a b => Sys2Proof.Machine.execMulhuReg d a b s
  | .mulhuImm d a imm => Sys2Proof.Machine.execMulhuImm d a imm s
  | .divReg d a b => Sys2Proof.Machine.execDivReg d a b s
  | .divImm d a imm => Sys2Proof.Machine.execDivImm d a imm s
  | .divuReg d a b => Sys2Proof.Machine.execDivuReg d a b s
  | .divuImm d a imm => Sys2Proof.Machine.execDivuImm d a imm s
  | .remReg d a b => Sys2Proof.Machine.execRemReg d a b s
  | .remImm d a imm => Sys2Proof.Machine.execRemImm d a imm s
  | .remuReg d a b => Sys2Proof.Machine.execRemuReg d a b s
  | .remuImm d a imm => Sys2Proof.Machine.execRemuImm d a imm s
  | .minReg d a b => Sys2Proof.Machine.execMinReg d a b s
  | .minImm d a imm => Sys2Proof.Machine.execMinImm d a imm s
  | .maxReg d a b => Sys2Proof.Machine.execMaxReg d a b s
  | .maxImm d a imm => Sys2Proof.Machine.execMaxImm d a imm s
  | .minuReg d a b => Sys2Proof.Machine.execMinuReg d a b s
  | .minuImm d a imm => Sys2Proof.Machine.execMinuImm d a imm s
  | .maxuReg d a b => Sys2Proof.Machine.execMaxuReg d a b s
  | .maxuImm d a imm => Sys2Proof.Machine.execMaxuImm d a imm s
  | .andnReg d a b => Sys2Proof.Machine.execAndnReg d a b s
  | .andnImm d a imm => Sys2Proof.Machine.execAndnImm d a imm s
  | .ornReg d a b => Sys2Proof.Machine.execOrnReg d a b s
  | .ornImm d a imm => Sys2Proof.Machine.execOrnImm d a imm s
  | .clz d a => Sys2Proof.Machine.execClz d a s
  | .popc d a => Sys2Proof.Machine.execPopc d a s
  | .movReg d a => Sys2Proof.Machine.execMovReg d a s
  | .movImm d imm => Sys2Proof.Machine.execMovImm d imm s
  | .sel d c a b => Sys2Proof.Machine.execSel d c a b s
  | .sext d a n => Sys2Proof.Machine.execSext d a n s
  | .zext d a n => Sys2Proof.Machine.execZext d a n s
  | .cmpEqReg d a b => Sys2Proof.Machine.execCmpEqReg d a b s
  | .cmpEqImm d a imm => Sys2Proof.Machine.execCmpEqImm d a imm s
  | .cmpNeReg d a b => Sys2Proof.Machine.execCmpNeReg d a b s
  | .cmpNeImm d a imm => Sys2Proof.Machine.execCmpNeImm d a imm s
  | .cmpLtReg d a b => Sys2Proof.Machine.execCmpLtReg d a b s
  | .cmpLtImm d a imm => Sys2Proof.Machine.execCmpLtImm d a imm s
  | .cmpGeReg d a b => Sys2Proof.Machine.execCmpGeReg d a b s
  | .cmpGeImm d a imm => Sys2Proof.Machine.execCmpGeImm d a imm s
  | .cmpLtuReg d a b => Sys2Proof.Machine.execCmpLtuReg d a b s
  | .cmpLtuImm d a imm => Sys2Proof.Machine.execCmpLtuImm d a imm s
  | .cmpGeuReg d a b => Sys2Proof.Machine.execCmpGeuReg d a b s
  | .cmpGeuImm d a imm => Sys2Proof.Machine.execCmpGeuImm d a imm s
  | .fadd d a b => Sys2Proof.Machine.execFadd d a b s
  | .fsub d a b => Sys2Proof.Machine.execFsub d a b s
  | .fmul d a b => Sys2Proof.Machine.execFmul d a b s
  | .fmin d a b => Sys2Proof.Machine.execFmin d a b s
  | .fmax d a b => Sys2Proof.Machine.execFmax d a b s
  | .fabs d a => Sys2Proof.Machine.execFabs d a s
  | .fneg d a => Sys2Proof.Machine.execFneg d a s
  | .fma d a b c => Sys2Proof.Machine.execFma d a b c s
  | .fcmpEq d a b => Sys2Proof.Machine.execFcmpEq d a b s
  | .fcmpNe d a b => Sys2Proof.Machine.execFcmpNe d a b s
  | .fcmpLt d a b => Sys2Proof.Machine.execFcmpLt d a b s
  | .fcmpLe d a b => Sys2Proof.Machine.execFcmpLe d a b s
  | .fcmpUn d a b => Sys2Proof.Machine.execFcmpUn d a b s
  | .fdiv d a b => Sys2Proof.Machine.execFdiv d a b s
  | .fsqrt d a => Sys2Proof.Machine.execFsqrt d a s
  | .fcvtS rm d a => Sys2Proof.Machine.execFcvtS rm d a s
  | .fcvtU rm d a => Sys2Proof.Machine.execFcvtU rm d a s
  | .scvtF rm d a => Sys2Proof.Machine.execScvtF rm d a s
  | .ucvtF rm d a => Sys2Proof.Machine.execUcvtF rm d a s
  | .fclass d a => Sys2Proof.Machine.execFclass d a s
  | .pand d a b => Sys2Proof.Machine.execPand d a b s
  | .por d a b => Sys2Proof.Machine.execPor d a b s
  | .pxor d a b => Sys2Proof.Machine.execPxor d a b s
  | .pnot d a => Sys2Proof.Machine.execPnot d a s
  | .pmov d a => Sys2Proof.Machine.execPmov d a s
  | .pset d v => Sys2Proof.Machine.execPset d v s
  | .psave d => Sys2Proof.Machine.execPsave d s
  | .pload a => Sys2Proof.Machine.execPload a s
  | .br t => Sys2Proof.Machine.execBr t s
  | .brr a => Sys2Proof.Machine.execBrr a s
  | .call t => Sys2Proof.Machine.execCall t s
  | .callr a => Sys2Proof.Machine.execCallr a s
  | .ret => Sys2Proof.Machine.execRet s
  | .loop l n t => Sys2Proof.Machine.execLoop l n t s
  | .lexit l => Sys2Proof.Machine.execLexit l s
  | .enter n8 => Sys2Proof.Machine.execEnter n8 s
  | .leave n8 => Sys2Proof.Machine.execLeave n8 s
  | .ldBMem d m => Sys2Proof.Machine.execLdBMem d m s
  | .ldBAtom d m => Sys2Proof.Machine.execLdBAtom d m s
  | .ldBuMem d m => Sys2Proof.Machine.execLdBuMem d m s
  | .ldBuAtom d m => Sys2Proof.Machine.execLdBuAtom d m s
  | .ldHMem d m => Sys2Proof.Machine.execLdHMem d m s
  | .ldHAtom d m => Sys2Proof.Machine.execLdHAtom d m s
  | .ldHuMem d m => Sys2Proof.Machine.execLdHuMem d m s
  | .ldHuAtom d m => Sys2Proof.Machine.execLdHuAtom d m s
  | .ldWMem d m => Sys2Proof.Machine.execLdWMem d m s
  | .ldWAtom d m => Sys2Proof.Machine.execLdWAtom d m s
  | .ldWuMem d m => Sys2Proof.Machine.execLdWuMem d m s
  | .ldWuAtom d m => Sys2Proof.Machine.execLdWuAtom d m s
  | .ldDMem d m => Sys2Proof.Machine.execLdDMem d m s
  | .ldDAtom d m => Sys2Proof.Machine.execLdDAtom d m s
  | .stBMem d m => Sys2Proof.Machine.execStBMem d m s
  | .stBAtom d m => Sys2Proof.Machine.execStBAtom d m s
  | .stHMem d m => Sys2Proof.Machine.execStHMem d m s
  | .stHAtom d m => Sys2Proof.Machine.execStHAtom d m s
  | .stWMem d m => Sys2Proof.Machine.execStWMem d m s
  | .stWAtom d m => Sys2Proof.Machine.execStWAtom d m s
  | .stDMem d m => Sys2Proof.Machine.execStDMem d m s
  | .stDAtom d m => Sys2Proof.Machine.execStDAtom d m s
  | .amoAdd d m x => Sys2Proof.Machine.execAmoAdd d m x s
  | .amoAnd d m x => Sys2Proof.Machine.execAmoAnd d m x s
  | .amoOr d m x => Sys2Proof.Machine.execAmoOr d m x s
  | .amoXor d m x => Sys2Proof.Machine.execAmoXor d m x s
  | .amoMin d m x => Sys2Proof.Machine.execAmoMin d m x s
  | .amoMax d m x => Sys2Proof.Machine.execAmoMax d m x s
  | .amoMinu d m x => Sys2Proof.Machine.execAmoMinu d m x s
  | .amoMaxu d m x => Sys2Proof.Machine.execAmoMaxu d m x s
  | .cas d m x z => Sys2Proof.Machine.execCas d m x z s
  | .swap d m x => Sys2Proof.Machine.execSwap d m x s
  | .fence o sc => Sys2Proof.Machine.execFence o sc s
  | .waitf h a imm => Sys2Proof.Machine.execWaitf h a imm s
  | .waite h a imm => Sys2Proof.Machine.execWaite h a imm s
  | .advp h a imm => Sys2Proof.Machine.execAdvp h a imm s
  | .advc h a imm => Sys2Proof.Machine.execAdvc h a imm s
  | .fix bitmap m off => Sys2Proof.Machine.execFix bitmap m off s
  | .fixEnd bitmap m off => Sys2Proof.Machine.execFixEnd bitmap m off s
  | .vote v a => Sys2Proof.Machine.execVote v a s
  | .stage a imm => Sys2Proof.Machine.execStage a imm s
  | .wbk base src off len disp tok => Sys2Proof.Machine.execWbk base src off len disp tok s
  | .kwait k => Sys2Proof.Machine.execKwait k s
  | .mwait => Sys2Proof.Machine.execMwait s
  | .twait d a => Sys2Proof.Machine.execTwait d a s
  | .vadd d a b sat => Sys2Proof.Machine.execVadd d a b sat s
  | .vsub d a b sat => Sys2Proof.Machine.execVsub d a b sat s
  | .vmul d a b sat => Sys2Proof.Machine.execVmul d a b sat s
  | .vmin d a b sat => Sys2Proof.Machine.execVmin d a b sat s
  | .vmax d a b sat => Sys2Proof.Machine.execVmax d a b sat s
  | .vabs d a sat => Sys2Proof.Machine.execVabs d a sat s
  | .vneg d a sat => Sys2Proof.Machine.execVneg d a sat s
  | .vfma d a b c sat => Sys2Proof.Machine.execVfma d a b c sat s
  | .vand d a b => Sys2Proof.Machine.execVand d a b s
  | .vor d a b => Sys2Proof.Machine.execVor d a b s
  | .vxor d a b => Sys2Proof.Machine.execVxor d a b s
  | .vnot d a => Sys2Proof.Machine.execVnot d a s
  | .vshl d a b => Sys2Proof.Machine.execVshl d a b s
  | .vshr d a b => Sys2Proof.Machine.execVshr d a b s
  | .vsra d a b => Sys2Proof.Machine.execVsra d a b s
  | .vcmpEq d a b u => Sys2Proof.Machine.execVcmpEq d a b u s
  | .vcmpNe d a b u => Sys2Proof.Machine.execVcmpNe d a b u s
  | .vcmpLt d a b u => Sys2Proof.Machine.execVcmpLt d a b u s
  | .vcmpLe d a b u => Sys2Proof.Machine.execVcmpLe d a b u s
  | .vcmpGt d a b u => Sys2Proof.Machine.execVcmpGt d a b u s
  | .vcmpGe d a b u => Sys2Proof.Machine.execVcmpGe d a b u s
  | .vsel d m a b => Sys2Proof.Machine.execVsel d m a b s
  | .vbcast d a => Sys2Proof.Machine.execVbcast d a s
  | .vbcastElement d a b => Sys2Proof.Machine.execVbcastElement d a b s
  | .vperm d a b => Sys2Proof.Machine.execVperm d a b s
  | .vpermRot d a b => Sys2Proof.Machine.execVpermRot d a b s
  | .vmov d a => Sys2Proof.Machine.execVmov d a s
  | .vcvt rm sf part d a => Sys2Proof.Machine.execVcvt rm sf part d a s
  | .vscan o d a => Sys2Proof.Machine.execVscan o d a s
  | .vred o d a => Sys2Proof.Machine.execVred o d a s
  | .vredScalar o d a => Sys2Proof.Machine.execVredScalar o d a s
  | .vexp2 d a => Sys2Proof.Machine.execVexp2 d a s
  | .vlog2 d a => Sys2Proof.Machine.execVlog2 d a s
  | .vrcp d a => Sys2Proof.Machine.execVrcp d a s
  | .vrsq d a => Sys2Proof.Machine.execVrsq d a s
  | .vtanh d a => Sys2Proof.Machine.execVtanh d a s
  | .vsig d a => Sys2Proof.Machine.execVsig d a s
  | .mpdef slot off n1 => Sys2Proof.Machine.execMpdef slot off n1 s
  | .mprun slot d a b c => Sys2Proof.Machine.execMprun slot d a b c s
  | .expr w d a b c => Sys2Proof.Machine.execExpr w d a b c s
  | .mma af n q k pitch aoff woff bank tok => Sys2Proof.Machine.execMma af n q k pitch aoff woff bank tok s
  | .mldt af pitch aoff bank tok => Sys2Proof.Machine.execMldt af pitch aoff bank tok s
  | .mzero bank tok => Sys2Proof.Machine.execMzero bank tok s
  | .quant col srcC off pitch emax cnt woff tok => Sys2Proof.Machine.execQuant col srcC off pitch emax cnt woff tok s
  | .cpy cq dst src cnt tok => Sys2Proof.Machine.execCpy cq dst src cnt tok s
  | .cpyD cq dst src cnt tok => Sys2Proof.Machine.execCpyD cq dst src cnt tok s
  | .xsync => Sys2Proof.Machine.execXsync s
  | .xmit slot off idx srcC soff tok => Sys2Proof.Machine.execXmit slot off idx srcC soff tok s
  | .xsel slot port doff tok => Sys2Proof.Machine.execXsel slot port doff tok s
  | .enl moff r tok => Sys2Proof.Machine.execEnl moff r tok s
  | .rsto base data disp wide tok => Sys2Proof.Machine.execRsto base data disp wide tok s
  | .cpost base cnt srcC soff disp tok => Sys2Proof.Machine.execCpost base cnt srcC soff disp tok s
  | .armInstruction r => Sys2Proof.Machine.execArmInstruction r s
  | .patchInstruction r v off len1 => Sys2Proof.Machine.execPatchInstruction r v off len1 s
  | .postInstruction r p => Sys2Proof.Machine.execPostInstruction r p s
  | .signalInstruction base v op disp tok => Sys2Proof.Machine.execSignalInstruction base v op disp tok s
  | .csrr d n => Sys2Proof.Machine.execCsrr d n s
  | .csrwReg n a => Sys2Proof.Machine.execCsrwReg n a s
  | .csrwImm n imm => Sys2Proof.Machine.execCsrwImm n imm s
  | .trap code => Sys2Proof.Machine.execTrap code s
  | .rft => Sys2Proof.Machine.execRft s
  | .halt => Sys2Proof.Machine.execHalt s
  | .tlbi p v n => Sys2Proof.Machine.execTlbi p v n s
  | .tlbiAll p => Sys2Proof.Machine.execTlbiAll p s
  | .packageReset => Sys2Proof.Machine.execPackageReset s
  | .pcieHotReset => Sys2Proof.Machine.execPcieHotReset s
  | .mailboxGo => Sys2Proof.Machine.execMailboxGo s
  | .mailboxChunkAppended => Sys2Proof.Machine.execMailboxChunkAppended s
  | .mailboxLast => Sys2Proof.Machine.execMailboxLast s
  | .mailboxImageVerified => Sys2Proof.Machine.execMailboxImageVerified s
  | .mailboxAbort => Sys2Proof.Machine.execMailboxAbort s
  | .registerWrite => Sys2Proof.Machine.execRegisterWrite s
  | .notify => Sys2Proof.Machine.execNotify s
  | .queueSlotAssign => Sys2Proof.Machine.execQueueSlotAssign s
  | .queueStarved => Sys2Proof.Machine.execQueueStarved s
  | .nonpreemptibleLimitExpiry => Sys2Proof.Machine.execNonpreemptibleLimitExpiry s
  | .nop => Sys2Proof.Machine.execNop s
  | .writeRecord => Sys2Proof.Machine.execWriteRecord s
  | .patch => Sys2Proof.Machine.execPatch s
  | .arm => Sys2Proof.Machine.execArm s
  | .post => Sys2Proof.Machine.execPost s
  | .signalWait => Sys2Proof.Machine.execSignalWait s
  | .signalWaitPoll => Sys2Proof.Machine.execSignalWaitPoll s
  | .signal => Sys2Proof.Machine.execSignal s
  | .map => Sys2Proof.Machine.execMap s
  | .unmap => Sys2Proof.Machine.execUnmap s
  | .copyIn => Sys2Proof.Machine.execCopyIn s
  | .copyOut => Sys2Proof.Machine.execCopyOut s
  | .createPartition => Sys2Proof.Machine.execCreatePartition s
  | .destroyPartition => Sys2Proof.Machine.execDestroyPartition s
  | .bindVf => Sys2Proof.Machine.execBindVf s
  | .unbindVf => Sys2Proof.Machine.execUnbindVf s
  | .quiesceHold => Sys2Proof.Machine.execQuiesceHold s
  | .quiesceSheet => Sys2Proof.Machine.execQuiesceSheet s
  | .sheetWriteDone => Sys2Proof.Machine.execSheetWriteDone s
  | .quiesceRelease => Sys2Proof.Machine.execQuiesceRelease s
  | .quiesceRestore => Sys2Proof.Machine.execQuiesceRestore s
  | .attest => Sys2Proof.Machine.execAttest s
  | .coalesceWrite => Sys2Proof.Machine.execCoalesceWrite s
  | .coalesceCountReached => Sys2Proof.Machine.execCoalesceCountReached s
  | .coalesceTimeExpiry => Sys2Proof.Machine.execCoalesceTimeExpiry s
  | .msixUnmask => Sys2Proof.Machine.execMsixUnmask s
  | .monitorSelect => Sys2Proof.Machine.execMonitorSelect s
  | .monitorClear => Sys2Proof.Machine.execMonitorClear s
  | .monitorPeriodicSample => Sys2Proof.Machine.execMonitorPeriodicSample s
  | .vfFunctionLevelReset => Sys2Proof.Machine.execVfFunctionLevelReset s
  | .pfFunctionLevelReset => Sys2Proof.Machine.execPfFunctionLevelReset s
  | .flitReceived => Sys2Proof.Machine.execFlitReceived s
  | .replayRequest => Sys2Proof.Machine.execReplayRequest s
  | .portRetrain => Sys2Proof.Machine.execPortRetrain s
  | .widthNarrowPropose => Sys2Proof.Machine.execWidthNarrowPropose s
  | .widthProposalAccept => Sys2Proof.Machine.execWidthProposalAccept s
  | .widthProposalLapse => Sys2Proof.Machine.execWidthProposalLapse s
  | .widthChangeDone => Sys2Proof.Machine.execWidthChangeDone s
  | .timingBeatSend => Sys2Proof.Machine.execTimingBeatSend s
  | .timingBeat => Sys2Proof.Machine.execTimingBeat s
  | .slewStep => Sys2Proof.Machine.execSlewStep s
  | .powerMeasure => Sys2Proof.Machine.execPowerMeasure s
  | .thermalThrottle => Sys2Proof.Machine.execThermalThrottle s
  | .thermalStop => Sys2Proof.Machine.execThermalStop s
  | .thermalResume => Sys2Proof.Machine.execThermalResume s
  | .leaseRenewal => Sys2Proof.Machine.execLeaseRenewal s
  | .leaseTakeoverAttempt => Sys2Proof.Machine.execLeaseTakeoverAttempt s
  | .hbmScrub => Sys2Proof.Machine.execHbmScrub s
  | .pageRetire => Sys2Proof.Machine.execPageRetire s
  | .qcntAdvance => Sys2Proof.Machine.execQcntAdvance s
  | .dispatch => Sys2Proof.Machine.execDispatch s
  | .extentBuildDone => Sys2Proof.Machine.execExtentBuildDone s
  | .lineArrival => Sys2Proof.Machine.execLineArrival s
  | .blockingWaitDone => Sys2Proof.Machine.execBlockingWaitDone s
  | .exchangeBarrier => Sys2Proof.Machine.execExchangeBarrier s
  | .exchangeRelease => Sys2Proof.Machine.execExchangeRelease s
  | .xmitSlot => Sys2Proof.Machine.execXmitSlot s
  | .datumLanded => Sys2Proof.Machine.execDatumLanded s
  | .xselSlot => Sys2Proof.Machine.execXselSlot s
  | .reductionStream => Sys2Proof.Machine.execReductionStream s
  | .reductionDone => Sys2Proof.Machine.execReductionDone s
  | .enlTransfer => Sys2Proof.Machine.execEnlTransfer s
  | .enlComplete => Sys2Proof.Machine.execEnlComplete s
  | .tileVote => Sys2Proof.Machine.execTileVote s
  | .barrierCombine => Sys2Proof.Machine.execBarrierCombine s
  | .releaseArrival => Sys2Proof.Machine.execReleaseArrival s
  | .flip => Sys2Proof.Machine.execFlip s
  | .washLimitHalt => Sys2Proof.Machine.execWashLimitHalt s
  | .leadReset => Sys2Proof.Machine.execLeadReset s
  | .writeBehindDrainDone => Sys2Proof.Machine.execWriteBehindDrainDone s
  | .launchComplete => Sys2Proof.Machine.execLaunchComplete s
  | .watchdog => Sys2Proof.Machine.execWatchdog s
  | .preemptBoundExpiry => Sys2Proof.Machine.execPreemptBoundExpiry s
  | .quiesceBoundExpiry => Sys2Proof.Machine.execQuiesceBoundExpiry s
  | .quantumExpiry => Sys2Proof.Machine.execQuantumExpiry s
  | .tileSaved => Sys2Proof.Machine.execTileSaved s
  | .copyComplete => Sys2Proof.Machine.execCopyComplete s
  | .matrixCommandChosen => Sys2Proof.Machine.execMatrixCommandChosen s
  | .matrixCommandComplete => Sys2Proof.Machine.execMatrixCommandComplete s
  | .quantComplete => Sys2Proof.Machine.execQuantComplete s
  | .wbkComplete => Sys2Proof.Machine.execWbkComplete s
  | .signalComplete => Sys2Proof.Machine.execSignalComplete s
  | .hchTrainWrite => Sys2Proof.Machine.execHchTrainWrite s
  | .trainEffective => Sys2Proof.Machine.execTrainEffective s
  | .patternTestStart => Sys2Proof.Machine.execPatternTestStart s
  | .patternTestDone => Sys2Proof.Machine.execPatternTestDone s
  | .hchRdall => Sys2Proof.Machine.execHchRdall s
  | .hchWrall => Sys2Proof.Machine.execHchWrall s
  | .outsideWrite => Sys2Proof.Machine.execOutsideWrite s
  | .powerLoss => Sys2Proof.Machine.execPowerLoss s
  | .lossOfAPackage => Sys2Proof.Machine.execLossOfAPackage s
  | .spillCopyBackDone => Sys2Proof.Machine.execSpillCopyBackDone s
  | .engineSlotDelivered => Sys2Proof.Machine.execEngineSlotDelivered s
  | .resumeFromSaveArea => Sys2Proof.Machine.execResumeFromSaveArea s

end Sys2Proof.Machine
end

