-- ==== Sys2Proof/Machine/Step.lean ====
section
/-!
DEFINITION. One step of the machine. A step without power waits for a reset; one before the boot ROM has run is PACKAGE_RESET
(spec/01 R23), which runs the boot ROM's next stage. Otherwise it is the first that applies of: an outside event that is due, a step of the package that is due, a
step of the package whose condition holds, the issue of the next unit of an agent, an engine's slot that is due, and the end of the cycle (log
entry 17).
-/

namespace Sys2Proof.Machine

def step (s : State) : Host.Outcome State Fault Refusal :=
  if !s.powered then
    match takeDue s.cycle s.inputs with
    | some (d, ds) => if d.ev = .packageReset then exec d.ev { s with inputs := ds, arg := d.arg } else .next { s with inputs := ds }
    | none => if s.inputs = [] then .fault .poweredOff else .next { s with cycle := s.cycle + 1 }
  else if !s.boot.done then exec .packageReset { s with arg := { q := 1 } }
  else
    match s.dueEvent with
    | some (t, ev) => exec ev t
    | none =>
      match s.autoEvent with
      | some (ev, arg) => exec ev { s with arg := arg }
      | none =>
        match s.nextAgent with
        | some (a, i) =>
          match s.issue a i with
          | .settled t => .next t
          | .runs t ins => exec ins t
        | none =>
          match s.dueSlot with
          | some (t, ev) => exec ev t
          | none => .next s.tick

/-! ### Placing an instruction where the next step fetches it -/

/-- The code line at virtual address 0 of the tile, on a page of kind V that its one extent maps to physical address 0. -/
def fetchTile (l : List Byte) : Tile :=
  { Tile.zero with
    ext := [⟨0, 1, ⟨false, 0⟩, .v, true, true, true, .part, [(0, 1)], 0⟩]
    lines := [⟨0, l⟩]
    threads := { Thread.zero with task := .running } :: List.replicate 7 Thread.zero }

/-- The translation of that page. -/
def fetchPages : List PageT := [⟨0, 1, ⟨false, 0⟩, .v, true, true, true, .part⟩]

/-- A partition of one pod whose record 0 runs, with the task of each tile's thread 0 at address 0. -/
def fetchPart (l : List Byte) : Partition :=
  { Partition.absent with
    valid := true, len := 1, nrec := 1, podwt := [0x11111111], run := .running
    trans := fetchPages, transTlb := fetchPages, transBuild := fetchPages, transNow := fetchPages
    launch := some ⟨0, 0, 0, 0, 1, 1, 0, false, 2 ^ 32, 2 ^ 32, false⟩
    tiles := List.replicate 8 (fetchTile l) }

/-- The machine with the boot ROM done and a launch running whose next unit is the instruction of a word of the opcode table:
this stands for a host's commands that create a partition and post a record (log entry 10). -/
def State.withFetchWord (s : State) (nbits w : Nat) : State :=
  let l := tableLine nbits w
  { s with powered := true, boot := { s.boot with done := true }, hbm := s.hbm.writeRun 0 l, inputs := [], agenda := [], visited := 0,
           chans := s.chans.map fun c => { c with train := false },
           parts := s.parts.set 0 (fetchPart l) }

end Sys2Proof.Machine
end

