-- ==== Sys2Proof/Safety.lean ====
section
/-!
DEFINITION. The terms that claims use: the memories in canonical form, which a safe run keeps; what stays the same when a
unit runs; and the ways a unit ends.
-/

namespace Sys2Proof.Machine

/-! ### Canonical memories -/

/-- A tile's buffers in canonical form. -/
def Tile.wf (T : Tile) : Prop := T.w.wf = true ∧ T.a.wf = true ∧ T.c.wf = true

/-- The memories of the machine in canonical form. -/
def State.memWf (s : State) : Prop :=
  s.hbm.wf = true ∧ s.host.wf = true ∧ s.flash.wf = true ∧ s.boot.mbox.wf = true ∧
  (∀ P ∈ s.parts, ∀ T ∈ P.tiles, T.wf) ∧ ∀ c ∈ s.ctrls.toList, c.sram.wf = true

/-! ### What stays the same -/

/-- Every byte of HBM, host memory, flash, the mailbox and the controllers' SRAM reads as before. -/
def State.SameMain (s t : State) : Prop :=
  (∀ a, t.hbm.read a = s.hbm.read a) ∧ (∀ a, t.host.read a = s.host.read a) ∧ (∀ a, t.flash.read a = s.flash.read a) ∧
  (∀ a, t.boot.mbox.read a = s.boot.mbox.read a) ∧ ∀ d a, (t.ctrl d).sram.read a = (s.ctrl d).sram.read a

/-- Every byte of every tile buffer reads as before. -/
def State.SameBufs (s t : State) : Prop := ∀ p k b a, (t.tile p k).readBuf b a 1 = (s.tile p k).readBuf b a 1

/-- Every byte of every memory reads as before. -/
def State.SameBytes (s t : State) : Prop := s.SameMain t ∧ s.SameBufs t

/-- Nothing but the thread that executes the unit differs. -/
def State.OnlyThread (s t : State) : Prop := t = s.modHere (fun _ => t.here) ∧ s.SameBytes t

/-- A thread keeps everything but its scalar registers, predicates, pending writes, %fflag, loop counts, program counter and
readiness: its control and exception registers, accumulator tile, mode and task are those before. -/
def Thread.Frame (u v : Thread) : Prop :=
  v = { u with regs := v.regs, preds := v.preds, pend := v.pend, fflag := v.fflag, lc := v.lc, pc := v.pc, wait := v.wait,
               readyAt := v.readyAt }

/-- The thread reads every scalar register and every predicate as before. -/
def State.SameRegs (s t : State) : Prop := (∀ r, t.sr r = s.sr r) ∧ ∀ p, t.pr p = s.pr p

/-! ### How a unit ends (R93, R241) -/

/-- The loop counts that LoopEnd of R241 leaves after the unit being executed, and where a level that stays open returns to. -/
def State.loops (s : State) : Thread × Option Addr := loopEnd s.here.unit.addr s.here

/-- A return of LoopEnd goes to a legal target (R241, R218); so it does where no level ends at the unit. -/
def State.endsLegally (s : State) : Bool := (s.loops.2.bind (targetFault s s.cur.agent)).isNone

/-- The unit ended: `taken` its own transfer. The program counter is that target, else the start of a loop that stays open, else
the next unit; the loop counts are LoopEnd's; the thread is ready after the gap, and after a held cycle where it transferred. -/
def State.Ended (s t : State) (taken : Option Addr) : Prop :=
  t.here.pc = (taken.or s.loops.2).getD s.here.unit.next ∧ t.here.lc = s.loops.1.lc ∧ t.here.wait = .ready ∧
  t.here.readyAt = s.nextIssue (taken.or s.loops.2).isSome

/-- What LoopEnd of the unit being executed leaves of pending writes: one to a loop count that it lowers, and that would have landed by
now, gives way to it (R92, R223). -/
def State.leftPend (s : State) (ps : List Pend) : List Pend := dropCounts s.cycle s.here.lc s.loops.1.lc ps

/-- The unit wrote a scalar register in its cycle, set flags, and ended; s0 takes no write, and a pending write to the same
register that would have landed by now gives way (R92), as does one that would clear a flag the unit sets (R223). -/
def State.WroteS (s t : State) (d : Sreg) (v : Word) (fl : Byte) : Prop :=
  s.OnlyThread t ∧ s.Ended t none ∧ s.here.Frame t.here ∧ (∀ r, t.sr r = if r = d ∧ r ≠ 0 then v else s.sr r) ∧
  (∀ p, t.pr p = s.pr p) ∧ t.here.fflag = s.here.fflag ||| fl ∧ t.here.pend = s.leftPend ((s.here.drop1 s.cycle (.s d)).keepClear s.cycle 0x005 (fl.setWidth 64)).pend

/-- The unit wrote a predicate in its cycle, set flags, and ended; p0 takes no write. -/
def State.WroteP (s t : State) (d : Preg) (v : Bool) (fl : Byte) : Prop :=
  s.OnlyThread t ∧ s.Ended t none ∧ s.here.Frame t.here ∧ (∀ p, t.pr p = if p = d ∧ p ≠ 0 then v else s.pr p) ∧
  (∀ r, t.sr r = s.sr r) ∧ t.here.fflag = s.here.fflag ||| fl ∧ t.here.pend = s.leftPend ((s.here.drop1 s.cycle (.p d)).keepClear s.cycle 0x005 (fl.setWidth 64)).pend

/-- The unit ended with one more pending write, which lands in a later cycle (R92); no register has changed yet. -/
def State.Queued (s t : State) (x : Pend) : Prop :=
  s.OnlyThread t ∧ s.Ended t none ∧ s.here.Frame t.here ∧ s.SameRegs t ∧ t.here.fflag = s.here.fflag ∧
  t.here.pend = s.leftPend (s.here.pend ++ [x])

/-- The scalar result of a latency above 1: it lands at the end of cycle t + L - 1 (R92, R93). -/
def State.LaterS (s t : State) (L : Nat) (d : Sreg) (v : Word) (fl : Byte) : Prop :=
  s.Queued t ⟨s.cycle + L - 1, .s d, v, fl⟩

/-- The unit ended with one more pending row write of the bytes `bs`, which lands at the end of cycle `land` and is an access of its thread from
its issue on: the latest one, after all that the thread's other accesses follow (R92, R124, R127, R269). No byte has changed yet. -/
def State.QueuedRow (s t : State) (land : Nat) (d : Row) (bs : List Byte) (fl : Byte) : Prop :=
  let w : WRec := { id := s.opCtr, cls := .task, q := 8, ltile := s.hereT, th := s.cur.th, seq := s.here.seq, hb := s.here.landedHb,
                    buf := some .c, loc := ⟨false, rowAddr s.bank d⟩, data := bs }
  t = s.newId.modHere (fun _ => t.here) ∧ s.SameBytes t ∧ s.Ended t none ∧
  ({ s.here with hb := s.opCtr :: s.here.hb, seq := s.here.seq + 1 } : Thread).Frame t.here ∧ s.SameRegs t ∧ t.here.fflag = s.here.fflag ∧
  t.here.pend = s.leftPend (s.here.pend ++ [⟨land, .row w, 0, fl⟩])

/-- The unit changed nothing but where its thread goes on. -/
def State.Went (s t : State) (taken : Option Addr) : Prop :=
  s.OnlyThread t ∧ s.Ended t taken ∧ s.here.Frame t.here ∧ s.SameRegs t ∧ t.here.fflag = s.here.fflag ∧ t.here.pend = s.leftPend s.here.pend

/-- The unit blocks: its thread waits, and nothing else of it has changed (R90, R93). -/
def State.Blocked (s t : State) (w : Wait) : Prop :=
  t.here = { s.here with wait := w, waitFrom := s.cycle }

end Sys2Proof.Machine
end

