-- ==== Sys2Proof/Certificates/Slice0/Obligations.lean ====
section
/-!
DEFINITION. The statements for the provers, by chapter of the manual.
-/

namespace Sys2Proof.Claims

open Sys2Proof Sys2Proof.Machine

/-! ### Scalar integer instructions (spec/12 R229 to R233) -/

/-- The smaller and the larger of two words as signed, and as unsigned. -/
def smin (a y : Word) : Word := if a.toInt ≤ y.toInt then a else y
def smax (a y : Word) : Word := if a.toInt ≤ y.toInt then y else a
def umin (a y : Word) : Word := if a.toNat ≤ y.toNat then a else y
def umax (a y : Word) : Word := if a.toNat ≤ y.toNat then y else a

/-- The table of R229: the destination and the effect of each instruction. -/
def integerEffect (s : State) : Instr → Option (Sreg × Word)
  | .addReg d a b => some (d, s.sr a + s.sr b)
  | .addImm d a y => some (d, s.sr a + y)
  | .subReg d a b => some (d, s.sr a - s.sr b)
  | .subImm d a y => some (d, s.sr a - y)
  | .andReg d a b => some (d, s.sr a &&& s.sr b)
  | .andImm d a y => some (d, s.sr a &&& y)
  | .orReg d a b => some (d, s.sr a ||| s.sr b)
  | .orImm d a y => some (d, s.sr a ||| y)
  | .xorReg d a b => some (d, s.sr a ^^^ s.sr b)
  | .xorImm d a y => some (d, s.sr a ^^^ y)
  | .shlReg d a b => some (d, s.sr a <<< ((s.sr b).extractLsb' 0 6).toNat)
  | .shlImm d a y => some (d, s.sr a <<< (y.extractLsb' 0 6).toNat)
  | .shrReg d a b => some (d, s.sr a >>> ((s.sr b).extractLsb' 0 6).toNat)
  | .shrImm d a y => some (d, s.sr a >>> (y.extractLsb' 0 6).toNat)
  | .sraReg d a b => some (d, (s.sr a).sshiftRight ((s.sr b).extractLsb' 0 6).toNat)
  | .sraImm d a y => some (d, (s.sr a).sshiftRight (y.extractLsb' 0 6).toNat)
  | .minReg d a b => some (d, smin (s.sr a) (s.sr b))
  | .minImm d a y => some (d, smin (s.sr a) y)
  | .maxReg d a b => some (d, smax (s.sr a) (s.sr b))
  | .maxImm d a y => some (d, smax (s.sr a) y)
  | .minuReg d a b => some (d, umin (s.sr a) (s.sr b))
  | .minuImm d a y => some (d, umin (s.sr a) y)
  | .maxuReg d a b => some (d, umax (s.sr a) (s.sr b))
  | .maxuImm d a y => some (d, umax (s.sr a) y)
  | .andnReg d a b => some (d, s.sr a &&& ~~~(s.sr b))
  | .andnImm d a y => some (d, s.sr a &&& ~~~y)
  | .ornReg d a b => some (d, s.sr a ||| ~~~(s.sr b))
  | .ornImm d a y => some (d, s.sr a ||| ~~~y)
  | .clz d a => some (d, BitVec.ofNat 64 (64 - (s.sr a).toNat.size))
  | .popc d a => some (d, BitVec.ofNat 64 ((List.range 64).countP fun i => (s.sr a).getLsbD i))
  | _ => none

/-- The quotient and remainder of R230, with its rule for a zero divisor. -/
def quotient (a y : Word) : Word := if y = 0 then 0xFFFFFFFFFFFFFFFF else BitVec.ofInt 64 (a.toInt.tdiv y.toInt)
def quotientU (a y : Word) : Word := if y = 0 then 0xFFFFFFFFFFFFFFFF else BitVec.ofNat 64 (a.toNat / y.toNat)
def remainder (a y : Word) : Word := if y = 0 then a else BitVec.ofInt 64 (a.toInt - y.toInt * a.toInt.tdiv y.toInt)
def remainderU (a y : Word) : Word := if y = 0 then a else BitVec.ofNat 64 (a.toNat % y.toNat)
/-- Bits 127:64 of a product of 128 bits. -/
def high (x : BitVec 128) : Word := x.extractLsb' 64 64

/-- The table of R230: the latency of the class (IM 3, DV 16, R93), the destination and the effect. -/
def productEffect (s : State) : Instr → Option (Nat × Sreg × Word)
  | .mulReg d a b => some (3, d, s.sr a * s.sr b)
  | .mulImm d a y => some (3, d, s.sr a * y)
  | .mulhReg d a b => some (3, d, high ((s.sr a).signExtend 128 * (s.sr b).signExtend 128))
  | .mulhImm d a y => some (3, d, high ((s.sr a).signExtend 128 * y.signExtend 128))
  | .mulhuReg d a b => some (3, d, high ((s.sr a).setWidth 128 * (s.sr b).setWidth 128))
  | .mulhuImm d a y => some (3, d, high ((s.sr a).setWidth 128 * y.setWidth 128))
  | .divReg d a b => some (16, d, quotient (s.sr a) (s.sr b))
  | .divImm d a y => some (16, d, quotient (s.sr a) y)
  | .divuReg d a b => some (16, d, quotientU (s.sr a) (s.sr b))
  | .divuImm d a y => some (16, d, quotientU (s.sr a) y)
  | .remReg d a b => some (16, d, remainder (s.sr a) (s.sr b))
  | .remImm d a y => some (16, d, remainder (s.sr a) y)
  | .remuReg d a b => some (16, d, remainderU (s.sr a) (s.sr b))
  | .remuImm d a y => some (16, d, remainderU (s.sr a) y)
  | _ => none

/-- The table of R231. -/
def moveEffect (s : State) : Instr → Option (Sreg × Word)
  | .movReg d a => some (d, s.sr a)
  | .movImm d y => some (d, y)
  | .sel d c a b => some (d, if s.pr c then s.sr a else s.sr b)
  | .sext d a n => some (d, (s.sr a <<< (63 - n.toNat)).sshiftRight (63 - n.toNat))
  | .zext d a n => some (d, (s.sr a <<< (63 - n.toNat)) >>> (63 - n.toNat))
  | _ => none

/-- The tables of R232 and R233: the predicate written and its value. -/
def predicateEffect (s : State) : Instr → Option (Preg × Bool)
  | .cmpEqReg d a b => some (d, decide (s.sr a = s.sr b))
  | .cmpEqImm d a y => some (d, decide (s.sr a = y))
  | .cmpNeReg d a b => some (d, decide (s.sr a ≠ s.sr b))
  | .cmpNeImm d a y => some (d, decide (s.sr a ≠ y))
  | .cmpLtReg d a b => some (d, decide ((s.sr a).toInt < (s.sr b).toInt))
  | .cmpLtImm d a y => some (d, decide ((s.sr a).toInt < y.toInt))
  | .cmpGeReg d a b => some (d, decide ((s.sr b).toInt ≤ (s.sr a).toInt))
  | .cmpGeImm d a y => some (d, decide (y.toInt ≤ (s.sr a).toInt))
  | .cmpLtuReg d a b => some (d, decide ((s.sr a).toNat < (s.sr b).toNat))
  | .cmpLtuImm d a y => some (d, decide ((s.sr a).toNat < y.toNat))
  | .cmpGeuReg d a b => some (d, decide ((s.sr b).toNat ≤ (s.sr a).toNat))
  | .cmpGeuImm d a y => some (d, decide (y.toNat ≤ (s.sr a).toNat))
  | .pand d a b => some (d, s.pr a && s.pr b)
  | .por d a b => some (d, s.pr a || s.pr b)
  | .pxor d a b => some (d, xor (s.pr a) (s.pr b))
  | .pnot d a => some (d, !s.pr a)
  | .pmov d a => some (d, s.pr a)
  | .pset d v => some (d, v)
  | _ => none

/-! ### The encodings of the scalar rows (spec/11 R219; spec/12 R227 to R244) -/

/-- A head: TL, OP, the bits of gap, switch-away and END, and FN (R212). -/
def headOf (tl : BitVec 2) (op : BitVec 6) (fn : BitVec 3) (g : BitVec 5) : BitVec 16 := tl ++ op ++ g ++ fn
/-- The tails of classes RRR, RRI and RRRR (R219). -/
def rrr (d a b : BitVec 5) : BitVec 64 := (b ++ a ++ d).setWidth 64
def rri (d a : BitVec 5) (y : BitVec 22) : BitVec 64 := (y ++ a ++ d).setWidth 64
def rrrr (d a b c : BitVec 5) : BitVec 64 := (c ++ b ++ a ++ d).setWidth 64
def onlyWhen (c : Bool) (i : Instr) : Option Instr := if c then some i else none
/-- A field that names a predicate by its low bits, and the number it names. -/
def isP (d : BitVec 5) : Bool := decide (d.toNat < 8)
def pOf (d : BitVec 5) : Preg := (d.setWidth 3).toFin

/-- A cell with a register form and an immediate form, which a wide prefix extends (R227, R216). -/
def ReadsRow (op : BitVec 6) (fn : BitVec 3) (r : Sreg → Sreg → Sreg → Instr) (i : Sreg → Sreg → Word → Instr) : Prop :=
  ∀ (g d a b : BitVec 5) (y : BitVec 22) (x : Word),
    decodeGoverned (headOf 1 op fn g) (rrr d a b) .none = some (r d.toFin a.toFin b.toFin) ∧
    decodeGoverned (headOf 2 op fn g) (rri d a y) .none = some (i d.toFin a.toFin (y.signExtend 64)) ∧
    decodeGoverned (headOf 2 op fn g) (rri d a y) (.wide x) = onlyWhen (y == 0) (i d.toFin a.toFin x)

/-- The same with a predicate in field d (R232). -/
def ReadsCompare (fn : BitVec 3) (r : Preg → Sreg → Sreg → Instr) (i : Preg → Sreg → Word → Instr) : Prop :=
  ∀ (g d a b : BitVec 5) (y : BitVec 22) (x : Word),
    decodeGoverned (headOf 1 0x07 fn g) (rrr d a b) .none = onlyWhen (isP d) (r (pOf d) a.toFin b.toFin) ∧
    decodeGoverned (headOf 2 0x07 fn g) (rri d a y) .none = onlyWhen (isP d) (i (pOf d) a.toFin (y.signExtend 64)) ∧
    decodeGoverned (headOf 2 0x07 fn g) (rri d a y) (.wide x) = onlyWhen (isP d && y == 0) (i (pOf d) a.toFin x)

/-- The cells of R229 and R231. -/
def IntegerRowsAreRead : Prop :=
  ReadsRow 3 0 .addReg .addImm ∧ ReadsRow 3 1 .subReg .subImm ∧ ReadsRow 3 2 .andReg .andImm ∧ ReadsRow 3 3 .orReg .orImm ∧
  ReadsRow 3 4 .xorReg .xorImm ∧ ReadsRow 3 5 .shlReg .shlImm ∧ ReadsRow 3 6 .shrReg .shrImm ∧ ReadsRow 3 7 .sraReg .sraImm ∧
  ReadsRow 5 0 .minReg .minImm ∧ ReadsRow 5 1 .maxReg .maxImm ∧ ReadsRow 5 2 .minuReg .minuImm ∧ ReadsRow 5 3 .maxuReg .maxuImm ∧
  ReadsRow 5 4 .andnReg .andnImm ∧ ReadsRow 5 5 .ornReg .ornImm ∧
  ∀ (g d a b c : BitVec 5) (y : BitVec 22) (x : Word),
    decodeGoverned (headOf 1 0x05 6 g) (rrr d a b) .none = onlyWhen (b == 0) (.clz d.toFin a.toFin) ∧
    decodeGoverned (headOf 2 0x05 6 g) (rri d a y) .none = onlyWhen (y == 0) (.clz d.toFin a.toFin) ∧
    decodeGoverned (headOf 1 0x05 7 g) (rrr d a b) .none = onlyWhen (b == 0) (.popc d.toFin a.toFin) ∧
    decodeGoverned (headOf 2 0x05 7 g) (rri d a y) .none = onlyWhen (y == 0) (.popc d.toFin a.toFin) ∧
    decodeGoverned (headOf 1 0x06 0 g) (rrr d a b) .none = onlyWhen (b == 0) (.movReg d.toFin a.toFin) ∧
    decodeGoverned (headOf 2 0x06 0 g) (rri d a y) .none = onlyWhen (a == 0) (.movImm d.toFin (y.signExtend 64)) ∧
    decodeGoverned (headOf 2 0x06 0 g) (rri d a y) (.wide x) = onlyWhen (a == 0 && y == 0) (.movImm d.toFin x) ∧
    decodeGoverned (headOf 2 0x06 1 g) (rrrr d a b c) .none = onlyWhen (isP c) (.sel d.toFin (pOf c) a.toFin b.toFin) ∧
    (∀ (fn : BitVec 3) (f : Sreg → Sreg → BitVec 6 → Instr), (fn = 2 ∧ f = .sext) ∨ (fn = 3 ∧ f = .zext) →
      decodeGoverned (headOf 2 0x06 fn g) (rri d a y) .none = onlyWhen (decide (y.toNat < 64)) (f d.toFin a.toFin (y.setWidth 6)) ∧
      decodeGoverned (headOf 2 0x06 fn g) (rri d a y) (.wide x) =
        onlyWhen (y == 0 && decide (x.toNat < 64)) (f d.toFin a.toFin (x.setWidth 6)))

/-- The cells of R230. -/
def ProductRowsAreRead : Prop :=
  ReadsRow 4 0 .mulReg .mulImm ∧ ReadsRow 4 1 .mulhReg .mulhImm ∧ ReadsRow 4 2 .mulhuReg .mulhuImm ∧ ReadsRow 4 3 .divReg .divImm ∧
  ReadsRow 4 4 .divuReg .divuImm ∧ ReadsRow 4 5 .remReg .remImm ∧ ReadsRow 4 6 .remuReg .remuImm ∧
  ∀ (tl : BitVec 2) (g : BitVec 5) (t : BitVec 64) (p : Pfx), decodeGoverned (headOf tl 0x04 7 g) t p = none

/-- The cells of R232 and R233. -/
def PredicateRowsAreRead : Prop :=
  ReadsCompare 0 .cmpEqReg .cmpEqImm ∧ ReadsCompare 1 .cmpNeReg .cmpNeImm ∧ ReadsCompare 2 .cmpLtReg .cmpLtImm ∧
  ReadsCompare 3 .cmpGeReg .cmpGeImm ∧ ReadsCompare 4 .cmpLtuReg .cmpLtuImm ∧ ReadsCompare 5 .cmpGeuReg .cmpGeuImm ∧
  ∀ g d a b : BitVec 5,
    (∀ (fn : BitVec 3) (f : Preg → Preg → Preg → Instr), (fn = 0 ∧ f = .pand) ∨ (fn = 1 ∧ f = .por) ∨ (fn = 2 ∧ f = .pxor) →
      decodeGoverned (headOf 1 0x0B fn g) (rrr d a b) .none = onlyWhen (isP d && isP a && isP b) (f (pOf d) (pOf a) (pOf b))) ∧
    (∀ (fn : BitVec 3) (f : Preg → Preg → Instr), (fn = 3 ∧ f = .pnot) ∨ (fn = 4 ∧ f = .pmov) →
      decodeGoverned (headOf 1 0x0B fn g) (rrr d a b) .none = onlyWhen (isP d && isP a && b == 0) (f (pOf d) (pOf a))) ∧
    decodeGoverned (headOf 1 0x0B 5 g) (rrr d a b) .none =
      onlyWhen (isP d && decide (a.toNat < 2) && b == 0) (.pset (pOf d) (a.getLsbD 0)) ∧
    decodeGoverned (headOf 1 0x0B 6 g) (rrr d a b) .none = onlyWhen (a == 0 && b == 0) (.psave d.toFin) ∧
    decodeGoverned (headOf 1 0x0B 7 g) (rrr d a b) .none = onlyWhen (d == 0 && b == 0) (.pload a.toFin)

/-- The cells of R236. -/
def FloatCompareRowsAreRead : Prop :=
  ∀ (g d a b : BitVec 5) (fn : BitVec 3) (f : Preg → Sreg → Sreg → Instr),
    (fn = 0 ∧ f = .fcmpEq) ∨ (fn = 1 ∧ f = .fcmpNe) ∨ (fn = 2 ∧ f = .fcmpLt) ∨ (fn = 3 ∧ f = .fcmpLe) ∨ (fn = 4 ∧ f = .fcmpUn) →
    decodeGoverned (headOf 1 0x09 fn g) (rrr d a b) .none = onlyWhen (isP d) (f (pOf d) a.toFin b.toFin)

/-- The cells of R238, R242 and R244. -/
def NopAndYieldAreRead : Prop :=
  ∀ g : BitVec 5, decodeGoverned (headOf 0 0x00 0 g) 0 .none = some .nopInstruction ∧
    decodeGoverned (headOf 0 0x00 1 g) 0 .none = some .yield ∧ headOf 0 0x00 0 0 = 0
def LoopRowsAreRead : Prop :=
  ∀ (g d a b c : BitVec 5) (n : BitVec 24) (off : BitVec 24) (idx : BitVec 5) (L : BitVec 2),
    decodeGoverned (headOf 3 0x0C 5 g) (n ++ c ++ (1 : BitVec 1) ++ L ++ (0 : BitVec 3) ++ off ++ idx) .none =
      onlyWhen (c == 0) (.loop L.toFin (.imm n) ⟨off, idx⟩) ∧
    decodeGoverned (headOf 3 0x0C 5 g) (n ++ c ++ (0 : BitVec 1) ++ L ++ (0 : BitVec 3) ++ off ++ idx) .none =
      onlyWhen (n == 0) (.loop L.toFin (.reg c.toFin) ⟨off, idx⟩) ∧
    (∀ x, decodeGoverned (headOf 3 0x0C 5 g) (n ++ c ++ (1 : BitVec 1) ++ L ++ (0 : BitVec 3) ++ off ++ idx) (.wide x) = none) ∧
    decodeGoverned (headOf 1 0x0C 6 g) (rrr d a b) .none = onlyWhen (decide (d.toNat < 4) && a == 0 && b == 0) (.lexit (d.setWidth 2).toFin)
def FrameRowsAreRead : Prop :=
  ∀ (g d a : BitVec 5) (y : BitVec 22) (x : Word) (fn : BitVec 3) (f : BitVec 18 → Instr), (fn = 0 ∧ f = .enter) ∨ (fn = 1 ∧ f = .leave) →
    decodeGoverned (headOf 2 0x0D fn g) (rri d a y) .none =
      onlyWhen (d == 0 && a == 0 && decide (y.toNat < 2 ^ 21) && decide (y.toNat % 8 = 0)) (f (BitVec.ofNat 18 (y.toNat / 8))) ∧
    decodeGoverned (headOf 2 0x0D fn g) (rri d a y) (.wide x) =
      onlyWhen (d == 0 && a == 0 && y == 0 && decide (x.toNat < 2 ^ 21) && decide (x.toNat % 8 = 0)) (f (BitVec.ofNat 18 (x.toNat / 8)))

/-- The cells of R239. -/
def TransferRowsAreRead : Prop :=
  ∀ (g d a b : BitVec 5) (off : BitVec 24) (idx : BitVec 5),
    decodeGoverned (headOf 2 0x0C 0 g) (((0 : BitVec 3) ++ off ++ idx).setWidth 64) .none = some (.br ⟨off, idx⟩) ∧
    decodeGoverned (headOf 1 0x0C 1 g) (rrr d a b) .none = onlyWhen (d == 0 && b == 0) (.brr a.toFin) ∧
    decodeGoverned (headOf 2 0x0C 2 g) (((0 : BitVec 3) ++ off ++ idx).setWidth 64) .none = some (.call ⟨off, idx⟩) ∧
    decodeGoverned (headOf 1 0x0C 3 g) (rrr d a b) .none = onlyWhen (d == 0 && b == 0) (.callr a.toFin) ∧
    decodeGoverned (headOf 1 0x0C 4 g) (rrr d a b) .none = onlyWhen (d == 0 && a == 0 && b == 0) .ret

end Sys2Proof.Claims

open Sys2Proof Sys2Proof.Machine Sys2Proof.Claims

/-- R229: the class I integer instructions write their result and change nothing else. -/
def Sys2Proof.Claims.IntegerResultsOfClassI : Prop :=
  ∀ (s : State) (i : Instr) (d : Sreg) (v : Word), integerEffect s i = some (d, v) → s.Here = true → s.endsLegally = true →
    ∃ t, exec i s = .next t ∧ s.WroteS t d v 0

/-- R230: products and quotients land at the end of cycle t + L - 1, with no flag. -/
def Sys2Proof.Claims.ProductsAndQuotientsLandLater : Prop :=
  ∀ (s : State) (i : Instr) (L : Nat) (d : Sreg) (v : Word), productEffect s i = some (L, d, v) → s.Here = true →
    s.endsLegally = true → ∃ t, exec i s = .next t ∧ s.LaterS t L d v 0

/-- R231: moves, selects and extensions. -/
def Sys2Proof.Claims.MovesSelectsAndExtensions : Prop :=
  ∀ (s : State) (i : Instr) (d : Sreg) (v : Word), moveEffect s i = some (d, v) → s.Here = true → s.endsLegally = true →
    ∃ t, exec i s = .next t ∧ s.WroteS t d v 0

/-- R232, R233: compares and predicate instructions write one predicate. -/
def Sys2Proof.Claims.ComparesAndPredicatesWriteOnePredicate : Prop :=
  ∀ (s : State) (i : Instr) (d : Preg) (v : Bool), predicateEffect s i = some (d, v) → s.Here = true → s.endsLegally = true →
    ∃ t, exec i s = .next t ∧ s.WroteP t d v 0

/-- R233: `psave` gathers the eight predicates, `pload` sets p1 to p7, and one after the other restores them. -/
def Sys2Proof.Claims.PredicatesSavedAndLoaded : Prop :=
  ∀ (s : State) (r : Sreg), s.Here = true → s.endsLegally = true →
    (∃ (t : State) (v : Word), exec (.psave r) s = .next t ∧ s.WroteS t r v 0 ∧
      (∀ p : Preg, v.getLsbD p.val = s.pr p) ∧ (∀ k, 8 ≤ k → v.getLsbD k = false)) ∧
    ∃ t, exec (.pload r) s = .next t ∧ s.OnlyThread t ∧ s.Ended t none ∧ s.here.Frame t.here ∧ (∀ q, t.sr q = s.sr q) ∧
      (∀ p : Preg, t.pr p = if p = 0 then true else (s.sr r).getLsbD p.val) ∧ t.here.fflag = s.here.fflag

/-- Class I integer instructions, moves, selects and extensions: encodings, results and frame (R229, R231). -/
def Obligations.ScalarIntegerResults : Prop :=
  IntegerResultsOfClassI ∧ MovesSelectsAndExtensions ∧ IntegerRowsAreRead

/-- Products, quotients and remainders: encodings, values and latency (R230). -/
def Obligations.ProductsAndQuotients : Prop :=
  ProductsAndQuotientsLandLater ∧ ProductRowsAreRead

/-- Compares and predicate instructions: encodings, the predicate written and the frame (R232, R233). -/
def Obligations.PredicateInstructions : Prop :=
  ComparesAndPredicatesWriteOnePredicate ∧ PredicatesSavedAndLoaded ∧ PredicateRowsAreRead

/-! ### Scalar FP32 (spec/12 R234 to R237) -/

namespace Sys2Proof.Claims

/-- The FP32 results that are rounded, or converted: the latency of the class (F 4, DV 16), the destination, the value and the
flags (R234, R235, R237, R139). -/
def fpEffect (s : State) : Instr → Option (Nat × Sreg × Word × Byte)
  | .fadd d a b => let r := f32add (f32 (s.sr a)) (f32 (s.sr b)); some (4, d, f32W r.bits, r.flags)
  | .fsub d a b => let r := f32sub (f32 (s.sr a)) (f32 (s.sr b)); some (4, d, f32W r.bits, r.flags)
  | .fmul d a b => let r := f32mul (f32 (s.sr a)) (f32 (s.sr b)); some (4, d, f32W r.bits, r.flags)
  | .fma d a b c => let r := f32fma (f32 (s.sr a)) (f32 (s.sr b)) (f32 (s.sr c)); some (4, d, f32W r.bits, r.flags)
  | .fdiv d a b => let r := fp32.divV .rne (fp32.dec (f32 (s.sr a))) (fp32.dec (f32 (s.sr b))); some (16, d, f32W r.bits, r.flags)
  | .fsqrt d a => let r := fp32.sqrtV .rne (fp32.dec (f32 (s.sr a))); some (16, d, f32W r.bits, r.flags)
  | .fcvtS rm d a => let r := toIntV rm (-2 ^ 63) (2 ^ 63 - 1) (fp32.dec (f32 (s.sr a))); some (4, d, BitVec.ofInt 64 r.val, r.flags)
  | .fcvtU rm d a => let r := toIntV rm 0 (2 ^ 64 - 1) (fp32.dec (f32 (s.sr a))); some (4, d, BitVec.ofInt 64 r.val, r.flags)
  | .scvtF rm d a => let r := fp32.ofInt rm (s.sr a).toInt; some (4, d, f32W r.bits, r.flags)
  | .ucvtF rm d a => let r := fp32.ofInt rm (s.sr a).toNat; some (4, d, f32W r.bits, r.flags)
  | _ => none

/-- The value of a finite FP32 encoding. -/
def f32Val (x : Nat) : Option ℚ :=
  match fp32.dec x with
  | .fin neg m e => some ((if neg then -1 else 1) * m * (2 : ℚ) ^ e)
  | _ => none

/-- An encoding is a NaN, or a signalling one (R135). -/
def isNan32 (x : Nat) : Bool := 0x7F800000 < x % 2 ^ 31
def isSnan32 (x : Nat) : Bool := isNan32 x && !x.testBit 22
/-- The order −inf < … < −0 < +0 < … < +inf on encodings, and the order in which the zeros are equal. -/
def order32 (x : Nat) : Int := if 2 ^ 31 ≤ x then -(x % 2 ^ 31 : Nat) - 1 else x
def value32 (x : Nat) : Int := if 2 ^ 31 ≤ x then -(x % 2 ^ 31 : Nat) else x

/-- FMinMax of R235: the encoding returned. -/
def fMinMax32 (a b : Nat) (big : Bool) : Nat :=
  if isNan32 a && isNan32 b then 0x7FC00000
  else if isNan32 a then b
  else if isNan32 b then a
  else if (if big then order32 a < order32 b else order32 b < order32 a) then b else a

/-- The bit operations and FMinMax of R235. -/
def fpBitEffect (s : State) : Instr → Option (Sreg × Word × Byte)
  | .fmin d a b => some (d, BitVec.ofNat 64 (fMinMax32 (f32 (s.sr a)) (f32 (s.sr b)) false),
      if isSnan32 (f32 (s.sr a)) || isSnan32 (f32 (s.sr b)) then 0x10 else 0)
  | .fmax d a b => some (d, BitVec.ofNat 64 (fMinMax32 (f32 (s.sr a)) (f32 (s.sr b)) true),
      if isSnan32 (f32 (s.sr a)) || isSnan32 (f32 (s.sr b)) then 0x10 else 0)
  | .fabs d a => some (d, s.sr a &&& 0x7FFFFFFF, 0)
  | .fneg d a => some (d, (s.sr a &&& 0xFFFFFFFF) ^^^ 0x80000000, 0)
  | _ => none

/-- The table of R236: the predicate, its value, and whether NV is set. -/
def fcmpEffect (s : State) : Instr → Option (Preg × Bool × Bool)
  | .fcmpEq d a b => let x := f32 (s.sr a); let y := f32 (s.sr b)
    some (d, !(isNan32 x || isNan32 y) && decide (value32 x = value32 y), isSnan32 x || isSnan32 y)
  | .fcmpNe d a b => let x := f32 (s.sr a); let y := f32 (s.sr b)
    some (d, isNan32 x || isNan32 y || decide (value32 x ≠ value32 y), isSnan32 x || isSnan32 y)
  | .fcmpLt d a b => let x := f32 (s.sr a); let y := f32 (s.sr b)
    some (d, !(isNan32 x || isNan32 y) && decide (value32 x < value32 y), isNan32 x || isNan32 y)
  | .fcmpLe d a b => let x := f32 (s.sr a); let y := f32 (s.sr b)
    some (d, !(isNan32 x || isNan32 y) && decide (value32 x ≤ value32 y), isNan32 x || isNan32 y)
  | .fcmpUn d a b => let x := f32 (s.sr a); let y := f32 (s.sr b)
    some (d, isNan32 x || isNan32 y, isSnan32 x || isSnan32 y)
  | _ => none

/-- The class of an FP32 encoding by its fields: the bit that `fclass` sets (R237). -/
def classBit (x : Nat) : Nat :=
  let neg : Bool := 2 ^ 31 ≤ x
  let mag := x % 2 ^ 31
  if isSnan32 x then 8
  else if isNan32 x then 9
  else if mag = 0x7F800000 then (if neg then 0 else 7)
  else if mag = 0 then (if neg then 3 else 4)
  else if mag < 0x800000 then (if neg then 2 else 5)
  else (if neg then 1 else 6)

end Sys2Proof.Claims

/-- R235, R237: rounded results and conversions land at the end of cycle t + L - 1 with their flags; a NaN that one of them
produces is the canonical NaN (R136). -/
def Obligations.FloatResultsLandLaterAndNansAreCanonical : Prop :=
  ∀ (s : State) (i : Instr) (L : Nat) (d : Sreg) (v : Word) (fl : Byte), fpEffect s i = some (L, d, v, fl) → s.Here = true →
    s.endsLegally = true → ∃ t, exec i s = .next t ∧ s.LaterS t L d v fl ∧
      ((match i with | .fcvtS .. | .fcvtU .. => False | _ => True) → isNan32 v.toNat = true → v = 0x7FC00000)

/-- R235: sums, differences and products of finite numbers are the nearest finite numbers wherever they do not overflow. -/
def Obligations.FloatSumsAndProductsAreNearest : Prop :=
  ∀ (x y z : Nat) (vx vy vz : ℚ), x < 2 ^ 32 → y < 2 ^ 32 → f32Val x = some vx → f32Val y = some vy → f32Val z = some vz →
    (∀ r, f32Val (f32add x y).bits = some r → |r - (vx + vy)| ≤ |vz - (vx + vy)|) ∧
    (∀ r, f32Val (f32sub x y).bits = some r → |r - (vx - vy)| ≤ |vz - (vx - vy)|) ∧
    (∀ r, f32Val (f32mul x y).bits = some r → |r - vx * vy| ≤ |vz - vx * vy|)

/-- R235: `fmin`, `fmax`, `fabs` and `fneg`. -/
def Sys2Proof.Claims.FloatMinMaxAndSignOperations : Prop :=
  ∀ (s : State) (i : Instr) (d : Sreg) (v : Word) (fl : Byte), fpBitEffect s i = some (d, v, fl) → s.Here = true →
    s.endsLegally = true → ∃ t, exec i s = .next t ∧ s.LaterS t 4 d v fl

/-- R236: the predicate and NV of `fcmp`. -/
def Sys2Proof.Claims.FloatComparesFollowTheirTable : Prop :=
  ∀ (s : State) (i : Instr) (d : Preg) (v nv : Bool), fcmpEffect s i = some (d, v, nv) → s.Here = true →
    s.endsLegally = true → ∃ t, exec i s = .next t ∧ s.WroteP t d v (if nv then 0x10 else 0)

/-- R237: `fclass` sets the one bit of the operand's class. -/
def Sys2Proof.Claims.FclassSetsTheBitOfTheClass : Prop :=
  ∀ (s : State) (d a : Sreg), s.Here = true → s.endsLegally = true →
    ∃ t, exec (.fclass d a) s = .next t ∧ s.LaterS t 4 d (BitVec.twoPow 64 (classBit (f32 (s.sr a)))) 0

/-! ### Control transfers, loops, frames (spec/12 R238 to R244; spec/11 R218) -/

/-- R238: `nop` has no effect; `yield` passes issue on, and has no other effect. -/
def Sys2Proof.Claims.NopAndYieldHaveNoEffectOnData : Prop :=
  ∀ s : State, s.Here = true → s.endsLegally = true →
    (∃ t, exec .nopInstruction s = .next t ∧ s.Went t none) ∧
    ∃ t, exec .yield s = .next t ∧ t = (s.modHereTile fun T => { T with consec := 65 }).modHere (fun _ => t.here) ∧
      s.SameBytes t ∧ s.Ended t none ∧ s.here.Frame t.here ∧ s.SameRegs t ∧ t.here.pend = s.leftPend s.here.pend ∧
      ∀ p k cyc, s.cur.agent = .tile p k → (t.tile p k).passes cyc = true

namespace Sys2Proof.Claims

/-- The target of a transfer of R239, and the link it writes. -/
def transfer (s : State) : Instr → Option (Addr × Option Addr)
  | .br t => some (lineOfAddr s.here.unit.addr + (t.off.signExtend 57 <<< 6) + (t.idx.setWidth 57 <<< 1), none)
  | .call t => some (lineOfAddr s.here.unit.addr + (t.off.signExtend 57 <<< 6) + (t.idx.setWidth 57 <<< 1), some s.here.unit.next)
  | .brr a => some ((s.sr a).setWidth 57, none)
  | .callr a => some ((s.sr a).setWidth 57, some s.here.unit.next)
  | .ret => some ((s.sr 1).setWidth 57, none)
  | _ => none

/-- A blocking unit whose loop return would be refused when it ends has no effect, and its thread holds the fault (R218, R241; the model's
reading, log entry 19). -/
def HoldsItsReturn (i : Instr) (s : State) : Prop :=
  ∀ (a : Addr) (c : Cause) (d : Word), s.returnRefused = some (a, (c, d)) → ∃ t, exec i s = .next t ∧ s.OnlyThread t ∧
    t.here = { s.here with wait := .target a c d, waitFrom := s.cycle, readyAt := s.nextIssue true }

/-- A transfer whose target fails its check has no effect: at an odd address the fault is raised at once; else the thread holds it until
the line of the target is present and it would issue there (R218; that it waits so is the model's reading, log entry 19). -/
def FaultsItsTarget (i : Instr) (s : State) (tgt : Addr) (c : Cause) (d : Word) : Prop :=
  (tgt.getLsbD 0 = true → exec i s = .next (s.raise c d)) ∧
  (tgt.getLsbD 0 = false → ∃ t, exec i s = .next t ∧ s.OnlyThread t ∧
    t.here = { s.here with wait := .target tgt c d, waitFrom := s.cycle, readyAt := s.nextIssue true })

end Sys2Proof.Claims

/-- R239, R218: a transfer to a legal target moves the program counter there and writes the link of a call; a transfer whose
target fails the check writes no link, and its fault, with the cause and detail of the check, is charged to its own unit. -/
def Sys2Proof.Claims.TransfersMoveTheProgramCounter : Prop :=
  ∀ (s : State) (i : Instr) (tgt : Addr) (l : Option Addr), transfer s i = some (tgt, l) → s.Here = true →
    (targetFault s s.cur.agent tgt = none → ∃ t, exec i s = .next t ∧ s.OnlyThread t ∧ s.Ended t (some tgt) ∧ t.here.pc = tgt ∧
      s.here.Frame t.here ∧ (∀ p, t.pr p = s.pr p) ∧ t.here.fflag = s.here.fflag ∧
      ∀ r, t.sr r = match l with | some a => if r = 1 then a.setWidth 64 else s.sr r | none => s.sr r) ∧
    ∀ c d, targetFault s s.cur.agent tgt = some (c, d) → FaultsItsTarget i s tgt c d

/-- R218, R91: a fault that a thread of a tile holds is raised when the thread may issue and the target's line is present or cannot be
fetched: the thread becomes the current one, and nothing else is done. A controller's is checked again then: it raises what the check finds,
or goes on where the target has become legal (log entry 19). Until then the thread is not ready. -/
def Sys2Proof.Claims.HeldFaultsAreRaised : Prop :=
  ∀ (s : State) (a : Agent) (i : Nat) (tgt : Addr) (c : Cause) (d : Word), (s.thread a i).wait = .target tgt c d →
    let s1 : State := { s with cur := ⟨a, i⟩, visited := agentKey a + 1 }
    ((s.lineAt a (lineOfAddr tgt)).isSome = true ∨ lineCheck s a (lineOfAddr tgt) ≠ none →
      (∀ p k, a = .tile p k → s.issue a i = .settled ((s1.modTile p k fun T => T.noteIssue i s.cycle false).raise c d)) ∧
      ∀ e, a = .ctrl e →
        (∀ c' d', targetFault s1 a tgt = some (c', d') → s.issue a i = .settled (s1.raise c' d')) ∧
        (targetFault s1 a tgt = none → s.issue a i = .settled (s1.modHere fun t => { t with wait := .ready }))) ∧
    (s.lineAt a (lineOfAddr tgt) = none → lineCheck s a (lineOfAddr tgt) = none → s.threadReady a (s.thread a i) = false)

/-- R217, R218: an odd address, a line that cannot be fetched, an illegal line and an address that begins no unit are no legal
targets, each with its cause and detail; every other address is one. -/
def Sys2Proof.Claims.LegalTargetsBeginAUnit : Prop :=
  ∀ (s : State) (a : Agent) (tgt : Addr),
    (tgt.getLsbD 0 = true → targetFault s a tgt = some (.illegalTarget, tgt.setWidth 64)) ∧
    (tgt.getLsbD 0 = false →
      (∀ r, s.lineAt a (lineOfAddr tgt) = none → lineCheck s a (lineOfAddr tgt) = some r → targetFault s a tgt = some r) ∧
      ((s.lineAt a (lineOfAddr tgt)).isSome = true ∨ lineCheck s a (lineOfAddr tgt) = none →
        (decodeLine (s.lineBytes a (lineOfAddr tgt)) = none →
          targetFault s a tgt = some (.illegalLine, (lineOfAddr tgt).setWidth 64)) ∧
        ∀ hs, decodeLine (s.lineBytes a (lineOfAddr tgt)) = some hs →
          targetFault s a tgt = if (unitStarts true hs)[headIdx tgt]? = some true then none
            else some (.illegalTarget, tgt.setWidth 64)))

/-- R240: `loop` sets up its level, and a count of zero transfers past the end unit. -/
def Sys2Proof.Claims.LoopSetsUpItsLevel : Prop :=
  ∀ (s : State) (L : Fin 4) (n : LoopCount) (e : Target), s.Here = true →
    let cnt : Word := match n with | .imm v => v.setWidth 64 | .reg r => s.sr r
    let endAt := lineOfAddr s.here.unit.addr + (e.off.signExtend 57 <<< 6) + (e.idx.setWidth 57 <<< 1)
    let u : Thread := { s.here with lb := s.here.lb.set L.val s.here.unit.next, le := s.here.le.set L.val endAt, lc := s.here.lc.set L.val cnt }
    (cnt ≠ 0 → ((loopEnd s.here.unit.addr u).2.bind (targetFault s s.cur.agent)) = none →
      ∃ t, exec (.loop L n e) s = .next t ∧ s.OnlyThread t ∧ s.SameRegs t ∧ t.here.lb = u.lb ∧ t.here.le = u.le ∧
        t.here.lc = (loopEnd s.here.unit.addr u).1.lc ∧ t.here.pc = (loopEnd s.here.unit.addr u).2.getD s.here.unit.next ∧
        t.here.pend = dropCounts s.cycle u.lc t.here.lc (s.here.dropLoop s.cycle L).pend) ∧
    (cnt = 0 → targetFault s s.cur.agent (nextUnitAt s s.cur.agent endAt) = none →
      ∃ t, exec (.loop L n e) s = .next t ∧ s.Went t (some (nextUnitAt s s.cur.agent endAt))) ∧
    (cnt = 0 → ∀ c d, targetFault s s.cur.agent (nextUnitAt s s.cur.agent endAt) = some (c, d) →
      FaultsItsTarget (.loop L n e) s (nextUnitAt s s.cur.agent endAt) c d)

/-- R241: the levels whose end unit stands at an address: the highest one with passes left stays open and its body begins
again, and those above it, on their last pass, close. -/
def Obligations.LoopEndCountsTheLevels : Prop :=
  ∀ (a : Addr) (t : Thread),
    let ends (L : Fin 4) : Prop := t.lc[L] ≠ 0 ∧ t.le[L] = a
    ((∀ L, ¬ ends L) → loopEnd a t = (t, none)) ∧
    ((∀ L, ends L → t.lc[L] = 1) →
      (loopEnd a t).2 = none ∧ ∀ L : Fin 4, (ends L → (loopEnd a t).1.lc[L] = 0) ∧ (¬ ends L → (loopEnd a t).1.lc[L] = t.lc[L])) ∧
    ∀ K : Fin 4, ends K → t.lc[K] ≠ 1 → (∀ L, K < L → ends L → t.lc[L] = 1) →
      (loopEnd a t).2 = some t.lb[K] ∧ ∀ L : Fin 4, (loopEnd a t).1.lc[L] =
        if L = K then t.lc[K] - 1 else if K < L ∧ t.le[L] = a then 0 else t.lc[L]

/-- R242, R92: `lexit` of an inactive level has no effect; of an active one, it clears the level and those nested in its body and
transfers past its end unit. A pending write to a count that it clears, which would have landed by now, is dropped. -/
def Sys2Proof.Claims.LexitLeavesTheLevelAndThoseInIt : Prop :=
  ∀ (s : State) (L : Fin 4), s.Here = true →
    (s.here.lc[L] = 0 → s.endsLegally = true → ∃ t, exec (.lexit L) s = .next t ∧ s.Went t none) ∧
    (s.here.lc[L] ≠ 0 → targetFault s s.cur.agent (nextUnitAt s s.cur.agent s.here.le[L]) = none →
      ∃ (t : State) (lc : Vector Word 4), exec (.lexit L) s = .next t ∧ s.OnlyThread t ∧ s.SameRegs t ∧
        t.here.pc = nextUnitAt s s.cur.agent s.here.le[L] ∧ t.here.lb = s.here.lb ∧ t.here.le = s.here.le ∧
        (∀ K : Fin 4, lc[K] =
          if K = L ∨ (s.here.lb[L].toNat ≤ s.here.le[K].toNat ∧ s.here.le[K].toNat ≤ s.here.le[L].toNat) then 0 else s.here.lc[K]) ∧
        t.here.lc = (loopEnd s.here.unit.addr { s.here with lc := lc }).1.lc ∧
        t.here.pend = dropCounts s.cycle lc t.here.lc (dropCounts s.cycle s.here.lc lc s.here.pend)) ∧
    (s.here.lc[L] ≠ 0 → ∀ c d, targetFault s s.cur.agent (nextUnitAt s s.cur.agent s.here.le[L]) = some (c, d) →
      FaultsItsTarget (.lexit L) s (nextUnitAt s s.cur.agent s.here.le[L]) c d)

/-- R244: `enter` lowers s2, or raises STACK_LIMIT with s2 unchanged; `leave` raises s2. -/
def Sys2Proof.Claims.EnterAndLeaveMoveTheStackPointer : Prop :=
  ∀ (s : State) (n8 : BitVec 18), s.Here = true →
    let n : Word := BitVec.ofNat 64 (8 * n8.toNat)
    let t0 := s.sr 2 - n
    ((s.here.slim.toNat : Int) ≤ t0.toInt → s.endsLegally = true → ∃ t, exec (.enter n8) s = .next t ∧ s.WroteS t 2 t0 0) ∧
    (t0.toInt < s.here.slim.toNat → exec (.enter n8) s = .next (s.raise .stackLimit t0)) ∧
    (s.endsLegally = true → ∃ t, exec (.leave n8) s = .next t ∧ s.WroteS t 2 (s.sr 2 + n) 0)

/-- FP32 minimum, maximum, signs, compares and classes, and the encodings of the compares (R236). -/
def Obligations.FloatOperationsOnBits : Prop :=
  FloatMinMaxAndSignOperations ∧ FloatComparesFollowTheirTable ∧ FclassSetsTheBitOfTheClass ∧ FloatCompareRowsAreRead

/-- nop and yield (R238). -/
def Obligations.NopAndYield : Prop :=
  NopAndYieldHaveNoEffectOnData ∧ NopAndYieldAreRead

/-- Branches, calls and returns, and which addresses are legal targets (R217, R239). -/
def Obligations.TransfersGoToLegalTargets : Prop :=
  TransfersMoveTheProgramCounter ∧ LegalTargetsBeginAUnit ∧ HeldFaultsAreRaised ∧ TransferRowsAreRead

/-- loop and lexit: encodings, levels, transfers and faults (R240, R242). -/
def Obligations.LoopsAreSetUpAndLeft : Prop :=
  LoopSetsUpItsLevel ∧ LexitLeavesTheLevelAndThoseInIt ∧ LoopRowsAreRead

/-- enter and leave: encodings, s2 and STACK_LIMIT (R244). -/
def Obligations.EnterAndLeave : Prop :=
  EnterAndLeaveMoveTheStackPointer ∧ FrameRowsAreRead

/-! ### Traps and control registers (spec/09; spec/16 R316 to R321; spec/11 R222) -/

namespace Sys2Proof.Claims

/-- The fault ring of a partition stands at consecutive physical bytes from `base` (R183). -/
def ringAt (s : State) (p base : Nat) : Prop :=
  ∀ k, k < 5 * 65536 → translate (s.part p).trans ((Config.faultRingPage p).toNat * 65536 + k) = some ⟨false, base + k⟩

/-- A little-endian number of n bytes of HBM. -/
def hbmNat (s : State) (a n : Nat) : Nat := ((List.range n).map fun k => (s.hbm.read (a + k)).toNat * 256 ^ k).sum

/-- The causes whose vote is forced (R173). -/
def forcedCause : Cause → Bool
  | .unstaged | .slip | .late | .eccUncorr | .parity | .linkFail | .watchdog | .boundWash => true
  | _ => false

/-- A cell that the mode does not allow, and the cause it raises (the table of R222; R316 for the control registers). -/
def forbidden (m : Mode) (i : Instr) : Option Cause :=
  match i with
  | .waitf .. | .waite .. | .advp .. | .advc ..
  | .vadd .. | .vsub .. | .vmul .. | .vmin .. | .vmax .. | .vabs .. | .vneg .. | .vfma .. | .vand .. | .vor .. | .vxor .. | .vnot ..
  | .vshl .. | .vshr .. | .vsra .. | .vcmpEq .. | .vcmpNe .. | .vcmpLt .. | .vcmpLe .. | .vcmpGt .. | .vcmpGe .. | .vsel .. | .vbcast ..
  | .vbcastElement .. | .vperm .. | .vpermRot .. | .vmov .. | .vcvt .. | .vscan .. | .vred .. | .vredScalar .. | .vexp2 .. | .vlog2 ..
  | .vrcp .. | .vrsq .. | .vtanh .. | .vsig .. | .mpdef .. | .mprun .. | .expr .. | .mma .. | .mldt .. | .mzero .. | .quant ..
  | .xsync | .xmit .. | .xsel .. | .fix .. | .fixEnd .. | .vote .. | .stage .. | .wbk .. | .tsync | .mwait =>
    if m = .firmware then some .illegalOp else none
  | .tlbi .. | .tlbiAll .. => if m = .firmware then none else some .priv
  | .rft => if m = .task then some .illegalOp else none
  | .csrr _ n | .csrwReg n _ | .csrwImm n _ => if m = .firmware ∧ csrFirmware n = false then some .illegalOp else none
  | _ => none

/-- The larger of two votes. -/
def larger (a b : BitVec 2) : BitVec 2 := if a.toNat ≤ b.toNat then b else a

/-- The unit waits, a completion of its wait is due, and nothing else of its thread has changed. -/
def WaitsFor (s t : State) (w : Wait) : Prop :=
  s.Blocked t w ∧ s.SameBytes t ∧
    ∃ n, t.agenda = s.agenda ++ [⟨s.cycle + 1 + n, .blockingWaitDone, { agent := s.cur.agent, th := s.cur.th, op := s.cycle }⟩]

/-- The unit raised the cause with the detail: the fault's own effect, and none of the unit's. -/
def Raises (i : Instr) (s : State) (c : Cause) (d : Word) : Prop := exec i s = .next (s.raise c d)

end Sys2Proof.Claims

/-- R222: a cell that the mode of its thread forbids raises its cause, with the head as detail, and has no effect. -/
def Obligations.ForbiddenCellsTrap : Prop :=
  ∀ (s : State) (i : Instr) (c : Cause), forbidden s.here.mode i = some c → Raises i s c (s.here.unit.head.setWidth 64)

/-- R175, R319: a thread trap of a task writes the trap registers and the vote and enters the handler, or acts as `fix` where
%tvec is 0; `trap` raises TRAP, whose %tepc is the next unit. No register, predicate, loop register or tile buffer changes, and
no other thread of a tile. Writes of the trap registers and clears of %flt that land by the end of the trap's cycle land before it (R175,
R223), and the fault is then the first in %flt or is counted (R186). -/
def Obligations.TrapsEnterTheHandler : Prop :=
  ∀ (s : State) (p k : Nat) (c : Cause) (d : Word), s.cur.agent = .tile p k → s.Here = true → s.here.mode = .task → s.cur.th < 8 →
    let t := s.raise c d
    let T := s.tile p k
    let u := s.here.landTrap s.cycle
    let pc' := if c = .trap then u.unit.next else u.unit.addr
    let clears (x : Pend) : Bool := decide (x.land ≤ s.cycle) && decide (x.dest = .csr 0x118)
    let clr : Bool := T.threads.any fun th => th.pend.any fun x => clears x && x.val.getLsbD 63
    let left (ps : List Pend) : List Pend := if clr then ps.filter fun x => !clears x else ps
    let trapReg (n : BitVec 12) : Prop := n = 0x020 ∨ n = 0x021 ∨ n = 0x022
    ((∀ x ∈ s.here.pend, x.land ≤ s.cycle → ∀ n, x.dest = .csr n → ¬ trapReg n) → u = s.here) ∧
    (∀ v fl m, s.here.pend = [⟨m, .csr 0x020, v, fl⟩] → m ≤ s.cycle → u = { s.here with tvec := v &&& 0x01FFFFFFFFFFFFC0, pend := [] }) ∧
    t.cur = s.cur ∧ t.cycle = s.cycle ∧
    t.here = { u with
      tepc := pc', tcause := BitVec.ofNat 8 c.code, tpvote := u.vote, tforced := forcedCause c, tpfx := u.unit.hasPfx, tchain := false
      thops := 0, tdet := d, hvote := 0, vote := if u.vote = 0 then 1 else u.vote, fixRec := none, xsynced := t.here.xsynced
      atfix := decide (u.tvec = 0), mode := if u.tvec = 0 then .task else .handler, pend := left u.pend
      wait := if u.tvec = 0 then .fixed else .ready, pc := if u.tvec = 0 then pc' else u.tvec.setWidth 57, readyAt := t.here.readyAt } ∧
    s.cycle + 6 ≤ t.here.readyAt ∧ s.SameBufs t ∧ t.flash = s.flash ∧
    (∀ j, j ≠ s.cur.th → (t.tile p k).thread j = { T.thread j with pend := left (T.thread j).pend }) ∧
    (∀ q n j, (q, n) ≠ (p, k) → (t.tile q n).thread j = (s.tile q n).thread j) ∧
    (∀ base, ringAt s p base → t.host = s.host ∧ ∀ a, (a < base ∨ base + 5 * 65536 ≤ a) → t.hbm.read a = s.hbm.read a) ∧
    (t.tile p k).faults = T.faults ++ [⟨s.cur.th, 1, c, d⟩] ∧
    (if clr = true ∨ T.flt.getLsbD 63 = false then
      (t.tile p k).fltd = d ∧ (t.tile p k).flt = BitVec.ofNat 64 (2 ^ 63 + s.cur.th * 2 ^ 56 + c.code * 2 ^ 48 + (nextSsn (s.part p).ssn).toNat)
     else (t.tile p k).fltd = T.fltd ∧
      (t.tile p k).flt = if (T.flt.extractLsb' 32 16).toNat < 65535 then T.flt + 0x100000000 else T.flt) ∧
    ∀ code, exec (.trap code) s = .next (s.raise .trap (code.setWidth 64))

/-- R184, R185: a fault of a task thread, with room in the ring, increments WR and writes a record of 64 bytes (where HBM is available,
R25). -/
def Sys2Proof.Claims.FaultRecordsAreWrittenToTheRing : Prop :=
  ∀ (s : State) (p k base : Nat) (c : Cause) (d : Word), s.cur.agent = .tile p k → s.Here = true → s.here.mode = .task →
    s.cur.th < 8 → ringAt s p base → s.hbm.wf = true → s.boot.recov = false →
    let wr := hbmNat s base 4
    let rd := hbmNat s (base + 4) 4
    let t := s.raise c d
    let r := base + 64 + 64 * (wr % 4096)
    ((wr + 2 ^ 32 - rd) % 2 ^ 32 < 4096 →
      hbmNat t base 4 = (wr + 1) % 2 ^ 32 ∧ hbmNat t r 8 = s.ptime.toNat ∧ hbmNat t (r + 8) 4 = (nextSsn (s.part p).ssn).toNat ∧
      hbmNat t (r + 12) 1 = c.code ∧ hbmNat t (r + 13) 1 = 0 ∧ hbmNat t (r + 14) 1 = s.cur.th ∧
      hbmNat t (r + 15) 1 = min (s.part p).washRuns 255 ∧ hbmNat t (r + 16) 2 = k % 2 ^ 16 ∧ hbmNat t (r + 18) 6 = 0 ∧
      hbmNat t (r + 24) 8 = d.toNat ∧ hbmNat t (r + 32) 8 = (if c = .trap then s.here.unit.next else s.here.unit.addr).toNat ∧
      hbmNat t (r + 40) 2 = s.here.unit.head.toNat ∧ hbmNat t (r + 48) 12 = 0 ∧ hbmNat t (r + 60) 4 = wr) ∧
    (¬ (wr + 2 ^ 32 - rd) % 2 ^ 32 < 4096 →
      hbmNat t base 4 = (wr + 1) % 2 ^ 32 ∧ (t.hbm.read (base + 8)).getLsbD 0 = true ∧ (t.tile p k).flost = true ∧
      hbmNat t (base + 12) 4 = min (hbmNat s (base + 12) 4 + 1) 0xFFFFFFFF ∧
      ∀ a, base + 64 ≤ a → t.hbm.read a = s.hbm.read a)

/-- R182: a trap in handler mode with no chain entry votes halt on every tile of the pod, whose threads stop. -/
def Sys2Proof.Claims.NestedFaultsWithoutAChainStopThePod : Prop :=
  ∀ (s : State) (p k : Nat) (c : Cause) (d : Word), s.cur.agent = .tile p k → s.Here = true → s.here.mode = .handler →
    s.hchain.toList.getD (s.physPod p (k / 8)) 0 = 0 → (∀ j, j < 8 → k / 8 * 8 + j < (s.part p).tiles.length) →
    let t := s.raise c d
    (∀ j, j < 8 → (t.tile p (k / 8 * 8 + j)).stopIssue = true ∧
      ∀ i, ((s.tile p (k / 8 * 8 + j)).thread i).task = .running → i < (s.tile p (k / 8 * 8 + j)).threads.length →
        ((t.tile p (k / 8 * 8 + j)).thread i).vote = 2 ∧ ((t.tile p (k / 8 * 8 + j)).thread i).atfix = true) ∧
    (t.part p).run = (s.part p).run ∧ s.SameBufs t ∧ t.here.mode = .task

/-- R177, R320: `rft` in handler mode returns the thread to task mode at %tepc, with the vote that ReturnFromTrap gives. -/
def Obligations.RftReturnsToTheTask : Prop :=
  ∀ (s : State) (p k : Nat), s.cur.agent = .tile p k → s.Here = true → s.here.mode = .handler →
    targetFault s s.cur.agent s.here.tepc = none →
    (s.here.tpfx = true → (s.headAt s.cur.agent s.here.tepc).2 = true) →
    ∃ t, exec .rft s = .next t ∧ t = (s.modHereTile fun T => { T with faults := t.hereTile.faults }).modHere (fun _ => t.here) ∧
      s.SameBytes t ∧
      t.here = { s.here with
        vote := larger (larger s.here.tpvote s.here.hvote) (if s.here.tforced then 1 else 0), mode := .task, pc := s.here.tepc
        lc := s.loops.1.lc, pend := s.leftPend s.here.pend, wait := .ready, readyAt := t.here.readyAt } ∧
      s.cycle + 4 ≤ t.here.readyAt

/-- R195, R320: a trap in firmware mode enters the controller's handler, a nested one resets the controller (its SRAM kept,
log entry 26), and `rft` returns. -/
def Obligations.ControllersTakeTrapsInTheirOwnHandler : Prop :=
  ∀ (s : State) (e : Nat) (c : Cause) (d : Word), s.cur.agent = .ctrl e → e < 4 →
    let u := s.here.landTrap s.cycle
    let t := s.raise c d
    (u.handling = false → u.tvec ≠ 0 → t = s.modCtrl e (fun x => { x with back := none, th := t.here }) ∧ t.here = { u with
      tepc := if c = .trap then u.unit.next else u.unit.addr, tcause := BitVec.ofNat 8 c.code, tpfx := u.unit.hasPfx
      tforced := forcedCause c, tdet := d, handling := true, pc := u.tvec.setWidth 57, wait := .ready, readyAt := t.here.readyAt }) ∧
    (u.handling = true ∨ u.tvec = 0 → t = s.modCtrl e fun x => { Ctrl.zero with sram := x.sram }) ∧
    ((∀ x ∈ s.here.pend, s.cycle < x.land) → u = s.here) ∧
    (s.here.mode = .firmware → targetFault s s.cur.agent s.here.tepc = none →
      (s.here.tpfx = true → (s.headAt s.cur.agent s.here.tepc).2 = true) →
      ∃ r, exec .rft s = .next r ∧ r = s.modHere (fun _ => r.here) ∧
        r.here = { s.here with handling := false, pc := s.here.tepc, lc := s.loops.1.lc, pend := s.leftPend s.here.pend, wait := .ready
                               readyAt := r.here.readyAt })

/-- R320, R241: `halt` votes halt and stops the thread until F; a controller's `halt` stops it until its next management event, at which
the unit ends. -/
def Sys2Proof.Claims.HaltStopsTheThread : Prop :=
  ∀ s : State, s.Here = true →
    (s.here.mode ≠ .firmware → ∃ t, exec .halt s = .next t ∧ s.SameBytes t ∧ t.here.vote = larger s.here.vote 2 ∧ t.here.atfix = true ∧
      t.here.wait = .fixed ∧ t.here.fixRec = none ∧ t.here.vdet = 0 ∧ t.here.mode = s.here.mode ∧ s.SameRegs t) ∧
    (s.here.mode = .firmware →
      (s.returnRefused = none → ∃ t, exec .halt s = .next t ∧ s.OnlyThread t ∧ s.SameRegs t ∧ s.Blocked t .stopped) ∧
      HoldsItsReturn .halt s ∧ ∀ e, s.cur.agent = .ctrl e → s.here.wait = .stopped → s.wakeCtrls.here = { s.here with wait := .woken })

/-- R316, R318: `csrr` queues the register's value in force at issue, which lands in cycle t + 1; `csrw` queues its value, and a
format register takes its value at once (R98); a register without a writable field, and %tepc or %tstat in task mode, raise
PRIV with the register number. -/
def Sys2Proof.Claims.ControlRegistersReadAndWritten : Prop :=
  ∀ (s : State) (d a : Sreg) (n : BitVec 12) (y : Word), s.Here = true → forbidden s.here.mode (.csrr d n) = none →
    let refused : Bool := n = 0x000 || (0x040 ≤ n && n ≤ 0x044) || n = 0x023 || n = 0x11A || (0x080 ≤ n && n ≤ 0x09F)
      || (s.here.mode = .task && (n = 0x021 || n = 0x022))
    let fmt : Bool := 0x110 ≤ n && n ≤ 0x114
    (s.endsLegally = true → ∃ t, exec (.csrr d n) s = .next t ∧ s.LaterS t 2 d (csrRead s s.cur.agent s.cur.th n) 0) ∧
    (refused = true → Raises (.csrwReg n a) s .priv (n.setWidth 64) ∧ Raises (.csrwImm n y) s .priv (n.setWidth 64)) ∧
    (csrAssigned n = true → n ≠ 0x119 → refused = false → fmt = false → s.endsLegally = true →
      (∃ t, exec (.csrwReg n a) s = .next t ∧ s.Queued t ⟨s.cycle + 1, .csr n, s.sr a, 0⟩) ∧
      ∃ t, exec (.csrwImm n y) s = .next t ∧ s.Queued t ⟨s.cycle + 1, .csr n, y, 0⟩) ∧
    (csrAssigned n = true → fmt = true → s.endsLegally = true → ∀ p k, s.cur.agent = .tile p k →
      ∀ (i : Instr) (y : Word), (i = .csrwReg n a ∧ y = s.sr a) ∨ i = .csrwImm n y →
      ∃ t, exec i s = .next t ∧ s.SameBytes t ∧ s.Ended t none ∧ s.here.Frame t.here ∧ s.SameRegs t ∧
        ∀ i, i < 8 → 8 * (n.toNat - 0x110) + i < 40 →
          (t.tile p k).fmt.toList.getD (8 * (n.toNat - 0x110) + i) 0 =
            if fmtAllowed (fmtBuf (8 * (n.toNat - 0x110) + i)) (y.extractLsb' (8 * i) 8) = true then y.extractLsb' (8 * i) 8
            else (s.tile p k).fmt.toList.getD (8 * (n.toNat - 0x110) + i) 0)

/-- R318 and the register maps it names: what a landed `csrw` leaves a thread's own register reading as. -/
def Sys2Proof.Claims.WrittenControlRegistersReadBackByField : Prop :=
  ∀ (s : State) (v : Word), s.Here = true →
    let w (n : BitVec 12) : Word := csrRead (csrWrite s s.cur.agent s.cur.th n v) s.cur.agent s.cur.th n
    let r (n : BitVec 12) : Word := csrRead s s.cur.agent s.cur.th n
    w 0x001 = v &&& 0x7 ∧ w 0x002 = v &&& 0x3FFFF ∧ w 0x003 = (if v.getLsbD 63 then 0 else r 0x003) ∧
    w 0x005 = r 0x005 &&& ~~~(v &&& 0xDF) ∧ w 0x006 = r 0x006 &&& ~~~(v &&& 0xFF0000000000) ∧
    w 0x020 = v &&& 0x01FFFFFFFFFFFFC0 ∧ w 0x021 = v &&& 0x01FFFFFFFFFFFFFE ∧
    (∀ k : Fin 4, w (0x008 + BitVec.ofNat 12 k) = v &&& 0x01FFFFFFFFFFFFFE ∧ w (0x00C + BitVec.ofNat 12 k) = v &&& 0x01FFFFFFFFFFFFFE ∧
      w (0x010 + BitVec.ofNat 12 k) = v) ∧
    (w 0x004).getLsbD 9 = ((r 0x004).getLsbD 9 && !v.getLsbD 9) ∧ (w 0x004).getLsbD 8 = ((r 0x004).getLsbD 8 && !v.getLsbD 8) ∧
    (w 0x022).getLsbD 4 = v.getLsbD 4

/-- R321: `tlbi` in firmware mode: a bad partition number traps, no page ends at once, and else the controller waits until the
cached translations are gone, when the partition's next tables use the new translation for the named pages. -/
def Sys2Proof.Claims.TlbiWaitsForTheStagingUnits : Prop :=
  ∀ (s : State) (p v n : Sreg), s.Here = true → s.here.mode = .firmware →
    let P := (s.sr p).toNat
    let vpn := ((s.sr v).toNat / 65536) % 2 ^ 41
    (63 < P ∨ (s.part P).valid = false → Raises (.tlbi p v n) s .illegalTarget (s.sr p) ∧ Raises (.tlbiAll p) s .illegalTarget (s.sr p)) ∧
    (P ≤ 63 → (s.part P).valid = true →
      (s.sr n = 0 → s.endsLegally = true → ∃ t, exec (.tlbi p v n) s = .next t ∧ s.Went t none) ∧
      (s.sr n ≠ 0 → ∃ t, exec (.tlbi p v n) s = .next t ∧ WaitsFor s t (.tlbi P vpn (s.sr n).toNat)) ∧
      ∃ t, exec (.tlbiAll p) s = .next t ∧ WaitsFor s t (.tlbi P 0 (2 ^ 41)))

/-- Fault records in the ring, and a nested fault with no chain (R182, R183, R184, R185). -/
def Obligations.FaultRecordsAndNestedFaults : Prop :=
  FaultRecordsAreWrittenToTheRing ∧ NestedFaultsWithoutAChainStopThePod

/-- halt and tlbi (R320, R321). -/
def Obligations.HaltAndTlbi : Prop :=
  HaltStopsTheThread ∧ TlbiWaitsForTheStagingUnits

/-- csrr, csrw and the fields of the control registers (R98, R176, R240, R316, R317, R318). -/
def Obligations.ControlRegistersAreReadAndWritten : Prop :=
  ControlRegistersReadAndWritten ∧ WrittenControlRegistersReadBackByField

/-! ### Loads, stores, atomics and fences (spec/13 R247 to R252) -/

namespace Sys2Proof.Claims

/-- The table of R248: width, sign extension, register and memory operand of a load. -/
def loadForm : Instr → Option (Nat × Bool × Sreg × MemRef)
  | .ldBMem d m => some (1, true, d, m.ref)
  | .ldBAtom d m => some (1, true, d, m.ref)
  | .ldBuMem d m => some (1, false, d, m.ref)
  | .ldBuAtom d m => some (1, false, d, m.ref)
  | .ldHMem d m => some (2, true, d, m.ref)
  | .ldHAtom d m => some (2, true, d, m.ref)
  | .ldHuMem d m => some (2, false, d, m.ref)
  | .ldHuAtom d m => some (2, false, d, m.ref)
  | .ldWMem d m => some (4, true, d, m.ref)
  | .ldWAtom d m => some (4, true, d, m.ref)
  | .ldWuMem d m => some (4, false, d, m.ref)
  | .ldWuAtom d m => some (4, false, d, m.ref)
  | .ldDMem d m => some (8, false, d, m.ref)
  | .ldDAtom d m => some (8, false, d, m.ref)
  | _ => none

/-- The table of R248: width, data register and memory operand of a store. -/
def storeForm : Instr → Option (Nat × Sreg × MemRef)
  | .stBMem d m => some (1, d, m.ref)
  | .stBAtom d m => some (1, d, m.ref)
  | .stHMem d m => some (2, d, m.ref)
  | .stHAtom d m => some (2, d, m.ref)
  | .stWMem d m => some (4, d, m.ref)
  | .stWAtom d m => some (4, d, m.ref)
  | .stDMem d m => some (8, d, m.ref)
  | .stDAtom d m => some (8, d, m.ref)
  | _ => none

/-- The table of R251: register, memory operand and new word from the old one; no new word where nothing is written. -/
def atomicForm (s : State) (o : Word) : Instr → Option (Sreg × AtomOp × Option Word)
  | .amoAdd d m x => some (d, m, some (o + s.sr x))
  | .amoAnd d m x => some (d, m, some (o &&& s.sr x))
  | .amoOr d m x => some (d, m, some (o ||| s.sr x))
  | .amoXor d m x => some (d, m, some (o ^^^ s.sr x))
  | .amoMin d m x => some (d, m, some (smin o (s.sr x)))
  | .amoMax d m x => some (d, m, some (smax o (s.sr x)))
  | .amoMinu d m x => some (d, m, some (umin o (s.sr x)))
  | .amoMaxu d m x => some (d, m, some (umax o (s.sr x)))
  | .cas d m x z => some (d, m, if o = s.sr x then some (s.sr z) else none)
  | .swap d m x => some (d, m, some (s.sr x))
  | _ => none

/-- The buffer of a space. -/
def bufOf : Space → Option Buf
  | .w => some .w
  | .a => some .a
  | .c => some .c
  | _ => none

/-- The effective address (R247). -/
def address (s : State) (m : MemRef) : Word := s.sr m.base + m.disp

/-- A thread keeps everything but what an access may change of it: its pending writes, readiness, loop counts, the sticky bits
%oob, CLAMP and DROP, and what happens before its accesses. -/
def AccessFrame (u v : Thread) : Prop :=
  v = { u with pend := v.pend, lc := v.lc, pc := v.pc, wait := v.wait, waitFrom := v.waitFrom, readyAt := v.readyAt, oob := v.oob, clamp := v.clamp
               drop := v.drop, hb := v.hb, seen := v.seen, seq := v.seq }

/-- The pending writes `ps` as an access leaves them: each as it was, but for a `csrw` of %oob or %scl that would have landed by now, which no
longer clears a sticky bit that the access sets (R92, R223). -/
def Kept (cyc : Nat) (ps qs : List Pend) : Prop :=
  List.Forall₂ (fun x y => y = { x with val := y.val } ∧ (y.val = x.val ∨ x.land ≤ cyc ∧
    (x.dest = .csr 0x003 ∧ y.val = x.val &&& ~~~0x8000000000000000 ∨ x.dest = .csr 0x004 ∧ ∃ m : Word, y.val = x.val &&& ~~~(m &&& 0x300)))) ps qs

/-- The bytes of a value, lowest first, and their number. -/
def valueByte (v : Word) (k : Nat) : Byte := v.extractLsb' (8 * k) 8

/-- A value of n bytes extended (R248). -/
def extended (n : Nat) (signed : Bool) (v : Nat) : Word :=
  if signed then (BitVec.ofNat (8 * n) v).signExtend 64 else (BitVec.ofNat (8 * n) v).setWidth 64

/-- A completion of the current thread's wait is due, which waits in turn for the channels of a list while they are in training (R344). -/
def completionAfter (s t : State) (chs : List Nat) : Prop :=
  ∃ n, t.agenda = s.agenda ++ [⟨s.cycle + 1 + n, .blockingWaitDone, { agent := s.cur.agent, th := s.cur.th, op := s.cycle, nats := chs }⟩]

/-- A completion of the current thread's wait is due. -/
def completionDue (s t : State) : Prop := completionAfter s t []

/-- A read of memory waits: for the time it takes, or until the channel in training that holds its bytes is in service again (R344). -/
def waitsForMemory (s t : State) (l : Loc) (d : Sreg) (v : Word) : Prop :=
  (s.chanHolds l = none → t.here.wait = .result (some d) v ∧ completionDue s t) ∧
  ∀ c, s.chanHolds l = some c → t.here.wait = .chan c (some d) v ∧ t.agenda = s.agenda

end Sys2Proof.Claims

/-- R247: the checks of an access, in order, with cause and detail; a load or store that fails one has no other effect. -/
def Obligations.AccessesAreCheckedInOrder : Prop :=
  ∀ (s : State) (i : Instr) (n : Nat) (m : MemRef) (u : Use),
    ((∃ sg d, loadForm i = some (n, sg, d, m)) ∧ u = .load ∨ (∃ d, storeForm i = some (n, d, m)) ∧ u = .store ∨
      (∃ o d a z, atomicForm s o i = some (d, a, z) ∧ m = a.ref) ∧ n = 8 ∧ u = .atomic) →
    let ea := address s m
    let fw : Bool := s.here.mode = .firmware
    (m.space = .m → fw = false → Raises i s .priv ea) ∧
    (bufOf m.space ≠ none → fw = true → Raises i s .priv ea) ∧
    ((m.space = .m ↔ fw = true) ∨ m.space = .g → ea.toNat % n ≠ 0 → Raises i s .align ea) ∧
    (fw = false → ea.toNat % n = 0 → (m.space = .w ∧ u ≠ .load ∨ bufOf m.space ≠ none ∧ u = .atomic) → Raises i s .prot ea) ∧
    (m.space = .g → ea.toNat % n = 0 → ea.extractLsb' 57 7 ≠ 0 → Raises i s .prot ea) ∧
    ∀ p k, s.cur.agent = .tile p k → m.space = .g → fw = false → ea.toNat % n = 0 → ea.extractLsb' 57 7 = 0 →
      ((s.tile p k).extent ea.toNat = none → (s.tile p k).appended = [] → (s.tile p k).appendedFull = false →
        Raises i s .unstaged (BitVec.ofNat 64 (ea.toNat / 65536 * 65536))) ∧
      ∀ e, (s.tile p k).extent ea.toNat = some e →
        (u = .load ∧ e.r = false ∨ u = .store ∧ e.w = false ∨ u = .atomic ∧ (e.w = false ∨ e.kind ≠ .l)) → Raises i s .prot ea

/-- R248, R249: a load from a tile buffer gives the bytes there, extended: it lands at the end of cycle t + 3, or after a wait
where a granule has spilled (R108), which goes on while a channel that holds it is in training (R344); bytes past the buffer read zero and are
recorded in %oob (R101). A waiting load whose loop return would
fault has no effect, and its thread holds the fault: the model's reading, log entry 19. -/
def Obligations.BufferLoadsLandExtended : Prop :=
  ∀ (s : State) (i : Instr) (n : Nat) (sg : Bool) (d : Sreg) (m : MemRef) (p k : Nat) (b : Buf),
    loadForm i = some (n, sg, d, m) → bufOf m.space = some b → s.cur.agent = .tile p k → s.Here = true → s.here.mode ≠ .firmware →
    (address s m).toNat % n = 0 →
    let ea := (address s m).toNat
    let v := extended n sg (leNat ((s.tile p k).readBuf b ea n))
    ((if (s.tile p k).spilled b ea n then s.returnRefused = none else s.endsLegally = true) →
    ∃ t, exec i s = .next t ∧ s.SameBytes t ∧ s.SameRegs t ∧ AccessFrame s.here t.here ∧
      (if (s.tile p k).spilled b ea n then t.here.wait = .result (some d) v ∧ Kept s.cycle s.here.pend t.here.pend ∧
        completionAfter s t (s.shadowChans p k b ea n)
       else s.OnlyThread t ∧ s.Ended t none ∧
        ∃ ps, Kept s.cycle s.here.pend ps ∧ t.here.pend = s.leftPend (ps ++ [⟨s.cycle + 3, .s d, v, 0⟩])) ∧
      (ea + n ≤ Config.bufSize b → t.here.oob = s.here.oob) ∧ (Config.bufSize b < ea + n → t.here.oob.getLsbD 63 = true)) ∧
    ((s.tile p k).spilled b ea n = true → HoldsItsReturn i s)

/-- R249: a load from `g:` that passes its checks waits for its value: the committed image on kind V, memory on kind L and the
combination on the region kinds; in firmware mode at a physical address (R322). A load from `m:` waits for its register. One whose loop
return would be refused has no effect, and its thread holds the fault (the model's reading, log entry 19). -/
def Sys2Proof.Claims.GlobalLoadsWaitForTheirValue : Prop :=
  ∀ (s : State) (i : Instr) (n : Nat) (sg : Bool) (d : Sreg) (m : MemRef), loadForm i = some (n, sg, d, m) → s.Here = true →
    (accessCheck s m.space (address s m) n n .load = none → (m.space = .m ∨ m.space = .g ∧ s.poisonAt (s.gAt (address s m)).1 n = none) →
      HoldsItsReturn i s) ∧
    (m.space = .g → s.returnRefused = none → accessCheck s .g (address s m) n n .load = none → s.poisonAt (s.gAt (address s m)).1 n = none →
      ∃ t, exec i s = .next t ∧ s.SameBytes t ∧ s.SameRegs t ∧ AccessFrame s.here t.here ∧ Kept s.cycle s.here.pend t.here.pend ∧
        t.here.pc = s.here.pc ∧ waitsForMemory s t (s.gAt (address s m)).1 d (extended n sg (if (s.gAt (address s m)).2 = .v then
            leNat (s.seen s.hereP (s.gAt (address s m)).1 n) else leNat (s.physRead (s.gAt (address s m)).1 n)))) ∧
    (m.space = .m → s.returnRefused = none → accessCheck s .m (address s m) n n .load = none →
      ∃ t, exec i s = .next t ∧ s.SameBytes t ∧ s.SameRegs t ∧ AccessFrame s.here t.here ∧ Kept s.cycle s.here.pend t.here.pend ∧
        t.here.pc = s.here.pc ∧ completionDue s t ∧ t.here.wait = .mload d (address s m).toNat n sg (s.here.orderScope .m .l m.order m.scope))

/-- R93: the value of a load or atomic that waited is written, and the unit ends, when its wait is done; a wait for a channel in training is a
sample of the read latency (R20, R344), taken when that wait is over (log entry 37). A load from `m:` reads its register or word then, extended (R248, R249, R322); a load of PASS0 or PASS1 goes
on waiting while its channel's test runs (R345). -/
def Sys2Proof.Claims.WaitedResultsAreWritten : Prop :=
  ∀ (s : State) (d : Option Sreg) (v : Word),
    let s1 := { s with cur := ⟨s.arg.agent, s.arg.th⟩ }
    s1.Here = true → (∀ c ∈ s.arg.nats, (s.chan c).train = false) →
    (s1.here.wait = .result d v → s1.here.waitFrom = s.arg.op → s1.endsLegally = true → ∃ t, exec .blockingWaitDone s = .next t ∧
      match d with | some r => s1.WroteS t r v 0 | none => s1.Went t none) ∧
    (∀ k, s1.here.wait = .chan k d v → (s1.chan k).train = false → s1.endsLegally = true → ∃ t, exec .blockingWaitDone s = .next t ∧
      s1.SameBytes t ∧ s1.Ended t none ∧ s1.here.Frame t.here ∧
      t.here.pend = s1.leftPend (match d with | some r => (s1.here.drop1 s.cycle (.s r)).pend | none => s1.here.pend) ∧ t.here.fflag = s1.here.fflag ∧ (∀ q, t.pr q = s1.pr q) ∧
      (∀ q, t.sr q = if d = some q ∧ q ≠ 0 then v else s1.sr q) ∧
      (∀ p j, s1.cur.agent = .tile p j → t.parts = (s1.modHere fun _ => t.here).parts.modify p fun P => P.sample 4 (s.cycle - s1.here.waitFrom)) ∧
      ∀ e, s1.cur.agent = .ctrl e → t.parts = s1.parts) ∧
    ∀ (e addr n : Nat) (r : Sreg) (sg : Bool) (sc : Option Scope), s1.cur.agent = .ctrl e → (n = 1 ∨ n = 2 ∨ n = 4 ∨ n = 8) → s1.here.wait = .mload r addr n sg sc →
      s1.here.waitFrom = s.arg.op →
      (mBusy s1 addr = true → ∃ t, exec .blockingWaitDone s = .next t ∧ s1.OnlyThread t ∧
        t.here = { s1.here with wait := .pass r addr n sg }) ∧
      (mBusy s1 addr = false → s1.endsLegally = true → ∃ t, exec .blockingWaitDone s = .next t ∧ s1.OnlyThread t ∧ s1.Ended t none ∧
        AccessFrame s1.here { t.here with regs := s1.here.regs } ∧ (∀ q, t.pr q = s1.pr q) ∧
        ∀ q, t.sr q = if q = r ∧ q ≠ 0 then (if sg then (BitVec.ofNat (8 * n) (mRead s1 e addr n)).signExtend 64 else BitVec.ofNat 64 (mRead s1 e addr n)) else s1.sr q)

/-- R249, R107, R101, R92: a store to a tile buffer changes the bytes of its own tile at its address that lie in the buffer, and
nothing else that a read sees; a row write of its thread that lands in its cycle lands before a store to `c:` (R223). -/
def Obligations.BufferStoresChangeTheirBytesAlone : Prop :=
  ∀ (s : State) (i : Instr) (n : Nat) (d : Sreg) (m : MemRef) (p k : Nat) (b : Buf),
    storeForm i = some (n, d, m) → bufOf m.space = some b → b ≠ .w → s.cur.agent = .tile p k → s.Here = true →
    s.here.mode ≠ .firmware → (address s m).toNat % n = 0 → s.endsLegally = true →
    let ea := (address s m).toNat
    let s0 := if b = .c then s.landRows else s
    ((∀ x ∈ s.here.pend, x.land ≤ s.cycle → ∀ w, x.dest ≠ .row w) → s0 = s) ∧
    ∃ t, exec i s = .next t ∧ s.Ended t none ∧ s.SameRegs t ∧ AccessFrame s0.here t.here ∧
      (∃ ps, Kept s.cycle s0.here.pend ps ∧ t.here.pend = s.leftPend ps) ∧ s.SameMain t ∧
      (∀ q j b2 a, (t.tile q j).readBuf b2 a 1 =
        if q = p ∧ j = k ∧ b2 = b ∧ ea ≤ a ∧ a < ea + n ∧ a < Config.bufSize b then [valueByte (s.sr d) (a - ea)]
        else (s0.tile q j).readBuf b2 a 1) ∧
      (ea + n ≤ Config.bufSize b → t.here.oob = s.here.oob) ∧ (Config.bufSize b < ea + n → t.here.oob.getLsbD 63 = true)

/-- R249, R81, R129, R131: a store to `g:` that passes its checks and finds room goes to memory at once on kind L (and in firmware
mode); on kind V it joins the superstep's write-behind, and no byte of memory changes; on a region it is a contribution of
whole elements, and none changes while the latent store has room (R108). -/
def Sys2Proof.Claims.GlobalStoresFollowTheirKind : Prop :=
  ∀ (s : State) (i : Instr) (n : Nat) (d : Sreg) (m : MemRef), storeForm i = some (n, d, m) → m.space = .g → s.Here = true →
    accessCheck s .g (address s m) n n .store = none → s.endsLegally = true → s.boot.recov = false →
    (∀ p k, s.cur.agent = .tile p k → s.wbkFull p k = false) →
    let g := s.gAt (address s m)
    ∃ t, exec i s = .next t ∧ s.Ended t none ∧ s.SameRegs t ∧ s.SameBufs t ∧ AccessFrame s.here t.here ∧
      (∃ ps, Kept s.cycle s.here.pend ps ∧ t.here.pend = s.leftPend ps) ∧
      (g.2 = .l →
        (∀ a, t.hbm.read a = if g.1.host = false ∧ g.1.addr ≤ a ∧ a < g.1.addr + n then valueByte (s.sr d) (a - g.1.addr) else s.hbm.read a) ∧
        ∀ a, t.host.read a = if g.1.host = true ∧ g.1.addr ≤ a ∧ a < g.1.addr + n then valueByte (s.sr d) (a - g.1.addr) else s.host.read a) ∧
      (g.2 = .v → s.SameBytes t ∧ ∃ w : WRec, (t.part s.hereP).wb = (s.part s.hereP).wb ++ [w] ∧ w.loc = g.1 ∧ w.th = s.cur.th ∧ w.seq = s.here.seq ∧
        w.data = (List.range n).map (valueByte (s.sr d))) ∧
      (g.2 = .red ∨ g.2 = .cav → ((s.tile s.hereP s.hereT).granules.length + 2 ≤ Config.latentGranules → s.SameBytes t) ∧
        ∀ r, regionOf s s.herePart.transNow s.herePart.tiles.length (address s m).toNat = some r → (t.tile s.hereP s.hereT).contribs.length = (s.tile s.hereP s.hereT).contribs.length + n / r.esize)

/-- R250: a store to `g:` waits while the tile's write-behind queue is full. -/
def Sys2Proof.Claims.GlobalStoresWaitForTheQueue : Prop :=
  ∀ (s : State) (i : Instr) (n : Nat) (d : Sreg) (m : MemRef) (p k : Nat), storeForm i = some (n, d, m) → m.space = .g → s.Here = true →
    s.cur.agent = .tile p k → accessCheck s .g (address s m) n n .store = none → s.wbkFull p k = true →
    ∃ t, exec i s = .next t ∧ s.OnlyThread t ∧ s.Blocked t .store

/-- R249, R322: a controller's store to `m:` writes the management register or word at once, and ends. -/
def Sys2Proof.Claims.ManagementStoresWriteAtOnce : Prop :=
  ∀ (s : State) (i : Instr) (n e : Nat) (d : Sreg) (m : MemRef), storeForm i = some (n, d, m) → m.space = .m → s.Here = true →
    s.cur.agent = .ctrl e → accessCheck s .m (address s m) n n .store = none →
    let ea := (address s m).toNat
    (exec i s = .next (s.finish ((mWrite ((s.noteM (address s m) n true).modHere fun t => t.noteOrder s.cycle .m .l m.order m.scope) e ea n
      (leNat (leBytes n (s.sr d).toNat))).tagWord (mWord e ea) (ea % 8) n (s.here.release .m .l (s.here.orderScope .m .l m.order m.scope))))) ∧
    (∀ f off, sramAt e ea = some (f, off) → s.endsLegally = true → ∃ t, exec i s = .next t ∧ s.Ended t none ∧ s.SameRegs t ∧
      ∀ h a, (t.ctrl h).sram.read a = if h = f ∧ off ≤ a ∧ a < off + n then valueByte (s.sr d) (a - off) else (s.ctrl h).sram.read a)

/-- R251: an atomic on kind L (or in firmware mode) reads the old word for its register and writes the new word, in one step; a
`cas` that fails writes nothing. -/
def Sys2Proof.Claims.AtomicsReadAndWriteOneWord : Prop :=
  ∀ (s : State) (i : Instr) (d : Sreg) (m : AtomOp) (z : Option Word),
    let loc := (s.gAt (address s m.ref)).1
    let o : Word := BitVec.ofNat 64 (leNat (s.physRead loc 8))
    atomicForm s o i = some (d, m, z) → m.space = .g → s.Here = true → accessCheck s .g (address s m.ref) 8 8 .atomic = none →
    s.poisonAt loc 8 = none → s.boot.recov = false → HoldsItsReturn i s ∧ (s.returnRefused = none →
    ∃ t, exec i s = .next t ∧ s.SameRegs t ∧ s.SameBufs t ∧ AccessFrame s.here t.here ∧ Kept s.cycle s.here.pend t.here.pend ∧
      t.here.pc = s.here.pc ∧ waitsForMemory s t loc d o ∧
      (∀ a, t.hbm.read a = match z with
        | some v => if loc.host = false ∧ loc.addr ≤ a ∧ a < loc.addr + 8 then valueByte v (a - loc.addr) else s.hbm.read a
        | none => s.hbm.read a) ∧
      ∀ a, t.host.read a = match z with
        | some v => if loc.host = true ∧ loc.addr ≤ a ∧ a < loc.addr + 8 then valueByte v (a - loc.addr) else s.host.read a
        | none => s.host.read a)

/-- R251: an atomic on `m:` waits with the old value of its register or word, and writes the new word of its table, as a store of 8 bytes does
(R322); one that writes nothing changes no byte. -/
def Sys2Proof.Claims.ManagementAtomicsReadAndWriteOneWord : Prop :=
  ∀ (s : State) (i : Instr) (e : Nat) (d : Sreg) (m : AtomOp) (z : Option Word),
    let ea := (address s m.ref).toNat
    let o : Word := BitVec.ofNat 64 (mRead s e ea 8)
    atomicForm s o i = some (d, m, z) → m.space = .m → s.cur.agent = .ctrl e → s.Here = true →
    accessCheck s .m (address s m.ref) 8 8 .atomic = none → HoldsItsReturn i s ∧ (s.returnRefused = none →
    (∃ (u : Thread) (rs : List (Scope × List Nat)), AccessFrame s.here u ∧ exec i s = .next ((match z with
      | some v => (mWrite (s.modHere fun _ => u) e ea 8 v.toNat).tagWord (mWord e ea) 0 8 rs
      | none => s.modHere fun _ => u).blockFor .atomic (.result (some d) o))) ∧
    ∀ f off, sramAt e ea = some (f, off) → ∃ t, exec i s = .next t ∧ t.here.wait = .result (some d) o ∧ t.here.pc = s.here.pc ∧
      s.SameRegs t ∧ s.SameBufs t ∧ completionDue s t ∧
      ∀ h a, (t.ctrl h).sram.read a = match z with
        | some v => if h = f ∧ off ≤ a ∧ a < off + 8 then valueByte v (a - off) else (s.ctrl h).sram.read a
        | none => (s.ctrl h).sram.read a)

/-- R252: a fence ends at once where the thread has no write to land, and else waits until its last write has landed; it changes
no register and no memory. With an acquire side, what happens before each release that the thread's earlier loads have read, and whose scope
and the fence's cover each other, happens before its later accesses; with a release side, later stores carry the fence (R124). -/
def Sys2Proof.Claims.FencesWaitForTheThread : Prop :=
  ∀ (s : State) (o : Order) (sc : Scope), s.Here = true → (s.here.pend ≠ [] → HoldsItsReturn (.fence o sc) s) ∧
    ((if s.here.pend = [] then s.endsLegally = true else s.returnRefused = none) → ∃ t, exec (.fence o sc) s = .next t ∧ s.SameBytes t ∧ s.SameRegs t ∧
      (s.here.pend = [] → s.OnlyThread t ∧ s.Ended t none ∧ t.here.pend = []) ∧
      (s.here.pend ≠ [] → t.here.wait = .result none 0 ∧ Kept s.cycle s.here.pend t.here.pend ∧
        t.agenda = s.agenda ++ [⟨s.cycle + (s.here.lastLand s.cycle + 1 - s.cycle), .blockingWaitDone,
          { agent := s.cur.agent, th := s.cur.th, op := s.cycle }⟩]) ∧
      ((o = .acq ∨ o = .ar) → ∀ gs ∈ s.here.seen, ∀ g ∈ gs, g.held ≠ [] → covers g.scope g.src g.th s.cur.agent s.cur.th = true →
        covers (s.here.clampScope sc) s.cur.agent s.cur.th g.src g.th = true → ∀ y ∈ g.hb, y ∈ t.here.hb) ∧
      (∀ y ∈ s.here.hb, y ∈ t.here.hb) ∧ ((o = .rel ∨ o = .ar) → (s.here.clampScope sc, t.here.hb) ∈ t.here.relF) ∧
      (sc.code.toNat ≤ s.here.ceil.code.toNat → t.here.clamp = s.here.clamp) ∧ (s.here.ceil.code.toNat < sc.code.toNat → t.here.clamp = true))

/-- R92, R137: at the end of a cycle the writes of a thread that are due land, and no others: each register and predicate takes the
value of the last-issued write to it that is due, and the flags of all that are due are set (where none of them is a `csrw`). -/
def Sys2Proof.Claims.PendingWritesLandAtTheEndOfTheirCycle : Prop :=
  ∀ (s : State) (a : Agent) (i : Nat), State.Here { s with cur := ⟨a, i⟩ } = true →
    let u := s.thread a i
    let v := s.tick.thread a i
    let due (x : Pend) : Bool := decide (x.land ≤ s.cycle)
    v.pend = u.pend.filter (fun x => !due x) ∧
    (∀ r, v.sreg r = match (u.pend.filter fun x => due x && decide (x.dest = .s r)).getLast? with
      | some x => if r = 0 then 0 else x.val
      | none => u.sreg r) ∧
    (∀ q, v.preg q = match (u.pend.filter fun x => due x && decide (x.dest = .p q)).getLast? with
      | some x => if q = 0 then true else x.val != 0
      | none => u.preg q) ∧
    ((∀ x ∈ u.pend, ∀ n, x.dest ≠ .csr n) → v.fflag = (u.pend.filter due).foldl (fun f x => f ||| x.flags) u.fflag) ∧
    s.tick.cycle = s.cycle + 1 ∧ s.tick.ptime = s.ptime + 1

/-- Loads from global memory and management registers (R93, R117, R248, R249, R322). -/
def Obligations.GlobalLoads : Prop :=
  GlobalLoadsWaitForTheirValue ∧ WaitedResultsAreWritten

/-- Stores to global memory and management registers (R81, R129, R131, R249, R250, R322). -/
def Obligations.GlobalStores : Prop :=
  GlobalStoresFollowTheirKind ∧ GlobalStoresWaitForTheQueue ∧ ManagementStoresWriteAtOnce

/-- Atomics read the old word and write the new one in one step (R251). -/
def Obligations.Atomics : Prop :=
  AtomicsReadAndWriteOneWord ∧ ManagementAtomicsReadAndWriteOneWord

/-- fence, and when pending writes land (R92, R252). -/
def Obligations.FencesAndLandingWrites : Prop :=
  FencesWaitForTheThread ∧ PendingWritesLandAtTheEndOfTheirCycle

/-! ### Rings, tile sync, the closing of the superstep and waits (spec/13 R253 to R264; spec/05 R93) -/

namespace Sys2Proof.Claims

/-- The detail word of a refused ring instruction (R253). -/
def ringWord (h : Hnd) (fn : Nat) (n : Word) : Word := ((n &&& 0xFFFFFFFF) <<< 32) ||| BitVec.ofNat 64 (fn * 16 + h.val)

/-- Filled and free slots (R106). -/
def filled (r : Ring) : Nat := (r.prod - r.cons).toNat
def free (r : Ring) : Nat := (r.count.toNat + 1) - filled r

/-- The thread keeps everything but what happens before its accesses, its loop counts, program counter and readiness. -/
def OrderFrame (s t : State) : Prop :=
  t.here = { s.here with hb := t.here.hb, pend := s.leftPend s.here.pend, lc := t.here.lc, pc := t.here.pc, wait := t.here.wait
                         readyAt := t.here.readyAt }

/-- The descriptors of a range table, from its lines (R257). -/
def descriptors (s : State) (base : Addr) (m : Nat) : List Word :=
  let bs := (List.range ((8 * m + 63) / 64)).flatMap fun i => (s.lineAt s.cur.agent (base + BitVec.ofNat 57 (64 * i))).getD []
  (List.range m).map fun k => BitVec.ofNat 64 (leNat (bytesAt bs (8 * k) 8))

/-- A descriptor is allowed (R258). -/
def goodRange (d : Word) : Bool :=
  let start := (d.extractLsb' 0 19).toNat
  let len := (d.extractLsb' 32 13).toNat
  let size := match (d.extractLsb' 62 2).toNat with | 0 => Config.bufSize .w | 1 => Config.bufSize .a | 2 => Config.bufSize .c | _ => 0
  d.extractLsb' 45 17 == 0 && d.extractLsb' 19 13 == 0 && decide (start % 64 = 0) && decide (len ≠ 0) && decide (start + 64 * len ≤ size)

/-- The instruction, bitmap, number of ranges, table offset and end of `fix` and `fix.end`. -/
def fixForm : Instr → Option (BitVec 32 × Nat × BitVec 22 × Bool)
  | .fix bm m off => some (bm, m.val, off, false)
  | .fixEnd bm m off => some (bm, m.val, off, true)
  | _ => none

end Sys2Proof.Claims

/-- R253, R255: a ring wait whose condition holds ends, one whose condition does not hold waits, and an illegal one traps. -/
def Sys2Proof.Claims.RingWaitsTestTheCount : Prop :=
  ∀ (s : State) (p k : Nat) (h : Hnd) (a : Sreg) (imm : Word) (full : Bool), s.cur.agent = .tile p k → s.Here = true →
    s.here.mode ≠ .firmware →
    let i : Instr := if full then .waitf h a imm else .waite h a imm
    let r := (s.tile p k).rings[h]
    let n := s.sr a + imm
    (r.space = 0 ∨ r.count.toNat + 1 < n.toNat → Raises i s .illegalTarget (ringWord h (if full then 0 else 1) n)) ∧
    (r.space ≠ 0 → n.toNat ≤ r.count.toNat + 1 → n.toNat ≤ (if full then filled r else free r) → s.endsLegally = true →
      ∃ t, exec i s = .next t ∧ s.SameBytes t ∧ s.SameRegs t ∧ s.Ended t none ∧ OrderFrame s t ∧
        (t.tile p k).rings = (s.tile p k).rings ∧ (n ≠ 0 → ∀ x ∈ (s.tile p k).ringHb[h], x ∈ t.here.hb) ∧ (n = 0 → t.here.hb = s.here.hb)) ∧
    (r.space ≠ 0 → n.toNat ≤ r.count.toNat + 1 → (if full then filled r else free r) < n.toNat →
      ∃ t, exec i s = .next t ∧ s.OnlyThread t ∧ s.Blocked t (.ring h full n))

/-- R253, R255: an advance moves one pointer by the count, modulo 2^32, or traps with both pointers as they were. -/
def Sys2Proof.Claims.RingAdvancesMoveOnePointer : Prop :=
  ∀ (s : State) (p k : Nat) (h : Hnd) (a : Sreg) (imm : Word) (prod : Bool), s.cur.agent = .tile p k → s.Here = true →
    s.here.mode ≠ .firmware →
    let i : Instr := if prod then .advp h a imm else .advc h a imm
    let r := (s.tile p k).rings[h]
    let n := s.sr a + imm
    (r.space = 0 ∨ (if prod then free r else filled r) < n.toNat → Raises i s .illegalTarget (ringWord h (if prod then 2 else 3) n)) ∧
    (r.space ≠ 0 → n.toNat ≤ (if prod then free r else filled r) → s.endsLegally = true →
      ∃ t, exec i s = .next t ∧ s.SameBytes t ∧ s.SameRegs t ∧ s.Ended t none ∧ OrderFrame s t ∧
        (t.tile p k).rings[h] = (if prod then { r with prod := r.prod + n.setWidth 32 } else { r with cons := r.cons + n.setWidth 32 }) ∧
        (∀ g : Hnd, g ≠ h → (t.tile p k).rings[g] = (s.tile p k).rings[g]) ∧ (n ≠ 0 → ∀ x ∈ s.here.hb, x ∈ (t.tile p k).ringHb[h]) ∧
        (n = 0 → (t.tile p k).ringHb = (s.tile p k).ringHb))

/-- R256: `tsync` waits for its round, and the round is complete when every thread with a task has arrived or has fixed; where its loop
return would fault it does not arrive (R241, log entry 19). -/
def Obligations.TsyncWaitsForItsRound : Prop :=
  ∀ (s : State) (p k : Nat), s.cur.agent = .tile p k → s.Here = true → s.here.mode ≠ .firmware →
    (s.returnRefused = none → ∃ t, exec .tsync s = .next t ∧ s.SameBytes t ∧ s.SameRegs t ∧ t.here.rounds = s.here.rounds + 1 ∧
      t.here.wait = .tsync (s.here.rounds + 1) ∧ t.here.pc = s.here.pc) ∧
    HoldsItsReturn .tsync s ∧
    ∀ n, (s.tile p k).roundDone n = true ↔
      ∀ u ∈ (s.tile p k).threads, u.task = .running → u.atfix = false → n ≤ u.rounds

/-- R258, R259: `fix` waits for earlier writes to land, refuses a bad range with its descriptor's address, and else records the
named registers as they stand, the ranges and the resume point; its thread waits for F. No register or byte changes. -/
def Sys2Proof.Claims.FixRecordsTheLivenessSet : Prop :=
  ∀ (s : State) (p k : Nat) (i : Instr) (bm : BitVec 32) (m : Nat) (off : BitVec 22) (ends : Bool), fixForm i = some (bm, m, off, ends) →
    s.cur.agent = .tile p k → s.Here = true → s.here.mode ≠ .firmware →
    let base := lineOfAddr s.here.unit.addr + (off.signExtend 57 <<< 6)
    (s.here.pend ≠ [] → ∃ t, exec i s = .next t ∧ s.OnlyThread t ∧ t.here = { s.here with readyAt := s.here.lastLand s.cycle + 1 }) ∧
    (s.here.pend = [] → (∀ j, j < (8 * m + 63) / 64 → (s.lineAt s.cur.agent (base + BitVec.ofNat 57 (64 * j))).isSome = true) →
      ((∀ d ∈ descriptors s base m, goodRange d = true) →
        ∃ (t : State) (f : FixRec), exec i s = .next t ∧ s.OnlyThread t ∧
          t.here = { s.here with fixRec := some f, atfix := true, wait := .fixed } ∧ f.ends = ends ∧ f.resume = s.here.unit.next ∧
          f.bitmap = bm &&& 0xFFFFFFFE ∧ (∀ r : Sreg, f.regs[r] = if bm.getLsbD r.val ∧ r ≠ 0 then s.here.regs[r] else 0) ∧
          f.ranges.length = m ∧ ∀ (j : Nat) (d : Word), (descriptors s base m)[j]? = some d → f.ranges[j]?.map (fun r : Machine.Range => (r.start, r.len)) =
            some ((d.extractLsb' 0 19).toNat, 64 * (d.extractLsb' 32 13).toNat)) ∧
      ∀ (j : Nat) (d : Word), (descriptors s base m)[j]? = some d → goodRange d = false →
        (∀ (j' : Nat) (d' : Word), j' < j → (descriptors s base m)[j']? = some d' → goodRange d' = true) →
        Raises i s .illegalTarget (base.setWidth 64 + BitVec.ofNat 64 (8 * j)))

/-- R260: `vote` raises the thread's vote, and takes its operand into the OR, the maximum and the detail. -/
def Sys2Proof.Claims.VoteRaisesTheVote : Prop :=
  ∀ (s : State) (v : Fin 3) (a : Sreg), s.Here = true → s.here.mode ≠ .firmware → s.endsLegally = true →
    let x : BitVec 32 := (s.sr a).setWidth 32
    let c : BitVec 2 := BitVec.ofNat 2 v.val
    ∃ t, exec (.vote v a) s = .next t ∧ s.SameBytes t ∧ s.SameRegs t ∧ s.Ended t none ∧
      t.here = { s.here with
        vote := larger s.here.vote c, vor := s.here.vor ||| x, vmax := if s.here.vmax.toNat ≤ x.toNat then x else s.here.vmax, vdet := x
        hvote := if s.here.mode = .handler then larger s.here.hvote c else s.here.hvote
        pend := s.leftPend s.here.pend, lc := t.here.lc, pc := t.here.pc, wait := t.here.wait, readyAt := t.here.readyAt }

/-- R261: `stage` writes %flpa and %flpn and restarts the build of the next extent table. -/
def Sys2Proof.Claims.StageWritesTheFootprintList : Prop :=
  ∀ (s : State) (p k : Nat) (a : Sreg) (imm : Word), s.cur.agent = .tile p k → s.Here = true → s.here.mode ≠ .firmware →
    s.endsLegally = true →
    ∃ t, exec (.stage a imm) s = .next t ∧ s.SameBytes t ∧ s.SameRegs t ∧ s.Ended t none ∧ s.here.Frame t.here ∧
      (t.tile p k).flpa = (s.sr a).setWidth 57 ∧ (t.tile p k).flpn = min imm.toNat 128 ∧ (t.tile p k).building = true ∧
      (t.tile p k).ext = (s.tile p k).ext ∧ (t.tile p k).build = s.fresh ∧
      ∃ n, t.agenda = s.agenda ++ [⟨s.cycle + 1 + n, .extentBuildDone, { p := p, t := k, m := s.fresh }⟩]

/-- R264: `twait` writes 1 for a time already past, 0 for the present one, and else waits. -/
def Sys2Proof.Claims.TwaitComparesWithPackageTime : Prop :=
  ∀ (s : State) (d : Preg) (a : Sreg), s.Here = true →
    ((s.sr a).toNat < s.ptime.toNat → s.endsLegally = true → ∃ t, exec (.twait d a) s = .next t ∧ s.WroteP t d true 0) ∧
    (s.sr a = s.ptime → s.endsLegally = true → ∃ t, exec (.twait d a) s = .next t ∧ s.WroteP t d false 0) ∧
    (s.ptime.toNat < (s.sr a).toNat → ∃ t, exec (.twait d a) s = .next t ∧ s.OnlyThread t ∧ s.Blocked t (.time d (s.sr a)))

/-- R305, R306, R293, R307: `kwait` with no operation left under its token, `mwait` with no matrix command left of those that have entered
the tile's queue, and a second `xsync` end at once; otherwise the thread waits. A first `xsync` whose loop return would be refused raises
nothing, and its thread holds the fault (R218, R241; the model's reading, log entry 19). -/
def Sys2Proof.Claims.JoinsWaitForTheirOperations : Prop :=
  ∀ (s : State) (p k : Nat) (j : Fin 16), s.cur.agent = .tile p k → s.Here = true → s.here.mode ≠ .firmware →
    let named (o : EngOp) : Prop := o.agent = s.cur.agent ∧ o.th = s.cur.th ∧ o.tok = some j
    let matrix (o : EngOp) : Prop := o.agent = s.cur.agent ∧ s.hasEntry o = true ∧ match o.kind with | .mma .. | .mldt .. | .mzero .. => True | _ => False
    ((∀ o ∈ s.ops, named o → o.st = .done) → s.endsLegally = true →
      ∃ t, exec (.kwait j) s = .next t ∧ s.OnlyThread t ∧ s.SameRegs t ∧ s.Ended t none ∧ OrderFrame s t) ∧
    ((∃ o ∈ s.ops, named o ∧ o.st ≠ .done) → ∃ t, exec (.kwait j) s = .next t ∧ s.OnlyThread t ∧ s.Blocked t (.token j)) ∧
    ((∀ o ∈ s.ops, matrix o → ∀ x ∈ s.ops, x.id = o.id → x.st = .done) → s.endsLegally = true →
      ∃ t, exec .mwait s = .next t ∧ s.OnlyThread t ∧ s.SameRegs t ∧ s.Ended t none ∧ OrderFrame s t) ∧
    ((∃ o ∈ s.ops, matrix o ∧ o.st ≠ .done) →
      ∃ (t : State) (ids : List Nat), exec .mwait s = .next t ∧ s.OnlyThread t ∧ s.Blocked t (.matrix ids) ∧ ∀ o ∈ s.ops, matrix o → o.id ∈ ids) ∧
    (s.here.xsynced = true → s.endsLegally = true → ∃ t, exec .xsync s = .next t ∧ s.Went t none) ∧
    (s.here.xsynced = false → HoldsItsReturn .xsync s ∧ (s.returnRefused = none → ∃ t, exec .xsync s = .next t ∧ s.OnlyThread t ∧
      t.here = { s.here with xsynced := true, wait := .xsync, waitFrom := s.cycle }))

/-- R93, R241: when what a thread waits for has come, BLOCKING_WAIT_DONE ends its unit; before, it changes nothing. Where a channel in training
holds spilled granules that the unit reads, it comes again (R108, R344). -/
def Sys2Proof.Claims.WaitsEndWhenTheyAreMet : Prop :=
  ∀ s : State,
    let a := s.arg.agent
    let i := s.arg.th
    let s1 := { s with cur := ⟨a, i⟩ }
    s1.Here = true →
    ((∃ c ∈ s.arg.nats, (s.chan c).train = true) → ∃ n, exec .blockingWaitDone s = .next { s with
      agenda := s.agenda ++ [⟨s.cycle + 1 + n, .blockingWaitDone, s.arg⟩], fresh := s.fresh + 1 }) ∧
    ((∀ c ∈ s.arg.nats, (s.chan c).train = false) →
    (s1.waitMet a i = false → (s1.here.wait.timed = false ∨ s1.here.waitFrom ≠ s.arg.op) → exec .blockingWaitDone s = .next s) ∧
    (s1.waitMet a i = true → s1.endsLegally = true →
      ((∃ k, s1.here.wait = .token k) ∨ (∃ x, s1.here.wait = .matrix x) ∨ (∃ n, s1.here.wait = .tsync n) ∨ s1.here.wait = .xsync ∨
          s1.here.wait = .woken ∨ ∃ o, s1.here.wait = .entry o) →
        ∃ t, exec .blockingWaitDone s = .next t ∧ s1.OnlyThread t ∧ s1.SameRegs t ∧ s1.Ended t none ∧ OrderFrame s1 t) ∧
    (∀ d x, s1.here.wait = .time d x → s1.waitMet a i = true → s1.endsLegally = true →
      ∃ t, exec .blockingWaitDone s = .next t ∧ s1.WroteP t d false 0) ∧
    (s1.here.wait = .store → s1.waitMet a i = true →
      ∃ t, exec .blockingWaitDone s = .next t ∧ s1.OnlyThread t ∧ t.here = { s1.here with wait := .ready }))

/-- Ring waits and advances (R105, R106, R253, R255). -/
def Obligations.Rings : Prop :=
  RingWaitsTestTheCount ∧ RingAdvancesMoveOnePointer

/-- fix, vote and stage (R257, R258, R259, R260, R261). -/
def Obligations.FixVoteAndStage : Prop :=
  FixRecordsTheLivenessSet ∧ VoteRaisesTheVote ∧ StageWritesTheFootprintList

/-- twait, kwait, mwait and xsync, and how waits end (R93, R264, R293, R305, R306, R307). -/
def Obligations.WaitsAndJoins : Prop :=
  TwaitComparesWithPackageTime ∧ JoinsWaitForTheirOperations ∧ WaitsEndWhenTheyAreMet

/-! ### Engine commands and record instructions (spec/15; spec/16 R299 to R315) -/

namespace Sys2Proof.Claims

/-- The code of a format as a bank holds it. -/
def code7 (f : Fmt7) : Byte := (Fmt7.code f).setWidth 8

/-- The lines of a table are in the code line buffer. -/
def linesPresent (s : State) (base : Addr) (n : Nat) : Prop :=
  ∀ j, j < n → (s.lineAt s.cur.agent (base + BitVec.ofNat 57 (64 * j))).isSome = true

/-- A transfer of the tile is queued in slot k, as an `xmit` or on a port. -/
def slotTaken (s : State) (k : Nat) (port : Option Nat) : Prop := ∃ o ∈ s.ops, o.agent = s.cur.agent ∧ o.slotOf = some (k, port)

/-- The command passes the checks of its instruction, and this is the operation it queues, with its token. -/
inductive Accepted (s : State) : Instr → OpKind → TokF → Prop where
  | mma (af n q k pitch aoff woff bank tok) :
      s.hereTile.mmaCheck (code7 af) (Keep.count n) (s.sr k).toNat pitch.toNat (64 * aoff.toNat) woff.toNat bank.val = none →
      Accepted s (.mma af n q k pitch aoff woff bank tok)
        (.mma (code7 af) (Keep.count n) q (s.sr k).toNat pitch.toNat (64 * aoff.toNat) woff.toNat (s.hereTile.fmtAt .w woff.toNat)
          (mmaCFmt (code7 af)) bank.val) tok
  | mldt (af pitch aoff bank tok) :
      s.hereTile.otherCode .a (code7 af) (aRows (64 * aoff.toNat) (aPitch pitch.toNat 64 (elemSize (code7 af))) (64 * elemSize (code7 af))) = none →
      (s.hereTile.bankFmt .c bank.val = 0x06 ∨ s.hereTile.bankFmt .c bank.val = 0x03) →
      Accepted s (.mldt af pitch aoff bank tok) (.mldt (code7 af) pitch.toNat (64 * aoff.toNat) (s.hereTile.bankFmt .c bank.val) bank.val) tok
  | mzero (bank tok) : Accepted s (.mzero bank tok) (.mzero bank.val) tok
  | quant (col srcC off pitch emax cnt woff tok) (src : Buf) : src = (if srcC then Buf.c else Buf.a) →
      s.hereTile.quantCheck col src (64 * off.toNat) pitch.toNat emax.toNat (s.sr cnt).toNat woff.toNat = none →
      Accepted s (.quant col srcC off pitch emax cnt woff tok)
        (.quant col src (64 * off.toNat) pitch.toNat (s.hereTile.fmtAt src (64 * off.toNat)) emax.toNat (s.sr cnt).toNat woff.toNat
          (s.hereTile.fmtAt .w woff.toNat)) tok
  | wbk (base src off len disp tok) :
      accessCheck s .g (s.sr base + disp.signExtend 64) (64 * len.toNat) 64 .store = none → off.toNat % 64 = 0 →
      s.hereTile.otherKind .v (s.sr base + disp.signExtend 64).toNat (64 * len.toNat) = none →
      Accepted s (.wbk base src off len disp tok) (.wbk (s.sr base + disp.signExtend 64) src off.toNat len.toNat) tok
  | cpy (cq dst src cnt tok) : s.linearRefused dst src (s.sr cnt) = none → s.sr cnt ≠ 0 →
      Accepted s (.cpy cq dst src cnt tok) (.copy cq none 0 (s.endOf true dst) (s.endOf false src) (s.sr cnt).toNat) tok
  | cpyD (cq dst src cnt tok dims es) : s.descParsed dst src (s.sr cnt) = .ok (dims, es) →
      Accepted s (.cpyD cq dst src cnt tok) (.copy cq (some dims) es (s.endOf true dst) (s.endOf false src) 0) tok
  | xsel (slot port doff tok) : ¬ slotTaken s slot.toNat (some port.val) →
      (∀ S, s.herePart.byTag = false → s.herePart.exchS = some S → s.ptime.toNat < S + 8 * slot.toNat) →
      Accepted s (.xsel slot port doff tok) (.xsel slot.toNat port.val (64 * doff.toNat)) tok
  | xmit (slot : BitVec 12) (off : BitVec 16) (idx : Fin 8) (srcC : Bool) (soff : BitVec 12) (tok : TokF) (src : Buf) (base : Addr)
      (w : Word) (dst : Nat) (links : List (Nat × Nat)) : src = (if srcC then Buf.c else Buf.a) →
      base = lineOfAddr s.here.unit.addr + (off.signExtend 57) <<< 6 → linesPresent s base 1 → w = BitVec.ofNat 64 (leNat (bytesAt ((s.lineAt s.cur.agent base).getD []) (8 * idx.val) 8)) →
      s.herePart.arbitrated = false → s.route s.hereP s.hereT w = .ok (dst, links) → ¬ slotTaken s slot.toNat none →
      (∀ S, s.herePart.byTag = false → s.herePart.exchS = some S → s.ptime.toNat < S + 8 * slot.toNat) →
      Accepted s (.xmit slot off idx srcC soff tok)
        (.xmit slot.toNat (w.extractLsb' 2 2).toNat dst links src (64 * soff.toNat) (s.hereTile.fmtAt src (64 * soff.toNat))
          (s.routeLeft s.hereP s.hereT w)) tok
  | enl (moff r tok m) : s.hereTile.layoutMap (64 * moff.toNat) = some m →
      m.fits s.herePart.tiles.length (s.sr r).toNat (s.hereTile.fmtAt m.space m.srcBase) (s.herePart.destSize m (s.sr r).toNat) = true →
      Accepted s (.enl moff r tok)
        (.enl m.space m.srcBase m.dstBase m.step m.dims m.sp m.dests (s.sr r).toNat (s.hereTile.fmtAt m.space m.srcBase)) tok
  | signal (base v op disp tok) : accessCheck s .g (s.sr base + disp.signExtend 64) 8 8 .atomic = none →
      Accepted s (.signalInstruction base v op disp tok) (.signal (s.sr base + disp.signExtend 64) op (s.sr v)) tok

/-- The queue that an operation of the current agent enters has room. -/
def roomFor (s : State) (kind : OpKind) : Prop :=
  ∀ (o : EngOp) (q : Nat × Nat × Nat), o.kind = kind → o.agent = s.cur.agent → o.queue = some q →
    (s.ops.filter fun x => x.holdsEntry && decide (x.queue = some q)).length < q.2.2

/-- The operation is forked: it stands among the operations, with its thread and token. -/
def Forked (s t : State) (kind : OpKind) (tok : TokF) : Prop :=
  t.opCtr = s.opCtr + 1 ∧ ∃ o ∈ t.ops, o.id = s.opCtr ∧ o.kind = kind ∧ o.agent = s.cur.agent ∧ o.th = s.cur.th ∧
    o.tok = (if tok.te then some tok.tk else none) ∧ o.st ≠ .done

/-- No operation has an identity that is still to be given. -/
def freshIds (s : State) : Prop := ∀ o ∈ s.ops, o.id < s.opCtr

end Sys2Proof.Claims

/-- R288, R297, R299, R305, R308, R310, R313: a command that passes its checks, with its token below 255 and room in its queue,
forks its operation and ends; it has moved no byte and written no register yet. -/
def Sys2Proof.Claims.AcceptedCommandsForkTheirOperation : Prop :=
  ∀ (s : State) (i : Instr) (kind : OpKind) (tok : TokF), Accepted s i kind tok → s.Here = true → forbidden s.here.mode i = none →
    (s.here.mode = .firmware → ∀ m r k, i ≠ .enl m r k) → freshIds s → s.endsLegally = true →
    (tok.te = true → s.tokenCount s.cur.agent s.cur.th tok.tk < 255) →
    (roomFor s kind → ∃ t, exec i s = .next t ∧ Forked s t kind tok ∧ s.Ended t none ∧ s.SameBytes t ∧ s.SameRegs t) ∧
    (¬ roomFor s kind → s.returnRefused = none → ∃ t, exec i s = .next t ∧ Forked s t kind tok ∧ t.here.wait = .entry s.opCtr ∧ t.here.pc = s.here.pc ∧
      s.SameBytes t ∧ s.SameRegs t)

/-- R305: a command whose token stands at 255 waits, and forks nothing. -/
def Sys2Proof.Claims.CommandsWaitForAFullToken : Prop :=
  ∀ (s : State) (i : Instr) (kind : OpKind) (tok : TokF), Accepted s i kind tok → s.Here = true → forbidden s.here.mode i = none →
    (s.here.mode = .firmware → ∀ m r k, i ≠ .enl m r k) → tok.te = true →
    255 ≤ s.tokenCount s.cur.agent s.cur.th tok.tk →
    ∃ t, exec i s = .next t ∧ t.opCtr = s.opCtr ∧ t.here.wait = .room tok.tk ∧ t.here.pc = s.here.pc ∧ s.SameBytes t ∧ s.SameRegs t

/-- The detail word of a refused command: reason in bits 7:0, head in bits 31:16, value in bits 63:32 (R288). -/
def Sys2Proof.Claims.reasonWord (s : State) (r v : Nat) : Word :=
  BitVec.ofNat 64 r ||| (s.here.unit.head.setWidth 64 <<< 16) ||| (BitVec.ofNat 64 v <<< 32)

namespace Sys2Proof.Claims

/-- Some byte of the ranges that lies below the buffer size is in a bank of format c (R288). -/
def Touches (T : Tile) (b : Buf) (ranges : List (Nat × Nat)) (c : Byte) : Prop :=
  ∃ r ∈ ranges, ∃ a, r.1 ≤ a ∧ a < r.1 + r.2 ∧ a < Config.bufSize b ∧ T.fmtAt b a = c

/-- The first format, in the order of the ranges and of their bytes, that differs from f (R288). -/
def FirstOther (T : Tile) (b : Buf) (ranges : List (Nat × Nat)) (f c : Byte) : Prop :=
  c ≠ f ∧ ∃ (j : Nat) (r : Nat × Nat) (a : Nat), ranges[j]? = some r ∧ r.1 ≤ a ∧ a < r.1 + r.2 ∧ a < Config.bufSize b ∧ T.fmtAt b a = c ∧
    (∀ a', r.1 ≤ a' → a' < a → T.fmtAt b a' = f) ∧ ∀ x, Touches T b (ranges.take j) x → x = f

/-- The 64 rows of an A operand (R285). -/
def rowsOfA (aoff pitch len : Nat) : List (Nat × Nat) := (List.range 64).map fun m => (aoff + m * pitch, len)

/-- The pairings of R286: the A, W and C formats. -/
def pairing (a w c : Byte) : Prop :=
  (a = 0x05 ∨ a = 0x04) ∧ (w = 0x05 ∨ w = 0x04 ∨ 0x12 ≤ w.toNat ∧ w.toNat ≤ 0x18) ∧ c = 0x06 ∨
  (a = 0x00 ∨ a = 0x01) ∧ (w = 0x00 ∨ w = 0x01 ∨ w = 0x02) ∧ c = 0x03 ∨
  a = 0x02 ∧ (w = 0x02 ∨ w = 0x00 ∨ w = 0x01) ∧ c = 0x03

/-- A format of BFP blocks, and the bits of its mantissas (R97). -/
def isBfp (f : Byte) : Bool := decide (0x12 ≤ f.toNat) && decide (f.toNat ≤ 0x18)
def bitsOf (f : Byte) : Nat := f.toNat - 0x10

/-- A number of blocks from a W offset stands at block boundaries in the mantissa area of one bank, below its capacity (R99, R288). -/
def InMantissas (f : Byte) (o blocks : Nat) : Prop :=
  o < 393216 ∧ o % 24576 % (4 * bitsOf f) = 0 ∧ o % 24576 / (4 * bitsOf f) < 24576 / (4 * bitsOf f + 1) ∧
    o % 24576 / (4 * bitsOf f) + blocks ≤ 24576 / (4 * bitsOf f + 1)

/-- The command raises ILLEGAL_TARGET with a reason and a value (R288). -/
def Refuses (i : Instr) (s : State) (r v : Nat) : Prop := Raises i s .illegalTarget (reasonWord s r v)

/-- The place of the slot that a ring's pointer names, and its buffer (R105, R106). -/
def slotPlace (r : Ring) (i : BitVec 32) : Nat := r.base.toNat + i.toNat % (r.count.toNat + 1) * 2 ^ (r.slot.toNat + 6)
def ringBuffer (r : Ring) : Buf := if r.space = 1 then .a else .c

/-- The address of an endpoint in memory, and the format of one in the tile's buffers, in force at issue (R98, R299). -/
def endAddress (s : State) : CEnd → Option Word
  | .mem _ b d => some (s.sr b + d.signExtend 64 * 4)
  | .ring _ => none
  | .queue _ => none
def endFormat (s : State) (prod : Bool) : CEnd → Option Byte
  | .mem sp b d => (bufOf sp).map fun u => s.hereTile.fmtAt u (s.sr b + d.signExtend 64 * 4).toNat
  | .ring h => let r := s.hereTile.rings[h]; some (s.hereTile.fmtAt (ringBuffer r) (slotPlace r (if prod then r.prod else r.cons)))
  | .queue _ => none

/-- A combination of spaces that check 1 of R300 refuses. -/
def badSpaces (fw desc : Bool) (dst src : CEnd) : Prop :=
  let mem (sp : Space) (e : CEnd) : Prop := ∃ b d, e = .mem sp b d
  let stream (e : CEnd) : Prop := ∀ sp, ¬ mem sp e
  (∃ q, src = .queue q) ∨ desc = true ∧ (stream dst ∨ stream src) ∨ (∃ h g, dst = .ring h ∧ src = .ring g) ∨
    fw = false ∧ (mem .m dst ∨ mem .m src) ∨ fw = true ∧ (¬ (mem .g dst ∨ mem .m dst) ∨ ¬ (mem .g src ∨ mem .m src))

/-- Check 4 of R300 refuses the destination at the address x: no copy writes C (R96). -/
def writesC (s : State) (dst : CEnd) (x : Word) : Prop :=
  (∃ b d, dst = .mem .c b d ∧ endAddress s dst = some x) ∨
    ∃ h, dst = .ring h ∧ ringBuffer s.hereTile.rings[h] = .c ∧ x = BitVec.ofNat 64 (slotPlace s.hereTile.rings[h] s.hereTile.rings[h].prod)

/-- Check 5 of R300 refuses n bytes of an endpoint in `g:` from an offset of its address: in firmware mode for a byte at or past 2^57, else by the
checks of R247 step 4; elements of `es` bytes of a descriptor copy do not cover whole elements of a region (R164). -/
def endFault (s : State) (desc : Bool) (u : Use) (e : CEnd) (off : Int) (n es : Nat) (x : Refuse) : Prop :=
  ∃ b d, e = .mem .g b d ∧ n ≠ 0 ∧
    let a := s.sr b + d.signExtend 64 * 4 + BitVec.ofInt 64 off
    if s.here.mode = .firmware then 2 ^ 57 < a.toNat + n ∧ x = (.prot, if 2 ^ 57 ≤ a.toNat then a else BitVec.ofNat 64 (2 ^ 57))
    else globalCheck s s.hereP s.hereT u a n = some x ∨
      globalCheck s s.hereP s.hereT u a n = none ∧ desc = true ∧ u = .store ∧ x = (.align, a) ∧
        ∃ r, regionOf s s.herePart.transNow s.herePart.tiles.length a.toNat = some r ∧ es % r.esize ≠ 0

/-- The bank at fault of check 6 of R300 where the source has format fs and the destination fd. -/
def bankAtFault (fd fs : Byte) : Byte := if fs = 0x07 ∨ isBfp fs = true then fs else fd

/-- Check 6 of R300 refuses n bytes of the linear form between two tile buffers (R142). -/
def linearFormats (s : State) (dst src : CEnd) (n : Nat) (v : Byte) : Prop :=
  ∃ fd fs, endFormat s true dst = some fd ∧ endFormat s false src = some fs ∧ fd ≠ fs ∧ v = bankAtFault fd fs ∧
    let elems := if isBfp fs then n / (4 * bitsOf fs) * 32 else n / elemSize fs
    let place (e : CEnd) : Nat := ((endAddress s e).getD 0).toNat
    (fs = 0x07 ∨ fd = 0x07 ∨ isBfp fs = true ∧ (n % (4 * bitsOf fs) ≠ 0 ∨ ¬ InMantissas fs (place src) (elems / 32)) ∨
      isBfp fd = true ∧ (elems % 32 ≠ 0 ∨ ¬ InMantissas fd (place dst) (elems / 32)))

/-- Check 6 of R300 refuses the descriptor form. -/
def descFormats (s : State) (dst src : CEnd) (v : Byte) : Prop :=
  let fd := (endFormat s true dst).getD 0
  let fs := (endFormat s false src).getD 0
  v = bankAtFault fd fs ∧ (isBfp fs = true ∨ isBfp fd = true ∨
    (endFormat s true dst).isSome = true ∧ (endFormat s false src).isSome = true ∧ fd ≠ fs ∧ (fs = 0x07 ∨ fd = 0x07))

/-- A field of n bytes at offset i of a descriptor (R301). -/
def descField (bs : List Byte) (i n : Nat) : Nat := leNat ((bs.drop i).take n)

/-- The 160 bytes of a descriptor that R301 allows; `both` where both endpoints are `g:` or `m:`. -/
def goodDescriptor (bs : List Byte) (both : Bool) : Prop :=
  let n := descField bs 0 1
  1 ≤ n ∧ n ≤ 9 ∧ (both = true → descField bs 1 1 ≤ 3) ∧ (∀ j, 2 ≤ j → j < 16 → descField bs j 1 = 0) ∧
    (∀ k, k < n → 1 ≤ descField bs (16 + 16 * k) 4 ∧ descField bs (16 + 16 * k) 4 ≤ 65535 ∧ descField bs (28 + 16 * k) 4 = 0) ∧
    (∀ j, 16 + 16 * n ≤ j → j < 160 → descField bs j 1 = 0) ∧
    ((List.range n).map fun k => descField bs (16 + 16 * k) 4).prod ≤ 2 ^ 32

end Sys2Proof.Claims

/-- R286, R288: the five checks of `mma`, in order, each with its reason and value; a command that passes them is accepted. An A format of no
pairing whose W offset lies past the buffer is refused with reason 4 or 5. -/
def Sys2Proof.Claims.MatrixCommandsAreRefused : Prop :=
  ∀ (s : State) (af : Fmt7) (n : Keep) (q : Fin 4) (k : Sreg) (pitch aoff : BitVec 12) (woff : BitVec 19) (bank : Fin 8) (tok : TokF),
    s.here.mode ≠ .firmware →
    let i : Instr := .mma af n q k pitch aoff woff bank tok
    let T := s.hereTile
    let K := (s.sr k).toNat
    let N := match n with | .n32 => 32 | .n16 => 16 | .n8 => 8
    let f := code7 af
    let e := elemSize f
    let A := rowsOfA (64 * aoff.toNat) (if pitch = 0 then K * e else 64 * pitch.toNat) (K * e)
    let wf := T.fmtAt .w woff.toNat
    let blocks := K / 32 * 64 * N / 32
    let W := [(woff.toNat, if isBfp wf then blocks * (4 * bitsOf wf) else K / 32 * 64 * N * elemSize wf)]
    let cf := T.fmtAt .c (16384 * bank.val)
    let ok1 := K % 32 = 0 ∧ 32 ≤ K ∧ K ≤ 4096
    let ok3 := 393216 ≤ woff.toNat ∨ (∃ c, pairing f wf c) ∧ ∀ c, Touches T .w W c → c = wf
    let ok5 := woff.toNat < 393216 ∧ if isBfp wf then InMantissas wf woff.toNat blocks else woff.toNat % 64 = 0
    (¬ ok1 → Refuses i s 1 K) ∧
    (ok1 → (∀ c, FirstOther T .a A f c → Refuses i s 2 c.toNat) ∧
      ((∀ c, Touches T .a A c → c = f) → (¬ ok3 → Refuses i s 3 wf.toNat) ∧
        (ok3 → ((∃ w c, pairing f w c) → (¬ (∃ w, pairing f w cf) → Refuses i s 4 cf.toNat) ∧
            ((∃ w, pairing f w cf) → (¬ ok5 → Refuses i s 5 woff.toNat) ∧
              (ok5 → T.mmaCheck f (Keep.count n) K pitch.toNat (64 * aoff.toNat) woff.toNat bank.val = none))) ∧
          (¬ (∃ w c, pairing f w c) → Refuses i s 4 cf.toNat ∨ Refuses i s 5 woff.toNat)))) ∧
    ∀ r v, T.mmaCheck f (Keep.count n) K pitch.toNat (64 * aoff.toNat) woff.toNat bank.val = some (r, v) → r < 256 → Refuses i s r v

/-- R291: the checks of `mldt`, in order. -/
def Sys2Proof.Claims.AccumulatorLoadsAreRefused : Prop :=
  ∀ (s : State) (af : Fmt7) (pitch aoff : BitVec 12) (bank : Fin 8) (tok : TokF), s.here.mode ≠ .firmware →
    let i : Instr := .mldt af pitch aoff bank tok
    let T := s.hereTile
    let e := elemSize (code7 af)
    let A := rowsOfA (64 * aoff.toNat) (if pitch = 0 then 64 * e else 64 * pitch.toNat) (64 * e)
    let cf := T.fmtAt .c (16384 * bank.val)
    (∀ c, FirstOther T .a A (code7 af) c → Refuses i s 2 c.toNat) ∧
    ((∀ c, Touches T .a A c → c = code7 af) → cf ≠ 0x06 → cf ≠ 0x03 → Refuses i s 4 cf.toNat)

/-- R297: the checks of `quant`, in order. Of source banks that differ the code in the detail is one that the first bank does not have. -/
def Sys2Proof.Claims.QuantisationsAreRefused : Prop :=
  ∀ (s : State) (col srcC : Bool) (off pitch : BitVec 12) (emax : BitVec 8) (cnt : Sreg) (woff : BitVec 19) (tok : TokF), s.here.mode ≠ .firmware →
    let i : Instr := .quant col srcC off pitch emax cnt woff tok
    let T := s.hereTile
    let b : Buf := if srcC then .c else .a
    let n := (s.sr cnt).toNat
    let base := 64 * off.toNat
    let sf := T.fmtAt b base
    let e := elemSize sf
    let P := if pitch = 0 then 64 * e else 64 * pitch.toNat
    let wf := T.fmtAt .w woff.toNat
    let touched (c : Byte) : Prop := ∃ u j k, u < n ∧ j < 32 ∧ k < e ∧
      let a := if col then base + (32 * (u / 64) + j) * P + u % 64 * e + k else base + (32 * u + j) * e + k
      a < Config.bufSize b ∧ T.fmtAt b a = c
    let ok6 := isBfp wf = true ∧ InMantissas wf woff.toNat n
    let same := ∀ c, touched c → c = sf
    (¬ ok6 → Refuses i s 6 woff.toNat) ∧
    (ok6 → (¬ same → ∃ c, touched c ∧ c ≠ sf ∧ Refuses i s 7 c.toNat) ∧ (same → touched 0x07 → Refuses i s 7 7) ∧
      (same → ¬ touched 0x07 → (n = 0 ∨ col = true ∧ n % 64 ≠ 0 → Refuses i s 8 n) ∧
        (n ≠ 0 → (col = true → n % 64 = 0) → (emax = 0 ∨ emax = 255 → Refuses i s 8 emax.toNat) ∧
          (emax ≠ 0 → emax ≠ 255 → T.quantCheck col b base pitch.toNat emax.toNat n woff.toNat = none))))

/-- R263, R308: `wbk` checks its address, its offset and the kind of its pages; an `xsel` of a slot already queued is refused with reason 16. -/
def Sys2Proof.Claims.WriteBacksAndSlotsAreRefused : Prop :=
  ∀ s : State, s.here.mode ≠ .firmware →
    (∀ (base : Sreg) (src : Buf) (off : BitVec 19) (len : BitVec 13) (disp : BitVec 20) (tok : TokF),
      let ea := s.sr base + disp.signExtend 64
      (ea.toNat % 64 ≠ 0 → Raises (.wbk base src off len disp tok) s .align ea) ∧
      (accessCheck s .g ea (64 * len.toNat) 64 .store = none → off.toNat % 64 ≠ 0 → Raises (.wbk base src off len disp tok) s .align (off.setWidth 64))) ∧
    ∀ slot port doff tok, slotTaken s slot.toNat (some port.val) → Refuses (.xsel slot port doff tok) s 16 slot.toNat

/-- R300: the checks of the linear form of `cpy`, in order, in every mode. Where an alignment or a page is at fault at both ends, one of the two
faults is raised. -/
def Sys2Proof.Claims.LinearCopiesAreRefused : Prop :=
  ∀ (s : State) (cq : Fin 8) (dst src : CEnd) (cnt : Sreg) (tok : TokF),
    let i : Instr := .cpy cq dst src cnt tok
    let n := (s.sr cnt).toNat
    let unused (h : Hnd) : Prop := (dst = .ring h ∨ src = .ring h) ∧ s.hereTile.rings[h].space = 0
    let misaligned (x : Word) : Prop := (endAddress s dst = some x ∨ endAddress s src = some x) ∧ x.toNat % 4 ≠ 0 ∨ x = s.sr cnt ∧
      (n % 4 ≠ 0 ∨ (∃ h, (dst = .ring h ∨ src = .ring h) ∧ n % 2 ^ (s.hereTile.rings[h].slot.toNat + 6) ≠ 0) ∨ (∃ q, dst = .queue q) ∧ n % 256 ≠ 0)
    let pages (x : Refuse) : Prop := endFault s false .store dst 0 n 4 x ∨ endFault s false .load src 0 n 4 x
    (badSpaces (decide (s.here.mode = .firmware)) false dst src → Refuses i s 9 0) ∧
    (¬ badSpaces (decide (s.here.mode = .firmware)) false dst src → (∀ h, unused h → Refuses i s 15 h.val) ∧ ((∀ h, ¬ unused h) →
      (2 ^ 32 < n → Refuses i s 11 0xFFFFFFFF) ∧ (n ≤ 2 ^ 32 →
      ((∃ x, misaligned x) → ∃ x, misaligned x ∧ Raises i s .align x) ∧ ((∀ x, ¬ misaligned x) →
      (∀ x, writesC s dst x → Raises i s .prot x) ∧ ((∀ x, ¬ writesC s dst x) →
      ((∃ x, pages x) → ∃ x, pages x ∧ Raises i s x.1 x.2) ∧ ((∀ x, ¬ pages x) →
      (∀ v, linearFormats s dst src n v → Refuses i s 12 v.toNat) ∧ ((∀ v, ¬ linearFormats s dst src n v) →
        s.linearRefused dst src (s.sr cnt) = none))))))) ∧
    ∀ c d, s.linearRefused dst src (s.sr cnt) = some (c, d) → Raises i s c d

/-- R300, R301: the checks of the descriptor form of `cpy`, in order, in every mode. An element narrower than 4 bytes in a register block of `m:`
counts as misaligned (R322). -/
def Sys2Proof.Claims.DescriptorCopiesAreRefused : Prop :=
  ∀ (s : State) (cq : Fin 8) (dst src : CEnd) (cnt : Sreg) (tok : TokF),
    let i : Instr := .cpyD cq dst src cnt tok
    let off := (s.sr cnt).toNat
    let bs := s.hereTile.readBuf .a off 160
    let fd := endFormat s true dst
    let fs := endFormat s false src
    let size (mine other : Option Byte) : Nat := match mine, other with
      | some f, _ => elemSize f
      | none, some f => elemSize f
      | none, none => 2 ^ descField bs 1 1
    let ed := size fd fs
    let es := size fs fd
    let dims := List.range (descField bs 0 1)
    let reach (at_ k : Nat) : Int := ((descField bs (16 + 16 * k) 4 : Int) - 1) * (BitVec.ofNat 32 (descField bs (16 + 16 * k + at_) 4)).toInt
    let low (at_ : Nat) : Int := (dims.map fun k => min 0 (reach at_ k)).sum
    let high (at_ : Nat) : Int := (dims.map fun k => max 0 (reach at_ k)).sum
    let fault (u : Use) (e : CEnd) (at_ z : Nat) (x : Refuse) : Prop := endFault s true u e (low at_ * z) ((high at_ - low at_ + 1) * z).toNat z x
    let mis (e : CEnd) (z : Nat) (x : Word) : Prop :=
      endAddress s e = some x ∧ (x.toNat % z ≠ 0 ∨ (∃ b d, e = .mem .m b d) ∧ z < 4 ∧ mBlock x.toNat = true)
    let misaligned (x : Word) : Prop := mis dst ed x ∨ mis src es x
    let pages (x : Refuse) : Prop := fault .store dst 8 ed x ∨ fault .load src 4 es x
    let ok10 := off % 64 = 0 ∧ off + 160 ≤ 262144 ∧ goodDescriptor bs (fd.isNone && fs.isNone)
    (badSpaces (decide (s.here.mode = .firmware)) true dst src → Refuses i s 9 0) ∧
    (¬ badSpaces (decide (s.here.mode = .firmware)) true dst src → (¬ ok10 → Refuses i s 10 off) ∧ (ok10 →
      ((∃ x, misaligned x) → ∃ x, misaligned x ∧ Raises i s .align x) ∧ ((∀ x, ¬ misaligned x) →
      (∀ x, writesC s dst x → Raises i s .prot x) ∧ ((∀ x, ¬ writesC s dst x) →
      ((∃ x, pages x) → ∃ x, pages x ∧ Raises i s x.1 x.2) ∧ ((∀ x, ¬ pages x) →
      (∀ v, descFormats s dst src v → Refuses i s 12 v.toNat) ∧ ((∀ v, ¬ descFormats s dst src v) →
        ∃ ds b, s.descParsed dst src (s.sr cnt) = .ok (ds, b))))))) ∧
    ∀ c d, s.descParsed dst src (s.sr cnt) = .error (c, d) → Raises i s c d

/-- R247 step 4: the checks of a range of `g:` of n bytes, byte by byte, in order, that the copies and the accesses of a tile make: an address past
2^57, a byte in no extent, and a byte whose extent forbids the access or whose kind does. -/
def Sys2Proof.Claims.GlobalRangesAreCheckedByByte : Prop :=
  ∀ (s : State) (p k : Nat) (u : Use) (a : Word) (n : Nat), 0 < n →
    let T := s.tile p k
    let first (f : Nat → Prop) (y : Nat) : Prop := a.toNat ≤ y ∧ y < a.toNat + n ∧ f y ∧ ∀ z, a.toNat ≤ z → z < y → ¬ f z
    let bad (y : Nat) : Prop := ∃ e, T.extent y = some e ∧
      ¬ (match u with | .load => e.r = true | .store => e.w = true | .atomic => e.w = true ∧ e.kind = .l | .line => e.x = true ∧ e.kind = .v)
    let c := globalCheck s p k u a n
    (2 ^ 57 ≤ a.toNat → c = some (.prot, a)) ∧
    (a.toNat < 2 ^ 57 → 2 ^ 57 < a.toNat + n → c = some (.prot, BitVec.ofNat 64 (2 ^ 57))) ∧
    (a.toNat + n ≤ 2 ^ 57 →
      (∀ y, first (fun y => T.extent y = none) y → T.appended = [] → T.appendedFull = false →
        c = some (.unstaged, BitVec.ofNat 64 (y / 65536 * 65536))) ∧
      ((∀ y, a.toNat ≤ y → y < a.toNat + n → T.extent y ≠ none) →
        (∀ y, first bad y → c = some (.prot, BitVec.ofNat 64 y)) ∧
        ((∀ y, a.toNat ≤ y → y < a.toNat + n → ¬ bad y ∧ ∀ e, T.extent y = some e → e.kind ≠ .red ∧ e.kind ≠ .cav) → c = none)))

/-- R247, R263, R288, R291, R297, R300, R301, R308: a command that fails a check raises the fault of the first check that it fails, with the
reason and value of its rule, and queues nothing. -/
def Obligations.RefusedCommandsRaiseTheirReason : Prop :=
  MatrixCommandsAreRefused ∧ AccumulatorLoadsAreRefused ∧ QuantisationsAreRefused ∧ WriteBacksAndSlotsAreRefused ∧ LinearCopiesAreRefused ∧
    DescriptorCopiesAreRefused ∧ GlobalRangesAreCheckedByByte

/-- R300: a linear copy of nothing that passes its checks queues nothing and ends. -/
def Sys2Proof.Claims.CopiesOfNothingEnd : Prop :=
  ∀ (s : State) (cq : Fin 8) (dst src : CEnd) (cnt : Sreg) (tok : TokF), s.Here = true → s.endsLegally = true → s.sr cnt = 0 →
    s.linearRefused dst src 0 = none → ∃ t, exec (.cpy cq dst src cnt tok) s = .next t ∧ s.Went t none

/-- R311, R312: `rsto` combines one value, and `cpost` consecutive elements of a bank, into the thread's fold: each becomes a
contribution in issue order, the j-th at element e0 + j with the j-th element's bytes of the bank, and the unit ends; no byte changes where the latent store has room (R108). The forms check
their range and their region. -/
def Obligations.FoldsAddContributionsInOrder : Prop :=
  ∀ (s : State) (p k : Nat) (base x : Sreg) (disp : BitVec 20) (tok : TokF) (r : Region), s.cur.agent = .tile p k → s.Here = true →
    s.here.mode ≠ .firmware → freshIds s → s.endsLegally = true → (tok.te = true → s.tokenCount s.cur.agent s.cur.th tok.tk < 255) →
    let ea := s.sr base + disp.signExtend 64
    regionOf s (s.part p).transNow (s.part p).tiles.length ea.toNat = some r →
    let e0 := (ea.toNat - r.base - 64) / r.esize
    let room (n : Nat) : Prop := (s.tile p k).granules.length + n ≤ Config.latentGranules
    (∀ wide : Bool, r.esize = (if wide then 8 else 4) → s.foldCheck ea r.esize = none →
      ∃ (t : State) (w : WRec), exec (.rsto base x disp wide tok) s = .next t ∧ s.Ended t none ∧ (room 1 → s.SameBytes t) ∧ s.SameRegs t ∧
        (t.tile p k).contribs = (s.tile p k).contribs ++ [⟨r.base, e0, true, w⟩] ∧
        w.data = (List.range r.esize).map (valueByte (s.sr x)) ∧ w.th = s.cur.th ∧ w.seq = s.here.seq) ∧
    (∀ wide : Bool, s.foldCheck ea (if wide then 8 else 4) = none → r.esize ≠ (if wide then 8 else 4) →
      Raises (.rsto base x disp wide tok) s .align ea) ∧
    ∀ (srcC : Bool) (soff : BitVec 16), let b : Buf := if srcC then .c else .a
      let n := (s.sr x).toNat
      s.foldCheck ea (n * r.esize) = none →
      (n = 0 → ∃ t, exec (.cpost base x srcC soff disp tok) s = .next t ∧ s.Went t none) ∧
      (0 < n → (s.tile p k).fmtAt b (4 * soff.toNat) ≠ r.code →
        Raises (.cpost base x srcC soff disp tok) s .illegalTarget (reasonWord s 12 ((s.tile p k).fmtAt b (4 * soff.toNat)).toNat)) ∧
      (0 < n → (s.tile p k).fmtAt b (4 * soff.toNat) = r.code → e0 + n ≤ r.ne → r.esize = elemSize r.code →
        ∃ (t : State) (w : Nat → WRec), exec (.cpost base x srcC soff disp tok) s = .next t ∧ s.Ended t none ∧ (room n → s.SameBytes t) ∧ s.SameRegs t ∧
          (t.tile p k).contribs = (s.tile p k).contribs ++ (List.range n).map (fun j => ⟨r.base, e0 + j, true, w j⟩) ∧
          ∀ j, j < n → (w j).data = ((s.tile p k).seenAfter s.here.hb).readBuf b (4 * soff.toNat + j * r.esize) r.esize ∧ (w j).th = s.cur.th ∧ (w j).seq = s.here.seq)

/-- R313, R314: `arm`, `patch` and `post` join the operations that the partition's next fix applies, in issue order. -/
def Obligations.RecordInstructionsWaitForTheFix : Prop :=
  ∀ (s : State) (p k : Nat) (r v : Sreg) (off : BitVec 8) (len1 : BitVec 3), s.cur.agent = .tile p k → s.Here = true →
    s.endsLegally = true →
    let queued (i : Instr) (op : RecOp) : Prop := ∃ t, exec i s = .next t ∧ s.Ended t none ∧ s.SameBytes t ∧ s.SameRegs t ∧
      (t.part p).reqs = (s.part p).reqs ++ [⟨op, k, s.cur.th, s.here.seq, none⟩] ∧ (t.part p).recs = (s.part p).recs ∧
      t.here.seq = s.here.seq + 1
    (s.here.mode ≠ .firmware → queued (.armInstruction r) (.arm (s.sr r).toNat) ∧
      queued (.patchInstruction r v off len1) (.patch (s.sr r).toNat off.toNat ((List.range (len1.toNat + 1)).map (valueByte (s.sr v)))) ∧
      queued (.postInstruction r none) (.post (s.sr r).toNat) ∧
      queued (.postInstruction r (some v)) (.postTo (s.sr v).toNat (s.sr r).toNat)) ∧
    (s.here.mode = .firmware → Raises (.armInstruction r) s .illegalTarget (reasonWord s 9 0))

/-- Accepted engine commands fork their operation (R288, R297, R299, R300, R305, R308, R310, R313). -/
def Obligations.CommandsForkTheirOperation : Prop :=
  AcceptedCommandsForkTheirOperation ∧ CommandsWaitForAFullToken ∧ CopiesOfNothingEnd

/-! ### Vector rows (spec/14) -/

namespace Sys2Proof.Claims

/-- A format of integer elements, one of floating-point elements, and either (R268). -/
def intFmt (f : Byte) : Prop := f = 0x00 ∨ f = 0x02 ∨ f = 0x03
def fpFmt (f : Byte) : Prop := f = 0x04 ∨ f = 0x05 ∨ f = 0x06
def rowFmts (f : Byte) : Prop := intFmt f ∨ fpFmt f ∨ f = 0x07

/-- An element of w bits as a signed number, and the w low bits of a number. -/
def asInt (w x : Nat) : Int := (BitVec.ofNat w x).toInt
def asBits (w : Nat) (v : Int) : Nat := (BitVec.ofInt w v).toNat

/-- An exact integer in an element of w bits: it wraps, or with `sat` clamps and sets SAT where it clamps (R270). -/
def intResult (w : Nat) (sat : Bool) (v : Int) : FR :=
  let lo : Int := -2 ^ (w - 1)
  let hi : Int := 2 ^ (w - 1) - 1
  if sat = true ∧ v < lo then ⟨asBits w lo, 0x40⟩ else if sat = true ∧ hi < v then ⟨asBits w hi, 0x40⟩ else ⟨asBits w v, 0⟩

/-- The row instruction ended, and its row of n elements `g i` lands at the end of cycle t + L - 1 with its flags ORed; no
register, predicate or byte has changed yet (R266, R92). -/
def RowLater (s t : State) (L : Nat) (d : Row) (n : Nat) (g : Nat → FR) : Prop :=
  s.QueuedRow t (s.cycle + L - 1) d ((List.range n).flatMap fun i => leBytes (256 / n) (g i).bits)
    ((List.range n).foldl (fun fl i => fl ||| (g i).flags) 0)

/-- The detail of a format that is not allowed: the code, the bank and the head (R268). -/
def formatWord (s : State) : Word :=
  s.rowFmt.setWidth 64 ||| (s.here.ct.setWidth 64 <<< 8) ||| (s.here.unit.head.setWidth 64 <<< 16)

/-- The table of R270: the destination, the operands, SAT, and the effects on integers, on numbers and on pairs. An operand that
an instruction does not use stands as a. -/
def arithRow : Instr → Option (Row × Row × VB × Row × Bool × (Int → Int → Int → Int) × (FFmt → Nat → Nat → Nat → FR))
  | .vadd d a b sat => some (d, a, b, a, sat, fun x y _ => x + y, fun f x y _ => f.addV .rne (f.dec x) (f.dec y))
  | .vsub d a b sat => some (d, a, b, a, sat, fun x y _ => x - y, fun f x y _ => f.addV .rne (f.dec x) (f.dec y).flip)
  | .vmul d a b sat => some (d, a, b, a, sat, fun x y _ => x * y, fun f x y _ => f.mulR .rne (f.dec x) (f.dec y))
  | .vmin d a b sat => some (d, a, b, a, sat, fun x y _ => min x y, fun f x y _ => ⟨f.minMax false x y, 0⟩)
  | .vmax d a b sat => some (d, a, b, a, sat, fun x y _ => max x y, fun f x y _ => ⟨f.minMax true x y, 0⟩)
  | .vabs d a sat => some (d, a, .row a, a, sat, fun x _ _ => |x|, fun f x _ _ => ⟨if 2 ^ (f.width - 1) ≤ x then x - 2 ^ (f.width - 1) else x, 0⟩)
  | .vneg d a sat => some (d, a, .row a, a, sat, fun x _ _ => -x,
      fun f x _ _ => ⟨if 2 ^ (f.width - 1) ≤ x then x - 2 ^ (f.width - 1) else x + 2 ^ (f.width - 1), 0⟩)
  | .vfma d a b c sat => some (d, a, b, c, sat, fun x y z => x * y + z, fun f x y z => f.fmaV .rne (f.dec x) (f.dec y) (f.dec z))
  | _ => none


/-- `vmin` and `vmax` on pairs: MinIdx and MaxIdx of the two 8-byte elements (R147). -/
def pairRow : Instr → Option (Row × Row × VB × Bool)
  | .vmin d a b _ => some (d, a, b, false)
  | .vmax d a b _ => some (d, a, b, true)
  | _ => none

def pairElem (big : Bool) (x y : Nat) : FR :=
  let r := pairOp big (x % 2 ^ 32, x / 2 ^ 32) (y % 2 ^ 32, y / 2 ^ 32)
  ⟨r.1 + 2 ^ 32 * r.2, 0⟩

/-- The tables of R271 and R273, which move or combine raw bits: the formats allowed, the latency, the destination and element i
of it, for elements of w bits and rows of n elements. -/
def rawRow (s : State) (w n : Nat) : Instr → Option ((Byte → Prop) × Nat × Row × (Nat → Nat))
  | .vand d a b => some (rowFmts, 2, d, fun i => (s.row a).getD i 0 &&& (s.vb b).getD i 0)
  | .vor d a b => some (rowFmts, 2, d, fun i => (s.row a).getD i 0 ||| (s.vb b).getD i 0)
  | .vxor d a b => some (rowFmts, 2, d, fun i => (s.row a).getD i 0 ^^^ (s.vb b).getD i 0)
  | .vnot d a => some (rowFmts, 2, d, fun i => 2 ^ w - 1 - (s.row a).getD i 0)
  | .vshl d a b => some (intFmt, 2, d, fun i => ((s.row a).getD i 0 * 2 ^ ((s.vb b).getD i 0 % w)) % 2 ^ w)
  | .vshr d a b => some (intFmt, 2, d, fun i => (s.row a).getD i 0 / 2 ^ ((s.vb b).getD i 0 % w))
  | .vsra d a b => some (intFmt, 2, d, fun i => asBits w (asInt w ((s.row a).getD i 0) / 2 ^ ((s.vb b).getD i 0 % w)))
  | .vsel d m a b => some (rowFmts, 2, d, fun i => if (s.row m).getD i 0 ≠ 0 then (s.row a).getD i 0 else (s.row b).getD i 0)
  | .vbcast d a => some (rowFmts, 2, d, fun i => (s.vb (.scalar a)).getD i 0)
  | .vbcastElement d a b => some (rowFmts, 2, d, fun _ => (s.row a).getD ((s.sr b).toNat % n) 0)
  | .vperm d a b => some (rowFmts, 8, d, fun i => (s.row a).getD ((s.row b).getD i 0 % 256 % n) 0)
  | .vpermRot d a b => some (rowFmts, 8, d, fun i => (s.row a).getD ((i + (s.sr b).toNat) % n) 0)
  | .vmov d a => some (rowFmts, 2, d, fun i => (s.row a).getD i 0)
  | _ => none

/-- The conditions of R272 on numbers; `cmp` is the comparison of two values. -/
def vcmpRow : Instr → Option (Row × Row × VB × Bool × (Int → Bool) × Bool)
  | .vcmpEq d a b u => some (d, a, b, u, fun k => decide (k = 0), true)
  | .vcmpNe d a b u => some (d, a, b, u, fun k => decide (k ≠ 0), true)
  | .vcmpLt d a b u => some (d, a, b, u, fun k => decide (k < 0), false)
  | .vcmpLe d a b u => some (d, a, b, u, fun k => decide (k ≤ 0), false)
  | .vcmpGt d a b u => some (d, a, b, u, fun k => decide (0 < k), false)
  | .vcmpGe d a b u => some (d, a, b, u, fun k => decide (0 ≤ k), false)
  | _ => none

/-- A granule of a row of the thread's bank has spilled (R108). -/
def rowSpilled (s : State) (r : Row) : Bool := s.hereTile.spilled .c (rowAddr s.bank r) 256

/-- The hypotheses of a row instruction that runs and ends at once: no granule of a row of its bank has spilled. -/
def RowRuns (s : State) : Prop :=
  s.Here = true ∧ s.here.mode ≠ .firmware ∧ s.endsLegally = true ∧ ∀ r : Row, rowSpilled s r = false

/-- The rows that a row instruction reads (R270 to R284). -/
def readRows (s : State) : Instr → Option (List Row)
  | .vadd _ a b _ | .vsub _ a b _ | .vmul _ a b _ | .vmin _ a b _ | .vmax _ a b _ | .vand _ a b | .vor _ a b | .vxor _ a b
  | .vshl _ a b | .vshr _ a b | .vsra _ a b | .vcmpEq _ a b _ | .vcmpNe _ a b _ | .vcmpLt _ a b _ | .vcmpLe _ a b _ | .vcmpGt _ a b _
  | .vcmpGe _ a b _ => some (a :: match b with | .row r => [r] | .scalar _ => [])
  | .vfma _ a b c _ => some (a :: c :: match b with | .row r => [r] | .scalar _ => [])
  | .vabs _ a _ | .vneg _ a _ | .vnot _ a | .vbcastElement _ a _ | .vpermRot _ a _ | .vmov _ a | .vscan _ _ a | .vred _ _ a
  | .vredScalar _ _ a | .vexp2 _ a | .vlog2 _ a | .vrcp _ a | .vrsq _ a | .vtanh _ a | .vsig _ a => some [a]
  | .vsel _ m a b => some [m, a, b]
  | .vperm _ a b => some [a, b]
  | .vcvt _ sf _ d a => some (if 256 / elemSize (code7 sf) < 256 / elemSize s.rowFmt then [a, d] else [a])
  | .vbcast .. => some []
  | .mprun slot _ a b c => some (a :: ((if ∃ e ∈ s.hereTile.slots[slot], e.k = 2 then [b] else []) ++
      if ∃ e ∈ s.hereTile.slots[slot], e.k = 3 then [c] else []))
  | .expr w d a b c => some (([(1, a), (2, b), (3, c), (4, d)].filter fun x : Nat × Row => (List.range 16).any fun k => exprToken w k = x.1).map (·.2))
  | _ => none

end Sys2Proof.Claims

/-- R270, R266, R268: the arithmetic of a row, by the kind of its bank. On integers each element is the exact result wrapped, or
clamped with SAT; on numbers the one operation in the element's format; on pairs `vmin` and `vmax` alone. Every other format
raises ILLEGAL_TARGET. -/
def Obligations.RowArithmeticFollowsTheBank : Prop :=
  ∀ (s : State) (i : Instr) (d a : Row) (b : VB) (c : Row) (sat : Bool) (gi : Int → Int → Int → Int) (gf : FFmt → Nat → Nat → Nat → FR),
    arithRow i = some (d, a, b, c, sat, gi, gf) → s.here.mode ≠ .firmware →
    let f := s.rowFmt
    let n := 256 / elemSize f
    let w := 8 * elemSize f
    let x (k : Nat) := (s.row a).getD k 0
    let y (k : Nat) := (s.vb b).getD k 0
    let z (k : Nat) := (s.row c).getD k 0
    (intFmt f → RowRuns s → ∃ t, exec i s = .next t ∧
      RowLater s t 2 d n fun k => intResult w sat (gi (asInt w (x k)) (asInt w (y k)) (asInt w (z k)))) ∧
    (∀ ff, fpOf f = some ff → RowRuns s → ∃ t, exec i s = .next t ∧ RowLater s t 4 d n fun k => gf ff (x k) (y k) (z k)) ∧
    (∀ d' a' b' big, pairRow i = some (d', a', b', big) → f = 0x07 → RowRuns s → ∃ t, exec i s = .next t ∧
      RowLater s t 4 d' 32 fun k => pairElem big ((s.row a').getD k 0) ((s.vb b').getD k 0)) ∧
    (¬ intFmt f → ¬ fpFmt f → (pairRow i = none ∨ f ≠ 0x07) → Raises i s .illegalTarget (formatWord s))

/-- R271, R273, R268: bitwise and shift instructions, and the instructions that move raw elements, set no flag. -/
def Sys2Proof.Claims.RowsOfRawElements : Prop :=
  ∀ (s : State) (i : Instr) (ok : Byte → Prop) (L : Nat) (d : Row) (g : Nat → Nat),
    rawRow s (8 * elemSize s.rowFmt) (256 / elemSize s.rowFmt) i = some (ok, L, d, g) →
    (ok s.rowFmt → RowRuns s → ∃ t, exec i s = .next t ∧ RowLater s t L d (256 / elemSize s.rowFmt) fun k => ⟨g k, 0⟩) ∧
    (¬ ok s.rowFmt → s.here.mode ≠ .firmware → Raises i s .illegalTarget (formatWord s))

/-- R272, R268: the compares of rows: all ones where the condition holds, on signed or unsigned integers or on numbers; NV for a
signalling NaN under `.eq` and `.ne` and for any NaN under the others. -/
def Sys2Proof.Claims.RowComparesWriteMasks : Prop :=
  ∀ (s : State) (i : Instr) (d a : Row) (b : VB) (u : Bool) (cond : Int → Bool) (quiet : Bool),
    vcmpRow i = some (d, a, b, u, cond, quiet) → s.here.mode ≠ .firmware →
    let f := s.rowFmt
    let n := 256 / elemSize f
    let w := 8 * elemSize f
    let x (k : Nat) := (s.row a).getD k 0
    let y (k : Nat) := (s.vb b).getD k 0
    let mask (h : Bool) : Nat := if h then 2 ^ w - 1 else 0
    (intFmt f → RowRuns s → ∃ t, exec i s = .next t ∧ RowLater s t 2 d n fun k =>
      ⟨mask (cond (if u then (x k : Int) - (y k : Int) else asInt w (x k) - asInt w (y k))), 0⟩) ∧
    (∀ ff, fpOf f = some ff → RowRuns s → ∃ t, exec i s = .next t ∧ RowLater s t 4 d n fun k =>
      let p := ff.dec (x k)
      let q := ff.dec (y k)
      if p.isNan || q.isNan then
        ⟨mask (match i with | .vcmpNe .. => true | _ => false), if quiet && !(p.isSnan || q.isSnan) then 0 else 0x10⟩
      else ⟨mask (cond (cmpV p q)), 0⟩) ∧
    (¬ intFmt f → ¬ fpFmt f → Raises i s .illegalTarget (formatWord s))

namespace Sys2Proof.Claims

/-- The operators that suit a bank (R276). -/
def suits (o : RedOp) (f : Byte) : Prop :=
  match o with
  | .iadd | .and | .or | .xor => intFmt f
  | .fadd => fpFmt f
  | .min | .max | .mul => intFmt f ∨ fpFmt f
  | .maxi | .mini => fpFmt f ∨ f = 0x07

def indexOp (o : RedOp) : Bool := decide (o = .maxi) || decide (o = .mini)

/-- PairwiseReduce of R145 on a list of a power of two elements: its two halves' pairs, then their results. -/
def pairs (op : Nat → Nat → FR) (x : Nat → Nat) : (levels at_ : Nat) → Nat
  | 0, j => x j
  | k + 1, j => (op (pairs op x k (2 * j)) (pairs op x k (2 * j + 1))).bits

/-- SequentialScan of R145: element k. -/
def scan (op : Nat → Nat → FR) (x : Nat → Nat) : Nat → Nat
  | 0 => x 0
  | k + 1 => (op (scan op x k) (x (k + 1))).bits

/-- An FP32 function of an element, converted once to the bank's format (R278). -/
def sfnRow : Instr → Option (Row × Row × (Nat → FR))
  | .vexp2 d a => some (d, a, exp2F)
  | .vlog2 d a => some (d, a, log2F)
  | .vrcp d a => some (d, a, rcpF)
  | .vrsq d a => some (d, a, rsqF)
  | _ => none

/-- Sig and Tanh of R279: FP32 operations in the order written. -/
def sig32 (x : Nat) : Nat := (rcpF (f32add 0x3F800000 (exp2F (f32mul x 0xBFB8AA3B).bits).bits).bits).bits
def tanh32 (x : Nat) : Nat :=
  if x % 2 ^ 31 < 0x39800000 then x else (f32fma 0x40000000 (sig32 (f32mul 0x40000000 x).bits) 0xBF800000).bits
def compRow : Instr → Option (Row × Row × (Nat → Nat))
  | .vtanh d a => some (d, a, tanh32)
  | .vsig d a => some (d, a, sig32)
  | _ => none

/-- Some bytes of a row land later, with some flags. -/
def SomeRowLater (s t : State) (L : Nat) (d : Row) (bs : List Byte) : Prop :=
  ∃ fl, s.QueuedRow t (s.cycle + L - 1) d bs fl

end Sys2Proof.Claims

/-- R278, R279, R268: the special functions, on FP banks alone: the FP32 result converted once to the bank's format. `vtanh` and
`vsig` are their compositions; that they set NV for a signalling NaN and NX for a finite non-zero result alone is the model's reading (DEDUCED, log
entry 25). -/
def Obligations.SpecialFunctionsOfRows : Prop :=
  ∀ (s : State), s.here.mode ≠ .firmware →
    let f := s.rowFmt
    let n := 256 / elemSize f
    (∀ (i : Instr) (d a : Row) (g : Nat → FR), sfnRow i = some (d, a, g) →
      (fpFmt f → RowRuns s → ∃ t, exec i s = .next t ∧ RowLater s t 12 d n fun k =>
        let r := g (widen f ((s.row a).getD k 0))
        let c := convElem .rne 0x06 f r.bits
        ⟨c.bits, r.flags ||| c.flags⟩) ∧
      (¬ fpFmt f → Raises i s .illegalTarget (formatWord s))) ∧
    ∀ (i : Instr) (d a : Row) (g : Nat → Nat), compRow i = some (d, a, g) →
      (fpFmt f → RowRuns s → ∃ t, exec i s = .next t ∧ RowLater s t 12 d n fun k =>
        let x := widen f ((s.row a).getD k 0)
        if isNan32 x then ⟨(convElem .rne 0x06 f 0x7FC00000).bits, if isSnan32 x then 0x10 else 0⟩
        else ⟨(convElem .rne 0x06 f (g x)).bits, if g x % 2 ^ 31 = 0 ∨ 0x7F800000 ≤ g x % 2 ^ 31 then 0 else 0x01⟩) ∧
      (¬ fpFmt f → Raises i s .illegalTarget (formatWord s))

namespace Sys2Proof.Claims

/-- The element that an operator works on at place k of row a: widened, and on an FP bank paired with its index for an index operator (R276). -/
def redIn (s : State) (o : RedOp) (a : Row) (k : Nat) : Nat :=
  let f := s.rowFmt
  let v := if f = 0x04 ∨ f = 0x05 then (convElem .rne f 0x06 ((s.row a).getD k 0)).bits else widen f ((s.row a).getD k 0)
  if indexOp o = true ∧ f ≠ 0x07 then v + 2 ^ 32 * k else v

/-- A result converted once to a bank's format. -/
def redOut (f : Byte) (v : Nat) : Nat := if f = 0x07 then v else (convElem .rne (if isIntFmt f then 0x03 else 0x06) f v).bits

/-- A NaN in its canonical form (R136), in a pair its value's. -/
def canonical (f : Byte) (v : Nat) : Nat :=
  if f = 0x04 ∨ f = 0x05 ∨ f = 0x06 then (if isNan32 v then 0x7FC00000 else v)
  else if f = 0x07 then (if isNan32 (v % 2 ^ 32) then 0x7FC00000 + 2 ^ 32 * (v / 2 ^ 32) else v)
  else v

/-- PairwiseReduce over a row, the row of `vscan`, the row of `vred` and the word of `vred` into a register (R145, R277). -/
def redTotal (s : State) (o : RedOp) (a : Row) : Nat := pairs (redOp o (isIntFmt s.rowFmt)) (redIn s o a) (Nat.log2 (256 / elemSize s.rowFmt)) 0
def scanBytes (s : State) (o : RedOp) (a : Row) : List Byte :=
  (List.range (256 / elemSize s.rowFmt)).flatMap fun k =>
    leBytes (elemSize s.rowFmt) (redOut s.rowFmt (canonical s.rowFmt (scan (redOp o (isIntFmt s.rowFmt)) (redIn s o a) k)))
def vredBytes (s : State) (o : RedOp) (a : Row) : List Byte :=
  let f := s.rowFmt
  let total := redTotal s o a
  (List.range (256 / elemSize f)).flatMap fun k => leBytes (elemSize f)
    (if k = 0 then redOut f (if indexOp o = true ∧ f ≠ 0x07 then total % 2 ^ 32 else total)
     else if k = 1 ∧ indexOp o = true ∧ f ≠ 0x07 then total / 2 ^ 32 % 2 ^ (8 * elemSize f) else 0)
def vredWord (s : State) (o : RedOp) (a : Row) : Word :=
  if isIntFmt s.rowFmt then (BitVec.ofNat 32 (redTotal s o a)).signExtend 64 else BitVec.ofNat 64 (redTotal s o a)

end Sys2Proof.Claims

/-- R275 to R277, R145, R276: `vscan` and `vred` of an operator that suits the bank, a NaN in its canonical form (R136); an operator that
does not suit it, and an index scan of an FP bank, raise ILLEGAL_TARGET. -/
def Obligations.ScansAndReductionsOfRows : Prop :=
  ∀ (s : State) (o : RedOp) (d a : Row) (r : Sreg), s.here.mode ≠ .firmware →
    let f := s.rowFmt
    (suits o f → RowRuns s →
      (indexOp o = false ∨ f = 0x07 → ∃ t, exec (.vscan o d a) s = .next t ∧ SomeRowLater s t 8 d (scanBytes s o a)) ∧
      (∃ t, exec (.vred o d a) s = .next t ∧ SomeRowLater s t 8 d (vredBytes s o a)) ∧
      ∃ t fl, exec (.vredScalar o r a) s = .next t ∧ s.LaterS t 8 r (vredWord s o a) fl) ∧
    (¬ suits o f ∨ (indexOp o = true ∧ fpFmt f) → Raises (.vscan o d a) s .illegalTarget (formatWord s)) ∧
    (¬ suits o f → Raises (.vred o d a) s .illegalTarget (formatWord s) ∧ Raises (.vredScalar o r a) s .illegalTarget (formatWord s))

namespace Sys2Proof.Claims

/-- One operation of a micro-program on integers: the codes 0x10 to 0x1A of R281, on 32 bits. -/
def microInt (c t y : Nat) : Nat :=
  let a := asInt 32 t
  let b := asInt 32 y
  match c with
  | 0x10 => asBits 32 (a + b)
  | 0x11 => asBits 32 (a - b)
  | 0x12 => asBits 32 (a * b)
  | 0x13 => asBits 32 (min a b)
  | 0x14 => asBits 32 (max a b)
  | 0x15 => t &&& y
  | 0x16 => t ||| y
  | 0x17 => t ^^^ y
  | 0x18 => t * 2 ^ (y % 32) % 2 ^ 32
  | 0x19 => t / 2 ^ (y % 32)
  | _ => asBits 32 (a / 2 ^ (y % 32))

/-- The temporary after the entries of a slot on an integer bank (MpRun of R282). -/
def microRun (s : State) (es : List MpEntry) (a b c : Nat) : Nat :=
  es.foldl (fun t e => microInt e.code.toNat t
    (if e.k = 0 then (s.sr e.reg).toNat % 2 ^ 32 else if e.k = 1 then e.imm.toNat else if e.k = 2 then b else c)) a

end Sys2Proof.Claims

/-- R281, R282: `mpdef` replaces a slot by the entries of its table in its cycle, or raises ILLEGAL_TARGET at the first entry
that is reserved and leaves the slot; `mprun` of an integer slot applies its operations to each element. -/
def Obligations.MicroProgramsAreDefinedAndRun : Prop :=
  ∀ (s : State), s.here.mode ≠ .firmware →
    (∀ (slot : Fin 4) (off : BitVec 22) (n1 : BitVec 4), let base : Addr := lineOfAddr s.here.unit.addr + (off.signExtend 57) <<< 6
      let n := n1.toNat + 1
      let entry (k : Nat) : Word := BitVec.ofNat 64 (leNat (bytesAt
        ((s.lineAt s.cur.agent (base + BitVec.ofNat 57 (64 * (k / 8)))).getD []) (8 * (k % 8)) 8))
      linesPresent s base ((8 * n + 63) / 64) →
      (∀ la bs, s.lineAt s.cur.agent la = some bs → bs.length = 64) → 
      ((∃ p k, s.cur.agent = .tile p k) → s.Here = true → s.endsLegally = true → (∀ k, k < n → (mpEntry (entry k)).isSome) →
        ∃ t, exec (.mpdef slot off n1) s = .next t ∧ s.Ended t none ∧ s.here.Frame t.here ∧ s.SameBytes t ∧ s.SameRegs t ∧
          t.here.pend = s.leftPend s.here.pend ∧ t.here.fflag = s.here.fflag ∧
          ∀ m : Fin 4, t.hereTile.slots[m] = if m = slot then ((List.range n).map entry).filterMap mpEntry else s.hereTile.slots[m]) ∧
      ∀ k, k < n → mpEntry (entry k) = none → (∀ j, j < k → (mpEntry (entry j)).isSome) →
        Raises (.mpdef slot off n1) s .illegalTarget (base.setWidth 64 + BitVec.ofNat 64 (8 * k))) ∧
    ∀ (slot : Fin 4) (d a b c : Row), let es := s.hereTile.slots[slot]
      let f := s.rowFmt
      let wide (r : Row) (k : Nat) : Nat := asBits 32 (asInt (8 * elemSize f) ((s.row r).getD k 0))
      (intFmt f → es ≠ [] → (∀ e ∈ es, mpInt e.code.toNat = true) → RowRuns s →
        ∃ t, exec (.mprun slot d a b c) s = .next t ∧ RowLater s t (3 + 2 * es.length) d (256 / elemSize f) fun k =>
          let v := asInt 32 (microRun s es (wide a k) (wide b k) (wide c k))
          intResult (8 * elemSize f) true v) ∧
      (∀ ff, fpOf f = some ff → es ≠ [] → (∀ e ∈ es, mpFp e.code.toNat = true) → RowRuns s →
        ∃ t, exec (.mprun slot d a b c) s = .next t ∧ RowLater s t (3 + 2 * es.length) d (256 / elemSize f) fun k =>
          s.mpElem es (widenR f ((s.row a).getD k 0)) (widenR f ((s.row b).getD k 0)) (widenR f ((s.row c).getD k 0))) ∧
      (es = [] ∨ (∃ e ∈ es, (mpFp e.code.toNat = true ∧ ¬ fpFmt f) ∨ (mpInt e.code.toNat = true ∧ ¬ intFmt f)) →
        Raises (.mprun slot d a b c) s .illegalTarget (formatWord s))

/-- R274, R283, R284: `vcvt` converts the part of its source that its destination's elements hold, or its source into the part
of the destination that it names; `expr` evaluates its token word once for each element. -/
def Obligations.ConversionsAndExpressionsOfRows : Prop :=
  ∀ (s : State), s.here.mode ≠ .firmware →
    let f := s.rowFmt
    let nd := 256 / elemSize f
    (∀ (rm : Rm) (sf : Fmt7) (part : Fin 4) (d a : Row),
      let g := code7 sf
      let ns := 256 / elemSize g
      let src := elemsOf (elemSize g) (s.rowBytes a)
      ((intFmt f ∨ fpFmt f) → part.val < max ns nd / min ns nd → RowRuns s →
        ∃ t, exec (.vcvt rm sf part d a) s = .next t ∧ RowLater s t 4 d nd fun k =>
          if nd ≤ ns then convElem rm g f (src.getD (part.val * nd + k) 0)
          else if part.val * ns ≤ k ∧ k < part.val * ns + ns then convElem rm g f (src.getD (k - part.val * ns) 0)
          else ⟨(s.row d).getD k 0, 0⟩) ∧
      (¬ (intFmt f ∨ fpFmt f) ∨ max ns nd / min ns nd ≤ part.val → Raises (.vcvt rm sf part d a) s .illegalTarget (formatWord s))) ∧
    ∀ (w : Word) (d a b c : Row),
      (intFmt f ∨ fpFmt f → RowRuns s → ∃ t, exec (.expr w d a b c) s = .next t ∧
        RowLater s t (4 + 2 * exprOps w) d nd fun k =>
          exprElem f w ((s.row a).getD k 0) ((s.row b).getD k 0) ((s.row c).getD k 0) ((s.row d).getD k 0)) ∧
      (¬ (intFmt f ∨ fpFmt f) → Raises (.expr w d a b c) s .illegalTarget (formatWord s))

namespace Sys2Proof.Claims

/-- What a row instruction writes, where its operands and the format of its bank are allowed: its latency, its destination row and the elements
there with their flags (R270 to R274, R278, R279, R281 to R284). -/
inductive RowGives (s : State) : Instr → Nat → Row → Nat → (Nat → FR) → Prop where
  | arithInt (i d a b c sat gi gf) : arithRow i = some (d, a, b, c, sat, gi, gf) → intFmt s.rowFmt →
      RowGives s i 2 d (256 / elemSize s.rowFmt) fun k => intResult (8 * elemSize s.rowFmt) sat (gi (asInt (8 * elemSize s.rowFmt) ((s.row a).getD k 0))
        (asInt (8 * elemSize s.rowFmt) ((s.vb b).getD k 0)) (asInt (8 * elemSize s.rowFmt) ((s.row c).getD k 0)))
  | arithFp (i d a b c sat gi gf ff) : arithRow i = some (d, a, b, c, sat, gi, gf) → fpOf s.rowFmt = some ff →
      RowGives s i 4 d (256 / elemSize s.rowFmt) fun k => gf ff ((s.row a).getD k 0) ((s.vb b).getD k 0) ((s.row c).getD k 0)
  | pairs (i d a b big) : pairRow i = some (d, a, b, big) → s.rowFmt = 0x07 →
      RowGives s i 4 d 32 fun k => pairElem big ((s.row a).getD k 0) ((s.vb b).getD k 0)
  | raw (i ok L d g) : rawRow s (8 * elemSize s.rowFmt) (256 / elemSize s.rowFmt) i = some (ok, L, d, g) → ok s.rowFmt →
      RowGives s i L d (256 / elemSize s.rowFmt) fun k => ⟨g k, 0⟩
  | cmpInt (i d a b) (u : Bool) (cond : Int → Bool) (quiet : Bool) : vcmpRow i = some (d, a, b, u, cond, quiet) → intFmt s.rowFmt →
      RowGives s i 2 d (256 / elemSize s.rowFmt) fun k =>
        ⟨if cond (if u then ((s.row a).getD k 0 : Int) - ((s.vb b).getD k 0 : Int)
            else asInt (8 * elemSize s.rowFmt) ((s.row a).getD k 0) - asInt (8 * elemSize s.rowFmt) ((s.vb b).getD k 0))
          then 2 ^ (8 * elemSize s.rowFmt) - 1 else 0, 0⟩
  | cmpFp (i d a b) (u : Bool) (cond : Int → Bool) (quiet : Bool) (ff) : vcmpRow i = some (d, a, b, u, cond, quiet) → fpOf s.rowFmt = some ff →
      RowGives s i 4 d (256 / elemSize s.rowFmt) fun k =>
        let p := ff.dec ((s.row a).getD k 0)
        let q := ff.dec ((s.vb b).getD k 0)
        if p.isNan || q.isNan then
          ⟨if (match i with | .vcmpNe .. => true | _ => false) then 2 ^ (8 * elemSize s.rowFmt) - 1 else 0,
            if quiet && !(p.isSnan || q.isSnan) then 0 else 0x10⟩
        else ⟨if cond (cmpV p q) then 2 ^ (8 * elemSize s.rowFmt) - 1 else 0, 0⟩
  | sfn (i d a) (g : Nat → FR) : sfnRow i = some (d, a, g) → fpFmt s.rowFmt →
      RowGives s i 12 d (256 / elemSize s.rowFmt) fun k =>
        let r := g (widen s.rowFmt ((s.row a).getD k 0))
        ⟨(convElem .rne 0x06 s.rowFmt r.bits).bits, r.flags ||| (convElem .rne 0x06 s.rowFmt r.bits).flags⟩
  | comp (i d a) (g : Nat → Nat) : compRow i = some (d, a, g) → fpFmt s.rowFmt →
      RowGives s i 12 d (256 / elemSize s.rowFmt) fun k =>
        let x := widen s.rowFmt ((s.row a).getD k 0)
        if isNan32 x then ⟨(convElem .rne 0x06 s.rowFmt 0x7FC00000).bits, if isSnan32 x then 0x10 else 0⟩
        else ⟨(convElem .rne 0x06 s.rowFmt (g x)).bits, if g x % 2 ^ 31 = 0 ∨ 0x7F800000 ≤ g x % 2 ^ 31 then 0 else 0x01⟩
  | mprunInt (slot d a b c) : intFmt s.rowFmt → s.hereTile.slots[slot] ≠ [] → (∀ e ∈ s.hereTile.slots[slot], mpInt e.code.toNat = true) →
      RowGives s (.mprun slot d a b c) (3 + 2 * s.hereTile.slots[slot].length) d (256 / elemSize s.rowFmt) fun k =>
        let wide (r : Row) : Nat := asBits 32 (asInt (8 * elemSize s.rowFmt) ((s.row r).getD k 0))
        intResult (8 * elemSize s.rowFmt) true (asInt 32 (microRun s s.hereTile.slots[slot] (wide a) (wide b) (wide c)))
  | mprunFp (slot d a b c) : fpFmt s.rowFmt → s.hereTile.slots[slot] ≠ [] → (∀ e ∈ s.hereTile.slots[slot], mpFp e.code.toNat = true) →
      RowGives s (.mprun slot d a b c) (3 + 2 * s.hereTile.slots[slot].length) d (256 / elemSize s.rowFmt) fun k =>
        s.mpElem s.hereTile.slots[slot] (widenR s.rowFmt ((s.row a).getD k 0)) (widenR s.rowFmt ((s.row b).getD k 0))
          (widenR s.rowFmt ((s.row c).getD k 0))
  | vcvt (rm sf part d a) : intFmt s.rowFmt ∨ fpFmt s.rowFmt →
      part.val < max (256 / elemSize (code7 sf)) (256 / elemSize s.rowFmt) / min (256 / elemSize (code7 sf)) (256 / elemSize s.rowFmt) →
      RowGives s (.vcvt rm sf part d a) 4 d (256 / elemSize s.rowFmt) fun k =>
        let ns := 256 / elemSize (code7 sf)
        let nd := 256 / elemSize s.rowFmt
        let src := elemsOf (elemSize (code7 sf)) (s.rowBytes a)
        if nd ≤ ns then convElem rm (code7 sf) s.rowFmt (src.getD (part.val * nd + k) 0)
        else if part.val * ns ≤ k ∧ k < part.val * ns + ns then convElem rm (code7 sf) s.rowFmt (src.getD (k - part.val * ns) 0)
        else ⟨(s.row d).getD k 0, 0⟩
  | expr (w d a b c) : intFmt s.rowFmt ∨ fpFmt s.rowFmt →
      RowGives s (.expr w d a b c) (4 + 2 * exprOps w) d (256 / elemSize s.rowFmt) fun k =>
        exprElem s.rowFmt w ((s.row a).getD k 0) ((s.row b).getD k 0) ((s.row c).getD k 0) ((s.row d).getD k 0)

/-- The row instruction blocks with its row of the bytes `bs` pending: the same write that it would queue, landing at the end of cycle t + L - 1;
its thread waits until after that, and for the channels in training that hold the spilled granules of the rows it reads (R344); no register, predicate or
byte has changed (R93, R108). -/
def RowWaits (s t : State) (rs : List Row) (L : Nat) (d : Row) (bs : List Byte) (fl : Byte) : Prop :=
  let w : WRec := { id := s.opCtr, cls := .task, q := 8, ltile := s.hereT, th := s.cur.th, seq := s.here.seq, hb := s.here.landedHb, buf := some .c,
                    loc := ⟨false, rowAddr s.bank d⟩, data := bs }
  t = { s.newId.modHere (fun _ => t.here) with agenda := t.agenda, fresh := s.fresh + 1 } ∧ s.SameBytes t ∧
  t.here = { s.here with pend := s.here.pend ++ [⟨s.cycle + L - 1, .row w, 0, fl⟩], hb := s.opCtr :: s.here.hb, seq := s.here.seq + 1
                         wait := .result none 0, waitFrom := s.cycle } ∧
  ∃ (m : Nat) (chs : List Nat), t.agenda = s.agenda ++ [⟨s.cycle + 1 + L + m, .blockingWaitDone,
      { agent := s.cur.agent, th := s.cur.th, op := s.cycle, nats := chs }⟩] ∧
    ∀ c, c ∈ chs ↔ ∃ r ∈ rs, c ∈ s.shadowChans s.hereP s.hereT .c (rowAddr s.bank r) 256

/-- R93, R108: a row instruction that reads a row with a spilled granule, on operands and a bank that it allows, blocks with its result pending;
where its loop return would be refused it has no effect, and its thread holds the fault (the model's reading, log entry 19). -/
def SpilledRowsWait : Prop :=
  (∀ (s : State) (i : Instr) (rs : List Row) (L : Nat) (d : Row) (n : Nat) (g : Nat → FR), RowGives s i L d n g → readRows s i = some rs →
    (∃ r ∈ rs, rowSpilled s r = true) → s.Here = true → s.here.mode ≠ .firmware →
    (s.returnRefused = none → ∃ t, exec i s = .next t ∧
      RowWaits s t rs L d ((List.range n).flatMap fun k => leBytes (256 / n) (g k).bits) ((List.range n).foldl (fun fl k => fl ||| (g k).flags) 0)) ∧
    HoldsItsReturn i s) ∧
  ∀ (s : State) (o : RedOp) (d a : Row) (r : Sreg), suits o s.rowFmt → rowSpilled s a = true → s.Here = true → s.here.mode ≠ .firmware →
    (s.returnRefused = none →
      (indexOp o = false ∨ s.rowFmt = 0x07 → ∃ t fl, exec (.vscan o d a) s = .next t ∧ RowWaits s t [a] 8 d (scanBytes s o a) fl) ∧
      (∃ t fl, exec (.vred o d a) s = .next t ∧ RowWaits s t [a] 8 d (vredBytes s o a) fl) ∧
      ∃ t fl, exec (.vredScalar o r a) s = .next t ∧ t = { s.modHere (fun _ => t.here) with agenda := t.agenda, fresh := s.fresh + 1 } ∧
        t.here = { s.here with pend := s.here.pend ++ [⟨s.cycle + 7, .s r, vredWord s o a, fl⟩], wait := .result none 0, waitFrom := s.cycle } ∧
        ∃ m, t.agenda = s.agenda ++ [⟨s.cycle + 9 + m, .blockingWaitDone,
          { agent := s.cur.agent, th := s.cur.th, op := s.cycle, nats := s.shadowChans s.hereP s.hereT .c (rowAddr s.bank a) 256 }⟩]) ∧
    (indexOp o = false ∨ s.rowFmt = 0x07 → HoldsItsReturn (.vscan o d a) s) ∧ HoldsItsReturn (.vred o d a) s ∧ HoldsItsReturn (.vredScalar o r a) s

end Sys2Proof.Claims

/-- Bitwise, shift, select, broadcast, permute and compare rows, and every row instruction that reads a spilled row (R93, R108, R268, R271,
R272, R273). -/
def Obligations.RowsOfRawElementsAndMasks : Prop :=
  RowsOfRawElements ∧ RowComparesWriteMasks ∧ SpilledRowsWait

/-! ### The host's commands (spec/02 R38 to R48; spec/03 R55 to R68; spec/01 R32) -/

namespace Sys2Proof.Claims

/-- The command that is taken next is one that row i of the package performs: it may be taken, its function may use it, and no
check that every command shares refuses it (R46, R47). -/
def Comes (s : State) (i : Instr) : Prop :=
  let r := s.cmd
  let e := s.entry r
  s.mayTake r = true ∧ commandRow e = i ∧ knownOp (fldOf e 0 1) = true ∧
    (r.fn ≠ 0 → (s.bound? r.fn).isSome = true ∧ ¬ (0x40 ≤ fldOf e 0 1 ∧ fldOf e 0 1 ≤ 0x4F)) ∧ s.badEntry r e = false

/-- The machine with that entry taken. -/
def popped (s : State) : State := s.modQueue s.cmd.fn s.cmd.q Queue.takeOne

/-- The entry has been taken: the next one is the entry after it, where that has not completed already (R31). -/
def TookOne (s t : State) : Prop := let Q := (s.fn s.cmd.fn).queue s.cmd.q
  Q.taken + 1 ∉ Q.done → ((t.fn s.cmd.fn).queue s.cmd.q).taken = Q.taken + 1

/-- The command completed with a status, after an effect that left u. -/
def Completes (s : State) (i : Instr) (status : Nat) (u : State) : Prop := exec i s = .next (u.complete s.cmd status)

/-- R47: the first refusals of a command, in their order: a command its function may not use, an unknown opcode, a malformed
entry. Each completes the command with its status and does nothing else. -/
def CommandsAreRefusedInOrder : Prop :=
  ∀ s : State, let r := s.cmd
    let e := s.entry r
    let op := fldOf e 0 1
    s.mayTake r = true →
    (r.fn ≠ 0 ∧ ((s.bound? r.fn).isNone = true ∨ (0x40 ≤ op ∧ op ≤ 0x4F)) → Completes s (commandRow e) 7 (popped s)) ∧
    ((r.fn ≠ 0 → (s.bound? r.fn).isSome = true ∧ ¬ (0x40 ≤ op ∧ op ≤ 0x4F)) →
      (knownOp op = false → Completes s (commandRow e) 2 (popped s)) ∧
      (knownOp op = true → s.badEntry r e = true → Completes s (commandRow e) 3 (popped s)))

/-- R46, R47: completion moves HEAD past an entry at its head, else remembers the entry for later; no other queue changes. An entry that
has completed does not complete again (R31). -/
def CompletionMovesTheHead : Prop :=
  ∀ (s : State) (r : CmdRef) (status : Nat), let t := s.complete r status
    let i : BitVec 32 := BitVec.ofNat 32 r.idx
    let Q := (s.fn r.fn).queue r.q
    let Q' := (t.fn r.fn).queue r.q
    (Q.pending r.idx = false → t = s) ∧
    (r.fn < s.fns.length → r.q < 8 → Q.pending r.idx = true →
      (Q.head = i → Q.head + 1 ∉ Q.done → Q'.head = Q.head + 1) ∧
      (Q.head ≠ i → Q.head ∉ Q.done → Q'.head = Q.head ∧ i ∈ Q'.done)) ∧
    ∀ fn q, (fn, q) ≠ (r.fn, r.q) → (t.fn fn).queue q = (s.fn fn).queue q

/-- A place of memory lies in the n bytes at another. -/
def within (l : Option Loc) (n : Nat) (x : Loc) : Prop := ∃ y, l = some y ∧ y.host = x.host ∧ y.addr ≤ x.addr ∧ x.addr < y.addr + n

/-- R46, R47, R51, R53: what a completion tells the host: the status byte of the entry, HEAD in the command page, the signal of a command that
succeeded on the word it names, and, where the entry asks for it, one event counted on the queue's vector, whose message goes out at the count,
or is pending while the vector is masked. No other byte changes. That a signal's word is found in the translation of the command's partition is
the model's reading, log entry 21. -/
def CompletionTellsTheHost : Prop :=
  ∀ (s : State) (r : CmdRef) (status : Nat), s.memWf → s.boot.recov = false → r.fn < s.fns.length → r.q < 8 →
    let t := s.complete r status
    let e := s.entry r
    let Q := (s.fn r.fn).queue r.q
    Q.pending r.idx = true →
    let place (base : Word) (off : Nat) : Option Loc :=
      if base.getLsbD 0 then (s.bound? r.fn).bind fun b => translate (s.part b.part).trans ((base &&& ~~~0xFFF).toNat + off)
      else some ⟨true, (base &&& ~~~0xFFF).toNat + off⟩
    let ring := place Q.ring (64 * (r.idx % 2 ^ Q.log2) + 2)
    let page := place (s.fn r.fn).cpage (32 * r.q + 12)
    let op := fldOf e 32 1
    let word : Option Loc := if status = 1 ∧ (op = 1 ∨ op = 2 ∨ op = 3) then s.signalLoc r.fn e else none
    let byte (u : State) (x : Loc) : Byte := if x.host then u.host.read x.addr else u.hbm.read x.addr
    let x := (s.fn r.fn).vec (if r.fn = 0 then r.q + 1 else r.q)
    let y := (t.fn r.fn).vec (if r.fn = 0 then r.q + 1 else r.q)
    (∀ a, within ring 1 a → ¬ within page 4 a → ¬ within word 8 a → byte t a = BitVec.ofNat 8 status) ∧
    (∀ a b, page = some b → within page 4 a → ¬ within word 8 a →
      byte t a = ((t.fn r.fn).queue r.q).head.extractLsb' (8 * (a.addr - b.addr)) 8) ∧
    (∀ a, ¬ within ring 1 a → ¬ within page 4 a → ¬ within word 8 a → byte t a = byte s a) ∧
    (∀ l, word = some l → (∀ a, within word 8 a → ¬ within ring 1 a ∧ ¬ within page 4 a) →
      t.physNat l 8 = if op = 1 then fldOf e 24 8 else if op = 2 then (s.physNat l 8 + fldOf e 24 8) % 2 ^ 64 else max (s.physNat l 8) (fldOf e 24 8)) ∧
    ((fldOf e 1 1).testBit 0 = false → t.msgs = s.msgs ∧ y = x) ∧
    ((fldOf e 1 1).testBit 0 = true →
      (x.pend + 1 < max 1 x.count.toNat → y.pend = x.pend + 1 ∧ t.msgs = s.msgs) ∧
      (max 1 x.count.toNat ≤ x.pend + 1 → x.masked = false → y.pend = 0 ∧ t.msgs = s.msgs ++ [(r.fn, if r.fn = 0 then r.q + 1 else r.q)]) ∧
      (max 1 x.count.toNat ≤ x.pend + 1 → x.masked = true → y.pba = true ∧ t.msgs = s.msgs))

/-- R46, R338: a wait at the head of its queue whose word is at least its operand, when a signal or a completion has just acted, is met; it stays
so whatever the word holds later. -/
def WaitsAreMet : Prop :=
  ∀ (s : State) (fn q : Nat) (h : BitVec 32), fn < s.fns.length → q < 8 → (fn, q) ∈ s.waitQueues → ((s.fn fn).queue q).hold = some h →
    ((s.noteWaits.fn fn).queue q).met =
      (((s.fn fn).queue q).met || (decide (((s.fn fn).queue q).head = h) && s.waitOver ⟨fn, q, h.toNat⟩)) ∧
    s.noteWaits.hbm = s.hbm ∧ s.noteWaits.host = s.host ∧ s.noteWaits.parts = s.parts

/-- NOP, SIGNAL, SIGNAL_WAIT and its poll (R47, R51, R338). A wait that has been met, or whose word is at least its operand, completes with no
signal of its own. A SIGNAL_WAIT is a record command: its index is checked. -/
def SignalCommands : Prop :=
  ∀ s : State, let r := s.cmd
    let e := s.entry r
    (Comes s .nop → Completes s .nop 1 (popped s)) ∧
    (Comes s .signal → Completes s .signal 1 (popped s)) ∧
    (Comes s .signalWait → (s.cmdRecord r e).isSome = true →
      ∃ t, exec .signalWait s = .next t ∧ ((t.fn r.fn).queue r.q).hold = some (BitVec.ofNat 32 r.idx) ∧
        TookOne s t ∧ ((t.fn r.fn).queue r.q).head = ((s.fn r.fn).queue r.q).head ∧
        t.parts = s.parts ∧ t.hbm = s.hbm ∧ t.host = s.host) ∧
    (Comes s .signalWait → s.cmdRecord r e = none → Completes s .signalWait 4 (popped s)) ∧
    (∀ l, ((s.fn r.fn).queue r.q).hold = some (BitVec.ofNat 32 r.idx) → ((s.fn r.fn).queue r.q).head.toNat = r.idx →
      s.signalLoc r.fn e = some l →
      let met := ((s.fn r.fn).queue r.q).met = true ∨ fldOf e 24 8 ≤ s.physNat l 8
      (met → exec .signalWaitPoll s = .next (s.completeAs r 1 none false)) ∧ (¬ met → exec .signalWaitPoll s = .next s))

/-- The four record commands (R47, R72, R73): the operation waits for the partition's next fix or wash point, or applies at once
where no superstep runs. -/
def RecordCommands : Prop :=
  ∀ (s : State) (i : Instr) (op : RecOp) (p k : Nat), let r := s.cmd
    let e := s.entry r
    let img := s.physRead ⟨true, fldOf e 40 8⟩ 512
    let off := fldOf e 34 2
    let len := fldOf e 36 1
    ((i = .writeRecord ∧ op = .write k img ∧ imageReserved img = false) ∨
     (i = .patch ∧ op = .patch k off (bytesAt e 40 len) ∧ 1 ≤ len ∧ len ≤ 24 ∧ off + len ≤ 256) ∨
     (i = .arm ∧ op = .arm k) ∨ (i = .post ∧ op = .post k)) →
    Comes s i →
    (s.cmdRecord r e = some (p, k) →
      ((s.part p).still = false → ∃ t, exec i s = .next t ∧ (t.part p).reqs = (s.part p).reqs ++ [⟨op, 0, 0, 0, some r⟩] ∧
        (t.part p).recs = (s.part p).recs ∧ TookOne s t) ∧
      ((s.part p).still = true → exec i s = .next ((popped s).applyHostReq p ⟨op, 0, 0, 0, some r⟩))) ∧
    (s.cmdRecord r e = none → Completes s i 4 (popped s))

/-- R71, R72: the operations on a record: an idle record takes an image, arms with its counts, and an armed one is posted: it is
Eligible where every count is zero. Each is refused by its code in the other states, and then changes nothing; a POST that a new leader
runs again finds its record posted (R31). -/
def RecordStates : Prop :=
  ∀ (P : Partition) (i fn : Nat) (c : Option CmdRef), i < P.recs.length → let r := P.rcd i
    (r.st ≠ .idle → P.recArm i = (P, 2)) ∧
    (r.st = .idle → P.armRefusal r.image = 0 → (P.recArm i).2 = 0 ∧ ((P.recArm i).1.rcd i).st = .armed ∧
      ∀ j, j ≠ i → (P.recArm i).1.rcd j = P.rcd j) ∧
    (c ≠ none → r.postCmd = c → P.recPost i fn c = (P, 0)) ∧
    (r.st = .idle → (c = none ∨ r.postCmd ≠ c) → P.recPost i fn c = (P, 3)) ∧
    (r.st = .armed → (c = none ∨ r.postCmd ≠ c) → (P.recPost i fn c).2 = 0 ∧ ((P.recPost i fn c).1.rcd i).postFn = fn ∧ ((P.recPost i fn c).1.rcd i).postCmd = c ∧
      ((P.recPost i fn c).1.rcd i).st = (if ∀ k : Fin 4, r.counts[k] = 0 then .eligible else .posted)) ∧
    (r.st ≠ .idle → r.st ≠ .armed → (c = none ∨ r.postCmd ≠ c) → P.recPost i fn c = (P, 6))

/-- MAP and UNMAP (R48): the pages stand in the translation, host-backed or on free pages that read zero; and every page of an
UNMAP is gone, the others translating as before. -/
def PageCommands : Prop :=
  ∀ s : State, let r := s.cmd
    let e := s.entry r
    let p := (s.cmdPart r.fn e).getD 64
    let n := fldOf e 48 4
    let vpn (k : Nat) := fldOf e 40 8 / 65536 + pageSize e * k
    let overlap : Prop := ∃ k, k < n ∧ ∃ g ∈ (s.part p).trans, g.overlaps (vpn k) (pageSize e) = true
    (Comes s .map → mapBad s r e = false → (s.part p).valid = true →
      (¬ overlap → (s.mapPages e).isSome = true → ∃ u es, Completes s .map 1 u ∧ (u.part p).trans = (s.part p).trans ++ es ∧ es.length = n ∧
        ∀ (k : Nat) (g : PageT), es[k]? = some g → g.vpn = vpn k ∧ g.size = pageSize e ∧ g.kind = kindOf (fldOf e 33 1) ∧
          g.r = (fldOf e 34 1).testBit 0 ∧ g.w = (fldOf e 34 1).testBit 1 ∧ g.x = (fldOf e 34 1).testBit 2 ∧ g.scope = scopeOf (fldOf e 35 1) ∧
          ((fldOf e 33 1).testBit 7 = true → g.loc = ⟨true, fldOf e 56 8 + 65536 * pageSize e * k⟩) ∧
          ((fldOf e 33 1).testBit 7 = false → (fldOf e 38 1).testBit 0 = false → g.loc.host = false ∧
            (∀ i, i < pageSize e → s.pageFree (g.loc.addr / 65536 + i) = true) ∧
            ∀ a, g.loc.addr ≤ a → a < g.loc.addr + 65536 * pageSize e → u.hbm.read a = 0)) ∧
      (overlap → Completes s .map 5 (popped s)) ∧
      (¬ overlap → (s.mapPages e).isNone = true → Completes s .map 6 (popped s))) ∧
    (Comes s .unmap → unmapBad s r e = false → (s.part p).valid = true →
      let v := fldOf e 40 8 / 65536
      let m := pageSize e * n
      ((∀ i, i < m → (findPage (s.part p).trans (v + i)).isSome = true) → ∃ u, Completes s .unmap 1 u ∧
        (∀ i, i < m → findPage (u.part p).trans (v + i) = none) ∧
        ∀ a, ¬ (v ≤ a / 65536 ∧ a / 65536 < v + m) → translate (u.part p).trans a = translate (s.part p).trans a) ∧
      ((∃ i, i < m ∧ findPage (s.part p).trans (v + i) = none) → Completes s .unmap 5 (popped s)))

/-- COPY_IN and COPY_OUT of a range within one page (R48, R119): the bytes arrive; a COPY_IN to a page of kind V completes at the
partition's next fix or wash point where a superstep runs. -/
def CopyCommands : Prop :=
  ∀ (s : State) (g : PageT), s.memWf → s.boot.recov = false → let r := s.cmd
    let e := s.entry r
    let p := (s.cmdPart r.fn e).getD 64
    let va := fldOf e 40 8
    let n := fldOf e 48 4
    let l := g.loc.plus (va - g.vpn * 65536)
    copyBad s r e = false → (s.part p).valid = true → va % 65536 + n ≤ 65536 → findPage (s.part p).trans (va / 65536) = some g →
    (Comes s .copyIn → g.w = true → g.loc.host = false →
      (g.kind ≠ .v ∨ (s.part p).still = true → ∃ u, Completes s .copyIn 1 u ∧ u.physRead l n = s.physRead ⟨true, fldOf e 56 8⟩ n) ∧
      (g.kind = .v → (s.part p).still = false → ∃ t, exec .copyIn s = .next t ∧ t.physRead l n = s.physRead ⟨true, fldOf e 56 8⟩ n ∧
        (t.part p).outs = (s.part p).outs ++ [r] ∧ t.seen p l n = s.seen p l n)) ∧
    (Comes s .copyIn → (g.w = false ∨ g.loc.host = true) → Completes s .copyIn 4 (popped s)) ∧
    (Comes s .copyOut → g.r = true → ∃ u, Completes s .copyOut 1 u ∧
      u.physRead ⟨true, fldOf e 56 8⟩ n = if g.kind = .v then s.seen p l n else s.physRead l n) ∧
    (Comes s .copyOut → g.r = false → Completes s .copyOut 4 (popped s))

/-- CREATE_PARTITION and DESTROY_PARTITION (R38 to R42): tiles that read zero in the formats of R98, idle records, wire and reduction shares as the
entry asks or R40 gives them, the wire slots being the lowest that are free (the model's choice, log entry 64), and nothing of a partition that is
destroyed; a partition that functions are bound to stays. -/
def PartitionCommands : Prop :=
  ∀ s : State, s.parts.length = 64 → let r := s.cmd
    let e := s.entry r
    let p := fldOf e 33 1
    let wire := if fldOf e 37 1 = 0 then max 1 (120 * fldOf e 35 2 / s.logical.length) else fldOf e 37 1
    let free (k : Nat) : Bool := decide (8 ≤ k) && decide (k < 128) && !(s.parts.any fun P => P.valid && P.wireSlots.contains k)
    (Comes s .createPartition → createBad s r e = false → createRest s r e = 0 → ∃ u, Completes s .createPartition 1 u ∧
      let P := u.part p
      P.valid = true ∧ P.base = fldOf e 34 1 ∧ P.len = fldOf e 35 2 ∧ P.run = .idle ∧ P.launch = none ∧ P.ssn = 0 ∧
        P.tiles = List.replicate (8 * fldOf e 35 2) Tile.zero ∧ P.recs = List.replicate (s.shares e).2.2 LRec.idle ∧
        P.wire = wire ∧ P.redSlots = fldOf e 38 1 ∧ (∀ k ∈ P.wireSlots, free k = true) ∧ P.wireSlots.Pairwise (· < ·) ∧
        P.wireSlots.length = min wire ((List.range 128).countP free) ∧ (∀ k, free k = true → k ∉ P.wireSlots → ∀ j ∈ P.wireSlots, j < k) ∧
        ∀ q, q ≠ p → (u.part q).valid = (s.part q).valid ∧ (u.part q).tiles = (s.part q).tiles) ∧
    (Comes s .createPartition → createBad s r e = false → createRest s r e ≠ 0 → Completes s .createPartition (createRest s r e) (popped s)) ∧
    (Comes s .destroyPartition → p ≤ 63 →
      ((s.part p).valid = true → s.boundTo p = [] → ∃ u, Completes s .destroyPartition 1 u ∧ (u.part p).valid = false ∧ (u.part p).tiles = [] ∧
        ∀ o ∈ u.ops, o.ofPart p = false) ∧
      ((s.part p).valid = false → Completes s .destroyPartition 4 (popped s)) ∧
      ((s.part p).valid = true → s.boundTo p ≠ [] → Completes s .destroyPartition 5 (popped s)))

/-- BIND_VF, UNBIND_VF and ATTEST (R43, R61, R334, R32): a binding with its save area; its end, at once or once the function's
launch stands still; the report at the address given. -/
def FunctionCommands : Prop :=
  ∀ s : State, let r := s.cmd
    let e := s.entry r
    let fn := fldOf e 34 2
    (Comes s .bindVf → bindBad s r e = false → bindRest s r e = 0 → ∃ (u : State) (b : Binding), Completes s .bindVf 1 u ∧
      (u.fn fn).bind = some b ∧ b.part = fldOf e 33 1 ∧ b.ceil = scopeOf (fldOf e 36 1) ∧ b.cls = fldOf e 37 1 ∧ b.quantum = fldOf e 40 2 ∧
      b.first = fldOf e 42 2 ∧ b.count = fldOf e 44 2 ∧
      (b.cls = 0 → b.save.host = false ∧ b.saveSize = worstSave (s.part b.part).len (s.part b.part).nrec) ∧
      (b.cls ≠ 0 → b.save = ⟨true, fldOf e 48 8⟩ ∧ b.saveSize = 65536 * fldOf e 56 4)) ∧
    (Comes s .unbindVf → fn ≠ 0 → fn < s.fns.length →
      (s.bound? fn = none → Completes s .unbindVf 1 (popped s)) ∧
      ∀ b, s.bound? fn = some b →
        ((s.part b.part).busyWith fn = false → ∃ t, exec .unbindVf s = .next t ∧ (t.fn fn).bind = none) ∧
        ((s.part b.part).busyWith fn = true → ∃ t, exec .unbindVf s = .next t ∧ (t.fn fn).bind = some b ∧
          (t.part b.part).stops = (s.part b.part).stops ++ [(.unbind fn, s.cycle)])) ∧
    (s.memWf → Comes s .attest → fldOf e 40 8 % 8 = 0 → fldOf e 48 8 % 8 = 0 → fldOf e 33 7 = 0 → fldOf e 56 8 = 0 →
      let bs := (popped s).report (s.physRead ⟨true, fldOf e 40 8⟩ 32)
      ∃ u, Completes s .attest 1 u ∧ u.physRead ⟨true, fldOf e 48 8⟩ bs.length = bs)

/-- QUIESCE (R55 to R59, R66 to R68): HOLD of an idle partition, of one that stands still, and of one that runs; SHEET writes all of
the sheet but its magic, which it writes last under the leader's epoch; RELEASE lets a partition go on; RESTORE checks the sheet, the
partition, the number and the shape, and leaves the partition held. A command that comes while an earlier one, a save or heat keeps the
partition waits behind it, and its bound has not begun; a HOLD, SHEET or RESTORE of a partition that stands still waits for its write-behind. The order
of the refusals of a RESTORE is log entry 44's, how commands wait log entry 24's, that one waits behind a save or heat log entries 23, 27 and 58's,
and that a RESTORE waits for the write-behind log entry 66's: the model's readings. -/
def QuiesceCommands : Prop :=
  ∀ s : State, let r := s.cmd
    let e := s.entry r
    let p := fldOf e 33 1
    let P := s.part p
    let us := if fldOf e 36 4 = 0 then 1000 else fldOf e 36 4
    p < s.parts.length → quiesceBad s r e = false → quiesceRange s r e = 0 →
    (∀ i, (i = .quiesceHold ∨ i = .quiesceSheet) → Comes s i → P.atRest = false → P.quiesceWaits = false →
      ∃ t, exec i s = .next t ∧ (t.part p).run = P.run ∧ (t.part p).stops = P.stops ++ [(.quiesce r, s.cycle + us * 1800)] ∧
        t.agenda = s.agenda ++ [⟨s.cycle + us * 1800, .quiesceBoundExpiry, { p := p, fn := r.fn, q := r.q, idx := r.idx }⟩]) ∧
    (∀ i, (i = .quiesceHold ∨ i = .quiesceSheet) → Comes s i → P.atRest = true → P.quiesceWaits = false → P.drains ≠ [] →
      ∃ t, exec i s = .next t ∧ (t.part p).run = (if P.run = .idle then .held else P.run) ∧ (t.part p).stops = P.stops ++ [(.quiesce r, 0)] ∧
        t.agenda = s.agenda) ∧
    (∀ i, (i = .quiesceHold ∨ i = .quiesceSheet ∨ i = .quiesceRelease ∨ i = .quiesceRestore) → Comes s i → P.quiesceWaits = true →
      ∃ t, exec i s = .next t ∧ (t.part p).run = P.run ∧ (t.part p).stops = P.stops ++ [(.quiesce r, 0)] ∧ t.agenda = s.agenda) ∧
    (P.quiesceWaits = false →
      (Comes s .quiesceHold → P.atRest = true → P.drains = [] → ∃ u, Completes s .quiesceHold 1 u ∧
        (u.part p).run = (if P.run = .idle then .held else P.run)) ∧
      (Comes s .quiesceSheet → P.run = .held → P.drains = [] → P.lostData = false → s.sheetPoison p = false →
        sheetLength (s.sheetSecs p) ((fldOf e 35 1).testBit 0) ≤ fldOf e 48 8 → ∃ t, exec .quiesceSheet s = .next t ∧
          (t.part p).run = .held ∧ (t.part p).sheet = some r ∧
          ((t.fn r.fn).queue r.q).open r.idx = ((popped s).fn r.fn |>.queue r.q).open r.idx ∧
          ∃ d ∈ t.agenda, d.ev = .sheetWriteDone ∧ s.cycle < d.at_ ∧ d.arg.p = p ∧ d.arg.v = BitVec.ofNat 64 (fldOf e 40 8)) ∧
      (Comes s .quiesceSheet → P.run = .held → P.drains = [] → P.lostData = true → ∃ u, Completes s .quiesceSheet 6 u) ∧
      (Comes s .quiesceRelease → P.run = .held → P.releasing = false →
        ∃ u, Completes s .quiesceRelease 1 u ∧
          (P.launch = none → (u.part p).run = .idle) ∧
          (P.launch ≠ none → P.restored = false → (u.part p).run = .running)) ∧
      (Comes s .quiesceRestore → P.atRest = true → P.drains ≠ [] → ∃ t, exec .quiesceRestore s = .next t ∧ (t.part p).run = P.run ∧
        (t.part p).stops = P.stops ++ [(.quiesce r, 0)] ∧ t.agenda = s.agenda) ∧
      (Comes s .quiesceRestore → (P.atRest = true → P.drains = []) →
        (validSheet (s.sheetIn p e) (fldOf e 48 8) = false → Completes s .quiesceRestore 3 (popped s)) ∧
        (validSheet (s.sheetIn p e) (fldOf e 48 8) = true → P.atRest = false → Completes s .quiesceRestore 5 (popped s)) ∧
        (validSheet (s.sheetIn p e) (fldOf e 48 8) = true → P.atRest = true → let xs := secsOf (s.sheetIn p e)
          (fldOf e 56 4 ≠ 0xFFFFFFFF → fldOf e 56 4 ≠ fldOf (findSec xs 0x02) 0 4 →
            exec .quiesceRestore s = .next ((popped s).completeAs r 7 (some 0x24) false)) ∧
          (fldOf e 56 4 = 0xFFFFFFFF ∨ fldOf e 56 4 = fldOf (findSec xs 0x02) 0 4 →
            ((popped s).badShape p xs = true → exec .quiesceRestore s = .next ((popped s).completeAs r 7 (some 0x25) false)) ∧
            ((popped s).badShape p xs = false →
              (∀ g ∈ P.trans, g.loc.host = false → ∀ k, k < g.size → s.pageFree (g.loc.addr / 65536 + k) = false) →
              ∃ u : State, exec .quiesceRestore s = .next (u.completeAs r 1 (some 0) true) ∧ (u.part p).run = .held ∧
                (u.part p).restored = true ∧ (u.part p).ssn = BitVec.ofNat 32 (fldOf (findSec xs 0x02) 0 4))))))

/-- The end of a SHEET's copy (R58, R31), which waits while a channel of the partition's pages is in training (R344): the magic, completion, and what waited behind it; a write under a former leader's epoch, or of a
command that is no longer under way, is dropped. An uncorrectable error of committed tile data while the copy runs ends it with status 0x06 and no
magic. -/
def SheetEnds : Prop :=
  ∀ s : State, let p := s.arg.p
    let live : Prop := (s.part p).sheet = some s.cmd ∧ s.arg.m = s.epoch.toNat ∧ ((s.fn s.arg.fn).queue s.arg.q).open s.arg.idx = true
    (s.pagesHeld p = true → exec .sheetWriteDone s = .next (s.scheduleFree .sheet .sheetWriteDone s.arg)) ∧
    (s.pagesHeld p = false → live → exec .sheetWriteDone s = .next (settleStops (((s.modPart p fun P => { P with sheet := none }).vwrite (s.part p).trans s.arg.v.toNat
      (leBytes 4 sheetMagic)).complete s.cmd 1) p)) ∧
    (s.pagesHeld p = false → ¬ live → exec .sheetWriteDone s = .next s) ∧
    let v := s.arg.v.toNat % 2 ^ 62
    ∀ r, s.arg.q = 6 → (s.part p).sheet = some r → exec .hbmScrub s = .next (settleStops (((s.eccEvent p s.arg.t .eccUncorr 2 (eccWord 1 ⟨false, v⟩) v).modPart p
      fun P => { P with sheet := none }).complete r 6) p)

end Sys2Proof.Claims

/-- Command queues, completions, signals and records (R46, R47, R51, R53, R71, R72, R73, R338). The model's choices in it: that HEAD moves past
leading completed entries alone (log entry 30), that a record command's image and fields are read when it is taken (28), which commands a SIGNAL
and a wait act for and when they complete (31, 32), and what a POST run again finds (47). -/
def Obligations.HostCommandsAndRecords : Prop :=
  CommandsAreRefusedInOrder ∧ CompletionMovesTheHead ∧ CompletionTellsTheHost ∧ WaitsAreMet ∧ SignalCommands ∧ RecordCommands ∧ RecordStates

/-- MAP, UNMAP, COPY_IN and COPY_OUT (R48, R119). The model's choices in it: that an UNMAP of 64 KiB pages inside a 2 MiB page gives 0x01 and keeps the
rest of that page (log entry 46), and that each command completes in the step that takes it (31). -/
def Obligations.PageAndCopyCommands : Prop :=
  PageCommands ∧ CopyCommands

/-- Partitions, bindings, ATTEST and QUIESCE (R32, R38, R39, R40, R42, R43, R55, R56, R58, R59, R61, R66, R67, R334). The model's choices in it: which wire
slots a partition takes (log entry 64), that a command completes in the step that takes it (31), what a QUIESCE waits behind (23, 24, 27, 58, 66), and
the order of the refusals of a RESTORE (44). -/
def Obligations.PartitionFunctionAndQuiesceCommands : Prop :=
  PartitionCommands ∧ FunctionCommands ∧ QuiesceCommands ∧ SheetEnds

/-! ### Boot, the mailbox and the host's registers (spec/01 R23 to R29; spec/02 R35 to R53) -/

namespace Sys2Proof.Claims

/-- The firmware image of a slot of flash passes every check, under the minimum security version of the configuration record, which is 0
where that record cannot be read (R23, R24). -/
def slotVerifies (s : State) (k : Nat) : Prop :=
  (verifyImage (fun i n => s.flashRead (0x1000000 * k + i) n) (fun i n => (s.flashFails (0x1000000 * k + i) n).map (· - 0x1000000 * k))
    (if (s.flashFails 0x2000000 65536).isSome then 0 else Config.recMinSecurity s.mfgRecord)).1 = 1

/-- Recovery mode: stage 0xF0 with a cause, the mailbox open, and nothing else changed. -/
def Recovering (s t : State) (cause : Byte) : Prop :=
  t = { s with boot := t.boot } ∧ t.boot.done = true ∧ t.boot.stage = 0xF0 ∧ t.boot.recov = true ∧ t.boot.cause = cause ∧ t.boot.mbrdy = true

/-- PACKAGE_RESET (R23): the part is as at reset, at stage 0x01, with flash as it was; while it boots, the stage that STAGE shows runs:
0x03 and 0x04 verify slots 0 and 1, else recovery with cause 0x01; 0x05 applies the configuration records, and a manufacturing record
that fails gives recovery with cause 0x02; 0x06 starts firmware on every controller; 0x07 trains the channels; 0x08 leaves the part
ready, at stage 0x09, with die 0 the leader at epoch 1. -/
def PackageReset : Prop :=
  (∀ s : State, (s.arg.q ≠ 1 ∨ s.boot.done = true) → ∃ t, exec .packageReset s = .next t ∧ t.powered = true ∧ t.boot.done = false ∧
    t.boot.stage = 0x01 ∧ t.flash = s.flash ∧ (∀ p, (t.part p).valid = false) ∧ t.ops = [] ∧ ∀ d, d < 4 → (t.ctrl d).th.task = .absent) ∧
  ∀ s : State, s.arg.q = 1 → s.boot.done = false →
    let good : Prop := s.flashFails 0x2000000 65536 = none ∧ recordCode s.mfgRecord Config.manufacturingKey = 1
    (∀ k : Byte, (s.boot.stage = k ∧ (k = 0x01 ∨ k = 0x02)) → exec .packageReset s = .next { s with boot := { s.boot with stage := k + 1 } }) ∧
    (s.boot.stage = 0x03 → ∃ t, exec .packageReset s = .next t ∧ t = { s with boot := t.boot } ∧ t.boot.done = false ∧ t.boot.slot = 0 ∧
      (slotVerifies s 0 → t.boot.stage = 0x05) ∧ (¬ slotVerifies s 0 → t.boot.stage = 0x04)) ∧
    (s.boot.stage = 0x04 → ∃ t, exec .packageReset s = .next t ∧ t.boot.slot = 1 ∧
      (slotVerifies s 1 → t = { s with boot := t.boot } ∧ t.boot.done = false ∧ t.boot.stage = 0x05) ∧
      (¬ slotVerifies s 1 → Recovering s t 0x01)) ∧
    (s.boot.stage = 0x05 → ∃ t, exec .packageReset s = .next t ∧
      (good → t.boot.done = false ∧ t.boot.stage = 0x06 ∧ t.disabled = Config.recDisabled s.mfgRecord ∧
        t.logical = logicalOrder (Config.recDisabled s.mfgRecord)) ∧
      (¬ good → Recovering s t 0x02)) ∧
    (s.boot.stage = 0x06 → ∃ t, exec .packageReset s = .next t ∧ t.boot.done = false ∧ t.boot.stage = 0x07 ∧
      ∀ d, d < 4 → (t.ctrl d).th.task = .running ∧ (t.ctrl d).th.mode = .firmware ∧ (t.ctrl d).th.pc = Config.firmwareEntry d) ∧
    (s.boot.stage = 0x07 → ∃ t, exec .packageReset s = .next t ∧ t.boot.done = false ∧ t.boot.stage = 0x08 ∧ ∀ ch, (t.chan ch).train = false) ∧
    (s.boot.stage = 0x08 → ∃ t, exec .packageReset s = .next t ∧ t.boot.done = true ∧ t.boot.stage = 0x09 ∧ t.boot.recov = s.boot.recov ∧
      t.leader = 0 ∧ t.epoch = 1)

/-- PCIE_HOT_RESET and POWER_LOSS (R25, R29): the mailbox's registers return to their reset values and nothing else changes; without
power nothing runs, and HBM reads zero (the model's choice, log entry 3). -/
def OtherResets : Prop :=
  ∀ s : State,
    (∃ t, exec .pcieHotReset s = .next t ∧ t.boot.mblen = 0 ∧ t.boot.mboff = 0 ∧ t.boot.busy = false ∧ t.boot.err = false ∧
      t.boot.stage = s.boot.stage ∧ t.boot.recov = s.boot.recov ∧ t = { s with boot := t.boot }) ∧
    ∃ t, exec .powerLoss s = .next t ∧ t.powered = false ∧ (∀ a, t.hbm.read a = 0) ∧ t.boot = s.boot ∧
      (s.arg.data = [] → t.flash = s.flash)

/-- The mailbox (R26, R27): a chunk of the length that LEN holds at GO is taken while the mailbox is ready and its length is in range, and joins the image where the
image so far ends; the last one is verified, and the image runs on die 0's controller or its failure is reported. -/
def Mailbox : Prop :=
  ∀ s : State, let b := s.boot
    (∀ (i : Instr) (last : Bool), (i = .mailboxGo ∧ last = false) ∨ (i = .mailboxLast ∧ last = true) → b.recov = true →
      (b.mbrdy = true → b.busy = false → 0 < b.mblen.toNat → b.mblen.toNat ≤ 2048 → b.mboff.toNat + b.mblen.toNat ≤ 2 ^ 20 →
        ∃ t, exec i s = .next t ∧ t.boot = { b with busy := true, mbrdy := false, last := last, chunk := b.mblen } ∧
          ∃ d ∈ t.agenda, d.ev = .mailboxChunkAppended ∧ s.cycle < d.at_) ∧
      ((b.busy = true ∨ (b.mbrdy = true ∧ (b.mblen = 0 ∨ 2048 < b.mblen.toNat))) →
        exec i s = .next { s with boot := { b with err := true } }) ∧
      (b.mbrdy = true → b.busy = false → 0 < b.mblen.toNat → b.mblen.toNat ≤ 2048 → b.mboff.toNat ≤ 2 ^ 20 → 2 ^ 20 < b.mboff.toNat + b.mblen.toNat →
        ∃ t, exec i s = .next t ∧ t.boot.err = true ∧ t.boot.imgFail.toNat / 2 ^ 24 = 0x0B ∧ t.agenda = s.agenda)) ∧
    (b.busy = true → s.memWf → ∃ t, exec .mailboxChunkAppended s = .next t ∧
      (t.ctrl 0).sram.readRun b.mboff.toNat b.chunk.toNat = b.mbox.readRun 0 b.chunk.toNat ∧
      t.boot.mboff = b.mboff + b.chunk.setWidth 32 ∧
      (b.last = false → t.boot.busy = false ∧ t.boot.mbrdy = true) ∧
      (b.last = true → t.boot.busy = true ∧ ∃ d ∈ t.agenda, d.ev = .mailboxImageVerified ∧ s.cycle < d.at_)) ∧
    (b.busy = true → b.last = true →
      let c := verifyImage (fun i n => (s.ctrl 0).sram.readRun i n) (fun _ _ => none) s.minVersion
      (c.1 = 1 → ∃ t, exec .mailboxImageVerified s = .next t ∧ t.boot.image = true ∧ t.boot.busy = false ∧
        (t.ctrl 0).th.task = .running ∧ (t.ctrl 0).th.mode = .firmware ∧ (t.ctrl 0).sram = (s.ctrl 0).sram) ∧
      (c.1 ≠ 1 → ∃ t, exec .mailboxImageVerified s = .next t ∧ t.boot.imgFail = failWord c ∧ t.boot.cause = 0x03 ∧
        t.boot.mbrdy = true ∧ t.boot.mboff = 0 ∧ t.ctrls = s.ctrls)) ∧
    (b.recov = true → exec .mailboxAbort s = .next { s with boot := { b with mboff := 0 } })

/-- NOTIFY (R45, R46): a width or a reserved bit that is wrong sets NERR alone; a notify of a good queue moves its tail and gives
it a pending bit where it holds no slot; one that runs past the ring stops the queue, with case 1. -/
def Notify : Prop :=
  ∀ s : State, s.boot.recov = false → let fn := s.arg.fn
    let q := (s.arg.v.extractLsb' 32 3).toNat
    let tail : BitVec 32 := s.arg.v.setWidth 32
    let d := s.fnRead fn (s.fn fn).cpage (32 * q) 32
    let Q := (s.fn fn).queue q
    fn < s.fns.length →
    ((s.arg.size ≠ 8 ∨ s.arg.v.extractLsb' 35 29 ≠ 0) → ∃ t, exec .notify s = .next t ∧ (t.fn fn).nerr = true ∧
      (∀ k, (t.fn fn).queue k = (s.fn fn).queue k) ∧ ∀ m, m ≠ fn → t.fn m = s.fn m) ∧
    (s.arg.size = 8 → s.arg.v.extractLsb' 35 29 = 0 → baseReserved fn (s.fn fn).cpage = false → (fldOf d 9 1).testBit 0 = true →
      badDescriptor fn d = false → Q.stopped = false →
      (0 < (tail - Q.tail).toNat → (tail - Q.tail).toNat < 2 ^ 31 → (tail - Q.head).toNat ≤ 2 ^ fldOf d 8 1 →
        ∃ t, exec .notify s = .next t ∧ ((t.fn fn).queue q).tail = tail ∧ ((t.fn fn).queue q).head = Q.head ∧
          ((t.fn fn).queue q).known = true ∧ ((t.fn fn).queue q).ring = BitVec.ofNat 64 (fldOf d 0 8) ∧
          (Q.taken ≠ tail → s.mapped fn q = false → ∃ b ∈ t.pendBits, b.fn = fn ∧ b.q = q)) ∧
      (0 < (tail - Q.tail).toNat → (tail - Q.tail).toNat < 2 ^ 31 → 2 ^ fldOf d 8 1 < (tail - Q.head).toNat →
        ∃ t, exec .notify s = .next t ∧ ((t.fn fn).queue q).stopped = true))

/-- Queue slots (R49, R50): the next waiting queue takes a free slot, or that of an idle queue; else a launch is pre-empted for it, whose slot is
kept for it until the save has released it, and passes over to it then; a queue that has waited for the time of PF_STARVE is announced once. -/
def QueueSlots : Prop :=
  ∀ (s : State) (b : PendBit),
    (∀ k : Fin 64, s.nextBit = some b → s.slotFor = some k.val → ∃ t, exec .queueSlotAssign s = .next t ∧ t.qslots[k] = some (b.fn, b.q) ∧
      (∀ j : Fin 64, j ≠ k → t.qslots[j] = s.qslots[j]) ∧ t.lastServed = 8 * b.fn + b.q ∧
      ∀ x, x ∈ t.pendBits ↔ x ∈ s.pendBits ∧ 8 * x.fn + x.q ≠ 8 * b.fn + b.q) ∧
    (s.nextBit = some b → s.slotFor = none → s.slotVictim = none → exec .queueSlotAssign s = .next s) ∧
    (s.nextBit = some b → b ∈ s.pendBits ∧ s.awaits b = false) ∧
    (∀ k, (∃ x ∈ s.pendBits, s.awaits x = true ∧ x.via.map (·.1) = some k) → s.slotFor ≠ some k ∧ ∀ p, s.slotVictim ≠ some (k, p)) ∧
    (∀ k p, s.nextBit = some b → s.slotFor = none → s.slotVictim = some (k, p) →
      ∃ t, exec .queueSlotAssign s = .next t ∧ (t.part p).preempting = true ∧ t.qslots = s.qslots ∧ t.lastServed = 8 * b.fn + b.q ∧
        t.pendBits = s.pendBits.map fun x =>
          { x with via := if 8 * x.fn + x.q = 8 * b.fn + b.q then some (k, p) else if s.awaits x = true then x.via else none }) ∧
    (∀ (k : Fin 64) (p : Nat), (s.part p).saveSlot = true → b ∈ s.pendBits → b.via = some (k.val, p) → (∀ x ∈ s.pendBits, x.via = some (k.val, p) → x = b) →
      (s.releaseSlots p).qslots[k] = some (b.fn, b.q) ∧ b ∉ (s.releaseSlots p).pendBits) ∧
    (b ∈ s.pendBits → b.fn = s.arg.fn → b.q = s.arg.q → b.since = s.arg.v → b.starved = false →
      ∃ t, exec .queueStarved s = .next t ∧ { b with starved := true } ∈ t.pendBits ∧
        ((s.fn 0).evtAddr ≠ 0 → ((s.fn 0).evtTail - (s.fn 0).evtHead).toNat < 4096 → s.arg.fn = 0 → 0 < s.fns.length →
          (t.fn 0).evtTail = (s.fn 0).evtTail + 1)) ∧
    ((∀ x ∈ s.pendBits, ¬ (x.fn = s.arg.fn ∧ x.q = s.arg.q ∧ x.since = s.arg.v ∧ x.starved = false)) → exec .queueStarved s = .next s)

/-- A message of vector v of function n has been sent, or is pending while the vector is masked (R53). -/
def Sent (s t : State) (n v : Nat) : Prop :=
  (((s.fn n).vec v).masked = false → t.msgs = s.msgs ++ [(n, v)] ∧ ((t.fn n).vec v).pend = 0) ∧
  (((s.fn n).vec v).masked = true → t.msgs = s.msgs ∧ ((t.fn n).vec v).pba = true)

/-- Interrupt coalescing and masks (R52, R53). That an unmasked vector sends its message only where one is pending, and then counts from zero, and
that nothing else clears its count, is the model's choice (log entry 41). -/
def Interrupts : Prop :=
  ∀ s : State, let n := s.arg.fn
    let v := s.arg.n
    let x := (s.fn n).vec v
    n < s.fns.length → v < (if n = 0 then 16 else 9) → s.boot.recov = false →
    (let c : BitVec 8 := s.arg.v.setWidth 8
     ∃ t, exec .coalesceWrite s = .next t ∧ ((t.fn n).vec v).time = s.arg.v.extractLsb' 8 16 ∧ ((t.fn n).vec v).count = c ∧
      (max 1 c.toNat < x.pend → Sent s t n v) ∧ (x.pend ≤ max 1 c.toNat → t.msgs = s.msgs ∧ ((t.fn n).vec v).pend = x.pend)) ∧
    (max 1 x.count.toNat ≤ x.pend → ∃ t, exec .coalesceCountReached s = .next t ∧ Sent s t n v) ∧
    (x.pend < max 1 x.count.toNat → exec .coalesceCountReached s = .next s) ∧
    (1 ≤ x.pend → x.t0 = s.arg.op → x.active ≠ 0 → x.t0 + 180 * x.active.toNat ≤ s.ptime.toNat →
      ∃ t, exec .coalesceTimeExpiry s = .next t ∧ Sent s t n v) ∧
    (1 ≤ x.pend → x.t0 = s.arg.op → x.active ≠ 0 → s.ptime.toNat < x.t0 + 180 * x.active.toNat →
      ∃ t, exec .coalesceTimeExpiry s = .next t ∧ t.msgs = s.msgs ∧ t.fns = s.fns ∧
        ∃ d ∈ t.agenda, d.ev = .coalesceTimeExpiry ∧ d.at_ = s.cycle + (x.t0 + 180 * x.active.toNat - s.ptime.toNat)) ∧
    ((x.pend = 0 ∨ x.t0 ≠ s.arg.op ∨ x.active = 0) → exec .coalesceTimeExpiry s = .next s) ∧
    (∃ t, exec .msixUnmask s = .next t ∧ ((t.fn n).vec v).masked = decide (s.arg.m = 1) ∧
      t.msgs = s.msgs ++ (if s.arg.m ≠ 1 ∧ x.masked = true ∧ x.pba = true then [(n, v)] else []) ∧
      (s.arg.m ≠ 1 → ((t.fn n).vec v).pba = false) ∧
      ((t.fn n).vec v).pend = if s.arg.m ≠ 1 ∧ x.masked = true ∧ x.pba = true then 0 else x.pend)

/-- REGISTER_WRITE (R35, R45, R50, R26): the command page register by halves and whole; NERR is cleared by writing one; the event
head moves no further than its tail; PF_STARVE takes 1 to 1,000,000; the mailbox takes a word; in recovery mode every other
register of BAR0 ignores the write; a write of a notify register but of its 8 bytes sets NERR. -/
def RegisterWrites : Prop :=
  ∀ (s : State) (fn : Nat), s.arg.fn = fn → fn < s.fns.length → let x : BitVec 32 := s.arg.v.setWidth 32
    (s.boot.recov = false → s.arg.size = 8 → s.arg.off = (if fn = 0 then 0x1000 else 0x000) →
      ∃ t, exec .registerWrite s = .next t ∧ (t.fn fn).cpage = s.arg.v ∧ ∀ m, m ≠ fn → t.fn m = s.fn m) ∧
    (s.boot.recov = false → s.arg.size = 4 → fn ≠ 0 → s.arg.off = 0x010 →
      ∃ t, exec .registerWrite s = .next t ∧ (t.fn fn).nerr = ((s.fn fn).nerr && !x.getLsbD 1) ∧ (t.fn fn).cpage = (s.fn fn).cpage) ∧
    (s.boot.recov = false → s.arg.size = 4 → s.arg.off = (if fn = 0 then 0x1020 else 0x020) →
      ∃ t, exec .registerWrite s = .next t ∧
        (t.fn fn).evtHead = (if 2 ^ 31 ≤ ((s.fn fn).evtTail - x).toNat then (s.fn fn).evtHead else x)) ∧
    (s.boot.recov = false → s.arg.size = 4 → fn = 0 → s.arg.off = 0x1018 →
      ∃ t, exec .registerWrite s = .next t ∧ t.pfStarve = (if 1 ≤ x.toNat ∧ x.toNat ≤ 1000000 then x.toNat else s.pfStarve)) ∧
    (s.boot.recov = true → s.boot.busy = false → s.memWf → s.arg.size = 4 → fn = 0 → ∀ o, o + 4 ≤ 0x800 → s.arg.off = 0x800 + o →
      ∃ t, exec .registerWrite s = .next t ∧ t.boot.mbox.readRun o 4 = leBytes 4 x.toNat ∧
        ∀ a, (a < o ∨ o + 4 ≤ a) → t.boot.mbox.read a = s.boot.mbox.read a) ∧
    (s.boot.recov = true → ¬ (fn = 0 ∧ s.arg.off < 0x1000) → exec .registerWrite s = .next s) ∧
    (s.boot.recov = false → notifyOff fn ≤ s.arg.off → s.arg.off < notifyOff fn + 8 → (s.arg.size ≠ 8 ∨ s.arg.off ≠ notifyOff fn) →
      ∃ t, exec .registerWrite s = .next t ∧ (t.fn fn).nerr = true)

end Sys2Proof.Claims

/-- Package reset, the other resets and the recovery mailbox (R23, R24, R25, R26, R27, R29). The model's choices in it: that a stage is one step of
the boot, and what the stages 0x07 and 0x08 report (log entry 48), what flash and HBM keep at a reset and a loss of power (54, 3), and what a
mailbox write in the middle of a chunk does (63). -/
def Obligations.ResetsAndTheMailbox : Prop :=
  PackageReset ∧ OtherResets ∧ Mailbox

/-- Notifies, queue slots, interrupts and register writes (R35, R45, R46, R49, R50, R52, R53). When a masked vector's message goes out, and its count
is cleared, is the model's choice (log entry 41). -/
def Obligations.HostRegistersAndInterrupts : Prop :=
  Notify ∧ QueueSlots ∧ Interrupts ∧ RegisterWrites

/-! ### HBM channels, monitors, power, leases, links and package time (spec/22; spec/01 R12 to R20, R30; spec/02 R44; spec/09) -/

namespace Sys2Proof.Claims

/-- Every channel but one is as before. -/
def OtherChans (s t : State) (ch : Nat) : Prop := ∀ c, c ≠ ch → t.chan c = s.chan c

/-- Training and the pattern test of a channel (R344, R345, R348): TRAIN = 1 takes effect later, and one that was taken back does not; GO runs one test of 3,600 cycles
while TRAIN is 1; a write that a running test or a clear TRAIN forbids sets ERR alone. -/
def ChannelTraining : Prop :=
  ∀ s : State, let ch := s.arg.n
    let c := s.chan ch
    let x : BitVec 32 := s.arg.v.setWidth 32
    ch < 256 →
    (c.busy = false → x.getLsbD 2 = false → ∃ t, exec .hchTrainWrite s = .next t ∧ t.chan ch = { c with train := false, trainAsked := false } ∧
      OtherChans s t ch) ∧
    (c.busy = false → x.getLsbD 2 = true → c.train = false → ∃ t, exec .hchTrainWrite s = .next t ∧
      t.chan ch = { c with train := true, trainAsked := true, trainAt := (t.chan ch).trainAt } ∧ OtherChans s t ch ∧
      s.cycle < (t.chan ch).trainAt ∧ ∃ d ∈ t.agenda, d.ev = .trainEffective ∧ d.arg.n = ch ∧ d.at_ = (t.chan ch).trainAt) ∧
    (c.busy = true → ∃ t, exec .hchTrainWrite s = .next t ∧ t.chan ch = { c with err := true } ∧ OtherChans s t ch ∧ t.agenda = s.agenda) ∧
    (c.trainAsked = false ∨ s.cycle < c.trainAt → exec .trainEffective s = .next s) ∧
    (c.trainAsked = true → c.trainAt ≤ s.cycle → ∃ t, exec .trainEffective s = .next t ∧ (t.chan ch).trainAsked = false ∧ (t.chan ch).train = c.train ∧
      (c.goAsked = true → t.agenda = s.agenda ++ [⟨s.cycle + 3600, .patternTestDone, { n := ch }⟩]) ∧ (c.goAsked = false → t.agenda = s.agenda)) ∧
    (c.busy = false → c.train = true → c.trainAsked = false → ∃ t, exec .patternTestStart s = .next t ∧ t.chan ch = { c with busy := true } ∧
      t.agenda = s.agenda ++ [⟨s.cycle + 3600, .patternTestDone, { n := ch }⟩]) ∧
    (c.busy = false → c.train = true → c.trainAsked = true → ∃ t, exec .patternTestStart s = .next t ∧
      t.chan ch = { c with busy := true, goAsked := true } ∧ t.agenda = s.agenda) ∧
    (c.busy = true ∨ c.train = false → ∃ t, exec .patternTestStart s = .next t ∧ t.chan ch = { c with err := true } ∧ t.agenda = s.agenda) ∧
    (c.busy = true → ∃ t, exec .patternTestDone s = .next t ∧ (t.chan ch).busy = false ∧ (t.chan ch).rd = c.rd ∧ (t.chan ch).wr = c.wr ∧
      (∀ l, l < 64 → (t.chan ch).pass0.getLsbD l = c.laneOk ch s.fresh (c.carrier l)) ∧
      (∀ k, k < 2 → (t.chan ch).pass1.getLsbD k = c.laneOk ch s.fresh (64 + k)) ∧ OtherChans s t ch)

/-- HCH_RDALL and HCH_WRALL (R346, R348): every delay of the channel, while TRAIN is 1 and no test runs. -/
def ChannelDelays : Prop :=
  ∀ s : State, let ch := s.arg.n
    let c := s.chan ch
    ch < 256 →
    (c.busy = false → c.train = true →
      (∃ t, exec .hchRdall s = .next t ∧ (∀ l : Fin 66, (t.chan ch).rd[l] = s.arg.v.setWidth 5) ∧ (t.chan ch).wr = c.wr ∧ OtherChans s t ch) ∧
      ∃ t, exec .hchWrall s = .next t ∧ (∀ l : Fin 66, (t.chan ch).wr[l] = s.arg.v.setWidth 5) ∧ (t.chan ch).rd = c.rd ∧ OtherChans s t ch) ∧
    (c.busy = true ∨ c.train = false → ∀ i, (i = .hchRdall ∨ i = .hchWrall) →
      ∃ t, exec i s = .next t ∧ t.chan ch = { c with err := true } ∧ OtherChans s t ch)

/-- Monitors (R20): MON_SEL's fields, a reserved source leaving the old one; CLR; and a sample counts in one bin and moves the
smallest and the largest value. In recovery mode no monitor is written (R25). Which ports the routes of a partition use, for source 0x06, is the
model's reading (log entry 40). -/
def Monitors : Prop :=
  (∀ s : State, s.boot.recov = true → exec .monitorSelect s = .next s ∧ exec .monitorClear s = .next s) ∧
  (∀ (s : State) (p i : Nat) (x : BitVec 32), s.arg.p = p → s.arg.n = i → s.arg.v.setWidth 32 = x → p < s.parts.length → i < 8 → s.boot.recov = false →
    let m := (s.part p).monitors.toList.getD i Monitor.zero
    (∃ t, exec .monitorSelect s = .next t ∧ (t.part p).monitors.toList.getD i Monitor.zero =
      { m with en := x.getLsbD 31, shift := x.extractLsb' 8 5, src := if (x.setWidth 8).toNat ≤ 9 then x.setWidth 8 else m.src }) ∧
    ∃ t, exec .monitorClear s = .next t ∧ (t.part p).monitors.toList.getD i Monitor.zero =
      { m with min := 0xFFFFFFFF, max := 0, bins := Vector.replicate 16 0 }) ∧
  (∀ (m : Monitor) (v : Nat), v < 2 ^ 32 → let k := if v < 2 ^ (m.shift.toNat + 1) then 0 else min 15 (Nat.log2 v - m.shift.toNat)
    (m.sample v).min.toNat = min m.min.toNat v ∧ (m.sample v).max.toNat = max m.max.toNat v ∧
    ∀ j : Fin 16, (m.sample v).bins[j] = if j.val = k ∧ m.bins[j] ≠ 0xFFFFFFFF then m.bins[j] + 1 else m.bins[j]) ∧
  (∀ (s : State) (n : Nat), (n = 6 ∨ n = 7) → s.arg.n = n → ∃ t, exec .monitorPeriodicSample s = .next t ∧
    t.agenda = s.agenda ++ [⟨s.cycle + (if n = 6 then 1800 else 1800000), .monitorPeriodicSample, { n := n }⟩] ∧
    (∀ p, (s.part p).valid = false → t.part p = s.part p) ∧
    ∀ p, p < s.parts.length → (s.part p).valid = true → (t.part p).monitors =
      ((if n = 6 then ((List.range 40).filter fun k => s.routesUse p k).map fun k => (s.port k).width
        else ((List.range 4).filter fun d => s.onDie p d).map fun d => s.power.temps.toList.getD d 0).foldl (fun P v => P.sample n v) (s.part p)).monitors)

/-- Power and heat (R18, R19): over the limit one more withholding, else none; firmware sets the limit between 400 and 1,600 W; from 105 °C a die issues at half rate; at 115 °C the
partitions on the die wash and are held, and no tile of it issues; below 100 °C on every die of theirs they go on. The power drawn comes from
outside (log entry 8); the cycles that throttling takes are the model's choice (log entry 51). -/
def PowerAndHeat : Prop :=
  ∀ s : State,
    (∀ p k i, s.nextAgent = some (.tile p k, i) → s.power.stopped.toList.getD (s.physPod p (k / 8) / 64) false = false ∧
      (s.power.throttled.toList.getD (s.physPod p (k / 8) / 64) false = true → s.cycle % 2 = 0)) ∧
    (s.arg.q = 1 → ∃ t, exec .powerMeasure s = .next t ∧ t.power.watts = s.power.watts ∧ t.power.withheld = s.power.withheld ∧
      t.power.limit = if 400 ≤ s.arg.m ∧ s.arg.m ≤ 1600 then s.arg.m else s.power.limit) ∧
    (s.arg.q ≠ 1 → s.arg.m ≠ 0 → exec .powerMeasure s = .next { s with power := { s.power with watts := s.arg.m } }) ∧
    (s.arg.q ≠ 1 → s.arg.m = 0 → let w := s.power.watts
     ∃ t, exec .powerMeasure s = .next t ∧ t.power.watts = w ∧ t.power.limit = s.power.limit ∧
      (s.power.limit < w → t.power.withheld.length = s.power.withheld.length + 1) ∧ (w ≤ s.power.limit → t.power.withheld = []) ∧
      t.agenda = s.agenda ++ [⟨s.cycle + 1800, .powerMeasure, {}⟩]) ∧
    ∀ d : Fin 4, s.arg.n = d.val →
      (∃ t, exec .thermalThrottle s = .next t ∧ t.power.temps[d] = s.arg.m ∧ t.power.throttled[d] = decide (105 ≤ s.arg.m) ∧
        (∀ e : Fin 4, e ≠ d → t.power.temps[e] = s.power.temps[e] ∧ t.power.throttled[e] = s.power.throttled[e]) ∧ t.parts = s.parts) ∧
      (115 ≤ s.arg.m → ∃ t, exec .thermalStop s = .next t ∧ t.power.stopped[d] = true ∧ t.power.temps[d] = s.arg.m ∧
        ∀ p, p < s.parts.length → s.onDie p d = true → (t.part p).thermalHeld = true ∧
          ((s.part p).thermalHeld = false → (s.part p).run = .running → (s.part p).decision = none → (t.part p).run = .voting)) ∧
      (s.arg.m < 100 → ∃ t, exec .thermalResume s = .next t ∧ t.power.stopped[d] = false ∧ t.power.temps[d] = s.arg.m ∧
        ∀ p, p < s.parts.length → (s.part p).thermalHeld = true →
          ((∀ k ∈ s.podsOf p, t.power.temps.toList.getD (k / 64) 0 < 100) → (t.part p).thermalHeld = false ∧
            ((s.part p).run = .thermal → (t.part p).run = .running)) ∧
          ((∃ k ∈ s.podsOf p, 100 ≤ t.power.temps.toList.getD (k / 64) 0) → t.part p = s.part p))

/-- The leader's lease (R30, R31): renewal writes every cell for 8 ms and recurs in 2 ms; a controller takes a lease that has run
out where three cells take its epoch, one above the highest, and posts LEADER_CHANGE, with its die, its epoch and the failure codes of the field
records that boot ignored, in the ring of function 0 where that is enabled and not full (R29, R50). -/
def Leases : Prop :=
  ∀ s : State,
    (s.leaderLive = true → ∃ t, exec .leaseRenewal s = .next t ∧
      (∀ d : Fin 4, s.leases[d].epoch.toNat ≤ s.epoch.toNat → t.leases[d] = ⟨s.epoch, BitVec.ofNat 2 s.leader, s.ptime + 14400000⟩) ∧
      (∀ d : Fin 4, s.epoch.toNat < s.leases[d].epoch.toNat → t.leases[d] = s.leases[d]) ∧
      t.agenda = s.agenda ++ [⟨s.cycle + 3600000, .leaseRenewal, {}⟩]) ∧
    (s.leaderLive = false → exec .leaseRenewal s = .next s.wakeCtrls) ∧
    (∀ (d : Nat) (e : BitVec 32), d < 4 → s.arg.n = d → s.mayTakeLease d = true →
      (∀ k : Fin 4, s.leases[k].epoch.toNat < e.toNat) → (∃ k : Fin 4, s.leases[k].epoch + 1 = e) →
      ∃ t, exec .leaseTakeoverAttempt s = .next t ∧ t.leader = d ∧ t.epoch = e ∧
        (∀ k : Fin 4, t.leases[k] = ⟨e, BitVec.ofNat 2 d, s.ptime + 14400000⟩) ∧
        let f := s.fn 0
        let n := f.evtTail.toNat % 4096
        (s.memWf → 0 < s.fns.length → f.evtAddr ≠ 0 → (f.evtTail - f.evtHead).toNat ≠ 4096 → (t.fn 0).evtTail = f.evtTail + 1 ∧
          t.physRead ⟨true, f.evtAddr + 32 * n⟩ 32 = [0x80, 0, 0, 0, 0, 0] ++ leBytes 2 f.lost ++ leBytes 8 s.ptime.toNat ++
            (leBytes 1 d ++ [0, 0, 0] ++ leBytes 4 e.toNat ++ s.boot.fieldFail ++ List.replicate 16 0).take 16) ∧
        (f.evtAddr = 0 → t.host = s.host)) ∧
    (s.mayTakeLease s.arg.n = false → exec .leaseTakeoverAttempt s = .next s)

/-- Scrubbing and the errors that other codes find (one in the pages that a sheet under way takes ends the sheet with 0x06, R58), retirement of a page for every partition that maps it and of a router, a ring sequencer or
a die, the quiescence counter and time slices
(R187, R188, R116, R44). -/
def Housekeeping : Prop :=
  ∀ s : State,
    (s.arg.q = 1 → s.arg.m ≠ 1 → (∀ p, (s.part p).sheet = none) → ∃ t, exec .hbmScrub s = .next t ∧ s.arg.n ∈ t.poison ∧ (∀ u ∈ s.poison, u ∈ t.poison) ∧ t.agenda = s.agenda ∧
      s.SameBytes t) ∧
    (∀ p r, s.arg.q = 1 → s.arg.m ≠ 1 → p < s.parts.length → (s.part p).sheet = some r → (s.part p).stops = [] → (∀ q, q ≠ p → (s.part q).sheet = none) →
      let u : State := { s with poison := s.arg.n :: s.poison.filter (· ≠ s.arg.n) }
      exec .hbmScrub s = .next (if u.sheetPoison p = true then settleStops ((u.modPart p fun P => { P with sheet := none }).complete r 6) p else u)) ∧
    (s.arg.q = 2 → ∃ t, exec .hbmScrub s = .next t ∧ (s.arg.n, s.cycle) ∈ t.corrected ∧ t.agenda = s.agenda) ∧
    (s.arg.q = 3 → s.arg.p < s.parts.length → ∃ t, exec .hbmScrub s = .next t ∧ (t.part s.arg.p).tileErrs = (s.part s.arg.p).tileErrs + 1) ∧
    (s.arg.q = 0 → ∃ t, exec .hbmScrub s = .next t ∧ (∀ k, k ∈ s.arg.nats → (k, s.cycle) ∈ t.corrected) ∧
      (∀ x ∈ s.corrected, s.cycle ≤ x.2 + 155520000000000 → x ∈ t.corrected) ∧
      t.agenda = s.agenda ++ [⟨s.cycle + 155520000000000, .hbmScrub, {}⟩]) ∧
    (s.arg.q = 1 → s.arg.n < 256 → ∃ t, exec .pageRetire s = .next t ∧ s.arg.n ∈ t.retired.routers ∧ (∀ j ∈ s.retired.routers, j ∈ t.retired.routers) ∧
      t.retired.ports = s.retired.ports ∧ t.retired.sequencers = s.retired.sequencers ∧ t.retired.generation = s.retired.generation + 1) ∧
    (s.arg.q = 2 → s.arg.n < 40 → ∃ t, exec .pageRetire s = .next t ∧ s.arg.n ∈ t.retired.sequencers ∧
      (∀ j ∈ s.retired.sequencers, j ∈ t.retired.sequencers) ∧ t.retired.ports = s.retired.ports ∧ t.retired.routers = s.retired.routers) ∧
    (s.arg.q = 3 → s.arg.n < 4 → ∃ t, exec .pageRetire s = .next t ∧ (∀ j, j < 64 → 64 * s.arg.n + j ∈ t.retired.routers) ∧
      (∀ j, j < 8 → 8 * s.arg.n + j ∈ t.retired.ports ∧ 8 * s.arg.n + j ∈ t.retired.sequencers) ∧
      ∀ j, j < 2 → 32 + 2 * s.arg.n + j ∈ t.retired.ports ∧ 32 + 2 * s.arg.n + j ∈ t.retired.sequencers) ∧
    (s.arg.q = 0 → let k := s.arg.n
     (s.worn k = true → s.ownersOf k = [] → ∃ t, exec .pageRetire s = .next t ∧ k ∈ t.retired.pages ∧ t.pageFree k = false ∧
        t.retired.generation = s.retired.generation + 1) ∧
     (∀ p, s.worn k = true → (s.ownersOf k).find? (fun p => !(s.part p).still) = some p →
        ∃ t, exec .pageRetire s = .next t ∧ (t.part p).retiring = (s.part p).retiring ++ [k] ∧ t.retired = s.retired ∧ t.hbm = s.hbm) ∧
     (s.worn k = true → s.ownersOf k ≠ [] → (∀ p ∈ s.ownersOf k, (s.part p).still = true) → exec .pageRetire s = .next (retirePage s k)) ∧
     (s.worn k = false → exec .pageRetire s = .next s)) ∧
    (∃ t, exec .qcntAdvance s = .next t ∧ t.agenda = s.agenda ++ [⟨s.cycle + 4096, .qcntAdvance, {}⟩] ∧
      (s.quiesced = true → t.qcnt = s.qcnt + 1 ∧ t.qLast = s.cycle ∧ ∀ x ∈ s.quarantine, s.qcnt + 1 < x.q + 2 → x ∈ t.quarantine) ∧
      (s.quiesced = false → t.qcnt = s.qcnt ∧ t.quarantine = s.quarantine)) ∧
    (let p := s.arg.p
     (∀ f l, s.sliceDue p = some f → (s.part p).launch = some l → l.nonPre = false → (s.part p).run = .running → (s.runBinding p).isSome = true →
        (s.part p).preempting = false → ∃ t, exec .quantumExpiry s = .next t ∧ (.preempt (2 + f), s.cycle + l.bound * 1800) ∈ (t.part p).stops) ∧
     (s.sliceDue p = none → exec .quantumExpiry s = .next s))

/-- Links (R12, R13, R69, R191): retraining gives the widest width that the lanes allow, and fewer than four lanes fail the port; a
good flit is taken; one that fails is asked for by its number, and the fourth replay of it that fails retrains the port; a replay is sent from the
store. -/
def Links : Prop :=
  ∀ s : State, let k := s.arg.n
    let p := s.port k
    let f := s.arg.data
    let h := (headerOf f).1
    k < 40 → p.failed = false → s.boot.recov = false →
    (let n := laneCount (BitVec.ofNat 16 s.arg.m)
     (4 ≤ n → ∃ t, exec .portRetrain s = .next t ∧ (t.port k).width = (if n = 16 then 16 else if 8 ≤ n then 8 else 4) ∧
        (t.port k).missing = p.missing.map (fun x => (x.1, 0)) ∧ (t.port k).failed = false ∧ ∀ j, j ≠ k → t.port j = s.port j) ∧
     (n < 4 → ∃ t, exec .portRetrain s = .next t ∧ (t.port k).failed = true ∧ k ∈ t.retired.ports)) ∧
    (flitGood f = false → p.missing = [] → ∃ t, exec .flitReceived s = .next t ∧ (t.port k).missing = [(p.rxSeq, 0)] ∧
      (t.port k).rxSeq = p.rxSeq + 1 ∧ replayRequest p.rxSeq ∈ (t.port k).queue ∧ t.parts = s.parts ∧ t.agenda = s.agenda) ∧
    (∀ n, flitGood f = false → p.missing = [(h.seq, n)] → n < 3 → ∃ t, exec .flitReceived s = .next t ∧ (t.port k).missing = [(h.seq, n + 1)] ∧
      (t.port k).rxSeq = p.rxSeq ∧ replayRequest h.seq ∈ (t.port k).queue ∧ t.parts = s.parts ∧ t.agenda = s.agenda) ∧
    (flitGood f = false → p.missing = [(h.seq, 3)] → ∃ t, exec .flitReceived s = .next t ∧
      t.agenda = s.agenda ++ [⟨s.cycle, .portRetrain, { n := k, m := p.lanes.toNat }⟩]) ∧
    (flitGood f = true → h.cls ≠ 4 → (∀ x ∈ p.missing, x.1 ≠ h.seq) → ∃ t, exec .flitReceived s = .next t ∧ (t.port k).missing = p.missing ∧
      (t.port k).rxSeq = h.seq + 1 ∧ (t.port k).out = p.out) ∧
    (flitGood f = true → h.cls ≠ 4 → (∃ x ∈ p.missing, x.1 = h.seq) → ∃ t, exec .flitReceived s = .next t ∧
      (t.port k).missing = p.missing.filter (fun x => decide (x.1 ≠ h.seq)) ∧ (t.port k).rxSeq = p.rxSeq ∧ (t.port k).out = p.out) ∧
    (∀ g, p.store.find? (fun f => decide ((headerOf f).1.seq = BitVec.ofNat 18 s.arg.m)) = some g →
      ∃ t, exec .replayRequest s = .next t ∧ (t.port k).queue = enqueueFlit p.queue ⟨(headerOf g).1.cls, (headerOf g).1.part, g, true⟩ ∧ (t.port k).store = p.store ∧
        ∀ j, j ≠ k → t.port j = s.port j) ∧
    (∃ t, exec .lossOfAPackage s = .next t ∧ t.agenda.length = s.agenda.length + s.arg.nats.length ∧
      ∀ d ∈ t.agenda.drop s.agenda.length, d.ev = .portRetrain ∧ d.arg.n ∈ s.arg.nats ∧ d.arg.m = 0 ∧ s.cycle < d.at_)

/-- Flits at a port (R13, R14, R15, R40, R41): they wait in class order, one that joins behind those of its own class; at a flit boundary a port
that is up and not in a width change sends the first one that may start, a new flit under the next sequence number; else it sends nothing. A flit
of class 0 or 1 may always start, and one of class 2 in a slot of its partition's share alone; that class 3 has those slots and the kept ones, and
class 4 the kept ones, is the model's choice (log entry 64). In recovery mode no port sends (R25). -/
def PortsSendInClassOrder : Prop :=
  (∀ (q : List Waiting) (w : Waiting), q.Pairwise (fun x y => x.cls ≤ y.cls) → (enqueueFlit q w).Pairwise (fun x y => x.cls ≤ y.cls) ∧
    (∀ x, x ∈ enqueueFlit q w ↔ x = w ∨ x ∈ q) ∧
    (enqueueFlit q w).filter (fun x => x.cls = w.cls) = q.filter (fun x => x.cls = w.cls) ++ [w]) ∧
  (∀ (p : Port) (may : Waiting → Bool) (c : Nat),
    (p.failed = true ∨ c < p.sending ∨ c < p.pausedUntil ∨ (∀ w ∈ p.queue, may w = false) → p.sendNext may c = p) ∧
    ∀ vs w ws, p.failed = false → p.sending ≤ c → p.pausedUntil ≤ c → p.queue = vs ++ w :: ws → (∀ x ∈ vs, may x = false) → may w = true →
      let u := p.sendNext may c
      u.queue = vs ++ ws ∧ u.sending = c + flitCycles p.width ∧ u.missing = p.missing ∧ u.rxSeq = p.rxSeq ∧ u.width = p.width ∧
      (w.again = true → u.out = p.out ++ [w.data] ∧ u.txSeq = p.txSeq ∧ u.store = p.store) ∧
      (w.again = false → u.out = p.out ++ [flitBytes w.cls w.part p.txSeq w.data] ∧ u.txSeq = p.txSeq + 1 ∧
        flitBytes w.cls w.part p.txSeq w.data ∈ u.store)) ∧
  (∀ (s : State) (width : Nat) (w : Waiting), let n := s.ptime.toNat / 8 % 128
    let own : Prop := (s.part w.part).valid = true ∧ n ∈ (s.part w.part).wireSlots
    let fits : Prop := s.ptime.toNat % 8 + flitCycles width ≤ 8
    (w.cls ≤ 1 → s.mayStart width w = true) ∧ (w.cls = 2 → (s.mayStart width w = true ↔ fits ∧ own)) ∧
    (w.cls = 3 → (s.mayStart width w = true ↔ fits ∧ (own ∨ n < 8))) ∧ (3 < w.cls → (s.mayStart width w = true ↔ fits ∧ n < 8))) ∧
  ∀ (s : State) (k : Nat), k < 40 →
    (s.boot.recov = false → s.sendPorts.port k = (s.port k).sendNext (s.mayStart (s.port k).width) s.cycle) ∧ (s.boot.recov = true → s.sendPorts = s)

/-- Width changes of a port (R15): a proposal after 100 µs of low load lapses in 16 cycles; which width it names is the controller's, half the present
one where it names none (log entry 61), and a wider one needs lanes that are good; accepted, it pauses the port for at most 360 cycles, and then
holds as far as the lanes allow it. A proposal of the far end is accepted where no change is under way here and the lanes are good (log entry 61). -/
def WidthChanges : Prop :=
  ∀ s : State, let k := s.arg.n
    let p := s.port k
    let w := if s.arg.op = 4 ∨ s.arg.op = 8 ∨ s.arg.op = 16 then s.arg.op else p.width / 2
    k < 40 → s.boot.recov = false →
    (p.failed = false → p.proposed = none → 4 ≤ w → w ≠ p.width → w ≤ laneWidth p.lanes → (w < p.width → 180000 ≤ s.arg.m ∧ s.slotSoon k = false) →
      ∃ t, exec .widthNarrowPropose s = .next t ∧ (t.port k).proposed = some w ∧ (t.port k).proposedAt = s.cycle ∧
        (t.port k).width = p.width ∧ t.agenda = s.agenda ++ [⟨s.cycle + 16, .widthProposalLapse, { n := k }⟩]) ∧
    ((w < 4 ∨ w = p.width ∨ laneWidth p.lanes < w ∨ (w < p.width ∧ (s.slotSoon k = true ∨ s.arg.m < 180000))) →
      exec .widthNarrowPropose s = .next s) ∧
    (∀ w, s.arg.q = 1 → s.arg.op = w → (w = 4 ∨ w = 8 ∨ w = 16) → p.failed = false → p.proposed = none → w ≤ laneWidth p.lanes →
      ∃ t n, exec .widthProposalAccept s = .next t ∧ 0 < n ∧ n ≤ 360 ∧ (t.port k).proposed = some w ∧ (t.port k).pausedUntil = s.cycle + n ∧
        (t.port k).width = p.width ∧ t.agenda = s.agenda ++ [⟨s.cycle + n, .widthChangeDone, { n := k }⟩]) ∧
    (∀ w, s.arg.q ≠ 1 → p.proposed = some w → p.pausedUntil ≤ s.cycle → s.cycle ≤ p.proposedAt + 16 → ∃ t n, exec .widthProposalAccept s = .next t ∧
      0 < n ∧ n ≤ 360 ∧ (t.port k).pausedUntil = s.cycle + n ∧ (t.port k).width = p.width ∧
      t.agenda = s.agenda ++ [⟨s.cycle + n, .widthChangeDone, { n := k }⟩]) ∧
    (∀ w, p.proposed = some w → p.pausedUntil ≤ s.cycle → p.proposedAt + 16 ≤ s.cycle → ∃ t, exec .widthProposalLapse s = .next t ∧
      (t.port k).proposed = none ∧ (t.port k).width = p.width) ∧
    ∀ w, p.proposed = some w → ∃ t, exec .widthChangeDone s = .next t ∧ (t.port k).width = min w (laneWidth p.lanes) ∧ (t.port k).proposed = none ∧
      ∀ j, j ≠ k → t.port j = s.port j

/-- Package time (R16): a beat from the parent gives the distance to go and the bound; a step moves the counter by one toward it, at
most once in 1,024 cycles; the largest distance is kept; beats go to every child every 65,536 cycles; firmware gives the package its place in the tree (log entry 8). -/
def PackageTime : Prop :=
  ∀ s : State,
    (s.boot.recov = true → exec .timingBeat s = .next s) ∧
    (s.boot.recov = false → s.timing.keeper = false → s.timing.parent = s.arg.n →
      let d : Int := (s.ptime - (s.arg.v + BitVec.ofNat 64 (Config.portDelay s.arg.n))).toInt
      ∃ t, exec .timingBeat s = .next t ∧ t.timing.slew = d ∧ t.timing.bound = s.arg.m + d.natAbs ∧ t.timing.skew = decide (3 < s.arg.m + d.natAbs) ∧
        t.timing.seen = max s.timing.seen d.natAbs ∧ t.ptime = s.ptime) ∧
    (s.timing.keeper = true ∨ s.timing.parent ≠ s.arg.n → exec .timingBeat s = .next s) ∧
    (s.timing.lastSlew = 0 ∨ s.timing.lastSlew + 1024 ≤ s.cycle →
      (s.timing.slew < 0 → ∃ t, exec .slewStep s = .next t ∧ t.ptime = s.ptime + 1 ∧ t.timing.slew = s.timing.slew + 1 ∧ t.timing.lastSlew = s.cycle) ∧
      (0 < s.timing.slew → ∃ t, exec .slewStep s = .next t ∧ t.ptime = s.ptime - 1 ∧ t.timing.slew = s.timing.slew - 1 ∧ t.timing.lastSlew = s.cycle)) ∧
    (s.timing.slew = 0 ∨ (s.timing.lastSlew ≠ 0 ∧ s.cycle < s.timing.lastSlew + 1024) → exec .slewStep s = .next s) ∧
    (s.arg.q ≠ 1 → s.boot.recov = false → ∃ t, exec .timingBeatSend s = .next t ∧ t.agenda = s.agenda ++ [⟨s.cycle + 65536, .timingBeatSend, {}⟩] ∧ t.ptime = s.ptime ∧
      ∀ k, k < 40 → s.timing.children.count k = 1 → (t.port k).out = (s.port k).out ∧ (t.port k).queue = enqueueFlit (s.port k).queue
        ⟨1, 0, leBytes 8 s.ptime.toNat ++ leBytes 8 (if s.timing.keeper then 0 else s.timing.bound), false⟩) ∧
    (s.arg.q = 1 → ∃ t, exec .timingBeatSend s = .next t ∧ t.timing.keeper = decide (s.arg.m = 1) ∧ t.timing.children = s.arg.nats ∧
      t.timing.parent = (if s.arg.m = 1 then s.timing.parent else s.arg.n) ∧ (s.arg.m = 1 → t.timing.bound = 0 ∧ t.timing.skew = false) ∧
      t.ptime = s.ptime)

end Sys2Proof.Claims

/-- HBM channel training and delays, and monitors (R20, R344, R345, R346, R348). -/
def Obligations.ChannelsAndMonitors : Prop :=
  ChannelTraining ∧ ChannelDelays ∧ Monitors

/-- Power, heat, the leader's lease, scrubbing, retirement, %qcnt and time slices (R18, R19, R30, R31, R44, R116, R187, R188). The model's choices
in it: which row brings a power limit, and an error that a code finds (log entry 8), how often a row is scrubbed and counted (33, 52), how a page,
a router, a sequencer and a die are retired (46), and the cycles of throttling (51). -/
def Obligations.PowerLeasesAndHousekeeping : Prop :=
  PowerAndHeat ∧ Leases ∧ Housekeeping

/-- Links, the order of flits, width changes and package time (R12, R13, R14, R15, R16, R40, R41, R69, R191). The model's choices in it: which flit
is the one that failed, and the form of the request for its replay (log entry 7), the payload of a beat (39), the place in the timing tree (8), the
width that is proposed (61), and the slots of each class (64). -/
def Obligations.LinksAndPackageTime : Prop :=
  Links ∧ PortsSendInClassOrder ∧ WidthChanges ∧ PackageTime

/-! ### The scheduler (spec/02 R54; spec/04 R77 to R89; spec/03 R58, R59; spec/01 R75) -/

namespace Sys2Proof.Claims

/-- The SSN after a fix (R78): 0xFFFFFFFF is no SSN. -/
def ssnAfter (n : BitVec 32) : BitVec 32 := if n = 0xFFFFFFFE then 0 else n + 1

/-- The messages at the root of a partition's barrier tree, as the root takes them (R80). -/
def rootMsgs (s : State) (p : Nat) : List BarMsg :=
  let n := ssnAfter (s.part p).ssn
  ((s.part p).remote.map fun m => m.taken n) ++ (s.part p).events.map fun e => e.msg n

/-- Votes and the barrier (R79 to R81, R89): a tile votes the largest vote of its running threads and of its own events; the root
decides the largest vote, with the OR and the larger value of the votes' words, for F 96 cycles after the decision, or 2,326 in a
system group, below whose root the combined message goes up; a release goes on to the packages below, with F for its latest arrival (the place of F
in it is the model's, log entry 34); the third wash of one cause and detail becomes a halt, which its release tells, and none is sent before. In a
package below, the release stands as the decision, and acts at F, or when it has reached the last tile where that is later (the model's, log entry
66). The cycles of the decision and of the release are those of log entry 18, and that a link which is down is no edge of the tree is log entry 59. -/
def VotesAndDecisions : Prop :=
  ∀ (s : State), let p := s.arg.p
    let P := s.part p
    let k := s.arg.t
    p < s.parts.length →
    (s.mayVote p k = true → ∃ (t : State) (m : BarMsg), exec .tileVote s = .next t ∧ (t.part p).remote = P.remote ++ [m] ∧
      ((t.part p).tile k).voted = true ∧ m.ssn = ssnAfter P.ssn ∧ m.latest = s.ptime.toNat ∧
      (∀ u ∈ (P.tile k).threads, u.task = .running → u.vote.toNat ≤ m.vote.toNat) ∧
      (∀ f ∈ (P.tile k).faults, f.who = 8 → f.vote.toNat ≤ m.vote.toNat) ∧
      (m.vote ≠ 0 → (∃ u ∈ (P.tile k).threads, u.task = .running ∧ u.vote = m.vote) ∨ ∃ f ∈ (P.tile k).faults, f.who = 8 ∧ f.vote = m.vote)) ∧
    (s.mayVote p k = false → exec .tileVote s = .next s) ∧
    (s.mayDecide p = true → rootMsgs s p ≠ [] → s.upPort p = none → ∃ (t : State) (d : BarMsg), exec .barrierCombine s = .next t ∧ (t.part p).decision = some d ∧
      let F := s.ptime.toNat + if P.sysGroup then 2326 else 96
      (t.part p).flipAt = F ∧ (∀ m ∈ rootMsgs s p, m.vote.toNat ≤ d.vote.toNat) ∧ (∃ m ∈ rootMsgs s p, m.vote = d.vote) ∧
      d.orv = (rootMsgs s p).foldl (fun x m => x ||| m.orv) 0 ∧ (∀ m ∈ rootMsgs s p, m.maxv.toNat ≤ d.maxv.toNat) ∧
      (t.thirdWash p = true → t.agenda = s.agenda ∧ t.ports = s.ports) ∧
      (t.thirdWash p = false → t.agenda = s.agenda ++ [⟨s.cycle + 79, .releaseArrival, { p := p, op := F }⟩] ∧
        ∀ j, j < 40 → (s.downPorts p).count j = 1 →
          (t.port j).queue = enqueueFlit (s.port j).queue ⟨0, p, ({ d with latest := F } : BarMsg).bytes, false⟩)) ∧
    (∀ k, s.mayDecide p = true → rootMsgs s p ≠ [] → s.upPort p = some k → k < 40 → ∃ (t : State) (x : List Byte), exec .barrierCombine s = .next t ∧
      (t.part p).sentUp = true ∧ (t.part p).decision = P.decision ∧ (t.port k).queue = enqueueFlit (s.port k).queue ⟨0, p, x, false⟩) ∧
    (s.mayDecide p = false → exec .barrierCombine s = .next s) ∧
    (∃ t, exec .releaseArrival s = .next t ∧ (t.part p).monitors = (P.sample 3 (s.ptime.toNat - s.arg.op)).monitors ∧
      (t.part p).decision = P.decision ∧ (t.part p).run = P.run) ∧
    (s.thirdWash p = true → ∃ (t : State) (d : BarMsg), exec .washLimitHalt s = .next t ∧ P.decision = some d ∧
      (t.part p).decision = some { d with vote := 2 } ∧ t.agenda = s.agenda ++ [⟨s.cycle + 79, .releaseArrival, { p := p, op := P.flipAt }⟩] ∧
      ∀ j, j < 40 → (s.downPorts p).count j = 1 →
        (t.port j).queue = enqueueFlit (s.port j).queue ⟨0, p, ({ d with vote := 2, latest := P.flipAt } : BarMsg).bytes, false⟩) ∧
    ∀ (j : Nat) (m : BarMsg), P.valid = true → P.launch.isSome = true → P.decision = none → m.isExch = false → P.up = some j →
      let t := s.takeBarrier j p m
      (t.part p).decision = some m ∧ ∃ n, (t.part p).flipAt = max m.latest (s.ptime.toNat + 1 + n) ∧
        t.agenda = s.agenda ++ [⟨s.cycle + 1 + n, .releaseArrival, { p := p, op := m.latest }⟩]

/-- The partition's span at F, by the tile number and the buffer: the byte is named by a range that the fix keeps (R102, R259). -/
def named (T : Tile) (b : Buf) (a : Nat) : Bool := (grainsOf (T.finRanges ++ T.fixRanges false) b).contains (a / 64)

/-- A fix (R81, R102): the SSN goes up by one; %bred takes the words of the decision; the counts of washes are clear; a tile of the
span keeps the bytes that its fix instructions name, as the superstep left them, and every other byte of its buffers reads zero; the
launch ends where every task has, else the partition goes on. -/
def FixCommits : Prop :=
  ∀ (s : State) (d : BarMsg), let p := s.arg.p
    let P := s.part p
    P.decision = some d → d.vote = 0 → s.memWf → ∃ t, exec .flip s = .next t ∧
      (t.part p).ssn = ssnAfter P.ssn ∧ (t.part p).bred.extractLsb' 0 32 = d.orv ∧ (t.part p).bred.extractLsb' 32 32 = d.maxv ∧
      (t.part p).washes = [] ∧ (t.part p).decision = none ∧
      (∀ k b a, k ∈ P.spanTiles → clashes ((P.tile k).latent.filter fun w => w.buf = some b) = [] →
        (((t.part p).tile k).buf b).read a = if named (P.tile k) b a then ((P.tile k).readIn b a 1).headD 0 else 0) ∧
      (∀ k, k ∈ P.spanTiles → ((t.part p).tile k).latent = []) ∧
      ((∀ k ∈ P.spanTiles, ∀ u ∈ (P.tile k).threads, u.task = .running → ∃ r, u.fixRec = some r ∧ r.ends = true) → P.launch.isSome = true →
        (t.part p).launch = none ∧ (P.run = .running ∨ P.run = .voting → P.stops = [] → (t.part p).run = .idle)) ∧
      ((∃ k ∈ P.spanTiles, ∃ u ∈ (P.tile k).threads, u.task = .running ∧ ∀ r, u.fixRec = some r → r.ends = false) →
        P.stops = [] → P.thermalHeld = false → P.run ≠ .saving → P.retiring = [] → P.reqs = [] →
        (t.part p).launch = P.launch ∧ (t.part p).run = .running)

/-- A wash or a halt (R82, R83): the span's tiles read what was committed, formats, rings and lists as well; each running task
stands at its last fix with the registers of it; the SSN is not changed. A halt while a save is under way waits for its end (the model's reading
of R83 and R87, log entry 58). -/
def WashRestores : Prop :=
  ∀ (s : State) (d : BarMsg), let p := s.arg.p
    let P := s.part p
    (P.run = .saving → P.decision = some d → d.vote = 2 → exec .flip s = .next s) ∧
    (P.decision = some d → d.vote ≠ 0 → P.stops = [] → (P.run = .saving → d.vote ≠ 2) → ∃ t, exec .flip s = .next t ∧
      (t.part p).ssn = P.ssn ∧ (t.part p).decision = none ∧ (t.part p).washRuns = P.washRuns + 1 ∧
      (∀ k b, k ∈ P.spanTiles → let T := P.tile k
        let T' := (t.part p).tile k
        T'.latent = [] ∧ T'.buf b = T.buf b ∧ T'.fmt = T.fmtC ∧ T'.rings = T.ringsC ∧
        ∀ i, i < T.threads.length → (T.thread i).task = .running → (T'.thread i).pc = (T.thread i).committed.pc ∧
          (T'.thread i).regs = (T.thread i).committed.regs ∧ (T'.thread i).mode = .task ∧ (T'.thread i).pend = [] ∧ (T'.thread i).wait = .ready) ∧
      (d.vote = 1 → P.thermalHeld = false → P.run ≠ .saving → P.reqs = [] → (t.part p).run = .running ∧ (t.part p).launch = P.launch) ∧
      (d.vote ≠ 1 → (t.part p).run = .halted))

/-- DISPATCH and the return of a launch from its save area (R77, R84, R87, R67); what is to be read in a channel out of service waits (R344). The record that the dispatcher picks runs once its seed is staged,
and each thread of the mask stands at the entry with its stack pointer; the tiles of an area of another superstep raise RESUME_MISMATCH with both
numbers and vote a halt. That clause's detail, vote and run state are the model's reading (log entry 49). -/
def DispatchStartsTasks : Prop :=
  ∀ (s : State) (i : Nat), let p := s.arg.p
    let P := s.part p
    let r := P.rcd i
    (P.mayDispatch = false → P.dispatches = false → exec .dispatch s = .next s) ∧
    (s.seedHeld p = true → exec .dispatch s = .next s) ∧
    (P.mayDispatch = false → P.dispatches = true → P.pickRecord = some i → p < s.parts.length → s.seedHeld p = false → ∃ t, exec .dispatch s = .next t ∧
      (t.part p).staged i = true ∧ (t.part p).recs = P.recs ∧ (t.part p).run = P.run ∧ (t.part p).launch = P.launch ∧ (t.part p).tiles = P.tiles) ∧
    (P.mayDispatch = true → P.pickRecord = some i → s.seedHeld p = false → r.savedIn = none → P.run = .idle → ∃ (t : State) (l : Launch), exec .dispatch s = .next t ∧
      (t.part p).launch = some l ∧ l.rcd = i ∧ l.fn = r.postFn ∧ (t.part p).run = .dispatching ∧ ((t.part p).rcd i).st = .running ∧
      ∀ k, k < P.tiles.length → 8 * r.fld 8 2 ≤ k → k < 8 * (r.fld 8 2 + r.fld 10 2 * r.fld 12 1) → ∀ j, j < 8 →
        let u := ((t.part p).tile k).thread j
        ((r.fld 13 1).testBit j = true → u.task = .running ∧ u.mode = .task ∧ u.pc = BitVec.ofNat 57 (r.fld 0 8) ∧
          u.sreg 2 = BitVec.ofNat 64 (0x40000 - 0x1000 * j) ∧ s.cycle + 72 ≤ u.readyAt) ∧
        ((r.fld 13 1).testBit j = false → u.task = .absent)) ∧
    (P.mayDispatch = true → P.pickRecord = some i → s.seedHeld p = false → r.savedIn ≠ none → ∃ t, exec .dispatch s = .next t ∧
      ((t.part p).launch.map (·.rcd)) = some i ∧ ∃ d ∈ t.agenda, d.ev = .resumeFromSaveArea ∧ d.arg.p = p ∧ d.arg.n = i ∧ s.cycle < d.at_) ∧
    (s.arg.n = i → s.resumeHeld (resumeSaved s p i) p = true → exec .resumeFromSaveArea s = .next (s.scheduleFree .resume .resumeFromSaveArea s.arg)) ∧
    (∀ (l : Launch) (fn : Nat) (ssn : BitVec 32) (b : Binding), s.arg.n = i → s.resumeHeld (resumeSaved s p i) p = false → P.launch = some l → l.rcd = i → P.run = .dispatching →
      r.savedIn = some (fn, ssn) → s.areaOf p fn = some b →
      let area := s.physRead b.save (min b.saveSize (leNat (s.physRead (b.save.plus 8) 8)))
      let st := findSec (secsOf area) 0x02
      ((fldOf area 0 4 ≠ sheetMagic ∨ fldOf st 0 4 ≠ ssn.toNat) → ∃ t, exec .resumeFromSaveArea s = .next t ∧ (t.part p).run = .running ∧
        ∀ k ∈ P.spanTiles, k < P.tiles.length → ∃ f ∈ ((t.part p).tile k).faults, f.who = 8 ∧ f.vote = 2 ∧ f.cause = .resumeMismatch ∧
          f.detail = ssn ++ BitVec.ofNat 32 (fldOf st 0 4)) ∧
      (fldOf area 0 4 = sheetMagic → fldOf st 0 4 = ssn.toNat → ∃ t, exec .resumeFromSaveArea s = .next t ∧ (t.part p).run = .dispatching ∧
        ((t.part p).rcd i).savedIn = none ∧ (t.part p).lead = fldOf st 8 4))

/-- Saving a launch (R86, R87): each tile is saved once; the last one ends the save, and the partition is idle where nothing else
waits for it. -/
def SavingEnds : Prop :=
  ∀ s : State, let p := s.arg.p
    let k := s.arg.t
    let P := s.part p
    p < s.parts.length → k < P.tiles.length → P.saveFn.isSome = true → (P.tile k).saved = false → P.launch = none →
    ((∃ j, j < P.tiles.length ∧ j ≠ k ∧ (P.tile j).saved = false) → ∃ t, exec .tileSaved s = .next t ∧ ((t.part p).tile k).saved = true ∧
      (t.part p).run = P.run ∧ (t.part p).saveFn = P.saveFn) ∧
    ((∀ j, j < P.tiles.length → j ≠ k → (P.tile j).saved = true) → P.run = .saving → P.stops = [] →
      ∃ t, exec .tileSaved s = .next t ∧ (t.part p).saveFn = none ∧ (t.part p).run = .idle)

/-- What happens around supersteps (R108, R110, R119, R150, R151): the lead returns after 256 fixes without a LATE, and is 2,048 in a system
group, which firmware joins (log entry 59); the shadow area is
copied back; a write from outside reaches memory, and a superstep that maps its page with kind V does not see it; a table is built, and the end of a
build that another has replaced changes nothing. -/
def AroundSupersteps : Prop :=
  ∀ s : State, let p := s.arg.p
    let k := s.arg.t
    let P := s.part p
    p < s.parts.length →
    (s.arg.q ≠ 1 → 256 ≤ P.sinceLate → ∃ t, exec .leadReset s = .next t ∧ (t.part p).lead = P.baseLead) ∧
    (s.arg.q = 1 → P.valid = true → P.launch = none → ∃ t, exec .leadReset s = .next t ∧ (t.part p).sysGroup = true ∧ (t.part p).lead = 2048) ∧
    (k < P.tiles.length → ∃ t, exec .spillCopyBackDone s = .next t ∧ ((t.part p).tile k).copyBack = [] ∧ s.SameBytes t) ∧
    (s.memWf → s.boot.recov = false → let l : Loc := ⟨decide (s.arg.n = 1), s.arg.v.toNat⟩
      ∃ t, exec .outsideWrite s = .next t ∧ t.physRead l s.arg.data.length = s.arg.data ∧
        ∀ q, (s.part q).valid = true → (s.part q).still = false →
          (∀ j, j < s.arg.data.length → (s.part q).mapsV (l.plus j) = true) → t.seen q l s.arg.data.length = s.seen q l s.arg.data.length) ∧
    ((P.tile k).building = true → (P.tile k).build = s.arg.m → s.listHeld P.transBuild (P.tile k).flpa (P.tile k).flpn = true →
      exec .extentBuildDone s = .next (s.scheduleFree .extent .extentBuildDone s.arg)) ∧
    (k < P.tiles.length → (P.tile k).building = true → (P.tile k).build = s.arg.m → P.releasing = false →
      s.listHeld P.transBuild (P.tile k).flpa (P.tile k).flpn = false → ∃ t, exec .extentBuildDone s = .next t ∧
      let es := s.buildTable p P.transBuild (P.tile k).flpa (P.tile k).flpn
      ((t.part p).tile k).building = false ∧ (s.arg.n = 1 → ((t.part p).tile k).ext = es ∧ ((t.part p).tile k).spare = (P.tile k).spare) ∧
        (s.arg.n ≠ 1 → ((t.part p).tile k).spare = es ∧ ((t.part p).tile k).ext = (P.tile k).ext) ∧ es.length ≤ 128) ∧
    ((P.tile k).building = false ∨ (P.tile k).build ≠ s.arg.m → exec .extentBuildDone s = .next s)

/-- The watchdog and the bounds (R88, R86, R56): an event with the count in 1,024 cycles, a wash and then a halt; a bound that elapses
before the vote has reached the root washes the superstep, and one that elapses in another state of the partition than Running waits (log entry
58). -/
def WatchdogAndBounds : Prop :=
  ∀ s : State, let p := s.arg.p
    let P := s.part p
    p < s.parts.length →
    (s.dogDue p = true → ∃ t, exec .watchdog s = .next t ∧ (t.part p).dogFired = P.dogFired + 1 ∧ (t.part p).events =
      P.events ++ [⟨8, if P.dogFired = 0 then 1 else 2, .watchdog, BitVec.ofNat 64 ((s.cycle - P.dogFrom) / 1024)⟩]) ∧
    (s.dogDue p = false → exec .watchdog s = .next s) ∧
    (let due := ∃ k c, (.preempt k, c) ∈ P.stops ∧ c ≤ s.cycle
     (due → P.launch.map (·.since) = some s.arg.op → s.reachedRoot p = false → P.run = .running →
       ∃ t, exec .preemptBoundExpiry s = .next t ∧ (t.part p).run = .voting ∧ (t.part p).events = P.events ++ [⟨8, 1, .boundWash, 0⟩]) ∧
     (due → P.launch.map (·.since) = some s.arg.op → P.run = .dispatching →
       ∃ t, exec .preemptBoundExpiry s = .next t ∧ t.agenda = s.agenda ++ [⟨s.cycle + 1, .preemptBoundExpiry, s.arg⟩] ∧ t.parts = s.parts) ∧
     (¬ due ∨ (s.reachedRoot p = true ∧ P.run ≠ .dispatching) → exec .preemptBoundExpiry s = .next s)) ∧
    (let r : CmdRef := ⟨s.arg.fn, s.arg.q, s.arg.idx⟩
     let due := ∃ c, (.quiesce r, c) ∈ P.stops ∧ c ≠ 0 ∧ c ≤ s.cycle
     (due → s.reachedRoot p = false → P.run = .running →
        ∃ t, exec .quiesceBoundExpiry s = .next t ∧ (t.part p).run = .voting ∧ (t.part p).events = P.events ++ [⟨8, 1, .boundWash, 1⟩]) ∧
     (due → P.run = .saving ∨ P.run = .thermal →
        ∃ t, exec .quiesceBoundExpiry s = .next t ∧ t.agenda = s.agenda ++ [⟨s.cycle + 1800, .quiesceBoundExpiry, s.arg⟩] ∧ t.parts = s.parts) ∧
     (due → P.run = .dispatching →
        ∃ t, exec .quiesceBoundExpiry s = .next t ∧ t.agenda = s.agenda ++ [⟨s.cycle + 1, .quiesceBoundExpiry, s.arg⟩] ∧ t.parts = s.parts) ∧
     (¬ due → exec .quiesceBoundExpiry s = .next s))

/-- The end of a launch (R72, R75, R86): its record is Idle, or Armed again; an unconditional successor's count goes down by one, and at
zero it is Eligible; a deferred pre-emption is requested once its bound is over. -/
def LaunchesEnd : Prop :=
  ∀ s : State, let p := s.arg.p
    let i := s.arg.n
    let P := s.part p
    let r := P.rcd i
    p < s.parts.length →
    (i < P.recs.length → r.st = .running → P.launch.map (·.rcd) ≠ some i →
      (r.rearm = false → r.fld 36 4 ≠ i → r.conditional = false → ∃ t, exec .launchComplete s = .next t ∧ ((t.part p).rcd i).st = .idle ∧
        ∀ j, r.fld 36 4 = j → j ≠ 0xFFFFFFFF → j < P.recs.length →
          let c := (P.rcd j).counts.toList.getD (r.fld 72 1 % 4) 0
          (((P.rcd j).st = .armed ∨ (P.rcd j).st = .posted) → c ≠ 0 →
            ((t.part p).rcd j).counts.toList.getD (r.fld 72 1 % 4) 0 = c - 1 ∧
            (((t.part p).rcd j).counts.toList.all (· == 0) = true → ((t.part p).rcd j).st = .eligible))) ∧
      (r.rearm = true → r.fld 36 4 = 0xFFFFFFFF → r.conditional = false → ∃ t, exec .launchComplete s = .next t ∧
        ((t.part p).rcd i).st = .armed ∧ ((t.part p).rcd i).rearm = false)) ∧
    ((r.st ≠ .running ∨ P.launch.map (·.rcd) = some i) → exec .launchComplete s = .next (s.modPart p fun P => { P with drains := P.drains.erase s.arg.op })) ∧
    (∀ l, P.launch = some l → l.since = s.arg.op → i ≠ 0 → P.run = .running → P.preempting = false → (s.runBinding p).isSome = true →
      l.since + s.pfNpLimit * 1800 ≤ s.cycle → ∃ t, exec .nonpreemptibleLimitExpiry s = .next t ∧
        (t.part p).stops = P.stops ++ [(.preempt i, s.cycle + l.bound * 1800)])

/-- Drained write-behind, and function-level resets (R56, R72, R81, R54, R344): while a channel that a write goes to is in training the drain waits;
else the record that ended completes next, and the fix's write-behind is no longer out once it has. Stops of a partition at rest wait for all of it. A virtual function's registers return to their reset values and its binding stays; a reset of the
physical function ends every partition, and unbinds every function. What becomes of commands, pending bits and records is the model's (log entry
45), and so is the unbinding (63). -/
def DrainsAndFunctionResets : Prop :=
  ∀ s : State,
    (let p := s.arg.p
     let P := s.part p
     ((s.arg.nats.any fun c => (s.chan c).train) = true → ∃ t, exec .writeBehindDrainDone s = .next t ∧ t.parts = s.parts ∧
      ∃ d ∈ t.agenda, d.ev = .writeBehindDrainDone ∧ d.arg = s.arg ∧ s.cycle < d.at_) ∧
     (P.stops = [] → (s.arg.nats.any fun c => (s.chan c).train) = false →
      (s.arg.m = 1 → exec .writeBehindDrainDone s = .next s) ∧
      (s.arg.m ≠ 1 → s.arg.n = 0 → exec .writeBehindDrainDone s = .next (s.modPart p fun P => { P with drains := P.drains.erase s.arg.op })) ∧
      (s.arg.m ≠ 1 → s.arg.n ≠ 0 → exec .writeBehindDrainDone s = .next { s with
        agenda := s.agenda ++ [⟨s.cycle, .launchComplete, { p := p, n := s.arg.n - 1, op := s.arg.op }⟩] })) ∧
     (P.stops ≠ [] → P.atRest = true → P.drains ≠ [] → (s.arg.nats.any fun c => (s.chan c).train) = false → s.arg.m = 1 →
      exec .writeBehindDrainDone s = .next s)) ∧
    (let fn := s.arg.fn
     s.boot.recov = false → fn ≠ 0 → fn < s.fns.length → (∀ b, s.bound? fn = some b → (s.part b.part).busyWith fn = false) → ∃ t, exec .vfFunctionLevelReset s = .next t ∧
      (t.fn fn).cpage = 0 ∧ (t.fn fn).nerr = false ∧ (t.fn fn).evtBase = 0 ∧ (∀ q, ((t.fn fn).queue q).known = false) ∧ (t.fn fn).bind = (s.fn fn).bind ∧
      (∀ b, s.bound? fn = some b → ∀ i, b.first ≤ i → i < b.first + b.count → i < (s.part b.part).recs.length →
        ((t.part b.part).rcd i).st = .idle) ∧
      ∀ b ∈ t.pendBits, b.fn ≠ fn) ∧
    ∃ t, exec .pfFunctionLevelReset s = .next t ∧ (∀ p, (t.part p).valid = false) ∧ ∀ fn, fn ≠ 0 → (t.fn fn).bind = none

/-- LINE_ARRIVAL (R90): the line joins the buffer of the agent that fetched it, and the threads that wait for it are ready. -/
def LinesArrive : Prop :=
  ∀ s : State, (∀ c ∈ s.chans.toList, c.train = false) → let la := s.arg.addr
    let wake (u v : Thread) : Prop := v = if u.wait = .line la then { u with wait := .ready } else u
    (∀ p k, s.arg.agent = .tile p k → la ∈ (s.tile p k).fetching → p < s.parts.length → k < (s.part p).tiles.length →
      ∃ t, exec .lineArrival s = .next t ∧ t.lineAt (.tile p k) la = some (s.codeBytes (.tile p k) la) ∧ la ∉ (t.tile p k).fetching ∧
        ∀ i, i < (s.tile p k).threads.length → wake ((s.tile p k).thread i) ((t.tile p k).thread i)) ∧
    (∀ d, d < 4 → s.arg.agent = .ctrl d → la ∈ (s.ctrl d).fetching → ∃ t, exec .lineArrival s = .next t ∧
      t.lineAt (.ctrl d) la = some (s.codeBytes (.ctrl d) la) ∧ wake (s.ctrl d).th (t.ctrl d).th) ∧
    (∀ p k, s.arg.agent = .tile p k → la ∉ (s.tile p k).fetching → exec .lineArrival s = .next s)

end Sys2Proof.Claims

/-- Votes, decisions, fixes and washes (R78, R79, R80, R81, R82, R83, R89, R102). -/
def Obligations.SuperstepsAreDecidedFixedAndWashed : Prop :=
  VotesAndDecisions ∧ FixCommits ∧ WashRestores

/-- Dispatch, saving, the end of a launch and function resets (R54, R67, R72, R75, R77, R84, R86, R87). RESUME_MISMATCH's detail, vote and run state
are the model's (log entry 49), and so is what the resets leave of commands, records and bindings (45, 63). -/
def Obligations.LaunchesStartAndEnd : Prop :=
  DispatchStartsTasks ∧ SavingEnds ∧ LaunchesEnd ∧ DrainsAndFunctionResets

/-- What happens around supersteps: tables, lines, outside writes, the watchdog and bounds (R56, R86, R88, R90, R108, R110,
R119, R151). -/
def Obligations.AroundSuperstepsAndBounds : Prop :=
  AroundSupersteps ∧ WatchdogAndBounds ∧ LinesArrive

/-! ### Engines, the exchange and collectives (spec/05 R106, R112 to R115; spec/07 R145; spec/08 R148 to R171; spec/15) -/

namespace Sys2Proof.Claims

/-- The operation stands with this identity, on a tile that exists, and is not complete. -/
def OpLive (s : State) (o : EngOp) (p k : Nat) : Prop :=
  s.op? s.arg.op = some o ∧ o.agent = .tile p k ∧ p < s.parts.length ∧ k < (s.part p).tiles.length ∧ o.st ≠ .done

/-- The operation is complete: its token no longer counts it (R305). -/
def OpDone (t : State) (id : Nat) : Prop := ∃ x, t.op? id = some x ∧ x.st = .done

/-- COPY_COMPLETE and ENGINE_SLOT_DELIVERED (R302, R303, R106; the cycle of a copy's accesses is log entry 4, DESIGN CHOICE): a linear copy between two buffers of one format leaves the source's
bytes in the destination, and is complete; a copy into a ring fills its next slot with the source's next bytes and moves the producer's pointer on by
one; with no free slot it waits. A source in `c:` is read with the row writes that happen before the operation, landed or not (R124, R351; DEDUCED,
log entry 66). -/
def CopiesMove : Prop :=
  ∀ (s : State) (o : EngOp) (p k : Nat) (cq : Fin 8), OpLive s o p k →
    (∀ (b b2 : Buf) (a a2 : Word) (f : Byte) (n : Nat), o.kind = .copy cq none 0 (.buf b a f) (.buf b2 a2 f) n → b ≠ b2 → o.st = .running →
      n % 4 = 0 → 0 < n → a.toNat + n ≤ Config.bufSize b → a2.toNat + n ≤ Config.bufSize b2 → ∃ t, exec .copyComplete s = .next t ∧ OpDone t o.id ∧
        (t.tile p k).readBuf b a.toNat n = ((s.tile p k).seenAfter o.hb).readBuf b2 a2.toNat n ∧
        (∀ x, (x < a.toNat ∨ a.toNat + n ≤ x) → (t.tile p k).readBuf b x 1 = (s.tile p k).readBuf b x 1) ∧
        (∀ b3 x, b3 ≠ b → (t.tile p k).readBuf b3 x 1 = (s.tile p k).readBuf b3 x 1) ∧ s.SameMain t) ∧
    (∀ (h : Hnd) (f : Byte) (src : EndR) (n : Nat), o.kind = .copy cq none 0 (.ring h f) src n → o.st = .moved ∨ o.st = .running →
      (∃ b a, src = .buf b a f) ∨ (∃ va, src = .glob va) → s.copyHeld o = false →
      let r := (s.tile p k).ring h
      let z := 2 ^ (r.slot.toNat + 6)
      let place := slotPlace r ((if o.st = .running then r.prod else o.prog0) + BitVec.ofNat 32 o.prog)
      let sound : Prop := ∀ va, src = .glob va → s.gPoison o.agent (va.toNat + o.prog * z) z = none
      r.unused = false →
      (r.free ≠ 0 → (o.st = .running → s.claimed o h true = false) → (o.prog + 1) * z ≤ n → n % 4 = 0 → sound → ∃ t, exec .engineSlotDelivered s = .next t ∧
        ((t.tile p k).ring h).prod = r.prod + 1 ∧ ((t.tile p k).ring h).cons = r.cons ∧
        (place + z ≤ Config.bufSize r.buf → ∀ b a, src = .buf b a f → b ≠ r.buf → a.toNat + (o.prog + 1) * z ≤ Config.bufSize b →
          (t.tile p k).readBuf r.buf place z = ((s.tile p k).seenAfter o.made).readBuf b (a.toNat + o.prog * z) z) ∧
        (place + z ≤ Config.bufSize r.buf → ∀ va, src = .glob va → (t.tile p k).readBuf r.buf place z = s.gRead o.agent (va.toNat + o.prog * z) z)) ∧
      (r.free = 0 → ∃ t, exec .engineSlotDelivered s = .next t ∧ t.parts = s.parts ∧ t.ops = s.ops ∧
        ∃ d ∈ t.agenda, d.ev = .engineSlotDelivered ∧ d.arg.op = o.id ∧ s.cycle < d.at_))

/-- WBK_COMPLETE and SIGNAL_COMPLETE (R263, R315, R51, R344): write-behind takes the source's bytes and writes no memory yet; it waits for an entry of
its queue, and while its bytes reach a channel in training; a signal changes its word alone, by its function. That both read their sources in the cycle
in which they complete is the model's choice (log entry 4). -/
def WriteBehindAndSignals : Prop :=
  ∀ (s : State) (o : EngOp) (p k : Nat), OpLive s o p k →
    (∀ (va : Word) (b : Buf) (off g : Nat) (e : Extent), o.kind = .wbk va b off g → s.hasEntry o = true → s.endHeld o.agent (.glob va) 0 (64 * g) = false →
      (s.tile p k).extent va.toNat = some e → e.kind = .v → 0 < g → va.toNat % 65536 + 64 * g ≤ 65536 → ∃ (t : State) (w : WRec), exec .wbkComplete s = .next t ∧ OpDone t o.id ∧
        (t.part p).wb = (s.part p).wb ++ [w] ∧ w.loc = e.locOf va.toNat ∧ w.data = ((s.tile p k).seenAfter o.hb).readBuf b off (64 * g) ∧ w.id = o.id ∧ w.hb = o.hb ∧
        s.SameBytes t) ∧
    (∀ (va : Word) (b : Buf) (off g : Nat), o.kind = .wbk va b off g → s.hasEntry o = false ∨ s.endHeld o.agent (.glob va) 0 (64 * g) = true →
      ∃ t, exec .wbkComplete s = .next t ∧ t.ops = s.ops ∧ t.parts = s.parts ∧ s.SameBytes t ∧
        ∃ d ∈ t.agenda, d.ev = .wbkComplete ∧ d.arg.op = s.arg.op ∧ s.cycle < d.at_) ∧
    ∀ (va : Word) (f : SigOp) (v : Word) (e : Extent), o.kind = .signal va f v → (s.tile p k).extent va.toNat = some e → s.memWf →
      let l := e.locOf va.toNat
      s.rangeHeld l 8 = false → s.boot.recov = false → s.poisonAt l 8 = none → ∃ t, exec .signalComplete s = .next t ∧ OpDone t o.id ∧
        (let old : Word := BitVec.ofNat 64 (s.physNat l 8)
         BitVec.ofNat 64 (t.physNat l 8) = match f with
          | .set => v
          | .add => old + v
          | .maxu => if old.toNat ≤ v.toNat then v else old) ∧
        (∀ x : Loc, (x.host ≠ l.host ∨ x.addr < l.addr ∨ l.addr + 8 ≤ x.addr) → t.physRead x 1 = s.physRead x 1) ∧ s.SameBufs t

/-- The exchange barrier and its release (R148, R149, R41, R159): a tile whose unfinished tasks have all come raises its barrier; the last one
sets the start time, the lead after the last arrival where no port is in a width change, for the tiles and for every package below; in a package below
another it sends one message up, and the time is not set yet; at the release the tile's transfers may begin, and one that comes at the start time or
later raises LATE, with the lead in force, on the tile's lowest thread that executed `xsync`. That the release comes `Config.releaseCycles` after the
last arrival in a partition of every size is the model's reading of one worked table (log entry 18). -/
def ExchangeBarriers : Prop :=
  ∀ s : State, let p := s.arg.p
    let k := s.arg.t
    let P := s.part p
    p < s.parts.length → k < P.tiles.length →
    ((P.tile k).atBarrier = true → (P.tile k).barrier = false → ∃ t, exec .exchangeBarrier s = .next t ∧ ((t.part p).tile k).barrier = true ∧
      ((∃ j ∈ P.spanTiles, j ≠ k ∧ (P.tile j).barrier = false) → (t.part p).exchS = P.exchS) ∧
      ((∀ j ∈ P.spanTiles, j ≠ k → (P.tile j).barrier = true) → P.exchS = none → s.exchangeNeeded p = true →
        (∀ j ∈ s.downPorts p, j ∈ P.xbar.kids) →
        (s.upPort p = none → ∃ S, (t.part p).exchS = some S ∧ s.ptime.toNat + P.lead ≤ S ∧ P.xbar.latest + P.lead ≤ S ∧
          ((∀ x ∈ s.ports.toList, x.pausedUntil ≤ s.cycle) → S = max P.xbar.latest s.ptime.toNat + P.lead) ∧
          (t.part p).exchSkew = (s.timing.skew || P.xbar.skewf) ∧
          (∀ j, j < 40 → (s.downPorts p).count j = 1 → ∃ x, (t.port j).queue = enqueueFlit (s.port j).queue ⟨0, p, x, false⟩) ∧
          ∀ j ∈ P.spanTiles, ⟨s.cycle + Config.releaseCycles, .exchangeRelease, { p := p, t := j }⟩ ∈ t.agenda) ∧
        ∀ j, s.upPort p = some j → j < 40 → P.xbar.sent = false → (t.part p).exchS = none ∧ (t.part p).xbar.sent = true ∧
          ∃ x, (t.port j).queue = enqueueFlit (s.port j).queue ⟨0, p, x, false⟩)) ∧
    (∀ S, P.exchS = some S → (P.tile k).released = false → P.exchSkew = false → P.decision = none → P.inSpan k = true → s.ptime.toNat < S →
      ∃ t, exec .exchangeRelease s = .next t ∧ ((t.part p).tile k).released = true ∧ ((t.part p).tile k).faults = (P.tile k).faults) ∧
    (∀ (S i : Nat), P.exchS = some S → P.byTag = false → (P.tile k).released = false → P.exchSkew = false → P.decision = none → P.inSpan k = true →
      S ≤ s.ptime.toNat → i < (P.tile k).threads.length → i < 8 → ((P.tile k).thread i).xsynced = true →
      (∀ j, j < i → ((P.tile k).thread j).xsynced = false) → ((P.tile k).thread i).mode = .task → ∃ t, exec .exchangeRelease s = .next t ∧
        ((t.part p).tile k).released = true ∧ ((t.part p).tile k).faults = (P.tile k).faults ++ [⟨i, 1, .late, BitVec.ofNat 64 P.lead⟩] ∧
        (((t.part p).tile k).thread i).tcause = BitVec.ofNat 8 Cause.late.code ∧ (((t.part p).tile k).thread i).tdet = BitVec.ofNat 64 P.lead) ∧
    (P.exchS = none ∨ (P.tile k).released = true ∨ P.decision.isSome = true → exec .exchangeRelease s = .next s)

/-- Transfers (R152, R154, R155, R158): an `xmit` sends 256 bytes of its source at its slot, on the mesh to their tile, or to the port by which they leave
the package at the end of the slot; of two that need one link in one slot both are lost; the datum lands on its port, where an `xsel` waits for it; the
`xsel` takes its bytes into `a:`, or raises SLIP on its thread where there is none. -/
def TransfersMoveData : Prop :=
  ∀ (s : State) (o : EngOp) (p k : Nat), OpLive s o p k → let P := s.part p
    P.byTag = false → ∀ S, P.exchS = some S →
    (∀ (slot port dst : Nat) (links : List (Nat × Nat)) (b : Buf) (off : Nat) (f : Byte) (rest : Word), o.kind = .xmit slot port dst links b off f rest →
      (s.ptime.toNat < S + 8 * slot → ∃ t, exec .xmitSlot s = .next t ∧ t.parts = s.parts ∧ t.ops = s.ops ∧
        ∃ d ∈ t.agenda, d.ev = .xmitSlot ∧ d.arg.op = o.id ∧ d.at_ = s.cycle + (S + 8 * slot - s.ptime.toNat)) ∧
      (S + 8 * slot ≤ s.ptime.toNat → ∃ t, exec .xmitSlot s = .next t ∧ OpDone t o.id ∧ s.SameBytes t ∧
        (∃ d ∈ t.agenda, d.ev = .datumLanded ∧ d.arg.p = p ∧ d.arg.op = s.arg.op ∧
          d.at_ = s.cycle + ((if 2048 ≤ dst then S + 8 * slot + 8 else S + 8 * (slot + P.flightSlots)) - s.ptime.toNat)) ∧
        ((∀ x ∈ P.flight, x.slot ≠ slot + P.flightSlots ∨ ∀ l ∈ x.links, l ∉ links) →
          (t.part p).flight = P.flight ++ [⟨s.arg.op, dst, slot + P.flightSlots, port, f, ((P.tile k).seenAfter o.hb).readBuf b off 256, links, false,
            joinHb P.exchHb o.made, rest⟩]) ∧
        ∀ x ∈ P.flight, x.slot = slot + P.flightSlots → (∃ l ∈ x.links, l ∈ links) →
          { x with lost := true } ∈ (t.part p).flight ∧ ∃ d ∈ (t.part p).flight, d.op = s.arg.op ∧ d.lost = true)) ∧
    (∀ slot port dst : Nat, o.kind = .xsel slot port dst → S + 8 * slot + 7 ≤ s.ptime.toNat →
      (P.tile k).landed.find? (fun d => decide (d.slot = slot) && decide (d.port = port) && !d.lost) = none → (P.tile k).voted = false → P.decision = none →
      exec .xselSlot s = .next (trapTile (s.opDone s.arg.op 0) p k o.th .slip (BitVec.ofNat 64 (slot % 4096 + 4096 * port)) o.unit 0)) ∧
    (∀ (slot port dst : Nat) (d : Datum), o.kind = .xsel slot port dst → S + 8 * slot + 7 ≤ s.ptime.toNat →
      (P.tile k).landed.find? (fun d => decide (d.slot = slot) && decide (d.port = port) && !d.lost) = some d →
      d.fmt = (P.tile k).fmtAt .a dst → bfpBits d.fmt = 0 → d.fmt ≠ 0x07 → d.bytes.length = 256 → dst + 256 ≤ Config.bufSize .a →
      ∃ t, exec .xselSlot s = .next t ∧ OpDone t o.id ∧ (t.tile p k).readBuf .a dst 256 = d.bytes ∧
        ∀ b x, (b ≠ .a ∨ x < dst ∨ dst + 256 ≤ x) → (t.tile p k).readBuf b x 1 = (s.tile p k).readBuf b x 1)

/-- Data that land (R154, R155, R158): one that an `xsel` waits for joins its tile's landed data; of two on one port in one slot neither does; a lost
one lands nowhere; and one for a port and slot that no `xsel` names raises SLIP on the tile's lowest thread that raised the barrier. One that leaves the
package goes into its port's queue, in flits of class 2, unless it is lost, and holds its links until the slot in which it would arrive has ended; what
their payloads hold is a free value (log entry 34). -/
def DataLand : Prop :=
  ∀ (s : State) (d : Datum), let p := s.arg.p
    let P := s.part p
    let same (x : Datum) : Prop := x.op ≠ s.arg.op ∧ x.tile = d.tile ∧ x.slot = d.slot ∧ x.port = d.port
    let gone (Q : Partition) : Partition := { Q with flight := Q.flight.filter fun x => x.op ≠ s.arg.op }
    P.byTag = false → p < s.parts.length → P.flight.find? (fun x => x.op = s.arg.op) = some d →
    (P.exchS = none → d.tile < 2048 → exec .datumLanded s = .next (s.scheduleFree .transfer .datumLanded s.arg)) ∧
    (∀ S, P.exchS = some S → d.tile < 2048 → d.tile < P.tiles.length →
      ((s.xselFor p d.tile d.slot d.port).isSome = true →
        (d.lost = false → (∀ x ∈ P.flight, ¬ same x) → ∃ t, exec .datumLanded s = .next t ∧
          ((t.part p).tile d.tile).landed = (P.tile d.tile).landed ++ [d] ∧ ∀ x ∈ (t.part p).flight, x.op ≠ s.arg.op) ∧
        (d.lost = true → ∃ t, exec .datumLanded s = .next t ∧ (t.part p).tiles = P.tiles ∧ ∀ x ∈ (t.part p).flight, x.op ≠ s.arg.op)) ∧
      (d.lost = false → (∃ x ∈ P.flight, same x ∧ x.lost = false) → ∃ t, exec .datumLanded s = .next t ∧ (t.part p).tiles = P.tiles ∧
        ∀ x ∈ P.flight, same x → { x with lost := true } ∈ (t.part p).flight) ∧
      (∀ i, s.xselFor p d.tile d.slot d.port = none → (d.lost = true ∨ ∀ x ∈ P.flight, ¬ same x) → (P.tile d.tile).voted = false → P.decision = none →
        (P.tile d.tile).raisers.head? = some i → exec .datumLanded s = .next (trapTile (s.modPart p gone) p d.tile i .slip
          (BitVec.ofNat 64 (d.slot % 4096 + 4096 * d.port)) ((P.tile d.tile).thread i).unit 0))) ∧
    (∀ S, P.exchS = some S → 2048 ≤ d.tile → d.tile < 2088 → ∃ t, exec .datumLanded s = .next t ∧ (t.part p).tiles = P.tiles ∧
      (t.part p).flight = P.flight.map (fun x => if x.op = s.arg.op then { x with tile := d.tile + 2048 } else x) ∧
      t.agenda = s.agenda ++ [⟨s.cycle + (S + 8 * d.slot - s.ptime.toNat), .datumLanded, { p := p, t := d.tile + 2048, op := s.arg.op }⟩] ∧
      (d.lost = true → t.ports = s.ports) ∧
      (d.lost = false → ∀ w, w ∈ (t.port (d.tile - 2048)).queue ↔ w ∈ (s.port (d.tile - 2048)).queue ∨
        ∃ b ∈ Config.slotPayload d.rest.toNat d.slot d.fmt d.bytes, w = ⟨2, p, b.take 240, false⟩)) ∧
    (4096 ≤ d.tile → exec .datumLanded s = .next (s.modPart p gone))

/-- Reductions (R165 to R168): a quiet tile streams what it has contributed; the results of a RED region are held for the fix, each
element the operator's combination of the contributors' values in rank order from its identity. A spilled contribution whose staging slot cannot be
corrected is a tile event of its contributor, which votes a wash (R189). -/
def ReductionsHoldResults : Prop :=
  ∀ s : State, let p := s.arg.p
    let P := s.part p
    p < s.parts.length →
    (s.arg.t < P.tiles.length → s.mayStream p s.arg.t = true → ∃ t, exec .reductionStream s = .next t ∧
      ((t.part p).tile s.arg.t).streamed = (P.tile s.arg.t).bases ∧ ((t.part p).tile s.arg.t).contribs = (P.tile s.arg.t).contribs) ∧
    (∀ (r : Region) (l : Loc), P.reducing.contains s.arg.op = true → regionOf s P.transNow P.tiles.length s.arg.op = some r → r.ok = true → r.cav = false →
      (∀ k ∈ P.contributors r, s.stagingPoison p k r = none) →
      translate P.transNow (r.base + 64) = some l → 0 < r.ne * r.esize → (r.base + 64) % 65536 + r.ne * r.esize ≤ 65536 →
      ∃ (t : State) (h : Held), exec .reductionDone s = .next t ∧ s.arg.op ∈ (t.part p).reduced ∧ (t.part p).held = P.held ++ [h] ∧ h.loc = l ∧
        h.data = ((List.range r.ne).flatMap fun j => leBytes r.esize ((P.contributors r).foldl
          (fun acc k => (redOp r.op r.isInt acc ((P.tile k).contribution r j)).bits) (redIdentity r.op r.isInt))) ∧ s.SameBytes t) ∧
    ∀ (r : Region) (pre post : List Nat) (k : Nat) (l : Loc), P.reducing.contains s.arg.op = true → regionOf s P.transNow P.tiles.length s.arg.op = some r →
      r.ok = true → P.decision = none → P.contributors r = pre ++ k :: post → (∀ j ∈ pre, s.stagingPoison p j r = none) → s.stagingPoison p k r = some l →
      ∃ t, exec .reductionDone s = .next t ∧ ⟨8, 1, .eccUncorr, eccWord 0 l⟩ ∈ ((t.part p).tile k).faults

/-- What the enlarger writes for one index tuple (R171): the tile, the address in its `a:`, and the element's bytes in the format of the bank that
holds the slab's first byte. -/
def enlPut (s : State) (p k : Nat) (hb : List Nat) (b : Buf) (sb base : Nat) (dims : List Dim) (sp : Nat) (dests : List Nat) (sf : Byte) (i : List Nat) :
    Nat × Nat × List Byte :=
  let x := enlPlace dims sp ((dims.map (·.extent)).getD sp 1 / dests.length) i
  let u := dests.getD x.1 0
  let f := (s.tile p u).fmtAt .a base
  let e := ((s.tile p k).seenAfter hb).readBuf b ((sb : Int) + x.2.2 * elemSize sf).toNat (elemSize sf)
  (u, base + x.2.1 * elemSize f, leBytes (elemSize f) (convElem .rne sf f (leNat e)).bits)

/-- The enlarger (R171): its slabs are placed, each element converted to its destination's format, every other byte stays, and its token falls when
it is complete. -/
def EnlargerPlaces : Prop :=
  ∀ (s : State) (o : EngOp) (p k : Nat), OpLive s o p k →
    ∀ (b : Buf) (sb db step : Nat) (dims : List Dim) (sp : Nat) (dests : List Nat) (r : Nat) (sf : Byte), o.kind = .enl b sb db step dims sp dests r sf →
      let put := enlPut s p k o.hb b sb (db + r * step) dims sp dests sf
      let is := tuplesIdx (dims.map (·.extent))
      (o.st = .queued → ∃ t, exec .enlTransfer s = .next t ∧ s.SameMain t ∧ (∃ x, t.op? o.id = some x ∧ x.st = .moved) ∧
        (∃ d ∈ t.agenda, d.ev = .enlComplete ∧ d.arg.op = o.id ∧ s.cycle < d.at_) ∧
        (∀ pre i post, is = pre ++ i :: post → (put i).1 < (s.part p).tiles.length → (put i).2.1 + (put i).2.2.length ≤ Config.bufSize .a →
          (∀ j ∈ post, (put j).1 ≠ (put i).1 ∨ (put j).2.1 + (put j).2.2.length ≤ (put i).2.1 ∨ (put i).2.1 + (put i).2.2.length ≤ (put j).2.1) →
          (t.tile p (put i).1).readBuf .a (put i).2.1 (put i).2.2.length = (put i).2.2) ∧
        ∀ u b2 x, (∀ j ∈ is, (put j).1 ≠ u ∨ b2 ≠ .a ∨ x < (put j).2.1 ∨ (put j).2.1 + (put j).2.2.length ≤ x) →
          (t.tile p u).readBuf b2 x 1 = (s.tile p u).readBuf b2 x 1) ∧
      (o.st = .moved → ∃ t, exec .enlComplete s = .next t ∧ OpDone t o.id ∧ s.SameBytes t)

/-- The matrix unit and the quantisation engine (R112, R289, R294, R297, R298): the arbiter's choice streams, with all its operands fetched at the
choice (log entry 4, DESIGN CHOICE), and with the row writes that happen before the command, landed or not (R124, R351; log entry 66); a command that is complete has
written its bank of `c:` alone, with zeros for `mzero`; a quantisation has written `w:` alone. -/
def MatrixCommandsComplete : Prop :=
  ∀ (s : State),
    (∀ (o : EngOp) (v used : Nat), let p := s.arg.p
      p < s.parts.length → s.arg.n < (s.part p).arb.length → s.op? o.id = some o → s.arbiter p s.arg.n = some (o, v, used) → ∃ t, exec .matrixCommandChosen s = .next t ∧
        (t.part p).arb.getD s.arg.n (0, 0) = (v, used) ∧ (∃ x, t.op? o.id = some x ∧ x.stamp = s.cycle ∧ (x.st = .running ∨ x.st = .moved) ∧
          (x.fetchA, x.fetchW, x.fetchC) = ((s.tile p (8 * s.arg.n + v)).seenAfter o.hb).fetchOps o.kind) ∧ s.SameBytes t) ∧
    ∀ (o : EngOp) (p k : Nat), OpLive s o p k →
      (∀ bank, o.kind = .mzero bank → bank < 8 → o.st = .moved → ∃ t, exec .matrixCommandComplete s = .next t ∧ OpDone t o.id ∧
        (t.tile p k).readBuf .c (16384 * bank) 16384 = List.replicate 16384 0 ∧
        ∀ b x, (b ≠ .c ∨ x < 16384 * bank ∨ 16384 * bank + 16384 ≤ x) → (t.tile p k).readBuf b x 1 = (s.tile p k).readBuf b x 1) ∧
      (∀ bank bs fl, o.matrixRun = (bank, bs, fl) → bs.length = 16384 → bank < 8 → o.isMatrix = true → o.st = .moved →
        ∃ t, exec .matrixCommandComplete s = .next t ∧ OpDone t o.id ∧ (t.tile p k).readBuf .c (16384 * bank) 16384 = bs ∧ s.SameMain t ∧
          ∀ b x, (b ≠ .c ∨ x < 16384 * bank ∨ 16384 * bank + 16384 ≤ x) → (t.tile p k).readBuf b x 1 = (s.tile p k).readBuf b x 1) ∧
      (∀ (col : Bool) (src : Buf) (off pitch : Nat) (sf : Byte) (emax n woff : Nat) (wf : Byte), o.kind = .quant col src off pitch sf emax n woff wf → o.st = .running →
        let q := ((s.tile p k).seenAfter o.hb).quantRun col src off pitch sf emax n woff wf
        ∃ t, exec .quantComplete s = .next t ∧ OpDone t o.id ∧ s.SameMain t ∧
          (∀ pre x post, q.1 = pre ++ x :: post → x.1 + x.2.length ≤ Config.bufSize .w →
            (∀ y ∈ post, y.1 + y.2.length ≤ x.1 ∨ x.1 + x.2.length ≤ y.1) → (t.tile p k).readBuf .w x.1 x.2.length = x.2) ∧
          ∀ b a, (b ≠ .w ∨ ∀ x ∈ q.1, a < x.1 ∨ x.1 + x.2.length ≤ a) → (t.tile p k).readBuf b a 1 = (s.tile p k).readBuf b a 1)

/-- Where the rows of engine operations complete, for every operand form (R263, R294, R298, R302, R303, R171, R51): a copy between memories, and one in
slots after its last; the next slot of a copy into a ring, out of one, or into a sparsity queue, whose other end is a buffer, a ring or `g:`; write-behind that has an entry of its queue;
a signal whose channel is in service; the enlarger's two rows; a matrix command's choice and end; and a quantisation. -/
def EngineRowsComplete : Prop :=
  ∀ (s : State) (o : EngOp) (p k : Nat), OpLive s o p k →
    (∀ cq dims es dst src n, o.kind = .copy cq dims es dst src n → o.st = .running ∨ o.st = .moved →
      (o.slotted = true ∨ s.copyHeld o = false → ∃ t, exec .copyComplete s = .next t ∧ OpDone t o.id) ∧
      let goes (t : State) : Prop := ∃ x, t.op? o.id = some x ∧ x.prog = o.prog + 1
      let memory (e : EndR) : Prop := (∃ b a g, e = .buf b a g) ∨ ∃ va, e = .glob va
      s.copyHeld o = false →
      (∀ h f, dst = .ring h f → ((s.tile p k).ring h).unused = false → ((s.tile p k).ring h).free ≠ 0 → (o.st = .running → s.claimed o h true = false) →
        memory src → ∃ t, exec .engineSlotDelivered s = .next t ∧ goes t) ∧
      (∀ h f, src = .ring h f → ((s.tile p k).ring h).unused = false → ((s.tile p k).ring h).filled ≠ 0 → (o.st = .running → s.claimed o h false = false) →
        memory dst ∨ (∃ q : Fin 4, dst = .queue q ∧ ((s.tile p k).queues[q]).length < 32) → ∃ t, exec .engineSlotDelivered s = .next t ∧ goes t) ∧
      ∀ q : Fin 4, dst = .queue q → ((s.tile p k).queues[q]).length < 32 → memory src → ∃ t, exec .engineSlotDelivered s = .next t ∧ goes t) ∧
    (∀ va b off g, o.kind = .wbk va b off g → s.hasEntry o = true → s.endHeld o.agent (.glob va) 0 (64 * g) = false → ∃ t, exec .wbkComplete s = .next t ∧ OpDone t o.id) ∧
    (∀ va f v e, o.kind = .signal va f v → (s.tile p k).extent va.toNat = some e → s.rangeHeld (e.locOf va.toNat) 8 = false →
      ∃ t, exec .signalComplete s = .next t ∧ OpDone t o.id) ∧
    (∀ b sb db step dims sp dests r sf, o.kind = .enl b sb db step dims sp dests r sf →
      (o.st = .queued → ∃ t, exec .enlTransfer s = .next t ∧ ∃ x, t.op? o.id = some x ∧ x.st = .moved) ∧
      (o.st = .moved → ∃ t, exec .enlComplete s = .next t ∧ OpDone t o.id)) ∧
    (o.isMatrix = true → o.st = .moved → ∃ t, exec .matrixCommandComplete s = .next t ∧ OpDone t o.id) ∧
    (∀ n v left, s.arg.p = p → s.arg.n = n → n < (s.part p).arb.length → s.arbiter p n = some (o, v, left) →
      ∃ t, exec .matrixCommandChosen s = .next t ∧ ∃ x, t.op? o.id = some x ∧ (x.st = .running ∨ x.st = .moved)) ∧
    ∀ col src off pitch sf emax n woff wf, o.kind = .quant col src off pitch sf emax n woff wf → o.st = .running →
      ∃ t, exec .quantComplete s = .next t ∧ OpDone t o.id

/-- Where a fence completes, of every order and scope (R252): at once where the thread has no write to land; else it waits, and
`WaitedResultsAreWritten` says what the end of that wait is. -/
def FencesComplete : Prop :=
  ∀ (s : State) (o : Order) (sc : Scope), s.Here = true → s.endsLegally = true →
    (s.here.pend = [] → ∃ t, exec (.fence o sc) s = .next t ∧ s.Ended t none ∧ s.SameBytes t ∧ s.SameRegs t) ∧
    (s.here.pend ≠ [] → s.returnRefused = none → ∃ t, exec (.fence o sc) s = .next t ∧ t.here.wait = .result none 0 ∧ s.SameBytes t ∧ s.SameRegs t)

end Sys2Proof.Claims

/-- Engine operations complete (R51, R106, R112, R171, R263, R289, R294, R298, R302, R303, R315). That a chosen matrix command has all its operands at
the choice, and that copies, quantisations, the enlarger, write-behind and signals read and write in the one cycle in which they complete, is the
model's choice (log entry 4). -/
def Obligations.EnginesComplete : Prop :=
  CopiesMove ∧ WriteBehindAndSignals ∧ EnlargerPlaces ∧ MatrixCommandsComplete

/-- Every form of fence and of the rows of engine operations completes under conditions on the state alone (R51, R171, R252, R263, R294, R298,
R302, R303). -/
def Obligations.FencesAndEngineRowsComplete : Prop :=
  EngineRowsComplete ∧ FencesComplete

/-- The exchange and reductions (R148, R149, R152, R154, R155, R158, R159, R165, R167, R168). That the release comes 52 cycles after the last arrival,
in a partition of every size, is the model's reading (log entry 18); what a datum's flits hold is free (34). -/
def Obligations.ExchangeAndReductions : Prop :=
  ExchangeBarriers ∧ TransfersMoveData ∧ DataLand ∧ ReductionsHoldResults

/-! ### Steps, decoding and invariants -/

namespace Sys2Proof.Claims

/-- A state in which the next thing to happen is a visit of thread i of an agent: the package is powered, the boot ROM has run,
and no event is due. -/
def Visits (s : State) (a : Agent) (i : Nat) : Prop :=
  s.powered = true ∧ s.boot.done = true ∧ s.dueEvent = none ∧ s.autoEvent = none ∧ s.nextAgent = some (a, i)

/-- The thread is ready, and its line is in its agent's buffer and decodes to a list of heads, in which a unit starts at its program counter. -/
def FetchesAt (s : State) (a : Agent) (i : Nat) (hs : List HT) : Prop :=
  (s.thread a i).wait = .ready ∧ ∃ bs, s.lineAt a (lineOfAddr (s.thread a i).pc) = some bs ∧ decodeLine bs = some hs ∧ (s.thread a i).pc.getLsbD 0 = false ∧
    (unitStarts true hs)[headIdx (s.thread a i).pc]? = some true

/-- The address after a unit of n heads that starts at an address of its line: the next head, or the next line after the last. -/
def unitAfter (pc : Addr) (hs : List HT) (n : Nat) : Addr :=
  if headIdx pc + n < hs.length then pc + BitVec.ofNat 57 (2 * n) else lineOfAddr pc + 64

/-- The state in which a unit begins to execute: its thread is the current one and holds the unit, its agent has been visited in
this cycle, its tile counts the issue with the switch-away bit of the governed head, a controller keeps its thread as it stands (log entry 19), and
a dispatched launch whose first tile issues runs. -/
def begun (s : State) (a : Agent) (i : Nat) (hs : List HT) (u : Unit') : State :=
  let pc := (s.thread a i).pc
  let s1 := { s with cur := ⟨a, i⟩, visited := agentKey a + 1 }
  let s2 := s1.modHere fun t => { t with unit := ⟨pc, unitAfter pc hs u.size, u.hasPfx, u.pfx, u.head⟩ }
  (s2.modHereTile fun T => T.noteIssue i s.cycle (headSW u.head)).noteBack.noteBegan

/-- The rows of the opcode table that are steps of the package: they have no encoding. -/
def packageSteps : List Instr :=
  [.packageReset, .pcieHotReset, .mailboxGo, .mailboxChunkAppended, .mailboxLast, .mailboxImageVerified,
    .mailboxAbort, .registerWrite, .notify, .queueSlotAssign, .queueStarved, .nonpreemptibleLimitExpiry, .nop,
    .writeRecord, .patch, .arm, .post, .signalWait, .signalWaitPoll, .signal, .map, .unmap, .copyIn, .copyOut,
    .createPartition, .destroyPartition, .bindVf] ++
  [.unbindVf, .quiesceHold, .quiesceSheet, .sheetWriteDone, .quiesceRelease, .quiesceRestore, .attest,
    .coalesceWrite, .coalesceCountReached, .coalesceTimeExpiry, .msixUnmask, .monitorSelect, .monitorClear,
    .monitorPeriodicSample, .vfFunctionLevelReset, .pfFunctionLevelReset, .flitReceived, .replayRequest, .portRetrain,
    .widthNarrowPropose, .widthProposalAccept, .widthProposalLapse, .widthChangeDone, .timingBeatSend, .timingBeat,
    .slewStep, .powerMeasure] ++
  [.thermalThrottle, .thermalStop, .thermalResume, .leaseRenewal, .leaseTakeoverAttempt, .hbmScrub, .pageRetire,
    .qcntAdvance, .dispatch, .extentBuildDone, .lineArrival, .blockingWaitDone, .exchangeBarrier, .exchangeRelease,
    .xmitSlot, .datumLanded, .xselSlot, .reductionStream, .reductionDone, .enlTransfer, .enlComplete, .tileVote,
    .barrierCombine, .releaseArrival, .flip, .washLimitHalt, .leadReset] ++
  [.writeBehindDrainDone, .launchComplete, .watchdog, .preemptBoundExpiry, .quiesceBoundExpiry, .quantumExpiry,
    .tileSaved, .copyComplete, .matrixCommandChosen, .matrixCommandComplete, .quantComplete, .wbkComplete,
    .signalComplete, .hchTrainWrite, .trainEffective, .patternTestStart, .patternTestDone, .hchRdall, .hchWrall,
    .outsideWrite, .powerLoss, .lossOfAPackage, .spillCopyBackDone, .engineSlotDelivered, .resumeFromSaveArea]

end Sys2Proof.Claims

/-- A step runs the decoded instruction: in a visit of a thread whose line is present and whose program counter is at the start of
a unit that decodes, the step is exec of the instruction in the state in which the unit begins; with a false predicate the unit
ends without effect, but for the traps of a cell that the mode does not allow. A thread whose unit needs a table line that is absent is not ready, and
the visit fetches the line (R90, R281). A controller's unit that acts on more than its thread first waits for the line to which its loop returns (the
model's, log entry 19). -/
def Sys2Proof.Claims.StepRunsTheDecodedUnit : Prop :=
  ∀ (s : State) (a : Agent) (i : Nat) (hs : List HT) (u : Unit'), Visits s a i → FetchesAt s a i hs →
    decodeUnit (hs.drop (headIdx (s.thread a i).pc)) = .ok u → s.powerHolds a u.head = false →
    let t := begun s a i hs u
    (∀ la ∈ s.tableLines a (s.thread a i), s.lineAt a la = none → lineCheck s a la = none → s.threadReady a (s.thread a i) = false) ∧
    (∀ x, s.needsLine a (s.thread a i) = true → s.absentLine a (s.thread a i) = some x → step s = .next (s.bringLine a x)) ∧
    (s.absentLine a (s.thread a i) = none →
    (t.here.preg u.pred = true → t.returnAbsent u.instr = none → step s = exec u.instr t) ∧
    (∀ x, t.here.preg u.pred = true → t.returnAbsent u.instr = some x → step s = .next (t.waitLine a i x)) ∧
    (t.here.preg u.pred = false → modeFault u.instr t.here.mode = none → step s = .next (t.finish t)) ∧
    ∀ c, t.here.preg u.pred = false → modeFault u.instr t.here.mode = some c → step s = .next (t.raise c t.headWord))

/-- The order of a machine's steps (the model's, log entry 17): without power it stops; before the boot ROM has run its next stage does; then an
outside event that is due, a step of the package that is due, a step whose condition holds, the issue of an agent, an engine's slot that is due,
for engines follow the threads of a cycle (R254), and the end of the cycle, in which package time goes on by one (R2). -/
def Sys2Proof.Claims.StepsAreTakenInOrder : Prop :=
  ∀ s : State, let slot (d : Due) : Prop := d.ev = .engineSlotDelivered
    (s.powered = false → s.inputs = [] → step s = .fault .poweredOff) ∧
    (s.powered = true → s.boot.done = false → step s = exec .packageReset { s with arg := { q := 1 } }) ∧
    (s.powered = true → s.boot.done = true →
      (∀ pre d post, s.inputs = pre ++ d :: post → (∀ x ∈ pre, s.cycle < x.at_) → d.at_ ≤ s.cycle →
        step s = exec d.ev { s with inputs := pre ++ post, arg := d.arg }) ∧
      ((∀ x ∈ s.inputs, s.cycle < x.at_) →
        (∀ pre d post, s.agenda = pre ++ d :: post → (∀ x ∈ pre, s.cycle < x.at_ ∨ slot x) → d.at_ ≤ s.cycle → ¬ slot d →
          step s = exec d.ev { s with agenda := pre ++ post, arg := d.arg }) ∧
        ((∀ x ∈ s.agenda, s.cycle < x.at_ ∨ slot x) →
          (∀ ev arg, s.autoEvent = some (ev, arg) → step s = exec ev { s with arg := arg }) ∧
          (s.autoEvent = none → s.nextAgent = none →
            (∀ pre d post, s.agenda = pre ++ d :: post → (∀ x ∈ pre, s.cycle < x.at_) → d.at_ ≤ s.cycle →
              step s = exec d.ev { s with agenda := pre ++ post, arg := d.arg }) ∧
            ((∀ x ∈ s.agenda, s.cycle < x.at_) →
              ∃ t, step s = .next t ∧ t.cycle = s.cycle + 1 ∧ t.ptime = s.ptime + 1 ∧ t.visited = 0 ∧ s.SameMain t)))))

namespace Sys2Proof.Claims

/-- The line of the worked example of spec/11, byte by byte. -/
def exampleLine : List Byte :=
  [0x00, 0x43, 0x05, 0x83, 0x02, 0x01, 0x00, 0xC2, 0x00, 0x83, 0x02, 0x47, 0x03, 0x01, 0x08, 0x8C] ++ List.replicate 24 0 ++
  [0x00, 0x00, 0x00, 0x00, 0x03, 0x25, 0xE8, 0x00, 0x00, 0x00, 0x9A, 0x78, 0x56, 0x34, 0x12, 0x00, 0x00, 0x00] ++
  [0xA7, 0x0C, 0x00, 0x00, 0xA5, 0x18]

/-- The unit at a head of a line. -/
def unitOf (bs : List Byte) (k : Nat) : Option (Preg × Instr) :=
  match decodeLine bs with
  | none => none
  | some hs => match decodeUnit (hs.drop k) with
    | .ok u => some (u.pred, u.instr)
    | .error _ => none

end Sys2Proof.Claims

/-- The worked example of spec/11: its line decodes to the five units that the example lists, and without the END of head 7 it is
no legal line. -/
def Obligations.ExampleLineDecodes : Prop :=
  unitOf exampleLine 0 = some (0, .addReg 5 5 6) ∧ unitOf exampleLine 1 = some (0, .shlImm 7 5 3) ∧
  unitOf exampleLine 2 = some (2, .addImm 8 7 0x123456789A) ∧ unitOf exampleLine 5 = some (0, .cmpLtReg 3 8 9) ∧
  unitOf exampleLine 6 = some (3, .br ⟨0, 0⟩) ∧ decodeLine (exampleLine.set 14 0x00) = none

namespace Sys2Proof.Claims

/-- Head i of a line, and the bytes that the tails of the heads below i take (R209). -/
def lineHead (bs : List Byte) (i : Nat) : BitVec 16 := bs.getD (2 * i + 1) 0 ++ bs.getD (2 * i) 0
def tailsBelow (bs : List Byte) (i : Nat) : Nat := ((List.range i).map fun j => tailLen (lineHead bs j)).sum

end Sys2Proof.Claims

/-- R209: the heads of a line end with the first one of its 32 that has END; a line without one, or whose heads and tails take more
than 64 bytes, is illegal; else each head comes with its tail, little-endian, in the bytes below the tails of the heads before it. -/
def Obligations.LinesAreDecoded : Prop :=
  ∀ bs : List Byte, bs.length = 64 →
    ((∀ i, i < 32 → headEnd (lineHead bs i) = false) → decodeLine bs = none) ∧
    ∀ n, n < 32 → (∀ i, i < n → headEnd (lineHead bs i) = false) → headEnd (lineHead bs n) = true →
      (64 < 2 * (n + 1) + tailsBelow bs (n + 1) → decodeLine bs = none) ∧
      (2 * (n + 1) + tailsBelow bs (n + 1) ≤ 64 → ∃ hs, decodeLine bs = some hs ∧ hs.length = n + 1 ∧
        ∀ j, j < n + 1 → ∃ x, hs[j]? = some x ∧ x.head = lineHead bs j ∧ ∀ k, x.tail.getLsbD k =
          (decide (k < 8 * tailLen (lineHead bs j)) && (bs.getD (64 - tailsBelow bs (j + 1) + k / 8) 0).getLsbD (k % 8)))

/-- R209, R213, R219 to R221: decoding an encoded instruction gives it back. Every well-formed instruction that is no step of the
package has an encoding, whose head is no prefix; whatever the gap, the switch-away bit and the END bit of the head are, the head
with its prefix and its tail decodes to the instruction, alone or under any predicate: a unit of one, two or three heads. -/
def Sys2Proof.Claims.DecodeOfEncode : Prop :=
  (∀ i : Instr, i.wf = true → i ∉ packageSteps → ∃ e, encode i = some e) ∧
  ∀ (i : Instr) (e : Enc) (h : BitVec 16), i.wf = true → encode i = some e → h &&& 0xFF07 = e.head &&& 0xFF07 →
    decodeGoverned h e.tail e.pfx = some i ∧ e.tail.toNat < 256 ^ tailLen h ∧
    (e.pfx = .none → ∀ rest, decodeUnit (⟨h, e.tail⟩ :: rest) = .ok ⟨0, false, 0, h, 1, i⟩) ∧
    (∀ (q : BitVec 16) rest, q &&& 0xFF00 = 0x0100 → headFN q ≠ 0 → e.pfx = .none →
      decodeUnit (⟨q, 0⟩ :: ⟨h, e.tail⟩ :: rest) = .ok ⟨⟨headFN q % 8, by omega⟩, true, q, h, 2, i⟩) ∧
    ∀ (w : BitVec 16) (x : BitVec 64) rest,
      (e.pfx = .wide x ∧ w &&& 0xFF07 = 0xC200) ∨ (e.pfx = .token x ∧ w &&& 0xFF07 = 0xC201) →
      decodeUnit (⟨w, x⟩ :: ⟨h, e.tail⟩ :: rest) = .ok ⟨0, true, w, h, 2, i⟩ ∧
      ∀ q : BitVec 16, q &&& 0xFF00 = 0x0100 → headFN q ≠ 0 →
        decodeUnit (⟨q, 0⟩ :: ⟨w, x⟩ :: ⟨h, e.tail⟩ :: rest) = .ok ⟨⟨headFN q % 8, by omega⟩, true, q, h, 3, i⟩

/-- R220, R221: what the decoder accepts is well-formed and no step of the package, so the encoder encodes it. -/
def Sys2Proof.Claims.DecodedInstructionsAreWellFormed : Prop :=
  ∀ (h : BitVec 16) (t : BitVec 64) (p : Pfx) (i : Instr), decodeGoverned h t p = some i →
    i.wf = true ∧ i ∉ packageSteps ∧ ∃ e, encode i = some e ∧ e.head &&& 0x3F07 = h &&& 0x3F07

/-- An invariant of the model: every memory is in canonical form, so that equal memories are equal data. -/
def Obligations.MemoriesStayCanonical : Prop := ∀ s t : State, s.memWf → step s = .next t → t.memWf

/-- An invariant of the model: the operations of the machine have identities below the next one that it gives, so that a command's
operation is told from all others. -/
def Obligations.OperationIdentitiesStayFresh : Prop := ∀ s t : State, freshIds s → step s = .next t → freshIds t

/-- What reset leaves: both invariants hold, and the values that the spec gives. Package time and the count of quiescent points are 0
(R265, R116), the boot ROM stands at stage 0x01 (R26), no partition is valid (R38), every %hchain is 0 (R181), every channel is to
be trained, with every delay at 8 (R345, R347), and the physical function's limits are those of R35. -/
def Obligations.ResetMeetsTheInvariants : Prop :=
  State.reset.memWf ∧ freshIds State.reset ∧ State.reset.ptime = 0 ∧ State.reset.qcnt = 0 ∧ State.reset.boot.stage = 0x01 ∧
  State.reset.boot.done = false ∧ (∀ k, (State.reset.part k).valid = false) ∧
  (∀ p : Fin 256, State.reset.hchain[p] = 0 ∧ State.reset.chans[p].train = true ∧
    ∀ k : Fin 66, State.reset.chans[p].rd[k] = 8 ∧ State.reset.chans[p].wr[k] = 8) ∧
  State.reset.pfStarve = 10000 ∧ State.reset.pfNpLimit = 50000

/-- A step runs the decoded unit, and the order of steps (R90, R91, R213, R215). -/
def Obligations.StepRunsTheUnit : Prop :=
  StepRunsTheDecodedUnit ∧ StepsAreTakenInOrder

/-- Decoding an encoded instruction gives it back, and what decodes is well-formed (R212, R213, R214, R219, R220, R221). -/
def Obligations.DecodeAndEncodeAgree : Prop :=
  DecodeOfEncode ∧ DecodedInstructionsAreWellFormed
end

