-- ==== Sys2Proof/Laws/Memory.lean ====
section
/-!
SUPPORT. The laws of a memory: every operation keeps the canonical form, and what a byte reads as after each.
-/

namespace Sys2Proof.Machine

/-- What the canonical form says. -/
theorem Memory.wf_iff (m : Memory) : m.wf = true ↔ m.Pairwise (fun x y => x.1 < y.1) ∧ ∀ x ∈ m, x.2 ≠ 0 := by
  simp [Memory.wf]

theorem Memory.wf_nil : Memory.wf [] = true := by decide

/-- A memory with cells left out keeps the form. -/
theorem Memory.wf_filter {m : Memory} (h : m.wf = true) (f : Host.Cell → Bool) : Memory.wf (m.filter f) = true := by
  rw [wf_iff] at h ⊢
  exact ⟨h.1.filter _, fun x hx => h.2 x (List.mem_filter.1 hx).1⟩

theorem Memory.wf_keep {m : Memory} (h : m.wf = true) (f : Nat → Bool) : (m.keep f).wf = true := Memory.wf_filter h _

/-- The cells of a run lie in it, and none is zero. -/
theorem mem_cellsOf {x : Host.Cell} : ∀ {bs : List Byte} {a : Nat}, x ∈ cellsOf a bs → a ≤ x.1 ∧ x.1 < a + bs.length ∧ x.2 ≠ 0
  | [], _, h => by simp [cellsOf] at h
  | b :: bs, a, h => by
    unfold cellsOf at h
    split at h
    · have := mem_cellsOf h; simp only [List.length_cons]; exact ⟨by omega, by omega, this.2.2⟩
    · rcases List.mem_cons.1 h with rfl | h
      · simp_all
      · have := mem_cellsOf h; simp only [List.length_cons]; exact ⟨by omega, by omega, this.2.2⟩

theorem cellsOf_pairwise : ∀ (bs : List Byte) (a : Nat), (cellsOf a bs).Pairwise fun x y => x.1 < y.1
  | [], _ => by simp [cellsOf]
  | b :: bs, a => by
    unfold cellsOf
    split
    · exact cellsOf_pairwise bs _
    · exact List.pairwise_cons.2 ⟨fun x hx => Nat.lt_of_succ_le (mem_cellsOf hx).1, cellsOf_pairwise bs _⟩

/-- A store of bytes at consecutive addresses keeps the form. -/
theorem Memory.wf_writeRun {m : Memory} (h : m.wf = true) (a : Nat) (bs : List Byte) : (m.writeRun a bs).wf = true := by
  rw [wf_iff] at h ⊢
  constructor
  · refine List.pairwise_append.2 ⟨h.1.filter _, List.pairwise_append.2 ⟨cellsOf_pairwise bs a, h.1.filter _, ?_⟩, ?_⟩
    · intro x hx y hy
      have := mem_cellsOf hx
      simp only [List.mem_filter, decide_eq_true_eq] at hy
      omega
    · intro x hx y hy
      simp only [List.mem_filter, decide_eq_true_eq, List.mem_append] at hx hy
      rcases hy with hy | hy
      · have := mem_cellsOf hy; omega
      · omega
  · intro x hx
    simp only [writeRun, List.mem_append, List.mem_filter] at hx
    rcases hx with hx | hx | hx
    · exact h.2 x hx.1
    · exact (mem_cellsOf hx).2.2
    · exact h.2 x hx.1

theorem Memory.wf_write {m : Memory} (h : m.wf = true) (a : Nat) (v : Byte) : (m.write a v).wf = true := wf_writeRun h a [v]

theorem Memory.wf_writeNat {m : Memory} (h : m.wf = true) (a n v : Nat) : (m.writeNat a n v).wf = true := wf_writeRun h a _

/-! ### Reads -/

theorem lookup_filter_keep (f : Nat → Bool) {x : Nat} (hx : f x = true) :
    ∀ m : Memory, List.lookup x (m.filter fun c => f c.1) = List.lookup x m
  | [] => rfl
  | (k, v) :: m => by
    by_cases hk : f k
    · simp [List.filter, hk, List.lookup_cons, lookup_filter_keep f hx m]
    · have : x ≠ k := fun e => by simp_all
      simp [List.filter, hk, List.lookup_cons, beq_eq_false_iff_ne.2 this, lookup_filter_keep f hx m]

theorem lookup_filter_drop (f : Nat → Bool) {x : Nat} (hx : f x = false) :
    ∀ m : Memory, List.lookup x (m.filter fun c => f c.1) = none
  | [] => rfl
  | (k, v) :: m => by
    by_cases hk : f k
    · have : x ≠ k := fun e => by simp_all
      simp [List.filter, hk, List.lookup_cons, beq_eq_false_iff_ne.2 this, lookup_filter_drop f hx m]
    · simp [List.filter, hk, lookup_filter_drop f hx m]

theorem lookup_cellsOf_none {x : Nat} : ∀ {bs : List Byte} {a : Nat}, (x < a ∨ a + bs.length ≤ x) → List.lookup x (cellsOf a bs) = none
  | [], _, _ => rfl
  | b :: bs, a, h => by
    have h' : x ≠ a := by simp only [List.length_cons] at h; omega
    have ih : List.lookup x (cellsOf (a + 1) bs) = none := lookup_cellsOf_none (by simp only [List.length_cons] at h; omega)
    unfold cellsOf
    split <;> simp [List.lookup_cons, beq_eq_false_iff_ne.2 h', ih]

theorem lookup_cellsOf {x : Nat} : ∀ {bs : List Byte} {a : Nat}, a ≤ x → x < a + bs.length →
    (List.lookup x (cellsOf a bs)).getD 0 = bs.getD (x - a) 0
  | [], a, h, h' => by simp at h'; omega
  | b :: bs, a, h, h' => by
    simp only [List.length_cons] at h'
    rcases Nat.eq_or_lt_of_le h with rfl | hlt
    · unfold cellsOf
      split
      · next hb => rw [lookup_cellsOf_none (by omega)]; simp [hb]
      · simp
    · have e : x - a = (x - (a + 1)) + 1 := by omega
      have ne : x ≠ a := by omega
      have ih := lookup_cellsOf (x := x) (bs := bs) (a := a + 1) (by omega) (by omega)
      unfold cellsOf
      rw [e, List.getD_cons_succ, ← ih]
      split
      · rfl
      · rw [List.lookup_cons, beq_eq_false_iff_ne.2 ne]

/-- What a byte reads as after a store of consecutive bytes. -/
theorem Memory.read_writeRun (m : Memory) (a : Nat) (bs : List Byte) (x : Nat) :
    (m.writeRun a bs).read x = if a ≤ x ∧ x < a + bs.length then bs.getD (x - a) 0 else m.read x := by
  have lo : List.lookup x (m.filter fun c => decide (c.1 < a)) = if x < a then List.lookup x m else none := by
    split
    · next h => exact lookup_filter_keep (fun k => decide (k < a)) (by simpa using h) m
    · next h => exact lookup_filter_drop (fun k => decide (k < a)) (by simpa using h) m
  have hi : List.lookup x (m.filter fun c => decide (a + bs.length ≤ c.1)) = if a + bs.length ≤ x then List.lookup x m else none := by
    split
    · next h => exact lookup_filter_keep (fun k => decide (a + bs.length ≤ k)) (by simpa using h) m
    · next h => exact lookup_filter_drop (fun k => decide (a + bs.length ≤ k)) (by simpa using h) m
  unfold Memory.read writeRun
  rw [List.lookup_append, List.lookup_append, lo, hi]
  by_cases h : a ≤ x ∧ x < a + bs.length
  · rw [if_neg (by omega), if_neg (by omega), if_pos h]
    simpa using lookup_cellsOf h.1 h.2
  · rw [if_neg h, lookup_cellsOf_none (by omega)]
    by_cases hx : x < a
    · rw [if_pos hx, if_neg (by omega)]; simp
    · rw [if_neg hx, if_pos (by omega)]; simp

theorem Memory.read_write (m : Memory) (a : Nat) (v : Byte) (x : Nat) : (m.write a v).read x = if x = a then v else m.read x := by
  unfold write
  rw [read_writeRun]
  by_cases h : x = a
  · simp [h]
  · rw [if_neg (by simp only [List.length_singleton]; omega), if_neg h]

/-- A run has as many bytes as asked. -/
theorem Memory.length_readRun : ∀ (m : Memory) (a n : Nat), (m.readRun a n).length = n
  | [], a, n => by simp [readRun]
  | (k, v) :: m, a, n => by
    unfold readRun
    split
    · simp_all
    split
    · exact length_readRun m a n
    split
    · simp
    · simp [length_readRun m]; omega

theorem Memory.read_of_lt {m : Memory} {k : Nat} {v : Byte} (h : Memory.wf ((k, v) :: m) = true) {x : Nat} (hx : x ≤ k) :
    Memory.read m x = 0 := by
  rw [wf_iff] at h
  have : List.lookup x m = none := by
    rw [List.lookup_eq_none_iff]
    intro p hp
    have := (List.pairwise_cons.1 h.1).1 p hp
    simp at this ⊢; omega
  simp [read, this]

/-- Byte i of a run is the byte at a + i. -/
theorem Memory.getD_readRun : ∀ {m : Memory} (_ : m.wf = true) (a n i : Nat), i < n → (m.readRun a n).getD i 0 = m.read (a + i)
  | [], _, a, n, i, hi => by simp [readRun, read, hi]
  | (k, v) :: m, h, a, n, i, hi => by
    have hm : Memory.wf m = true := by
      rw [wf_iff] at h ⊢; exact ⟨(List.pairwise_cons.1 h.1).2, fun x hx => h.2 x (List.mem_cons_of_mem _ hx)⟩
    have rc : ∀ x, Memory.read ((k, v) :: m) x = if x = k then v else Memory.read m x := by
      intro x; by_cases e : x = k <;> simp [read, List.lookup_cons, beq_eq_false_iff_ne.2, e]
    unfold readRun
    rw [if_neg (by omega), rc]
    split
    · rw [getD_readRun hm a n i hi, if_neg (by omega)]
    split
    · rw [if_neg (by omega), read_of_lt h (by omega)]; simp [hi]
    · rcases Nat.lt_trichotomy (a + i) k with hlt | heq | hgt
      · have hm0 : Memory.read m (a + i) = 0 := by simpa [rc, show a + i ≠ k by omega] using read_of_lt h (x := a + i) (by omega)
        rw [if_neg (by omega), hm0, List.getD_append _ _ _ _ (by simp; omega)]
        simp only [List.getD_eq_getElem?_getD, List.getElem?_replicate]
        split <;> rfl
      · rw [if_pos heq, List.getD_append_right _ _ _ _ (by simp; omega)]
        have : i - (k - a) = 0 := by omega
        simp [this]
      · rw [if_neg (by omega), List.getD_append_right _ _ _ _ (by simp; omega)]
        have e : i - (k - a) = (i - (k - a) - 1) + 1 := by omega
        have := getD_readRun hm (k + 1) (n - (k - a) - 1) (i - (k - a) - 1) (by omega)
        simp only [List.length_replicate]
        rw [e, List.getD_cons_succ, this]
        congr 1; omega

end Sys2Proof.Machine
end

