-- ==== Sys2Proof/Laws/State.lean ====
section
/-!
SUPPORT. One lemma for each field that an update of the state, a partition, a tile or a thread leaves as it was.
-/

namespace Sys2Proof.Machine

/-! ### `State.modPart`: one partition changed -/

@[simp] theorem State.modPart_powered (s : State) (p : Nat) (f : Partition → Partition) : (s.modPart p f).powered = s.powered := rfl
@[simp] theorem State.modPart_cycle (s : State) (p : Nat) (f : Partition → Partition) : (s.modPart p f).cycle = s.cycle := rfl
@[simp] theorem State.modPart_ptime (s : State) (p : Nat) (f : Partition → Partition) : (s.modPart p f).ptime = s.ptime := rfl
@[simp] theorem State.modPart_timing (s : State) (p : Nat) (f : Partition → Partition) : (s.modPart p f).timing = s.timing := rfl
@[simp] theorem State.modPart_boot (s : State) (p : Nat) (f : Partition → Partition) : (s.modPart p f).boot = s.boot := rfl
@[simp] theorem State.modPart_flash (s : State) (p : Nat) (f : Partition → Partition) : (s.modPart p f).flash = s.flash := rfl
@[simp] theorem State.modPart_flashBad (s : State) (p : Nat) (f : Partition → Partition) : (s.modPart p f).flashBad = s.flashBad := rfl
@[simp] theorem State.modPart_disabled (s : State) (p : Nat) (f : Partition → Partition) : (s.modPart p f).disabled = s.disabled := rfl
@[simp] theorem State.modPart_minSecurity (s : State) (p : Nat) (f : Partition → Partition) : (s.modPart p f).minSecurity = s.minSecurity := rfl
@[simp] theorem State.modPart_retired (s : State) (p : Nat) (f : Partition → Partition) : (s.modPart p f).retired = s.retired := rfl
@[simp] theorem State.modPart_logical (s : State) (p : Nat) (f : Partition → Partition) : (s.modPart p f).logical = s.logical := rfl
@[simp] theorem State.modPart_leases (s : State) (p : Nat) (f : Partition → Partition) : (s.modPart p f).leases = s.leases := rfl
@[simp] theorem State.modPart_leader (s : State) (p : Nat) (f : Partition → Partition) : (s.modPart p f).leader = s.leader := rfl
@[simp] theorem State.modPart_epoch (s : State) (p : Nat) (f : Partition → Partition) : (s.modPart p f).epoch = s.epoch := rfl
@[simp] theorem State.modPart_qcnt (s : State) (p : Nat) (f : Partition → Partition) : (s.modPart p f).qcnt = s.qcnt := rfl
@[simp] theorem State.modPart_qLast (s : State) (p : Nat) (f : Partition → Partition) : (s.modPart p f).qLast = s.qLast := rfl
@[simp] theorem State.modPart_qOp (s : State) (p : Nat) (f : Partition → Partition) : (s.modPart p f).qOp = s.qOp := rfl
@[simp] theorem State.modPart_quarantine (s : State) (p : Nat) (f : Partition → Partition) : (s.modPart p f).quarantine = s.quarantine := rfl
@[simp] theorem State.modPart_heldFree (s : State) (p : Nat) (f : Partition → Partition) : (s.modPart p f).heldFree = s.heldFree := rfl
@[simp] theorem State.modPart_usedPages (s : State) (p : Nat) (f : Partition → Partition) : (s.modPart p f).usedPages = s.usedPages := rfl
@[simp] theorem State.modPart_hbm (s : State) (p : Nat) (f : Partition → Partition) : (s.modPart p f).hbm = s.hbm := rfl
@[simp] theorem State.modPart_poison (s : State) (p : Nat) (f : Partition → Partition) : (s.modPart p f).poison = s.poison := rfl
@[simp] theorem State.modPart_corrected (s : State) (p : Nat) (f : Partition → Partition) : (s.modPart p f).corrected = s.corrected := rfl
@[simp] theorem State.modPart_ctrls (s : State) (p : Nat) (f : Partition → Partition) : (s.modPart p f).ctrls = s.ctrls := rfl
@[simp] theorem State.modPart_hchain (s : State) (p : Nat) (f : Partition → Partition) : (s.modPart p f).hchain = s.hchain := rfl
@[simp] theorem State.modPart_chans (s : State) (p : Nat) (f : Partition → Partition) : (s.modPart p f).chans = s.chans := rfl
@[simp] theorem State.modPart_ports (s : State) (p : Nat) (f : Partition → Partition) : (s.modPart p f).ports = s.ports := rfl
@[simp] theorem State.modPart_power (s : State) (p : Nat) (f : Partition → Partition) : (s.modPart p f).power = s.power := rfl
@[simp] theorem State.modPart_host (s : State) (p : Nat) (f : Partition → Partition) : (s.modPart p f).host = s.host := rfl
@[simp] theorem State.modPart_cxl (s : State) (p : Nat) (f : Partition → Partition) : (s.modPart p f).cxl = s.cxl := rfl
@[simp] theorem State.modPart_pfStarve (s : State) (p : Nat) (f : Partition → Partition) : (s.modPart p f).pfStarve = s.pfStarve := rfl
@[simp] theorem State.modPart_pfNpLimit (s : State) (p : Nat) (f : Partition → Partition) : (s.modPart p f).pfNpLimit = s.pfNpLimit := rfl
@[simp] theorem State.modPart_fns (s : State) (p : Nat) (f : Partition → Partition) : (s.modPart p f).fns = s.fns := rfl
@[simp] theorem State.modPart_qslots (s : State) (p : Nat) (f : Partition → Partition) : (s.modPart p f).qslots = s.qslots := rfl
@[simp] theorem State.modPart_pendBits (s : State) (p : Nat) (f : Partition → Partition) : (s.modPart p f).pendBits = s.pendBits := rfl
@[simp] theorem State.modPart_lastServed (s : State) (p : Nat) (f : Partition → Partition) : (s.modPart p f).lastServed = s.lastServed := rfl
@[simp] theorem State.modPart_msgs (s : State) (p : Nat) (f : Partition → Partition) : (s.modPart p f).msgs = s.msgs := rfl
@[simp] theorem State.modPart_ops (s : State) (p : Nat) (f : Partition → Partition) : (s.modPart p f).ops = s.ops := rfl
@[simp] theorem State.modPart_cpTurn (s : State) (p : Nat) (f : Partition → Partition) : (s.modPart p f).cpTurn = s.cpTurn := rfl
@[simp] theorem State.modPart_tags (s : State) (p : Nat) (f : Partition → Partition) : (s.modPart p f).tags = s.tags := rfl
@[simp] theorem State.modPart_opCtr (s : State) (p : Nat) (f : Partition → Partition) : (s.modPart p f).opCtr = s.opCtr := rfl
@[simp] theorem State.modPart_fresh (s : State) (p : Nat) (f : Partition → Partition) : (s.modPart p f).fresh = s.fresh := rfl
@[simp] theorem State.modPart_inputs (s : State) (p : Nat) (f : Partition → Partition) : (s.modPart p f).inputs = s.inputs := rfl
@[simp] theorem State.modPart_agenda (s : State) (p : Nat) (f : Partition → Partition) : (s.modPart p f).agenda = s.agenda := rfl
@[simp] theorem State.modPart_cur (s : State) (p : Nat) (f : Partition → Partition) : (s.modPart p f).cur = s.cur := rfl
@[simp] theorem State.modPart_visited (s : State) (p : Nat) (f : Partition → Partition) : (s.modPart p f).visited = s.visited := rfl
@[simp] theorem State.modPart_arg (s : State) (p : Nat) (f : Partition → Partition) : (s.modPart p f).arg = s.arg := rfl

/-! ### `State.modTile`: one tile changed -/

@[simp] theorem State.modTile_powered (s : State) (p t : Nat) (f : Tile → Tile) : (s.modTile p t f).powered = s.powered := rfl
@[simp] theorem State.modTile_cycle (s : State) (p t : Nat) (f : Tile → Tile) : (s.modTile p t f).cycle = s.cycle := rfl
@[simp] theorem State.modTile_ptime (s : State) (p t : Nat) (f : Tile → Tile) : (s.modTile p t f).ptime = s.ptime := rfl
@[simp] theorem State.modTile_timing (s : State) (p t : Nat) (f : Tile → Tile) : (s.modTile p t f).timing = s.timing := rfl
@[simp] theorem State.modTile_boot (s : State) (p t : Nat) (f : Tile → Tile) : (s.modTile p t f).boot = s.boot := rfl
@[simp] theorem State.modTile_flash (s : State) (p t : Nat) (f : Tile → Tile) : (s.modTile p t f).flash = s.flash := rfl
@[simp] theorem State.modTile_flashBad (s : State) (p t : Nat) (f : Tile → Tile) : (s.modTile p t f).flashBad = s.flashBad := rfl
@[simp] theorem State.modTile_disabled (s : State) (p t : Nat) (f : Tile → Tile) : (s.modTile p t f).disabled = s.disabled := rfl
@[simp] theorem State.modTile_minSecurity (s : State) (p t : Nat) (f : Tile → Tile) : (s.modTile p t f).minSecurity = s.minSecurity := rfl
@[simp] theorem State.modTile_retired (s : State) (p t : Nat) (f : Tile → Tile) : (s.modTile p t f).retired = s.retired := rfl
@[simp] theorem State.modTile_logical (s : State) (p t : Nat) (f : Tile → Tile) : (s.modTile p t f).logical = s.logical := rfl
@[simp] theorem State.modTile_leases (s : State) (p t : Nat) (f : Tile → Tile) : (s.modTile p t f).leases = s.leases := rfl
@[simp] theorem State.modTile_leader (s : State) (p t : Nat) (f : Tile → Tile) : (s.modTile p t f).leader = s.leader := rfl
@[simp] theorem State.modTile_epoch (s : State) (p t : Nat) (f : Tile → Tile) : (s.modTile p t f).epoch = s.epoch := rfl
@[simp] theorem State.modTile_qcnt (s : State) (p t : Nat) (f : Tile → Tile) : (s.modTile p t f).qcnt = s.qcnt := rfl
@[simp] theorem State.modTile_qLast (s : State) (p t : Nat) (f : Tile → Tile) : (s.modTile p t f).qLast = s.qLast := rfl
@[simp] theorem State.modTile_qOp (s : State) (p t : Nat) (f : Tile → Tile) : (s.modTile p t f).qOp = s.qOp := rfl
@[simp] theorem State.modTile_quarantine (s : State) (p t : Nat) (f : Tile → Tile) : (s.modTile p t f).quarantine = s.quarantine := rfl
@[simp] theorem State.modTile_heldFree (s : State) (p t : Nat) (f : Tile → Tile) : (s.modTile p t f).heldFree = s.heldFree := rfl
@[simp] theorem State.modTile_usedPages (s : State) (p t : Nat) (f : Tile → Tile) : (s.modTile p t f).usedPages = s.usedPages := rfl
@[simp] theorem State.modTile_hbm (s : State) (p t : Nat) (f : Tile → Tile) : (s.modTile p t f).hbm = s.hbm := rfl
@[simp] theorem State.modTile_poison (s : State) (p t : Nat) (f : Tile → Tile) : (s.modTile p t f).poison = s.poison := rfl
@[simp] theorem State.modTile_corrected (s : State) (p t : Nat) (f : Tile → Tile) : (s.modTile p t f).corrected = s.corrected := rfl
@[simp] theorem State.modTile_ctrls (s : State) (p t : Nat) (f : Tile → Tile) : (s.modTile p t f).ctrls = s.ctrls := rfl
@[simp] theorem State.modTile_hchain (s : State) (p t : Nat) (f : Tile → Tile) : (s.modTile p t f).hchain = s.hchain := rfl
@[simp] theorem State.modTile_chans (s : State) (p t : Nat) (f : Tile → Tile) : (s.modTile p t f).chans = s.chans := rfl
@[simp] theorem State.modTile_ports (s : State) (p t : Nat) (f : Tile → Tile) : (s.modTile p t f).ports = s.ports := rfl
@[simp] theorem State.modTile_power (s : State) (p t : Nat) (f : Tile → Tile) : (s.modTile p t f).power = s.power := rfl
@[simp] theorem State.modTile_host (s : State) (p t : Nat) (f : Tile → Tile) : (s.modTile p t f).host = s.host := rfl
@[simp] theorem State.modTile_cxl (s : State) (p t : Nat) (f : Tile → Tile) : (s.modTile p t f).cxl = s.cxl := rfl
@[simp] theorem State.modTile_pfStarve (s : State) (p t : Nat) (f : Tile → Tile) : (s.modTile p t f).pfStarve = s.pfStarve := rfl
@[simp] theorem State.modTile_pfNpLimit (s : State) (p t : Nat) (f : Tile → Tile) : (s.modTile p t f).pfNpLimit = s.pfNpLimit := rfl
@[simp] theorem State.modTile_fns (s : State) (p t : Nat) (f : Tile → Tile) : (s.modTile p t f).fns = s.fns := rfl
@[simp] theorem State.modTile_qslots (s : State) (p t : Nat) (f : Tile → Tile) : (s.modTile p t f).qslots = s.qslots := rfl
@[simp] theorem State.modTile_pendBits (s : State) (p t : Nat) (f : Tile → Tile) : (s.modTile p t f).pendBits = s.pendBits := rfl
@[simp] theorem State.modTile_lastServed (s : State) (p t : Nat) (f : Tile → Tile) : (s.modTile p t f).lastServed = s.lastServed := rfl
@[simp] theorem State.modTile_msgs (s : State) (p t : Nat) (f : Tile → Tile) : (s.modTile p t f).msgs = s.msgs := rfl
@[simp] theorem State.modTile_ops (s : State) (p t : Nat) (f : Tile → Tile) : (s.modTile p t f).ops = s.ops := rfl
@[simp] theorem State.modTile_cpTurn (s : State) (p t : Nat) (f : Tile → Tile) : (s.modTile p t f).cpTurn = s.cpTurn := rfl
@[simp] theorem State.modTile_tags (s : State) (p t : Nat) (f : Tile → Tile) : (s.modTile p t f).tags = s.tags := rfl
@[simp] theorem State.modTile_opCtr (s : State) (p t : Nat) (f : Tile → Tile) : (s.modTile p t f).opCtr = s.opCtr := rfl
@[simp] theorem State.modTile_fresh (s : State) (p t : Nat) (f : Tile → Tile) : (s.modTile p t f).fresh = s.fresh := rfl
@[simp] theorem State.modTile_inputs (s : State) (p t : Nat) (f : Tile → Tile) : (s.modTile p t f).inputs = s.inputs := rfl
@[simp] theorem State.modTile_agenda (s : State) (p t : Nat) (f : Tile → Tile) : (s.modTile p t f).agenda = s.agenda := rfl
@[simp] theorem State.modTile_cur (s : State) (p t : Nat) (f : Tile → Tile) : (s.modTile p t f).cur = s.cur := rfl
@[simp] theorem State.modTile_visited (s : State) (p t : Nat) (f : Tile → Tile) : (s.modTile p t f).visited = s.visited := rfl
@[simp] theorem State.modTile_arg (s : State) (p t : Nat) (f : Tile → Tile) : (s.modTile p t f).arg = s.arg := rfl

/-! ### `State.newId` -/

@[simp] theorem State.newId_powered (s : State)  : (s.newId).powered = s.powered := rfl
@[simp] theorem State.newId_cycle (s : State)  : (s.newId).cycle = s.cycle := rfl
@[simp] theorem State.newId_ptime (s : State)  : (s.newId).ptime = s.ptime := rfl
@[simp] theorem State.newId_timing (s : State)  : (s.newId).timing = s.timing := rfl
@[simp] theorem State.newId_boot (s : State)  : (s.newId).boot = s.boot := rfl
@[simp] theorem State.newId_flash (s : State)  : (s.newId).flash = s.flash := rfl
@[simp] theorem State.newId_flashBad (s : State)  : (s.newId).flashBad = s.flashBad := rfl
@[simp] theorem State.newId_disabled (s : State)  : (s.newId).disabled = s.disabled := rfl
@[simp] theorem State.newId_minSecurity (s : State)  : (s.newId).minSecurity = s.minSecurity := rfl
@[simp] theorem State.newId_retired (s : State)  : (s.newId).retired = s.retired := rfl
@[simp] theorem State.newId_logical (s : State)  : (s.newId).logical = s.logical := rfl
@[simp] theorem State.newId_leases (s : State)  : (s.newId).leases = s.leases := rfl
@[simp] theorem State.newId_leader (s : State)  : (s.newId).leader = s.leader := rfl
@[simp] theorem State.newId_epoch (s : State)  : (s.newId).epoch = s.epoch := rfl
@[simp] theorem State.newId_qcnt (s : State)  : (s.newId).qcnt = s.qcnt := rfl
@[simp] theorem State.newId_qLast (s : State)  : (s.newId).qLast = s.qLast := rfl
@[simp] theorem State.newId_qOp (s : State)  : (s.newId).qOp = s.qOp := rfl
@[simp] theorem State.newId_quarantine (s : State)  : (s.newId).quarantine = s.quarantine := rfl
@[simp] theorem State.newId_heldFree (s : State)  : (s.newId).heldFree = s.heldFree := rfl
@[simp] theorem State.newId_usedPages (s : State)  : (s.newId).usedPages = s.usedPages := rfl
@[simp] theorem State.newId_hbm (s : State)  : (s.newId).hbm = s.hbm := rfl
@[simp] theorem State.newId_poison (s : State)  : (s.newId).poison = s.poison := rfl
@[simp] theorem State.newId_corrected (s : State)  : (s.newId).corrected = s.corrected := rfl
@[simp] theorem State.newId_ctrls (s : State)  : (s.newId).ctrls = s.ctrls := rfl
@[simp] theorem State.newId_hchain (s : State)  : (s.newId).hchain = s.hchain := rfl
@[simp] theorem State.newId_chans (s : State)  : (s.newId).chans = s.chans := rfl
@[simp] theorem State.newId_ports (s : State)  : (s.newId).ports = s.ports := rfl
@[simp] theorem State.newId_power (s : State)  : (s.newId).power = s.power := rfl
@[simp] theorem State.newId_host (s : State)  : (s.newId).host = s.host := rfl
@[simp] theorem State.newId_cxl (s : State)  : (s.newId).cxl = s.cxl := rfl
@[simp] theorem State.newId_pfStarve (s : State)  : (s.newId).pfStarve = s.pfStarve := rfl
@[simp] theorem State.newId_pfNpLimit (s : State)  : (s.newId).pfNpLimit = s.pfNpLimit := rfl
@[simp] theorem State.newId_fns (s : State)  : (s.newId).fns = s.fns := rfl
@[simp] theorem State.newId_qslots (s : State)  : (s.newId).qslots = s.qslots := rfl
@[simp] theorem State.newId_pendBits (s : State)  : (s.newId).pendBits = s.pendBits := rfl
@[simp] theorem State.newId_lastServed (s : State)  : (s.newId).lastServed = s.lastServed := rfl
@[simp] theorem State.newId_msgs (s : State)  : (s.newId).msgs = s.msgs := rfl
@[simp] theorem State.newId_parts (s : State)  : (s.newId).parts = s.parts := rfl
@[simp] theorem State.newId_ops (s : State)  : (s.newId).ops = s.ops := rfl
@[simp] theorem State.newId_cpTurn (s : State)  : (s.newId).cpTurn = s.cpTurn := rfl
@[simp] theorem State.newId_tags (s : State)  : (s.newId).tags = s.tags := rfl
@[simp] theorem State.newId_fresh (s : State)  : (s.newId).fresh = s.fresh := rfl
@[simp] theorem State.newId_inputs (s : State)  : (s.newId).inputs = s.inputs := rfl
@[simp] theorem State.newId_agenda (s : State)  : (s.newId).agenda = s.agenda := rfl
@[simp] theorem State.newId_cur (s : State)  : (s.newId).cur = s.cur := rfl
@[simp] theorem State.newId_visited (s : State)  : (s.newId).visited = s.visited := rfl
@[simp] theorem State.newId_arg (s : State)  : (s.newId).arg = s.arg := rfl

/-! ### `State.schedule` -/

@[simp] theorem State.schedule_powered (s : State) (dt : Nat) (ev : Instr) (arg : Arg) : (s.schedule dt ev arg).powered = s.powered := rfl
@[simp] theorem State.schedule_cycle (s : State) (dt : Nat) (ev : Instr) (arg : Arg) : (s.schedule dt ev arg).cycle = s.cycle := rfl
@[simp] theorem State.schedule_ptime (s : State) (dt : Nat) (ev : Instr) (arg : Arg) : (s.schedule dt ev arg).ptime = s.ptime := rfl
@[simp] theorem State.schedule_timing (s : State) (dt : Nat) (ev : Instr) (arg : Arg) : (s.schedule dt ev arg).timing = s.timing := rfl
@[simp] theorem State.schedule_boot (s : State) (dt : Nat) (ev : Instr) (arg : Arg) : (s.schedule dt ev arg).boot = s.boot := rfl
@[simp] theorem State.schedule_flash (s : State) (dt : Nat) (ev : Instr) (arg : Arg) : (s.schedule dt ev arg).flash = s.flash := rfl
@[simp] theorem State.schedule_flashBad (s : State) (dt : Nat) (ev : Instr) (arg : Arg) : (s.schedule dt ev arg).flashBad = s.flashBad := rfl
@[simp] theorem State.schedule_disabled (s : State) (dt : Nat) (ev : Instr) (arg : Arg) : (s.schedule dt ev arg).disabled = s.disabled := rfl
@[simp] theorem State.schedule_minSecurity (s : State) (dt : Nat) (ev : Instr) (arg : Arg) : (s.schedule dt ev arg).minSecurity = s.minSecurity := rfl
@[simp] theorem State.schedule_retired (s : State) (dt : Nat) (ev : Instr) (arg : Arg) : (s.schedule dt ev arg).retired = s.retired := rfl
@[simp] theorem State.schedule_logical (s : State) (dt : Nat) (ev : Instr) (arg : Arg) : (s.schedule dt ev arg).logical = s.logical := rfl
@[simp] theorem State.schedule_leases (s : State) (dt : Nat) (ev : Instr) (arg : Arg) : (s.schedule dt ev arg).leases = s.leases := rfl
@[simp] theorem State.schedule_leader (s : State) (dt : Nat) (ev : Instr) (arg : Arg) : (s.schedule dt ev arg).leader = s.leader := rfl
@[simp] theorem State.schedule_epoch (s : State) (dt : Nat) (ev : Instr) (arg : Arg) : (s.schedule dt ev arg).epoch = s.epoch := rfl
@[simp] theorem State.schedule_qcnt (s : State) (dt : Nat) (ev : Instr) (arg : Arg) : (s.schedule dt ev arg).qcnt = s.qcnt := rfl
@[simp] theorem State.schedule_qLast (s : State) (dt : Nat) (ev : Instr) (arg : Arg) : (s.schedule dt ev arg).qLast = s.qLast := rfl
@[simp] theorem State.schedule_qOp (s : State) (dt : Nat) (ev : Instr) (arg : Arg) : (s.schedule dt ev arg).qOp = s.qOp := rfl
@[simp] theorem State.schedule_quarantine (s : State) (dt : Nat) (ev : Instr) (arg : Arg) : (s.schedule dt ev arg).quarantine = s.quarantine := rfl
@[simp] theorem State.schedule_heldFree (s : State) (dt : Nat) (ev : Instr) (arg : Arg) : (s.schedule dt ev arg).heldFree = s.heldFree := rfl
@[simp] theorem State.schedule_usedPages (s : State) (dt : Nat) (ev : Instr) (arg : Arg) : (s.schedule dt ev arg).usedPages = s.usedPages := rfl
@[simp] theorem State.schedule_hbm (s : State) (dt : Nat) (ev : Instr) (arg : Arg) : (s.schedule dt ev arg).hbm = s.hbm := rfl
@[simp] theorem State.schedule_poison (s : State) (dt : Nat) (ev : Instr) (arg : Arg) : (s.schedule dt ev arg).poison = s.poison := rfl
@[simp] theorem State.schedule_corrected (s : State) (dt : Nat) (ev : Instr) (arg : Arg) : (s.schedule dt ev arg).corrected = s.corrected := rfl
@[simp] theorem State.schedule_ctrls (s : State) (dt : Nat) (ev : Instr) (arg : Arg) : (s.schedule dt ev arg).ctrls = s.ctrls := rfl
@[simp] theorem State.schedule_hchain (s : State) (dt : Nat) (ev : Instr) (arg : Arg) : (s.schedule dt ev arg).hchain = s.hchain := rfl
@[simp] theorem State.schedule_chans (s : State) (dt : Nat) (ev : Instr) (arg : Arg) : (s.schedule dt ev arg).chans = s.chans := rfl
@[simp] theorem State.schedule_ports (s : State) (dt : Nat) (ev : Instr) (arg : Arg) : (s.schedule dt ev arg).ports = s.ports := rfl
@[simp] theorem State.schedule_power (s : State) (dt : Nat) (ev : Instr) (arg : Arg) : (s.schedule dt ev arg).power = s.power := rfl
@[simp] theorem State.schedule_host (s : State) (dt : Nat) (ev : Instr) (arg : Arg) : (s.schedule dt ev arg).host = s.host := rfl
@[simp] theorem State.schedule_cxl (s : State) (dt : Nat) (ev : Instr) (arg : Arg) : (s.schedule dt ev arg).cxl = s.cxl := rfl
@[simp] theorem State.schedule_pfStarve (s : State) (dt : Nat) (ev : Instr) (arg : Arg) : (s.schedule dt ev arg).pfStarve = s.pfStarve := rfl
@[simp] theorem State.schedule_pfNpLimit (s : State) (dt : Nat) (ev : Instr) (arg : Arg) : (s.schedule dt ev arg).pfNpLimit = s.pfNpLimit := rfl
@[simp] theorem State.schedule_fns (s : State) (dt : Nat) (ev : Instr) (arg : Arg) : (s.schedule dt ev arg).fns = s.fns := rfl
@[simp] theorem State.schedule_qslots (s : State) (dt : Nat) (ev : Instr) (arg : Arg) : (s.schedule dt ev arg).qslots = s.qslots := rfl
@[simp] theorem State.schedule_pendBits (s : State) (dt : Nat) (ev : Instr) (arg : Arg) : (s.schedule dt ev arg).pendBits = s.pendBits := rfl
@[simp] theorem State.schedule_lastServed (s : State) (dt : Nat) (ev : Instr) (arg : Arg) : (s.schedule dt ev arg).lastServed = s.lastServed := rfl
@[simp] theorem State.schedule_msgs (s : State) (dt : Nat) (ev : Instr) (arg : Arg) : (s.schedule dt ev arg).msgs = s.msgs := rfl
@[simp] theorem State.schedule_parts (s : State) (dt : Nat) (ev : Instr) (arg : Arg) : (s.schedule dt ev arg).parts = s.parts := rfl
@[simp] theorem State.schedule_ops (s : State) (dt : Nat) (ev : Instr) (arg : Arg) : (s.schedule dt ev arg).ops = s.ops := rfl
@[simp] theorem State.schedule_cpTurn (s : State) (dt : Nat) (ev : Instr) (arg : Arg) : (s.schedule dt ev arg).cpTurn = s.cpTurn := rfl
@[simp] theorem State.schedule_tags (s : State) (dt : Nat) (ev : Instr) (arg : Arg) : (s.schedule dt ev arg).tags = s.tags := rfl
@[simp] theorem State.schedule_opCtr (s : State) (dt : Nat) (ev : Instr) (arg : Arg) : (s.schedule dt ev arg).opCtr = s.opCtr := rfl
@[simp] theorem State.schedule_fresh (s : State) (dt : Nat) (ev : Instr) (arg : Arg) : (s.schedule dt ev arg).fresh = s.fresh := rfl
@[simp] theorem State.schedule_inputs (s : State) (dt : Nat) (ev : Instr) (arg : Arg) : (s.schedule dt ev arg).inputs = s.inputs := rfl
@[simp] theorem State.schedule_cur (s : State) (dt : Nat) (ev : Instr) (arg : Arg) : (s.schedule dt ev arg).cur = s.cur := rfl
@[simp] theorem State.schedule_visited (s : State) (dt : Nat) (ev : Instr) (arg : Arg) : (s.schedule dt ev arg).visited = s.visited := rfl
@[simp] theorem State.schedule_arg (s : State) (dt : Nat) (ev : Instr) (arg : Arg) : (s.schedule dt ev arg).arg = s.arg := rfl

/-! ### `State.scheduleFree` -/

@[simp] theorem State.scheduleFree_powered (s : State) (k : Delay) (ev : Instr) (arg : Arg) : (s.scheduleFree k ev arg).powered = s.powered := rfl
@[simp] theorem State.scheduleFree_cycle (s : State) (k : Delay) (ev : Instr) (arg : Arg) : (s.scheduleFree k ev arg).cycle = s.cycle := rfl
@[simp] theorem State.scheduleFree_ptime (s : State) (k : Delay) (ev : Instr) (arg : Arg) : (s.scheduleFree k ev arg).ptime = s.ptime := rfl
@[simp] theorem State.scheduleFree_timing (s : State) (k : Delay) (ev : Instr) (arg : Arg) : (s.scheduleFree k ev arg).timing = s.timing := rfl
@[simp] theorem State.scheduleFree_boot (s : State) (k : Delay) (ev : Instr) (arg : Arg) : (s.scheduleFree k ev arg).boot = s.boot := rfl
@[simp] theorem State.scheduleFree_flash (s : State) (k : Delay) (ev : Instr) (arg : Arg) : (s.scheduleFree k ev arg).flash = s.flash := rfl
@[simp] theorem State.scheduleFree_flashBad (s : State) (k : Delay) (ev : Instr) (arg : Arg) : (s.scheduleFree k ev arg).flashBad = s.flashBad := rfl
@[simp] theorem State.scheduleFree_disabled (s : State) (k : Delay) (ev : Instr) (arg : Arg) : (s.scheduleFree k ev arg).disabled = s.disabled := rfl
@[simp] theorem State.scheduleFree_minSecurity (s : State) (k : Delay) (ev : Instr) (arg : Arg) : (s.scheduleFree k ev arg).minSecurity = s.minSecurity := rfl
@[simp] theorem State.scheduleFree_retired (s : State) (k : Delay) (ev : Instr) (arg : Arg) : (s.scheduleFree k ev arg).retired = s.retired := rfl
@[simp] theorem State.scheduleFree_logical (s : State) (k : Delay) (ev : Instr) (arg : Arg) : (s.scheduleFree k ev arg).logical = s.logical := rfl
@[simp] theorem State.scheduleFree_leases (s : State) (k : Delay) (ev : Instr) (arg : Arg) : (s.scheduleFree k ev arg).leases = s.leases := rfl
@[simp] theorem State.scheduleFree_leader (s : State) (k : Delay) (ev : Instr) (arg : Arg) : (s.scheduleFree k ev arg).leader = s.leader := rfl
@[simp] theorem State.scheduleFree_epoch (s : State) (k : Delay) (ev : Instr) (arg : Arg) : (s.scheduleFree k ev arg).epoch = s.epoch := rfl
@[simp] theorem State.scheduleFree_qcnt (s : State) (k : Delay) (ev : Instr) (arg : Arg) : (s.scheduleFree k ev arg).qcnt = s.qcnt := rfl
@[simp] theorem State.scheduleFree_qLast (s : State) (k : Delay) (ev : Instr) (arg : Arg) : (s.scheduleFree k ev arg).qLast = s.qLast := rfl
@[simp] theorem State.scheduleFree_qOp (s : State) (k : Delay) (ev : Instr) (arg : Arg) : (s.scheduleFree k ev arg).qOp = s.qOp := rfl
@[simp] theorem State.scheduleFree_quarantine (s : State) (k : Delay) (ev : Instr) (arg : Arg) : (s.scheduleFree k ev arg).quarantine = s.quarantine := rfl
@[simp] theorem State.scheduleFree_heldFree (s : State) (k : Delay) (ev : Instr) (arg : Arg) : (s.scheduleFree k ev arg).heldFree = s.heldFree := rfl
@[simp] theorem State.scheduleFree_usedPages (s : State) (k : Delay) (ev : Instr) (arg : Arg) : (s.scheduleFree k ev arg).usedPages = s.usedPages := rfl
@[simp] theorem State.scheduleFree_hbm (s : State) (k : Delay) (ev : Instr) (arg : Arg) : (s.scheduleFree k ev arg).hbm = s.hbm := rfl
@[simp] theorem State.scheduleFree_poison (s : State) (k : Delay) (ev : Instr) (arg : Arg) : (s.scheduleFree k ev arg).poison = s.poison := rfl
@[simp] theorem State.scheduleFree_corrected (s : State) (k : Delay) (ev : Instr) (arg : Arg) : (s.scheduleFree k ev arg).corrected = s.corrected := rfl
@[simp] theorem State.scheduleFree_ctrls (s : State) (k : Delay) (ev : Instr) (arg : Arg) : (s.scheduleFree k ev arg).ctrls = s.ctrls := rfl
@[simp] theorem State.scheduleFree_hchain (s : State) (k : Delay) (ev : Instr) (arg : Arg) : (s.scheduleFree k ev arg).hchain = s.hchain := rfl
@[simp] theorem State.scheduleFree_chans (s : State) (k : Delay) (ev : Instr) (arg : Arg) : (s.scheduleFree k ev arg).chans = s.chans := rfl
@[simp] theorem State.scheduleFree_ports (s : State) (k : Delay) (ev : Instr) (arg : Arg) : (s.scheduleFree k ev arg).ports = s.ports := rfl
@[simp] theorem State.scheduleFree_power (s : State) (k : Delay) (ev : Instr) (arg : Arg) : (s.scheduleFree k ev arg).power = s.power := rfl
@[simp] theorem State.scheduleFree_host (s : State) (k : Delay) (ev : Instr) (arg : Arg) : (s.scheduleFree k ev arg).host = s.host := rfl
@[simp] theorem State.scheduleFree_cxl (s : State) (k : Delay) (ev : Instr) (arg : Arg) : (s.scheduleFree k ev arg).cxl = s.cxl := rfl
@[simp] theorem State.scheduleFree_pfStarve (s : State) (k : Delay) (ev : Instr) (arg : Arg) : (s.scheduleFree k ev arg).pfStarve = s.pfStarve := rfl
@[simp] theorem State.scheduleFree_pfNpLimit (s : State) (k : Delay) (ev : Instr) (arg : Arg) : (s.scheduleFree k ev arg).pfNpLimit = s.pfNpLimit := rfl
@[simp] theorem State.scheduleFree_fns (s : State) (k : Delay) (ev : Instr) (arg : Arg) : (s.scheduleFree k ev arg).fns = s.fns := rfl
@[simp] theorem State.scheduleFree_qslots (s : State) (k : Delay) (ev : Instr) (arg : Arg) : (s.scheduleFree k ev arg).qslots = s.qslots := rfl
@[simp] theorem State.scheduleFree_pendBits (s : State) (k : Delay) (ev : Instr) (arg : Arg) : (s.scheduleFree k ev arg).pendBits = s.pendBits := rfl
@[simp] theorem State.scheduleFree_lastServed (s : State) (k : Delay) (ev : Instr) (arg : Arg) : (s.scheduleFree k ev arg).lastServed = s.lastServed := rfl
@[simp] theorem State.scheduleFree_msgs (s : State) (k : Delay) (ev : Instr) (arg : Arg) : (s.scheduleFree k ev arg).msgs = s.msgs := rfl
@[simp] theorem State.scheduleFree_parts (s : State) (k : Delay) (ev : Instr) (arg : Arg) : (s.scheduleFree k ev arg).parts = s.parts := rfl
@[simp] theorem State.scheduleFree_ops (s : State) (k : Delay) (ev : Instr) (arg : Arg) : (s.scheduleFree k ev arg).ops = s.ops := rfl
@[simp] theorem State.scheduleFree_cpTurn (s : State) (k : Delay) (ev : Instr) (arg : Arg) : (s.scheduleFree k ev arg).cpTurn = s.cpTurn := rfl
@[simp] theorem State.scheduleFree_tags (s : State) (k : Delay) (ev : Instr) (arg : Arg) : (s.scheduleFree k ev arg).tags = s.tags := rfl
@[simp] theorem State.scheduleFree_opCtr (s : State) (k : Delay) (ev : Instr) (arg : Arg) : (s.scheduleFree k ev arg).opCtr = s.opCtr := rfl
@[simp] theorem State.scheduleFree_inputs (s : State) (k : Delay) (ev : Instr) (arg : Arg) : (s.scheduleFree k ev arg).inputs = s.inputs := rfl
@[simp] theorem State.scheduleFree_cur (s : State) (k : Delay) (ev : Instr) (arg : Arg) : (s.scheduleFree k ev arg).cur = s.cur := rfl
@[simp] theorem State.scheduleFree_visited (s : State) (k : Delay) (ev : Instr) (arg : Arg) : (s.scheduleFree k ev arg).visited = s.visited := rfl
@[simp] theorem State.scheduleFree_arg (s : State) (k : Delay) (ev : Instr) (arg : Arg) : (s.scheduleFree k ev arg).arg = s.arg := rfl

/-! ### `State.modOp` -/

@[simp] theorem State.modOp_powered (s : State) (i : Nat) (f : EngOp → EngOp) : (s.modOp i f).powered = s.powered := rfl
@[simp] theorem State.modOp_cycle (s : State) (i : Nat) (f : EngOp → EngOp) : (s.modOp i f).cycle = s.cycle := rfl
@[simp] theorem State.modOp_ptime (s : State) (i : Nat) (f : EngOp → EngOp) : (s.modOp i f).ptime = s.ptime := rfl
@[simp] theorem State.modOp_timing (s : State) (i : Nat) (f : EngOp → EngOp) : (s.modOp i f).timing = s.timing := rfl
@[simp] theorem State.modOp_boot (s : State) (i : Nat) (f : EngOp → EngOp) : (s.modOp i f).boot = s.boot := rfl
@[simp] theorem State.modOp_flash (s : State) (i : Nat) (f : EngOp → EngOp) : (s.modOp i f).flash = s.flash := rfl
@[simp] theorem State.modOp_flashBad (s : State) (i : Nat) (f : EngOp → EngOp) : (s.modOp i f).flashBad = s.flashBad := rfl
@[simp] theorem State.modOp_disabled (s : State) (i : Nat) (f : EngOp → EngOp) : (s.modOp i f).disabled = s.disabled := rfl
@[simp] theorem State.modOp_minSecurity (s : State) (i : Nat) (f : EngOp → EngOp) : (s.modOp i f).minSecurity = s.minSecurity := rfl
@[simp] theorem State.modOp_retired (s : State) (i : Nat) (f : EngOp → EngOp) : (s.modOp i f).retired = s.retired := rfl
@[simp] theorem State.modOp_logical (s : State) (i : Nat) (f : EngOp → EngOp) : (s.modOp i f).logical = s.logical := rfl
@[simp] theorem State.modOp_leases (s : State) (i : Nat) (f : EngOp → EngOp) : (s.modOp i f).leases = s.leases := rfl
@[simp] theorem State.modOp_leader (s : State) (i : Nat) (f : EngOp → EngOp) : (s.modOp i f).leader = s.leader := rfl
@[simp] theorem State.modOp_epoch (s : State) (i : Nat) (f : EngOp → EngOp) : (s.modOp i f).epoch = s.epoch := rfl
@[simp] theorem State.modOp_qcnt (s : State) (i : Nat) (f : EngOp → EngOp) : (s.modOp i f).qcnt = s.qcnt := rfl
@[simp] theorem State.modOp_qLast (s : State) (i : Nat) (f : EngOp → EngOp) : (s.modOp i f).qLast = s.qLast := rfl
@[simp] theorem State.modOp_qOp (s : State) (i : Nat) (f : EngOp → EngOp) : (s.modOp i f).qOp = s.qOp := rfl
@[simp] theorem State.modOp_quarantine (s : State) (i : Nat) (f : EngOp → EngOp) : (s.modOp i f).quarantine = s.quarantine := rfl
@[simp] theorem State.modOp_heldFree (s : State) (i : Nat) (f : EngOp → EngOp) : (s.modOp i f).heldFree = s.heldFree := rfl
@[simp] theorem State.modOp_usedPages (s : State) (i : Nat) (f : EngOp → EngOp) : (s.modOp i f).usedPages = s.usedPages := rfl
@[simp] theorem State.modOp_hbm (s : State) (i : Nat) (f : EngOp → EngOp) : (s.modOp i f).hbm = s.hbm := rfl
@[simp] theorem State.modOp_poison (s : State) (i : Nat) (f : EngOp → EngOp) : (s.modOp i f).poison = s.poison := rfl
@[simp] theorem State.modOp_corrected (s : State) (i : Nat) (f : EngOp → EngOp) : (s.modOp i f).corrected = s.corrected := rfl
@[simp] theorem State.modOp_ctrls (s : State) (i : Nat) (f : EngOp → EngOp) : (s.modOp i f).ctrls = s.ctrls := rfl
@[simp] theorem State.modOp_hchain (s : State) (i : Nat) (f : EngOp → EngOp) : (s.modOp i f).hchain = s.hchain := rfl
@[simp] theorem State.modOp_chans (s : State) (i : Nat) (f : EngOp → EngOp) : (s.modOp i f).chans = s.chans := rfl
@[simp] theorem State.modOp_ports (s : State) (i : Nat) (f : EngOp → EngOp) : (s.modOp i f).ports = s.ports := rfl
@[simp] theorem State.modOp_power (s : State) (i : Nat) (f : EngOp → EngOp) : (s.modOp i f).power = s.power := rfl
@[simp] theorem State.modOp_host (s : State) (i : Nat) (f : EngOp → EngOp) : (s.modOp i f).host = s.host := rfl
@[simp] theorem State.modOp_cxl (s : State) (i : Nat) (f : EngOp → EngOp) : (s.modOp i f).cxl = s.cxl := rfl
@[simp] theorem State.modOp_pfStarve (s : State) (i : Nat) (f : EngOp → EngOp) : (s.modOp i f).pfStarve = s.pfStarve := rfl
@[simp] theorem State.modOp_pfNpLimit (s : State) (i : Nat) (f : EngOp → EngOp) : (s.modOp i f).pfNpLimit = s.pfNpLimit := rfl
@[simp] theorem State.modOp_fns (s : State) (i : Nat) (f : EngOp → EngOp) : (s.modOp i f).fns = s.fns := rfl
@[simp] theorem State.modOp_qslots (s : State) (i : Nat) (f : EngOp → EngOp) : (s.modOp i f).qslots = s.qslots := rfl
@[simp] theorem State.modOp_pendBits (s : State) (i : Nat) (f : EngOp → EngOp) : (s.modOp i f).pendBits = s.pendBits := rfl
@[simp] theorem State.modOp_lastServed (s : State) (i : Nat) (f : EngOp → EngOp) : (s.modOp i f).lastServed = s.lastServed := rfl
@[simp] theorem State.modOp_msgs (s : State) (i : Nat) (f : EngOp → EngOp) : (s.modOp i f).msgs = s.msgs := rfl
@[simp] theorem State.modOp_parts (s : State) (i : Nat) (f : EngOp → EngOp) : (s.modOp i f).parts = s.parts := rfl
@[simp] theorem State.modOp_cpTurn (s : State) (i : Nat) (f : EngOp → EngOp) : (s.modOp i f).cpTurn = s.cpTurn := rfl
@[simp] theorem State.modOp_tags (s : State) (i : Nat) (f : EngOp → EngOp) : (s.modOp i f).tags = s.tags := rfl
@[simp] theorem State.modOp_opCtr (s : State) (i : Nat) (f : EngOp → EngOp) : (s.modOp i f).opCtr = s.opCtr := rfl
@[simp] theorem State.modOp_fresh (s : State) (i : Nat) (f : EngOp → EngOp) : (s.modOp i f).fresh = s.fresh := rfl
@[simp] theorem State.modOp_inputs (s : State) (i : Nat) (f : EngOp → EngOp) : (s.modOp i f).inputs = s.inputs := rfl
@[simp] theorem State.modOp_agenda (s : State) (i : Nat) (f : EngOp → EngOp) : (s.modOp i f).agenda = s.agenda := rfl
@[simp] theorem State.modOp_cur (s : State) (i : Nat) (f : EngOp → EngOp) : (s.modOp i f).cur = s.cur := rfl
@[simp] theorem State.modOp_visited (s : State) (i : Nat) (f : EngOp → EngOp) : (s.modOp i f).visited = s.visited := rfl
@[simp] theorem State.modOp_arg (s : State) (i : Nat) (f : EngOp → EngOp) : (s.modOp i f).arg = s.arg := rfl

/-! ### `State.modCtrl` and `State.modThread`: the fields of no controller and no partition -/

@[simp] theorem State.modCtrl_powered (s : State) (d : Nat) (f : Ctrl → Ctrl) : (s.modCtrl d f).powered = s.powered := by unfold State.modCtrl; split <;> rfl
@[simp] theorem State.modCtrl_cycle (s : State) (d : Nat) (f : Ctrl → Ctrl) : (s.modCtrl d f).cycle = s.cycle := by unfold State.modCtrl; split <;> rfl
@[simp] theorem State.modCtrl_ptime (s : State) (d : Nat) (f : Ctrl → Ctrl) : (s.modCtrl d f).ptime = s.ptime := by unfold State.modCtrl; split <;> rfl
@[simp] theorem State.modCtrl_timing (s : State) (d : Nat) (f : Ctrl → Ctrl) : (s.modCtrl d f).timing = s.timing := by unfold State.modCtrl; split <;> rfl
@[simp] theorem State.modCtrl_boot (s : State) (d : Nat) (f : Ctrl → Ctrl) : (s.modCtrl d f).boot = s.boot := by unfold State.modCtrl; split <;> rfl
@[simp] theorem State.modCtrl_flash (s : State) (d : Nat) (f : Ctrl → Ctrl) : (s.modCtrl d f).flash = s.flash := by unfold State.modCtrl; split <;> rfl
@[simp] theorem State.modCtrl_flashBad (s : State) (d : Nat) (f : Ctrl → Ctrl) : (s.modCtrl d f).flashBad = s.flashBad := by unfold State.modCtrl; split <;> rfl
@[simp] theorem State.modCtrl_disabled (s : State) (d : Nat) (f : Ctrl → Ctrl) : (s.modCtrl d f).disabled = s.disabled := by unfold State.modCtrl; split <;> rfl
@[simp] theorem State.modCtrl_minSecurity (s : State) (d : Nat) (f : Ctrl → Ctrl) : (s.modCtrl d f).minSecurity = s.minSecurity := by unfold State.modCtrl; split <;> rfl
@[simp] theorem State.modCtrl_retired (s : State) (d : Nat) (f : Ctrl → Ctrl) : (s.modCtrl d f).retired = s.retired := by unfold State.modCtrl; split <;> rfl
@[simp] theorem State.modCtrl_logical (s : State) (d : Nat) (f : Ctrl → Ctrl) : (s.modCtrl d f).logical = s.logical := by unfold State.modCtrl; split <;> rfl
@[simp] theorem State.modCtrl_leases (s : State) (d : Nat) (f : Ctrl → Ctrl) : (s.modCtrl d f).leases = s.leases := by unfold State.modCtrl; split <;> rfl
@[simp] theorem State.modCtrl_leader (s : State) (d : Nat) (f : Ctrl → Ctrl) : (s.modCtrl d f).leader = s.leader := by unfold State.modCtrl; split <;> rfl
@[simp] theorem State.modCtrl_epoch (s : State) (d : Nat) (f : Ctrl → Ctrl) : (s.modCtrl d f).epoch = s.epoch := by unfold State.modCtrl; split <;> rfl
@[simp] theorem State.modCtrl_qcnt (s : State) (d : Nat) (f : Ctrl → Ctrl) : (s.modCtrl d f).qcnt = s.qcnt := by unfold State.modCtrl; split <;> rfl
@[simp] theorem State.modCtrl_qLast (s : State) (d : Nat) (f : Ctrl → Ctrl) : (s.modCtrl d f).qLast = s.qLast := by unfold State.modCtrl; split <;> rfl
@[simp] theorem State.modCtrl_qOp (s : State) (d : Nat) (f : Ctrl → Ctrl) : (s.modCtrl d f).qOp = s.qOp := by unfold State.modCtrl; split <;> rfl
@[simp] theorem State.modCtrl_quarantine (s : State) (d : Nat) (f : Ctrl → Ctrl) : (s.modCtrl d f).quarantine = s.quarantine := by unfold State.modCtrl; split <;> rfl
@[simp] theorem State.modCtrl_heldFree (s : State) (d : Nat) (f : Ctrl → Ctrl) : (s.modCtrl d f).heldFree = s.heldFree := by unfold State.modCtrl; split <;> rfl
@[simp] theorem State.modCtrl_usedPages (s : State) (d : Nat) (f : Ctrl → Ctrl) : (s.modCtrl d f).usedPages = s.usedPages := by unfold State.modCtrl; split <;> rfl
@[simp] theorem State.modCtrl_hbm (s : State) (d : Nat) (f : Ctrl → Ctrl) : (s.modCtrl d f).hbm = s.hbm := by unfold State.modCtrl; split <;> rfl
@[simp] theorem State.modCtrl_poison (s : State) (d : Nat) (f : Ctrl → Ctrl) : (s.modCtrl d f).poison = s.poison := by unfold State.modCtrl; split <;> rfl
@[simp] theorem State.modCtrl_corrected (s : State) (d : Nat) (f : Ctrl → Ctrl) : (s.modCtrl d f).corrected = s.corrected := by unfold State.modCtrl; split <;> rfl
@[simp] theorem State.modCtrl_hchain (s : State) (d : Nat) (f : Ctrl → Ctrl) : (s.modCtrl d f).hchain = s.hchain := by unfold State.modCtrl; split <;> rfl
@[simp] theorem State.modCtrl_chans (s : State) (d : Nat) (f : Ctrl → Ctrl) : (s.modCtrl d f).chans = s.chans := by unfold State.modCtrl; split <;> rfl
@[simp] theorem State.modCtrl_ports (s : State) (d : Nat) (f : Ctrl → Ctrl) : (s.modCtrl d f).ports = s.ports := by unfold State.modCtrl; split <;> rfl
@[simp] theorem State.modCtrl_power (s : State) (d : Nat) (f : Ctrl → Ctrl) : (s.modCtrl d f).power = s.power := by unfold State.modCtrl; split <;> rfl
@[simp] theorem State.modCtrl_host (s : State) (d : Nat) (f : Ctrl → Ctrl) : (s.modCtrl d f).host = s.host := by unfold State.modCtrl; split <;> rfl
@[simp] theorem State.modCtrl_cxl (s : State) (d : Nat) (f : Ctrl → Ctrl) : (s.modCtrl d f).cxl = s.cxl := by unfold State.modCtrl; split <;> rfl
@[simp] theorem State.modCtrl_pfStarve (s : State) (d : Nat) (f : Ctrl → Ctrl) : (s.modCtrl d f).pfStarve = s.pfStarve := by unfold State.modCtrl; split <;> rfl
@[simp] theorem State.modCtrl_pfNpLimit (s : State) (d : Nat) (f : Ctrl → Ctrl) : (s.modCtrl d f).pfNpLimit = s.pfNpLimit := by unfold State.modCtrl; split <;> rfl
@[simp] theorem State.modCtrl_fns (s : State) (d : Nat) (f : Ctrl → Ctrl) : (s.modCtrl d f).fns = s.fns := by unfold State.modCtrl; split <;> rfl
@[simp] theorem State.modCtrl_qslots (s : State) (d : Nat) (f : Ctrl → Ctrl) : (s.modCtrl d f).qslots = s.qslots := by unfold State.modCtrl; split <;> rfl
@[simp] theorem State.modCtrl_pendBits (s : State) (d : Nat) (f : Ctrl → Ctrl) : (s.modCtrl d f).pendBits = s.pendBits := by unfold State.modCtrl; split <;> rfl
@[simp] theorem State.modCtrl_lastServed (s : State) (d : Nat) (f : Ctrl → Ctrl) : (s.modCtrl d f).lastServed = s.lastServed := by unfold State.modCtrl; split <;> rfl
@[simp] theorem State.modCtrl_msgs (s : State) (d : Nat) (f : Ctrl → Ctrl) : (s.modCtrl d f).msgs = s.msgs := by unfold State.modCtrl; split <;> rfl
@[simp] theorem State.modCtrl_parts (s : State) (d : Nat) (f : Ctrl → Ctrl) : (s.modCtrl d f).parts = s.parts := by unfold State.modCtrl; split <;> rfl
@[simp] theorem State.modCtrl_ops (s : State) (d : Nat) (f : Ctrl → Ctrl) : (s.modCtrl d f).ops = s.ops := by unfold State.modCtrl; split <;> rfl
@[simp] theorem State.modCtrl_cpTurn (s : State) (d : Nat) (f : Ctrl → Ctrl) : (s.modCtrl d f).cpTurn = s.cpTurn := by unfold State.modCtrl; split <;> rfl
@[simp] theorem State.modCtrl_tags (s : State) (d : Nat) (f : Ctrl → Ctrl) : (s.modCtrl d f).tags = s.tags := by unfold State.modCtrl; split <;> rfl
@[simp] theorem State.modCtrl_opCtr (s : State) (d : Nat) (f : Ctrl → Ctrl) : (s.modCtrl d f).opCtr = s.opCtr := by unfold State.modCtrl; split <;> rfl
@[simp] theorem State.modCtrl_fresh (s : State) (d : Nat) (f : Ctrl → Ctrl) : (s.modCtrl d f).fresh = s.fresh := by unfold State.modCtrl; split <;> rfl
@[simp] theorem State.modCtrl_inputs (s : State) (d : Nat) (f : Ctrl → Ctrl) : (s.modCtrl d f).inputs = s.inputs := by unfold State.modCtrl; split <;> rfl
@[simp] theorem State.modCtrl_agenda (s : State) (d : Nat) (f : Ctrl → Ctrl) : (s.modCtrl d f).agenda = s.agenda := by unfold State.modCtrl; split <;> rfl
@[simp] theorem State.modCtrl_cur (s : State) (d : Nat) (f : Ctrl → Ctrl) : (s.modCtrl d f).cur = s.cur := by unfold State.modCtrl; split <;> rfl
@[simp] theorem State.modCtrl_visited (s : State) (d : Nat) (f : Ctrl → Ctrl) : (s.modCtrl d f).visited = s.visited := by unfold State.modCtrl; split <;> rfl
@[simp] theorem State.modCtrl_arg (s : State) (d : Nat) (f : Ctrl → Ctrl) : (s.modCtrl d f).arg = s.arg := by unfold State.modCtrl; split <;> rfl
@[simp] theorem State.modThread_powered (s : State) (a : Agent) (i : Nat) (f : Thread → Thread) : (s.modThread a i f).powered = s.powered := by cases a <;> simp [State.modThread]
@[simp] theorem State.modThread_cycle (s : State) (a : Agent) (i : Nat) (f : Thread → Thread) : (s.modThread a i f).cycle = s.cycle := by cases a <;> simp [State.modThread]
@[simp] theorem State.modThread_ptime (s : State) (a : Agent) (i : Nat) (f : Thread → Thread) : (s.modThread a i f).ptime = s.ptime := by cases a <;> simp [State.modThread]
@[simp] theorem State.modThread_timing (s : State) (a : Agent) (i : Nat) (f : Thread → Thread) : (s.modThread a i f).timing = s.timing := by cases a <;> simp [State.modThread]
@[simp] theorem State.modThread_boot (s : State) (a : Agent) (i : Nat) (f : Thread → Thread) : (s.modThread a i f).boot = s.boot := by cases a <;> simp [State.modThread]
@[simp] theorem State.modThread_flash (s : State) (a : Agent) (i : Nat) (f : Thread → Thread) : (s.modThread a i f).flash = s.flash := by cases a <;> simp [State.modThread]
@[simp] theorem State.modThread_flashBad (s : State) (a : Agent) (i : Nat) (f : Thread → Thread) : (s.modThread a i f).flashBad = s.flashBad := by cases a <;> simp [State.modThread]
@[simp] theorem State.modThread_disabled (s : State) (a : Agent) (i : Nat) (f : Thread → Thread) : (s.modThread a i f).disabled = s.disabled := by cases a <;> simp [State.modThread]
@[simp] theorem State.modThread_minSecurity (s : State) (a : Agent) (i : Nat) (f : Thread → Thread) : (s.modThread a i f).minSecurity = s.minSecurity := by cases a <;> simp [State.modThread]
@[simp] theorem State.modThread_retired (s : State) (a : Agent) (i : Nat) (f : Thread → Thread) : (s.modThread a i f).retired = s.retired := by cases a <;> simp [State.modThread]
@[simp] theorem State.modThread_logical (s : State) (a : Agent) (i : Nat) (f : Thread → Thread) : (s.modThread a i f).logical = s.logical := by cases a <;> simp [State.modThread]
@[simp] theorem State.modThread_leases (s : State) (a : Agent) (i : Nat) (f : Thread → Thread) : (s.modThread a i f).leases = s.leases := by cases a <;> simp [State.modThread]
@[simp] theorem State.modThread_leader (s : State) (a : Agent) (i : Nat) (f : Thread → Thread) : (s.modThread a i f).leader = s.leader := by cases a <;> simp [State.modThread]
@[simp] theorem State.modThread_epoch (s : State) (a : Agent) (i : Nat) (f : Thread → Thread) : (s.modThread a i f).epoch = s.epoch := by cases a <;> simp [State.modThread]
@[simp] theorem State.modThread_qcnt (s : State) (a : Agent) (i : Nat) (f : Thread → Thread) : (s.modThread a i f).qcnt = s.qcnt := by cases a <;> simp [State.modThread]
@[simp] theorem State.modThread_qLast (s : State) (a : Agent) (i : Nat) (f : Thread → Thread) : (s.modThread a i f).qLast = s.qLast := by cases a <;> simp [State.modThread]
@[simp] theorem State.modThread_qOp (s : State) (a : Agent) (i : Nat) (f : Thread → Thread) : (s.modThread a i f).qOp = s.qOp := by cases a <;> simp [State.modThread]
@[simp] theorem State.modThread_quarantine (s : State) (a : Agent) (i : Nat) (f : Thread → Thread) : (s.modThread a i f).quarantine = s.quarantine := by cases a <;> simp [State.modThread]
@[simp] theorem State.modThread_heldFree (s : State) (a : Agent) (i : Nat) (f : Thread → Thread) : (s.modThread a i f).heldFree = s.heldFree := by cases a <;> simp [State.modThread]
@[simp] theorem State.modThread_usedPages (s : State) (a : Agent) (i : Nat) (f : Thread → Thread) : (s.modThread a i f).usedPages = s.usedPages := by cases a <;> simp [State.modThread]
@[simp] theorem State.modThread_hbm (s : State) (a : Agent) (i : Nat) (f : Thread → Thread) : (s.modThread a i f).hbm = s.hbm := by cases a <;> simp [State.modThread]
@[simp] theorem State.modThread_poison (s : State) (a : Agent) (i : Nat) (f : Thread → Thread) : (s.modThread a i f).poison = s.poison := by cases a <;> simp [State.modThread]
@[simp] theorem State.modThread_corrected (s : State) (a : Agent) (i : Nat) (f : Thread → Thread) : (s.modThread a i f).corrected = s.corrected := by cases a <;> simp [State.modThread]
@[simp] theorem State.modThread_hchain (s : State) (a : Agent) (i : Nat) (f : Thread → Thread) : (s.modThread a i f).hchain = s.hchain := by cases a <;> simp [State.modThread]
@[simp] theorem State.modThread_chans (s : State) (a : Agent) (i : Nat) (f : Thread → Thread) : (s.modThread a i f).chans = s.chans := by cases a <;> simp [State.modThread]
@[simp] theorem State.modThread_ports (s : State) (a : Agent) (i : Nat) (f : Thread → Thread) : (s.modThread a i f).ports = s.ports := by cases a <;> simp [State.modThread]
@[simp] theorem State.modThread_power (s : State) (a : Agent) (i : Nat) (f : Thread → Thread) : (s.modThread a i f).power = s.power := by cases a <;> simp [State.modThread]
@[simp] theorem State.modThread_host (s : State) (a : Agent) (i : Nat) (f : Thread → Thread) : (s.modThread a i f).host = s.host := by cases a <;> simp [State.modThread]
@[simp] theorem State.modThread_cxl (s : State) (a : Agent) (i : Nat) (f : Thread → Thread) : (s.modThread a i f).cxl = s.cxl := by cases a <;> simp [State.modThread]
@[simp] theorem State.modThread_pfStarve (s : State) (a : Agent) (i : Nat) (f : Thread → Thread) : (s.modThread a i f).pfStarve = s.pfStarve := by cases a <;> simp [State.modThread]
@[simp] theorem State.modThread_pfNpLimit (s : State) (a : Agent) (i : Nat) (f : Thread → Thread) : (s.modThread a i f).pfNpLimit = s.pfNpLimit := by cases a <;> simp [State.modThread]
@[simp] theorem State.modThread_fns (s : State) (a : Agent) (i : Nat) (f : Thread → Thread) : (s.modThread a i f).fns = s.fns := by cases a <;> simp [State.modThread]
@[simp] theorem State.modThread_qslots (s : State) (a : Agent) (i : Nat) (f : Thread → Thread) : (s.modThread a i f).qslots = s.qslots := by cases a <;> simp [State.modThread]
@[simp] theorem State.modThread_pendBits (s : State) (a : Agent) (i : Nat) (f : Thread → Thread) : (s.modThread a i f).pendBits = s.pendBits := by cases a <;> simp [State.modThread]
@[simp] theorem State.modThread_lastServed (s : State) (a : Agent) (i : Nat) (f : Thread → Thread) : (s.modThread a i f).lastServed = s.lastServed := by cases a <;> simp [State.modThread]
@[simp] theorem State.modThread_msgs (s : State) (a : Agent) (i : Nat) (f : Thread → Thread) : (s.modThread a i f).msgs = s.msgs := by cases a <;> simp [State.modThread]
@[simp] theorem State.modThread_ops (s : State) (a : Agent) (i : Nat) (f : Thread → Thread) : (s.modThread a i f).ops = s.ops := by cases a <;> simp [State.modThread]
@[simp] theorem State.modThread_cpTurn (s : State) (a : Agent) (i : Nat) (f : Thread → Thread) : (s.modThread a i f).cpTurn = s.cpTurn := by cases a <;> simp [State.modThread]
@[simp] theorem State.modThread_tags (s : State) (a : Agent) (i : Nat) (f : Thread → Thread) : (s.modThread a i f).tags = s.tags := by cases a <;> simp [State.modThread]
@[simp] theorem State.modThread_opCtr (s : State) (a : Agent) (i : Nat) (f : Thread → Thread) : (s.modThread a i f).opCtr = s.opCtr := by cases a <;> simp [State.modThread]
@[simp] theorem State.modThread_fresh (s : State) (a : Agent) (i : Nat) (f : Thread → Thread) : (s.modThread a i f).fresh = s.fresh := by cases a <;> simp [State.modThread]
@[simp] theorem State.modThread_inputs (s : State) (a : Agent) (i : Nat) (f : Thread → Thread) : (s.modThread a i f).inputs = s.inputs := by cases a <;> simp [State.modThread]
@[simp] theorem State.modThread_agenda (s : State) (a : Agent) (i : Nat) (f : Thread → Thread) : (s.modThread a i f).agenda = s.agenda := by cases a <;> simp [State.modThread]
@[simp] theorem State.modThread_cur (s : State) (a : Agent) (i : Nat) (f : Thread → Thread) : (s.modThread a i f).cur = s.cur := by cases a <;> simp [State.modThread]
@[simp] theorem State.modThread_visited (s : State) (a : Agent) (i : Nat) (f : Thread → Thread) : (s.modThread a i f).visited = s.visited := by cases a <;> simp [State.modThread]
@[simp] theorem State.modThread_arg (s : State) (a : Agent) (i : Nat) (f : Thread → Thread) : (s.modThread a i f).arg = s.arg := by cases a <;> simp [State.modThread]
@[simp] theorem State.modHere_powered (s : State) (f : Thread → Thread) : (s.modHere f).powered = s.powered := by simp [State.modHere]
@[simp] theorem State.modHere_cycle (s : State) (f : Thread → Thread) : (s.modHere f).cycle = s.cycle := by simp [State.modHere]
@[simp] theorem State.modHere_ptime (s : State) (f : Thread → Thread) : (s.modHere f).ptime = s.ptime := by simp [State.modHere]
@[simp] theorem State.modHere_timing (s : State) (f : Thread → Thread) : (s.modHere f).timing = s.timing := by simp [State.modHere]
@[simp] theorem State.modHere_boot (s : State) (f : Thread → Thread) : (s.modHere f).boot = s.boot := by simp [State.modHere]
@[simp] theorem State.modHere_flash (s : State) (f : Thread → Thread) : (s.modHere f).flash = s.flash := by simp [State.modHere]
@[simp] theorem State.modHere_flashBad (s : State) (f : Thread → Thread) : (s.modHere f).flashBad = s.flashBad := by simp [State.modHere]
@[simp] theorem State.modHere_disabled (s : State) (f : Thread → Thread) : (s.modHere f).disabled = s.disabled := by simp [State.modHere]
@[simp] theorem State.modHere_minSecurity (s : State) (f : Thread → Thread) : (s.modHere f).minSecurity = s.minSecurity := by simp [State.modHere]
@[simp] theorem State.modHere_retired (s : State) (f : Thread → Thread) : (s.modHere f).retired = s.retired := by simp [State.modHere]
@[simp] theorem State.modHere_logical (s : State) (f : Thread → Thread) : (s.modHere f).logical = s.logical := by simp [State.modHere]
@[simp] theorem State.modHere_leases (s : State) (f : Thread → Thread) : (s.modHere f).leases = s.leases := by simp [State.modHere]
@[simp] theorem State.modHere_leader (s : State) (f : Thread → Thread) : (s.modHere f).leader = s.leader := by simp [State.modHere]
@[simp] theorem State.modHere_epoch (s : State) (f : Thread → Thread) : (s.modHere f).epoch = s.epoch := by simp [State.modHere]
@[simp] theorem State.modHere_qcnt (s : State) (f : Thread → Thread) : (s.modHere f).qcnt = s.qcnt := by simp [State.modHere]
@[simp] theorem State.modHere_qLast (s : State) (f : Thread → Thread) : (s.modHere f).qLast = s.qLast := by simp [State.modHere]
@[simp] theorem State.modHere_qOp (s : State) (f : Thread → Thread) : (s.modHere f).qOp = s.qOp := by simp [State.modHere]
@[simp] theorem State.modHere_quarantine (s : State) (f : Thread → Thread) : (s.modHere f).quarantine = s.quarantine := by simp [State.modHere]
@[simp] theorem State.modHere_heldFree (s : State) (f : Thread → Thread) : (s.modHere f).heldFree = s.heldFree := by simp [State.modHere]
@[simp] theorem State.modHere_usedPages (s : State) (f : Thread → Thread) : (s.modHere f).usedPages = s.usedPages := by simp [State.modHere]
@[simp] theorem State.modHere_hbm (s : State) (f : Thread → Thread) : (s.modHere f).hbm = s.hbm := by simp [State.modHere]
@[simp] theorem State.modHere_poison (s : State) (f : Thread → Thread) : (s.modHere f).poison = s.poison := by simp [State.modHere]
@[simp] theorem State.modHere_corrected (s : State) (f : Thread → Thread) : (s.modHere f).corrected = s.corrected := by simp [State.modHere]
@[simp] theorem State.modHere_hchain (s : State) (f : Thread → Thread) : (s.modHere f).hchain = s.hchain := by simp [State.modHere]
@[simp] theorem State.modHere_chans (s : State) (f : Thread → Thread) : (s.modHere f).chans = s.chans := by simp [State.modHere]
@[simp] theorem State.modHere_ports (s : State) (f : Thread → Thread) : (s.modHere f).ports = s.ports := by simp [State.modHere]
@[simp] theorem State.modHere_power (s : State) (f : Thread → Thread) : (s.modHere f).power = s.power := by simp [State.modHere]
@[simp] theorem State.modHere_host (s : State) (f : Thread → Thread) : (s.modHere f).host = s.host := by simp [State.modHere]
@[simp] theorem State.modHere_cxl (s : State) (f : Thread → Thread) : (s.modHere f).cxl = s.cxl := by simp [State.modHere]
@[simp] theorem State.modHere_pfStarve (s : State) (f : Thread → Thread) : (s.modHere f).pfStarve = s.pfStarve := by simp [State.modHere]
@[simp] theorem State.modHere_pfNpLimit (s : State) (f : Thread → Thread) : (s.modHere f).pfNpLimit = s.pfNpLimit := by simp [State.modHere]
@[simp] theorem State.modHere_fns (s : State) (f : Thread → Thread) : (s.modHere f).fns = s.fns := by simp [State.modHere]
@[simp] theorem State.modHere_qslots (s : State) (f : Thread → Thread) : (s.modHere f).qslots = s.qslots := by simp [State.modHere]
@[simp] theorem State.modHere_pendBits (s : State) (f : Thread → Thread) : (s.modHere f).pendBits = s.pendBits := by simp [State.modHere]
@[simp] theorem State.modHere_lastServed (s : State) (f : Thread → Thread) : (s.modHere f).lastServed = s.lastServed := by simp [State.modHere]
@[simp] theorem State.modHere_msgs (s : State) (f : Thread → Thread) : (s.modHere f).msgs = s.msgs := by simp [State.modHere]
@[simp] theorem State.modHere_ops (s : State) (f : Thread → Thread) : (s.modHere f).ops = s.ops := by simp [State.modHere]
@[simp] theorem State.modHere_cpTurn (s : State) (f : Thread → Thread) : (s.modHere f).cpTurn = s.cpTurn := by simp [State.modHere]
@[simp] theorem State.modHere_tags (s : State) (f : Thread → Thread) : (s.modHere f).tags = s.tags := by simp [State.modHere]
@[simp] theorem State.modHere_opCtr (s : State) (f : Thread → Thread) : (s.modHere f).opCtr = s.opCtr := by simp [State.modHere]
@[simp] theorem State.modHere_fresh (s : State) (f : Thread → Thread) : (s.modHere f).fresh = s.fresh := by simp [State.modHere]
@[simp] theorem State.modHere_inputs (s : State) (f : Thread → Thread) : (s.modHere f).inputs = s.inputs := by simp [State.modHere]
@[simp] theorem State.modHere_agenda (s : State) (f : Thread → Thread) : (s.modHere f).agenda = s.agenda := by simp [State.modHere]
@[simp] theorem State.modHere_cur (s : State) (f : Thread → Thread) : (s.modHere f).cur = s.cur := by simp [State.modHere]
@[simp] theorem State.modHere_visited (s : State) (f : Thread → Thread) : (s.modHere f).visited = s.visited := by simp [State.modHere]
@[simp] theorem State.modHere_arg (s : State) (f : Thread → Thread) : (s.modHere f).arg = s.arg := by simp [State.modHere]
@[simp] theorem State.modHereTile_powered (s : State) (f : Tile → Tile) : (s.modHereTile f).powered = s.powered := by unfold State.modHereTile; split <;> rfl
@[simp] theorem State.modHereTile_cycle (s : State) (f : Tile → Tile) : (s.modHereTile f).cycle = s.cycle := by unfold State.modHereTile; split <;> rfl
@[simp] theorem State.modHereTile_ptime (s : State) (f : Tile → Tile) : (s.modHereTile f).ptime = s.ptime := by unfold State.modHereTile; split <;> rfl
@[simp] theorem State.modHereTile_timing (s : State) (f : Tile → Tile) : (s.modHereTile f).timing = s.timing := by unfold State.modHereTile; split <;> rfl
@[simp] theorem State.modHereTile_boot (s : State) (f : Tile → Tile) : (s.modHereTile f).boot = s.boot := by unfold State.modHereTile; split <;> rfl
@[simp] theorem State.modHereTile_flash (s : State) (f : Tile → Tile) : (s.modHereTile f).flash = s.flash := by unfold State.modHereTile; split <;> rfl
@[simp] theorem State.modHereTile_flashBad (s : State) (f : Tile → Tile) : (s.modHereTile f).flashBad = s.flashBad := by unfold State.modHereTile; split <;> rfl
@[simp] theorem State.modHereTile_disabled (s : State) (f : Tile → Tile) : (s.modHereTile f).disabled = s.disabled := by unfold State.modHereTile; split <;> rfl
@[simp] theorem State.modHereTile_minSecurity (s : State) (f : Tile → Tile) : (s.modHereTile f).minSecurity = s.minSecurity := by unfold State.modHereTile; split <;> rfl
@[simp] theorem State.modHereTile_retired (s : State) (f : Tile → Tile) : (s.modHereTile f).retired = s.retired := by unfold State.modHereTile; split <;> rfl
@[simp] theorem State.modHereTile_logical (s : State) (f : Tile → Tile) : (s.modHereTile f).logical = s.logical := by unfold State.modHereTile; split <;> rfl
@[simp] theorem State.modHereTile_leases (s : State) (f : Tile → Tile) : (s.modHereTile f).leases = s.leases := by unfold State.modHereTile; split <;> rfl
@[simp] theorem State.modHereTile_leader (s : State) (f : Tile → Tile) : (s.modHereTile f).leader = s.leader := by unfold State.modHereTile; split <;> rfl
@[simp] theorem State.modHereTile_epoch (s : State) (f : Tile → Tile) : (s.modHereTile f).epoch = s.epoch := by unfold State.modHereTile; split <;> rfl
@[simp] theorem State.modHereTile_qcnt (s : State) (f : Tile → Tile) : (s.modHereTile f).qcnt = s.qcnt := by unfold State.modHereTile; split <;> rfl
@[simp] theorem State.modHereTile_qLast (s : State) (f : Tile → Tile) : (s.modHereTile f).qLast = s.qLast := by unfold State.modHereTile; split <;> rfl
@[simp] theorem State.modHereTile_qOp (s : State) (f : Tile → Tile) : (s.modHereTile f).qOp = s.qOp := by unfold State.modHereTile; split <;> rfl
@[simp] theorem State.modHereTile_quarantine (s : State) (f : Tile → Tile) : (s.modHereTile f).quarantine = s.quarantine := by unfold State.modHereTile; split <;> rfl
@[simp] theorem State.modHereTile_heldFree (s : State) (f : Tile → Tile) : (s.modHereTile f).heldFree = s.heldFree := by unfold State.modHereTile; split <;> rfl
@[simp] theorem State.modHereTile_usedPages (s : State) (f : Tile → Tile) : (s.modHereTile f).usedPages = s.usedPages := by unfold State.modHereTile; split <;> rfl
@[simp] theorem State.modHereTile_hbm (s : State) (f : Tile → Tile) : (s.modHereTile f).hbm = s.hbm := by unfold State.modHereTile; split <;> rfl
@[simp] theorem State.modHereTile_poison (s : State) (f : Tile → Tile) : (s.modHereTile f).poison = s.poison := by unfold State.modHereTile; split <;> rfl
@[simp] theorem State.modHereTile_corrected (s : State) (f : Tile → Tile) : (s.modHereTile f).corrected = s.corrected := by unfold State.modHereTile; split <;> rfl
@[simp] theorem State.modHereTile_ctrls (s : State) (f : Tile → Tile) : (s.modHereTile f).ctrls = s.ctrls := by unfold State.modHereTile; split <;> rfl
@[simp] theorem State.modHereTile_hchain (s : State) (f : Tile → Tile) : (s.modHereTile f).hchain = s.hchain := by unfold State.modHereTile; split <;> rfl
@[simp] theorem State.modHereTile_chans (s : State) (f : Tile → Tile) : (s.modHereTile f).chans = s.chans := by unfold State.modHereTile; split <;> rfl
@[simp] theorem State.modHereTile_ports (s : State) (f : Tile → Tile) : (s.modHereTile f).ports = s.ports := by unfold State.modHereTile; split <;> rfl
@[simp] theorem State.modHereTile_power (s : State) (f : Tile → Tile) : (s.modHereTile f).power = s.power := by unfold State.modHereTile; split <;> rfl
@[simp] theorem State.modHereTile_host (s : State) (f : Tile → Tile) : (s.modHereTile f).host = s.host := by unfold State.modHereTile; split <;> rfl
@[simp] theorem State.modHereTile_cxl (s : State) (f : Tile → Tile) : (s.modHereTile f).cxl = s.cxl := by unfold State.modHereTile; split <;> rfl
@[simp] theorem State.modHereTile_pfStarve (s : State) (f : Tile → Tile) : (s.modHereTile f).pfStarve = s.pfStarve := by unfold State.modHereTile; split <;> rfl
@[simp] theorem State.modHereTile_pfNpLimit (s : State) (f : Tile → Tile) : (s.modHereTile f).pfNpLimit = s.pfNpLimit := by unfold State.modHereTile; split <;> rfl
@[simp] theorem State.modHereTile_fns (s : State) (f : Tile → Tile) : (s.modHereTile f).fns = s.fns := by unfold State.modHereTile; split <;> rfl
@[simp] theorem State.modHereTile_qslots (s : State) (f : Tile → Tile) : (s.modHereTile f).qslots = s.qslots := by unfold State.modHereTile; split <;> rfl
@[simp] theorem State.modHereTile_pendBits (s : State) (f : Tile → Tile) : (s.modHereTile f).pendBits = s.pendBits := by unfold State.modHereTile; split <;> rfl
@[simp] theorem State.modHereTile_lastServed (s : State) (f : Tile → Tile) : (s.modHereTile f).lastServed = s.lastServed := by unfold State.modHereTile; split <;> rfl
@[simp] theorem State.modHereTile_msgs (s : State) (f : Tile → Tile) : (s.modHereTile f).msgs = s.msgs := by unfold State.modHereTile; split <;> rfl
@[simp] theorem State.modHereTile_ops (s : State) (f : Tile → Tile) : (s.modHereTile f).ops = s.ops := by unfold State.modHereTile; split <;> rfl
@[simp] theorem State.modHereTile_cpTurn (s : State) (f : Tile → Tile) : (s.modHereTile f).cpTurn = s.cpTurn := by unfold State.modHereTile; split <;> rfl
@[simp] theorem State.modHereTile_tags (s : State) (f : Tile → Tile) : (s.modHereTile f).tags = s.tags := by unfold State.modHereTile; split <;> rfl
@[simp] theorem State.modHereTile_opCtr (s : State) (f : Tile → Tile) : (s.modHereTile f).opCtr = s.opCtr := by unfold State.modHereTile; split <;> rfl
@[simp] theorem State.modHereTile_fresh (s : State) (f : Tile → Tile) : (s.modHereTile f).fresh = s.fresh := by unfold State.modHereTile; split <;> rfl
@[simp] theorem State.modHereTile_inputs (s : State) (f : Tile → Tile) : (s.modHereTile f).inputs = s.inputs := by unfold State.modHereTile; split <;> rfl
@[simp] theorem State.modHereTile_agenda (s : State) (f : Tile → Tile) : (s.modHereTile f).agenda = s.agenda := by unfold State.modHereTile; split <;> rfl
@[simp] theorem State.modHereTile_cur (s : State) (f : Tile → Tile) : (s.modHereTile f).cur = s.cur := by unfold State.modHereTile; split <;> rfl
@[simp] theorem State.modHereTile_visited (s : State) (f : Tile → Tile) : (s.modHereTile f).visited = s.visited := by unfold State.modHereTile; split <;> rfl
@[simp] theorem State.modHereTile_arg (s : State) (f : Tile → Tile) : (s.modHereTile f).arg = s.arg := by unfold State.modHereTile; split <;> rfl

/-! ### `Partition.modTile` -/

@[simp] theorem Partition.modTile_valid (P : Partition) (t : Nat) (f : Tile → Tile) : (P.modTile t f).valid = P.valid := rfl
@[simp] theorem Partition.modTile_base (P : Partition) (t : Nat) (f : Tile → Tile) : (P.modTile t f).base = P.base := rfl
@[simp] theorem Partition.modTile_len (P : Partition) (t : Nat) (f : Tile → Tile) : (P.modTile t f).len = P.len := rfl
@[simp] theorem Partition.modTile_wire (P : Partition) (t : Nat) (f : Tile → Tile) : (P.modTile t f).wire = P.wire := rfl
@[simp] theorem Partition.modTile_wireSlots (P : Partition) (t : Nat) (f : Tile → Tile) : (P.modTile t f).wireSlots = P.wireSlots := rfl
@[simp] theorem Partition.modTile_redSlots (P : Partition) (t : Nat) (f : Tile → Tile) : (P.modTile t f).redSlots = P.redSlots := rfl
@[simp] theorem Partition.modTile_nrec (P : Partition) (t : Nat) (f : Tile → Tile) : (P.modTile t f).nrec = P.nrec := rfl
@[simp] theorem Partition.modTile_trans (P : Partition) (t : Nat) (f : Tile → Tile) : (P.modTile t f).trans = P.trans := rfl
@[simp] theorem Partition.modTile_transTlb (P : Partition) (t : Nat) (f : Tile → Tile) : (P.modTile t f).transTlb = P.transTlb := rfl
@[simp] theorem Partition.modTile_transBuild (P : Partition) (t : Nat) (f : Tile → Tile) : (P.modTile t f).transBuild = P.transBuild := rfl
@[simp] theorem Partition.modTile_transNow (P : Partition) (t : Nat) (f : Tile → Tile) : (P.modTile t f).transNow = P.transNow := rfl
@[simp] theorem Partition.modTile_run (P : Partition) (t : Nat) (f : Tile → Tile) : (P.modTile t f).run = P.run := rfl
@[simp] theorem Partition.modTile_ssn (P : Partition) (t : Nat) (f : Tile → Tile) : (P.modTile t f).ssn = P.ssn := rfl
@[simp] theorem Partition.modTile_bred (P : Partition) (t : Nat) (f : Tile → Tile) : (P.modTile t f).bred = P.bred := rfl
@[simp] theorem Partition.modTile_lead (P : Partition) (t : Nat) (f : Tile → Tile) : (P.modTile t f).lead = P.lead := rfl
@[simp] theorem Partition.modTile_sinceLate (P : Partition) (t : Nat) (f : Tile → Tile) : (P.modTile t f).sinceLate = P.sinceLate := rfl
@[simp] theorem Partition.modTile_washes (P : Partition) (t : Nat) (f : Tile → Tile) : (P.modTile t f).washes = P.washes := rfl
@[simp] theorem Partition.modTile_washRuns (P : Partition) (t : Nat) (f : Tile → Tile) : (P.modTile t f).washRuns = P.washRuns := rfl
@[simp] theorem Partition.modTile_dogFrom (P : Partition) (t : Nat) (f : Tile → Tile) : (P.modTile t f).dogFrom = P.dogFrom := rfl
@[simp] theorem Partition.modTile_dogFired (P : Partition) (t : Nat) (f : Tile → Tile) : (P.modTile t f).dogFired = P.dogFired := rfl
@[simp] theorem Partition.modTile_lastFixAt (P : Partition) (t : Nat) (f : Tile → Tile) : (P.modTile t f).lastFixAt = P.lastFixAt := rfl
@[simp] theorem Partition.modTile_fixAt (P : Partition) (t : Nat) (f : Tile → Tile) : (P.modTile t f).fixAt = P.fixAt := rfl
@[simp] theorem Partition.modTile_issueFrom (P : Partition) (t : Nat) (f : Tile → Tile) : (P.modTile t f).issueFrom = P.issueFrom := rfl
@[simp] theorem Partition.modTile_seed (P : Partition) (t : Nat) (f : Tile → Tile) : (P.modTile t f).seed = P.seed := rfl
@[simp] theorem Partition.modTile_stops (P : Partition) (t : Nat) (f : Tile → Tile) : (P.modTile t f).stops = P.stops := rfl
@[simp] theorem Partition.modTile_sheet (P : Partition) (t : Nat) (f : Tile → Tile) : (P.modTile t f).sheet = P.sheet := rfl
@[simp] theorem Partition.modTile_launch (P : Partition) (t : Nat) (f : Tile → Tile) : (P.modTile t f).launch = P.launch := rfl
@[simp] theorem Partition.modTile_recs (P : Partition) (t : Nat) (f : Tile → Tile) : (P.modTile t f).recs = P.recs := rfl
@[simp] theorem Partition.modTile_nextOrder (P : Partition) (t : Nat) (f : Tile → Tile) : (P.modTile t f).nextOrder = P.nextOrder := rfl
@[simp] theorem Partition.modTile_reqs (P : Partition) (t : Nat) (f : Tile → Tile) : (P.modTile t f).reqs = P.reqs := rfl
@[simp] theorem Partition.modTile_outs (P : Partition) (t : Nat) (f : Tile → Tile) : (P.modTile t f).outs = P.outs := rfl
@[simp] theorem Partition.modTile_stale (P : Partition) (t : Nat) (f : Tile → Tile) : (P.modTile t f).stale = P.stale := rfl
@[simp] theorem Partition.modTile_wb (P : Partition) (t : Nat) (f : Tile → Tile) : (P.modTile t f).wb = P.wb := rfl
@[simp] theorem Partition.modTile_held (P : Partition) (t : Nat) (f : Tile → Tile) : (P.modTile t f).held = P.held := rfl
@[simp] theorem Partition.modTile_drains (P : Partition) (t : Nat) (f : Tile → Tile) : (P.modTile t f).drains = P.drains := rfl
@[simp] theorem Partition.modTile_codeOld (P : Partition) (t : Nat) (f : Tile → Tile) : (P.modTile t f).codeOld = P.codeOld := rfl
@[simp] theorem Partition.modTile_decision (P : Partition) (t : Nat) (f : Tile → Tile) : (P.modTile t f).decision = P.decision := rfl
@[simp] theorem Partition.modTile_flipAt (P : Partition) (t : Nat) (f : Tile → Tile) : (P.modTile t f).flipAt = P.flipAt := rfl
@[simp] theorem Partition.modTile_remote (P : Partition) (t : Nat) (f : Tile → Tile) : (P.modTile t f).remote = P.remote := rfl
@[simp] theorem Partition.modTile_events (P : Partition) (t : Nat) (f : Tile → Tile) : (P.modTile t f).events = P.events := rfl
@[simp] theorem Partition.modTile_exchS (P : Partition) (t : Nat) (f : Tile → Tile) : (P.modTile t f).exchS = P.exchS := rfl
@[simp] theorem Partition.modTile_exchSkew (P : Partition) (t : Nat) (f : Tile → Tile) : (P.modTile t f).exchSkew = P.exchSkew := rfl
@[simp] theorem Partition.modTile_xbar (P : Partition) (t : Nat) (f : Tile → Tile) : (P.modTile t f).xbar = P.xbar := rfl
@[simp] theorem Partition.modTile_arbitrated (P : Partition) (t : Nat) (f : Tile → Tile) : (P.modTile t f).arbitrated = P.arbitrated := rfl
@[simp] theorem Partition.modTile_regen (P : Partition) (t : Nat) (f : Tile → Tile) : (P.modTile t f).regen = P.regen := rfl
@[simp] theorem Partition.modTile_sysGroup (P : Partition) (t : Nat) (f : Tile → Tile) : (P.modTile t f).sysGroup = P.sysGroup := rfl
@[simp] theorem Partition.modTile_links (P : Partition) (t : Nat) (f : Tile → Tile) : (P.modTile t f).links = P.links := rfl
@[simp] theorem Partition.modTile_up (P : Partition) (t : Nat) (f : Tile → Tile) : (P.modTile t f).up = P.up := rfl
@[simp] theorem Partition.modTile_down (P : Partition) (t : Nat) (f : Tile → Tile) : (P.modTile t f).down = P.down := rfl
@[simp] theorem Partition.modTile_kids (P : Partition) (t : Nat) (f : Tile → Tile) : (P.modTile t f).kids = P.kids := rfl
@[simp] theorem Partition.modTile_sentUp (P : Partition) (t : Nat) (f : Tile → Tile) : (P.modTile t f).sentUp = P.sentUp := rfl
@[simp] theorem Partition.modTile_flight (P : Partition) (t : Nat) (f : Tile → Tile) : (P.modTile t f).flight = P.flight := rfl
@[simp] theorem Partition.modTile_failedPorts (P : Partition) (t : Nat) (f : Tile → Tile) : (P.modTile t f).failedPorts = P.failedPorts := rfl
@[simp] theorem Partition.modTile_inPorts (P : Partition) (t : Nat) (f : Tile → Tile) : (P.modTile t f).inPorts = P.inPorts := rfl
@[simp] theorem Partition.modTile_reduced (P : Partition) (t : Nat) (f : Tile → Tile) : (P.modTile t f).reduced = P.reduced := rfl
@[simp] theorem Partition.modTile_reducing (P : Partition) (t : Nat) (f : Tile → Tile) : (P.modTile t f).reducing = P.reducing := rfl
@[simp] theorem Partition.modTile_podwt (P : Partition) (t : Nat) (f : Tile → Tile) : (P.modTile t f).podwt = P.podwt := rfl
@[simp] theorem Partition.modTile_arb (P : Partition) (t : Nat) (f : Tile → Tile) : (P.modTile t f).arb = P.arb := rfl
@[simp] theorem Partition.modTile_arrayEnd (P : Partition) (t : Nat) (f : Tile → Tile) : (P.modTile t f).arrayEnd = P.arrayEnd := rfl
@[simp] theorem Partition.modTile_thermalHeld (P : Partition) (t : Nat) (f : Tile → Tile) : (P.modTile t f).thermalHeld = P.thermalHeld := rfl
@[simp] theorem Partition.modTile_shadow (P : Partition) (t : Nat) (f : Tile → Tile) : (P.modTile t f).shadow = P.shadow := rfl
@[simp] theorem Partition.modTile_restored (P : Partition) (t : Nat) (f : Tile → Tile) : (P.modTile t f).restored = P.restored := rfl
@[simp] theorem Partition.modTile_releasing (P : Partition) (t : Nat) (f : Tile → Tile) : (P.modTile t f).releasing = P.releasing := rfl
@[simp] theorem Partition.modTile_dogHeld (P : Partition) (t : Nat) (f : Tile → Tile) : (P.modTile t f).dogHeld = P.dogHeld := rfl
@[simp] theorem Partition.modTile_monitors (P : Partition) (t : Nat) (f : Tile → Tile) : (P.modTile t f).monitors = P.monitors := rfl
@[simp] theorem Partition.modTile_saveFn (P : Partition) (t : Nat) (f : Tile → Tile) : (P.modTile t f).saveFn = P.saveFn := rfl
@[simp] theorem Partition.modTile_saveAlso (P : Partition) (t : Nat) (f : Tile → Tile) : (P.modTile t f).saveAlso = P.saveAlso := rfl
@[simp] theorem Partition.modTile_savePrio (P : Partition) (t : Nat) (f : Tile → Tile) : (P.modTile t f).savePrio = P.savePrio := rfl
@[simp] theorem Partition.modTile_saveSlot (P : Partition) (t : Nat) (f : Tile → Tile) : (P.modTile t f).saveSlot = P.saveSlot := rfl
@[simp] theorem Partition.modTile_lostData (P : Partition) (t : Nat) (f : Tile → Tile) : (P.modTile t f).lostData = P.lostData := rfl
@[simp] theorem Partition.modTile_tileErrs (P : Partition) (t : Nat) (f : Tile → Tile) : (P.modTile t f).tileErrs = P.tileErrs := rfl
@[simp] theorem Partition.modTile_retiring (P : Partition) (t : Nat) (f : Tile → Tile) : (P.modTile t f).retiring = P.retiring := rfl
@[simp] theorem Partition.modTile_sliceTo (P : Partition) (t : Nat) (f : Tile → Tile) : (P.modTile t f).sliceTo = P.sliceTo := rfl
@[simp] theorem Partition.modTile_runFn (P : Partition) (t : Nat) (f : Tile → Tile) : (P.modTile t f).runFn = P.runFn := rfl
@[simp] theorem Partition.modTile_sliceFrom (P : Partition) (t : Nat) (f : Tile → Tile) : (P.modTile t f).sliceFrom = P.sliceFrom := rfl

/-! ### `Tile.modThread` -/

@[simp] theorem Tile.modThread_w (T : Tile) (i : Nat) (f : Thread → Thread) : (T.modThread i f).w = T.w := rfl
@[simp] theorem Tile.modThread_a (T : Tile) (i : Nat) (f : Thread → Thread) : (T.modThread i f).a = T.a := rfl
@[simp] theorem Tile.modThread_c (T : Tile) (i : Nat) (f : Thread → Thread) : (T.modThread i f).c = T.c := rfl
@[simp] theorem Tile.modThread_latent (T : Tile) (i : Nat) (f : Thread → Thread) : (T.modThread i f).latent = T.latent := rfl
@[simp] theorem Tile.modThread_granules (T : Tile) (i : Nat) (f : Thread → Thread) : (T.modThread i f).granules = T.granules := rfl
@[simp] theorem Tile.modThread_copyBack (T : Tile) (i : Nat) (f : Thread → Thread) : (T.modThread i f).copyBack = T.copyBack := rfl
@[simp] theorem Tile.modThread_fmt (T : Tile) (i : Nat) (f : Thread → Thread) : (T.modThread i f).fmt = T.fmt := rfl
@[simp] theorem Tile.modThread_fmtC (T : Tile) (i : Nat) (f : Thread → Thread) : (T.modThread i f).fmtC = T.fmtC := rfl
@[simp] theorem Tile.modThread_rings (T : Tile) (i : Nat) (f : Thread → Thread) : (T.modThread i f).rings = T.rings := rfl
@[simp] theorem Tile.modThread_ringsC (T : Tile) (i : Nat) (f : Thread → Thread) : (T.modThread i f).ringsC = T.ringsC := rfl
@[simp] theorem Tile.modThread_ringHb (T : Tile) (i : Nat) (f : Thread → Thread) : (T.modThread i f).ringHb = T.ringHb := rfl
@[simp] theorem Tile.modThread_queues (T : Tile) (i : Nat) (f : Thread → Thread) : (T.modThread i f).queues = T.queues := rfl
@[simp] theorem Tile.modThread_slots (T : Tile) (i : Nat) (f : Thread → Thread) : (T.modThread i f).slots = T.slots := rfl
@[simp] theorem Tile.modThread_flpa (T : Tile) (i : Nat) (f : Thread → Thread) : (T.modThread i f).flpa = T.flpa := rfl
@[simp] theorem Tile.modThread_flpn (T : Tile) (i : Nat) (f : Thread → Thread) : (T.modThread i f).flpn = T.flpn := rfl
@[simp] theorem Tile.modThread_flpaC (T : Tile) (i : Nat) (f : Thread → Thread) : (T.modThread i f).flpaC = T.flpaC := rfl
@[simp] theorem Tile.modThread_flpnC (T : Tile) (i : Nat) (f : Thread → Thread) : (T.modThread i f).flpnC = T.flpnC := rfl
@[simp] theorem Tile.modThread_ext (T : Tile) (i : Nat) (f : Thread → Thread) : (T.modThread i f).ext = T.ext := rfl
@[simp] theorem Tile.modThread_spare (T : Tile) (i : Nat) (f : Thread → Thread) : (T.modThread i f).spare = T.spare := rfl
@[simp] theorem Tile.modThread_building (T : Tile) (i : Nat) (f : Thread → Thread) : (T.modThread i f).building = T.building := rfl
@[simp] theorem Tile.modThread_build (T : Tile) (i : Nat) (f : Thread → Thread) : (T.modThread i f).build = T.build := rfl
@[simp] theorem Tile.modThread_append (T : Tile) (i : Nat) (f : Thread → Thread) : (T.modThread i f).append = T.append := rfl
@[simp] theorem Tile.modThread_appendFull (T : Tile) (i : Nat) (f : Thread → Thread) : (T.modThread i f).appendFull = T.appendFull := rfl
@[simp] theorem Tile.modThread_appended (T : Tile) (i : Nat) (f : Thread → Thread) : (T.modThread i f).appended = T.appended := rfl
@[simp] theorem Tile.modThread_appendedFull (T : Tile) (i : Nat) (f : Thread → Thread) : (T.modThread i f).appendedFull = T.appendedFull := rfl
@[simp] theorem Tile.modThread_lines (T : Tile) (i : Nat) (f : Thread → Thread) : (T.modThread i f).lines = T.lines := rfl
@[simp] theorem Tile.modThread_fetching (T : Tile) (i : Nat) (f : Thread → Thread) : (T.modThread i f).fetching = T.fetching := rfl
@[simp] theorem Tile.modThread_flt (T : Tile) (i : Nat) (f : Thread → Thread) : (T.modThread i f).flt = T.flt := rfl
@[simp] theorem Tile.modThread_fltd (T : Tile) (i : Nat) (f : Thread → Thread) : (T.modThread i f).fltd = T.fltd := rfl
@[simp] theorem Tile.modThread_curTh (T : Tile) (i : Nat) (f : Thread → Thread) : (T.modThread i f).curTh = T.curTh := rfl
@[simp] theorem Tile.modThread_consec (T : Tile) (i : Nat) (f : Thread → Thread) : (T.modThread i f).consec = T.consec := rfl
@[simp] theorem Tile.modThread_lastIssue (T : Tile) (i : Nat) (f : Thread → Thread) : (T.modThread i f).lastIssue = T.lastIssue := rfl
@[simp] theorem Tile.modThread_faults (T : Tile) (i : Nat) (f : Thread → Thread) : (T.modThread i f).faults = T.faults := rfl
@[simp] theorem Tile.modThread_flost (T : Tile) (i : Nat) (f : Thread → Thread) : (T.modThread i f).flost = T.flost := rfl
@[simp] theorem Tile.modThread_barrier (T : Tile) (i : Nat) (f : Thread → Thread) : (T.modThread i f).barrier = T.barrier := rfl
@[simp] theorem Tile.modThread_raisers (T : Tile) (i : Nat) (f : Thread → Thread) : (T.modThread i f).raisers = T.raisers := rfl
@[simp] theorem Tile.modThread_released (T : Tile) (i : Nat) (f : Thread → Thread) : (T.modThread i f).released = T.released := rfl
@[simp] theorem Tile.modThread_voted (T : Tile) (i : Nat) (f : Thread → Thread) : (T.modThread i f).voted = T.voted := rfl
@[simp] theorem Tile.modThread_contribs (T : Tile) (i : Nat) (f : Thread → Thread) : (T.modThread i f).contribs = T.contribs := rfl
@[simp] theorem Tile.modThread_streamed (T : Tile) (i : Nat) (f : Thread → Thread) : (T.modThread i f).streamed = T.streamed := rfl
@[simp] theorem Tile.modThread_landed (T : Tile) (i : Nat) (f : Thread → Thread) : (T.modThread i f).landed = T.landed := rfl
@[simp] theorem Tile.modThread_syncHb (T : Tile) (i : Nat) (f : Thread → Thread) : (T.modThread i f).syncHb = T.syncHb := rfl
@[simp] theorem Tile.modThread_stopIssue (T : Tile) (i : Nat) (f : Thread → Thread) : (T.modThread i f).stopIssue = T.stopIssue := rfl
@[simp] theorem Tile.modThread_saved (T : Tile) (i : Nat) (f : Thread → Thread) : (T.modThread i f).saved = T.saved := rfl
@[simp] theorem Tile.modThread_finRanges (T : Tile) (i : Nat) (f : Thread → Thread) : (T.modThread i f).finRanges = T.finRanges := rfl

/-! ### `Thread.orFlags` -/

@[simp] theorem Thread.orFlags_task (t : Thread) (f : Byte) : (t.orFlags f).task = t.task := rfl
@[simp] theorem Thread.orFlags_mode (t : Thread) (f : Byte) : (t.orFlags f).mode = t.mode := rfl
@[simp] theorem Thread.orFlags_pc (t : Thread) (f : Byte) : (t.orFlags f).pc = t.pc := rfl
@[simp] theorem Thread.orFlags_regs (t : Thread) (f : Byte) : (t.orFlags f).regs = t.regs := rfl
@[simp] theorem Thread.orFlags_preds (t : Thread) (f : Byte) : (t.orFlags f).preds = t.preds := rfl
@[simp] theorem Thread.orFlags_lb (t : Thread) (f : Byte) : (t.orFlags f).lb = t.lb := rfl
@[simp] theorem Thread.orFlags_le (t : Thread) (f : Byte) : (t.orFlags f).le = t.le := rfl
@[simp] theorem Thread.orFlags_lc (t : Thread) (f : Byte) : (t.orFlags f).lc = t.lc := rfl
@[simp] theorem Thread.orFlags_pend (t : Thread) (f : Byte) : (t.orFlags f).pend = t.pend := rfl
@[simp] theorem Thread.orFlags_readyAt (t : Thread) (f : Byte) : (t.orFlags f).readyAt = t.readyAt := rfl
@[simp] theorem Thread.orFlags_wait (t : Thread) (f : Byte) : (t.orFlags f).wait = t.wait := rfl
@[simp] theorem Thread.orFlags_waitFrom (t : Thread) (f : Byte) : (t.orFlags f).waitFrom = t.waitFrom := rfl
@[simp] theorem Thread.orFlags_unit (t : Thread) (f : Byte) : (t.orFlags f).unit = t.unit := rfl
@[simp] theorem Thread.orFlags_coord (t : Thread) (f : Byte) : (t.orFlags f).coord = t.coord := rfl
@[simp] theorem Thread.orFlags_par (t : Thread) (f : Byte) : (t.orFlags f).par = t.par := rfl
@[simp] theorem Thread.orFlags_ct (t : Thread) (f : Byte) : (t.orFlags f).ct = t.ct := rfl
@[simp] theorem Thread.orFlags_slim (t : Thread) (f : Byte) : (t.orFlags f).slim = t.slim := rfl
@[simp] theorem Thread.orFlags_oob (t : Thread) (f : Byte) : (t.orFlags f).oob = t.oob := rfl
@[simp] theorem Thread.orFlags_clamp (t : Thread) (f : Byte) : (t.orFlags f).clamp = t.clamp := rfl
@[simp] theorem Thread.orFlags_drop (t : Thread) (f : Byte) : (t.orFlags f).drop = t.drop := rfl
@[simp] theorem Thread.orFlags_ceil (t : Thread) (f : Byte) : (t.orFlags f).ceil = t.ceil := rfl
@[simp] theorem Thread.orFlags_lrerr (t : Thread) (f : Byte) : (t.orFlags f).lrerr = t.lrerr := rfl
@[simp] theorem Thread.orFlags_tvec (t : Thread) (f : Byte) : (t.orFlags f).tvec = t.tvec := rfl
@[simp] theorem Thread.orFlags_tepc (t : Thread) (f : Byte) : (t.orFlags f).tepc = t.tepc := rfl
@[simp] theorem Thread.orFlags_tcause (t : Thread) (f : Byte) : (t.orFlags f).tcause = t.tcause := rfl
@[simp] theorem Thread.orFlags_tpvote (t : Thread) (f : Byte) : (t.orFlags f).tpvote = t.tpvote := rfl
@[simp] theorem Thread.orFlags_tforced (t : Thread) (f : Byte) : (t.orFlags f).tforced = t.tforced := rfl
@[simp] theorem Thread.orFlags_tpfx (t : Thread) (f : Byte) : (t.orFlags f).tpfx = t.tpfx := rfl
@[simp] theorem Thread.orFlags_tchain (t : Thread) (f : Byte) : (t.orFlags f).tchain = t.tchain := rfl
@[simp] theorem Thread.orFlags_thops (t : Thread) (f : Byte) : (t.orFlags f).thops = t.thops := rfl
@[simp] theorem Thread.orFlags_tdet (t : Thread) (f : Byte) : (t.orFlags f).tdet = t.tdet := rfl
@[simp] theorem Thread.orFlags_vote (t : Thread) (f : Byte) : (t.orFlags f).vote = t.vote := rfl
@[simp] theorem Thread.orFlags_hvote (t : Thread) (f : Byte) : (t.orFlags f).hvote = t.hvote := rfl
@[simp] theorem Thread.orFlags_vor (t : Thread) (f : Byte) : (t.orFlags f).vor = t.vor := rfl
@[simp] theorem Thread.orFlags_vmax (t : Thread) (f : Byte) : (t.orFlags f).vmax = t.vmax := rfl
@[simp] theorem Thread.orFlags_vdet (t : Thread) (f : Byte) : (t.orFlags f).vdet = t.vdet := rfl
@[simp] theorem Thread.orFlags_atfix (t : Thread) (f : Byte) : (t.orFlags f).atfix = t.atfix := rfl
@[simp] theorem Thread.orFlags_fixRec (t : Thread) (f : Byte) : (t.orFlags f).fixRec = t.fixRec := rfl
@[simp] theorem Thread.orFlags_committed (t : Thread) (f : Byte) : (t.orFlags f).committed = t.committed := rfl
@[simp] theorem Thread.orFlags_xsynced (t : Thread) (f : Byte) : (t.orFlags f).xsynced = t.xsynced := rfl
@[simp] theorem Thread.orFlags_rounds (t : Thread) (f : Byte) : (t.orFlags f).rounds = t.rounds := rfl
@[simp] theorem Thread.orFlags_seq (t : Thread) (f : Byte) : (t.orFlags f).seq = t.seq := rfl
@[simp] theorem Thread.orFlags_hb (t : Thread) (f : Byte) : (t.orFlags f).hb = t.hb := rfl
@[simp] theorem Thread.orFlags_relF (t : Thread) (f : Byte) : (t.orFlags f).relF = t.relF := rfl
@[simp] theorem Thread.orFlags_seen (t : Thread) (f : Byte) : (t.orFlags f).seen = t.seen := rfl
@[simp] theorem Thread.orFlags_handling (t : Thread) (f : Byte) : (t.orFlags f).handling = t.handling := rfl

/-! ### `Thread.keepClear` and `Thread.orNow` -/

@[simp] theorem Thread.keepClear_task (t : Thread) (c : Nat) (n : BitVec 12) (m : Word) : (t.keepClear c n m).task = t.task := rfl
@[simp] theorem Thread.keepClear_mode (t : Thread) (c : Nat) (n : BitVec 12) (m : Word) : (t.keepClear c n m).mode = t.mode := rfl
@[simp] theorem Thread.keepClear_pc (t : Thread) (c : Nat) (n : BitVec 12) (m : Word) : (t.keepClear c n m).pc = t.pc := rfl
@[simp] theorem Thread.keepClear_regs (t : Thread) (c : Nat) (n : BitVec 12) (m : Word) : (t.keepClear c n m).regs = t.regs := rfl
@[simp] theorem Thread.keepClear_preds (t : Thread) (c : Nat) (n : BitVec 12) (m : Word) : (t.keepClear c n m).preds = t.preds := rfl
@[simp] theorem Thread.keepClear_lb (t : Thread) (c : Nat) (n : BitVec 12) (m : Word) : (t.keepClear c n m).lb = t.lb := rfl
@[simp] theorem Thread.keepClear_le (t : Thread) (c : Nat) (n : BitVec 12) (m : Word) : (t.keepClear c n m).le = t.le := rfl
@[simp] theorem Thread.keepClear_lc (t : Thread) (c : Nat) (n : BitVec 12) (m : Word) : (t.keepClear c n m).lc = t.lc := rfl
@[simp] theorem Thread.keepClear_readyAt (t : Thread) (c : Nat) (n : BitVec 12) (m : Word) : (t.keepClear c n m).readyAt = t.readyAt := rfl
@[simp] theorem Thread.keepClear_wait (t : Thread) (c : Nat) (n : BitVec 12) (m : Word) : (t.keepClear c n m).wait = t.wait := rfl
@[simp] theorem Thread.keepClear_waitFrom (t : Thread) (c : Nat) (n : BitVec 12) (m : Word) : (t.keepClear c n m).waitFrom = t.waitFrom := rfl
@[simp] theorem Thread.keepClear_unit (t : Thread) (c : Nat) (n : BitVec 12) (m : Word) : (t.keepClear c n m).unit = t.unit := rfl
@[simp] theorem Thread.keepClear_coord (t : Thread) (c : Nat) (n : BitVec 12) (m : Word) : (t.keepClear c n m).coord = t.coord := rfl
@[simp] theorem Thread.keepClear_par (t : Thread) (c : Nat) (n : BitVec 12) (m : Word) : (t.keepClear c n m).par = t.par := rfl
@[simp] theorem Thread.keepClear_ct (t : Thread) (c : Nat) (n : BitVec 12) (m : Word) : (t.keepClear c n m).ct = t.ct := rfl
@[simp] theorem Thread.keepClear_slim (t : Thread) (c : Nat) (n : BitVec 12) (m : Word) : (t.keepClear c n m).slim = t.slim := rfl
@[simp] theorem Thread.keepClear_oob (t : Thread) (c : Nat) (n : BitVec 12) (m : Word) : (t.keepClear c n m).oob = t.oob := rfl
@[simp] theorem Thread.keepClear_clamp (t : Thread) (c : Nat) (n : BitVec 12) (m : Word) : (t.keepClear c n m).clamp = t.clamp := rfl
@[simp] theorem Thread.keepClear_drop (t : Thread) (c : Nat) (n : BitVec 12) (m : Word) : (t.keepClear c n m).drop = t.drop := rfl
@[simp] theorem Thread.keepClear_ceil (t : Thread) (c : Nat) (n : BitVec 12) (m : Word) : (t.keepClear c n m).ceil = t.ceil := rfl
@[simp] theorem Thread.keepClear_fflag (t : Thread) (c : Nat) (n : BitVec 12) (m : Word) : (t.keepClear c n m).fflag = t.fflag := rfl
@[simp] theorem Thread.keepClear_lrerr (t : Thread) (c : Nat) (n : BitVec 12) (m : Word) : (t.keepClear c n m).lrerr = t.lrerr := rfl
@[simp] theorem Thread.keepClear_tvec (t : Thread) (c : Nat) (n : BitVec 12) (m : Word) : (t.keepClear c n m).tvec = t.tvec := rfl
@[simp] theorem Thread.keepClear_tepc (t : Thread) (c : Nat) (n : BitVec 12) (m : Word) : (t.keepClear c n m).tepc = t.tepc := rfl
@[simp] theorem Thread.keepClear_tcause (t : Thread) (c : Nat) (n : BitVec 12) (m : Word) : (t.keepClear c n m).tcause = t.tcause := rfl
@[simp] theorem Thread.keepClear_tpvote (t : Thread) (c : Nat) (n : BitVec 12) (m : Word) : (t.keepClear c n m).tpvote = t.tpvote := rfl
@[simp] theorem Thread.keepClear_tforced (t : Thread) (c : Nat) (n : BitVec 12) (m : Word) : (t.keepClear c n m).tforced = t.tforced := rfl
@[simp] theorem Thread.keepClear_tpfx (t : Thread) (c : Nat) (n : BitVec 12) (m : Word) : (t.keepClear c n m).tpfx = t.tpfx := rfl
@[simp] theorem Thread.keepClear_tchain (t : Thread) (c : Nat) (n : BitVec 12) (m : Word) : (t.keepClear c n m).tchain = t.tchain := rfl
@[simp] theorem Thread.keepClear_thops (t : Thread) (c : Nat) (n : BitVec 12) (m : Word) : (t.keepClear c n m).thops = t.thops := rfl
@[simp] theorem Thread.keepClear_tdet (t : Thread) (c : Nat) (n : BitVec 12) (m : Word) : (t.keepClear c n m).tdet = t.tdet := rfl
@[simp] theorem Thread.keepClear_vote (t : Thread) (c : Nat) (n : BitVec 12) (m : Word) : (t.keepClear c n m).vote = t.vote := rfl
@[simp] theorem Thread.keepClear_hvote (t : Thread) (c : Nat) (n : BitVec 12) (m : Word) : (t.keepClear c n m).hvote = t.hvote := rfl
@[simp] theorem Thread.keepClear_vor (t : Thread) (c : Nat) (n : BitVec 12) (m : Word) : (t.keepClear c n m).vor = t.vor := rfl
@[simp] theorem Thread.keepClear_vmax (t : Thread) (c : Nat) (n : BitVec 12) (m : Word) : (t.keepClear c n m).vmax = t.vmax := rfl
@[simp] theorem Thread.keepClear_vdet (t : Thread) (c : Nat) (n : BitVec 12) (m : Word) : (t.keepClear c n m).vdet = t.vdet := rfl
@[simp] theorem Thread.keepClear_atfix (t : Thread) (c : Nat) (n : BitVec 12) (m : Word) : (t.keepClear c n m).atfix = t.atfix := rfl
@[simp] theorem Thread.keepClear_fixRec (t : Thread) (c : Nat) (n : BitVec 12) (m : Word) : (t.keepClear c n m).fixRec = t.fixRec := rfl
@[simp] theorem Thread.keepClear_committed (t : Thread) (c : Nat) (n : BitVec 12) (m : Word) : (t.keepClear c n m).committed = t.committed := rfl
@[simp] theorem Thread.keepClear_xsynced (t : Thread) (c : Nat) (n : BitVec 12) (m : Word) : (t.keepClear c n m).xsynced = t.xsynced := rfl
@[simp] theorem Thread.keepClear_rounds (t : Thread) (c : Nat) (n : BitVec 12) (m : Word) : (t.keepClear c n m).rounds = t.rounds := rfl
@[simp] theorem Thread.keepClear_seq (t : Thread) (c : Nat) (n : BitVec 12) (m : Word) : (t.keepClear c n m).seq = t.seq := rfl
@[simp] theorem Thread.keepClear_hb (t : Thread) (c : Nat) (n : BitVec 12) (m : Word) : (t.keepClear c n m).hb = t.hb := rfl
@[simp] theorem Thread.keepClear_relF (t : Thread) (c : Nat) (n : BitVec 12) (m : Word) : (t.keepClear c n m).relF = t.relF := rfl
@[simp] theorem Thread.keepClear_seen (t : Thread) (c : Nat) (n : BitVec 12) (m : Word) : (t.keepClear c n m).seen = t.seen := rfl
@[simp] theorem Thread.keepClear_handling (t : Thread) (c : Nat) (n : BitVec 12) (m : Word) : (t.keepClear c n m).handling = t.handling := rfl
@[simp] theorem Thread.orNow_task (t : Thread) (c : Nat) (f : Byte) : (t.orNow c f).task = t.task := rfl
@[simp] theorem Thread.orNow_mode (t : Thread) (c : Nat) (f : Byte) : (t.orNow c f).mode = t.mode := rfl
@[simp] theorem Thread.orNow_pc (t : Thread) (c : Nat) (f : Byte) : (t.orNow c f).pc = t.pc := rfl
@[simp] theorem Thread.orNow_regs (t : Thread) (c : Nat) (f : Byte) : (t.orNow c f).regs = t.regs := rfl
@[simp] theorem Thread.orNow_preds (t : Thread) (c : Nat) (f : Byte) : (t.orNow c f).preds = t.preds := rfl
@[simp] theorem Thread.orNow_lb (t : Thread) (c : Nat) (f : Byte) : (t.orNow c f).lb = t.lb := rfl
@[simp] theorem Thread.orNow_le (t : Thread) (c : Nat) (f : Byte) : (t.orNow c f).le = t.le := rfl
@[simp] theorem Thread.orNow_lc (t : Thread) (c : Nat) (f : Byte) : (t.orNow c f).lc = t.lc := rfl
@[simp] theorem Thread.orNow_readyAt (t : Thread) (c : Nat) (f : Byte) : (t.orNow c f).readyAt = t.readyAt := rfl
@[simp] theorem Thread.orNow_wait (t : Thread) (c : Nat) (f : Byte) : (t.orNow c f).wait = t.wait := rfl
@[simp] theorem Thread.orNow_waitFrom (t : Thread) (c : Nat) (f : Byte) : (t.orNow c f).waitFrom = t.waitFrom := rfl
@[simp] theorem Thread.orNow_unit (t : Thread) (c : Nat) (f : Byte) : (t.orNow c f).unit = t.unit := rfl
@[simp] theorem Thread.orNow_coord (t : Thread) (c : Nat) (f : Byte) : (t.orNow c f).coord = t.coord := rfl
@[simp] theorem Thread.orNow_par (t : Thread) (c : Nat) (f : Byte) : (t.orNow c f).par = t.par := rfl
@[simp] theorem Thread.orNow_ct (t : Thread) (c : Nat) (f : Byte) : (t.orNow c f).ct = t.ct := rfl
@[simp] theorem Thread.orNow_slim (t : Thread) (c : Nat) (f : Byte) : (t.orNow c f).slim = t.slim := rfl
@[simp] theorem Thread.orNow_oob (t : Thread) (c : Nat) (f : Byte) : (t.orNow c f).oob = t.oob := rfl
@[simp] theorem Thread.orNow_clamp (t : Thread) (c : Nat) (f : Byte) : (t.orNow c f).clamp = t.clamp := rfl
@[simp] theorem Thread.orNow_drop (t : Thread) (c : Nat) (f : Byte) : (t.orNow c f).drop = t.drop := rfl
@[simp] theorem Thread.orNow_ceil (t : Thread) (c : Nat) (f : Byte) : (t.orNow c f).ceil = t.ceil := rfl
@[simp] theorem Thread.orNow_lrerr (t : Thread) (c : Nat) (f : Byte) : (t.orNow c f).lrerr = t.lrerr := rfl
@[simp] theorem Thread.orNow_tvec (t : Thread) (c : Nat) (f : Byte) : (t.orNow c f).tvec = t.tvec := rfl
@[simp] theorem Thread.orNow_tepc (t : Thread) (c : Nat) (f : Byte) : (t.orNow c f).tepc = t.tepc := rfl
@[simp] theorem Thread.orNow_tcause (t : Thread) (c : Nat) (f : Byte) : (t.orNow c f).tcause = t.tcause := rfl
@[simp] theorem Thread.orNow_tpvote (t : Thread) (c : Nat) (f : Byte) : (t.orNow c f).tpvote = t.tpvote := rfl
@[simp] theorem Thread.orNow_tforced (t : Thread) (c : Nat) (f : Byte) : (t.orNow c f).tforced = t.tforced := rfl
@[simp] theorem Thread.orNow_tpfx (t : Thread) (c : Nat) (f : Byte) : (t.orNow c f).tpfx = t.tpfx := rfl
@[simp] theorem Thread.orNow_tchain (t : Thread) (c : Nat) (f : Byte) : (t.orNow c f).tchain = t.tchain := rfl
@[simp] theorem Thread.orNow_thops (t : Thread) (c : Nat) (f : Byte) : (t.orNow c f).thops = t.thops := rfl
@[simp] theorem Thread.orNow_tdet (t : Thread) (c : Nat) (f : Byte) : (t.orNow c f).tdet = t.tdet := rfl
@[simp] theorem Thread.orNow_vote (t : Thread) (c : Nat) (f : Byte) : (t.orNow c f).vote = t.vote := rfl
@[simp] theorem Thread.orNow_hvote (t : Thread) (c : Nat) (f : Byte) : (t.orNow c f).hvote = t.hvote := rfl
@[simp] theorem Thread.orNow_vor (t : Thread) (c : Nat) (f : Byte) : (t.orNow c f).vor = t.vor := rfl
@[simp] theorem Thread.orNow_vmax (t : Thread) (c : Nat) (f : Byte) : (t.orNow c f).vmax = t.vmax := rfl
@[simp] theorem Thread.orNow_vdet (t : Thread) (c : Nat) (f : Byte) : (t.orNow c f).vdet = t.vdet := rfl
@[simp] theorem Thread.orNow_atfix (t : Thread) (c : Nat) (f : Byte) : (t.orNow c f).atfix = t.atfix := rfl
@[simp] theorem Thread.orNow_fixRec (t : Thread) (c : Nat) (f : Byte) : (t.orNow c f).fixRec = t.fixRec := rfl
@[simp] theorem Thread.orNow_committed (t : Thread) (c : Nat) (f : Byte) : (t.orNow c f).committed = t.committed := rfl
@[simp] theorem Thread.orNow_xsynced (t : Thread) (c : Nat) (f : Byte) : (t.orNow c f).xsynced = t.xsynced := rfl
@[simp] theorem Thread.orNow_rounds (t : Thread) (c : Nat) (f : Byte) : (t.orNow c f).rounds = t.rounds := rfl
@[simp] theorem Thread.orNow_seq (t : Thread) (c : Nat) (f : Byte) : (t.orNow c f).seq = t.seq := rfl
@[simp] theorem Thread.orNow_hb (t : Thread) (c : Nat) (f : Byte) : (t.orNow c f).hb = t.hb := rfl
@[simp] theorem Thread.orNow_relF (t : Thread) (c : Nat) (f : Byte) : (t.orNow c f).relF = t.relF := rfl
@[simp] theorem Thread.orNow_seen (t : Thread) (c : Nat) (f : Byte) : (t.orNow c f).seen = t.seen := rfl
@[simp] theorem Thread.orNow_handling (t : Thread) (c : Nat) (f : Byte) : (t.orNow c f).handling = t.handling := rfl

/-! ### `Thread.drop1` -/

@[simp] theorem Thread.drop1_task (t : Thread) (c : Nat) (d : Dest) : (t.drop1 c d).task = t.task := rfl
@[simp] theorem Thread.drop1_mode (t : Thread) (c : Nat) (d : Dest) : (t.drop1 c d).mode = t.mode := rfl
@[simp] theorem Thread.drop1_pc (t : Thread) (c : Nat) (d : Dest) : (t.drop1 c d).pc = t.pc := rfl
@[simp] theorem Thread.drop1_regs (t : Thread) (c : Nat) (d : Dest) : (t.drop1 c d).regs = t.regs := rfl
@[simp] theorem Thread.drop1_preds (t : Thread) (c : Nat) (d : Dest) : (t.drop1 c d).preds = t.preds := rfl
@[simp] theorem Thread.drop1_lb (t : Thread) (c : Nat) (d : Dest) : (t.drop1 c d).lb = t.lb := rfl
@[simp] theorem Thread.drop1_le (t : Thread) (c : Nat) (d : Dest) : (t.drop1 c d).le = t.le := rfl
@[simp] theorem Thread.drop1_lc (t : Thread) (c : Nat) (d : Dest) : (t.drop1 c d).lc = t.lc := rfl
@[simp] theorem Thread.drop1_readyAt (t : Thread) (c : Nat) (d : Dest) : (t.drop1 c d).readyAt = t.readyAt := rfl
@[simp] theorem Thread.drop1_wait (t : Thread) (c : Nat) (d : Dest) : (t.drop1 c d).wait = t.wait := rfl
@[simp] theorem Thread.drop1_waitFrom (t : Thread) (c : Nat) (d : Dest) : (t.drop1 c d).waitFrom = t.waitFrom := rfl
@[simp] theorem Thread.drop1_unit (t : Thread) (c : Nat) (d : Dest) : (t.drop1 c d).unit = t.unit := rfl
@[simp] theorem Thread.drop1_coord (t : Thread) (c : Nat) (d : Dest) : (t.drop1 c d).coord = t.coord := rfl
@[simp] theorem Thread.drop1_par (t : Thread) (c : Nat) (d : Dest) : (t.drop1 c d).par = t.par := rfl
@[simp] theorem Thread.drop1_ct (t : Thread) (c : Nat) (d : Dest) : (t.drop1 c d).ct = t.ct := rfl
@[simp] theorem Thread.drop1_slim (t : Thread) (c : Nat) (d : Dest) : (t.drop1 c d).slim = t.slim := rfl
@[simp] theorem Thread.drop1_oob (t : Thread) (c : Nat) (d : Dest) : (t.drop1 c d).oob = t.oob := rfl
@[simp] theorem Thread.drop1_clamp (t : Thread) (c : Nat) (d : Dest) : (t.drop1 c d).clamp = t.clamp := rfl
@[simp] theorem Thread.drop1_drop (t : Thread) (c : Nat) (d : Dest) : (t.drop1 c d).drop = t.drop := rfl
@[simp] theorem Thread.drop1_ceil (t : Thread) (c : Nat) (d : Dest) : (t.drop1 c d).ceil = t.ceil := rfl
@[simp] theorem Thread.drop1_fflag (t : Thread) (c : Nat) (d : Dest) : (t.drop1 c d).fflag = t.fflag := rfl
@[simp] theorem Thread.drop1_lrerr (t : Thread) (c : Nat) (d : Dest) : (t.drop1 c d).lrerr = t.lrerr := rfl
@[simp] theorem Thread.drop1_tvec (t : Thread) (c : Nat) (d : Dest) : (t.drop1 c d).tvec = t.tvec := rfl
@[simp] theorem Thread.drop1_tepc (t : Thread) (c : Nat) (d : Dest) : (t.drop1 c d).tepc = t.tepc := rfl
@[simp] theorem Thread.drop1_tcause (t : Thread) (c : Nat) (d : Dest) : (t.drop1 c d).tcause = t.tcause := rfl
@[simp] theorem Thread.drop1_tpvote (t : Thread) (c : Nat) (d : Dest) : (t.drop1 c d).tpvote = t.tpvote := rfl
@[simp] theorem Thread.drop1_tforced (t : Thread) (c : Nat) (d : Dest) : (t.drop1 c d).tforced = t.tforced := rfl
@[simp] theorem Thread.drop1_tpfx (t : Thread) (c : Nat) (d : Dest) : (t.drop1 c d).tpfx = t.tpfx := rfl
@[simp] theorem Thread.drop1_tchain (t : Thread) (c : Nat) (d : Dest) : (t.drop1 c d).tchain = t.tchain := rfl
@[simp] theorem Thread.drop1_thops (t : Thread) (c : Nat) (d : Dest) : (t.drop1 c d).thops = t.thops := rfl
@[simp] theorem Thread.drop1_tdet (t : Thread) (c : Nat) (d : Dest) : (t.drop1 c d).tdet = t.tdet := rfl
@[simp] theorem Thread.drop1_vote (t : Thread) (c : Nat) (d : Dest) : (t.drop1 c d).vote = t.vote := rfl
@[simp] theorem Thread.drop1_hvote (t : Thread) (c : Nat) (d : Dest) : (t.drop1 c d).hvote = t.hvote := rfl
@[simp] theorem Thread.drop1_vor (t : Thread) (c : Nat) (d : Dest) : (t.drop1 c d).vor = t.vor := rfl
@[simp] theorem Thread.drop1_vmax (t : Thread) (c : Nat) (d : Dest) : (t.drop1 c d).vmax = t.vmax := rfl
@[simp] theorem Thread.drop1_vdet (t : Thread) (c : Nat) (d : Dest) : (t.drop1 c d).vdet = t.vdet := rfl
@[simp] theorem Thread.drop1_atfix (t : Thread) (c : Nat) (d : Dest) : (t.drop1 c d).atfix = t.atfix := rfl
@[simp] theorem Thread.drop1_fixRec (t : Thread) (c : Nat) (d : Dest) : (t.drop1 c d).fixRec = t.fixRec := rfl
@[simp] theorem Thread.drop1_committed (t : Thread) (c : Nat) (d : Dest) : (t.drop1 c d).committed = t.committed := rfl
@[simp] theorem Thread.drop1_xsynced (t : Thread) (c : Nat) (d : Dest) : (t.drop1 c d).xsynced = t.xsynced := rfl
@[simp] theorem Thread.drop1_rounds (t : Thread) (c : Nat) (d : Dest) : (t.drop1 c d).rounds = t.rounds := rfl
@[simp] theorem Thread.drop1_seq (t : Thread) (c : Nat) (d : Dest) : (t.drop1 c d).seq = t.seq := rfl
@[simp] theorem Thread.drop1_hb (t : Thread) (c : Nat) (d : Dest) : (t.drop1 c d).hb = t.hb := rfl
@[simp] theorem Thread.drop1_relF (t : Thread) (c : Nat) (d : Dest) : (t.drop1 c d).relF = t.relF := rfl
@[simp] theorem Thread.drop1_seen (t : Thread) (c : Nat) (d : Dest) : (t.drop1 c d).seen = t.seen := rfl
@[simp] theorem Thread.drop1_handling (t : Thread) (c : Nat) (d : Dest) : (t.drop1 c d).handling = t.handling := rfl

/-! ### `Thread.setS` and `Thread.setP` -/

@[simp] theorem Thread.setS_task (t : Thread) (r : Sreg) (v : Word) : (t.setS r v).task = t.task := by unfold Thread.setS; split <;> rfl
@[simp] theorem Thread.setS_mode (t : Thread) (r : Sreg) (v : Word) : (t.setS r v).mode = t.mode := by unfold Thread.setS; split <;> rfl
@[simp] theorem Thread.setS_pc (t : Thread) (r : Sreg) (v : Word) : (t.setS r v).pc = t.pc := by unfold Thread.setS; split <;> rfl
@[simp] theorem Thread.setS_preds (t : Thread) (r : Sreg) (v : Word) : (t.setS r v).preds = t.preds := by unfold Thread.setS; split <;> rfl
@[simp] theorem Thread.setS_lb (t : Thread) (r : Sreg) (v : Word) : (t.setS r v).lb = t.lb := by unfold Thread.setS; split <;> rfl
@[simp] theorem Thread.setS_le (t : Thread) (r : Sreg) (v : Word) : (t.setS r v).le = t.le := by unfold Thread.setS; split <;> rfl
@[simp] theorem Thread.setS_lc (t : Thread) (r : Sreg) (v : Word) : (t.setS r v).lc = t.lc := by unfold Thread.setS; split <;> rfl
@[simp] theorem Thread.setS_pend (t : Thread) (r : Sreg) (v : Word) : (t.setS r v).pend = t.pend := by unfold Thread.setS; split <;> rfl
@[simp] theorem Thread.setS_readyAt (t : Thread) (r : Sreg) (v : Word) : (t.setS r v).readyAt = t.readyAt := by unfold Thread.setS; split <;> rfl
@[simp] theorem Thread.setS_wait (t : Thread) (r : Sreg) (v : Word) : (t.setS r v).wait = t.wait := by unfold Thread.setS; split <;> rfl
@[simp] theorem Thread.setS_waitFrom (t : Thread) (r : Sreg) (v : Word) : (t.setS r v).waitFrom = t.waitFrom := by unfold Thread.setS; split <;> rfl
@[simp] theorem Thread.setS_unit (t : Thread) (r : Sreg) (v : Word) : (t.setS r v).unit = t.unit := by unfold Thread.setS; split <;> rfl
@[simp] theorem Thread.setS_coord (t : Thread) (r : Sreg) (v : Word) : (t.setS r v).coord = t.coord := by unfold Thread.setS; split <;> rfl
@[simp] theorem Thread.setS_par (t : Thread) (r : Sreg) (v : Word) : (t.setS r v).par = t.par := by unfold Thread.setS; split <;> rfl
@[simp] theorem Thread.setS_ct (t : Thread) (r : Sreg) (v : Word) : (t.setS r v).ct = t.ct := by unfold Thread.setS; split <;> rfl
@[simp] theorem Thread.setS_slim (t : Thread) (r : Sreg) (v : Word) : (t.setS r v).slim = t.slim := by unfold Thread.setS; split <;> rfl
@[simp] theorem Thread.setS_oob (t : Thread) (r : Sreg) (v : Word) : (t.setS r v).oob = t.oob := by unfold Thread.setS; split <;> rfl
@[simp] theorem Thread.setS_clamp (t : Thread) (r : Sreg) (v : Word) : (t.setS r v).clamp = t.clamp := by unfold Thread.setS; split <;> rfl
@[simp] theorem Thread.setS_drop (t : Thread) (r : Sreg) (v : Word) : (t.setS r v).drop = t.drop := by unfold Thread.setS; split <;> rfl
@[simp] theorem Thread.setS_ceil (t : Thread) (r : Sreg) (v : Word) : (t.setS r v).ceil = t.ceil := by unfold Thread.setS; split <;> rfl
@[simp] theorem Thread.setS_fflag (t : Thread) (r : Sreg) (v : Word) : (t.setS r v).fflag = t.fflag := by unfold Thread.setS; split <;> rfl
@[simp] theorem Thread.setS_lrerr (t : Thread) (r : Sreg) (v : Word) : (t.setS r v).lrerr = t.lrerr := by unfold Thread.setS; split <;> rfl
@[simp] theorem Thread.setS_tvec (t : Thread) (r : Sreg) (v : Word) : (t.setS r v).tvec = t.tvec := by unfold Thread.setS; split <;> rfl
@[simp] theorem Thread.setS_tepc (t : Thread) (r : Sreg) (v : Word) : (t.setS r v).tepc = t.tepc := by unfold Thread.setS; split <;> rfl
@[simp] theorem Thread.setS_tcause (t : Thread) (r : Sreg) (v : Word) : (t.setS r v).tcause = t.tcause := by unfold Thread.setS; split <;> rfl
@[simp] theorem Thread.setS_tpvote (t : Thread) (r : Sreg) (v : Word) : (t.setS r v).tpvote = t.tpvote := by unfold Thread.setS; split <;> rfl
@[simp] theorem Thread.setS_tforced (t : Thread) (r : Sreg) (v : Word) : (t.setS r v).tforced = t.tforced := by unfold Thread.setS; split <;> rfl
@[simp] theorem Thread.setS_tpfx (t : Thread) (r : Sreg) (v : Word) : (t.setS r v).tpfx = t.tpfx := by unfold Thread.setS; split <;> rfl
@[simp] theorem Thread.setS_tchain (t : Thread) (r : Sreg) (v : Word) : (t.setS r v).tchain = t.tchain := by unfold Thread.setS; split <;> rfl
@[simp] theorem Thread.setS_thops (t : Thread) (r : Sreg) (v : Word) : (t.setS r v).thops = t.thops := by unfold Thread.setS; split <;> rfl
@[simp] theorem Thread.setS_tdet (t : Thread) (r : Sreg) (v : Word) : (t.setS r v).tdet = t.tdet := by unfold Thread.setS; split <;> rfl
@[simp] theorem Thread.setS_vote (t : Thread) (r : Sreg) (v : Word) : (t.setS r v).vote = t.vote := by unfold Thread.setS; split <;> rfl
@[simp] theorem Thread.setS_hvote (t : Thread) (r : Sreg) (v : Word) : (t.setS r v).hvote = t.hvote := by unfold Thread.setS; split <;> rfl
@[simp] theorem Thread.setS_vor (t : Thread) (r : Sreg) (v : Word) : (t.setS r v).vor = t.vor := by unfold Thread.setS; split <;> rfl
@[simp] theorem Thread.setS_vmax (t : Thread) (r : Sreg) (v : Word) : (t.setS r v).vmax = t.vmax := by unfold Thread.setS; split <;> rfl
@[simp] theorem Thread.setS_vdet (t : Thread) (r : Sreg) (v : Word) : (t.setS r v).vdet = t.vdet := by unfold Thread.setS; split <;> rfl
@[simp] theorem Thread.setS_atfix (t : Thread) (r : Sreg) (v : Word) : (t.setS r v).atfix = t.atfix := by unfold Thread.setS; split <;> rfl
@[simp] theorem Thread.setS_fixRec (t : Thread) (r : Sreg) (v : Word) : (t.setS r v).fixRec = t.fixRec := by unfold Thread.setS; split <;> rfl
@[simp] theorem Thread.setS_committed (t : Thread) (r : Sreg) (v : Word) : (t.setS r v).committed = t.committed := by unfold Thread.setS; split <;> rfl
@[simp] theorem Thread.setS_xsynced (t : Thread) (r : Sreg) (v : Word) : (t.setS r v).xsynced = t.xsynced := by unfold Thread.setS; split <;> rfl
@[simp] theorem Thread.setS_rounds (t : Thread) (r : Sreg) (v : Word) : (t.setS r v).rounds = t.rounds := by unfold Thread.setS; split <;> rfl
@[simp] theorem Thread.setS_seq (t : Thread) (r : Sreg) (v : Word) : (t.setS r v).seq = t.seq := by unfold Thread.setS; split <;> rfl
@[simp] theorem Thread.setS_hb (t : Thread) (r : Sreg) (v : Word) : (t.setS r v).hb = t.hb := by unfold Thread.setS; split <;> rfl
@[simp] theorem Thread.setS_relF (t : Thread) (r : Sreg) (v : Word) : (t.setS r v).relF = t.relF := by unfold Thread.setS; split <;> rfl
@[simp] theorem Thread.setS_seen (t : Thread) (r : Sreg) (v : Word) : (t.setS r v).seen = t.seen := by unfold Thread.setS; split <;> rfl
@[simp] theorem Thread.setS_handling (t : Thread) (r : Sreg) (v : Word) : (t.setS r v).handling = t.handling := by unfold Thread.setS; split <;> rfl
@[simp] theorem Thread.setP_task (t : Thread) (p : Preg) (v : Bool) : (t.setP p v).task = t.task := by unfold Thread.setP; split <;> rfl
@[simp] theorem Thread.setP_mode (t : Thread) (p : Preg) (v : Bool) : (t.setP p v).mode = t.mode := by unfold Thread.setP; split <;> rfl
@[simp] theorem Thread.setP_pc (t : Thread) (p : Preg) (v : Bool) : (t.setP p v).pc = t.pc := by unfold Thread.setP; split <;> rfl
@[simp] theorem Thread.setP_regs (t : Thread) (p : Preg) (v : Bool) : (t.setP p v).regs = t.regs := by unfold Thread.setP; split <;> rfl
@[simp] theorem Thread.setP_lb (t : Thread) (p : Preg) (v : Bool) : (t.setP p v).lb = t.lb := by unfold Thread.setP; split <;> rfl
@[simp] theorem Thread.setP_le (t : Thread) (p : Preg) (v : Bool) : (t.setP p v).le = t.le := by unfold Thread.setP; split <;> rfl
@[simp] theorem Thread.setP_lc (t : Thread) (p : Preg) (v : Bool) : (t.setP p v).lc = t.lc := by unfold Thread.setP; split <;> rfl
@[simp] theorem Thread.setP_pend (t : Thread) (p : Preg) (v : Bool) : (t.setP p v).pend = t.pend := by unfold Thread.setP; split <;> rfl
@[simp] theorem Thread.setP_readyAt (t : Thread) (p : Preg) (v : Bool) : (t.setP p v).readyAt = t.readyAt := by unfold Thread.setP; split <;> rfl
@[simp] theorem Thread.setP_wait (t : Thread) (p : Preg) (v : Bool) : (t.setP p v).wait = t.wait := by unfold Thread.setP; split <;> rfl
@[simp] theorem Thread.setP_waitFrom (t : Thread) (p : Preg) (v : Bool) : (t.setP p v).waitFrom = t.waitFrom := by unfold Thread.setP; split <;> rfl
@[simp] theorem Thread.setP_unit (t : Thread) (p : Preg) (v : Bool) : (t.setP p v).unit = t.unit := by unfold Thread.setP; split <;> rfl
@[simp] theorem Thread.setP_coord (t : Thread) (p : Preg) (v : Bool) : (t.setP p v).coord = t.coord := by unfold Thread.setP; split <;> rfl
@[simp] theorem Thread.setP_par (t : Thread) (p : Preg) (v : Bool) : (t.setP p v).par = t.par := by unfold Thread.setP; split <;> rfl
@[simp] theorem Thread.setP_ct (t : Thread) (p : Preg) (v : Bool) : (t.setP p v).ct = t.ct := by unfold Thread.setP; split <;> rfl
@[simp] theorem Thread.setP_slim (t : Thread) (p : Preg) (v : Bool) : (t.setP p v).slim = t.slim := by unfold Thread.setP; split <;> rfl
@[simp] theorem Thread.setP_oob (t : Thread) (p : Preg) (v : Bool) : (t.setP p v).oob = t.oob := by unfold Thread.setP; split <;> rfl
@[simp] theorem Thread.setP_clamp (t : Thread) (p : Preg) (v : Bool) : (t.setP p v).clamp = t.clamp := by unfold Thread.setP; split <;> rfl
@[simp] theorem Thread.setP_drop (t : Thread) (p : Preg) (v : Bool) : (t.setP p v).drop = t.drop := by unfold Thread.setP; split <;> rfl
@[simp] theorem Thread.setP_ceil (t : Thread) (p : Preg) (v : Bool) : (t.setP p v).ceil = t.ceil := by unfold Thread.setP; split <;> rfl
@[simp] theorem Thread.setP_fflag (t : Thread) (p : Preg) (v : Bool) : (t.setP p v).fflag = t.fflag := by unfold Thread.setP; split <;> rfl
@[simp] theorem Thread.setP_lrerr (t : Thread) (p : Preg) (v : Bool) : (t.setP p v).lrerr = t.lrerr := by unfold Thread.setP; split <;> rfl
@[simp] theorem Thread.setP_tvec (t : Thread) (p : Preg) (v : Bool) : (t.setP p v).tvec = t.tvec := by unfold Thread.setP; split <;> rfl
@[simp] theorem Thread.setP_tepc (t : Thread) (p : Preg) (v : Bool) : (t.setP p v).tepc = t.tepc := by unfold Thread.setP; split <;> rfl
@[simp] theorem Thread.setP_tcause (t : Thread) (p : Preg) (v : Bool) : (t.setP p v).tcause = t.tcause := by unfold Thread.setP; split <;> rfl
@[simp] theorem Thread.setP_tpvote (t : Thread) (p : Preg) (v : Bool) : (t.setP p v).tpvote = t.tpvote := by unfold Thread.setP; split <;> rfl
@[simp] theorem Thread.setP_tforced (t : Thread) (p : Preg) (v : Bool) : (t.setP p v).tforced = t.tforced := by unfold Thread.setP; split <;> rfl
@[simp] theorem Thread.setP_tpfx (t : Thread) (p : Preg) (v : Bool) : (t.setP p v).tpfx = t.tpfx := by unfold Thread.setP; split <;> rfl
@[simp] theorem Thread.setP_tchain (t : Thread) (p : Preg) (v : Bool) : (t.setP p v).tchain = t.tchain := by unfold Thread.setP; split <;> rfl
@[simp] theorem Thread.setP_thops (t : Thread) (p : Preg) (v : Bool) : (t.setP p v).thops = t.thops := by unfold Thread.setP; split <;> rfl
@[simp] theorem Thread.setP_tdet (t : Thread) (p : Preg) (v : Bool) : (t.setP p v).tdet = t.tdet := by unfold Thread.setP; split <;> rfl
@[simp] theorem Thread.setP_vote (t : Thread) (p : Preg) (v : Bool) : (t.setP p v).vote = t.vote := by unfold Thread.setP; split <;> rfl
@[simp] theorem Thread.setP_hvote (t : Thread) (p : Preg) (v : Bool) : (t.setP p v).hvote = t.hvote := by unfold Thread.setP; split <;> rfl
@[simp] theorem Thread.setP_vor (t : Thread) (p : Preg) (v : Bool) : (t.setP p v).vor = t.vor := by unfold Thread.setP; split <;> rfl
@[simp] theorem Thread.setP_vmax (t : Thread) (p : Preg) (v : Bool) : (t.setP p v).vmax = t.vmax := by unfold Thread.setP; split <;> rfl
@[simp] theorem Thread.setP_vdet (t : Thread) (p : Preg) (v : Bool) : (t.setP p v).vdet = t.vdet := by unfold Thread.setP; split <;> rfl
@[simp] theorem Thread.setP_atfix (t : Thread) (p : Preg) (v : Bool) : (t.setP p v).atfix = t.atfix := by unfold Thread.setP; split <;> rfl
@[simp] theorem Thread.setP_fixRec (t : Thread) (p : Preg) (v : Bool) : (t.setP p v).fixRec = t.fixRec := by unfold Thread.setP; split <;> rfl
@[simp] theorem Thread.setP_committed (t : Thread) (p : Preg) (v : Bool) : (t.setP p v).committed = t.committed := by unfold Thread.setP; split <;> rfl
@[simp] theorem Thread.setP_xsynced (t : Thread) (p : Preg) (v : Bool) : (t.setP p v).xsynced = t.xsynced := by unfold Thread.setP; split <;> rfl
@[simp] theorem Thread.setP_rounds (t : Thread) (p : Preg) (v : Bool) : (t.setP p v).rounds = t.rounds := by unfold Thread.setP; split <;> rfl
@[simp] theorem Thread.setP_seq (t : Thread) (p : Preg) (v : Bool) : (t.setP p v).seq = t.seq := by unfold Thread.setP; split <;> rfl
@[simp] theorem Thread.setP_hb (t : Thread) (p : Preg) (v : Bool) : (t.setP p v).hb = t.hb := by unfold Thread.setP; split <;> rfl
@[simp] theorem Thread.setP_relF (t : Thread) (p : Preg) (v : Bool) : (t.setP p v).relF = t.relF := by unfold Thread.setP; split <;> rfl
@[simp] theorem Thread.setP_seen (t : Thread) (p : Preg) (v : Bool) : (t.setP p v).seen = t.seen := by unfold Thread.setP; split <;> rfl
@[simp] theorem Thread.setP_handling (t : Thread) (p : Preg) (v : Bool) : (t.setP p v).handling = t.handling := by unfold Thread.setP; split <;> rfl

end Sys2Proof.Machine
end

