-- ==== Sys2Proof/Laws/Ops.lean ====
section
/-!
SUPPORT. What each shared operation does, said once: updates of the current thread, register results, the end of a unit and its
waits.
-/

namespace Sys2Proof.Machine

/-! ### The current thread -/

theorem getD_modify {α : Type} (l : List α) (i : Nat) (f : α → α) (d : α) (h : i < l.length) : (l.modify i f).getD i d = f (l.getD i d) := by
  simp [List.getD_eq_getElem?_getD, h]

theorem getD_modify_ne {α : Type} (l : List α) (i j : Nat) (f : α → α) (d : α) (h : j ≠ i) : (l.modify i f).getD j d = l.getD j d := by
  simp [List.getD_eq_getElem?_getD, Ne.symm h]

theorem modify_const {α : Type} (l : List α) (i : Nat) (f : α → α) (d : α) : l.modify i f = l.modify i fun _ => f (l.getD i d) := by
  apply List.ext_getElem?
  intro j
  by_cases h : i = j
  · subst h
    by_cases hi : i < l.length
    · simp [List.getD_eq_getElem?_getD, hi]
    · simp [List.getElem?_eq_none (Nat.le_of_not_lt hi)]
  · simp [h]

theorem modify_congr {α : Type} (l : List α) (i : Nat) (f g : α → α) (d : α) (h : f (l.getD i d) = g (l.getD i d)) :
    l.modify i f = l.modify i g := by
  rw [modify_const l i f d, modify_const l i g d, h]


/-- What the current thread is after an update of it. -/
theorem State.here_modHere (s : State) (h : s.Here = true) (f : Thread → Thread) : (s.modHere f).here = f s.here := by
  unfold State.here
  rw [show (s.modHere f).cur = s.cur from by unfold State.modHere; cases s.cur.agent <;> simp [State.modThread]]
  unfold State.modHere State.Here at *
  cases ha : s.cur.agent with
  | tile p t =>
    simp only [ha, Bool.and_eq_true, decide_eq_true_eq] at h
    simp only [State.modThread, State.thread, State.modTile, State.modPart, State.tile, State.part, Partition.modTile, Partition.tile,
      Tile.modThread, Tile.thread] at h ⊢
    rw [getD_modify _ _ _ _ h.1.1, getD_modify _ _ _ _ h.1.2, getD_modify _ _ _ _ h.2]
  | ctrl d =>
    simp only [ha, decide_eq_true_eq] at h
    simp [State.modThread, State.thread, State.modCtrl, State.ctrl, h]

/-- An update of the current thread by a function is one by its value. -/
theorem State.modHere_const (s : State) (f : Thread → Thread) : s.modHere f = s.modHere fun _ => f s.here := by
  unfold State.modHere State.here
  cases s.cur.agent with
  | tile p t =>
    simp only [State.modThread, State.thread, State.modTile, State.modPart, State.tile, State.part, Partition.modTile, Partition.tile,
      Tile.modThread, Tile.thread]
    congr 1
    apply modify_congr _ _ _ _ Partition.absent
    congr 1
    apply modify_congr _ _ _ _ Tile.zero
    congr 1
    exact modify_congr _ _ _ _ Thread.zero rfl
  | ctrl d =>
    by_cases h : d < 4
    · simp [State.modThread, State.thread, State.modCtrl, State.ctrl, h]
    · simp [State.modThread, State.modCtrl, h]

theorem Tile.modThread_modThread (T : Tile) (i : Nat) (f g : Thread → Thread) :
    (T.modThread i f).modThread i g = T.modThread i fun t => g (f t) := by
  unfold Tile.modThread; simp only [List.modify_modify_eq]; rfl

theorem Partition.modTile_modTile (P : Partition) (t : Nat) (f g : Tile → Tile) :
    (P.modTile t f).modTile t g = P.modTile t fun T => g (f T) := by
  unfold Partition.modTile; simp only [List.modify_modify_eq]; rfl

theorem State.modPart_modPart (s : State) (p : Nat) (f g : Partition → Partition) :
    (s.modPart p f).modPart p g = s.modPart p fun P => g (f P) := by
  unfold State.modPart; simp only [List.modify_modify_eq]; rfl

theorem State.modTile_modTile (s : State) (p t : Nat) (f g : Tile → Tile) :
    (s.modTile p t f).modTile p t g = s.modTile p t fun T => g (f T) := by
  unfold State.modTile; rw [State.modPart_modPart]; simp only [Partition.modTile_modTile]

/-- Two updates of the current thread. -/
theorem State.modHere_modHere (s : State) (f g : Thread → Thread) : (s.modHere f).modHere g = s.modHere fun t => g (f t) := by
  unfold State.modHere
  rw [show (s.modThread s.cur.agent s.cur.th f).cur = s.cur from by cases s.cur.agent <;> simp [State.modThread]]
  cases s.cur.agent with
  | tile p t =>
    simp only [State.modThread, State.modTile_modTile, Tile.modThread_modThread]
  | ctrl d =>
    by_cases h : d < 4
    · simp [State.modThread, State.modCtrl, h]
    · simp [State.modThread, State.modCtrl, h]

theorem State.modHere_Here (s : State) (f : Thread → Thread) : (s.modHere f).Here = s.Here := by
  unfold State.Here
  rw [State.modHere_cur]
  cases ha : s.cur.agent with
  | tile p t =>
    simp only [State.modHere, ha, State.modThread, State.modTile, State.modPart, State.part, Partition.modTile, Partition.tile,
      Tile.modThread, List.length_modify]
    by_cases hp : p < s.parts.length
    · by_cases ht : t < (s.parts.getD p Partition.absent).tiles.length
      · rw [getD_modify _ _ _ _ hp]
        simp only [List.length_modify]
        rw [getD_modify _ _ _ _ ht]
        simp
      · rw [getD_modify _ _ _ _ hp]; simp only [List.length_modify, ht]; simp
    · simp [hp]
  | ctrl d => rfl

/-- The buffers of a tile after an update of a thread. -/
theorem State.tile_modHere (s : State) (f : Thread → Thread) (p k : Nat) :
    ((s.modHere f).tile p k).w = (s.tile p k).w ∧ ((s.modHere f).tile p k).a = (s.tile p k).a ∧
    ((s.modHere f).tile p k).c = (s.tile p k).c ∧ ((s.modHere f).tile p k).latent = (s.tile p k).latent := by
  unfold State.modHere
  cases s.cur.agent with
  | tile q t =>
    simp only [State.modThread, State.modTile, State.modPart, State.tile, State.part, Partition.modTile, Partition.tile]
    by_cases hq : p = q
    · subst hq
      by_cases hp : p < s.parts.length
      · rw [getD_modify _ _ _ _ hp]
        by_cases ht : k = t
        · subst ht
          by_cases hk : k < (s.parts.getD p Partition.absent).tiles.length
          · simp only; rw [getD_modify _ _ _ _ hk]; simp [Tile.modThread]
          · have hk' := Nat.le_of_not_lt hk
            simp only [List.getD_eq_getElem?_getD] at hk'
            simp [List.getD_eq_getElem?_getD, List.getElem?_eq_none hk']
        · simp only; rw [getD_modify_ne _ _ _ _ _ ht]; simp
      · simp [List.getD_eq_getElem?_getD, List.getElem?_eq_none (Nat.le_of_not_lt hp)]
    · rw [getD_modify_ne _ _ _ _ _ hq]; simp
  | ctrl d => by_cases h : d < 4 <;> simp [State.modThread, State.modCtrl, h, State.tile, State.part]

theorem State.sameBytes_modHere (s : State) (f : Thread → Thread) : s.SameBytes (s.modHere f) := by
  refine ⟨⟨by simp, by simp, by simp, by simp, fun d a => ?_⟩, fun p k b a => ?_⟩
  · unfold State.modHere
    cases s.cur.agent with
    | tile p t => rfl
    | ctrl e =>
      by_cases h : e < 4
      · by_cases hd : d = e
        · subst hd; simp [State.modThread, State.modCtrl, State.ctrl, h]
        · simp [State.modThread, State.modCtrl, State.ctrl, h, List.getD_eq_getElem?_getD, Ne.symm hd]
      · simp [State.modThread, State.modCtrl, h]
  · have h := State.tile_modHere s f p k
    unfold Tile.readBuf Tile.readIn Tile.buf
    rw [h.2.2.2]
    cases b <;> simp [h]

/-- An update of the current thread changes nothing else. -/
theorem State.onlyThread_modHere (s : State) (h : s.Here = true) (f : Thread → Thread) : s.OnlyThread (s.modHere f) := by
  refine ⟨?_, State.sameBytes_modHere s f⟩
  rw [State.here_modHere s h]
  exact State.modHere_const s f

/-! ### The end of a unit -/

/-- LoopEnd reads and writes the loop registers alone. -/
theorem loopWalk_congr (a : Addr) : ∀ (Ls : List (Fin 4)) (t u : Thread), u.lb = t.lb → u.le = t.le → u.lc = t.lc →
    (loopWalk a Ls u).2 = (loopWalk a Ls t).2 ∧ (loopWalk a Ls u).1 = { u with lc := (loopWalk a Ls t).1.lc }
  | [], t, u, _, _, h3 => ⟨rfl, by simp [loopWalk, ← h3]⟩
  | L :: Ls, t, u, h1, h2, h3 => by
    unfold loopWalk
    rw [h1, h2, h3]
    split
    · split
      · exact ⟨rfl, rfl⟩
      · exact loopWalk_congr a Ls { t with lc := t.lc.set L.val (t.lc[L] - 1) } { u with lb := t.lb, le := t.le, lc := t.lc.set L.val (t.lc[L] - 1) } rfl rfl rfl
    · have := loopWalk_congr a Ls t u h1 h2 h3
      rwa [h1, h2] at this

theorem loopEnd_congr (a : Addr) (t u : Thread) (h1 : u.lb = t.lb) (h2 : u.le = t.le) (h3 : u.lc = t.lc) :
    (loopEnd a u).2 = (loopEnd a t).2 ∧ (loopEnd a u).1 = { u with lc := (loopEnd a t).1.lc } := loopWalk_congr a _ t u h1 h2 h3

/-- The state in which a unit whose effect on its thread is f ends. -/
def State.endedBy (s : State) (f : Thread → Thread) (taken : Option Addr) : State :=
  s.modHere fun t => { f t with lc := s.loops.1.lc, pend := s.leftPend (f t).pend, pc := (taken.or s.loops.2).getD s.here.unit.next, wait := .ready,
                                readyAt := s.nextIssue (taken.or s.loops.2).isSome }

/-- A unit whose effect is on registers of its thread, and whose transfer or loop return is legal, ends. -/
theorem State.finishAt_modHere (s : State) (h : s.Here = true) (f : Thread → Thread) (taken : Option Addr)
    (hf : (f s.here).lb = s.here.lb ∧ (f s.here).le = s.here.le ∧ (f s.here).lc = s.here.lc)
    (hl : ((taken.or s.loops.2).bind (targetFault s s.cur.agent)) = none) :
    s.finishAt (s.modHere f) taken = s.endedBy f taken := by
  have c := loopEnd_congr s.here.unit.addr s.here (f s.here) hf.1 hf.2.1 hf.2.2
  unfold State.finishAt State.endedBy
  simp only [State.here_modHere s h, c.1, c.2]
  have hl' : ((taken.or (loopEnd s.here.unit.addr s.here).2).bind fun a => (targetFault s s.cur.agent a).map fun r => (a, r)) = none := by
    unfold State.loops at hl
    cases hx : taken.or (loopEnd s.here.unit.addr s.here).2 with
    | none => rfl
    | some a => rw [hx] at hl; simpa using hl
  rw [hl']
  simp only [State.modHere_modHere, State.modHere_cycle]
  rw [State.modHere_const]
  conv_rhs => rw [State.modHere_const]
  rw [hf.2.2]
  rfl

theorem State.endsLegally_eq {s : State} (h : s.endsLegally = true) :
    (((none : Option Addr).or s.loops.2).bind (targetFault s s.cur.agent)) = none := by
  simpa [State.endsLegally] using h

/-- How the thread stands after such a unit. -/
theorem State.endedBy_spec (s : State) (h : s.Here = true) (f : Thread → Thread) (taken : Option Addr) :
    s.OnlyThread (s.endedBy f taken) ∧ s.Ended (s.endedBy f taken) taken := by
  refine ⟨State.onlyThread_modHere s h _, ?_⟩
  unfold State.Ended State.endedBy
  simp [State.here_modHere s h]

theorem State.here_endedBy (s : State) (h : s.Here = true) (f : Thread → Thread) (taken : Option Addr) :
    (s.endedBy f taken).here = { f s.here with lc := s.loops.1.lc, pend := s.leftPend (f s.here).pend, pc := (taken.or s.loops.2).getD s.here.unit.next, wait := .ready, readyAt := s.nextIssue (taken.or s.loops.2).isSome } :=
  State.here_modHere s h _

/-! ### Results -/

theorem Thread.sreg_setS (t : Thread) (d : Sreg) (v : Word) (r : Sreg) : (t.setS d v).sreg r = if r = d ∧ r ≠ 0 then v else t.sreg r := by
  unfold Thread.setS Thread.sreg
  by_cases hr : r = 0
  · simp [hr]
  · by_cases hd : d = 0
    · have : r ≠ d := hd ▸ hr
      simp [hr, hd]
    · by_cases he : r = d
      · subst he; simp [hr]
      · have : d.val ≠ r.val := fun h => he (Fin.ext h.symm)
        simp [hr, hd, he, this]

theorem Thread.preg_setP (t : Thread) (d : Preg) (v : Bool) (p : Preg) : (t.setP d v).preg p = if p = d ∧ p ≠ 0 then v else t.preg p := by
  unfold Thread.setP Thread.preg
  by_cases hr : p = 0
  · simp [hr]
  · by_cases hd : d = 0
    · have : p ≠ d := hd ▸ hr
      simp [hr, hd]
    · by_cases he : p = d
      · subst he; simp [hr]
      · have : d.val ≠ p.val := fun h => he (Fin.ext h.symm)
        simp [hr, hd, he, this]

/-- A scalar result of class I (R92). -/
theorem State.wroteS_scalarOp (s : State) (h : s.Here = true) (hl : s.endsLegally = true) (d : Sreg) (v : Word) (fl : Byte) :
    s.WroteS (s.scalarOp 1 d v fl) d v fl := by
  have e : s.scalarOp 1 d v fl = s.endedBy (fun t => (t.putS s.cycle d v).orNow s.cycle fl) none := by
    unfold State.scalarOp State.finish
    exact State.finishAt_modHere s h _ none (by simp [Thread.putS]) (State.endsLegally_eq hl)
  rw [e]
  have sp := State.endedBy_spec s h (fun t => (t.putS s.cycle d v).orNow s.cycle fl) none
  have he := State.here_endedBy s h (fun t => (t.putS s.cycle d v).orNow s.cycle fl) none
  refine ⟨sp.1, sp.2, ?_, fun r => ?_, fun p => ?_, ?_, ?_⟩
  · rw [he]; simp [Thread.Frame, Thread.putS, Thread.drop1, Thread.orNow, Thread.keepClear, Thread.orFlags]
  · unfold State.sr; rw [he]
    have := Thread.sreg_setS (s.here.drop1 s.cycle (.s d)) d v r
    simpa [Thread.sreg, Thread.putS] using this
  · unfold State.pr; rw [he]; simp [Thread.preg, Thread.putS]
  · rw [he]; simp [Thread.putS, Thread.orNow, Thread.orFlags]
  · rw [he]; simp [Thread.putS, Thread.orNow, Thread.keepClear, Thread.orFlags]

/-- A predicate result of class I (R92). -/
theorem State.wroteP_predOp (s : State) (h : s.Here = true) (hl : s.endsLegally = true) (d : Preg) (v : Bool) (fl : Byte) :
    s.WroteP (s.predOp d v fl) d v fl := by
  have e : s.predOp d v fl = s.endedBy (fun t => (t.putP s.cycle d v).orNow s.cycle fl) none := by
    unfold State.predOp State.finish
    exact State.finishAt_modHere s h _ none (by simp [Thread.putP]) (State.endsLegally_eq hl)
  rw [e]
  have sp := State.endedBy_spec s h (fun t => (t.putP s.cycle d v).orNow s.cycle fl) none
  have he := State.here_endedBy s h (fun t => (t.putP s.cycle d v).orNow s.cycle fl) none
  refine ⟨sp.1, sp.2, ?_, fun p => ?_, fun r => ?_, ?_, ?_⟩
  · rw [he]; simp [Thread.Frame, Thread.putP, Thread.drop1, Thread.orNow, Thread.keepClear, Thread.orFlags]
  · unfold State.pr; rw [he]
    have := Thread.preg_setP (s.here.drop1 s.cycle (.p d)) d v p
    simpa [Thread.preg, Thread.putP] using this
  · unfold State.sr; rw [he]; simp [Thread.sreg, Thread.putP]
  · rw [he]; simp [Thread.putP, Thread.orNow, Thread.orFlags]
  · rw [he]; simp [Thread.putP, Thread.orNow, Thread.keepClear, Thread.orFlags]

/-- A write that is queued to land later (R92). -/
theorem State.queued_finish (s : State) (h : s.Here = true) (hl : s.endsLegally = true) (x : Pend) :
    s.Queued (s.finish (s.modHere fun t => { t with pend := t.pend ++ [x] })) x := by
  have e : s.finish (s.modHere fun t => { t with pend := t.pend ++ [x] }) = s.endedBy (fun t => { t with pend := t.pend ++ [x] }) none :=
    State.finishAt_modHere s h _ none (by simp) (State.endsLegally_eq hl)
  rw [e]
  have sp := State.endedBy_spec s h (fun t => { t with pend := t.pend ++ [x] }) none
  have he := State.here_endedBy s h (fun t => { t with pend := t.pend ++ [x] }) none
  refine ⟨sp.1, sp.2, ?_, ⟨fun r => ?_, fun p => ?_⟩, ?_, ?_⟩
  · rw [he]; simp [Thread.Frame]
  · unfold State.sr; rw [he]; simp [Thread.sreg]
  · unfold State.pr; rw [he]; simp [Thread.preg]
  · rw [he]
  · rw [he]

/-- A scalar result of a longer latency (R92). -/
theorem State.laterS_scalarOp (s : State) (h : s.Here = true) (hl : s.endsLegally = true) (L : Nat) (hL : 1 < L) (d : Sreg) (v : Word)
    (fl : Byte) : s.LaterS (s.scalarOp L d v fl) L d v fl := by
  unfold State.scalarOp State.writeS State.LaterS
  rw [if_neg (by omega)]
  exact State.queued_finish s h hl _

/-- A unit with no effect but its own transfer or none, to a legal target (R93, R218, R241). -/
theorem State.went_finishAt (s : State) (h : s.Here = true) (taken : Option Addr)
    (hl : ((taken.or s.loops.2).bind (targetFault s s.cur.agent)) = none) : s.Went (s.finishAt s taken) taken := by
  have i : s.modHere (fun t => t) = s := by
    unfold State.modHere
    cases s.cur.agent with
    | tile p t =>
      simp [State.modThread, State.modTile, State.modPart, Partition.modTile, Tile.modThread,
        show (fun t : Thread => t) = id from rfl, show (fun t : Tile => t) = id from rfl, show (fun t : Partition => t) = id from rfl]
    | ctrl d =>
      by_cases hd : d < 4
      · have : s.ctrls.set d s.ctrls[d] = s.ctrls := by simp
        simp only [State.modThread, State.modCtrl, hd, dif_pos]
        exact congrArg (fun c => { s with ctrls := c }) this
      · simp [State.modThread, State.modCtrl, hd]
  have e : s.finishAt s taken = s.endedBy (fun t => t) taken := by
    have := State.finishAt_modHere s h (fun t => t) taken (by simp) hl
    rwa [i] at this
  rw [e]
  have sp := State.endedBy_spec s h (fun t => t) taken
  have he := State.here_endedBy s h (fun t => t) taken
  refine ⟨sp.1, sp.2, ?_, ⟨fun r => ?_, fun p => ?_⟩, ?_, ?_⟩
  · rw [he]; simp [Thread.Frame]
  · unfold State.sr; rw [he]; simp [Thread.sreg]
  · unfold State.pr; rw [he]; simp [Thread.preg]
  · rw [he]
  · rw [he]

/-! ### Units that hold a fault (R218, R241) -/

/-- A unit that holds the fault of its target changes its thread's wait alone. -/
theorem State.onlyThread_holdTarget (s : State) (h : s.Here = true) (a : Addr) (r : Refuse) : s.OnlyThread (s.holdTarget a r) :=
  s.onlyThread_modHere h _

theorem State.here_holdTarget (s : State) (h : s.Here = true) (a : Addr) (r : Refuse) :
    (s.holdTarget a r).here = { s.here with wait := .target a r.1 r.2, waitFrom := s.cycle, readyAt := s.nextIssue true } :=
  s.here_modHere h _

/-- A blocking unit has its effects where its loop return is legal, and holds the fault where it is not. -/
theorem State.orHold_none (s0 s : State) (h : s0.returnRefused = none) : s0.orHold s = s := by
  unfold State.orHold; rw [h]

theorem State.orHold_some (s0 s : State) {a : Addr} {r : Refuse} (h : s0.returnRefused = some (a, r)) : s0.orHold s = s0.holdTarget a r := by
  unfold State.orHold; rw [h]

/-! ### Pending writes and waits (R92, R223, R338) -/

/-- What has no bit to set leaves every pending write as it is. -/
@[simp] theorem Thread.keepClear_zero (t : Thread) (cyc : Nat) (n : BitVec 12) : t.keepClear cyc n 0 = t := by
  have e (v : Word) : v &&& ~~~(0 : Word) = v := (congrArg (v &&& ·) (by decide : ~~~(0 : Word) = BitVec.allOnes 64)).trans BitVec.and_allOnes
  simp only [Thread.keepClear, e, ite_self, List.map_id']

/-- Loop counts that do not change leave every pending write as it is. -/
@[simp] theorem dropCounts_self (cyc : Nat) (lc : Vector Word 4) (ps : List Pend) : dropCounts cyc lc lc ps = ps := by
  simp [dropCounts]

/-- Waits that are read change queues alone. -/
theorem State.noteWaits_frame (s : State) : s.noteWaits = { s with fns := s.noteWaits.fns } := by
  have h : ∀ (l : List (Nat × Nat)) (u : State), u = { s with fns := u.fns } →
      let v := l.foldl (fun s x => match ((s.fn x.1).queue x.2).hold with
        | none => s
        | some h => if ((s.fn x.1).queue x.2).head = h ∧ s.waitOver ⟨x.1, x.2, h.toNat⟩ then s.modQueue x.1 x.2 fun Q => { Q with met := true } else s) u
      v = { s with fns := v.fns } := by
    intro l
    induction l with
    | nil => exact fun u h => h
    | cons x xs ih =>
      intro u hu
      refine ih _ ?_
      simp only
      cases ((u.fn x.1).queue x.2).hold with
      | none => exact hu
      | some h =>
        simp only
        split
        · rw [hu]; rfl
        · exact hu
  exact h s.waitQueues s rfl
/-! ### Bounded and ordered lists (R1, R14) -/

/-- A code line buffer never holds more than 512 lines, and holds the line that has come. -/
theorem length_putLine_le (ls : List Line) (l : Line) : (putLine ls l).length ≤ Config.lineBufferLines := by
  simp [putLine]

theorem mem_putLine (ls : List Line) (l : Line) : l ∈ putLine ls l := by
  simp [putLine, Config.lineBufferLines]

theorem length_enqueueFlit (q : List Waiting) (w : Waiting) : (enqueueFlit q w).length = q.length + 1 := by
  unfold enqueueFlit
  have h := congrArg List.length (List.takeWhile_append_dropWhile (p := fun x : Waiting => decide (x.cls ≤ w.cls)) (l := q))
  simp only [List.length_append, List.length_cons] at h ⊢
  omega

/-- A port's queue stays in class order. -/
theorem sorted_enqueueFlit (q : List Waiting) (w : Waiting) (h : q.Pairwise fun x y => x.cls ≤ y.cls) :
    (enqueueFlit q w).Pairwise fun x y => x.cls ≤ y.cls := by
  induction q with
  | nil => simp [enqueueFlit]
  | cons x xs ih =>
    rw [List.pairwise_cons] at h
    by_cases hx : x.cls ≤ w.cls
    · have e : enqueueFlit (x :: xs) w = x :: enqueueFlit xs w := by simp [enqueueFlit, hx]
      rw [e, List.pairwise_cons]
      refine ⟨fun y hy => ?_, ih h.2⟩
      simp only [enqueueFlit, List.mem_append, List.mem_cons] at hy
      rcases hy with hy | rfl | hy
      · exact h.1 y ((List.takeWhile_sublist _).subset hy)
      · exact hx
      · exact h.1 y ((List.dropWhile_sublist _).subset hy)
    · have e : enqueueFlit (x :: xs) w = w :: x :: xs := by simp [enqueueFlit, hx]
      rw [e, List.pairwise_cons, List.pairwise_cons]
      refine ⟨fun y hy => ?_, h⟩
      rcases List.mem_cons.mp hy with rfl | hy
      · omega
      · have := h.1 y hy; omega

/-! ### What lands before a trap, channels in service, and what an operation sees -/

/-- A trap finds nothing to land first where no write of a trap register is due (R175, R223). -/
theorem Thread.landTrap_of_none_due {t : Thread} {c : Nat} (h : ∀ x ∈ t.pend, x.csrDue c isTrapCsr = false) : t.landTrap c = t := by
  have h1 : t.pend.filter (Pend.csrDue c isTrapCsr) = [] := List.filter_eq_nil_iff.2 fun x hx => by
    rw [show Pend.csrDue c isTrapCsr x = x.csrDue c isTrapCsr from rfl, h x hx]; decide
  have h2 : (t.pend.filter fun x => !x.csrDue c isTrapCsr) = t.pend := List.filter_eq_self.2 fun x hx => by rw [h x hx]; rfl
  unfold Thread.landTrap
  rw [h1, h2]; rfl

/-- With no channel in training nothing waits for one (R344). -/
theorem State.rangeHeld_in_service {s : State} (h : s.chans.toList.any (·.train) = false) (l : Loc) (n : Nat) : s.rangeHeld l n = false := by
  simp [State.rangeHeld, h]

theorem State.heldChans_in_service {s : State} (h : s.chans.toList.any (·.train) = false) (l : Loc) (n : Nat) : s.heldChans l n = [] := by
  simp [State.heldChans, h]

/-- Host memory is behind no channel. -/
theorem State.rangeHeld_host (s : State) (a n : Nat) : s.rangeHeld ⟨true, a⟩ n = false := by simp [State.rangeHeld]

/-- An operation that nothing happens before sees what has landed (R124). -/
theorem Tile.seenAfter_nil (T : Tile) : T.seenAfter [] = T := by
  unfold Tile.seenAfter
  suffices h : ∀ (l : List Pend) (U : Tile), (l.foldl (fun T x => match x.dest with
      | .row w => if ([] : List Nat).contains w.id then T.writeLatent .c w else T
      | .s _ | .p _ | .csr _ => T) U) = U from h _ T
  intro l
  induction l with
  | nil => intro U; rfl
  | cons x xs ih => intro U; rw [List.foldl_cons, ih]; cases x.dest <;> simp

end Sys2Proof.Machine
end

