-- ==== Sys2Proof/Tests/Slice0.lean ====
section
/-!
SUPPORT. Tests of one step each on small states: ill-formed terms, words of the manual and what they decode to, and for each statement a
state and operands that meet what it assumes. The clauses of the statements that need a good signature or digest (a boot image, a mailbox
image, a restored sheet) rest on free values of Config (log entry 6), so no closed term meets them and none stands here.
-/

namespace Sys2Proof.Tests

open Sys2Proof Sys2Proof.Machine Sys2Proof.Claims

set_option maxRecDepth 100000
set_option synthInstance.maxSize 4096
set_option synthInstance.maxHeartbeats 400000

/-! ### Small states -/

/-- A partition of one pod, whose record 0 runs on two lines of one `nop` each; thread 0 of tile 0 is `f` of its own, and the tile
`g`. Its translation is empty, so that no fault record is written. -/
def demoPart (f : Thread → Thread) (g : Tile → Tile) : Partition :=
  let P := fetchPart (lineOf 0x0008 [])
  { P with
    trans := []
    tiles := P.tiles.modify 0 fun T => g { T with threads := T.threads.modify 0 f, lines := ⟨64, lineOf 0x0008 []⟩ :: T.lines } }

/-- Every channel in service (R344). -/
def inService : Vector Channel 256 := Vector.replicate 256 { Channel.zero with train := false }

/-- The machine with that partition, at cycle 100; thread 0 of tile 0 is the current one. -/
def demo (f : Thread → Thread) (g : Tile → Tile := id) (h : Partition → Partition := id) : State :=
  { State.reset with
    chans := inService, boot := { State.reset.boot with done := true }, cur := ⟨.tile 0 0, 0⟩, parts := h (demoPart f g) :: List.replicate 63 Partition.absent
    cycle := 100, ptime := 100 }

/-- The machine with the controller of die 0 in firmware mode as the current one. -/
def demoCtrl (f : Thread → Thread) (m : Memory := []) : State :=
  { State.reset with
    chans := inService, boot := { State.reset.boot with done := true }, cur := ⟨.ctrl 0, 0⟩, cycle := 100, ptime := 100, hbm := m
    ctrls := State.reset.ctrls.set 0 ⟨f { Ctrl.zero.th with task := .running, tvec := 0x40, unit := ⟨0, 2, false, 0, 0x4300⟩ }, [],
      [⟨0, lineOf 0x0008 []⟩], [], none⟩ }

/-- Registers of a thread, whose unit of one head stands at address 0. -/
def regs (l : List (Sreg × Word)) (t : Thread) : Thread :=
  { t with regs := l.foldl (fun v x => v.set x.1 x.2) t.regs, unit := ⟨0, 2, false, 0, 0x4300⟩, slim := 64 }

/-- The state after an instruction. -/
def after (i : Instr) (s : State) : State := match exec i s with
  | .next t => t
  | _ => State.reset

/-- What a thread of the current tile waits to have written: values and flags, in order. -/
def pending (s : State) : List (Word × Byte) := s.here.pend.map fun x => (x.val, x.flags)

/-- The cause and detail of the trap that the current thread took, and the address that it saved. -/
def trapped (s : State) : Byte × Word × Addr := (s.here.tcause, s.here.tdet, s.here.tepc)

/-! ### Ill-formed terms are refused -/

def ld (d : Sreg) (o : Order) (sc : Scope) : Instr := .ldDAtom d ⟨0, .g, sc, o, 3⟩
def st (d : Sreg) (o : Order) (sc : Scope) : Instr := .stWAtom d ⟨0, .g, sc, o, 3⟩

/-- R248: an order that a load or a store does not take, and a relaxed access with a scope. -/
theorem test_wf_loads : (ld 1 .acq .part).wf = true ∧ (ld 1 .relaxed .thr).wf = true ∧ (ld 1 .rel .part).wf = false ∧
    (ld 1 .relaxed .pod).wf = false := by decide
theorem test_wf_stores : (st 1 .rel .sys).wf = true ∧ (st 1 .acq .part).wf = false ∧ (st 1 .relaxed .tile).wf = false := by decide
/-- R247, R251: an atomic on a tile buffer is well-formed, and its check raises PROT; of firmware it raises PRIV, and misaligned ALIGN. -/
theorem test_atomics_on_buffers : let i : Instr := .amoAdd 1 ⟨0, .a, .thr, .ar, 3⟩ 2
    i.wf = true ∧ (Instr.cas 1 ⟨0, .w, .thr, .ar, 3⟩ 2 4).wf = true ∧ accessCheck (demo (regs [])) .a 0x100 8 8 .atomic = some (.prot, 0x100) ∧
    accessCheck (demo (regs [])) .w 0x102 8 8 .atomic = some (.align, 0x102) ∧ trapped (after i (demoCtrl (regs [(3, 0x100)]))) = (0x05, 0x100, 0) := by decide
/-- R252: a fence of order 0. -/
theorem test_wf_fence : (Instr.fence .acq .part).wf = true ∧ (Instr.fence .relaxed .part).wf = false := by decide
/-- R262: a length of 0 or above 6,144 granules. -/
theorem test_wf_wbk : (Instr.wbk 1 .c 0 6144 0 ⟨false, 0⟩).wf = true ∧ (Instr.wbk 1 .c 0 0 0 ⟨false, 0⟩).wf = false ∧
    (Instr.wbk 1 .c 0 6145 0 ⟨false, 0⟩).wf = false := by decide
/-- R283: `a b add end`; an empty stack, two entries left, and a token after the end. -/
theorem test_wf_expr : (Instr.expr 0x0521 0 1 2 3).wf = true ∧ (Instr.expr 0x051 0 1 2 3).wf = false ∧
    (Instr.expr 0x021 0 1 2 3).wf = false ∧ (Instr.expr 0x10001 0 1 2 3).wf = false ∧ (Instr.expr 0 0 1 2 3).wf = false := by decide
/-- R287: A format 3 or 6, and a queue in a dense form. -/
theorem test_wf_mma : (Instr.mma .bf16 .n16 3 5 0 0 0 0 ⟨false, 0⟩).wf = true ∧ (Instr.mma .f32 .n16 3 5 0 0 0 0 ⟨false, 0⟩).wf = false ∧
    (Instr.mma .i32 .n32 0 5 0 0 0 0 ⟨false, 0⟩).wf = false ∧ (Instr.mma .i8 .n32 1 5 0 0 0 0 ⟨false, 0⟩).wf = false := by decide
/-- R291: A format 3. -/
theorem test_wf_mldt : (Instr.mldt .f32 0 0 0 ⟨false, 0⟩).wf = true ∧ (Instr.mldt .i32 0 0 0 ⟨false, 0⟩).wf = false := by decide
/-- R296: a pitch in the row form. -/
theorem test_wf_quant : (Instr.quant true false 0 2 127 1 0 ⟨false, 0⟩).wf = true ∧ (Instr.quant false false 0 2 127 1 0 ⟨false, 0⟩).wf = false := by decide
/-- R316: a number that the map does not assign. -/
theorem test_wf_csr : (Instr.csrr 1 0x120).wf = true ∧ (Instr.csrr 1 0x007).wf = false ∧ (Instr.csrwImm 0x115 0).wf = false := by decide

/-! ### Words of the manual decode to what they stand for: the head in the upper 16 bits, the tail below (R212, R219) -/

/-- The scalar families: R238, R244 and the worked example of spec/11; R233, R237, R240 by their tables. -/
theorem test_word_nop : decodeTableWord 16 0x0000 = some .nopInstruction := by decide
theorem test_word_yield : decodeTableWord 16 0x0001 = some .yield := by decide
theorem test_word_add : decodeTableWord 32 0x430018A5 = some (.addReg 5 5 6) := by decide
theorem test_word_shl : decodeTableWord 48 0x830500000CA7 = some (.shlImm 7 5 3) := by decide
theorem test_word_cmp : decodeTableWord 32 0x47022503 = some (.cmpLtReg 3 8 9) := by decide
theorem test_word_mul : decodeTableWord 32 0b0100010000000000_0_00110_00101_00111 = some (.mulReg 7 5 6) := by decide
theorem test_word_sel : decodeTableWord 48 0b1000011000000001_000000000000_00010_00110_00101_00111 = some (.sel 7 2 5 6) := by decide
theorem test_word_pset : decodeTableWord 32 0b0100101100000101_0_00000_00001_00011 = some (.pset 3 true) := by decide
theorem test_word_fma : decodeTableWord 48 0b1000100000000111_000000000000_00100_00011_00010_00001 = some (.fma 1 2 3 4) := by decide
theorem test_word_fcvt : decodeTableWord 32 0b0100101000000010_0_00011_00110_00101 = some (.fcvtS .rd 5 6) := by decide
theorem test_word_fcmp : decodeTableWord 32 0b0100100100000100_0_00010_00001_00111 = some (.fcmpUn 7 1 2) := by decide
theorem test_word_br : decodeTableWord 48 0b1000110000000000_000_111111111111111111111111_00110 = some (.br ⟨0xFFFFFF, 6⟩) := by decide
theorem test_word_loop : decodeTableWord 80 0b1100110000000101_000000000000000000000111_00000_1_10_000_000000000000000000000001_00011 =
    some (.loop 2 (.imm 7) ⟨1, 3⟩) := by decide
theorem test_word_enter : decodeTableWord 48 0x8D000000C000 = some (.enter 6) := by decide
theorem test_word_leave : decodeTableWord 48 0x8D010000C000 = some (.leave 6) := by decide
/-- spec/12, R217: an address operand is a head index of 0 to 31; reserved bits that are set are refused by none (R220). -/
theorem test_word_reserved : decodeTableWord 16 0x0100 = none ∧ decodeTableWord 32 0x430098A5 = none ∧ decodeTableWord 48 0x8D000000C400 = none := by decide

/-- Memory (R248, R251, R252, R253, R257, R260, R263, R264, R293, R306): `st.w m:s4+0x1FC, s8` of spec/22, `wbk g:s11, acc, 256` of
R263, and words from the tables. -/
theorem test_word_st : decodeTableWord 48 0x9102003F9088 = some (.stWMem 8 ⟨0x1FC, .m, 4⟩) := by decide
theorem test_word_ld : decodeTableWord 80 0b1101000000000110_11111111111111111111111111111000_000_011_011_001_00000_00000_00101_00100 =
    some (.ldDAtom 4 ⟨0xFFFFFFF8, .g, .part, .acq, 5⟩) := by decide
theorem test_word_amo : decodeTableWord 80 0b1101001000000000_00000000000000000000000000001000_000_011_011_011_00000_00110_00101_00100 =
    some (.amoAdd 4 ⟨8, .g, .part, .ar, 5⟩ 6) := by decide
theorem test_word_cas : decodeTableWord 80 0b1101001100000000_00000000000000000000000000000000_000_100_000_000_00111_00110_00101_00100 =
    some (.cas 4 ⟨0, .m, .thr, .relaxed, 5⟩ 6 7) := by decide
theorem test_word_fence : decodeTableWord 32 0b0101001100000010_0000000000_011_011 = some (.fence .ar .part) := by decide
theorem test_word_waitf : decodeTableWord 48 0b1001010000000000_0000000000000000000100_00000_00001 = some (.waitf 1 0 4) := by decide
theorem test_word_fix : decodeTableWord 80 0b1101010100000001_00000000000000000000000000101000_00010_0000000000000000000011_00000 =
    some (.fixEnd 0x28 2 3) := by decide
theorem test_word_vote : decodeTableWord 48 0b1001010100000010_0000000000000000000001_00110_00000 = some (.vote 1 6) := by decide
theorem test_word_wbk : decodeTableWord 80 0xD5045C00000008000000 = some (.wbk 11 .c 0 4 0 ⟨false, 0⟩) := by decide
theorem test_word_twait : decodeTableWord 32 0b0101011000000010_0_00000_00101_00001 = some (.twait 1 5) := by decide
theorem test_word_waits : decodeTableWord 32 0x56000002 = some (.kwait 2) ∧ decodeTableWord 16 0x1601 = some .mwait ∧
    decodeTableWord 16 0x2300 = some .xsync := by decide

/-- Vector rows (R270, R274, R281, R282, R283): words that the manual writes out, and `vcvt.rz.i8 v2, v1, 1`. -/
theorem test_word_vfma : decodeTableWord 48 0x980700002043 = some (.vfma 3 1 (.row 2) 0 false) := by decide
theorem test_word_vadd : decodeTableWord 48 0b1001100000000000_00000011_000000_000101_000001_000011 = some (.vadd 3 1 (.scalar 5) true) := by decide
theorem test_word_vcvt : decodeTableWord 48 0b1001110000000001_00010000_000000_000000_000001_000010 = some (.vcvt .rz .i8 1 2 1) := by decide
theorem test_word_mpdef : decodeTableWord 80 0xDF000000080200000000 = some (.mpdef 0 2 2) := by decide
theorem test_word_mprun : decodeTableWord 48 0x9FE100000000 = some (.mprun 0 0 0 0 0) := by decide
theorem test_word_expr : decodeGoverned 0x9F02 0b00000000_000011_000010_000001_000000 (.token 0x0521) = some (.expr 0x0521 0 1 2 3) ∧
    decodeGoverned 0x9F02 0b00000000_000011_000010_000001_000000 .none = none := by decide

/-- Matrix commands (R287, R291, R292, R296): the words of the key listing, of spec/17 and of R291. -/
theorem test_word_mma : decodeTableWord 80 0xE000A050000000000000 = some (.mma .bf16 .n32 0 5 0 0 0 0 ⟨false, 0⟩) := by decide
theorem test_word_mma_pixels : decodeTableWord 80 0xE0000110000000000020 = some (.mma .i8 .n32 0 17 0 0 0 1 ⟨false, 0⟩) := by decide
theorem test_word_mzero : decodeTableWord 80 0xE0020000000000000000 = some (.mzero 0 ⟨false, 0⟩) := by decide
theorem test_word_mldt : decodeTableWord 80 0b1110000000000001_110_000000000_000000000010_000000000001_00000000000000000000_011_1_0101 =
    some (.mldt .f32 2 1 3 ⟨true, 5⟩) := by decide

/-- Engines, exchange, records and system (R299, R308, R310, R311, R313, R318 to R321): the words of spec/16. -/
theorem test_word_cpy : decodeTableWord 80 0xE2010C0A300000020012 = some (.cpy 1 (.mem .w 0 0) (.mem .g 10 0x800) 6 ⟨true, 2⟩) := by decide
theorem test_word_cpy_ring : decodeTableWord 80 0xE200AC2A300000000011 = some (.cpy 0 (.ring 1) (.mem .g 10 0) 6 ⟨true, 1⟩) := by decide
theorem test_word_xsel : decodeTableWord 80 0xE3020080800000000014 = some (.xsel 8 0 0x200 ⟨true, 4⟩) := by decide
theorem test_word_xmit : decodeTableWord 80 0b1110001100000001_000000001000_1111111111111110_011_1_000000000100_000000000000000_1_0010 =
    some (.xmit 8 0xFFFE 3 true 4 ⟨true, 2⟩) := by decide
theorem test_word_enl : decodeTableWord 80 0b1110010000000000_000000000011_00111_00000000000000000000000000000000000000000_1_0001_0 = none ∧
    decodeTableWord 80 0b1110010000000000_000000000011_00111_000000000000000000000000000000000000000000_1_0001 = some (.enl 3 7 ⟨true, 1⟩) := by decide
theorem test_word_rsto : decodeTableWord 80 0b1110010000000001_00101_00110_11111111111111111000_1_0000000000000000000000000000_0_0000 =
    some (.rsto 5 6 0xFFFF8 true ⟨false, 0⟩) := by decide
theorem test_word_cpost : decodeTableWord 80 0b1110010000000010_00101_00110_10_0000000000000100_00000000000000001000_00000000000_1_0011 =
    some (.cpost 5 6 true 4 8 ⟨true, 3⟩) := by decide
theorem test_word_records : decodeTableWord 80 0b1110010100000000_00101_00000000000000000000000000000000000000000000000000000000000 = some (.armInstruction 5) ∧
    decodeTableWord 80 0b1110010100000001_00101_00110_00001000_011_0000000000000000000000000000000000000000000 = some (.patchInstruction 5 6 8 3) ∧
    decodeTableWord 80 0b1110010100000010_00101_00110_1_00000000000000000000000000000000000000000000000000000 = some (.postInstruction 5 (some 6)) ∧
    decodeTableWord 80 0b1110010100000010_00101_00110_0_00000000000000000000000000000000000000000000000000000 = none := by decide
theorem test_word_signal : decodeTableWord 80 0b1110010100000011_00101_00110_10_00000000000000010000_000000000000000000000000000_0_0000 =
    some (.signalInstruction 5 6 .add 16 ⟨false, 0⟩) := by decide
theorem test_word_csr : decodeTableWord 48 0xBC2000000003 = some (.csrr 3 0x000) ∧
    decodeGoverned 0xBC21 0x00040420 (.wide 0x5400300000000000) = some (.csrwImm 0x101 0x5400300000000000) := by decide
theorem test_word_trap : decodeTableWord 48 0xBC020000A800 = some (.trap 0x2A) := by decide
theorem test_word_rft_halt : decodeTableWord 16 0x3C03 = some .rft ∧ decodeTableWord 16 0x3C04 = some .halt := by decide
theorem test_word_tlbi : decodeTableWord 80 0b1111110000000101_00101_00110_00111_0_000000000000000000000000000000000000000000000000 = some (.tlbi 5 6 7) ∧
    decodeTableWord 80 0b1111110000000101_00101_00000_00000_1_000000000000000000000000000000000000000000000000 = some (.tlbiAll 5) := by decide

/-! ### One step of each scalar and control instruction (the tables and examples of spec/12) -/

/-- R229. -/
theorem test_add_wraps : (after (.addReg 3 1 2) (demo (regs [(1, 5), (2, 0xFFFFFFFFFFFFFFFF)]))).sr 3 = 4 := by decide
theorem test_sub_into_its_source : (after (.subImm 1 1 7) (demo (regs [(1, 5)]))).sr 1 = 0xFFFFFFFFFFFFFFFE := by decide
theorem test_shl_takes_six_bits : (after (.shlImm 5 6 65) (demo (regs [(6, 0x8000000000000003)]))).sr 5 = 6 := by decide
theorem test_sra_fills_with_the_sign : (after (.sraReg 5 6 7) (demo (regs [(6, 0x8000000000000000), (7, 63)]))).sr 5 = 0xFFFFFFFFFFFFFFFF := by decide
theorem test_min_signed_and_unsigned : (after (.minReg 3 1 2) (demo (regs [(1, 5), (2, 0xFFFFFFFFFFFFFFFF)]))).sr 3 = 0xFFFFFFFFFFFFFFFF ∧
    (after (.minuReg 3 1 2) (demo (regs [(1, 5), (2, 0xFFFFFFFFFFFFFFFF)]))).sr 3 = 5 := by decide
theorem test_andn_orn : (after (.andnImm 3 1 0xF0) (demo (regs [(1, 0xFF)]))).sr 3 = 0x0F ∧
    (after (.ornImm 3 1 0xFFFFFFFFFFFFFFF0) (demo (regs [(1, 0x100)]))).sr 3 = 0x10F := by decide
theorem test_clz_popc : (after (.clz 3 1) (demo (regs [(1, 0x10)]))).sr 3 = 59 ∧ (after (.clz 3 0) (demo (regs []))).sr 3 = 64 ∧
    (after (.popc 3 1) (demo (regs [(1, 0xF0F)]))).sr 3 = 8 := by decide
/-- R226: a write to s0 is discarded. -/
theorem test_s0_reads_zero : (after (.addImm 0 1 7) (demo (regs [(1, 5)]))).sr 0 = 0 := by decide
/-- R230: the table's rows, and the high half of a product. -/
theorem test_div_table : pending (after (.divReg 3 1 2) (demo (regs [(1, 7), (2, -2)]))) = [(-3, 0)] ∧
    pending (after (.remReg 3 1 2) (demo (regs [(1, -7), (2, 2)]))) = [(-1, 0)] ∧
    pending (after (.divuReg 3 1 2) (demo (regs [(1, -7), (2, 2)]))) = [(0x7FFFFFFFFFFFFFFC, 0)] ∧
    pending (after (.remuReg 3 1 2) (demo (regs [(1, 7), (2, -2)]))) = [(7, 0)] := by decide
theorem test_div_corners : pending (after (.divReg 3 1 2) (demo (regs [(1, 5), (2, 0)]))) = [(-1, 0)] ∧
    pending (after (.remReg 3 1 2) (demo (regs [(1, 5), (2, 0)]))) = [(5, 0)] ∧
    pending (after (.divReg 3 1 2) (demo (regs [(1, 0x8000000000000000), (2, -1)]))) = [(0x8000000000000000, 0)] ∧
    pending (after (.remReg 3 1 2) (demo (regs [(1, 0x8000000000000000), (2, -1)]))) = [(0, 0)] := by decide
theorem test_mulh : pending (after (.mulhReg 3 1 2) (demo (regs [(1, -1), (2, 2)]))) = [(-1, 0)] ∧
    pending (after (.mulhuReg 3 1 2) (demo (regs [(1, -1), (2, 2)]))) = [(1, 0)] := by decide
/-- R231. -/
theorem test_sext_zext : (after (.sext 3 1 7) (demo (regs [(1, 0x180)]))).sr 3 = 0xFFFFFFFFFFFFFF80 ∧
    (after (.zext 3 1 7) (demo (regs [(1, 0x180)]))).sr 3 = 0x80 ∧ (after (.sext 3 1 63) (demo (regs [(1, 0x180)]))).sr 3 = 0x180 := by decide
theorem test_sel : (after (.sel 3 0 1 2) (demo (regs [(1, 5), (2, 6)]))).sr 3 = 5 ∧ (after (.sel 3 1 1 2) (demo (regs [(1, 5), (2, 6)]))).sr 3 = 6 := by decide
/-- R232, R233: the examples. -/
theorem test_cmp_ltu_minus_one : (after (.cmpLtuImm 1 4 (-1)) (demo (regs [(4, 0xFFFFFFFFFFFFFFFE)]))).pr 1 = true ∧
    (after (.cmpLtuImm 1 4 (-1)) (demo (regs [(4, -1)]))).pr 1 = false ∧ (after (.cmpLtImm 1 4 (-1)) (demo (regs [(4, 0)]))).pr 1 = false := by decide
theorem test_psave : (after (.psave 9) (demo fun t => { regs [] t with preds := #v[false, true, false, true, false, false, false, false] })).sr 9 = 0xB := by decide
theorem test_pload : let s := after (.pload 9) (demo fun t => { regs [(9, 0xFFFFFFFFFFFFFF0A)] t with preds := Vector.replicate 8 true })
    List.map s.pr [0, 1, 2, 3, 4, 5, 6, 7] = [true, true, false, true, false, false, false, false] := by decide
theorem test_pxor_pnot : (after (.pxor 1 0 0) (demo (regs []))).pr 1 = false ∧ (after (.pnot 1 0) (demo (regs []))).pr 1 = false ∧
    (after (.pset 0 false) (demo (regs []))).pr 0 = true := by decide
/-- R235: 1 + 1; 2^24 + 1 is a tie to even; 0 × inf sets NV under a quiet NaN; minimum and maximum of a number and a NaN, and of zeros. -/
theorem test_fadd : pending (after (.fadd 3 1 2) (demo (regs [(1, 0x3F800000), (2, 0x3F800000)]))) = [(0x40000000, 0)] ∧
    pending (after (.fadd 3 1 2) (demo (regs [(1, 0x4B800000), (2, 0x3F800000)]))) = [(0x4B800000, 0x01)] := by decide
theorem test_fma : pending (after (.fma 3 1 2 4) (demo (regs [(1, 0), (2, 0x7F800000), (4, 0x7FC00000)]))) = [(0x7FC00000, 0x10)] := by decide
theorem test_fmin_fmax : pending (after (.fmin 3 1 2) (demo (regs [(1, 0x7FC00001), (2, 0x3F800000)]))) = [(0x3F800000, 0)] ∧
    pending (after (.fmax 3 1 2) (demo (regs [(1, 0x80000000), (2, 0)]))) = [(0, 0)] := by decide
theorem test_fneg_fabs : pending (after (.fneg 3 1) (demo (regs [(1, 0x7F800001)]))) = [(0xFF800001, 0)] ∧
    pending (after (.fabs 3 1) (demo (regs [(1, 0xFFC00000)]))) = [(0x7FC00000, 0)] := by decide
/-- R234: 1 / 0 sets DZ; the square root of −0 is −0. -/
theorem test_fdiv_fsqrt : pending (after (.fdiv 3 1 2) (demo (regs [(1, 0x3F800000), (2, 0)]))) = [(0x7F800000, 0x08)] ∧
    pending (after (.fsqrt 3 1) (demo (regs [(1, 0x80000000)]))) = [(0x80000000, 0)] ∧
    pending (after (.fsqrt 3 1) (demo (regs [(1, 0x40800000)]))) = [(0x40000000, 0)] := by decide
/-- R236: zeros compare equal; `.lt` sets NV for a quiet NaN, `.ne` does not. -/
theorem test_fcmp : let s := after (.fcmpEq 1 1 2) (demo (regs [(1, 0x80000000), (2, 0)]))
    let t := after (.fcmpLt 1 1 2) (demo (regs [(1, 0x7FC00000), (2, 0)]))
    let u := after (.fcmpNe 1 1 2) (demo (regs [(1, 0x7FC00000), (2, 0)]))
    s.pr 1 = true ∧ t.pr 1 = false ∧ t.here.fflag = 0x10 ∧ u.pr 1 = true ∧ u.here.fflag = 0 := by decide
/-- R237: the rows of its table. -/
theorem test_fcvt_table : pending (after (.fcvtS .rne 3 1) (demo (regs [(1, 0xC0200000)]))) = [(-2, 0x01)] ∧
    pending (after (.fcvtS .rd 3 1) (demo (regs [(1, 0xC0200000)]))) = [(-3, 0x01)] ∧
    pending (after (.fcvtU .rz 3 1) (demo (regs [(1, 0xBF000000)]))) = [(0, 0x01)] ∧
    pending (after (.fcvtU .rne 3 1) (demo (regs [(1, 0xC0200000)]))) = [(0, 0x51)] := by decide
theorem test_fcvt_edges : pending (after (.fcvtS .rne 3 1) (demo (regs [(1, 0x5F000000)]))) = [(0x7FFFFFFFFFFFFFFF, 0x51)] ∧
    pending (after (.fcvtU .rne 3 1) (demo (regs [(1, 0x5F000000)]))) = [(0x8000000000000000, 0)] ∧
    pending (after (.fcvtS .rne 3 1) (demo (regs [(1, 0x7FC00000)]))) = [(0, 0x10)] := by decide
theorem test_scvt : pending (after (.scvtF .rne 3 1) (demo (regs [(1, 16777217)]))) = [(0x4B800000, 0x01)] ∧
    pending (after (.scvtF .ru 3 1) (demo (regs [(1, 16777217)]))) = [(0x4B800001, 0x01)] ∧
    pending (after (.ucvtF .rne 3 1) (demo (regs [(1, -1)]))) = [(0x5F800000, 0x01)] := by decide
theorem test_fclass : pending (after (.fclass 3 1) (demo (regs [(1, 0xFF800000)]))) = [(0x001, 0)] ∧
    pending (after (.fclass 3 1) (demo (regs [(1, 0x00000001)]))) = [(0x020, 0)] ∧
    pending (after (.fclass 3 1) (demo (regs [(1, 0x7F800001)]))) = [(0x100, 0)] := by decide
/-- R238: `yield` passes issue on (R91). -/
theorem test_yield : (after .yield (demo (regs []))).hereTile.passes 101 = true ∧ (after .nopInstruction (demo (regs []))).here.pc = 2 := by decide
/-- R239: `callr s1` jumps to the old s1 and links; an odd address raises ILLEGAL_TARGET, and writes no link. -/
theorem test_callr : let s := after (.callr 1) (demo (regs [(1, 0)]))
    s.here.pc = 0 ∧ s.sr 1 = 2 ∧ (after (.callr 4) (demoCtrl (regs [(1, 9), (4, 1)]))).sr 1 = 9 ∧
    trapped (after (.callr 4) (demoCtrl (regs [(1, 9), (4, 1)]))) = (0x04, 1, 0) := by decide
theorem test_br_ret : (after (.br ⟨0, 0⟩) (demo fun t => { regs [] t with unit := ⟨0, 64, false, 0, 0⟩ })).here.pc = 0 ∧
    (after .ret (demo (regs [(1, 0xFE00000000000000)]))).here.pc = 0 ∧ (after (.call ⟨0, 0⟩) (demo (regs []))).sr 1 = 2 ∧
    (after (.brr 5) (demoCtrl (regs [(5, 2)]))).here.wait = .target 2 .illegalTarget 2 ∧ (after (.brr 5) (demoCtrl (regs [(5, 2)]))).here.pc = 0 := by decide
/-- R218: the fault of a target that begins no unit is raised, on the transferring unit, when the thread would issue there. -/
theorem test_held_target : trapped (match (demoCtrl fun t => { regs [(5, 2)] t with wait := .target 2 .illegalTarget 2 }).issue (.ctrl 0) 0 with
    | .settled t => t
    | .runs t _ => t) = (0x04, 2, 0) := by decide
/-- R240, R241: a level is set up, and its end unit counts it; a count of 0 goes past the end unit. -/
theorem test_loop : let s := after (.loop 2 (.imm 3) ⟨0, 0⟩) (demo fun t => { regs [] t with unit := ⟨64, 0, false, 0, 0⟩ })
    s.here.lb[2] = 0 ∧ s.here.le[2] = 64 ∧ s.here.lc[2] = 2 ∧ s.here.pc = 0 := by decide
theorem test_loop_end : let s := after .nopInstruction (demo fun t => { regs [] t with lc := #v[3, 1, 0, 0], le := #v[0, 0, 0, 0], lb := #v[0, 0, 0, 0] })
    s.here.lc = #v[2, 0, 0, 0] ∧ s.here.pc = 0 := by decide
/-- R242: the level nested in the body closes with the level that is left, the one around it does not. -/
theorem test_lexit : let s := after (.lexit 1) (demo fun t => { regs [] t with unit := ⟨2, 4, false, 0, 0⟩, lc := #v[7, 5, 6, 0], le := #v[0x80, 0x00, 0x00, 0], lb := #v[0, 0, 0, 0] })
    s.here.lc = #v[7, 0, 0, 0] := by decide
/-- R244: the example of the rule. -/
theorem test_enter : (after (.enter 512) (demo fun t => { regs [(2, 0x40000)] t with slim := 0x3F000 })).sr 2 = 0x3F000 ∧
    trapped (after (.enter 1) (demoCtrl fun t => { regs [(2, 0x3F000)] t with slim := 0x3F000 })) = (0x0A, 0x3EFF8, 0) ∧
    (after (.enter 1) (demoCtrl fun t => { regs [(2, 0x3F000)] t with slim := 0x3F000 })).sr 2 = 0x3F000 := by decide
theorem test_leave : (after (.leave 6) (demo (regs [(2, 0xFFFFFFFFFFFFFFF0)]))).sr 2 = 32 := by decide

/-! ### Hypotheses of the scalar and control statements are met -/

theorem witness_integer_results : let s := demo (regs [(1, 5), (2, 7)])
    integerEffect s (.addReg 3 1 2) = some (3, 12) ∧ s.Here = true ∧ s.endsLegally = true := by decide
theorem witness_moves : let s := demo (regs [(1, 0x180)])
    moveEffect s (.sext 3 1 7) = some (3, 0xFFFFFFFFFFFFFF80) ∧ s.Here = true ∧ s.endsLegally = true := by decide
theorem witness_products : let s := demo (regs [(1, 0x8000000000000000), (2, -1)])
    productEffect s (.divReg 3 1 2) = some (16, 3, 0x8000000000000000) ∧ s.Here = true ∧ s.endsLegally = true := by decide
theorem witness_predicates : let s := demo (regs [(1, 0x8000000000000000), (2, -1)])
    predicateEffect s (.cmpLtReg 7 1 2) = some (7, true) ∧ s.Here = true ∧ s.endsLegally = true := by decide
theorem witness_float_results : let s := demo (regs [(1, 0x7F800000), (2, 0xFF800000)])
    fpEffect s (.fadd 3 1 2) = some (4, 3, 0x7FC00000, 0x10) ∧ s.Here = true ∧ s.endsLegally = true ∧ isNan32 0x7FC00000 = true := by decide
/-- 1 + 2^24, which lies half way between two FP32 numbers. -/
theorem witness_nearest : ∃ vx vy vz r, f32Val 0x3F800000 = some vx ∧ f32Val 0x4B800000 = some vy ∧ f32Val 0x4B800001 = some vz ∧
    f32Val (f32add 0x3F800000 0x4B800000).bits = some r := ⟨_, _, _, _, rfl, rfl, rfl, rfl⟩
theorem witness_float_bits : let s := demo (regs [(1, 0x7F800001), (2, 0x80000000)])
    fpBitEffect s (.fmin 3 1 2) = some (3, 0x80000000, 0x10) ∧ fcmpEffect s (.fcmpLt 1 1 2) = some (1, false, true) ∧
    classBit (f32 (s.sr 1)) = 8 ∧ s.Here = true ∧ s.endsLegally = true := by decide
/-- A legal target, an odd one, one that begins no unit, and one whose line no extent maps. -/
theorem witness_transfers : let s := demo (regs [(1, 64), (4, 65), (5, 66), (6, 0x10000)])
    transfer s (.callr 1) = some (64, some 2) ∧ targetFault s s.cur.agent 64 = none ∧ transfer s (.brr 4) = some (65, none) ∧
    targetFault s s.cur.agent 65 = some (.illegalTarget, 65) ∧ targetFault s s.cur.agent 66 = some (.illegalTarget, 66) ∧
    (s.lineAt s.cur.agent 64).isSome = true ∧ s.lineAt s.cur.agent 0x10000 = none ∧
    targetFault s s.cur.agent 0x10000 = some (.unstaged, 0x10000) ∧ lineCheck s s.cur.agent 0x10000 = some (.unstaged, 0x10000) ∧
    decodeLine (s.lineBytes s.cur.agent 128) = none ∧ targetFault s s.cur.agent 128 = some (.illegalLine, 128) := by decide
theorem witness_loop : let s := demo (regs [(4, 0)])
    let u : Thread := { s.here with lb := s.here.lb.set 1 2, le := s.here.le.set 1 64, lc := s.here.lc.set 1 3 }
    s.Here = true ∧ (3 : Word) ≠ 0 ∧ ((loopEnd s.here.unit.addr u).2.bind (targetFault s s.cur.agent)) = none ∧ s.sr 4 = 0 ∧
    targetFault s s.cur.agent (nextUnitAt s s.cur.agent 0) = none ∧
    targetFault s s.cur.agent (nextUnitAt s s.cur.agent 64) = some (.illegalLine, 128) := by decide
/-- Levels 3 and 1 end at the unit, the upper one on its last pass; then both on it; then none. -/
theorem witness_loop_end : let t : Thread := { Thread.zero with lc := #v[0, 4, 0, 1], le := #v[8, 8, 0, 8], lb := #v[0, 2, 0, 4] }
    (t.lc[3] ≠ 0 ∧ t.le[3] = 8) ∧ t.lc[3] = 1 ∧ t.lc[1] ≠ 0 ∧ t.lc[1] ≠ 1 ∧ t.le[1] = 8 ∧ t.le[2] ≠ 8 ∧
    (loopEnd 8 t).2 = some 2 ∧ (loopEnd 8 t).1.lc = #v[0, 3, 0, 0] ∧ loopEnd 6 t = (t, none) ∧
    (loopEnd 8 { t with lc := #v[0, 1, 0, 1] }).2 = none := by decide
theorem witness_lexit : let s := demo fun t => { regs [] t with lc := #v[0, 5, 0, 7], le := #v[0, 0, 0, 64] }
    s.Here = true ∧ s.endsLegally = true ∧ s.here.lc[0] = 0 ∧ s.here.lc[1] ≠ 0 ∧
    targetFault s s.cur.agent (nextUnitAt s s.cur.agent s.here.le[1]) = none ∧ s.here.lc[3] ≠ 0 ∧
    targetFault s s.cur.agent (nextUnitAt s s.cur.agent s.here.le[3]) = some (.illegalLine, 128) := by decide
/-- The lowest stack pointer that `enter 8` takes, and one byte less. -/
theorem witness_enter : let s := demo (regs [(2, 72)])
    let t := demo (regs [(2, 71)])
    ((s.here.slim.toNat : Int) ≤ (s.sr 2 - 8).toInt) ∧ s.Here = true ∧ s.endsLegally = true ∧ (t.sr 2 - 8).toInt < t.here.slim.toNat := by decide

/-! ### Traps and control registers -/

/-- R195, R222, R316: `tlbi` of a task, a vector cell of firmware, `rft` of a task, and a register that firmware has not. -/
theorem witness_forbidden : forbidden .task (.tlbiAll 3) = some .priv ∧ forbidden .firmware (.vnot 1 2) = some .illegalOp ∧
    forbidden .task .rft = some .illegalOp ∧ forbidden .firmware (.csrr 1 0x110) = some .illegalOp ∧ forbidden .task (.csrr 1 0x110) = none := by decide
theorem test_forbidden_cell_of_firmware : trapped (after (.vnot 1 2) (demoCtrl (regs []))) = (0x01, 0x4300, 0) := by decide
/-- A translation whose one page of 2 MiB holds the fault ring from physical address 0 on. -/
def ringState (m : Memory) (f : Thread → Thread) : State :=
  { demo f (h := fun P => { P with trans := [⟨(Config.faultRingPage 0).toNat, 32, ⟨false, 0⟩, .v, true, true, true, .part⟩] }) with hbm := m }
theorem witness_fault_ring (m : Memory) (f : Thread → Thread) : ringAt (ringState m f) 0 0 := by
  intro k hk
  have h1 : (ringState m f |>.part 0).trans = [⟨(Config.faultRingPage 0).toNat, 32, ⟨false, 0⟩, .v, true, true, true, .part⟩] := rfl
  have h2 : ((Config.faultRingPage 0).toNat * 65536 + k) / 65536 = (Config.faultRingPage 0).toNat + k / 65536 := by omega
  rw [h1]
  simp [Sys2Proof.Machine.translate, Sys2Proof.Machine.findPage, h2, PageT.locOf, Loc.plus]
  omega
/-- An empty ring, and one whose writer is 4,096 records ahead. -/
theorem witness_fault_records : let s := ringState [] (regs [])
    let u := ringState [⟨1, 0x10⟩] (regs [])
    s.cur.agent = .tile 0 0 ∧ s.Here = true ∧ s.here.mode = .task ∧ s.cur.th < 8 ∧ s.hbm.wf = true ∧ u.hbm.wf = true ∧
    (hbmNat s 0 4 + 2 ^ 32 - hbmNat s 4 4) % 2 ^ 32 < 4096 ∧ ¬ (hbmNat u 0 4 + 2 ^ 32 - hbmNat u 4 4) % 2 ^ 32 < 4096 := by decide
theorem witness_nested_fault : let s := demo fun t => { regs [] t with mode := .handler }
    s.cur.agent = .tile 0 0 ∧ s.Here = true ∧ s.here.mode = .handler ∧ s.hchain.toList.getD (s.physPod 0 0) 0 = 0 ∧
    (∀ j, j < 8 → 0 / 8 * 8 + j < (s.part 0).tiles.length) := by decide
theorem test_rft : let s := demo fun t => { regs [] t with mode := .handler, tepc := 64, tpvote := 1, hvote := 2, tvec := 64 }
    s.Here = true ∧ targetFault s s.cur.agent s.here.tepc = none ∧ s.here.tpfx = false ∧ (after .rft s).here.mode = .task ∧
    (after .rft s).here.pc = 64 ∧ (after .rft s).here.vote = 2 := by decide
theorem test_controller_traps : let s := demoCtrl (regs [])
    let t := after (.trap 0x2A) s
    s.cur.agent = .ctrl 0 ∧ s.here.handling = false ∧ s.here.tvec ≠ 0 ∧ trapped t = (0x20, 0x2A, 2) ∧ t.here.handling = true ∧ t.here.pc = 0x40 ∧
    (after (.trap 1) t).here.task = .absent := by decide
theorem witness_controller_rft : let s := demoCtrl fun t => { regs [] t with handling := true, tepc := 0 }
    s.here.mode = .firmware ∧ targetFault s s.cur.agent s.here.tepc = none ∧ s.here.tpfx = false ∧ (after .rft s).here.handling = false ∧
    (after .rft s).here.pc = 0 := by decide
theorem test_halt : let s := demo (regs [])
    s.Here = true ∧ s.here.mode ≠ .firmware ∧ (after .halt s).here.vote = 2 ∧ (after .halt s).here.atfix = true ∧
    (demoCtrl (regs [])).endsLegally = true ∧ (after .halt (demoCtrl (regs []))).here.wait = .stopped := by decide
/-- R321: partition 63 does not exist, partition 0 does; no page, one page and every page. -/
theorem test_tlbi : let s := { demoCtrl (regs [(3, 63), (4, 0x20000), (5, 1)]) with parts := (demo id).parts }
    s.Here = true ∧ s.here.mode = .firmware ∧ (s.part 63).valid = false ∧ (s.part 0).valid = true ∧ s.endsLegally = true ∧ s.sr 0 = 0 ∧
    trapped (after (.tlbi 3 4 5) s) = (0x04, 63, 0) ∧ (after (.tlbi 0 4 0) s).here.pc = 2 ∧ (after (.tlbi 0 4 5) s).here.wait = .tlbi 0 2 1 ∧
    (after (.tlbiAll 0) s).here.wait = .tlbi 0 0 (2 ^ 41) := by decide
/-- R316, R318: a register read, one written, one with no field to write, and a format register with a code that `w:` does not hold. -/
theorem test_csr : let s := demo fun t => { regs [(4, 0xFFFFFFFFFFFFFFFF)] t with tvec := 0x80 }
    s.Here = true ∧ s.endsLegally = true ∧ forbidden s.here.mode (.csrr 1 0x020) = none ∧ csrAssigned 0x020 = true ∧
    pending (after (.csrr 1 0x020) s) = [(0x80, 0)] ∧ ((after (.csrwReg 0x020 4) s).here.pend.map (·.dest)) = [.csr 0x020] ∧
    csrRead (csrWrite s s.cur.agent 0 0x020 (s.sr 4)) s.cur.agent 0 0x020 = 0x01FFFFFFFFFFFFC0 ∧
    (after (.csrwImm 0x110 0x0203) s).hereTile.fmt[0] = 0x05 ∧ (after (.csrwImm 0x110 0x0203) s).hereTile.fmt[1] = 0x02 := by decide
theorem test_csrw_priv : trapped (after (.csrwReg 0x041 4) (demoCtrl (regs []))) = (0x05, 0x041, 0) ∧
    trapped (after (.csrr 4 0x110) (demoCtrl (regs []))) = (0x01, 0x4300, 0) := by decide

/-! ### Loads, stores, atomics and fences -/

def bufTile (T : Tile) : Tile := { T with a := [⟨0x100, 0x80⟩, ⟨0x101, 0xFF⟩, ⟨0x3FFFF, 0x11⟩] }

/-- R247, R248, R101: a byte extended with its sign, a word past the end of `a:`, and what a store to `c:` leaves. -/
theorem test_buffer_load : let s := demo (regs [(3, 0x100)]) bufTile
    loadForm (.ldBMem 5 ⟨0, .a, 3⟩) = some (1, true, 5, (⟨0, .a, 3⟩ : MemOp).ref) ∧ s.Here = true ∧ s.here.mode ≠ .firmware ∧ s.endsLegally = true ∧
    s.cur.agent = .tile 0 0 ∧ (address s (⟨0, .a, 3⟩ : MemOp).ref).toNat % 1 = 0 ∧ (s.tile 0 0).spilled .a 0x100 1 = false ∧
    pending (after (.ldBMem 5 ⟨0, .a, 3⟩) s) = [(0xFFFFFFFFFFFFFF80, 0)] ∧ pending (after (.ldHuMem 5 ⟨0, .a, 3⟩) s) = [(0xFF80, 0)] ∧
    (after (.ldDMem 5 ⟨0, .a, 3⟩) s).here.oob = 0 := by decide
theorem test_load_past_the_end : let s := demo (regs [(3, 0x40000)]) bufTile
    (address s (⟨0, .a, 3⟩ : MemOp).ref).toNat = 0x40000 ∧ pending (after (.ldWMem 5 ⟨0, .a, 3⟩) s) = [(0, 0)] ∧
    (after (.ldWMem 5 ⟨0, .a, 3⟩) s).here.oob.getLsbD 63 = true := by decide
theorem test_buffer_store : let s := demo (regs [(3, 0x200), (5, 0x1122334455667788)])
    let t := after (.stHMem 5 ⟨2, .c, 3⟩) s
    storeForm (.stHMem 5 ⟨2, .c, 3⟩) = some (2, 5, (⟨2, .c, 3⟩ : MemOp).ref) ∧ (address s (⟨2, .c, 3⟩ : MemOp).ref).toNat % 2 = 0 ∧
    t.hereTile.readBuf .c 0x200 6 = [0, 0, 0x88, 0x77, 0, 0] ∧ t.hereTile.readBuf .a 0x202 1 = [0] ∧ t.hereTile.c = [] := by decide
/-- R247: each check of an access refuses something. -/
theorem witness_access_checks : let s := demo (regs [(3, 0x102), (4, 0x200000000000000), (6, 0x20000), (7, 0x100)])
    accessCheck s .m (s.sr 3) 4 4 .load = some (.priv, 0x102) ∧ accessCheck s .g (s.sr 3) 4 4 .load = some (.align, 0x102) ∧
    accessCheck s .w (s.sr 7) 4 4 .store = some (.prot, 0x100) ∧ accessCheck s .a (s.sr 7) 8 8 .atomic = some (.prot, 0x100) ∧
    accessCheck s .g (s.sr 4) 4 4 .load = some (.prot, 0x200000000000000) ∧ accessCheck s .g (s.sr 6) 4 4 .load = some (.unstaged, 0x20000) ∧
    accessCheck s .g (s.sr 7) 8 8 .atomic = some (.prot, 0x100) ∧ (s.tile 0 0).extent 0x20000 = none ∧ (s.tile 0 0).append = [] := by decide
theorem test_access_traps_of_firmware : trapped (after (.ldWMem 5 ⟨0, .a, 3⟩) (demoCtrl (regs [(3, 0x100)]))) = (0x05, 0x100, 0) ∧
    trapped (after (.stWMem 5 ⟨1, .m, 3⟩) (demoCtrl (regs [(3, 0x100)]))) = (0x06, 0x101, 0) := by decide
/-- R249: loads from a page of kind V and from `m:`, and how they end. -/
theorem test_global_load : let s := { demo (regs [(3, 0x100)]) with hbm := [⟨0x100, 0xFE⟩] }
    let t := after (.ldBMem 5 ⟨0, .g, 3⟩) s
    accessCheck s .g (s.sr 3) 1 1 .load = none ∧ s.poisonAt (s.gAt (s.sr 3)).1 1 = none ∧ (s.gAt (s.sr 3)).2 = .v ∧
    t.here.wait = .result (some 5) 0xFFFFFFFFFFFFFFFE ∧ t.agenda.length = 1 ∧
    (let u := { t with arg := { agent := .tile 0 0, th := 0, op := 100 } }
     State.Here { u with cur := ⟨.tile 0 0, 0⟩ } = true ∧ State.endsLegally { u with cur := ⟨.tile 0 0, 0⟩ } = true ∧
     (after .blockingWaitDone u).sr 5 = 0xFFFFFFFFFFFFFFFE ∧ (after .blockingWaitDone u).here.pc = 2) := by decide
theorem test_management_load : let s := demoCtrl (regs [(3, 0x100)])
    accessCheck s .m (s.sr 3) 4 4 .load = none ∧ (after (.ldWMem 5 ⟨0, .m, 3⟩) s).here.wait = .mload 5 0x100 4 true none := by decide
/-- R249: a store to kind V is held, one to kind L and one of firmware reach memory; one waits while the queue is full. -/
theorem test_store_to_kind_v : let s := demo (regs [(3, 0x100), (5, 0xAB)])
    accessCheck s .g (s.sr 3) 1 1 .store = none ∧ s.wbkFull 0 0 = false ∧ s.endsLegally = true ∧ (s.gAt (s.sr 3)).2 = .v ∧
    ((after (.stBMem 5 ⟨0, .g, 3⟩) s).part 0).wb.map (fun w => (w.loc.addr, w.data)) = [(0x100, [0xAB])] ∧
    (after (.stBMem 5 ⟨0, .g, 3⟩) s).hbm = [] := by decide
def liveTile (T : Tile) : Tile := { T with ext := [⟨0, 1, ⟨false, 0⟩, .l, true, true, false, .part, [], 0⟩] }
theorem test_store_to_kind_l : let s := demo (regs [(3, 0x100), (5, 0xAB)]) liveTile
    accessCheck s .g (s.sr 3) 8 8 .store = none ∧ (s.gAt (s.sr 3)).2 = .l ∧ (after (.stDMem 5 ⟨0, .g, 3⟩) s).hbm = [⟨0x100, 0xAB⟩] := by decide
def opOf (i : Nat) (k : OpKind) (st : OpSt := .queued) (tok : Option (Fin 16) := none) : EngOp :=
  { id := i, agent := .tile 0 0, th := 0, tok := tok, seq := 0, hb := [], ltile := 0, kind := k, st := st, prog := 0, prog0 := 0, parts := [], flags := 0
    masks := [], stamp := 0, fetchA := [], fetchW := [], fetchC := [], unit := IssueUnit.zero }
theorem test_store_waits : let s := { demo (regs [(3, 0x100), (5, 0xAB)]) with ops := (List.range 16).map fun i => opOf i (.wbk 0 .c 0 1), opCtr := 16 }
    s.wbkFull 0 0 = true ∧ (after (.stBMem 5 ⟨0, .g, 3⟩) s).here.wait = .store := by decide
theorem test_management_store : let s := demoCtrl (regs [(3, 0x100), (5, 0xAB)])
    accessCheck s .m (s.sr 3) 4 4 .store = none ∧ sramAt 0 0x100 = some (0, 0x100) ∧ s.endsLegally = true ∧
    ((after (.stWMem 5 ⟨0, .m, 3⟩) s).ctrl 0).sram = [⟨0x100, 0xAB⟩] := by decide
/-- R251: a sum and the larger unsigned word; a `cas` that fails; an atomic on `m:`. -/
theorem test_atomics : let s := { demo (regs [(3, 0x100), (5, 0xFFFFFFFFFFFFFFFF), (6, 7)]) liveTile with hbm := [⟨0x100, 5⟩] }
    let m : AtomOp := ⟨0, .g, .thr, .relaxed, 3⟩
    atomicForm s 5 (.amoAdd 4 m 5) = some (4, m, some 4) ∧ accessCheck s .g (address s m.ref) 8 8 .atomic = none ∧
    s.poisonAt (s.gAt (address s m.ref)).1 8 = none ∧ leNat (s.physRead (s.gAt (address s m.ref)).1 8) = 5 ∧
    (after (.amoAdd 4 m 5) s).hbm = [⟨0x100, 4⟩] ∧ (after (.amoAdd 4 m 5) s).here.wait = .result (some 4) 5 ∧
    (after (.amoMax 4 m 5) s).hbm = [⟨0x100, 5⟩] ∧ (after (.cas 4 m 5 6) s).hbm = [⟨0x100, 5⟩] ∧ (after (.swap 4 m 6) s).hbm = [⟨0x100, 7⟩] := by decide
theorem test_management_atomic : let s := demoCtrl (regs [(3, 0x100), (5, 3)])
    let m : AtomOp := ⟨0, .m, .thr, .relaxed, 3⟩
    accessCheck s .m (address s m.ref) 8 8 .atomic = none ∧ atomicForm s 0 (.amoAdd 4 m 5) = some (4, m, some 3) ∧
    ((after (.amoAdd 4 m 5) s).ctrl 0).sram = [⟨0x100, 3⟩] ∧ (after (.amoAdd 4 m 5) s).here.wait = .result (some 4) 0 := by decide
/-- R252, R122: a fence with a write to land waits; its scope is clamped. -/
theorem test_fence : let s := demo fun t => { regs [] t with pend := [⟨103, .s 4, 9, 0⟩], ceil := .pod }
    s.Here = true ∧ s.endsLegally = true ∧ (after (.fence .acq .part) s).here.wait = .result none 0 ∧ (after (.fence .acq .part) s).here.clamp = true ∧
    (after (.fence .rel .pod) (demo (regs []))).here.wait = .ready ∧ (after (.fence .rel .pod) (demo (regs []))).here.relF ≠ [] := by decide
/-- R92: a write lands at the end of its cycle, and not before. -/
theorem test_landing : let s := demo fun t => { regs [] t with pend := [⟨100, .s 4, 9, 0x10⟩] }
    let u := demo fun t => { regs [] t with pend := [⟨101, .p 4, 1, 0⟩] }
    s.tick.here.sreg 4 = 9 ∧ s.tick.here.fflag = 0x10 ∧ s.tick.here.pend = [] ∧ u.tick.here.preg 4 = false ∧ u.tick.tick.here.preg 4 = true ∧
    s.tick.cycle = 101 := by decide

/-! ### Rings, the closing of the superstep, and waits -/

/-- A ring of four slots in `a:` with three filled, and handle 2 unused. -/
def ringTile (T : Tile) : Tile := { T with rings := T.rings.set 1 ⟨1, 0, 3, 0, 2, 0xFFFFFFFF⟩ }
/-- R253, R106: three are filled and one is free, across the wrap of the pointers. -/
theorem test_ring_waits : let s := demo (regs [(4, 3)]) ringTile
    s.cur.agent = .tile 0 0 ∧ s.Here = true ∧ s.here.mode ≠ .firmware ∧ s.endsLegally = true ∧ (s.tile 0 0).rings[1].space ≠ 0 ∧
    filled (s.tile 0 0).rings[1] = 3 ∧ free (s.tile 0 0).rings[1] = 1 ∧ (after (.waitf 1 4 0) s).here.pc = 2 ∧
    (after (.waitf 1 4 1) s).here.wait = .ring 1 true 4 ∧ (after (.waite 1 0 2) s).here.wait = .ring 1 false 2 ∧
    (s.tile 0 0).rings[1].count.toNat + 1 < (s.sr 4 + 2).toNat ∧ (s.tile 0 0).rings[2].space = 0 := by decide
theorem test_ring_advances : let s := demo (regs [(4, 3)]) ringTile
    (after (.advp 1 0 1) s).hereTile.rings[1].prod = 3 ∧ (after (.advc 1 4 0) s).hereTile.rings[1].cons = 2 ∧
    free (s.tile 0 0).rings[1] < (2 : Word).toNat ∧ filled (s.tile 0 0).rings[1] < (s.sr 4 + 1).toNat := by decide
/-- R256. -/
theorem test_tsync : let s := demo (regs [])
    (after .tsync s).here.rounds = 1 ∧ (after .tsync s).here.wait = .tsync 1 ∧ (s.tile 0 0).roundDone 1 = false ∧
    ((after .tsync s).tile 0 0).roundDone 1 = true := by decide
/-- A range table in the line at 64: `c:` from 128 on for two granules, then a start that is no multiple of 64. -/
def fixTile (T : Tile) : Tile :=
  { T with lines := [⟨64, leBytes 8 0x8000000200000080 ++ leBytes 8 0x8000000200000081 ++ List.replicate 48 0⟩] }
theorem test_fix : let s := demo (regs [(4, 9), (5, 8)]) fixTile
    let t := after (.fix 0x10 1 1) s
    fixForm (.fix 0x10 1 1) = some (0x10, 1, 1, false) ∧ s.here.pend = [] ∧ (s.lineAt s.cur.agent 64).isSome = true ∧
    descriptors s 64 1 = [0x8000000200000080] ∧ goodRange 0x8000000200000080 = true ∧ goodRange 0x8000000200000081 = false ∧
    descriptors s 64 2 = [0x8000000200000080, 0x8000000200000081] ∧ t.here.wait = .fixed ∧ t.here.atfix = true ∧
    t.here.fixRec.map (fun f => (f.regs[4], f.regs[5], f.ranges, f.resume)) = some (9, 0, [⟨.c, 128, 128⟩], 2) := by decide
theorem test_fix_waits_for_landing : let s := demo fun t => { regs [] t with pend := [⟨103, .s 4, 9, 0⟩] }
    s.here.pend ≠ [] ∧ (after (.fixEnd 0 0 0) s).here.readyAt = 104 ∧ (after (.fixEnd 0 0 0) s).here.fixRec = none := by decide
/-- R260. -/
theorem test_vote : let s := demo fun t => { regs [(4, 0x100000005)] t with vote := 1, vor := 2, vmax := 7 }
    let t := after (.vote 0 4) s
    t.here.vote = 1 ∧ t.here.vor = 7 ∧ t.here.vmax = 7 ∧ t.here.vdet = 5 ∧ (after (.vote 2 0) s).here.vote = 2 := by decide
theorem test_stage : let s := demo (regs [(4, 0x40)])
    let t := after (.stage 4 200) s
    s.endsLegally = true ∧ t.hereTile.flpa = 0x40 ∧ t.hereTile.flpn = 128 ∧ t.hereTile.building = true ∧ t.agenda.length = 1 := by decide
/-- R264: the example: a time past, the present one, and one to come. -/
theorem test_twait : let s := demo (regs [(4, 99), (5, 100), (6, 101)])
    s.ptime = 100 ∧ (after (.twait 1 4) s).pr 1 = true ∧ (after (.twait 1 5) s).pr 1 = false ∧ (after (.twait 1 5) s).here.pc = 2 ∧
    (after (.twait 1 6) s).here.wait = .time 1 101 := by decide
/-- R305, R306, R293, R307: with operations left, and without. -/
theorem test_joins : let s := { demo (regs []) with ops := [opOf 0 (.mzero 0) .queued (some 3)], opCtr := 1 }
    let u := demo (regs [])
    let w := demo fun t => { regs [] t with xsynced := true }
    (after (.kwait 3) s).here.wait = .token 3 ∧ (after (.kwait 2) s).here.pc = 2 ∧ (after .mwait s).here.wait = .matrix [0] ∧
    (after .mwait u).here.pc = 2 ∧ (after .xsync u).here.wait = .xsync ∧ (after .xsync w).here.pc = 2 ∧ s.endsLegally = true := by decide
/-- R93: waits that are met, and one that is not. -/
theorem test_waits_end : let w (x : Wait) : State := { demo fun t => { regs [] t with wait := x } with arg := { agent := .tile 0 0 } }
    (w (.token 3)).waitMet (.tile 0 0) 0 = true ∧ (after .blockingWaitDone (w (.token 3))).here.pc = 2 ∧
    (w (.time 2 100)).waitMet (.tile 0 0) 0 = true ∧ (after .blockingWaitDone (w (.time 2 100))).here.wait = .ready ∧
    (w (.tsync 1)).waitMet (.tile 0 0) 0 = false ∧ (Wait.tsync 1).timed = false ∧ (after .blockingWaitDone (w (.tsync 1))).here.wait = .tsync 1 ∧
    (w .store).waitMet (.tile 0 0) 0 = true ∧ (after .blockingWaitDone (w .store)).here.wait = .ready ∧ (w .store).endsLegally = true := by decide

/-! ### Engine commands, folds and records -/

/-- Each command is accepted in some state. -/
theorem witness_mma : let s := demo (regs [(5, 32)])
    s.hereTile.mmaCheck (code7 .bf16) (Keep.count .n32) (s.sr 5).toNat 0 0 0 0 = none ∧ s.Here = true ∧ s.endsLegally = true ∧ s.ops = [] ∧
    (after (.mma .bf16 .n32 0 5 0 0 0 0 ⟨true, 2⟩) s).tokenCount (.tile 0 0) 0 2 = 1 := by decide
/-- R288: K of 0, of 33 and of 4,128, an A format that the bank has not, and the default W format under INT8. -/
theorem witness_mma_checks : let T := (demo id).hereTile
    T.mmaCheck 0x05 32 0 0 0 0 0 = some (1, 0) ∧ T.mmaCheck 0x05 32 33 0 0 0 0 = some (1, 33) ∧ T.mmaCheck 0x05 32 4128 0 0 0 0 = some (1, 4128) ∧
    T.mmaCheck 0x04 32 32 0 0 0 0 = some (2, 5) ∧ T.mmaCheck 0x05 32 32 0 0 8 0 = some (5, 8) ∧
    T.otherCode .a (code7 .f32) (aRows 0 (aPitch 0 64 4) 256) = some 5 ∧ T.quantCheck false .a 0 0 127 1 0 = some (6, 0) := by decide
theorem witness_mldt : let s := demo (regs [])
    s.hereTile.otherCode .a (code7 .bf16) (aRows 0 (aPitch 0 64 2) 128) = none ∧ s.hereTile.bankFmt .c 0 = 0x06 ∧
    ({ s.hereTile with fmt := s.hereTile.fmt.set 32 5 } : Tile).bankFmt .c 0 = 0x05 ∧ (after (.mldt .bf16 0 0 0 ⟨false, 0⟩) s).ops.length = 1 ∧
    (after (.mzero 1 ⟨false, 0⟩) s).ops.map (·.kind) = [.mzero 1] := by decide
/-- A W bank of BFP4. -/
def bfpTile (T : Tile) : Tile := { T with fmt := T.fmt.set 0 0x14 }
theorem witness_quant : let s := demo (regs [(5, 1)]) bfpTile
    s.hereTile.quantCheck false .a 0 0 127 (s.sr 5).toNat 0 = none ∧ (after (.quant false false 0 0 127 5 0 ⟨false, 0⟩) s).ops.length = 1 ∧
    s.hereTile.quantCheck false .a 0 0 127 0 0 = some (8, 0) ∧ s.hereTile.quantCheck false .a 0 0 255 1 0 = some (8, 255) := by decide
theorem witness_wbk : let s := demo (regs [(4, 0x1000), (5, 0x1010)])
    accessCheck s .g (s.sr 4) 64 64 .store = none ∧ s.hereTile.otherKind .v (s.sr 4).toNat 64 = none ∧
    (after (.wbk 4 .c 0 1 0 ⟨false, 0⟩) s).ops.map (·.kind) = [.wbk 0x1000 .c 0 1] ∧ (s.sr 5).toNat % 64 ≠ 0 := by decide
/-- R300: 64 bytes from `c:` to `a:` in one format; no bytes; and a copy between banks of two formats. -/
theorem witness_cpy : let s := demo (regs [(4, 64)]) fun T => { T with fmt := T.fmt.set 16 0x06 }
    s.linearRefused (.mem .a 0 0) (.mem .c 0 0) (s.sr 4) = none ∧ s.sr 4 ≠ 0 ∧ s.linearRefused (.mem .a 0 0) (.mem .c 0 0) 0 = none ∧
    (after (.cpy 0 (.mem .a 0 0) (.mem .c 0 0) 4 ⟨false, 0⟩) s).ops.length = 1 ∧ (after (.cpy 0 (.mem .a 0 0) (.mem .c 0 0) 0 ⟨false, 0⟩) s).ops = [] ∧
    (s.linearRefused (.mem .a 0 1) (.mem .c 0 0) 66).isSome = true := by decide
/-- R301: a descriptor of one dimension of 16 elements of 4 bytes at `a:0`, and one of no dimension. -/
def descTile (T : Tile) : Tile := { T with fmt := T.fmt.set 16 0x06, a := [⟨0, 1⟩, ⟨16, 16⟩, ⟨20, 1⟩, ⟨24, 1⟩] }

theorem witness_cpy_descriptor : let s := demo (regs [(5, 1)]) descTile
    s.descParsed (.mem .a 0 256) (.mem .c 0 0) 0 = .ok ([⟨16, 1, 1, 0⟩], 0) ∧
    (after (.cpyD 0 (.mem .a 0 256) (.mem .c 0 0) 0 ⟨true, 1⟩) s).tokenCount (.tile 0 0) 0 1 = 1 ∧
    s.descParsed (.mem .a 0 256) (.mem .c 0 0) 1 = .error (.illegalTarget, s.reason 10 1) := by decide
/-- R308, R155: a route word to tile 1 of the same pod, and one whose reserved bit is set. -/
def routeTile (T : Tile) : Tile := { T with lines := [⟨64, leBytes 8 0x310 ++ List.replicate 56 0⟩] }
theorem witness_xmit_xsel : let s := { demo (regs []) routeTile with logical := List.range 4 }
    BitVec.ofNat 64 (leNat (bytesAt ((s.lineAt s.cur.agent 64).getD []) 0 8)) = 0x310 ∧ s.herePart.arbitrated = false ∧
    s.route s.hereP s.hereT 0x310 = .ok (1, []) ∧ s.route s.hereP s.hereT 0x390 = .error 0 ∧ s.herePart.exchS = none ∧ s.ops = [] ∧
    (after (.xmit 8 1 0 true 4 ⟨false, 0⟩) s).ops.map (·.kind) = [.xmit 8 0 1 [] .c 256 0x06 0] ∧
    (after (.xsel 8 0 0x200 ⟨true, 4⟩) s).ops.map (·.kind) = [.xsel 8 0 0x8000] := by decide
/-- A slot already taken by an `xsel` of its port. -/
theorem witness_xsel_taken : slotTaken { demo (regs []) with ops := [opOf 0 (.xsel 8 0 0)] } 8 (some 0) := ⟨_, List.mem_singleton.2 rfl, by decide⟩
/-- A layout map of one dimension of 64 elements, split over tiles 0 and 1, from `c:0` to `a:0`. -/
def mapTile (T : Tile) : Tile :=
  { T with fmt := T.fmt.set 16 0x06, a := [⟨0, 1⟩, ⟨2, 2⟩, ⟨13, 2⟩, ⟨16, 2⟩, ⟨64, 64⟩, ⟨68, 1⟩, ⟨210, 1⟩] }
theorem witness_enl : let s := demo (regs [(5, 1)]) mapTile
    let m : LayoutMap := ⟨.c, 0, 0, 512, 0, [⟨64, 1, 0, 0⟩], [0, 1]⟩
    s.hereTile.layoutMap 0 = some m ∧ m.fits 8 1 (s.hereTile.fmtAt .c 0) (s.herePart.destSize m 1) = true ∧
    (after (.enl 0 5 ⟨false, 0⟩) s).ops.length = 1 := by decide
theorem witness_signal : let s := demo (regs [(4, 0x100), (5, 7)]) liveTile
    accessCheck s .g (s.sr 4) 8 8 .atomic = none ∧ (after (.signalInstruction 4 5 .add 0 ⟨false, 0⟩) s).ops.map (·.kind) = [.signal 0x100 .add 7] := by decide
/-- R305: a token at 254, and at 255; a queue of one entry left, and one that is full. -/
theorem witness_tokens : let s (n : Nat) : State :=
      { demo (regs [(4, 0x100), (5, 7)]) liveTile with ops := (List.range n).map fun i => opOf i (.signal 0x200 .set 0) .queued (some 2), opCtr := n }
    (s 254).tokenCount (.tile 0 0) 0 2 = 254 ∧ (s 255).tokenCount (.tile 0 0) 0 2 = 255 ∧
    (after (.signalInstruction 4 5 .add 0 ⟨true, 2⟩) (s 255)).here.wait = .room 2 := by decide
theorem witness_rooms : let s (n : Nat) : State := { demo (regs [(4, 0x1000)]) with ops := (List.range n).map fun i => opOf i (.wbk 0 .c 0 1), opCtr := n }
    (∀ o ∈ (s 16).ops, o.id < (s 16).opCtr) ∧ (after (.wbk 4 .c 0 1 0 ⟨false, 0⟩) (s 15)).here.wait = .ready ∧
    (after (.wbk 4 .c 0 1 0 ⟨false, 0⟩) (s 16)).here.wait = .entry 16 := by decide
/-- A region of kind RED of 16 FP32 elements under `fadd`, whose first element stands at 64. -/
def redState (f : Thread → Thread) : State :=
  { demo f (fun T => { T with ext := [⟨0, 1, ⟨false, 0⟩, .red, true, true, false, .part, [], 0⟩] })
      (fun P => { P with transNow := [⟨0, 1, ⟨false, 0⟩, .red, true, true, false, .part⟩] }) with
    hbm := [⟨0, 16⟩, ⟨4, 1⟩, ⟨5, 6⟩, ⟨12, 8⟩] }
theorem witness_folds : let s := redState (regs [(4, 64 + 56), (5, 2), (6, 0x3F800000), (7, 3)])
    let ok (r : Region) : Bool := r.base = 0 && r.esize = 4 && r.ne = 16 && r.code = 0x06 && r.esize = elemSize r.code
    (regionOf s (s.part 0).transNow (s.part 0).tiles.length 120).map ok = some true ∧ s.foldCheck 120 4 = none ∧ s.foldCheck 120 8 = none ∧
    s.foldCheck 120 0 = none ∧ (120 - 0 - 64) / 4 + 2 ≤ 16 ∧ (s.tile 0 0).fmtAt .c 0 = 0x06 ∧ (s.tile 0 0).fmtAt .a 0 = 0x05 ∧
    ((after (.rsto 4 6 0 false ⟨false, 0⟩) s).tile 0 0).contribs.map (fun c => (c.elem, c.fold, c.wrec.data)) = [(14, true, [0, 0, 0x80, 0x3F])] ∧
    ((after (.cpost 4 5 true 0 0 ⟨false, 0⟩) s).tile 0 0).contribs.map (·.elem) = [14, 15] ∧
    (after (.cpost 4 0 true 0 0 ⟨false, 0⟩) s).here.pc = 2 := by decide
/-- R313, R314. -/
theorem test_record_instructions : let s := demo (regs [(4, 3), (5, 0x1122), (6, 9)])
    let ops (i : Instr) : List RecOp := ((after i s).part 0).reqs.map (·.op)
    s.endsLegally = true ∧ ops (.armInstruction 4) = [.arm 3] ∧ ops (.patchInstruction 4 5 8 1) = [.patch 3 8 [0x22, 0x11]] ∧
    ops (.postInstruction 4 none) = [.post 3] ∧ ops (.postInstruction 4 (some 6)) = [.postTo 9 3] := by decide
theorem test_record_instruction_of_firmware : trapped (after (.armInstruction 4) (demoCtrl (regs []))) = (0x04, reasonWord (demoCtrl (regs [])) 9 0, 0) := by decide

/-! ### Vector rows -/

/-- What a row instruction has queued: the first two elements' bytes at elements of n bytes, the flags, and when it lands. -/
def rowOf (i : Instr) (s : State) (n : Nat) : List (List Byte × Byte × Nat) := (after i s).here.pend.map fun x =>
  ((match x.dest with | .row w => w.data.take (2 * n) | _ => []), x.flags, x.land)
/-- Bank 0 of `c:` in a format, with bytes from row 1 on. -/
def rowTile (f : Byte) (m : Memory) (T : Tile) : Tile := { T with fmt := T.fmt.set 32 f, c := m }
/-- R270: INT8 127 + 127 clamps with SAT and wraps without; 1 + 1 in FP32, with a row of 1.0 and a scalar. -/
theorem test_vadd : let s := demo (regs [(4, 0x3F800000)]) (rowTile 0x00 [⟨256, 0x7F⟩, ⟨257, 0x80⟩])
    let u := demo (regs [(4, 0x3F800000)]) (rowTile 0x06 [⟨258, 0x80⟩, ⟨259, 0x3F⟩])
    RowRuns s ∧ s.rowFmt = 0x00 ∧ rowOf (.vadd 3 1 (.row 1) true) s 1 = [([0x7F, 0x80], 0x40, 101)] ∧
    rowOf (.vadd 3 1 (.row 1) false) s 1 = [([0xFE, 0x00], 0, 101)] ∧ u.rowFmt = 0x06 ∧
    rowOf (.vadd 3 1 (.scalar 4) false) u 4 = [([0, 0, 0, 0x40, 0, 0, 0x80, 0x3F], 0, 103)] := by unfold RowRuns; decide
/-- R270: FP min of −0 and +0 is −0; `vfma` rounds once; `vabs` of −128 wraps; `vneg` of INT16. -/
theorem test_vmin_vfma : let u := demo (regs [(4, 0)]) (rowTile 0x06 [⟨259, 0x80⟩])
    let s := demo (regs []) (rowTile 0x00 [⟨256, 0x80⟩, ⟨257, 0xFF⟩])
    rowOf (.vmin 3 1 (.scalar 4) false) u 4 = [([0, 0, 0, 0x80, 0, 0, 0, 0], 0, 103)] ∧
    rowOf (.vfma 3 1 (.row 1) 1 false) s 1 = [([0x80, 0x00], 0, 101)] ∧ rowOf (.vabs 3 1 false) s 1 = [([0x80, 0x01], 0, 101)] ∧
    rowOf (.vneg 3 1 true) s 1 = [([0x7F, 0x01], 0x40, 101)] := by decide
/-- R147: MinIdx of pairs takes the smaller value with its index. -/
theorem test_pairs : let s := demo (regs [(4, 0x0000000700000000)]) (rowTile 0x07 [⟨258, 0x80⟩, ⟨259, 0x3F⟩, ⟨260, 3⟩])
    s.rowFmt = 0x07 ∧ rowOf (.vmin 3 1 (.scalar 4) false) s 4 = [([0, 0, 0, 0, 7, 0, 0, 0], 0, 103)] ∧
    pairRow (.vmin 3 1 (.scalar 4) false) = some (3, 1, .scalar 4, false) ∧ (arithRow (.vadd 3 1 (.row 1) false)).isSome = true := by decide
/-- R271, R273: shifts take the count modulo the width; a select, a broadcast of an element, and a rotation. -/
theorem test_raw_rows : let s := demo (regs [(4, 9), (5, 257)]) (rowTile 0x00 [⟨256, 0x81⟩, ⟨257, 0x7F⟩])
    RowRuns s ∧ (rawRow s 8 256 (.vshl 3 1 (.scalar 4))).isSome = true ∧ rowOf (.vshl 3 1 (.scalar 4)) s 1 = [([0x02, 0xFE], 0, 101)] ∧
    rowOf (.vsra 3 1 (.scalar 4)) s 1 = [([0xC0, 0x3F], 0, 101)] ∧ rowOf (.vsel 3 1 1 2) s 1 = [([0x81, 0x7F], 0, 101)] ∧
    rowOf (.vbcastElement 3 1 5) s 1 = [([0x7F, 0x7F], 0, 101)] ∧ rowOf (.vpermRot 3 1 5) s 1 = [([0x7F, 0], 0, 107)] ∧
    rowOf (.vnot 3 1) s 1 = [([0x7E, 0x80], 0, 101)] := by unfold RowRuns; decide
theorem test_vperm_vmov : let s := demo (regs [(5, 0x1234)]) (rowTile 0x00 [⟨256, 1⟩, ⟨257, 0⟩])
    rowOf (.vperm 3 1 1) s 1 = [([0, 1], 0, 107)] ∧ rowOf (.vmov 3 1) s 1 = [([1, 0], 0, 101)] ∧ rowOf (.vbcast 3 5) s 1 = [([0x34, 0x34], 0, 101)] ∧
    rowOf (.vxor 3 1 (.scalar 5)) s 1 = [([0x35, 0x34], 0, 101)] := by decide
/-- R272: signed and unsigned; a quiet NaN is unordered, and sets NV under `.lt` alone. -/
theorem test_vcmp : let s := demo (regs [(4, 0)]) (rowTile 0x00 [⟨256, 0xFF⟩])
    let u := demo (regs [(4, 0)]) (rowTile 0x06 [⟨258, 0xC0⟩, ⟨259, 0x7F⟩])
    (vcmpRow (.vcmpLt 3 1 (.scalar 4) false)).isSome = true ∧ rowOf (.vcmpLt 3 1 (.scalar 4) false) s 1 = [([0xFF, 0], 0, 101)] ∧
    rowOf (.vcmpLt 3 1 (.scalar 4) true) s 1 = [([0, 0], 0, 101)] ∧ rowOf (.vcmpLt 3 1 (.scalar 4) false) u 4 = [([0, 0, 0, 0, 0, 0, 0, 0], 0x10, 103)] ∧
    rowOf (.vcmpNe 3 1 (.scalar 4) false) u 4 = [([0xFF, 0xFF, 0xFF, 0xFF, 0, 0, 0, 0], 0, 103)] := by decide
/-- R274: the example: `vcvt.rne.i8 v2, v1, 1` on an INT32 bank widens bytes 64 on. -/
theorem test_vcvt : let s := demo (regs []) (rowTile 0x03 [⟨320, 0xFF⟩, ⟨321, 0x7F⟩])
    rowOf (.vcvt .rne .i8 1 2 1) s 4 = [([0xFF, 0xFF, 0xFF, 0xFF, 0x7F, 0, 0, 0], 0, 103)] ∧ intFmt s.rowFmt ∧ (3 : Fin 4).val < max 256 64 / min 256 64 := by
  unfold intFmt; decide
/-- R275, R276: an inclusive scan of integers, a pairwise sum, and the maximum with its index. -/
theorem test_scan_reduce : let s := demo (regs []) (rowTile 0x03 [⟨256, 5⟩, ⟨260, 7⟩])
    let u := demo (regs []) (rowTile 0x06 [⟨262, 0x80⟩, ⟨263, 0x3F⟩])
    suits .iadd s.rowFmt ∧ rowOf (.vscan .iadd 3 1) s 4 = [([5, 0, 0, 0, 12, 0, 0, 0], 0, 107)] ∧ rowOf (.vred .iadd 3 1) s 4 = [([12, 0, 0, 0, 0, 0, 0, 0], 0, 107)] ∧
    ¬ suits .fadd s.rowFmt ∧ ¬ suits .mini s.rowFmt ∧
    pending (after (.vredScalar .maxi 3 1) u) = [(0x000000013F800000, 0)] ∧
    rowOf (.vred .maxi 3 1) u 4 = [([0, 0, 0x80, 0x3F, 1, 0, 0, 0], 0, 107)] := by unfold suits intFmt fpFmt; decide
/-- R278, R279: 2^1 = 2, log2 0 = −inf, 1/1, and tanh 0 = 0 without NX. -/
theorem test_special_functions : let u := demo (regs []) (rowTile 0x06 [⟨258, 0x80⟩, ⟨259, 0x3F⟩])
    fpFmt u.rowFmt ∧ (rowOf (.vexp2 3 1) u 2).map (·.1.take 4) = [[0, 0, 0, 0x40]] ∧ (rowOf (.vrcp 3 1) u 2).map (·.1.take 4) = [[0, 0, 0x80, 0x3F]] ∧
    (rowOf (.vrsq 3 1) u 2).map (·.1.take 4) = [[0, 0, 0x80, 0x3F]] ∧ (rowOf (.vlog2 3 1) u 4).map (·.1) = [[0, 0, 0, 0, 0, 0, 0x80, 0xFF]] ∧
    (rowOf (.vtanh 3 2) u 4).map (fun x => (x.1, x.2.1)) = [([0, 0, 0, 0, 0, 0, 0, 0], 0)] ∧
    (rowOf (.vsig 3 2) u 2).map (fun x => (x.1, x.2.1)) = [([0, 0, 0, 0x3F], 0x01)] := by unfold fpFmt; decide
/-- R281: the table of the key listing's `mpdef m0, fadd s12, fmax 0.0, fmul s13`. -/
def mpTile (f : Byte) (T : Tile) : Tile :=
  { rowTile f [⟨258, 0x80⟩, ⟨259, 0x3F⟩] T with
    lines := [⟨64, leBytes 8 0x0C01 ++ leBytes 8 0x2006 ++ leBytes 8 0x0D04 ++ leBytes 8 0x00FF ++ List.replicate 32 0⟩]
    slots := #v[[⟨0x01, 0, 12, 0⟩, ⟨0x06, 1, 0, 0⟩, ⟨0x04, 0, 13, 0⟩], [⟨0x10, 1, 0, 5⟩], [], []] }
theorem test_micro_programs : let s := demo (regs [(12, 0x3F800000), (13, 0x40000000)]) (mpTile 0x06)
    let u := demo (regs []) (mpTile 0x03)
    RowRuns s ∧ (s.lineAt s.cur.agent 64).isSome = true ∧ (after (.mpdef 2 1 2) s).hereTile.slots[2] = [⟨0x01, 0, 12, 0⟩, ⟨0x06, 1, 0, 0⟩, ⟨0x04, 0, 13, 0⟩] ∧
    mpEntry 0x00FF = none ∧ (mpEntry 0x0D04).isSome = true ∧ s.hereTile.slots[0] ≠ [] ∧ (∀ e ∈ s.hereTile.slots[0], mpFp e.code.toNat = true) ∧
    rowOf (.mprun 0 3 1 0 0) s 4 = [([0, 0, 0x80, 0x40, 0, 0, 0, 0x40], 0, 108)] ∧ (∀ e ∈ u.hereTile.slots[1], mpInt e.code.toNat = true) ∧
    rowOf (.mprun 1 3 1 0 0) u 4 = [([5, 0, 0x80, 0x3F, 5, 0, 0, 0], 0, 104)] ∧ s.hereTile.slots[3] = [] := by unfold RowRuns; decide
/-- R283, R284: `a b add` on rows of 1.0. -/
theorem test_expr : let s := demo (regs []) (rowTile 0x06 [⟨258, 0x80⟩, ⟨259, 0x3F⟩])
    rowOf (.expr 0x0521 3 1 1 0) s 4 = [([0, 0, 0, 0x40, 0, 0, 0, 0], 0, 105)] := by decide

/-! ### The host's commands -/

/-- A command entry of 64 bytes from its fields: (offset, bytes, value). -/
def entryOf (l : List (Nat × Nat × Nat)) : List Byte :=
  (l.foldl (fun (m : Memory) x => m.writeRun x.1 (leBytes x.2.1 x.2.2)) []).readRun 0 64
/-- The machine whose function 0 has that entry, of index 0, next in queue 0 at host address 0x10000; die 0 holds the lease. Partition 0 is
`h` of the one of `demo`, with a record. -/
def hostState (l : List (Nat × Nat × Nat)) (h : Partition → Partition := id) : State :=
  let s := demo id id fun P => h { P with recs := [LRec.idle] }
  { s with
    logical := List.range 256, leases := Vector.replicate 4 ⟨1, 0, 1000⟩, epoch := 1
    ctrls := (demoCtrl id).ctrls, host := Memory.writeRun [] 0x10000 (entryOf l)
    fns := { Fn.zero with queues := Fn.zero.queues.set 0 ⟨1, 0, 0, 0x10000, 4, true, false, [], none, false⟩ } :: List.replicate 3 Fn.zero }
/-- The status that a command completes with, and the head of its queue. -/
def status (i : Instr) (s : State) : Nat × Nat := let t := after i s
  (leNat (t.host.readRun 0x10002 1), ((t.fn 0).queue 0).head.toNat)
def pageL : PageT := ⟨0x20, 1, ⟨false, 0x40000⟩, .l, true, true, false, .sys⟩
def withPages (P : Partition) : Partition :=
  let pages : List PageT := [pageL, ⟨0x21, 1, ⟨false, 0x50000⟩, .v, true, true, false, .part⟩, ⟨0x22, 1, ⟨true, 0⟩, .l, false, false, false, .sys⟩]
  { P with trans := pages, transNow := pages }
/-- No launch. -/
def idleP (P : Partition) : Partition := { P with run := .idle, launch := none }

/-- R46, R47: an unknown opcode, an entry with the index of another, and NOP. -/
theorem witness_commands : let s (l : List (Nat × Nat × Nat)) := hostState l
    (s []).mayTake (s []).cmd = true ∧ Comes (s []) .nop ∧ status .nop (s []) = (1, 1) ∧
    (s [(0, 1, 0x0B)]).mayTake (s [(0, 1, 0x0B)]).cmd = true ∧ knownOp 0x0B = false ∧ status (commandRow (entryOf [(0, 1, 0x0B)])) (s [(0, 1, 0x0B)]) = (2, 1) ∧
    (s [(4, 4, 7)]).badEntry (s []).cmd ((s [(4, 4, 7)]).entry (s []).cmd) = true ∧ status .nop (s [(4, 4, 7)]) = (3, 1) := by unfold Comes; decide
/-- A function that is not bound, and has a slot for its queue (R47, status 0x07). -/
theorem witness_unbound_function : let s0 := hostState []
    let s := { s0 with fns := Fn.zero :: { (s0.fn 0) with bind := none } :: List.replicate 2 Fn.zero, qslots := s0.qslots.set 0 (some (1, 0)), arg := { fn := 1 } }
    s.mayTake s.cmd = true ∧ (s.bound? s.cmd.fn).isNone = true ∧ leNat ((after .nop s).host.readRun 0x10002 1) = 7 := by decide
/-- R47: completion out of order leaves the head where it is. -/
theorem witness_completion : let s := hostState []
    let u := s.modQueue 0 0 fun q => { q with taken := 2, tail := 2 }
    ((u.fn 0).queue 0).open 0 = true ∧ ((u.fn 0).queue 0).open 1 = true ∧ (((u.complete ⟨0, 0, 1⟩ 1).fn 0).queue 0).head = 0 ∧
    ((((u.complete ⟨0, 0, 1⟩ 1).complete ⟨0, 0, 0⟩ 1).fn 0).queue 0).head = 2 := by decide
/-- SIGNAL of 7 by `set`; SIGNAL_WAIT holds the queue, and its poll ends it once the word is no less than its value. -/
theorem witness_signals : let s := hostState [(0, 1, 6), (16, 8, 0x20000), (24, 8, 7), (32, 1, 1)]
    let w := hostState [(0, 1, 5), (16, 8, 0x200000), (24, 8, 7)] withPages
    let p := after .signalWait w
    Comes s .signal ∧ status .signal s = (1, 1) ∧ leNat ((after .signal s).host.readRun 0x20000 8) = 7 ∧ Comes w .signalWait ∧ (w.part 0).valid = true ∧
    ((p.fn 0).queue 0).hold = some 0 ∧ p.signalLoc 0 (p.entry ⟨0, 0, 0⟩) = some ⟨false, 0x40000⟩ ∧ ¬ 7 ≤ p.physNat ⟨false, 0x40000⟩ 8 ∧
    status .signalWaitPoll p = (0, 0) ∧ status .signalWaitPoll { p with hbm := [⟨0x40000, 7⟩] } = (1, 1) ∧
    (let x := hostState [(0, 1, 5), (16, 8, 0x200000), (37, 1, 9)]
     Comes x .signalWait ∧ (x.part 9).valid = false ∧ status .signalWait x = (4, 1)) := by unfold Comes; decide
/-- The record commands, while a superstep runs and while none does, and on a record that the partition has not. -/
theorem witness_record_commands : let arm := hostState [(0, 1, 3)]
    let post := hostState [(0, 1, 4)] idleP
    let patch := hostState [(0, 1, 2), (34, 2, 252), (36, 1, 4), (40, 4, 0x11223344)]
    let write := hostState [(0, 1, 1), (40, 8, 0x30000)]
    Comes arm .arm ∧ arm.cmdRecord arm.cmd (arm.entry arm.cmd) = some (0, 0) ∧ (arm.part 0).still = false ∧
    ((after .arm arm).part 0).reqs.map (·.op) = [.arm 0] ∧ status .arm arm = (0, 0) ∧ Comes post .post ∧ (post.part 0).still = true ∧
    status .post post = (5, 1) ∧ Comes patch .patch ∧ ((after .patch patch).part 0).reqs.map (·.op) = [.patch 0 252 [0x44, 0x33, 0x22, 0x11]] ∧
    Comes write .writeRecord ∧ imageReserved (write.physRead ⟨true, 0x30000⟩ 512) = false ∧
    (hostState [(0, 1, 3), (8, 4, 1)]).cmdRecord arm.cmd (entryOf [(0, 1, 3), (8, 4, 1)]) = none ∧ status .arm (hostState [(0, 1, 3), (8, 4, 1)]) = (4, 1) := by
  unfold Comes; decide
/-- R71, R72: a record is armed, posted and Eligible, and each refusal of the operations. -/
theorem witness_record_states : let P : Partition := { demoPart id id with recs := [LRec.idle, { LRec.idle with st := .armed }, { LRec.idle with st := .running }] }
    (P.rcd 0).st = .idle ∧ (P.rcd 1).st = .armed ∧ (P.recArm 1).2 = 2 ∧ (P.recPost 0 0 none).2 = 3 ∧ (P.recPost 1 0 none).2 = 0 ∧
    ((P.recPost 1 0 none).1.rcd 1).st = .eligible ∧ (P.recPost 2 0 none).2 = 6 := by decide
theorem witness_record_arm : let P : Partition := { demoPart id id with
      trans := [⟨0, 1, ⟨false, 0⟩, .v, true, true, true, .part⟩], recs := [{ LRec.idle with image := entryOf [(10, 2, 1), (12, 2, 0x0101), (36, 4, 0xFFFFFFFF)] ++ List.replicate 448 0 }] }
    P.armRefusal (P.rcd 0).image = 0 ∧ (P.recArm 0).2 = 0 ∧ ((P.recArm 0).1.rcd 0).st = .armed := by decide
/-- MAP of two pages in HBM, of a page that overlaps, and of a page of host memory; UNMAP of a page and of one that is not mapped. -/
theorem witness_pages : let m := hostState [(0, 1, 7), (33, 1, 1), (34, 1, 3), (35, 1, 5), (40, 8, 0x300000), (48, 4, 2)] withPages
    let o := hostState [(0, 1, 7), (33, 1, 1), (34, 1, 3), (35, 1, 5), (40, 8, 0x200000), (48, 4, 1)] withPages
    let u := hostState [(0, 1, 8), (40, 8, 0x200000), (48, 4, 2)] withPages
    let v := hostState [(0, 1, 8), (40, 8, 0x220000), (48, 4, 2)] withPages
    Comes m .map ∧ mapBad m m.cmd (m.entry m.cmd) = false ∧ (m.mapPages (m.entry m.cmd)).isSome = true ∧ status .map m = (1, 1) ∧
    (((after .map m).part 0).trans.drop 3).map (fun g => (g.vpn, g.size, g.kind, g.r, g.w, g.x, g.scope)) =
      [(0x30, 1, .l, true, true, false, .sys), (0x31, 1, .l, true, true, false, .sys)] ∧ status .map o = (5, 1) ∧
    status .unmap v = (5, 1) ∧ v.cmd = m.cmd ∧ u.cmd = m.cmd := by unfold Comes; decide
theorem witness_unmap : let u := hostState [(0, 1, 8), (40, 8, 0x200000), (48, 4, 2)] withPages
    Comes u .unmap ∧ unmapBad u u.cmd (u.entry u.cmd) = false ∧ status .unmap u = (1, 1) ∧ ((after .unmap u).part 0).trans.length = 1 := by unfold Comes; decide
/-- COPY_IN to a page of kind L and to one of kind V while a superstep runs, and to a page of host memory; COPY_OUT of both kinds. -/
theorem witness_copies : let c (op va : Nat) := { hostState [(0, 1, op), (40, 8, va), (48, 4, 64), (56, 8, 0x30000)] withPages with hbm := [⟨0x40000, 9⟩] }
    let i := { c 9 0x200000 with host := Memory.writeRun (c 9 0x200000).host 0x30000 [5] }
    let v := { c 9 0x210000 with host := Memory.writeRun (c 9 0x210000).host 0x30000 [5] }
    Comes i .copyIn ∧ copyBad i i.cmd (i.entry i.cmd) = false ∧ findPage (i.part 0).trans (0x200000 / 65536) = some pageL ∧ status .copyIn i = (1, 1) ∧
    (after .copyIn i).hbm = [⟨0x40000, 5⟩] ∧ Comes v .copyIn ∧ status .copyIn v = (0, 0) ∧ (after .copyIn v).seen 0 ⟨false, 0x50000⟩ 2 = [0, 0] ∧
    (after .copyIn v).physRead ⟨false, 0x50000⟩ 2 = [5, 0] ∧ status .copyIn (c 9 0x220000) = (4, 1) ∧ Comes (c 10 0x200000) .copyOut ∧
    (after .copyOut (c 10 0x200000)).host.readRun 0x30000 2 = [9, 0] ∧ status .copyOut (c 10 0x220000) = (4, 1) := by unfold Comes; decide

/-- CREATE_PARTITION of partition 1 on pods 4 and 5, and on pods of partition 0; DESTROY_PARTITION of partitions 0 and 9. -/
theorem witness_create : let c := hostState [(0, 1, 0x40), (33, 1, 1), (34, 1, 4), (35, 2, 2)]
    let o := hostState [(0, 1, 0x40), (33, 1, 1), (34, 1, 0), (35, 2, 2)]
    c.parts.length = 64 ∧ Comes c .createPartition ∧ createBad c c.cmd (c.entry c.cmd) = false ∧ createRest c c.cmd (c.entry c.cmd) = 0 ∧ createRest o o.cmd (o.entry o.cmd) = 5 := by unfold Comes; decide
theorem witness_destroy : let d := hostState [(0, 1, 0x41), (33, 1, 0)] idleP
    let n := hostState [(0, 1, 0x41), (33, 1, 9)]
    let b := d.modFn 1 fun f => { f with bind := some ⟨0, .part, 1, 1, 0, 1, ⟨true, 0⟩, 0⟩ }
    Comes d .destroyPartition ∧ (d.part 0).valid = true ∧ d.boundTo 0 = [] ∧ ((after .destroyPartition d).part 0).valid = false ∧ status .destroyPartition d = (1, 1) ∧
    Comes n .destroyPartition ∧ (n.part 9).valid = false ∧ status .destroyPartition n = (4, 1) ∧ Comes b .destroyPartition ∧ b.boundTo 0 = [1] ∧
    status .destroyPartition b = (5, 1) := by unfold Comes; decide
/-- BIND_VF with an area of host memory; UNBIND_VF of a function without a binding, of one that stands still, and of one that runs. -/
theorem witness_bind : let s := hostState [(0, 1, 0x42), (33, 1, 0), (34, 2, 1), (36, 1, 3), (37, 1, 1), (40, 2, 1), (42, 2, 0), (44, 2, 1), (48, 8, 0x400000), (56, 4, 200)]
    Comes s .bindVf ∧ bindBad s s.cmd (s.entry s.cmd) = false ∧ bindRest s s.cmd (s.entry s.cmd) = 0 ∧ status .bindVf s = (1, 1) ∧
    ((after .bindVf s).fn 1).bind = some ⟨0, .part, 1, 1, 0, 1, ⟨true, 0x400000⟩, 200 * 65536⟩ := by unfold Comes; decide
theorem witness_unbind : let u := hostState [(0, 1, 0x43), (34, 2, 1)]
    let b := u.modFn 1 fun f => { f with bind := some ⟨0, .part, 1, 1, 0, 1, ⟨true, 0⟩, 0⟩ }
    let r := b.modPart 0 fun P => { P with launch := P.launch.map fun l => { l with fn := 1 } }
    Comes u .unbindVf ∧ u.bound? 1 = none ∧ status .unbindVf u = (1, 1) ∧ Comes b .unbindVf ∧ (b.part 0).busyWith 1 = false ∧
    ((after .unbindVf b).fn 1).bind = none ∧ Comes r .unbindVf ∧ (r.part 0).busyWith 1 = true ∧ ((after .unbindVf r).part 0).stops = [(.unbind 1, 100)] := by
  unfold Comes; decide
theorem witness_attest : let s := hostState [(0, 1, 0x45), (40, 8, 0x20000), (48, 8, 0x30000)]
    Comes s .attest ∧ fldOf (s.entry s.cmd) 33 7 = 0 ∧ fldOf (s.entry s.cmd) 56 8 = 0 ∧ s.hbm.wf = true ∧ s.host.wf = true := by unfold Comes; decide
/-- QUIESCE HOLD of a partition that runs, of one without a launch and of one that stands still. -/
theorem witness_hold : let q (h : Partition → Partition) := hostState [(0, 1, 0x44)] h
    let r := q id
    let i := q idleP
    Comes r .quiesceHold ∧ quiesceBad r r.cmd (r.entry r.cmd) = false ∧ quiesceRange r r.cmd (r.entry r.cmd) = 0 ∧ (r.part 0).atRest = false ∧
    ((after .quiesceHold r).part 0).stops = [(.quiesce ⟨0, 0, 0⟩, 100 + 1800000)] ∧ (i.part 0).atRest = true ∧ status .quiesceHold i = (1, 1) ∧
    ((after .quiesceHold i).part 0).run = .held ∧ ((after .quiesceHold (q fun P => { P with run := .halted })).part 0).run = .halted := by unfold Comes; decide
/-- SHEET of a held partition into an area of kind L, and of one that has lost data. -/
theorem witness_sheet : let q (b : Bool) := hostState [(0, 1, 0x44), (34, 1, 1), (40, 8, 0x200000), (48, 8, 0x10000000)] fun P =>
      { withPages P with run := .held, lostData := b, tiles := [], trans := [{ pageL with size := 8192 }] }
    Comes (q false) .quiesceSheet ∧ quiesceBad (q false) (q false).cmd ((q false).entry (q false).cmd) = false ∧
    quiesceRange (q false) (q false).cmd ((q false).entry (q false).cmd) = 0 ∧ (q false).poison = [] ∧
    status .quiesceSheet (q true) = (6, 1) := by unfold Comes; decide
/-- RELEASE of a held launch, and of a held partition without one. -/
theorem witness_release : let q (h : Partition → Partition) := hostState [(0, 1, 0x44), (34, 1, 2)] h
    let a := q fun P => { P with run := .held }
    let b := q fun P => { idleP P with run := .held }
    Comes a .quiesceRelease ∧ quiesceRange a a.cmd (a.entry a.cmd) = 0 ∧ (a.part 0).releasing = false ∧ ((after .quiesceRelease a).part 0).run = .running ∧
    ((after .quiesceRelease b).part 0).run = .idle ∧ status .quiesceRelease b = (1, 1) := by unfold Comes; decide
theorem witness_sheet_write : let s := { (hostState [(0, 1, 0x44), (34, 1, 1)] fun P => { withPages P with sheet := some ⟨0, 0, 0⟩ }).modQueue 0 0 (fun q => { q with taken := 1 }) with arg := { v := 0x200000, m := 1 } }
    s.epoch = 1 ∧ ((s.fn s.arg.fn).queue s.arg.q).open s.arg.idx = true ∧ status .sheetWriteDone s = (1, 1) ∧ (after .sheetWriteDone s).hbm.length = 4 := by decide

/-! ### Boot, the mailbox and the host's registers -/

/-- The boot ROM's stages (R23): with nothing in flash neither slot verifies, and stage 0x04 ends in recovery with cause 0x01; the entry of firmware.
What passes rests on the free values of log entry 6. -/
theorem test_boot_stages : let at_ (n : Byte) := after .packageReset { State.reset with boot := { State.reset.boot with stage := n }, arg := { q := 1 } }
    (at_ 0x01).boot.stage = 0x02 ∧ (at_ 0x02).boot.stage = 0x03 ∧ (at_ 0x03).boot.stage = 0x04 ∧ (at_ 0x04).boot.done = true ∧ (at_ 0x04).boot.recov = true ∧
    (at_ 0x04).boot.cause = 0x01 ∧ (at_ 0x04).boot.mbrdy = true ∧ (at_ 0x04).boot.stage = 0xF0 ∧ (State.reset.verifySlot 0 State.reset.minVersion).1 ≠ 1 ∧
    ((at_ 0x06).ctrl 3).th.mode = .firmware ∧ (at_ 0x06).boot.stage = 0x07 ∧ (at_ 0x08).boot.done = true ∧ (at_ 0x08).boot.stage = 0x09 ∧
    (after .packageReset { State.reset with boot := { State.reset.boot with stage := 0x09, done := true } }).boot.stage = 0x01 := by decide
def mailbox (f : Boot → Boot) (a : Arg := {}) : State :=
  { State.reset with boot := f { Boot.zero with done := true, recov := true, mbrdy := true, mblen := 2048 }, arg := a }
/-- R26, R27: the longest chunk, one byte too many, a chunk past 1 MiB, and a mailbox that is busy. -/
theorem witness_mailbox : let g := after .mailboxGo (mailbox id)
    g.boot.busy = true ∧ g.agenda.length = 1 ∧ (after .mailboxLast (mailbox id)).boot.last = true ∧
    (after .mailboxGo (mailbox fun b => { b with mblen := 2049 })).boot.err = true ∧ (after .mailboxGo (mailbox fun b => { b with mblen := 0 })).boot.err = true ∧
    (after .mailboxGo (mailbox fun b => { b with mboff := 0x100000 })).boot.err = true ∧
    ((after .mailboxGo (mailbox fun b => { b with mboff := 0x100000 })).boot.imgFail.toNat / 2 ^ 24) = 0x0B ∧
    (after .mailboxGo (mailbox fun b => { b with busy := true })).boot.err = true ∧
    (after .mailboxAbort (mailbox fun b => { b with mboff := 9 })).boot.mboff = 0 := by decide
theorem witness_mailbox_chunks : let b := mailbox fun b => { b with busy := true, mblen := 9, chunk := 2, mbox := [⟨1, 7⟩] }
    let l := mailbox fun b => { b with busy := true, last := true, chunk := 2, mbox := [⟨1, 7⟩] }
    ((after .mailboxChunkAppended b).ctrl 0).sram = [⟨1, 7⟩] ∧ (after .mailboxChunkAppended b).boot.busy = false ∧ (after .mailboxChunkAppended b).boot.mboff = 2 ∧
    (after .mailboxChunkAppended l).agenda.map (·.ev) = [.mailboxImageVerified] ∧
    (verifyImage (fun i n => (l.ctrl 0).sram.readRun i n) (fun _ _ => none) l.minVersion).1 ≠ 1 ∧ (after .mailboxImageVerified l).boot.cause = 0x03 := by decide
theorem test_other_resets : (after .pcieHotReset (mailbox fun b => { b with mboff := 9 })).boot.mboff = 0 ∧ (after .powerLoss State.reset).powered = false ∧
    (after .powerLoss { State.reset with hbm := [⟨0, 1⟩] }).hbm = [] := by decide
/-- A function whose command page at host address 0 gives queue 1 a ring of 16 entries at 0x10000; a notify of that queue. -/
def notified (v : Word) (size : Nat) (q : Queue) : State :=
  let s := demo id
  { s with
    arg := { fn := 1, v := v, size := size }, host := Memory.writeRun [] 32 (leBytes 8 0x10000 ++ [4, 1])
    fns := Fn.zero :: { Fn.zero with queues := Fn.zero.queues.set 1 q } :: List.replicate 2 Fn.zero }
theorem witness_notify : let ok := notified 0x100000010 8 Queue.zero
    let t := after .notify ok
    ok.boot.recov = false ∧ baseReserved 1 (ok.fn 1).cpage = false ∧ (fldOf (ok.fnRead 1 (ok.fn 1).cpage 32 32) 9 1).testBit 0 = true ∧
    badDescriptor 1 (ok.fnRead 1 (ok.fn 1).cpage 32 32) = false ∧ ((t.fn 1).queue 1).tail = 16 ∧ ((t.fn 1).queue 1).ring = 0x10000 ∧
    t.pendBits.map (fun b => (b.fn, b.q)) = [(1, 1)] ∧ ((after .notify (notified 0x100000011 8 Queue.zero)).fn 1 |>.queue 1).stopped = true ∧
    ((after .notify (notified 0x1 4 Queue.zero)).fn 1).nerr = true ∧ ((after .notify (notified 0x800000001 8 Queue.zero)).fn 1).nerr = true := by decide
/-- R49, R50: a slot that is free, and none that is; a queue that has waited. -/
theorem witness_queue_slots : let b : PendBit := ⟨1, 1, 0, false, none⟩
    let s := { demo id with pendBits := [b], arg := { fn := 1, q := 1 } }
    s.nextBit = some b ∧ s.slotFor = some 0 ∧ (after .queueSlotAssign s).qslots[0] = some (1, 1) ∧ (after .queueSlotAssign s).pendBits = [] ∧
    (after .queueStarved s).pendBits = [{ b with starved := true }] ∧ (after .queueStarved { s with arg := { fn := 1, q := 2 } }).pendBits = [b] := by decide
/-- Every slot belongs to a queue with commands waiting: of functions that no partition runs, and of one that runs. -/
theorem witness_no_slot : let b : PendBit := ⟨9, 0, 0, false, none⟩
    let busy : Queue := ⟨2, 0, 1, 0, 4, true, false, [], none, false⟩
    let s0 := demo id
    let s := { s0 with pendBits := [b], qslots := Vector.ofFn fun i => some (1 + i.val / 8, i.val % 8)
                       fns := Fn.zero :: List.replicate 8 { Fn.zero with queues := Vector.replicate 8 busy } ++ List.replicate 1016 Fn.zero }
    let f : Binding := ⟨0, .part, 1, 10, 0, 1, ⟨true, 0⟩, 2 ^ 40⟩
    let r := (s.modFn 1 fun f' => { f' with bind := some f }).modPart 0 fun P => { P with launch := P.launch.map (fun l => { l with fn := 1 }), recs := [{ LRec.idle with st := .running, postFn := 1, postCmd := some ⟨1, 0, 0⟩ }] }
    s.nextBit = some b ∧ s.slotFor = none ∧ s.slotVictim = none ∧ r.nextBit = some b ∧ r.slotFor = none ∧ r.slotVictim = some 0 ∧
    (r.runBinding 0).isSome = true ∧ (r.part 0).preempting = false ∧ ((after .queueSlotAssign r).part 0).preempting = true := by decide
def vectored (x : Vec) (a : Arg) : State :=
  { demo id with arg := a, fns := Fn.zero :: { Fn.zero with vecs := Fn.zero.vecs.set 8 x } :: List.replicate 2 Fn.zero }
/-- R52, R53: the last vector of a function: a count that is reached, one that is not, a time that has run out, and a masked vector. -/
theorem witness_interrupts : let a : Arg := { fn := 1, n := 8, v := 0x000502, op := 7 }
    let x (time : BitVec 16) (count : BitVec 8) (pend t0 : Nat) (m p : Bool) (active : BitVec 16) : State := vectored ⟨time, count, pend, t0, m, p, active⟩ a
    (after .coalesceCountReached (x 0 2 2 7 false false 0)).msgs = [(1, 8)] ∧ (after .coalesceCountReached (x 0 2 1 7 false false 0)).msgs = [] ∧
    (after .coalesceTimeExpiry { x 5 2 1 7 false false 5 with ptime := 907 }).msgs = [(1, 8)] ∧ (after .coalesceTimeExpiry { x 5 2 1 6 false false 5 with ptime := 907 }).msgs = [] ∧
    (after .coalesceTimeExpiry { x 5 2 1 7 false false 5 with ptime := 906 }).agenda.map (·.at_) = [101] ∧
    (after .coalesceTimeExpiry { x 0 2 1 7 false false 0 with ptime := 907 }).agenda = [] ∧
    (((after .coalesceWrite (x 0 1 0 7 false false 0)).fn 1).vec 8).time = 5 ∧ (((after .coalesceCountReached (x 0 1 1 7 true false 0)).fn 1).vec 8).pba = true ∧
    (after .msixUnmask (x 0 1 0 7 true true 0)).msgs = [(1, 8)] ∧ (after .coalesceWrite (x 0 1 4 7 false false 0)).msgs = [(1, 8)] := by decide
/-- R45, R35, R50, R26: writes of the registers, and of the mailbox in recovery mode. -/
theorem witness_register_writes : let w (fn off size : Nat) (v : Word) (f : Fn → Fn) : State := { (demo id).modFn fn f with arg := { fn := fn, off := off, size := size, v := v } }
    ((after .registerWrite (w 1 0x000 8 0x12345000 id)).fn 1).cpage = 0x12345000 ∧ ((after .registerWrite (w 0 0x1000 8 0x12345000 id)).fn 0).cpage = 0x12345000 ∧
    ((after .registerWrite (w 1 0x010 4 2 fun f => { f with nerr := true })).fn 1).nerr = false ∧
    ((after .registerWrite (w 1 0x020 4 5 fun f => { f with evtTail := 5 })).fn 1).evtHead = 5 ∧ ((after .registerWrite (w 1 0x020 4 6 fun f => { f with evtTail := 5 })).fn 1).evtHead = 0 ∧
    (after .registerWrite (w 0 0x1018 4 1000000 id)).pfStarve = 1000000 ∧ (after .registerWrite (w 0 0x1018 4 1000001 id)).pfStarve = 10000 ∧
    (after .registerWrite (mailbox id { off := 0xFFC, size := 4, v := 0x11223344 })).boot.mbox.readRun 0x7FC 4 = [0x44, 0x33, 0x22, 0x11] ∧
    (after .registerWrite (mailbox id { off := 0x1018, size := 4, v := 5 })).pfStarve = 10000 ∧
    ((after .registerWrite (w 1 (notifyOff 1 + 7) 1 0 id)).fn 1).nerr = true ∧ ((after .registerWrite (w 1 (notifyOff 1) 4 0 id)).fn 1).nerr = true := by decide

/-! ### HBM channels, monitors, power, leases, links and package time -/

def chanState (f : Channel → Channel) (a : Arg) : State :=
  { State.reset with boot := { State.reset.boot with done := true }, chans := State.reset.chans.set 255 (f Channel.zero), arg := a, cycle := 7 }
/-- R344, R345: the last channel: TRAIN cleared, set, and written while a test runs; GO with and without TRAIN, and before it takes effect. -/
theorem witness_training : let a : Arg := { n := 255, v := 4 }
    ((after .hchTrainWrite (chanState id { n := 255 })).chan 255).train = false ∧
    ((after .hchTrainWrite (chanState (fun c => { c with train := false }) a)).chan 255).trainAsked = true ∧
    ((after .hchTrainWrite (chanState (fun c => { c with busy := true }) a)).chan 255).err = true ∧
    (after .trainEffective (chanState (fun c => { c with trainAsked := true, goAsked := true }) a)).agenda.map (·.at_) = [3607] ∧
    (after .patternTestStart (chanState id a)).agenda.map (·.ev) = [.patternTestDone] ∧
    ((after .patternTestStart (chanState (fun c => { c with trainAsked := true }) a)).chan 255).goAsked = true ∧
    ((after .patternTestStart (chanState (fun c => { c with train := false }) a)).chan 255).err = true ∧
    ((after .patternTestDone (chanState (fun c => { c with busy := true }) a)).chan 255).busy = false := by decide
theorem witness_delays : let a : Arg := { n := 255, v := 31 }
    ((after .hchRdall (chanState id a)).chan 255).rd[65] = 31 ∧ ((after .hchRdall (chanState id a)).chan 255).wr[65] = 8 ∧
    ((after .hchWrall (chanState id a)).chan 255).wr[0] = 31 ∧ ((after .hchWrall (chanState (fun c => { c with train := false }) a)).chan 255).err = true := by decide
/-- R20: a selection with a reserved source, a clear, and samples at the edges of the bins. -/
theorem witness_monitors : let s (v : Word) := { demo id with arg := { n := 7, v := v } }
    (((after .monitorSelect (s 0x80001F09)).part 0).monitors[7].src, ((after .monitorSelect (s 0x80001F09)).part 0).monitors[7].shift) = (9, 31) ∧
    ((after .monitorSelect (s 0x8000000A)).part 0).monitors[7].src = 0 ∧ ((after .monitorClear (s 0)).part 0).monitors[7].min = 0xFFFFFFFF ∧
    (Monitor.zero.sample 1).bins[0] = 1 ∧ (Monitor.zero.sample 2).bins[1] = 1 ∧ (Monitor.zero.sample 0xFFFFFFFF).bins[15] = 1 ∧
    (Monitor.zero.sample 5).min = 5 ∧ (Monitor.zero.sample 5).max = 5 ∧
    (after .monitorPeriodicSample { demo id with arg := { n := 6 } }).agenda.map (·.at_) = [1900] := by decide
/-- R18, R19: the limits: 1,600 W and one more; 104 and 105 °C, 115 °C, and 99 °C. -/
theorem witness_power : let s := demo id
    (after .powerMeasure { s with arg := { q := 1, m := 400 } }).power.limit = 400 ∧ (after .powerMeasure { s with arg := { q := 1, m := 399 } }).power.limit = 1600 ∧
    (s.part 0).decision = none ∧ (after .powerMeasure { s with power := { s.power with watts := 1601 } }).power.withheld.length = 1 ∧
    (after .powerMeasure { s with power := { s.power with watts := 1600 } }).power.withheld = [] ∧ (after .powerMeasure { s with arg := { m := 1601 } }).power.watts = 1601 ∧
    (after .thermalThrottle { s with arg := { m := 105 } }).power.throttled[0] = true ∧ (after .thermalThrottle { s with arg := { m := 104 } }).power.throttled[0] = false ∧
    s.onDie 0 0 = true ∧ (s.part 0).thermalHeld = false ∧ s.reachedRoot 0 = false ∧ ((after .thermalStop { s with arg := { m := 115 } }).part 0).run = .voting ∧
    (after .thermalStop { s with arg := { m := 115 } }).nextAgent = none ∧
    (let h := { demo id (h := fun P => { P with run := .thermal, thermalHeld := true }) with arg := { m := 99 } }
     ((after .thermalResume h).part 0).run = .running ∧ ((after .thermalResume h).part 0).thermalHeld = false ∧
     (let w := { h with power := { h.power with temps := #v[25, 100, 25, 25] }, logical := [64] }
      ((after .thermalResume w).part 0).run = .thermal)) := by decide
theorem witness_heat_holds_issue : let s := demo id
    s.nextAgent = some (.tile 0 0, 0) ∧ State.nextAgent { s with power := { s.power with throttled := #v[true, false, false, false] } } = some (.tile 0 0, 0) ∧
    State.nextAgent { s with cycle := 101, power := { s.power with throttled := #v[true, false, false, false] } } = none := by decide
/-- R30, R31: renewal by a live leader; a lease that has run out goes to the controller of die 1. -/
theorem witness_leases : let s := hostState []
    let c := (demoCtrl id).ctrl 0
    let d := { s with leases := Vector.replicate 4 ⟨4, 0, 90⟩, ptime := 2000000, epoch := 4, ctrls := Vector.replicate 4 c, arg := { n := 1 } }
    s.leaderLive = true ∧ (after .leaseRenewal s).leases[3].expiry = 100 + 14400000 ∧ d.leaderLive = false ∧ d.mayTakeLease 1 = true ∧
    (∀ k : Fin 4, d.leases[k].epoch < 5) ∧ d.leases[3].epoch + 1 = 5 ∧ d.mayTakeLease 3 = false := by decide
/-- R187, R188, R116, R44: scrubbing; a worn page with no owner, with one that runs, and with one that stands still; the counter; a slice. -/
theorem witness_housekeeping : let s := demo id
    let w (h : Partition → Partition) : State := { demo id id h with corrected := List.replicate 16 (0x40, 90), arg := { n := 0x40 } }
    let v := fun (P : Partition) => { P with trans := [⟨0, 1, ⟨false, 0x400000⟩, .v, true, true, true, .part⟩] }
    (after .hbmScrub { s with arg := { nats := [5] } }).corrected = [(5, 100)] ∧ (w id).worn 0x40 = true ∧ (w id).ownersOf 0x40 = [] ∧
    (w v).ownersOf 0x40 = [0] ∧ ((w v).part 0).still = false ∧ (after .hbmScrub { s with arg := { q := 1, n := 7 } }).poison = [7] ∧
    (after .hbmScrub { s with arg := { q := 2, n := 7 } }).corrected = [(7, 100)] ∧ ((after .hbmScrub { s with arg := { q := 3 } }).part 0).tileErrs = 1 ∧ ((after .pageRetire (w v)).part 0).retiring = [0x40] ∧
    ((w fun P => idleP (v P)).part 0).still = true ∧ s.worn 0x40 = false ∧ s.quiesced = false ∧ State.reset.quiesced = true ∧ (after .qcntAdvance State.reset).qcnt = 1 := by decide
theorem witness_slices : let f (n : Nat) : Fn := { Fn.zero with bind := some ⟨0, .part, 1, 1, n - 1, 1, ⟨true, 0⟩, 2 ^ 40⟩ }
    let s := demo id id fun P => { P with recs := [{ LRec.idle with st := .running, postFn := 1 }, { LRec.idle with st := .eligible, postFn := 2 }]
                                          launch := P.launch.map fun l => { l with fn := 1 } }
    let t := { s with fns := [Fn.zero, f 1, f 2], cycle := 18000 }
    t.sliceDue 0 = some 2 ∧ (t.part 0).preempting = false ∧ (t.runBinding 0).isSome = true ∧
    ((after .quantumExpiry t).part 0).stops.map (·.1) = [.preempt 4] ∧ s.sliceDue 0 = none := by decide
/-- R12, R13, R69: 16, 8, 4 and 3 lanes; a flit that fails for the first time, its third replay and its fourth; a replay from the store. -/
theorem witness_links : let s (m : Nat) (l : List (BitVec 18 × Nat)) : State :=
      { demo id with ports := State.reset.ports.set 39 { Port.zero with missing := l, store := [List.replicate 256 0] }, arg := { n := 39, m := m } }
    ((after .portRetrain (s 0xFFFF [(5, 3)])).port 39).missing = [(5, 0)] ∧ ((after .portRetrain (s 0xFF [])).port 39).width = 8 ∧
    ((after .portRetrain (s 0xF [])).port 39).width = 4 ∧ ((after .portRetrain (s 0x7 [])).port 39).failed = true ∧ flitGood [] = false ∧
    (headerOf []).1.seq = 0 ∧ ((after .flitReceived (s 0 [])).port 39).missing = [(0, 0)] ∧ ((after .flitReceived (s 0 [])).port 39).rxSeq = 1 ∧
    ((after .flitReceived (s 0 [(0, 2)])).port 39).missing = [(0, 3)] ∧ (after .flitReceived (s 0 [(0, 2)])).agenda = [] ∧
    (after .flitReceived (s 0 [(0, 3)])).agenda.map (·.ev) = [.portRetrain] ∧
    ((after .replayRequest (s 0 [])).port 39).queue = [⟨0, 0, List.replicate 256 0, true⟩] ∧
    (after .lossOfAPackage { demo id with arg := { nats := [3] } }).agenda.map (fun d => (d.ev, d.arg.n)) = [(.portRetrain, 3)] := by decide +kernel
/-- R14, R15: a request of class 4 waits behind class 2, a timing beat before it; a port sends at a flit boundary, and not in a width change, the first
flit that may start. -/
theorem test_class_order : let q : List Waiting := [⟨0, 0, [], false⟩, ⟨2, 0, [], false⟩]
    let p : Port := { Port.zero with queue := q, sending := 100 }
    let all (_ : Waiting) : Bool := true
    (enqueueFlit q ⟨1, 0, [1], false⟩).map (·.cls) = [0, 1, 2] ∧ (enqueueFlit q ⟨2, 5, [], false⟩).map (·.part) = [0, 0, 5] ∧
    q.Pairwise (fun x y => x.cls ≤ y.cls) ∧ p.sendNext all 99 = p ∧ { p with pausedUntil := 101 }.sendNext all 100 = { p with pausedUntil := 101 } ∧
    (p.sendNext all 100).queue = q.drop 1 ∧ (p.sendNext all 100).txSeq = 1 ∧ (p.sendNext all 100).sending = 102 ∧
    ({ p with width := 4 }.sendNext all 100).sending = 105 ∧ (p.sendNext (fun w => w.cls = 2) 100).queue = q.take 1 ∧
    ({ p with queue := [⟨0, 0, [7], true⟩] }.sendNext all 100).out = [[7]] := by decide +kernel
/-- R40, R41: package time 8 × 9 is the first cycle of slot 9, which a partition's share holds or not; class 3 and 4 in the kept slots. -/
theorem test_wire_slots : let s (n : Nat) := { demo id id fun P => { P with wireSlots := [9, 20] } with ptime := BitVec.ofNat 64 (8 * n) }
    let w (c : Nat) : Waiting := ⟨c, 0, [], false⟩
    (s 9).mayStart 16 (w 2) = true ∧ (s 10).mayStart 16 (w 2) = false ∧ (s (128 + 20)).mayStart 16 (w 2) = true ∧ (s 10).mayStart 16 (w 1) = true ∧
    (s 7).mayStart 16 (w 2) = false ∧ (s 7).mayStart 16 (w 3) = true ∧ (s 9).mayStart 16 (w 3) = true ∧ (s 9).mayStart 16 (w 4) = false ∧
    (s 7).mayStart 16 (w 4) = true ∧ State.mayStart { s 9 with ptime := 79 } 16 (w 2) = false ∧ (s 9).boot.recov = false := by decide +kernel
theorem witness_good_flit : let f : List Byte := List.replicate 256 0
    flitGood f = true ∧ (headerOf f).1.cls ≠ 4 := by decide +kernel
/-- R15: a proposal, and one that a slot phase or the smallest width forbids; its acceptance, its lapse and its end. -/
theorem witness_widths : let s (f : Port → Port) (m : Nat) : State := { demo id with ports := State.reset.ports.set 39 (f Port.zero), arg := { n := 39, m := m } }
    let p := s (fun p => { p with proposed := some 8, proposedAt := 84 }) 0
    (s id 0).slotSoon 39 = false ∧ ((after .widthNarrowPropose (s id 180000)).port 39).proposed = some 8 ∧ ((after .widthNarrowPropose (s id 179999)).port 39).proposed = none ∧
    ((after .widthNarrowPropose (s (fun p => { p with width := 4 }) 180000)).port 39).proposed = none ∧ (after .widthProposalAccept p).agenda.length = 1 ∧
    ((after .widthProposalLapse p).port 39).proposed = none ∧ ((after .widthChangeDone p).port 39).width = 8 ∧
    (let w (op m : Nat) := { s (fun p => { p with width := 8 }) m with arg := { n := 39, m := m, op := op } }
     ((after .widthNarrowPropose (w 16 0)).port 39).proposed = some 16 ∧ ((after .widthNarrowPropose (w 4 180000)).port 39).proposed = some 4 ∧
     ((after .widthNarrowPropose (w 4 0)).port 39).proposed = none) ∧
    (let f := { s id 0 with arg := { n := 39, q := 1, op := 8 } }
     ((after .widthProposalAccept f).port 39).proposed = some 8 ∧ f.boot.recov = false) ∧
    ((after .widthChangeDone (s (fun p => { p with lanes := 0xF, proposed := some 8 }) 0)).port 39).width = 4 := by decide
/-- R16: a beat from the parent and from another port; a step toward it, and one too early; beats go to the children. -/
theorem witness_time : let s (t : Timing) (n : Nat) : State := { demo id with cycle := 2000, timing := t, arg := { n := n, m := 1, v := 100 } }
    (s ⟨false, 0, 0, 0, false, 3, [], 0⟩ 3).timing.parent = 3 ∧ (after .timingBeat (s ⟨false, 9, 0, 0, false, 3, [], 0⟩ 4)).timing.bound = 9 ∧
    (after .slewStep (s ⟨false, 0, -2, 976, false, 3, [], 0⟩ 3)).ptime = 101 ∧ (after .slewStep (s ⟨false, 0, -2, 977, false, 3, [], 0⟩ 3)).ptime = 100 ∧
    (after .slewStep (s ⟨false, 0, 2, 0, false, 3, [], 0⟩ 3)).ptime = 99 ∧ (after .slewStep (s ⟨false, 0, 0, 0, false, 3, [], 0⟩ 3)).ptime = 100 := by decide
theorem witness_beats : (after .timingBeatSend { demo id with timing := ⟨true, 0, 0, 0, false, 0, [5], 0⟩ }).agenda.map (·.at_) = [65636] ∧
    ([5] : List Nat).count 5 = 1 ∧ ((after .timingBeatSend { demo id with timing := ⟨true, 0, 0, 0, false, 0, [5], 0⟩ }).port 5).queue.map (fun w => (w.cls, w.data.head?)) =
      [(1, some 100)] ∧
    (after .timingBeatSend { demo id with arg := { q := 1, n := 3, nats := [5] } }).timing.parent = 3 := by decide

/-! ### The scheduler -/

/-- Every tile of the partition has fixed; the vote of tile 0's thread is `v`. -/
def fixedTile (v : BitVec 2) (ends : Bool) (T : Tile) : Tile :=
  { T with barrier := true, threads := T.threads.map fun t =>
      if t.task = .running then { t with atfix := true, wait := .fixed, vote := v, fixRec := some ⟨0x10, t.regs, [⟨.c, 128, 64⟩], 64, ends⟩ } else t }
def votes (v : BitVec 2) (ends : Bool) (h : Partition → Partition := id) (a : Arg := {}) : State :=
  { demo (regs [(4, 9)]) (h := fun P => h { P with tiles := P.tiles.map (fixedTile v ends) }) with arg := a }
/-- R79: tile 7 may vote, and votes a wash; it may not while its task has not fixed. -/
theorem witness_votes : let s := votes 1 false (a := { t := 7 })
    s.mayVote 0 7 = true ∧ ((after .tileVote s).part 0).remote.map (fun m => (m.vote, m.ssn, m.latest)) = [(1, 1, 100)] ∧
    (((after .tileVote s).part 0).tile 7).voted = true ∧ (demo id).mayVote 0 7 = false := by decide
def msg (v : BitVec 2) (n : Nat) : BarMsg := ⟨v, false, false, .none, 0, false, 1, 0, n, 6, 9⟩
/-- R80, R81: the root decides once every tile has voted and the last vote has reached it; the third wash of one cause halts. -/
theorem witness_decision : let v (n : Nat) := votes 0 false fun P => { P with tiles := P.tiles.map (fun T => { T with voted := true }), remote := [msg 0 n, { msg 1 n with orv := 1 }] }
    (v 16).mayDecide 0 = true ∧ (v 17).mayDecide 0 = false ∧ rootMsgs (v 16) 0 ≠ [] ∧
    ((after .barrierCombine (v 16)).part 0).decision.map (fun d => (d.vote, d.orv, d.maxv)) = some (1, 7, 9) ∧ ((after .barrierCombine (v 16)).part 0).flipAt = 196 := by decide
theorem witness_third_wash : let d : BarMsg := { msg 1 16 with cause := .slip, detail := 5 }
    let P : Partition := { (votes 1 false).part 0 with decision := some d, washes := [(.slip, 5, 2)] }
    State.thirdWash (votes 1 false fun _ => P) 0 = true ∧ ((after .washLimitHalt { votes 1 false (fun _ => P) with arg := {} }).part 0).decision.map (·.vote) = some 2 := by decide
/-- R81, R102: a fix keeps the byte at `c:128`, which tile 0's fix names, and not the one at 256; the launch goes on, or ends. -/
theorem test_fix_commits : let s (ends : Bool) := votes 0 ends fun P => { P with decision := some (msg 0 16), tiles := P.tiles.map fun T => { T with c := [⟨128, 5⟩, ⟨256, 6⟩] } }
    let t := after .flip (s false)
    (t.part 0).ssn = 1 ∧ (t.part 0).bred = 0x0000000900000006 ∧ ((t.part 0).tile 0).c = [⟨128, 5⟩] ∧ (t.part 0).run = .running ∧
    ((t.part 0).tile 0).threads.map (fun u => (u.task, u.pc, u.sreg 4)) = (.running, 64, 9) :: List.replicate 7 (.absent, 0, 0) ∧
    ((after .flip (s true)).part 0).launch = none ∧ ((after .flip (s true)).part 0).run = .idle ∧ (s false).hbm.wf = true := by decide
/-- R82: a wash puts the thread back at its last fix; a halt. -/
theorem test_wash : let s (v : BitVec 2) := votes v false fun P =>
      { P with decision := some (msg v 16), tiles := P.tiles.map fun T => { T with latent := [⟨0, .task, 8, 0, 0, 0, [], some .c, ⟨false, 0⟩, [1]⟩] } }
    let t := after .flip (s 1)
    (t.part 0).ssn = 0 ∧ (t.part 0).washRuns = 1 ∧ ((t.part 0).tile 0).latent = [] ∧ ((t.part 0).tile 0).threads.map (fun u => (u.pc, u.sreg 4)) = List.replicate 8 (0, 0) ∧
    (t.part 0).run = .running ∧ ((s 2).part 0).decision.map (·.vote) = some 2 := by decide +kernel
/-- A record of one pod at offset 0 whose threads 0 and 7 start at 0x40. -/
def launchImage : List Byte := entryOf [(0, 8, 0x40), (8, 2, 0), (10, 2, 1), (12, 1, 1), (13, 1, 0x81), (36, 4, 0xFFFFFFFF)] ++ List.replicate 448 0
theorem test_dispatch : let s := demo id id fun P => idleP { P with seed := [(0, [])], recs := [{ LRec.idle with image := launchImage, snap := List.replicate 256 0, st := .eligible, postFn := 1 }] }
    let t := after .dispatch s
    (s.part 0).mayDispatch = true ∧ (s.part 0).pickRecord = some 0 ∧ ((s.part 0).rcd 0).savedIn = none ∧ (t.part 0).run = .dispatching ∧
    (t.part 0).launch.map (·.fn) = some 1 ∧ ((t.part 0).tile 7).threads.map (fun u => (u.task, u.sreg 2)) =
      (.running, 0x40000) :: List.replicate 6 (.absent, 0) ++ [(.running, 0x39000)] ∧ ((t.part 0).tile 7).threads.map (·.pc) = 0x40 :: List.replicate 6 0 ++ [0x40] := by decide
/-- R87, R67: the return of a launch from its area, and an area that holds no sheet. -/
theorem witness_resume : let P (r : RunSt) := fun (P : Partition) => { P with run := r, launch := if r = .idle then none else P.launch, seed := [(0, [])], recs := [{ LRec.idle with image := launchImage, st := .eligible, savedIn := some (1, 7) }] }
    let s := demo id id (P .idle)
    let u := { (demo id id (P .dispatching)) with fns := [Fn.zero, { Fn.zero with bind := some ⟨0, .part, 1, 1, 0, 1, ⟨true, 0⟩, 64⟩ }] }
    (s.part 0).mayDispatch = true ∧ (s.part 0).pickRecord = some 0 ∧ ((s.part 0).rcd 0).savedIn ≠ none ∧ (after .dispatch s).agenda.map (·.ev) = [.resumeFromSaveArea] ∧
    (u.areaOf 0 1).isSome = true ∧ ((u.part 0).rcd 0).savedIn = some (1, 7) ∧ fldOf (u.physRead ⟨true, 0⟩ 64) 0 4 ≠ sheetMagic := by decide
/-- An area whose one section is the state section of the superstep that the record was saved at. -/
def areaBytes : List Byte := leBytes 4 sheetMagic ++ leBytes 4 0 ++ leBytes 8 1024 ++ leBytes 4 1 ++ List.replicate 172 0 ++ leBytes 4 2 ++ leBytes 4 0 ++ leBytes 8 320 ++ leBytes 8 16 ++
  List.replicate 72 0 ++ List.replicate 32 0 ++ leBytes 4 7 ++ leBytes 4 0 ++ leBytes 4 600 ++ leBytes 4 0
theorem witness_resume_good : let u := { (demo id id fun P => { P with run := .dispatching, recs := [{ LRec.idle with image := launchImage, st := .running, savedIn := some (1, 7) }] }) with
      fns := [Fn.zero, { Fn.zero with bind := some ⟨0, .part, 1, 1, 0, 1, ⟨true, 0⟩, 1024⟩ }], host := Memory.writeRun [] 0 areaBytes }
    let area := u.physRead ⟨true, 0⟩ (min 1024 (leNat (u.physRead ⟨true, 8⟩ 8)))
    fldOf area 0 4 = sheetMagic ∧ fldOf (findSec (secsOf area) 0x02) 0 4 = 7 ∧ ((after .resumeFromSaveArea u).part 0).run = .dispatching ∧
    ((after .resumeFromSaveArea u).part 0).lead = 600 := by decide
/-- R86, R87: the last tile that is saved, and one before it. -/
theorem witness_saving : let s (b : Bool) := { (demo id id fun P => { P with run := .saving, launch := none, saveFn := some 1, tiles := P.tiles.map (fun T => { T with saved := b }) }) with arg := { t := 7 } }
    let l := (s true).modTile 0 7 fun T => { T with saved := false }
    ((s false).part 0).saveFn.isSome = true ∧ (((after .tileSaved (s false)).part 0).tile 7).saved = true ∧ ((after .tileSaved (s false)).part 0).run = .saving ∧
    ((after .tileSaved l).part 0).run = .idle := by decide
/-- R108, R119, R110, R151: around supersteps. -/
theorem witness_around : let s := demo id id fun P => { P with sinceLate := 256, lead := 5 }
    let v := { (demo id id withPages) with arg := { v := 0x50000, data := [7] } }
    let e := { (demo id (fun T => { T with building := true, flpn := 0 })) with arg := { n := 0 } }
    ((after .leadReset s).part 0).lead = (s.part 0).baseLead ∧
    (let g := demo id id idleP
     ((after .leadReset { g with arg := { q := 1, n := 5 } }).part 0).lead = 2048 ∧ ((after .leadReset { g with arg := { q := 1, n := 5 } }).part 0).up = some 5) ∧ (v.part 0).mapsV ⟨false, 0x50000⟩ = true ∧ (after .outsideWrite v).physRead ⟨false, 0x50000⟩ 1 = [7] ∧
    (after .outsideWrite v).seen 0 ⟨false, 0x50000⟩ 1 = [0] ∧ (((after .extentBuildDone e).part 0).tile 0).building = false ∧
    ((s.part 0).tile 0).building = false ∧ (((after .spillCopyBackDone (demo id fun T => { T with copyBack := [.buf .c 0] })).part 0).tile 0).copyBack = [] := by decide
/-- R88, R86, R56: the watchdog one cycle after its limit and at it, and the bounds. -/
theorem witness_bounds : let w (n : Nat) := demo id id fun P => { P with launch := P.launch.map fun l => { l with watchdog := n } }
    let p := { (demo id id fun P => { P with stops := [(.preempt 2, 100)] }) with arg := { op := 0 } }
    let q (r : RunSt) := demo id id fun P => { P with run := r, stops := [(.quiesce ⟨0, 0, 0⟩, 100)] }
    (w 99).dogDue 0 = true ∧ (w 100).dogDue 0 = false ∧ (p.part 0).preemptDue 99 = false ∧ (p.part 0).preemptDue 100 = true ∧ p.reachedRoot 0 = false ∧ (p.part 0).launch.map (·.since) = some 0 ∧
    ((after .preemptBoundExpiry p).part 0).run = .voting ∧ ((after .quiesceBoundExpiry (q .running)).part 0).run = .voting ∧
    (after .quiesceBoundExpiry (q .saving)).agenda.map (·.at_) = [1900] ∧ (demo id).agenda = [] := by decide
/-- R72, R75: a record that ends and counts down its successor to Eligible; one that arms again; one that still runs. -/
theorem witness_launch_end : let img (succ : Nat) : List Byte := entryOf [(36, 4, succ)] ++ List.replicate 448 0
    let s (b : Bool) (n : Nat) := demo id id fun P => idleP { P with recs := [{ LRec.idle with image := img n, snap := img n, st := .running, rearm := b }, { LRec.idle with st := .posted, counts := #v[1, 0, 0, 0] }] }
    (((s false 1).part 0).rcd 0).conditional = false ∧ (((s false 1).part 0).rcd 0).fld 36 4 = 1 ∧ ((after .launchComplete (s false 1)).part 0).recs.map (·.st) = [.idle, .eligible] ∧
    ((after .launchComplete (s true 0xFFFFFFFF)).part 0).recs.map (·.st) = [.armed, .posted] ∧ (((demo id).part 0).rcd 0).st ≠ .running := by decide
theorem witness_deferred_preemption : let s := { (demo id) with fns := [Fn.zero, { Fn.zero with bind := some ⟨0, .part, 1, 1, 0, 1, ⟨true, 0⟩, 64⟩ }], pfNpLimit := 0, arg := { n := 2 } }
    let t := s.modPart 0 fun P => { P with launch := P.launch.map fun l => { l with fn := 1, nonPre := true } }
    (t.part 0).launch.map (·.since) = some 0 ∧ (t.runBinding 0).isSome = true ∧ ((after .nonpreemptibleLimitExpiry t).part 0).stops.map (·.1) = [.preempt 2] := by decide
/-- R81, R54: write-behind has drained; resets of a virtual function and of the physical one. -/
theorem witness_drain_and_resets : let s (n : Nat) := { (demo id id fun P => { P with drains := [7, 8] }) with arg := { n := n, op := 7 } }
    let f := { (s 0) with fns := [Fn.zero, { Fn.zero with cpage := 5, nerr := true, bind := some ⟨0, .part, 1, 1, 0, 1, ⟨true, 0⟩, 64⟩ }], arg := { fn := 1 } }
    ((after .writeBehindDrainDone (s 0)).part 0).drains = [8] ∧ (after .writeBehindDrainDone (s 1)).agenda.map (·.ev) = [.launchComplete] ∧
    ((after .launchComplete (s 0)).part 0).drains = [8] ∧ (f.part 0).busyWith 1 = false ∧
    ((after .vfFunctionLevelReset f).fn 1).cpage = 0 ∧ ((after .vfFunctionLevelReset f).fn 1).bind.isSome = true ∧
    ((after .pfFunctionLevelReset f).part 0).valid = false ∧ ((after .pfFunctionLevelReset f).fn 1).bind = none := by decide
/-- R90: a line arrives at a tile and at a controller; and one that nobody fetched. -/
theorem witness_lines : let s := { (demo (fun t => { t with wait := .line 128 }) fun T => { T with fetching := [128] }) with hbm := [⟨128, 8⟩], arg := { agent := .tile 0 0, addr := 128 } }
    let c := { demoCtrl id with ctrls := (demoCtrl id).ctrls.set 0 { (demoCtrl id).ctrl 0 with fetching := [128] }, arg := { agent := .ctrl 0, addr := 128 } }
    ((after .lineArrival s).lineAt (.tile 0 0) 128).isSome = true ∧ (after .lineArrival s).here.wait = .ready ∧ (after .lineArrival c).lineAt (.ctrl 0) 128 ≠ none ∧
    ((after .lineArrival { s with arg := { s.arg with addr := 192 } }).lineAt (.tile 0 0) 192) = none := by decide

/-! ### Engines, the exchange and collectives -/

/-- The machine with one operation, of identity 0, on tile 0, which `arg` names. -/
def engState (o : EngOp) (g : Tile → Tile := id) (h : Partition → Partition := id) : State :=
  { demo (regs []) g h with ops := [o], opCtr := 1, arg := { op := 0 } }
/-- How an operation stands. -/
def opSt (s : State) (i : Nat) : Option OpSt := (s.op? i).map (·.st)
/-- R302: 64 bytes from `c:128` to `a:64`. -/
theorem test_copy_moves : let o := opOf 0 (.copy 0 none 0 (.buf .a 64 6) (.buf .c 128 6) 64) .running
    let s := engState o fun T => { T with c := [⟨127, 1⟩, ⟨128, 5⟩, ⟨191, 9⟩, ⟨192, 3⟩] }
    let t := after .copyComplete s
    OpLive s o 0 0 ∧ opSt t 0 = some .done ∧ (t.tile 0 0).readBuf .a 63 3 = [0, 5, 0] ∧ (t.tile 0 0).readBuf .a 126 3 = [0, 9, 0] ∧
    (t.tile 0 0).readBuf .c 128 1 = [5] := by unfold OpLive; decide
/-- R106, R303: a slot of 64 bytes delivered, and none free. -/
theorem test_slot_delivered : let o (x : OpSt) := opOf 0 (.copy 0 none 0 (.ring 1 6) (.buf .c 128 6) 128) x
    let ring (n : BitVec 32) (T : Tile) : Tile := { T with c := [⟨128, 5⟩], rings := T.rings.set 1 ⟨2, 0, 3, 0, n, 0⟩ }
    let s := engState (o .running) (ring 3)
    let t := after .engineSlotDelivered s
    OpLive s (o .running) 0 0 ∧ ((s.tile 0 0).ring 1).free = 1 ∧ ((s.tile 0 0).ring 1).unused = false ∧ s.claimed (o .running) 1 true = false ∧
    ((t.tile 0 0).ring 1).prod = 4 ∧ ((engState (o .running) (ring 4)).tile 0 0).rings[1].count = 3 ∧
    ((engState (o .moved) (ring 4)).tile 0 0).ring 1 = ⟨2, 0, 3, 0, 4, 0⟩ := by unfold OpLive; decide
/-- R263: a granule joins write-behind; memory is as before. -/
theorem test_wbk_completes : let o := opOf 0 (.wbk 128 .c 64 1)
    let s := engState o fun T => { T with c := [⟨64, 5⟩], ext := [⟨0, 1, ⟨false, 0⟩, .v, true, true, false, .part, [], 0⟩] }
    let t := after .wbkComplete s
    OpLive s o 0 0 ∧ s.hasEntry o = true ∧ ((s.tile 0 0).extent 128).map (·.kind) = some .v ∧ opSt t 0 = some .done ∧
    (t.part 0).wb.map (fun w => (w.loc, w.data.head?, w.data.length)) = [(⟨false, 128⟩, some 5, 64)] ∧ t.hbm.read 128 = none.getD 0 := by unfold OpLive; decide
/-- R51, R315. -/
theorem test_signal_completes : let o := opOf 0 (.signal 128 .add 7)
    let s := { engState o liveTile with hbm := [⟨128, 255⟩] }
    let t := after .signalComplete s
    OpLive s o 0 0 ∧ ((s.tile 0 0).extent 128).isSome = true ∧ s.poisonAt ⟨false, 128⟩ 8 = none ∧ opSt t 0 = some .done ∧ t.hbm = [⟨128, 6⟩, ⟨129, 1⟩] := by unfold OpLive; decide
/-- The tasks of the partition have come to their exchange barrier; tile 0 is the last to raise it. -/
def barrierState (last : Bool) : State :=
  { demo (regs []) id fun P => { P with lead := 50, tiles := P.tiles.zipIdx.map fun x =>
      { x.1 with barrier := last && x.2 != 0, threads := x.1.threads.map fun t => { t with xsynced := true } } } with arg := { t := 0 } }
/-- R148, R149. -/
theorem test_exchange_barrier : let s := barrierState
    let S (b : Bool) := ((after .exchangeBarrier (s b)).part 0).exchS
    (((s true).part 0).tile 0).atBarrier = true ∧ (((s true).part 0).tile 0).barrier = false ∧ (s true).exchangeNeeded 0 = true ∧ S true = some 150 ∧ S false = none ∧
    (((after .exchangeBarrier (s false)).part 0).tile 0).barrier = true := by decide
theorem test_exchange_release : let s := demo (regs []) id fun P => { P with exchS := some 150 }
    ((s.part 0).tile 0).released = false ∧ (s.part 0).exchSkew = false ∧ (((after .exchangeRelease s).part 0).tile 0).released = true ∧
    ((demo id).part 0).exchS = none := by decide
/-- R152: the datum of slot 8 at 164 cycles of package time, and what its `xsel` takes at 171. -/
def datum (lost : Bool) : Datum := ⟨0, 1, 8, 0, 6, 5 :: List.replicate 255 0, [], lost, [], 0⟩
theorem test_xmit_slot : let o := opOf 0 (.xmit 8 0 1 [] .c 256 6 0)
    let s := { engState o (fun T => { T with c := [⟨256, 5⟩] }) fun P => { P with exchS := some 36 } with arg := { op := 0 } }
    let t := after .xmitSlot s
    OpLive s o 0 0 ∧ (s.part 0).byTag = false ∧ opSt t 0 = some .done ∧ (t.part 0).flight = [{ datum false with slot := 10, hb := [0] }] := by unfold OpLive; decide
theorem test_xsel_slot : let o := opOf 0 (.xsel 8 0 512)
    let s := engState o (fun T => { T with fmt := T.fmt.set 16 6, landed := [datum false] }) fun P => { P with exchS := some 29 }
    let t := after .xselSlot s
    OpLive s o 0 0 ∧ (s.tile 0 0).fmtAt .a 512 = 6 ∧ opSt t 0 = some .done ∧ (t.tile 0 0).readBuf .a 511 3 = [0, 5, 0] := by unfold OpLive; decide
/-- R155, R158. -/
theorem test_datum_lands : let o : EngOp := { opOf 1 (.xsel 8 0 512) with agent := .tile 0 1 }
    let s (lost : Bool) := { engState o id fun P => { P with exchS := some 36, flight := [datum lost] } with opCtr := 2 }
    let t := after .datumLanded (s false)
    ((s false).xselFor 0 1 8 0).isSome = true ∧ ((t.part 0).tile 1).landed = [datum false] ∧ (t.part 0).flight = [] ∧
    (((after .datumLanded (s true)).part 0).tile 1).landed = [] := by decide
/-- R165, R168: tile 0 has contributed 1.0 to element 1 of a region of two elements under `fadd`, and streams; the results are held,
with the identity −0 in element 0. -/
def reduceState : State :=
  { redState (regs []) with
    hbm := [⟨0, 2⟩, ⟨4, 1⟩, ⟨5, 6⟩, ⟨12, 8⟩], arg := { op := 0 }
    parts := (redState (regs [])).parts.modify 0 fun P => { P with
      reducing := [0], tiles := P.tiles.modify 0 fun T => { T with
        released := true, threads := T.threads.map fun t => { t with atfix := true }
        contribs := [⟨0, 1, true, ⟨0, .task, 0, 0, 0, 0, [], none, ⟨false, 0⟩, [0, 0, 0x80, 0x3F]⟩⟩] } } }
theorem test_reduction : let s := reduceState
    let ok (r : Region) : Bool := r.ok && !r.cav && r.base = 0 && r.ne = 2 && r.esize = 4
    s.mayStream 0 0 = true ∧ ((s.part 0).tile 0).bases = [0] ∧ (((after .reductionStream s).part 0).tile 0).streamed = [0] ∧
    (regionOf s (s.part 0).transNow (s.part 0).tiles.length 0).map ok = some true ∧ translate (s.part 0).transNow 64 = some ⟨false, 64⟩ ∧
    (s.part 0).reducing.contains 0 = true ∧ ((after .reductionDone s).part 0).held.map (fun h => (h.loc, h.data)) = [(⟨false, 64⟩, [0, 0, 0, 0x80, 0, 0, 0x80, 0x3F])] := by decide
/-- R171: 64 elements of one dimension split over tiles 0 and 1. -/
theorem test_enlarger : let o (x : OpSt) := opOf 0 (.enl .c 0 0 512 [⟨64, 1, 0, 0⟩] 0 [0, 1] 1 6) x
    OpLive (engState (o .queued)) (o .queued) 0 0 ∧ OpLive (engState (o .moved)) (o .moved) 0 0 ∧
    opSt (after .enlTransfer (engState (o .queued) id fun P => { P with exchS := some 36 })) 0 = some .moved ∧ opSt (after .enlComplete (engState (o .moved))) 0 = some .done := by
  unfold OpLive; decide
/-- R294: the arbiter chooses; R298, R289: `mzero` of bank 1, and a quantisation. -/
theorem witness_matrix_chosen : let o := opOf 0 (.mzero 1)
    let s := { engState o id fun P => { P with arb := [(0, 0)], podwt := [0x11111111] } with arg := { n := 0 } }
    (s.arbiter 0 0).map (fun x => (x.1.id, x.2.1)) = some (0, 0) ∧ opSt (after .matrixCommandChosen s) 0 = some .moved := by decide
theorem test_mzero_completes : let o := opOf 0 (.mzero 1) .moved
    let s := engState o fun T => { T with c := [⟨16384, 5⟩, ⟨32768, 6⟩] }
    let t := after .matrixCommandComplete s
    OpLive s o 0 0 ∧ o.isMatrix = true ∧ opSt t 0 = some .done ∧ (t.tile 0 0).readBuf .c 16384 1 = [0] ∧ (t.tile 0 0).readBuf .c 32768 1 = [6] := by unfold OpLive; decide
theorem test_quant_completes : let o := opOf 0 (.quant false .c 0 64 6 127 1 0 0x14) .running
    let s := engState o bfpTile
    OpLive s o 0 0 ∧ opSt (after .quantComplete s) 0 = some .done := by unfold OpLive; decide
/-- A command whose run fills its bank. -/
theorem witness_matrix_run : (opOf 0 (.mzero 1) .moved).matrixRun = (1, List.replicate 16384 0, 0) ∧
    (List.replicate 16384 (0 : Byte)).length = 16384 := ⟨rfl, List.length_replicate⟩

/-! ### Steps, lines and invariants -/

/-- The machine whose first unit is `mov s5, 7` (R231), as the host's harness places it. -/
def firstState : State := State.reset.withFetchWord 48 0b1000011000000000_0000000000000000000111_00000_00101
theorem test_step_runs_the_first_instruction : (match step firstState with
    | .next t => decide (t.here.sreg 5 = 7) && decide (t.here.pc = 2) && decide (t.cur = ⟨.tile 0 0, 0⟩)
    | _ => false) = true := by decide
/-- The heads of a line and whether a unit starts at each. -/
def headsOf (bs : List Byte) : List (BitVec 16 × Bool) := match decodeLine bs with
  | some hs => (hs.map (·.head)).zip (unitStarts true hs)
  | none => []
/-- A line of a predicate prefix for p1 and a head. -/
def predLine (lo hi : Byte) : List Byte := [0x01, 0x01, lo, hi] ++ List.replicate 60 0
def predState (lo hi : Byte) : State :=
  demo (regs []) fun T => { T with lines := [⟨0, predLine lo hi⟩] }
theorem witness_visits : let s := firstState
    Visits s (.tile 0 0) 0 ∧ (s.thread (.tile 0 0) 0).pc = 0 ∧ (s.lineAt (.tile 0 0) 0).map headsOf = some [(0x8600, true), (0x0008, true)] ∧
    s.powerHolds (.tile 0 0) 0x8600 = false ∧ s.here.preg 0 = true := by unfold Visits; decide
/-- R214, R215: `nop` and `rft` under a predicate that is false. -/
theorem witness_false_predicate : let s := predState 0x08 0x00
    let u := predState 0x0B 0x3C
    Visits s (.tile 0 0) 0 ∧ Visits u (.tile 0 0) 0 ∧ (s.lineAt (.tile 0 0) 0).map headsOf = some [(0x0101, true), (0x0008, false)] ∧
    unitOf (predLine 0x08 0x00) 0 = some (1, .nopInstruction) ∧ s.here.preg 1 = false ∧ modeFault .nopInstruction s.here.mode = none ∧
    unitOf (predLine 0x0B 0x3C) 0 = some (1, .rft) ∧ (modeFault .rft u.here.mode).isSome = true := by
  unfold Visits; decide
/-- The order of steps: no power; before boot; an input and an agenda entry that are due; a step whose condition holds; the end of a cycle. -/
theorem test_step_order : let s := State.reset
    let b := { demoCtrl id with ctrls := s.ctrls }
    let d (n : Nat) : Due := ⟨n, .leadReset, {}⟩
    s.powered = true ∧ s.boot.done = false ∧ s.inputs = [] ∧ takeDue 100 [d 101, d 100] = some (d 100, [d 101]) ∧ b.boot.done = true ∧
    (votes 1 false).autoEvent.isSome = true ∧ (demoCtrl id).nextAgent = some (.ctrl 0, 0) ∧
    (match step { s with powered := false } with | .fault .poweredOff => true | _ => false) = true := by decide
theorem test_cycle_ends : let s := { demoCtrl id with ctrls := State.reset.ctrls, leases := Vector.replicate 4 ⟨1, 0, 1000⟩ }
    s.autoEvent = none ∧ s.nextAgent = none ∧ (match step s with | .next t => decide (t.cycle = 101) && decide (t.ptime = 101) | _ => false) = true := by decide
/-- R209: the line of zeros has no END. -/
theorem test_line_without_end : (∀ i : Fin 32, headEnd (lineHead (List.replicate 64 0) i) = false) ∧ headEnd (lineHead exampleLine 7) = true ∧
    (∀ i : Fin 7, headEnd (lineHead exampleLine i) = false) ∧ 2 * (7 + 1) + tailsBelow exampleLine 8 = 40 ∧
    64 < 2 * (31 + 1) + tailsBelow (List.replicate 62 0 ++ [0x08, 0x40]) 32 := by decide
/-- R219, R221: an instruction with an encoding, and its head with any gap. -/
theorem witness_encode : (Instr.addReg 5 5 6).wf = true ∧ .addReg 5 5 6 ∉ packageSteps ∧
    (encode (.addReg 5 5 6)).map (fun e => (e.head &&& 0xFF07, e.tail)) = some (0x4300, 0x18A5) ∧ (0x43F8 : BitVec 16) &&& 0xFF07 = 0x4300 ∧
    decodeGoverned 0x43F8 0x18A5 .none = some (.addReg 5 5 6) ∧ (encode (.addImm 8 7 0x123456789A)).map (·.pfx) = some (.wide 0x123456789A) := by decide
/-- The invariants are met where a step is taken. -/
theorem witness_invariants : State.reset.memWf ∧ freshIds firstState ∧ (match step firstState with | .next _ => true | _ => false) = true := by
  unfold State.memWf Tile.wf freshIds; decide
/-- R93, R108: a row with a granule in the shadow area is read by a blocking unit. -/
theorem test_spilled_row : let s := demo (regs []) fun T => { T with copyBack := [.buf .c 5] }
    readRows s (.vnot 3 1) = some [1] ∧ rowSpilled s 1 = true ∧ rowSpilled s 2 = false ∧ s.here.mode ≠ .firmware ∧ s.returnRefused = none ∧
    (after (.vnot 3 1) s).here.wait = .result none 0 ∧ (after (.vnot 3 1) s).here.pend.length = 1 ∧ (after (.vnot 3 1) s).here.pc = 0 := by decide
/-- R59: while a SHEET is written, HOLD and RELEASE wait behind it; R31: a former leader's end of a SHEET is dropped. -/
theorem witness_quiesce_waits : let q (m : Nat) := hostState [(0, 1, 0x44), (34, 1, m)] fun P => { P with run := .held, sheet := some ⟨0, 1, 0⟩ }
    Comes (q 0) .quiesceHold ∧ Comes (q 2) .quiesceRelease ∧ ((q 2).part 0).quiesceWaits = true ∧ quiesceBad (q 2) (q 2).cmd ((q 2).entry (q 2).cmd) = false ∧
    ((after .quiesceRelease (q 2)).part 0).stops = [(.quiesce ⟨0, 0, 0⟩, 0)] ∧ ((after .quiesceRelease (q 2)).part 0).run = .held ∧
    ((after .quiesceHold (q 0)).part 0).stops.length = 1 ∧ ((q 2).part 0).sheet ≠ some (q 2).cmd := by unfold Comes; decide
/-- R49: one slot is to come already. -/
theorem witness_slot_to_come : let b : PendBit := ⟨9, 0, 0, false, none⟩
    let s0 := demo id id fun P => { P with stops := [(.preempt 1, 200)] }
    let s := { s0 with pendBits := [b], qslots := Vector.ofFn fun i => some (1 + i.val / 8, i.val % 8)
                       fns := Fn.zero :: List.replicate 8 { Fn.zero with queues := Vector.replicate 8 ⟨2, 0, 1, 0, 4, true, false, [], none, false⟩ } ++ List.replicate 1016 Fn.zero }
    s.nextBit = some b ∧ s.slotFor = none ∧ ((after .queueSlotAssign s).part 0).stops = [(.preempt 1, 200)] := by decide
/-- R80: below the root of a system group the combined message goes up, once. -/
theorem test_combined_message_goes_up : let v := votes 0 false fun P =>
      { P with tiles := P.tiles.map (fun T => { T with voted := true }), remote := [msg 0 16], sysGroup := true, up := some 5 }
    let t := after .barrierCombine v
    v.mayDecide 0 = true ∧ rootMsgs v 0 ≠ [] ∧ (t.part 0).sentUp = true ∧ (t.part 0).decision = none ∧
    (t.port 5).queue.map (fun w => (w.cls, w.part, w.data.length)) = [(0, 0, 32)] ∧ t.mayDecide 0 = false := by decide
/-- R67, R173: the area of a launch holds another superstep than the one expected. -/
theorem witness_resume_mismatch : let u := { (demo id id fun P => { P with run := .dispatching, recs := [{ LRec.idle with image := launchImage, st := .running, savedIn := some (1, 8) }] }) with
      fns := [Fn.zero, { Fn.zero with bind := some ⟨0, .part, 1, 1, 0, 1, ⟨true, 0⟩, 1024⟩ }], host := Memory.writeRun [] 0 areaBytes }
    let area := u.physRead ⟨true, 0⟩ (min 1024 (leNat (u.physRead ⟨true, 8⟩ 8)))
    u.areaOf 0 1 = some ⟨0, .part, 1, 1, 0, 1, ⟨true, 0⟩, 1024⟩ ∧ ((u.part 0).rcd 0).savedIn = some (1, 8) ∧ fldOf area 0 4 = sheetMagic ∧
    fldOf (findSec (secsOf area) 0x02) 0 4 = 7 ∧ 0 ∈ (u.part 0).spanTiles ∧ 0 < (u.part 0).tiles.length ∧ mismatchDetail 8 7 = 0x800000007 := by decide
/-- R154: a datum that leaves the package has a slot that is due. -/
theorem witness_xmit_far : let o := opOf 0 (.xmit 8 0 2053 [] .c 256 6 0)
    let s := engState o id fun P => { P with exchS := some 36 }
    OpLive s o 0 0 ∧ (s.part 0).byTag = false ∧ 36 + 8 * 8 ≤ s.ptime.toNat := by unfold OpLive; decide
/-- R171: the first and the last of 64 elements split over tiles 0 and 1, whose banks hold FP32 and BF16. -/
theorem test_enlarger_places : let o := opOf 0 (.enl .c 0 0 512 [⟨64, 1, 0, 0⟩] 0 [0, 1] 1 6)
    let s := engState o fun T => { T with fmt := T.fmt.set 16 6, c := [⟨2, 0x80⟩, ⟨3, 0x3F⟩, ⟨254, 0x80⟩, ⟨255, 0x3F⟩] }
    let put := enlPut s 0 0 [] .c 0 512 [⟨64, 1, 0, 0⟩] 0 [0, 1] 6
    let t := after .enlTransfer s
    OpLive s o 0 0 ∧ tuplesIdx [64] = (List.range 64).map (fun i => [i]) ∧ put [0] = (0, 512, [0, 0, 0x80, 0x3F]) ∧ put [63] = (1, 574, [0x80, 0x3F]) ∧
    (t.tile 0 0).readBuf .a 512 4 = [0, 0, 0x80, 0x3F] ∧ (t.tile 0 1).readBuf .a 574 2 = [0x80, 0x3F] := by unfold OpLive; decide
/-- R106, R303, R114: a slot out of a ring to `c:` of another copy's format, and 256 bytes into a sparsity queue. -/
theorem test_slots_drained_and_queued : let d := opOf 0 (.copy 1 none 0 (.buf .a 0x400 6) (.ring 1 6) 64) .running
    let q := opOf 0 (.copy 1 none 0 (.queue 2) (.buf .a 0 6) 256) .running
    let g (T : Tile) : Tile := { T with a := [⟨0, 5⟩], rings := T.rings.set 1 ⟨2, 0, 3, 0, 1, 0⟩ }
    let s := engState d g
    let u := engState q g
    OpLive s d 0 0 ∧ OpLive u q 0 0 ∧ d.slotted = true ∧ q.slotted = true ∧ ((s.tile 0 0).ring 1).filled = 1 ∧ s.claimed d 1 false = false ∧
    (((after .engineSlotDelivered s).tile 0 0).ring 1).cons = 1 ∧ ((after .engineSlotDelivered s).op? 0).map (·.prog) = some 1 ∧
    (((after .engineSlotDelivered u).tile 0 0).queues[2]).length = 1 ∧ opSt (after .copyComplete s) 0 = some .done := by unfold OpLive; decide
/-- R217, R241: the waits of a blocking unit whose loop return is refused hold its fault, and it has no effect. -/
theorem test_refused_return : let s := { demo (fun t => { regs [(3, 0x100), (5, 7)] t with lc := #v[0, 2, 0, 0], lb := #v[0, 2, 0, 0] }) liveTile with hbm := [⟨0x100, 5⟩] }
    s.returnRefused = some (2, .illegalTarget, 2) ∧ (demo (regs [])).returnRefused = none ∧
    (after (.amoAdd 4 ⟨0, .g, .thr, .relaxed, 3⟩ 5) s).hbm = [⟨0x100, 5⟩] ∧
    (after (.amoAdd 4 ⟨0, .g, .thr, .relaxed, 3⟩ 5) s).here.wait = .target 2 .illegalTarget 2 ∧ (after .tsync s).here.rounds = 0 := by decide
/-- R254: an engine's slot that is due follows the threads' issue of its cycle; another step of the package that is due comes first. -/
theorem test_slots_follow_issue : let s := { demo id with agenda := [⟨90, .engineSlotDelivered, {}⟩, ⟨95, .leadReset, {}⟩] }
    s.dueEvent.map (·.2) = some .leadReset ∧ s.dueSlot.map (·.2) = some .engineSlotDelivered ∧
    (State.dueEvent { s with agenda := [⟨90, .engineSlotDelivered, {}⟩] }).isNone = true := by decide

/-! ### Held faults, spilled rows, waits and links -/

/-- A unit at the end of level 1, whose loop returns to an address that begins no unit. -/
def refusedState (g : Tile → Tile) (f : Thread → Thread := id) : State :=
  demo (fun t => f { regs [(3, 0x100), (4, 64), (5, 7)] t with lc := #v[0, 2, 0, 0], lb := #v[0, 2, 0, 0] }) g
def holds (i : Instr) (s : State) : Bool := decide ((after i s).here.wait = .target 2 .illegalTarget 2)
/-- R217, R241: loads, row instructions, scans, reductions and `xsync` hold the fault of their loop return. -/
theorem witness_refused_returns : let g := refusedState liveTile
    let b := refusedState fun T => { T with copyBack := [.buf .c 4] }
    g.returnRefused = some (2, .illegalTarget, 2) ∧ b.returnRefused = some (2, .illegalTarget, 2) ∧
    holds (.ldBMem 5 ⟨0, .g, 3⟩) g = true ∧ (b.tile 0 0).spilled .c 0x100 1 = true ∧ holds (.ldBMem 5 ⟨0, .c, 3⟩) b = true ∧ rowSpilled b 1 = true ∧
    holds (.vnot 3 1) b = true ∧ holds .xsync b = true ∧ holds (.fence .acq .part) { refusedState id (fun t => { t with pend := [⟨103, .s 4, 9, 0⟩] }) with fresh := 0 } = true := by decide
theorem witness_refused_scans : let b := refusedState (fun T => { T with fmt := T.fmt.set 32 0x03, copyBack := [.buf .c 4] })
    suits .iadd b.rowFmt ∧ indexOp .iadd = false ∧ rowSpilled b 1 = true ∧ holds (.vscan .iadd 3 1) b = true ∧ holds (.vred .iadd 3 1) b = true ∧
    holds (.vredScalar .iadd 3 1) b = true := by unfold suits intFmt; decide
theorem witness_refused_halt : let c := demoCtrl fun t => { regs [(3, 0x100)] t with unit := ⟨0, 66, false, 0, 0⟩, lc := #v[0, 2, 0, 0], lb := #v[0, 2, 0, 0] }
    c.here.mode = .firmware ∧ c.returnRefused = some (2, .illegalTarget, 2) ∧ holds .halt c = true ∧ holds (.ldWMem 5 ⟨0, .m, 3⟩) c = true ∧
    (let m : AtomOp := ⟨0, .m, .thr, .relaxed, 3⟩
     holds (.amoAdd 4 m 5) c = true) := by decide
/-- R93, R108: rows, scans and reductions that read a spilled row, with their write pending. -/
theorem witness_spilled_rows : let s := demo (regs [(4, 1)]) fun T => { rowTile 0x03 [⟨256, 5⟩] T with copyBack := [.buf .c 4] }
    readRows s (.vnot 3 1) = some [1] ∧ readRows s (.vadd 3 1 (.scalar 4) false) = some [1] ∧ rowSpilled s 1 = true ∧ s.returnRefused = none ∧ s.Here = true ∧
    suits .iadd s.rowFmt ∧ (rawRow s 32 64 (.vnot 3 1)).isSome = true ∧ (arithRow (.vadd 3 1 (.scalar 4) false)).isSome = true ∧ intFmt s.rowFmt ∧
    rowOf (.vadd 3 1 (.scalar 4) false) s 4 = [([6, 0, 0, 0, 1, 0, 0, 0], 0, 101)] ∧ rowOf (.vscan .iadd 3 1) s 4 = [([5, 0, 0, 0, 5, 0, 0, 0], 0, 107)] ∧
    (after (.vred .iadd 3 1) s).here.wait = .result none 0 ∧ pending (after (.vredScalar .iadd 3 1) s) = [(5, 0)] := by unfold suits intFmt; decide
/-- R218: a fault that is held: raised once its line is present, where none can be fetched, not before; and a controller's, whose target is legal by
then. -/
theorem witness_held_faults : let w (a : Addr) := demo (fun t => { regs [] t with wait := .target a .illegalTarget a.toNat }) liveTile
    let c (a : Addr) := demoCtrl fun t => { regs [] t with wait := .target a .illegalTarget a.toNat }
    (w 2).lineAt (.tile 0 0) 0 ≠ none ∧ ((w 0x10040).lineAt (.tile 0 0) 0x10040) = none ∧ lineCheck (w 0x10040) (.tile 0 0) 0x10040 ≠ none ∧
    (c 2).lineAt (.ctrl 0) 0 ≠ none ∧ targetFault (c 2) (.ctrl 0) 2 = some (.illegalTarget, 2) ∧ targetFault (c 0) (.ctrl 0) 0 = none ∧
    (c 0x40).lineAt (.ctrl 0) 0x40 = none ∧ lineCheck (c 0x40) (.ctrl 0) 0x40 = none ∧ (c 0x40).threadReady (.ctrl 0) ((c 0x40).thread (.ctrl 0) 0) = false := by decide
/-- R320: a management event wakes a controller that halted, and its unit ends. -/
theorem witness_halt_ends : let c := demoCtrl fun t => { regs [] t with wait := .stopped }
    let w := { demoCtrl fun t => { regs [] t with wait := .woken } with arg := { agent := .ctrl 0 } }
    c.here.wait = .stopped ∧ c.cur.agent = .ctrl 0 ∧ w.waitMet (.ctrl 0) 0 = true ∧ w.endsLegally = true ∧ (after .blockingWaitDone w).here.wait = .ready ∧
    (after .blockingWaitDone w).here.pc = 2 := by decide
/-- R344, R93, R345: the ends of a wait for a channel, of a load from `m:`, and of a load of PASS0 while the test of its channel runs. -/
theorem witness_memory_waits : let k := { demo (fun t => { regs [] t with wait := .chan 3 (some 5) 9, waitFrom := 90 }) with arg := { agent := .tile 0 0 } }
    let m (x : Wait) (b : Bool) := { demoCtrl (fun t => { regs [] t with wait := x, waitFrom := 7 }) [] with
      arg := { agent := .ctrl 0, op := 7 }, chans := inService.set 0 { Channel.zero with busy := b } }
    (k.chan 3).train = false ∧ k.endsLegally = true ∧ (after .blockingWaitDone k).sr 5 = 9 ∧
    mBusy (m (.mload 5 0x20000020 4 true none) true) 0x20000020 = true ∧
    (after .blockingWaitDone (m (.mload 5 0x20000020 4 true none) true)).here.wait = .pass 5 0x20000020 4 true ∧
    mBusy (m (.mload 5 0x100 4 true none) false) 0x100 = false ∧ (after .blockingWaitDone (m (.mload 5 0x100 4 true none) false)).sr 5 = 0 := by decide
/-- R46, R51, R53: a command that asks for its interrupt, on a vector below its count, at it, and masked; and one with a signal. -/
theorem witness_completion_tells : let s (x : Vec) := (hostState [(0, 1, 6), (1, 1, 1), (16, 8, 0x20000), (24, 8, 7), (32, 1, 2)]).modFn 0 fun f => { f with vecs := f.vecs.set 1 x }
    let u (x : Vec) := (s x).modQueue 0 0 fun q => { q with taken := 1 }
    let v (c : BitVec 8) (m : Bool) := u ⟨0, c, 0, 0, m, false, 0⟩
    (v 2 false).memWf ∧ ((v 2 false).fn 0 |>.queue 0).pending 0 = true ∧ (fldOf ((v 2 false).entry ⟨0, 0, 0⟩) 1 1).testBit 0 = true ∧
    ((((v 2 false).complete ⟨0, 0, 0⟩ 1).fn 0).vec 1).pend = 1 ∧ ((v 1 false).complete ⟨0, 0, 0⟩ 1).msgs = [(0, 1)] ∧
    ((((v 1 true).complete ⟨0, 0, 0⟩ 1).fn 0).vec 1).pba = true ∧ leNat (((v 1 true).complete ⟨0, 0, 0⟩ 1).host.readRun 0x20000 8) = 7 := by
  unfold State.memWf Tile.wf; decide
/-- R338: a wait that holds its queue is met by a signal's action, and stays so. -/
theorem witness_waits_are_met : let w := hostState [(0, 1, 5), (16, 8, 0x200000), (24, 8, 7)] withPages
    let p := after .signalWait w
    let m := State.noteWaits { p with hbm := [⟨0x40000, 7⟩] }
    (0, 0) ∈ p.waitQueues ∧ ((p.fn 0).queue 0).hold = some 0 ∧ ((p.noteWaits.fn 0).queue 0).met = false ∧ ((m.fn 0).queue 0).met = true ∧
    status .signalWaitPoll { m with hbm := [] } = (1, 1) := by decide
/-- R55, R56: a HOLD of a partition that is idle, and of one that is halted, whose write-behind drains. -/
theorem witness_quiesce_drains : let q (r : RunSt) := hostState [(0, 1, 0x44)] fun P => { idleP P with run := r, drains := [7] }
    Comes (q .idle) .quiesceHold ∧ ((q .idle).part 0).atRest = true ∧ ((q .halted).part 0).atRest = true ∧ ((q .idle).part 0).quiesceWaits = false ∧
    ((after .quiesceHold (q .idle)).part 0).run = .held ∧ ((after .quiesceHold (q .halted)).part 0).run = .halted ∧
    ((after .quiesceHold (q .idle)).part 0).stops = [(.quiesce ⟨0, 0, 0⟩, 0)] := by unfold Comes; decide
/-- R49: the slot of the launch that is being saved is kept for the bit it was taken for, and passes over to it. -/
theorem test_slot_passes_over : let b : PendBit := ⟨9, 0, 0, false, some (0, 0)⟩
    let busy : Queue := ⟨2, 0, 1, 0, 4, true, false, [], none, false⟩
    let s0 := demo id id fun P => { P with run := .saving, saveSlot := true, launch := none, recs := [{ LRec.idle with st := .eligible, savedIn := some (1, 0), postFn := 1, postCmd := some ⟨1, 0, 0⟩ }] }
    let s := { s0 with pendBits := [⟨2, 0, 0, false, none⟩, b], qslots := Vector.ofFn fun i => some (1 + i.val / 8, i.val % 8)
                       fns := Fn.zero :: List.replicate 9 { Fn.zero with queues := Vector.replicate 8 busy } }
    let t := s.releaseSlots 0
    s.awaits b = true ∧ s.nextBit = some ⟨2, 0, 0, false, none⟩ ∧ s.slotFor ≠ some 0 ∧ t.qslots[0] = some (9, 0) ∧ b ∉ t.pendBits := by decide
/-- R25: in recovery mode no monitor is written. R344: TRAIN that is not due yet, and one that was taken back. -/
theorem witness_no_effects : let m := mailbox id { v := 0x80000000 }
    m.boot.recov = true ∧ ((after .monitorSelect m).part 0).monitors[0].en = false ∧
    (let c (f : Channel → Channel) := chanState (fun c => f { c with trainAsked := true, trainAt := 8 }) { n := 255 }
     (c id).cycle < ((c id).chan 255).trainAt ∧ ((after .trainEffective (c id)).chan 255).trainAsked = true ∧
     ((c fun c => { c with trainAsked := false }).chan 255).trainAsked = false) := by decide
/-- R29, R157: a router, a ring sequencer and a die are retired in service. -/
theorem test_retirements : let r (q n : Nat) := (after .pageRetire { demo id with arg := { q := q, n := n } }).retired
    (r 1 255).routers = [255] ∧ (r 1 255).ports = [] ∧ (r 1 255).generation = 1 ∧ (r 2 39).sequencers = [39] ∧
    (192 ∈ (r 3 3).routers ∧ 255 ∈ (r 3 3).routers ∧ 31 ∈ (r 3 3).ports ∧ 38 ∈ (r 3 3).ports ∧ 39 ∈ (r 3 3).sequencers) := by decide
/-- Every channel in training: each byte of HBM waits, whichever channel holds it. -/
def inTraining (s : State) : State := { s with chans := Vector.replicate 256 Channel.zero }
theorem train_replicate : ∀ n k : Nat, (List.replicate n Channel.zero).getD k Channel.zero = Channel.zero
  | 0, _ => rfl
  | _ + 1, 0 => rfl
  | n + 1, k + 1 => train_replicate n k
theorem held_in_training (s : State) (a : Nat) : (inTraining s).chanHolds ⟨false, a⟩ = some (Config.channelOf a) := by
  have h : (inTraining s).chans.toList = List.replicate 256 Channel.zero := Vector.toList_replicate
  have h2 : (List.replicate 256 Channel.zero).any (·.train) = true := rfl
  simp only [State.chanHolds, h, h2, train_replicate, Bool.not_false, Bool.true_and]; rfl
theorem range_held_in_training (s : State) (a n : Nat) : (inTraining s).rangeHeld ⟨false, a⟩ n = true := by
  have h : (inTraining s).chans.toList = List.replicate 256 Channel.zero := Vector.toList_replicate
  have h2 : (List.replicate 256 Channel.zero).any (·.train) = true := rfl
  simp only [State.rangeHeld, State.outOfService, h, h2, Loc.plus, train_replicate, Bool.not_false, Bool.true_and, List.any_eq_true]
  exact ⟨0, List.mem_range.2 (by omega), rfl⟩
/-- R344: what waits for a channel in training: a load, the end of a SHEET, a write-behind and a drain. -/
theorem witness_held_sheet : let s := inTraining { hostState [(0, 1, 0x44), (34, 1, 1)] withPages with arg := { v := 0x200000, m := 1 } }
    s.pagesHeld 0 = true := by
  simp only [State.pagesHeld, List.any_eq_true, Bool.and_eq_true]
  exact ⟨⟨Channel.zero, by simp [inTraining], rfl⟩, pageL, by decide, range_held_in_training _ _ _⟩
theorem witness_drain_waits : let s := inTraining { (demo id id fun P => { P with drains := [7] }) with arg := { nats := [3] } }
    (s.arg.nats.any fun c => (s.chan c).train) = true := by decide
theorem witness_wbk_waits : let o := opOf 0 (.wbk 128 .c 64 1)
    let s := { engState o (fun T => { T with ext := [⟨0, 1, ⟨false, 0⟩, .v, true, true, false, .part, [], 0⟩] }) with chans := Vector.replicate 256 Channel.zero }
    s.endHeld o.agent (.glob 128) 0 (64 * 1) = true := by
  intro o s
  have h : s = inTraining s := rfl
  have h1 : (pieces (elemAddr 128 0 1) (64 * 1)) = [(128, 64)] := by decide
  have h2 : (s.tile 0 0).extent 128 = some ⟨0, 1, ⟨false, 0⟩, .v, true, true, false, .part, [], 0⟩ := by decide
  have h3 : s.chans.toList.any (·.train) = true := by decide
  simp only [State.endHeld, o, opOf, h1, h2, h3, Extent.locOf, List.any_cons, Option.any_some, List.any_nil, Bool.or_false, Bool.true_and]
  rw [h]
  exact range_held_in_training _ _ _
/-- R80, R81: a decision is released to the packages below. -/
theorem test_release_goes_down : let v := votes 0 false fun P =>
      { P with tiles := P.tiles.map (fun T => { T with voted := true }), remote := [msg 0 16], sysGroup := true, down := [7] }
    v.mayDecide 0 = false ∧
    (let w := v.modPart 0 fun P => { P with kids := [7] }
     let t := after .barrierCombine w
     w.mayDecide 0 = true ∧ rootMsgs w 0 ≠ [] ∧ w.upPort 0 = none ∧ (w.downPorts 0).count 7 = 1 ∧ (t.part 0).flipAt = 100 + 2326 ∧
     (t.port 7).queue.map (fun x => (x.cls, x.data.length)) = [(0, 32)]) := by decide
/-- R82, R83: a halt waits while a launch is being saved. -/
theorem witness_halt_waits : let s := votes 2 false fun P => { P with run := .saving, decision := some (msg 2 16) }
    (s.part 0).run = .saving ∧ ((after .flip s).part 0).decision = some (msg 2 16) ∧ ((after .flip s).part 0).run = .saving := by decide
/-- R84: a dispatch that stages the seed of its record first. -/
theorem test_dispatch_stages : let s := demo id id fun P => idleP { P with seed := [], recs := [{ LRec.idle with image := launchImage, snap := List.replicate 256 0, st := .eligible, postFn := 1 }] }
    (s.part 0).mayDispatch = false ∧ (s.part 0).dispatches = true ∧ (s.part 0).pickRecord = some 0 ∧ ((after .dispatch s).part 0).run = .idle ∧
    ((after .dispatch s).part 0).seed.map (·.1) = [0] := by decide
/-- R110: the end of a build that another has replaced. -/
theorem witness_replaced_build : let e := { (demo id (fun T => { T with building := true, build := 5 })) with arg := { n := 0, m := 4 } }
    ((e.part 0).tile 0).building = true ∧ ((e.part 0).tile 0).build ≠ e.arg.m ∧ (((after .extentBuildDone e).part 0).tile 0).building = true := by decide
/-- R56, R86: bounds that elapse while a launch is dispatched. -/
theorem witness_bounds_of_a_dispatch : let q := demo id id fun P => { P with run := .dispatching, stops := [(.quiesce ⟨0, 0, 0⟩, 100)] }
    let p := { (demo id id fun P => { P with run := .dispatching, stops := [(.preempt 2, 100)] }) with arg := { op := 0 } }
    (after .quiesceBoundExpiry q).agenda.map (·.at_) = [101] ∧ (p.part 0).launch.map (·.since) = some 0 ∧ (after .preemptBoundExpiry p).agenda.map (·.at_) = [101] := by decide
/-- R263: a write-behind whose queue has no entry for it. -/
theorem witness_wbk_without_entry : let o := opOf 16 (.wbk 128 .c 64 1)
    let s := { demo (regs []) with ops := (List.range 16).map (fun i => opOf i (.wbk 0 .c 0 1)) ++ [o], opCtr := 17, arg := { op := 16 } }
    OpLive s o 0 0 ∧ s.hasEntry o = false := by unfold OpLive; decide
/-- R148, R149: the last tile of a package with a package above, and with one below whose message has come. -/
theorem test_exchange_barrier_of_a_group : let s (f : Partition → Partition) := (barrierState true).modPart 0 f
    let u := s fun P => { P with sysGroup := true, up := some 5 }
    let d := s fun P => { P with sysGroup := true, down := [7], xbar := { P.xbar with kids := [7], latest := 120 } }
    u.upPort 0 = some 5 ∧ u.exchangeNeeded 0 = true ∧ ((after .exchangeBarrier u).part 0).exchS = none ∧ ((after .exchangeBarrier u).port 5).queue.length = 1 ∧
    ((after .exchangeBarrier u).part 0).xbar.sent = true ∧ d.upPort 0 = none ∧ (d.downPorts 0).count 7 = 1 ∧ ((after .exchangeBarrier d).part 0).exchS = some 170 ∧
    ((after .exchangeBarrier d).port 7).queue.length = 1 := by decide
/-- R152, R155: an `xmit` before its slot, and one whose link another datum takes in its slot. -/
theorem test_xmit_early_and_lost : let o := opOf 0 (.xmit 8 0 1 [(3, 4)] .c 256 6 0)
    let e := { engState o id (fun P => { P with exchS := some 37 }) with arg := { op := 0 } }
    let c := { engState o id (fun P => { P with exchS := some 36, flight := [⟨9, 2, 10, 0, 6, [], [(3, 4)], false, [], 0⟩] }) with arg := { op := 0 } }
    OpLive e o 0 0 ∧ (after .xmitSlot e).agenda.map (fun d => (d.ev, d.at_)) = [(.xmitSlot, 101)] ∧ OpLive c o 0 0 ∧ 8 + (c.part 0).flightSlots = 10 ∧
    ((after .xmitSlot c).part 0).flight.map (·.lost) = [true, true] := by unfold OpLive; decide
/-- R155, R158, R154: twins on one port in one slot; a datum that leaves by port 39, and one that was lost on its way there. -/
theorem test_data_meet_and_leave : let o : EngOp := { opOf 1 (.xsel 8 0 512) with agent := .tile 0 1 }
    let s (x : Datum) := { engState o id fun P => { P with exchS := some 36, flight := [datum false, x] } with opCtr := 2 }
    let f (l : Bool) (n : Nat) := { demo id id fun P => { P with exchS := some 36, flight := [{ datum l with tile := n }] } with arg := { op := 0 } }
    (s { datum false with op := 5 }).xselFor 0 1 8 0 ≠ none ∧ ((after .datumLanded (s { datum false with op := 5 })).part 0).flight.map (·.lost) = [true] ∧
    ((f false 2087).part 0).byTag = false ∧ ((f false 2087).part 0).flight.find? (fun x => x.op = 0) = some { datum false with tile := 2087 } ∧
    (after .datumLanded (f true 2087)).ports = (f true 2087).ports ∧ ((after .datumLanded (f true 2087)).part 0).flight.map (·.tile) = [4135] ∧
    (after .datumLanded (f true 2087)).agenda.map (fun d => (d.at_, d.arg.t)) = [(100, 4135)] ∧ ((after .datumLanded (f true 4135)).part 0).flight = [] := by decide
/-- R242: a pending write to the count that `lexit` clears is one to s0, which takes none; others stand. -/
theorem test_lexit_drops_counts : let p (n : BitVec 12) (l : Nat) : Pend := ⟨l, .csr n, 5, 0⟩
    let s := demo fun t => { regs [] t with lc := #v[0, 5, 0, 0], pend := [p 0x011 100, p 0x012 100, p 0x011 101] }
    s.here.lc[1] ≠ 0 ∧ targetFault s s.cur.agent (nextUnitAt s s.cur.agent s.here.le[1]) = none ∧
    ((after (.lexit 1) s).here.pend.map fun x => (x.dest, x.land)) = [(.s 0, 100), (.csr 0x012, 100), (.csr 0x011, 101)] := by decide

/-! ### What lands before a trap, and lines that are to come -/

/-- R175, R223: a write of %tvec that is due when a trap enters, one that is not, and a write of another register. -/
theorem test_trap_takes_due_writes : let t (m : Nat) (n : BitVec 12) : Thread := { Thread.zero with tvec := 64, pend := [⟨m, .csr n, 0x1047, 0⟩] }
    ((t 100 0x020).landTrap 100).tvec = 0x1040 ∧ ((t 100 0x020).landTrap 100).pend.length = 0 ∧ ((t 101 0x020).landTrap 100).tvec = 64 ∧
    ((t 101 0x020).landTrap 100).pend.length = 1 ∧ ((t 100 0x118).landTrap 100).pend.length = 1 := by decide
/-- R175, R223: of a controller, a write of %tepc that is due does not replace the address that the trap saves. -/
theorem test_controller_trap_keeps_its_address : let s := demoCtrl fun t => { regs [] t with pend := [⟨100, .csr 0x021, 0x80, 0⟩] }
    (after (.trap 0x2A) s).here.tepc = 2 ∧ (after (.trap 0x2A) s).here.pend.length = 0 ∧ ((demoCtrl (regs [])).here.pend.all fun x => decide (100 < x.land)) = true := by decide
/-- R90, R281: a thread whose `mpdef` lies at a line that is absent is not ready, and the visit brings the line. -/
theorem witness_table_line_absent : let s := demo (regs []) fun T => { T with lines := [⟨0, lineOf 0xDF08 [0, 0, 0, 0, 2, 8, 0, 0]⟩] }
    let t := s.thread (.tile 0 0) 0
    Visits s (.tile 0 0) 0 ∧ s.tableLines (.tile 0 0) t = [0x80] ∧ s.lineAt (.tile 0 0) 0x80 = none ∧ lineCheck s (.tile 0 0) 0x80 = none ∧
    s.threadReady (.tile 0 0) t = false ∧ s.needsLine (.tile 0 0) t = true ∧ s.absentLine (.tile 0 0) t = some 0x80 := by unfold Visits; decide
/-- R90, R115: a store of a controller at a loop's end whose return lies in a line that is absent. -/
theorem witness_return_absent : let s (n : Word) := demoCtrl fun t => { regs [(3, 0x100)] t with lc := #v[0, n, 0, 0], lb := #v[0, 0x80, 0, 0] }
    (s 2).returnAbsent (.stWMem 5 ⟨0, .m, 3⟩) = some 0x80 ∧ (s 2).returnAbsent (.addImm 5 5 1) = none ∧ (s 1).returnAbsent (.stWMem 5 ⟨0, .m, 3⟩) = none := by decide
/-- R213, R216: a unit of a predicate prefix, a token prefix and an `expr`. -/
theorem test_three_heads : let tail := 0b00000000_000011_000010_000001_000000
    (encode (.expr 0x0521 0 1 2 3)).map (fun e => (e.head &&& 0xFF07, e.tail, e.pfx)) = some (0x9F02, tail, .token 0x0521) ∧ headFN 0x0101 = 1 ∧
    (decodeUnit [⟨0x0101, 0⟩, ⟨0xC201, 0x0521⟩, ⟨0x9F02, tail⟩]).toOption.map (fun u => (u.pred, u.size, u.instr)) = some (1, 3, .expr 0x0521 0 1 2 3) := by decide
/-! ### Waits for channels, refused commands, and what this package tells and is told -/

/-- R108, R344: a wait whose channels are in training comes again, and ends when they are in service. -/
theorem witness_wait_for_channels : let s := { demo (fun t => { regs [] t with wait := .result (some 5) 9 }) with arg := { agent := .tile 0 0, op := 0, nats := [3] } }
    (∀ c ∈ s.arg.nats, (s.chan c).train = false) ∧ (after .blockingWaitDone s).here.wait = .ready ∧
    (∃ c ∈ (inTraining s).arg.nats, ((inTraining s).chan c).train = true) ∧ (after .blockingWaitDone (inTraining s)).agenda.map (·.ev) = [.blockingWaitDone] ∧
    (after .blockingWaitDone (inTraining s)).here.wait = .result (some 5) 9 := by decide
/-- R288: the first A bank that differs, a W code that does not pair, a C format that does not, and a W offset between boundaries. -/
theorem test_mma_reasons : let T := (demo id).hereTile
    let m (f : Tile) (k woff : Nat) := f.mmaCheck 0x05 32 k 0 0 woff 0
    let w (i : Fin 40) (c : Byte) : Tile := { T with fmt := T.fmt.set i c }
    m (w 16 0x06) 32 0 = some (2, 6) ∧ m (w 0 0x06) 32 0 = some (3, 6) ∧ m (w 1 0x14) 512 0 = some (3, 5) ∧ m (w 32 0x03) 32 0 = some (4, 3) ∧ m T 32 64 = none ∧
    m T 32 393216 = some (5, 393216) ∧ m (w 0 0x14) 32 16 = none ∧ m (w 0 0x14) 32 8 = some (5, 8) := by decide
/-- R297: source banks that differ, and a W bank that is no BFP. -/
theorem test_quant_reasons : let T := bfpTile (demo id).hereTile
    let q (T : Tile) (n woff : Nat) := T.quantCheck false .a 16320 0 127 n woff
    T.quantCheck false .a 0 0 127 1 (16 * 1444) = none ∧ T.quantCheck false .a 0 0 127 1 (16 * 1445) = some (6, 16 * 1445) ∧ q { T with fmt := T.fmt.set 17 0x06 } 2 0 = some (7, 6) ∧ q { T with fmt := T.fmt.set 16 0x07 } 1 0 = some (7, 5) ∧
    ({ T with fmt := T.fmt.set 16 0x07 } : Tile).quantCheck false .a 0 0 127 1 0 = some (7, 7) ∧
    T.quantCheck true .a 0 0 127 63 0 = some (8, 63) ∧ T.quantCheck false .a 0 0 0 1 0 = some (8, 0) := by decide
/-- R300: spaces, an unused ring, 2^32 + 1 bytes, alignment, a destination in `c:`, a page at the end of the address space, and the formats. -/
theorem test_cpy_reasons : let s := demo (regs [(4, 64), (6, 0x200000000000000 - 32)])
    let r := s.linearRefused
    r (.mem .a 0 0) (.queue 1) 64 = some (.illegalTarget, s.reason 9 0) ∧ r (.ring 0) (.ring 1) 64 = some (.illegalTarget, s.reason 9 0) ∧
    r (.ring 3) (.mem .a 0 0) 64 = some (.illegalTarget, s.reason 15 3) ∧ r (.mem .a 0 0) (.mem .w 0 0) 0x100000001 = some (.illegalTarget, s.reason 11 0xFFFFFFFF) ∧
    r (.mem .a 0 0) (.mem .w 0 0) 62 = some (.align, 62) ∧ r (.queue 1) (.mem .w 0 0) 64 = some (.align, 64) ∧
    r (.mem .c 4 0) (.mem .w 0 0) 64 = some (.prot, 64) ∧ r (.mem .g 6 0) (.mem .a 0 0) 64 = some (.prot, 0x200000000000000) ∧
    r (.mem .a 0 0) (.mem .c 0 0) 64 = none := by decide
/-- R300, R301: a stream in the descriptor form, a descriptor that is not aligned and one past `a:`, a reserved byte, a destination in `c:`, and a pair bank. -/
theorem test_descriptor_reasons : let s (g : Tile → Tile) := demo (regs [(4, 64), (6, 0x200000000000000 - 32)]) fun T => g (descTile T)
    let r (g : Tile → Tile) (dst src : CEnd) (off : Word) : Option Refuse := match (s g).descParsed dst src off with | .error e => some e | .ok _ => none
    let x := (s id).reason
    r id (.ring 0) (.mem .c 0 0) 0 = some (.illegalTarget, x 9 0) ∧ r id (.mem .a 0 0) (.mem .c 0 0) 32 = some (.illegalTarget, x 10 32) ∧
    r id (.mem .a 0 0) (.mem .c 0 0) 262080 = some (.illegalTarget, x 10 262080) ∧
    r (fun T => { T with a := T.a.write 5 1 }) (.mem .a 0 0) (.mem .c 0 0) 0 = some (.illegalTarget, x 10 0) ∧
    r id (.mem .a 0 1) (.mem .c 0 0) 0 = none ∧ r id (.mem .c 4 0) (.mem .a 0 0) 0 = some (.prot, 64) ∧ r id (.mem .g 6 0) (.mem .a 0 0) 0 = some (.prot, 0x200000000000000) ∧
    r (fun T => { T with fmt := T.fmt.set 32 0x07 }) (.mem .a 0 0) (.mem .c 0 0) 0 = some (.illegalTarget, x 12 7) := by decide
/-- R247: a range that ends at 2^57, one a byte past it, and one that begins there; one past the extents, and one whose second page is not writable. -/
theorem test_global_ranges : let s := demo (regs []) fun T => { T with ext := [⟨0, 1, ⟨false, 0⟩, .v, true, true, false, .part, [], 0⟩, ⟨1, 1, ⟨false, 65536⟩, .v, true, false, false, .part, [], 0⟩, ⟨0x1FFFFFFFFFF, 1, ⟨false, 131072⟩, .v, true, true, false, .part, [], 0⟩] }
    let c := globalCheck s 0 0 .store
    c 0x1FFFFFFFFFFFFFF 1 = none ∧ c 0x1FFFFFFFFFFFFFF 2 = some (.prot, 0x200000000000000) ∧ c 0x200000000000000 1 = some (.prot, 0x200000000000000) ∧
    c 0x1FFFF 2 = some (.unstaged, 0x20000) ∧ c 0xFFFF 2 = some (.prot, 0x10000) ∧ c 0xFFFF 1 = none ∧ globalCheck s 0 0 .atomic 0x10 8 = some (.prot, 0x10) := by decide
/-- R40: two wire slots, the lowest that are free after the kept ones; a wire share that is asked for, and the default for 2 pods of 128. -/
theorem test_wire_shares : let c := { hostState [] (fun P => { P with wireSlots := [8, 10] }) with logical := List.range 128 }
    let e (n : Nat) := entryOf [(35, 2, 2), (37, 1, n), (38, 1, 5)]
    c.freeSlots 2 = [9, 11] ∧ ((c.shares (e 7)).1, (c.shares (e 7)).2.1) = (7, 5) ∧ (c.shares (e 0)).1 = 1 := by decide
/-- R55, R66: a RESTORE of a partition at rest waits for its write-behind. -/
theorem witness_restore_waits : let q := hostState [(0, 1, 0x44), (34, 1, 3)] fun P => { P with run := .held, drains := [7] }
    Comes q .quiesceRestore ∧ (q.part 0).atRest = true ∧ (q.part 0).drains ≠ [] ∧ quiesceBad q q.cmd (q.entry q.cmd) = false ∧
    ((after .quiesceRestore q).part 0).stops = [(.quiesce ⟨0, 0, 0⟩, 0)] ∧ ((after .quiesceRestore q).part 0).run = .held ∧
    (let d := { q.modPart 0 (fun P => { P with stops := [(.quiesce ⟨0, 0, 0⟩, 0)] }) with arg := { m := 1 } }
     (after .writeBehindDrainDone d).agenda.length = d.agenda.length ∧ ((after .writeBehindDrainDone d).part 0).stops.length = 1) := by unfold Comes; decide
/-- R58: an uncorrectable error of committed tile data ends the SHEET of a partition whose sheet is under way. -/
theorem witness_sheet_errors : let s := hostState [(0, 1, 0x44), (34, 1, 1)] fun P => { withPages P with run := .held, sheet := some ⟨0, 0, 0⟩ }
    (s.part 0).sheet = some ⟨0, 0, 0⟩ ∧ (s.part 0).stops = [] ∧ (s.part 1).sheet = none ∧ 0 < s.parts.length := by decide
/-- R80, R89: at the third wash nothing is sent before the wash becomes a halt, and then the release is. -/
theorem witness_third_wash_is_sent_as_a_halt : let s := votes 1 false fun P => { P with tiles := P.tiles.map (fun T => { T with voted := true }), washes := [(.slip, 5, 2)], remote := [{ msg 1 16 with cause := .slip, detail := 5 }], sysGroup := true, down := [7], kids := [7] }
    let t := after .barrierCombine s
    s.mayDecide 0 = true ∧ rootMsgs s 0 ≠ [] ∧ t.thirdWash 0 = true ∧ t.agenda.length = 0 ∧ (t.port 7).queue.length = 0 ∧
    (after .washLimitHalt { t with arg := {} }).agenda.map (fun d => (d.ev, d.arg.op)) = [(.releaseArrival, (t.part 0).flipAt)] ∧
    ((after .washLimitHalt { t with arg := {} }).port 7).queue.length = 1 := by decide
/-- R81: the decision of a package above stands, and acts no earlier than it can have reached every tile. -/
theorem witness_decision_from_above : let s := votes 0 false fun P => { P with up := some 5 }
    let t := s.takeBarrier 5 0 (msg 1 16)
    (s.part 0).valid = true ∧ (s.part 0).launch.isSome = true ∧ (s.part 0).decision = none ∧ (msg 1 16).isExch = false ∧ (s.part 0).up = some 5 ∧
    (t.part 0).decision = some (msg 1 16) ∧ t.agenda.map (·.ev) = [.releaseArrival] := by decide
/-- R66: a RESTORE of a held partition whose area holds no sheet. -/
theorem witness_restore : let q := hostState [(0, 1, 0x44), (34, 1, 3), (40, 8, 0x200000), (48, 8, 65536), (56, 4, 7)] fun P => { withPages P with run := .held }
    Comes q .quiesceRestore ∧ quiesceBad q q.cmd (q.entry q.cmd) = false ∧ quiesceRange q q.cmd (q.entry q.cmd) = 0 ∧ (q.part 0).quiesceWaits = false ∧
    (q.part 0).atRest = true ∧ (q.part 0).drains = [] := by unfold Comes; decide
theorem witness_no_sheet : validSheet [0, 0, 0, 0, 0, 0, 0, 0] 8 = false := by decide
/-- R109, R344: a page list in HBM whose channel is in training is not read, of a tile that builds and of a record that is to be dispatched. -/
theorem list_held_in_training (s : State) : (inTraining s).listHeld [pageL] 0x200000 1 = true := by
  have h : (inTraining s).chans.toList = List.replicate 256 Channel.zero := Vector.toList_replicate
  have h1 : pieces ((0x200000 : Addr).toNat / 16 * 16) (16 * min 1 128) = [(0x200000, 16)] := by decide
  have h2 : findPage [pageL] (0x200000 / 65536) = some pageL := by decide
  have h3 : (List.replicate 256 Channel.zero).any (·.train) = true := rfl
  have h4 : pageL.locOf 0x200000 = ⟨false, 0x40000⟩ := by decide
  simp only [State.listHeld, h, h1, h2, h3, h4, List.any_cons, List.any_nil, range_held_in_training, Bool.or_false, Bool.and_self]
theorem witness_list_held : let e := inTraining { (demo id (fun T => { T with building := true, build := 4, flpa := 0x200000, flpn := 1 }) fun P => { P with transBuild := [pageL] }) with arg := { n := 0, m := 4 } }
    ((e.part 0).tile 0).building = true ∧ ((e.part 0).tile 0).build = e.arg.m ∧ e.listHeld (e.part 0).transBuild ((e.part 0).tile 0).flpa ((e.part 0).tile 0).flpn = true :=
  ⟨by decide, by decide, list_held_in_training _⟩
theorem witness_seed_held : let img := entryOf [(24, 8, 0x200000), (32, 4, 1)] ++ List.replicate 448 0
    let s := inTraining (demo id id fun P => idleP { P with transBuild := [pageL], recs := [{ LRec.idle with image := img, snap := img, st := .eligible }] })
    (s.part 0).pickRecord = some 0 ∧ s.seedHeld 0 = true := by
  intro img s
  have h : (s.part 0).pickRecord = some 0 := by decide
  have h1 : BitVec.ofNat 57 (((s.part 0).rcd 0).fld 24 8) = 0x200000 := by decide
  have h2 : ((s.part 0).rcd 0).fld 32 4 = 1 := by decide
  have h3 : (s.part 0).transBuild = [pageL] := rfl
  refine ⟨h, ?_⟩
  simp only [State.seedHeld, h, h1, h2, h3]
  exact list_held_in_training _
/-- R148, R159: a release at the start time, of a tile whose threads executed `xsync`. -/
theorem witness_late : let s := (barrierState true).modPart 0 fun P => { P with exchS := some 100 }
    (s.part 0).exchS = some 100 ∧ (s.part 0).byTag = false ∧ ((s.part 0).tile 0).released = false ∧ (s.part 0).exchSkew = false ∧ (s.part 0).decision = none ∧
    (s.part 0).inSpan 0 = true ∧ 100 ≤ s.ptime.toNat ∧ (((s.part 0).tile 0).thread 0).xsynced = true ∧ (((s.part 0).tile 0).thread 0).mode = .task := by decide
/-- R158: an `xsel` whose slot has ended without a datum; a datum that no `xsel` names, on a tile that has raised its barrier. -/
theorem witness_slips : let o := opOf 0 (.xsel 8 0 512)
    let s := engState o id fun P => { P with exchS := some 29 }
    let d := { engState o (fun T => T) (fun P => { P with exchS := some 36, flight := [datum false], tiles := P.tiles.map fun T => { T with raisers := [0] } }) with arg := { op := 0 } }
    OpLive s o 0 0 ∧ 29 + 8 * 8 + 7 ≤ s.ptime.toNat ∧ ((s.part 0).tile 0).landed.find? (fun d => decide (d.slot = 8) && decide (d.port = 0) && !d.lost) = none ∧
    ((s.part 0).tile 0).voted = false ∧ (s.part 0).decision = none ∧ d.xselFor 0 1 8 0 = none ∧ ((d.part 0).tile 1).raisers.head? = some 0 ∧ (datum false).tile = 1 := by
  unfold OpLive; decide
/-- R165, R189: a contribution whose staging slot has spilled, sound and poisoned. -/
theorem witness_staging_poison : let s (l : List Nat) := { reduceState.modPart 0 (fun P => { P with tiles := P.tiles.modify 0 fun T => { T with granules := List.replicate 2048 (.buf .w 0) ++ [.reg 0 0] } }) with poison := l }
    let r := (regionOf reduceState (reduceState.part 0).transNow (reduceState.part 0).tiles.length 0)
    r.map (fun r => (((s []).part 0).contributors r, (s []).stagingPoison 0 0 r, (s [4]).stagingPoison 0 0 r)) = some (List.range 8, none, some ⟨false, 128⟩) := by decide
/-- R29, R50: a takeover, with an event ring of function 0. -/
theorem witness_leader_change : let f := { Fn.zero with evtBase := 0x30000, evtTail := 3, evtHead := 2 }
    let s0 := { hostState [] with arg := { n := 1 } }
    let s := { s0 with fns := f :: s0.fns.tail, leases := Vector.replicate 4 ⟨4, 0, 90⟩, ptime := 2000000, epoch := 4, ctrls := Vector.replicate 4 ((demoCtrl id).ctrl 0) }
    s.memWf ∧ (s.fn 0).evtAddr ≠ 0 ∧ ((s.fn 0).evtTail - (s.fn 0).evtHead).toNat ≠ 4096 ∧ s.mayTakeLease 1 = true := by unfold State.memWf Tile.wf; decide
/-- R106, R303: a slot of a ring filled from `g:` and from `a:`. -/
theorem test_ring_slot_bytes : let o (src : EndR) := opOf 0 (.copy 0 none 0 (.ring 1 6) src 128) .running
    let s (src : EndR) := { engState (o src) fun T => { T with a := [⟨65, 9⟩], rings := T.rings.set 1 ⟨2, 0, 3, 0, 3, 0⟩ } with hbm := [⟨130, 7⟩] }
    let t (src : EndR) := (after .engineSlotDelivered (s src)).tile 0 0
    OpLive (s (.glob 128)) (o (.glob 128)) 0 0 ∧ (s (.glob 128)).gPoison (.tile 0 0) 128 64 = none ∧ (s (.glob 128)).copyHeld (o (.glob 128)) = false ∧
    slotPlace (((s (.glob 128)).tile 0 0).ring 1) 3 = 192 ∧ (t (.glob 128)).readBuf .c 192 3 = [0, 0, 7] ∧ (t (.buf .a 64 6)).readBuf .c 192 3 = [0, 9, 0] := by unfold OpLive; decide
theorem test_ring_to_memory_and_queue : let o (dst : EndR) := opOf 0 (.copy 1 none 0 dst (.ring 1 6) 256) .running
    let s (dst : EndR) := engState (o dst) fun T => { T with rings := T.rings.set 1 ⟨2, 2, 3, 0, 1, 0⟩ }
    OpLive (s (.glob 128)) (o (.glob 128)) 0 0 ∧ (s (.glob 128)).copyHeld (o (.glob 128)) = false ∧ (((s (.glob 128)).tile 0 0).ring 1).filled = 1 ∧
    (((after .engineSlotDelivered (s (.glob 128))).tile 0 0).ring 1).cons = 1 ∧ (s (.queue 2)).copyHeld (o (.queue 2)) = false ∧
    (((after .engineSlotDelivered (s (.queue 2))).tile 0 0).queues[2]).length = 1 := by unfold OpLive; decide
theorem witness_resume_held : let s := inTraining { demo id with fns := [{ Fn.zero with bind := some ⟨0, .part, 1, 1, 0, 1, ⟨false, 64⟩, 64⟩ }] }
    resumeSaved s 0 0 = s ∧ s.resumeHeld s 0 = true := by
  intro s
  have h : ((s.part 0).launch.bind fun l => s.areaOf 0 l.fn).map (fun b => (b.save, b.saveSize)) = some (⟨false, 64⟩, 64) := by decide
  have h2 : s.chans.toList = List.replicate 256 Channel.zero := Vector.toList_replicate
  obtain ⟨b, hb, hb2⟩ := Option.map_eq_some_iff.1 h
  injection hb2 with h3 h4
  refine ⟨rfl, ?_⟩
  have h5 : (List.replicate 256 Channel.zero).any (·.train) = true := rfl
  simp only [State.resumeHeld, h2, h5, hb, h3, Option.map_some, Option.getD_some, Bool.true_and, Bool.or_eq_true]
  exact Or.inl (range_held_in_training _ _ _)

end Sys2Proof.Tests
end

section
/-!
SUPPORT. What the parts of the package read as after an update of one of them: partitions, channels, ports and controllers; and the machine at reset.
-/

namespace Sys2Proof.Machine

/-! ### One part of a table of the state changed -/

theorem State.part_modPart (s : State) (p : Nat) (f : Partition → Partition) (h : p < s.parts.length) : (s.modPart p f).part p = f (s.part p) :=
  getD_modify _ _ _ _ h

theorem State.part_modPart_ne (s : State) {p q : Nat} (f : Partition → Partition) (h : q ≠ p) : (s.modPart p f).part q = s.part q :=
  getD_modify_ne _ _ _ _ _ h

/-- A number past the table names the partition that does not exist (R38). -/
theorem State.part_of_le (s : State) {p : Nat} (h : s.parts.length ≤ p) : s.part p = Partition.absent := by
  simp [State.part, List.getD_eq_getElem?_getD, h]

@[simp] theorem State.length_parts_modPart (s : State) (p : Nat) (f : Partition → Partition) : (s.modPart p f).parts.length = s.parts.length := by
  simp [State.modPart]

/-- What an update of partitions does not change reads as before in every partition. -/
theorem State.modPart_keeps {β : Type} (g : Partition → β) (f : Partition → Partition) (h : ∀ P, g (f P) = g P) (s : State) (p q : Nat) :
    g ((s.modPart p f).part q) = g (s.part q) := by
  by_cases e : q = p
  · subst e
    by_cases hq : q < s.parts.length
    · rw [s.part_modPart q f hq, h]
    · rw [State.part_of_le _ (by simpa using hq), State.part_of_le _ (Nat.le_of_not_lt hq)]
  · rw [s.part_modPart_ne f e]

/-- What a vector's list of elements holds at an index, after one of them is set. -/
theorem vector_getD_set {α : Type} {n : Nat} (v : Vector α n) (i j : Nat) (x d : α) (h : i < n) :
    (v.set i x h).toList.getD j d = if j = i then x else v.toList.getD j d := by
  simp only [Vector.toList_set, List.getD_eq_getElem?_getD, List.getElem?_set, Vector.length_toList, h, if_true]
  by_cases e : i = j
  · simp [e]
  · simp [e, Ne.symm e]

theorem vector_getD {α : Type} {n : Nat} (v : Vector α n) (i : Nat) (d : α) (h : i < n) : v.toList.getD i d = v[i] := by
  simp [List.getD_eq_getElem?_getD, h]

theorem State.chan_eq (s : State) {ch : Nat} (h : ch < 256) : s.chan ch = s.chans[ch] := vector_getD _ _ _ h

theorem State.chan_modChan (s : State) {ch : Nat} (f : Channel → Channel) (h : ch < 256) : (s.modChan ch f).chan ch = f (s.chan ch) := by
  unfold State.modChan
  rw [dif_pos h, s.chan_eq h]
  exact (vector_getD_set _ _ _ _ _ h).trans (if_pos rfl)

theorem State.chan_modChan_ne (s : State) {ch c : Nat} (f : Channel → Channel) (h : c ≠ ch) : (s.modChan ch f).chan c = s.chan c := by
  unfold State.modChan
  split
  · next hch => exact (vector_getD_set _ _ _ _ _ hch).trans (if_neg h)
  · rfl

/-- An update of a channel changes the channels alone. -/
theorem State.modChan_frame (s : State) (ch : Nat) (f : Channel → Channel) : s.modChan ch f = { s with chans := (s.modChan ch f).chans } := by
  unfold State.modChan; split <;> rfl

@[simp] theorem State.modChan_agenda (s : State) (ch : Nat) (f : Channel → Channel) : (s.modChan ch f).agenda = s.agenda := by rw [modChan_frame]
@[simp] theorem State.modChan_cycle (s : State) (ch : Nat) (f : Channel → Channel) : (s.modChan ch f).cycle = s.cycle := by rw [modChan_frame]

@[simp] theorem State.schedule_chan (s : State) (dt : Nat) (ev : Instr) (arg : Arg) (ch : Nat) : (s.schedule dt ev arg).chan ch = s.chan ch := rfl

theorem State.agenda_schedule (s : State) (dt : Nat) (ev : Instr) (arg : Arg) : (s.schedule dt ev arg).agenda = s.agenda ++ [⟨s.cycle + dt, ev, arg⟩] := rfl

theorem State.port_eq (s : State) {k : Nat} (h : k < 40) : s.port k = s.ports[k] := vector_getD _ _ _ h

theorem State.port_modPort (s : State) {k : Nat} (f : Port → Port) (h : k < 40) : (s.modPort k f).port k = f (s.port k) := by
  unfold State.modPort
  rw [dif_pos h, s.port_eq h]
  exact (vector_getD_set _ _ _ _ _ h).trans (if_pos rfl)

theorem State.port_modPort_ne (s : State) {k j : Nat} (f : Port → Port) (h : j ≠ k) : (s.modPort k f).port j = s.port j := by
  unfold State.modPort
  split
  · next hk => exact (vector_getD_set _ _ _ _ _ hk).trans (if_neg h)
  · rfl

theorem State.modPort_congr (s : State) {k : Nat} (f g : Port → Port) (h : f (s.port k) = g (s.port k)) : s.modPort k f = s.modPort k g := by
  unfold State.modPort
  split
  · next hk => rw [← s.port_eq hk, h]
  · rfl

/-- An update of a port changes the ports alone. -/
theorem State.modPort_frame (s : State) (k : Nat) (f : Port → Port) : s.modPort k f = { s with ports := (s.modPort k f).ports } := by
  unfold State.modPort; split <;> rfl

@[simp] theorem State.modPort_agenda (s : State) (k : Nat) (f : Port → Port) : (s.modPort k f).agenda = s.agenda := by rw [modPort_frame]
@[simp] theorem State.modPort_cycle (s : State) (k : Nat) (f : Port → Port) : (s.modPort k f).cycle = s.cycle := by rw [modPort_frame]
@[simp] theorem State.modPort_ptime (s : State) (k : Nat) (f : Port → Port) : (s.modPort k f).ptime = s.ptime := by rw [modPort_frame]
@[simp] theorem State.modPort_parts (s : State) (k : Nat) (f : Port → Port) : (s.modPort k f).parts = s.parts := by rw [modPort_frame]

theorem State.ctrl_eq (s : State) {d : Nat} (h : d < 4) : s.ctrl d = s.ctrls[d] := vector_getD _ _ _ h

/-- An update of a controller changes the controllers alone. -/
theorem State.modCtrl_frame (s : State) (d : Nat) (f : Ctrl → Ctrl) : s.modCtrl d f = { s with ctrls := (s.modCtrl d f).ctrls } := by
  unfold State.modCtrl; split <;> rfl

/-! ### The machine at reset -/

/-- No partition of the machine at reset is valid, whatever its number (R38). -/
theorem reset_part (k : Nat) : State.reset.part k = Partition.absent := by
  show (List.replicate 64 Partition.absent).getD k Partition.absent = _
  rw [List.getD_eq_getElem?_getD, List.getElem?_replicate]
  split <;> rfl

/-- Memories that nothing has written are canonical (log entry 3). -/
theorem reset_memWf : State.reset.memWf := by
  refine ⟨Memory.wf_nil, Memory.wf_nil, Memory.wf_nil, Memory.wf_nil, fun P hP T hT => ?_, fun c hc => ?_⟩
  · rw [show P = Partition.absent from List.eq_of_mem_replicate (n := 64) hP] at hT
    cases hT
  · rw [show c = Ctrl.zero from (Vector.mem_replicate (n := 4)).1 (Vector.mem_toList_iff.1 hc) |>.2]
    exact Memory.wf_nil

end Sys2Proof.Machine

namespace Sys2Proof.Proofs

open Sys2Proof Sys2Proof.Machine Sys2Proof.Claims

/-- Settles O59: each value is the one that State.reset holds. -/
theorem resetMeetsTheInvariants : Obligations.ResetMeetsTheInvariants := by
  have hchan (p : Fin 256) : State.reset.chans[p] = Channel.zero := Vector.getElem_replicate p.isLt
  refine ⟨reset_memWf, fun o ho => ?_, rfl, rfl, rfl, rfl, fun k => ?_, fun p => ⟨?_, ?_, fun k => ⟨?_, ?_⟩⟩, rfl, rfl⟩
  · cases ho
  · rw [reset_part]; rfl
  · exact Vector.getElem_replicate p.isLt
  · rw [hchan]; rfl
  · rw [hchan]; exact Vector.getElem_replicate k.isLt
  · rw [hchan]; exact Vector.getElem_replicate k.isLt

end Sys2Proof.Proofs
end

section
/-!
SUPPORT. Folds over states, and what writes to memory, fault records and regenerated routes leave as it was.
-/

namespace Sys2Proof.Machine

/-! ### Folds -/

/-- What each step of a fold keeps, the fold keeps. -/
theorem foldl_keeps {σ α β : Type} (g : σ → β) (f : σ → α → σ) (h : ∀ s x, g (f s x) = g s) (l : List α) (s : σ) : g (l.foldl f s) = g s := by
  induction l generalizing s with
  | nil => rfl
  | cons x xs ih => exact (ih _).trans (h s x)

/-- A relation that holds from each state to the next holds from the first to the last. -/
theorem foldl_related {σ α : Type} (R : σ → σ → Prop) (hr : ∀ s, R s s) (ht : ∀ s t u, R s t → R t u → R s u) (f : σ → α → σ)
    (h : ∀ s x, R s (f s x)) (l : List α) (s : σ) : R s (l.foldl f s) := by
  induction l generalizing s with
  | nil => exact hr s
  | cons x xs ih => exact ht _ _ _ (h s x) (ih _)

theorem le_foldl_of_le {α : Type} (f : Nat → α → Nat) (hf : ∀ m x, m ≤ f m x) (l : List α) (m : Nat) : m ≤ l.foldl f m := by
  induction l generalizing m with
  | nil => exact le_rfl
  | cons x xs ih => exact (hf m x).trans (ih _)

/-! ### Steps that change memory, partitions and waiting controllers alone -/

/-- The machine without what a write to memory or a fault record may change: HBM, host memory, their tags and poison, the partitions and
the controllers. -/
def State.core (s : State) : State :=
  { s with tags := [], host := [], hbm := [], poison := [], parts := [], ctrls := Vector.replicate 4 Ctrl.zero }

@[simp] theorem State.core_physWrite (s : State) (l : Loc) (bs : List Byte) : (s.physWrite l bs).core = s.core := by
  unfold State.physWrite
  simp only
  split
  · rfl
  · split <;> rfl

@[simp] theorem State.core_modPart (s : State) (p : Nat) (f : Partition → Partition) : (s.modPart p f).core = s.core := rfl

@[simp] theorem State.core_wakeCtrls (s : State) : s.wakeCtrls.core = s.core := rfl

@[simp] theorem State.core_vwrite (s : State) (tr : List PageT) (va : Nat) (bs : List Byte) : (s.vwrite tr va bs).core = s.core := by
  refine foldl_keeps State.core _ (fun s x => ?_) _ _
  split
  · exact s.core_physWrite _ _
  · rfl

@[simp] theorem State.core_outsideWrite (s : State) (ex : Option Nat) (l : Loc) (bs : List Byte) : (s.outsideWrite ex l bs).core = s.core :=
  State.core_physWrite _ _ _

@[simp] theorem State.core_outsideVwrite (s : State) (ex : Option Nat) (tr : List PageT) (va : Nat) (bs : List Byte) :
    (s.outsideVwrite ex tr va bs).core = s.core := by
  refine foldl_keeps State.core _ (fun s x => ?_) _ _
  split
  · exact s.core_outsideWrite _ _ _
  · rfl

@[simp] theorem core_recordFault (s : State) (p : Nat) (lt th : Option Nat) (src : Nat) (cause : Cause) (detail tepc : Word) (u : IssueUnit) (phys : Nat) :
    (recordFault s p lt th src cause detail tepc u phys).1.core = s.core := by
  unfold recordFault
  simp only
  split <;> simp

@[simp] theorem State.parts_physWrite (s : State) (l : Loc) (bs : List Byte) : (s.physWrite l bs).parts = s.parts := by
  unfold State.physWrite
  simp only
  split
  · rfl
  · split <;> rfl

@[simp] theorem State.parts_vwrite (s : State) (tr : List PageT) (va : Nat) (bs : List Byte) : (s.vwrite tr va bs).parts = s.parts := by
  refine foldl_keeps State.parts _ (fun s x => ?_) _ _
  split
  · exact s.parts_physWrite _ _
  · rfl

@[simp] theorem State.parts_wakeCtrls (s : State) : s.wakeCtrls.parts = s.parts := rfl

@[simp] theorem parts_recordFault (s : State) (p : Nat) (lt th : Option Nat) (src : Nat) (cause : Cause) (detail tepc : Word) (u : IssueUnit) (phys : Nat) :
    (recordFault s p lt th src cause detail tepc u phys).1.parts = s.parts := by
  unfold recordFault
  simp only
  split <;> simp

/-- A partition's event changes of the partitions its own alone. -/
theorem parts_partEvent (s : State) (p : Nat) (cause : Cause) (vote : BitVec 2) (detail : Word) : (partEvent s p cause vote detail).parts =
    s.parts.modify p fun P => if vote = 0 then P else { P with events := P.events ++ [⟨8, vote, cause, detail⟩] } := by
  unfold partEvent
  by_cases h : cause = .boundWash
  · simp only [if_pos h, State.modPart]
  · simp only [if_neg h, State.modPart, parts_recordFault]

@[simp] theorem core_partEvent (s : State) (p : Nat) (cause : Cause) (vote : BitVec 2) (detail : Word) : (partEvent s p cause vote detail).core = s.core := by
  unfold partEvent
  rw [State.core_modPart]
  by_cases h : cause = .boundWash
  · rw [if_pos h]
  · rw [if_neg h, core_recordFault]

@[simp] theorem State.core_linkLost (s : State) (p k : Nat) : (s.linkLost p k).core = s.core := by
  unfold State.linkLost
  split <;> simp

@[simp] theorem State.core_regenerateNow (s : State) (ex : Option Nat) (p : Nat) : (s.regenerateNow ex p).core = s.core := by
  have h (l : List (Nat × Word)) : (l.foldl (fun s x => s.outsideVwrite ex (s.part p).trans x.1 (leBytes 8 x.2.toNat)) s).core = s.core :=
    foldl_keeps State.core _ (fun s x => s.core_outsideVwrite _ _ _ _) _ _
  unfold State.regenerateNow
  dsimp only
  split <;> rw [State.core_modPart, h]

@[simp] theorem State.core_regenerateAll (s : State) : s.regenerateAll.core = s.core := by
  refine foldl_keeps State.core _ (fun s p => ?_) _ _
  split
  · rfl
  · split <;> simp

section
variable {s t : State} (h : t.core = s.core)
include h

theorem State.ports_of_core : t.ports = s.ports := by simpa [State.core] using congrArg State.ports h
theorem State.retired_of_core : t.retired = s.retired := by simpa [State.core] using congrArg State.retired h
theorem State.power_of_core : t.power = s.power := by simpa [State.core] using congrArg State.power h
theorem State.logical_of_core : t.logical = s.logical := by simpa [State.core] using congrArg State.logical h
theorem State.cycle_of_core : t.cycle = s.cycle := by simpa [State.core] using congrArg State.cycle h
theorem State.port_of_core (k : Nat) : t.port k = s.port k := by rw [State.port, ports_of_core h, State.port]

end

end Sys2Proof.Machine
end

section
/-!
PROOF of O45: HBM channels, their delays, and the monitors (spec/22 R344 to R348; spec/01 R20).
-/

namespace Sys2Proof.Machine

/-! ### Channels -/

/-- The last answer that is due does not lie in the past (R344). -/
theorem State.cycle_le_lastAnswer (s : State) : s.cycle ≤ s.lastAnswer := by
  refine le_foldl_of_le _ (fun m d => ?_) _ _
  split
  all_goals simp

theorem sum_two_pow_lt (f : Nat → Bool) (n : Nat) : ((List.range n).map fun i => if f i then 2 ^ i else 0).sum < 2 ^ n := by
  induction n with
  | zero => simp
  | succ n ih =>
    rw [List.range_succ, List.map_append, List.sum_append, pow_succ]
    simp only [List.map_singleton, List.sum_singleton]
    split <;> omega

/-- The bits of a word that is put together from one power of two for each bit that is set. -/
theorem testBit_sum_two_pow (f : Nat → Bool) {n l : Nat} (hl : l < n) :
    ((List.range n).map fun i => if f i then 2 ^ i else 0).sum.testBit l = f l := by
  induction n with
  | zero => omega
  | succ n ih =>
    have hlt := sum_two_pow_lt f n
    rw [List.range_succ, List.map_append, List.sum_append]
    simp only [List.map_singleton, List.sum_singleton]
    rcases Nat.lt_succ_iff_lt_or_eq.1 hl with h | rfl
    · split
      · rw [Nat.add_comm, Nat.testBit_two_pow_add_gt h, ih h]
      · rw [Nat.add_zero, ih h]
    · have hz := Nat.testBit_lt_two_pow hlt
      split
      · next hf => rw [Nat.add_comm, Nat.testBit_two_pow_add_eq, hz, hf]; rfl
      · next hf => simpa [hz] using hf

theorem getLsbD_sum_two_pow (f : Nat → Bool) {n l : Nat} (hl : l < n) :
    (BitVec.ofNat n ((List.range n).map fun i => if f i then 2 ^ i else 0).sum).getLsbD l = f l := by
  rw [BitVec.getLsbD_ofNat, testBit_sum_two_pow f hl]
  simp [hl]

/-- A pattern test that ends reports each lane and changes no other channel (R345). -/
theorem chans_patternDone (s : State) (ch : Nat) (h : (s.chan ch).busy = true) :
    (patternDone s ch).chans = (s.modChan ch fun c => { c with
      busy := false
      pass0 := BitVec.ofNat 64 ((List.range 64).map fun l => if (s.chan ch).laneOk ch s.fresh ((s.chan ch).carrier l) then 2 ^ l else 0).sum
      pass1 := BitVec.ofNat 2 ((List.range 2).map fun k => if (s.chan ch).laneOk ch s.fresh (64 + k) then 2 ^ k else 0).sum }).chans := by
  unfold patternDone
  simp only [h, Bool.not_true, Bool.false_eq_true, if_false]
  rw [foldl_keeps State.chans]
  intro u d
  split
  · split
    · rw [State.schedule_chans, State.modCtrl_frame]
    · rfl
  · rfl

theorem State.chan_congr {s t : State} (h : t.chans = s.chans) (ch : Nat) : t.chan ch = s.chan ch := by
  unfold State.chan; rw [h]

/-! ### Monitors -/

theorem State.monitor_modMon (s : State) {p i : Nat} (f : Monitor → Monitor) (hp : p < s.parts.length) (hi : i < 8) :
    ((s.modMon p i f).part p).monitors.toList.getD i Monitor.zero = f ((s.part p).monitors.toList.getD i Monitor.zero) := by
  unfold State.modMon
  rw [s.part_modPart _ _ hp, dif_pos hi, vector_getD_set _ _ _ _ _ hi, if_pos rfl, vector_getD _ _ _ hi]

theorem monitor_sample (m : Monitor) {v : Nat} (hv : v < 2 ^ 32) :
    (m.sample v).min.toNat = min m.min.toNat v ∧ (m.sample v).max.toNat = max m.max.toNat v ∧
    ∀ j : Fin 16, (m.sample v).bins[j] = if j.val = min (m.bin v) 15 ∧ m.bins[j] ≠ 0xFFFFFFFF then m.bins[j] + 1 else m.bins[j] := by
  have hm : Nat.min v 0xFFFFFFFF = v := Nat.min_eq_left (by omega)
  have hmin := m.min.isLt
  have hmax := m.max.isLt
  unfold Monitor.sample
  simp only [hm, BitVec.toNat_ofNat]
  refine ⟨Nat.mod_eq_of_lt ((Nat.min_le_left _ _).trans_lt hmin), Nat.mod_eq_of_lt (max_lt hmax hv), fun j => ?_⟩
  simp only [Fin.getElem_fin, Vector.getElem_ofFn]
  by_cases hj : j.val = Nat.min (m.bin v) 15 <;> by_cases hb : m.bins[j.val] = 0xFFFFFFFF <;> simp [hj, hb]

/-- The bin of a sample as R20 gives it: by the position of the highest bit that is set, with the last bin for all that lie above. -/
theorem monitor_bin_eq (m : Monitor) (v : Nat) :
    min (m.bin v) 15 = if v < 2 ^ (m.shift.toNat + 1) then 0 else min 15 (Nat.log2 v - m.shift.toNat) := by
  unfold Monitor.bin
  by_cases h1 : v < 2 ^ (m.shift.toNat + 1)
  · simp [h1]
  · simp only [h1, if_false]
    split
    · next h2 =>
      have hv : v ≠ 0 := by have := Nat.two_pow_pos (m.shift.toNat + 15); omega
      have := (Nat.le_log2 hv).2 h2
      omega
    · omega

/-- A state that differs from another in monitors alone. -/
def State.MonitorsOnly (s t : State) : Prop :=
  ∃ ps, t = { s with parts := ps } ∧ ∀ p, ∃ m, t.part p = { s.part p with monitors := m }

/-- The pods of a partition do not depend on its monitors. -/
theorem State.podsOf_monitors (s : State) (ps : List Partition) (p : Nat) (m : Vector Monitor 8)
    (h : State.part { s with parts := ps } p = { s.part p with monitors := m }) : State.podsOf { s with parts := ps } p = s.podsOf p := by
  simp only [State.podsOf, h]
  exact List.map_congr_left fun q _ => by simp only [State.physPod, h]

/-- Which ports the routes of a partition use does not depend on its monitors (R20, R155, R157). -/
theorem State.routesUse_monitors (s : State) (ps : List Partition) (p k : Nat) (m : Vector Monitor 8)
    (h : State.part { s with parts := ps } p = { s.part p with monitors := m }) :
    State.routesUse { s with parts := ps } p k = s.routesUse p k := by
  have hpod (q : Nat) : State.physPod { s with parts := ps } p q = s.physPod p q := by simp only [State.physPod, h]
  have hpods := s.podsOf_monitors ps p m h
  have hwalk (t : Nat) (w : Word) : State.walkFrom { s with parts := ps } p t w = s.walkFrom p t w := by
    have hok : State.routerOk { s with parts := ps } p = s.routerOk p := by
      funext r; simp only [State.routerOk, hpods]
    simp only [State.walkFrom, State.walk, h, hpods, hpod, hok]; rfl
  have hroute (t : Nat) (w : Word) : State.route { s with parts := ps } p t w = s.route p t w := by
    simp only [State.route, hwalk, State.tileAt, hpods]
  have hrelocs : State.relocs { s with parts := ps } p = s.relocs p := by
    simp only [State.relocs, h]; rfl
  have hport : State.routePort { s with parts := ps } p k = s.routePort p k := by
    simp only [State.routePort, h]
  simp only [State.routesUse, h, hport, hrelocs, hroute]
  rfl

/-- What a periodic sample of source n offers to the monitors of a partition (R20). -/
def State.periodicSamples (s : State) (n p : Nat) : List Nat :=
  if n = 6 then ((List.range 40).filter fun k => s.routesUse p k).map fun k => (s.port k).width
  else ((List.range 4).filter fun d => s.onDie p d).map fun d => s.power.temps.toList.getD d 0

theorem State.periodicSamples_monitors {s t : State} (h : s.MonitorsOnly t) (n p : Nat) : t.periodicSamples n p = s.periodicSamples n p := by
  obtain ⟨ps, rfl, hp⟩ := h
  obtain ⟨m, hm⟩ := hp p
  have hd (d : Nat) : State.onDie { s with parts := ps } p d = s.onDie p d := by
    simp only [State.onDie, s.podsOf_monitors ps p m hm, hm]
  simp only [State.periodicSamples, s.routesUse_monitors ps p _ m hm, hd]
  rfl

/-- A partition after samples of a source were offered to its monitors. -/
def Partition.sampleAll (n : Nat) (xs : List Nat) (P : Partition) : Partition := xs.foldl (fun P v => P.sample n v) P

theorem Partition.sampleAll_frame (n : Nat) (xs : List Nat) (P : Partition) : ∃ m, P.sampleAll n xs = { P with monitors := m } := by
  induction xs generalizing P with
  | nil => exact ⟨P.monitors, rfl⟩
  | cons x xs ih =>
    obtain ⟨m, hm⟩ := ih (P.sample n x)
    exact ⟨m, hm⟩

/-- One partition's periodic sample. -/
def State.sampleOne (n : Nat) (s : State) (p : Nat) : State := s.modPart p (Partition.sampleAll n (s.periodicSamples n p))

theorem State.sampleOne_monitorsOnly {s t : State} (h : s.MonitorsOnly t) (n p : Nat) : s.MonitorsOnly (State.sampleOne n t p) := by
  obtain ⟨ps, ht, hm⟩ := h
  refine ⟨ps.modify p (Partition.sampleAll n (t.periodicSamples n p)), by subst ht; rfl, fun q => ?_⟩
  obtain ⟨m, hq⟩ := hm q
  by_cases e : q = p
  · subst e
    by_cases hl : q < t.parts.length
    · obtain ⟨m', hs⟩ := (t.part q).sampleAll_frame n (t.periodicSamples n q)
      exact ⟨m', by rw [State.sampleOne, t.part_modPart _ _ hl, hs, hq]⟩
    · have hb : (State.sampleOne n t q).part q = t.part q := by
        rw [State.part_of_le _ (Nat.le_of_not_lt hl)]
        exact State.part_of_le _ (by simpa [State.sampleOne] using hl)
      exact ⟨m, hb.trans hq⟩
  · exact ⟨m, (t.part_modPart_ne _ e).trans hq⟩

/-- The partitions after the periodic samples of a list of them that names each once: each has what its own state offers. -/
theorem State.part_foldl_sampleOne (n : Nat) {s : State} (l : List Nat) (hl : l.Nodup) :
    ∀ t : State, s.MonitorsOnly t → t.parts.length = s.parts.length → (∀ p ∈ l, t.part p = s.part p) →
      ∀ p, (l.foldl (State.sampleOne n) t).part p =
        if p ∈ l ∧ p < s.parts.length then (s.part p).sampleAll n (s.periodicSamples n p) else t.part p := by
  induction l with
  | nil => intro t _ _ _ p; simp
  | cons x xs ih =>
    intro t ht hlen hk p
    obtain ⟨hx, hxs⟩ := List.nodup_cons.1 hl
    have hstep (q : Nat) (hq : q ≠ x) : (State.sampleOne n t x).part q = t.part q := t.part_modPart_ne _ hq
    rw [List.foldl_cons, ih hxs _ (State.sampleOne_monitorsOnly ht n x) (by simp [State.sampleOne, hlen])
      (fun q hq => (hstep q fun e => hx (e ▸ hq)).trans (hk q (List.mem_cons_of_mem _ hq)))]
    by_cases hp : p = x
    · subst hp
      by_cases hb : p < s.parts.length
      · simp only [hx, false_and, if_false, List.mem_cons, true_or, hb, and_self, if_true]
        rw [State.sampleOne, t.part_modPart _ _ (hlen ▸ hb), State.periodicSamples_monitors ht, hk p List.mem_cons_self]
      · simp only [hb, and_false, if_false]
        rw [State.part_of_le _ (by simpa [State.sampleOne, hlen] using hb), State.part_of_le _ (by simpa [hlen] using hb)]
    · simp only [List.mem_cons, hp, false_or, hstep p hp]

/-- The fields that a periodic sample's end reads of what the samples left. -/
theorem State.foldl_sampleOne_frame (n : Nat) (l : List Nat) (s : State) :
    (l.foldl (State.sampleOne n) s).agenda = s.agenda ∧ (l.foldl (State.sampleOne n) s).cycle = s.cycle :=
  ⟨foldl_keeps State.agenda (State.sampleOne n) (fun _ _ => rfl) l s, foldl_keeps State.cycle (State.sampleOne n) (fun _ _ => rfl) l s⟩

theorem State.foldl_sampleOne_arg (l : List Nat) (s : State) :
    l.foldl (fun s p => State.sampleOne s.arg.n s p) s = l.foldl (State.sampleOne s.arg.n) s := by
  have h : ∀ t : State, t.arg = s.arg → l.foldl (fun s p => State.sampleOne s.arg.n s p) t = l.foldl (State.sampleOne s.arg.n) t := by
    induction l with
    | nil => exact fun _ _ => rfl
    | cons x xs ih => intro t ht; rw [List.foldl_cons, List.foldl_cons, ht]; exact ih _ ht
  exact h s rfl

/-- MONITOR_PERIODIC_SAMPLE for a source that is sampled periodically (R20). -/
theorem exec_monitorPeriodicSample (s : State) {n : Nat} (hn : n = 6 ∨ n = 7) (hs : s.arg.n = n) : exec .monitorPeriodicSample s =
    .next ((((List.range s.parts.length).filter fun p => (s.part p).valid).foldl (State.sampleOne n) s).schedule
      (if n = 6 then 1800 else 1800000) .monitorPeriodicSample { n := n }) := by
  have h := State.foldl_sampleOne_arg ((List.range s.parts.length).filter fun p => (s.part p).valid) s
  have hx : exec .monitorPeriodicSample s = .next (
      let s1 := ((List.range s.parts.length).filter fun p => (s.part p).valid).foldl (fun s p => State.sampleOne s.arg.n s p) s
      if s.arg.n = 6 then s1.schedule 1800 .monitorPeriodicSample { n := 6 }
      else if s.arg.n = 7 then s1.schedule Config.msCycles .monitorPeriodicSample { n := 7 } else s) := rfl
  rw [hx, h, hs]
  rcases hn with rfl | rfl <;> rfl

end Sys2Proof.Machine

namespace Sys2Proof.Proofs

open Sys2Proof Sys2Proof.Machine Sys2Proof.Claims

theorem otherChans_modChan (s : State) (ch : Nat) (f : Channel → Channel) : OtherChans s (s.modChan ch f) ch :=
  fun _ h => s.chan_modChan_ne f h

theorem channelTraining : ChannelTraining := by
  intro s ch c x hch
  have hmod (f : Channel → Channel) : (s.modChan ch f).chan ch = f c := s.chan_modChan f hch
  have hoth (f : Channel → Channel) : OtherChans s (s.modChan ch f) ch := otherChans_modChan s ch f
  refine ⟨fun hb hx => ?_, fun hb hx ht => ?_, fun hb => ?_, fun h => ?_, fun ha hat => ?_, fun hb ht ha => ?_, fun hb ht ha => ?_, fun h => ?_, fun hb => ?_⟩
  · refine ⟨s.modChan ch fun c => { c with train := false, trainAsked := false }, ?_, hmod _, hoth _⟩
    show Host.Outcome.next (trainWrite s ch x) = _
    simp only [trainWrite, show (s.chan ch).busy = false from hb, hx, Bool.false_eq_true, if_false]
  · have hlast := s.cycle_le_lastAnswer
    have htrain : trainWrite s ch x = (s.modChan ch fun c => { c with train := true, trainAsked := true, trainAt := s.lastAnswer + 1 }).schedule
        (s.lastAnswer + 1 - s.cycle) .trainEffective { n := ch } := by
      simp [trainWrite, show (s.chan ch).busy = false from hb, show (s.chan ch).train = false from ht, hx]
    refine ⟨_, congrArg Host.Outcome.next htrain, ?_, hoth _, ?_, _, List.mem_append_right _ (List.mem_singleton.2 rfl), rfl, rfl, ?_⟩
    · simp only [State.schedule_chan, hmod]
    · simp only [State.schedule_chan, hmod]; omega
    · simp only [State.schedule_chan, hmod, State.modChan_cycle]; omega
  · refine ⟨s.modChan ch Channel.drop, ?_, hmod _, hoth _, s.modChan_agenda _ _⟩
    show Host.Outcome.next (trainWrite s ch x) = _
    simp [trainWrite, show (s.chan ch).busy = true from hb]
  · show Host.Outcome.next (trainEffective s ch) = _
    unfold trainEffective
    rw [if_pos]
    simpa [c] using h
  · have hn : ¬((!c.trainAsked) = true ∨ s.cycle < c.trainAt) := by simp [ha]; omega
    refine ⟨trainEffective s ch, rfl, ?_⟩
    unfold trainEffective
    simp only [show s.chan ch = c from rfl, if_neg hn]
    by_cases hg : c.goAsked = true
    · simp [hg, hmod, State.agenda_schedule]
    · simp [hg, hmod]
  · refine ⟨(s.modChan ch fun c => { c with busy := true }).schedule 3600 .patternTestDone { n := ch }, ?_, hmod _, by simp [State.agenda_schedule]⟩
    show Host.Outcome.next (patternStart s ch) = _
    simp [patternStart, show s.chan ch = c from rfl, hb, ht, ha]
  · refine ⟨s.modChan ch fun c => { c with busy := true, goAsked := true }, ?_, hmod _, s.modChan_agenda _ _⟩
    show Host.Outcome.next (patternStart s ch) = _
    simp [patternStart, show s.chan ch = c from rfl, hb, ht, ha]
  · refine ⟨s.modChan ch Channel.drop, ?_, hmod _, s.modChan_agenda _ _⟩
    show Host.Outcome.next (patternStart s ch) = _
    unfold patternStart
    simp only [show s.chan ch = c from rfl]
    rw [if_pos (by simpa using h)]
  · have hd := chans_patternDone s ch hb
    refine ⟨patternDone s ch, rfl, ?_⟩
    rw [State.chan_congr hd, hmod]
    exact ⟨rfl, rfl, rfl, fun l hl => getLsbD_sum_two_pow (fun l => c.laneOk ch s.fresh (c.carrier l)) hl,
      fun k hk => getLsbD_sum_two_pow (fun k => c.laneOk ch s.fresh (64 + k)) hk, fun e he => (State.chan_congr hd e).trans (hoth _ e he)⟩

theorem channelDelays : ChannelDelays := by
  intro s ch c hch
  have hmod (f : Channel → Channel) : (s.modChan ch f).chan ch = f c := s.chan_modChan f hch
  refine ⟨fun hb ht => ?_, fun h i hi => ?_⟩
  · have hset (f : Channel → Channel) : c.setDelay f = f c := by simp [Channel.setDelay, hb, ht]
    refine ⟨⟨_, rfl, ?_, ?_, otherChans_modChan _ _ _⟩, _, rfl, ?_, ?_, otherChans_modChan _ _ _⟩
    · intro l; rw [hmod, Channel.rdAll, hset]; exact (Vector.getElem_replicate l.isLt).trans (BitVec.setWidth_setWidth_of_le _ (by decide))
    · rw [hmod, Channel.rdAll, hset]
    · intro l; rw [hmod, Channel.wrAll, hset]; exact (Vector.getElem_replicate l.isLt).trans (BitVec.setWidth_setWidth_of_le _ (by decide))
    · rw [hmod, Channel.wrAll, hset]
  · have hdrop (f : Channel → Channel) : c.setDelay f = c.drop := by
      unfold Channel.setDelay
      rw [if_pos (by simpa using h)]
    rcases hi with rfl | rfl
    · exact ⟨_, rfl, (hmod _).trans (hdrop _), otherChans_modChan _ _ _⟩
    · exact ⟨_, rfl, (hmod _).trans (hdrop _), otherChans_modChan _ _ _⟩


theorem monitors : Monitors := by
  refine ⟨fun s h => ?_, fun s p i x hp hi hx hpl hi8 hr => ?_, fun m v hv => ?_, fun s n hn hsn => ?_⟩
  · exact ⟨congrArg Host.Outcome.next (if_pos h), congrArg Host.Outcome.next (if_pos h)⟩
  · have hno : ¬ s.boot.recov = true := by simp [hr]
    subst hp hi hx
    refine ⟨⟨_, congrArg Host.Outcome.next (if_neg hno), ?_⟩, _, congrArg Host.Outcome.next (if_neg hno), ?_⟩
    · exact s.monitor_modMon _ hpl hi8
    · exact s.monitor_modMon _ hpl hi8
  · rw [← monitor_bin_eq]; exact monitor_sample m hv
  · have hpart := State.part_foldl_sampleOne n ((List.range s.parts.length).filter fun p => (s.part p).valid)
      (List.nodup_range.filter _) s ⟨s.parts, rfl, fun p => ⟨_, rfl⟩⟩ rfl fun _ _ => rfl
    refine ⟨_, exec_monitorPeriodicSample s hn hsn, ?_, fun p hp => ?_, fun p hpl hp => ?_⟩
    · obtain ⟨hag, hcy⟩ := State.foldl_sampleOne_frame n ((List.range s.parts.length).filter fun p => (s.part p).valid) s
      rw [State.agenda_schedule, hag, hcy]
    · exact (hpart p).trans (if_neg (by simp [hp]))
    · refine congrArg Partition.monitors ((hpart p).trans (if_pos ?_))
      simp [hp, hpl]

/-- Settles O45. -/
theorem channelsAndMonitors : Obligations.ChannelsAndMonitors := ⟨channelTraining, channelDelays, monitors⟩

end Sys2Proof.Proofs
end

section
/-!
PROOF of O47: links, the order of flits, width changes and package time (spec/01 R12 to R16, R40, R41; spec/03 R69; spec/09 R191).
-/

namespace Sys2Proof.Machine

/-! ### What a flit that is taken leaves of the ports -/

/-- A port without the flits that wait at it. -/
def Port.core (p : Port) : Port := { p with queue := [] }

/-- The ports without the flits that wait at them. -/
def State.portsCore (s : State) : Vector Port 40 := s.ports.map Port.core

theorem State.portsCore_modPort (s : State) (k : Nat) (f : Port → Port) (h : ∀ p, (f p).core = p.core) :
    (s.modPort k f).portsCore = s.portsCore := by
  unfold State.modPort State.portsCore
  split
  · next hk =>
    simp only [Vector.map_set, h]
    exact Vector.ext fun i hi => by
      by_cases e : k = i
      · subst e; simp
      · simp [e]
  · rfl

@[simp] theorem State.portsCore_sendFlit (s : State) (k cls part : Nat) (payload : List Byte) :
    (s.sendFlit k cls part payload).portsCore = s.portsCore := s.portsCore_modPort k _ fun _ => rfl

@[simp] theorem State.portsCore_modPart (s : State) (p : Nat) (f : Partition → Partition) : (s.modPart p f).portsCore = s.portsCore := rfl
theorem State.portsCore_newId (s : State) : s.newId.portsCore = s.portsCore := rfl
@[simp] theorem State.portsCore_scheduleFree (s : State) (k : Delay) (ev : Instr) (arg : Arg) : (s.scheduleFree k ev arg).portsCore = s.portsCore := rfl

@[simp] theorem State.portsCore_exchRelease (s : State) (p S : Nat) (skew root : Bool) : (s.exchRelease p S skew root).portsCore = s.portsCore := by
  unfold State.exchRelease
  simp only
  rw [foldl_keeps State.portsCore _ (fun s k => s.portsCore_sendFlit _ _ _ _), foldl_keeps State.portsCore _ (fun s t => ?_), State.portsCore_modPart]
  split <;> rfl

@[simp] theorem State.portsCore_startExchange (s : State) (p : Nat) : (s.startExchange p).portsCore = s.portsCore := by
  unfold State.startExchange
  simp only
  split
  · rfl
  · split
    · rw [State.portsCore_sendFlit, State.portsCore_modPart]
    · exact s.portsCore_exchRelease _ _ _ _

@[simp] theorem State.portsCore_takeExchange (s : State) (k p : Nat) (m : BarMsg) : (s.takeExchange k p m).portsCore = s.portsCore := by
  unfold State.takeExchange
  simp only
  split
  · split
    · rfl
    · exact s.portsCore_exchRelease _ _ _ _
  · split
    · rw [State.portsCore_startExchange, State.portsCore_modPart]
    · rfl

@[simp] theorem State.portsCore_takeBarrier (s : State) (k p : Nat) (m : BarMsg) : (s.takeBarrier k p m).portsCore = s.portsCore := by
  unfold State.takeBarrier
  simp only
  split
  · rfl
  split
  · exact s.portsCore_takeExchange k p m
  split
  · rw [State.portsCore_scheduleFree, State.passDown, foldl_keeps State.portsCore _ (fun s k => s.portsCore_sendFlit _ _ _ _), State.portsCore_modPart]
  split <;> rfl

@[simp] theorem portsCore_timingBeat (s : State) (k : Nat) (v : Word) (b : Nat) : (timingBeat s k v b).portsCore = s.portsCore := by
  unfold timingBeat
  simp only
  split
  · rfl
  · split <;> rfl

@[simp] theorem State.portsCore_datumFrom (s : State) (k p : Nat) (x : Nat × Nat × Byte × List Byte) : (s.datumFrom k p x).portsCore = s.portsCore := by
  unfold State.datumFrom
  simp only
  split <;> rfl

@[simp] theorem State.portsCore_taggedFrom (s : State) (p : Nat) (x : Nat × Nat × Nat × Byte × List Byte) : (s.taggedFrom p x).portsCore = s.portsCore := by
  unfold State.taggedFrom
  dsimp only
  split
  · rfl
  · rw [State.portsCore_scheduleFree, State.portsCore_modPart, State.portsCore_newId]

@[simp] theorem State.portsCore_replay (s : State) (k : Nat) (seq : BitVec 18) : (s.replay k seq).portsCore = s.portsCore :=
  s.portsCore_modPort k _ fun p => by split <;> rfl

/-- A flit that a port takes changes of the ports what waits at them alone (R12). -/
theorem State.portsCore_takeFlit (s : State) (k : Nat) (f : List Byte) : (s.takeFlit k f).portsCore = s.portsCore := by
  unfold State.takeFlit
  simp only
  split
  · exact s.portsCore_takeBarrier _ _ _
  · exact portsCore_timingBeat _ _ _ _
  · split
    · exact s.portsCore_datumFrom _ _ _
    · rfl
  · split
    · exact s.portsCore_taggedFrom _ _
    · rfl
  · exact s.portsCore_replay _ _
  · rfl

theorem State.port_of_portsCore {s t : State} (h : t.portsCore = s.portsCore) {k : Nat} (hk : k < 40) :
    (t.port k).core = (s.port k).core := by
  have hg := congrArg (fun v : Vector Port 40 => v[k]) h
  rw [t.port_eq hk, s.port_eq hk]
  simpa [State.portsCore] using hg

/-- LINK_FAIL leaves the port failed and retired, whatever else follows from it (R13, R29, R191). -/
theorem linkFail_port (s : State) {k : Nat} (hk : k < 40) : ((linkFail s k).port k).failed = true ∧ k ∈ (linkFail s k).retired.ports := by
  unfold linkFail
  extract_lets users s1 r1 s2 s3 tm s4
  have hp : s4.port k = s1.port k := by simp only [s4]; split <;> rfl
  have hr : s4.retired.ports = s1.retired.ports ++ [k] := by simp only [s4]; split <;> rfl
  have hc (l : List Nat) : (l.foldl (fun s p => s.linkLost p k) s4.regenerateAll).core = s4.core :=
    (foldl_keeps State.core _ (fun s p => s.core_linkLost p k) _ _).trans s4.core_regenerateAll
  rw [State.port_of_core (hc _), State.retired_of_core (hc _), hp, hr, s.port_modPort _ hk]
  simp

/-- Steps that become due one after another at times that the manual leaves open: one for each element, each later than now (log entry 1). -/
theorem State.agenda_foldl_scheduleFree {α : Type} (k : Delay) (ev : Instr) (arg : α → Arg) (l : List α) (s : State) :
    ∃ ds, (l.foldl (fun s x => s.scheduleFree k ev (arg x)) s).agenda = s.agenda ++ ds ∧ ds.length = l.length ∧
      ∀ d ∈ ds, d.ev = ev ∧ (∃ x ∈ l, d.arg = arg x) ∧ s.cycle < d.at_ := by
  induction l generalizing s with
  | nil => exact ⟨[], by simp, rfl, by simp⟩
  | cons x xs ih =>
    obtain ⟨ds, ha, hl, hd⟩ := ih (s.scheduleFree k ev (arg x))
    refine ⟨⟨s.cycle + (1 + Config.delay k s.fresh), ev, arg x⟩ :: ds, ?_, by simp [hl], fun d hm => ?_⟩
    · rw [List.foldl_cons, ha]; simp [State.scheduleFree, State.schedule]
    · rcases List.mem_cons.1 hm with rfl | hm
      · exact ⟨rfl, ⟨x, List.mem_cons_self, rfl⟩, by simp only; omega⟩
      · obtain ⟨hev, ⟨y, hy, harg⟩, hat⟩ := hd d hm
        exact ⟨hev, ⟨y, List.mem_cons_of_mem _ hy, harg⟩, hat⟩

/-! ### Flits that come in -/

/-- The port's part of FLIT_RECEIVED for a port in service (R12, R13). -/
theorem exec_flitReceived (s : State) (hk : s.arg.n < 40) (hf : (s.port s.arg.n).failed = false) (hr : s.boot.recov = false) :
    exec .flitReceived s = .next (if flitGood s.arg.data then (s.modPort s.arg.n fun p => p.received s.arg.data).takeFlit s.arg.n s.arg.data
      else
        let s1 := s.modPort s.arg.n fun p => p.missed s.arg.data
        if (s1.port s.arg.n).missing.any fun x => decide (4 ≤ x.2) then
          s1.schedule 0 .portRetrain { n := s.arg.n, m := (s.port s.arg.n).lanes.toNat } else s1) := by
  have h : ¬ (40 ≤ s.arg.n ∨ (s.port s.arg.n).failed = true ∨ s.boot.recov = true) := by simp [hf, hr]; omega
  exact congrArg Host.Outcome.next (if_neg h)

/-- A flit that fails where the port lacks none counts as the next one (R13; log entry 7). -/
theorem Port.missed_of_none (p : Port) (f : List Byte) (h : p.missing = []) :
    p.missed f = { p with missing := [(p.rxSeq, 0)], rxSeq := p.rxSeq + 1, queue := enqueueFlit p.queue (replayRequest p.rxSeq) } := by
  simp [Port.missed, Port.failedSeq, h]

/-- One that fails where the port lacks it alone is one more failed replay (R13). -/
theorem Port.missed_of_one (p : Port) (f : List Byte) (n : Nat) (h : p.missing = [((headerOf f).1.seq, n)]) :
    p.missed f = { p with missing := [((headerOf f).1.seq, n + 1)], queue := enqueueFlit p.queue (replayRequest (headerOf f).1.seq) } := by
  simp [Port.missed, Port.failedSeq, h]

theorem mem_enqueueFlit (q : List Waiting) (w x : Waiting) : x ∈ enqueueFlit q w ↔ x = w ∨ x ∈ q := by
  have h : x ∈ q ↔ x ∈ q.takeWhile (fun y => decide (y.cls ≤ w.cls)) ∨ x ∈ q.dropWhile (fun y => decide (y.cls ≤ w.cls)) := by
    rw [← List.mem_append, List.takeWhile_append_dropWhile]
  rw [h]
  unfold enqueueFlit
  rw [List.mem_append, List.mem_cons]
  tauto

/-! ### Flits that go out -/

/-- A flit that joins a queue in class order stands behind all others of its class (R14). -/
theorem filter_cls_enqueueFlit (q : List Waiting) (w : Waiting) (h : q.Pairwise fun x y => x.cls ≤ y.cls) :
    (enqueueFlit q w).filter (fun x => x.cls = w.cls) = q.filter (fun x => x.cls = w.cls) ++ [w] := by
  induction q with
  | nil => simp [enqueueFlit]
  | cons x xs ih =>
    obtain ⟨hx, hxs⟩ := List.pairwise_cons.1 h
    by_cases hc : x.cls ≤ w.cls
    · have e : enqueueFlit (x :: xs) w = x :: enqueueFlit xs w := by simp [enqueueFlit, hc]
      rw [e, List.filter_cons, List.filter_cons, ih hxs]
      split <;> rfl
    · have e : enqueueFlit (x :: xs) w = w :: x :: xs := by simp [enqueueFlit, hc]
      have hn : (x :: xs).filter (fun x => x.cls = w.cls) = [] := by
        refine List.filter_eq_nil_iff.2 fun y hy => ?_
        have hle : x.cls ≤ y.cls := by
          rcases List.mem_cons.1 hy with rfl | hy
          · exact le_rfl
          · exact hx y hy
        simp only [decide_eq_true_eq]
        omega
      rw [e, List.filter_cons, hn]
      simp

/-- A port that is failed, busy or in a width change, or whose queue holds nothing that may start, sends nothing (R13 to R15). -/
theorem Port.sendNext_of_none (p : Port) (may : Waiting → Bool) (c : Nat)
    (h : p.failed = true ∨ c < p.sending ∨ c < p.pausedUntil ∨ ∀ w ∈ p.queue, may w = false) : p.sendNext may c = p := by
  unfold Port.sendNext
  split
  · rfl
  · next hn =>
    simp only [Bool.or_eq_true, decide_eq_true_eq, not_or] at hn
    obtain ⟨⟨h1, h2⟩, h3⟩ := hn
    have hq : p.queue.find? may = none := List.find?_eq_none.2 fun w hw => by
      rcases h with h | h | h | h
      · exact absurd h h1
      · exact absurd h h2
      · exact absurd h h3
      · simp [h w hw]
    rw [hq]

/-- A port that is free sends the first flit of its queue that may start (R14). -/
theorem Port.sendNext_of_first (p : Port) (may : Waiting → Bool) (c : Nat) {vs ws : List Waiting} {w : Waiting} (hf : p.failed = false)
    (hs : p.sending ≤ c) (hp : p.pausedUntil ≤ c) (hq : p.queue = vs ++ w :: ws) (hvs : ∀ x ∈ vs, may x = false) (hw : may w = true) :
    p.sendNext may c =
      let q := { p with queue := vs ++ ws, sending := c + flitCycles p.width }
      if w.again then { q with out := p.out ++ [w.data] }
      else { q with out := p.out ++ [flitBytes w.cls w.part p.txSeq w.data], txSeq := p.txSeq + 1
                    store := ((p.store ++ [flitBytes w.cls w.part p.txSeq w.data]).reverse.take 64).reverse } := by
  have hn : ¬ (p.failed || decide (c < p.sending) || decide (c < p.pausedUntil)) = true := by simp [hf]; omega
  have hfind : p.queue.find? may = some w := by
    rw [hq, List.find?_append, List.find?_eq_none.2 fun x hx => by simp [hvs x hx]]
    simp [hw]
  have hnot : w ∉ vs := fun hm => by simp [hvs w hm] at hw
  have her : p.queue.erase w = vs ++ ws := by rw [hq, List.erase_append_right _ hnot, List.erase_cons_head]
  unfold Port.sendNext
  rw [if_neg hn, hfind]
  simp only [her]

/-- Every port of the package sends on (R14), a port with nothing to send standing still. -/
theorem State.port_sendPorts (s : State) {k : Nat} (hk : k < 40) (hr : s.boot.recov = false) :
    s.sendPorts.port k = (s.port k).sendNext (s.mayStart (s.port k).width) s.cycle := by
  unfold State.sendPorts
  split
  · next h =>
    rw [hr, Bool.false_or, List.all_eq_true] at h
    have he : (s.port k).queue = [] := by
      rw [s.port_eq hk]
      exact List.isEmpty_iff.1 (h _ (by simp))
    exact (Port.sendNext_of_none _ _ _ (.inr (.inr (.inr (by simp [he]))))).symm
  · rw [State.port_eq _ hk, s.port_eq hk]
    exact Vector.getElem_map _ _

end Sys2Proof.Machine

namespace Sys2Proof.Proofs

open Sys2Proof Sys2Proof.Machine Sys2Proof.Claims

theorem links : Links := by
  intro s k p f h hk hf hr
  have hport (g : Port → Port) : (s.modPort k g).port k = g p := s.port_modPort g hk
  have hrec := exec_flitReceived s hk hf hr
  have hn : ¬ (40 ≤ k ∨ p.failed = true ∨ s.boot.recov = true) := by simp [hf, hr]; omega
  refine ⟨⟨fun h4 => ?_, fun h4 => ?_⟩, fun hbad hm => ?_, fun n hbad hm hn3 => ?_, fun hbad hm => ?_, fun hgood hc hm => ?_, fun hgood hc hm => ?_, fun g hg => ?_, ?_⟩
  · refine ⟨_, congrArg Host.Outcome.next ((if_neg hn).trans (if_neg (by omega))), ?_, ?_, ?_, fun j hj => s.port_modPort_ne _ hj⟩
    · rw [hport]; rfl
    · rw [hport]; rfl
    · rw [hport]; exact hf
  · exact ⟨_, congrArg Host.Outcome.next ((if_neg hn).trans (if_pos h4)), linkFail_port _ hk⟩
  · have e := p.missed_of_none f hm
    have hlt : ¬ (((s.modPort k fun p => p.missed f).port k).missing.any fun x => decide (4 ≤ x.2)) = true := by rw [hport, e]; simp
    refine ⟨s.modPort k fun p => p.missed f, hrec.trans ?_, ?_, ?_, ?_, State.modPort_parts _ _ _, State.modPort_agenda _ _ _⟩
    · rw [if_neg (Bool.eq_false_iff.1 hbad)]; exact congrArg Host.Outcome.next (if_neg hlt)
    all_goals rw [hport, e]
    exact (mem_enqueueFlit _ _ _).2 (.inl rfl)
  · have e := p.missed_of_one f n hm
    have hlt : ¬ (((s.modPort k fun p => p.missed f).port k).missing.any fun x => decide (4 ≤ x.2)) = true := by rw [hport, e]; simp; omega
    refine ⟨s.modPort k fun p => p.missed f, hrec.trans ?_, ?_, ?_, ?_, State.modPort_parts _ _ _, State.modPort_agenda _ _ _⟩
    · rw [if_neg (Bool.eq_false_iff.1 hbad)]; exact congrArg Host.Outcome.next (if_neg hlt)
    all_goals rw [hport, e]
    exact (mem_enqueueFlit _ _ _).2 (.inl rfl)
  · have e := p.missed_of_one f 3 hm
    have hge : (((s.modPort k fun p => p.missed f).port k).missing.any fun x => decide (4 ≤ x.2)) = true := by rw [hport, e]; simp
    refine ⟨(s.modPort k fun p => p.missed f).schedule 0 .portRetrain { n := k, m := p.lanes.toNat }, hrec.trans ?_, ?_⟩
    · rw [if_neg (Bool.eq_false_iff.1 hbad)]; exact congrArg Host.Outcome.next (if_pos hge)
    · rw [State.agenda_schedule, State.modPort_agenda, State.modPort_cycle]; rfl
  · have e := State.port_of_portsCore ((s.modPort k fun p => p.received f).portsCore_takeFlit k f) hk
    have hany : ¬ (p.missing.any fun x => decide (x.1 = h.seq)) = true := fun ha => by
      obtain ⟨x, hx, he⟩ := List.any_eq_true.1 ha
      exact hm x hx (of_decide_eq_true he)
    have hp' : p.received f = { p with rxSeq := h.seq + 1 } := (if_neg hc).trans (if_neg hany)
    rw [hport, hp'] at e
    have hmiss := congrArg Port.missing e
    have hrx := congrArg Port.rxSeq e
    have hout := congrArg Port.out e
    exact ⟨_, hrec.trans (by rw [if_pos hgood]), hmiss, hrx, hout⟩
  · have e := State.port_of_portsCore ((s.modPort k fun p => p.received f).portsCore_takeFlit k f) hk
    have hany : (p.missing.any fun x => decide (x.1 = h.seq)) = true := by
      obtain ⟨x, hx, he⟩ := hm
      exact List.any_eq_true.2 ⟨x, hx, decide_eq_true he⟩
    have hp' : p.received f = { p with missing := p.missing.filter fun x => x.1 ≠ h.seq } := (if_neg hc).trans (if_pos hany)
    rw [hport, hp'] at e
    have hmiss := congrArg Port.missing e
    have hrx := congrArg Port.rxSeq e
    have hout := congrArg Port.out e
    exact ⟨_, hrec.trans (by rw [if_pos hgood]), hmiss, hrx, hout⟩
  · have e : exec .replayRequest s = .next (s.modPort k fun p => { p with
        queue := enqueueFlit p.queue ⟨(headerOf g).1.cls, (headerOf g).1.part, g, true⟩ }) := by
      refine congrArg Host.Outcome.next (s.modPort_congr _ _ ?_)
      simp only [show s.port s.arg.n = p from rfl, hg]
    refine ⟨_, e, ?_, ?_, fun j hj => s.port_modPort_ne _ hj⟩ <;> rw [hport]
  · obtain ⟨ds, ha, hl, hd⟩ := State.agenda_foldl_scheduleFree .resume .portRetrain (fun k => { n := k, m := 0 }) s.arg.nats s
    refine ⟨_, rfl, by rw [ha, List.length_append, hl], fun d hmem => ?_⟩
    rw [ha, List.drop_left] at hmem
    obtain ⟨hev, ⟨x, hx, harg⟩, hat⟩ := hd d hmem
    rw [harg]
    exact ⟨hev, hx, rfl, hat⟩

theorem portsSendInClassOrder : PortsSendInClassOrder := by
  refine ⟨fun q w h => ⟨sorted_enqueueFlit q w h, mem_enqueueFlit q w, filter_cls_enqueueFlit q w h⟩, fun p may c => ⟨p.sendNext_of_none may c, ?_⟩,
    fun s width w => ?_, fun s k hk => ⟨s.port_sendPorts hk, fun h => ?_⟩⟩
  · intro vs w ws hf hs hp hq hvs hw
    have e := p.sendNext_of_first may c hf hs hp hq hvs hw
    simp only [e]
    cases w.again
    · refine ⟨rfl, rfl, rfl, rfl, rfl, fun h => absurd h (by decide), fun _ => ⟨rfl, rfl, ?_⟩⟩
      simp
    · exact ⟨rfl, rfl, rfl, rfl, rfl, fun _ => ⟨rfl, rfl, rfl⟩, fun h => absurd h (by decide)⟩
  · refine ⟨fun h => ?_, fun h => ?_, fun h => ?_, fun h => ?_⟩
    · simp [State.mayStart, h]
    · simp [State.mayStart, h, wireSlot]
    · simp [State.mayStart, h, wireSlot, keptSlots]
      exact fun _ => or_congr_right decide_eq_true_iff
    · have hle : ¬ w.cls ≤ 1 := by omega
      simp only [State.mayStart, hle, decide_false, Bool.false_or]
      split
      · omega
      · omega
      · simp [wireSlot, keptSlots]
        exact fun _ => decide_eq_true_iff
  · exact if_pos (by simp [h])

/-- A width change that begins at a port stops its sending for at most 360 cycles (R15). -/
theorem changeWidth_begins (s : State) {k : Nat} (hk : k < 40) : ∃ n, 0 < n ∧ n ≤ 360 ∧
    (s.changeWidth k).port k = { s.port k with pausedUntil := s.cycle + n } ∧
    (s.changeWidth k).agenda = s.agenda ++ [⟨s.cycle + n, .widthChangeDone, { n := k }⟩] := by
  refine ⟨1 + Config.delay .release s.fresh % 360, by omega, by have := Nat.mod_lt (Config.delay .release s.fresh) (show 0 < 360 by decide); omega, ?_, ?_⟩
  · exact s.port_modPort _ hk
  · unfold State.changeWidth
    simp only [State.agenda_schedule]
    rw [State.modPort_frame]

theorem widthChanges : WidthChanges := by
  intro s k p w hk hr
  have hport (g : Port → Port) : (s.modPort k g).port k = g p := s.port_modPort g hk
  have hrf : ¬ s.boot.recov = true := by simp [hr]
  refine ⟨fun hf hp h4 hne hl hnar => ?_, fun h => ?_, fun w hq hop hw hf hp hl => ?_, fun w hq hp hpa hat => ?_, fun w hp hpa hat => ?_, fun w hp => ?_⟩
  · have hno : ¬ (40 ≤ k ∨ s.boot.recov = true ∨ p.failed = true ∨ p.proposed.isSome = true ∨ w < 4 ∨ w = p.width ∨ laneWidth p.lanes < w ∨
        (decide (w < p.width) = true ∧ (s.arg.m < 100 * Config.usCycles ∨ s.slotSoon k = true))) := by
      rintro (h | h | h | h | h | h | h | ⟨h1, h2⟩)
      · omega
      · exact hrf h
      · simp [hf] at h
      · simp [hp] at h
      · omega
      · exact hne h
      · omega
      · obtain ⟨hm, hs⟩ := hnar (of_decide_eq_true h1)
        rcases h2 with h2 | h2
        · rw [show 100 * Config.usCycles = 180000 from rfl] at h2; omega
        · simp [hs] at h2
    refine ⟨_, congrArg Host.Outcome.next (if_neg hno), ?_, ?_, ?_, ?_⟩
    · exact (congrArg Port.proposed (hport _) :)
    · exact (congrArg Port.proposedAt (hport _) :)
    · exact (congrArg Port.width (hport _) :)
    · rw [State.agenda_schedule, State.modPort_agenda, State.modPort_cycle]
  · refine congrArg Host.Outcome.next (if_pos ?_)
    rcases h with h | h | h | ⟨h1, h2⟩
    · exact .inr (.inr (.inr (.inr (.inl h))))
    · exact .inr (.inr (.inr (.inr (.inr (.inl h)))))
    · exact .inr (.inr (.inr (.inr (.inr (.inr (.inl h))))))
    · exact .inr (.inr (.inr (.inr (.inr (.inr (.inr ⟨decide_eq_true h1, h2.symm⟩))))))
  · have hno : ¬ (40 ≤ k ∨ p.failed = true ∨ p.proposed.isSome = true ∨ (s.arg.op ≠ 4 ∧ s.arg.op ≠ 8 ∧ s.arg.op ≠ 16) ∨ laneWidth p.lanes < s.arg.op) := by
      simp only [hf, hp, hop]; simp; omega
    obtain ⟨n, h0, h360, hc, ha⟩ := changeWidth_begins (s.modPort k fun p => { p with proposed := some w, proposedAt := s.cycle }) hk
    rw [hport, State.modPort_cycle] at hc
    rw [State.modPort_agenda, State.modPort_cycle] at ha
    refine ⟨_, n, congrArg Host.Outcome.next ((if_neg hrf).trans ((if_pos hq).trans (if_neg hno))), h0, h360, ?_⟩
    simp only [hop]
    exact ⟨(congrArg Port.proposed hc :), (congrArg Port.pausedUntil hc :), (congrArg Port.width hc :), ha⟩
  · have hopen : (p.open s.cycle && decide (s.cycle ≤ p.proposedAt + 16)) = true := by simp [Port.open, hp, hpa, hat]
    obtain ⟨n, h0, h360, hc, ha⟩ := changeWidth_begins s hk
    exact ⟨_, n, congrArg Host.Outcome.next ((if_neg hrf).trans ((if_neg hq).trans (if_pos hopen))), h0, h360, (congrArg Port.pausedUntil hc :),
      (congrArg Port.width hc :), ha⟩
  · have hopen : (p.open s.cycle && decide (p.proposedAt + 16 ≤ s.cycle)) = true := by simp [Port.open, hp, hpa, hat]
    have e := (hport fun p => if p.open s.cycle && decide (p.proposedAt + 16 ≤ s.cycle) then { p with proposed := none } else p).trans (if_pos hopen)
    exact ⟨_, rfl, (congrArg Port.proposed e :), (congrArg Port.width e :)⟩
  · have e : exec .widthChangeDone s = .next (s.modPort k fun p => { p with width := min w (laneWidth p.lanes), proposed := none }) := by
      refine congrArg Host.Outcome.next (s.modPort_congr _ _ ?_)
      simp only [show s.port s.arg.n = p from rfl, hp]
    exact ⟨_, e, (congrArg Port.width (hport _) :), (congrArg Port.proposed (hport _) :), fun j hj => s.port_modPort_ne _ hj⟩

/-- A beat to one child (R16). -/
def sendBeat (b : Nat) (s : State) (k : Nat) : State := s.sendFlit k 1 0 (leBytes 8 s.ptime.toNat ++ leBytes 8 b)

/-- The beats that go to the children of a package in the timing tree leave what its ports have sent, and each port has those of its own (R16). -/
theorem port_foldl_sendBeat (b : Nat) {k : Nat} (hk : k < 40) (l : List Nat) (s : State) :
    ((l.foldl (sendBeat b) s).port k).out = (s.port k).out ∧
      (l.count k = 0 → ((l.foldl (sendBeat b) s).port k).queue = (s.port k).queue) ∧
      (l.count k = 1 → ((l.foldl (sendBeat b) s).port k).queue =
        enqueueFlit (s.port k).queue ⟨1, 0, leBytes 8 s.ptime.toNat ++ leBytes 8 b, false⟩) := by
  induction l generalizing s with
  | nil => exact ⟨rfl, fun _ => rfl, fun h => by simp at h⟩
  | cons x xs ih =>
    obtain ⟨ho, h0, h1⟩ := ih (sendBeat b s x)
    rw [show (sendBeat b s x).ptime = s.ptime from s.modPort_ptime _ _] at h1
    by_cases e : x = k
    · subst e
      rw [show (sendBeat b s x).port x = _ from s.port_modPort _ hk] at ho h0
      rw [List.count_cons_self, Nat.add_eq_right]
      exact ⟨ho, fun h => by omega, h0⟩
    · rw [show (sendBeat b s x).port k = s.port k from s.port_modPort_ne _ (Ne.symm e)] at ho h0 h1
      rw [List.count_cons_of_ne e]
      exact ⟨ho, h0, h1⟩

theorem packageTime : PackageTime := by
  intro s
  refine ⟨fun h => ?_, fun hr hk hp => ?_, fun h => ?_, fun h => ⟨fun hlt => ?_, fun hgt => ?_⟩, fun h => ?_, fun hq hr => ?_, fun hq => ?_⟩
  · exact congrArg Host.Outcome.next (if_pos (.inr (.inr h)))
  · have hno : ¬ (s.timing.keeper = true ∨ s.timing.parent ≠ s.arg.n ∨ s.boot.recov = true) := by simp [hk, hp, hr]
    refine ⟨_, congrArg Host.Outcome.next (if_neg hno), ?_⟩
    dsimp only
    split <;> exact ⟨rfl, rfl, rfl, rfl, rfl⟩
  · refine congrArg Host.Outcome.next (if_pos ?_)
    rcases h with h | h
    · exact .inl h
    · exact .inr (.inl h)
  · have hno : ¬ (s.timing.slew = 0 ∨ (s.timing.lastSlew ≠ 0 ∧ s.cycle < s.timing.lastSlew + 1024)) := by omega
    refine ⟨_, congrArg Host.Outcome.next (if_neg hno), ?_⟩
    simp only [hlt, decide_true, if_true]
    split <;> exact ⟨rfl, rfl, rfl⟩
  · have hno : ¬ (s.timing.slew = 0 ∨ (s.timing.lastSlew ≠ 0 ∧ s.cycle < s.timing.lastSlew + 1024)) := by omega
    have hn : ¬ s.timing.slew < 0 := by omega
    refine ⟨_, congrArg Host.Outcome.next (if_neg hno), ?_⟩
    simp only [hn, decide_false, Bool.false_eq_true, if_false]
    split <;> exact ⟨rfl, rfl, rfl⟩
  · exact congrArg Host.Outcome.next (if_pos h)
  · have e : exec .timingBeatSend s = .next ((s.timing.children.foldl (sendBeat (if s.timing.keeper then 0 else s.timing.bound)) s).schedule 65536
        .timingBeatSend {}) := by
      refine (if_neg hq).trans ?_
      rw [if_neg (Bool.eq_false_iff.1 hr)]
      rfl
    refine ⟨_, e, ?_, ?_, fun k hk hc => ?_⟩
    · rw [State.agenda_schedule, foldl_keeps State.agenda (sendBeat _) fun s k => s.modPort_agenda _ _, foldl_keeps State.cycle (sendBeat _) fun s k => s.modPort_cycle _ _]
    · exact foldl_keeps State.ptime (sendBeat _) (fun s k => s.modPort_ptime _ _) _ s
    · obtain ⟨ho, -, h1⟩ := port_foldl_sendBeat (if s.timing.keeper then 0 else s.timing.bound) hk s.timing.children s
      exact ⟨ho, h1 hc⟩
  · refine ⟨{ s with timing := s.timing.place (decide (s.arg.m = 1)) s.arg.n s.arg.nats }, if_pos hq, ?_⟩
    by_cases hm : s.arg.m = 1
    · simp [Timing.place, hm]
    · simp [Timing.place, hm]

/-- Settles O47. -/
theorem linksAndPackageTime : Obligations.LinksAndPackageTime := ⟨links, portsSendInClassOrder, widthChanges, packageTime⟩

end Sys2Proof.Proofs
end

section
/-!
SUPPORT. What the completion of a command leaves as it was (spec/02 R47, R50, R53).
-/

namespace Sys2Proof.Machine

/-- The machine without what a command's completion may change: functions, memory, messages and the steps that are due. -/
def State.offCommand (s : State) : State := { s with fns := [], host := [], hbm := [], tags := [], poison := [], msgs := [], agenda := [] }

@[simp] theorem State.offCommand_physWrite (s : State) (l : Loc) (bs : List Byte) : (s.physWrite l bs).offCommand = s.offCommand := by
  unfold State.physWrite
  dsimp only
  split
  · rfl
  · split <;> rfl

@[simp] theorem State.offCommand_vwrite (s : State) (tr : List PageT) (va : Nat) (bs : List Byte) : (s.vwrite tr va bs).offCommand = s.offCommand := by
  refine foldl_keeps State.offCommand _ (fun s x => ?_) _ _
  split
  · exact s.offCommand_physWrite _ _
  · rfl

@[simp] theorem State.offCommand_fnWrite (s : State) (n : Nat) (base : Word) (off : Nat) (bs : List Byte) :
    (s.fnWrite n base off bs).offCommand = s.offCommand := by
  unfold State.fnWrite
  dsimp only
  split
  · split
    · exact s.offCommand_vwrite _ _ _
    · rfl
  · exact s.offCommand_physWrite _ _

@[simp] theorem State.offCommand_modFn (s : State) (n : Nat) (f : Fn → Fn) : (s.modFn n f).offCommand = s.offCommand := rfl

@[simp] theorem State.offCommand_modQueue (s : State) (n q : Nat) (f : Queue → Queue) : (s.modQueue n q f).offCommand = s.offCommand := rfl

@[simp] theorem State.offCommand_countVec (s : State) (n v : Nat) : (s.countVec n v).offCommand = s.offCommand := by
  have hsend (s : State) : (s.sendVec n v).offCommand = s.offCommand := by unfold State.sendVec; split <;> rfl
  have htrig (s : State) : (s.countTrigger n v).offCommand = s.offCommand := by
    unfold State.countTrigger
    dsimp only
    split
    · exact hsend s
    · rfl
  unfold State.countVec
  refine (htrig _).trans ?_
  split <;> rfl

@[simp] theorem State.offCommand_noteWaits (s : State) : s.noteWaits.offCommand = s.offCommand := by
  refine foldl_keeps State.offCommand _ (fun s x => ?_) _ _
  split
  · rfl
  · split <;> rfl

@[simp] theorem State.offCommand_signalAt (s : State) (l : Loc) (f : SigOp) (v : Word) : (s.signalAt l f v).offCommand = s.offCommand := by
  rw [State.signalAt, offCommand_noteWaits, offCommand_physWrite]

@[simp] theorem State.offCommand_cmdSignal (s : State) (fn : Nat) (e : List Byte) : (s.cmdSignal fn e).offCommand = s.offCommand := by
  unfold State.cmdSignal
  split <;> simp

/-- A completion changes functions, memory, messages and the agenda alone (R47). -/
@[simp] theorem State.offCommand_completeAs (s : State) (r : CmdRef) (status : Nat) (b3 : Option Nat) (sig : Bool) :
    (s.completeAs r status b3 sig).offCommand = s.offCommand := by
  unfold State.completeAs
  extract_lets q e s1 s2 s3 s4 s5
  have h3 : s3.offCommand = s.offCommand := by simp [s3, s2, s1]
  have h4 : s4.offCommand = s.offCommand := by
    simp only [s4]
    split
    · rw [offCommand_cmdSignal, h3]
    · exact h3
  have h5 : s5.offCommand = s.offCommand := by rw [offCommand_noteWaits, h4]
  split
  · rfl
  · split
    · rw [offCommand_countVec, h5]
    · exact h5

@[simp] theorem State.offCommand_complete (s : State) (r : CmdRef) (status : Nat) : (s.complete r status).offCommand = s.offCommand :=
  s.offCommand_completeAs r status none true

section
variable {s t : State} (h : t.offCommand = s.offCommand)
include h

theorem State.parts_of_offCommand : t.parts = s.parts := by simpa [State.offCommand] using congrArg State.parts h
theorem State.ops_of_offCommand : t.ops = s.ops := by simpa [State.offCommand] using congrArg State.ops h
theorem State.part_of_offCommand (p : Nat) : t.part p = s.part p := by rw [State.part, State.parts_of_offCommand h, State.part]

end

end Sys2Proof.Machine
end

section
/-!
PROOF of O46: power and heat, the leader's lease, scrubbing and retirement, the quiescence counter and time slices (spec/01 R18, R19, R29 to R31;
spec/02 R44, R50; spec/05 R116; spec/09 R187, R188).
-/

namespace Sys2Proof.Machine

/-! ### Steps that each act on one partition -/

/-- Where each step of a fold changes its own partition alone and keeps what g shows, a partition that the list names once is after the fold as the
one step leaves it, from a state that has the partition and what g shows as they were. -/
theorem foldl_own_part {γ : Type} (g : State → γ) (one : State → Nat → State) (hg : ∀ s p, g (one s p) = g s)
    (ho : ∀ s p q, q ≠ p → (one s p).part q = s.part q) (l : List Nat) (hl : l.Nodup) (s : State) (p : Nat) :
    (p ∉ l → (l.foldl one s).part p = s.part p) ∧
      (p ∈ l → ∃ u, g u = g s ∧ u.part p = s.part p ∧ (l.foldl one s).part p = (one u p).part p) := by
  induction l generalizing s with
  | nil => exact ⟨fun _ => rfl, fun h => absurd h (by simp)⟩
  | cons x xs ih =>
    obtain ⟨hx, hxs⟩ := List.nodup_cons.1 hl
    obtain ⟨h1, h2⟩ := ih hxs (one s x)
    refine ⟨fun h => ?_, fun h => ?_⟩
    · obtain ⟨hpx, hp⟩ := not_or.1 (List.mem_cons.not.1 h)
      exact (h1 hp).trans (ho s x p hpx)
    · by_cases e : p = x
      · subst e
        exact ⟨s, rfl, rfl, h1 hx⟩
      · obtain ⟨u, hu, hpu, hf⟩ := h2 ((List.mem_cons.1 h).resolve_left e)
        exact ⟨u, hu.trans (hg s x), hpu.trans (ho s x p e), hf⟩

/-! ### Power and heat -/

/-- A tile whose die is too hot to issue is not visited (R19). -/
theorem State.heatHolds_of_nextAgent (s : State) {p k i : Nat} (h : s.nextAgent = some (.tile p k, i)) : s.heatHolds p k = false := by
  unfold State.nextAgent at h
  simp only at h
  rcases Option.or_eq_some_iff.1 h with h | ⟨-, h⟩
  · obtain ⟨q, -, hq⟩ := List.exists_of_findSome?_eq_some h
    split at hq
    · obtain ⟨t, -, ht⟩ := List.exists_of_findSome?_eq_some hq
      split at ht
      · next hc =>
        obtain ⟨j, -, hj⟩ := Option.map_eq_some_iff.1 ht
        obtain ⟨⟨rfl, rfl⟩, rfl⟩ := by simpa using hj
        simpa using hc.2.2
      · cases ht
    · cases hq
  · obtain ⟨d, -, hd⟩ := List.exists_of_findSome?_eq_some h
    split at hd <;> simp at hd

/-- What the thermal state of a partition is decided by: its power controller, the map of pods, and how many partitions there are. -/
def State.heatEnv (s : State) : Power × List Nat × Nat := (s.power, s.logical, s.parts.length)

theorem State.podsOf_congr {s t : State} (p : Nat) (hl : t.logical = s.logical) (hp : t.part p = s.part p) : t.podsOf p = s.podsOf p := by
  unfold State.podsOf State.physPod
  rw [hl, hp]

theorem State.onDie_congr {s t : State} (p d : Nat) (hl : t.logical = s.logical) (hp : t.part p = s.part p) : t.onDie p d = s.onDie p d := by
  unfold State.onDie
  rw [State.podsOf_congr p hl hp, hp]

/-- A die's new temperature (R19). -/
theorem State.setTemp_eq (s : State) (d : Fin 4) (t : Nat) : s.setTemp d t =
    { s with power := { s.power with temps := s.power.temps.set d t, throttled := s.power.throttled.set d (decide (105 ≤ t)) } } := dif_pos d.isLt

/-- A die's new temperature, and whether it is stopped. -/
def State.heatDie (s : State) (d : Fin 4) (t : Nat) (stop : Bool) : State :=
  let s1 := s.setTemp d t
  { s1 with power := { s1.power with stopped := s1.power.stopped.set d stop } }

theorem State.heatDie_eq (s : State) (d : Fin 4) (t : Nat) (stop : Bool) : s.heatDie d t stop = { s with power := (s.heatDie d t stop).power } := by
  unfold State.heatDie
  rw [s.setTemp_eq d]

theorem State.power_heatDie (s : State) (d : Fin 4) (t : Nat) (stop : Bool) :
    (s.heatDie d t stop).power.stopped[d] = stop ∧ (s.heatDie d t stop).power.temps[d] = t := by
  unfold State.heatDie
  rw [s.setTemp_eq d]
  exact ⟨by simp, by simp⟩

theorem State.part_forceWash_ne (s : State) {p q : Nat} (d : Word) (h : q ≠ p) : (s.forceWash p d).part q = s.part q := by
  unfold State.forceWash
  simp only
  split
  · rfl
  · rw [State.part_modPart_ne _ _ h, State.part, parts_partEvent]
    exact getD_modify_ne _ _ _ _ _ h

@[simp] theorem State.core_forceWash (s : State) (p : Nat) (d : Word) : (s.forceWash p d).core = s.core := by
  unfold State.forceWash
  simp only
  split
  · rfl
  · rw [State.core_modPart, core_partEvent]

@[simp] theorem State.length_parts_forceWash (s : State) (p : Nat) (d : Word) : (s.forceWash p d).parts.length = s.parts.length := by
  unfold State.forceWash
  simp only
  split
  · rfl
  · rw [State.length_parts_modPart, parts_partEvent, List.length_modify]

/-- A forced wash leaves whether the partition is in Thermal hold, and one that runs undecided goes to its votes (R19, R83). -/
theorem State.part_forceWash (s : State) (p : Nat) (d : Word) (hp : p < s.parts.length) :
    ((s.forceWash p d).part p).thermalHeld = (s.part p).thermalHeld ∧
      ((s.part p).run = .running → (s.part p).decision = none → ((s.forceWash p d).part p).run = .voting) := by
  unfold State.forceWash
  simp only
  split
  · next h =>
    refine ⟨rfl, fun hr hd => ?_⟩
    simp [hr, hd] at h
  · have hl : p < (partEvent s p .boundWash 1 d).parts.length := by rw [parts_partEvent, List.length_modify]; exact hp
    rw [State.part_modPart _ _ _ hl]
    refine ⟨?_, fun _ _ => rfl⟩
    have he : (partEvent s p .boundWash 1 d).part p = _ := (congrArg (fun ps : List Partition => ps.getD p Partition.absent) (parts_partEvent s p .boundWash 1 d)).trans (getD_modify _ _ _ _ hp)
    simp only [he]
    rfl

/-- A hot die's partition is stopped. -/
def State.heatStop (d : Nat) (s : State) (p : Nat) : State :=
  if s.onDie p d && !(s.part p).thermalHeld then (s.modPart p fun P => { P with thermalHeld := true }).forceWash p 2 else s

theorem State.heatEnv_heatStop (d : Nat) (s : State) (p : Nat) : (s.heatStop d p).heatEnv = s.heatEnv := by
  unfold State.heatStop
  split
  · have hc : ((s.modPart p fun P => { P with thermalHeld := true }).forceWash p 2).core = s.core := by rw [core_forceWash, core_modPart]
    rw [State.heatEnv, State.power_of_core hc, State.logical_of_core hc, length_parts_forceWash, length_parts_modPart]
    rfl
  · rfl

theorem State.part_heatStop_ne (d : Nat) (s : State) (p q : Nat) (h : q ≠ p) : (s.heatStop d p).part q = s.part q := by
  unfold State.heatStop
  split
  · rw [State.part_forceWash_ne _ _ h, s.part_modPart_ne _ h]
  · rfl

/-- A partition on a die that is stopped is in Thermal hold, and one that ran undecided goes to its votes (R19). -/
theorem State.part_heatStop (u : State) {d p : Nat} (hp : p < u.parts.length) (hon : u.onDie p d = true) :
    ((u.heatStop d p).part p).thermalHeld = true ∧
      ((u.part p).thermalHeld = false → (u.part p).run = .running → (u.part p).decision = none → ((u.heatStop d p).part p).run = .voting) := by
  unfold State.heatStop
  by_cases hh : (u.part p).thermalHeld = true
  · simp only [hon, hh, Bool.not_true, Bool.and_false, Bool.false_eq_true, if_false]
    exact ⟨trivial, fun h => absurd h (by simp)⟩
  · have hm := u.part_modPart p (fun P => { P with thermalHeld := true }) hp
    obtain ⟨h1, h2⟩ := (u.modPart p fun P => { P with thermalHeld := true }).part_forceWash p 2 (by simpa using hp)
    rw [hm] at h1 h2
    simp only [hon, Bool.true_and, Bool.not_eq_true', hh, if_true]
    exact ⟨h1, fun _ => h2⟩

/-- THERMAL_STOP of a die that is hot enough (R19). -/
theorem exec_thermalStop (s : State) (d : Fin 4) (h : s.arg.n = d.val) (hm : 115 ≤ s.arg.m) : exec .thermalStop s =
    .next ((List.range s.parts.length).foldl (State.heatStop d)
      (s.heatDie d s.arg.m true)) := by
  have hd : s.arg.n < 4 := h ▸ d.isLt
  refine (congrArg Host.Outcome.next ((dif_pos hd).trans (if_neg (by omega)))).trans ?_
  simp only [h]
  rfl

/-! ### What a step changes besides one partition -/

/-- The machine without one partition, the steps that are due, and the count of free values. -/
def State.besides (p : Nat) (s : State) : State := { s with parts := s.parts.set p Partition.absent, agenda := [], fresh := 0 }

@[simp] theorem State.besides_modPart (s : State) (p : Nat) (f : Partition → Partition) : (s.modPart p f).besides p = s.besides p := by
  unfold State.besides State.modPart
  have h : (s.parts.modify p f).set p Partition.absent = s.parts.set p Partition.absent := by
    apply List.ext_getElem?
    intro j
    by_cases e : p = j
    · subst e; simp [List.getElem?_set]
    · simp [e]
  simp only [h]

@[simp] theorem State.besides_schedule (s : State) (p dt : Nat) (ev : Instr) (arg : Arg) : (s.schedule dt ev arg).besides p = s.besides p := rfl
@[simp] theorem State.besides_scheduleFree (s : State) (p : Nat) (k : Delay) (ev : Instr) (arg : Arg) : (s.scheduleFree k ev arg).besides p = s.besides p := rfl

theorem State.part_of_besides {s t : State} {p : Nat} (h : t.besides p = s.besides p) {q : Nat} (hq : q ≠ p) : t.part q = s.part q := by
  have hp : t.parts.set p Partition.absent = s.parts.set p Partition.absent := congrArg State.parts h
  have hg := congrArg (fun ps : List Partition => ps.getD q Partition.absent) hp
  simpa [State.part, List.getD_eq_getElem?_getD, List.getElem?_set, Ne.symm hq] using hg

theorem State.heatEnv_of_besides {s t : State} {p : Nat} (h : t.besides p = s.besides p) : t.heatEnv = s.heatEnv := by
  have hp : t.parts.set p Partition.absent = s.parts.set p Partition.absent := congrArg State.parts h
  have hl := congrArg List.length hp
  simp only [List.length_set] at hl
  have h1 : t.power = s.power := by simpa [State.besides] using congrArg State.power h
  have h2 : t.logical = s.logical := by simpa [State.besides] using congrArg State.logical h
  rw [State.heatEnv, h1, h2, hl]
  rfl

@[simp] theorem State.besides_startBuilds (s : State) (p : Nat) : (s.startBuilds p).besides p = s.besides p :=
  foldl_keeps (State.besides p) _ (fun s _ => (State.besides_scheduleFree _ _ _ _ _).trans (s.besides_modPart _ _)) _ _

@[simp] theorem State.besides_startBound (s : State) (p : Nat) : (s.startBound p).besides p = s.besides p := by
  unfold State.startBound
  split
  · rfl
  · split
    · exact (State.besides_schedule _ _ _ _ _).trans (s.besides_modPart _ _)
    · rfl

@[simp] theorem State.besides_requestPreempt (s : State) (p k : Nat) : (s.requestPreempt p k).besides p = s.besides p := by
  unfold State.requestPreempt
  simp only
  split
  · rfl
  · split
    · rfl
    · split
      · exact s.besides_schedule _ _ _ _
      · split
        · exact s.besides_modPart _ _
        · rw [besides_startBound, besides_modPart]

@[simp] theorem State.besides_afterRecords (s : State) (p : Nat) : (s.afterRecords p).besides p = s.besides p := by
  unfold State.afterRecords State.stageSeed
  simp only
  split
  · rw [besides_requestPreempt, besides_modPart]
  · exact s.besides_modPart _ _

@[simp] theorem State.besides_toRunning (s : State) (p : Nat) : (s.toRunning p).besides p = s.besides p := by
  rw [State.toRunning, besides_afterRecords, besides_startBound, besides_startBuilds, besides_modPart]

@[simp] theorem State.besides_kickStops (s : State) (p : Nat) : (s.kickStops p).besides p = s.besides p := by
  unfold State.kickStops
  split
  · rfl
  · exact s.besides_schedule _ _ _ _

theorem State.besides_coolPart (s : State) (p : Nat) : (s.coolPart p).besides p = s.besides p := by
  unfold State.coolPart
  simp only
  split
  · split
    · rw [besides_kickStops, besides_toRunning, besides_modPart]
    · exact s.besides_modPart _ _
  · rfl

/-! ### Run states -/

/-- The run state of a partition and whether it is in Thermal hold. -/
def Partition.runHeat (P : Partition) : RunSt × Bool := (P.run, P.thermalHeld)

theorem State.runHeat_modPart (s : State) (p q : Nat) (f : Partition → Partition) (h : ∀ P, (f P).runHeat = P.runHeat) :
    ((s.modPart p f).part q).runHeat = (s.part q).runHeat := s.modPart_keeps Partition.runHeat f h p q

theorem State.runHeat_stageSeed (s : State) (p q : Nat) : ((s.stageSeed p).part q).runHeat = (s.part q).runHeat := by
  unfold State.stageSeed
  refine s.runHeat_modPart p q _ fun P => ?_
  rfl

theorem State.runHeat_startBuilds (s : State) (p q : Nat) : ((s.startBuilds p).part q).runHeat = (s.part q).runHeat := by
  refine foldl_keeps (fun s => (State.part s q).runHeat) _ (fun s t => ?_) _ _
  exact s.runHeat_modPart p q (fun P => P.modTile t fun T => { T with building := true, build := s.fresh }) fun _ => rfl

theorem State.runHeat_startBound (s : State) (p q : Nat) : ((s.startBound p).part q).runHeat = (s.part q).runHeat := by
  unfold State.startBound
  split
  · rfl
  · split
    · refine s.runHeat_modPart p q _ fun P => ?_
      rfl
    · rfl

theorem State.runHeat_requestPreempt (s : State) (p k q : Nat) : ((s.requestPreempt p k).part q).runHeat = (s.part q).runHeat := by
  unfold State.requestPreempt
  simp only
  split
  · rfl
  · split
    · rfl
    · split
      · rfl
      · split
        · refine s.runHeat_modPart p q _ fun P => ?_
          rfl
        · rw [runHeat_startBound]
          refine s.runHeat_modPart p q _ fun P => ?_
          rfl

theorem State.runHeat_afterRecords (s : State) (p q : Nat) : ((s.afterRecords p).part q).runHeat = (s.part q).runHeat := by
  unfold State.afterRecords
  simp only
  split
  · rw [runHeat_requestPreempt, runHeat_stageSeed]
  · exact s.runHeat_stageSeed p q

/-- A partition that goes on to run is Running (R83). -/
theorem State.runHeat_toRunning (s : State) {p : Nat} (hp : p < s.parts.length) :
    ((s.toRunning p).part p).runHeat = (.running, (s.part p).thermalHeld) := by
  rw [State.toRunning, runHeat_afterRecords, runHeat_startBound, runHeat_startBuilds, s.part_modPart _ _ hp]
  rfl

theorem State.part_kickStops (s : State) (p q : Nat) : (s.kickStops p).part q = s.part q := by
  unfold State.kickStops
  split <;> rfl

/-- A partition that has cooled leaves Thermal hold, and runs where heat alone held it (R19, R83). -/
theorem State.part_coolPart (s : State) {p : Nat} (hp : p < s.parts.length) (hh : (s.part p).thermalHeld = true)
    (hc : ∀ k ∈ s.podsOf p, s.power.temps.toList.getD (k / 64) 0 < 100) :
    ((s.coolPart p).part p).thermalHeld = false ∧ ((s.part p).run = .thermal → ((s.coolPart p).part p).run = .running) := by
  have hcold : ((s.part p).thermalHeld && (s.podsOf p).all fun k => decide (s.power.temps.toList.getD (k / 64) 0 < 100)) = true := by
    rw [hh, Bool.true_and, List.all_eq_true]
    exact fun k hk => decide_eq_true (hc k hk)
  have hm := s.part_modPart p (fun P => { P with thermalHeld := false }) hp
  unfold State.coolPart
  simp only [hcold, if_true]
  split
  · have hr := State.runHeat_toRunning (s.modPart p fun P => { P with thermalHeld := false }) (p := p) (by simpa using hp)
    rw [hm] at hr
    rw [part_kickStops]
    exact ⟨congrArg Prod.snd hr, fun _ => congrArg Prod.fst hr⟩
  · next hrun => exact ⟨by rw [hm], fun h => absurd h hrun⟩

/-- One that has not cooled is left as it is. -/
theorem State.coolPart_of_hot (s : State) (p : Nat) (hc : ∃ k ∈ s.podsOf p, 100 ≤ s.power.temps.toList.getD (k / 64) 0) : s.coolPart p = s := by
  obtain ⟨k, hk, hhot⟩ := hc
  have h : ¬ ((s.part p).thermalHeld && (s.podsOf p).all fun k => decide (s.power.temps.toList.getD (k / 64) 0 < 100)) = true := by
    rw [Bool.and_eq_true, List.all_eq_true]
    exact fun h => absurd (of_decide_eq_true (h.2 k hk)) (by omega)
  unfold State.coolPart
  simp only [h]
  rfl

/-- THERMAL_RESUME of a die that has cooled (R19). -/
theorem exec_thermalResume (s : State) (d : Fin 4) (h : s.arg.n = d.val) (hm : s.arg.m < 100) : exec .thermalResume s =
    .next ((List.range s.parts.length).foldl State.coolPart
      (s.heatDie d s.arg.m false)) := by
  have hd : s.arg.n < 4 := h ▸ d.isLt
  refine (congrArg Host.Outcome.next ((dif_pos hd).trans (if_neg (by omega)))).trans ?_
  simp only [h]
  rfl

end Sys2Proof.Machine

namespace Sys2Proof.Proofs

open Sys2Proof Sys2Proof.Machine Sys2Proof.Claims

theorem powerAndHeat : PowerAndHeat := by
  intro s
  refine ⟨fun p k i h => ?_, fun hq => ?_, fun hq hm => ?_, fun hq hm => ?_, fun d hd => ⟨?_, fun hm => ?_, fun hm => ?_⟩⟩
  · have hh := s.heatHolds_of_nextAgent h
    simp only [State.heatHolds, Bool.or_eq_false_iff, Bool.and_eq_false_iff, decide_eq_false_iff_not] at hh
    refine ⟨hh.1, fun ht => ?_⟩
    have := hh.2.resolve_left (by rw [ht]; decide)
    omega
  · refine ⟨s.setPowerLimit s.arg.m, if_pos hq, ?_⟩
    unfold State.setPowerLimit
    split
    · exact ⟨rfl, rfl, rfl⟩
    · exact ⟨rfl, rfl, rfl⟩
  · exact (if_neg hq).trans (if_pos hm)
  · refine ⟨_, (if_neg hq).trans (if_neg (by simpa using hm)), rfl, rfl, fun h => ?_, fun h => ?_, rfl⟩
    · simp [State.schedule, h]
    · simp [State.schedule, Nat.not_lt.2 h]
  · refine ⟨s.setTemp d s.arg.m, congrArg (fun n => Host.Outcome.next (s.setTemp n s.arg.m)) hd, ?_⟩
    rw [s.setTemp_eq d]
    refine ⟨Vector.getElem_set_self _, Vector.getElem_set_self _, fun e he => ?_, rfl⟩
    have hne : d.val ≠ e.val := fun h => he (Fin.ext h.symm)
    exact ⟨Vector.getElem_set_ne d.isLt e.isLt hne, Vector.getElem_set_ne d.isLt e.isLt hne⟩
  · have hs := s.heatDie_eq d s.arg.m true
    obtain ⟨hstop, htemp⟩ := s.power_heatDie d s.arg.m true
    have hpow := congrArg Prod.fst (foldl_keeps State.heatEnv _ (State.heatEnv_heatStop d) (List.range s.parts.length) (s.heatDie d s.arg.m true))
    refine ⟨_, exec_thermalStop s d hd hm, ?_, ?_, fun p hp hon => ?_⟩
    · exact (congrArg (fun w : Power => w.stopped[d]) hpow).trans hstop
    · exact (congrArg (fun w : Power => w.temps[d]) hpow).trans htemp
    · obtain ⟨-, hown⟩ := foldl_own_part State.heatEnv (State.heatStop d) (State.heatEnv_heatStop d) (State.part_heatStop_ne d) (List.range s.parts.length)
        List.nodup_range (s.heatDie d s.arg.m true) p
      obtain ⟨u, hu, hup, hf⟩ := hown (List.mem_range.2 hp)
      have hpart : u.part p = s.part p := hup.trans (by rw [hs]; rfl)
      have hlog : u.logical = s.logical := (congrArg (fun x : Power × List Nat × Nat => x.2.1) hu).trans (by rw [hs]; rfl)
      have hlen : u.parts.length = s.parts.length := (congrArg (fun x : Power × List Nat × Nat => x.2.2) hu).trans (by rw [hs]; rfl)
      rw [hf, ← hpart]
      exact u.part_heatStop (hlen ▸ hp) ((State.onDie_congr p d hlog hpart).trans hon)
  · have hs := s.heatDie_eq d s.arg.m false
    obtain ⟨hstop, htemp⟩ := s.power_heatDie d s.arg.m false
    have henv (u : State) (p : Nat) : (u.coolPart p).heatEnv = u.heatEnv := State.heatEnv_of_besides (u.besides_coolPart p)
    have hpow := congrArg Prod.fst (foldl_keeps State.heatEnv _ henv (List.range s.parts.length) (s.heatDie d s.arg.m false))
    refine ⟨_, exec_thermalResume s d hd hm, ?_, ?_, fun p hp hh => ?_⟩
    · exact (congrArg (fun w : Power => w.stopped[d]) hpow).trans hstop
    · exact (congrArg (fun w : Power => w.temps[d]) hpow).trans htemp
    · obtain ⟨-, hown⟩ := foldl_own_part State.heatEnv State.coolPart henv (fun u p q h => State.part_of_besides (u.besides_coolPart p) h)
        (List.range s.parts.length) List.nodup_range (s.heatDie d s.arg.m false) p
      obtain ⟨u, hu, hup, hf⟩ := hown (List.mem_range.2 hp)
      have hpart : u.part p = s.part p := hup.trans (by rw [hs]; rfl)
      have hlog : u.logical = s.logical := (congrArg (fun x : Power × List Nat × Nat => x.2.1) hu).trans (by rw [hs]; rfl)
      have hlen : u.parts.length = s.parts.length := (congrArg (fun x : Power × List Nat × Nat => x.2.2) hu).trans (by rw [hs]; rfl)
      have htemps := hpow.trans (congrArg Prod.fst hu).symm
      simp only [State.heatEnv] at htemps
      rw [htemps, ← State.podsOf_congr p hlog hpart]
      refine ⟨fun hc => ?_, fun hc => ?_⟩
      · rw [hf, ← hpart]
        exact u.part_coolPart (hlen ▸ hp) (hpart ▸ hh) hc
      · rw [hf, u.coolPart_of_hot p hc, hpart]

end Sys2Proof.Proofs
end

section
/-!
PROOF of O46, continued: the leader's lease (spec/01 R29 to R31; spec/02 R50).
-/

namespace Sys2Proof.Machine

/-! ### Lease cells -/

theorem State.setLease_frame (s : State) (d : Nat) (l : Lease) : s.setLease d l = { s with leases := (s.setLease d l).leases } := by
  unfold State.setLease
  split
  · split <;> rfl
  · rfl

/-- A lease cell takes a write that does not carry a lower epoch (R31). -/
theorem State.leases_setLease (s : State) (d : Nat) (l : Lease) (k : Fin 4) : (s.setLease d l).leases[k] =
    if k.val = d ∧ s.leases[k].epoch.toNat ≤ l.epoch.toNat then l else s.leases[k] := by
  unfold State.setLease
  split
  · next hd =>
    by_cases hk : k.val = d
    · subst hk
      by_cases he : l.epoch.toNat < s.leases[k].epoch.toNat
      · have : ¬ s.leases[k].epoch.toNat ≤ l.epoch.toNat := by omega
        simp only [Fin.getElem_fin] at he this ⊢
        simp [he, this]
      · have : s.leases[k].epoch.toNat ≤ l.epoch.toNat := by omega
        simp only [Fin.getElem_fin] at he this ⊢
        simp [he, this]
    · split
      · simp [hk]
      · simp [hk, Ne.symm hk]
  · next hd =>
    have : ¬ k.val = d := fun h => hd (h ▸ k.isLt)
    simp [this]

/-- A lease of a holder that begins now (R30). -/
def State.leaseNow (s : State) (e : BitVec 32) (h : BitVec 2) : Lease := ⟨e, h, s.ptime + BitVec.ofNat 64 leaseTerm⟩

theorem State.writeLeases_frame (s : State) (e : BitVec 32) (h : BitVec 2) : s.writeLeases e h = { s with leases := (s.writeLeases e h).leases } := by
  refine foldl_related (fun s t : State => t = { s with leases := t.leases }) (fun _ => rfl) (fun s t u h1 h2 => ?_) _
    (fun s d => s.setLease_frame d _) _ s
  rw [h2, h1]

theorem State.writeLeases_eq (s : State) (e : BitVec 32) (h : BitVec 2) :
    s.writeLeases e h = (List.range 4).foldl (fun t d => t.setLease d (t.leaseNow e h)) s := rfl

/-- Every lease cell takes the new holder unless it holds a higher epoch (R30, R31). -/
theorem State.leases_writeLeases (s : State) (e : BitVec 32) (h : BitVec 2) (k : Fin 4) : (s.writeLeases e h).leases[k] =
    if s.leases[k].epoch.toNat ≤ e.toNat then s.leaseNow e h else s.leases[k] := by
  have hfold : ∀ (l : List Nat) (t : State), t.ptime = s.ptime → t.leases[k] = s.leases[k] ∨ t.leases[k] = s.leaseNow e h →
      (l.foldl (fun t d => t.setLease d (t.leaseNow e h)) t).leases[k] =
        if k.val ∈ l ∧ s.leases[k].epoch.toNat ≤ e.toNat then s.leaseNow e h else t.leases[k] := by
    intro l
    induction l with
    | nil => intro t _ _; simp
    | cons d ds ih =>
      intro t ht hor
      have hd : (t.setLease d (s.leaseNow e h)).leases[k] =
          if k.val = d ∧ s.leases[k].epoch.toNat ≤ e.toNat then s.leaseNow e h else t.leases[k] := by
        rw [State.leases_setLease]
        rcases hor with hk | hk <;> rw [hk]
        · rfl
        · have : (s.leaseNow e h).epoch = e := rfl
          simp [this]
      have hnow : t.leaseNow e h = s.leaseNow e h := by unfold State.leaseNow; rw [ht]
      rw [List.foldl_cons, hnow]
      refine (ih (t.setLease d (s.leaseNow e h)) ?_ ?_).trans ?_
      · rw [State.setLease_frame]; exact ht
      · rw [hd]
        split
        · exact .inr rfl
        · exact hor
      · rw [hd]
        by_cases he : s.leases[k].epoch.toNat ≤ e.toNat
        · by_cases hk : k.val = d <;> simp only [hk, he, and_true, List.mem_cons, true_or, false_or, if_true, if_false, ite_self]
        · simp only [he, and_false, if_false]
  have hall := hfold (List.range 4) s rfl (.inl rfl)
  simp only [List.mem_range, k.isLt, true_and] at hall
  rw [State.writeLeases_eq, hall]

/-- The highest epoch of the cells is the one that no cell is above (R30). -/
theorem State.topEpoch_eq (s : State) (e : BitVec 32) (k : Fin 4) (hk : s.leases[k].epoch = e) (hle : ∀ j : Fin 4, s.leases[j].epoch ≤ e) : s.topEpoch = e := by
  have hfold : ∀ (l : List Lease) (m : BitVec 32), m ≤ e → (∀ x ∈ l, x.epoch ≤ e) → (m = e ∨ ∃ x ∈ l, x.epoch = e) →
      l.foldl (fun m x => if m < x.epoch then x.epoch else m) m = e := by
    intro l
    induction l with
    | nil => intro m _ _ hm; simpa using hm
    | cons x xs ih =>
      intro m hme hl hm
      have hx := hl x List.mem_cons_self
      refine ih _ (by dsimp only; split <;> assumption) (fun y hy => hl y (List.mem_cons_of_mem _ hy)) ?_
      rcases hm with rfl | ⟨y, hy, hye⟩
      · exact .inl (if_neg (BitVec.not_lt.2 hx))
      · rcases List.mem_cons.1 hy with rfl | hy
        · left
          dsimp only
          split
          · exact hye
          · next hlt => exact BitVec.le_antisymm hme (hye ▸ BitVec.not_lt.1 hlt)
        · exact .inr ⟨y, hy, hye⟩
  refine hfold _ _ (Nat.zero_le _) (fun x hx => ?_) (.inr ⟨s.leases[k], ?_, hk⟩)
  · obtain ⟨j, hj, rfl⟩ := List.mem_iff_getElem.1 hx
    simpa using hle ⟨j, by simpa using hj⟩
  · exact Vector.mem_toList_iff.2 (Vector.getElem_mem k.isLt)

/-! ### Events and commands that are taken anew -/

/-- The machine without its functions, partitions, steps, messages and pending bits. -/
def State.offQueues (s : State) : State := { s with fns := [], parts := [], agenda := [], msgs := [], pendBits := [] }

@[simp] theorem State.offQueues_countVec (s : State) (n v : Nat) : (s.countVec n v).offQueues = s.offQueues := by
  have hsend (s : State) : (s.sendVec n v).offQueues = s.offQueues := by unfold State.sendVec; split <;> rfl
  have htrig (s : State) : (s.countTrigger n v).offQueues = s.offQueues := by
    unfold State.countTrigger
    dsimp only
    split
    · exact hsend s
    · rfl
  unfold State.countVec
  refine (htrig _).trans ?_
  split <;> rfl

@[simp] theorem State.offQueues_setPending (s : State) (n q : Nat) : (s.setPending n q).offQueues = s.offQueues := by
  unfold State.setPending
  simp only
  split <;> rfl

@[simp] theorem State.offQueues_redoCommands (s : State) : s.redoCommands.offQueues = s.offQueues := by
  refine (foldl_keeps State.offQueues _ (fun s n => ?_) _ _).trans rfl
  exact foldl_keeps State.offQueues _ (fun s q => s.offQueues_setPending n q) _ _

@[simp] theorem State.fns_setPending (s : State) (n q : Nat) : (s.setPending n q).fns = s.fns := by
  unfold State.setPending
  simp only
  split <;> rfl

/-- Of the functions, taking commands anew changes the queues alone (R31). -/
theorem State.fns_redoCommands (s : State) : s.redoCommands.fns = s.fns.map fun f => { f with queues := f.queues.map Queue.rewind } := by
  refine (foldl_keeps State.fns _ (fun s n => ?_) _ _).trans rfl
  exact foldl_keeps State.fns _ (fun s q => s.fns_setPending n q) _ _

theorem State.fn_modFn (s : State) {n : Nat} (f : Fn → Fn) (h : n < s.fns.length) : (s.modFn n f).fn n = f (s.fn n) := getD_modify _ _ _ _ h

/-- What an update of functions does not change reads as before in every function. -/
theorem State.modFn_keeps {β : Type} (g : Fn → β) (f : Fn → Fn) (h : ∀ F, g (f F) = g F) (s : State) (n m : Nat) :
    g ((s.modFn n f).fn m) = g (s.fn m) := by
  unfold State.modFn State.fn
  simp only [List.getD_eq_getElem?_getD, List.getElem?_modify]
  cases s.fns[m]? <;> by_cases e : n = m <;> simp [e, h]

theorem State.evtTail_modVec (s : State) (n v : Nat) (f : Vec → Vec) (m : Nat) : ((s.modVec n v f).fn m).evtTail = (s.fn m).evtTail :=
  State.modFn_keeps Fn.evtTail _ (fun F => by split <;> rfl) _ _ _

theorem State.evtTail_countVec (s : State) (n v m : Nat) : ((s.countVec n v).fn m).evtTail = (s.fn m).evtTail := by
  have hsend (s : State) : ((s.sendVec n v).fn m).evtTail = (s.fn m).evtTail := by
    unfold State.sendVec
    split
    · exact s.evtTail_modVec n v _ m
    · exact s.evtTail_modVec n v (fun x => { x with pend := 0 }) m
  have htrig (s : State) : ((s.countTrigger n v).fn m).evtTail = (s.fn m).evtTail := by
    unfold State.countTrigger
    simp only
    split
    · exact hsend s
    · rfl
  unfold State.countVec
  refine (htrig _).trans ?_
  split
  · exact s.evtTail_modVec _ _ _ _
  · exact s.evtTail_modVec n v (fun x => { x with pend := x.pend + 1, t0 := _, active := x.time }) m

/-- A run of bytes read where it has just been written. -/
theorem Memory.readRun_writeRun {m : Memory} (h : m.wf = true) (a : Nat) (bs : List Byte) : (m.writeRun a bs).readRun a bs.length = bs := by
  refine List.ext_getElem (Memory.length_readRun _ _ _) fun i hi _ => ?_
  rw [Memory.length_readRun] at hi
  have := Memory.getD_readRun (Memory.wf_writeRun h a bs) a bs.length i hi
  rw [Memory.read_writeRun, if_pos (by omega)] at this
  simpa [List.getD_eq_getElem?_getD, hi, Memory.length_readRun] using this

end Sys2Proof.Machine
end

section
/-!
PROOF of O46, continued: the leader's lease and the event of its takeover (spec/01 R29 to R31; spec/02 R50).
-/

namespace Sys2Proof.Machine

/-! ### The ring of function 0 -/

/-- Where function 0's next event goes. -/
def State.nextEvent (s : State) : Loc := ⟨true, (s.fn 0).evtAddr + 32 * ((s.fn 0).evtTail.toNat % 4096)⟩

/-- A disabled ring drops the event (R50). -/
theorem State.postRing_of_disabled (s : State) (n code fn q part : Nat) (detail : List Byte) (h : (s.fn n).evtAddr = 0) :
    s.postRing n code fn q part detail = s := if_pos h

/-- A ring that is enabled and not full stores the event, clears the count of the lost ones, and counts on its vector (R50). -/
theorem State.postRing_zero (s : State) (code fn q part : Nat) (detail : List Byte) (h : (s.fn 0).evtAddr ≠ 0)
    (hfull : ((s.fn 0).evtTail - (s.fn 0).evtHead).toNat ≠ 4096) : s.postRing 0 code fn q part detail =
      ((s.physWrite s.nextEvent (eventBytes code fn q part (s.fn 0).lost s.ptime detail)).modFn 0 fun f =>
        { f with evtTail := f.evtTail + 1, lost := 0 }).countVec 0 0 := by
  unfold State.postRing
  exact (if_neg h).trans (if_neg hfull)

/-- The machine without what events and the restart of commands may change. -/
def State.offEvents (s : State) : State := s.core.offQueues

theorem State.offEvents_of_offQueues {s t : State} (h : t.offQueues = s.offQueues) : t.offEvents = s.offEvents :=
  congrArg State.core h

theorem State.offEvents_of_core {s t : State} (h : t.core = s.core) : t.offEvents = s.offEvents := congrArg State.offQueues h

theorem State.offQueues_modFn (s : State) (n : Nat) (f : Fn → Fn) : (s.modFn n f).offQueues = s.offQueues := rfl

@[simp] theorem State.offEvents_postRing (s : State) (n code fn q part : Nat) (detail : List Byte) :
    (s.postRing n code fn q part detail).offEvents = s.offEvents := by
  by_cases h1 : (s.fn n).evtAddr = 0
  · rw [s.postRing_of_disabled _ _ _ _ _ _ h1]
  unfold State.postRing
  dsimp only
  rw [if_neg h1]
  by_cases h2 : ((s.fn n).evtTail - (s.fn n).evtHead).toNat = if n = 0 then 4096 else 128
  · rw [if_pos h2]
    rfl
  · rw [if_neg h2, State.offEvents_of_offQueues ((State.offQueues_countVec _ _ _).trans (State.offQueues_modFn _ _ _))]
    exact State.offEvents_of_core (s.core_physWrite _ _)

@[simp] theorem State.offEvents_redoCommands (s : State) : s.redoCommands.offEvents = s.offEvents :=
  State.offEvents_of_offQueues s.offQueues_redoCommands

theorem State.host_of_offQueues {s t : State} (h : t.offQueues = s.offQueues) : t.host = s.host := by
  simpa [State.offQueues] using congrArg State.host h

/-- An event in function 0's ring as host memory holds it then (R50). -/
theorem State.host_postRing_zero (s : State) (code fn q part : Nat) (detail : List Byte) (h : (s.fn 0).evtAddr ≠ 0)
    (hfull : ((s.fn 0).evtTail - (s.fn 0).evtHead).toNat ≠ 4096) : (s.postRing 0 code fn q part detail).host =
      s.host.writeRun s.nextEvent.addr (eventBytes code fn q part (s.fn 0).lost s.ptime detail) := by
  rw [s.postRing_zero _ _ _ _ _ h hfull, State.host_of_offQueues (State.offQueues_countVec _ _ _)]
  rfl

theorem State.evtTail_postRing_zero (s : State) (code fn q part : Nat) (detail : List Byte) (h : (s.fn 0).evtAddr ≠ 0)
    (hfull : ((s.fn 0).evtTail - (s.fn 0).evtHead).toNat ≠ 4096) (hn : 0 < s.fns.length) :
    ((s.postRing 0 code fn q part detail).fn 0).evtTail = (s.fn 0).evtTail + 1 := by
  have hfns (l : Loc) (bs : List Byte) : (s.physWrite l bs).fns = s.fns := by
    simpa [State.core] using congrArg State.fns (s.core_physWrite l bs)
  rw [s.postRing_zero _ _ _ _ _ h hfull, State.evtTail_countVec, State.fn_modFn _ _ (by rw [hfns]; exact hn), State.fn, hfns]
  rfl

theorem State.evtTail_redoCommands (s : State) (n : Nat) : (s.redoCommands.fn n).evtTail = (s.fn n).evtTail := by
  rw [State.fn, State.fns_redoCommands, State.fn]
  simp only [List.getD_eq_getElem?_getD, List.getElem?_map]
  cases s.fns[n]? <;> rfl

theorem length_eventBytes (code fn q part lost : Nat) (time : Word) (detail : List Byte) : (eventBytes code fn q part lost time detail).length = 32 := by
  simp [eventBytes, leBytes]

/-! ### Renewal (R30) -/

/-- A lease runs for 8 ms (R30). -/
theorem State.leaseNow_eq (s : State) (e : BitVec 32) (h : BitVec 2) : s.leaseNow e h = ⟨e, h, s.ptime + 14400000⟩ := by
  have : leaseTerm = 14400000 := rfl
  rw [State.leaseNow, this]
  rfl

/-- The cells after a renewal (R30, R31). -/
theorem leases_renewed (s : State) (d : Fin 4) :
    ((s.wakeCtrls.writeLeases s.epoch (BitVec.ofNat 2 s.leader)).schedule leasePeriod .leaseRenewal {}).leases[d] =
      if s.leases[d].epoch.toNat ≤ s.epoch.toNat then s.leaseNow s.epoch (BitVec.ofNat 2 s.leader) else s.leases[d] := by
  simp only [State.schedule_leases]
  exact s.wakeCtrls.leases_writeLeases s.epoch (BitVec.ofNat 2 s.leader) d

theorem leaseRenewal_of_live (s : State) (h : s.leaderLive = true) :
    exec .leaseRenewal s = .next ((s.wakeCtrls.writeLeases s.epoch (BitVec.ofNat 2 s.leader)).schedule leasePeriod .leaseRenewal {}) :=
  congrArg Host.Outcome.next (if_pos h)

/-! ### A takeover (R30, R31) -/

/-- The event of a takeover (R29, R50): the die, the epoch, and what boot found wrong. -/
def State.leaderChange (s : State) (d : Nat) (e : BitVec 32) : List Byte :=
  leBytes 1 d ++ List.replicate 3 0 ++ leBytes 4 e.toNat ++ s.boot.fieldFail

/-- Die d leads in an epoch, and will renew its lease. -/
def State.lead (s : State) (d : Nat) (e : BitVec 32) : State :=
  State.schedule { s with leader := d, epoch := e } leasePeriod .leaseRenewal {}

/-- The machine whose cells and leader are die d's, before the event. -/
def State.leaseTaken (s : State) (d : Nat) (e : BitVec 32) : State := (s.writeLeases e (BitVec.ofNat 2 d)).lead d e

theorem eventBytes_leaderChange (s : State) (d : Nat) (e : BitVec 32) :
    eventBytes 0x80 0 0 0 (s.fn 0).lost s.ptime (s.leaderChange d e) = [0x80, 0, 0, 0, 0, 0] ++ leBytes 2 (s.fn 0).lost ++ leBytes 8 s.ptime.toNat ++
      (leBytes 1 d ++ [0, 0, 0] ++ leBytes 4 e.toNat ++ s.boot.fieldFail ++ List.replicate 16 0).take 16 := by
  have hhead : leBytes 2 0x80 ++ leBytes 2 0 ++ leBytes 1 0 ++ leBytes 1 0 = [0x80, 0, 0, 0, 0, 0] := by decide
  rw [eventBytes, State.leaderChange, hhead]
  rfl

section
variable (s : State) (d : Nat) (e : BitVec 32)

theorem State.fns_lead : (s.lead d e).fns = s.fns := rfl
theorem State.host_lead : (s.lead d e).host = s.host := rfl
theorem State.ptime_lead : (s.lead d e).ptime = s.ptime := rfl
theorem State.leases_lead : (s.lead d e).leases = s.leases := rfl
theorem State.leader_lead : (s.lead d e).leader = d := rfl
theorem State.epoch_lead : (s.lead d e).epoch = e := rfl

theorem State.fns_leaseTaken : (s.leaseTaken d e).fns = s.fns := by
  rw [State.leaseTaken, State.fns_lead, State.writeLeases_frame]

theorem State.fn_leaseTaken (n : Nat) : (s.leaseTaken d e).fn n = s.fn n := by
  rw [State.fn, State.fns_leaseTaken, State.fn]

theorem State.host_leaseTaken : (s.leaseTaken d e).host = s.host := by
  rw [State.leaseTaken, State.host_lead, State.writeLeases_frame]

theorem State.ptime_leaseTaken : (s.leaseTaken d e).ptime = s.ptime := by
  rw [State.leaseTaken, State.ptime_lead, State.writeLeases_frame]

theorem State.nextEvent_leaseTaken : (s.leaseTaken d e).nextEvent = s.nextEvent := by
  rw [State.nextEvent, State.fn_leaseTaken, State.nextEvent]

theorem State.leases_leaseTaken (h : ∀ k : Fin 4, s.leases[k].epoch.toNat ≤ e.toNat) (k : Fin 4) :
    (s.leaseTaken d e).leases[k] = ⟨e, BitVec.ofNat 2 d, s.ptime + 14400000⟩ := by
  rw [← s.leaseNow_eq, State.leaseTaken]
  simp only [State.leases_lead]
  exact (s.leases_writeLeases e _ k).trans (if_pos (h k))

/-- The machine after a takeover's event and before its commands are taken anew. -/
def State.takenOver : State := (s.leaseTaken d e).postRing 0 0x80 0 0 0 (s.leaderChange d e)

/-- The takeover's event in host memory (R50). -/
theorem State.host_takenOver (h : (s.fn 0).evtAddr ≠ 0) (hfull : ((s.fn 0).evtTail - (s.fn 0).evtHead).toNat ≠ 4096) :
    (s.takenOver d e).host = s.host.writeRun s.nextEvent.addr (eventBytes 0x80 0 0 0 (s.fn 0).lost s.ptime (s.leaderChange d e)) := by
  rw [← s.fn_leaseTaken d e] at h hfull
  rw [State.takenOver, State.host_postRing_zero _ _ _ _ _ _ h hfull, State.host_leaseTaken, State.nextEvent_leaseTaken, State.fn_leaseTaken,
    State.ptime_leaseTaken]

/-- The takeover's event as the host reads it (R50). -/
theorem State.physRead_takeover (hwf : s.memWf) (h : (s.fn 0).evtAddr ≠ 0) (hfull : ((s.fn 0).evtTail - (s.fn 0).evtHead).toNat ≠ 4096) :
    (s.takenOver d e).redoCommands.physRead s.nextEvent 32 = eventBytes 0x80 0 0 0 (s.fn 0).lost s.ptime (s.leaderChange d e) := by
  obtain ⟨-, hhost, -⟩ := hwf
  rw [State.physRead, if_pos (show s.nextEvent.host = true from rfl), State.host_of_offQueues (State.offQueues_redoCommands _), s.host_takenOver d e h hfull,
    ← length_eventBytes 0x80 0 0 0 (s.fn 0).lost s.ptime (s.leaderChange d e)]
  exact Memory.readRun_writeRun hhost _ _

theorem State.host_takenOver_of_disabled (h : (s.fn 0).evtAddr = 0) : (s.takenOver d e).host = s.host := by
  rw [State.takenOver, State.postRing_of_disabled _ _ _ _ _ _ _ (by rw [State.fn_leaseTaken]; exact h), State.host_leaseTaken]

theorem State.evtTail_takenOver (hn : 0 < s.fns.length) (h : (s.fn 0).evtAddr ≠ 0) (hfull : ((s.fn 0).evtTail - (s.fn 0).evtHead).toNat ≠ 4096) :
    ((s.takenOver d e).fn 0).evtTail = (s.fn 0).evtTail + 1 := by
  rw [← s.fn_leaseTaken d e] at h hfull
  rw [State.takenOver, State.evtTail_postRing_zero _ _ _ _ _ _ h hfull (by rw [State.fns_leaseTaken]; exact hn), State.fn_leaseTaken]

theorem State.offEvents_takeover : (s.takenOver d e).redoCommands.offEvents = (s.leaseTaken d e).offEvents := by
  rw [State.offEvents_redoCommands, State.takenOver, State.offEvents_postRing]

end

section
variable {s t : State} (h : t.offEvents = s.offEvents)
include h

theorem State.leases_of_offEvents : t.leases = s.leases := by
  simpa [State.offEvents, State.core, State.offQueues] using congrArg State.leases h
theorem State.leader_of_offEvents : t.leader = s.leader := by
  simpa [State.offEvents, State.core, State.offQueues] using congrArg State.leader h
theorem State.epoch_of_offEvents : t.epoch = s.epoch := by
  simpa [State.offEvents, State.core, State.offQueues] using congrArg State.epoch h

end

/-- Where every cell takes the new epoch the controller holds the lease (R30). -/
theorem leaseTakeover_of_all (s : State) (d : Nat) (e : BitVec 32) (hd : d < 4) (hn : s.arg.n = d) (hmay : s.mayTakeLease d = true)
    (he : s.topEpoch + 1 = e) (hall : ∀ k : Fin 4, s.leases[k].epoch.toNat ≤ e.toNat) :
    exec .leaseTakeoverAttempt s = .next (s.takenOver d e).redoCommands := by
  have hcell (k : Nat) (hk : k < 4) : ((s.writeLeases e (BitVec.ofNat 2 d)).lease k).epoch = e := by
    have := s.leases_writeLeases e (BitVec.ofNat 2 d) ⟨k, hk⟩
    rw [if_pos (hall ⟨k, hk⟩)] at this
    rw [State.lease, vector_getD _ _ _ hk]
    exact congrArg Lease.epoch this
  have hcount : 3 ≤ ((List.range 4).filter fun k => decide (((s.writeLeases e (BitVec.ofNat 2 d)).lease k).epoch = e)).length := by
    rw [List.filter_eq_self.2 fun k hk => decide_eq_true (hcell k (List.mem_range.1 hk))]
    decide
  subst hn he
  have hb : (s.writeLeases (s.topEpoch + 1) (BitVec.ofNat 2 s.arg.n)).boot = s.boot := by rw [State.writeLeases_frame]
  exact congrArg Host.Outcome.next ((if_pos ⟨hd, hmay⟩).trans (if_pos hcount))

end Sys2Proof.Machine

namespace Sys2Proof.Proofs

open Sys2Proof Sys2Proof.Machine Sys2Proof.Claims

theorem leases : Leases := by
  refine fun s => ⟨fun hlive => ⟨_, leaseRenewal_of_live s hlive, fun d hd => ?_, fun d hd => ?_, ?_⟩,
    fun hlive => congrArg Host.Outcome.next (if_neg (Bool.eq_false_iff.1 hlive)), ?_,
    fun hmay => congrArg Host.Outcome.next (if_neg fun h => Bool.eq_false_iff.1 hmay h.2)⟩
  · rw [leases_renewed, if_pos hd, State.leaseNow_eq]
  · rw [leases_renewed, if_neg (Nat.not_le.2 hd)]
  · rw [State.agenda_schedule, State.writeLeases_frame]
    rfl
  · intro d e hd hn hmay hlt ⟨k, hk⟩
    have hnat (j : Fin 4) : s.leases[j].epoch.toNat ≤ s.leases[k].epoch.toNat := by
      have := hlt j
      have h1 : (1 : BitVec 32).toNat = 1 := rfl
      rw [← hk, BitVec.toNat_add, h1] at this
      omega
    have he : s.topEpoch + 1 = e := by rw [s.topEpoch_eq _ k rfl hnat, hk]
    refine ⟨_, leaseTakeover_of_all s d e hd hn hmay he fun j => Nat.le_of_lt (hlt j), ?_⟩
    have hoff := s.offEvents_takeover d e
    refine ⟨(State.leader_of_offEvents hoff).trans (State.leader_lead _ _ _), (State.epoch_of_offEvents hoff).trans (State.epoch_lead _ _ _), fun j => ?_, fun hwf hlen hon hfull => ⟨?_, ?_⟩, fun hoff => ?_⟩
    · simp only [State.leases_of_offEvents hoff]
      exact s.leases_leaseTaken d e (fun k => Nat.le_of_lt (hlt k)) j
    · exact (State.evtTail_redoCommands _ 0).trans (s.evtTail_takenOver d e hlen hon hfull)
    · exact (s.physRead_takeover d e hwf hon hfull).trans (eventBytes_leaderChange s d e)
    · rw [State.host_of_offQueues (State.offQueues_redoCommands _), s.host_takenOver_of_disabled d e hoff]

end Sys2Proof.Proofs
end

section
/-!
PROOF of O46, continued: scrubbing, retirement, the quiescence counter and time slices (spec/09 R187, R188; spec/05 R116; spec/02 R44).
-/

namespace Sys2Proof.Machine

/-! ### Errors in the pages of a sheet (R58) -/

theorem State.failSheet_of_none (s : State) (p : Nat) (h : (s.part p).sheet = none) : s.failSheet p = s := by
  unfold State.failSheet; rw [h]

theorem State.failSheet_of_some (s : State) (p : Nat) (r : CmdRef) (h : (s.part p).sheet = some r) :
    s.failSheet p = settleStops ((s.modPart p fun P => { P with sheet := none }).complete r 6) p := by
  unfold State.failSheet; rw [h]

/-- One partition's step of a scan for errors in sheets. -/
def State.sheetError (s : State) (p : Nat) : State := if (s.part p).sheet.isSome && s.sheetPoison p then s.failSheet p else s

theorem State.sheetErrors_eq (s : State) : s.sheetErrors = (List.range s.parts.length).foldl State.sheetError s := rfl

theorem State.sheetError_of_none (s : State) (p : Nat) (h : (s.part p).sheet = none) : s.sheetError p = s := by
  rw [State.sheetError, h]; rfl

/-- Partitions that write no sheet are passed over. -/
theorem State.foldl_sheetError_of_none (s : State) (l : List Nat) (h : ∀ p ∈ l, (s.part p).sheet = none) : l.foldl State.sheetError s = s := by
  induction l with
  | nil => rfl
  | cons p ps ih =>
    rw [List.foldl_cons, s.sheetError_of_none p (h p List.mem_cons_self), ih fun q hq => h q (List.mem_cons_of_mem _ hq)]

/-- Where no stop is pending, a sheet that ends leaves the other partitions as they were. -/
theorem State.part_sheetError_ne (s : State) {p q : Nat} (hs : (s.part p).stops = []) (h : q ≠ p) : (s.sheetError p).part q = s.part q := by
  unfold State.sheetError
  split
  · cases hr : (s.part p).sheet with
    | none => rw [s.failSheet_of_none p hr]
    | some r =>
      have hc := (s.modPart p fun P => { P with sheet := none }).offCommand_complete r 6
      have hstops : (((s.modPart p fun P => { P with sheet := none }).complete r 6).part p).stops = [] := by
        rw [State.part_of_offCommand hc]
        refine (State.modPart_keeps Partition.stops _ (fun P => ?_) s p p).trans hs
        rfl
      rw [s.failSheet_of_some p r hr, settleStops, hstops, List.foldl_nil, State.part_modPart_ne _ _ h, State.part_of_offCommand hc,
        State.part_modPart_ne _ _ h]
  · rfl

/-- The scan where one partition alone writes a sheet. -/
theorem State.sheetErrors_of_one (s : State) (p : Nat) (hp : p < s.parts.length) (hs : (s.part p).stops = []) (ho : ∀ q, q ≠ p → (s.part q).sheet = none) :
    s.sheetErrors = s.sheetError p := by
  obtain ⟨a, b, hab⟩ := List.append_of_mem (List.mem_range.2 hp)
  have hnd : (a ++ p :: b).Nodup := hab ▸ List.nodup_range
  obtain ⟨hpb, -⟩ := List.nodup_cons.1 (List.nodup_append.1 hnd).2.1
  have hpa : p ∉ a := fun h => (List.nodup_append.1 hnd).2.2 p h p List.mem_cons_self rfl
  rw [State.sheetErrors_eq, hab, List.foldl_append, s.foldl_sheetError_of_none a fun q hq => ho q fun e => hpa (e ▸ hq), List.foldl_cons]
  refine State.foldl_sheetError_of_none _ _ fun q hq => ?_
  have hqp : q ≠ p := fun e => hpb (e ▸ hq)
  rw [s.part_sheetError_ne hs hqp, ho q hqp]

/-- The 32-byte unit n of HBM cannot be corrected (R187). -/
def State.poisoned (s : State) (n : Nat) : State := { s with poison := n :: s.poison.filter (· ≠ n) }

theorem hbmScrub_uncorrectable (s : State) (hq : s.arg.q = 1) (hm : s.arg.m ≠ 1) :
    exec .hbmScrub s = .next (s.poisoned s.arg.n).sheetErrors := by
  have he : s.eccError = (s.poisoned s.arg.n).sheetErrors := by
    unfold State.eccError
    simp only [hq]
    exact if_neg hm
  have h0 : s.arg.q ≠ 0 := by omega
  exact congrArg Host.Outcome.next ((if_neg h0).trans he)

theorem hbmScrub_error (s : State) (h : s.arg.q ≠ 0) : exec .hbmScrub s = .next s.eccError := congrArg Host.Outcome.next (if_neg h)

theorem hbmScrub_period (s : State) (h : s.arg.q = 0) :
    exec .hbmScrub s = .next ((s.noteCorrected s.arg.nats).schedule dayCycles .hbmScrub {}) := congrArg Host.Outcome.next (if_pos h)

theorem State.eccError_corrected (s : State) (h : s.arg.q = 2) : s.eccError = s.noteCorrected [s.arg.n] := by
  unfold State.eccError; simp only [h]

theorem State.eccError_tile (s : State) (h : s.arg.q = 3) : s.eccError = s.modPart s.arg.p fun P => { P with tileErrs := P.tileErrs + 1 } := by
  unfold State.eccError; simp only [h]

/-! ### Retirement (R157, R188) -/

theorem State.retired_retireFabric (s : State) (routers ports seqs : List Nat) : (s.retireFabric routers ports seqs).retired =
    { s.retired with routers := s.retired.routers ++ routers.filter (fun k => !s.retired.routers.contains k)
                     ports := s.retired.ports ++ ports.filter (fun k => !s.retired.ports.contains k)
                     sequencers := s.retired.sequencers ++ seqs.filter (fun k => !s.retired.sequencers.contains k)
                     generation := s.retired.generation + 1, older := !s.retired.older } := by
  unfold State.retireFabric
  rw [State.retired_of_core (State.core_regenerateAll _)]
  rfl

/-- What is to be retired is in the record after it (R29). -/
theorem mem_retiredList {old new : List Nat} {k : Nat} (h : k ∈ new) : k ∈ old ++ new.filter fun k => !old.contains k := by
  by_cases ho : k ∈ old
  · exact List.mem_append_left _ ho
  · exact List.mem_append_right _ (List.mem_filter.2 ⟨h, by simp [ho]⟩)

theorem mem_dieRouters {d j : Nat} (h : j < 64) : 64 * d + j ∈ (dieFabric d).1 := List.mem_map.2 ⟨j, List.mem_range.2 h, rfl⟩

theorem mem_diePorts {d j : Nat} (h : j < 8) : 8 * d + j ∈ (dieFabric d).2.1 :=
  List.mem_append_left _ (List.mem_map.2 ⟨j, List.mem_range.2 h, rfl⟩)

theorem mem_diePortsOut {d j : Nat} (h : j < 2) : 32 + 2 * d + j ∈ (dieFabric d).2.1 := by
  refine List.mem_append_right _ ?_
  obtain rfl | rfl : j = 0 ∨ j = 1 := by omega
  · simp
  · simp; omega

theorem dieSequencers_eq (d : Nat) : (dieFabric d).2.2 = (dieFabric d).2.1 := rfl

theorem pageRetire_router (s : State) (hq : s.arg.q = 1) (hn : s.arg.n < 256) : exec .pageRetire s = .next (s.retireFabric [s.arg.n] [] []) :=
  congrArg Host.Outcome.next ((if_pos hq).trans (if_pos hn))

theorem pageRetire_sequencer (s : State) (hq : s.arg.q = 2) (hn : s.arg.n < 40) : exec .pageRetire s = .next (s.retireFabric [] [] [s.arg.n]) :=
  congrArg Host.Outcome.next ((if_neg (by omega)).trans ((if_pos hq).trans (if_pos hn)))

theorem pageRetire_die (s : State) (hq : s.arg.q = 3) (hn : s.arg.n < 4) :
    exec .pageRetire s = .next (s.retireFabric (dieFabric s.arg.n).1 (dieFabric s.arg.n).2.1 (dieFabric s.arg.n).2.2) :=
  congrArg Host.Outcome.next ((if_neg (by omega)).trans ((if_neg (by omega)).trans ((if_pos hq).trans (if_pos hn))))

/-- A worn page goes at once, or at the next fix of an owner that does not stand still (R188). -/
theorem pageRetire_page (s : State) (hq : s.arg.q = 0) : exec .pageRetire s = .next (if !s.worn s.arg.n then s
    else if s.ownersOf s.arg.n = [] then s.writeField { s.retired with pages := s.retired.pages ++ [s.arg.n] }
    else match (s.ownersOf s.arg.n).find? fun p => !(s.part p).still with
      | none => retirePage s s.arg.n
      | some p => s.modPart p fun P => { P with retiring := P.retiring ++ [s.arg.n] }) :=
  congrArg Host.Outcome.next ((if_neg (by omega)).trans ((if_neg (by omega)).trans (if_neg (by omega))))

theorem State.pageFree_of_retired (s : State) {k : Nat} (h : k ∈ s.retired.pages) : s.pageFree k = false := by
  simp [State.pageFree, h]

/-! ### The quiescence counter (R116) -/

/-- The counter advances (R116). -/
def State.qcntNext (s : State) : State := State.releaseQuarantine { s with qcnt := s.qcnt + 1, qLast := s.cycle, qOp := s.opCtr }

theorem qcntAdvance_quiesced (s : State) (h : s.quiesced = true) : exec .qcntAdvance s = .next (s.qcntNext.schedule 4096 .qcntAdvance {}) :=
  congrArg (fun t : State => Host.Outcome.next (t.schedule 4096 .qcntAdvance {})) (if_pos h)

theorem qcntAdvance_busy (s : State) (h : s.quiesced = false) : exec .qcntAdvance s = .next (s.schedule 4096 .qcntAdvance {}) :=
  congrArg (fun t : State => Host.Outcome.next (t.schedule 4096 .qcntAdvance {})) (if_neg (Bool.eq_false_iff.1 h))

/-! ### Time slices (R44) -/

/-- A request for pre-emption that need not wait starts its bound (R86). -/
theorem State.requestPreempt_now (s : State) (p kind : Nat) (l : Launch) (hl : (s.part p).launch = some l) (hn : l.nonPre = false)
    (hr : (s.part p).run = .running) (hb : (s.runBinding p).isSome = true) (hp : (s.part p).preempting = false) :
    s.requestPreempt p kind = (s.modPart p fun P => { P with stops := P.stops ++ [(.preempt kind, 0)] }).startBound p := by
  have hwait : (s.part p).waits = false := by simp [Partition.waits, hr]
  have hbn : (s.runBinding p).isNone = false := by simpa [Option.isSome_iff_ne_none] using hb
  unfold State.requestPreempt
  dsimp only
  rw [hl]
  simp [hp, hbn, hr, hn, hwait]

theorem quantumExpiry_due (s : State) {f : Nat} (h : s.sliceDue s.arg.p = some f) : exec .quantumExpiry s = .next (s.requestPreempt s.arg.p (2 + f)) := by
  show execQuantumExpiry s = _
  unfold execQuantumExpiry
  rw [h]

theorem quantumExpiry_idle (s : State) (h : s.sliceDue s.arg.p = none) : exec .quantumExpiry s = .next s := by
  show execQuantumExpiry s = _
  unfold execQuantumExpiry
  rw [h]

/-- The stops of a partition whose pre-emptions' bounds start now. -/
theorem State.stops_startBound (s : State) (p : Nat) (l : Launch) (hl : (s.part p).launch = some l) (hp : (s.part p).preempting = true) (hlt : p < s.parts.length) :
    ((s.startBound p).part p).stops = (s.part p).stops.map fun x => match x.1 with | .preempt k => (.preempt k, s.cycle + l.bound * Config.usCycles) | _ => x := by
  unfold State.startBound
  rw [hl]
  dsimp only
  rw [if_pos hp]
  exact congrArg Partition.stops (s.part_modPart p _ hlt)

theorem State.lt_of_launch (s : State) {p : Nat} {l : Launch} (h : (s.part p).launch = some l) : p < s.parts.length := by
  by_contra hp
  rw [s.part_of_le (Nat.le_of_not_lt hp)] at h
  cases h

/-- A pre-emption that is requested now stands among the stops with its bound (R86). -/
theorem State.mem_stops_startBound (s : State) {p : Nat} (l : Launch) (hl : (s.part p).launch = some l) (kind : Nat) :
    (.preempt kind, s.cycle + l.bound * 1800) ∈
      (((s.modPart p fun P => { P with stops := P.stops ++ [(.preempt kind, 0)] }).startBound p).part p).stops := by
  have hlt := s.lt_of_launch hl
  have hpart := s.part_modPart p (fun P => { P with stops := P.stops ++ [(.preempt kind, 0)] }) hlt
  rw [State.stops_startBound _ p l (by rw [hpart]; exact hl) (by rw [hpart]; simp [Partition.preempting]) (by simpa using hlt), hpart]
  exact List.mem_map.2 ⟨(.preempt kind, 0), List.mem_append_right _ (List.mem_singleton.2 rfl), rfl⟩

end Sys2Proof.Machine

namespace Sys2Proof.Proofs

open Sys2Proof Sys2Proof.Machine Sys2Proof.Claims

theorem hbmScrubbing (s : State) :
    (s.arg.q = 1 → s.arg.m ≠ 1 → (∀ p, (s.part p).sheet = none) → exec .hbmScrub s = .next (s.poisoned s.arg.n)) ∧
    (∀ p r, s.arg.q = 1 → s.arg.m ≠ 1 → p < s.parts.length → (s.part p).sheet = some r → (s.part p).stops = [] → (∀ q, q ≠ p → (s.part q).sheet = none) →
      exec .hbmScrub s = .next (if (s.poisoned s.arg.n).sheetPoison p = true then
        settleStops (((s.poisoned s.arg.n).modPart p fun P => { P with sheet := none }).complete r 6) p else s.poisoned s.arg.n)) := by
  refine ⟨fun hq hm hs => ?_, fun p r hq hm hp hr hs ho => ?_⟩
  · rw [hbmScrub_uncorrectable s hq hm, State.sheetErrors_eq, State.foldl_sheetError_of_none]
    exact fun p _ => hs p
  · have hr' : ((s.poisoned s.arg.n).part p).sheet = some r := hr
    rw [hbmScrub_uncorrectable s hq hm, State.sheetErrors_of_one (s.poisoned s.arg.n) p hp hs ho, State.sheetError, hr', Option.isSome_some,
      Bool.true_and, State.failSheet_of_some _ p r hr']

theorem pageRetirement (s : State) (hq : s.arg.q = 0) :
    (s.worn s.arg.n = true → s.ownersOf s.arg.n = [] →
      exec .pageRetire s = .next (s.writeField { s.retired with pages := s.retired.pages ++ [s.arg.n] })) ∧
    (∀ p, s.worn s.arg.n = true → (s.ownersOf s.arg.n).find? (fun p => !(s.part p).still) = some p → p < s.parts.length ∧
      exec .pageRetire s = .next (s.modPart p fun P => { P with retiring := P.retiring ++ [s.arg.n] })) ∧
    (s.worn s.arg.n = true → s.ownersOf s.arg.n ≠ [] → (∀ p ∈ s.ownersOf s.arg.n, (s.part p).still = true) →
      exec .pageRetire s = .next (retirePage s s.arg.n)) ∧
    (s.worn s.arg.n = false → exec .pageRetire s = .next s) := by
  rw [pageRetire_page s hq]
  refine ⟨fun hw ho => ?_, fun p hw hf => ?_, fun hw ho hs => ?_, fun hw => ?_⟩
  · simp only [hw, ho, Bool.not_true, Bool.false_eq_true, if_false, if_true]
  · have hmem := List.mem_of_find?_eq_some hf
    have ho : s.ownersOf s.arg.n ≠ [] := List.ne_nil_of_mem hmem
    refine ⟨List.mem_range.1 (List.mem_filter.1 hmem).1, ?_⟩
    simp only [hw, ho, hf, Bool.not_true, Bool.false_eq_true, if_false]
  · have hf : (s.ownersOf s.arg.n).find? (fun p => !(s.part p).still) = none :=
      List.find?_eq_none.2 fun p hp => by simp [hs p hp]
    simp only [hw, ho, hf, Bool.not_true, Bool.false_eq_true, if_false]
  · simp only [hw, Bool.not_false, if_true]

theorem housekeeping : Housekeeping := by
  intro s
  obtain ⟨hclean, hsheet⟩ := hbmScrubbing s
  refine ⟨fun hq hm hs => ⟨_, hclean hq hm hs, ?_, fun u hu => ?_, rfl, ?_⟩, hsheet, fun hq => ⟨_, hbmScrub_error s (by omega), ?_, ?_⟩,
    fun hq hp => ⟨_, hbmScrub_error s (by omega), ?_⟩, fun hq => ⟨_, hbmScrub_period s hq, fun k hk => ?_, fun x hx hc => ?_, rfl⟩,
    fun hq hn => ⟨_, pageRetire_router s hq hn, ?_⟩, fun hq hn => ⟨_, pageRetire_sequencer s hq hn, ?_⟩, fun hq hn => ⟨_, pageRetire_die s hq hn, ?_⟩,
    fun hq => ?_, ?_, ?_⟩
  · exact List.mem_cons_self
  · by_cases e : u = s.arg.n
    · exact e ▸ List.mem_cons_self
    · exact List.mem_cons_of_mem _ (List.mem_filter.2 ⟨hu, decide_eq_true e⟩)
  · exact ⟨⟨fun _ => rfl, fun _ => rfl, fun _ => rfl, fun _ => rfl, fun _ _ => rfl⟩, fun _ _ _ _ => rfl⟩
  · rw [s.eccError_corrected hq]
    exact List.mem_append_right _ (List.mem_singleton.2 rfl)
  · rw [s.eccError_corrected hq]
    rfl
  · rw [s.eccError_tile hq]
    exact congrArg Partition.tileErrs (s.part_modPart _ _ hp)
  · exact List.mem_append_right _ (List.mem_map.2 ⟨k, hk, rfl⟩)
  · exact List.mem_append_left _ (List.mem_filter.2 ⟨hx, decide_eq_true hc⟩)
  · rw [State.retired_retireFabric]
    exact ⟨mem_retiredList (List.mem_singleton.2 rfl), fun j hj => List.mem_append_left _ hj, List.append_nil _, List.append_nil _, rfl⟩
  · rw [State.retired_retireFabric]
    exact ⟨mem_retiredList (List.mem_singleton.2 rfl), fun j hj => List.mem_append_left _ hj, List.append_nil _, List.append_nil _⟩
  · rw [State.retired_retireFabric, dieSequencers_eq]
    exact ⟨fun j hj => mem_retiredList (mem_dieRouters hj), fun j hj => ⟨mem_retiredList (mem_diePorts hj), mem_retiredList (mem_diePorts hj)⟩,
      fun j hj => ⟨mem_retiredList (mem_diePortsOut hj), mem_retiredList (mem_diePortsOut hj)⟩⟩
  · obtain ⟨hfree, hwait, hnow, hgood⟩ := pageRetirement s hq
    refine ⟨fun hw ho => ⟨_, hfree hw ho, ?_, State.pageFree_of_retired _ ?_, rfl⟩, fun p hw hf => ?_, hnow, hgood⟩
    · exact List.mem_append_right _ (List.mem_singleton.2 rfl)
    · exact List.mem_append_right _ (List.mem_singleton.2 rfl)
    · obtain ⟨hp, hx⟩ := hwait p hw hf
      exact ⟨_, hx, congrArg Partition.retiring (s.part_modPart _ _ hp), rfl, rfl⟩
  · cases hqu : s.quiesced with
    | true =>
      refine ⟨_, qcntAdvance_quiesced s hqu, rfl, fun _ => ⟨rfl, rfl, fun x hx hlt => ?_⟩, fun h => absurd h (by decide)⟩
      exact List.mem_append_left _ (List.mem_filter.2 ⟨hx, decide_eq_true hlt⟩)
    | false => exact ⟨_, qcntAdvance_busy s hqu, rfl, fun h => absurd h (by decide), fun _ => ⟨rfl, rfl⟩⟩
  · refine ⟨fun f l hf hl hn hr hb hp => ⟨_, quantumExpiry_due s hf, ?_⟩, fun hf => ?_⟩
    · rw [State.requestPreempt_now s _ _ l hl hn hr hb hp]
      exact s.mem_stops_startBound l hl (2 + f)
    · exact quantumExpiry_idle s hf

/-- Settles O46: power and heat, the leader's lease, and housekeeping, in their order. -/
theorem powerLeasesAndHousekeeping : Obligations.PowerLeasesAndHousekeeping := ⟨powerAndHeat, leases, housekeeping⟩

end Sys2Proof.Proofs
end

section
/-!
PROOF of O21: loads from global memory and management registers that wait for their value (spec/06 R117, R119; spec/13 R247 to R249).
-/

namespace Sys2Proof.Machine

open Sys2Proof.Claims

/-! ### Values of n bytes -/

theorem leNat_lt (bs : List Byte) : leNat bs < 2 ^ (8 * bs.length) := by
  induction bs with
  | nil => decide
  | cons b bs ih =>
    have hb := b.isLt
    have hp : 2 ^ (8 * (b :: bs).length) = 256 * 2 ^ (8 * bs.length) := by
      rw [List.length_cons, Nat.mul_add, Nat.pow_add, Nat.mul_comm]
    rw [hp, leNat]
    omega

theorem State.length_physRead (s : State) (l : Loc) (n : Nat) : (s.physRead l n).length = n := by
  unfold State.physRead
  split
  · exact Memory.length_readRun _ _ _
  split
  · exact List.length_replicate
  · exact Memory.length_readRun _ _ _

theorem State.length_seen (s : State) (p : Nat) (l : Loc) (n : Nat) : (s.seen p l n).length = n := by
  unfold State.seen
  dsimp only
  split
  · exact s.length_physRead l n
  · rw [List.length_map, List.length_zipIdx, s.length_physRead]

/-- The value of n bytes extended, as R248 gives it. -/
theorem extendN_leNat (sg : Bool) (bs : List Byte) (h : bs.length ≤ 8) : extendN bs.length sg (leNat bs) = extended bs.length sg (leNat bs) := by
  unfold extendN extended
  cases sg with
  | true => rfl
  | false =>
    refine BitVec.eq_of_toNat_eq ?_
    have hlt := leNat_lt bs
    have hle : 2 ^ (8 * bs.length) ≤ 2 ^ 64 := Nat.pow_le_pow_right (by decide) (by omega)
    simp [Nat.mod_eq_of_lt hlt]

theorem State.extendN_gValue (s : State) (g : Loc × Kind) (n : Nat) (sg : Bool) (h : n ≤ 8) : extendN n sg (s.gValue g n) =
    extended n sg (if g.2 = .v then leNat (s.seen s.hereP g.1 n) else leNat (s.physRead g.1 n)) := by
  unfold State.gValue State.physNat
  split
  · simpa only [s.length_seen] using extendN_leNat sg (s.seen s.hereP g.1 n) (by rw [s.length_seen]; exact h)
  · simpa only [s.length_physRead] using extendN_leNat sg (s.physRead g.1 n) (by rw [s.length_physRead]; exact h)

/-- The address of a load (R247). -/
theorem State.ea_eq_address (s : State) (m : MemRef) : s.ea m.base m.disp = address s m := by
  rw [State.ea, address, BitVec.signExtend_eq]

/-- A load of the table runs as R249 gives it. -/
theorem exec_loadForm {i : Instr} {n : Nat} {sg : Bool} {d : Sreg} {m : MemRef} (h : loadForm i = some (n, sg, d, m)) (s : State) :
    exec i s = .next (s.load n sg d m) := by
  unfold loadForm at h
  split at h <;> cases h <;> rfl

theorem le_of_loadForm {i : Instr} {n : Nat} {sg : Bool} {d : Sreg} {m : MemRef} (h : loadForm i = some (n, sg, d, m)) : n ≤ 8 := by
  unfold loadForm at h
  split at h <;> cases h <;> decide

/-! ### What an access changes of its thread -/

theorem Kept.refl (cyc : Nat) (ps : List Pend) : Kept cyc ps ps :=
  List.forall₂_same.2 fun _ _ => ⟨rfl, .inl rfl⟩

/-- Of two masks that are cleared in turn. -/
theorem and_not_and_not (v a b : Word) : v &&& ~~~a &&& ~~~b = v &&& ~~~(a ||| b) := by
  rw [BitVec.and_assoc, BitVec.not_or]

theorem Kept.trans {cyc : Nat} {ps qs rs : List Pend} (h1 : Kept cyc ps qs) (h2 : Kept cyc qs rs) : Kept cyc ps rs := by
  unfold Kept at *
  induction h1 generalizing rs with
  | nil => exact h2
  | @cons x y _ _ hxy _ ih =>
    cases h2 with
    | @cons _ z _ _ hyz htl =>
      refine .cons ?_ (ih htl)
      obtain ⟨hy, hyv⟩ := hxy
      obtain ⟨hz, hzv⟩ := hyz
      have hland : y.land = x.land := by rw [hy]
      have hdest : y.dest = x.dest := by rw [hy]
      rw [hland, hdest] at hzv
      refine ⟨by rw [hz, hy], ?_⟩
      rcases hyv with hy0 | ⟨hle, hy1⟩
      · rwa [hy0] at hzv
      rcases hzv with hz0 | ⟨-, hz1⟩
      · rw [hz0]
        exact .inr ⟨hle, hy1⟩
      refine .inr ⟨hle, ?_⟩
      rcases hy1 with ⟨hd, hy3⟩ | ⟨hd, a, hy4⟩ <;> rcases hz1 with ⟨hd', hz3⟩ | ⟨hd', b, hz4⟩
      · exact .inl ⟨hd, by rw [hz3, hy3, and_not_and_not, BitVec.or_self]⟩
      · exact absurd (hd.symm.trans hd') (by decide)
      · exact absurd (hd.symm.trans hd') (by decide)
      · exact .inr ⟨hd, a ||| b, by rw [hz4, hy4, and_not_and_not, BitVec.and_or_distrib_right]⟩

/-- What an access may do to a thread before it waits: sticky bits, what happens before it, and pending clears of those bits. -/
def Thread.Accessed (cyc : Nat) (u v : Thread) : Prop :=
  AccessFrame u v ∧ Kept cyc u.pend v.pend ∧ v.pc = u.pc ∧ v.lc = u.lc ∧ v.wait = u.wait

theorem Thread.Accessed.refl (cyc : Nat) (u : Thread) : u.Accessed cyc u := ⟨rfl, Kept.refl cyc _, rfl, rfl, rfl⟩

theorem Thread.Accessed.trans {cyc : Nat} {u v w : Thread} (h1 : u.Accessed cyc v) (h2 : v.Accessed cyc w) : u.Accessed cyc w := by
  obtain ⟨f1, k1, p1, l1, w1⟩ := h1
  obtain ⟨f2, k2, p2, l2, w2⟩ := h2
  refine ⟨?_, Kept.trans k1 k2, p2.trans p1, l2.trans l1, w2.trans w1⟩
  unfold AccessFrame at *
  rw [f2, f1]

theorem Thread.kept_keepClear (t : Thread) (cyc : Nat) (m : Word) : Kept cyc t.pend (t.keepClear cyc 0x004 (m &&& 0x300)).pend := by
  unfold Kept Thread.keepClear
  refine List.forall₂_map_right_iff.2 (List.forall₂_same.2 fun x _ => ?_)
  split
  · next h => exact ⟨rfl, .inr ⟨h.1, .inr ⟨h.2, m, rfl⟩⟩⟩
  · exact ⟨rfl, .inl rfl⟩

theorem Thread.kept_keepClear_oob (t : Thread) (cyc : Nat) : Kept cyc t.pend (t.keepClear cyc 0x003 (BitVec.ofNat 64 (2 ^ 63))).pend := by
  unfold Kept Thread.keepClear
  refine List.forall₂_map_right_iff.2 (List.forall₂_same.2 fun x _ => ?_)
  split
  · next h => exact ⟨rfl, .inr ⟨h.1, .inl ⟨h.2, rfl⟩⟩⟩
  · exact ⟨rfl, .inl rfl⟩

theorem Thread.accessed_noteClamp (t : Thread) (cyc : Nat) (sc : Scope) : t.Accessed cyc (t.noteClamp cyc sc) := by
  unfold Thread.noteClamp
  split
  · exact ⟨rfl, t.kept_keepClear cyc 0x100, rfl, rfl, rfl⟩
  · exact .refl cyc t

theorem Thread.accessed_noteOrder (t : Thread) (cyc : Nat) (sp : Space) (k : Kind) (o : Order) (sc : Scope) : t.Accessed cyc (t.noteOrder cyc sp k o sc) := by
  unfold Thread.noteOrder
  split
  · exact .refl cyc t
  · exact t.accessed_noteClamp cyc _

theorem Thread.accessed_oobNow (t : Thread) (cyc sp : Nat) (wr : Bool) (a : Nat) : t.Accessed cyc (t.oobNow cyc sp wr a) := by
  unfold Thread.oobNow
  split
  · next h =>
    rw [Thread.recordOob, if_pos h]
    exact .refl cyc t
  · next h =>
    rw [Thread.recordOob, if_neg (show ¬ (t.keepClear cyc 0x003 (BitVec.ofNat 64 (2 ^ 63))).oob.getLsbD 63 = true from h)]
    exact ⟨rfl, t.kept_keepClear_oob cyc, rfl, rfl, rfl⟩

theorem Thread.accessed_acquire (t : Thread) (cyc : Nat) (me : Agent) (i : Nat) (sc : Scope) (gs : List Tag) : t.Accessed cyc (t.acquire cyc me i sc gs) := by
  unfold Thread.acquire
  dsimp only
  split
  · exact ⟨rfl, Thread.kept_keepClear _ cyc 0x200, rfl, rfl, rfl⟩
  · exact ⟨rfl, Kept.refl cyc _, rfl, rfl, rfl⟩

end Sys2Proof.Machine
end

section
/-!
PROOF of O21, continued: the states in which a load waits (spec/01 R20; spec/13 R248, R249; spec/22 R344).
-/

namespace Sys2Proof.Machine

open Sys2Proof.Claims

/-! ### Bytes that read as before -/

theorem State.SameBytes.trans {s t u : State} (h1 : s.SameBytes t) (h2 : t.SameBytes u) : s.SameBytes u := by
  obtain ⟨⟨a1, b1, c1, d1, e1⟩, f1⟩ := h1
  obtain ⟨⟨a2, b2, c2, d2, e2⟩, f2⟩ := h2
  exact ⟨⟨fun a => (a2 a).trans (a1 a), fun a => (b2 a).trans (b1 a), fun a => (c2 a).trans (c1 a), fun a => (d2 a).trans (d1 a),
    fun d a => (e2 d a).trans (e1 d a)⟩, fun p k b a => (f2 p k b a).trans (f1 p k b a)⟩

theorem State.SameBytes.refl (s : State) : s.SameBytes s :=
  ⟨⟨fun _ => rfl, fun _ => rfl, fun _ => rfl, fun _ => rfl, fun _ _ => rfl⟩, fun _ _ _ _ => rfl⟩

/-! ### Samples of the read latency (R20) -/

theorem State.tile_modPart_sample (s : State) (q src v p k : Nat) : (s.modPart q fun P => P.sample src v).tile p k = s.tile p k := by
  unfold State.tile Partition.tile
  exact congrArg (·.getD k Tile.zero) (State.modPart_keeps Partition.tiles (fun P => P.sample src v) (fun _ => rfl) s q p)

/-- A sample of the read latency is seen in the monitors of the current agent's partition alone. -/
theorem State.sampleRead_eq (s : State) (n : Nat) : s.sampleRead n = match s.cur.agent with
    | .tile p _ => s.modPart p fun P => P.sample 4 n
    | .ctrl _ => s := rfl

theorem State.sampleRead_frame (s : State) (n : Nat) : s.sampleRead n = { s with parts := (s.sampleRead n).parts } := by
  unfold State.sampleRead
  split <;> rfl

theorem State.tile_sampleRead (s : State) (n p k : Nat) : (s.sampleRead n).tile p k = s.tile p k := by
  unfold State.sampleRead
  split
  · exact s.tile_modPart_sample _ _ _ _ _
  · rfl

theorem State.thread_sampleRead (s : State) (n : Nat) (a : Agent) (i : Nat) : (s.sampleRead n).thread a i = s.thread a i := by
  cases a with
  | tile p k => exact congrArg (fun T : Tile => T.thread i) (s.tile_sampleRead n p k)
  | ctrl d => rw [s.sampleRead_frame n]; rfl

theorem State.sameBytes_sampleRead (s : State) (n : Nat) : s.SameBytes (s.sampleRead n) := by
  refine ⟨?_, fun p k b a => by rw [s.tile_sampleRead n p k]⟩
  rw [s.sampleRead_frame n]
  exact ⟨fun _ => rfl, fun _ => rfl, fun _ => rfl, fun _ => rfl, fun _ _ => rfl⟩

theorem State.cur_sampleRead (s : State) (n : Nat) : (s.sampleRead n).cur = s.cur := by rw [s.sampleRead_frame n]

theorem State.cycle_sampleRead (s : State) (n : Nat) : (s.sampleRead n).cycle = s.cycle := by rw [s.sampleRead_frame n]

theorem State.here_sampleRead (s : State) (n : Nat) : (s.sampleRead n).here = s.here := by
  rw [State.here, s.cur_sampleRead n]
  exact s.thread_sampleRead n _ _

theorem State.Here_sampleRead (s : State) (n : Nat) : (s.sampleRead n).Here = s.Here := by
  unfold State.Here
  rw [s.cur_sampleRead n]
  cases hc : s.cur.agent with
  | tile p k =>
    dsimp only
    have htiles : ((s.sampleRead n).part p).tiles = (s.part p).tiles := by
      rw [s.sampleRead_eq, hc]
      exact State.modPart_keeps Partition.tiles (fun P => P.sample 4 n) (fun _ => rfl) s p p
    have hlen : (s.sampleRead n).parts.length = s.parts.length := by
      rw [s.sampleRead_eq, hc]
      exact s.length_parts_modPart _ _
    have htile := s.tile_sampleRead n p k
    unfold State.tile at htile
    rw [htiles, hlen, htile]
  | ctrl d => rfl

/-! ### The state in which an access has been noted -/

/-- An access that has been noted and has not blocked yet: no byte and nothing of the machine that decides its wait has changed. -/
def State.Noted (s t : State) : Prop :=
  s.SameBytes t ∧ s.here.Accessed s.cycle t.here ∧ t.cur = s.cur ∧ t.cycle = s.cycle ∧ t.agenda = s.agenda ∧ t.chans = s.chans ∧ t.Here = s.Here

theorem State.Noted.refl (s : State) : s.Noted s := ⟨.refl s, .refl _ _, rfl, rfl, rfl, rfl, rfl⟩

theorem State.Noted.trans {s t u : State} (h1 : s.Noted t) (h2 : t.Noted u) : s.Noted u := by
  obtain ⟨a1, b1, c1, d1, e1, f1, g1⟩ := h1
  obtain ⟨a2, b2, c2, d2, e2, f2, g2⟩ := h2
  rw [d1] at b2
  exact ⟨a1.trans a2, b1.trans b2, c2.trans c1, d2.trans d1, e2.trans e1, f2.trans f1, g2.trans g1⟩

theorem State.noted_modHere (s : State) (hs : s.Here = true) (f : Thread → Thread) (hf : s.here.Accessed s.cycle (f s.here)) : s.Noted (s.modHere f) := by
  refine ⟨s.sameBytes_modHere f, ?_, s.modHere_cur f, s.modHere_cycle f, s.modHere_agenda f, s.modHere_chans f, s.modHere_Here f⟩
  rw [s.here_modHere hs]
  exact hf

theorem State.noted_sampleRead (s : State) (n : Nat) : s.Noted (s.sampleRead n) := by
  refine ⟨s.sameBytes_sampleRead n, ?_, s.cur_sampleRead n, s.cycle_sampleRead n, ?_, ?_, s.Here_sampleRead n⟩
  · rw [s.here_sampleRead]
    exact .refl _ _
  · rw [s.sampleRead_frame n]
  · rw [s.sampleRead_frame n]

theorem State.noted_noteRead (s : State) (k : Delay) (l : Loc) : s.Noted (s.noteRead k l) := by
  unfold State.noteRead
  split
  · exact .refl s
  · exact s.noted_sampleRead _

theorem State.noted_noteM (s : State) (hs : s.Here = true) (ea : Word) (n : Nat) (wr : Bool) : s.Noted (s.noteM ea n wr) := by
  unfold State.noteM
  split
  · split
    · exact s.noted_modHere hs _ (Thread.accessed_oobNow _ _ _ _ _)
    · exact .refl s
  · exact .refl s

theorem State.noted_noteOrder (s : State) (hs : s.Here = true) (sp : Space) (k : Kind) (o : Order) (sc : Scope) :
    s.Noted (s.modHere fun t => t.noteOrder s.cycle sp k o sc) :=
  s.noted_modHere hs _ (Thread.accessed_noteOrder _ _ _ _ _ _)

/-- A thread meets the tags of a word that it loads (R124, R252). -/
def Thread.meet (t : Thread) (cyc : Nat) (me : Agent) (i : Nat) (gs : List Tag) (sc : Option Scope) : Thread :=
  match sc with
  | some c => { t with seen := gs :: t.seen }.acquire cyc me i c gs
  | none => { t with seen := gs :: t.seen }

theorem Thread.accessed_meet (t : Thread) (cyc : Nat) (me : Agent) (i : Nat) (gs : List Tag) (sc : Option Scope) : t.Accessed cyc (t.meet cyc me i gs sc) := by
  have hseen : t.Accessed cyc { t with seen := gs :: t.seen } := ⟨rfl, Kept.refl _ _, rfl, rfl, rfl⟩
  cases sc with
  | none => exact hseen
  | some c => exact hseen.trans (Thread.accessed_acquire _ _ _ _ _ _)

/-- A load of a word without tags meets nothing; else it changes its thread alone. -/
theorem State.meetTag_cases (s : State) (w : TagAt) (lo n : Nat) (sc : Option Scope) :
    s.meetTag w lo n sc = s ∨ ∃ gs, s.meetTag w lo n sc = s.modHere fun t => t.meet s.cycle s.cur.agent s.cur.th gs sc := by
  unfold State.meetTag
  extract_lets gs
  split
  · exact .inl rfl
  · exact .inr ⟨gs, rfl⟩

theorem State.noted_meetTag (s : State) (hs : s.Here = true) (w : TagAt) (lo n : Nat) (sc : Option Scope) : s.Noted (s.meetTag w lo n sc) := by
  rcases s.meetTag_cases w lo n sc with h | ⟨gs, h⟩ <;> rw [h]
  · exact .refl s
  · exact s.noted_modHere hs _ (Thread.accessed_meet _ _ _ _ _ _)

theorem State.Noted.Here {s t : State} (h : s.Noted t) (hs : s.Here = true) : t.Here = true := by
  obtain ⟨-, -, -, -, -, -, hh⟩ := h
  rw [hh, hs]

/-! ### The wait of a load -/

/-- The thread waits, and its access has changed no register and no byte. -/
def State.WaitsOn (s t : State) (w : Wait) : Prop :=
  s.SameBytes t ∧ s.SameRegs t ∧ AccessFrame s.here t.here ∧ Kept s.cycle s.here.pend t.here.pend ∧ t.here.pc = s.here.pc ∧ t.here.wait = w

theorem AccessFrame.sr {s t : State} (h : AccessFrame s.here t.here) : s.SameRegs t := by
  have hr : t.here.regs = s.here.regs := by rw [h]
  have hp : t.here.preds = s.here.preds := by rw [h]
  exact ⟨fun r => by rw [State.sr, Thread.sreg, hr]; rfl, fun p => by rw [State.pr, Thread.preg, hp]; rfl⟩

theorem State.Noted.waitsOn_block {s t : State} (h : s.Noted t) (hs : s.Here = true) (w : Wait) : s.WaitsOn (t.block w) w := by
  have ht := h.Here hs
  obtain ⟨hbytes, ⟨hframe, hkept, hpc, -, -⟩, -⟩ := h
  have hhere : (t.block w).here = { t.here with wait := w, waitFrom := t.cycle } := t.here_modHere ht _
  have hf : AccessFrame s.here (t.block w).here := by
    unfold AccessFrame at *
    rw [hhere, hframe]
  refine ⟨hbytes.trans (t.sameBytes_modHere _), AccessFrame.sr hf, hf, ?_, ?_, ?_⟩ <;> rw [hhere]
  · exact hkept
  · exact hpc

/-- A step that is due changes nothing of a thread that waits. -/
theorem State.WaitsOn.scheduleFree {s t : State} {w : Wait} (h : s.WaitsOn t w) (k : Delay) (ev : Instr) (arg : Arg) :
    s.WaitsOn (t.scheduleFree k ev arg) w := by
  have hhere : (t.scheduleFree k ev arg).here = t.here := rfl
  obtain ⟨hbytes, ⟨hsr, hpr⟩, hframe, hkept, hpc, hwait⟩ := h
  refine ⟨hbytes.trans ?_, AccessFrame.sr ?_, ?_, ?_, ?_, ?_⟩
  · exact ⟨⟨fun _ => rfl, fun _ => rfl, fun _ => rfl, fun _ => rfl, fun _ _ => rfl⟩, fun _ _ _ _ => rfl⟩
  all_goals rw [hhere]
  · exact hframe
  · exact hframe
  · exact hkept
  · exact hpc
  · exact hwait

theorem State.agenda_scheduleFree (s : State) (k : Delay) (ev : Instr) (arg : Arg) :
    (s.scheduleFree k ev arg).agenda = s.agenda ++ [⟨s.cycle + (1 + Config.delay k s.fresh), ev, arg⟩] := rfl

/-- A wait for a time of its own: its end is due (R93). -/
theorem State.Noted.blockFor {s t : State} (h : s.Noted t) (hs : s.Here = true) (k : Delay) (w : Wait) :
    s.WaitsOn (t.blockFor k w) w ∧ completionDue s (t.blockFor k w) := by
  refine ⟨(h.waitsOn_block hs w).scheduleFree _ _ _, Config.delay k (t.block w).fresh, ?_⟩
  obtain ⟨-, -, hcur, hcyc, hag, -, -⟩ := h
  have hag' : (t.block w).agenda = t.agenda := t.modHere_agenda _
  have hcyc' : (t.block w).cycle = t.cycle := t.modHere_cycle _
  rw [State.blockFor, State.agenda_scheduleFree, hag', hcyc', hag, hcyc, hcur, Nat.add_assoc]

/-- A wait for memory: for a time of its own, or for a channel in training (R344). -/
theorem State.Noted.blockRead {s t : State} (h : s.Noted t) (hs : s.Here = true) (l : Loc) (k : Delay) (d : Sreg) (v : Word) :
    (∃ w, s.WaitsOn (t.blockRead l k (some d) v) w) ∧ waitsForMemory s (t.blockRead l k (some d) v) l d v := by
  have hch : t.chanHolds l = s.chanHolds l := by
    obtain ⟨-, -, -, -, -, hchans, -⟩ := h
    unfold State.chanHolds
    rw [hchans]
  unfold State.blockRead
  rw [hch]
  cases hc : s.chanHolds l with
  | none =>
    obtain ⟨hw, hdue⟩ := h.blockFor hs k (.result (some d) v)
    obtain ⟨-, -, -, -, -, hwait⟩ := id hw
    exact ⟨⟨_, hw⟩, fun _ => ⟨hwait, hdue⟩, fun c e => absurd (hc.symm.trans e) (by simp)⟩
  | some c =>
    have hw := h.waitsOn_block hs (.chan c (some d) v)
    obtain ⟨-, -, -, -, -, hwait⟩ := id hw
    obtain ⟨-, -, -, -, hag, -⟩ := h
    refine ⟨⟨_, hw⟩, fun e => absurd (hc.symm.trans e) (by simp), fun e he => ?_⟩
    cases hc.symm.trans he
    exact ⟨hwait, (t.modHere_agenda _).trans hag⟩

end Sys2Proof.Machine
end

section
/-!
PROOF of O21, continued: loads block, and what their waits leave when they are done (spec/08 R93; spec/13 R248, R249; spec/22 R344, R345).
-/

namespace Sys2Proof.Machine

open Sys2Proof.Claims

/-! ### Loads that pass their checks (R249) -/

section
variable {s : State} {n : Nat} {sg : Bool} {d : Sreg} {m : MemRef}

/-- A load from `g:` without poison notes its access and waits for memory. -/
theorem State.load_g (hs : s.Here = true) (hsp : m.space = .g) (hc : accessCheck s .g (address s m) n n .load = none)
    (hp : s.poisonAt (s.gAt (address s m)).1 n = none) : ∃ t, s.Noted t ∧ s.load n sg d m = s.orHold (t.blockRead (s.gAt (address s m)).1 .memRead (some d)
      (extendN n sg (s.gValue (s.gAt (address s m)) n))) := by
  have horder := s.noted_noteOrder hs .g (s.gAt (address s m)).2 m.order m.scope
  unfold State.load
  rw [s.ea_eq_address]
  dsimp only
  rw [hsp, hc]
  simp only [spaceBuf, hp, reduceCtorEq, if_false]
  refine ⟨_, State.Noted.trans ?_ (State.noted_noteRead _ _ _), rfl⟩
  split
  · exact horder.trans (State.noted_meetTag _ (horder.Here hs) _ _ _ _)
  · exact horder

/-- A load from `m:` notes its access and waits for its register. -/
theorem State.load_m (hs : s.Here = true) (hsp : m.space = .m) (hc : accessCheck s .m (address s m) n n .load = none) :
    ∃ t, s.Noted t ∧ s.load n sg d m = s.orHold (t.blockFor .mgmtRead (.mload d (address s m).toNat n sg (s.here.orderScope .m .l m.order m.scope))) := by
  have hm := s.noted_noteM hs (address s m) n false
  obtain ⟨-, -, -, hcyc, -⟩ := id hm
  have horder := State.noted_noteOrder _ (hm.Here hs) .m .l m.order m.scope
  rw [hcyc] at horder
  unfold State.load
  rw [s.ea_eq_address]
  dsimp only
  rw [hsp, hc]
  simp only [spaceBuf, if_true]
  exact ⟨_, hm.trans horder, rfl⟩

end

/-- A unit that blocks or holds its return does the latter where that is refused (R218, R241). -/
theorem holdsItsReturn_of_orHold {i : Instr} {s t : State} (hs : s.Here = true) (h : exec i s = .next (s.orHold t)) : HoldsItsReturn i s := by
  intro a c d hr
  exact ⟨_, h.trans (congrArg _ (s.orHold_some t hr)), s.onlyThread_holdTarget hs a (c, d), s.here_holdTarget hs a (c, d)⟩

/-! ### The end of a wait (R93, R241) -/

/-- A wait that may end does so where no channel that it reads is in training. -/
theorem blockingWaitDone_of_met (s : State) (hn : ∀ c ∈ s.arg.nats, (s.chan c).train = false) (s1 : State) (h1 : s1 = { s with cur := ⟨s.arg.agent, s.arg.th⟩ })
    (hmet : ((s1.here.wait.timed && decide (s1.here.waitFrom = s.arg.op)) || s1.waitMet s.arg.agent s.arg.th) = true) :
    exec .blockingWaitDone s = .next s1.completeWait := by
  subst h1
  have hany : ¬ (s.arg.nats.any fun c => (s.chan c).train) = true := by
    rw [List.any_eq_true]
    rintro ⟨c, hc, ht⟩
    rw [hn c hc] at ht
    cases ht
  exact congrArg Host.Outcome.next ((if_neg hany).trans (if_pos hmet))

/-- The result of a wait in its thread: written to the destination where there is one. -/
def Thread.result (t : Thread) (cyc : Nat) (d : Option Sreg) (v : Word) : Thread :=
  match d with
  | some r => t.putS cyc r v
  | none => t

theorem State.modHere_id (s : State) : s.modHere (fun t => t) = s := by
  unfold State.modHere
  cases s.cur.agent with
  | tile p t =>
    simp [State.modThread, State.modTile, State.modPart, Partition.modTile, Tile.modThread,
      show (fun t : Thread => t) = id from rfl, show (fun t : Tile => t) = id from rfl, show (fun t : Partition => t) = id from rfl]
  | ctrl d =>
    by_cases hd : d < 4
    · have : s.ctrls.set d s.ctrls[d] = s.ctrls := by simp
      simp only [State.modThread, State.modCtrl, hd, dif_pos]
      exact congrArg (fun c => { s with ctrls := c }) this
    · simp [State.modThread, State.modCtrl, hd]

section
variable {s : State}

theorem State.completeWait_result {d : Option Sreg} {v : Word} (h : s.here.wait = .result d v) :
    s.completeWait = s.finish (s.modHere fun t => t.result s.cycle d v) := by
  unfold State.completeWait
  rw [h]
  cases d with
  | none => exact congrArg s.finish s.modHere_id.symm
  | some r => rfl

theorem State.completeWait_chan {c : Nat} {d : Option Sreg} {v : Word} (h : s.here.wait = .chan c d v) :
    s.completeWait = s.finish ((s.modHere fun t => t.result s.cycle d v).sampleRead (s.cycle - s.here.waitFrom)) := by
  unfold State.completeWait
  rw [h]
  cases d with
  | none => exact congrArg (fun t : State => s.finish (t.sampleRead _)) s.modHere_id.symm
  | some r => rfl

/-- A load of a pass register whose test runs waits on (R345). -/
theorem State.completeWait_busy {e addr n : Nat} {r : Sreg} {sg : Bool} {sc : Option Scope} (ha : s.cur.agent = .ctrl e)
    (h : s.here.wait = .mload r addr n sg sc) (hb : mBusy s addr = true) : s.completeWait = s.modHere fun t => { t with wait := .pass r addr n sg } := by
  unfold State.completeWait
  rw [h, ha]
  exact if_pos hb

theorem State.completeWait_mload {e addr n : Nat} {r : Sreg} {sg : Bool} {sc : Option Scope} (ha : s.cur.agent = .ctrl e)
    (h : s.here.wait = .mload r addr n sg sc) (hb : mBusy s addr = false) : s.completeWait =
      s.finish ((s.meetTag (mWord e addr) (addr % 8) n sc).modHere fun t => t.putS s.cycle r (extendN n sg (mRead s e addr n))) := by
  unfold State.completeWait
  rw [h, ha]
  exact if_neg (Bool.eq_false_iff.1 hb)

end

/-! ### Units that end with a result and a sample -/

theorem Thread.orNow_zero (t : Thread) (cyc : Nat) : t.orNow cyc 0 = t := by
  have h0 : (0 : Byte).setWidth 64 = (0 : Word) := by decide
  rw [Thread.orNow, h0, Thread.keepClear_zero, Thread.orFlags]
  simp

theorem Thread.result_loops (t : Thread) (cyc : Nat) (d : Option Sreg) (v : Word) :
    (t.result cyc d v).lb = t.lb ∧ (t.result cyc d v).le = t.le ∧ (t.result cyc d v).lc = t.lc := by
  cases d with
  | none => exact ⟨rfl, rfl, rfl⟩
  | some r => simp [Thread.result, Thread.putS]

theorem Thread.frame_result (t : Thread) (cyc : Nat) (d : Option Sreg) (v : Word) : t.Frame (t.result cyc d v) := by
  cases d with
  | none => rfl
  | some r =>
    simp only [Thread.result, Thread.putS, Thread.setS]
    split <;> rfl

theorem Thread.sreg_result (t : Thread) (cyc : Nat) (d : Option Sreg) (v : Word) (q : Sreg) :
    (t.result cyc d v).sreg q = if d = some q ∧ q ≠ 0 then v else t.sreg q := by
  cases d with
  | none => simp [Thread.result]
  | some r =>
    have h := Thread.sreg_setS (t.drop1 cyc (.s r)) r v q
    have hd : (t.drop1 cyc (.s r)).sreg q = t.sreg q := rfl
    rw [Thread.result, Thread.putS, h, hd]
    by_cases e : q = r
    · subst e; simp
    · simp [e, Ne.symm e]

theorem Thread.preg_result (t : Thread) (cyc : Nat) (d : Option Sreg) (v : Word) (q : Preg) : (t.result cyc d v).preg q = t.preg q := by
  cases d with
  | none => rfl
  | some r => simp [Thread.preg, Thread.result, Thread.putS]

theorem Thread.fflag_result (t : Thread) (cyc : Nat) (d : Option Sreg) (v : Word) : (t.result cyc d v).fflag = t.fflag := by
  cases d with
  | none => rfl
  | some r => simp [Thread.result, Thread.putS]

theorem Thread.pend_result (t : Thread) (cyc : Nat) (d : Option Sreg) (v : Word) :
    (t.result cyc d v).pend = match d with | some r => (t.drop1 cyc (.s r)).pend | none => t.pend := by
  cases d with
  | none => rfl
  | some r => simp [Thread.result, Thread.putS]

/-- A sample of a partition and an update of the current thread do not meet. -/
theorem State.modHere_sampleRead (s : State) (n : Nat) (f : Thread → Thread) : (s.sampleRead n).modHere f = (s.modHere f).sampleRead n := by
  rw [s.sampleRead_eq, (s.modHere f).sampleRead_eq, s.modHere_cur f]
  cases hc : s.cur.agent with
  | tile p k =>
    simp only [State.modHere, hc, State.modThread, State.modTile, State.modPart, List.modify_modify_eq]
    rfl
  | ctrl d => rfl

/-- A sample before the end of a unit whose loop return is legal is a sample after it. -/
theorem State.finishAt_sampleRead (s0 s : State) (n : Nat) (hl : (loopEnd s0.here.unit.addr s.here).2.bind (targetFault s0 s0.cur.agent) = none) :
    s0.finish (s.sampleRead n) = (s0.finish s).sampleRead n := by
  have hl' : (((none : Option Addr).or (loopEnd s0.here.unit.addr s.here).2).bind fun a => (targetFault s0 s0.cur.agent a).map fun r => (a, r)) = none := by
    cases hx : (loopEnd s0.here.unit.addr s.here).2 with
    | none => rfl
    | some a =>
      rw [hx] at hl
      simpa using hl
  unfold State.finish State.finishAt
  dsimp only
  rw [s.here_sampleRead, hl', s.modHere_sampleRead, s.cycle_sampleRead]

/-- A unit that ends with a result and a sample. -/
theorem State.finish_sampleRead (s : State) (hs : s.Here = true) (hl : s.endsLegally = true) (f : Thread → Thread) (n : Nat)
    (hf : (f s.here).lb = s.here.lb ∧ (f s.here).le = s.here.le ∧ (f s.here).lc = s.here.lc) :
    s.finish ((s.modHere f).sampleRead n) = (s.endedBy f none).sampleRead n := by
  obtain ⟨hlb, hle, hlc⟩ := id hf
  have hl0 := State.endsLegally_eq hl
  rw [Option.none_or] at hl0
  rw [State.finishAt_sampleRead, State.finish, s.finishAt_modHere hs f none hf (State.endsLegally_eq hl)]
  rw [s.here_modHere hs, (loopEnd_congr s.here.unit.addr s.here (f s.here) hlb hle hlc).1]
  exact hl0

/-- A result and a sample at the end of a wait for a channel (R20, R93, R344). -/
theorem State.sampled_result (s : State) (hs : s.Here = true) (hl : s.endsLegally = true) (d : Option Sreg) (v : Word) (n : Nat) :
    let t := s.finish ((s.modHere fun t => t.result s.cycle d v).sampleRead n)
    s.SameBytes t ∧ s.Ended t none ∧ s.here.Frame t.here ∧
      t.here.pend = s.leftPend (match d with | some r => (s.here.drop1 s.cycle (.s r)).pend | none => s.here.pend) ∧
      t.here.fflag = s.here.fflag ∧ (∀ q, t.pr q = s.pr q) ∧ (∀ q, t.sr q = if d = some q ∧ q ≠ 0 then v else s.sr q) ∧
      t.parts = ((s.modHere fun _ => t.here).sampleRead n).parts := by
  intro t
  have ht : t = (s.endedBy (fun t => t.result s.cycle d v) none).sampleRead n :=
    s.finish_sampleRead hs hl _ n (Thread.result_loops _ _ _ _)
  have hhere := (congrArg State.here ht).trans ((State.here_sampleRead _ n).trans (s.here_endedBy hs _ none))
  obtain ⟨⟨honly, hbytes⟩, hended⟩ := s.endedBy_spec hs (fun t => t.result s.cycle d v) none
  have hE : t.here = (s.endedBy (fun t => t.result s.cycle d v) none).here := (congrArg State.here ht).trans (State.here_sampleRead _ n)
  have hframe := s.here.frame_result s.cycle d v
  refine ⟨?_, ?_, ?_, ?_, ?_, fun q => ?_, fun q => ?_, ?_⟩
  · rw [ht]; exact hbytes.trans (State.sameBytes_sampleRead _ n)
  · unfold State.Ended at *
    rw [hE]
    exact hended
  · unfold Thread.Frame at *
    rw [hhere, hframe]
  · rw [hhere, ← Thread.pend_result]
  · rw [hhere]
    exact s.here.fflag_result s.cycle d v
  · rw [State.pr, Thread.preg, hhere]
    exact s.here.preg_result s.cycle d v q
  · rw [State.sr, State.sr, ← Thread.sreg_result, hhere]
    rfl
  · rw [hE, ← honly, ht]

/-- A result at the end of a wait for memory (R93). -/
theorem State.wroteS_result (s : State) (hs : s.Here = true) (hl : s.endsLegally = true) (r : Sreg) (v : Word) :
    s.WroteS (s.finish (s.modHere fun t => t.result s.cycle (some r) v)) r v 0 := by
  have h := s.wroteS_scalarOp hs hl r v 0
  have hw : s.writeS 1 r v 0 = s.modHere fun t => t.result s.cycle (some r) v := by
    rw [State.writeS, if_pos (Nat.le_refl 1)]
    exact congrArg s.modHere (funext fun t => Thread.orNow_zero _ _)
  rwa [State.scalarOp, hw] at h

/-- A thread after the tags of the word that it loads, where there are any (R124). -/
def Thread.tagsMet (t : Thread) (cyc : Nat) (me : Agent) (i : Nat) (gs : Option (List Tag)) (sc : Option Scope) : Thread :=
  match gs with
  | some gs => t.meet cyc me i gs sc
  | none => t

theorem Thread.accessed_tagsMet (t : Thread) (cyc : Nat) (me : Agent) (i : Nat) (gs : Option (List Tag)) (sc : Option Scope) :
    t.Accessed cyc (t.tagsMet cyc me i gs sc) := by
  cases gs with
  | none => exact .refl _ _
  | some gs => exact t.accessed_meet _ _ _ _ _

/-- A load from `m:` whose wait is over: tags met, and the value written. -/
def Thread.mloaded (t : Thread) (cyc : Nat) (me : Agent) (i : Nat) (gs : Option (List Tag)) (sc : Option Scope) (r : Sreg) (v : Word) : Thread :=
  (t.tagsMet cyc me i gs sc).putS cyc r v

theorem State.meetTag_putS (s : State) (w : TagAt) (lo n : Nat) (sc : Option Scope) (r : Sreg) (v : Word) : ∃ gs,
    ((s.meetTag w lo n sc).modHere fun t => t.putS s.cycle r v) = s.modHere fun t => t.mloaded s.cycle s.cur.agent s.cur.th gs sc r v := by
  rcases s.meetTag_cases w lo n sc with h | ⟨gs, h⟩
  · exact ⟨none, by rw [h]; rfl⟩
  · exact ⟨some gs, by rw [h, State.modHere_modHere]; rfl⟩

theorem AccessFrame.fields {u v : Thread} (h : AccessFrame u v) : v.lb = u.lb ∧ v.le = u.le ∧ v.regs = u.regs ∧ v.preds = u.preds := by
  unfold AccessFrame at h
  rw [h]
  exact ⟨rfl, rfl, rfl, rfl⟩

/-- What the end of a unit sets lies outside the frame of an access. -/
theorem AccessFrame.ended {u v : Thread} (h : AccessFrame u v) (lc : Vector Word 4) (pend : List Pend) (pc : Addr) (w : Wait) (r : Nat) :
    AccessFrame u { v with lc := lc, pend := pend, pc := pc, wait := w, readyAt := r } := by
  unfold AccessFrame at *
  rw [h]

section
variable (t : Thread) (cyc : Nat) (me : Agent) (i : Nat) (gs : Option (List Tag)) (sc : Option Scope) (r : Sreg) (v : Word)

theorem Thread.accessFrame_mloaded : AccessFrame t { t.mloaded cyc me i gs sc r v with regs := t.regs } := by
  obtain ⟨hframe, -⟩ := t.accessed_tagsMet cyc me i gs sc
  unfold AccessFrame at *
  rw [Thread.mloaded, hframe, Thread.putS, Thread.setS]
  split <;> rfl

theorem Thread.loops_mloaded : (t.mloaded cyc me i gs sc r v).lb = t.lb ∧ (t.mloaded cyc me i gs sc r v).le = t.le ∧
    (t.mloaded cyc me i gs sc r v).lc = t.lc := by
  obtain ⟨hframe, -, -, hlc, -⟩ := t.accessed_tagsMet cyc me i gs sc
  obtain ⟨hlb, hle, -, -⟩ := AccessFrame.fields hframe
  simp [Thread.mloaded, Thread.putS, hlb, hle, hlc]

theorem Thread.preg_mloaded (q : Preg) : (t.mloaded cyc me i gs sc r v).preg q = t.preg q := by
  obtain ⟨hframe, -⟩ := t.accessed_tagsMet cyc me i gs sc
  obtain ⟨-, -, -, hpreds⟩ := AccessFrame.fields hframe
  simp [Thread.preg, Thread.mloaded, Thread.putS, hpreds]

theorem Thread.sreg_mloaded (q : Sreg) : (t.mloaded cyc me i gs sc r v).sreg q = if q = r ∧ q ≠ 0 then v else t.sreg q := by
  obtain ⟨hframe, -⟩ := t.accessed_tagsMet cyc me i gs sc
  obtain ⟨-, -, hregs, -⟩ := AccessFrame.fields hframe
  rw [Thread.mloaded, Thread.putS, Thread.sreg_setS]
  simp only [Thread.sreg, Thread.drop1, hregs]

end

/-- The end of a load from `m:` (R249, R322). -/
theorem State.mloaded_finish (s : State) (hs : s.Here = true) (hl : s.endsLegally = true) (gs : Option (List Tag)) (sc : Option Scope) (r : Sreg) (v : Word) :
    let t := s.finish (s.modHere fun t => t.mloaded s.cycle s.cur.agent s.cur.th gs sc r v)
    s.OnlyThread t ∧ s.Ended t none ∧ AccessFrame s.here { t.here with regs := s.here.regs } ∧ (∀ q, t.pr q = s.pr q) ∧
      ∀ q, t.sr q = if q = r ∧ q ≠ 0 then v else s.sr q := by
  intro t
  have ht : t = s.endedBy (fun t => t.mloaded s.cycle s.cur.agent s.cur.th gs sc r v) none :=
    s.finishAt_modHere hs _ none (s.here.loops_mloaded _ _ _ _ _ _ _) (State.endsLegally_eq hl)
  obtain ⟨honly, hended⟩ := s.endedBy_spec hs (fun t => t.mloaded s.cycle s.cur.agent s.cur.th gs sc r v) none
  have hhere := (congrArg State.here ht).trans (s.here_endedBy hs _ none)
  have hframe := s.here.accessFrame_mloaded s.cycle s.cur.agent s.cur.th gs sc r v
  refine ⟨ht ▸ honly, ht ▸ hended, ?_, fun q => ?_, fun q => ?_⟩
  · rw [hhere]
    exact AccessFrame.ended hframe _ _ _ _ _
  · rw [State.pr, hhere]
    exact s.here.preg_mloaded _ _ _ _ _ _ _ q
  · rw [State.sr, State.sr, ← s.here.sreg_mloaded s.cycle s.cur.agent s.cur.th gs sc, hhere]
    rfl

end Sys2Proof.Machine

namespace Sys2Proof.Proofs

open Sys2Proof Sys2Proof.Machine Sys2Proof.Claims

theorem globalLoadsWaitForTheirValue : GlobalLoadsWaitForTheirValue := by
  intro s i n sg d m hi hs
  refine ⟨fun hc hsp => ?_, fun hsp hret hc hp => ?_, fun hsp hret hc => ?_⟩
  · rcases hsp with hm | ⟨hg, hp⟩
    · obtain ⟨t, -, ht⟩ := State.load_m hs hm (hm ▸ hc)
      exact holdsItsReturn_of_orHold hs ((exec_loadForm hi s).trans (congrArg _ ht))
    · obtain ⟨t, -, ht⟩ := State.load_g hs hg (hg ▸ hc) hp
      exact holdsItsReturn_of_orHold hs ((exec_loadForm hi s).trans (congrArg _ ht))
  · obtain ⟨t, hn, ht⟩ := State.load_g hs hsp hc hp
    rw [State.orHold_none _ _ hret, s.extendN_gValue _ _ _ (le_of_loadForm hi)] at ht
    obtain ⟨⟨w, hbytes, hregs, hframe, hkept, hpc, -⟩, hwait⟩ := hn.blockRead hs (s.gAt (address s m)).1 .memRead d _
    exact ⟨_, (exec_loadForm hi s).trans (congrArg _ ht), hbytes, hregs, hframe, hkept, hpc, hwait⟩
  · obtain ⟨t, hn, ht⟩ := State.load_m hs hsp hc
    rw [State.orHold_none _ _ hret] at ht
    obtain ⟨⟨hbytes, hregs, hframe, hkept, hpc, hwait⟩, hdue⟩ := hn.blockFor hs .mgmtRead
      (.mload d (address s m).toNat n sg (s.here.orderScope .m .l m.order m.scope))
    exact ⟨_, (exec_loadForm hi s).trans (congrArg _ ht), hbytes, hregs, hframe, hkept, hpc, hdue, hwait⟩

theorem waitedResultsAreWritten : WaitedResultsAreWritten := by
  intro s d v s1 hs hn
  have htimed (w : Wait) (hw : s1.here.wait = w) (ht : w.timed = true) (hfrom : s1.here.waitFrom = s.arg.op) :
      exec .blockingWaitDone s = .next s1.completeWait :=
    blockingWaitDone_of_met s hn s1 rfl (by rw [hw, ht, decide_eq_true hfrom]; rfl)
  refine ⟨fun hw hfrom hl => ?_, fun k hw htr hl => ?_, fun e addr n r sg sc ha hn8 hw hfrom => ⟨fun hb => ?_, fun hb hl => ?_⟩⟩
  · refine ⟨_, (htimed _ hw rfl hfrom).trans (congrArg _ (State.completeWait_result hw)), ?_⟩
    cases d with
    | some r => exact s1.wroteS_result hs hl r v
    | none =>
      have hid : (s1.modHere fun t => t.result s1.cycle none v) = s1 := s1.modHere_id
      show s1.Went (s1.finish (s1.modHere fun t => t.result s1.cycle none v)) none
      rw [hid]
      exact s1.went_finishAt hs none (State.endsLegally_eq hl)
  · have hmet : s1.waitMet s.arg.agent s.arg.th = true := by
      have hw' : (s1.thread s.arg.agent s.arg.th).wait = .chan k d v := hw
      unfold State.waitMet
      rw [hw']
      dsimp only
      rw [htr]
      rfl
    have hdone := blockingWaitDone_of_met s hn s1 rfl (by rw [hmet, Bool.or_true])
    obtain ⟨hbytes, hended, hframe, hpend, hfl, hpr, hsr, hparts⟩ := s1.sampled_result hs hl d v (s1.cycle - s1.here.waitFrom)
    refine ⟨_, hdone.trans (congrArg _ (State.completeWait_chan hw)), hbytes, hended, hframe, hpend, hfl, hpr, hsr, fun p j ha => ?_, fun e ha => ?_⟩
    · rw [hparts, State.sampleRead_eq, State.modHere_cur, ha]
      rfl
    · rw [hparts, State.sampleRead_eq, State.modHere_cur, ha]
      simp only [State.modHere, ha, State.modThread, State.modCtrl_parts]
  · refine ⟨_, (htimed _ hw rfl hfrom).trans (congrArg _ (State.completeWait_busy ha hw hb)), s1.onlyThread_modHere hs _, s1.here_modHere hs _⟩
  · obtain ⟨gs, hgs⟩ := s1.meetTag_putS (mWord e addr) (addr % 8) n sc r (extendN n sg (mRead s1 e addr n))
    refine ⟨_, (htimed _ hw rfl hfrom).trans (congrArg _ ((State.completeWait_mload ha hw hb).trans (congrArg _ hgs))), ?_⟩
    exact s1.mloaded_finish hs hl gs sc r _

/-- Settles O21: a load waits with its value, and the end of its wait writes it. -/
theorem globalLoads : Obligations.GlobalLoads := ⟨globalLoadsWaitForTheirValue, waitedResultsAreWritten⟩

end Sys2Proof.Proofs
end

section
/-!
PROOF that O43 fails: its clause of stage 0x07 speaks of every number of a channel, and a number past the 256 channels reads as a channel at reset,
which is in training (spec/01 R23; spec/22 R344).
-/

namespace Sys2Proof.Machine

/-- A number past the channels reads as a channel at reset. -/
theorem State.chan_of_le (s : State) {ch : Nat} (h : 256 ≤ ch) : s.chan ch = Channel.zero := by
  simp [State.chan, List.getD_eq_getElem?_getD, h]

/-- The machine that boots and is about to train its channels. -/
def trainingState : State := { State.reset with boot := { Boot.zero with stage := 0x07 }, arg := { q := 1 } }

end Sys2Proof.Machine

namespace Sys2Proof.Proofs

open Sys2Proof Sys2Proof.Machine Sys2Proof.Claims

/-- Refutes O43: PACKAGE_RESET at stage 0x07 leaves no channel in training, but the clause has no bound on the channel, and channel 256, which does not
exist, reads as in training in every state, so also in the one that follows `trainingState`. -/
theorem not_resetsAndTheMailbox : ¬ Obligations.ResetsAndTheMailbox := by
  rintro ⟨⟨-, hstages⟩, -, -⟩
  obtain ⟨-, -, -, -, -, h7, -⟩ := hstages trainingState rfl rfl
  obtain ⟨t, -, -, -, htrain⟩ := h7 rfl
  have h256 : (t.chan 256).train = true := by rw [t.chan_of_le (Nat.le_refl 256)]; rfl
  exact absurd (h256.symm.trans (htrain 256)) (by decide)

end Sys2Proof.Proofs
end

section
/-!
SUPPORT. Commands that are taken from their queues (spec/02 R46, R47).
-/

namespace Sys2Proof.Machine

open Sys2Proof.Claims

/-! ### The machine with an entry taken -/

theorem part_popped (s : State) (p : Nat) : (popped s).part p = s.part p := rfl

theorem Queue.skipDone_frame (n : Nat) (q : Queue) : q.skipDone n = { q with taken := (q.skipDone n).taken } := by
  induction n generalizing q with
  | zero => rfl
  | succ n ih =>
    unfold Queue.skipDone
    split
    · rw [ih]
    · rfl

/-- Taking an entry moves the place of the next one alone. -/
theorem Queue.takeOne_frame (q : Queue) : q.takeOne = { q with taken := q.takeOne.taken } := by
  unfold Queue.takeOne
  rw [Queue.skipDone_frame]

theorem State.bound_modQueue (s : State) (n q : Nat) (f : Queue → Queue) (m : Nat) : (s.modQueue n q f).bound? m = s.bound? m :=
  State.modFn_keeps Fn.bind _ (fun F => by split <;> rfl) s n m

theorem bound_popped (s : State) (n : Nat) : (popped s).bound? n = s.bound? n := s.bound_modQueue _ _ _ n

theorem length_fns_popped (s : State) : (popped s).fns.length = s.fns.length := List.length_modify _ _ _

/-- Bindings that are the same bind the same functions to a partition. -/
theorem State.boundTo_congr {s t : State} (hl : t.fns.length = s.fns.length) (hb : ∀ n, t.bound? n = s.bound? n) (p : Nat) : t.boundTo p = s.boundTo p := by
  unfold State.boundTo
  rw [hl]
  exact List.filter_congr fun n _ => by rw [show (t.fn n).bind = (s.fn n).bind from hb n]

/-- Where a queue's entries lie. -/
def Queue.place (q : Queue) : Word × Nat := (q.ring, q.log2)

theorem State.place_modQueue (s : State) (n k : Nat) (f : Queue → Queue) (hf : ∀ q, (f q).place = q.place) (m j : Nat) :
    (((s.modQueue n k f).fn m).queue j).place = ((s.fn m).queue j).place := by
  refine State.modFn_keeps (fun F => (F.queue j).place) _ (fun F => ?_) s n m
  split
  · next h =>
    simp only [Fn.queue]
    rw [vector_getD_set _ _ _ _ _ h]
    split
    · next e => subst e; rw [hf, vector_getD _ _ _ h]
    · rfl
  · rfl

/-- An entry reads the same where rings, bindings, translations and memory are the same. -/
theorem State.entry_congr {s t : State} (r : CmdRef) (hp : ((t.fn r.fn).queue r.q).place = ((s.fn r.fn).queue r.q).place)
    (hb : t.bound? r.fn = s.bound? r.fn) (ht : ∀ p, (t.part p).trans = (s.part p).trans) (hm : t.physRead = s.physRead) : t.entry r = s.entry r := by
  obtain ⟨hring, hlog⟩ := Prod.mk.inj hp
  unfold State.entry State.fnRead Queue.entryOff
  simp only [hring, hlog, hb, ht, hm, State.vread]

theorem entry_popped (s : State) (r : CmdRef) : (popped s).entry r = s.entry r :=
  State.entry_congr r (s.place_modQueue _ _ _ (fun q => by rw [Queue.takeOne_frame]; rfl) _ _) (bound_popped s _) (fun _ => rfl) rfl

/-! ### What becomes of a command that is taken -/

/-- A command that comes and is well formed is refused by its own later status, or performed (R47). -/
theorem taken_of_comes {s : State} {i : Instr} (hc : Comes s i) {is : Nat → Bool} {bad : State → CmdRef → List Byte → Bool}
    {rest : State → CmdRef → List Byte → Nat} {ok : State → CmdRef → List Byte → State} (hx : exec i s = .next (s.withCommand is bad rest ok))
    (his : is (fldOf (s.entry s.cmd) 0 1) = true) (hbad : bad s s.cmd (s.entry s.cmd) = false) :
    (rest s s.cmd (s.entry s.cmd) ≠ 0 → Completes s i (rest s s.cmd (s.entry s.cmd)) (popped s)) ∧
    (rest s s.cmd (s.entry s.cmd) = 0 → exec i s = .next (ok (popped s) s.cmd (s.entry s.cmd))) := by
  obtain ⟨hmay, -, hknown, hfn, hentry⟩ := hc
  have hallowed : ¬ (s.cmd.fn ≠ 0 ∧ ((s.bound? s.cmd.fn).isNone ∨ (0x40 ≤ fldOf (s.entry s.cmd) 0 1 ∧ fldOf (s.entry s.cmd) 0 1 ≤ 0x4F))) := by
    rintro ⟨h0, h⟩
    obtain ⟨hbound, hpf⟩ := hfn h0
    rcases h with h | h
    · rw [Option.isNone_iff_eq_none] at h
      rw [h] at hbound
      cases hbound
    · exact hpf h
  have hw : s.withCommand is bad rest ok = if rest s s.cmd (s.entry s.cmd) ≠ 0 then (popped s).complete s.cmd (rest s s.cmd (s.entry s.cmd))
      else ok (popped s) s.cmd (s.entry s.cmd) := by
    unfold State.withCommand
    dsimp only
    rw [hmay, his, if_neg (by decide), if_neg hallowed, hknown, if_neg (by decide), hentry, hbad, if_neg (by decide)]
    rfl
  refine ⟨fun h => ?_, fun h => ?_⟩
  · rw [Completes, hx, hw, if_pos h]
  · rw [hx, hw, if_neg (not_not.2 h)]

end Sys2Proof.Machine
end

section
/-!
SUPPORT. The bindings of functions, which the completion of commands leaves as they were (spec/02 R43, R47; spec/19 R334).
-/

namespace Sys2Proof.Machine

/-- The bindings of the functions, in order. -/
def State.binds (s : State) : List (Option Binding) := s.fns.map (·.bind)

theorem State.bound_eq (s : State) (n : Nat) : s.bound? n = s.binds.getD n none := by
  simp only [State.bound?, State.fn, State.binds, List.getD_eq_getElem?_getD, List.getElem?_map]
  cases s.fns[n]? <;> rfl

theorem State.length_binds (s : State) : s.binds.length = s.fns.length := List.length_map _

theorem State.bound_of_binds {s t : State} (h : t.binds = s.binds) (n : Nat) : t.bound? n = s.bound? n := by
  rw [State.bound_eq, h, State.bound_eq]

theorem State.boundTo_of_binds {s t : State} (h : t.binds = s.binds) (p : Nat) : t.boundTo p = s.boundTo p :=
  State.boundTo_congr (by rw [← t.length_binds, h, s.length_binds]) (State.bound_of_binds h) p

theorem State.binds_of_fns {s t : State} (h : t.fns = s.fns) : t.binds = s.binds := congrArg (List.map Fn.bind) h

theorem State.binds_modFn (s : State) (n : Nat) (f : Fn → Fn) (hf : ∀ F, (f F).bind = F.bind) : (s.modFn n f).binds = s.binds := by
  refine List.ext_getElem? fun i => ?_
  simp only [State.binds, State.modFn, List.getElem?_map, List.getElem?_modify]
  cases s.fns[i]? <;> by_cases e : n = i <;> simp [e, hf]

@[simp] theorem State.binds_modQueue (s : State) (n q : Nat) (f : Queue → Queue) : (s.modQueue n q f).binds = s.binds :=
  s.binds_modFn n _ fun F => by split <;> rfl

@[simp] theorem State.binds_modVec (s : State) (n v : Nat) (f : Vec → Vec) : (s.modVec n v f).binds = s.binds :=
  s.binds_modFn n _ fun F => by split <;> rfl

@[simp] theorem State.binds_physWrite (s : State) (l : Loc) (bs : List Byte) : (s.physWrite l bs).binds = s.binds :=
  State.binds_of_fns (by simpa [State.core] using congrArg State.fns (s.core_physWrite l bs))

@[simp] theorem State.binds_vwrite (s : State) (tr : List PageT) (va : Nat) (bs : List Byte) : (s.vwrite tr va bs).binds = s.binds :=
  State.binds_of_fns (by simpa [State.core] using congrArg State.fns (s.core_vwrite tr va bs))

@[simp] theorem State.binds_fnWrite (s : State) (n : Nat) (base : Word) (off : Nat) (bs : List Byte) : (s.fnWrite n base off bs).binds = s.binds := by
  unfold State.fnWrite
  dsimp only
  split
  · split
    · exact s.binds_vwrite _ _ _
    · rfl
  · exact s.binds_physWrite _ _

@[simp] theorem State.binds_countVec (s : State) (n v : Nat) : (s.countVec n v).binds = s.binds := by
  have hsend (s : State) : (s.sendVec n v).binds = s.binds := by
    unfold State.sendVec
    split
    · exact s.binds_modVec _ _ _
    · exact s.binds_modVec n v fun x => { x with pend := 0 }
  have htrig (s : State) : (s.countTrigger n v).binds = s.binds := by
    unfold State.countTrigger
    dsimp only
    split
    · exact hsend s
    · rfl
  unfold State.countVec
  refine (htrig _).trans ?_
  split
  · exact s.binds_modVec _ _ _
  · exact s.binds_modVec n v fun x => { x with pend := x.pend + 1, t0 := _, active := x.time }

@[simp] theorem State.binds_noteWaits (s : State) : s.noteWaits.binds = s.binds := by
  refine foldl_keeps State.binds _ (fun s x => ?_) _ _
  split
  · rfl
  · split
    · exact s.binds_modQueue _ _ _
    · rfl

@[simp] theorem State.binds_cmdSignal (s : State) (fn : Nat) (e : List Byte) : (s.cmdSignal fn e).binds = s.binds := by
  unfold State.cmdSignal
  split <;> simp [State.signalAt]

@[simp] theorem State.binds_completeAs (s : State) (r : CmdRef) (status : Nat) (b3 : Option Nat) (sig : Bool) :
    (s.completeAs r status b3 sig).binds = s.binds := by
  unfold State.completeAs
  extract_lets q e s1 s2 s3 s4 s5
  have h3 : s3.binds = s.binds := by simp [s3, s2, s1]
  have h4 : s4.binds = s.binds := by
    simp only [s4]
    split
    · rw [binds_cmdSignal, h3]
    · exact h3
  have h5 : s5.binds = s.binds := by rw [binds_noteWaits, h4]
  split
  · rfl
  · split
    · rw [binds_countVec, h5]
    · exact h5

@[simp] theorem State.binds_complete (s : State) (r : CmdRef) (status : Nat) : (s.complete r status).binds = s.binds :=
  s.binds_completeAs r status none true

/-- A function whose binding is removed is not bound. -/
theorem State.bound_unbind (s : State) (n : Nat) : (s.modFn n fun f => { f with bind := none }).bound? n = none := by
  simp only [State.bound?, State.fn, State.modFn, List.getD_eq_getElem?_getD, List.getElem?_modify]
  cases s.fns[n]? <;> simp [Fn.zero]

end Sys2Proof.Machine
end

section
/-!
PROOF of O42: the free pages of HBM, as commands take and free them (spec/02 R39, R48; spec/03 R68; spec/05 R116).
-/

namespace Sys2Proof.Machine

/-! ### What taking and freeing pages leaves as it was -/

/-- The machine without what the taking of pages changes. -/
def State.offPages (s : State) : State := { s with usedPages := [], hbm := [], poison := [], tags := [] }

theorem State.offPages_takePages {size n : Nat} {s t : State} {ks : List Nat} (h : s.takePages size n = some (t, ks)) : t.offPages = s.offPages := by
  induction n generalizing s t ks with
  | zero =>
    cases h
    rfl
  | succ n ih =>
    obtain ⟨k, -, hk⟩ := Option.bind_eq_some_iff.1 h
    obtain ⟨⟨u, l⟩, hu, he⟩ := Option.map_eq_some_iff.1 hk
    cases he
    exact (ih hu).trans rfl

theorem State.offPages_mapFresh {es : List PageT} {s t : State} {l : List PageT} (h : s.mapFresh es = some (t, l)) : t.offPages = s.offPages := by
  induction es generalizing s t l with
  | nil =>
    cases h
    rfl
  | cons e es ih =>
    unfold State.mapFresh at h
    split at h
    · next u k ks hu =>
      obtain ⟨⟨v, m⟩, hv, he⟩ := Option.map_eq_some_iff.1 h
      cases he
      exact (ih hv).trans (State.offPages_takePages hu)
    · cases h

/-- The machine without what the freeing of pages changes. -/
def State.offFreed (s : State) : State := { s with usedPages := [], quarantine := [], heldFree := [] }

@[simp] theorem State.offFreed_freePage (s : State) (k : Nat) : (s.freePage k).offFreed = s.offFreed := by
  unfold State.freePage
  split <;> rfl

@[simp] theorem State.offFreed_freeEntry (s : State) (p : Nat) (e : PageT) : (s.freeEntry p e).offFreed = s.offFreed := by
  unfold State.freeEntry
  split
  · rfl
  · refine foldl_keeps State.offFreed _ (fun s i => ?_) _ _
    dsimp only
    split
    · rfl
    · exact s.offFreed_freePage _

section
variable {s t : State}

theorem State.parts_of_offPages (h : t.offPages = s.offPages) : t.parts = s.parts := by simpa [State.offPages] using congrArg State.parts h
theorem State.parts_of_offFreed (h : t.offFreed = s.offFreed) : t.parts = s.parts := by simpa [State.offFreed] using congrArg State.parts h
end

/-! ### A search for free pages goes far enough -/

/-- The k-th run of `size` pages is free. -/
def State.runFree (s : State) (size k : Nat) : Bool := (List.range size).all fun i => s.pageFree (size * k + i)

theorem State.findPages_eq (s : State) (size f k : Nat) : s.findPages size f k = ((List.range' k f).find? (s.runFree size)).map (size * ·) := by
  induction f generalizing k with
  | zero => rfl
  | succ f ih =>
    rw [State.findPages, List.range'_succ, List.find?_cons, ih]
    cases h : s.runFree size k with
    | true => exact if_pos h
    | false => exact if_neg (Bool.eq_false_iff.1 h)

/-- The pages that are not free for a reason of their own. -/
def State.takenPages (s : State) : List Nat := s.usedPages ++ s.retired.pages ++ s.quarantine.map (·.page) ++ s.heldFree

theorem State.pageFuel_eq (s : State) : s.pageFuel = s.takenPages.length + 1 := by
  simp [State.pageFuel, State.takenPages, Nat.add_assoc]

theorem State.mem_takenPages (s : State) {k : Nat} (hk : k < Config.hbmPages) (h : s.pageFree k = false) : k ∈ s.takenPages := by
  by_contra hn
  simp only [State.takenPages, List.mem_append, List.mem_map, not_or, not_exists, not_and] at hn
  obtain ⟨⟨⟨h1, h2⟩, h3⟩, h4⟩ := hn
  have : s.pageFree k = true := by
    simp only [State.pageFree, hk, decide_true, Bool.true_and, Bool.and_eq_true, Bool.not_eq_true', List.contains_eq_mem, decide_eq_false_iff_not,
      List.any_eq_false, decide_eq_true_eq]
    exact ⟨⟨⟨h1, h2⟩, fun x hx => h3 x hx⟩, h4⟩
  rw [this] at h
  cases h

/-- Before the first run that is free stand no more runs than pages are taken. -/
theorem State.lt_pageFuel (s : State) {size b : Nat} (hb : s.runFree size b = true) (hn : ∀ j, j < b → s.runFree size j = false) : b < s.pageFuel := by
  rw [s.pageFuel_eq, Nat.lt_succ_iff]
  by_cases h0 : b = 0
  · rw [h0]
    exact Nat.zero_le _
  have hsz : 0 < size := by
    by_contra hs
    have hz : size = 0 := by omega
    have := hn 0 (by omega)
    rw [hz] at this
    cases this
  have hmem : ∀ j, j < b → j ∈ s.takenPages.map (· / size) := by
    intro j hj
    obtain ⟨i, hi, hfree⟩ : ∃ i ∈ List.range size, s.pageFree (size * j + i) = false := by
      have := hn j hj
      simpa [State.runFree] using this
    have hi := List.mem_range.1 hi
    have hlast : s.pageFree (size * b + 0) = true := List.all_eq_true.1 hb 0 (List.mem_range.2 hsz)
    have hlt : size * b < Config.hbmPages := by
      simp only [State.pageFree, Bool.and_eq_true, decide_eq_true_eq, Nat.add_zero] at hlast
      exact hlast.1.1.1.1
    have hle : size * (j + 1) ≤ size * b := Nat.mul_le_mul_left _ hj
    rw [Nat.mul_add, Nat.mul_one] at hle
    refine List.mem_map.2 ⟨size * j + i, s.mem_takenPages (by omega) hfree, ?_⟩
    rw [Nat.mul_add_div hsz, Nat.div_eq_of_lt hi, Nat.add_zero]
  have hsub : Finset.range b ⊆ (s.takenPages.map (· / size)).toFinset := fun j hj => List.mem_toFinset.2 (hmem j (Finset.mem_range.1 hj))
  calc b = (Finset.range b).card := (Finset.card_range b).symm
    _ ≤ (s.takenPages.map (· / size)).toFinset.card := Finset.card_le_card hsub
    _ ≤ (s.takenPages.map (· / size)).length := List.toFinset_card_le _
    _ = s.takenPages.length := List.length_map _

/-- Two machines in which the same pages are free. -/
def State.SameFree (s t : State) : Prop := ∀ k, t.pageFree k = s.pageFree k

/-- Where the same pages are free, a search that finds a run finds it. -/
theorem State.SameFree.findPages {s t : State} (h : s.SameFree t) {size k : Nat} (hf : s.findPages size s.pageFuel 0 = some k) :
    t.findPages size t.pageFuel 0 = some k := by
  have hrun : t.runFree size = s.runFree size := funext fun j => by
    unfold State.runFree
    exact congrArg (List.all _) (funext fun i => h _)
  rw [State.findPages_eq] at hf ⊢
  rw [hrun]
  obtain ⟨b, hb, rfl⟩ := Option.map_eq_some_iff.1 hf
  obtain ⟨hp, -, hbefore⟩ := List.find?_range'_eq_some.1 hb
  have hfirst : ∀ j, j < b → s.runFree size j = false := fun j hj => by simpa using hbefore j (Nat.zero_le _) hj
  have hlt : b < t.pageFuel := t.lt_pageFuel (by rw [hrun]; exact hp) fun j hj => by rw [hrun]; exact hfirst j hj
  have hfound : (List.range' 0 t.pageFuel).find? (s.runFree size) = some b :=
    List.find?_range'_eq_some.2 ⟨hp, List.mem_range'_1.2 ⟨Nat.zero_le _, by omega⟩, fun j _ hj => by simpa using hfirst j hj⟩
  rw [hfound]
  rfl

/-- Pages taken are free no longer, and the others are as before. -/
theorem State.pageFree_take (s : State) (l : List Nat) (k size j : Nat) :
    ((State.zeroPages { s with usedPages := l ++ s.usedPages } k size).pageFree j) = (s.pageFree j && !l.contains j) := by
  simp only [State.pageFree, State.zeroPages, List.contains_eq_mem, List.mem_append]
  by_cases h1 : j ∈ l <;> by_cases h2 : j ∈ s.usedPages <;> simp [h1, h2]

theorem State.SameFree.takePages {s t : State} (h : s.SameFree t) {size n : Nat} {u : State} {ks : List Nat} (hs : s.takePages size n = some (u, ks)) :
    ∃ v, t.takePages size n = some (v, ks) ∧ u.SameFree v := by
  induction n generalizing s t u ks with
  | zero =>
    cases hs
    exact ⟨t, rfl, h⟩
  | succ n ih =>
    obtain ⟨k, hk, hr⟩ := Option.bind_eq_some_iff.1 hs
    obtain ⟨⟨u', l⟩, hu, he⟩ := Option.map_eq_some_iff.1 hr
    cases he
    have hfree : (State.zeroPages { s with usedPages := (List.range size).map (k + ·) ++ s.usedPages } k size).SameFree
        (State.zeroPages { t with usedPages := (List.range size).map (k + ·) ++ t.usedPages } k size) := fun j => by
      rw [State.pageFree_take, State.pageFree_take, h j]
    obtain ⟨v, hv, huv⟩ := ih hfree hu
    exact ⟨v, Option.bind_eq_some_iff.2 ⟨k, h.findPages hk, Option.map_eq_some_iff.2 ⟨(v, l), hv, rfl⟩⟩, huv⟩

theorem State.SameFree.mapFresh {s t : State} (h : s.SameFree t) {es : List PageT} {u : State} {l : List PageT} (hs : s.mapFresh es = some (u, l)) :
    ∃ v, t.mapFresh es = some (v, l) ∧ u.SameFree v := by
  induction es generalizing s t u l with
  | nil =>
    cases hs
    exact ⟨t, rfl, h⟩
  | cons e es ih =>
    unfold State.mapFresh at hs
    split at hs
    · next s1 k ks hk =>
      obtain ⟨⟨u', m⟩, hu, he⟩ := Option.map_eq_some_iff.1 hs
      cases he
      obtain ⟨t1, ht1, hst⟩ := h.takePages hk
      obtain ⟨v, hv, huv⟩ := ih hst hu
      refine ⟨v, ?_, huv⟩
      unfold State.mapFresh
      rw [ht1]
      exact Option.map_eq_some_iff.2 ⟨(v, m), hv, rfl⟩
    · cases hs

/-! ### A page that is freed is not free yet (R116) -/

theorem State.sameFree_freePage (s : State) {k : Nat} (h : s.pageFree k = false) : s.SameFree (s.freePage k) := by
  intro j
  unfold State.freePage
  by_cases hj : j = k
  · subst hj
    rw [h]
    split <;> simp [State.pageFree]
  · split <;> simp [State.pageFree, hj, Ne.symm hj]

/-- The pages of an entry that are in use are freed without becoming free. -/
theorem State.SameFree.freeEntry {s t : State} (h : s.SameFree t) (p : Nat) (e : PageT)
    (he : e.loc.host = false → ∀ k, k < e.size → s.pageFree (e.loc.addr / 65536 + k) = false) : s.SameFree (t.freeEntry p e) := by
  unfold State.freeEntry
  cases hh : e.loc.host with
  | true => exact h
  | false =>
    have hfold : ∀ (l : List Nat) (t : State), s.SameFree t → (∀ i ∈ l, s.pageFree (e.loc.addr / 65536 + i) = false) →
        s.SameFree (l.foldl (fun s i => if s.sharedPage p (e.loc.addr / 65536 + i) then s else s.freePage (e.loc.addr / 65536 + i)) t) := by
      intro l
      induction l with
      | nil => exact fun t ht _ => ht
      | cons i is ih =>
        intro t ht hl
        refine ih _ ?_ fun j hj => hl j (List.mem_cons_of_mem _ hj)
        dsimp only
        split
        · exact ht
        · have hk : t.pageFree (e.loc.addr / 65536 + i) = false := by rw [ht, hl i List.mem_cons_self]
          exact fun j => (t.sameFree_freePage hk j).trans (ht j)
    exact hfold _ t h fun i hi => he hh i (List.mem_range.1 hi)

theorem State.SameFree.freeEntries {s : State} (p : Nat) (es : List PageT)
    (he : ∀ e ∈ es, e.loc.host = false → ∀ k, k < e.size → s.pageFree (e.loc.addr / 65536 + k) = false) :
    ∀ t, s.SameFree t → s.SameFree (es.foldl (fun s e => s.freeEntry p e) t) := by
  induction es with
  | nil => exact fun t ht => ht
  | cons e es ih =>
    exact fun t ht => ih (fun g hg => he g (List.mem_cons_of_mem _ hg)) _ (ht.freeEntry p e (he e List.mem_cons_self))

end Sys2Proof.Machine
end

section
/-!
PROOF of O42, continued: partitions are created and destroyed (spec/02 R38 to R42; log entry 64).
-/

namespace Sys2Proof.Machine

open Sys2Proof.Claims

/-! ### The opcode of a row -/

/-- The opcode of the commands of this part (R47). -/
def rowOp : Instr → Option Nat
  | .createPartition => some 0x40
  | .destroyPartition => some 0x41
  | .bindVf => some 0x42
  | .unbindVf => some 0x43
  | .quiesceHold | .quiesceSheet | .quiesceRelease | .quiesceRestore => some 0x44
  | .attest => some 0x45
  | _ => none

theorem op_of_rowOp {e : List Byte} {k : Nat} (h : rowOp (commandRow e) = some k) : fldOf e 0 1 = k := by
  unfold commandRow at h
  repeat' split at h
  all_goals simp_all [rowOp]

theorem op_of_comes {s : State} {i : Instr} {k : Nat} (hc : Comes s i) (hk : rowOp i = some k) : fldOf (s.entry s.cmd) 0 1 = k := by
  obtain ⟨-, hrow, -⟩ := hc
  exact op_of_rowOp (hrow ▸ hk)

/-! ### The slots of a share (R40) -/

/-- A slot of the ports' frames that no partition has, after those kept for firmware (R40). -/
def State.slotFree (s : State) (k : Nat) : Bool :=
  decide (8 ≤ k) && decide (k < 128) && !(s.parts.any fun P => P.valid && P.wireSlots.contains k)

theorem State.freeSlots_eq (s : State) (n : Nat) : s.freeSlots n = ((List.range 128).filter s.slotFree).take n := by
  have hdrop : (List.range 128).drop keptSlots = (List.range 128).filter fun k => decide (8 ≤ k) && decide (k < 128) := by decide
  rw [State.freeSlots, hdrop, List.filter_filter]
  refine congrArg (List.take n) (List.filter_congr fun k _ => ?_)
  rw [State.slotFree, Bool.and_comm]

section
variable (s : State) (n : Nat)

theorem State.slotFree_of_mem {k : Nat} (h : k ∈ s.freeSlots n) : s.slotFree k = true := by
  rw [s.freeSlots_eq] at h
  exact (List.mem_filter.1 (List.mem_of_mem_take h)).2

theorem State.pairwise_freeSlots : (s.freeSlots n).Pairwise (· < ·) := by
  rw [s.freeSlots_eq]
  exact (List.pairwise_lt_range.filter _).sublist (List.take_sublist _ _)

theorem State.length_freeSlots : (s.freeSlots n).length = min n ((List.range 128).countP s.slotFree) := by
  rw [s.freeSlots_eq, List.length_take, List.countP_eq_length_filter]

/-- The slots given are the lowest free ones. -/
theorem State.lt_of_not_mem_freeSlots {k j : Nat} (hk : s.slotFree k = true) (hn : k ∉ s.freeSlots n) (hj : j ∈ s.freeSlots n) : j < k := by
  have hk128 : k < 128 := by
    simp only [State.slotFree, Bool.and_eq_true, decide_eq_true_eq] at hk
    exact hk.1.2
  have hmem : k ∈ (List.range 128).filter s.slotFree := List.mem_filter.2 ⟨List.mem_range.2 hk128, hk⟩
  have hsorted : ((List.range 128).filter s.slotFree).Pairwise (· < ·) := List.pairwise_lt_range.filter _
  rw [s.freeSlots_eq] at hn hj
  rw [← List.take_append_drop n ((List.range 128).filter s.slotFree)] at hmem hsorted
  exact (List.pairwise_append.1 hsorted).2.2 j hj k ((List.mem_append.1 hmem).resolve_left hn)

end

/-! ### CREATE_PARTITION (R39, R40) -/

/-- The pods of a new partition stand on a die that heat has stopped. -/
def State.hotPods (s : State) (e : List Byte) : Bool :=
  (List.range (fldOf e 35 2)).any fun k => s.power.stopped.toList.getD (s.logical.getD (fldOf e 34 1 + k) 0 / 64) false

/-- The partition that an entry asks for, with the pages taken for its fault ring and its shadow area. -/
def State.created (s : State) (e : List Byte) (ks : List Nat) : Partition :=
  { newPartition (fldOf e 33 1) (fldOf e 34 1) (fldOf e 35 2) (s.shares e).1 (s.shares e).2.1 (s.shares e).2.2 (ks.take 5) (ks.drop 5) (s.hotPods e) with
    wireSlots := s.freeSlots (s.shares e).1 }

theorem createPartition_taken {s : State} (hc : Comes s .createPartition) (hbad : createBad s s.cmd (s.entry s.cmd) = false) :
    (createRest s s.cmd (s.entry s.cmd) ≠ 0 → Completes s .createPartition (createRest s s.cmd (s.entry s.cmd)) (popped s)) ∧
    (createRest s s.cmd (s.entry s.cmd) = 0 → exec .createPartition s = .next (match (popped s).takePages 1 (createPages (8 * fldOf (s.entry s.cmd) 35 2)) with
      | none => (popped s).complete s.cmd 6
      | some (t, ks) => (t.modPart (fldOf (s.entry s.cmd) 33 1) fun _ => (popped s).created (s.entry s.cmd) ks).complete s.cmd 1)) := by
  refine taken_of_comes hc rfl ?_ hbad
  rw [op_of_comes hc rfl]
  rfl

/-- A CREATE_PARTITION that is not refused finds its pages (R39). -/
theorem takePages_of_createRest {s : State} {r : CmdRef} {e : List Byte} (h : createRest s r e = 0) :
    ∃ t ks, (popped s).takePages 1 (createPages (8 * fldOf e 35 2)) = some (t, ks) ∧ t.parts = s.parts := by
  have hsome : (s.takePages 1 (createPages (8 * fldOf e 35 2))).isNone = false := by
    unfold createRest at h
    dsimp only at h
    split at h
    · exact absurd h (by decide)
    split at h
    · exact absurd h (by decide)
    split at h
    · exact absurd h (by decide)
    · next hroom =>
      simp only [not_or, Bool.not_eq_true] at hroom
      exact hroom.2.2.2
  obtain ⟨⟨u, ks⟩, hu⟩ := Option.isSome_iff_exists.1 (by simpa using hsome)
  obtain ⟨t, ht, -⟩ := State.SameFree.takePages (s := s) (t := popped s) (fun _ => rfl) hu
  have hparts : t.parts = (popped s).parts := State.parts_of_offPages (State.offPages_takePages ht)
  exact ⟨t, ks, ht, hparts⟩

/-- A partition as R39 and R40 give it. -/
theorem State.created_spec (s : State) (e : List Byte) (ks : List Nat) :
    let P := s.created e ks
    P.valid = true ∧ P.base = fldOf e 34 1 ∧ P.len = fldOf e 35 2 ∧ P.run = .idle ∧ P.launch = none ∧ P.ssn = 0 ∧
      P.tiles = List.replicate (8 * fldOf e 35 2) Tile.zero ∧ P.recs = List.replicate (s.shares e).2.2 LRec.idle ∧
      P.wire = (s.shares e).1 ∧ P.redSlots = fldOf e 38 1 ∧ P.wireSlots = s.freeSlots (s.shares e).1 :=
  ⟨rfl, rfl, rfl, rfl, rfl, rfl, rfl, rfl, rfl, rfl, rfl⟩

/-! ### DESTROY_PARTITION (R42) -/

theorem destroyPartition_taken {s : State} (hc : Comes s .destroyPartition) (hp : fldOf (s.entry s.cmd) 33 1 ≤ 63) :
    let p := fldOf (s.entry s.cmd) 33 1
    ((s.part p).valid = false → Completes s .destroyPartition 4 (popped s)) ∧
    ((s.part p).valid = true → s.boundTo p ≠ [] → Completes s .destroyPartition 5 (popped s)) ∧
    ((s.part p).valid = true → s.boundTo p = [] → exec .destroyPartition s = .next ((destroyPart (popped s) p).complete s.cmd 1)) := by
  obtain ⟨hrefused, hdone⟩ := taken_of_comes hc (i := .destroyPartition) (is := fun op => decide (op = 0x41)) (bad := fun _ _ e => decide (63 < fldOf e 33 1))
    (rest := fun s _ e => if !(s.part (fldOf e 33 1)).valid then 4 else if s.boundTo (fldOf e 33 1) ≠ [] then 5 else 0) rfl
    (by rw [op_of_comes hc rfl]; rfl) (decide_eq_false (Nat.not_lt.2 hp))
  refine ⟨fun hv => ?_, fun hv hb => ?_, fun hv hb => hdone ?_⟩
  · simp only [hv, Bool.not_false, if_true] at hrefused
    exact hrefused (by decide)
  · simp only [hv, hb, Bool.not_true, Bool.false_eq_true, if_false, ne_eq, not_false_eq_true, if_true] at hrefused
    exact hrefused (by decide)
  · simp [hv, hb]

theorem State.parts_kickCopy (s : State) (d q : Nat) : (s.kickCopy d q).parts = s.parts := by
  have hdue (t : State) (o : EngOp) : (t.copyDue o).parts = t.parts := by unfold State.copyDue; dsimp only; split <;> rfl
  unfold State.kickCopy
  dsimp only
  split
  · rfl
  · split
    · rfl
    · exact hdue _ _

/-- The agents of the operations, in order. -/
def State.opAgents (s : State) : List Agent := s.ops.map (·.agent)

theorem State.agents_kickCopy (s : State) (d q : Nat) : (s.kickCopy d q).opAgents = s.opAgents := by
  have hdue (t : State) (o : EngOp) : (t.copyDue o).ops = t.ops := by unfold State.copyDue; dsimp only; split <;> rfl
  unfold State.kickCopy
  dsimp only
  split
  · rfl
  · split
    · rfl
    · rw [State.opAgents, hdue, State.modOp, List.map_map]
      refine List.map_congr_left fun o _ => ?_
      dsimp only [Function.comp]
      split <;> rfl

/-- A partition's operations, and the tags on its buffers, are gone. -/
def State.withoutOps (s : State) (p : Nat) : State :=
  { s with ops := s.ops.filter fun o => !o.ofPart p, tags := s.tags.filter fun g => match g.at_ with
      | .buf q .. => decide (q ≠ p)
      | .word _ | .mgmt .. => true }

/-- Every engine goes on to its next copy. -/
def State.kickCopies (s : State) : State := (List.range 4).foldl (fun s d => (List.range 8).foldl (fun s q => s.kickCopy d q) s) s

theorem State.endOps_eq (s : State) (p : Nat) : s.endOps p = (s.withoutOps p).kickCopies := by
  unfold State.endOps State.kickCopies State.withoutOps
  rfl

theorem State.kickCopies_keeps {β : Type} (g : State → β) (h : ∀ s d q, g (State.kickCopy s d q) = g s) (s : State) : g s.kickCopies = g s :=
  foldl_keeps g _ (fun s d => foldl_keeps g _ (fun s q => h s d q) _ s) _ s

theorem State.parts_endOps (s : State) (p : Nat) : (s.endOps p).parts = s.parts := by
  rw [s.endOps_eq, State.kickCopies_keeps State.parts State.parts_kickCopy]
  rfl

/-- No operation of a partition is left when its operations have ended (R42). -/
theorem State.ofPart_endOps (s : State) (p : Nat) : ∀ o ∈ (s.endOps p).ops, o.ofPart p = false := by
  have hagents : (s.endOps p).opAgents = (s.withoutOps p).opAgents := by
    rw [s.endOps_eq, State.kickCopies_keeps State.opAgents State.agents_kickCopy]
  intro o ho
  have hmem : o.agent ∈ (s.withoutOps p).opAgents := hagents ▸ List.mem_map_of_mem ho
  obtain ⟨x, hx, he⟩ := List.mem_map.1 hmem
  have hxp : x.ofPart p = false := by simpa using (List.mem_filter.1 hx).2
  rw [EngOp.ofPart, ← he]
  exact hxp

/-- A partition's pages and shadow pages are freed. -/
def State.pagesDropped (s : State) (p : Nat) : State :=
  (s.part p).shadow.foldl (fun s k => s.freePage k) ((s.part p).trans.foldl (fun s e => s.freeEntry p e) s)

theorem State.offFreed_pagesDropped (s : State) (p : Nat) : (s.pagesDropped p).offFreed = s.offFreed := by
  rw [State.pagesDropped, foldl_keeps State.offFreed _ (fun s k => s.offFreed_freePage k), foldl_keeps State.offFreed _ (fun s e => s.offFreed_freeEntry p e)]

/-- What is left of a partition that is destroyed (R42). -/
theorem destroyPart_spec (s : State) (p : Nat) (hp : p < s.parts.length) : ((destroyPart s p).part p) = Partition.absent ∧
    ∀ o ∈ (destroyPart s p).ops, o.ofPart p = false := by
  obtain ⟨cmds, hd⟩ : ∃ cmds : List CmdRef, destroyPart s p =
      cmds.foldl (fun s r => s.complete r 5) (((s.pagesDropped p).endOps p).modPart p fun _ => Partition.absent) := ⟨_, rfl⟩
  have hu := s.offFreed_pagesDropped p
  generalize s.pagesDropped p = u at hd hu
  have hcmds : (destroyPart s p).offCommand = ((u.endOps p).modPart p fun _ => Partition.absent).offCommand := by
    rw [hd]
    exact foldl_keeps State.offCommand _ (fun s r => s.offCommand_complete r 5) _ _
  have hlen : p < (u.endOps p).parts.length := by rw [State.parts_endOps, State.parts_of_offFreed hu]; exact hp
  refine ⟨?_, fun o ho => ?_⟩
  · rw [State.part_of_offCommand hcmds, State.part_modPart _ _ _ hlen]
  · rw [State.ops_of_offCommand hcmds, State.modPart_ops] at ho
    exact State.ofPart_endOps u p o ho

end Sys2Proof.Machine

namespace Sys2Proof.Proofs

open Sys2Proof Sys2Proof.Machine Sys2Proof.Claims

theorem partitionCommands : PartitionCommands := by
  intro s hlen r e p wire free
  refine ⟨fun hc hbad hrest => ?_, fun hc hbad hrest => (createPartition_taken hc hbad).1 hrest, fun hc hp => ?_⟩
  · obtain ⟨t, ks, ht, hparts⟩ := takePages_of_createRest hrest
    have hx := (createPartition_taken hc hbad).2 hrest
    rw [ht] at hx
    have hp : p < t.parts.length := by
      rw [hparts, hlen]
      have : ¬ 63 < p := by
        unfold createBad at hbad
        simp only [Bool.or_eq_false_iff, decide_eq_false_iff_not] at hbad
        exact hbad.1.1.1.1
      omega
    have hpart := t.part_modPart p (fun _ => (popped s).created e ks) hp
    refine ⟨_, hx, ?_⟩
    intro P
    have hP : P = (popped s).created e ks := hpart
    rw [hP]
    obtain ⟨h1, h2, h3, h4, h5, h6, h7, h8, h9, h10, h11⟩ := (popped s).created_spec e ks
    refine ⟨h1, h2, h3, h4, h5, h6, h7, h8, h9, h10, fun k hk => ?_, ?_, ?_, fun k hk hn j hj => ?_, fun q hq => ?_⟩
    · exact (popped s).slotFree_of_mem _ hk
    · exact (popped s).pairwise_freeSlots _
    · exact (popped s).length_freeSlots _
    · exact (popped s).lt_of_not_mem_freeSlots _ hk hn hj
    · have hne : ((t.modPart p fun _ => (popped s).created e ks).part q) = s.part q := by
        rw [State.part_modPart_ne _ _ hq, State.part, hparts, State.part]
      exact ⟨congrArg Partition.valid hne, congrArg Partition.tiles hne⟩
  · obtain ⟨hinvalid, hbound, hdone⟩ := destroyPartition_taken hc hp
    refine ⟨fun hv hb => ⟨_, hdone hv hb, ?_⟩, hinvalid, hbound⟩
    obtain ⟨habsent, hops⟩ := destroyPart_spec (popped s) p (show p < s.parts.length by rw [hlen]; exact Nat.lt_succ_of_le hp)
    rw [habsent]
    exact ⟨rfl, rfl, hops⟩

end Sys2Proof.Proofs
end

section
/-!
PROOF of O42, continued: functions are bound and unbound, and the device attests (spec/02 R43; spec/03 R61; spec/19 R334; spec/01 R32).
-/

namespace Sys2Proof.Machine

open Sys2Proof.Claims

/-! ### BIND_VF (R43, R61) -/

/-- The binding that an entry asks for. -/
def State.bindingOf (s : State) (e : List Byte) : Binding :=
  let P := s.part (fldOf e 33 1)
  ⟨fldOf e 33 1, scopeOf (fldOf e 36 1), fldOf e 37 1, fldOf e 40 2, fldOf e 42 2, fldOf e 44 2,
    if fldOf e 37 1 = 0 then ⟨false, 65536 * (s.areaPages P).getD 0⟩ else ⟨true, fldOf e 48 8⟩,
    if fldOf e 37 1 = 0 then 65536 * (worstSave P.len P.nrec / 65536) else 65536 * fldOf e 56 4⟩

/-- The machine with the pages of a class 0 save area taken. -/
def State.areaTaken (s : State) (e : List Byte) : State :=
  let P := s.part (fldOf e 33 1)
  let n := worstSave P.len P.nrec / 65536
  let k := (s.areaPages P).getD 0
  if fldOf e 37 1 = 0 then { s with usedPages := (List.range n).map (k + ·) ++ s.usedPages }.zeroPages k n else s

theorem State.fns_takeRun (s : State) (l : List Nat) (k n : Nat) : (State.zeroPages { s with usedPages := l ++ s.usedPages } k n).fns = s.fns := rfl

theorem State.fns_areaTaken (s : State) (e : List Byte) : (s.areaTaken e).fns = s.fns := by
  unfold State.areaTaken
  dsimp only
  split
  · rw [State.fns_takeRun]
  · rfl

/-- What a BIND_VF that is not refused leaves. -/
def boundTaken (s : State) (r : CmdRef) (e : List Byte) : State :=
  ((s.areaTaken e).modFn (fldOf e 34 2) fun f => { f with bind := some (s.bindingOf e) }).complete r 1

theorem execBindVf_eq (s : State) : exec .bindVf s = .next (s.withCommand (fun op => decide (op = 0x42)) bindBad bindRest boundTaken) := rfl

theorem bindVf_taken {s : State} (hc : Comes s .bindVf) (hbad : bindBad s s.cmd (s.entry s.cmd) = false) (hrest : bindRest s s.cmd (s.entry s.cmd) = 0) :
    Completes s .bindVf 1 (((popped s).areaTaken (s.entry s.cmd)).modFn (fldOf (s.entry s.cmd) 34 2) fun f =>
      { f with bind := some ((popped s).bindingOf (s.entry s.cmd)) }) := by
  obtain ⟨-, hdone⟩ := taken_of_comes hc (execBindVf_eq s) (by rw [op_of_comes hc rfl]; rfl) hbad
  exact hdone hrest

theorem lt_of_bindRest {s : State} {r : CmdRef} {e : List Byte} (h : bindRest s r e = 0) : fldOf e 34 2 < s.fns.length := by
  by_contra hn
  have h4 : bindRest s r e = 4 := if_pos (.inr (.inr (.inr (Nat.le_of_not_lt hn))))
  rw [h] at h4
  exact absurd h4 (by decide)

/-- The worst-case save size is a number of pages. -/
theorem worstSave_pages (len nrec : Nat) : 65536 * (worstSave len nrec / 65536) = worstSave len nrec := by
  unfold worstSave
  omega

/-! ### UNBIND_VF (R334) -/

theorem unbindVf_taken {s : State} (hc : Comes s .unbindVf) (h0 : fldOf (s.entry s.cmd) 34 2 ≠ 0) (hlt : fldOf (s.entry s.cmd) 34 2 < s.fns.length) :
    exec .unbindVf s = .next (match (popped s).bound? (fldOf (s.entry s.cmd) 34 2) with
      | none => (popped s).complete s.cmd 1
      | some b => if ((popped s).part b.part).busyWith (fldOf (s.entry s.cmd) 34 2) then (popped s).stopAt b.part (.unbind (fldOf (s.entry s.cmd) 34 2))
          else (finishUnbind (popped s) (fldOf (s.entry s.cmd) 34 2)).complete s.cmd 1) := by
  obtain ⟨-, hdone⟩ := taken_of_comes hc (i := .unbindVf) (is := fun op => decide (op = 0x43)) (bad := noneBad)
    (rest := fun s _ e => if fldOf e 34 2 = 0 ∨ s.fns.length ≤ fldOf e 34 2 then 4 else 0) rfl (by rw [op_of_comes hc rfl]; rfl) rfl
  exact hdone (if_neg (not_or.2 ⟨h0, Nat.not_le.2 hlt⟩))

/-- A function that has been unbound is bound to nothing. -/
theorem bound_finishUnbind (s : State) (fn : Nat) : (finishUnbind s fn).bound? fn = none := by
  unfold finishUnbind
  split
  · next h => exact h
  · exact State.bound_unbind _ fn

theorem Partition.busyWith_absent (fn : Nat) : Partition.absent.busyWith fn = false := by
  simp [Partition.busyWith, Partition.absent]

theorem State.lt_of_busyWith (s : State) {p fn : Nat} (h : (s.part p).busyWith fn = true) : p < s.parts.length := by
  by_contra hn
  rw [s.part_of_le (Nat.le_of_not_lt hn), Partition.busyWith_absent] at h
  cases h

/-! ### ATTEST (R32) -/

theorem attest_taken {s : State} (hc : Comes s .attest) (h40 : fldOf (s.entry s.cmd) 40 8 % 8 = 0) (h48 : fldOf (s.entry s.cmd) 48 8 % 8 = 0)
    (h33 : fldOf (s.entry s.cmd) 33 7 = 0) (h56 : fldOf (s.entry s.cmd) 56 8 = 0) :
    Completes s .attest 1 ((popped s).physWrite ⟨true, fldOf (s.entry s.cmd) 48 8⟩ ((popped s).report (s.physRead ⟨true, fldOf (s.entry s.cmd) 40 8⟩ 32))) := by
  obtain ⟨-, hdone⟩ := taken_of_comes hc (i := .attest) (is := fun op => decide (op = 0x45))
    (bad := fun _ _ e => decide (fldOf e 40 8 % 8 ≠ 0) || decide (fldOf e 48 8 % 8 ≠ 0) || fldOf e 33 7 != 0 || fldOf e 56 8 != 0) (rest := noneRest) rfl
    (by rw [op_of_comes hc rfl]; rfl) (by simp [h40, h48, h33, h56])
  exact hdone rfl

end Sys2Proof.Machine

namespace Sys2Proof.Proofs

open Sys2Proof Sys2Proof.Machine Sys2Proof.Claims

theorem functionCommands : FunctionCommands := by
  intro s r e fn
  refine ⟨fun hc hbad hrest => ?_, fun hc h0 hlt => ⟨fun hb => ?_, fun b hb => ⟨fun hbusy => ?_, fun hbusy => ?_⟩⟩, fun hwf hc h40 h48 h33 h56 => ?_⟩
  · refine ⟨_, (popped s).bindingOf e, bindVf_taken hc hbad hrest, ?_, rfl, rfl, rfl, rfl, rfl, rfl, fun h => ⟨?_, ?_⟩, fun h => ⟨?_, ?_⟩⟩
    · refine congrArg Fn.bind (State.fn_modFn _ _ ?_)
      rw [State.fns_areaTaken, length_fns_popped]
      exact lt_of_bindRest hrest
    · have h : fldOf e 37 1 = 0 := h
      simp only [State.bindingOf, h, if_true]
    · have h : fldOf e 37 1 = 0 := h
      simp only [State.bindingOf, h, if_true, part_popped]
      exact worstSave_pages _ _
    · exact if_neg (show ¬ fldOf e 37 1 = 0 from h)
    · exact if_neg (show ¬ fldOf e 37 1 = 0 from h)
  · have hx := unbindVf_taken hc h0 hlt
    rw [bound_popped, hb] at hx
    exact hx
  · have hx := unbindVf_taken hc h0 hlt
    rw [bound_popped, hb] at hx
    refine ⟨_, hx.trans (congrArg _ (if_neg (Bool.eq_false_iff.1 hbusy))), ?_⟩
    exact (State.bound_of_binds (State.binds_complete _ _ _) fn).trans (bound_finishUnbind _ fn)
  · have hx := unbindVf_taken hc h0 hlt
    rw [bound_popped, hb] at hx
    refine ⟨_, hx.trans (congrArg _ (if_pos hbusy)), (bound_popped s fn).trans hb, ?_⟩
    exact congrArg Partition.stops ((popped s).part_modPart b.part _ (s.lt_of_busyWith hbusy))
  · refine ⟨_, attest_taken hc h40 h48 h33 h56, ?_⟩
    obtain ⟨-, hhost, -⟩ := hwf
    exact Memory.readRun_writeRun hhost _ _

end Sys2Proof.Proofs
end

section
/-!
PROOF of O42, continued: QUIESCE in its order, HOLD, SHEET and RELEASE (spec/03 R55 to R59).
-/

namespace Sys2Proof.Machine

open Sys2Proof.Claims

/-! ### A QUIESCE is taken (R55, R59) -/

/-- The row of a QUIESCE of a mode. -/
def quiesceRow : Nat → Instr
  | 1 => .quiesceSheet
  | 2 => .quiesceRelease
  | 3 => .quiesceRestore
  | _ => .quiesceHold

theorem commandRow_quiesce {e : List Byte} (h : fldOf e 0 1 = 0x44) : commandRow e = quiesceRow (fldOf e 34 1) := by
  unfold commandRow quiesceRow
  rw [h]
  rfl

theorem mode_le_of_quiesceBad {s : State} {r : CmdRef} {e : List Byte} (h : quiesceBad s r e = false) : fldOf e 34 1 ≤ 3 := by
  unfold quiesceBad at h
  simp only [Bool.or_eq_false_iff, decide_eq_false_iff_not] at h
  exact Nat.not_lt.1 h.1.1.1.1.1

theorem exec_quiesceRow (s : State) {k : Nat} (hm : fldOf (s.entry s.cmd) 34 1 = k) (hk : k ≤ 3) : exec (quiesceRow k) s =
    .next (s.withCommand (fun op => decide (op = 0x44)) quiesceBad quiesceRange takeQuiesce) := by
  have hq : s.quiesce k = s.withCommand (fun op => decide (op = 0x44)) quiesceBad quiesceRange takeQuiesce := if_pos (.inl hm)
  obtain rfl | rfl | rfl | rfl : k = 0 ∨ k = 1 ∨ k = 2 ∨ k = 3 := by omega
  · exact congrArg Host.Outcome.next hq
  · exact congrArg Host.Outcome.next hq
  · exact congrArg Host.Outcome.next hq
  · exact congrArg Host.Outcome.next hq

/-- A QUIESCE that is not refused is taken by its mode. -/
theorem quiesce_taken {s : State} {i : Instr} (hc : Comes s i) (hi : rowOp i = some 0x44) (hbad : quiesceBad s s.cmd (s.entry s.cmd) = false)
    (hrange : quiesceRange s s.cmd (s.entry s.cmd) = 0) : i = quiesceRow (fldOf (s.entry s.cmd) 34 1) ∧
      exec i s = .next (takeQuiesce (popped s) s.cmd (s.entry s.cmd)) := by
  have hop := op_of_comes hc hi
  have hrow : i = quiesceRow (fldOf (s.entry s.cmd) 34 1) := by
    obtain ⟨-, hrow, -⟩ := id hc
    rw [← hrow, commandRow_quiesce hop]
  have hx := exec_quiesceRow s rfl (mode_le_of_quiesceBad hbad)
  rw [← hrow] at hx
  exact ⟨hrow, (taken_of_comes hc hx (by rw [hop]; rfl) hbad).2 hrange⟩

theorem mode_of_row {k : Nat} : (Instr.quiesceSheet = quiesceRow k → k = 1) ∧ (Instr.quiesceRelease = quiesceRow k → k = 2) ∧
    (Instr.quiesceRestore = quiesceRow k → k = 3) ∧ (Instr.quiesceHold = quiesceRow k → k ≠ 1 ∧ k ≠ 2 ∧ k ≠ 3) := by
  unfold quiesceRow
  split <;> simp_all

section
variable {s : State} {r : CmdRef} {e : List Byte}

/-- A QUIESCE that has to wait waits behind the earlier stops, and its bound has not begun (R59). -/
theorem takeQuiesce_waits (h : (s.part (fldOf e 33 1)).quiesceWaits = true ∨ fldOf e 34 1 = 3 ∧ (s.part (fldOf e 33 1)).atRest = true ∧
    (s.part (fldOf e 33 1)).drains ≠ []) :
    takeQuiesce s r e = s.modPart (fldOf e 33 1) fun P => { P with stops := P.stops ++ [(.quiesce r, 0)] } := by
  refine if_pos ?_
  rcases h with h | ⟨hm, hr, hd⟩
  · rw [h]; rfl
  · simp [hm, hr, hd]

theorem takeQuiesce_now (hw : (s.part (fldOf e 33 1)).quiesceWaits = false) (h : fldOf e 34 1 = 3 → (s.part (fldOf e 33 1)).atRest = true →
    (s.part (fldOf e 33 1)).drains = []) : takeQuiesce s r e = performQuiesce s (fldOf e 33 1) r := by
  refine if_neg ?_
  rw [hw]
  simp only [Bool.false_or, Bool.and_eq_true, decide_eq_true_eq, Bool.not_eq_true', List.isEmpty_eq_false_iff, not_and, not_not]
  exact fun ⟨hm, hr⟩ => h hm hr

theorem performQuiesce_start (p : Nat) (he : s.entry r = e) (h2 : fldOf e 34 1 ≠ 2) (h3 : fldOf e 34 1 ≠ 3) : performQuiesce s p r = startQuiesce s r e := by
  unfold performQuiesce
  dsimp only
  rw [he]
  split
  · contradiction
  · contradiction
  · rfl

theorem performQuiesce_release (p : Nat) (he : s.entry r = e) (h : fldOf e 34 1 = 2) : performQuiesce s p r = (release s p).complete r 1 := by
  unfold performQuiesce
  dsimp only
  rw [he, h]
  rfl

theorem performQuiesce_restore (p : Nat) (he : s.entry r = e) (h : fldOf e 34 1 = 3) : performQuiesce s p r = performRestore s p r e := by
  unfold performQuiesce
  dsimp only
  rw [he, h]
  rfl

/-! ### HOLD and SHEET (R56) -/

theorem startQuiesce_drains (hr : (s.part (fldOf e 33 1)).atRest = true) (hd : (s.part (fldOf e 33 1)).drains ≠ []) : startQuiesce s r e =
    s.modPart (fldOf e 33 1) fun P => { P with run := if P.run = .idle then .held else P.run, stops := P.stops ++ [(.quiesce r, 0)] } :=
  if_pos (by simp [hr, hd])

theorem startQuiesce_idle (hd : (s.part (fldOf e 33 1)).drains = []) (hi : (s.part (fldOf e 33 1)).run = .idle) : startQuiesce s r e =
    finishQuiesce (s.modPart (fldOf e 33 1) fun P => { P with run := .held }) (fldOf e 33 1) r :=
  (if_neg (by simp [hd])).trans (if_pos hi)

/-- A partition that stands still and is to be copied or held: what a release that was under way had begun is undone (R56). -/
def Partition.atSheet (P : Partition) : Partition :=
  { P with releasing := false, restored := P.restored || P.releasing, tiles := P.tiles.map fun T => { T with building := false } }

theorem Partition.trans_atSheet (P : Partition) : P.atSheet.trans = P.trans := rfl

theorem startQuiesce_still (hr : (s.part (fldOf e 33 1)).atRest = true) (hd : (s.part (fldOf e 33 1)).drains = [])
    (hi : (s.part (fldOf e 33 1)).run ≠ .idle) : startQuiesce s r e = finishQuiesce (s.modPart (fldOf e 33 1) Partition.atSheet) (fldOf e 33 1) r :=
  (if_neg (by simp [hd])).trans ((if_neg hi).trans (if_pos hr))

theorem startQuiesce_running (hr : (s.part (fldOf e 33 1)).atRest = false) : startQuiesce s r e =
    (s.modPart (fldOf e 33 1) fun P => { P with stops := P.stops ++ [(.quiesce r, s.cycle + washBound e * 1800)] }).schedule
      (washBound e * 1800) .quiesceBoundExpiry { p := fldOf e 33 1, fn := r.fn, q := r.q, idx := r.idx } := by
  have hidle : (s.part (fldOf e 33 1)).run ≠ .idle := fun h => by simp [Partition.atRest, h] at hr
  exact (if_neg (by simp [hr])).trans ((if_neg hidle).trans (if_neg (by simp [hr])))

theorem finishQuiesce_hold (p : Nat) (he : s.entry r = e) (h : fldOf e 34 1 ≠ 1) : finishQuiesce s p r = s.complete r 1 := by
  unfold finishQuiesce
  dsimp only
  rw [he, if_neg h]

theorem finishQuiesce_sheet (p : Nat) (he : s.entry r = e) (h : fldOf e 34 1 = 1) : finishQuiesce s p r = startSheet s p r e := by
  unfold finishQuiesce
  dsimp only
  rw [he, if_pos h]

end

/-- An entry reads the same after a partition changes without its translation. -/
theorem State.entry_modPart (s : State) (p : Nat) (f : Partition → Partition) (hf : ∀ P, (f P).trans = P.trans) (r : CmdRef) :
    (s.modPart p f).entry r = s.entry r :=
  State.entry_congr r rfl rfl (fun q => State.modPart_keeps Partition.trans f hf s p q) rfl

end Sys2Proof.Machine
end

section
/-!
PROOF of O42, continued: the contact sheet of a partition that stands still (spec/03 R56, R58, R63, R64).
-/

namespace Sys2Proof.Machine

open Sys2Proof.Claims

/-! ### The sheet reads nothing that standing still changes -/

theorem Partition.tileSecs_atSheet (P : Partition) : P.atSheet.tileSecs = P.tileSecs := by
  show ((P.tiles.map _).zipIdx.map _) = P.tiles.zipIdx.map _
  rw [List.zipIdx_map, List.map_map]
  exact List.map_congr_left fun _ _ => rfl

section
variable {s t : State} {p : Nat} (hb : t.binds = s.binds) (hm : t.physRead = s.physRead) (hp : t.part p = (s.part p).atSheet)
include hb hp

theorem savedOut_atSheet : t.savedOut p = s.savedOut p := by
  have harea (n : Nat) : t.areaOf p n = s.areaOf p n := by rw [State.areaOf, State.bound_of_binds hb, State.areaOf]
  simp only [State.savedOut, hp, harea]
  rfl

omit hp in
theorem fnSection_atSheet : t.fnSection p = s.fnSection p := by
  simp only [State.fnSection, State.boundTo_of_binds hb, State.bound_of_binds hb]

include hm

/-- The sections of a sheet do not tell whether a build of tables was under way (R56, R64). -/
theorem sheetSecs_atSheet : t.sheetSecs p = s.sheetSecs p := by
  have hdesc : t.descSection p = s.descSection p := by rw [State.descSection, hp]; rfl
  have hpage : t.pageSection p = s.pageSection p := by rw [State.pageSection, hp, hm]; rfl
  have hring : t.ringSection p = s.ringSection p := by rw [State.ringSection, State.vread, hp, hm]; rfl
  have htiles : (t.part p).tileSecs = (s.part p).tileSecs := by rw [hp, Partition.tileSecs_atSheet]
  have hpool : (t.part p).poolSection = (s.part p).poolSection := by rw [hp]; rfl
  have hidx : (t.part p).runIndex = (s.part p).runIndex := by rw [hp]; rfl
  have hstate (i : Nat) : (t.part p).stateSection i = (s.part p).stateSection i := by rw [hp]; rfl
  have hmon : (t.part p).monSection = (s.part p).monSection := by rw [hp]; rfl
  simp only [State.sheetSecs, savedOut_atSheet hb hp, fnSection_atSheet hb, hdesc, hpage, hring, htiles, hpool, hidx, hstate, hmon, State.savedBytes, hm]

theorem sheetPoison_atSheet (hpo : t.poison = s.poison) : t.sheetPoison p = s.sheetPoison p := by
  have hpoison (l : Loc) (n : Nat) : t.poisonAt l n = s.poisonAt l n := by rw [State.poisonAt, hpo, State.poisonAt]
  have htrans : (t.part p).trans = (s.part p).trans := by rw [hp]; rfl
  simp only [State.sheetPoison, savedOut_atSheet hb hp, hpoison, htrans, State.savedBytes, hm]

end

/-! ### SHEET (R58) -/

section
variable {s : State} {p : Nat} {r : CmdRef} {e : List Byte}

theorem startSheet_lost (h : (s.part p).lostData = true) : startSheet s p r e = s.complete r 6 :=
  if_pos (by rw [h]; rfl)

/-- A sheet that is begun is written, and its end comes later; the command stays open (R58). -/
theorem startSheet_begins (hp : p < s.parts.length) (hl : (s.part p).lostData = false) (hpo : s.sheetPoison p = false)
    (hlen : sheetLength (s.sheetSecs p) ((fldOf e 35 1).testBit 0) ≤ fldOf e 48 8) :
    ((startSheet s p r e).part p) = { s.part p with sheet := some r } ∧ (startSheet s p r e).fns = s.fns ∧
      ∃ d ∈ (startSheet s p r e).agenda, d.ev = .sheetWriteDone ∧ s.cycle < d.at_ ∧ d.arg.p = p ∧ d.arg.v = BitVec.ofNat 64 (fldOf e 40 8) := by
  obtain ⟨bs, hs⟩ : ∃ bs, startSheet s p r e = ((s.modPart p fun P => { P with sheet := some r }).vwrite (s.part p).trans (fldOf e 40 8) bs).scheduleFree
      .sheet .sheetWriteDone { p := p, fn := r.fn, q := r.q, idx := r.idx, v := BitVec.ofNat 64 (fldOf e 40 8), m := s.epoch.toNat } := by
    refine ⟨_, (if_neg ?_).trans (if_neg (by rw [hpo]; decide))⟩
    rw [hl, Bool.false_or, decide_eq_true_eq]
    exact Nat.not_lt.2 hlen
  have hcore := ((s.modPart p fun P => { P with sheet := some r }).core_vwrite (s.part p).trans (fldOf e 40 8) bs)
  have hparts := ((s.modPart p fun P => { P with sheet := some r }).parts_vwrite (s.part p).trans (fldOf e 40 8) bs)
  have hpart := s.part_modPart p (fun P => { P with sheet := some r }) hp
  rw [hs]
  generalize ((s.modPart p fun P => { P with sheet := some r }).vwrite (s.part p).trans (fldOf e 40 8) bs) = u at hcore hparts
  have hcycle : u.cycle = s.cycle := State.cycle_of_core hcore
  have hfns : u.fns = s.fns := by simpa [State.core] using congrArg State.fns hcore
  refine ⟨?_, hfns, _, List.mem_append_right _ List.mem_cons_self, rfl, ?_, rfl, rfl⟩
  · rw [← hpart]
    show u.parts.getD p Partition.absent = _
    rw [hparts]
    rfl
  · show s.cycle < u.cycle + (1 + _)
    omega

end

end Sys2Proof.Machine
end

section
/-!
PROOF of O42, continued: RELEASE and RESTORE (spec/03 R58, R66 to R68).
-/

namespace Sys2Proof.Machine

open Sys2Proof.Claims

/-! ### RELEASE (R58, R83) -/

section
variable {s : State} {p : Nat}

theorem release_idle (hr : (s.part p).run = .held) (hb : (s.part p).releasing = false) (hl : (s.part p).launch = none) :
    release s p = s.modPart p fun P => { P with run := .idle, restored := false } :=
  (if_neg (by simp [hr, hb])).trans (if_pos (by rw [hl]; rfl))

theorem release_running (hr : (s.part p).run = .held) (hb : (s.part p).releasing = false) (hl : (s.part p).launch ≠ none)
    (hn : (s.part p).restored = false) : release s p = (s.modPart p fun P => { P with restored := false }).toRunning p :=
  (if_neg (by simp [hr, hb])).trans ((if_neg (by simpa using hl)).trans (if_neg (by simp [hn])))

/-- A partition with nothing to run is Idle after its release, and one whose launch stood where it was held runs. -/
theorem run_release (hp : p < s.parts.length) (hr : (s.part p).run = .held) (hb : (s.part p).releasing = false) :
    ((s.part p).launch = none → ((release s p).part p).run = .idle) ∧
      ((s.part p).launch ≠ none → (s.part p).restored = false → ((release s p).part p).run = .running) := by
  refine ⟨fun hl => ?_, fun hl hn => ?_⟩
  · rw [release_idle hr hb hl, s.part_modPart p _ hp]
  · rw [release_running hr hb hl hn]
    exact congrArg Prod.fst ((s.modPart p fun P => { P with restored := false }).runHeat_toRunning (by rw [State.length_parts_modPart]; exact hp))

end

/-! ### RESTORE (R66, R67) -/

section
variable {s : State} {p : Nat} {r : CmdRef} {e : List Byte}

theorem performRestore_invalid (h : validSheet (s.sheetIn p e) (fldOf e 48 8) = false) : performRestore s p r e = s.complete r 3 :=
  if_pos (by rw [h]; rfl)

variable (h : validSheet (s.sheetIn p e) (fldOf e 48 8) = true)
include h

theorem performRestore_moving (hr : (s.part p).atRest = false) : performRestore s p r e = s.complete r 5 :=
  (if_neg (by simp [h])).trans (if_pos (by rw [hr]; rfl))

variable (hr : (s.part p).atRest = true)
include hr

theorem performRestore_number (hn : fldOf e 56 4 ≠ 0xFFFFFFFF) (hs : fldOf e 56 4 ≠ fldOf (findSec (secsOf (s.sheetIn p e)) 0x02) 0 4) :
    performRestore s p r e = s.completeAs r 7 (some 0x24) false :=
  (if_neg (by simp [h])).trans ((if_neg (by simp [hr])).trans (if_pos ⟨hn, hs⟩))

variable (hn : fldOf e 56 4 = 0xFFFFFFFF ∨ fldOf e 56 4 = fldOf (findSec (secsOf (s.sheetIn p e)) 0x02) 0 4)
include hn

theorem performRestore_shape (hb : s.badShape p (secsOf (s.sheetIn p e)) = true) : performRestore s p r e = s.completeAs r 7 (some 0x25) false :=
  (if_neg (by simp [h])).trans ((if_neg (by simp [hr])).trans ((if_neg fun ⟨h1, h2⟩ => hn.elim h1 h2).trans (if_pos hb)))

theorem performRestore_done (hb : s.badShape p (secsOf (s.sheetIn p e)) = false) :
    performRestore s p r e = (restore s p (secsOf (s.sheetIn p e))).completeAs r 1 (some 0) true :=
  (if_neg (by simp [h])).trans ((if_neg (by simp [hr])).trans ((if_neg fun ⟨h1, h2⟩ => hn.elim h1 h2).trans (if_neg (by simp [hb]))))

end

/-! ### What a partition is after a restoration (R68) -/

/-- The run state, whether a sheet has been restored, and the superstep number. -/
def Partition.rested (P : Partition) : RunSt × Bool × BitVec 32 := (P.run, P.restored, P.ssn)

/-- The entries of the pages of HBM that a sheet asks for. -/
def freshEntries (xs : List Sec) : List PageT := (mapEntries (findSec xs 0x20)).filter fun e => !e.loc.host

/-- The pages that a restoration unmaps are freed. -/
def State.unmapped (s : State) (p : Nat) : State :=
  ((s.part p).trans.filter fun e => !((s.part p).keptPages p).contains e).foldl (fun s e => s.freeEntry p e)
    (s.modPart p fun P => { P with trans := (s.part p).keptPages p })

theorem restore_eq {s t : State} {p : Nat} {xs : List Sec} {es : List PageT} (h : (s.unmapped p).mapFresh (freshEntries xs) = some (t, es)) :
    ∃ (u : State) (F : Partition → Partition) (old : List CmdRef),
      restore s p xs = (old.foldl (fun s r => s.complete r 5) ((u.modPart p F).endOps p)).regenerateNow (some p) p ∧
      u.parts = t.parts ∧ ∀ P, (F P).rested = (.held, true, BitVec.ofNat 32 (fldOf (findSec xs 0x02) 0 4)) := by
  unfold State.unmapped freshEntries at h
  unfold restore
  dsimp only
  rw [h]
  refine ⟨_, _, _, rfl, ?_, fun P => rfl⟩
  rw [State.parts_vwrite]
  exact foldl_keeps (fun x : State × Nat => x.1.parts) _ (fun x e => x.1.parts_physWrite _ _) _ _

theorem State.parts_unmapped (s : State) (p : Nat) : (s.unmapped p).parts.length = s.parts.length := by
  have hfree : (s.unmapped p).offFreed = (s.modPart p fun P => { P with trans := (s.part p).keptPages p }).offFreed :=
    foldl_keeps State.offFreed _ (fun s e => s.offFreed_freeEntry p e) _ _
  rw [State.parts_of_offFreed hfree, State.length_parts_modPart]

/-- Pages of a partition, which are in use, are unmapped without becoming free (R116). -/
theorem State.sameFree_unmapped {s t : State} {p : Nat} (h : t.SameFree s)
    (hp : ∀ g ∈ (s.part p).trans, g.loc.host = false → ∀ k, k < g.size → t.pageFree (g.loc.addr / 65536 + k) = false) : t.SameFree (s.unmapped p) :=
  State.SameFree.freeEntries p _ (fun g hg => hp g (List.mem_of_mem_filter hg)) _ h

theorem mapFresh_of_badShape {s : State} {p : Nat} {xs : List Sec} (h : s.badShape p xs = false) : ∃ t es, s.mapFresh (freshEntries xs) = some (t, es) := by
  unfold State.badShape at h
  simp only [Bool.or_eq_false_iff] at h
  obtain ⟨⟨⟨-, hsome⟩, -⟩, -⟩ := h
  obtain ⟨⟨t, es⟩, ht⟩ := Option.isSome_iff_exists.1 (by simpa using hsome)
  exact ⟨t, es, ht⟩

/-! ### Completions, ended operations and new routes leave a partition at rest -/

theorem rested_hide (s : State) (ex : Option Nat) (l : Loc) (n q : Nat) : ((s.hide ex l n).part q).rested = (s.part q).rested := by
  simp only [State.part, State.hide, List.getD_eq_getElem?_getD, List.getElem?_map, List.getElem?_zipIdx]
  cases s.parts[q]? with
  | none => rfl
  | some P =>
    simp only [Option.map_some, Option.getD_some]
    split
    · rfl
    · split
      · rfl
      · rfl

theorem rested_outsideVwrite (s : State) (ex : Option Nat) (tr : List PageT) (va : Nat) (bs : List Byte) (q : Nat) :
    ((s.outsideVwrite ex tr va bs).part q).rested = (s.part q).rested := by
  refine foldl_keeps (fun s => (State.part s q).rested) _ (fun s x => ?_) _ _
  split
  · dsimp only [State.outsideWrite]
    rw [State.part, State.parts_physWrite]
    exact rested_hide s ex _ _ q
  · rfl

theorem rested_regenerateNow (s : State) (p q : Nat) : ((s.regenerateNow (some p) p).part q).rested = (s.part q).rested := by
  unfold State.regenerateNow
  dsimp only
  rw [if_neg (by simp), State.modPart_keeps Partition.rested _ (fun P => by rfl)]
  exact foldl_keeps (fun s => (State.part s q).rested) _ (fun s x => rested_outsideVwrite s _ _ _ _ q) _ _

theorem rested_restore {s t : State} {p : Nat} {xs : List Sec} {es : List PageT} (hp : p < s.parts.length)
    (h : (s.unmapped p).mapFresh (freshEntries xs) = some (t, es)) :
    ((restore s p xs).part p).rested = (.held, true, BitVec.ofNat 32 (fldOf (findSec xs 0x02) 0 4)) := by
  obtain ⟨u, F, old, hx, hu, hF⟩ := restore_eq h
  have hlen : p < u.parts.length := by
    rw [hu, State.parts_of_offPages (State.offPages_mapFresh h), State.parts_unmapped]
    exact hp
  have hold : (old.foldl (fun s r => s.complete r 5) ((u.modPart p F).endOps p)).offCommand = ((u.modPart p F).endOps p).offCommand :=
    foldl_keeps State.offCommand _ (fun s r => s.offCommand_complete r 5) _ _
  rw [hx, rested_regenerateNow, State.part_of_offCommand hold, State.part, State.parts_endOps]
  exact (congrArg Partition.rested (u.part_modPart p F hlen)).trans (hF _)

/-- A RESTORE that nothing refuses leaves the partition held, at the sheet's superstep number. -/
theorem performRestore_rested {s : State} {p : Nat} {r : CmdRef} {e : List Byte} (hp : p < s.parts.length)
    (h : validSheet (s.sheetIn p e) (fldOf e 48 8) = true) (hr : (s.part p).atRest = true)
    (hn : fldOf e 56 4 = 0xFFFFFFFF ∨ fldOf e 56 4 = fldOf (findSec (secsOf (s.sheetIn p e)) 0x02) 0 4)
    (hb : s.badShape p (secsOf (s.sheetIn p e)) = false)
    (hused : ∀ g ∈ (s.part p).trans, g.loc.host = false → ∀ k, k < g.size → s.pageFree (g.loc.addr / 65536 + k) = false) :
    ∃ u : State, performRestore s p r e = u.completeAs r 1 (some 0) true ∧
      (u.part p).rested = (.held, true, BitVec.ofNat 32 (fldOf (findSec (secsOf (s.sheetIn p e)) 0x02) 0 4)) := by
  obtain ⟨t, es, ht⟩ := mapFresh_of_badShape hb
  obtain ⟨u, hu, -⟩ := (State.sameFree_unmapped (t := s) (fun _ => rfl) hused).mapFresh ht
  exact ⟨_, performRestore_done h hr hn hb, rested_restore hp hu⟩

end Sys2Proof.Machine
end

section
/-!
PROOF of O42, continued: the four modes of QUIESCE (spec/03 R55 to R59, R66, R67).
-/

namespace Sys2Proof.Machine

open Sys2Proof.Claims

/-- HOLD and SHEET are not the modes of RELEASE and RESTORE. -/
theorem mode_of_hold {k : Nat} {i : Instr} (hi : i = .quiesceHold ∨ i = .quiesceSheet) (h : i = quiesceRow k) : k ≠ 2 ∧ k ≠ 3 := by
  obtain ⟨hsheet, -, -, hhold⟩ := mode_of_row (k := k)
  rcases hi with rfl | rfl
  · exact (hhold h).2
  · have := hsheet h
    omega

/-! ### A QUIESCE of a machine in which its entry has been taken -/

section
variable {s : State} {r : CmdRef} {e : List Byte}

/-- A QUIESCE put behind the earlier ones. -/
theorem part_takeQuiesce_waits (hp : fldOf e 33 1 < s.parts.length) (h : (s.part (fldOf e 33 1)).quiesceWaits = true ∨
      fldOf e 34 1 = 3 ∧ (s.part (fldOf e 33 1)).atRest = true ∧ (s.part (fldOf e 33 1)).drains ≠ []) :
    ((takeQuiesce s r e).part (fldOf e 33 1)).run = (s.part (fldOf e 33 1)).run ∧
      ((takeQuiesce s r e).part (fldOf e 33 1)).stops = (s.part (fldOf e 33 1)).stops ++ [(.quiesce r, 0)] ∧ (takeQuiesce s r e).agenda = s.agenda := by
  rw [takeQuiesce_waits h, s.part_modPart _ _ hp]
  exact ⟨rfl, rfl, rfl⟩

/-- A QUIESCE of a partition that runs waits for the next fix, within its bound (R56). -/
theorem part_startQuiesce_running (hp : fldOf e 33 1 < s.parts.length) (hr : (s.part (fldOf e 33 1)).atRest = false) :
    ((startQuiesce s r e).part (fldOf e 33 1)).run = (s.part (fldOf e 33 1)).run ∧
      ((startQuiesce s r e).part (fldOf e 33 1)).stops = (s.part (fldOf e 33 1)).stops ++ [(.quiesce r, s.cycle + washBound e * 1800)] ∧
      (startQuiesce s r e).agenda = s.agenda ++
        [⟨s.cycle + washBound e * 1800, .quiesceBoundExpiry, { p := fldOf e 33 1, fn := r.fn, q := r.q, idx := r.idx }⟩] := by
  rw [startQuiesce_running hr, State.agenda_schedule, State.part, State.schedule_parts, ← State.part, s.part_modPart _ _ hp]
  exact ⟨rfl, rfl, rfl⟩

/-- A QUIESCE of a partition that stands still waits for the drain of its write-behind (R56). -/
theorem part_startQuiesce_drains (hp : fldOf e 33 1 < s.parts.length) (hr : (s.part (fldOf e 33 1)).atRest = true)
    (hd : (s.part (fldOf e 33 1)).drains ≠ []) :
    ((startQuiesce s r e).part (fldOf e 33 1)).run =
        (if (s.part (fldOf e 33 1)).run = .idle then .held else (s.part (fldOf e 33 1)).run) ∧
      ((startQuiesce s r e).part (fldOf e 33 1)).stops = (s.part (fldOf e 33 1)).stops ++ [(.quiesce r, 0)] ∧
      (startQuiesce s r e).agenda = s.agenda := by
  rw [startQuiesce_drains hr hd, s.part_modPart _ _ hp]
  exact ⟨rfl, rfl, rfl⟩

variable (he : s.entry r = e) (hp : fldOf e 33 1 < s.parts.length) (hw : (s.part (fldOf e 33 1)).quiesceWaits = false)
include he hw

theorem takeQuiesce_start (h2 : fldOf e 34 1 ≠ 2) (h3 : fldOf e 34 1 ≠ 3) : takeQuiesce s r e = startQuiesce s r e := by
  rw [takeQuiesce_now hw fun h => absurd h h3, performQuiesce_start _ he h2 h3]

theorem takeQuiesce_release (h : fldOf e 34 1 = 2) : takeQuiesce s r e = (release s (fldOf e 33 1)).complete r 1 := by
  rw [takeQuiesce_now hw fun h3 => by omega, performQuiesce_release _ he h]

theorem takeQuiesce_restore (h : fldOf e 34 1 = 3) (hd : (s.part (fldOf e 33 1)).atRest = true → (s.part (fldOf e 33 1)).drains = []) :
    takeQuiesce s r e = performRestore s (fldOf e 33 1) r e := by
  rw [takeQuiesce_now hw fun _ => hd, performQuiesce_restore _ he h]

include hp

/-- HOLD of a partition that stands still is done at once (R56). -/
theorem takeQuiesce_hold (h1 : fldOf e 34 1 ≠ 1) (h2 : fldOf e 34 1 ≠ 2) (h3 : fldOf e 34 1 ≠ 3) (hr : (s.part (fldOf e 33 1)).atRest = true)
    (hd : (s.part (fldOf e 33 1)).drains = []) : ∃ u : State, takeQuiesce s r e = u.complete r 1 ∧
      (u.part (fldOf e 33 1)).run = if (s.part (fldOf e 33 1)).run = .idle then .held else (s.part (fldOf e 33 1)).run := by
  have hmode (f : Partition → Partition) (hf : ∀ P, (f P).trans = P.trans) : (s.modPart (fldOf e 33 1) f).entry r = e := by
    rw [State.entry_modPart _ _ _ hf, he]
  rw [takeQuiesce_start he hw h2 h3]
  by_cases hi : (s.part (fldOf e 33 1)).run = .idle
  · refine ⟨_, (startQuiesce_idle hd hi).trans (finishQuiesce_hold _ (hmode _ fun _ => rfl) h1), ?_⟩
    rw [s.part_modPart _ _ hp, if_pos hi]
  · refine ⟨_, (startQuiesce_still hr hd hi).trans (finishQuiesce_hold _ (hmode _ fun _ => rfl) h1), ?_⟩
    rw [s.part_modPart _ _ hp, if_neg hi]
    rfl

omit hp in
/-- SHEET of a held partition begins its sheet at once (R56). -/
theorem takeQuiesce_sheet (h1 : fldOf e 34 1 = 1) (hr : (s.part (fldOf e 33 1)).run = .held) (hd : (s.part (fldOf e 33 1)).drains = []) :
    takeQuiesce s r e = startSheet (s.modPart (fldOf e 33 1) Partition.atSheet) (fldOf e 33 1) r e := by
  have hentry : (s.modPart (fldOf e 33 1) Partition.atSheet).entry r = e := (State.entry_modPart s _ _ Partition.trans_atSheet r).trans he
  rw [takeQuiesce_start he hw (by omega) (by omega), startQuiesce_still (by simp [Partition.atRest, hr]) hd (by simp [hr]), finishQuiesce_sheet _ hentry h1]

end

end Sys2Proof.Machine

namespace Sys2Proof.Machine

open Sys2Proof.Claims

/-- A held partition's sheet begins as it was before its entry was taken (R58). -/
theorem begins_atSheet {s : State} {p : Nat} {r : CmdRef} {e : List Byte} (hp : p < s.parts.length) (hl : (s.part p).lostData = false)
    (hpo : s.sheetPoison p = false) (hlen : sheetLength (s.sheetSecs p) ((fldOf e 35 1).testBit 0) ≤ fldOf e 48 8) :
    let t := startSheet ((popped s).modPart p Partition.atSheet) p r e
    t.part p = { (s.part p).atSheet with sheet := some r } ∧ t.fns = (popped s).fns ∧
      ∃ d ∈ t.agenda, d.ev = .sheetWriteDone ∧ s.cycle < d.at_ ∧ d.arg.p = p ∧ d.arg.v = BitVec.ofNat 64 (fldOf e 40 8) := by
  have hpart : ((popped s).modPart p Partition.atSheet).part p = (s.part p).atSheet := (popped s).part_modPart p _ hp
  have hbinds : ((popped s).modPart p Partition.atSheet).binds = s.binds := s.binds_modQueue _ _ _
  have hsecs := sheetSecs_atSheet hbinds rfl hpart
  have hpoison := sheetPoison_atSheet hbinds rfl hpart rfl
  rw [← hpoison] at hpo
  rw [← hsecs] at hlen
  have hlost : (((popped s).modPart p Partition.atSheet).part p).lostData = false := (congrArg Partition.lostData hpart).trans hl
  have hbegins := startSheet_begins (r := r) (by rw [State.length_parts_modPart]; exact hp) hlost hpo hlen
  rw [hpart] at hbegins
  exact hbegins

end Sys2Proof.Machine

namespace Sys2Proof.Proofs

open Sys2Proof Sys2Proof.Machine Sys2Proof.Claims

theorem quiesceCommands : QuiesceCommands := by
  intro s r e p P us hp hbad hrange
  have hentry : (popped s).entry r = e := entry_popped s r
  have htaken {i : Instr} (hc : Comes s i) (hi : rowOp i = some 0x44) : i = quiesceRow (fldOf e 34 1) ∧ exec i s = .next (takeQuiesce (popped s) r e) :=
    quiesce_taken hc hi hbad hrange
  have hhold {i : Instr} (hi : i = .quiesceHold ∨ i = .quiesceSheet) (hc : Comes s i) (hw : P.quiesceWaits = false) :
      exec i s = .next (startQuiesce (popped s) r e) := by
    obtain ⟨hrow, hx⟩ := htaken hc (by rcases hi with rfl | rfl <;> rfl)
    obtain ⟨h2, h3⟩ := mode_of_hold hi hrow
    rw [hx, takeQuiesce_start hentry hw h2 h3]
  obtain ⟨hsheet, hrelease, hrestore, hholds⟩ := mode_of_row (k := fldOf e 34 1)
  refine ⟨fun i hi hc hr hw => ⟨_, hhold hi hc hw, ?_⟩, fun i hi hc hr hw hd => ⟨_, hhold hi hc hw, ?_⟩, fun i hi hc hw => ⟨_, (htaken hc ?_).2, ?_⟩,
    fun hw => ⟨fun hc hr hd => ?_, fun hc hr hd hl hpo hlen => ?_, fun hc hr hd hl => ?_, fun hc hr hb => ?_, fun hc hr hd => ?_, fun hc hd => ?_⟩⟩
  · exact part_startQuiesce_running (s := popped s) hp hr
  · exact part_startQuiesce_drains (s := popped s) hp hr hd
  · rcases hi with rfl | rfl | rfl | rfl <;> rfl
  · exact part_takeQuiesce_waits (s := popped s) hp (.inl hw)
  · obtain ⟨hrow, hx⟩ := htaken hc rfl
    obtain ⟨h1, h2, h3⟩ := hholds hrow
    obtain ⟨u, hu, hrun⟩ := takeQuiesce_hold (s := popped s) hentry hp hw h1 h2 h3 hr hd
    exact ⟨u, hx.trans (congrArg _ hu), hrun⟩
  · obtain ⟨hrow, hx⟩ := htaken hc rfl
    have hstart := takeQuiesce_sheet (s := popped s) hentry hw (hsheet hrow) hr hd
    obtain ⟨hpart, hfns, hdue⟩ := begins_atSheet hp hl hpo hlen
    refine ⟨_, hx.trans (congrArg _ hstart), ?_, ?_, ?_, hdue⟩
    · rw [hpart]
      exact hr
    · rw [hpart]
    · rw [State.fn, hfns, State.fn]
  · obtain ⟨hrow, hx⟩ := htaken hc rfl
    have hstart := takeQuiesce_sheet (s := popped s) hentry hw (hsheet hrow) hr hd
    refine ⟨_, hx.trans (congrArg _ (hstart.trans (startSheet_lost ?_)))⟩
    exact (congrArg Partition.lostData ((popped s).part_modPart p _ hp)).trans hl
  · obtain ⟨hrow, hx⟩ := htaken hc rfl
    exact ⟨_, hx.trans (congrArg _ (takeQuiesce_release (s := popped s) hentry hw (hrelease hrow))), run_release (s := popped s) hp hr hb⟩
  · obtain ⟨hrow, hx⟩ := htaken hc rfl
    exact ⟨_, hx, part_takeQuiesce_waits (s := popped s) hp (.inr ⟨hrestore hrow, hr, hd⟩)⟩
  · obtain ⟨hrow, hx⟩ := htaken hc rfl
    rw [takeQuiesce_restore (s := popped s) hentry hw (hrestore hrow) hd] at hx
    refine ⟨fun hv => ?_, fun hv hr => ?_, fun hv hr => ⟨fun hn hm => ?_, fun hn => ⟨fun hb => ?_, fun hb hused => ?_⟩⟩⟩
    · exact hx.trans (congrArg _ (performRestore_invalid (s := popped s) hv))
    · exact hx.trans (congrArg _ (performRestore_moving (s := popped s) hv hr))
    · exact hx.trans (congrArg _ (performRestore_number (s := popped s) hv hr hn hm))
    · exact hx.trans (congrArg _ (performRestore_shape (s := popped s) hv hr hn hb))
    · obtain ⟨u, hu, hrest⟩ := performRestore_rested (s := popped s) (r := r) hp hv hr hn hb hused
      exact ⟨u, hx.trans (congrArg _ hu), congrArg (·.1) hrest, congrArg (·.2.1) hrest, congrArg (·.2.2) hrest⟩

end Sys2Proof.Proofs
end

section
/-!
PROOF of O42: how the copy of a sheet ends (spec/03 R58).
-/

namespace Sys2Proof.Machine

open Sys2Proof.Claims

section
variable (s : State) (h : s.pagesHeld s.arg.p = false)

theorem sheetWriteDone_held (h : s.pagesHeld s.arg.p = true) : exec .sheetWriteDone s = .next (s.scheduleFree .sheet .sheetWriteDone s.arg) :=
  congrArg Host.Outcome.next (if_pos h)

include h

theorem sheetWriteDone_live (hl : (s.part s.arg.p).sheet = some s.cmd ∧ s.arg.m = s.epoch.toNat ∧ ((s.fn s.arg.fn).queue s.arg.q).open s.arg.idx = true) :
    exec .sheetWriteDone s = .next (settleStops (((s.modPart s.arg.p fun P => { P with sheet := none }).vwrite (s.part s.arg.p).trans s.arg.v.toNat
      (leBytes 4 sheetMagic)).complete s.cmd 1) s.arg.p) :=
  congrArg Host.Outcome.next ((if_neg (by simp [h])).trans (if_pos hl))

theorem sheetWriteDone_dropped
    (hl : ¬ ((s.part s.arg.p).sheet = some s.cmd ∧ s.arg.m = s.epoch.toNat ∧ ((s.fn s.arg.fn).queue s.arg.q).open s.arg.idx = true)) :
    exec .sheetWriteDone s = .next s :=
  congrArg Host.Outcome.next ((if_neg (by simp [h])).trans (if_neg hl))

end

/-! ### An error of committed tile data (R58) -/

/-- A tile's event leaves the sheet that its partition writes. -/
theorem sheet_eccEvent (s : State) (p t : Nat) (cause : Cause) (vote : BitVec 2) (detail : Word) (phys q : Nat) :
    ((s.eccEvent p t cause vote detail phys).part q).sheet = (s.part q).sheet := by
  unfold State.eccEvent
  dsimp only
  split
  · unfold tileEvent tileFault State.modTile
    rw [State.modPart_keeps Partition.sheet _ (fun _ => by rfl), State.part, parts_recordFault, State.part]
  · rfl

theorem State.eccError_committed (s : State) (h : s.arg.q = 6) : s.eccError = (s.eccEvent s.arg.p s.arg.t .eccUncorr 2
    (eccWord 1 ⟨false, s.arg.v.toNat % 2 ^ 62⟩) (s.arg.v.toNat % 2 ^ 62)).failSheet s.arg.p := by
  unfold State.eccError
  dsimp only
  rw [h]
  rfl

end Sys2Proof.Machine

namespace Sys2Proof.Proofs

open Sys2Proof Sys2Proof.Machine Sys2Proof.Claims

theorem sheetEnds : SheetEnds := by
  intro s
  refine ⟨sheetWriteDone_held s, sheetWriteDone_live s, sheetWriteDone_dropped s, fun r hq hr => ?_⟩
  rw [hbmScrub_error s (by omega), s.eccError_committed hq, State.failSheet_of_some _ _ r]
  rw [sheet_eccEvent, hr]

/-- Settles O42: partitions, functions, the modes of QUIESCE and the end of a sheet's copy. -/
theorem partitionFunctionAndQuiesceCommands : Obligations.PartitionFunctionAndQuiesceCommands :=
  ⟨partitionCommands, functionCommands, quiesceCommands, sheetEnds⟩

end Sys2Proof.Proofs
end

section
/-!
SUPPORT for the engines (O51, O60). What the moves of engine operations leave as it was, and how the list of operations follows an operation through
them (spec/16 R302 to R305; spec/05 R112 to R115).
-/

namespace Sys2Proof.Machine

/-! ### Moves of data change memory, tags and partitions alone -/

section
variable {s t : State} (h : t.core = s.core)
include h

theorem State.ops_of_core : t.ops = s.ops := by simpa [State.core] using congrArg State.ops h
theorem State.agenda_of_core : t.agenda = s.agenda := by simpa [State.core] using congrArg State.agenda h
theorem State.fresh_of_core : t.fresh = s.fresh := by simpa [State.core] using congrArg State.fresh h

end

@[simp] theorem State.core_modTile (s : State) (p k : Nat) (f : Tile → Tile) : (s.modTile p k f).core = s.core := rfl

@[simp] theorem State.core_modThread (s : State) (a : Agent) (i : Nat) (f : Thread → Thread) : (s.modThread a i f).core = s.core := by
  cases a with
  | tile p k => rfl
  | ctrl d =>
    simp only [State.modThread, State.modCtrl]
    split <;> rfl

@[simp] theorem State.core_opWrite (s : State) (o : EngOp) (cls : WClass) (q p k : Nat) (b : Buf) (a : Nat) (data : List Byte) :
    (s.opWrite o cls q p k b a data).core = s.core := rfl

@[simp] theorem State.core_takeContrib (s : State) (p k : Nat) (r : Region) (c : Contrib) : (s.takeContrib p k r c).core = s.core := by
  unfold State.takeContrib
  dsimp only
  split <;> simp

@[simp] theorem State.core_contribute (s : State) (p k : Nat) (r : Region) (off : Nat) (w : WRec) : (s.contribute p k r off w).core = s.core :=
  foldl_keeps State.core _ (fun s _ => s.core_takeContrib _ _ _ _) _ _

@[simp] theorem State.core_gPut (s : State) (a : Agent) (va : Nat) (w : WRec) : (s.gPut a va w).core = s.core := by
  cases a with
  | ctrl d => exact s.core_physWrite _ _
  | tile p k =>
    refine foldl_keeps State.core _ (fun s x => ?_) _ _
    split
    · rfl
    · split
      · exact s.core_modPart _ _
      · exact s.core_physWrite _ _
      all_goals
        split
        · exact s.core_contribute _ _ _ _ _
        · rfl

@[simp] theorem core_tileEvent (s : State) (p k : Nat) (cause : Cause) (vote : BitVec 2) (detail : Word) (phys : Nat) :
    (tileEvent s p k cause vote detail phys).core = s.core := by
  unfold tileEvent tileFault
  rw [State.core_modTile, core_recordFault]

@[simp] theorem State.core_engineEcc (s : State) (a : Agent) (l : Loc) (live : Bool) : (s.engineEcc a l live).core = s.core := by
  cases a with
  | ctrl d => rfl
  | tile p k =>
    unfold State.engineEcc
    dsimp only
    split
    · rfl
    · exact core_tileEvent _ _ _ _ _ _ _

/-! ### Runs of elements of a tile's copy -/

section
variable {o : EngOp} {p k : Nat} (ha : o.agent = .tile p k)
include ha

theorem State.core_runWrite (s : State) (q : Nat) (dst : EndR) (conv : Bool) (ed : Nat) (i : Int) (xs : List Nat) (xf : Byte) :
    (s.runWrite o q dst conv ed i xs xf).1.core = s.core := by
  unfold State.runWrite
  rw [ha]
  cases dst with
  | buf b a f =>
    dsimp only
    split
    · exact foldl_keeps State.core _ (fun s x => s.core_opWrite _ _ _ _ _ _ _ _) _ _
    · exact s.core_opWrite _ _ _ _ _ _ _ _
  | glob va => exact s.core_gPut _ _ _
  | mgmt a => rfl
  | ring h f => rfl
  | queue q => rfl

theorem State.core_moveRun (s : State) (q : Nat) (dst src : EndR) (es ed : Nat) (si di : Int) (n : Nat) :
    (s.moveRun o q dst src es ed si di n).st.core = s.core := by
  unfold State.moveRun
  dsimp only
  split
  · rw [core_engineEcc, core_runWrite ha, core_modThread]
  · rw [core_runWrite ha, core_modThread]

theorem State.core_keepWords (s m : State) (q : Nat) (dst : EndR) (ws : List Nat) (hm : m.core = s.core) : (s.keepWords m o q dst ws).core = s.core := by
  unfold State.keepWords
  rw [ha]
  cases dst with
  | glob va => exact foldl_keeps State.core _ (fun s w => s.core_gPut _ _ _) _ _
  | buf b a f => exact hm
  | mgmt a => exact hm
  | ring h f => exact hm
  | queue q => exact hm

/-- The states that a fold over runs passes through: the one that it has reached, and the one before its last run. -/
theorem State.core_moveRuns (s : State) (q : Nat) (dst src : EndR) (es ed : Nat) (rs : List (Int × Int × Nat)) :
    (s.moveRuns o q dst src es ed rs).st.core = s.core := by
  unfold State.moveRuns
  extract_lets m
  have hm : m.1.st.core = s.core ∧ m.2.1.core = s.core := by
    refine List.foldlRecOn (motive := fun x : Moved × State × Nat => x.1.st.core = s.core ∧ x.2.1.core = s.core) rs _ ⟨rfl, rfl⟩ fun x hx r _ => ?_
    dsimp only
    split
    · exact hx
    · exact ⟨(core_moveRun ha _ _ _ _ _ _ _ _ _).trans hx.1, hx.1⟩
  split
  · split
    · exact (core_moveRun ha _ _ _ _ _ _ _ _ _).trans (core_keepWords ha _ _ _ _ _ hm.2)
    · exact hm.1
  · exact hm.1

end

/-! ### Operations by their identity -/

theorem State.op?_congr {s t : State} (h : t.ops = s.ops) (id : Nat) : t.op? id = s.op? id := by rw [State.op?, h, State.op?]

theorem State.id_of_op? {s : State} {id : Nat} {o : EngOp} (h : s.op? id = some o) : o.id = id := by
  simpa using List.find?_some h

/-- The operation of an identity, after an update of those of one that keeps identities. -/
theorem State.op?_modOp (s : State) (i : Nat) (f : EngOp → EngOp) (id : Nat) (hf : ∀ o, (f o).id = o.id := by exact fun _ => rfl) :
    (s.modOp i f).op? id = (s.op? id).map fun o => if o.id = i then f o else o := by
  unfold State.op? State.modOp
  rw [List.find?_map]
  congr 2
  funext o
  simp only [Function.comp]
  split <;> simp [hf]

theorem State.op?_modOp_self {s : State} {id : Nat} {o : EngOp} (h : s.op? id = some o) (f : EngOp → EngOp)
    (hf : ∀ o, (f o).id = o.id := by exact fun _ => rfl) :
    (s.modOp id f).op? id = some (f o) := by
  rw [s.op?_modOp id f id hf, h, Option.map_some, if_pos (State.id_of_op? h)]

/-! ### Operations that are over -/

/-- An operation of this identity stands, and every one of it is complete. -/
def State.Over (s : State) (id : Nat) : Prop := (s.op? id).isSome = true ∧ ∀ x ∈ s.ops, x.id = id → x.st = .done

theorem State.Over.congr {s t : State} {id : Nat} (hs : s.Over id) (h : t.ops = s.ops) : t.Over id := by
  unfold State.Over State.op?
  rw [h]
  exact hs

theorem State.Over.opDone {s : State} {id : Nat} (h : s.Over id) : Claims.OpDone s id := by
  obtain ⟨x, hx⟩ := Option.isSome_iff_exists.1 h.1
  exact ⟨x, hx, h.2 x (List.mem_of_find?_eq_some hx) (State.id_of_op? hx)⟩

/-- The update of another operation leaves one that is over so. -/
theorem State.Over.modOp {s : State} {id i : Nat} (h : s.Over id) (hi : i ≠ id) (f : EngOp → EngOp)
    (hf : ∀ o, (f o).id = o.id := by exact fun _ => rfl) : (s.modOp i f).Over id := by
  refine ⟨by rw [s.op?_modOp i f id hf, Option.isSome_map]; exact h.1, fun x hx he => ?_⟩
  obtain ⟨y, hy, rfl⟩ := List.mem_map.1 hx
  by_cases hyi : y.id = i
  · rw [if_pos hyi, hf] at he
    exact absurd (hyi.symm.trans he) hi
  · rw [if_neg hyi] at he ⊢
    exact h.2 y hy he

theorem State.over_opDone {s : State} {id : Nat} {o : EngOp} (h : s.op? id = some o) (fl : Byte) : (s.opDone id fl).Over id := by
  unfold State.opDone
  rw [h]
  have hm : (s.modOp id fun o => { o with st := .done }).Over id := by
    refine ⟨by rw [State.op?_modOp_self h fun o => { o with st := .done }]; rfl, fun x hx he => ?_⟩
    obtain ⟨y, hy, rfl⟩ := List.mem_map.1 hx
    by_cases hyi : y.id = id
    · rw [if_pos hyi]
    · rw [if_neg hyi] at he
      exact absurd he hyi
  exact hm.congr (State.ops_of_core (State.core_modThread _ _ _ _))

theorem State.ops_copyDue (s : State) (o : EngOp) : (s.copyDue o).ops = s.ops := by
  unfold State.copyDue
  dsimp only
  split <;> rfl

/-- What a fold that keeps one element of a list at a time ends with stands in the list. -/
theorem mem_of_foldl_choice {α : Type} (f : Option α → α → Option α) (hf : ∀ m x, f m x = m ∨ f m x = some x) {y : α} (l : List α) :
    ∀ m, l.foldl f m = some y → m = some y ∨ y ∈ l := by
  induction l with
  | nil => exact fun m h => .inl h
  | cons x xs ih =>
    intro m h
    rcases ih _ h with h1 | h1
    · rcases hf m x with h2 | h2
      · exact .inl (h2.symm.trans h1)
      · exact .inr (List.mem_cons.2 (.inl (Option.some.inj (h2.symm.trans h1)).symm))
    · exact .inr (List.mem_cons_of_mem _ h1)

theorem EngOp.not_done_of_copyQ {o : EngOp} {n : Nat} (h : o.copyQ = some n) : o.st ≠ .done := by
  unfold EngOp.copyQ at h
  split at h
  · split at h
    · next hl => simpa [EngOp.live] using hl
    · cases h
  · cases h

/-- The operation that an engine takes next is one that is not over (R304). -/
theorem State.kickCopy_cases (s : State) (die cq : Nat) : s.kickCopy die cq = s ∨ ∃ o ∈ s.ops, o.st ≠ .done ∧
    s.kickCopy die cq = (({ s with cpTurn := s.cpTurn.setIfInBounds (8 * die + cq) (agentKey o.agent) }).modOp o.id
      fun x => { x with st := .running, stamp := s.cycle, hb := s.orderedHb x }).copyDue o := by
  unfold State.kickCopy
  extract_lets os turn best
  split
  · exact .inl rfl
  · split
    · exact .inl rfl
    · next o ho =>
      have hbest (f : EngOp → Bool) (hb : best f = some o) : o ∈ os := by
        have hc := mem_of_foldl_choice _ (fun m x => by
          cases m with
          | none => exact .inr rfl
          | some y => dsimp only; split; exacts [.inr rfl, .inl rfl]) _ _ hb
        exact (List.mem_filter.1 (hc.resolve_left nofun)).1
      have hos : o ∈ os := by
        rcases Option.or_eq_some_iff.1 ho with h | ⟨_, h⟩
        · exact hbest _ h
        · exact hbest _ h
      obtain ⟨hmem, hq⟩ := List.mem_filter.1 hos
      simp only [Bool.and_eq_true, decide_eq_true_eq] at hq
      exact .inr ⟨o, hmem, EngOp.not_done_of_copyQ hq.1, rfl⟩

theorem State.Over.kickCopy {s : State} {id : Nat} (h : s.Over id) (die cq : Nat) : (s.kickCopy die cq).Over id := by
  rcases s.kickCopy_cases die cq with he | ⟨o, ho, hd, he⟩
  · rw [he]; exact h
  · rw [he]
    exact (h.modOp (fun hi => hd (h.2 o ho hi)) fun x => { x with st := .running, stamp := s.cycle, hb := s.orderedHb x }).congr
      (State.ops_copyDue _ _)

theorem State.over_copyEnd {s : State} {o x : EngOp} (h : s.op? o.id = some x) (fl : Byte) : (s.copyEnd o fl).Over o.id := by
  have hn : (s.noteCopyRead o).ops = s.ops := by
    unfold State.noteCopyRead
    split
    · split <;> rfl
    · rfl
  exact (State.over_opDone ((State.op?_congr hn _).trans h) _).kickCopy _ _

/-! ### How far an operation has come -/

/-- The slots that an operation has done. -/
def State.progOf (s : State) (id : Nat) : Option Nat := (s.op? id).map (·.prog)

theorem State.progOf_congr {s t : State} (h : t.ops = s.ops) (id : Nat) : t.progOf id = s.progOf id := by rw [progOf, State.op?_congr h, progOf]

theorem State.progOf_modOp (s : State) (i : Nat) (f : EngOp → EngOp) (id : Nat)
    (hf : ∀ o, (f o).id = o.id ∧ (f o).prog = o.prog := by exact fun _ => ⟨rfl, rfl⟩) :
    (s.modOp i f).progOf id = s.progOf id := by
  unfold State.progOf
  rw [s.op?_modOp i f id fun o => (hf o).1, Option.map_map]
  congr 1
  funext o
  simp only [Function.comp]
  split <;> simp [hf]

theorem State.progOf_opDone (s : State) (i : Nat) (fl : Byte) (id : Nat) : (s.opDone i fl).progOf id = s.progOf id := by
  unfold State.opDone
  split
  · rfl
  · exact (State.progOf_congr (State.ops_of_core (State.core_modThread _ _ _ _)) _).trans (s.progOf_modOp i _ id)

theorem State.progOf_kickCopy (s : State) (die cq id : Nat) : (s.kickCopy die cq).progOf id = s.progOf id := by
  rcases s.kickCopy_cases die cq with he | ⟨o, _, _, he⟩
  · rw [he]
  · rw [he]
    exact (State.progOf_congr (State.ops_copyDue _ _) id).trans (State.progOf_modOp _ _ _ id)

end Sys2Proof.Machine
end

section
/-!
SUPPORT for the engines (O51, O60), continued. The slots of a copy, the pod's array and its quantisation engine, and what they leave of the list of
operations (spec/16 R303; spec/05 R106, R112, R114; spec/15 R294, R298).
-/

namespace Sys2Proof.Machine

/-! ### Steps that go through the list of operations -/

theorem State.op?_of_map {s t : State} {f : EngOp → EngOp} (h : t.ops = s.ops.map f) (hf : ∀ o, (f o).id = o.id) (id : Nat) :
    t.op? id = (s.op? id).map f := by
  unfold State.op?
  rw [h, List.find?_map]
  congr 2
  funext o
  simp only [Function.comp, hf]

/-- What the array may change of an operation: the entries it has popped, and that its end is fixed (R294). -/
def EngOp.Advanced (x y : EngOp) : Prop := ∃ m st, y = { x with masks := m, st := st } ∧ (st = x.st ∨ st = .moved)

theorem EngOp.Advanced.refl (x : EngOp) : x.Advanced x := ⟨_, _, rfl, .inl rfl⟩

theorem EngOp.Advanced.trans {x y z : EngOp} (h1 : x.Advanced y) (h2 : y.Advanced z) : x.Advanced z := by
  obtain ⟨m, st, rfl, h⟩ := h1
  obtain ⟨m', st', rfl, h'⟩ := h2
  refine ⟨m', st', rfl, ?_⟩
  rcases h' with rfl | rfl
  · exact h
  · exact .inr rfl

theorem EngOp.Advanced.id {x y : EngOp} (h : x.Advanced y) : y.id = x.id := by obtain ⟨_, _, rfl, _⟩ := h; rfl
theorem EngOp.Advanced.prog {x y : EngOp} (h : x.Advanced y) : y.prog = x.prog := by obtain ⟨_, _, rfl, _⟩ := h; rfl

/-- The operations of a state after the array has advanced some of them. -/
def State.ArrayOnly (s t : State) : Prop := ∃ f : EngOp → EngOp, (∀ x : EngOp, x.Advanced (f x)) ∧ t.ops = s.ops.map f

theorem State.ArrayOnly.of_ops {s t : State} (h : t.ops = s.ops) : s.ArrayOnly t := ⟨fun o => o, EngOp.Advanced.refl, by rw [List.map_id_fun']; exact h⟩

theorem State.ArrayOnly.trans {s t u : State} (h1 : s.ArrayOnly t) (h2 : t.ArrayOnly u) : s.ArrayOnly u := by
  obtain ⟨f, hf, h⟩ := h1
  obtain ⟨g, hg, h'⟩ := h2
  exact ⟨g ∘ f, fun x => (hf x).trans (hg _), by rw [h', h, List.map_map]⟩

theorem State.ArrayOnly.modOp (s : State) (i : Nat) (f : EngOp → EngOp) (hf : ∀ x : EngOp, x.Advanced (f x)) : s.ArrayOnly (s.modOp i f) :=
  ⟨fun o => if o.id = i then f o else o, fun x => by dsimp only; split; exacts [hf x, .refl x], rfl⟩

theorem State.ArrayOnly.op? {s t : State} (h : s.ArrayOnly t) {id : Nat} {x : EngOp} (hx : s.op? id = some x) : ∃ y, t.op? id = some y ∧ x.Advanced y := by
  obtain ⟨f, hf, h⟩ := h
  exact ⟨f x, by rw [State.op?_of_map h fun o => (hf o).id, hx]; rfl, hf x⟩

theorem State.ArrayOnly.progOf {s t : State} (h : s.ArrayOnly t) (id : Nat) : t.progOf id = s.progOf id := by
  obtain ⟨f, hf, h⟩ := h
  rw [State.progOf, State.op?_of_map h fun o => (hf o).id, Option.map_map, State.progOf]
  congr 1
  funext o
  exact (hf o).prog

theorem State.arrayOnly_arrayStep (s : State) (p pod : Nat) : s.ArrayOnly (s.arrayStep p pod) := by
  unfold State.arrayStep
  split
  · exact .of_ops rfl
  · next o _ =>
    split
    next q need _ =>
    extract_lets t have_ k s1 prev s_c stall e_c
    have h1 : s.ArrayOnly s1 := by
      simp only [s1]
      split
      · exact .of_ops rfl
      · refine State.ArrayOnly.trans (t := s.modTile p t _) (.of_ops rfl) (.modOp _ o.id _ ?_)
        exact fun x => ⟨_, _, rfl, .inl rfl⟩
    split
    · exact h1
    · refine State.ArrayOnly.trans h1 (State.ArrayOnly.trans (t := s1.modOp o.id _) (.modOp _ o.id (fun x => { x with st := .moved }) ?_) (.of_ops rfl))
      exact fun x => ⟨_, _, rfl, .inr rfl⟩

theorem State.arrayOnly_arraySteps (s : State) (p pod : Nat) : s.ArrayOnly (s.arraySteps p pod) :=
  foldl_related State.ArrayOnly (fun _ => .of_ops rfl) (fun _ _ _ => .trans) _ (fun s _ => s.arrayOnly_arrayStep p pod) _ s

/-- The quantisation command that starts next is one that waits (R298). -/
theorem startQuant_cases (s : State) (p pod : Nat) : startQuant s p pod = s ∨ ∃ o ∈ s.ops, o.st = .queued ∧
    ∃ n, startQuant s p pod = (s.modOp o.id fun o => { o with st := .running, stamp := s.cycle }).schedule n .quantComplete { p := p, n := pod, op := o.id } := by
  unfold startQuant
  dsimp only
  split
  · exact .inl rfl
  · next o os hq =>
    split
    · exact .inl rfl
    · next hst =>
      have ho := List.mem_cons_self (a := o) (l := os)
      rw [← hq] at ho
      exact .inr ⟨o, (List.mem_filter.1 (List.mem_filter.1 ho).1).1, Decidable.not_not.1 hst, _, rfl⟩

theorem State.Over.startQuant {s : State} {id : Nat} (h : s.Over id) (p pod : Nat) : (startQuant s p pod).Over id := by
  rcases startQuant_cases s p pod with he | ⟨o, ho, hq, n, he⟩
  · rw [he]; exact h
  · rw [he]
    exact State.Over.congr (h.modOp (fun hi => by have := h.2 o ho hi; rw [hq] at this; cases this) _) rfl

/-! ### Slots (R303) -/

theorem Moved.progOf_next {m : Moved} {o : EngOp} {n : Nat} (h : m.st.progOf o.id = some n) (id : Nat) (last : Bool) :
    (m.next o id last).progOf o.id = some (n + 1) := by
  unfold Moved.next
  extract_lets s1
  have h1 : s1.progOf o.id = some (n + 1) := by
    obtain ⟨x, hx, hn⟩ := Option.map_eq_some_iff.1 h
    rw [State.progOf, State.op?_modOp_self hx fun x => { x with flags := x.flags ||| m.fl, prog := x.prog + 1, parts := id :: x.parts }, Option.map_some, hn]
  split
  · have hn (x : EngOp) : (s1.noteCopyRead x).progOf o.id = s1.progOf o.id := State.progOf_congr (by
      unfold State.noteCopyRead
      split
      · split <;> rfl
      · rfl) _
    rw [State.copyEnd, State.progOf_kickCopy, State.progOf_opDone, hn, h1]
  · split
    · exact h1
    · exact (State.progOf_congr (State.ops_copyDue _ _) _).trans h1

theorem State.progOf_takeClaim (s : State) (o : EngOp) (ptr : BitVec 32) (id : Nat) : (s.takeClaim o ptr).progOf id = s.progOf id := by
  unfold State.takeClaim
  split
  · exact s.progOf_modOp _ _ _
  · rfl

theorem State.progOf_newId (s : State) (id : Nat) : s.newId.progOf id = s.progOf id := rfl

theorem State.progOf_of_core {s t : State} (h : t.core = s.core) (id : Nat) : t.progOf id = s.progOf id := State.progOf_congr (State.ops_of_core h) id

theorem State.progOf_gatherBlocks (s : State) {o : EngOp} {p k : Nat} (ha : o.agent = .tile p k) (i q : Nat) (dst : EndR) (es ed first : Nat)
    (xs : List Nat) (xf : Byte) (id : Nat) : (s.gatherBlocks o i q dst es ed first xs xf).st.progOf id = s.progOf id := by
  unfold State.gatherBlocks
  dsimp only
  exact (State.progOf_modOp _ _ _ _).trans (State.progOf_of_core (State.core_runWrite (o := o.slotOp i) ha _ _ _ _ _ _ _ _) _)

theorem progOf_pushQueue (s : State) (o : EngOp) (p k : Nat) (q : Fin 4) (bs : List Byte) (id : Nat) : (pushQueue s o p k q bs).progOf id = s.progOf id := by
  unfold pushQueue
  dsimp only
  split
  · exact s.progOf_modOp _ _ _
  · rw [(State.arrayOnly_arraySteps _ _ _).progOf, State.progOf_of_core (State.core_modTile _ _ _ _)]
    exact s.progOf_modOp _ _ _

section
variable {s : State} {o : EngOp} {p k : Nat} (ha : o.agent = .tile p k) (hp : s.progOf o.id = some o.prog)
include ha hp

theorem progOf_slotRuns (ptr : BitVec 32) (q : Nat) (dst src : EndR) (es ed : Nat) (rs : List (Int × Int × Nat)) :
    ((s.newId.takeClaim o ptr).moveRuns (o.slotOp s.opCtr) q dst src es ed rs).st.progOf o.id = some o.prog := by
  rw [State.progOf_of_core (State.core_moveRuns (o := o.slotOp s.opCtr) ha _ _ _ _ _ _ _), State.progOf_takeClaim, State.progOf_newId, hp]

/-- A slot of a ring that has a free one is filled (R106). -/
theorem progOf_fillSlot {h : Hnd} (hu : ((s.tile p k).ring h).unused = false) (hf : ((s.tile p k).ring h).free ≠ 0)
    (hc : o.st = .running → s.claimed o h true = false) (cq : Nat) (f : Byte) (src : EndR) (count : Nat) :
    (fillSlot s o p k cq h f src count).progOf o.id = some (o.prog + 1) := by
  unfold fillSlot
  dsimp only
  rw [if_neg (by rintro (⟨h1, h2⟩ | h1 | h1); exacts [by simp [hc h1] at h2, by simp [hu] at h1, hf h1])]
  refine Moved.progOf_next ?_ _ _
  rw [apply_ite Moved.st, apply_ite (State.progOf · o.id), State.progOf_of_core (State.core_modTile _ _ _ _), ite_self]
  exact progOf_slotRuns ha hp _ _ _ _ _ _ _

/-- A filled slot of a ring is drained (R106). -/
theorem progOf_drainSlot {h : Hnd} (hu : ((s.tile p k).ring h).unused = false) (hf : ((s.tile p k).ring h).filled ≠ 0)
    (hc : o.st = .running → s.claimed o h false = false) (cq : Nat) (f : Byte) (dst : EndR) (count : Nat) :
    (drainSlot s o p k cq h f dst count).progOf o.id = some (o.prog + 1) := by
  unfold drainSlot
  dsimp only
  rw [if_neg (by rintro (⟨h1, h2⟩ | h1 | h1); exacts [by simp [hc h1] at h2, by simp [hu] at h1, hf h1])]
  refine Moved.progOf_next ?_ _ _
  rw [apply_ite Moved.st, apply_ite (State.progOf · o.id), State.progOf_of_core (State.core_modTile _ _ _ _), ite_self,
    apply_ite Moved.st, apply_ite (State.progOf · o.id), State.progOf_gatherBlocks _ ha, State.progOf_takeClaim, State.progOf_newId, hp,
    progOf_slotRuns ha hp, ite_self]

end

section
variable {s : State} {o : EngOp} {p k : Nat} (hp : s.progOf o.id = some o.prog)
include hp

/-- A sparsity queue takes its next entry from a ring with a filled slot (R114). -/
theorem progOf_queueSlot_ring {h : Hnd} {f : Byte} (hu : ((s.tile p k).ring h).unused = false) (hf : ((s.tile p k).ring h).filled ≠ 0)
    (hc : o.st = .running → s.claimed o h false = false) {q : Fin 4} (hq : ((s.tile p k).queues[q]).length < 32) (count : Nat) :
    (queueSlot s o p k q (.ring h f) count).progOf o.id = some (o.prog + 1) := by
  unfold queueSlot
  dsimp only
  rw [if_neg (Nat.not_le.2 hq), if_neg (by rintro (⟨h1, h2⟩ | h1 | h1); exacts [by simp [hc h1] at h2, by simp [hu] at h1, hf h1])]
  refine Moved.progOf_next ?_ _ _
  have h1 (bs : List Byte) : (pushQueue (s.newId.takeClaim o ((s.tile p k).ring h).cons) o p k q bs).progOf o.id = some o.prog := by
    rw [progOf_pushQueue, State.progOf_takeClaim, State.progOf_newId, hp]
  split
  · exact (State.progOf_of_core (State.core_modTile _ _ _ _) _).trans (h1 _)
  · exact h1 _

/-- A sparsity queue takes its next entry from memory (R114). -/
theorem progOf_queueSlot_memory {src : EndR} (hm : ∀ h f, src ≠ .ring h f) {q : Fin 4} (hq : ((s.tile p k).queues[q]).length < 32) (count : Nat) :
    (queueSlot s o p k q src count).progOf o.id = some (o.prog + 1) := by
  unfold queueSlot
  rw [if_neg (Nat.not_le.2 hq)]
  have h0 (f : Thread → Thread) : (s.newId.modThread o.agent o.th f).progOf o.id = some o.prog :=
    (State.progOf_of_core (State.core_modThread _ _ _ _) _).trans hp
  have h1 (f : Thread → Thread) (l : Loc) (live : Bool) : ((s.newId.modThread o.agent o.th f).engineEcc o.agent l live).progOf o.id = some o.prog :=
    (State.progOf_of_core (State.core_engineEcc _ _ _ _) _).trans (h0 f)
  split
  · next h f => exact absurd rfl (hm h f)
  · dsimp only
    split
    · exact Moved.progOf_next (h1 _ _ _) _ _
    · exact Moved.progOf_next ((progOf_pushQueue _ _ _ _ _ _ _).trans (h1 _ _ _)) _ _
    · exact Moved.progOf_next ((progOf_pushQueue _ _ _ _ _ _ _).trans (h0 _)) _ _

end

end Sys2Proof.Machine
end

section
/-!
PROOF of O60: every row of an engine operation and every fence completes (spec/02 R51; spec/08 R171; spec/13 R252, R263; spec/15 R294, R298; spec/16
R302, R303).
-/

namespace Sys2Proof.Machine

open Sys2Proof.Claims

/-! ### Copies (R302, R303) -/

/-- The next slot of a copy of a tile, by its two ends. -/
def copySlot (s : State) (o : EngOp) (p k : Nat) (cq : Fin 8) (dst src : EndR) (n : Nat) : State :=
  match dst, src with
  | .queue q, _ => queueSlot s o p k q src n
  | .ring h f, _ => fillSlot s o p k cq.val h f src n
  | _, .ring h f => drainSlot s o p k cq.val h f dst n
  | _, _ => s

section
variable {s : State} {id : Nat} {o : EngOp} {p k : Nat} (ho : s.op? id = some o) (ha : o.agent = .tile p k)
variable {cq : Fin 8} {dims : Option (List Dim)} {es : Nat} {dst src : EndR} {n : Nat} (hk : o.kind = .copy cq dims es dst src n)
  (hst : o.st = .running ∨ o.st = .moved)
include ho ha hk hst

theorem over_completeCopy (h : o.slotted = true ∨ s.copyHeld o = false) : (completeCopy s id).Over o.id := by
  have hid : s.op? o.id = some o := State.id_of_op? ho ▸ ho
  unfold completeCopy
  rw [ho]
  dsimp only
  rw [hk]
  dsimp only
  rw [if_neg (by rintro ⟨h1, h2⟩; exact hst.elim h1 h2)]
  split
  · exact State.over_copyEnd hid _
  · next hs =>
    rw [if_neg (by simp [h.resolve_left hs])]
    exact State.over_copyEnd ((State.op?_congr (State.ops_of_core (State.core_moveRuns ha _ _ _ _ _ _ _)) _).trans hid) _

theorem engineSlot_eq (h : s.copyHeld o = false) : engineSlot s id = copySlot s o p k cq dst src n := by
  unfold engineSlot
  rw [ho]
  dsimp only
  rw [ha, hk]
  dsimp only
  rw [if_neg (by rintro ⟨h1, h2⟩; exact hst.elim h1 h2), if_neg (by simp [h])]
  rfl

end

/-! ### Write-behind and signals (R263, R51) -/

theorem over_completeWbk {s : State} {id : Nat} {o : EngOp} {p k : Nat} (ho : s.op? id = some o) (ha : o.agent = .tile p k) (hl : o.st ≠ .done)
    {va : Word} {b : Buf} {off g : Nat} (hk : o.kind = .wbk va b off g) (he : s.hasEntry o = true)
    (hh : s.endHeld o.agent (.glob va) 0 (64 * g) = false) : (completeWbk s id).Over id := by
  unfold completeWbk
  rw [ho]
  dsimp only
  rw [ha, hk]
  dsimp only
  rw [← ha, if_neg (by simpa [EngOp.live] using hl), if_neg (by simp [he, hh])]
  exact State.over_opDone ((State.op?_congr (State.ops_of_core (by simp)) _).trans ho) _

@[simp] theorem State.ops_noteWaits (s : State) : s.noteWaits.ops = s.ops := by rw [State.noteWaits_frame]

theorem State.ops_noteSignalRead (s : State) (o : EngOp) (l : Loc) (f : SigOp) : (s.noteSignalRead o l f).ops = s.ops := by
  unfold State.noteSignalRead
  split
  · split <;> rfl
  · rfl

theorem State.ops_signalAt (s : State) (l : Loc) (f : SigOp) (v : Word) : (s.signalAt l f v).ops = s.ops := by
  rw [State.signalAt, State.ops_noteWaits, State.ops_of_core (s.core_physWrite _ _)]

theorem over_completeSignal {s : State} {id : Nat} {o : EngOp} {p k : Nat} (ho : s.op? id = some o) (ha : o.agent = .tile p k) (hl : o.st ≠ .done)
    {va : Word} {f : SigOp} {v : Word} {e : Extent} (hk : o.kind = .signal va f v) (he : (s.tile p k).extent va.toNat = some e)
    (hh : s.rangeHeld (e.locOf va.toNat) 8 = false) : (completeSignal s id).Over id := by
  unfold completeSignal
  rw [ho]
  dsimp only
  rw [hk, ha]
  dsimp only
  simp only [he, Option.map_some, Option.getD_some]
  rw [if_neg (by simpa [EngOp.live] using hl), if_neg (by simp [hh])]
  split
  · exact State.over_opDone ((State.op?_congr (State.ops_of_core (State.core_engineEcc _ _ _ _)) _).trans ho) _
  · refine State.over_opDone (o := o) ?_ _
    unfold State.op?
    dsimp only
    rw [State.ops_signalAt, State.ops_noteSignalRead]
    exact ho

/-! ### The enlarger (R171) -/

theorem op_enlTransfer {s : State} {id : Nat} {o : EngOp} {p k : Nat} (ho : s.op? id = some o) (ha : o.agent = .tile p k)
    {b : Buf} {sb db step : Nat} {dims : List Dim} {sp : Nat} {dests : List Nat} {r : Nat} {sf : Byte}
    (hk : o.kind = .enl b sb db step dims sp dests r sf) (hst : o.st = .queued) : ∃ x, (enlTransfer s id).op? id = some x ∧ x.st = .moved := by
  unfold enlTransfer
  rw [ho]
  dsimp only
  rw [ha, hk]
  dsimp only
  rw [if_neg (by simp [hst])]
  refine ⟨_, (State.op?_congr rfl _).trans (State.op?_modOp_self (o := o) ?_ _ fun _ => rfl), rfl⟩
  refine (State.op?_congr (State.ops_of_core ?_) id).trans ho
  exact foldl_keeps (fun x : State × Byte => x.1.core) _ (fun _ _ => by simp) _ _

theorem over_enlComplete {s : State} {id : Nat} {o : EngOp} (ho : s.op? id = some o)
    {b : Buf} {sb db step : Nat} {dims : List Dim} {sp : Nat} {dests : List Nat} {r : Nat} {sf : Byte}
    (hk : o.kind = .enl b sb db step dims sp dests r sf) (hst : o.st = .moved) : (enlComplete s id).Over id := by
  unfold enlComplete
  rw [ho]
  dsimp only
  rw [if_pos (by rw [hk, hst]; rfl)]
  exact State.over_opDone ho _

/-! ### The matrix array and the quantiser (R294, R298) -/

theorem over_completeMatrix {s : State} {id : Nat} {o : EngOp} {p k : Nat} (ho : s.op? id = some o) (ha : o.agent = .tile p k) (hm : o.isMatrix = true)
    (hst : o.st = .moved) : (completeMatrix s id).Over id := by
  unfold completeMatrix
  rw [ho]
  dsimp only
  rw [ha]
  dsimp only
  rw [if_neg (by simp [hst, hm])]
  exact State.over_opDone ((State.op?_congr (State.ops_of_core (by simp)) _).trans ho) _

/-- The command that the arbiter chooses has fetched its operands, and streams or has its end fixed (R289, R294). -/
theorem op_chooseMatrix {s : State} {o : EngOp} {p pod v left : Nat} (h : s.arbiter p pod = some (o, v, left)) (ho : s.op? o.id = some o) :
    ∃ x, (chooseMatrix s p pod).op? o.id = some x ∧ ({ o.fetch (s.forkView o) with st := .running, stamp := s.cycle, prog0 := BitVec.ofNat 32 s.fresh } : EngOp).Advanced x := by
  unfold chooseMatrix
  rw [h]
  refine (State.arrayOnly_arraySteps _ _ _).op? ?_
  exact (State.op?_congr rfl _).trans (State.op?_modOp_self ho (fun o => { o.fetch (s.forkView o) with st := .running, stamp := s.cycle, prog0 := BitVec.ofNat 32 s.fresh })
    fun _ => rfl)

theorem over_completeQuant {s : State} {id : Nat} {o : EngOp} {p k : Nat} (ho : s.op? id = some o) (ha : o.agent = .tile p k)
    {col : Bool} {src : Buf} {off pitch : Nat} {sf : Byte} {emax n woff : Nat} {wf : Byte} (hk : o.kind = .quant col src off pitch sf emax n woff wf)
    (hst : o.st = .running) : (completeQuant s id).Over id := by
  unfold completeQuant
  rw [ho]
  dsimp only
  rw [ha, hk]
  dsimp only
  rw [if_neg (by simp [hst])]
  refine State.Over.startQuant (State.over_opDone (o := o) ?_ _) _ _
  refine (State.op?_congr (State.ops_of_core ?_) id).trans ho
  have hf : ∀ l : List (Nat × List Byte), (l.foldl (fun (s : State) (x : Nat × List Byte) => s.opWrite o .engine 11 p k .w x.1 x.2) s).core = s.core := fun l =>
    foldl_keeps State.core _ (fun s x => s.core_opWrite _ _ _ _ _ _ _ _) l s
  split
  · rw [State.core_modThread, hf]
  · exact hf _

/-! ### Fences (R252) -/

/-- The effect of a fence on its thread: what its scope notes, its acquires and its release (R124, R252). -/
def State.fenceOn (s : State) (o : Order) (sc : Scope) (t : Thread) : Thread :=
  let c := t.clampScope sc
  let t := t.noteClamp s.cycle sc
  let t := if Order.acqSide o then t.seen.foldl (fun t gs => t.acquire s.cycle s.cur.agent s.cur.th c gs) t else t
  if Order.relSide o then { t with relF := (c, t.hb) :: t.relF.filter fun r => decide (r.1 ≠ c) } else t

theorem State.fenceEdges_eq (s : State) (o : Order) (sc : Scope) : s.fenceEdges o sc = s.modHere (s.fenceOn o sc) := rfl

/-- A fence notes what an access may note, and a release. -/
theorem fenceOn_eq (s : State) (o : Order) (sc : Scope) (t : Thread) : ∃ u rs, t.Accessed s.cycle u ∧ s.fenceOn o sc t = { u with relF := rs } := by
  unfold State.fenceOn
  extract_lets c t1 t2
  have h1 : t.Accessed s.cycle t1 := t.accessed_noteClamp _ _
  have h2 : t.Accessed s.cycle t2 := by
    simp only [t2]
    split
    · exact h1.trans (foldl_related (Thread.Accessed s.cycle) (.refl _) (fun _ _ _ => .trans) _ (fun u gs => u.accessed_acquire _ _ _ _ _) _ _)
    · exact h1
  split
  · exact ⟨t2, _, h2, rfl⟩
  · exact ⟨t2, t2.relF, h2, rfl⟩

/-- A fence leaves its thread's registers, predicates and loops as they were. -/
theorem fenceOn_keeps (s : State) (o : Order) (sc : Scope) (t : Thread) : (s.fenceOn o sc t).regs = t.regs ∧ (s.fenceOn o sc t).preds = t.preds ∧
    (s.fenceOn o sc t).lb = t.lb ∧ (s.fenceOn o sc t).le = t.le ∧ (s.fenceOn o sc t).lc = t.lc := by
  obtain ⟨u, rs, ⟨hframe, -, -, hlc, -⟩, he⟩ := fenceOn_eq s o sc t
  rw [he]
  refine ⟨?_, ?_, ?_, ?_, hlc⟩ <;> rw [hframe]

theorem State.sameRegs_of {s t : State} (hr : t.here.regs = s.here.regs) (hp : t.here.preds = s.here.preds) : s.SameRegs t :=
  ⟨fun r => by rw [State.sr, Thread.sreg, hr]; rfl, fun p => by rw [State.pr, Thread.preg, hp]; rfl⟩

end Sys2Proof.Machine

namespace Sys2Proof.Proofs

open Sys2Proof Sys2Proof.Machine Sys2Proof.Claims

theorem engineRowsComplete : EngineRowsComplete := by
  intro s o p k ⟨ho, ha, hp, hk, hl⟩
  have hid : o.id = s.arg.op := State.id_of_op? ho
  rw [← hid] at ho
  have hprog : s.progOf o.id = some o.prog := by rw [State.progOf, ho]; rfl
  have goes {t : State} (h : t.progOf o.id = some (o.prog + 1)) : ∃ x, t.op? o.id = some x ∧ x.prog = o.prog + 1 := Option.map_eq_some_iff.1 h
  refine ⟨fun cq dims es dst src n hkind hst => ⟨fun h => ?_, fun hheld => ⟨fun h f hd hu hf hc hm => ?_, fun h f hs hu hf hc hm => ?_, fun q hd hq hm => ?_⟩⟩,
    fun va b off g hkind he hh => ?_, fun va f v e hkind he hh => ?_, fun b sb db step dims sp dests r sf hkind => ⟨fun hst => ?_, fun hst => ?_⟩,
    fun hm hst => ?_, fun n v left hap han hn harb => ?_, fun col src off pitch sf emax n woff wf hkind hst => ?_⟩
  · exact ⟨_, rfl, hid ▸ (over_completeCopy ho ha hkind hst h).opDone⟩
  · refine ⟨_, rfl, goes ?_⟩
    rw [← hid, engineSlot_eq ho ha hkind hst hheld, hd]
    exact progOf_fillSlot ha hprog hu hf hc _ _ _ _
  · refine ⟨_, rfl, goes ?_⟩
    rw [← hid, engineSlot_eq ho ha hkind hst hheld, hs]
    rcases hm with (⟨b, a, g, rfl⟩ | ⟨va, rfl⟩) | ⟨q, rfl, hq⟩
    · exact progOf_drainSlot ha hprog hu hf hc _ _ _ _
    · exact progOf_drainSlot ha hprog hu hf hc _ _ _ _
    · exact progOf_queueSlot_ring (f := f) hprog hu hf hc hq _
  · refine ⟨_, rfl, goes ?_⟩
    rw [← hid, engineSlot_eq ho ha hkind hst hheld, hd]
    refine progOf_queueSlot_memory hprog ?_ hq _
    rintro h f rfl
    rcases hm with ⟨_, _, _, h⟩ | ⟨_, h⟩ <;> cases h
  · exact ⟨_, rfl, hid ▸ (over_completeWbk ho ha hl hkind he hh).opDone⟩
  · exact ⟨_, rfl, hid ▸ (over_completeSignal ho ha hl hkind he hh).opDone⟩
  · exact ⟨_, rfl, hid ▸ op_enlTransfer ho ha hkind hst⟩
  · exact ⟨_, rfl, hid ▸ (over_enlComplete ho hkind hst).opDone⟩
  · exact ⟨_, rfl, hid ▸ (over_completeMatrix ho ha hm hst).opDone⟩
  · obtain ⟨x, hx, m, st, rfl, hst⟩ := op_chooseMatrix harb ho
    exact ⟨_, rfl, _, hap.symm ▸ han.symm ▸ hx, hst⟩
  · exact ⟨_, rfl, hid ▸ (over_completeQuant ho ha hkind hst).opDone⟩

theorem fencesComplete : FencesComplete := by
  intro s o sc hs hl
  obtain ⟨hr, hp, hlb, hle, hlc⟩ := fenceOn_keeps s o sc s.here
  have hx : exec (.fence o sc) s = .next (if s.here.pend = [] then s.finish (s.modHere (s.fenceOn o sc)) else
      s.orHold (((s.modHere (s.fenceOn o sc)).block (.result none 0)).schedule (s.here.lastLand s.cycle + 1 - s.cycle) .blockingWaitDone
        { agent := s.cur.agent, th := s.cur.th, op := s.cycle })) := rfl
  refine ⟨fun hpend => ⟨s.endedBy (s.fenceOn o sc) none, ?_, ?_⟩, fun hpend hret => ⟨((s.modHere (s.fenceOn o sc)).block (.result none 0)).schedule
    (s.here.lastLand s.cycle + 1 - s.cycle) .blockingWaitDone { agent := s.cur.agent, th := s.cur.th, op := s.cycle }, ?_, ?_⟩⟩
  · rw [hx, if_pos hpend, State.finish, s.finishAt_modHere hs _ _ ⟨hlb, hle, hlc⟩ (State.endsLegally_eq hl)]
  · obtain ⟨⟨-, hbytes⟩, hended⟩ := s.endedBy_spec hs (s.fenceOn o sc) none
    refine ⟨hended, hbytes, State.sameRegs_of ?_ ?_⟩ <;> rw [s.here_endedBy hs]
    · exact hr
    · exact hp
  · rw [hx, if_neg hpend, State.orHold_none _ _ hret]
  · have hhere : ((s.modHere (s.fenceOn o sc)).block (.result none 0)).here = { s.fenceOn o sc s.here with wait := .result none 0, waitFrom := s.cycle } := by
      rw [State.block, State.here_modHere _ ((s.modHere_Here _).trans hs), State.here_modHere _ hs, State.modHere_cycle]
    refine ⟨congrArg Thread.wait hhere, (s.sameBytes_modHere _).trans (State.sameBytes_modHere _ _), State.sameRegs_of ?_ ?_⟩
    · exact (congrArg Thread.regs hhere).trans hr
    · exact (congrArg Thread.preds hhere).trans hp

/-- Settles O60: each row of an engine operation leaves its operation done or one slot further, and a fence ends or waits. -/
theorem fencesAndEngineRowsComplete : Obligations.FencesAndEngineRowsComplete := ⟨engineRowsComplete, fencesComplete⟩

end Sys2Proof.Proofs
end

section
/-!
PROOF that O40 fails: its clause on the completion of a command says that every other queue stays as it is, and a completion makes the waits at the
heads of all mapped queues read their words (spec/20 R338).
-/

namespace Sys2Proof.Proofs

open Sys2Proof Sys2Proof.Machine Sys2Proof.Claims

/-- Function 0 with a command in the ring of its queue 0, and a wait for the word at host address 0 to be at least 0 at the head of its queue 1. -/
def waitBesideCommand : State :=
  { State.reset with fns := [{ Fn.zero with queues := ((Vector.replicate 8 Queue.zero).set 0 { Queue.zero with tail := 1 }).set 1 { Queue.zero with hold := some 0 } }] }

/-- The completion of the command in queue 0 has the wait of queue 1 met. -/
theorem met_waitBesideCommand : ((waitBesideCommand.fn 0).queue 1).met = false ∧ (((waitBesideCommand.complete ⟨0, 0, 0⟩ 1).fn 0).queue 1).met = true := by
  decide

theorem not_completionMovesTheHead : ¬ CompletionMovesTheHead := by
  intro h
  obtain ⟨-, -, hothers⟩ := h waitBesideCommand ⟨0, 0, 0⟩ 1
  obtain ⟨hbefore, hafter⟩ := met_waitBesideCommand
  rw [hothers 0 1 (by decide), hbefore] at hafter
  cases hafter

/-- Refutes O40: the completion of a command in one queue has the wait at the head of another queue met. -/
theorem not_hostCommandsAndRecords : ¬ Obligations.HostCommandsAndRecords := by
  intro h
  obtain ⟨-, hcompletion, -⟩ := h
  exact not_completionMovesTheHead hcompletion

end Sys2Proof.Proofs
end

section
/-!
SUPPORT. Translations with pages added and removed, and pages taken from the free pool (spec/02 R48; spec/05 R116).
-/

namespace Sys2Proof.Machine

/-! ### A translation without a range of pages -/

/-- The page of an entry that holds x, as a page of its own. -/
def PageT.single (e : PageT) (x : Nat) : PageT := { e with vpn := x, size := 1, loc := e.loc.plus (65536 * (x - e.vpn)) }

theorem Loc.plus_plus (l : Loc) (a b : Nat) : (l.plus a).plus b = l.plus (a + b) := by
  simp [Loc.plus, Nat.add_assoc]

theorem PageT.locOf_single (e : PageT) {x va : Nat} (hx : va / 65536 = x) (he : e.vpn ≤ x) : (e.single x).locOf va = e.locOf va := by
  unfold PageT.locOf PageT.single
  rw [Loc.plus_plus]
  dsimp only
  exact congrArg e.loc.plus (by omega)

theorem findPage_append (l m : List PageT) (x : Nat) : findPage (l ++ m) x = (findPage l x).or (findPage m x) := List.find?_append

theorem findPage_cons (e : PageT) (l : List PageT) (x : Nat) :
    findPage (e :: l) x = if e.vpn ≤ x ∧ x < e.vpn + e.size then some e else findPage l x := by
  simp only [findPage, List.find?_cons]
  by_cases h : e.vpn ≤ x ∧ x < e.vpn + e.size
  · simp [h]
  · rw [if_neg h, show (decide (e.vpn ≤ x) && decide (x < e.vpn + e.size)) = false by simpa using h]

/-- An entry split around a range finds nothing in the range. -/
theorem findPage_pick_inside (e : PageT) {v m x : Nat} (h : v ≤ x ∧ x < v + m) : findPage (e.pick false v m) x = none := by
  refine List.find?_eq_none.2 fun g hg => ?_
  rw [PageT.pick, if_neg (by simp)] at hg
  obtain ⟨i, -, hi⟩ := List.mem_filterMap.1 hg
  split at hi
  · next hout =>
    cases hi
    simp only [Bool.and_eq_true, decide_eq_true_eq, Bool.and_eq_false_iff, decide_eq_false_iff_not] at hout ⊢
    omega
  · cases hi

/-- An entry split around a range finds its own page of each number outside the range. -/
theorem findPage_pick_outside (e : PageT) {v m x : Nat} (h : ¬ (v ≤ x ∧ x < v + m)) (he : e.vpn ≤ x ∧ x < e.vpn + e.size) :
    findPage (e.pick false v m) x = some (e.single x) := by
  rw [PageT.pick, if_neg (by simp), findPage, List.find?_filterMap]
  have hfirst : (List.range e.size).find? (fun i => (if (decide (v ≤ e.vpn + i) && decide (e.vpn + i < v + m)) = false
      then some { e with vpn := e.vpn + i, size := 1, loc := e.loc.plus (65536 * i) } else none).any
        fun g : PageT => decide (g.vpn ≤ x) && decide (x < g.vpn + g.size)) = some (x - e.vpn) := by
    refine List.find?_range_eq_some.2 ⟨?_, List.mem_range.2 (by omega), fun j hj => ?_⟩
    · rw [if_pos (by simpa using by omega)]
      simpa using by omega
    · split
      · simpa using by omega
      · rfl
  rw [hfirst]
  have hx : e.vpn + (x - e.vpn) = x := by omega
  simp only [Option.bind_some, hx]
  exact if_pos (by simpa using h)

theorem findPage_pick_other (e : PageT) {v m x : Nat} (he : ¬ (e.vpn ≤ x ∧ x < e.vpn + e.size)) : findPage (e.pick false v m) x = none := by
  refine List.find?_eq_none.2 fun g hg => ?_
  rw [PageT.pick, if_neg (by simp)] at hg
  obtain ⟨i, hi, hg⟩ := List.mem_filterMap.1 hg
  have := List.mem_range.1 hi
  split at hg
  · cases hg
    simp only [Bool.and_eq_true, decide_eq_true_eq]
    omega
  · cases hg

theorem lessPages_cons (e : PageT) (tr : List PageT) (v m : Nat) :
    lessPages (e :: tr) v m = (if e.overlaps v m then e.pick false v m else [e]) ++ lessPages tr v m := List.flatMap_cons

/-- Nothing is found where pages were removed (R48). -/
theorem findPage_lessPages_inside (tr : List PageT) {v m x : Nat} (h : v ≤ x ∧ x < v + m) : findPage (lessPages tr v m) x = none := by
  induction tr with
  | nil => rfl
  | cons e tr ih =>
    rw [lessPages_cons, findPage_append, ih, Option.or_none]
    split
    · exact findPage_pick_inside e h
    · next ho =>
      rw [findPage_cons, if_neg]
      · rfl
      · intro he
        refine ho ?_
        simp only [PageT.overlaps, Bool.and_eq_true, decide_eq_true_eq]
        omega

/-- An address outside the pages that were removed translates as before (R48). -/
theorem translate_lessPages_outside (tr : List PageT) {v m va : Nat} (h : ¬ (v ≤ va / 65536 ∧ va / 65536 < v + m)) :
    translate (lessPages tr v m) va = translate tr va := by
  unfold translate
  induction tr with
  | nil => rfl
  | cons e tr ih =>
    rw [lessPages_cons, findPage_append, findPage_cons]
    by_cases he : e.vpn ≤ va / 65536 ∧ va / 65536 < e.vpn + e.size
    · rw [if_pos he]
      split
      · rw [findPage_pick_outside e h he]
        exact congrArg some (e.locOf_single rfl he.1)
      · rw [findPage_cons, if_pos he]
        rfl
    · rw [if_neg he, ← ih]
      split
      · rw [findPage_pick_other e he]
        rfl
      · rw [findPage_cons, if_neg he]
        rfl

/-! ### Pages that are taken -/

theorem Memory.read_keep (m : Memory) (f : Nat → Bool) (a : Nat) : (m.keep f).read a = if f a then m.read a else 0 := by
  unfold Memory.read Memory.keep
  induction m with
  | nil => simp
  | cons c m ih =>
    obtain ⟨k, v⟩ := c
    rw [List.filter_cons]
    by_cases hk : a = k
    · subst hk
      by_cases hf : f a
      · simp [hf]
      · rw [if_neg hf] at ih
        rw [if_neg hf, if_neg hf, ih]
    · have hb : (a == k) = false := by simpa using hk
      rw [List.lookup_cons, hb, ← ih]
      split
      · rw [List.lookup_cons, hb]
      · rfl

theorem State.findPages_free {s : State} {size f k : Nat} (h : s.findPages size f 0 = some k) : ∀ i, i < size → s.pageFree (k + i) = true := by
  rw [State.findPages_eq] at h
  obtain ⟨b, hb, rfl⟩ := Option.map_eq_some_iff.1 h
  have hrun : s.runFree size b = true := List.find?_some hb
  exact fun i hi => List.all_eq_true.1 hrun i (List.mem_range.2 hi)

/-- Pages taken were free, read zero, and leave the rest of HBM as it was or zero (R48). -/
theorem State.takePages_spec {size n : Nat} {s t : State} {ks : List Nat} (h : s.takePages size n = some (t, ks)) :
    ks.length = n ∧ (∀ a, s.hbm.read a = 0 → t.hbm.read a = 0) ∧
      ∀ k ∈ ks, (∀ i, i < size → s.pageFree (k + i) = true) ∧ ∀ a, 65536 * k ≤ a → a < 65536 * (k + size) → t.hbm.read a = 0 := by
  induction n generalizing s t ks with
  | zero =>
    cases h
    exact ⟨rfl, fun _ h => h, fun _ h => absurd h List.not_mem_nil⟩
  | succ n ih =>
    obtain ⟨k, hk, hr⟩ := Option.bind_eq_some_iff.1 h
    obtain ⟨⟨u, l⟩, hu, he⟩ := Option.map_eq_some_iff.1 hr
    cases he
    obtain ⟨hlen, hzero, hks⟩ := ih hu
    have hread (a : Nat) : (State.zeroPages { s with usedPages := (List.range size).map (k + ·) ++ s.usedPages } k size).hbm.read a =
        if a < 65536 * k ∨ 65536 * (k + size) ≤ a then s.hbm.read a else 0 := by
      simp [State.zeroPages, Memory.read_keep]
    refine ⟨congrArg (· + 1) hlen, fun a ha => hzero a ?_, fun j hj => ?_⟩
    · rw [hread, ha, ite_self]
    · rcases List.mem_cons.1 hj with rfl | hj
      · exact ⟨State.findPages_free hk, fun a h1 h2 => hzero a (by rw [hread, if_neg (by omega)])⟩
      · obtain ⟨hfree, hz⟩ := hks j hj
        refine ⟨fun i hi => ?_, hz⟩
        have := hfree i hi
        rw [State.pageFree_take, Bool.and_eq_true] at this
        exact this.1

end Sys2Proof.Machine
end

section
/-!
PROOF of O41, first half: MAP and UNMAP (spec/02 R48).
-/

namespace Sys2Proof.Machine

open Sys2Proof.Claims

/-! ### A translation changed -/

theorem State.part_setTrans_trans (s : State) {p : Nat} (hp : p < s.parts.length) (tr : List PageT) (v n : Nat) :
    ((s.setTrans p tr v n).part p).trans = tr := by
  unfold State.setTrans State.stageSeed
  rw [State.part_modPart _ _ _ (by simpa using hp), State.part_modPart _ _ _ hp]
  dsimp only
  split <;> rfl

@[simp] theorem State.hbm_setTrans (s : State) (p : Nat) (tr : List PageT) (v n : Nat) : (s.setTrans p tr v n).hbm = s.hbm := rfl

/-- A partition that stands is one of the machine's. -/
theorem State.lt_of_valid (s : State) {p : Nat} (h : (s.part p).valid = true) : p < s.parts.length := by
  by_contra hn
  rw [s.part_of_le (Nat.le_of_not_lt hn)] at h
  cases h

theorem pagePart_popped (s : State) (r : CmdRef) (e : List Byte) : (popped s).pagePart r e = s.pagePart r e := by
  unfold State.pagePart State.cmdPart
  rw [bound_popped]

/-- The opcode of a row that maps or copies (R47). -/
def pageOp : Instr → Option Nat
  | .map => some 0x07
  | .unmap => some 0x08
  | .copyIn => some 0x09
  | .copyOut => some 0x0A
  | _ => none

theorem op_of_pageOp {e : List Byte} {k : Nat} (h : pageOp (commandRow e) = some k) : fldOf e 0 1 = k := by
  unfold commandRow at h
  repeat' split at h
  all_goals simp_all [pageOp]

theorem pageOp_of_comes {s : State} {i : Instr} {k : Nat} (hc : Comes s i) (hk : pageOp i = some k) : fldOf (s.entry s.cmd) 0 1 = k := by
  obtain ⟨-, hrow, -⟩ := hc
  exact op_of_pageOp (hrow ▸ hk)

/-! ### MAP -/

/-- The entries that a MAP adds on the physical pages it was given. -/
def mappedPages (e : List Byte) (ls : List Loc) : List PageT :=
  ((pageNumbers e).zip ls).map fun x =>
    ⟨x.1, pageSize e, x.2, kindOf (fldOf e 33 1), (fldOf e 34 1).testBit 0, (fldOf e 34 1).testBit 1, (fldOf e 34 1).testBit 2, scopeOf (fldOf e 35 1)⟩

theorem getElem?_mappedPages {e : List Byte} {ls : List Loc} {k : Nat} {g : PageT} (h : (mappedPages e ls)[k]? = some g) :
    k < fldOf e 48 4 ∧ ∃ l, ls[k]? = some l ∧ g = ⟨fldOf e 40 8 / 65536 + pageSize e * k, pageSize e, l, kindOf (fldOf e 33 1),
      (fldOf e 34 1).testBit 0, (fldOf e 34 1).testBit 1, (fldOf e 34 1).testBit 2, scopeOf (fldOf e 35 1)⟩ := by
  rw [mappedPages, List.getElem?_map] at h
  obtain ⟨⟨v, l⟩, hz, rfl⟩ := Option.map_eq_some_iff.1 h
  obtain ⟨hv, hl⟩ := List.getElem?_zip_eq_some.1 hz
  obtain ⟨hk, rfl⟩ := List.getElem?_eq_some_iff.1 hv
  simp only [pageNumbers, List.length_map, List.length_range] at hk
  refine ⟨hk, l, hl, ?_⟩
  simp [pageNumbers]

/-- What MAP finds for its pages is as long as it asks for. -/
theorem State.length_mapPages {s t : State} {r : CmdRef} {e : List Byte} {ls : List Loc} (hbad : mapBad s r e = false)
    (h : s.mapPages e = some (t, ls)) : ls.length = fldOf e 48 4 := by
  unfold State.mapPages at h
  dsimp only at h
  split at h
  · cases h
    simp
  split at h
  · next hshare =>
    cases h
    have hall : ∀ k ∈ List.range (fldOf e 48 4), (s.sharePage e k).isSome = true := by
      simp only [mapBad, hshare, Bool.true_and, Bool.or_eq_false_iff, List.any_eq_false] at hbad
      intro k hk
      have := hbad.2.2 k hk
      simpa [Option.isSome_iff_ne_none] using this
    rw [List.length_filterMap_eq_countP, List.countP_eq_length.2 hall, List.length_range]
  · obtain ⟨⟨u, ks⟩, hu, he⟩ := Option.map_eq_some_iff.1 h
    cases he
    rw [List.length_map, (State.takePages_spec hu).1]

/-- Taking an entry from its queue leaves the pages that a MAP finds. -/
theorem mapPages_popped {s t : State} {e : List Byte} {ls : List Loc} (h : s.mapPages e = some (t, ls)) :
    ∃ u, (popped s).mapPages e = some (u, ls) ∧ u.parts = s.parts ∧
      ((fldOf e 33 1).testBit 7 = false → (fldOf e 38 1).testBit 0 = false →
        ∃ ks, (popped s).takePages (pageSize e) (fldOf e 48 4) = some (u, ks) ∧ ls = ks.map fun k => ⟨false, 65536 * k⟩) := by
  unfold State.mapPages at h ⊢
  dsimp only at h ⊢
  split at h
  · next hb =>
    cases h
    exact ⟨_, if_pos hb, rfl, fun hn => by rw [hn] at hb; cases hb⟩
  split at h
  · next hn hb =>
    cases h
    exact ⟨popped s, (if_neg hn).trans (if_pos hb), rfl, fun _ hn => by rw [hn] at hb; cases hb⟩
  · next h1 h2 =>
    obtain ⟨⟨u, ks⟩, hu, he⟩ := Option.map_eq_some_iff.1 h
    cases he
    obtain ⟨v, hv, -⟩ := State.SameFree.takePages (s := s) (t := popped s) (fun _ => rfl) hu
    have hparts : v.parts = (popped s).parts := State.parts_of_offPages (State.offPages_takePages hv)
    refine ⟨v, ?_, hparts, fun _ _ => ⟨ks, hv, rfl⟩⟩
    rw [if_neg h1, if_neg h2, hv]
    rfl

/-- The refusals of a MAP that is well formed, and its effect (R48). -/
theorem map_taken {s : State} (hc : Comes s .map) (hbad : mapBad s s.cmd (s.entry s.cmd) = false) :
    (mapRest s s.cmd (s.entry s.cmd) ≠ 0 → Completes s .map (mapRest s s.cmd (s.entry s.cmd)) (popped s)) ∧
    (mapRest s s.cmd (s.entry s.cmd) = 0 → ∀ u ls, (popped s).mapPages (s.entry s.cmd) = some (u, ls) →
      let p := s.pagePart s.cmd (s.entry s.cmd)
      Completes s .map 1 (u.setTrans p ((u.part p).trans ++ mappedPages (s.entry s.cmd) ls) (fldOf (s.entry s.cmd) 40 8 / 65536)
        (pageSize (s.entry s.cmd) * fldOf (s.entry s.cmd) 48 4))) := by
  obtain ⟨hrefused, hdone⟩ := taken_of_comes hc rfl (by rw [pageOp_of_comes hc rfl]; rfl) hbad
  refine ⟨hrefused, fun h u ls hu => ?_⟩
  have hx := hdone h
  rw [Completes, hx]
  dsimp only
  rw [hu, pagePart_popped]
  rfl

end Sys2Proof.Machine

namespace Sys2Proof.Proofs

open Sys2Proof Sys2Proof.Machine Sys2Proof.Claims

/-- MAP (R48): pages added, an overlap, and want of pages. -/
theorem mapRest_cases (s : State) (r : CmdRef) (e : List Byte) (hv : (s.part (s.pagePart r e)).valid = true) :
    let overlap : Prop := ∃ k, k < fldOf e 48 4 ∧ ∃ g ∈ (s.part (s.pagePart r e)).trans, g.overlaps (fldOf e 40 8 / 65536 + pageSize e * k) (pageSize e) = true
    (overlap → mapRest s r e = 5) ∧ (¬ overlap → (s.mapPages e).isNone = true → mapRest s r e = 6) ∧
      (¬ overlap → (s.mapPages e).isSome = true → mapRest s r e = 0) := by
  intro overlap
  have hany : ((pageNumbers e).any fun v => (s.part (s.pagePart r e)).trans.any fun g => g.overlaps v (pageSize e)) = true ↔ overlap := by
    simp [pageNumbers, overlap, List.any_eq_true]
  unfold mapRest
  dsimp only
  rw [hv, if_neg (by decide)]
  refine ⟨fun h => if_pos (hany.2 h), fun h hn => ?_, fun h hsome => ?_⟩
  · rw [if_neg (mt hany.1 h), if_pos hn]
  · rw [if_neg (mt hany.1 h), if_neg (by simp [Option.isNone_iff_eq_none, Option.isSome_iff_ne_none.1 hsome])]

theorem mapCommand (s : State) (hc : Comes s .map) : let r := s.cmd
    let e := s.entry r
    let p := (s.cmdPart r.fn e).getD 64
    let n := fldOf e 48 4
    let vpn (k : Nat) := fldOf e 40 8 / 65536 + pageSize e * k
    mapBad s r e = false → (s.part p).valid = true →
    (¬ (∃ k, k < n ∧ ∃ g ∈ (s.part p).trans, g.overlaps (vpn k) (pageSize e) = true)) → (s.mapPages e).isSome = true →
    ∃ u es, Completes s .map 1 u ∧ (u.part p).trans = (s.part p).trans ++ es ∧ es.length = n ∧
        ∀ (k : Nat) (g : PageT), es[k]? = some g → g.vpn = vpn k ∧ g.size = pageSize e ∧ g.kind = kindOf (fldOf e 33 1) ∧
          g.r = (fldOf e 34 1).testBit 0 ∧ g.w = (fldOf e 34 1).testBit 1 ∧ g.x = (fldOf e 34 1).testBit 2 ∧ g.scope = scopeOf (fldOf e 35 1) ∧
          ((fldOf e 33 1).testBit 7 = true → g.loc = ⟨true, fldOf e 56 8 + 65536 * pageSize e * k⟩) ∧
          ((fldOf e 33 1).testBit 7 = false → (fldOf e 38 1).testBit 0 = false → g.loc.host = false ∧
            (∀ i, i < pageSize e → s.pageFree (g.loc.addr / 65536 + i) = true) ∧
            ∀ a, g.loc.addr ≤ a → a < g.loc.addr + 65536 * pageSize e → u.hbm.read a = 0) := by
  intro r e p n vpn hbad hv hno hsome
  obtain ⟨⟨t, ls⟩, ht⟩ := Option.isSome_iff_exists.1 hsome
  obtain ⟨u, hu, hparts, hfresh⟩ := mapPages_popped ht
  have hpart : u.part p = s.part p := congrArg (fun ps : List Partition => ps.getD p Partition.absent) hparts
  have hlt : p < u.parts.length := hparts ▸ s.lt_of_valid hv
  have hlen := State.length_mapPages hbad ht
  refine ⟨_, mappedPages e ls, (map_taken hc hbad).2 ((mapRest_cases s r e hv).2.2 hno hsome) u ls hu, ?_, ?_, fun k g hg => ?_⟩
  · exact (u.part_setTrans_trans hlt _ _ _).trans (by rw [← hpart]; rfl)
  · simp [mappedPages, pageNumbers, hlen, n]
  obtain ⟨hk, l, hl, rfl⟩ := getElem?_mappedPages hg
  refine ⟨rfl, rfl, rfl, rfl, rfl, rfl, rfl, fun hhost => ?_, fun hhost hshare => ?_⟩
  · unfold State.mapPages at ht
    dsimp only at ht
    rw [if_pos hhost] at ht
    cases ht
    rw [List.getElem?_map, List.getElem?_range hk] at hl
    exact (Option.some.inj hl).symm
  · obtain ⟨ks, hks, rfl⟩ := hfresh hhost hshare
    rw [List.getElem?_map] at hl
    obtain ⟨j, hj, rfl⟩ := Option.map_eq_some_iff.1 hl
    obtain ⟨-, -, hspec⟩ := State.takePages_spec hks
    obtain ⟨hfree, hzero⟩ := hspec j (List.mem_of_getElem? hj)
    refine ⟨rfl, fun i hi => ?_, fun a h1 h2 => ?_⟩
    · have := hfree i hi
      rwa [← Nat.mul_div_cancel_left j (by decide : 0 < 65536)] at this
    · exact hzero a h1 (by rw [Nat.mul_add]; exact h2)

/-! ### UNMAP -/

/-- The machine after partition p's pages of a range have left its translation (R48). -/
def pagesUnmapped (s : State) (p v m : Nat) : State :=
  (((s.part p).trans.filter fun g => g.overlaps v m).flatMap fun g => g.pick true v m).foldl (fun s g => s.freeEntry p g)
    (s.setTrans p (lessPages (s.part p).trans v m) v m)

theorem trans_pagesUnmapped (s : State) {p : Nat} (hp : p < s.parts.length) (v m : Nat) :
    ((pagesUnmapped s p v m).part p).trans = lessPages (s.part p).trans v m := by
  have hfreed : (pagesUnmapped s p v m).offFreed = (s.setTrans p (lessPages (s.part p).trans v m) v m).offFreed :=
    foldl_keeps State.offFreed _ (fun s g => s.offFreed_freeEntry p g) _ _
  rw [State.part, State.parts_of_offFreed hfreed]
  exact s.part_setTrans_trans hp _ _ _

/-- The refusal of an UNMAP that is well formed (R48). -/
def unmapRest (s : State) (r : CmdRef) (e : List Byte) : Nat :=
  if !(s.part (s.pagePart r e)).valid then 4
  else if (List.range (unmapRun e).2).all fun i => (findPage (s.part (s.pagePart r e)).trans ((unmapRun e).1 + i)).isSome then 0 else 5

theorem unmap_taken {s : State} (hc : Comes s .unmap) (hbad : unmapBad s s.cmd (s.entry s.cmd) = false) :
    (unmapRest s s.cmd (s.entry s.cmd) ≠ 0 → Completes s .unmap (unmapRest s s.cmd (s.entry s.cmd)) (popped s)) ∧
    (unmapRest s s.cmd (s.entry s.cmd) = 0 → Completes s .unmap 1 (pagesUnmapped (popped s) (s.pagePart s.cmd (s.entry s.cmd))
      (unmapRun (s.entry s.cmd)).1 (unmapRun (s.entry s.cmd)).2)) := by
  obtain ⟨hrefused, hdone⟩ := taken_of_comes hc (i := .unmap) (is := fun op => decide (op = 0x08)) (bad := unmapBad) (rest := unmapRest)
    (ok := fun s r e => (pagesUnmapped s (s.pagePart r e) (unmapRun e).1 (unmapRun e).2).complete r 1) rfl
    (by rw [pageOp_of_comes hc rfl]; rfl) hbad
  refine ⟨hrefused, fun h => ?_⟩
  have hx := hdone h
  rwa [pagePart_popped] at hx

theorem unmapRest_cases (s : State) (r : CmdRef) (e : List Byte) (hv : (s.part (s.pagePart r e)).valid = true) :
    ((∀ i, i < pageSize e * fldOf e 48 4 → (findPage (s.part (s.pagePart r e)).trans (fldOf e 40 8 / 65536 + i)).isSome = true) → unmapRest s r e = 0) ∧
    ((∃ i, i < pageSize e * fldOf e 48 4 ∧ findPage (s.part (s.pagePart r e)).trans (fldOf e 40 8 / 65536 + i) = none) → unmapRest s r e = 5) := by
  unfold unmapRest
  rw [hv, if_neg (by decide)]
  refine ⟨fun h => if_pos ?_, fun ⟨i, hi, hnone⟩ => if_neg fun h => ?_⟩
  · exact List.all_eq_true.2 fun i hi => h i (List.mem_range.1 hi)
  · have := List.all_eq_true.1 h i (List.mem_range.2 hi)
    rw [show (unmapRun e).1 = fldOf e 40 8 / 65536 from rfl, hnone] at this
    cases this

theorem pageCommands : PageCommands := by
  intro s r e p n vpn overlap
  refine ⟨fun hc hbad hv => ⟨fun hno hsome => mapCommand s hc hbad hv hno hsome, fun h => ?_, fun hno hnone => ?_⟩, fun hc hbad hv => ?_⟩
  · have h5 := (mapRest_cases s r e hv).1 h
    have := (map_taken hc hbad).1 (by rw [h5]; decide)
    rwa [h5] at this
  · have h6 := (mapRest_cases s r e hv).2.1 hno hnone
    have := (map_taken hc hbad).1 (by rw [h6]; decide)
    rwa [h6] at this
  · obtain ⟨hrefused, hdone⟩ := unmap_taken hc hbad
    have hcases := unmapRest_cases s r e hv
    refine ⟨fun h => ?_, fun h => ?_⟩
    · have htr : ((pagesUnmapped (popped s) p (fldOf e 40 8 / 65536) (pageSize e * n)).part p).trans = _ := trans_pagesUnmapped (popped s) (s.lt_of_valid hv) _ _
      refine ⟨_, hdone (hcases.1 h), fun i hi => ?_, fun a ha => ?_⟩
      · refine (congrArg (findPage · _) htr).trans (findPage_lessPages_inside _ ⟨?_, ?_⟩)
        · exact Nat.le_add_right _ _
        · exact Nat.add_lt_add_left hi _
      · exact (congrArg (translate · a) htr).trans (translate_lessPages_outside _ ha)
    · have h5 := hcases.2 h
      have := hrefused (by rw [h5]; decide)
      rwa [h5] at this

end Sys2Proof.Proofs
end

section
/-!
PROOF of O41, second half: COPY_IN and COPY_OUT within one page (spec/02 R48; spec/05 R119).
-/

namespace Sys2Proof.Machine

open Sys2Proof.Claims

/-! ### Ranges within one page -/

theorem pieces_of_page {va n : Nat} (h0 : 0 < n) (h : va % 65536 + n ≤ 65536) : pieces va n = [(va, n)] := by
  have hk : min n (65536 - va % 65536) = n := by omega
  rw [pieces, pagePieces, if_neg (by omega)]
  dsimp only
  rw [hk, Nat.sub_self, pagePieces, if_pos rfl]

theorem bytesAt_zero_length (bs : List Byte) : bytesAt bs 0 bs.length = bs := by
  simp [bytesAt]

/-! ### Physical memory that is written and read -/

theorem State.physRead_congr {s t : State} (h1 : t.host = s.host) (h2 : t.hbm = s.hbm) (h3 : t.boot = s.boot) : t.physRead = s.physRead := by
  funext l n
  rw [State.physRead, State.physRead, h1, h2, h3]

/-- Bytes of physical memory read where they have just been written. -/
theorem State.physRead_physWrite {s : State} (hhost : s.host.wf = true) (hhbm : s.hbm.wf = true) (hr : s.boot.recov = false) (l : Loc) (bs : List Byte) :
    (s.physWrite l bs).physRead l bs.length = bs := by
  unfold State.physWrite
  dsimp only
  split
  · next h => exact (if_pos h).trans (Memory.readRun_writeRun hhost _ _)
  · next h =>
    rw [if_neg (by simp [hr])]
    exact ((if_neg h).trans (if_neg (by simp [hr]))).trans (Memory.readRun_writeRun hhbm _ _)

theorem State.physRead_outsideWrite {s : State} (hwf : s.memWf) (hr : s.boot.recov = false) (ex : Option Nat) (l : Loc) (bs : List Byte) :
    (s.outsideWrite ex l bs).physRead l bs.length = bs := by
  obtain ⟨hhbm, hhost, -⟩ := hwf
  exact State.physRead_physWrite (s := s.hide ex l bs.length) hhost hhbm hr l bs

/-! ### What a superstep sees of a write from outside (R119) -/

theorem State.part_hide (s : State) (ex : Option Nat) (l : Loc) (n p : Nat) (hp : p < s.parts.length) :
    (s.hide ex l n).part p = if some p = ex ∨ !(s.part p).valid then s.part p
      else if (s.part p).still then { s.part p with codeOld := (s.part p).codeOld.filter fun o => !o.1.within l n }
      else { s.part p with stale := (s.part p).stale ++ (s.oldBytes l n).filter fun o => (s.part p).mapsV o.1 && ((s.part p).stale.lookup o.1).isNone } := by
  have hg : (s.part p) = s.parts[p] := by simp [State.part, List.getD_eq_getElem?_getD, hp]
  rw [hg, State.part, State.hide]
  simp [List.getD_eq_getElem?_getD, hp]

theorem State.part_outsideWrite (s : State) (ex : Option Nat) (l : Loc) (bs : List Byte) (p : Nat) :
    (s.outsideWrite ex l bs).part p = (s.hide ex l bs.length).part p :=
  congrArg (fun ps : List Partition => ps.getD p Partition.absent) (State.parts_physWrite _ l bs)

@[simp] theorem State.length_parts_outsideWrite (s : State) (ex : Option Nat) (l : Loc) (bs : List Byte) :
    (s.outsideWrite ex l bs).parts.length = s.parts.length := by
  rw [State.outsideWrite, State.parts_physWrite, State.hide, List.length_map, List.length_zipIdx]

theorem State.outs_outsideWrite {s : State} {p : Nat} (hp : p < s.parts.length) (ex : Option Nat) (l : Loc) (bs : List Byte) :
    ((s.outsideWrite ex l bs).part p).outs = (s.part p).outs := by
  rw [s.part_outsideWrite, s.part_hide _ _ _ _ hp]
  split
  · rfl
  split <;> rfl

theorem State.seen_congr {s t : State} {p : Nat} (hs : (t.part p).stale = (s.part p).stale) (hr : t.physRead = s.physRead) : t.seen p = s.seen p := by
  funext l n
  rw [State.seen, State.seen, hs, hr]

theorem State.seen_modPart (s : State) (p q : Nat) (f : Partition → Partition) (hf : ∀ P, (f P).stale = P.stale) (l : Loc) (n : Nat) :
    (s.modPart q f).seen p l n = s.seen p l n :=
  congrFun (congrFun (State.seen_congr (State.modPart_keeps Partition.stale f hf s q p) rfl) l) n

/-- A byte as the superstep sees it: its old value where one is kept. -/
theorem State.seen_eq (s : State) (p : Nat) (l : Loc) (n : Nat) :
    s.seen p l n = ((s.physRead l n).zipIdx).map fun b => ((s.part p).stale.lookup (l.plus b.2)).getD b.1 := by
  unfold State.seen
  dsimp only
  split
  · next h =>
    rw [h]
    exact (List.zipIdx_map_fst 0 _).symm
  · rfl

theorem lookup_of_mem {α β : Type} [BEq α] [LawfulBEq α] {l : List (α × β)} {k : α} {v : β} (h : (k, v) ∈ l) (hu : ∀ x ∈ l, x.1 = k → x.2 = v) :
    l.lookup k = some v := by
  induction l with
  | nil => cases h
  | cons x l ih =>
    obtain ⟨a, b⟩ := x
    by_cases e : k = a
    · subst e
      rw [List.lookup_cons, beq_self_eq_true]
      exact congrArg some (hu _ List.mem_cons_self rfl)
    · rw [List.lookup_cons, show (k == a) = false by simpa using e]
      refine ih ((List.mem_cons.1 h).resolve_left fun h => e (Prod.mk.inj h).1) fun x hx => hu x (List.mem_cons_of_mem _ hx)

theorem Loc.plus_inj {l : Loc} {i j : Nat} (h : l.plus i = l.plus j) : i = j := Nat.add_left_cancel (congrArg Loc.addr h)

/-- The old value of each byte that is kept. -/
theorem State.lookup_oldBytes (s : State) (l : Loc) (n : Nat) (f : Loc × Byte → Bool) {i : Nat} {b : Byte} (hi : (s.physRead l n)[i]? = some b)
    (hf : f (l.plus i, b) = true) : ((s.oldBytes l n).filter f).lookup (l.plus i) = some b := by
  refine lookup_of_mem (List.mem_filter.2 ⟨List.mem_map.2 ⟨(b, i), List.mk_mem_zipIdx_iff_getElem?.2 hi, rfl⟩, hf⟩) fun x hx he => ?_
  obtain ⟨⟨c, j⟩, hj, rfl⟩ := List.mem_map.1 (List.mem_of_mem_filter hx)
  have hc := List.mk_mem_zipIdx_iff_getElem?.1 hj
  have hji : j = i := Loc.plus_inj he
  rw [hji, hi] at hc
  exact (Option.some.inj hc).symm

/-- A partition that runs does not see a write from outside to bytes that it maps with kind V (R119). -/
theorem State.seen_outsideWrite {s : State} {p : Nat} {l : Loc} {bs : List Byte} (hv : (s.part p).valid = true) (hstill : (s.part p).still = false)
    (hmaps : ∀ i, i < bs.length → (s.part p).mapsV (l.plus i) = true) : (s.outsideWrite none l bs).seen p l bs.length = s.seen p l bs.length := by
  have hp := s.lt_of_valid hv
  have hstale : ((s.outsideWrite none l bs).part p).stale = (s.part p).stale ++
      (s.oldBytes l bs.length).filter fun o => (s.part p).mapsV o.1 && ((s.part p).stale.lookup o.1).isNone := by
    rw [s.part_outsideWrite, s.part_hide _ _ _ _ hp, if_neg (by simp [hv]), if_neg (by simp [hstill])]
  rw [State.seen_eq, State.seen_eq, hstale]
  refine List.ext_getElem (by simp [State.length_physRead]) fun i hi _ => ?_
  have hi : i < bs.length := by simpa [State.length_physRead] using hi
  simp only [List.getElem_map, List.getElem_zipIdx, Nat.zero_add, List.lookup_append]
  cases hl : (s.part p).stale.lookup (l.plus i) with
  | some b => rfl
  | none =>
    rw [s.lookup_oldBytes l bs.length _ (List.getElem?_eq_getElem (by rwa [State.length_physRead]))]
    · rfl
    · simp [hmaps i hi, hl]

/-! ### COPY_IN -/

/-- A COPY_IN whose range lies in one page (R48). -/
theorem copyRest_of_page {s : State} {r : CmdRef} {e : List Byte} {g : PageT} (hv : (s.part (s.pagePart r e)).valid = true) (h0 : 0 < fldOf e 48 4)
    (hpage : fldOf e 40 8 % 65536 + fldOf e 48 4 ≤ 65536) (hg : findPage (s.part (s.pagePart r e)).trans (fldOf e 40 8 / 65536) = some g) (out : Bool) :
    copyRest out s r e = if (if out then g.r else g.w && !g.loc.host) then 0 else 4 := by
  simp [copyRest, hv, pieces_of_page h0 hpage, hg]

/-- The pieces of a COPY_IN's bytes, written from outside where they translate (R119). -/
def writePieces (s : State) (tr : List PageT) (va : Nat) (bs : List Byte) (ps : List (Nat × Nat)) : State :=
  ps.foldl (fun s x => match translate tr x.1 with
    | some l => s.outsideWrite none l (bytesAt bs (x.1 - va) x.2)
    | none => s) s

/-- A piece lies on a page of kind V. -/
def onKindV (tr : List PageT) (ps : List (Nat × Nat)) : Bool :=
  ps.any fun x => match findPage tr (x.1 / 65536) with
    | some g => decide (g.kind = .v)
    | none => false

/-- What COPY_IN does once it is not refused (R48, R119). -/
def copyInDone (s : State) (r : CmdRef) (e : List Byte) : State :=
  let p := s.pagePart r e
  let ps := pieces (fldOf e 40 8) (fldOf e 48 4)
  let s1 := writePieces s (s.part p).trans (fldOf e 40 8) (s.physRead ⟨true, fldOf e 56 8⟩ (fldOf e 48 4)) ps
  if onKindV (s.part p).trans ps && !(s.part p).still then s1.modPart p fun P => { P with outs := P.outs ++ [r] } else s1.complete r 1

theorem execCopyIn_eq (s : State) : exec .copyIn s = .next (s.withCommand (fun op => decide (op = 0x09)) copyBad (copyRest false) copyInDone) := rfl

theorem writePieces_of_page (s : State) {tr : List PageT} {va : Nat} {bs : List Byte} {g : PageT} (h0 : 0 < bs.length)
    (hpage : va % 65536 + bs.length ≤ 65536) (hg : findPage tr (va / 65536) = some g) :
    writePieces s tr va bs (pieces va bs.length) = s.outsideWrite none (g.locOf va) bs := by
  rw [writePieces, pieces_of_page h0 hpage, List.foldl_cons, List.foldl_nil, translate, hg]
  dsimp only [Option.map_some]
  rw [Nat.sub_self, bytesAt_zero_length]

theorem onKindV_of_page {tr : List PageT} {va n : Nat} {g : PageT} (h0 : 0 < n) (hpage : va % 65536 + n ≤ 65536) (hg : findPage tr (va / 65536) = some g) :
    onKindV tr (pieces va n) = decide (g.kind = .v) := by
  rw [onKindV, pieces_of_page h0 hpage, List.any_cons, List.any_nil, Bool.or_false, hg]

/-- The machine after a COPY_IN's bytes have come to one page (R119). -/
def copiedIn (s : State) (e : List Byte) (g : PageT) : State :=
  (popped s).outsideWrite none (g.locOf (fldOf e 40 8)) (s.physRead ⟨true, fldOf e 56 8⟩ (fldOf e 48 4))

theorem copyInDone_of_page {s : State} {r : CmdRef} {e : List Byte} {g : PageT} (h0 : 0 < fldOf e 48 4)
    (hpage : fldOf e 40 8 % 65536 + fldOf e 48 4 ≤ 65536) (hg : findPage (s.part (s.pagePart r e)).trans (fldOf e 40 8 / 65536) = some g) :
    copyInDone (popped s) r e = if g.kind = .v ∧ (s.part (s.pagePart r e)).still = false
      then (copiedIn s e g).modPart (s.pagePart r e) fun P => { P with outs := P.outs ++ [r] } else (copiedIn s e g).complete r 1 := by
  have hlen := s.length_physRead ⟨true, fldOf e 56 8⟩ (fldOf e 48 4)
  have hw := writePieces_of_page (popped s) (bs := s.physRead ⟨true, fldOf e 56 8⟩ (fldOf e 48 4)) (by rwa [hlen]) (by rwa [hlen]) hg
  rw [hlen] at hw
  unfold copyInDone
  dsimp only
  rw [pagePart_popped, part_popped, onKindV_of_page h0 hpage hg, show (popped s).physRead = s.physRead from rfl, hw]
  cases (s.part (s.pagePart r e)).still <;> simp [copiedIn]

theorem lt_of_copyBad {s : State} {r : CmdRef} {e : List Byte} (h : copyBad s r e = false) : 0 < fldOf e 48 4 := by
  simp only [copyBad, Bool.or_eq_false_iff, decide_eq_false_iff_not] at h
  omega

/-- The bytes of a range within a page of kind V lie on that page. -/
theorem Partition.mapsV_of_page {P : Partition} {g : PageT} {va n : Nat} (hg : findPage P.trans (va / 65536) = some g) (hv : g.kind = .v)
    (hpage : va % 65536 + n ≤ 65536) {i : Nat} (hi : i < n) : P.mapsV ((g.locOf va).plus i) = true := by
  have hfound := List.find?_some hg
  simp only [Bool.and_eq_true, decide_eq_true_eq] at hfound
  refine List.any_eq_true.2 ⟨g, List.mem_append_right _ (List.mem_of_find?_eq_some hg), ?_⟩
  have hlow : g.loc.addr ≤ ((g.locOf va).plus i).addr := by simp only [PageT.locOf, Loc.plus]; omega
  have hhigh : ((g.locOf va).plus i).addr < g.loc.addr + 65536 * g.size := by simp only [PageT.locOf, Loc.plus]; omega
  have hhost : g.loc.host = ((g.locOf va).plus i).host := rfl
  rw [hv, ← hhost, decide_eq_true hlow, decide_eq_true hhigh]
  simp

/-! ### COPY_OUT -/

/-- The bytes that a COPY_OUT reads (R48, R119). -/
def readPieces (s : State) (p : Nat) (ps : List (Nat × Nat)) : List Byte :=
  ps.flatMap fun x => match findPage (s.part p).trans (x.1 / 65536) with
    | some g => if g.kind = .v then s.seen p (g.locOf x.1) x.2 else s.physRead (g.locOf x.1) x.2
    | none => List.replicate x.2 0

/-- The machine after a COPY_OUT has written its bytes to the host. -/
def copiedOut (s : State) (p : Nat) (e : List Byte) : State :=
  (s.physWrite ⟨true, fldOf e 56 8⟩ (readPieces s p (pieces (fldOf e 40 8) (fldOf e 48 4)))).noteCopyOut p (fldOf e 40 8) (fldOf e 48 4)

theorem execCopyOut_eq (s : State) : exec .copyOut s = .next (s.withCommand (fun op => decide (op = 0x0A)) copyBad (copyRest true)
    fun s r e => (copiedOut s (s.pagePart r e) e).complete r 1) := rfl

theorem State.physRead_noteCopyOut (s : State) (p va n : Nat) : (s.noteCopyOut p va n).physRead = s.physRead := by
  unfold State.noteCopyOut
  split <;> rfl

theorem readPieces_of_page {s : State} {p va n : Nat} {g : PageT} (h0 : 0 < n) (hpage : va % 65536 + n ≤ 65536)
    (hg : findPage (s.part p).trans (va / 65536) = some g) :
    readPieces s p (pieces va n) = if g.kind = .v then s.seen p (g.locOf va) n else s.physRead (g.locOf va) n := by
  rw [readPieces, pieces_of_page h0 hpage, List.flatMap_cons, List.flatMap_nil, List.append_nil, hg]

theorem physRead_copiedOut {s : State} {p : Nat} {e : List Byte} {g : PageT} (hwf : s.host.wf = true) (h0 : 0 < fldOf e 48 4)
    (hpage : fldOf e 40 8 % 65536 + fldOf e 48 4 ≤ 65536) (hg : findPage (s.part p).trans (fldOf e 40 8 / 65536) = some g) :
    (copiedOut s p e).physRead ⟨true, fldOf e 56 8⟩ (fldOf e 48 4) =
      if g.kind = .v then s.seen p (g.locOf (fldOf e 40 8)) (fldOf e 48 4) else s.physRead (g.locOf (fldOf e 40 8)) (fldOf e 48 4) := by
  have hbs := readPieces_of_page h0 hpage hg
  have hlen : (readPieces s p (pieces (fldOf e 40 8) (fldOf e 48 4))).length = fldOf e 48 4 := by
    rw [hbs]
    split
    · exact s.length_seen _ _ _
    · exact s.length_physRead _ _
  have hread := Memory.readRun_writeRun hwf (fldOf e 56 8) (readPieces s p (pieces (fldOf e 40 8) (fldOf e 48 4)))
  rw [hlen] at hread
  rw [copiedOut, State.physRead_noteCopyOut]
  exact hread.trans hbs

end Sys2Proof.Machine

namespace Sys2Proof.Proofs

open Sys2Proof Sys2Proof.Machine Sys2Proof.Claims

theorem copyCommands : CopyCommands := by
  intro s g hwf hr r e p va n l hbad hv hpage hg
  have h0 : 0 < n := lt_of_copyBad hbad
  have hrest (out : Bool) := copyRest_of_page (r := r) hv h0 hpage hg out
  have hlen : (s.physRead ⟨true, fldOf e 56 8⟩ n).length = n := s.length_physRead _ _
  have hlt : p < s.parts.length := s.lt_of_valid hv
  have hin (hc : Comes s .copyIn) := taken_of_comes hc (execCopyIn_eq s) (by rw [pageOp_of_comes hc rfl]; rfl) hbad
  have hout (hc : Comes s .copyOut) := taken_of_comes hc (execCopyOut_eq s) (by rw [pageOp_of_comes hc rfl]; rfl) hbad
  have hcopied : (copiedIn s e g).physRead l n = s.physRead ⟨true, fldOf e 56 8⟩ n := by
    have := State.physRead_outsideWrite (s := popped s) hwf hr none l (s.physRead ⟨true, fldOf e 56 8⟩ n)
    rwa [hlen] at this
  refine ⟨fun hc hw hh => ?_, fun hc h => ?_, fun hc h => ?_, fun hc h => ?_⟩
  · have hx := (hin hc).2 ((hrest false).trans (if_pos (by simp [hw, hh])))
    rw [copyInDone_of_page h0 hpage hg] at hx
    refine ⟨fun hno => ⟨_, ?_, hcopied⟩, fun hkind hstill => ⟨_, hx.trans (congrArg _ (if_pos ⟨hkind, hstill⟩)), hcopied, ?_, ?_⟩⟩
    · refine hx.trans (congrArg _ (if_neg fun h => ?_))
      rcases hno with hno | hno
      · exact hno h.1
      · exact Bool.false_ne_true (h.2.symm.trans hno)
    · refine (congrArg Partition.outs (State.part_modPart (copiedIn s e g) p _ ?_)).trans ?_
      · exact (State.length_parts_outsideWrite (popped s) none _ _).symm ▸ hlt
      exact congrArg (· ++ [r]) (State.outs_outsideWrite (s := popped s) hlt none l _)
    · have hseen := State.seen_outsideWrite (s := popped s) (p := p) (l := l) (bs := s.physRead ⟨true, fldOf e 56 8⟩ n) hv hstill
        fun i hi => Partition.mapsV_of_page hg hkind hpage (hlen ▸ hi)
      rw [hlen] at hseen
      exact (State.seen_modPart (copiedIn s e g) p p (fun P => { P with outs := P.outs ++ [r] }) (fun _ => rfl) l n).trans hseen
  · have h4 : copyRest false s r e = 4 := (hrest false).trans (if_neg (by rcases h with h | h <;> simp [h]))
    have := (hin hc).1 (by rw [h4]; decide)
    rwa [h4] at this
  · have hx := (hout hc).2 ((hrest true).trans (if_pos h))
    rw [pagePart_popped] at hx
    exact ⟨_, hx, physRead_copiedOut (s := popped s) hwf.2.1 h0 hpage hg⟩
  · have h4 : copyRest true s r e = 4 := (hrest true).trans (if_neg (by simp [h]))
    have := (hout hc).1 (by rw [h4]; decide)
    rwa [h4] at this

/-- Settles O41: MAP and UNMAP change the translation by the pages they name, and copies within one page bring their bytes. -/
theorem pageAndCopyCommands : Obligations.PageAndCopyCommands := ⟨pageCommands, copyCommands⟩

end Sys2Proof.Proofs
end

section
/-!
SUPPORT. Functions with one queue or vector changed, and events that leave the queues (spec/02 R45 to R53).
-/

namespace Sys2Proof.Machine

theorem State.fn_modFn_ne (s : State) {n m : Nat} (f : Fn → Fn) (h : m ≠ n) : (s.modFn n f).fn m = s.fn m := getD_modify_ne _ _ _ _ _ h

@[simp] theorem State.length_fns_modFn (s : State) (n : Nat) (f : Fn → Fn) : (s.modFn n f).fns.length = s.fns.length := List.length_modify _ _ _

theorem State.queue_modQueue (s : State) {n q : Nat} (f : Queue → Queue) (hn : n < s.fns.length) (hq : q < 8) :
    ((s.modQueue n q f).fn n).queue q = f ((s.fn n).queue q) := by
  rw [State.modQueue, s.fn_modFn _ hn, dif_pos hq, Fn.queue, Fn.queue, vector_getD_set _ _ _ _ _ hq, if_pos rfl, vector_getD _ _ _ hq]

theorem State.vec_modVec (s : State) {n v : Nat} (f : Vec → Vec) (hn : n < s.fns.length) (hv : v < 16) :
    ((s.modVec n v f).fn n).vec v = f ((s.fn n).vec v) := by
  rw [State.modVec, s.fn_modFn _ hn, dif_pos hv, Fn.vec, Fn.vec, vector_getD_set _ _ _ _ _ hv, if_pos rfl, vector_getD _ _ _ hv]

theorem State.length_fns_modQueue (s : State) (n q : Nat) (f : Queue → Queue) : (s.modQueue n q f).fns.length = s.fns.length := s.length_fns_modFn _ _

/-! ### Queues besides events and memory -/

theorem State.fns_of_core {s t : State} (h : t.core = s.core) : t.fns = s.fns := by simpa [State.core] using congrArg State.fns h

@[simp] theorem State.fns_fnWrite (s : State) (n : Nat) (base : Word) (off : Nat) (bs : List Byte) : (s.fnWrite n base off bs).fns = s.fns := by
  unfold State.fnWrite
  dsimp only
  split
  · split
    · exact State.fns_of_core (s.core_vwrite _ _ _)
    · rfl
  · exact State.fns_of_core (s.core_physWrite _ _)

theorem State.queues_modVec (s : State) (n v : Nat) (f : Vec → Vec) (m : Nat) : ((s.modVec n v f).fn m).queues = (s.fn m).queues :=
  State.modFn_keeps Fn.queues _ (fun F => by split <;> rfl) _ _ _

theorem State.queues_sendVec (s : State) (n v m : Nat) : ((s.sendVec n v).fn m).queues = (s.fn m).queues := by
  unfold State.sendVec
  split
  · exact s.queues_modVec n v _ m
  · exact s.queues_modVec n v (fun x => { x with pend := 0 }) m

theorem State.queues_countTrigger (s : State) (n v m : Nat) : ((s.countTrigger n v).fn m).queues = (s.fn m).queues := by
  unfold State.countTrigger
  dsimp only
  split
  · exact s.queues_sendVec n v m
  · rfl

theorem State.queues_countVec (s : State) (n v m : Nat) : ((s.countVec n v).fn m).queues = (s.fn m).queues := by
  unfold State.countVec
  refine (State.queues_countTrigger _ n v m).trans ?_
  split
  · exact s.queues_modVec _ _ _ _
  · exact s.queues_modVec n v (fun x => { x with pend := x.pend + 1, t0 := _, active := x.time }) m

/-- A function whose ring has lost an event, and one whose ring has taken one (R50). -/
def Fn.lose (f : Fn) : Fn := { f with evtLost := true, lost := min (f.lost + 1) 0xFFFF }
def Fn.store (f : Fn) : Fn := { f with evtTail := f.evtTail + 1, lost := 0 }

/-- What an event does: nothing, a loss, or a stored event that its vector counts (R50). -/
theorem State.postRing_cases (s : State) (n code fn q part : Nat) (detail : List Byte) :
    s.postRing n code fn q part detail = s ∨ s.postRing n code fn q part detail = s.modFn n Fn.lose ∨
      ∃ l bs v, s.postRing n code fn q part detail = ((s.physWrite l bs).modFn n Fn.store).countVec n v := by
  by_cases h1 : (s.fn n).evtAddr = 0
  · exact .inl (s.postRing_of_disabled _ _ _ _ _ _ h1)
  by_cases h2 : ((s.fn n).evtTail - (s.fn n).evtHead).toNat = if n = 0 then 4096 else 128
  · exact .inr (.inl ((if_neg h1).trans (if_pos h2)))
  · exact .inr (.inr ⟨_, _, _, (if_neg h1).trans (if_neg h2)⟩)

theorem State.queues_postRing (s : State) (n code fn q part : Nat) (detail : List Byte) (m : Nat) :
    ((s.postRing n code fn q part detail).fn m).queues = (s.fn m).queues := by
  rcases s.postRing_cases n code fn q part detail with h | h | ⟨l, bs, v, h⟩
  · rw [h]
  · rw [h, State.modFn_keeps Fn.queues Fn.lose fun _ => rfl]
  · rw [h, State.queues_countVec, State.modFn_keeps Fn.queues Fn.store fun _ => rfl, State.fn, State.fns_of_core (s.core_physWrite _ _), State.fn]

theorem State.queues_queueEvent (s : State) (code fn q : Nat) (detail : List Byte) (m : Nat) :
    ((s.queueEvent code fn q detail).fn m).queues = (s.fn m).queues := by
  unfold State.queueEvent State.postEvent
  exact (foldl_keeps (fun s : State => (s.fn m).queues) _ (fun s n => s.queues_postRing n _ _ _ _ _ m) _ _).trans (s.queues_postRing _ _ _ _ _ _ m)

theorem State.pendBits_postRing (s : State) (n code fn q part : Nat) (detail : List Byte) : (s.postRing n code fn q part detail).pendBits = s.pendBits := by
  have hsend (s : State) (n v : Nat) : (s.sendVec n v).pendBits = s.pendBits := by unfold State.sendVec; split <;> rfl
  have htrig (s : State) (n v : Nat) : (s.countTrigger n v).pendBits = s.pendBits := by
    unfold State.countTrigger
    dsimp only
    split
    · exact hsend s n v
    · rfl
  have hcount (s : State) (n v : Nat) : (s.countVec n v).pendBits = s.pendBits := by
    unfold State.countVec
    refine (htrig _ n v).trans ?_
    split <;> rfl
  rcases s.postRing_cases n code fn q part detail with h | h | ⟨l, bs, v, h⟩
  · rw [h]
  · rw [h]
    rfl
  · rw [h, hcount]
    have hphys : (s.physWrite l bs).pendBits = s.pendBits := by simpa [State.core] using congrArg State.pendBits (s.core_physWrite l bs)
    exact hphys

theorem State.pendBits_queueEvent (s : State) (code fn q : Nat) (detail : List Byte) : (s.queueEvent code fn q detail).pendBits = s.pendBits :=
  (foldl_keeps State.pendBits _ (fun s n => s.pendBits_postRing n _ _ _ _ _) _ _).trans (s.pendBits_postRing _ _ _ _ _ _)

end Sys2Proof.Machine
end

section
/-!
PROOF of O44: notifies and the registers of BAR0 (spec/02 R35, R45, R46, R50; spec/01 R26).
-/

namespace Sys2Proof.Machine

open Sys2Proof.Claims

/-! ### Notifies -/

/-- A queue that a notify stops is stopped (R46). -/
theorem State.stopped_stopQueue (s : State) {fn q : Nat} (page : Bool) (case : Nat) (hn : fn < s.fns.length) (hq : q < 8) :
    (((s.stopQueue fn q page case).fn fn).queue q).stopped = true := by
  have hs1 : (((s.modQueue fn q fun Q => { Q with stopped := true }).fn fn).queue q).stopped = true := by
    rw [s.queue_modQueue _ hn hq]
  have hqueue {u v : State} (h : (u.fn fn).queues = (v.fn fn).queues) : (u.fn fn).queue q = (v.fn fn).queue q := by
    rw [Fn.queue, h, Fn.queue]
  unfold State.stopQueue
  dsimp only
  rw [hqueue (State.queues_queueEvent _ _ _ _ _ fn)]
  split
  · rw [State.fn, State.fns_fnWrite, State.fns_fnWrite]
    exact hs1
  · exact hs1

theorem State.fn_setPending (s : State) (n q : Nat) (m : Nat) : (s.setPending n q).fn m = s.fn m := by
  rw [State.fn, State.fns_setPending, State.fn]

/-- A queue without a slot, with commands waiting, has its bit (R49). -/
theorem State.mem_setPending (s : State) {fn q : Nat} (hw : ((s.fn fn).queue q).taken ≠ ((s.fn fn).queue q).tail) (hm : s.mapped fn q = false) :
    ∃ b ∈ (s.setPending fn q).pendBits, b.fn = fn ∧ b.q = q := by
  unfold State.setPending
  dsimp only
  split
  · next h =>
    rcases h with h | h | h
    · exact absurd h.1 hw
    · rw [hm] at h
      cases h
    · obtain ⟨b, hb, he⟩ := List.any_eq_true.1 h
      simp only [Bool.and_eq_true, decide_eq_true_eq] at he
      exact ⟨b, hb, he⟩
  · exact ⟨⟨fn, q, s.ptime, false, none⟩, List.mem_append_right _ (List.mem_singleton.2 rfl), rfl, rfl⟩

theorem fnRead_wakeCtrls (s : State) (n : Nat) (base : Word) (off k : Nat) : s.wakeCtrls.fnRead n base off k = s.fnRead n base off k := rfl

/-- A notified queue with the fields of its descriptor (R45, R46). -/
def State.described (s : State) (fn q : Nat) (d : List Byte) : State :=
  s.modQueue fn q fun Q => { Q.restart (BitVec.ofNat 32 (fldOf d 12 4)) with ring := BitVec.ofNat 64 (fldOf d 0 8), log2 := fldOf d 8 1, known := true }

/-- A queue that runs keeps its place when its descriptor is read again (R46). -/
theorem State.queue_described (s : State) {fn q : Nat} (d : List Byte) (hn : fn < s.fns.length) (hq : q < 8) (hs : ((s.fn fn).queue q).stopped = false) :
    ((s.described fn q d).fn fn).queue q = { (s.fn fn).queue q with ring := BitVec.ofNat 64 (fldOf d 0 8), log2 := fldOf d 8 1, known := true } := by
  rw [State.described, s.queue_modQueue _ hn hq, Queue.restart, if_neg (by rw [hs]; decide)]

/-- A notify of an enabled queue that runs and whose descriptor is good, by its tail (R46). -/
theorem State.notifyQueue_good (s : State) {fn q : Nat} {tail : BitVec 32} {d : List Byte} {Q : Queue} (hn : fn < s.fns.length) (hq : q < 8)
    (hr : s.fnRead fn (s.fn fn).cpage (32 * q) 32 = d) (hQ : (s.fn fn).queue q = Q) (hb : baseReserved fn (s.fn fn).cpage = false)
    (he : (fldOf d 9 1).testBit 0 = true) (hd : badDescriptor fn d = false) (hs : Q.stopped = false) (h0 : 0 < (tail - Q.tail).toNat)
    (h31 : (tail - Q.tail).toNat < 2 ^ 31) : s.notifyQueue fn q tail =
      if 2 ^ fldOf d 8 1 < (tail - Q.head).toNat then (s.described fn q d).stopQueue fn q true 1
      else ((s.described fn q d).modQueue fn q fun Q => { Q with tail := tail }).setPending fn q := by
  subst hr hQ
  have hqueue := s.queue_described (s.fnRead fn (s.fn fn).cpage (32 * q) 32) hn hq hs
  unfold State.described at hqueue ⊢
  unfold State.notifyQueue
  dsimp only
  rw [hb, if_neg Bool.false_ne_true, he, if_neg (by decide), hd, if_neg Bool.false_ne_true, hqueue]
  exact if_neg (not_or.2 ⟨h0.ne', Nat.not_le.2 h31⟩)

/-! ### Registers -/

theorem setHalf_both (w v : Word) : setHalf (setHalf w false (v.setWidth 32)) true (v.extractLsb' 32 32) = v := by
  refine BitVec.eq_of_toNat_eq ?_
  simp only [setHalf, if_true, Bool.false_eq_true, if_false, BitVec.toNat_ofNat, BitVec.toNat_setWidth, BitVec.extractLsb'_toNat, Nat.shiftRight_eq_div_pow]
  omega

theorem execRegisterWrite_eq (s : State) : exec .registerWrite s = .next (barWrite s s.arg.fn s.arg.off s.arg.size s.arg.v) := rfl

/-- A write besides the notify register of 4 bytes is one of a word (R35). -/
theorem barWrite_word (s : State) {fn off : Nat} (v : Word) (h : ¬ (notifyOff fn ≤ off ∧ off < notifyOff fn + 8)) :
    barWrite s fn off 4 v = barWrite4 s fn off (v.setWidth 32) := by
  rw [barWrite, if_neg h]
  exact (if_neg (by decide)).trans (if_pos rfl)

/-- A write besides the notify register of 8 bytes is two of a word each (R35). -/
theorem barWrite_dword (s : State) {fn off : Nat} (v : Word) (h : ¬ (notifyOff fn ≤ off ∧ off < notifyOff fn + 8)) :
    barWrite s fn off 8 v = barWrite4 (barWrite4 s fn off (v.setWidth 32)) fn (off + 4) (v.extractLsb' 32 32) := by
  rw [barWrite, if_neg h]
  exact if_pos rfl

/-- The command page register is written by halves (R45). -/
theorem barWrite4_cpage (s : State) (fn : Nat) (high : Bool) (x : BitVec 32) (hr : s.boot.recov = false) :
    barWrite4 s fn ((if fn = 0 then 0x1000 else 0x000) + if high then 4 else 0) x = s.modFn fn fun f => { f with cpage := setHalf f.cpage high x } := by
  by_cases h0 : fn = 0 <;> cases high <;> simp [barWrite4, hr, h0]

/-- In recovery mode nothing but the recovery window takes a write (R25, R26). -/
theorem barWrite4_recov (s : State) (fn off : Nat) (x : BitVec 32) (hr : s.boot.recov = true) (h : ¬ (fn = 0 ∧ off < 0x1000)) : barWrite4 s fn off x = s :=
  if_pos ⟨hr, h⟩

end Sys2Proof.Machine

namespace Sys2Proof.Proofs

open Sys2Proof Sys2Proof.Machine Sys2Proof.Claims

theorem notifies : Notify := by
  intro s hr fn q tail d Q hn
  have hx : exec .notify s = .next (notify s fn s.arg.v s.arg.size) := by
    show execNotify s = _
    rw [execNotify, hr]
    rfl
  have hq : q < 8 := (s.arg.v.extractLsb' 32 3).isLt
  have hnw : fn < s.wakeCtrls.fns.length := hn
  refine ⟨fun h => ⟨_, hx.trans (congrArg _ (if_pos h)), ?_, fun k => ?_, fun m hm => ?_⟩, fun hsize hres hb he hd hs => ?_⟩
  · exact congrArg Fn.nerr (s.wakeCtrls.fn_modFn _ hnw)
  · exact s.wakeCtrls.modFn_keeps (Fn.queue · k) (fun f => { f with nerr := true }) (fun _ => rfl) fn fn
  · exact s.wakeCtrls.fn_modFn_ne _ hm
  have hgood := State.notifyQueue_good s.wakeCtrls (tail := tail) (d := d) (Q := Q) hnw hq rfl rfl hb he hd hs
  have hqueue : ((s.wakeCtrls.described fn q d).fn fn).queue q = { Q with ring := BitVec.ofNat 64 (fldOf d 0 8), log2 := fldOf d 8 1, known := true } :=
    s.wakeCtrls.queue_described d hnw hq hs
  have hnotify : exec .notify s = .next (s.wakeCtrls.notifyQueue fn q tail) := hx.trans (congrArg _ (if_neg (by simp [hsize, hres])))
  have hlen : fn < (s.wakeCtrls.described fn q d).fns.length := by rw [State.described, State.length_fns_modQueue]; exact hnw
  refine ⟨fun h0 h31 hfit => ?_, fun h0 h31 hpast => ?_⟩
  · have hdone := hnotify.trans (congrArg _ ((hgood h0 h31).trans (if_neg (Nat.not_lt.2 hfit))))
    have hafter := ((s.wakeCtrls.described fn q d).queue_modQueue (fun Q => { Q with tail := tail }) hlen hq).trans (by rw [hqueue])
    refine ⟨_, hdone, ?_, ?_, ?_, ?_, fun hw hm => ?_⟩
    · rw [State.fn_setPending, hafter]
    · rw [State.fn_setPending, hafter]
    · rw [State.fn_setPending, hafter]
    · rw [State.fn_setPending, hafter]
    · exact State.mem_setPending _ (by rw [hafter]; exact hw) hm
  · exact ⟨_, hnotify.trans (congrArg _ ((hgood h0 h31).trans (if_pos hpast))), State.stopped_stopQueue _ _ _ hlen hq⟩

theorem registerWrites : RegisterWrites := by
  rintro s fn rfl hn x
  have hx := execRegisterWrite_eq s
  refine ⟨fun hr hsize hoff => ?_, fun hr hsize h0 hoff => ?_, fun hr hsize hoff => ?_, fun hr hsize h0 hoff => ?_, fun hr hb hwf hsize h0 o ho hoff => ?_,
    fun hr h => ?_, fun hr hlo hhi h => ?_⟩
  · rw [hsize, barWrite_dword _ _ (by rw [hoff, notifyOff]; split <;> omega), hoff] at hx
    have hlow := barWrite4_cpage s s.arg.fn false x hr
    have hhigh := barWrite4_cpage (s.modFn s.arg.fn fun f => { f with cpage := setHalf f.cpage false x }) s.arg.fn true (s.arg.v.extractLsb' 32 32) hr
    simp only [Bool.false_eq_true, if_false, if_true, Nat.add_zero] at hlow hhigh
    rw [hlow, hhigh] at hx
    refine ⟨_, hx, ?_, fun m hm => ?_⟩
    · rw [State.fn_modFn _ _ (by simpa using hn), s.fn_modFn _ hn]
      exact setHalf_both _ _
    · rw [State.fn_modFn_ne _ _ hm, State.fn_modFn_ne _ _ hm]
  · rw [hsize, barWrite_word _ _ (by rw [hoff, notifyOff, if_neg h0]; omega), hoff] at hx
    have hw : barWrite4 s s.arg.fn 0x010 x = s.modFn s.arg.fn fun f => { f with nerr := f.nerr && !x.getLsbD 1 } := by simp [barWrite4, hr, h0]
    rw [hw] at hx
    exact ⟨_, hx, congrArg Fn.nerr (s.fn_modFn _ hn), s.modFn_keeps Fn.cpage (fun f => { f with nerr := f.nerr && !x.getLsbD 1 }) (fun _ => rfl) _ _⟩
  · rw [hsize, barWrite_word _ _ (by rw [hoff, notifyOff]; split <;> omega), hoff] at hx
    have hw : barWrite4 s s.arg.fn (if s.arg.fn = 0 then 0x1020 else 0x020) x = s.modFn s.arg.fn fun f => f.writeHead x := by
      by_cases h0 : s.arg.fn = 0 <;> simp [barWrite4, hr, h0]
    rw [hw] at hx
    refine ⟨_, hx, ?_⟩
    rw [s.fn_modFn _ hn, Fn.writeHead]
    split <;> rfl
  · rw [hsize, barWrite_word _ _ (by rw [hoff, notifyOff, if_pos h0]; omega), hoff] at hx
    have hw : barWrite4 s s.arg.fn 0x1018 x = if 1 ≤ x.toNat ∧ x.toNat ≤ 1000000 then { s with pfStarve := x.toNat } else s := by simp [barWrite4, hr, h0]
    rw [hw] at hx
    refine ⟨_, hx, ?_⟩
    split <;> rfl
  · rw [hsize, barWrite_word _ _ (by rw [hoff, notifyOff, if_pos h0]; omega), hoff] at hx
    have hw : barWrite4 s s.arg.fn (0x800 + o) x = { s with boot := { s.boot with mbox := s.boot.mbox.writeRun o (leBytes 4 x.toNat) } } := by
      rw [barWrite4, if_neg (by omega), if_pos h0, if_pos (by omega), recoveryWrite]
      dsimp only
      rw [hr, if_neg (by decide), if_neg (by omega), if_neg (by omega), if_pos (by omega), hb, if_neg Bool.false_ne_true, Nat.add_sub_cancel_left]
    rw [hw] at hx
    obtain ⟨-, -, -, hmbox, -⟩ := hwf
    have hlen : (leBytes 4 x.toNat).length = 4 := rfl
    refine ⟨_, hx, Memory.readRun_writeRun hmbox o (leBytes 4 x.toNat), fun a ha => ?_⟩
    exact (Memory.read_writeRun _ _ _ _).trans (if_neg (by omega))
  · refine hx.trans (congrArg _ ?_)
    by_cases hn : notifyOff s.arg.fn ≤ s.arg.off ∧ s.arg.off < notifyOff s.arg.fn + 8
    · exact (if_pos hn).trans (if_pos hr)
    rw [barWrite, if_neg hn, barWrite4_recov s _ _ _ hr h, barWrite4_recov s _ _ _ hr (by omega), ite_self, ite_self]
  · have hw : barWrite s s.arg.fn s.arg.off s.arg.size s.arg.v = notify s s.arg.fn s.arg.v (if s.arg.off = notifyOff s.arg.fn then s.arg.size else 0) :=
      (if_pos ⟨hlo, hhi⟩).trans (if_neg (by rw [hr]; decide))
    rw [hw] at hx
    refine ⟨_, hx.trans (congrArg _ (if_pos (.inl ?_))), congrArg Fn.nerr (s.wakeCtrls.fn_modFn _ hn)⟩
    split
    · next he => exact h.resolve_right (not_not.2 he)
    · decide

end Sys2Proof.Proofs
end

section
/-!
PROOF of O44, continued: interrupt coalescing and masks, and the slots of queues (spec/02 R49, R50, R52, R53; log entry 41).
-/

namespace Sys2Proof.Machine

open Sys2Proof.Claims

/-! ### Messages -/

/-- A message is sent, or pending while its vector is masked; what else the vector holds stays (R53). -/
theorem sent_sendVec (s t : State) {n v : Nat} (hm : ((t.fn n).vec v).masked = ((s.fn n).vec v).masked) (hg : t.msgs = s.msgs) (hn : n < t.fns.length)
    (hv : v < 16) : Sent s (t.sendVec n v) n v := by
  unfold State.sendVec
  refine ⟨fun h => ?_, fun h => ?_⟩
  · rw [if_neg (by rw [hm, h]; decide)]
    exact ⟨congrArg (· ++ [(n, v)]) hg, congrArg Vec.pend (t.vec_modVec (fun x => { x with pend := 0 }) hn hv)⟩
  · rw [if_pos (hm.trans h)]
    exact ⟨hg, congrArg Vec.pba (t.vec_modVec (fun x => { x with pba := true }) hn hv)⟩

theorem vec_sendVec (s : State) {n v : Nat} (hn : n < s.fns.length) (hv : v < 16) : ((s.sendVec n v).fn n).vec v =
    if ((s.fn n).vec v).masked = true then { (s.fn n).vec v with pba := true } else { (s.fn n).vec v with pend := 0 } := by
  unfold State.sendVec
  split
  · exact s.vec_modVec (fun x => { x with pba := true }) hn hv
  · exact s.vec_modVec (fun x => { x with pend := 0 }) hn hv

/-! ### Slots that are chosen -/

/-- The least of a list of bits is one of them. -/
theorem mem_of_least {bs : List PendBit} {b : PendBit} (h : bs.foldl (fun m b => match m with
    | some x => if b.key < x.key then some b else some x
    | none => some b) none = some b) : b ∈ bs := by
  refine (mem_of_foldl_choice _ (fun m x => ?_) _ _ h).resolve_left nofun
  cases m with
  | none => exact .inr rfl
  | some y =>
    dsimp only
    split
    · exact .inr rfl
    · exact .inl rfl

/-- The bit that is served next is set and awaits no slot (R49). -/
theorem State.nextBit_spec {s : State} {b : PendBit} (h : s.nextBit = some b) : b ∈ s.pendBits ∧ s.awaits b = false := by
  have hmem : b ∈ s.pendBits.filter fun b => !s.awaits b := by
    rcases Option.or_eq_some_iff.1 h with h | ⟨_, h⟩
    · exact List.mem_of_mem_filter (mem_of_least h)
    · exact mem_of_least h
  obtain ⟨hb, ha⟩ := List.mem_filter.1 hmem
  exact ⟨hb, by simpa using ha⟩

theorem State.slotFor_spec {s : State} {k : Nat} (h : s.slotFor = some k) : s.slotTaken k = false := by
  have hmem : k ∈ (List.range s.qslots.toList.length).filter fun k => !s.slotTaken k := by
    rcases Option.or_eq_some_iff.1 h with h | ⟨_, h⟩
    · exact List.mem_of_find?_eq_some h
    · exact List.mem_of_find?_eq_some h
  simpa using (List.mem_filter.1 hmem).2

/-- The slot of rule 3 has not been taken, and a launch that may be pre-empted stands in its way (R49). -/
theorem State.slotVictim_spec {s : State} {k p : Nat} (h : s.slotVictim = some (k, p)) :
    s.slotTaken k = false ∧ ∃ l, (s.part p).launch = some l ∧ s.preemptible p l = true := by
  obtain ⟨⟨k', p', prio⟩, hx, he⟩ := Option.map_eq_some_iff.1 h
  cases he
  have hmem := (mem_of_foldl_choice _ (fun m x => by
    cases m with
    | none => exact .inr rfl
    | some y =>
      dsimp only
      split
      · exact .inr rfl
      · exact .inl rfl) _ _ hx).resolve_left nofun
  obtain ⟨j, hj, hs⟩ := List.mem_filterMap.1 hmem
  obtain ⟨⟨fn, q⟩, -, hb⟩ := Option.bind_eq_some_iff.1 hs
  obtain ⟨⟨p2, l⟩, hl, hp⟩ := Option.bind_eq_some_iff.1 hb
  split at hp
  · next hpre =>
    cases hp
    refine ⟨by simpa using (List.mem_filter.1 hj).2, l, ?_, hpre⟩
    obtain ⟨b, -, hb⟩ := Option.bind_eq_some_iff.1 hl
    obtain ⟨l2, hlaunch, hc⟩ := Option.bind_eq_some_iff.1 hb
    split at hc
    · split at hc
      · cases hc
        exact hlaunch
      · cases hc
    · cases hc
  · cases hp

/-- A launch that may be pre-empted is, at its partition's next stop (R86). -/
theorem State.requestPreempt_of_preemptible {s : State} {p : Nat} {l : Launch} (hl : (s.part p).launch = some l) (h : s.preemptible p l = true) (kind : Nat) :
    s.requestPreempt p kind = (s.modPart p fun P => { P with stops := P.stops ++ [(.preempt kind, 0)] }).startBound p := by
  simp only [State.preemptible, Bool.and_eq_true, Bool.not_eq_true', Bool.or_eq_true, decide_eq_true_eq, Bool.and_eq_false_iff, decide_eq_false_iff_not] at h
  obtain ⟨⟨⟨hrun, hpre⟩, hbind⟩, hlimit⟩ := h
  have hnone : (s.runBinding p).isNone = false := by simpa [Option.isSome_iff_ne_none] using hbind
  have hruns : decide ((s.part p).run = .saving) = false ∧ decide ((s.part p).run = .halted) = false ∧ (s.part p).waits = false := by
    rcases hrun with (hr | hr) | hr <;> simp [Partition.waits, hr]
  obtain ⟨hsaving, hhalted, hwaits⟩ := hruns
  unfold State.requestPreempt
  dsimp only
  rw [hl]
  dsimp only
  rw [hpre, hnone, hsaving, hhalted, hwaits, if_neg (by decide), if_neg, if_neg (by decide)]
  rintro ⟨hn, hc⟩
  rcases hlimit with hlimit | hlimit
  · rw [hn] at hlimit
    cases hlimit
  · exact hlimit hc

theorem State.startBound_keeps (s : State) (p : Nat) : (s.startBound p).qslots = s.qslots ∧ (s.startBound p).pendBits = s.pendBits ∧
    (s.startBound p).lastServed = s.lastServed := by
  unfold State.startBound
  split
  · exact ⟨rfl, rfl, rfl⟩
  · split <;> exact ⟨rfl, rfl, rfl⟩

theorem State.preempting_startBound {s : State} {p : Nat} {l : Launch} (hl : (s.part p).launch = some l) (kind : Nat) :
    (((s.modPart p fun P => { P with stops := P.stops ++ [(.preempt kind, 0)] }).startBound p).part p).preempting = true :=
  List.any_eq_true.2 ⟨_, s.mem_stops_startBound l hl kind, rfl⟩

/-! ### A slot passes over -/

/-- A bit that is set for commands that wait joins the bitmap as one that has been served by nothing. -/
theorem State.pendBits_setPending (s : State) (fn q : Nat) : ∀ b ∈ (s.setPending fn q).pendBits, b ∈ s.pendBits ∨ b.via = none := by
  intro b hb
  unfold State.setPending at hb
  dsimp only at hb
  split at hb
  · exact .inl hb
  · rcases List.mem_append.1 hb with h | h
    · exact .inl h
    · rw [List.mem_singleton.1 h]
      exact .inr rfl

@[simp] theorem State.qslots_setPending (s : State) (fn q : Nat) : (s.setPending fn q).qslots = s.qslots := by
  unfold State.setPending
  dsimp only
  split <;> rfl

theorem State.pendBits_setPendings (qs : List (Nat × Nat)) : ∀ (s : State), ∀ b ∈ (qs.foldl (fun s q => s.setPending q.1 q.2) s).pendBits,
    b ∈ s.pendBits ∨ b.via = none := by
  induction qs with
  | nil => exact fun s b h => .inl h
  | cons q qs ih =>
    intro s b hb
    rcases ih _ b hb with h | h
    · exact s.pendBits_setPending q.1 q.2 b h
    · exact .inr h

theorem State.qslots_setPendings (qs : List (Nat × Nat)) (s : State) : (qs.foldl (fun s q => s.setPending q.1 q.2) s).qslots = s.qslots :=
  foldl_keeps State.qslots _ (fun s q => s.qslots_setPending q.1 q.2) qs s

/-- Slot k, of a launch of partition p, was taken for a bit. -/
def PendBit.tookOf (k p : Nat) (b : PendBit) : Bool := decide (b.via.map (·.2) = some p) && decide (b.via.map (·.1) = some k)

theorem PendBit.tookOf_iff (b : PendBit) (k p : Nat) : b.tookOf k p = true ↔ b.via = some (k, p) := by
  unfold PendBit.tookOf
  rcases b.via with - | ⟨i, j⟩
  · simp
  · simp [and_comm]

/-- When the save of a launch has released its slots, the one taken for a bit alone passes over to the bit's queue (R49 rule 3). -/
theorem State.releaseSlots_passes {s : State} {p : Nat} {b : PendBit} (k : Fin 64) (hsave : (s.part p).saveSlot = true) (hb : b ∈ s.pendBits)
    (hvia : b.via = some (k.val, p)) (honly : ∀ x ∈ s.pendBits, x.via = some (k.val, p) → x = b) :
    (s.releaseSlots p).qslots[k] = some (b.fn, b.q) ∧ b ∉ (s.releaseSlots p).pendBits := by
  have hfind : s.pendBits.find? (PendBit.tookOf k.val p) = some b := by
    obtain ⟨y, hy⟩ := Option.isSome_iff_exists.1 (List.find?_isSome.2 ⟨b, hb, (b.tookOf_iff k.val p).2 hvia⟩)
    rw [hy, honly y (List.mem_of_find?_eq_some hy) ((y.tookOf_iff k.val p).1 (List.find?_some hy))]
  unfold State.releaseSlots
  dsimp only
  rw [hsave, if_neg (by decide)]
  refine ⟨?_, fun hmem => ?_⟩
  · rw [State.modPart_qslots, State.qslots_setPendings]
    simp only [Fin.getElem_fin, Vector.getElem_ofFn]
    exact congrArg (fun o : Option PendBit => (o.map fun b => (b.fn, b.q)).or _) hfind
  · rcases State.pendBits_setPendings _ _ b hmem with h | h
    · simpa [hvia] using (List.mem_filter.1 h).2
    · rw [hvia] at h
      cases h

/-- A bit whose starvation is due (R50). -/
def State.starves (s : State) (b : PendBit) : Bool :=
  decide (b.fn = s.arg.fn) && decide (b.q = s.arg.q) && decide (b.since = s.arg.v) && !b.starved

end Sys2Proof.Machine

namespace Sys2Proof.Proofs

open Sys2Proof Sys2Proof.Machine Sys2Proof.Claims

/-- A write of a coalescing register by the fields that it names (R52). -/
def coalesced (time : BitVec 16) (count : BitVec 8) (x : Vec) : Vec := { x with time := time, count := count }

/-- COALESCE_WRITE: a COUNT below the events that are pending sends at once (R53). -/
theorem coalesceWrite_sends (s : State) {n v : Nat} (x : BitVec 32) (hn : n < s.fns.length) (hv : v < 16) :
    let V := (s.fn n).vec v
    let t := coalesceWrite s n v x
    ((t.fn n).vec v).time = x.extractLsb' 8 16 ∧ ((t.fn n).vec v).count = x.setWidth 8 ∧
      (max 1 (x.setWidth 8 : BitVec 8).toNat < V.pend → Sent s t n v) ∧
      (V.pend ≤ max 1 (x.setWidth 8 : BitVec 8).toNat → t.msgs = s.msgs ∧ ((t.fn n).vec v).pend = V.pend) := by
  intro V t
  have hvec : ((s.modVec n v (coalesced (x.extractLsb' 8 16) (x.setWidth 8))).fn n).vec v = coalesced (x.extractLsb' 8 16) (x.setWidth 8) V := s.vec_modVec _ hn hv
  have hlen : n < (s.modVec n v (coalesced (x.extractLsb' 8 16) (x.setWidth 8))).fns.length := by simpa [State.modVec] using hn
  have ht : t = if max 1 (x.setWidth 8 : BitVec 8).toNat < V.pend then (s.modVec n v (coalesced (x.extractLsb' 8 16) (x.setWidth 8))).sendVec n v
      else s.modVec n v (coalesced (x.extractLsb' 8 16) (x.setWidth 8)) := by
    show coalesceWrite s n v x = _
    unfold coalesceWrite
    exact congrArg (fun c : Vec => if c.limit < c.pend then (s.modVec n v (coalesced (x.extractLsb' 8 16) (x.setWidth 8))).sendVec n v
      else s.modVec n v (coalesced (x.extractLsb' 8 16) (x.setWidth 8))) hvec
  by_cases h : max 1 (x.setWidth 8 : BitVec 8).toNat < V.pend
  · rw [if_pos h] at ht
    have hafter := vec_sendVec _ hlen hv
    rw [← ht, hvec] at hafter
    refine ⟨?_, ?_, fun _ => ht ▸ sent_sendVec s _ ((congrArg Vec.masked hvec).trans rfl) rfl hlen hv, fun hle => absurd hle (Nat.not_le.2 h)⟩
    · rw [hafter]
      split <;> rfl
    · rw [hafter]
      split <;> rfl
  · rw [if_neg h] at ht
    rw [ht, hvec]
    exact ⟨rfl, rfl, fun hlt => absurd hlt h, fun _ => ⟨rfl, rfl⟩⟩

/-- MSIX_UNMASK: a pending message goes out when the mask is cleared, and the count is then clear (R53; log entry 41). -/
theorem msixUnmask_sends (s : State) (hn : s.arg.fn < s.fns.length) (hv : s.arg.n < 16) (hr : s.boot.recov = false) :
    let n := s.arg.fn
    let v := s.arg.n
    let x := (s.fn n).vec v
    ∃ t, exec .msixUnmask s = .next t ∧ ((t.fn n).vec v).masked = decide (s.arg.m = 1) ∧
      t.msgs = s.msgs ++ (if s.arg.m ≠ 1 ∧ x.masked = true ∧ x.pba = true then [(n, v)] else []) ∧
      (s.arg.m ≠ 1 → ((t.fn n).vec v).pba = false) ∧
      ((t.fn n).vec v).pend = if s.arg.m ≠ 1 ∧ x.masked = true ∧ x.pba = true then 0 else x.pend := by
  intro n v x
  have hx : exec .msixUnmask s = .next (if s.arg.m = 1 then s.modVec n v fun c => { c with masked := true }
      else if x.masked && x.pba then (s.modVec n v fun c => { c with masked := false, pba := false }).sendVec n v
      else s.modVec n v fun c => { c with masked := false, pba := false }) := congrArg _ (if_neg (by rw [hr]; decide))
  by_cases hm : s.arg.m = 1
  · have hvec := s.vec_modVec (fun c => { c with masked := true }) hn hv
    refine ⟨_, hx.trans (congrArg _ (if_pos hm)), ?_, ?_, fun h => absurd hm h, ?_⟩
    · rw [hvec, decide_eq_true hm]
    · rw [if_neg fun h => h.1 hm]
      exact (List.append_nil _).symm
    · rw [hvec, if_neg fun h => h.1 hm]
  have hvec := s.vec_modVec (fun c => { c with masked := false, pba := false }) hn hv
  have hm0 : decide (s.arg.m = 1) = false := decide_eq_false hm
  rw [if_neg hm] at hx
  by_cases hp : x.masked = true ∧ x.pba = true
  · have hlen : n < (s.modVec n v fun c => { c with masked := false, pba := false }).fns.length := by simpa [State.modVec] using hn
    have hafter := vec_sendVec _ hlen hv
    rw [hvec, if_neg Bool.false_ne_true] at hafter
    have hsent := (sent_sendVec (s.modVec n v fun c => { c with masked := false, pba := false }) _ rfl rfl hlen hv).1 (congrArg Vec.masked hvec)
    refine ⟨_, hx.trans (congrArg _ (if_pos (by simp [hp]))), ?_, ?_, fun _ => congrArg Vec.pba hafter, ?_⟩
    · exact (congrArg Vec.masked hafter).trans hm0.symm
    · rw [if_pos ⟨hm, hp⟩]
      exact hsent.1
    · rw [if_pos ⟨hm, hp⟩]
      exact hsent.2
  · refine ⟨_, hx.trans (congrArg _ (if_neg (by simpa using hp))), ?_, ?_, fun _ => congrArg Vec.pba hvec, ?_⟩
    · exact (congrArg Vec.masked hvec).trans hm0.symm
    · rw [if_neg fun h => hp h.2]
      exact (List.append_nil _).symm
    · rw [if_neg fun h => hp h.2]
      exact (congrArg Vec.pend hvec).trans rfl

theorem interrupts : Interrupts := by
  intro s n v x hn hv hr
  have hv16 : v < 16 := by split at hv <;> omega
  have hvn : ¬ (s.boot.recov = true ∨ vecCount n ≤ v) := by
    rw [hr]
    exact not_or.2 ⟨by decide, Nat.not_le.2 hv⟩
  have hlive (h1 : 1 ≤ x.pend) (h2 : x.t0 = s.arg.op) (h3 : x.active ≠ 0) : ¬ (x.pend = 0 ∨ x.t0 ≠ s.arg.op ∨ x.active = 0) := by
    rintro (h | h | h)
    · omega
    · exact h h2
    · exact h3 h
  refine ⟨?_, fun h => ⟨s.sendVec n v, congrArg Host.Outcome.next (if_pos h), sent_sendVec s s rfl rfl hn hv16⟩,
    fun h => congrArg Host.Outcome.next (if_neg (Nat.not_le.2 h)), fun h1 h2 h3 h4 => ⟨s.sendVec n v, congrArg Host.Outcome.next ((if_neg (hlive h1 h2 h3)).trans (if_pos h4)), sent_sendVec s s rfl rfl hn hv16⟩, fun h1 h2 h3 h4 => ?_,
    fun h => congrArg Host.Outcome.next (if_pos h), msixUnmask_sends s hn hv16 hr⟩
  · intro c
    have htime : (s.arg.v.setWidth 32).extractLsb' 8 16 = s.arg.v.extractLsb' 8 16 := by
      refine BitVec.eq_of_toNat_eq ?_
      simp only [BitVec.extractLsb'_toNat, BitVec.toNat_setWidth, Nat.shiftRight_eq_div_pow]
      omega
    have hcount : ((s.arg.v.setWidth 32).setWidth 8 : BitVec 8) = c := BitVec.setWidth_setWidth_of_le _ (by decide)
    have hspec := coalesceWrite_sends s (s.arg.v.setWidth 32) hn hv16
    rw [htime, hcount] at hspec
    exact ⟨_, congrArg Host.Outcome.next (if_neg hvn), hspec⟩
  · have hx : exec .coalesceTimeExpiry s = .next (s.coalesceTimer n v x.t0 x.active) :=
      congrArg _ ((if_neg (hlive h1 h2 h3)).trans (if_neg (Nat.not_le.2 h4)))
    exact ⟨_, hx, rfl, rfl, _, List.mem_append_right _ (List.mem_singleton.2 rfl), rfl, rfl⟩

theorem queueSlots : QueueSlots := by
  intro s b
  refine ⟨fun k hb hk => ?_, fun hb hk hv => ?_, State.nextBit_spec, fun k ⟨x, hx, ha, hvia⟩ => ?_, fun k p hb hk hv => ?_, fun k p hsave hb hvia honly => ?_,
    fun hb hfn hq hsince hst => ?_, fun h => ?_⟩
  · have hx : exec .queueSlotAssign s = .next { s with
        qslots := Vector.ofFn fun i => if i.val = k.val then some (b.fn, b.q) else s.qslots[i]
        pendBits := s.pendBits.filter fun x => x.key ≠ b.key
        lastServed := b.key } := by
      show execQueueSlotAssign s = _
      rw [execQueueSlotAssign, hb, hk]
    refine ⟨_, hx, ?_, fun j hj => ?_, rfl, fun x => ?_⟩
    · simp
    · simp [Fin.val_ne_of_ne hj]
    · exact List.mem_filter.trans (and_congr_right fun _ => decide_eq_true_iff)
  · show execQueueSlotAssign s = _
    rw [execQueueSlotAssign, hb, hk, hv]
  · have htaken : s.slotTaken k = true := List.any_eq_true.2 ⟨x, hx, by simp [ha, hvia]⟩
    refine ⟨fun h => ?_, fun p h => ?_⟩
    · rw [State.slotFor_spec h] at htaken
      cases htaken
    · rw [(State.slotVictim_spec h).1] at htaken
      cases htaken
  · obtain ⟨-, l, hl, hpre⟩ := State.slotVictim_spec hv
    let s1 : State := { s with pendBits := s.pendBits.map fun x => { x with via := if x.key = b.key then some (k, p) else if s.awaits x then x.via else none }
                               lastServed := b.key }
    have hx : exec .queueSlotAssign s = .next (s1.requestPreempt p 1) := by
      show execQueueSlotAssign s = _
      rw [execQueueSlotAssign, hb, hk, hv]
    rw [State.requestPreempt_of_preemptible (s := s1) hl hpre 1] at hx
    obtain ⟨hqslots, hbits, hlast⟩ := State.startBound_keeps (s1.modPart p fun P => { P with stops := P.stops ++ [(.preempt 1, 0)] }) p
    exact ⟨_, hx, State.preempting_startBound (s := s1) hl 1, hqslots, hlast, hbits⟩
  · exact State.releaseSlots_passes k hsave hb hvia honly
  · have hany : s.pendBits.any s.starves = true := List.any_eq_true.2 ⟨b, hb, by simp [State.starves, hfn, hq, hsince, hst]⟩
    refine ⟨_, congrArg Host.Outcome.next (if_pos hany), ?_, fun haddr hfull h0 hlen => ?_⟩
    · rw [State.pendBits_queueEvent]
      exact List.mem_map.2 ⟨b, hb, if_pos (by simp [hfn, hq, hsince, hst])⟩
    · unfold State.queueEvent State.postEvent
      rw [if_pos h0]
      exact State.evtTail_postRing_zero _ _ _ _ _ _ haddr (Nat.ne_of_lt hfull) hlen
  · refine congrArg Host.Outcome.next (if_neg fun hany => ?_)
    obtain ⟨x, hx, hm⟩ := List.any_eq_true.1 hany
    simp only [Bool.and_eq_true, decide_eq_true_eq, Bool.not_eq_true'] at hm
    obtain ⟨⟨⟨h1, h2⟩, h3⟩, h4⟩ := hm
    exact h x hx ⟨h1, h2, h3, h4⟩

/-- Settles O44: notifies, queue slots, interrupts and register writes, each clause by the equation of its row. -/
theorem hostRegistersAndInterrupts : Obligations.HostRegistersAndInterrupts := ⟨notifies, queueSlots, interrupts, registerWrites⟩

end Sys2Proof.Proofs
end

section
/-!
SUPPORT. What a change of records does besides: seeds and stops; and records that change one at a time (spec/04 R71, R72, R84, R86).
-/

namespace Sys2Proof.Machine

/-! ### Seeds and stops -/

/-- A partition without its staged seeds and its stops, which alone follow a change of its records (R84, R86). -/
def Partition.offStops (P : Partition) : Partition := { P with stops := [], seed := [] }

section
variable {P Q : Partition} (h : P.offStops = Q.offStops)
include h

theorem Partition.run_of_offStops : P.run = Q.run := (congrArg Partition.run h :)
theorem Partition.launch_of_offStops : P.launch = Q.launch := (congrArg Partition.launch h :)
theorem Partition.recs_of_offStops : P.recs = Q.recs := (congrArg Partition.recs h :)
theorem Partition.tiles_of_offStops : P.tiles = Q.tiles := (congrArg Partition.tiles h :)
theorem Partition.saveFn_of_offStops : P.saveFn = Q.saveFn := (congrArg Partition.saveFn h :)
theorem Partition.rcd_of_offStops (i : Nat) : P.rcd i = Q.rcd i := by rw [Partition.rcd, Partition.recs_of_offStops h, Partition.rcd]

end

theorem State.offStops_stageSeed (s : State) (p q : Nat) : ((s.stageSeed p).part q).offStops = (s.part q).offStops := by
  unfold State.stageSeed
  exact s.modPart_keeps Partition.offStops _ (fun P => by rfl) p q

theorem State.offStops_startBound (s : State) (p q : Nat) : ((s.startBound p).part q).offStops = (s.part q).offStops := by
  unfold State.startBound
  split
  · rfl
  · split
    · exact s.modPart_keeps Partition.offStops _ (fun P => by rfl) p q
    · rfl

theorem State.offStops_requestPreempt (s : State) (p kind q : Nat) : ((s.requestPreempt p kind).part q).offStops = (s.part q).offStops := by
  have hstop : ((s.modPart p fun P => { P with stops := P.stops ++ [(.preempt kind, 0)] }).part q).offStops = (s.part q).offStops :=
    s.modPart_keeps Partition.offStops (fun P => { P with stops := P.stops ++ [(.preempt kind, 0)] }) (fun P => rfl) p q
  unfold State.requestPreempt
  dsimp only
  split
  · rfl
  split
  · rfl
  split
  · rfl
  split
  · exact hstop
  · exact (State.offStops_startBound _ p q).trans hstop

theorem State.offStops_afterRecords (s : State) (p q : Nat) : ((s.afterRecords p).part q).offStops = (s.part q).offStops := by
  unfold State.afterRecords
  dsimp only
  split
  · exact (State.offStops_requestPreempt _ p 0 q).trans (s.offStops_stageSeed p q)
  · exact s.offStops_stageSeed p q

/-! ### Records -/

theorem Partition.rcd_modRcd (P : Partition) {i : Nat} (f : LRec → LRec) (h : i < P.recs.length) : (P.modRcd i f).rcd i = f (P.rcd i) :=
  getD_modify _ _ _ _ h

theorem Partition.rcd_modRcd_ne (P : Partition) {i j : Nat} (f : LRec → LRec) (h : j ≠ i) : (P.modRcd i f).rcd j = P.rcd j :=
  getD_modify_ne _ _ _ _ _ h

@[simp] theorem Partition.length_recs_modRcd (P : Partition) (i : Nat) (f : LRec → LRec) : (P.modRcd i f).recs.length = P.recs.length :=
  List.length_modify _ _ _

theorem Partition.rcd_makeEligible (P : Partition) {i : Nat} (h : i < P.recs.length) :
    (P.makeEligible i).rcd i = { P.rcd i with st := .eligible, order := P.nextOrder } := P.rcd_modRcd _ h

theorem Partition.rcd_makeEligible_ne (P : Partition) {i j : Nat} (h : j ≠ i) : (P.makeEligible i).rcd j = P.rcd j := P.rcd_modRcd_ne _ h

/-- A record whose counts have changed: Eligible where nothing is left to count (R72). -/
def Partition.putCounted (P : Partition) (i : Nat) (r : LRec) : Partition :=
  if r.counts.toList.all (· == 0) then (P.modRcd i fun _ => r).makeEligible i else P.modRcd i fun _ => r

theorem Partition.rcd_putCounted_ne (P : Partition) {i j : Nat} (r : LRec) (h : j ≠ i) : (P.putCounted i r).rcd j = P.rcd j := by
  unfold Partition.putCounted
  split
  · rw [Partition.rcd_makeEligible_ne _ h, P.rcd_modRcd_ne _ h]
  · rw [P.rcd_modRcd_ne _ h]

theorem Partition.rcd_putCounted (P : Partition) {i : Nat} (r : LRec) (h : i < P.recs.length) : ((P.putCounted i r).rcd i).counts = r.counts ∧
    (r.counts.toList.all (· == 0) = true → ((P.putCounted i r).rcd i).st = .eligible) := by
  have hr : (P.modRcd i fun _ => r).rcd i = r := P.rcd_modRcd _ h
  unfold Partition.putCounted
  split
  · rw [Partition.rcd_makeEligible _ (by simpa using h), hr]
    exact ⟨rfl, fun _ => rfl⟩
  · next hall =>
    rw [hr]
    exact ⟨rfl, fun h => absurd h hall⟩

/-- A record after one of its counts has gone down. -/
def LRec.counted (r : LRec) (k fn : Nat) : LRec :=
  { r with counts := if h : k < 4 then r.counts.set k (r.counts.toList.getD k 0 - 1) else r.counts
           postFn := if r.st = .posted then r.postFn else fn }

theorem Partition.decrement_eq (P : Partition) (i k fn : Nat) : P.decrement i k fn =
    if ((P.rcd i).st = .armed ∨ (P.rcd i).st = .posted) ∧ (P.rcd i).counts.toList.getD k 0 ≠ 0 then P.putCounted i ((P.rcd i).counted k fn) else P := rfl

/-- A decrement leaves the other records (R75). -/
theorem Partition.rcd_decrement_ne (P : Partition) {i j : Nat} (k fn : Nat) (h : j ≠ i) : (P.decrement i k fn).rcd j = P.rcd j := by
  rw [P.decrement_eq]
  split
  · exact P.rcd_putCounted_ne _ h
  · rfl

/-- A record that waits counts down by one, and is Eligible where nothing is left to count (R72, R75). -/
theorem Partition.rcd_decrement (P : Partition) {i k : Nat} (fn : Nat) (hi : i < P.recs.length) (hk : k < 4)
    (hst : (P.rcd i).st = .armed ∨ (P.rcd i).st = .posted) (hc : (P.rcd i).counts.toList.getD k 0 ≠ 0) :
    (((P.decrement i k fn).rcd i).counts.toList.getD k 0 = (P.rcd i).counts.toList.getD k 0 - 1) ∧
      (((P.decrement i k fn).rcd i).counts.toList.all (· == 0) = true → ((P.decrement i k fn).rcd i).st = .eligible) := by
  obtain ⟨hcounts, heligible⟩ := P.rcd_putCounted ((P.rcd i).counted k fn) hi
  have hget : ((P.rcd i).counted k fn).counts.toList.getD k 0 = (P.rcd i).counts.toList.getD k 0 - 1 := by
    rw [LRec.counted]
    dsimp only
    rw [dif_pos hk, vector_getD_set _ _ _ _ _ hk, if_pos rfl]
  rw [P.decrement_eq, if_pos ⟨hst, hc⟩, hcounts]
  exact ⟨hget, heligible⟩

end Sys2Proof.Machine
end

section
/-!
PROOF of O49: launches that end, deferred pre-emptions, and saves that end (spec/04 R72, R75, R86, R87).
-/

namespace Sys2Proof.Machine

/-- A record whose launch has ended (R72, R76). -/
def LRec.closed (r : LRec) : LRec :=
  if r.rearm then { r.arm with postCmd := none } else { r with st := .idle, order := 0, postCmd := none, savedIn := none }

/-- What the end of an unconditional record's launch leads to, its successor x being counted down (R75). -/
def State.succeeded (s : State) (p x k fn : Nat) : State :=
  if x = 0xFFFFFFFF then s
  else if (s.part p).recs.length ≤ x then partEvent s p .illegalTarget 0 (BitVec.ofNat 64 x)
  else s.modPart p fun P => P.decrement x k fn

theorem launchComplete_unconditional {s : State} {p i : Nat} (hp : p < s.parts.length) (hi : i < (s.part p).recs.length) (hst : ((s.part p).rcd i).st = .running)
    (hl : (s.part p).launch.map (·.rcd) ≠ some i) (hc : ((s.part p).rcd i).conditional = false) :
    launchComplete s p i = (((s.modPart p fun P => P.modRcd i LRec.closed).succeeded p (((s.part p).rcd i).fld 36 4) (((s.part p).rcd i).fld 72 1 % 4)
      ((s.part p).rcd i).postFn).completeOpt ((s.part p).rcd i).postCmd 1).afterRecords p := by
  have hnext (w : Nat) : ((s.part p).rcd i).next w = (((s.part p).rcd i).fld 36 4, ((s.part p).rcd i).fld 72 1 % 4) := by
    rw [LRec.next, hc, Bool.false_and, if_neg Bool.false_ne_true]
  have hlen : ((s.modPart p fun P => P.modRcd i LRec.closed).part p).recs.length = (s.part p).recs.length := by
    rw [s.part_modPart _ _ hp, Partition.length_recs_modRcd]
  unfold launchComplete State.succeeded
  dsimp only
  rw [if_neg (by simp [hst, hl, hi]), hnext, hc, hlen]
  rfl

/-- The records after a successor has been counted down: the others stay. -/
theorem State.rcd_succeeded_ne (s : State) {p x k fn i : Nat} (h : i ≠ x) : ((s.succeeded p x k fn).part p).rcd i = (s.part p).rcd i := by
  unfold State.succeeded
  split
  · rfl
  split
  · have hparts := parts_partEvent s p .illegalTarget 0 (BitVec.ofNat 64 x)
    rw [State.part, hparts]
    exact s.modPart_keeps (Partition.rcd · i) _ (fun P => by rw [if_pos rfl]) p p
  · exact s.modPart_keeps (Partition.rcd · i) _ (fun P => P.rcd_decrement_ne k fn h) p p

theorem State.rcd_succeeded {s : State} {p x k fn : Nat} (hp : p < s.parts.length) (h0 : x ≠ 0xFFFFFFFF) (hx : x < (s.part p).recs.length) :
    ((s.succeeded p x k fn).part p).rcd x = ((s.part p).decrement x k fn).rcd x := by
  rw [State.succeeded, if_neg h0, if_neg (Nat.not_le.2 hx), s.part_modPart _ _ hp]

theorem State.offStops_completeOpt (s : State) (r : Option CmdRef) (k p : Nat) : ((s.completeOpt r k).part p).offStops = (s.part p).offStops := by
  unfold State.completeOpt
  split
  · rw [State.part_of_offCommand (s.offCommand_complete _ _)]
  · rfl

/-- The records at the end of a launch, once nothing but seeds and stops follows. -/
theorem rcd_launchComplete {s : State} (hp : s.arg.p < s.parts.length) (hi : s.arg.n < (s.part s.arg.p).recs.length)
    (hst : ((s.part s.arg.p).rcd s.arg.n).st = .running) (hl : (s.part s.arg.p).launch.map (·.rcd) ≠ some s.arg.n)
    (hc : ((s.part s.arg.p).rcd s.arg.n).conditional = false) (j : Nat) :
    ∃ t, exec .launchComplete s = .next t ∧ (t.part s.arg.p).rcd j = (((s.modPart s.arg.p fun P => P.modRcd s.arg.n LRec.closed).succeeded s.arg.p
      (((s.part s.arg.p).rcd s.arg.n).fld 36 4) (((s.part s.arg.p).rcd s.arg.n).fld 72 1 % 4) ((s.part s.arg.p).rcd s.arg.n).postFn).part s.arg.p).rcd j := by
  refine ⟨_, rfl, ?_⟩
  rw [State.modPart_keeps (Partition.rcd · j) (fun P => { P with drains := P.drains.erase s.arg.op }) (fun _ => rfl), launchComplete_unconditional hp hi hst hl hc]
  exact Partition.rcd_of_offStops ((State.offStops_afterRecords _ _ _).trans (State.offStops_completeOpt _ _ _ _)) j

end Sys2Proof.Machine

namespace Sys2Proof.Proofs

open Sys2Proof Sys2Proof.Machine Sys2Proof.Claims

theorem launchesEnd : LaunchesEnd := by
  intro s p i P r hp
  refine ⟨fun hi hst hl => ⟨fun hre hself hc => ?_, fun hre hnext hc => ?_⟩, fun h => ?_, fun l hl hsince hi hrun hpre hbind hbound => ?_⟩
  · have hpart := s.part_modPart p (fun P => P.modRcd i LRec.closed) hp
    have hpos : p < (s.modPart p fun P => P.modRcd i LRec.closed).parts.length := by simpa using hp
    obtain ⟨t, ht, hown⟩ := rcd_launchComplete hp hi hst hl hc i
    refine ⟨t, ht, ?_, fun j hj h0 hlen => ?_⟩
    · rw [hown, State.rcd_succeeded_ne _ (Ne.symm hself), hpart, Partition.rcd_modRcd _ _ hi, LRec.closed, if_neg (by rw [hre]; decide)]
    · have hji : j ≠ i := fun e => hself (hj.trans e)
      obtain ⟨t', ht', hother⟩ := rcd_launchComplete hp hi hst hl hc j
      cases ht.symm.trans ht'
      have hsame : (P.modRcd i LRec.closed).rcd j = P.rcd j := P.rcd_modRcd_ne _ hji
      have hlen' : j < ((s.modPart p fun P => P.modRcd i LRec.closed).part p).recs.length := by
        rw [hpart]
        simpa using hlen
      rw [show ((s.part s.arg.p).rcd s.arg.n).fld 36 4 = j from hj, State.rcd_succeeded hpos h0 hlen', hpart] at hother
      intro c hwait hc0
      have hdec := (P.modRcd i LRec.closed).rcd_decrement r.postFn (by simpa using hlen) (Nat.mod_lt (r.fld 72 1) (by decide : 0 < 4))
        (by rw [hsame]; exact hwait) (by rw [hsame]; exact hc0)
      rw [hsame] at hdec
      rw [hother]
      exact hdec
  · obtain ⟨t, ht, hown⟩ := rcd_launchComplete hp hi hst hl hc i
    have hclosed : (t.part p).rcd i = r.closed := by
      rw [hown, State.succeeded, if_pos hnext, s.part_modPart _ _ hp, Partition.rcd_modRcd _ _ hi]
    refine ⟨t, ht, ?_, ?_⟩
    · rw [hclosed, LRec.closed, if_pos hre]
      rfl
    · rw [hclosed, LRec.closed, if_pos hre]
      rfl
  · have hs : launchComplete s p i = s := if_pos (h.elim Or.inl fun h => .inr (.inl h))
    show Host.Outcome.next _ = _
    rw [show s.arg.p = p from rfl, show s.arg.n = i from rfl, hs]
  · have hx : exec .nonpreemptibleLimitExpiry s = .next (s.requestPreempt p i) := congrArg Host.Outcome.next (if_pos ⟨by rw [← hsince]; exact congrArg _ hl, .inl hi⟩)
    have hmay : s.preemptible p l = true := by
      have : ¬ s.cycle < l.since + s.pfNpLimit * Config.usCycles := Nat.not_lt.2 hbound
      simp [State.preemptible, show (s.part p).run = .running from hrun, show (s.part p).preempting = false from hpre, hbind, this]
    rw [State.requestPreempt_of_preemptible hl hmay] at hx
    have hpart := s.part_modPart p (fun P => { P with stops := P.stops ++ [(.preempt i, 0)] }) hp
    refine ⟨_, hx, ?_⟩
    rw [State.stops_startBound _ p l (by rw [hpart]; exact hl) (by rw [hpart]; simp [Partition.preempting]) (by simpa using hp), hpart]
    dsimp only
    rw [List.map_append]
    refine congrArg₂ (· ++ ·) ?_ rfl
    refine (List.map_congr_left fun x hx => ?_).trans (List.map_id _)
    have hno := List.any_eq_false.1 hpre x hx
    obtain ⟨y, c⟩ := x
    cases y
    case preempt k => exact absurd rfl hno
    all_goals rfl

end Sys2Proof.Proofs
end

section
/-!
PROOF of O49, continued: saves that end, drains, and function-level resets (spec/04 R81, R86, R87; spec/02 R54).
-/

namespace Sys2Proof.Machine

/-! ### Tiles of a partition that change one at a time -/

theorem Partition.tile_modTile (P : Partition) {k : Nat} (f : Tile → Tile) (h : k < P.tiles.length) : (P.modTile k f).tile k = f (P.tile k) :=
  getD_modify _ _ _ _ h

theorem Partition.tile_modTile_ne (P : Partition) {k j : Nat} (f : Tile → Tile) (h : j ≠ k) : (P.modTile k f).tile j = P.tile j :=
  getD_modify_ne _ _ _ _ _ h

@[simp] theorem Partition.length_tiles_modTile (P : Partition) (k : Nat) (f : Tile → Tile) : (P.modTile k f).tiles.length = P.tiles.length :=
  List.length_modify _ _ _

theorem Partition.tile_mem (P : Partition) {k : Nat} (h : k < P.tiles.length) : P.tile k ∈ P.tiles := by
  rw [Partition.tile, List.getD_eq_getElem?_getD, List.getElem?_eq_getElem h]
  exact List.getElem_mem h

theorem Partition.all_tiles (P : Partition) (f : Tile → Bool) : P.tiles.all f = true ↔ ∀ k, k < P.tiles.length → f (P.tile k) = true := by
  rw [List.all_eq_true]
  refine ⟨fun h k hk => h _ (P.tile_mem hk), fun h T hT => ?_⟩
  obtain ⟨k, hk, rfl⟩ := List.getElem_of_mem hT
  have := h k hk
  rwa [Partition.tile, List.getD_eq_getElem?_getD, List.getElem?_eq_getElem hk] at this

/-! ### Saves -/

theorem State.outsideWrite_keeps {β : Type} (g : Partition → β) (hc : ∀ P c, g { P with codeOld := c } = g P) (hs : ∀ P x, g { P with stale := x } = g P)
    (s : State) (ex : Option Nat) (l : Loc) (bs : List Byte) (q : Nat) : g ((s.outsideWrite ex l bs).part q) = g (s.part q) := by
  rw [s.part_outsideWrite]
  by_cases hq : q < s.parts.length
  · rw [s.part_hide _ _ _ _ hq]
    split
    · rfl
    split
    · exact hc _ _
    · exact hs _ _
  · have hlen : (s.hide ex l bs.length).parts.length = s.parts.length := by rw [State.hide, List.length_map, List.length_zipIdx]
    rw [State.part_of_le _ (hlen ▸ Nat.le_of_not_lt hq), State.part_of_le _ (Nat.le_of_not_lt hq)]

@[simp] theorem State.parts_setPending (s : State) (fn q : Nat) : (s.setPending fn q).parts = s.parts := by
  unfold State.setPending
  dsimp only
  split <;> rfl

theorem State.parts_setPendings (qs : List (Nat × Nat)) (s : State) : (qs.foldl (fun s q => s.setPending q.1 q.2) s).parts = s.parts :=
  foldl_keeps State.parts _ (fun s q => s.parts_setPending q.1 q.2) qs s

theorem State.releaseSlots_keeps {β : Type} (g : Partition → β) (hg : ∀ P b, g { P with saveSlot := b } = g P) (s : State) (p q : Nat) :
    g ((s.releaseSlots p).part q) = g (s.part q) := by
  unfold State.releaseSlots
  dsimp only
  split
  · rfl
  · rw [State.modPart_keeps g (fun P => { P with saveSlot := false }) (fun P => hg P false), State.part,
      State.parts_setPendings]
    rfl

@[simp] theorem State.length_parts_releaseSlots (s : State) (p : Nat) : (s.releaseSlots p).parts.length = s.parts.length := by
  unfold State.releaseSlots
  dsimp only
  split
  · rfl
  · rw [State.length_parts_modPart, State.parts_setPendings]

/-- The magic of each area that a save has filled (R60). -/
def State.magicWritten (s : State) (p : Nat) : State :=
  ((s.part p).saveFn.toList ++ (s.part p).saveAlso).foldl (fun s fn => match s.areaOf p fn with
    | some b => s.outsideWrite none b.save (leBytes 4 sheetMagic)
    | none => s) s

theorem State.magicWritten_keeps {β : Type} (g : Partition → β) (hc : ∀ P c, g { P with codeOld := c } = g P) (hs : ∀ P x, g { P with stale := x } = g P)
    (s : State) (p q : Nat) : g ((s.magicWritten p).part q) = g (s.part q) := by
  refine foldl_keeps (fun s => g (State.part s q)) _ (fun s fn => ?_) _ _
  split
  · exact State.outsideWrite_keeps g hc hs s _ _ _ q
  · rfl

@[simp] theorem State.length_parts_magicWritten (s : State) (p : Nat) : (s.magicWritten p).parts.length = s.parts.length := by
  refine foldl_keeps (fun s => (State.parts s).length) _ (fun s fn => ?_) _ _
  split
  · exact s.length_parts_outsideWrite _ _ _
  · rfl

/-- What a save that ends leaves of its partition. -/
def Partition.saveOver (cyc : Nat) (P : Partition) : Partition :=
  let P1 := { P with saveFn := none, saveAlso := [] }
  if P.run ≠ .saving then P1
  else if P.launch.isSome then ({ P1 with run := if P.decision.isSome || P.allVoted then .voting else .running, dogFrom := cyc } : Partition).washPending
  else { P1 with run := .idle }

theorem State.saveDone_eq (s : State) (p : Nat) :
    s.saveDone p = ((((s.magicWritten p).releaseSlots p).modPart p (Partition.saveOver s.cycle)).kickStops p).afterRecords p := rfl

/-- A save in which no launch runs ends with its partition idle (R87). -/
theorem State.saveDone_idle {s : State} {p : Nat} (hp : p < s.parts.length) (hrun : (s.part p).run = .saving) (hl : (s.part p).launch = none) :
    ((s.saveDone p).part p).saveFn = none ∧ ((s.saveDone p).part p).run = .idle := by
  let u := (s.magicWritten p).releaseSlots p
  have hkeep : ((u.part p).run, (u.part p).launch) = ((s.part p).run, (s.part p).launch) :=
    ((s.magicWritten p).releaseSlots_keeps (fun P => (P.run, P.launch)) (fun _ _ => rfl) p p).trans
      (State.magicWritten_keeps (fun P => (P.run, P.launch)) (fun _ _ => rfl) (fun _ _ => rfl) s p p)
  obtain ⟨hurun, hulaunch⟩ := Prod.mk.inj hkeep
  have hpart : (u.modPart p (Partition.saveOver s.cycle)).part p = Partition.saveOver s.cycle (u.part p) :=
    u.part_modPart p _ (by simpa [u] using hp)
  have hoff : ((s.saveDone p).part p).offStops = (Partition.saveOver s.cycle (u.part p)).offStops := by
    rw [s.saveDone_eq, State.offStops_afterRecords, State.part_kickStops, hpart]
  have hover : Partition.saveOver s.cycle (u.part p) = { u.part p with saveFn := none, saveAlso := [], run := .idle } := by
    rw [Partition.saveOver, if_neg (by rw [hurun, hrun]; exact fun h => h rfl), if_neg (by rw [hulaunch, hl]; decide)]
  rw [hover] at hoff
  exact ⟨Partition.saveFn_of_offStops hoff, Partition.run_of_offStops hoff⟩

theorem State.parts_saveNext (s : State) (p die : Nat) : (s.saveNext p die).parts = s.parts := by
  unfold State.saveNext
  split <;> rfl

/-- A tile that is saved (R86, R87), where no newer launch runs. -/
theorem tileSaved_without_launch {s : State} {p k : Nat} (hfn : (s.part p).saveFn.isSome = true)
    (hk : ((s.part p).tile k).saved = false) (hl : (s.part p).launch = none) (die : Nat) :
    let u := s.modTile p k fun T => { T with saved := true }
    tileSaved s p k die = if (u.part p).tiles.all (·.saved) then u.saveDone p else u.saveNext p die := by
  intro u
  have hnone : (s.part p).saveFn.isNone = false := by simpa [Option.isSome_iff_ne_none] using hfn
  unfold tileSaved
  dsimp only
  rw [hnone, hk, if_neg (by decide), hl]

end Sys2Proof.Machine

namespace Sys2Proof.Proofs

open Sys2Proof Sys2Proof.Machine Sys2Proof.Claims

theorem savingEnds : SavingEnds := by
  intro s p k P hp hk hfn hsaved hl
  have hx : exec .tileSaved s = .next (tileSaved s p k s.arg.n) := rfl
  rw [tileSaved_without_launch hfn hsaved hl] at hx
  let u := s.modTile p k fun T => { T with saved := true }
  have hpart : u.part p = P.modTile k fun T => { T with saved := true } := s.part_modPart p _ hp
  refine ⟨fun ⟨j, hj, hjk, hno⟩ => ?_, fun hall hrun hstops => ?_⟩
  · have hmore : ¬ (u.part p).tiles.all (·.saved) = true := by
      rw [Partition.all_tiles, hpart]
      intro h
      have := h j (by simpa using hj)
      rw [P.tile_modTile_ne _ hjk, hno] at this
      cases this
    have hafter : (u.saveNext p s.arg.n).part p = P.modTile k fun T => { T with saved := true } := by
      rw [State.part, State.parts_saveNext]
      exact hpart
    refine ⟨_, hx.trans (congrArg _ (if_neg hmore)), ?_, ?_, ?_⟩
    · rw [hafter, P.tile_modTile _ hk]
    · rw [hafter]
      rfl
    · rw [hafter]
      rfl
  · have hdone : (u.part p).tiles.all (·.saved) = true := by
      rw [Partition.all_tiles, hpart]
      intro j hj
      by_cases e : j = k
      · rw [e, P.tile_modTile _ hk]
      · rw [P.tile_modTile_ne _ e]
        exact hall j (by simpa using hj) e
    refine ⟨_, hx.trans (congrArg _ (if_pos hdone)), ?_⟩
    exact State.saveDone_idle (by simpa [u, State.modTile] using hp) ((congrArg Partition.run hpart).trans hrun) ((congrArg Partition.launch hpart).trans hl)

end Sys2Proof.Proofs
end

section
/-!
PROOF of O49, continued: drains, and function-level resets (spec/04 R72, R81; spec/02 R54).
-/

namespace Sys2Proof.Machine

/-! ### Folds that settle one element at a time -/

/-- What no step of a fold undoes holds after it. -/
theorem foldl_kept {σ α : Type} (Q : σ → Prop) (f : σ → α → σ) (hkeep : ∀ s a, Q s → Q (f s a)) (l : List α) (s : σ) (h : Q s) : Q (l.foldl f s) := by
  induction l generalizing s with
  | nil => exact h
  | cons x l ih => exact ih _ (hkeep s x h)

/-- What a fold's step settles for its element, and no other step undoes, holds of every element. -/
theorem foldl_each {σ α : Type} (Q : σ → α → Prop) (f : σ → α → σ) (hset : ∀ s a, Q (f s a) a) (hkeep : ∀ s a b, Q s b → Q (f s a) b)
    (l : List α) (s : σ) {a : α} (ha : a ∈ l) : Q (l.foldl f s) a := by
  induction l generalizing s with
  | nil => cases ha
  | cons x l ih =>
    rcases List.mem_cons.1 ha with rfl | h
    · exact foldl_kept (Q · a) f (fun s b => hkeep s b a) l _ (hset s a)
    · exact ih _ h

/-! ### Events, besides memory and interrupts -/

@[simp] theorem State.offCommand_postRing (s : State) (n code fn q part : Nat) (detail : List Byte) :
    (s.postRing n code fn q part detail).offCommand = s.offCommand := by
  rcases s.postRing_cases n code fn q part detail with h | h | ⟨l, bs, v, h⟩
  · rw [h]
  · rw [h]
    rfl
  · rw [h, State.offCommand_countVec]
    exact s.offCommand_physWrite l bs

@[simp] theorem State.binds_postRing (s : State) (n code fn q part : Nat) (detail : List Byte) : (s.postRing n code fn q part detail).binds = s.binds := by
  rcases s.postRing_cases n code fn q part detail with h | h | ⟨l, bs, v, h⟩
  · rw [h]
  · rw [h, State.binds_modFn _ _ Fn.lose fun _ => rfl]
  · rw [h, State.binds_countVec, State.binds_modFn _ _ Fn.store fun _ => rfl, State.binds_physWrite]

theorem State.fn_countVec_ne (s : State) {n m : Nat} (v : Nat) (h : m ≠ n) : (s.countVec n v).fn m = s.fn m := by
  have hsend (s : State) : (s.sendVec n v).fn m = s.fn m := by
    unfold State.sendVec
    split
    · exact s.fn_modFn_ne _ h
    · exact s.fn_modFn_ne _ h
  have htrig (s : State) : (s.countTrigger n v).fn m = s.fn m := by
    unfold State.countTrigger
    dsimp only
    split
    · exact hsend s
    · rfl
  unfold State.countVec
  refine (htrig _).trans ?_
  split
  · exact s.fn_modFn_ne _ h
  · exact s.fn_modFn_ne _ h

theorem State.fn_postRing_ne (s : State) {n m : Nat} (code fn q part : Nat) (detail : List Byte) (h : m ≠ n) :
    (s.postRing n code fn q part detail).fn m = s.fn m := by
  rcases s.postRing_cases n code fn q part detail with e | e | ⟨l, bs, v, e⟩
  · rw [e]
  · rw [e, s.fn_modFn_ne _ h]
  · rw [e, State.fn_countVec_ne _ _ h, State.fn_modFn_ne _ _ h, State.fn, State.fns_of_core (s.core_physWrite _ _), State.fn]

theorem State.settleDrained_of_no_stops {s : State} {p : Nat} (h : (s.part p).stops = []) : s.settleDrained p = s := if_pos (by rw [h]; rfl)

/-! ### The reset of a function -/

/-- A binding's records, of which none is armed any more. -/
def Binding.disarm (b : Binding) (x : LRec × Nat) : LRec :=
  if b.first ≤ x.2 ∧ x.2 < b.first + b.count then { x.1 with st := .idle, order := 0, postCmd := none, savedIn := none, rearm := false } else x.1

/-- A function's records are disarmed. -/
def State.disarmed (s : State) (fn : Nat) : State :=
  match s.bound? fn with
  | some b => s.modPart b.part fun P => { P with recs := P.recs.zipIdx.map b.disarm }
  | none => s

theorem finishReset_eq (s : State) (fn : Nat) : finishReset s fn = ((s.disarmed fn).postRing 0 0x83 fn 0 0 []).postRing fn 0x83 fn 0 0 [] := rfl

theorem State.fns_disarmed (s : State) (fn : Nat) : (s.disarmed fn).fns = s.fns := by
  unfold State.disarmed
  split <;> rfl

theorem State.pendBits_disarmed (s : State) (fn : Nat) : (s.disarmed fn).pendBits = s.pendBits := by
  unfold State.disarmed
  split <;> rfl

theorem State.parts_finishReset (s : State) (fn : Nat) : (finishReset s fn).parts = (s.disarmed fn).parts := by
  rw [finishReset_eq]
  exact State.parts_of_offCommand (by rw [State.offCommand_postRing, State.offCommand_postRing])

theorem State.binds_finishReset (s : State) (fn : Nat) : (finishReset s fn).binds = s.binds := by
  rw [finishReset_eq, State.binds_postRing, State.binds_postRing]
  exact State.binds_of_fns (s.fns_disarmed fn)

theorem State.pendBits_finishReset (s : State) (fn : Nat) : (finishReset s fn).pendBits = s.pendBits := by
  rw [finishReset_eq, State.pendBits_postRing, State.pendBits_postRing, State.pendBits_disarmed]

/-- The reset leaves the registers of a function without an event ring as they are. -/
theorem State.fn_finishReset (s : State) {fn : Nat} (h0 : fn ≠ 0) (h : (s.fn fn).evtAddr = 0) : (finishReset s fn).fn fn = s.fn fn := by
  have hu : ((s.disarmed fn).postRing 0 0x83 fn 0 0 []).fn fn = s.fn fn := by
    rw [State.fn_postRing_ne _ _ _ _ _ _ h0, State.fn, State.fns_disarmed, State.fn]
  rw [finishReset_eq, State.postRing_of_disabled _ _ _ _ _ _ _ (by rw [hu]; exact h), hu]

theorem Partition.rcd_disarm (P : Partition) (b : Binding) {i : Nat} (h1 : b.first ≤ i) (h2 : i < b.first + b.count) (hi : i < P.recs.length) :
    (({ P with recs := P.recs.zipIdx.map b.disarm } : Partition).rcd i).st = .idle := by
  have hget : (P.recs.zipIdx.map b.disarm)[i]? = some (b.disarm (P.recs[i], i)) := by
    rw [List.getElem?_map, List.getElem?_zipIdx, List.getElem?_eq_getElem hi]
    simp
  rw [Partition.rcd, List.getD_eq_getElem?_getD, hget, Option.getD_some, Binding.disarm, if_pos ⟨h1, h2⟩]

/-- A reset function's records are idle. -/
theorem State.idle_finishReset (s : State) {fn : Nat} {b : Binding} (hb : s.bound? fn = some b) {i : Nat} (h1 : b.first ≤ i) (h2 : i < b.first + b.count)
    (hi : i < (s.part b.part).recs.length) : (((finishReset s fn).part b.part).rcd i).st = .idle := by
  have hlt : b.part < s.parts.length := by
    by_contra h
    rw [s.part_of_le (Nat.le_of_not_lt h)] at hi
    exact Nat.not_lt_zero _ hi
  have hpart : (finishReset s fn).part b.part = { s.part b.part with recs := (s.part b.part).recs.zipIdx.map b.disarm } := by
    rw [State.part, State.parts_finishReset, State.disarmed, hb]
    exact s.part_modPart b.part (fun P => { P with recs := P.recs.zipIdx.map b.disarm }) hlt
  rw [hpart]
  exact Partition.rcd_disarm _ _ h1 h2 hi

theorem State.fn_clearFn (s : State) {fn : Nat} (h : fn < s.fns.length) : (s.clearFn fn).fn fn = { Fn.zero with bind := (s.fn fn).bind } :=
  State.fn_modFn _ _ h

theorem State.binds_clearFn (s : State) (fn : Nat) : (s.clearFn fn).binds = s.binds := State.binds_modFn _ _ _ fun _ => rfl

theorem Fn.evtAddr_zero (b : Option Binding) : ({ Fn.zero with bind := b } : Fn).evtAddr = 0 := by
  change ((0 : Word) &&& 0x01FFFFFFFFFFF000).toNat = 0
  decide

theorem Fn.known_zero (b : Option Binding) (q : Nat) : (({ Fn.zero with bind := b } : Fn).queue q).known = false := by
  rw [Fn.queue, List.getD_eq_getElem?_getD]
  change ((Vector.replicate 8 Queue.zero).toList[q]?.getD Queue.zero).known = false
  rw [Vector.toList_replicate, List.getElem?_replicate]
  split <;> rfl

/-- A function that is reset at once: what its partition held of its commands is forgotten first. -/
def State.resetNow (s : State) (fn : Nat) : State :=
  match s.bound? fn with
  | none => s.clearFn fn
  | some b => (s.clearFn fn).modPart b.part fun P => P.forgetCommands fn

theorem vfReset_now {s : State} {fn : Nat} (h0 : fn ≠ 0) (hn : fn < s.fns.length) (hb : ∀ b, s.bound? fn = some b → (s.part b.part).busyWith fn = false) :
    vfReset s fn = finishReset (s.resetNow fn) fn := by
  unfold vfReset State.resetNow
  rw [if_neg (by omega)]
  dsimp only
  cases h : s.bound? fn with
  | none => rfl
  | some b =>
    dsimp only
    rw [hb b h, if_neg (by decide)]

theorem State.fns_resetNow (s : State) (fn : Nat) : (s.resetNow fn).fns = (s.clearFn fn).fns := by
  unfold State.resetNow
  split <;> rfl

theorem State.pendBits_resetNow (s : State) (fn : Nat) : (s.resetNow fn).pendBits = s.pendBits.filter fun b => b.fn ≠ fn := by
  unfold State.resetNow
  split <;> rfl

theorem State.recs_resetNow (s : State) (fn p : Nat) : ((s.resetNow fn).part p).recs.length = (s.part p).recs.length := by
  unfold State.resetNow
  split
  · rfl
  · exact (s.clearFn fn).modPart_keeps (fun P => P.recs.length) (fun P => P.forgetCommands fn) (fun P => List.length_map _) _ p

/-! ### The reset of the physical function -/

/-- A virtual function's part in the reset of the physical one: its reset, and then no binding. -/
def State.resetUnbound (s : State) (fn : Nat) : State :=
  if fn = 0 then s
  else
    let s1 := s.clearFn fn
    let s2 : State := match s.bound? fn with
      | some b => (s1.modPart b.part fun P => P.forgetCommands fn).freeArea b
      | none => s1
    (finishReset s2 fn).modFn fn fun f => { f with bind := none }

/-- The partition is destroyed if there is one. -/
def State.destroyValid (s : State) (p : Nat) : State := if (s.part p).valid then destroyPart s p else s

theorem execPfFunctionLevelReset_eq (s : State) : execPfFunctionLevelReset s =
    .next (let s1 := (List.range s.fns.length).foldl State.resetUnbound s
      (List.range s1.parts.length).foldl State.destroyValid s1) := rfl

theorem State.binds_freeArea (s : State) (b : Binding) : (s.freeArea b).binds = s.binds := by
  unfold State.freeArea
  split
  · refine foldl_keeps State.binds _ (fun s i => ?_) _ _
    unfold State.freePage
    split <;> rfl
  · rfl

theorem State.bound_resetUnbound (s : State) {fn m : Nat} (h : m ≠ 0) :
    (s.resetUnbound fn).bound? m = if m = fn then none else s.bound? m := by
  unfold State.resetUnbound
  by_cases h0 : fn = 0
  · rw [if_pos h0, if_neg (h0 ▸ h)]
  · rw [if_neg h0]
    extract_lets s1 s2
    by_cases hm : m = fn
    · rw [if_pos hm, hm, State.bound_unbind]
    · rw [if_neg hm, State.bound?, State.fn_modFn_ne _ _ hm]
      refine State.bound_of_binds ?_ m
      rw [State.binds_finishReset, ← s.binds_clearFn fn]
      simp only [s2]
      split
      · rw [State.binds_freeArea]
        rfl
      · rfl

theorem State.binds_kickCopy (s : State) (d q : Nat) : (s.kickCopy d q).binds = s.binds := by
  have hdue (t : State) (o : EngOp) : (t.copyDue o).binds = t.binds := by unfold State.copyDue; dsimp only; split <;> rfl
  unfold State.kickCopy
  dsimp only
  split
  · rfl
  split
  · rfl
  · exact hdue _ _

theorem State.binds_destroyPart (s : State) (p : Nat) : (destroyPart s p).binds = s.binds := by
  obtain ⟨cmds, hd⟩ : ∃ cmds : List CmdRef, destroyPart s p =
      cmds.foldl (fun s r => s.complete r 5) (((s.pagesDropped p).endOps p).modPart p fun _ => Partition.absent) := ⟨_, rfl⟩
  have hfns : (s.pagesDropped p).fns = s.fns := by simpa [State.offFreed] using congrArg State.fns (s.offFreed_pagesDropped p)
  have hops (u : State) : (u.endOps p).binds = u.binds := by
    rw [State.endOps_eq, State.kickCopies_keeps State.binds State.binds_kickCopy]
    exact State.binds_of_fns rfl
  have hmod (u : State) : (u.modPart p fun _ => Partition.absent).binds = u.binds := State.binds_of_fns rfl
  rw [hd, foldl_keeps State.binds (fun (s : State) r => s.complete r 5) fun s r => s.binds_complete r 5, hmod, hops, State.binds_of_fns hfns]

theorem State.part_destroyPart_ne (s : State) {p q : Nat} (h : q ≠ p) : (destroyPart s p).part q = s.part q := by
  obtain ⟨cmds, hd⟩ : ∃ cmds : List CmdRef, destroyPart s p =
      cmds.foldl (fun s r => s.complete r 5) (((s.pagesDropped p).endOps p).modPart p fun _ => Partition.absent) := ⟨_, rfl⟩
  have hcmds : (destroyPart s p).offCommand = (((s.pagesDropped p).endOps p).modPart p fun _ => Partition.absent).offCommand := by
    rw [hd]
    exact foldl_keeps State.offCommand _ (fun s r => s.offCommand_complete r 5) _ _
  rw [State.part_of_offCommand hcmds, State.part_modPart_ne _ _ h, State.part, State.parts_endOps, State.parts_of_offFreed (s.offFreed_pagesDropped p), State.part]

theorem State.valid_destroyValid (s : State) (p : Nat) : ((s.destroyValid p).part p).valid = false := by
  unfold State.destroyValid
  split
  next h => rw [(destroyPart_spec s p (s.lt_of_valid h)).1]; rfl
  next h => exact Bool.eq_false_iff.2 h

theorem State.valid_destroyValid_of (s : State) (p q : Nat) (h : (s.part q).valid = false) : ((s.destroyValid p).part q).valid = false := by
  by_cases e : q = p
  · rw [e]
    exact s.valid_destroyValid p
  · unfold State.destroyValid
    split
    · rw [s.part_destroyPart_ne e, h]
    · exact h

theorem State.binds_destroyValid (s : State) (p : Nat) : (s.destroyValid p).binds = s.binds := by
  unfold State.destroyValid
  split
  · exact s.binds_destroyPart p
  · rfl

end Sys2Proof.Machine

namespace Sys2Proof.Proofs

open Sys2Proof Sys2Proof.Machine Sys2Proof.Claims

theorem drainsAndFunctionResets : DrainsAndFunctionResets := by
  intro s
  refine ⟨?_, ?_, ?_⟩
  · intro p P
    have hexec : exec .writeBehindDrainDone s = execWriteBehindDrainDone s := rfl
    unfold execWriteBehindDrainDone at hexec
    dsimp only at hexec
    refine ⟨fun ht => ?_, fun hs ht => ⟨fun hm => ?_, fun hm hn => ?_, fun hm hn => ?_⟩, fun hs hrest hd ht hm => ?_⟩
    · rw [if_pos ht] at hexec
      exact ⟨_, hexec, rfl, _, List.mem_append_right _ (List.mem_singleton_self _), rfl, rfl, by dsimp only; omega⟩
    · rw [hexec, if_neg (by rw [ht]; decide), if_pos hm, State.settleDrained_of_no_stops hs]
    · have hstops : ((s.modPart p fun P => { P with drains := P.drains.erase s.arg.op }).part p).stops = [] :=
        (s.modPart_keeps Partition.stops (fun P => { P with drains := P.drains.erase s.arg.op }) (fun _ => rfl) p p).trans hs
      rw [hexec, if_neg (by rw [ht]; decide), if_neg hm, if_neg (fun h => h hn)]
      exact congrArg _ (State.settleDrained_of_no_stops hstops)
    · have hkick (t : State) (h : t.parts = s.parts) : t.kickStops p = t := if_pos (by rw [State.part, h]; exact hs)
      rw [hexec, if_neg (by rw [ht]; decide), if_neg hm, if_pos hn]
      exact congrArg _ (hkick _ rfl)
    · have hset : s.settleDrained p = s := if_pos (by
        have : P.drains.isEmpty = false := by simpa using hd
        change (P.stops.isEmpty || (P.atRest && !P.drains.isEmpty)) = true
        rw [hrest, this]
        simp)
      rw [hexec, if_neg (by rw [ht]; decide), if_pos hm, hset]
  · intro fn hrec h0 hn hb
    have hx : exec .vfFunctionLevelReset s = .next (finishReset (s.resetNow fn) fn) := by
      rw [← vfReset_now h0 hn hb]
      exact congrArg Host.Outcome.next (if_neg (by rw [hrec]; decide))
    have hfn : (s.resetNow fn).fn fn = { Fn.zero with bind := (s.fn fn).bind } := by
      rw [State.fn, State.fns_resetNow]
      exact s.fn_clearFn hn
    have hafter : (finishReset (s.resetNow fn) fn).fn fn = { Fn.zero with bind := (s.fn fn).bind } := by
      rw [State.fn_finishReset _ h0 (by rw [hfn]; exact Fn.evtAddr_zero _), hfn]
    have hbound (b : Binding) (h : s.bound? fn = some b) : (s.resetNow fn).bound? fn = some b := by
      rw [State.bound?, hfn]
      exact h
    refine ⟨_, hx, by rw [hafter]; rfl, by rw [hafter]; rfl, by rw [hafter]; rfl, fun q => ?_, by rw [hafter], fun b h i h1 h2 hi => ?_, fun b h => ?_⟩
    · rw [hafter]
      exact Fn.known_zero _ q
    · exact State.idle_finishReset _ (hbound b h) h1 h2 (by rw [State.recs_resetNow]; exact hi)
    · rw [State.pendBits_finishReset, State.pendBits_resetNow] at h
      simpa using (List.mem_filter.1 h).2
  · have hexec : exec .pfFunctionLevelReset s = execPfFunctionLevelReset s := rfl
    rw [execPfFunctionLevelReset_eq] at hexec
    extract_lets s1 at hexec
    refine ⟨_, hexec, fun p => ?_, fun fn h0 => ?_⟩
    · by_cases hp : p < s1.parts.length
      · exact foldl_each (fun s p => (State.part s p).valid = false) _ State.valid_destroyValid State.valid_destroyValid_of _ _ (List.mem_range.2 hp)
      · exact foldl_kept (fun s => (State.part s p).valid = false) _ (fun s q => s.valid_destroyValid_of q p) _ _
          (by rw [s1.part_of_le (Nat.le_of_not_lt hp)]; rfl)
    · refine (State.bound_of_binds (foldl_keeps State.binds _ State.binds_destroyValid _ s1) fn).trans ?_
      have hkeep (s : State) (a : Nat) (h : s.bound? fn = none) : (s.resetUnbound a).bound? fn = none := by
        rw [s.bound_resetUnbound h0, h]
        split <;> rfl
      by_cases hn : fn < s.fns.length
      · refine foldl_each (fun s n => n ≠ 0 → State.bound? s n = none) State.resetUnbound (fun s a h => ?_) (fun s a b h hb => ?_) _ s (List.mem_range.2 hn) h0
        · rw [s.bound_resetUnbound h, if_pos rfl]
        · rw [s.bound_resetUnbound hb, h hb]
          split <;> rfl
      · refine foldl_kept (fun s => State.bound? s fn = none) _ hkeep _ _ ?_
        rw [State.bound_eq, List.getD_eq_getElem?_getD, List.getElem?_eq_none (by rw [s.length_binds]; omega)]
        rfl

end Sys2Proof.Proofs
end

section
/-!
PROOF of O49, continued: dispatch, and the return of a launch from its save area (spec/04 R77, R84, R87; spec/02 R67).
-/

namespace Sys2Proof.Machine

/-! ### The record that the dispatcher picks -/

theorem Partition.best_spec {P : Partition} {ok : LRec → Bool} {i : Nat} (h : P.best ok = some i) : i < P.recs.length ∧ ok (P.rcd i) = true := by
  have hmem := (mem_of_foldl_choice _ (fun m x => by
    cases m with
    | none => exact .inr rfl
    | some y => dsimp only; split; exacts [.inr rfl, .inl rfl]) _ _ h).resolve_left nofun
  obtain ⟨hr, hok⟩ := List.mem_filter.1 hmem
  rw [Bool.and_eq_true] at hok
  exact ⟨List.mem_range.1 hr, hok.2⟩

theorem Partition.pickRecord_lt {P : Partition} {i : Nat} (h : P.pickRecord = some i) : i < P.recs.length := by
  unfold Partition.pickRecord at h
  split at h
  · exact (Partition.best_spec h).1
  · rcases Option.or_eq_some_iff.1 h with h | ⟨-, h⟩
    · obtain ⟨f, -, hf⟩ := Option.bind_eq_some_iff.1 h
      exact (Partition.best_spec hf).1
    · exact (Partition.best_spec h).1

/-- In Saving no saved launch is picked (R87). -/
theorem Partition.pickRecord_saving {P : Partition} {i : Nat} (h : P.pickRecord = some i) (hs : P.run = .saving) : (P.rcd i).savedIn = none := by
  rw [Partition.pickRecord, if_pos hs] at h
  have := (Partition.best_spec h).2
  rw [Bool.and_eq_true] at this
  exact Option.isNone_iff_eq_none.1 this.2

/-- A partition that dispatches is there, and idle without a launch where it is not Saving (R84). -/
theorem Partition.dispatches_spec {P : Partition} (h : P.dispatches = true) : P.valid = true ∧ (P.run ≠ .saving → P.run = .idle ∧ P.launch = none) := by
  unfold Partition.dispatches at h
  simp only [Bool.and_eq_true, Bool.or_eq_true, decide_eq_true_eq] at h
  obtain ⟨⟨⟨hv, hrun⟩, -⟩, -⟩ := h
  refine ⟨hv, fun hs => ?_⟩
  rcases hrun with ⟨⟨hidle, hl⟩, -⟩ | ⟨⟨hsaving, -⟩, -⟩
  · exact ⟨hidle, Option.isNone_iff_eq_none.1 hl⟩
  · exact absurd hsaving hs

theorem Partition.dispatches_of_may {P : Partition} (h : P.mayDispatch = true) : P.dispatches = true := by
  rw [Partition.mayDispatch, Bool.and_eq_true] at h
  exact h.1

theorem execDispatch_eq (s : State) : exec .dispatch s =
    .next (if s.seedHeld s.arg.p then s else if (s.part s.arg.p).dispatches && !(s.part s.arg.p).mayDispatch then s.stageSeed s.arg.p else dispatch s s.arg.p) := rfl

/-- The seed of the record that the dispatcher picks is staged, unless a channel out of service holds its list (R84, R344). -/
theorem State.staged_stageSeed {s : State} {p i : Nat} (hp : p < s.parts.length) (hd : (s.part p).dispatches = true) (hpick : (s.part p).pickRecord = some i)
    (hheld : s.seedHeld p = false) : ((s.stageSeed p).part p).staged i = true := by
  have hstage : (s.part p).toStage = some i := by
    rw [Partition.toStage, if_neg, hpick]
    intro h
    rw [Bool.and_eq_true, decide_eq_true_eq] at h
    rw [((s.part p).dispatches_spec hd).2 h.2 |>.2] at h
    exact absurd h.1 (by decide)
  have hlist : s.listHeld (s.part p).transBuild (BitVec.ofNat 57 (((s.part p).rcd i).fld 24 8)) (((s.part p).rcd i).fld 32 4) = false := by
    rw [State.seedHeld, hpick] at hheld
    exact hheld
  rw [State.stageSeed, s.part_modPart _ _ hp]
  refine List.any_eq_true.2 ⟨(i, _), List.mem_append_right _ (List.mem_map.2 ⟨i, List.mem_filter.2 ⟨?_, ?_⟩, rfl⟩), decide_eq_true rfl⟩
  · rw [hstage]
    exact List.mem_singleton_self i
  · dsimp only
    rw [hlist]
    rfl

/-! ### Dispatch -/

/-- A partition whose picked record runs from now on, as launch l (R77, R84). -/
def Partition.dispatched (l : Launch) (cyc : Nat) (P : Partition) : Partition :=
  { (P.modRcd l.rcd fun r => { r with st := .running }).fresh.setRun .dispatching with
    launch := some l
    podwt := P.podwt.map fun _ => 0x11111111
    dogFrom := cyc
    transNow := P.transBuild
    seed := P.seed.filter fun x => decide (x.1 = l.rcd)
    lastFixAt := cyc
    fixAt := cyc
    runFn := l.fn
    sliceFrom := if P.runFn = l.fn then P.sliceFrom else cyc
    sliceTo := none }

theorem Partition.recs_dispatched (P : Partition) (l : Launch) (cyc : Nat) :
    (P.dispatched l cyc).recs = (P.modRcd l.rcd fun r => { r with st := .running }).recs := by
  unfold Partition.dispatched Partition.setRun
  split <;> rfl

theorem Partition.tiles_dispatched (P : Partition) (l : Launch) (cyc : Nat) : (P.dispatched l cyc).tiles = P.tiles := by
  unfold Partition.dispatched Partition.setRun
  split <;> rfl

theorem Partition.run_dispatched {P : Partition} (l : Launch) (cyc : Nat) (h : P.run ≠ .saving) : (P.dispatched l cyc).run = .dispatching := by
  have hset : (P.modRcd l.rcd fun r => { r with st := .running }).fresh.setRun .dispatching =
      { (P.modRcd l.rcd fun r => { r with st := .running }).fresh with run := .dispatching } := if_neg h
  unfold Partition.dispatched
  rw [hset]

theorem Partition.st_dispatched {P : Partition} {l : Launch} (cyc : Nat) (h : l.rcd < P.recs.length) :
    (P.dispatched l cyc).rcd l.rcd = { P.rcd l.rcd with st := .running } := by
  rw [Partition.rcd, P.recs_dispatched]
  exact P.rcd_modRcd (fun r => { r with st := .running }) h

/-- The launch of a record that is dispatched now. -/
def State.nextLaunch (s : State) (p i : Nat) : Launch := ((s.part p).rcd i).launch i ((s.part p).rcd i).postFn s.cycle

/-- The machine in which record i of a partition runs, before its tiles are placed. -/
def State.dispatched (s : State) (p i : Nat) : State := s.modPart p (Partition.dispatched (s.nextLaunch p i) s.cycle)

theorem State.withdraw_without_launch {s : State} {p : Nat} (h : (s.part p).launch = none) : s.withdraw p = s := by
  unfold State.withdraw
  rw [h]

section
variable {s : State} {p i : Nat} (hm : (s.part p).mayDispatch = true) (hpick : (s.part p).pickRecord = some i) (hl : (s.part p).launch = none)
include hm hpick hl

theorem dispatch_saved (hsaved : ((s.part p).rcd i).savedIn ≠ none) : dispatch s p =
    ((s.dispatched p i).modPart p fun P => { P with seed := [] }).scheduleFree .resume .resumeFromSaveArea { p := p, n := i } := by
  obtain ⟨x, hx⟩ := Option.ne_none_iff_exists'.1 hsaved
  unfold dispatch
  rw [hm, hpick, if_neg (by decide)]
  dsimp only
  rw [State.withdraw_without_launch hl, hx]
  rfl

/-- A record that is not saved has its tiles placed (R77). -/
theorem dispatch_placed (hsaved : ((s.part p).rcd i).savedIn = none) (hrun : (s.part p).run ≠ .saving) : dispatch s p =
    (((s.dispatched p i).part p).spanTiles.filter fun _ => true).foldl (fun u t => u.placeTile p t (u.firstIssue (s.nextLaunch p i) t))
      { s.dispatched p i with fresh := s.fresh + 1 } := by
  unfold dispatch
  rw [hm, hpick, if_neg (by decide)]
  dsimp only
  rw [State.withdraw_without_launch hl, hsaved, decide_eq_false hrun]
  rfl

end

/-! ### Tiles that are placed (R77) -/

/-- The threads of a tile at dispatch. -/
def LRec.threads (r : LRec) (l : Launch) (t : Nat) (c : Scope) (ready : Nat) : List Thread :=
  (List.range 8).map fun i => if (r.fld 13 1).testBit i then r.task l t i c ready else Thread.zero

theorem State.restartBuild_part (s : State) (p t : Nat) :
    s.restartBuild p t = (s.modTile p t fun T => { T with building := true, build := s.fresh }).scheduleFree .extent .extentBuildDone { p := p, t := t, n := 0, m := s.fresh } := rfl

theorem State.placeTile_eq {s : State} {p : Nat} {l : Launch} (hl : (s.part p).launch = some l) (t ready : Nat) :
    ∃ (F : Partition → Tile → Tile) (sd : Partition → List (Nat × List Extent)),
      (∀ P T, (F P T).threads = ((s.part p).rcd l.rcd).threads l t (s.ceilOf l.fn) ready) ∧
      s.placeTile p t ready = (s.modPart p fun P => { P.modTile t (F P) with seed := sd P }).restartBuild p t := by
  unfold State.placeTile
  dsimp only
  rw [hl]
  exact ⟨_, _, fun _ _ => rfl, rfl⟩

/-- What a tile that is placed leaves alone. -/
theorem State.placeTile_keeps {β : Type} (g : Partition → β) (ht : ∀ P t f, g (Partition.modTile P t f) = g P) (hs : ∀ P x, g { P with seed := x } = g P)
    (s : State) (p t ready q : Nat) : g ((s.placeTile p t ready).part q) = g (s.part q) := by
  cases hl : (s.part p).launch with
  | none =>
    unfold State.placeTile
    dsimp only
    rw [hl]
  | some l =>
    obtain ⟨F, sd, -, h⟩ := State.placeTile_eq hl t ready
    rw [h]
    refine (State.modPart_keeps g (fun P => P.modTile t _) (fun P => ht P t _) _ p q).trans ?_
    exact s.modPart_keeps g (fun P => { P.modTile t (F P) with seed := sd P }) (fun P => (hs (P.modTile t _) _).trans (ht P t _)) p q

theorem State.threads_placeTile {s : State} {p : Nat} {l : Launch} (hl : (s.part p).launch = some l) (t ready : Nat) {k : Nat} (hk : k < (s.part p).tiles.length) :
    (((s.placeTile p t ready).part p).tile k).threads =
      if k = t then ((s.part p).rcd l.rcd).threads l t (s.ceilOf l.fn) ready else ((s.part p).tile k).threads := by
  have hp := s.lt_of_launch hl
  obtain ⟨F, sd, hF, h⟩ := State.placeTile_eq hl t ready
  generalize hu : (s.modPart p fun P => { P.modTile t (F P) with seed := sd P }) = u at h
  have hpart : u.part p = { (s.part p).modTile t (F (s.part p)) with seed := sd (s.part p) } := by
    rw [← hu]
    exact s.part_modPart p _ hp
  have htile : (u.part p).tile k = ((s.part p).modTile t (F (s.part p))).tile k := by rw [hpart]; rfl
  have hlen : p < u.parts.length := by rw [← hu]; simpa using hp
  have hafter : (s.placeTile p t ready).part p = (u.part p).modTile t fun T => { T with building := true, build := u.fresh } := by
    rw [h]
    exact u.part_modPart p _ hlen
  have hk' : k < (u.part p).tiles.length := by rw [hpart]; exact lt_of_lt_of_eq hk ((s.part p).length_tiles_modTile t _).symm
  rw [hafter]
  by_cases e : k = t
  · subst e
    rw [if_pos rfl, Partition.tile_modTile _ _ hk', htile, Partition.tile_modTile _ _ hk]
    exact hF _ _
  · rw [if_neg e, Partition.tile_modTile_ne _ _ e, htile, Partition.tile_modTile_ne _ _ e]

/-- A tile is placed as launch l places record r, to issue in cycle c or later. -/
def Tile.PlacedFrom (r : LRec) (l : Launch) (c : Nat) (T : Tile) : Prop := ∃ t d ready, c ≤ ready ∧ T.threads = r.threads l t d ready

/-- Every tile of a list is placed. -/
theorem placed_placeTiles {p c : Nat} {l : Launch} {r : LRec} {ready : State → Nat → Nat} (hready : ∀ u t, c ≤ ready u t) (ts : List Nat) (s : State)
    (hl : (s.part p).launch = some l) (hr : (s.part p).rcd l.rcd = r) {k : Nat} (hk : k < (s.part p).tiles.length) (hmem : k ∈ ts) :
    ((((ts.foldl (fun u t => u.placeTile p t (ready u t)) s).part p).tile k)).PlacedFrom r l c := by
  let inv (s : State) : Option Launch × List LRec × Nat := ((s.part p).launch, (s.part p).recs, (s.part p).tiles.length)
  have hkeeps (u : State) (t : Nat) : inv (u.placeTile p t (ready u t)) = inv u :=
    u.placeTile_keeps (fun P => (P.launch, P.recs, P.tiles.length)) (fun P t f => by rw [P.length_tiles_modTile]; rfl) (fun _ _ => rfl) p t _ p
  let Q (u : State) (k : Nat) : Prop := (u.part p).launch = some l → (u.part p).rcd l.rcd = r → k < (u.part p).tiles.length → ((u.part p).tile k).PlacedFrom r l c
  have hback (u : State) (t : Nat) : ((u.placeTile p t (ready u t)).part p).launch = (u.part p).launch ∧
      (∀ i, ((u.placeTile p t (ready u t)).part p).rcd i = (u.part p).rcd i) ∧ ((u.placeTile p t (ready u t)).part p).tiles.length = (u.part p).tiles.length := by
    have h := hkeeps u t
    refine ⟨congrArg Prod.fst h, fun i => ?_, congrArg (fun x => x.2.2) h⟩
    exact congrArg (fun x => x.2.1.getD i LRec.idle) h
  have hfold : Q (ts.foldl (fun u t => u.placeTile p t (ready u t)) s) k := by
    refine foldl_each Q _ (fun u t hul hur hut => ?_) (fun u t k h hul hur hut => ?_) ts s hmem
    · obtain ⟨bl, br, bt⟩ := hback u t
      rw [bl] at hul
      rw [br] at hur
      rw [bt] at hut
      refine ⟨t, u.ceilOf l.fn, ready u t, hready u t, ?_⟩
      rw [State.threads_placeTile hul _ _ hut, if_pos rfl, hur]
    · obtain ⟨bl, br, bt⟩ := hback u t
      rw [bl] at hul
      rw [br] at hur
      rw [bt] at hut
      obtain ⟨t', d, x, hx, hth⟩ := h hul hur hut
      by_cases e : k = t
      · exact ⟨t, u.ceilOf l.fn, ready u t, hready u t, by rw [State.threads_placeTile hul _ _ hut, if_pos e, hur]⟩
      · exact ⟨t', d, x, hx, by rw [State.threads_placeTile hul _ _ hut, if_neg e, hth]⟩
  have hall : inv (ts.foldl (fun u t => u.placeTile p t (ready u t)) s) = inv s := foldl_keeps inv _ hkeeps ts s
  exact hfold ((congrArg Prod.fst hall).trans hl) ((congrArg (fun x => x.2.1.getD l.rcd LRec.idle) hall).trans hr) (lt_of_lt_of_eq hk (congrArg (fun x => x.2.2) hall).symm)

/-- A thread of a tile that has been placed. -/
theorem Tile.PlacedFrom.thread {r : LRec} {l : Launch} {c : Nat} {T : Tile} (h : T.PlacedFrom r l c) {j : Nat} (hj : j < 8) :
    ((r.fld 13 1).testBit j = true → (T.thread j).task = .running ∧ (T.thread j).mode = .task ∧ (T.thread j).pc = BitVec.ofNat 57 (r.fld 0 8) ∧
      (T.thread j).sreg 2 = BitVec.ofNat 64 (0x40000 - 0x1000 * j) ∧ c ≤ (T.thread j).readyAt) ∧
    ((r.fld 13 1).testBit j = false → (T.thread j).task = .absent) := by
  obtain ⟨t, d, x, hx, hth⟩ := h
  have hget : T.thread j = if (r.fld 13 1).testBit j then r.task l t j d x else Thread.zero := by
    rw [Tile.thread, hth, LRec.threads, List.getD_eq_getElem?_getD, List.getElem?_map, List.getElem?_range hj]
    rfl
  refine ⟨fun hb => ?_, fun hb => ?_⟩
  · rw [hget, if_pos hb]
    refine ⟨rfl, rfl, rfl, ?_, hx⟩
    simp [LRec.task, Thread.sreg, stackTop]
  · rw [hget, hb]
    rfl

/-! ### A save area of another superstep (R67) -/

/-- A tile event adds its contribution to the tile's (R173, R180). -/
theorem tileEvent_part {s : State} {p : Nat} (hp : p < s.parts.length) (k : Nat) (cause : Cause) (vote : BitVec 2) (detail : Word) (phys : Nat) :
    ∃ F : Tile → Tile, (∀ T, (F T).faults = T.faults ++ [⟨8, vote, cause, detail⟩]) ∧
      (tileEvent s p k cause vote detail phys).part p = (s.part p).modTile k F := by
  have hnote (T : Tile) (ssn : BitVec 32) (th : Nat) : (T.noteFlt ssn th cause detail).faults = T.faults := by
    unfold Tile.noteFlt
    split <;> rfl
  unfold tileEvent tileFault
  dsimp only
  have hparts := parts_recordFault s p (some k) (if 8 < 8 then some 8 else none) 1 cause detail 0 IssueUnit.zero phys
  generalize recordFault s p (some k) (if 8 < 8 then some 8 else none) 1 cause detail 0 IssueUnit.zero phys = r at hparts ⊢
  let F (T : Tile) : Tile :=
    let T := T.noteFlt (nextSsn (s.part p).ssn) (if 8 < 8 then 8 else 0) cause detail
    { T with flost := T.flost || r.2, faults := T.faults ++ [⟨8, vote, cause, detail⟩] }
  refine ⟨F, fun T => congrArg (· ++ _) (hnote T _ _), ?_⟩
  have hpart : r.1.part p = s.part p := by rw [State.part, hparts, State.part]
  exact (r.1.part_modPart p (Partition.modTile · k F) (hparts ▸ hp)).trans (congrArg (Partition.modTile · k F) hpart)

end Sys2Proof.Machine
end

section
/-!
PROOF of O49, concluded: the return of a launch from its save area (spec/04 R87; spec/02 R67), and the claim.
-/

namespace Sys2Proof.Machine

theorem State.lt_of_tile {s : State} {p k : Nat} (h : k < (s.part p).tiles.length) : p < s.parts.length := by
  by_contra hn
  rw [s.part_of_le (Nat.le_of_not_lt hn)] at h
  exact Nat.not_lt_zero _ h

theorem Partition.spanTiles_congr {P Q : Partition} (hl : Q.launch = P.launch) (ht : Q.tiles.length = P.tiles.length) : Q.spanTiles = P.spanTiles := by
  rw [Partition.spanTiles, Partition.spanTiles, ht]
  refine congrArg (List.filter · _) (funext fun t => ?_)
  rw [Partition.inSpan, Partition.inSpan, hl]

section
variable {β : Type} (g : Partition → β) (ht : ∀ P t f, g (Partition.modTile P t f) = g P)
include ht

theorem tileEvent_keeps (s : State) (p k : Nat) (cause : Cause) (vote : BitVec 2) (detail : Word) (phys q : Nat) :
    g ((tileEvent s p k cause vote detail phys).part q) = g (s.part q) := by
  unfold tileEvent tileFault
  refine (State.modPart_keeps g (Partition.modTile · k _) (fun P => ht P k _) _ p q).trans ?_
  rw [State.part, parts_recordFault, State.part]

theorem State.buildDone_keeps (s : State) (p t : Nat) (now : Bool) (q : Nat) : g ((s.buildDone p t now).part q) = g (s.part q) :=
  s.modPart_keeps g (Partition.modTile · t _) (fun P => ht P t _) p q

theorem State.startBuilds_keeps (s : State) (p q : Nat) : g ((s.startBuilds p).part q) = g (s.part q) :=
  foldl_keeps (fun s => g (State.part s q)) (fun s t => s.restartBuild p t)
    (fun s t => s.modPart_keeps g (Partition.modTile · t fun T => { T with building := true, build := s.fresh }) (fun P => ht P t _) p q) _ s

end

/-- Each tile of a list raises an event (R173). -/
theorem faults_tileEvents (ts : List Nat) (s : State) (p : Nat) (cause : Cause) (vote : BitVec 2) (detail : Word) {k : Nat} (hmem : k ∈ ts)
    (hk : k < (s.part p).tiles.length) :
    ⟨8, vote, cause, detail⟩ ∈ (((ts.foldl (fun s t => tileEvent s p t cause vote detail 0) s).part p).tile k).faults := by
  let size (s : State) : Nat := (s.part p).tiles.length
  have hsize (u : State) (t : Nat) : size (tileEvent u p t cause vote detail 0) = size u :=
    tileEvent_keeps (fun P => P.tiles.length) (fun P t f => P.length_tiles_modTile t f) u p t cause vote detail 0 p
  let Q (u : State) (k : Nat) : Prop := k < size u → ⟨8, vote, cause, detail⟩ ∈ ((u.part p).tile k).faults
  have hfold : Q (ts.foldl (fun s t => tileEvent s p t cause vote detail 0) s) k := by
    refine foldl_each Q _ (fun u t ht => ?_) (fun u t k h hk => ?_) ts s hmem
    · rw [hsize] at ht
      obtain ⟨F, hF, hpart⟩ := tileEvent_part (State.lt_of_tile ht) t cause vote detail 0
      rw [hpart, Partition.tile_modTile _ _ ht, hF]
      exact List.mem_append_right _ (List.mem_singleton_self _)
    · rw [hsize] at hk
      obtain ⟨F, hF, hpart⟩ := tileEvent_part (State.lt_of_tile hk) t cause vote detail 0
      rw [hpart]
      by_cases e : k = t
      · subst e
        rw [Partition.tile_modTile _ _ hk, hF]
        exact List.mem_append_left _ (h hk)
      · rw [Partition.tile_modTile_ne _ _ e]
        exact h hk
  exact hfold (lt_of_lt_of_eq hk (foldl_keeps size _ hsize ts s).symm)

/-- The partition of a launch whose area holds another superstep: Running, its tiles at the fix (R67). -/
theorem State.mismatch_eq (s : State) (p : Nat) (l : Launch) (r : LRec) (expected own : BitVec 32) : ∃ f : Tile × Nat → Tile, ∃ s1 : State,
    s1 = (s.modPart p fun P => { P with
      run := .running
      dogFrom := s.cycle
      tiles := P.tiles.zipIdx.map fun x => if P.inSpan x.2 then f x else x.1 }) ∧
    s.mismatch p l r expected own = (s1.part p).spanTiles.foldl (fun s t => tileEvent s p t .resumeMismatch 2 (mismatchDetail expected own) 0) s1 :=
  ⟨_, _, rfl, rfl⟩

theorem State.mismatch_spec {s : State} {p : Nat} (hp : p < s.parts.length) (l : Launch) (r : LRec) (expected own : BitVec 32) :
    ((s.mismatch p l r expected own).part p).run = .running ∧ ∀ k ∈ (s.part p).spanTiles, k < (s.part p).tiles.length →
      ⟨8, 2, .resumeMismatch, expected ++ own⟩ ∈ (((s.mismatch p l r expected own).part p).tile k).faults := by
  obtain ⟨f, s1, hs1, h⟩ := s.mismatch_eq p l r expected own
  have hpart : s1.part p = { s.part p with
      run := .running
      dogFrom := s.cycle
      tiles := (s.part p).tiles.zipIdx.map fun x => if (s.part p).inSpan x.2 then f x else x.1 } := by
    rw [hs1]
    exact s.part_modPart p _ hp
  have hlen : (s1.part p).tiles.length = (s.part p).tiles.length := by
    rw [hpart, List.length_map, List.length_zipIdx]
  have hspan : (s1.part p).spanTiles = (s.part p).spanTiles := Partition.spanTiles_congr (by rw [hpart]) hlen
  rw [h]
  refine ⟨?_, fun k hk hlt => ?_⟩
  · refine (foldl_keeps (fun s => (State.part s p).run) _ (fun s t => tileEvent_keeps Partition.run (fun _ _ _ => rfl) s p t _ _ _ _ p) _ s1).trans ?_
    rw [hpart]
  · exact faults_tileEvents _ s1 p _ _ _ (hspan ▸ hk) (hlen ▸ hlt)

section
variable {s : State} {p i fn : Nat} {l : Launch} {ssn : BitVec 32} {b : Binding} (hl : (s.part p).launch = some l) (hi : l.rcd = i)
  (hrun : (s.part p).run = .dispatching) (hsaved : ((s.part p).rcd i).savedIn = some (fn, ssn)) (hb : s.areaOf p fn = some b)
include hl hi hrun hsaved hb

/-- The area of a launch holds another superstep than the record names (R67). -/
theorem resumeSaved_mismatch (h : fldOf (s.physRead b.save (min b.saveSize (leNat (s.physRead (b.save.plus 8) 8)))) 0 4 ≠ sheetMagic ∨
      fldOf (findSec (secsOf (s.physRead b.save (min b.saveSize (leNat (s.physRead (b.save.plus 8) 8))))) 0x02) 0 4 ≠ ssn.toNat) :
    resumeSaved s p i = s.mismatch p l ((s.part p).rcd i) ssn
      (BitVec.ofNat 32 (fldOf (findSec (secsOf (s.physRead b.save (min b.saveSize (leNat (s.physRead (b.save.plus 8) 8))))) 0x02) 0 4)) := by
  unfold resumeSaved
  dsimp only
  rw [hl, hsaved]
  dsimp only
  rw [if_neg (by rw [hi, hrun]; simp), hb]
  exact if_pos h

/-- The tiles are loaded from the area (R87). -/
theorem resumeSaved_match (h : ¬ (fldOf (s.physRead b.save (min b.saveSize (leNat (s.physRead (b.save.plus 8) 8)))) 0 4 ≠ sheetMagic ∨
      fldOf (findSec (secsOf (s.physRead b.save (min b.saveSize (leNat (s.physRead (b.save.plus 8) 8))))) 0x02) 0 4 ≠ ssn.toNat)) :
    ∃ f : Partition → List Tile, resumeSaved s p i =
      (((s.part p).spanTiles.foldl (fun s t => s.buildDone p t true) (s.modPart p fun P => { P.modRcd i fun r => { r with savedIn := none } with
        lead := fldOf (findSec (secsOf (s.physRead b.save (min b.saveSize (leNat (s.physRead (b.save.plus 8) 8))))) 0x02) 8 4
        tiles := f P })).startBuilds p) := by
  unfold resumeSaved
  dsimp only
  rw [hl, hsaved]
  dsimp only
  rw [if_neg (by rw [hi, hrun]; simp), hb]
  dsimp only
  rw [if_neg h]
  exact ⟨_, rfl⟩

end

end Sys2Proof.Machine

namespace Sys2Proof.Proofs

open Sys2Proof Sys2Proof.Machine Sys2Proof.Claims

theorem dispatchStartsTasks : DispatchStartsTasks := by
  intro s i p P r
  have hexec := execDispatch_eq s
  have hmay (hm : P.mayDispatch = true) (hheld : s.seedHeld p = false) : exec .dispatch s = .next (dispatch s p) := by
    rw [hexec, if_neg (by rw [hheld]; decide), if_neg]
    change ¬ (P.dispatches && !P.mayDispatch) = true
    rw [hm]
    simp
  refine ⟨fun hm hd => ?_, fun hheld => ?_, fun hm hd hpick hp hheld => ?_, fun hm hpick hheld hsaved hidle => ?_, fun hm hpick hheld hsaved => ?_,
    fun hi hheld => ?_, fun l fn ssn b hi hheld hl hrcd hrun hsaved hb => ?_⟩
  · rw [hexec]
    refine congrArg _ ?_
    by_cases hheld : s.seedHeld p = true
    · exact if_pos hheld
    · have h1 : ¬ (P.dispatches && !P.mayDispatch) = true := by rw [hd]; simp
      rw [if_neg hheld, if_neg h1]
      exact if_pos (by change (!P.mayDispatch) = true; rw [hm]; rfl)
  · rw [hexec, if_pos hheld]
  · have hx : exec .dispatch s = .next (s.stageSeed p) := by
      rw [hexec, if_neg (by rw [hheld]; decide)]
      exact congrArg _ (if_pos (by change (P.dispatches && !P.mayDispatch) = true; rw [hd, hm]; rfl))
    have hoff := s.offStops_stageSeed p p
    exact ⟨_, hx, State.staged_stageSeed hp hd hpick hheld, Partition.recs_of_offStops hoff, Partition.run_of_offStops hoff, Partition.launch_of_offStops hoff,
      Partition.tiles_of_offStops hoff⟩
  · obtain ⟨hv, hno⟩ := Partition.dispatches_spec (Partition.dispatches_of_may hm)
    have hrun : P.run ≠ .saving := by rw [hidle]; decide
    obtain ⟨-, hl⟩ := hno hrun
    have hp := s.lt_of_valid hv
    have hi := Partition.pickRecord_lt hpick
    let l := s.nextLaunch p i
    have hpart : (s.dispatched p i).part p = P.dispatched l s.cycle := s.part_modPart p _ hp
    have hrec : (P.dispatched l s.cycle).rcd i = { r with st := .running } := Partition.st_dispatched (l := l) s.cycle hi
    have hx := (hmay hm hheld).trans (congrArg _ (dispatch_placed hm hpick hl hsaved hrun))
    let u : State := { s.dispatched p i with fresh := s.fresh + 1 }
    let keep (P : Partition) : Option Launch × RunSt × List LRec := (P.launch, P.run, P.recs)
    have hkeep : keep ((((((s.dispatched p i).part p).spanTiles.filter fun _ => true).foldl (fun u t => u.placeTile p t (u.firstIssue l t)) u)).part p) =
        keep (P.dispatched l s.cycle) := by
      refine (foldl_keeps (fun s => keep (State.part s p)) _ (fun u t => u.placeTile_keeps keep (fun _ _ _ => rfl) (fun _ _ => rfl) p t _ p) _ u).trans ?_
      exact congrArg keep hpart
    obtain ⟨hkl, hkr⟩ := Prod.mk.inj hkeep
    obtain ⟨hkrun, hkrecs⟩ := Prod.mk.inj hkr
    refine ⟨_, l, hx, hkl, rfl, rfl, hkrun.trans (Partition.run_dispatched l s.cycle hrun), ?_, fun k hk h1 h2 j hj => ?_⟩
    · refine (congrArg (fun R : List LRec => (R.getD i LRec.idle).st) hkrecs).trans ?_
      exact congrArg LRec.st hrec
    · have hspan : k ∈ (((s.dispatched p i).part p).spanTiles.filter fun _ => true) := by
        rw [hpart, List.mem_filter, Partition.spanTiles, P.tiles_dispatched, List.mem_filter, Partition.inSpan]
        refine ⟨⟨List.mem_range.2 hk, ?_⟩, rfl⟩
        exact (Bool.and_eq_true _ _).mpr ⟨decide_eq_true h1, decide_eq_true h2⟩
      have hplaced := placed_placeTiles (c := s.cycle + 72) (l := l) (r := { r with st := .running }) (ready := fun u t => u.firstIssue l t)
        (fun u t => by
          refine le_max_of_le_right ?_
          change s.cycle + 72 ≤ s.cycle + 72 + _
          omega) _ u ((congrArg Partition.launch hpart).trans rfl) ((congrArg (Partition.rcd · i) hpart).trans hrec)
        (lt_of_lt_of_eq hk ((congrArg (fun Q => Q.tiles.length) hpart).trans (congrArg List.length (P.tiles_dispatched l s.cycle))).symm) hspan
      exact hplaced.thread hj
  · obtain ⟨hv, hno⟩ := Partition.dispatches_spec (Partition.dispatches_of_may hm)
    obtain ⟨-, hl⟩ := hno fun hs => hsaved (Partition.pickRecord_saving hpick hs)
    have hp := s.lt_of_valid hv
    have hx := (hmay hm hheld).trans (congrArg _ (dispatch_saved hm hpick hl hsaved))
    refine ⟨_, hx, ?_, _, List.mem_append_right _ (List.mem_singleton_self _), rfl, rfl, rfl, by dsimp only; simp only [State.modPart, State.dispatched]; omega⟩
    have hpart : (s.dispatched p i).part p = P.dispatched (s.nextLaunch p i) s.cycle := s.part_modPart p _ hp
    have hlaunch := (s.dispatched p i).modPart_keeps Partition.launch (fun P => { P with seed := [] }) (fun _ => rfl) p p
    exact congrArg (Option.map Launch.rcd) (hlaunch.trans (congrArg Partition.launch hpart))
  · subst hi
    exact congrArg Host.Outcome.next (if_pos hheld)
  · subst hi
    have hp := s.lt_of_launch hl
    have hx : exec .resumeFromSaveArea s = .next (resumeSaved s p s.arg.n) := congrArg Host.Outcome.next (if_neg (by rw [hheld]; decide))
    intro area st
    refine ⟨fun hne => ?_, fun h1 h2 => ?_⟩
    · rw [resumeSaved_mismatch hl hrcd hrun hsaved hb hne] at hx
      obtain ⟨hrunning, hfaults⟩ := State.mismatch_spec hp l r ssn (BitVec.ofNat 32 (fldOf st 0 4))
      exact ⟨_, hx, hrunning, fun k hk hlt => ⟨_, hfaults k hk hlt, rfl, rfl, rfl, rfl⟩⟩
    · obtain ⟨f, hf⟩ := resumeSaved_match hl hrcd hrun hsaved hb (not_or.2 ⟨not_not.2 h1, not_not.2 h2⟩)
      rw [hf] at hx
      have hlt : s.arg.n < P.recs.length := by
        by_contra h
        have : r.savedIn = none := by
          change (P.recs.getD s.arg.n LRec.idle).savedIn = none
          rw [List.getD_eq_getElem?_getD, List.getElem?_eq_none (Nat.le_of_not_lt h)]
          rfl
        rw [show ((s.part p).rcd s.arg.n).savedIn = none from this] at hsaved
        cases hsaved
      let keep (P : Partition) : RunSt × Nat × List LRec := (P.run, P.lead, P.recs)
      have hkeep : keep (((((s.part p).spanTiles.foldl (fun s t => s.buildDone p t true) (s.modPart p fun P => { P.modRcd s.arg.n fun r => { r with savedIn := none } with
          lead := fldOf st 8 4
          tiles := f P })).startBuilds p)).part p) = (P.run, fldOf st 8 4, (P.modRcd s.arg.n fun r => { r with savedIn := none }).recs) := by
        refine (State.startBuilds_keeps keep (fun _ _ _ => rfl) _ p p).trans ?_
        refine (foldl_keeps (fun s => keep (State.part s p)) _ (fun u t => u.buildDone_keeps keep (fun _ _ _ => rfl) p t true p) _ _).trans ?_
        exact congrArg keep (s.part_modPart p _ hp)
      obtain ⟨hkrun, hkr⟩ := Prod.mk.inj hkeep
      obtain ⟨hklead, hkrecs⟩ := Prod.mk.inj hkr
      refine ⟨_, hx, hkrun.trans hrun, ?_, hklead⟩
      refine (congrArg (fun R : List LRec => (R.getD s.arg.n LRec.idle).savedIn) hkrecs).trans ?_
      exact congrArg LRec.savedIn (P.rcd_modRcd (fun r => { r with savedIn := none }) hlt)

/-- Settles O49, by the four parts of its claim: tasks are dispatched, saves end, launches end, and drains and resets. -/
theorem launchesStartAndEnd : Obligations.LaunchesStartAndEnd := ⟨dispatchStartsTasks, savingEnds, launchesEnd, drainsAndFunctionResets⟩

end Sys2Proof.Proofs
end

section
/-!
PROOF of O52: reductions (spec/08 R165 to R168; spec/11 R189).
-/

namespace Sys2Proof.Machine

/-! ### Partitions that change beside their tiles -/

theorem State.tile_modPart_of_tiles (s : State) (p : Nat) (f : Partition → Partition) (h : ∀ P, (f P).tiles = P.tiles) (q k : Nat) :
    (s.modPart p f).tile q k = s.tile q k :=
  congrArg (·.getD k Tile.zero) (s.modPart_keeps Partition.tiles f h p q)

theorem State.sameBytes_modPart_of_tiles (s : State) (p : Nat) (f : Partition → Partition) (h : ∀ P, (f P).tiles = P.tiles) : s.SameBytes (s.modPart p f) :=
  ⟨⟨fun _ => rfl, fun _ => rfl, fun _ => rfl, fun _ => rfl, fun _ _ => rfl⟩, fun q k b a => by rw [s.tile_modPart_of_tiles p f h q k]⟩

/-! ### The next region (R167) -/

/-- The regions of a partition that are being reduced change to `bs`. -/
def Partition.setReducing (bs : List Nat) (P : Partition) : Partition := { P with reducing := bs }

theorem State.reduceNext_cases (s : State) (p : Nat) :
    s.reduceNext p = s ∨ ∃ b d, s.reduceNext p = (s.modPart p (Partition.setReducing [b])).scheduleFree d .reductionDone { p := p, op := b } := by
  unfold State.reduceNext
  split
  · exact .inl rfl
  · split
    · exact .inl rfl
    · exact .inr ⟨_, _, rfl⟩

theorem State.reduceNext_keeps {β : Type} (g : Partition → β) (hg : ∀ P bs, g (Partition.setReducing bs P) = g P) (s : State) (p q : Nat) :
    g ((s.reduceNext p).part q) = g (s.part q) := by
  rcases s.reduceNext_cases p with h | ⟨b, d, h⟩
  · rw [h]
  · rw [h]
    exact s.modPart_keeps g _ (fun P => hg P [b]) p q

theorem State.sameBytes_reduceNext (s : State) (p : Nat) : s.SameBytes (s.reduceNext p) := by
  rcases s.reduceNext_cases p with h | ⟨b, d, h⟩
  · rw [h]
    exact State.SameBytes.refl s
  · rw [h]
    exact s.sameBytes_modPart_of_tiles p (Partition.setReducing [b]) fun _ => rfl

/-! ### A region that is reduced -/

@[simp] theorem length_leBytes (n v : Nat) : (leBytes n v).length = n := by
  induction n generalizing v with
  | zero => rfl
  | succ n ih => rw [leBytes, List.length_cons, ih]

@[simp] theorem length_bytesOf (n : Nat) (xs : List Nat) : (bytesOf n xs).length = xs.length * n := by
  rw [bytesOf, List.length_flatMap]
  simp

/-- Bytes of one page are held in one piece (R168). -/
theorem Partition.hold_of_page (P : Partition) {va : Nat} {bs : List Byte} {l : Loc} (h0 : 0 < bs.length) (h1 : va % 65536 + bs.length ≤ 65536)
    (hl : translate P.transNow va = some l) : P.hold va bs = { P with held := P.held ++ [⟨l, bs⟩] } := by
  rw [Partition.hold, pieces_of_page h0 h1]
  simp [hl]

/-- The result of element j of a region: the values of its contributors, combined in rank order (R165). -/
def Partition.result (P : Partition) (r : Region) (j : Nat) : Nat :=
  (P.contributors r).foldl (fun acc k => (redOp r.op r.isInt acc ((P.tile k).contribution r j)).bits) (redIdentity r.op r.isInt)

theorem reduceRegion_of_page (P : Partition) {r : Region} {l : Loc} (hcav : r.cav = false) (h0 : 0 < r.ne * r.esize)
    (h1 : (r.base + 64) % 65536 + r.ne * r.esize ≤ 65536) (hl : translate P.transNow (r.base + 64) = some l) :
    reduceRegion P r = { P with held := P.held ++ [⟨l, (List.range r.ne).flatMap fun j => leBytes r.esize (P.result r j)⟩] } := by
  have hbytes : bytesOf r.esize (((List.range r.ne).map fun j => (P.contributors r).map fun t => (P.tile t).contribution r j).map fun xs => redResult r.op r.isInt xs) =
      (List.range r.ne).flatMap fun j => leBytes r.esize (P.result r j) := by
    simp only [bytesOf, List.map_map, List.flatMap_map, Function.comp_def, redResult, List.foldl_map, Partition.result]
  have hlen : ((List.range r.ne).flatMap fun j => leBytes r.esize (P.result r j)).length = r.ne * r.esize := by
    rw [← hbytes, length_bytesOf]
    simp
  unfold reduceRegion
  dsimp only
  rw [hcav, if_neg (by decide), hbytes]
  exact P.hold_of_page (by rw [hlen]; exact h0) (by rw [hlen]; exact h1) hl

/-- What the reduction of a region leaves alone. -/
theorem reduceRegion_keeps {β : Type} (g : Partition → β) (hg : ∀ P h, g { P with held := h } = g P) (P : Partition) (r : Region) : g (reduceRegion P r) = g P := by
  have hhold (P : Partition) (va : Nat) (bs : List Byte) : g (P.hold va bs) = g P := hg P _
  unfold reduceRegion
  dsimp only
  split
  · exact foldl_keeps g _ (fun P x => hhold P _ _) _ P
  · exact hhold P _ _

/-- A region's reduction begins: it is one of those reduced. -/
def Partition.beginReduced (base : Nat) (P : Partition) : Partition :=
  { P with
    reducing := []
    reduced := base :: P.reduced }

theorem reductionDone_ok {s : State} {p base : Nat} {r : Region} (h : (s.part p).reducing.contains base = true)
    (hr : regionOf s (s.part p).transNow (s.part p).tiles.length base = some r) (hok : r.ok = true) :
    reductionDone s p base = (((s.modPart p (Partition.beginReduced base)).reductionErrors p r).modPart p fun P => reduceRegion P r).reduceNext p := by
  unfold reductionDone
  dsimp only
  rw [h, if_neg (by decide), hr]
  dsimp only
  rw [hok]
  rfl

theorem State.stagingPoison_begin (s : State) (p k base : Nat) (r : Region) :
    (s.modPart p (Partition.beginReduced base)).stagingPoison p k r = s.stagingPoison p k r := by
  have htile : (s.modPart p (Partition.beginReduced base)).tile p k = s.tile p k := s.tile_modPart_of_tiles p (Partition.beginReduced base) (fun _ => rfl) p k
  have htrans : ((s.modPart p (Partition.beginReduced base)).part p).transNow = (s.part p).transNow :=
    s.modPart_keeps Partition.transNow (Partition.beginReduced base) (fun _ => rfl) p p
  unfold State.stagingPoison
  rw [htile, htrans]
  rfl

/-- The event of a contributor whose staging slot cannot be corrected (R168, R189). -/
def State.stagingEvent (p : Nat) (r : Region) (s : State) (k : Nat) : State :=
  match s.stagingPoison p k r with
  | some l => tileEvent s p k .eccUncorr 1 (eccWord 0 l) l.addr
  | none => s

theorem State.reductionErrors_eq (s : State) (p : Nat) (r : Region) :
    s.reductionErrors p r = if (s.part p).decision.isSome then s else ((s.part p).contributors r).foldl (State.stagingEvent p r) s := rfl

theorem State.stagingEvents_none (s : State) (p : Nat) (r : Region) (ks : List Nat) (h : ∀ k ∈ ks, s.stagingPoison p k r = none) :
    ks.foldl (State.stagingEvent p r) s = s := by
  induction ks with
  | nil => rfl
  | cons k ks ih =>
    have hk : State.stagingEvent p r s k = s := by
      unfold State.stagingEvent
      rw [h k List.mem_cons_self]
    rw [List.foldl_cons, hk]
    exact ih fun j hj => h j (List.mem_cons_of_mem _ hj)

/-- No event takes a contribution of a tile back. -/
theorem State.faults_stagingEvent (s : State) (p : Nat) (r : Region) (j : Nat) {k : Nat} {f : FaultSum} (h : f ∈ ((s.part p).tile k).faults)
    (hk : k < (s.part p).tiles.length) : f ∈ (((State.stagingEvent p r s j).part p).tile k).faults := by
  unfold State.stagingEvent
  split
  · obtain ⟨F, hF, hpart⟩ := tileEvent_part (State.lt_of_tile hk) j .eccUncorr 1 (eccWord 0 ‹Loc›) (Loc.addr ‹Loc›)
    rw [hpart]
    by_cases e : k = j
    · subst e
      rw [Partition.tile_modTile _ _ hk, hF]
      exact List.mem_append_left _ h
    · rw [Partition.tile_modTile_ne _ _ e]
      exact h
  · exact h

theorem State.size_stagingEvent (s : State) (p : Nat) (r : Region) (j : Nat) : ((State.stagingEvent p r s j).part p).tiles.length = (s.part p).tiles.length := by
  unfold State.stagingEvent
  split
  · exact tileEvent_keeps (fun P => P.tiles.length) (fun P t f => P.length_tiles_modTile t f) s p j _ _ _ _ p
  · rfl

/-- The first contributor whose staging slot is at fault votes a wash. -/
theorem State.faults_stagingEvents {s : State} {p k : Nat} {r : Region} {l : Loc} {pre post : List Nat} (hpre : ∀ j ∈ pre, s.stagingPoison p j r = none)
    (hl : s.stagingPoison p k r = some l) (hk : k < (s.part p).tiles.length) :
    ⟨8, 1, .eccUncorr, eccWord 0 l⟩ ∈ ((((pre ++ k :: post).foldl (State.stagingEvent p r) s).part p).tile k).faults := by
  rw [List.foldl_append, s.stagingEvents_none p r pre hpre, List.foldl_cons]
  have hfirst : ⟨8, 1, .eccUncorr, eccWord 0 l⟩ ∈ (((State.stagingEvent p r s k).part p).tile k).faults := by
    obtain ⟨F, hF, hpart⟩ := tileEvent_part (State.lt_of_tile hk) k .eccUncorr 1 (eccWord 0 l) l.addr
    unfold State.stagingEvent
    rw [hl]
    dsimp only
    rw [hpart, Partition.tile_modTile _ _ hk, hF]
    exact List.mem_append_right _ (List.mem_singleton_self _)
  have hsize := s.size_stagingEvent p r k
  exact (foldl_kept (fun u => ((State.part u p).tiles.length = (s.part p).tiles.length) ∧ ⟨8, 1, .eccUncorr, eccWord 0 l⟩ ∈ ((State.part u p).tile k).faults) _
    (fun u j ⟨h1, h2⟩ => ⟨(u.size_stagingEvent p r j).trans h1, u.faults_stagingEvent p r j h2 (h1 ▸ hk)⟩) post _ ⟨hsize, hfirst⟩).2

theorem Partition.lt_of_contributors {P : Partition} {r : Region} {k : Nat} (h : k ∈ P.contributors r) : k < P.tiles.length :=
  List.mem_range.1 (List.mem_filter.1 h).1

end Sys2Proof.Machine

namespace Sys2Proof.Proofs

open Sys2Proof Sys2Proof.Machine Sys2Proof.Claims

theorem reductionsHoldResults : ReductionsHoldResults := by
  intro s p P hp
  refine ⟨fun hk hm => ?_, fun r l hred hr hok hcav hclean hl h0 h1 => ?_, fun r pre post k l hred hr hok hdec hcon hpre hpoison => ?_⟩
  · have hx : exec .reductionStream s = .next ((s.modTile p s.arg.t fun T => { T with streamed := T.bases }).reduceNext p) :=
      congrArg Host.Outcome.next (if_pos hm)
    have htiles : (((s.modTile p s.arg.t fun T => { T with streamed := T.bases }).reduceNext p).part p).tile s.arg.t = { P.tile s.arg.t with streamed := (P.tile s.arg.t).bases } := by
      refine (State.reduceNext_keeps (Partition.tile · s.arg.t) (fun _ _ => rfl) _ p p).trans ?_
      refine (congrArg (Partition.tile · s.arg.t) (s.part_modPart p _ hp)).trans ?_
      exact P.tile_modTile _ hk
    refine ⟨_, hx, ?_, ?_⟩
    · rw [htiles]
    · rw [htiles]
  · have hx : exec .reductionDone s = .next _ := congrArg Host.Outcome.next (reductionDone_ok hred hr hok)
    let s1 := s.modPart p (Partition.beginReduced s.arg.op)
    have hpart : s1.part p = P.beginReduced s.arg.op := s.part_modPart p _ hp
    have herr : s1.reductionErrors p r = s1 := by
      rw [State.reductionErrors_eq]
      split
      · rfl
      · refine s1.stagingEvents_none p r _ fun k hk => ?_
        rw [hpart] at hk
        exact (s.stagingPoison_begin p k _ r).trans (hclean k hk)
    have hafter : (s1.modPart p fun P => reduceRegion P r).part p = reduceRegion (P.beginReduced s.arg.op) r := by
      rw [s1.part_modPart p _ (by simpa [s1] using hp), hpart]
    rw [reduceRegion_of_page (P.beginReduced s.arg.op) hcav h0 h1 hl] at hafter
    rw [herr] at hx
    let keep (P : Partition) : List Nat × List Held := (P.reduced, P.held)
    have hkeep := State.reduceNext_keeps keep (fun _ _ => rfl) (s1.modPart p fun P => reduceRegion P r) p p
    rw [hafter] at hkeep
    obtain ⟨hreduced, hheld⟩ := Prod.mk.inj hkeep
    refine ⟨_, _, hx, ?_, hheld, rfl, rfl, ?_⟩
    · rw [hreduced]
      exact List.mem_cons_self
    · exact (s.sameBytes_modPart_of_tiles p (Partition.beginReduced s.arg.op) fun _ => rfl).trans ((s1.sameBytes_modPart_of_tiles p _ fun Q => reduceRegion_keeps Partition.tiles (fun _ _ => rfl) Q r).trans
        (State.sameBytes_reduceNext _ p))
  · have hx : exec .reductionDone s = .next _ := congrArg Host.Outcome.next (reductionDone_ok hred hr hok)
    let s1 := s.modPart p (Partition.beginReduced s.arg.op)
    have hpart : s1.part p = P.beginReduced s.arg.op := s.part_modPart p _ hp
    have herr : s1.reductionErrors p r = (pre ++ k :: post).foldl (State.stagingEvent p r) s1 := by
      rw [State.reductionErrors_eq, hpart, if_neg (by change ¬ P.decision.isSome = true; rw [hdec]; decide), ← hcon]
      rfl
    have hk : k < (s1.part p).tiles.length := by
      rw [hpart]
      exact Partition.lt_of_contributors (hcon ▸ List.mem_append_right _ List.mem_cons_self)
    refine ⟨_, hx, ?_⟩
    have hmem := State.faults_stagingEvents (s := s1) (post := post) (fun j hj => (s.stagingPoison_begin p j _ r).trans (hpre j hj))
      ((s.stagingPoison_begin p k _ r).trans hpoison) hk
    rw [← herr] at hmem
    have hkeep : ((((((s.modPart p (Partition.beginReduced s.arg.op)).reductionErrors p r).modPart p fun P => reduceRegion P r).reduceNext p).part p).tile k) =
        ((s1.reductionErrors p r).part p).tile k :=
      (State.reduceNext_keeps (Partition.tile · k) (fun _ _ => rfl) _ p p).trans
        (State.modPart_keeps (Partition.tile · k) (fun P => reduceRegion P r) (fun Q => reduceRegion_keeps (Partition.tile · k) (fun _ _ => rfl) Q r) _ p p)
    rw [← hkeep] at hmem
    exact hmem

end Sys2Proof.Proofs
end

section
/-!
PROOF of O52, continued: traps on a tile's thread, and the exchange barrier (spec/08 R148, R149, R159; spec/09 R175, R186).
-/

namespace Sys2Proof.Machine

/-! ### A trap that a thread of a tile takes in task mode (R175) -/

theorem Tile.thread_modThread (T : Tile) {i : Nat} (f : Thread → Thread) (h : i < T.threads.length) : (T.modThread i f).thread i = f (T.thread i) :=
  getD_modify _ _ _ _ h

/-- A thread chosen by a condition is in the mode of both choices. -/
theorem Thread.mode_dite {c : Prop} [Decidable c] {a : c → Thread} {b : ¬ c → Thread} {m : Mode} (ha : ∀ h, (a h).mode = m) (hb : ∀ h, (b h).mode = m) :
    (dite c a b).mode = m := by
  split
  · exact ha _
  · exact hb _

theorem Thread.mode_ite {c : Prop} [Decidable c] {a b : Thread} {m : Mode} (ha : a.mode = m) (hb : b.mode = m) : (ite c a b).mode = m :=
  Thread.mode_dite (fun _ => ha) (fun _ => hb)

theorem Thread.mode_csrSet (t : Thread) (k : Nat) (v : Word) : (t.csrSet k v).mode = t.mode :=
  mode_ite rfl <| mode_ite rfl <| mode_ite (mode_ite rfl rfl) <| mode_ite rfl <| mode_ite rfl <| mode_ite rfl <| mode_dite (fun _ => rfl) fun _ =>
    mode_dite (fun _ => rfl) fun _ => mode_dite (fun _ => rfl) fun _ => mode_ite rfl <| mode_ite rfl <| mode_ite rfl rfl

theorem Thread.mode_landTrap (t : Thread) (c : Nat) : (t.landTrap c).mode = t.mode := by
  refine foldl_keeps Thread.mode _ (fun t x => ?_) _ t
  split
  · exact t.mode_csrSet _ _
  all_goals rfl

theorem Tile.mode_landFlt (T : Tile) (c j : Nat) : ((T.landFlt c).thread j).mode = (T.thread j).mode := by
  unfold Tile.landFlt
  dsimp only
  split
  · simp only [Tile.thread, List.getD_eq_getElem?_getD, List.getElem?_map]
    cases T.threads[j]? <;> rfl
  · rfl

/-- What the landing of %flt leaves of a tile. -/
theorem Tile.landFlt_rest (T : Tile) (c : Nat) :
    (T.landFlt c).faults = T.faults ∧ (T.landFlt c).released = T.released ∧ (T.landFlt c).threads.length = T.threads.length := by
  unfold Tile.landFlt
  dsimp only
  split
  · exact ⟨rfl, rfl, List.length_map _⟩
  · exact ⟨rfl, rfl, rfl⟩

theorem Tile.noteFlt_rest (T : Tile) (ssn : BitVec 32) (th : Nat) (cause : Cause) (detail : Word) :
    (T.noteFlt ssn th cause detail).faults = T.faults ∧ (T.noteFlt ssn th cause detail).released = T.released ∧ (T.noteFlt ssn th cause detail).threads = T.threads := by
  unfold Tile.noteFlt
  split <;> exact ⟨rfl, rfl, rfl⟩

/-- A fault of a tile joins its list (R180, R186). -/
theorem tileFault_part {s : State} {p : Nat} (hp : p < s.parts.length) (k who src : Nat) (cause : Cause) (vote : BitVec 2) (detail tepc : Word) (u : IssueUnit) (phys : Nat) :
    ∃ F : Tile → Tile, (∀ T, (F T).faults = T.faults ++ [⟨who, vote, cause, detail⟩] ∧ (F T).released = T.released ∧ (F T).threads = T.threads) ∧
      (tileFault s p k who src cause vote detail tepc u phys).part p = (s.part p).modTile k F := by
  unfold tileFault
  dsimp only
  have hparts := parts_recordFault s p (some k) (if who < 8 then some who else none) src cause detail tepc u phys
  generalize recordFault s p (some k) (if who < 8 then some who else none) src cause detail tepc u phys = r at hparts ⊢
  let F (T : Tile) : Tile :=
    let T := T.noteFlt (nextSsn (s.part p).ssn) (if who < 8 then who else 0) cause detail
    { T with flost := T.flost || r.2, faults := T.faults ++ [⟨who, vote, cause, detail⟩] }
  refine ⟨F, fun T => ?_, ?_⟩
  · obtain ⟨hf, hr, ht⟩ := T.noteFlt_rest (nextSsn (s.part p).ssn) (if who < 8 then who else 0) cause detail
    exact ⟨congrArg (· ++ _) hf, hr, ht⟩
  · have hpart : r.1.part p = s.part p := by rw [State.part, hparts, State.part]
    exact (r.1.part_modPart p (Partition.modTile · k F) (hparts ▸ hp)).trans (congrArg (Partition.modTile · k F) hpart)

@[simp] theorem length_parts_tileFault (s : State) (p k who src : Nat) (cause : Cause) (vote : BitVec 2) (detail tepc : Word) (u : IssueUnit) (phys : Nat) :
    (tileFault s p k who src cause vote detail tepc u phys).parts.length = s.parts.length := by
  unfold tileFault
  dsimp only
  rw [State.modTile, State.length_parts_modPart, parts_recordFault]

theorem Thread.enterTrap_cause (t : Thread) (cyc : Nat) (cause : Cause) (detail : Word) (tepc : Addr) (pfx : Bool) (chain : Option Nat) :
    (t.enterTrap cyc cause detail tepc pfx chain).tcause = BitVec.ofNat 8 cause.code ∧ (t.enterTrap cyc cause detail tepc pfx chain).tdet = detail := by
  unfold Thread.enterTrap
  dsimp only
  split <;> exact ⟨rfl, rfl⟩

/-- A trap that a thread takes in task mode: its contribution to the tile's, its cause and its detail (R175, R180). -/
theorem trapTile_task {s : State} {p k i : Nat} (hk : k < (s.part p).tiles.length) (hi : i < ((s.part p).tile k).threads.length)
    (hmode : (((s.part p).tile k).thread i).mode = .task) {cause : Cause} (hc : cause ≠ .unstaged) (detail : Word) (u : IssueUnit) (phys : Nat) :
    let T := ((trapTile s p k i cause detail u phys).part p).tile k
    T.faults = ((s.part p).tile k).faults ++ [⟨i, 1, cause, detail⟩] ∧ T.released = ((s.part p).tile k).released ∧
      (T.thread i).tcause = BitVec.ofNat 8 cause.code ∧ (T.thread i).tdet = detail := by
  have hp := State.lt_of_tile hk
  let T1 := (((s.part p).tile k).landFlt s.cycle).modThread i fun th => th.landTrap s.cycle
  have hpart : (s.beforeTrap p k i).part p = (s.part p).modTile k fun T => (T.landFlt s.cycle).modThread i fun th => th.landTrap s.cycle :=
    s.part_modPart p _ hp
  have htile : ((s.beforeTrap p k i).part p).tile k = T1 := by
    rw [hpart]
    exact (s.part p).tile_modTile _ hk
  obtain ⟨hfaults, hreleased, hlen⟩ := ((s.part p).tile k).landFlt_rest s.cycle
  have hmode1 : (T1.thread i).mode = .task := by
    rw [Tile.thread_modThread _ _ (hlen.symm ▸ hi), Thread.mode_landTrap, Tile.mode_landFlt]
    exact hmode
  have hk1 : k < ((s.beforeTrap p k i).part p).tiles.length := by rw [hpart]; simpa using hk
  have hp1 : p < (s.beforeTrap p k i).parts.length := State.lt_of_tile hk1
  generalize htepc : (if cause = .trap then u.next else u.addr) = tepc
  obtain ⟨F, hF, hfault⟩ := tileFault_part hp1 k i 0 cause 1 detail (tepc.setWidth 64) u phys
  have htrap : trapTile s p k i cause detail u phys = (tileFault (s.beforeTrap p k i) p k i 0 cause 1 detail (tepc.setWidth 64) u phys).modTile p k
      fun T => T.modThread i fun th => th.enterTrap (tileFault (s.beforeTrap p k i) p k i 0 cause 1 detail (tepc.setWidth 64) u phys).cycle cause detail tepc u.hasPfx none := by
    unfold trapTile
    dsimp only
    rw [if_neg hc, State.tile, htile, hmode1, if_neg (by decide), htepc]
  obtain ⟨hFfaults, hFreleased, hFthreads⟩ := hF T1
  have hafter : ((tileFault (s.beforeTrap p k i) p k i 0 cause 1 detail (tepc.setWidth 64) u phys).part p).tile k = F T1 := by
    rw [hfault, Partition.tile_modTile _ _ hk1, htile]
  have hlast := (tileFault (s.beforeTrap p k i) p k i 0 cause 1 detail (tepc.setWidth 64) u phys).part_modPart p
    (fun P => P.modTile k fun T => T.modThread i fun th =>
      th.enterTrap (tileFault (s.beforeTrap p k i) p k i 0 cause 1 detail (tepc.setWidth 64) u phys).cycle cause detail tepc u.hasPfx none)
    (by simpa using hp1)
  have hfinal : ((trapTile s p k i cause detail u phys).part p).tile k = (F T1).modThread i fun th =>
      th.enterTrap (tileFault (s.beforeTrap p k i) p k i 0 cause 1 detail (tepc.setWidth 64) u phys).cycle cause detail tepc u.hasPfx none := by
    rw [htrap, State.modTile, hlast, Partition.tile_modTile _ _ (by rw [hfault]; simpa using hk1), hafter]
  intro T
  have hT : T = (F T1).modThread i _ := hfinal
  have hi1 : i < (F T1).threads.length := by
    rw [hFthreads]
    exact lt_of_lt_of_eq hi (hlen.symm.trans (List.length_modify _ _ _).symm)
  rw [hT, Tile.thread_modThread _ _ hi1]
  refine ⟨?_, ?_, Thread.enterTrap_cause _ _ _ _ _ _ _⟩
  · exact hFfaults.trans (congrArg (· ++ _) hfaults)
  · exact hFreleased.trans hreleased

end Sys2Proof.Machine
end

section
/-!
PROOF of O52, continued: the exchange barrier and its release (spec/08 R148, R149, R159; spec/02 R41).
-/

namespace Sys2Proof.Machine

/-! ### A tile that raises the barrier (R148) -/

/-- What one tile's change leaves of a tile. -/
theorem Partition.tile_modTile_keeps {β : Type} (g : Tile → β) (F : Tile → Tile) (h : ∀ T, g (F T) = g T) (P : Partition) (k t : Nat) :
    g ((P.modTile k F).tile t) = g (P.tile t) := by
  by_cases e : t = k
  · subst e
    by_cases ht : t < P.tiles.length
    · rw [P.tile_modTile F ht, h]
    · have hnone (Q : Partition) (hq : Q.tiles.length = P.tiles.length) : Q.tile t = Tile.zero := by
        rw [Partition.tile, List.getD_eq_getElem?_getD, List.getElem?_eq_none (by omega)]
        rfl
      rw [hnone _ (P.length_tiles_modTile t F), hnone P rfl]
  · rw [P.tile_modTile_ne F e]

/-- A tile that raises the exchange barrier. -/
def Tile.raise (T : Tile) : Tile :=
  { T with barrier := true, raisers := T.raising, syncHb := joinSync T.syncHb 0 (T.threads.foldl (fun h th => joinHb th.hb h) []) }

/-- The time of the latest arrival at the barrier moves on to `now`. -/
def Partition.arrived (now : Nat) (P : Partition) : Partition := { P with xbar := { P.xbar with latest := max P.xbar.latest now } }

/-- The machine with the barrier raised by tile k. -/
def State.raised (s : State) (p k : Nat) : State := (s.modTile p k Tile.raise).modPart p (Partition.arrived s.ptime.toNat)

theorem raiseBarrier_raises {s : State} {p k : Nat} (h1 : (s.tile p k).atBarrier = true) (h2 : (s.tile p k).barrier = false) :
    raiseBarrier s p k = (s.raised p k).startExchange p :=
  if_pos (by rw [h1, h2]; rfl)

section
variable {s : State} {p : Nat} (hp : p < s.parts.length) (k : Nat)
include hp

theorem State.part_raised : (s.raised p k).part p = ((s.part p).modTile k Tile.raise).arrived s.ptime.toNat := by
  rw [State.raised, State.part_modPart _ _ _ (by simpa [State.modTile] using hp)]
  exact congrArg (Partition.arrived _) (s.part_modPart p _ hp)

theorem State.tile_raised_keeps {β : Type} (g : Tile → β) (h : ∀ T, g T.raise = g T) (t : Nat) : g (((s.raised p k).part p).tile t) = g ((s.part p).tile t) := by
  rw [State.part_raised hp k]
  exact (s.part p).tile_modTile_keeps g Tile.raise h k t

theorem State.spanTiles_raised : ((s.raised p k).part p).spanTiles = (s.part p).spanTiles := by
  rw [State.part_raised hp k]
  exact Partition.spanTiles_congr rfl ((s.part p).length_tiles_modTile k Tile.raise)

theorem State.barrier_raised (hk : k < (s.part p).tiles.length) (j : Nat) :
    (((s.raised p k).part p).tile j).barrier = if j = k then true else ((s.part p).tile j).barrier := by
  rw [State.part_raised hp k]
  by_cases e : j = k
  · subst e
    rw [if_pos rfl]
    exact congrArg Tile.barrier ((s.part p).tile_modTile Tile.raise hk)
  · rw [if_neg e]
    exact congrArg Tile.barrier ((s.part p).tile_modTile_ne Tile.raise e)

theorem State.allRaised_raised (hk : k < (s.part p).tiles.length) :
    ((s.raised p k).part p).allRaised = true ↔ ∀ j ∈ (s.part p).spanTiles, j ≠ k → ((s.part p).tile j).barrier = true := by
  rw [Partition.allRaised, List.all_eq_true, State.spanTiles_raised hp k]
  refine forall₂_congr fun j _ => ?_
  rw [State.barrier_raised hp k hk]
  by_cases e : j = k
  · simp [e]
  · simp [e]

theorem State.exchangeNeeded_raised : (s.raised p k).exchangeNeeded p = s.exchangeNeeded p := by
  unfold State.exchangeNeeded
  dsimp only
  rw [State.spanTiles_raised hp k]
  have htile (t : Nat) : (!(((s.raised p k).part p).tile t).contribs.isEmpty || (((s.raised p k).part p).tile t).threads.any fun th => th.xsynced) =
      (!((s.part p).tile t).contribs.isEmpty || ((s.part p).tile t).threads.any fun th => th.xsynced) :=
    State.tile_raised_keeps hp k (fun T => !T.contribs.isEmpty || T.threads.any fun th => th.xsynced) (fun _ => rfl) t
  simp only [htile]
  rfl

theorem State.downPorts_raised : (s.raised p k).downPorts p = s.downPorts p := by
  rw [State.downPorts, State.part_raised hp k]
  rfl

theorem State.upPort_raised : (s.raised p k).upPort p = s.upPort p := by
  rw [State.upPort, State.part_raised hp k]
  rfl

/-- Where a tile is still awaited, no exchange starts. -/
theorem State.exchangeDue_raised_early (hk : k < (s.part p).tiles.length) {j : Nat} (hj : j ∈ (s.part p).spanTiles) (hjk : j ≠ k)
    (hb : ((s.part p).tile j).barrier = false) : (s.raised p k).exchangeDue p = false := by
  have : ((s.raised p k).part p).allRaised = false := by
    rw [← Bool.not_eq_true, State.allRaised_raised hp k hk]
    exact fun h => by rw [h j hj hjk] at hb; cases hb
  unfold State.exchangeDue
  simp [this]

/-- The last tile has come, and there is something to exchange: here, and below, all have raised the barrier (R148). -/
theorem State.exchangeDue_raised_last (hk : k < (s.part p).tiles.length) (hall : ∀ j ∈ (s.part p).spanTiles, j ≠ k → ((s.part p).tile j).barrier = true)
    (hS : (s.part p).exchS = none) (hneed : s.exchangeNeeded p = true) (hkids : ∀ j ∈ s.downPorts p, j ∈ (s.part p).xbar.kids)
    (hsent : (s.upPort p).isSome = true → (s.part p).xbar.sent = false) : (s.raised p k).exchangeDue p = true := by
  have hexch : ((s.raised p k).part p).exchS = none := by rw [State.part_raised hp k]; exact hS
  have hbar : ((s.raised p k).part p).xbar = ((s.part p).arrived s.ptime.toNat).xbar := by rw [State.part_raised hp k]; rfl
  have hasked : (s.raised p k).exchangeAsked p = true := by
    rw [State.exchangeAsked, State.exchangeNeeded_raised hp k, hneed]
    rfl
  have hall' := (State.allRaised_raised hp k hk).2 hall
  have hdown : ((s.raised p k).downPorts p).all (fun j => ((s.raised p k).part p).xbar.kids.contains j) = true := by
    rw [State.downPorts_raised hp k, hbar, List.all_eq_true]
    exact fun j hj => List.contains_iff_mem.2 (hkids j hj)
  have hfree : (((s.raised p k).upPort p).isSome && ((s.raised p k).part p).xbar.sent) = false := by
    rw [State.upPort_raised hp k, hbar]
    cases h : (s.upPort p).isSome
    · rfl
    · exact hsent h
  unfold State.exchangeDue
  dsimp only
  rw [hexch, hall', hasked, hdown, hfree]
  rfl

end

/-! ### The start time (R149) -/

theorem State.le_portsFree (s : State) (p S : Nat) : S ≤ s.portsFree p S := by
  refine foldl_kept (S ≤ ·) _ (fun m x h => ?_) _ S (Nat.le_refl S)
  split
  · exact le_max_of_le_left h
  · exact h

theorem State.portsFree_of_steady {s : State} (h : ∀ x ∈ s.ports.toList, x.pausedUntil ≤ s.cycle) (p S : Nat) : s.portsFree p S = S := by
  unfold State.portsFree
  have hmem : ∀ x ∈ s.ports.toList.zipIdx, x.1.pausedUntil ≤ s.cycle := fun x hx => h _ (List.fst_mem_of_mem_zipIdx hx)
  generalize s.ports.toList.zipIdx = l at hmem
  induction l with
  | nil => rfl
  | cons x l ih =>
    rw [List.foldl_cons, if_neg fun hc => Nat.not_lt.2 (hmem x List.mem_cons_self) hc.1]
    exact ih fun y hy => hmem y (List.mem_cons_of_mem _ hy)

/-! ### Flits to several ports -/

theorem State.port_sendFlit_ne (s : State) {k j : Nat} (cls part : Nat) (bs : List Byte) (h : j ≠ k) : (s.sendFlit k cls part bs).port j = s.port j :=
  s.port_modPort_ne _ h

theorem State.queue_sendFlit (s : State) {k : Nat} (cls part : Nat) (bs : List Byte) (h : k < 40) :
    ((s.sendFlit k cls part bs).port k).queue = enqueueFlit (s.port k).queue ⟨cls, part, bs, false⟩ := by
  rw [State.sendFlit, s.port_modPort _ h]

theorem State.port_sendFlits (cls part : Nat) (bs : List Byte) (ks : List Nat) (s : State) {j : Nat} (h : j ∉ ks) :
    (ks.foldl (fun s k => s.sendFlit k cls part bs) s).port j = s.port j := by
  induction ks generalizing s with
  | nil => rfl
  | cons k ks ih =>
    rw [List.mem_cons, not_or] at h
    obtain ⟨hjk, hks⟩ := h
    rw [List.foldl_cons, ih _ hks, s.port_sendFlit_ne _ _ _ hjk]

/-- A port that a flit goes to once. -/
theorem State.queue_sendFlits (cls part : Nat) (bs : List Byte) (ks : List Nat) (s : State) {j : Nat} (hj : j < 40) (h : ks.count j = 1) :
    ((ks.foldl (fun s k => s.sendFlit k cls part bs) s).port j).queue = enqueueFlit (s.port j).queue ⟨cls, part, bs, false⟩ := by
  induction ks generalizing s with
  | nil => cases h
  | cons k ks ih =>
    rw [List.foldl_cons]
    by_cases e : k = j
    · subst e
      rw [List.count_cons_self] at h
      rw [State.port_sendFlits _ _ _ _ _ (List.count_eq_zero.1 (by omega)), s.queue_sendFlit _ _ _ hj]
    · rw [List.count_cons_of_ne e] at h
      rw [ih _ h, s.port_sendFlit_ne _ _ _ (Ne.symm e)]

/-- What flits leave alone. -/
theorem State.sendFlits_rest (cls part : Nat) (bs : List Byte) (ks : List Nat) (s : State) :
    (ks.foldl (fun s k => s.sendFlit k cls part bs) s).parts = s.parts ∧ (ks.foldl (fun s k => s.sendFlit k cls part bs) s).agenda = s.agenda :=
  ⟨foldl_keeps State.parts _ (fun s k => s.modPort_parts k _) ks s, foldl_keeps State.agenda _ (fun s k => s.modPort_agenda k _) ks s⟩

/-! ### The release (R149) -/

theorem State.schedules_eq (dt : Nat) (ev : Instr) (arg : Nat → Arg) (ts : List Nat) (s : State) :
    ts.foldl (fun s t => s.schedule dt ev (arg t)) s = { s with agenda := s.agenda ++ ts.map fun t => ⟨s.cycle + dt, ev, arg t⟩ } := by
  induction ts generalizing s with
  | nil => simp
  | cons t ts ih =>
    rw [List.foldl_cons, ih]
    simp [State.schedule]

/-- A partition whose exchange starts at S. -/
def Partition.starts (S : Nat) (skew : Bool) (P : Partition) : Partition :=
  { P with
    exchS := some S
    exchSkew := skew }

theorem State.exchRelease_root (s : State) (p S : Nat) (skew : Bool) : s.exchRelease p S skew true =
    (s.downPorts p).foldl (fun u k => u.sendFlit k 0 p (exchMsg true skew (nextSsn (s.part p).ssn) S).bytes)
      (((s.part p).releaseTiles skew).foldl (fun u t => u.schedule Config.releaseCycles .exchangeRelease { p := p, t := t }) (s.modPart p (Partition.starts S skew))) := rfl

theorem State.mem_releaseTiles {P : Partition} {skew : Bool} {t : Nat} (h : t ∈ P.spanTiles) : t ∈ P.releaseTiles skew := by
  unfold Partition.releaseTiles
  split
  · exact (List.mem_filter.1 h).1
  · exact h

/-- The release at the root: the start time stands, each package below has its message, and each tile of the span its release. -/
theorem State.exchRelease_spec (s : State) {p : Nat} (hp : p < s.parts.length) (S : Nat) (skew : Bool) :
    (s.exchRelease p S skew true).part p = (s.part p).starts S skew ∧
    (∀ j, j < 40 → (s.downPorts p).count j = 1 → ∃ x, ((s.exchRelease p S skew true).port j).queue = enqueueFlit (s.port j).queue ⟨0, p, x, false⟩) ∧
    ∀ j ∈ (s.part p).spanTiles, ⟨s.cycle + Config.releaseCycles, .exchangeRelease, { p := p, t := j }⟩ ∈ (s.exchRelease p S skew true).agenda := by
  let v := s.modPart p (Partition.starts S skew)
  let u := ((s.part p).releaseTiles skew).foldl (fun u t => u.schedule Config.releaseCycles .exchangeRelease { p := p, t := t }) v
  let bs := (exchMsg true skew (nextSsn (s.part p).ssn) S).bytes
  have hu : u = { v with agenda := v.agenda ++ ((s.part p).releaseTiles skew).map fun t => ⟨v.cycle + Config.releaseCycles, .exchangeRelease, { p := p, t := t }⟩ } :=
    State.schedules_eq _ _ _ _ _
  have hrel : s.exchRelease p S skew true = (s.downPorts p).foldl (fun u k => u.sendFlit k 0 p bs) u := s.exchRelease_root p S skew
  obtain ⟨hparts, hagenda⟩ := State.sendFlits_rest 0 p bs (s.downPorts p) u
  rw [hrel]
  refine ⟨?_, fun j hj hc => ⟨bs, ?_⟩, fun j hj => ?_⟩
  · rw [State.part, hparts, hu]
    exact s.part_modPart p _ hp
  · rw [State.queue_sendFlits _ _ _ _ _ hj hc, hu]
    rfl
  · rw [hagenda, hu]
    exact List.mem_append_right _ (List.mem_map.2 ⟨j, State.mem_releaseTiles hj, rfl⟩)

theorem State.startExchange_root {s : State} {p : Nat} (hd : s.exchangeDue p = true) (hup : s.upPort p = none) :
    s.startExchange p = s.exchRelease p (s.portsFree p ((s.part p).xbar.latest + (s.part p).lead)) (s.timing.skew || (s.part p).xbar.skewf) true := by
  unfold State.startExchange
  rw [hd, hup]
  rfl

/-- A package below another sends one message up (R41). -/
def Partition.sendsUp (P : Partition) : Partition := { P with xbar := { P.xbar with sent := true } }

theorem State.startExchange_up {s : State} {p j : Nat} (hd : s.exchangeDue p = true) (hup : s.upPort p = some j) : ∃ bs,
    s.startExchange p = (s.modPart p Partition.sendsUp).sendFlit j 0 p bs := by
  unfold State.startExchange
  rw [hd, hup]
  exact ⟨_, rfl⟩

theorem State.startExchange_tiles (s : State) (p q : Nat) : ((s.startExchange p).part q).tiles = (s.part q).tiles := by
  have hsend (s : State) (k : Nat) (bs : List Byte) : ((s.sendFlit k 0 p bs).part q).tiles = (s.part q).tiles := by
    rw [State.part, State.sendFlit, State.modPort_parts, State.part]
  unfold State.startExchange
  dsimp only
  split
  · rfl
  split
  · rw [hsend]
    exact s.modPart_keeps Partition.tiles Partition.sendsUp (fun _ => rfl) p q
  · rw [s.exchRelease_root, State.schedules_eq, State.part, (State.sendFlits_rest _ _ _ _ _).1]
    exact s.modPart_keeps Partition.tiles (Partition.starts _ _) (fun _ => rfl) p q

/-! ### The release at a tile (R149, R159) -/

theorem State.parts_slotDue (s : State) (p t : Nat) (o : EngOp) : (s.slotDue p t o).parts = s.parts := by
  unfold State.slotDue
  dsimp only
  split
  · split <;> rfl
  · split <;> rfl
  all_goals rfl

/-- Queued transfers get their times, and no partition changes. -/
theorem State.parts_slotsDue (os : List EngOp) (s : State) (p t : Nat) : (os.foldl (fun s o => s.slotDue p t o) s).parts = s.parts :=
  foldl_keeps State.parts _ (fun s o => s.parts_slotDue p t o) os s

/-- A tile that the release has reached. -/
def Tile.release (T : Tile) : Tile := { T with released := true }

section
variable {s : State} {p k S : Nat} (hS : (s.part p).exchS = some S) (hr : ((s.part p).tile k).released = false) (hskew : (s.part p).exchSkew = false)
  (hd : (s.part p).decision = none) (hin : (s.part p).inSpan k = true)
include hS hr hskew hd hin

theorem releaseTile_eq : releaseTile s p k = (s.ops.filter fun o => o.live && o.ofTile p k).foldl (fun s o => s.slotDue p k o)
    (if !(s.part p).byTag && decide (S ≤ s.ptime.toNat) then
      (match (List.range ((s.part p).tile k).threads.length).find? fun i => (((s.part p).tile k).thread i).xsynced with
      | some i => (s.modTile p k Tile.release).lateAt p k i (((s.part p).tile k).thread i).unit
      | none => s.modTile p k Tile.release)
    else s.modTile p k Tile.release) := by
  unfold releaseTile
  dsimp only
  rw [hS, hr, hd, hskew, hin]
  rfl

/-- A release before the start time. -/
theorem releaseTile_early (ht : s.ptime.toNat < S) : (releaseTile s p k).parts = (s.modTile p k Tile.release).parts := by
  rw [releaseTile_eq hS hr hskew hd hin, State.parts_slotsDue, decide_eq_false (Nat.not_le.2 ht), Bool.and_false, if_neg (by decide)]

/-- A release at the start time or later raises LATE on the lowest thread that executed `xsync` (R159). -/
theorem releaseTile_late (hb : (s.part p).byTag = false) (ht : S ≤ s.ptime.toNat) {i : Nat} (hi : i < ((s.part p).tile k).threads.length)
    (hx : (((s.part p).tile k).thread i).xsynced = true) (hfirst : ∀ j, j < i → (((s.part p).tile k).thread j).xsynced = false) :
    (releaseTile s p k).parts = ((s.modTile p k Tile.release).lateAt p k i (((s.part p).tile k).thread i).unit).parts := by
  have hfind : (List.range ((s.part p).tile k).threads.length).find? (fun i => (((s.part p).tile k).thread i).xsynced) = some i := by
    rw [List.find?_range_eq_some]
    exact ⟨hx, List.mem_range.2 hi, fun j hj => by rw [hfirst j hj]; rfl⟩
  rw [releaseTile_eq hS hr hskew hd hin, State.parts_slotsDue, hb, decide_eq_true ht, hfind, if_pos (by decide)]

end

end Sys2Proof.Machine

namespace Sys2Proof.Proofs

open Sys2Proof Sys2Proof.Machine Sys2Proof.Claims

/-- The last tile has come in a package with none above it: the start time is set and the release goes out (R149). -/
theorem exchangeStarts {s : State} {p k : Nat} (hp : p < s.parts.length) (hk : k < (s.part p).tiles.length)
    (hall : ∀ j ∈ (s.part p).spanTiles, j ≠ k → ((s.part p).tile j).barrier = true) (hS : (s.part p).exchS = none) (hneed : s.exchangeNeeded p = true)
    (hkids : ∀ j ∈ s.downPorts p, j ∈ (s.part p).xbar.kids) (hup : s.upPort p = none) :
    let t := (s.raised p k).startExchange p
    ∃ S, (t.part p).exchS = some S ∧ s.ptime.toNat + (s.part p).lead ≤ S ∧ (s.part p).xbar.latest + (s.part p).lead ≤ S ∧
      ((∀ x ∈ s.ports.toList, x.pausedUntil ≤ s.cycle) → S = max (s.part p).xbar.latest s.ptime.toNat + (s.part p).lead) ∧
      (t.part p).exchSkew = (s.timing.skew || (s.part p).xbar.skewf) ∧
      (∀ j, j < 40 → (s.downPorts p).count j = 1 → ∃ x, (t.port j).queue = enqueueFlit (s.port j).queue ⟨0, p, x, false⟩) ∧
      ∀ j ∈ (s.part p).spanTiles, ⟨s.cycle + Config.releaseCycles, .exchangeRelease, { p := p, t := j }⟩ ∈ t.agenda := by
  have hpart := State.part_raised hp k
  have hlen : p < (s.raised p k).parts.length := by simpa [State.raised, State.modTile] using hp
  have hdue := State.exchangeDue_raised_last hp k hk hall hS hneed hkids (by rw [hup]; exact nofun)
  have hbar : ((s.raised p k).part p).xbar.latest + ((s.raised p k).part p).lead = max (s.part p).xbar.latest s.ptime.toNat + (s.part p).lead := by
    rw [hpart]
    rfl
  have hskew : ((s.raised p k).timing.skew || ((s.raised p k).part p).xbar.skewf) = (s.timing.skew || (s.part p).xbar.skewf) := by
    rw [hpart]
    rfl
  have hports (j : Nat) : (s.raised p k).port j = s.port j := rfl
  have hcycle : (s.raised p k).cycle = s.cycle := rfl
  have hstart := State.startExchange_root hdue ((State.upPort_raised hp k).trans hup)
  rw [hbar, hskew] at hstart
  have hle := (s.raised p k).le_portsFree p (max (s.part p).xbar.latest s.ptime.toNat + (s.part p).lead)
  have hsteady (h : ∀ x ∈ s.ports.toList, x.pausedUntil ≤ s.cycle) := State.portsFree_of_steady (s := s.raised p k) h p
    (max (s.part p).xbar.latest s.ptime.toNat + (s.part p).lead)
  generalize (s.raised p k).portsFree p (max (s.part p).xbar.latest s.ptime.toNat + (s.part p).lead) = S at hstart hle hsteady
  obtain ⟨h1, h2, h3⟩ := (s.raised p k).exchRelease_spec hlen S (s.timing.skew || (s.part p).xbar.skewf)
  simp only [State.downPorts_raised hp k, hports] at h2
  rw [State.spanTiles_raised hp k, hcycle] at h3
  intro t
  change ∃ S, (((s.raised p k).startExchange p).part p).exchS = some S ∧ _
  rw [← hstart] at h1 h2 h3
  exact ⟨S, congrArg Partition.exchS h1, by omega, by omega, hsteady, congrArg Partition.exchSkew h1, h2, h3⟩

/-- The last tile has come in a package below another: one message goes up, and no start time is set (R41). -/
theorem exchangeGoesUp {s : State} {p k j : Nat} (hp : p < s.parts.length) (hk : k < (s.part p).tiles.length)
    (hall : ∀ j ∈ (s.part p).spanTiles, j ≠ k → ((s.part p).tile j).barrier = true) (hS : (s.part p).exchS = none) (hneed : s.exchangeNeeded p = true)
    (hkids : ∀ j ∈ s.downPorts p, j ∈ (s.part p).xbar.kids) (hup : s.upPort p = some j) (hj : j < 40) (hsent : (s.part p).xbar.sent = false) :
    (((s.raised p k).startExchange p).part p).exchS = none ∧ (((s.raised p k).startExchange p).part p).xbar.sent = true ∧
      ∃ x, (((s.raised p k).startExchange p).port j).queue = enqueueFlit (s.port j).queue ⟨0, p, x, false⟩ := by
  have hlen : p < (s.raised p k).parts.length := by simpa [State.raised, State.modTile] using hp
  have hdue := State.exchangeDue_raised_last hp k hk hall hS hneed hkids fun _ => hsent
  obtain ⟨bs, hstart⟩ := State.startExchange_up hdue ((State.upPort_raised hp k).trans hup)
  have hpart : (((s.raised p k).modPart p Partition.sendsUp).sendFlit j 0 p bs).part p = ((s.raised p k).part p).sendsUp := by
    rw [State.part, State.sendFlit, State.modPort_parts]
    exact (s.raised p k).part_modPart p Partition.sendsUp hlen
  have hqueue := State.queue_sendFlit ((s.raised p k).modPart p Partition.sendsUp) 0 p bs hj
  rw [hstart]
  refine ⟨(congrArg Partition.exchS hpart).trans ?_, (congrArg (·.xbar.sent) hpart).trans rfl, bs, hqueue⟩
  exact (congrArg Partition.exchS (State.part_raised hp k)).trans hS

theorem exchangeBarriers : ExchangeBarriers := by
  intro s p k P hp hk
  refine ⟨fun hat hb => ?_, fun S hS hr hskew hd hin ht => ?_, fun S i hS hbt hr hskew hd hin ht hi hi8 hx hfirst hmode => ?_, fun h => ?_⟩
  · have hexec : exec .exchangeBarrier s = .next ((s.raised p k).startExchange p) := congrArg Host.Outcome.next (raiseBarrier_raises hat hb)
    have hpart := State.part_raised hp k
    have hlen : p < (s.raised p k).parts.length := by simpa [State.raised, State.modTile] using hp
    refine ⟨_, hexec, ?_, fun ⟨j, hj, hjk, hno⟩ => ?_, fun hall hS hneed hkids => ⟨fun hup => ?_, fun j hup hj hsent => ?_⟩⟩
    · have htiles := (s.raised p k).startExchange_tiles p p
      have htile : (((s.raised p k).startExchange p).part p).tile k = ((s.raised p k).part p).tile k := congrArg (·.getD k Tile.zero) htiles
      exact (congrArg Tile.barrier htile).trans ((State.barrier_raised hp k hk k).trans (if_pos rfl))
    · have hnot : (s.raised p k).startExchange p = s.raised p k := if_pos (by rw [State.exchangeDue_raised_early hp k hk hj hjk hno]; rfl)
      rw [hnot, hpart]
      rfl
    · exact exchangeStarts hp hk hall hS hneed hkids hup
    · exact exchangeGoesUp hp hk hall hS hneed hkids hup hj hsent
  · have hparts := releaseTile_early hS hr hskew hd hin ht
    have htile : ((releaseTile s p k).part p).tile k = (P.tile k).release := by
      rw [State.part, hparts]
      exact (congrArg (Partition.tile · k) (s.part_modPart p _ hp)).trans (P.tile_modTile _ hk)
    exact ⟨_, rfl, by rw [htile]; rfl, by rw [htile]; rfl⟩
  · have hparts := releaseTile_late hS hr hskew hd hin hbt ht hi hx hfirst
    have hu : (s.modTile p k Tile.release).part p = P.modTile k Tile.release := s.part_modPart p _ hp
    have htile : ((s.modTile p k Tile.release).part p).tile k = (P.tile k).release := by
      rw [hu]
      exact P.tile_modTile _ hk
    have hafter : ((releaseTile s p k).part p).tile k =
        ((trapTile (s.modTile p k Tile.release) p k i .late (BitVec.ofNat 64 P.lead) (((s.part p).tile k).thread i).unit 0).part p).tile k := by
      rw [State.part, hparts, State.lateAt, hu]
      rfl
    obtain ⟨hf, hrel, hcause, hdet⟩ := trapTile_task (s := s.modTile p k Tile.release) (p := p) (k := k) (i := i) (by rw [hu]; simpa using hk) (by rw [htile]; exact hi)
      (by rw [htile]; exact hmode) (cause := .late) (by decide) (BitVec.ofNat 64 P.lead) (((s.part p).tile k).thread i).unit 0
    rw [← hafter, htile] at hf hrel
    rw [← hafter] at hcause hdet
    exact ⟨_, rfl, hrel, hf, hcause, hdet⟩
  · refine congrArg Host.Outcome.next (?_ : releaseTile s p k = s)
    unfold releaseTile
    dsimp only
    cases hS : (s.part p).exchS with
    | none => rfl
    | some S =>
      have : ((s.part p).tile k).released = true ∨ (s.part p).decision.isSome = true := by
        rcases h with h | h | h
        · rw [show (s.part p).exchS = none from h] at hS
          cases hS
        · exact .inl h
        · exact .inr h
      exact if_pos this

end Sys2Proof.Proofs
end

section
/-!
SUPPORT. What the buffers of a tile read after the writes of operations, and what leaves every memory as it is (spec/05 R107; spec/06 R127).
-/

namespace Sys2Proof.Machine

/-! ### Bytes laid over bytes -/

theorem overlay_of_disjoint {a start : Nat} {bs data : List Byte} (h : start + data.length ≤ a ∨ a + bs.length ≤ start) : overlay a bs start data = bs :=
  if_pos h

theorem overlay_whole {a : Nat} {bs data : List Byte} (h : data.length = bs.length) : overlay a bs a data = data := by
  unfold overlay
  by_cases h0 : data.length = 0
  · rw [if_pos (.inl (by omega)), List.eq_nil_of_length_eq_zero h0]
    exact List.eq_nil_of_length_eq_zero (h.symm.trans h0)
  · rw [if_neg (by omega), if_pos (Nat.le_refl a)]
    have htake : a + bs.length - a = data.length := by omega
    have hdrop : a - a + data.length = bs.length := by omega
    rw [htake, hdrop, Nat.sub_self, List.take_zero, List.nil_append, List.take_length, List.drop_length, List.append_nil]

theorem overlay_nil (a start : Nat) (bs : List Byte) : overlay a bs start [] = bs := by
  unfold overlay
  by_cases h : start + ([] : List Byte).length ≤ a ∨ a + bs.length ≤ start
  · rw [if_pos h]
  · rw [if_neg h, if_pos (by rw [List.length_nil] at h; omega)]
    simp

@[simp] theorem length_overlay (a start : Nat) (bs data : List Byte) : (overlay a bs start data).length = bs.length := by
  unfold overlay
  by_cases h : start + data.length ≤ a ∨ a + bs.length ≤ start
  · rw [if_pos h]
  rw [if_neg h]
  by_cases h2 : a ≤ start
  · rw [if_pos h2]
    simp only [List.length_append, List.length_take, List.length_drop]
    omega
  · rw [if_neg h2]
    simp only [List.length_append, List.length_take, List.length_drop]
    omega

/-! ### Reads of a tile's buffers -/

/-- A latent write laid over the bytes read so far, where it is of the buffer. -/
def WRec.over (b : Buf) (a : Nat) (bs : List Byte) (w : WRec) : List Byte := if w.buf = some b then overlay a bs w.loc.addr w.data else bs

theorem WRec.length_over (b : Buf) (a : Nat) (bs : List Byte) (w : WRec) : (w.over b a bs).length = bs.length := by
  unfold WRec.over
  split
  · exact length_overlay _ _ _ _
  · rfl

theorem Tile.readIn_eq (T : Tile) (b : Buf) (a n : Nat) : T.readIn b a n = T.latent.foldl (fun bs w => w.over b a bs) ((T.buf b).readRun a n) := rfl

@[simp] theorem Tile.length_readIn (T : Tile) (b : Buf) (a n : Nat) : (T.readIn b a n).length = n := by
  rw [T.readIn_eq, foldl_keeps List.length _ fun bs (w : WRec) => w.length_over b a bs]
  exact Memory.length_readRun _ _ _

@[simp] theorem Tile.length_readBuf (T : Tile) (b : Buf) (a n : Nat) : (T.readBuf b a n).length = n := by
  unfold Tile.readBuf
  simp only [List.length_append, Tile.length_readIn, List.length_replicate]
  omega

/-- The part of a tile that its buffers' reads depend on. -/
def Tile.mem (T : Tile) : Memory × Memory × Memory × List WRec := (T.w, T.a, T.c, T.latent)

theorem Tile.readBuf_of_mem {T U : Tile} (h : T.mem = U.mem) (b : Buf) (a n : Nat) : T.readBuf b a n = U.readBuf b a n := by
  obtain ⟨hw, h⟩ := Prod.mk.inj h
  obtain ⟨ha, h⟩ := Prod.mk.inj h
  obtain ⟨hc, hl⟩ := Prod.mk.inj h
  have hbuf : T.buf b = U.buf b := by cases b <;> assumption
  rw [Tile.readBuf, Tile.readBuf, Tile.readIn, Tile.readIn, hl, hbuf]

theorem Tile.readIn_writeLatent (T : Tile) (b : Buf) (w : WRec) (b2 : Buf) (x n : Nat) :
    (T.writeLatent b w).readIn b2 x n = if b2 = b then overlay x (T.readIn b2 x n) w.loc.addr (w.data.take (Config.bufSize b - w.loc.addr)) else T.readIn b2 x n := by
  unfold Tile.writeLatent
  dsimp only
  by_cases h : w.data.take (Config.bufSize b - w.loc.addr) = []
  · rw [if_pos h, h, overlay_nil, ite_self]
  · have hmem : (T.latent ++ [{ w with buf := some b, data := w.data.take (Config.bufSize b - w.loc.addr) }]).foldl (fun bs (v : WRec) => v.over b2 x bs) ((T.buf b2).readRun x n) =
        WRec.over b2 x (T.readIn b2 x n) { w with buf := some b, data := w.data.take (Config.bufSize b - w.loc.addr) } := by
      rw [List.foldl_append]
      rfl
    rw [if_neg h]
    refine (hmem :).trans ?_
    unfold WRec.over
    simp only [Option.some.injEq, eq_comm]

/-- Bytes that a write does not reach. -/
theorem Tile.readBuf_writeLatent_of_disjoint (T : Tile) {b b2 : Buf} {w : WRec} {x n : Nat} (h : b2 ≠ b ∨ x + n ≤ w.loc.addr ∨ w.loc.addr + w.data.length ≤ x) :
    (T.writeLatent b w).readBuf b2 x n = T.readBuf b2 x n := by
  unfold Tile.readBuf
  dsimp only
  rw [T.readIn_writeLatent]
  by_cases hb : b2 = b
  · have hd := h.resolve_left fun hne => hne hb
    rw [if_pos hb, overlay_of_disjoint]
    rw [List.length_take, Tile.length_readIn]
    omega
  · rw [if_neg hb]

/-- The bytes of a write inside its buffer. -/
theorem Tile.readBuf_writeLatent (T : Tile) {b : Buf} {w : WRec} (h : w.loc.addr + w.data.length ≤ Config.bufSize b) :
    (T.writeLatent b w).readBuf b w.loc.addr w.data.length = w.data := by
  have hk : min w.data.length (Config.bufSize b - w.loc.addr) = w.data.length := by omega
  have htake : w.data.take (Config.bufSize b - w.loc.addr) = w.data := List.take_of_length_le (by omega)
  unfold Tile.readBuf
  dsimp only
  rw [hk, T.readIn_writeLatent, if_pos rfl, htake, overlay_whole (by simp), Nat.sub_self]
  simp

/-! ### Steps that leave memory alone -/

/-- The memories besides the tiles' buffers. -/
def State.main (s : State) : Memory × Memory × Memory × Memory × (Nat → Memory) := (s.hbm, s.host, s.flash, s.boot.mbox, fun d => (s.ctrl d).sram)

/-- What every read of a tile's buffer depends on. -/
def State.bufs (s : State) : List (List (Memory × Memory × Memory × List WRec)) := s.parts.map fun P => P.tiles.map Tile.mem

theorem State.sameMain_of_main {s t : State} (h : t.main = s.main) : s.SameMain t := by
  obtain ⟨h1, h⟩ := Prod.mk.inj h
  obtain ⟨h2, h⟩ := Prod.mk.inj h
  obtain ⟨h3, h⟩ := Prod.mk.inj h
  obtain ⟨h4, h5⟩ := Prod.mk.inj h
  exact ⟨fun a => by rw [h1], fun a => by rw [h2], fun a => by rw [h3], fun a => by rw [h4], fun d a => congrArg (·.read a) (congrFun h5 d)⟩

theorem State.mem_tile (s : State) (p k : Nat) : (s.tile p k).mem = (s.bufs.getD p []).getD k Tile.zero.mem := by
  have hpart : (s.part p).tiles.map Tile.mem = s.bufs.getD p [] := by
    simp only [State.part, State.bufs, List.getD_eq_getElem?_getD, List.getElem?_map]
    cases s.parts[p]? <;> rfl
  rw [← hpart, State.tile, Partition.tile]
  simp only [List.getD_eq_getElem?_getD, List.getElem?_map]
  cases (s.part p).tiles[k]? <;> rfl

theorem State.mem_tile_of_bufs {s t : State} (h : t.bufs = s.bufs) (p k : Nat) : (t.tile p k).mem = (s.tile p k).mem := by
  rw [t.mem_tile, h, s.mem_tile]

theorem State.readBuf_of_bufs {s t : State} (h : t.bufs = s.bufs) (p k : Nat) (b : Buf) (a n : Nat) : (t.tile p k).readBuf b a n = (s.tile p k).readBuf b a n :=
  Tile.readBuf_of_mem (State.mem_tile_of_bufs h p k) b a n

theorem State.sameBufs_of_bufs {s t : State} (h : t.bufs = s.bufs) : s.SameBufs t := fun p k b a => State.readBuf_of_bufs h p k b a 1

theorem State.sameBytes_of {s t : State} (hm : t.main = s.main) (hb : t.bufs = s.bufs) : s.SameBytes t := ⟨State.sameMain_of_main hm, State.sameBufs_of_bufs hb⟩

theorem State.bufs_modPart (s : State) (p : Nat) (f : Partition → Partition) (h : ∀ P, (f P).tiles.map Tile.mem = P.tiles.map Tile.mem) :
    (s.modPart p f).bufs = s.bufs := by
  refine List.ext_getElem? fun i => ?_
  simp only [State.bufs, State.modPart, List.getElem?_map, List.getElem?_modify]
  cases s.parts[i]? <;> by_cases e : p = i <;> simp [e, h]

theorem State.bufs_modTile (s : State) (p k : Nat) (f : Tile → Tile) (h : ∀ T, (f T).mem = T.mem) : (s.modTile p k f).bufs = s.bufs := by
  refine s.bufs_modPart p _ fun P => List.ext_getElem? fun i => ?_
  simp only [Partition.modTile, List.getElem?_map, List.getElem?_modify]
  cases P.tiles[i]? <;> by_cases e : k = i <;> simp [e, h]

@[simp] theorem State.bufs_modThread (s : State) (a : Agent) (i : Nat) (f : Thread → Thread) : (s.modThread a i f).bufs = s.bufs := by
  cases a with
  | tile p k => exact s.bufs_modTile p k _ fun _ => rfl
  | ctrl d =>
    simp only [State.modThread, State.modCtrl]
    split <;> rfl

@[simp] theorem State.main_modPart (s : State) (p : Nat) (f : Partition → Partition) : (s.modPart p f).main = s.main := rfl
@[simp] theorem State.main_modTile (s : State) (p k : Nat) (f : Tile → Tile) : (s.modTile p k f).main = s.main := rfl

theorem State.sram_modCtrl (s : State) (d : Nat) (f : Ctrl → Ctrl) (h : ∀ c, (f c).sram = c.sram) (e : Nat) : ((s.modCtrl d f).ctrl e).sram = (s.ctrl e).sram := by
  unfold State.modCtrl
  split
  · next hd =>
    simp only [State.ctrl]
    by_cases he : e < 4
    · rw [vector_getD_set _ _ _ _ _ hd, vector_getD _ _ _ he]
      by_cases hed : e = d
      · subst hed
        rw [if_pos rfl, h]
      · rw [if_neg hed, ← vector_getD s.ctrls e Ctrl.zero he]
    · rw [List.getD_eq_getElem?_getD, List.getD_eq_getElem?_getD, List.getElem?_eq_none (by simpa using he), List.getElem?_eq_none (by simpa using he)]
  · rfl

@[simp] theorem State.main_modThread (s : State) (a : Agent) (i : Nat) (f : Thread → Thread) : (s.modThread a i f).main = s.main := by
  cases a with
  | tile p k => rfl
  | ctrl d =>
    have hframe : (s.modCtrl d fun c => { c with th := f c.th }).main =
        (s.hbm, s.host, s.flash, s.boot.mbox, fun e => ((s.modCtrl d fun c => { c with th := f c.th }).ctrl e).sram) := by
      unfold State.modCtrl
      split <;> rfl
    exact hframe.trans (by simp only [State.sram_modCtrl s d (fun c => { c with th := f c.th }) fun _ => rfl]; rfl)

@[simp] theorem State.bufs_modOp (s : State) (id : Nat) (f : EngOp → EngOp) : (s.modOp id f).bufs = s.bufs := rfl
@[simp] theorem State.main_modOp (s : State) (id : Nat) (f : EngOp → EngOp) : (s.modOp id f).main = s.main := rfl

@[simp] theorem State.bufs_opDone (s : State) (id : Nat) (fl : Byte) : (s.opDone id fl).bufs = s.bufs := by
  unfold State.opDone
  split
  · rfl
  · rw [State.bufs_modThread, State.bufs_modOp]

@[simp] theorem State.main_opDone (s : State) (id : Nat) (fl : Byte) : (s.opDone id fl).main = s.main := by
  unfold State.opDone
  split
  · rfl
  · rw [State.main_modThread, State.main_modOp]

/-! ### Writes of operations (R107) -/

@[simp] theorem State.main_opWrite (s : State) (o : EngOp) (cls : WClass) (q p k : Nat) (b : Buf) (a : Nat) (data : List Byte) :
    (s.opWrite o cls q p k b a data).main = s.main := rfl

theorem State.tile_opWrite_ne (s : State) (o : EngOp) (cls : WClass) (q p k : Nat) (b : Buf) (a : Nat) (data : List Byte) {p2 k2 : Nat} (h : p2 ≠ p ∨ k2 ≠ k) :
    (s.opWrite o cls q p k b a data).tile p2 k2 = s.tile p2 k2 := by
  change ((s.modPart p fun P => P.modTile k _).part p2).tile k2 = _
  by_cases e : p2 = p
  · subst e
    exact s.modPart_keeps (Partition.tile · k2) (fun P => P.modTile k _) (fun P => P.tile_modTile_ne _ (h.resolve_left fun hn => hn rfl)) p2 p2
  · rw [s.part_modPart_ne _ e]
    rfl

/-- The record of an operation's write. -/
def EngOp.write (o : EngOp) (cls : WClass) (q : Nat) (b : Buf) (a : Nat) (data : List Byte) : WRec :=
  { id := o.id, cls := cls, q := q, ltile := o.ltile, th := o.th, seq := o.seq, hb := o.hb, buf := some b, loc := ⟨false, a⟩, data := data }

theorem State.tile_opWrite (s : State) (o : EngOp) (cls : WClass) (q p k : Nat) (b : Buf) (a : Nat) (data : List Byte) (hk : k < (s.part p).tiles.length) :
    (s.opWrite o cls q p k b a data).tile p k = (s.tile p k).writeLatent b (o.write cls q b a data) := by
  have hpart := s.part_modPart p (fun P => P.modTile k fun T => T.writeLatent b (o.write cls q b a data)) (State.lt_of_tile hk)
  exact (congrArg (Partition.tile · k) hpart).trans ((s.part p).tile_modTile _ hk)

theorem State.tiles_opWrite (s : State) (o : EngOp) (cls : WClass) (q p k : Nat) (b : Buf) (a : Nat) (data : List Byte) (p2 : Nat) :
    ((s.opWrite o cls q p k b a data).part p2).tiles.length = (s.part p2).tiles.length :=
  s.modPart_keeps (fun P => P.tiles.length) (fun P => P.modTile k _) (fun P => P.length_tiles_modTile k _) p p2

/-- Bytes that an operation's write does not reach. -/
theorem State.readBuf_opWrite_of_disjoint (s : State) (o : EngOp) (cls : WClass) (q p k : Nat) (b : Buf) (a : Nat) (data : List Byte) {p2 k2 : Nat} {b2 : Buf} {x n : Nat}
    (h : p2 ≠ p ∨ k2 ≠ k ∨ b2 ≠ b ∨ x + n ≤ a ∨ a + data.length ≤ x) :
    ((s.opWrite o cls q p k b a data).tile p2 k2).readBuf b2 x n = (s.tile p2 k2).readBuf b2 x n := by
  by_cases ht : p2 ≠ p ∨ k2 ≠ k
  · rw [s.tile_opWrite_ne o cls q p k b a data ht]
  · rw [not_or, not_not, not_not] at ht
    obtain ⟨rfl, rfl⟩ := ht
    have hd : b2 ≠ b ∨ x + n ≤ a ∨ a + data.length ≤ x := by
      rcases h with h | h | h
      · exact absurd rfl h
      · exact absurd rfl h
      · exact h
    by_cases hk : k2 < (s.part p2).tiles.length
    · rw [s.tile_opWrite o cls q p2 k2 b a data hk]
      exact Tile.readBuf_writeLatent_of_disjoint _ hd
    · have hzero (u : State) (hu : (u.part p2).tiles.length = (s.part p2).tiles.length) : u.tile p2 k2 = Tile.zero := by
        rw [State.tile, Partition.tile, List.getD_eq_getElem?_getD, List.getElem?_eq_none (by omega)]
        rfl
      rw [hzero _ (s.tiles_opWrite o cls q p2 k2 b a data p2), hzero s rfl]

/-- The bytes of an operation's write inside its buffer. -/
theorem State.readBuf_opWrite (s : State) (o : EngOp) (cls : WClass) (q p k : Nat) (b : Buf) (a : Nat) (data : List Byte) (hk : k < (s.part p).tiles.length)
    (h : a + data.length ≤ Config.bufSize b) : ((s.opWrite o cls q p k b a data).tile p k).readBuf b a data.length = data := by
  rw [s.tile_opWrite o cls q p k b a data hk]
  exact Tile.readBuf_writeLatent (w := o.write cls q b a data) _ h

/-! ### Elements of a run of bytes -/

theorem leBytes_leNat (bs : List Byte) : leBytes bs.length (leNat bs) = bs := by
  induction bs with
  | nil => rfl
  | cons b bs ih =>
    rw [List.length_cons, leNat, leBytes]
    have hb : BitVec.ofNat 8 (b.toNat + 256 * leNat bs) = b := by
      apply BitVec.eq_of_toNat_eq
      rw [BitVec.toNat_ofNat]
      omega
    have hq : (b.toNat + 256 * leNat bs) / 256 = leNat bs := by
      have := b.isLt
      omega
    rw [hb, hq, ih]

/-- The elements of a whole number of elements' bytes give the bytes again. -/
theorem bytesOf_elemsOf {e : Nat} (he : 0 < e) (m : Nat) {bs : List Byte} (h : bs.length = e * m) : bytesOf e (elemsOf e bs) = bs := by
  have hdiv : bs.length / e = m := by rw [h, Nat.mul_div_cancel_left _ he]
  rw [bytesOf, elemsOf, List.flatMap_map, hdiv]
  clear hdiv
  induction m generalizing bs with
  | zero => exact (List.eq_nil_of_length_eq_zero h).symm
  | succ m ih =>
    have hlen : bs.length = e + e * m := by rw [h, Nat.mul_succ, Nat.add_comm]
    have hhead : leBytes e (leNat (bytesAt bs (e * 0) e)) = bs.take e := by
      have htake : (bs.take e).length = e := by rw [List.length_take]; omega
      have := leBytes_leNat (bs.take e)
      rwa [htake] at this
    have hnext (i : Nat) : bytesAt bs (e * (i + 1)) e = bytesAt (bs.drop e) (e * i) e := by
      rw [bytesAt, bytesAt, List.drop_drop, Nat.mul_succ, Nat.add_comm]
    have hrest : (bs.drop e).length = e * m := by rw [List.length_drop]; omega
    rw [List.range_succ_eq_map, List.flatMap_cons, List.flatMap_map, hhead]
    simp only [Nat.succ_eq_add_one, hnext]
    rw [ih hrest, List.take_append_drop]

end Sys2Proof.Machine
end

section
/-!
PROOF of O52, concluded: transfers and the data that land (spec/08 R152, R154, R155, R158), and the claim.
-/

namespace Sys2Proof.Machine

/-! ### What a thread's record and a completion leave of a partition -/

section
variable {β : Type} (g : Partition → β) (ht : ∀ P t f, g (Partition.modTile P t f) = g P)
include ht

theorem State.modThread_keeps (s : State) (a : Agent) (i : Nat) (f : Thread → Thread) (q : Nat) : g ((s.modThread a i f).part q) = g (s.part q) := by
  cases a with
  | tile p k => exact s.modPart_keeps g (fun P => P.modTile k _) (fun P => ht P k _) p q
  | ctrl d =>
    simp only [State.modThread, State.modCtrl]
    split <;> rfl

theorem State.opDone_keeps (s : State) (id : Nat) (fl : Byte) (q : Nat) : g ((s.opDone id fl).part q) = g (s.part q) := by
  unfold State.opDone
  split
  · rfl
  · exact State.modThread_keeps g ht _ _ _ _ q

end

theorem State.cycle_opDone (s : State) (id : Nat) (fl : Byte) : (s.opDone id fl).cycle = s.cycle := by
  unfold State.opDone
  split
  · rfl
  · rw [State.modThread_cycle]
    rfl

theorem State.op?_modThread (s : State) (a : Agent) (i : Nat) (f : Thread → Thread) (id : Nat) : (s.modThread a i f).op? id = s.op? id :=
  State.op?_congr (State.ops_of_core (s.core_modThread a i f)) id

/-! ### Data on their way (R154, R155) -/

/-- Two data that need one link in one slot (R155). -/
def Datum.clashes (d x : Datum) : Bool := decide (x.slot = d.slot) && x.links.any fun l => d.links.contains l

theorem Datum.clashes_iff (d x : Datum) : d.clashes x = true ↔ x.slot = d.slot ∧ ∃ l ∈ x.links, l ∈ d.links := by
  simp [Datum.clashes]

theorem Partition.flight_fly {P : Partition} (hb : P.byTag = false) (d : Datum) : (P.fly d).flight =
    (P.flight.map fun x => if d.clashes x then { x with lost := true } else x) ++ [{ d with lost := d.lost || P.flight.any d.clashes }] := by
  unfold Partition.fly
  rw [hb]
  rfl

theorem Partition.flight_fly_alone {P : Partition} (hb : P.byTag = false) {d : Datum} (hd : d.lost = false)
    (h : ∀ x ∈ P.flight, x.slot ≠ d.slot ∨ ∀ l ∈ x.links, l ∉ d.links) : (P.fly d).flight = P.flight ++ [d] := by
  have hno : ∀ x ∈ P.flight, d.clashes x = false := fun x hx => by
    rw [← Bool.not_eq_true, d.clashes_iff]
    rintro ⟨h1, l, h2, h3⟩
    rcases h x hx with h4 | h4
    · exact h4 h1
    · exact h4 l h2 h3
  have hmap : (P.flight.map fun x => if d.clashes x then { x with lost := true } else x) = P.flight := by
    refine (List.map_congr_left fun x hx => ?_).trans (List.map_id _)
    rw [hno x hx]
    rfl
  have hany : P.flight.any d.clashes = false := List.any_eq_false.2 fun x hx => by rw [hno x hx]; decide
  rw [Partition.flight_fly hb, hmap, hany, hd, Bool.or_false, ← hd]

theorem Partition.flight_fly_clash {P : Partition} (hb : P.byTag = false) {d x : Datum} (hx : x ∈ P.flight) (hs : x.slot = d.slot) (hl : ∃ l ∈ x.links, l ∈ d.links) :
    { x with lost := true } ∈ (P.fly d).flight ∧ ∃ y ∈ (P.fly d).flight, y.op = d.op ∧ y.lost = true := by
  have hc : d.clashes x = true := (d.clashes_iff x).2 ⟨hs, hl⟩
  have hany : P.flight.any d.clashes = true := List.any_eq_true.2 ⟨x, hx, hc⟩
  rw [Partition.flight_fly hb]
  refine ⟨List.mem_append_left _ (List.mem_map.2 ⟨x, hx, if_pos hc⟩), _, List.mem_append_right _ (List.mem_singleton_self _), rfl, ?_⟩
  dsimp only
  rw [hany, Bool.or_true]

/-! ### The slot of an `xmit` (R152, R154, R155) -/

section
variable {s : State} {o : EngOp} {p k S : Nat} (ho : s.op? s.arg.op = some o) (ha : o.agent = .tile p k) (hl : o.st ≠ .done) (hb : (s.part p).byTag = false)
  (hS : (s.part p).exchS = some S) {slot port dst : Nat} {links : List (Nat × Nat)} {b : Buf} {off : Nat} {f : Byte} {rest : Word}
  (hk : o.kind = .xmit slot port dst links b off f rest)
include ho ha hl hb hS hk

theorem sendDatum_early (ht : s.ptime.toNat < S + 8 * slot) :
    sendDatum s s.arg.op = s.schedule (S + 8 * slot - s.ptime.toNat) .xmitSlot { p := p, t := k, op := o.id } := by
  have hlive : o.live = true := decide_eq_true hl
  unfold sendDatum
  rw [ho]
  dsimp only
  rw [ha, hk]
  dsimp only
  rw [hlive, hb, hS, if_neg (by decide), if_pos (by rw [Option.getD_some, decide_eq_true ht]; rfl)]
  unfold State.slotDue
  rw [hk]
  dsimp only
  rw [hb, hS]
  rfl

/-- The datum that an `xmit` sends (R154). -/
def EngOp.datum (o : EngOp) (id : Nat) (s : State) (p k slot port dst : Nat) (links : List (Nat × Nat)) (b : Buf) (off : Nat) (f : Byte) (rest : Word) : Datum :=
  ⟨id, dst, slot + (s.part p).flightSlots, port, f, ((s.tile p k).seenAfter o.hb).readBuf b off 256, links, false, joinHb (s.part p).exchHb o.made, rest⟩

theorem sendDatum_sent (ht : S + 8 * slot ≤ s.ptime.toNat) : sendDatum s s.arg.op =
    (((s.modPart p fun P => P.fly (o.datum s.arg.op s p k slot port dst links b off f rest)).modThread (.tile p k) o.th (noteRuns (some (b, off, 4)) none 64)).opDone s.arg.op 0).schedule
      ((if 2048 ≤ dst then S + 8 * slot + 8 else S + 8 * (slot + (s.part p).flightSlots)) - s.ptime.toNat) .datumLanded { p := p, t := dst, op := s.arg.op } := by
  have hlive : o.live = true := decide_eq_true hl
  have hview : s.forkView o = (s.tile p k).seenAfter o.hb := by rw [State.forkView, ha]
  unfold sendDatum
  rw [ho]
  dsimp only
  rw [hview, ha, hk]
  dsimp only
  rw [hlive, hb, hS, if_neg (by decide), if_neg (by rw [Option.getD_some, decide_eq_false (Nat.not_lt.2 ht)]; decide)]
  rfl

end

/-! ### The slot of an `xsel` (R152, R158) -/

theorem elemSize_cases (f : Byte) : elemSize f = 1 ∨ elemSize f = 2 ∨ elemSize f = 4 ∨ elemSize f = 8 := by
  unfold elemSize
  split <;> simp

theorem elemSize_256 (f : Byte) : 0 < elemSize f ∧ ∃ m, 256 = elemSize f * m := by
  rcases elemSize_cases f with h | h | h | h
  · exact ⟨by omega, 256, by omega⟩
  · exact ⟨by omega, 128, by omega⟩
  · exact ⟨by omega, 64, by omega⟩
  · exact ⟨by omega, 32, by omega⟩

theorem convElem_same (rm : Rm) (f : Byte) (x : Nat) : (convElem rm f f x).bits = x := by
  rw [convElem, if_pos rfl]

/-- Elements placed in their own format are the bytes they came from. -/
theorem placed_same {f : Byte} (hf : bfpBits f = 0) (a : Nat) {bs : List Byte} (m : Nat) (h : bs.length = elemSize f * m) :
    (placed f a 0 (elemsOf (elemSize f) bs) f).1 = [(a, bs)] := by
  have hsize := (elemSize_256 f).1
  have hbits : ((elemsOf (elemSize f) bs).map fun x => (convElem .rne f f x).bits) = elemsOf (elemSize f) bs :=
    (List.map_congr_left fun x _ => convElem_same .rne f x).trans (List.map_id _)
  unfold placed
  rw [if_pos hf]
  dsimp only
  rw [List.map_map, Function.comp_def, hbits, bytesOf_elemsOf hsize m h, Nat.zero_mul, Nat.add_zero]

/-- A tile from which the landed data of an operation have been taken. -/
def Tile.dropLanded (op : Nat) (T : Tile) : Tile := { T with landed := T.landed.filter fun x => x.op ≠ op }

section
variable {s : State} {o : EngOp} {p k S : Nat} (ho : s.op? s.arg.op = some o) (ha : o.agent = .tile p k) (hl : o.st ≠ .done) (hb : (s.part p).byTag = false)
  (hS : (s.part p).exchS = some S) {slot port dst : Nat} (hk : o.kind = .xsel slot port dst) (ht : S + 8 * slot + 7 ≤ s.ptime.toNat)
include ho ha hl hb hS hk ht

/-- An `xsel` whose datum has not come (R158). -/
theorem takeSlot_none (hv : ((s.part p).tile k).voted = false) (hd : (s.part p).decision = none)
    (h : (((s.part p).tile k).landed.find? fun d => decide (d.slot = slot) && decide (d.port = port) && !d.lost) = none) :
    takeSlot s s.arg.op = trapTile (s.opDone s.arg.op 0) p k o.th .slip (slipDetail slot port) o.unit 0 := by
  have hlive : o.live = true := decide_eq_true hl
  unfold takeSlot
  rw [ho]
  dsimp only
  rw [ha, hk]
  dsimp only
  rw [hlive, hb, hS, if_neg (by decide), if_neg (by rw [Option.getD_some, decide_eq_false (Nat.not_lt.2 ht)]; decide), h]
  dsimp only
  rw [if_neg (by simp), if_neg (by rw [hv, hd]; simp)]

/-- An `xsel` whose datum has landed takes it (R152). -/
theorem takeSlot_some {d : Datum} (h7 : d.fmt ≠ 0x07)
    (h : (((s.part p).tile k).landed.find? fun d => decide (d.slot = slot) && decide (d.port = port) && !d.lost) = some d) :
    takeSlot s s.arg.op = (s.modTile p k (Tile.dropLanded d.op)).takeDatum o p k dst d := by
  have hlive : o.live = true := decide_eq_true hl
  unfold takeSlot
  rw [ho]
  dsimp only
  rw [ha, hk]
  dsimp only
  rw [hlive, hb, hS, if_neg (by decide), if_neg (by rw [Option.getD_some, decide_eq_false (Nat.not_lt.2 ht)]; decide), h]
  dsimp only
  rw [if_neg h7]
  rfl

end

/-- A datum taken into its destination in its own format: it is written in one run, and its operation is complete. -/
theorem State.takeDatum_same {s : State} {o : EngOp} (p k dst : Nat) (ho : s.op? o.id = some o) {d : Datum} (hfmt : d.fmt = (s.tile p k).fmtAt .a dst)
    (hbfp : bfpBits d.fmt = 0) (hlen : d.bytes.length = 256) : ∃ (x : EngOp) (t : State), s.takeDatum o p k dst d = t ∧ t.Over o.id ∧
      t.bufs = (s.opWrite x .engine 10 p k .a dst d.bytes).bufs := by
  obtain ⟨-, m, hm⟩ := elemSize_256 d.fmt
  have hrun := placed_same hbfp dst m (hlen.trans hm)
  unfold State.takeDatum
  dsimp only
  rw [← hfmt, hrun, List.foldl_cons, List.foldl_nil]
  refine ⟨{ o with hb := joinHb d.hb (joinHb (s.part p).exchHb o.hb) }, _, rfl,
    State.over_opDone (o := { o with hb := joinHb d.hb (joinHb (s.part p).exchHb o.hb) }) ?_ _, ?_⟩
  · rw [State.op?_modThread]
    exact State.op?_modOp_self ((State.op?_congr rfl o.id).trans ho) fun x => { x with hb := joinHb d.hb (joinHb (s.part p).exchHb o.hb) }
  · rw [State.bufs_opDone, State.bufs_modThread, State.bufs_modOp]

/-! ### Data that land (R154, R155, R158) -/

/-- Another datum for the same port of the same tile in the same slot. -/
def Datum.same (d x : Datum) : Bool := decide (x.tile = d.tile) && decide (x.slot = d.slot) && decide (x.port = d.port)

theorem Datum.same_iff (d x : Datum) : d.same x = true ↔ x.tile = d.tile ∧ x.slot = d.slot ∧ x.port = d.port := by
  simp [Datum.same, and_assoc]

/-- A partition whose datum of an operation has arrived. -/
def Partition.arrives (op : Nat) (P : Partition) : Partition := { P with flight := P.flight.filter fun x => x.op ≠ op }

theorem Partition.mem_flight_arrives {P : Partition} {op : Nat} {x : Datum} : x ∈ (P.arrives op).flight ↔ x ∈ P.flight ∧ x.op ≠ op := by
  simp [Partition.arrives]

/-- Another of the same data is on its way. -/
def State.rival (s : State) (p op : Nat) (d : Datum) : Bool := ((s.modPart p (Partition.arrives op)).part p).flight.any fun x => d.same x && !x.lost

theorem landDatum_flight {s : State} {p id : Nat} {d : Datum} (hd : (s.part p).flight.find? (fun d => d.op = id) = some d) (hb : (s.part p).byTag = false) :
    landDatum s p id = if 4096 ≤ d.tile then s.modPart p (Partition.arrives id)
      else if 2048 ≤ d.tile then leaveDatum s p d
      else if (s.part p).exchS.isNone then s.scheduleFree .transfer .datumLanded s.arg
      else if d.lost then (if (s.xselFor p d.tile d.slot d.port).isSome then s.modPart p (Partition.arrives id)
        else (s.modPart p (Partition.arrives id)).slipTile p d.tile d.slot d.port)
      else if s.rival p id d then (s.modPart p (Partition.arrives id)).modPart p fun P => P.modFlight fun x => if d.same x then { x with lost := true } else x
      else if (s.xselFor p d.tile d.slot d.port).isSome then (s.modPart p (Partition.arrives id)).modTile p d.tile fun T => { T with landed := T.landed ++ [d] }
      else (s.modPart p (Partition.arrives id)).slipTile p d.tile d.slot d.port := by
  unfold landDatum
  dsimp only
  rw [hd, hb]
  rfl

section
variable {s : State} {p id : Nat} (hp : p < s.parts.length) (d : Datum)
include hp

theorem State.part_arrives : (s.modPart p (Partition.arrives id)).part p = (s.part p).arrives id := s.part_modPart p _ hp

theorem State.rival_iff : s.rival p id d = true ↔ ∃ x ∈ (s.part p).flight, x.op ≠ id ∧ d.same x = true ∧ x.lost = false := by
  rw [State.rival, State.part_arrives hp, List.any_eq_true]
  simp only [Partition.mem_flight_arrives, Bool.and_eq_true, Bool.not_eq_true', and_assoc]

/-- SLIP for a datum that no `xsel` takes (R158). -/
theorem State.slipTile_arrives {i : Nat} (hv : ((s.part p).tile d.tile).voted = false) (hd : (s.part p).decision = none)
    (hr : ((s.part p).tile d.tile).raisers.head? = some i) (slot port : Nat) : (s.modPart p (Partition.arrives id)).slipTile p d.tile slot port =
      trapTile (s.modPart p (Partition.arrives id)) p d.tile i .slip (slipDetail slot port) (((s.part p).tile d.tile).thread i).unit 0 := by
  have htile : (s.modPart p (Partition.arrives id)).tile p d.tile = (s.part p).tile d.tile := s.tile_modPart_of_tiles p (Partition.arrives id) (fun _ => rfl) p d.tile
  have hdec : ((s.modPart p (Partition.arrives id)).part p).decision = none := by rw [State.part_arrives hp]; exact hd
  unfold State.slipTile
  rw [htile, hdec, if_neg (by rw [hv]; simp), hr]

end

/-- A datum that leaves the package marks its place, in its port's stead. -/
def Partition.leaves (d : Datum) (P : Partition) : Partition := P.modFlight fun x => if x.op = d.op then { x with tile := d.tile + 2048 } else x

/-- The machine with a datum sent by its port, unless it is lost. -/
def State.leavingPort (s : State) (p : Nat) (d : Datum) : State := if d.lost then s else s.sendFar p (d.tile - 2048) d

theorem leaveDatum_eq (s : State) (p : Nat) (d : Datum) : leaveDatum s p d =
    ((s.leavingPort p d).modPart p (Partition.leaves d)).schedule ((s.part p).exchS.getD 0 + 8 * d.slot - s.ptime.toNat)
      .datumLanded { p := p, t := d.tile + 2048, op := d.op } := rfl

/-- What one port takes of several flits. -/
theorem State.mem_queue_sendFlits (cls part : Nat) (bss : List (List Byte)) (s : State) {k : Nat} (hk : k < 40) (w : Waiting) :
    w ∈ ((bss.foldl (fun s b => s.sendFlit k cls part (b.take 240)) s).port k).queue ↔
      w ∈ (s.port k).queue ∨ ∃ b ∈ bss, w = ⟨cls, part, b.take 240, false⟩ := by
  induction bss generalizing s with
  | nil => simp
  | cons b bss ih =>
    rw [List.foldl_cons, ih, s.queue_sendFlit _ _ _ hk, mem_enqueueFlit]
    simp only [List.mem_cons, exists_eq_or_imp]
    tauto

/-- A datum that leaves goes into its port's queue in flits of class 2, and changes neither partitions nor what is due. -/
theorem State.sendFar_spec (s : State) (p k : Nat) (d : Datum) (hb : (s.part p).byTag = false) :
    (s.sendFar p k d).parts = s.parts ∧ (s.sendFar p k d).agenda = s.agenda ∧ (s.sendFar p k d).cycle = s.cycle ∧
      (k < 40 → ∀ w, w ∈ ((s.sendFar p k d).port k).queue ↔ w ∈ (s.port k).queue ∨
        ∃ b ∈ Config.slotPayload d.rest.toNat d.slot d.fmt d.bytes, w = ⟨2, p, b.take 240, false⟩) := by
  have heq : s.sendFar p k d = (Config.slotPayload d.rest.toNat d.slot d.fmt d.bytes).foldl (fun s b => s.sendFlit k 2 p (b.take 240)) s :=
    if_neg (by rw [hb]; decide)
  rw [heq]
  exact ⟨foldl_keeps State.parts _ (fun s b => s.modPort_parts k _) _ s, foldl_keeps State.agenda _ (fun s b => s.modPort_agenda k _) _ s,
    foldl_keeps State.cycle _ (fun s b => s.modPort_cycle k _) _ s, fun hk w => State.mem_queue_sendFlits 2 p _ s hk w⟩

theorem State.leavingPort_spec (s : State) (p : Nat) (d : Datum) (hb : (s.part p).byTag = false) :
    (s.leavingPort p d).parts = s.parts ∧ (s.leavingPort p d).agenda = s.agenda ∧ (s.leavingPort p d).cycle = s.cycle ∧
      (d.lost = true → (s.leavingPort p d).ports = s.ports) ∧
      (d.lost = false → d.tile - 2048 < 40 → ∀ w, w ∈ ((s.leavingPort p d).port (d.tile - 2048)).queue ↔ w ∈ (s.port (d.tile - 2048)).queue ∨
        ∃ b ∈ Config.slotPayload d.rest.toNat d.slot d.fmt d.bytes, w = ⟨2, p, b.take 240, false⟩) := by
  obtain ⟨hparts, hagenda, hcycle, hqueue⟩ := s.sendFar_spec p (d.tile - 2048) d hb
  unfold State.leavingPort
  split
  next h => exact ⟨rfl, rfl, rfl, fun _ => rfl, fun hf => by rw [h] at hf; cases hf⟩
  next h => exact ⟨hparts, hagenda, hcycle, fun ht => absurd ht h, fun _ => hqueue⟩

end Sys2Proof.Machine

namespace Sys2Proof.Proofs

open Sys2Proof Sys2Proof.Machine Sys2Proof.Claims

theorem transfersMoveData : TransfersMoveData := by
  intro s o p k ⟨ho, ha, hp, hk, hl⟩ P hb S hS
  have hid : o.id = s.arg.op := State.id_of_op? ho
  refine ⟨fun slot port dst links b off f rest hkind => ⟨fun ht => ?_, fun ht => ?_⟩, fun slot port dst hkind ht hnone hv hd => ?_,
    fun slot port dst d hkind ht hfind hfmt hbfp h7 hlen hsize => ?_⟩
  · have hx : exec .xmitSlot s = .next _ := congrArg Host.Outcome.next (sendDatum_early ho ha hl hb hS hkind ht)
    exact ⟨_, hx, rfl, rfl, _, List.mem_append_right _ (List.mem_singleton_self _), rfl, rfl, rfl⟩
  · have hx : exec .xmitSlot s = .next _ := congrArg Host.Outcome.next (sendDatum_sent ho ha hl hb hS hkind ht)
    let d := o.datum s.arg.op s p k slot port dst links b off f rest
    let u := (s.modPart p fun P => P.fly d).modThread (.tile p k) o.th (noteRuns (some (b, off, 4)) none 64)
    have hop : u.op? s.arg.op = some o := ((State.op?_modThread _ _ _ _ _).trans (State.op?_congr rfl _)).trans ho
    have hover : (u.opDone s.arg.op 0).Over s.arg.op := State.over_opDone hop 0
    have hflight : ((u.opDone s.arg.op 0).part p).flight = (P.fly d).flight :=
      (State.opDone_keeps Partition.flight (fun _ _ _ => rfl) u s.arg.op 0 p).trans
        ((State.modThread_keeps Partition.flight (fun _ _ _ => rfl) _ _ _ _ p).trans (congrArg Partition.flight (s.part_modPart p _ hp)))
    have hcycle : (u.opDone s.arg.op 0).cycle = s.cycle := by
      rw [State.cycle_opDone, State.modThread_cycle]
      rfl
    have hbufs : (u.opDone s.arg.op 0).bufs = s.bufs := by
      rw [State.bufs_opDone, State.bufs_modThread, s.bufs_modPart p (fun P => P.fly d) fun _ => rfl]
    have hmain : (u.opDone s.arg.op 0).main = s.main := by
      rw [State.main_opDone, State.main_modThread, State.main_modPart]
    refine ⟨_, hx, ?_, State.sameBytes_of hmain hbufs, ⟨_, List.mem_append_right _ (List.mem_singleton_self _), rfl, rfl, rfl, ?_⟩, fun halone => ?_,
      fun x hxf hs hlinks => ?_⟩
    · rw [hid]
      exact (hover.congr rfl).opDone
    · exact congrArg (· + _) hcycle
    · exact hflight.trans (Partition.flight_fly_alone hb (d := d) rfl halone)
    · obtain ⟨h1, y, hy, h2, h3⟩ := Partition.flight_fly_clash hb (d := d) hxf hs hlinks
      exact ⟨hflight ▸ h1, y, hflight ▸ hy, h2, h3⟩
  · exact congrArg Host.Outcome.next (takeSlot_none ho ha hl hb hS hkind ht hv hd hnone)
  · have hx : exec .xselSlot s = .next _ := congrArg Host.Outcome.next (takeSlot_some ho ha hl hb hS hkind ht h7 hfind)
    let s1 := s.modTile p k (Tile.dropLanded d.op)
    have hs1 : s1.part p = P.modTile k (Tile.dropLanded d.op) := s.part_modPart p _ hp
    have htile : s1.tile p k = (P.tile k).dropLanded d.op := (congrArg (Partition.tile · k) hs1).trans (P.tile_modTile _ hk)
    have hbufs1 : s1.bufs = s.bufs := s.bufs_modTile p k _ fun _ => rfl
    obtain ⟨x, t, hdone, hover, hbufs⟩ := State.takeDatum_same (s := s1) (o := o) p k dst ((State.op?_congr rfl _).trans (hid ▸ ho))
      (hfmt.trans (congrArg (Tile.fmtAt · .a dst) htile).symm) hbfp hlen
    refine ⟨_, hx.trans (congrArg _ hdone), hover.opDone, ?_, fun b2 y hy => ?_⟩
    · have hread := s1.readBuf_opWrite x .engine 10 p k .a dst d.bytes (by rw [hs1]; simpa using hk) (by rw [hlen]; exact hsize)
      rw [hlen] at hread
      exact (State.readBuf_of_bufs hbufs p k .a dst 256).trans hread
    · have hread := s1.readBuf_opWrite_of_disjoint x .engine 10 p k .a dst d.bytes (p2 := p) (k2 := k) (b2 := b2) (x := y) (n := 1)
        (by rw [hlen]; rcases hy with h | h | h; exacts [.inr (.inr (.inl h)), .inr (.inr (.inr (.inl (by omega)))), .inr (.inr (.inr (.inr (by omega))))])
      exact ((State.readBuf_of_bufs hbufs p k b2 y 1).trans hread).trans (State.readBuf_of_bufs hbufs1 p k b2 y 1)

theorem dataLand : DataLand := by
  intro s d p P same gone hb hp hfind
  have hop : d.op = s.arg.op := by simpa using List.find?_some hfind
  have hland := landDatum_flight (s := s) (p := p) (id := s.arg.op) hfind hb
  have hexec : exec .datumLanded s = .next (landDatum s p s.arg.op) := rfl
  rw [hland] at hexec
  have hpart : (s.modPart p (Partition.arrives s.arg.op)).part p = P.arrives s.arg.op := State.part_arrives hp
  have hlen : p < (s.modPart p (Partition.arrives s.arg.op)).parts.length := by simpa using hp
  have hgone : s.modPart p gone = s.modPart p (Partition.arrives s.arg.op) := rfl
  have hsame (x : Datum) : same x ↔ x.op ≠ s.arg.op ∧ d.same x = true := by rw [d.same_iff]
  have hflight : ∀ x ∈ ((s.modPart p (Partition.arrives s.arg.op)).part p).flight, x.op ≠ s.arg.op := fun x hx => by
    rw [hpart] at hx
    exact (Partition.mem_flight_arrives.1 hx).2
  have htiles : ((s.modPart p (Partition.arrives s.arg.op)).part p).tiles = P.tiles := by rw [hpart]; rfl
  have hquiet (h : ∀ x ∈ P.flight, ¬ same x) : s.rival p s.arg.op d = false := by
    rw [← Bool.not_eq_true, State.rival_iff hp]
    rintro ⟨x, hx, hxop, hxs, -⟩
    exact h x hx ((hsame x).2 ⟨hxop, hxs⟩)
  refine ⟨fun hS hfar => ?_, fun S hS hfar hk => ⟨fun hsel => ⟨fun hlost hno => ?_, fun hlost => ?_⟩, fun hlost hrival => ?_, fun i hsel hor hv hd hr => ?_⟩,
    fun S hS hge hlt => ?_, fun hge => ?_⟩
  · rw [hexec, if_neg (by omega), if_neg (by omega), if_pos (by rw [hS]; rfl)]
  · have hx : exec .datumLanded s = .next _ := hexec
    rw [if_neg (by omega), if_neg (by omega), if_neg (by rw [hS]; nofun), if_neg (by rw [hlost]; decide), if_neg (by rw [hquiet hno]; decide), if_pos hsel] at hx
    have hafter := (s.modPart p (Partition.arrives s.arg.op)).part_modPart p (fun P => P.modTile d.tile fun T => { T with landed := T.landed ++ [d] }) hlen
    refine ⟨_, hx, ?_, ?_⟩
    · refine (congrArg (fun Q => (Partition.tile Q d.tile).landed) hafter).trans ?_
      rw [hpart]
      exact congrArg Tile.landed ((P.arrives s.arg.op).tile_modTile _ hk)
    · intro x hxf
      exact hflight x (by rw [State.modTile, hafter] at hxf; exact hxf)
  · have hx : exec .datumLanded s = .next _ := hexec
    rw [if_neg (by omega), if_neg (by omega), if_neg (by rw [hS]; nofun), if_pos hlost, if_pos hsel] at hx
    exact ⟨_, hx, htiles, hflight⟩
  · have hx : exec .datumLanded s = .next _ := hexec
    have hr : s.rival p s.arg.op d = true := by
      obtain ⟨x, hxf, hxs, hxl⟩ := hrival
      obtain ⟨h1, h2⟩ := (hsame x).1 hxs
      exact (State.rival_iff hp d).2 ⟨x, hxf, h1, h2, hxl⟩
    rw [if_neg (by omega), if_neg (by omega), if_neg (by rw [hS]; nofun), if_neg (by rw [hlost]; decide), if_pos hr] at hx
    have hafter := (s.modPart p (Partition.arrives s.arg.op)).part_modPart p (fun P => P.modFlight fun x => if d.same x then { x with lost := true } else x) hlen
    refine ⟨_, hx, ?_, fun x hxf hxs => ?_⟩
    · rw [hafter]
      exact htiles
    · rw [hafter, hpart]
      obtain ⟨h1, h2⟩ := (hsame x).1 hxs
      exact List.mem_map.2 ⟨x, Partition.mem_flight_arrives.2 ⟨hxf, h1⟩, if_pos h2⟩
  · have hx : exec .datumLanded s = .next _ := hexec
    have hslip := State.slipTile_arrives hp (id := s.arg.op) d hv hd hr d.slot d.port
    rw [if_neg (by omega), if_neg (by omega), if_neg (by rw [hS]; nofun)] at hx
    rw [hx, hgone]
    refine congrArg _ (Eq.trans ?_ hslip)
    by_cases hlost : d.lost = true
    · rw [if_pos hlost, if_neg (by rw [hsel]; decide)]
    · rw [if_neg hlost, if_neg (by rw [hquiet (hor.resolve_left hlost)]; decide), if_neg (by rw [hsel]; decide)]
  · have hx : exec .datumLanded s = .next _ := hexec
    rw [if_neg (by omega), if_pos hge, leaveDatum_eq] at hx
    obtain ⟨hparts, hagenda, hcycle, hqueue⟩ := s.leavingPort_spec p d hb
    generalize s.leavingPort p d = u at hparts hagenda hcycle hqueue hx
    have hafter : (u.modPart p (Partition.leaves d)).part p = P.leaves d := by
      rw [u.part_modPart p _ (hparts ▸ hp), State.part, hparts]
      rfl
    refine ⟨_, hx, (congrArg Partition.tiles hafter).trans rfl, ?_, ?_, fun hlost => ?_, fun hlost => ?_⟩
    · exact (congrArg Partition.flight hafter).trans (by rw [← hop]; rfl)
    · rw [hS, hop]
      refine (congrArg₂ (fun a c => a ++ [(⟨c + (S + 8 * d.slot - s.ptime.toNat), .datumLanded, { p := p, t := d.tile + 2048, op := s.arg.op }⟩ : Due)]) hagenda hcycle)
    · exact hqueue.1 hlost
    · exact hqueue.2 hlost (by omega)
  · rw [hexec, if_pos hge, hgone]

/-- Settles O52, by the four parts of its claim: the exchange barrier, transfers, data that land, and reductions. -/
theorem exchangeAndReductions : Obligations.ExchangeAndReductions := ⟨exchangeBarriers, transfersMoveData, dataLand, reductionsHoldResults⟩

end Sys2Proof.Proofs
end

section
/-!
PROOF of O51, first part: write-behind and signals (spec/13 R263; spec/02 R51; spec/22 R344).
-/

namespace Sys2Proof.Machine

open Sys2Proof.Claims

/-! ### A signal's word (R51, R338) -/

theorem leNat_leBytes (n : Nat) : ∀ {x : Nat}, x < 256 ^ n → leNat (leBytes n x) = x := by
  induction n with
  | zero => intro x h; exact (Nat.lt_one_iff.1 h).symm
  | succ n ih =>
    intro x h
    rw [leBytes, leNat, ih (by omega), BitVec.toNat_ofNat]
    omega

theorem sigResult_eq (f : SigOp) (o v : Word) : sigResult f o v = match f with
    | .set => v
    | .add => o + v
    | .maxu => if o.toNat ≤ v.toNat then v else o := by
  cases f with
  | set => rfl
  | add => rfl
  | maxu =>
    have hlt : o < v ↔ o.toNat < v.toNat := BitVec.lt_def
    change (if o < v then v else o) = if o.toNat ≤ v.toNat then v else o
    rcases Nat.lt_trichotomy o.toNat v.toNat with h | h | h
    · rw [if_pos (hlt.2 h), if_pos h.le]
    · rw [if_neg fun hn => absurd (hlt.1 hn) (by omega), if_pos h.le, BitVec.eq_of_toNat_eq h]
    · rw [if_neg fun hn => absurd (hlt.1 hn) (by omega), if_neg (by omega)]

/-- A run of a written memory that the write does not reach. -/
theorem Memory.readRun_writeRun_of_disjoint {m : Memory} (h : m.wf = true) {a : Nat} {bs : List Byte} {x n : Nat} (hd : x + n ≤ a ∨ a + bs.length ≤ x) :
    (m.writeRun a bs).readRun x n = m.readRun x n := by
  refine List.ext_getElem (by rw [Memory.length_readRun, Memory.length_readRun]) fun i hi _ => ?_
  rw [Memory.length_readRun] at hi
  have hnew := Memory.getD_readRun (Memory.wf_writeRun h a bs) x n i hi
  have hold := Memory.getD_readRun h x n i hi
  rw [Memory.read_writeRun, if_neg (by omega), ← hold] at hnew
  simpa [List.getD_eq_getElem?_getD, hi, Memory.length_readRun] using hnew

/-- Bytes of physical memory that a write does not reach. -/
theorem State.physRead_physWrite_of_disjoint {s : State} (hhost : s.host.wf = true) (hhbm : s.hbm.wf = true) {l x : Loc} {bs : List Byte} {n : Nat}
    (h : x.host ≠ l.host ∨ x.addr + n ≤ l.addr ∨ l.addr + bs.length ≤ x.addr) : (s.physWrite l bs).physRead x n = s.physRead x n := by
  unfold State.physWrite
  dsimp only
  by_cases hl : l.host = true
  · rw [if_pos hl, State.physRead, State.physRead]
    by_cases hx : x.host = true
    · rw [if_pos hx, if_pos hx]
      exact Memory.readRun_writeRun_of_disjoint hhost (h.resolve_left fun hn => hn (hx.trans hl.symm))
    · rw [if_neg hx, if_neg hx]
  · rw [if_neg hl, State.physRead, State.physRead]
    by_cases hr : s.boot.recov = true
    · rw [if_pos hr]
    rw [if_neg hr]
    by_cases hx : x.host = true
    · rw [if_pos hx, if_pos hx]
    · rw [if_neg hx, if_neg hx, if_neg hr, if_neg hr]
      exact Memory.readRun_writeRun_of_disjoint hhbm (h.resolve_left fun hn => hn (by simp_all))

theorem State.physRead_noteWaits (s : State) : s.noteWaits.physRead = s.physRead := by rw [State.noteWaits_frame]; rfl

theorem State.bufs_physWrite (s : State) (l : Loc) (bs : List Byte) : (s.physWrite l bs).bufs = s.bufs := by rw [State.bufs, s.parts_physWrite]; rfl

theorem State.bufs_noteWaits (s : State) : s.noteWaits.bufs = s.bufs := by rw [State.noteWaits_frame]; rfl

/-- A monitor's sample changes no memory. -/
theorem State.noteSignalRead_keeps (s : State) (o : EngOp) (l : Loc) (f : SigOp) : (s.noteSignalRead o l f).main = s.main ∧
    (s.noteSignalRead o l f).bufs = s.bufs ∧ (s.noteSignalRead o l f).physRead = s.physRead ∧ (s.noteSignalRead o l f).boot = s.boot := by
  unfold State.noteSignalRead
  split
  · split
    · exact ⟨rfl, rfl, rfl, rfl⟩
    · exact ⟨rfl, s.bufs_modPart _ _ fun _ => rfl, rfl, rfl⟩
  · exact ⟨rfl, rfl, rfl, rfl⟩

theorem State.physRead_of_main {s t : State} (h : t.main = s.main) (hb : t.boot.recov = s.boot.recov) : t.physRead = s.physRead := by
  obtain ⟨h1, h2⟩ := Prod.mk.inj h
  obtain ⟨h3, -⟩ := Prod.mk.inj h2
  funext l n
  rw [State.physRead, State.physRead, h1, h3, hb]

theorem State.boot_modThread (s : State) (a : Agent) (i : Nat) (f : Thread → Thread) : (s.modThread a i f).boot = s.boot := by
  cases a with
  | tile p k => rfl
  | ctrl d =>
    simp only [State.modThread, State.modCtrl]
    split <;> rfl

theorem State.physRead_opDone (s : State) (id : Nat) (fl : Byte) : (s.opDone id fl).physRead = s.physRead := by
  refine State.physRead_of_main (s.main_opDone id fl) ?_
  unfold State.opDone
  split
  · rfl
  · rw [State.boot_modThread]
    rfl

theorem State.physRead_tags (s : State) (g : List Tag) : ({ s with tags := g } : State).physRead = s.physRead := rfl
theorem State.bufs_tags (s : State) (g : List Tag) : ({ s with tags := g } : State).bufs = s.bufs := rfl

/-- A signal performed: its word holds what its function gives, and no other byte changes. -/
theorem State.signalAt_word {s : State} (hhost : s.host.wf = true) (hhbm : s.hbm.wf = true) (hr : s.boot.recov = false) (l : Loc) (f : SigOp) (v : Word) :
    BitVec.ofNat 64 ((s.signalAt l f v).physNat l 8) = sigResult f (BitVec.ofNat 64 (s.physNat l 8)) v ∧
    (∀ x : Loc, (x.host ≠ l.host ∨ x.addr < l.addr ∨ l.addr + 8 ≤ x.addr) → (s.signalAt l f v).physRead x 1 = s.physRead x 1) ∧
    (s.signalAt l f v).bufs = s.bufs := by
  unfold State.signalAt State.physNat
  rw [State.physRead_noteWaits, State.bufs_noteWaits, State.bufs_physWrite]
  generalize sigResult f (BitVec.ofNat 64 (leNat (s.physRead l 8))) v = r
  have hlen : (leBytes 8 r.toNat).length = 8 := length_leBytes _ _
  refine ⟨?_, fun x hx => State.physRead_physWrite_of_disjoint hhost hhbm ?_, rfl⟩
  · have hread := State.physRead_physWrite hhost hhbm hr l (leBytes 8 r.toNat)
    rw [hlen] at hread
    rw [hread, leNat_leBytes 8 (by have := r.isLt; omega), BitVec.ofNat_toNat, BitVec.setWidth_eq]
  · rw [hlen]
    exact hx.imp_right (Or.imp_left Nat.succ_le_of_lt)

/-! ### Write-behind of one page (R263) -/

/-- A record joins a partition's write-behind. -/
def Partition.writeBehind (P : Partition) (w : WRec) : Partition := { P with wb := P.wb ++ [w] }

theorem State.gPut_page {s : State} {p k va : Nat} {w : WRec} {e : Extent} (he : (s.tile p k).extent va = some e) (hv : e.kind = .v) (h0 : 0 < w.data.length)
    (h : va % 65536 + w.data.length ≤ 65536) :
    s.gPut (.tile p k) va w = s.modPart p fun P => P.writeBehind { w with loc := e.locOf va } := by
  unfold State.gPut
  dsimp only
  rw [pieces_of_page h0 h, List.foldl_cons, List.foldl_nil, he]
  dsimp only
  rw [hv, Nat.sub_self, List.drop_zero, List.take_length]
  rfl

theorem State.extent_modThread (s : State) (a : Agent) (i : Nat) (f : Thread → Thread) (p k : Nat) : ((s.modThread a i f).tile p k).extent = (s.tile p k).extent := by
  cases a with
  | tile q j =>
    exact s.modPart_keeps (fun P => (P.tile k).extent) (fun P => P.modTile j fun T => T.modThread i f)
      (fun P => P.tile_modTile_keeps Tile.extent (fun T => T.modThread i f) (fun _ => rfl) j k) q p
  | ctrl d =>
    simp only [State.modThread, State.modCtrl]
    split <;> rfl

/-- WBK_COMPLETE of an operation that has its entry, and whose bytes reach no channel in training. -/
theorem completeWbk_eq {s : State} {id : Nat} {o : EngOp} {p k : Nat} (ho : s.op? id = some o) (ha : o.agent = .tile p k) (hl : o.st ≠ .done)
    {va : Word} {b : Buf} {off g : Nat} (hk : o.kind = .wbk va b off g) (he : s.hasEntry o = true) (hh : s.endHeld o.agent (.glob va) 0 (64 * g) = false) :
    completeWbk s id = ((s.modThread (.tile p k) o.th (noteRuns (some (b, off, 64)) none g)).gPut (.tile p k) va.toNat
      (o.wrec 8 (((s.tile p k).seenAfter o.hb).readBuf b off (64 * g)))).opDone id 0 := by
  unfold completeWbk State.forkView
  rw [ho]
  dsimp only
  rw [ha, hk]
  dsimp only
  rw [← ha, if_neg (by simpa [EngOp.live] using hl), if_neg (by simp [he, hh])]

/-- WBK_COMPLETE of an operation that waits. -/
theorem completeWbk_waits {s : State} {id : Nat} {o : EngOp} {p k : Nat} (ho : s.op? id = some o) (ha : o.agent = .tile p k) (hl : o.st ≠ .done)
    {va : Word} {b : Buf} {off g : Nat} (hk : o.kind = .wbk va b off g) (h : s.hasEntry o = false ∨ s.endHeld o.agent (.glob va) 0 (64 * g) = true) :
    completeWbk s id = s.scheduleFree .wbk .wbkComplete { p := p, t := k, op := id } := by
  unfold completeWbk
  rw [ho]
  dsimp only
  rw [ha, hk]
  dsimp only
  rw [← ha, if_neg (by simpa [EngOp.live] using hl), if_pos (by rcases h with h | h <;> simp [h])]

/-- SIGNAL_COMPLETE of a signal whose channel is in service and whose word is sound. -/
theorem completeSignal_eq {s : State} {id : Nat} {o : EngOp} {p k : Nat} (ho : s.op? id = some o) (ha : o.agent = .tile p k) (hl : o.st ≠ .done)
    {va : Word} {f : SigOp} {v : Word} {e : Extent} (hk : o.kind = .signal va f v) (he : (s.tile p k).extent va.toNat = some e) {l : Loc}
    (hloc : e.locOf va.toNat = l) (hh : s.rangeHeld l 8 = false) (hp : s.poisonAt l 8 = none) :
    ∃ tags, completeSignal s id = State.opDone { (s.noteSignalRead o l f).signalAt l f v with tags := tags } id 0 := by
  subst hloc
  unfold completeSignal
  rw [ho]
  dsimp only
  rw [hk, ha]
  dsimp only
  simp only [he, Option.map_some, Option.getD_some]
  rw [if_neg (by simpa [EngOp.live] using hl), if_neg (by simp [hh]), hp]
  exact ⟨_, rfl⟩

end Sys2Proof.Machine

namespace Sys2Proof.Proofs

open Sys2Proof Sys2Proof.Machine Sys2Proof.Claims

theorem writeBehindTaken {s : State} {o : EngOp} {p k : Nat} (h : OpLive s o p k) {va : Word} {b : Buf} {off g : Nat} {e : Extent} (hkind : o.kind = .wbk va b off g)
    (hen : s.hasEntry o = true) (hheld : s.endHeld o.agent (.glob va) 0 (64 * g) = false) (he : (s.tile p k).extent va.toNat = some e) (hv : e.kind = .v) (hg : 0 < g)
    (hpage : va.toNat % 65536 + 64 * g ≤ 65536) : ∃ (t : State) (w : WRec), exec .wbkComplete s = .next t ∧ OpDone t o.id ∧
      (t.part p).wb = (s.part p).wb ++ [w] ∧ w.loc = e.locOf va.toNat ∧ w.data = ((s.tile p k).seenAfter o.hb).readBuf b off (64 * g) ∧ w.id = o.id ∧ w.hb = o.hb ∧
      s.SameBytes t := by
  obtain ⟨ho, ha, hp, hk, hl⟩ := h
  have hid : o.id = s.arg.op := State.id_of_op? ho
  rw [← hid] at ho
  have heq := completeWbk_eq ho ha hl hkind hen hheld
  have hdata : (o.wrec 8 (((s.tile p k).seenAfter o.hb).readBuf b off (64 * g))).data.length = 64 * g := Tile.length_readBuf _ _ _ _
  rw [State.gPut_page (e := e) (by rw [State.extent_modThread]; exact he) hv (by rw [hdata]; omega) (by rw [hdata]; exact hpage)] at heq
  have hlen : p < (s.modThread (.tile p k) o.th (noteRuns (some (b, off, 64)) none g)).parts.length :=
    hp.trans_eq (s.length_parts_modPart p fun P => P.modTile k _).symm
  refine ⟨_, { o.wrec 8 (((s.tile p k).seenAfter o.hb).readBuf b off (64 * g)) with loc := e.locOf va.toNat },
    congrArg Host.Outcome.next ((congrArg (completeWbk s) hid.symm).trans heq), heq ▸ (over_completeWbk ho ha hl hkind hen hheld).opDone, ?_, rfl, rfl, rfl, rfl,
    State.sameBytes_of (by simp) ?_⟩
  · rw [State.opDone_keeps Partition.wb fun _ _ _ => rfl, State.part_modPart _ _ _ hlen]
    exact congrArg (· ++ _) (State.modThread_keeps Partition.wb (fun _ _ _ => rfl) _ _ _ _ _)
  · rw [State.bufs_opDone]
    exact (State.bufs_modPart _ p (·.writeBehind _) fun _ => rfl).trans (s.bufs_modThread _ _ _)

theorem signalDone {s : State} {o : EngOp} {p k : Nat} (h : OpLive s o p k) {va : Word} {f : SigOp} {v : Word} {e : Extent} (hkind : o.kind = .signal va f v)
    (he : (s.tile p k).extent va.toNat = some e) (hwf : s.memWf) {l : Loc} (hloc : e.locOf va.toNat = l) (hh : s.rangeHeld l 8 = false)
    (hr : s.boot.recov = false) (hpo : s.poisonAt l 8 = none) : ∃ t, exec .signalComplete s = .next t ∧ OpDone t o.id ∧
      BitVec.ofNat 64 (t.physNat l 8) = sigResult f (BitVec.ofNat 64 (s.physNat l 8)) v ∧
      (∀ x : Loc, (x.host ≠ l.host ∨ x.addr < l.addr ∨ l.addr + 8 ≤ x.addr) → t.physRead x 1 = s.physRead x 1) ∧ s.SameBufs t := by
  obtain ⟨ho, ha, hp, hk, hl⟩ := h
  have hid : o.id = s.arg.op := State.id_of_op? ho
  rw [← hid] at ho
  obtain ⟨hhbm, hhost, -⟩ := hwf
  obtain ⟨tags, heq⟩ := completeSignal_eq ho ha hl hkind he hloc hh hpo
  obtain ⟨hmain, hbufs, hread, hboot⟩ := s.noteSignalRead_keeps o l f
  obtain ⟨h1, h2⟩ := Prod.mk.inj hmain
  obtain ⟨h3, -⟩ := Prod.mk.inj h2
  obtain ⟨hword, hrest, hb⟩ := State.signalAt_word (s := s.noteSignalRead o l f) (by rw [h3]; exact hhost) (by rw [h1]; exact hhbm) (by rw [hboot]; exact hr) l f v
  have hphys : (completeSignal s o.id).physRead = ((s.noteSignalRead o l f).signalAt l f v).physRead := by
    rw [heq, State.physRead_opDone, State.physRead_tags]
  have hold : (s.noteSignalRead o l f).physNat l 8 = s.physNat l 8 := congrArg (fun r : Loc → Nat → List Byte => leNat (r l 8)) hread
  have hnew : (completeSignal s o.id).physNat l 8 = ((s.noteSignalRead o l f).signalAt l f v).physNat l 8 := congrArg (fun r : Loc → Nat → List Byte => leNat (r l 8)) hphys
  have hover := over_completeSignal ho ha hl hkind he (by rw [hloc]; exact hh)
  refine ⟨completeSignal s o.id, congrArg (fun i => Host.Outcome.next (completeSignal s i)) hid.symm, hover.opDone, ?_, fun x hx => ?_, ?_⟩
  · rw [hnew, ← hold]
    exact hword
  · rw [hphys, ← hread]
    exact hrest x hx
  · refine State.sameBufs_of_bufs ?_
    rw [heq, State.bufs_opDone, State.bufs_tags, hb, hbufs]

theorem writeBehindAndSignals : WriteBehindAndSignals := by
  intro s o p k h
  refine ⟨fun va b off g e hkind hen hheld he hv hg hpage => writeBehindTaken h hkind hen hheld he hv hg hpage, fun va b off g hkind hw => ?_, ?_⟩
  · obtain ⟨ho, ha, hp, hk, hl⟩ := h
    refine ⟨_, congrArg Host.Outcome.next (completeWbk_waits ho ha hl hkind hw), rfl, rfl, State.sameBytes_of rfl rfl, _,
      List.mem_append_right _ (List.mem_singleton_self _), rfl, rfl, ?_⟩
    exact Nat.lt_add_of_pos_right (by omega)
  · intro va f v e hkind he hwf l hh hr hpo
    obtain ⟨t, hx, hdone, hword, hrest, hb⟩ := signalDone h hkind he hwf rfl hh hr hpo
    exact ⟨t, hx, hdone, hword.trans (sigResult_eq _ _ _), hrest, hb⟩

end Sys2Proof.Proofs
end

section
/-!
PROOF of O51, second part: the enlarger, matrix commands and quantisation (spec/08 R171; spec/15 R289, R294, R297, R298).
-/

namespace Sys2Proof.Machine

open Sys2Proof.Claims

/-! ### Writes of one operation to one buffer of a partition's tiles (R107) -/

theorem State.tiles_of_bufs {s t : State} (h : t.bufs = s.bufs) (p : Nat) : (t.part p).tiles.length = (s.part p).tiles.length := by
  have hlen (u : State) : (u.part p).tiles.length = (u.bufs.getD p []).length := by
    simp only [State.part, State.bufs, List.getD_eq_getElem?_getD, List.getElem?_map]
    cases u.parts[p]? with
    | none => rfl
    | some P => exact (List.length_map _).symm
  rw [hlen, h, hlen]

/-- A step of a fold writes its item's run of bytes to a buffer of a tile, and no other memory: the tile, the address and the bytes of an item are
`w`'s. -/
def WritesEach {β α : Type} (view : β → State) (step : β → α → β) (w : α → Nat × Nat × List Byte) (p : Nat) (b : Buf) : Prop :=
  ∀ x i, (view (step x i)).main = (view x).main ∧ ∃ o cls q, (view (step x i)).bufs = ((view x).opWrite o cls q p (w i).1 b (w i).2.1 (w i).2.2).bufs

section
variable {β α : Type} {view : β → State} {step : β → α → β} {w : α → Nat × Nat × List Byte} {p : Nat} {b : Buf} (hw : WritesEach view step w p b)
include hw

theorem WritesEach.main_foldl (l : List α) (x : β) : (view (l.foldl step x)).main = (view x).main :=
  foldl_keeps (fun x => (view x).main) step (fun x i => (hw x i).1) l x

theorem WritesEach.tiles_foldl (l : List α) (x : β) : ((view (l.foldl step x)).part p).tiles.length = ((view x).part p).tiles.length := by
  refine foldl_keeps (fun x => ((view x).part p).tiles.length) step (fun x i => ?_) l x
  obtain ⟨-, o, cls, q, hb⟩ := hw x i
  exact (State.tiles_of_bufs hb p).trans (State.tiles_opWrite _ _ _ _ _ _ _ _ _ _)

/-- Bytes that no item's run reaches. -/
theorem WritesEach.readBuf_foldl_of_disjoint {p2 k : Nat} {b2 : Buf} {a n : Nat} : ∀ (l : List α) (x : β),
    (∀ i ∈ l, p2 ≠ p ∨ k ≠ (w i).1 ∨ b2 ≠ b ∨ a + n ≤ (w i).2.1 ∨ (w i).2.1 + (w i).2.2.length ≤ a) →
    ((view (l.foldl step x)).tile p2 k).readBuf b2 a n = ((view x).tile p2 k).readBuf b2 a n := by
  intro l
  induction l with
  | nil => exact fun _ _ => rfl
  | cons i l ih =>
    intro x h
    obtain ⟨-, o, cls, q, hb⟩ := hw x i
    rw [List.foldl_cons, ih _ fun j hj => h j (List.mem_cons_of_mem _ hj), State.readBuf_of_bufs hb]
    exact State.readBuf_opWrite_of_disjoint _ _ _ _ _ _ _ _ _ (h i List.mem_cons_self)

/-- The bytes of an item's run that no later one reaches. -/
theorem WritesEach.readBuf_foldl (pre post : List α) (i : α) (x : β) (hk : (w i).1 < ((view x).part p).tiles.length)
    (hfit : (w i).2.1 + (w i).2.2.length ≤ Config.bufSize b)
    (h : ∀ j ∈ post, (w j).1 ≠ (w i).1 ∨ (w j).2.1 + (w j).2.2.length ≤ (w i).2.1 ∨ (w i).2.1 + (w i).2.2.length ≤ (w j).2.1) :
    ((view ((pre ++ i :: post).foldl step x)).tile p (w i).1).readBuf b (w i).2.1 (w i).2.2.length = (w i).2.2 := by
  obtain ⟨-, o, cls, q, hb⟩ := hw (pre.foldl step x) i
  rw [List.foldl_append, List.foldl_cons, hw.readBuf_foldl_of_disjoint post, State.readBuf_of_bufs hb]
  · exact State.readBuf_opWrite _ _ _ _ _ _ _ _ _ (by rw [hw.tiles_foldl]; exact hk) hfit
  · intro j hj
    refine .inr ?_
    rcases h j hj with h | h | h
    · exact .inl h.symm
    · exact .inr (.inr (.inr h))
    · exact .inr (.inr (.inl h))

end

/-! ### The enlarger (R171) -/

section
variable {s : State} {id : Nat} {o : EngOp} {p k : Nat} (ho : s.op? id = some o) (ha : o.agent = .tile p k)
variable {b : Buf} {sb db step : Nat} {dims : List Dim} {sp : Nat} {dests : List Nat} {r : Nat} {sf : Byte} (hk : o.kind = .enl b sb db step dims sp dests r sf)
include ho ha hk

/-- ENL_TRANSFER writes what each index tuple places, one after another. -/
theorem enlTransfer_eq (hst : o.st = .queued) : ∃ (place : State × Byte → List Nat → State × Byte) (f : EngOp → EngOp),
    enlTransfer s id = (((tuplesIdx (dims.map (·.extent))).foldl place (s, 0)).1.modOp id f).scheduleFree .enl .enlComplete { p := p, t := k, op := id } ∧
    (∀ x i, (place x i).1.core = x.1.core) ∧ WritesEach Prod.fst place (enlPut s p k o.hb b sb (db + r * step) dims sp dests sf) p .a := by
  unfold enlTransfer State.forkView
  rw [ho]
  dsimp only
  rw [ha, hk]
  dsimp only
  rw [← ha, if_neg (by simp [hst])]
  refine ⟨_, _, rfl, fun x i => ?_, fun x i => ⟨?_, ?_⟩⟩
  · rw [State.core_modThread, State.core_opWrite]
  · rw [State.main_modThread, State.main_opWrite]
  · exact ⟨{ o with hb := joinHb (s.part p).exchHb o.hb }, .engine, 9, State.bufs_modThread _ _ _ _⟩

/-- ENL_TRANSFER as a fold of writes, with its end due. -/
theorem enlTransfer_writes (hst : o.st = .queued) : ∃ (place : State × Byte → List Nat → State × Byte),
    (enlTransfer s id).main = ((tuplesIdx (dims.map (·.extent))).foldl place (s, 0)).1.main ∧
    (enlTransfer s id).bufs = ((tuplesIdx (dims.map (·.extent))).foldl place (s, 0)).1.bufs ∧
    (∃ d ∈ (enlTransfer s id).agenda, d.ev = .enlComplete ∧ d.arg.op = id ∧ s.cycle < d.at_) ∧
    WritesEach Prod.fst place (enlPut s p k o.hb b sb (db + r * step) dims sp dests sf) p .a := by
  obtain ⟨place, f, heq, hcore, hw⟩ := enlTransfer_eq ho ha hk hst
  have hc : ((tuplesIdx (dims.map (·.extent))).foldl place (s, 0)).1.cycle = s.cycle :=
    State.cycle_of_core (foldl_keeps (fun x : State × Byte => x.1.core) place hcore _ (s, 0))
  refine ⟨place, ?_⟩
  rw [heq]
  generalize (tuplesIdx (dims.map (·.extent))).foldl place (s, 0) = u at *
  refine ⟨rfl, rfl, ⟨_, List.mem_append_right _ (List.mem_singleton_self _), rfl, rfl, ?_⟩, hw⟩
  exact hc.symm.trans_lt (Nat.lt_add_of_pos_right (by omega))

end

/-! ### The matrix array (R294) -/

/-- What the array changes: operations, queues of entries, its ends and the agenda, but no buffer and no arbiter. -/
theorem State.arrayStep_keeps (s : State) (p pod : Nat) : (s.arrayStep p pod).main = s.main ∧ (s.arrayStep p pod).bufs = s.bufs ∧
    ∀ q, ((s.arrayStep p pod).part q).arb = (s.part q).arb := by
  unfold State.arrayStep
  split
  · exact ⟨rfl, rfl, fun _ => rfl⟩
  · next o _ =>
    split
    next q need _ =>
    extract_lets t have_ n s1 prev s_c stall e_c
    have h1 : s1.main = s.main ∧ s1.bufs = s.bufs ∧ ∀ q, (s1.part q).arb = (s.part q).arb := by
      simp only [s1]
      split
      · exact ⟨rfl, rfl, fun _ => rfl⟩
      · exact ⟨rfl, s.bufs_modTile p t _ fun _ => rfl, fun _ => s.modPart_keeps Partition.arb (fun P => P.modTile t _) (fun _ => rfl) _ _⟩
    split
    · exact h1
    · clear_value s1 e_c
      obtain ⟨hm, hb, harb⟩ := h1
      refine ⟨hm, ?_, fun q => ?_⟩
      · exact ((s1.modOp o.id _).bufs_modPart p (fun P => { P with arrayEnd := P.arrayEnd.set pod e_c }) fun _ => rfl).trans hb
      · exact ((s1.modOp o.id _).modPart_keeps Partition.arb (fun P => { P with arrayEnd := P.arrayEnd.set pod e_c }) (fun _ => rfl) p q).trans (harb q)

theorem State.arraySteps_keeps (s : State) (p pod : Nat) : (s.arraySteps p pod).main = s.main ∧ (s.arraySteps p pod).bufs = s.bufs ∧
    ∀ q, ((s.arraySteps p pod).part q).arb = (s.part q).arb :=
  ⟨foldl_keeps State.main (fun s _ => s.arrayStep p pod) (fun s _ => (s.arrayStep_keeps p pod).1) (List.range 8) s,
    foldl_keeps State.bufs (fun s _ => s.arrayStep p pod) (fun s _ => (s.arrayStep_keeps p pod).2.1) (List.range 8) s,
    fun q => foldl_keeps (fun s => (s.part q).arb) (fun s _ => s.arrayStep p pod) (fun s _ => (s.arrayStep_keeps p pod).2.2 q) (List.range 8) s⟩

/-- The arbiter chooses a command of the tile that it visits. -/
theorem State.agent_of_arbiter {s : State} {p pod v used : Nat} {o : EngOp} (h : s.arbiter p pod = some (o, v, used)) : o.agent = .tile p (8 * pod + v) := by
  unfold State.arbiter at h
  obtain ⟨⟨u, left⟩, -, h⟩ := Option.bind_eq_some_iff.1 h
  split at h
  · cases h
  · obtain ⟨x, hx, he⟩ := Option.map_eq_some_iff.1 h
    obtain ⟨rfl, rfl, -⟩ : x = o ∧ u = v ∧ left - 1 = used := by simpa using he
    have hp := List.find?_some hx
    simp only [Bool.and_eq_true, decide_eq_true_eq] at hp
    exact hp.1.2

/-- The quantiser's next command starts without a change of memory. -/
theorem startQuant_keeps (s : State) (p pod : Nat) : (startQuant s p pod).main = s.main ∧ (startQuant s p pod).bufs = s.bufs := by
  rcases startQuant_cases s p pod with h | ⟨o, -, -, n, h⟩ <;> rw [h]
  · exact ⟨rfl, rfl⟩
  · exact ⟨rfl, rfl⟩

end Sys2Proof.Machine

namespace Sys2Proof.Proofs

open Sys2Proof Sys2Proof.Machine Sys2Proof.Claims

theorem enlargerPlaces : EnlargerPlaces := by
  intro s o p k ⟨ho, ha, hp, hk, hl⟩ b sb db step dims sp dests r sf hkind put is
  have hid : o.id = s.arg.op := State.id_of_op? ho
  rw [← hid] at ho
  refine ⟨fun hst => ?_, fun hst => ?_⟩
  · obtain ⟨place, hmain, hbufs, hdue, hw⟩ := enlTransfer_writes ho ha hkind hst
    refine ⟨enlTransfer s o.id, congrArg (fun i => Host.Outcome.next (enlTransfer s i)) hid.symm, State.sameMain_of_main ?_, op_enlTransfer ho ha hkind hst, hdue,
      fun pre i post hi hu hfit hpost => ?_, fun u b2 x h => ?_⟩
    · exact hmain.trans (hw.main_foldl _ (s, 0))
    · rw [State.readBuf_of_bufs hbufs]
      exact (congrArg (fun l => ((l.foldl place (s, 0)).1.tile p (put i).1).readBuf .a (put i).2.1 (put i).2.2.length) hi).trans
        (hw.readBuf_foldl pre post i (s, 0) hu hfit hpost)
    · rw [State.readBuf_of_bufs hbufs]
      refine hw.readBuf_foldl_of_disjoint _ (s, 0) fun i hi => .inr ?_
      rcases h i hi with h | h | h | h
      · exact .inl h.symm
      · exact .inr (.inl h)
      · exact .inr (.inr (.inl h))
      · exact .inr (.inr (.inr h))
  · refine ⟨enlComplete s o.id, congrArg (fun i => Host.Outcome.next (enlComplete s i)) hid.symm, (over_enlComplete ho hkind hst).opDone, ?_⟩
    have heq : enlComplete s o.id = s.opDone o.id o.flags := by
      unfold enlComplete
      rw [ho]
      dsimp only
      rw [if_pos (by rw [hkind, hst]; rfl)]
    rw [heq]
    exact State.sameBytes_of (s.main_opDone _ _) (s.bufs_opDone _ _)

end Sys2Proof.Proofs
end

section
/-!
PROOF of O51, third part: the matrix array and the quantiser complete (spec/15 R289, R294, R297, R298).
-/

namespace Sys2Proof.Machine

open Sys2Proof.Claims

/-- A command chosen: the arbiter's place moves, and no byte of memory changes. -/
theorem chooseMatrix_keeps {s : State} {o : EngOp} {p pod v used : Nat} (h : s.arbiter p pod = some (o, v, used)) (hp : p < s.parts.length) :
    (chooseMatrix s p pod).main = s.main ∧ (chooseMatrix s p pod).bufs = s.bufs ∧ ((chooseMatrix s p pod).part p).arb = (s.part p).arb.set pod (v, used) := by
  unfold chooseMatrix
  rw [h]
  dsimp only
  generalize hu : (s.modOp o.id fun o => { o.fetch (s.forkView o) with st := .running, stamp := s.cycle, prog0 := BitVec.ofNat 32 s.fresh }) = u
  have hmain : u.main = s.main := hu ▸ rfl
  have hbufs : u.bufs = s.bufs := hu ▸ rfl
  have hparts : u.parts = s.parts := hu ▸ rfl
  obtain ⟨h1, h2, h3⟩ := State.arraySteps_keeps
    { u.modPart p fun P => { P with arb := P.arb.set pod (v, used) } with fresh := (u.modPart p fun P => { P with arb := P.arb.set pod (v, used) }).fresh + 1 } p pod
  refine ⟨h1.trans hmain, h2.trans ?_, (h3 p).trans ?_⟩
  · exact (u.bufs_modPart p (fun P => { P with arb := P.arb.set pod (v, used) }) fun _ => rfl).trans hbufs
  · have hset := u.part_modPart p (fun P => { P with arb := P.arb.set pod (v, used) }) (hparts ▸ hp)
    exact (congrArg Partition.arb hset).trans (congrArg (fun ps : List Partition => (ps.getD p Partition.absent).arb.set pod (v, used)) hparts)

/-- A matrix command that completes writes its bank of C. -/
theorem completeMatrix_eq {s : State} {id : Nat} {o : EngOp} {p k : Nat} (ho : s.op? id = some o) (ha : o.agent = .tile p k) (hm : o.isMatrix = true)
    (hst : o.st = .moved) : completeMatrix s id =
      ((s.opWrite o .matrix 8 p k .c (16384 * o.matrixRun.1) o.matrixRun.2.1).modThread o.agent o.th (noteOperandOob o)).opDone id (engFlags o.matrixRun.2.2) := by
  unfold completeMatrix
  rw [ho]
  dsimp only
  rw [ha]
  dsimp only
  rw [if_neg (by simp [hst, hm])]

/-- A quantisation that completes writes its blocks one after another. -/
theorem completeQuant_writes {s : State} {id : Nat} {o : EngOp} {p k : Nat} (ho : s.op? id = some o) (ha : o.agent = .tile p k)
    {col : Bool} {src : Buf} {off pitch : Nat} {sf : Byte} {emax n woff : Nat} {wf : Byte} (hk : o.kind = .quant col src off pitch sf emax n woff wf)
    (hst : o.st = .running) : ∃ step : State → Nat × List Byte → State, WritesEach (fun s : State => s) step (fun x => (k, x)) p .w ∧
      let u := (((s.tile p k).seenAfter o.hb).quantRun col src off pitch sf emax n woff wf).1.foldl step s
      (completeQuant s id).main = u.main ∧ (completeQuant s id).bufs = u.bufs := by
  unfold completeQuant State.forkView
  rw [ho]
  dsimp only
  rw [ha, hk]
  dsimp only
  rw [if_neg (by simp [hst])]
  refine ⟨fun s x => s.opWrite o .engine 11 p k .w x.1 x.2, fun u x => ⟨rfl, o, .engine, 11, rfl⟩, ?_⟩
  generalize (((s.tile p k).seenAfter o.hb).quantRun col src off pitch sf emax n woff wf) = r
  obtain ⟨hmain, hbufs⟩ := startQuant_keeps (State.opDone (match (quantRanges col off pitch (elemSize sf) n).findSome? fun x => oobByte src x.1 x.2 with
    | some a => (r.1.foldl (fun (s : State) (x : Nat × List Byte) => s.opWrite o .engine 11 p k .w x.1 x.2) s).modThread o.agent o.th fun t => t.recordOob (bufCode src) false a
    | none => r.1.foldl (fun (s : State) (x : Nat × List Byte) => s.opWrite o .engine 11 p k .w x.1 x.2) s) id r.2) p (k / 8)
  rw [ha] at hmain hbufs
  refine ⟨hmain.trans ?_, hbufs.trans ?_⟩
  · rw [State.main_opDone]
    split
    · exact State.main_modThread _ _ _ _
    · rfl
  · rw [State.bufs_opDone]
    split
    · exact State.bufs_modThread _ _ _ _
    · rfl

end Sys2Proof.Machine

namespace Sys2Proof.Proofs

open Sys2Proof Sys2Proof.Machine Sys2Proof.Claims

/-- A matrix command leaves its result in its bank alone (R289). -/
theorem matrixDone {s : State} {o : EngOp} {p k : Nat} (h : OpLive s o p k) {bank : Nat} {bs : List Byte} {fl : Byte} (hrun : o.matrixRun = (bank, bs, fl))
    (hlen : bs.length = 16384) (hbank : bank < 8) (hm : o.isMatrix = true) (hst : o.st = .moved) :
    ∃ t, exec .matrixCommandComplete s = .next t ∧ OpDone t o.id ∧ (t.tile p k).readBuf .c (16384 * bank) 16384 = bs ∧ s.SameMain t ∧
      ∀ b x, (b ≠ .c ∨ x < 16384 * bank ∨ 16384 * bank + 16384 ≤ x) → (t.tile p k).readBuf b x 1 = (s.tile p k).readBuf b x 1 := by
  obtain ⟨ho, ha, hp, hk, hl⟩ := h
  have hid : o.id = s.arg.op := State.id_of_op? ho
  rw [← hid] at ho
  have heq := completeMatrix_eq ho ha hm hst
  rw [hrun] at heq
  have hbufs : (completeMatrix s o.id).bufs = (s.opWrite o .matrix 8 p k .c (16384 * bank) bs).bufs := by rw [heq, State.bufs_opDone, State.bufs_modThread]
  have hmain : (completeMatrix s o.id).main = s.main := by rw [heq, State.main_opDone, State.main_modThread, State.main_opWrite]
  refine ⟨completeMatrix s o.id, congrArg (fun i => Host.Outcome.next (completeMatrix s i)) hid.symm, (over_completeMatrix ho ha hm hst).opDone, ?_,
    State.sameMain_of_main hmain, fun b x hx => ?_⟩
  · have hread := s.readBuf_opWrite o .matrix 8 p k .c (16384 * bank) bs hk (by rw [hlen]; change _ ≤ 131072; omega)
    rw [State.readBuf_of_bufs hbufs]
    rwa [hlen] at hread
  · rw [State.readBuf_of_bufs hbufs]
    refine State.readBuf_opWrite_of_disjoint _ _ _ _ _ _ _ _ _ (.inr (.inr ?_))
    rw [hlen]
    exact hx.imp_right (Or.imp_left Nat.succ_le_of_lt)

theorem quantDone {s : State} {o : EngOp} {p k : Nat} (h : OpLive s o p k) {col : Bool} {src : Buf} {off pitch : Nat} {sf : Byte} {emax n woff : Nat} {wf : Byte}
    (hkind : o.kind = .quant col src off pitch sf emax n woff wf) (hst : o.st = .running) {q : List (Nat × List Byte)}
    (hq : (((s.tile p k).seenAfter o.hb).quantRun col src off pitch sf emax n woff wf).1 = q) :
    ∃ t, exec .quantComplete s = .next t ∧ OpDone t o.id ∧ s.SameMain t ∧
      (∀ pre x post, q = pre ++ x :: post → x.1 + x.2.length ≤ Config.bufSize .w →
        (∀ y ∈ post, y.1 + y.2.length ≤ x.1 ∨ x.1 + x.2.length ≤ y.1) → (t.tile p k).readBuf .w x.1 x.2.length = x.2) ∧
      ∀ b a, (b ≠ .w ∨ ∀ x ∈ q, a < x.1 ∨ x.1 + x.2.length ≤ a) → (t.tile p k).readBuf b a 1 = (s.tile p k).readBuf b a 1 := by
  obtain ⟨ho, ha, hp, hk, hl⟩ := h
  have hid : o.id = s.arg.op := State.id_of_op? ho
  rw [← hid] at ho
  obtain ⟨step, hw, hmain, hbufs⟩ := completeQuant_writes ho ha hkind hst
  rw [hq] at hmain hbufs
  refine ⟨completeQuant s o.id, congrArg (fun i => Host.Outcome.next (completeQuant s i)) hid.symm, (over_completeQuant ho ha hkind hst).opDone,
    State.sameMain_of_main (hmain.trans (hw.main_foldl q s)), fun pre x post hi hfit hpost => ?_, fun b a hx => ?_⟩
  · rw [State.readBuf_of_bufs hbufs, hi]
    exact hw.readBuf_foldl pre post x s hk hfit fun y hy => .inr (hpost y hy)
  · rw [State.readBuf_of_bufs hbufs]
    refine hw.readBuf_foldl_of_disjoint q s fun i hi => .inr (.inr ?_)
    rcases hx with hx | hx
    · exact .inl hx
    · exact .inr ((hx i hi).imp_left Nat.succ_le_of_lt)

theorem matrixCommandsComplete : MatrixCommandsComplete := by
  intro s
  refine ⟨?_, fun o p k h => ⟨fun bank hkind hbank hst => ?_, fun bank bs fl hrun hlen hbank hm hst => matrixDone h hrun hlen hbank hm hst,
    fun col src off pitch sf emax n woff wf hkind hst => quantDone h hkind hst rfl⟩⟩
  · intro o v used p hp hn ho harb
    obtain ⟨hmain, hbufs, hset⟩ := chooseMatrix_keeps harb hp
    obtain ⟨x, hx, m, st, rfl, hst⟩ := op_chooseMatrix harb ho
    refine ⟨chooseMatrix s p s.arg.n, rfl, ?_, ⟨_, hx, rfl, hst, ?_⟩, State.sameBytes_of hmain hbufs⟩
    · rw [hset, List.getD_eq_getElem?_getD, List.getElem?_set_self hn]
      rfl
    · have hview : s.forkView o = (s.tile p (8 * s.arg.n + v)).seenAfter o.hb := by rw [State.forkView, State.agent_of_arbiter harb]
      exact congrArg (fun T : Tile => T.fetchOps o.kind) hview
  · obtain ⟨t, hx, hdone, hread, -, hrest⟩ := matrixDone h (bank := bank) (bs := List.replicate 16384 0) (fl := 0) (by rw [EngOp.matrixRun, hkind]) List.length_replicate
      hbank (by rw [EngOp.isMatrix, hkind]) hst
    exact ⟨t, hx, hdone, hread, hrest⟩

end Sys2Proof.Proofs
end

section
/-!
PROOF of O51, fourth part: runs of a copy into a buffer, and the bytes of `g:` (spec/16 R302; spec/05 R107, R117).
-/

namespace Sys2Proof.Machine

open Sys2Proof.Claims

/-! ### Runs within their buffers (R101) -/

/-- A range of n elements lies in its buffer. -/
def FitsIn (r : Option (Buf × Nat × Nat)) (n : Nat) : Prop := ∀ x ∈ r, 0 < x.2.2 ∧ x.2.1 + n * x.2.2 ≤ Config.bufSize x.1

/-- A run within its buffers leaves %oob as it was. -/
theorem noteRuns_of_fits {src dst : Option (Buf × Nat × Nat)} {n : Nat} (hs : FitsIn src n) (hd : FitsIn dst n) : noteRuns src dst n = id := by
  have hnone {r : Option (Buf × Nat × Nat)} (h : FitsIn r n) : (r.bind fun x => if (Config.bufSize x.1 - x.2.1) / x.2.2 < n then
      some ((Config.bufSize x.1 - x.2.1) / x.2.2, x.1, max (x.2.1 + (Config.bufSize x.1 - x.2.1) / x.2.2 * x.2.2) (Config.bufSize x.1)) else none) = none := by
    cases r with
    | none => rfl
    | some x =>
      obtain ⟨hpos, hle⟩ := h x rfl
      refine if_neg (Nat.not_lt.2 ((Nat.le_div_iff_mul_le hpos).2 ?_))
      omega
  funext t
  unfold noteRuns
  dsimp only
  rw [hnone hs, hnone hd]
  rfl

theorem State.modThread_id (s : State) (p k i : Nat) : s.modThread (.tile p k) i id = s := by
  have ht (T : Tile) : T.modThread i id = T := by
    have : T.threads.modify i id = T.threads := List.modify_id i T.threads
    rw [Tile.modThread, this]
  have hP (P : Partition) : (P.modTile k fun T => T.modThread i id) = P := by
    have : (P.tiles.modify k fun T => T.modThread i id) = P.tiles := by
      rw [show (fun T : Tile => T.modThread i id) = id from funext ht, List.modify_id]
    rw [Partition.modTile, this]
  have hs : (s.parts.modify p fun P => P.modTile k fun T => T.modThread i id) = s.parts := by
    rw [show (fun P : Partition => P.modTile k fun T => T.modThread i id) = id from funext hP, List.modify_id]
  change { s with parts := s.parts.modify p fun P => P.modTile k fun T => T.modThread i id } = s
  rw [hs]

theorem elemAddr_nat (a : Word) (i e : Nat) : elemAddr a (i : Int) e = a.toNat + i * e := by
  unfold elemAddr
  dsimp only
  rw [if_pos (by positivity)]
  omega

theorem elemAddr_zero (a : Word) (e : Nat) : elemAddr a 0 e = a.toNat := by
  have := elemAddr_nat a 0 e
  rwa [Nat.zero_mul] at this

/-- What runs that no error stops leave of their tile: its rings and its place. -/
def Moved.Calm (m : Moved) (s : State) (p k : Nat) : Prop :=
  m.stopped = false ∧ (m.st.tile p k).rings = (s.tile p k).rings ∧ (m.st.part p).tiles.length = (s.part p).tiles.length

theorem Tile.rings_writeLatent (T : Tile) (b : Buf) (w : WRec) : (T.writeLatent b w).rings = T.rings := by
  unfold Tile.writeLatent
  dsimp only
  split <;> rfl

theorem State.rings_opWrite (s : State) (o : EngOp) (cls : WClass) (q p k : Nat) (b : Buf) (a : Nat) (data : List Byte) :
    ((s.opWrite o cls q p k b a data).tile p k).rings = (s.tile p k).rings :=
  s.modPart_keeps (fun P => (P.tile k).rings) (fun P => P.modTile k fun T => T.writeLatent b (o.write cls q b a data))
    (fun P => P.tile_modTile_keeps Tile.rings _ (fun T => T.rings_writeLatent _ _) k k) p p

/-! ### One run of a copy into a buffer (R302) -/

/-- The range of a buffer that a run takes for %oob. -/
def EndR.run (e : EndR) (i : Int) (z : Nat) : Option (Buf × Nat × Nat) :=
  match e with
  | .buf b a f => if bfpBits f = 0 then some (b, elemAddr a i z, z) else none
  | _ => none

section
variable {s : State} {o : EngOp} {p k : Nat} (ha : o.agent = .tile p k)
variable {b : Buf} {a : Word} {f : Byte} {src : EndR} (hconv : convEnds (.buf b a f) src = false)
include ha hconv

/-- A run of raw elements into a buffer, from a source whose bytes are sound. -/
theorem State.moveRun_eq {si : Int} {n : Nat} (hbad : ∀ va, src = .glob va → s.gPoison o.agent (elemAddr va si 4) (n * 4) = none) (q : Nat) (di : Int) :
    let u := s.modThread (.tile p k) o.th (noteRuns (src.run si 4) (EndR.run (.buf b a f) di 4) n)
    s.moveRun o q (.buf b a f) src 4 4 si di n =
      ⟨u.opWrite o .engine q p k b (elemAddr a di 4) (bytesOf 4 (u.runRead o src false 4 si n).1), 0, false⟩ := by
  intro u
  unfold State.moveRun
  dsimp only
  rw [hconv, ha]
  have hw (v : State) (xs : List Nat) (xf : Byte) : v.runWrite o q (.buf b a f) false 4 di xs xf = (v.opWrite o .engine q p k b (elemAddr a di 4) (bytesOf 4 xs), 0) := by
    unfold State.runWrite
    rw [ha]
    rfl
  cases src with
  | glob va =>
    have hnone : s.gPoison (.tile p k) (elemAddr va si 4) (n * 4) = none := ha ▸ hbad va rfl
    dsimp only
    rw [hnone]
    dsimp only
    rw [hw]
    rfl
  | _ =>
    dsimp only
    rw [hw]
    rfl

end

/-! ### The bytes that an engine reads from `g:` (R117) -/

theorem sum_pagePieces : ∀ fuel va n : Nat, (n = 0 ∨ va % 65536 + n ≤ 65536 * fuel) → ((pagePieces fuel va n).map (·.2)).sum = n := by
  intro fuel
  induction fuel with
  | zero =>
    intro va n h
    exact (show 0 = n by omega)
  | succ fuel ih =>
    intro va n h
    rw [pagePieces]
    split
    · next h0 => exact h0.symm
    · next h0 =>
      rw [List.map_cons, List.sum_cons, ih _ _ (by omega)]
      omega

theorem sum_pieces (va n : Nat) : ((pieces va n).map (·.2)).sum = n := sum_pagePieces _ va n (.inr (by omega))

/-- Parts of a range that are read with their own lengths give as many bytes as the range has. -/
theorem length_flatMap_of_parts {l : List (Nat × Nat)} {f : Nat × Nat → List Byte} (hf : ∀ x, (f x).length = x.2) : (l.flatMap f).length = (l.map (·.2)).sum := by
  rw [List.length_flatMap]
  exact congrArg List.sum (List.map_congr_left fun x _ => hf x)

theorem State.length_vread (s : State) (tr : List PageT) (va n : Nat) : (s.vread tr va n).length = n := by
  refine (length_flatMap_of_parts fun x => ?_).trans (sum_pieces va n)
  split
  · exact s.length_physRead _ _
  · exact List.length_replicate

theorem State.sum_headerParts (s : State) (p va n : Nat) : ((s.headerParts p va n).map (·.2)).sum = n := by
  unfold State.headerParts
  split
  · dsimp only
    split
    · exact Nat.add_zero n
    · change min n _ + (n - min n _ + 0) = n
      omega
  · exact Nat.add_zero n

theorem State.length_gRead (s : State) (a : Agent) (va n : Nat) : (s.gRead a va n).length = n := by
  cases a with
  | ctrl d => exact s.length_physRead _ _
  | tile p k =>
    refine (length_flatMap_of_parts fun x => ?_).trans (sum_pieces va n)
    split
    · exact List.length_replicate
    · split
      · exact (length_flatMap_of_parts fun y => s.length_vread _ _ _).trans (s.sum_headerParts _ _ _)
      · split
        · exact s.length_seen _ _ _
        · exact s.length_physRead _ _

/-! ### Runs of a linear copy into a buffer (R302) -/

/-- A copy whose ends cannot overlap is one run (R302, R107). -/
theorem linearRuns_of_apart {b : Buf} {a : Word} {f : Byte} {src : EndR} (h : ∀ b2 a2 f2, src = .buf b2 a2 f2 → b ≠ b2) (live : Bool) (si di : Int) {n : Nat} (hn : 0 < n) :
    linearRuns live (.buf b a f) src si di n = [(si, di, n)] := by
  have hone : (n + max n 1 - 1) / max n 1 = 1 := by
    rw [Nat.max_eq_left hn]
    exact Nat.div_eq_of_lt_le (by omega) (by omega)
  have hrun : (List.range ((n + max n 1 - 1) / max n 1)).map (fun j => (si + (j * max n 1 : Nat), di + (j * max n 1 : Nat), min (max n 1) (n - j * max n 1))) = [(si, di, n)] := by
    rw [hone]
    simp only [List.range_one, List.map_cons, List.map_nil, Nat.zero_mul, Nat.cast_zero, Int.add_zero, Nat.sub_zero, List.cons.injEq, Prod.mk.injEq, and_true, true_and]
    omega
  cases src with
  | buf b2 a2 f2 =>
    unfold linearRuns
    dsimp only
    rw [decide_eq_false (h b2 a2 f2 rfl)]
    exact hrun
  | _ => exact hrun

section
variable {s : State} {o : EngOp} {p k : Nat} (ha : o.agent = .tile p k)
variable {b : Buf} {a : Word} {f : Byte} {src : EndR} (hconv : convEnds (.buf b a f) src = false)
include ha hconv

/-- A copy of one run within its buffers. -/
theorem State.moveRuns_one {si di : Int} {n : Nat} (hbad : ∀ va, src = .glob va → s.gPoison o.agent (elemAddr va si 4) (n * 4) = none)
    (hs : FitsIn (src.run si 4) n) (hd : FitsIn (EndR.run (.buf b a f) di 4) n) (q : Nat) :
    s.moveRuns o q (.buf b a f) src 4 4 [(si, di, n)] = ⟨s.opWrite o .engine q p k b (elemAddr a di 4) (bytesOf 4 (s.runRead o src false 4 si n).1), 0, false⟩ := by
  have hrun := State.moveRun_eq ha hconv hbad q di
  dsimp only at hrun
  rw [noteRuns_of_fits hs hd, s.modThread_id] at hrun
  unfold State.moveRuns
  rw [List.foldl_cons, List.foldl_nil]
  dsimp only
  rw [hrun]
  simp

theorem State.calm_moveRun {si : Int} {n : Nat} (hbad : ∀ va, src = .glob va → s.gPoison o.agent (elemAddr va si 4) (n * 4) = none) (q : Nat) (di : Int) :
    (s.moveRun o q (.buf b a f) src 4 4 si di n).Calm s p k := by
  rw [State.moveRun_eq ha hconv hbad q di]
  refine ⟨rfl, ?_, ?_⟩
  · refine (State.rings_opWrite _ _ _ _ _ _ _ _ _).trans ?_
    exact s.modPart_keeps (fun P => (P.tile k).rings) (fun P => P.modTile k _) (fun P => P.tile_modTile_keeps Tile.rings (fun T => T.modThread o.th _) (fun _ => rfl) k k) p p
  · exact (State.tiles_opWrite _ _ _ _ _ _ _ _ _ _).trans (State.tiles_of_bufs (s.bufs_modThread _ _ _) p)

/-- One run, from bytes that are sound. -/
theorem State.calm_moveRuns_one {si di : Int} {n : Nat} (hbad : ∀ va, src = .glob va → s.gPoison o.agent (elemAddr va si 4) (n * 4) = none) (q : Nat) :
    (s.moveRuns o q (.buf b a f) src 4 4 [(si, di, n)]).Calm s p k := by
  unfold State.moveRuns
  rw [List.foldl_cons, List.foldl_nil]
  dsimp only
  rw [if_neg (by simp), if_neg (by simp)]
  exact State.calm_moveRun ha hconv hbad q di

/-- Runs of a copy within its tile's buffers. -/
theorem State.calm_moveRuns (hsrc : ∀ va, src ≠ .glob va) (q : Nat) (rs : List (Int × Int × Nat)) : (s.moveRuns o q (.buf b a f) src 4 4 rs).Calm s p k := by
  unfold State.moveRuns
  extract_lets m
  have hm : m.1.Calm s p k := by
    refine List.foldlRecOn (motive := fun x : Moved × State × Nat => x.1.Calm s p k) rs _ ⟨rfl, rfl, rfl⟩ fun x hx r _ => ?_
    obtain ⟨h1, h2, h3⟩ := hx
    obtain ⟨g1, g2, g3⟩ := State.calm_moveRun (s := x.1.st) ha hconv (si := r.1) (n := r.2.2) (fun va h => absurd h (hsrc va)) q r.2.1
    dsimp only
    rw [if_neg (by simp [h1])]
    exact ⟨g1, g2.trans h2, g3.trans h3⟩
  rw [if_neg (by simp)]
  exact hm

end

end Sys2Proof.Machine
end

section
/-!
PROOF of O51, concluded: a copy completes, a slot is filled (spec/16 R302, R303; spec/05 R106), and the claim.
-/

namespace Sys2Proof.Machine

open Sys2Proof.Claims

/-! ### What the end of a copy leaves (R302, R304) -/

theorem State.parts_copyDue (s : State) (o : EngOp) : (s.copyDue o).parts = s.parts := by
  unfold State.copyDue
  dsimp only
  split <;> rfl

theorem State.bufs_of_parts {s t : State} (h : t.parts = s.parts) : t.bufs = s.bufs := congrArg (List.map fun P : Partition => P.tiles.map Tile.mem) h

theorem State.noteCopyRead_keeps (s : State) (o : EngOp) : (s.noteCopyRead o).main = s.main ∧ (s.noteCopyRead o).bufs = s.bufs := by
  unfold State.noteCopyRead
  split
  · split
    · exact ⟨rfl, s.bufs_modPart _ (·.sample 4 (s.cycle - o.stamp)) fun _ => rfl⟩
    · exact ⟨rfl, rfl⟩
  · exact ⟨rfl, rfl⟩

theorem State.main_copyDue (s : State) (o : EngOp) : (s.copyDue o).main = s.main := by
  unfold State.copyDue
  dsimp only
  split <;> rfl

theorem State.kickCopy_keeps (s : State) (die cq : Nat) : (s.kickCopy die cq).main = s.main ∧ (s.kickCopy die cq).bufs = s.bufs := by
  rcases s.kickCopy_cases die cq with he | ⟨o, -, -, he⟩ <;> rw [he]
  · exact ⟨rfl, rfl⟩
  · exact ⟨State.main_copyDue _ _, State.bufs_of_parts (State.parts_copyDue _ _)⟩

/-- The end of a copy changes no byte of memory. -/
theorem State.copyEnd_keeps (s : State) (o : EngOp) (fl : Byte) : (s.copyEnd o fl).main = s.main ∧ (s.copyEnd o fl).bufs = s.bufs := by
  obtain ⟨h1, h2⟩ := s.noteCopyRead_keeps o
  obtain ⟨h3, h4⟩ := ((s.noteCopyRead o).opDone o.id (o.flags ||| fl)).kickCopy_keeps (s.dieOf o.agent) (o.copyQ.getD 0)
  exact ⟨h3.trans ((State.main_opDone _ _ _).trans h1), h4.trans ((State.bufs_opDone _ _ _).trans h2)⟩

theorem Moved.parts_next {m : Moved} (h : m.stopped = false) (o : EngOp) (id : Nat) (last : Bool) : (m.next o id last).parts = m.st.parts := by
  unfold Moved.next
  dsimp only
  rw [if_neg (by simp [h])]
  split
  · rfl
  · exact State.parts_copyDue _ _

/-- A slot filled whole, with what its end does to its tile. -/
theorem Moved.parts_next_filled {m : Moved} (h : m.stopped = false) (F : State → State) (per : Nat) (o : EngOp) (id : Nat) (last : Bool) :
    (Moved.next (if m.stopped = true ∨ per < per then m else { m with st := F m.st }) o id last).parts = (F m.st).parts := by
  rw [if_neg (not_or.2 ⟨by simp [h], Nat.lt_irrefl _⟩)]
  exact Moved.parts_next (m := { m with st := F m.st }) h o id last

theorem State.tile_modTile (s : State) (p k : Nat) (F : Tile → Tile) (hk : k < (s.part p).tiles.length) : (s.modTile p k F).tile p k = F (s.tile p k) :=
  (congrArg (Partition.tile · k) (s.part_modPart p (fun P => P.modTile k F) (State.lt_of_tile hk))).trans ((s.part p).tile_modTile F hk)

/-! ### A linear copy between two buffers (R302) -/

theorem convEnds_bufs (b b2 : Buf) (a a2 : Word) (f : Byte) : convEnds (.buf b a f) (.buf b2 a2 f) = false := by
  simp [convEnds, EndR.fmt?]

theorem fitsIn_run {b : Buf} {a : Word} {f : Byte} {i : Int} {n x : Nat} (hx : elemAddr a i 4 = x) (h : x + n * 4 ≤ Config.bufSize b) :
    FitsIn (EndR.run (.buf b a f) i 4) n := by
  intro r hr
  unfold EndR.run at hr
  dsimp only at hr
  split at hr
  · obtain rfl := Option.some.inj hr
    exact ⟨Nat.succ_pos 3, hx ▸ h⟩
  · cases hr

theorem fitsIn_none {e : EndR} (h : ∀ b a f, e ≠ .buf b a f) (i : Int) (z n : Nat) : FitsIn (e.run i z) n := by
  intro r hr
  unfold EndR.run at hr
  split at hr
  · next b a f => exact absurd rfl (h b a f)
  · cases hr

theorem bytesOf_run {bs : List Byte} {n : Nat} (h : bs.length = n * 4) : bytesOf 4 (elemsOf 4 bs) = bs := bytesOf_elemsOf (by decide) n (h.trans (Nat.mul_comm n 4))

section
variable {s : State} {o : EngOp} {p k : Nat} (ha : o.agent = .tile p k)
include ha

/-- One run of raw bytes between two buffers. -/
theorem State.moveRuns_bufs {b b2 : Buf} {a a2 : Word} {f : Byte} {si di : Int} {n x y z : Nat} (hz : n * 4 = z) (hx : elemAddr a di 4 = x) (hy : elemAddr a2 si 4 = y)
    (hfit : x + z ≤ Config.bufSize b) (hfit2 : y + z ≤ Config.bufSize b2) (q : Nat) :
    s.moveRuns o q (.buf b a f) (.buf b2 a2 f) 4 4 [(si, di, n)] = ⟨s.opWrite o .engine q p k b x (((s.tile p k).seenAfter o.hb).readBuf b2 y z), 0, false⟩ := by
  subst hz
  have hread : (s.runRead o (.buf b2 a2 f) false 4 si n).1 = elemsOf 4 (((s.tile p k).seenAfter o.hb).readBuf b2 y (n * 4)) := by
    unfold State.runRead State.forkView
    rw [ha, ← hy]
    rfl
  rw [State.moveRuns_one ha (convEnds_bufs b b2 a a2 f) (fun _ h => by cases h) (fitsIn_run hy hfit2) (fitsIn_run hx hfit), hread,
    bytesOf_run (Tile.length_readBuf _ _ _ _), hx]

/-- One run of raw bytes from sound bytes of `g:` into a buffer. -/
theorem State.moveRuns_glob {b : Buf} {a va : Word} {f : Byte} {si di : Int} {n x y z : Nat} (hz : n * 4 = z) (hx : elemAddr a di 4 = x) (hy : elemAddr va si 4 = y)
    (hfit : x + z ≤ Config.bufSize b) (hbad : s.gPoison o.agent y z = none) (q : Nat) :
    s.moveRuns o q (.buf b a f) (.glob va) 4 4 [(si, di, n)] = ⟨s.opWrite o .engine q p k b x (s.gRead o.agent y z), 0, false⟩ := by
  subst hz
  have hread : (s.runRead o (.glob va) false 4 si n).1 = elemsOf 4 (s.gRead o.agent y (n * 4)) := by
    unfold State.runRead
    rw [ha, ← hy]
  rw [State.moveRuns_one ha rfl (fun va' h => by cases h; rw [hy]; exact hbad) (fitsIn_none (fun _ _ _ h => by cases h) _ _ _) (fitsIn_run hx hfit), hread,
    bytesOf_run (s.length_gRead _ _ _), hx]

/-- COPY_COMPLETE of a linear copy between two buffers of one format: one run of raw bytes. -/
theorem completeCopy_eq {id : Nat} (ho : s.op? id = some o) {cq : Fin 8} {b b2 : Buf} {a a2 : Word} {f : Byte} {n : Nat}
    (hkind : o.kind = .copy cq none 0 (.buf b a f) (.buf b2 a2 f) n) (hne : b ≠ b2) (hst : o.st = .running) (h4 : n % 4 = 0) (hn : 0 < n)
    (hfit : a.toNat + n ≤ Config.bufSize b) (hfit2 : a2.toNat + n ≤ Config.bufSize b2) :
    completeCopy s id = (s.opWrite o .engine cq.val p k b a.toNat (((s.tile p k).seenAfter o.hb).readBuf b2 a2.toNat n)).copyEnd o 0 := by
  have hlen : n / 4 * 4 = n := by omega
  have hslot : o.slotted = false := by rw [EngOp.slotted, hkind]
  have hheld : s.copyHeld o = false := by
    unfold State.copyHeld
    rw [hkind]
    exact Bool.and_false _
  have hsize : endSizes false 0 (.buf b a f) (.buf b2 a2 f) = (4, 4) := by simp [endSizes, convEnds_bufs]
  have helems : linearElems (.buf b2 a2 f) (convEnds (.buf b a f) (.buf b2 a2 f)) 4 n = n / 4 := by simp [linearElems, convEnds_bufs]
  have hruns : linearRuns (s.endLive o.agent (.buf b a f) n) (.buf b a f) (.buf b2 a2 f) 0 0 (n / 4) = [(0, 0, n / 4)] :=
    linearRuns_of_apart (fun _ _ _ h => by cases h; exact hne) _ _ _ (by omega)
  have hmove := State.moveRuns_bufs (s := s) ha (f := f) hlen (elemAddr_zero a 4) (elemAddr_zero a2 4) hfit hfit2 cq.val
  unfold completeCopy
  rw [ho]
  dsimp only
  rw [hkind]
  dsimp only
  rw [if_neg (by rintro ⟨h1, -⟩; exact h1 hst), hslot, if_neg (by decide), hheld, if_neg (by decide), Option.isSome_none, hsize]
  dsimp only
  rw [helems, hruns, hmove]

end

/-! ### A slot of a ring filled (R303, R106) -/

/-- The place and identity of the slot that a copy fills next change neither what it reads nor its tile. -/
theorem State.takeClaim_keeps (s : State) (o : EngOp) (ptr : BitVec 32) : (s.newId.takeClaim o ptr).parts = s.parts ∧
    (s.newId.takeClaim o ptr).gPoison = s.gPoison ∧ (s.newId.takeClaim o ptr).gRead = s.gRead := by
  unfold State.takeClaim
  split <;> exact ⟨rfl, rfl, rfl⟩

theorem endSizes_raw {dst src : EndR} (h : convEnds dst src = false) : endSizes false 0 dst src = (4, 4) := by simp [endSizes, h]

theorem linearElems_raw (src : EndR) (n : Nat) : linearElems src false 4 n = n / 4 := by simp [linearElems]

/-- The place of the slot that a copy fills next. -/
def slotOf (s : State) (o : EngOp) (p k : Nat) (h : Hnd) : Nat :=
  ((s.tile p k).ring h).slotAddr ((if o.st = .running then ((s.tile p k).ring h).prod else o.prog0) + BitVec.ofNat 32 o.prog)

/-- The runs of the slot that a copy fills next. -/
def slotRuns (s : State) (o : EngOp) (p k : Nat) (h : Hnd) (f : Byte) (src : EndR) : List (Int × Int × Nat) :=
  linearRuns false (.buf ((s.tile p k).ring h).buf (BitVec.ofNat 64 (slotOf s o p k h)) f) src (o.prog * (((s.tile p k).ring h).slotSize / 4) : Nat) 0
    (((s.tile p k).ring h).slotSize / 4)

/-- The bytes of the slot that a copy fills next, moved. -/
def slotMoved (s : State) (o : EngOp) (p k cq : Nat) (h : Hnd) (f : Byte) (src : EndR) : Moved :=
  (s.newId.takeClaim o ((s.tile p k).ring h).prod).moveRuns (o.slotOp s.opCtr) cq
    (.buf ((s.tile p k).ring h).buf (BitVec.ofNat 64 (slotOf s o p k h)) f) src 4 4 (slotRuns s o p k h f src)

theorem Ring.slotSize_eq (r : Ring) : r.slotSize = 4 * (r.slotSize / 4) ∧ 0 < r.slotSize / 4 := by
  have h : r.slotSize = 4 * 2 ^ (r.slot.toNat + 4) := by rw [Ring.slotSize]; ring
  have hpos : 0 < 2 ^ (r.slot.toNat + 4) := Nat.two_pow_pos _
  omega

/-- A slot of raw elements that is filled whole advances its ring by one. -/
theorem parts_fillSlot {s : State} {o : EngOp} {p k : Nat} {h : Hnd} (hu : ((s.tile p k).ring h).unused = false) (hf : ((s.tile p k).ring h).free ≠ 0)
    (hc : o.st = .running → s.claimed o h true = false) {f : Byte} {src : EndR}
    (hconv : convEnds (.buf ((s.tile p k).ring h).buf (BitVec.ofNat 64 (slotOf s o p k h)) f) src = false) {n : Nat} (hn : (o.prog + 1) * ((s.tile p k).ring h).slotSize ≤ n)
    {cq : Nat} (hm : (slotMoved s o p k cq h f src).stopped = false) :
    (fillSlot s o p k cq h f src n).parts = ((slotMoved s o p k cq h f src).st.modTile p k fun T => T.advance h true 1 (s.opCtr :: o.made)).parts := by
  obtain ⟨hz, hpos⟩ := ((s.tile p k).ring h).slotSize_eq
  have hper : min (((s.tile p k).ring h).slotSize / 4) (n / 4 - o.prog * (((s.tile p k).ring h).slotSize / 4)) = ((s.tile p k).ring h).slotSize / 4 := by
    have : (o.prog + 1) * (((s.tile p k).ring h).slotSize / 4) ≤ n / 4 := by
      rw [Nat.le_div_iff_mul_le (by decide), Nat.mul_assoc, Nat.mul_comm _ 4, ← hz]
      exact hn
    rw [Nat.succ_mul] at this
    omega
  unfold fillSlot
  dsimp only
  rw [if_neg (by rintro (⟨h1, h2⟩ | h1 | h1); exacts [by simp [hc h1] at h2, by simp [hu] at h1, hf h1])]
  unfold slotOf at hconv
  unfold slotMoved slotRuns slotOf at hm ⊢
  rw [endSizes_raw hconv]
  dsimp only
  rw [hconv, linearElems_raw, hper]
  exact Moved.parts_next_filled hm (fun u => u.modTile p k fun T => T.advance h true 1 (s.opCtr :: o.made)) _ o s.opCtr _

theorem fillSlot_waits {s : State} {o : EngOp} {p k : Nat} {h : Hnd} (hf : ((s.tile p k).ring h).free = 0) (cq : Nat) (f : Byte) (src : EndR) (n : Nat) :
    fillSlot s o p k cq h f src n = s.copyDue o := if_pos (.inr (.inr hf))

theorem State.part_takeClaim (s : State) (o : EngOp) (ptr : BitVec 32) (p : Nat) : (s.newId.takeClaim o ptr).part p = s.part p :=
  congrArg (fun ps : List Partition => ps.getD p Partition.absent) (s.takeClaim_keeps o ptr).1

theorem State.readBuf_opWrite_whole {s : State} {o : EngOp} {cls : WClass} {q p k : Nat} {b : Buf} {a z : Nat} {data : List Byte} (hk : k < (s.part p).tiles.length)
    (hlen : data.length = z) (h : a + z ≤ Config.bufSize b) : ((s.opWrite o cls q p k b a data).tile p k).readBuf b a z = data := by
  subst hlen
  exact s.readBuf_opWrite o cls q p k b a data hk h

section
variable {s : State} {o : EngOp} {p k : Nat} {h : Hnd} {f : Byte}

theorem slotRuns_apart {src : EndR} (hne : ∀ b2 a2 f2, src = .buf b2 a2 f2 → ((s.tile p k).ring h).buf ≠ b2) :
    slotRuns s o p k h f src = [(((o.prog * (((s.tile p k).ring h).slotSize / 4) : Nat) : Int), 0, ((s.tile p k).ring h).slotSize / 4)] :=
  linearRuns_of_apart hne _ _ _ ((s.tile p k).ring h).slotSize_eq.2

theorem elemAddr_slot (a : Word) : elemAddr a (o.prog * (((s.tile p k).ring h).slotSize / 4) : Nat) 4 = a.toNat + o.prog * ((s.tile p k).ring h).slotSize := by
  obtain ⟨hz, -⟩ := ((s.tile p k).ring h).slotSize_eq
  rw [elemAddr_nat, Nat.mul_assoc, Nat.mul_comm _ 4, ← hz]

theorem elemAddr_slotOf (hfit : slotOf s o p k h + ((s.tile p k).ring h).slotSize ≤ Config.bufSize ((s.tile p k).ring h).buf) :
    elemAddr (BitVec.ofNat 64 (slotOf s o p k h)) 0 4 = slotOf s o p k h := by
  have hsize (b : Buf) : Config.bufSize b < 2 ^ 64 := by cases b <;> decide
  have := hsize ((s.tile p k).ring h).buf
  rw [elemAddr_zero, BitVec.toNat_ofNat, Nat.mod_eq_of_lt (by omega)]

variable (ha : o.agent = .tile p k)
include ha

/-- The bytes of a slot from sound bytes of memory are moved whole. -/
theorem calm_slotMoved {src : EndR} (hsrc : (∃ b a, src = .buf b a f) ∨ ∃ va, src = .glob va)
    (hsound : ∀ va, src = .glob va → s.gPoison o.agent (va.toNat + o.prog * ((s.tile p k).ring h).slotSize) ((s.tile p k).ring h).slotSize = none) (cq : Nat) :
    (slotMoved s o p k cq h f src).Calm s p k := by
  obtain ⟨hz, hpos⟩ := ((s.tile p k).ring h).slotSize_eq
  obtain ⟨-, hpoison, -⟩ := s.takeClaim_keeps o ((s.tile p k).ring h).prod
  have hpart := s.part_takeClaim o ((s.tile p k).ring h).prod p
  have hcongr {m : Moved} (hm : m.Calm (s.newId.takeClaim o ((s.tile p k).ring h).prod) p k) : m.Calm s p k := by
    obtain ⟨h1, h2, h3⟩ := hm
    exact ⟨h1, h2.trans (congrArg (fun P : Partition => (P.tile k).rings) hpart), h3.trans (congrArg (fun P : Partition => P.tiles.length) hpart)⟩
  refine hcongr ?_
  unfold slotMoved
  rcases hsrc with ⟨b, a, rfl⟩ | ⟨va, rfl⟩
  · exact State.calm_moveRuns (o := o.slotOp s.opCtr) ha (convEnds_bufs _ _ _ _ _) (fun _ h => by cases h) cq _
  · rw [slotRuns_apart (src := .glob va) fun _ _ _ he => by cases he]
    refine State.calm_moveRuns_one (o := o.slotOp s.opCtr) ha rfl (fun va' h => ?_) cq
    cases h
    rw [elemAddr_slot, hpoison, Nat.mul_comm _ 4, ← hz]
    exact hsound va rfl

section
variable (hk : k < (s.part p).tiles.length)
  (hfit : slotOf s o p k h + ((s.tile p k).ring h).slotSize ≤ Config.bufSize ((s.tile p k).ring h).buf) (cq : Nat)
include hk hfit

/-- A slot from another buffer of the tile holds its bytes. -/
theorem readBuf_slotMoved_buf {b : Buf} {a : Word} (hne : b ≠ ((s.tile p k).ring h).buf)
    (hfit2 : a.toNat + (o.prog + 1) * ((s.tile p k).ring h).slotSize ≤ Config.bufSize b) :
    ((slotMoved s o p k cq h f (.buf b a f)).st.tile p k).readBuf ((s.tile p k).ring h).buf (slotOf s o p k h) ((s.tile p k).ring h).slotSize =
      ((s.tile p k).seenAfter o.made).readBuf b (a.toNat + o.prog * ((s.tile p k).ring h).slotSize) ((s.tile p k).ring h).slotSize := by
  obtain ⟨hz, -⟩ := ((s.tile p k).ring h).slotSize_eq
  have hpart := s.part_takeClaim o ((s.tile p k).ring h).prod p
  have htile : (s.newId.takeClaim o ((s.tile p k).ring h).prod).tile p k = s.tile p k := congrArg (Partition.tile · k) hpart
  have hend : a.toNat + o.prog * ((s.tile p k).ring h).slotSize + ((s.tile p k).ring h).slotSize ≤ Config.bufSize b := by
    rw [Nat.succ_mul] at hfit2
    omega
  have hruns : slotRuns s o p k h f (.buf b a f) = _ := slotRuns_apart fun b2 a2 f2 he => (EndR.buf.inj he).1 ▸ hne.symm
  have hmove := State.moveRuns_bufs (s := s.newId.takeClaim o ((s.tile p k).ring h).prod) (o := o.slotOp s.opCtr) ha (f := f) (b2 := b)
    ((Nat.mul_comm _ 4).trans hz.symm) (elemAddr_slotOf hfit) (elemAddr_slot a) hfit hend cq
  unfold slotMoved
  rw [hruns, hmove, htile]
  exact State.readBuf_opWrite_whole (by rw [hpart]; exact hk) (Tile.length_readBuf _ _ _ _) hfit

/-- A slot from sound bytes of `g:` holds them. -/
theorem readBuf_slotMoved_glob {va : Word} (hsound : s.gPoison o.agent (va.toNat + o.prog * ((s.tile p k).ring h).slotSize) ((s.tile p k).ring h).slotSize = none) :
    ((slotMoved s o p k cq h f (.glob va)).st.tile p k).readBuf ((s.tile p k).ring h).buf (slotOf s o p k h) ((s.tile p k).ring h).slotSize =
      s.gRead o.agent (va.toNat + o.prog * ((s.tile p k).ring h).slotSize) ((s.tile p k).ring h).slotSize := by
  obtain ⟨hz, -⟩ := ((s.tile p k).ring h).slotSize_eq
  obtain ⟨-, hpoison, hread⟩ := s.takeClaim_keeps o ((s.tile p k).ring h).prod
  have hpart := s.part_takeClaim o ((s.tile p k).ring h).prod p
  have hruns : slotRuns s o p k h f (.glob va) = _ := slotRuns_apart fun _ _ _ he => by cases he
  have hmove := State.moveRuns_glob (s := s.newId.takeClaim o ((s.tile p k).ring h).prod) (o := o.slotOp s.opCtr) ha (f := f)
    ((Nat.mul_comm _ 4).trans hz.symm) (elemAddr_slotOf hfit) (elemAddr_slot va) hfit (by rw [hpoison]; exact hsound) cq
  unfold slotMoved
  rw [hruns, hmove, hread]
  exact State.readBuf_opWrite_whole (by rw [hpart]; exact hk) (s.length_gRead _ _ _) hfit

end

end

end Sys2Proof.Machine

namespace Sys2Proof.Proofs

open Sys2Proof Sys2Proof.Machine Sys2Proof.Claims

/-- A linear copy between two buffers of one format leaves the source's bytes in its destination alone (R302). -/
theorem linearCopyMoves {s : State} {o : EngOp} {p k : Nat} (hlive : OpLive s o p k) {cq : Fin 8} {b b2 : Buf} {a a2 : Word} {f : Byte} {n : Nat}
    (hkind : o.kind = .copy cq none 0 (.buf b a f) (.buf b2 a2 f) n) (hne : b ≠ b2) (hst : o.st = .running) (h4 : n % 4 = 0) (hn : 0 < n)
    (hfit : a.toNat + n ≤ Config.bufSize b) (hfit2 : a2.toNat + n ≤ Config.bufSize b2) : ∃ t, exec .copyComplete s = .next t ∧ OpDone t o.id ∧
      (t.tile p k).readBuf b a.toNat n = ((s.tile p k).seenAfter o.hb).readBuf b2 a2.toNat n ∧
      (∀ x, (x < a.toNat ∨ a.toNat + n ≤ x) → (t.tile p k).readBuf b x 1 = (s.tile p k).readBuf b x 1) ∧
      (∀ b3 x, b3 ≠ b → (t.tile p k).readBuf b3 x 1 = (s.tile p k).readBuf b3 x 1) ∧ s.SameMain t := by
  obtain ⟨ho, ha, hp, hk, -⟩ := hlive
  have hid : o.id = s.arg.op := State.id_of_op? ho
  rw [← hid] at ho
  have hheld : s.copyHeld o = false := by
    unfold State.copyHeld
    rw [hkind]
    exact Bool.and_false _
  have heq := completeCopy_eq ha ho hkind hne hst h4 hn hfit hfit2
  obtain ⟨hmain, hbufs⟩ := State.copyEnd_keeps (s.opWrite o .engine cq.val p k b a.toNat (((s.tile p k).seenAfter o.hb).readBuf b2 a2.toNat n)) o 0
  rw [← heq] at hmain hbufs
  have hlen : (((s.tile p k).seenAfter o.hb).readBuf b2 a2.toNat n).length = n := Tile.length_readBuf _ _ _ _
  refine ⟨completeCopy s o.id, congrArg (fun i => Host.Outcome.next (completeCopy s i)) hid.symm, (over_completeCopy ho ha hkind (.inl hst) (.inr hheld)).opDone, ?_,
    fun x hx => ?_, fun b3 x hb => ?_, State.sameMain_of_main hmain⟩
  · rw [State.readBuf_of_bufs hbufs]
    exact State.readBuf_opWrite_whole hk hlen hfit
  · rw [State.readBuf_of_bufs hbufs]
    refine State.readBuf_opWrite_of_disjoint _ _ _ _ _ _ _ _ _ (.inr (.inr (.inr ?_)))
    rw [hlen]
    exact hx.imp_left Nat.succ_le_of_lt
  · rw [State.readBuf_of_bufs hbufs]
    exact State.readBuf_opWrite_of_disjoint _ _ _ _ _ _ _ _ _ (.inr (.inr (.inl hb)))

section
variable {s : State} {o : EngOp} {p k : Nat} (hlive : OpLive s o p k) {cq : Fin 8} {h : Hnd} {f : Byte} {src : EndR} {n : Nat}
  (hkind : o.kind = .copy cq none 0 (.ring h f) src n) (hst : o.st = .moved ∨ o.st = .running) (hheld : s.copyHeld o = false)
include hlive hkind hst hheld

theorem engineSlot_fill : exec .engineSlotDelivered s = .next (fillSlot s o p k cq.val h f src n) := by
  obtain ⟨ho, ha, -, -, -⟩ := hlive
  exact congrArg Host.Outcome.next (engineSlot_eq ho ha hkind hst.symm hheld)

/-- A copy into a ring with no free slot waits (R106). -/
theorem slotCopyWaits (hf : ((s.tile p k).ring h).free = 0) : ∃ t, exec .engineSlotDelivered s = .next t ∧ t.parts = s.parts ∧ t.ops = s.ops ∧
    ∃ d ∈ t.agenda, d.ev = .engineSlotDelivered ∧ d.arg.op = o.id ∧ s.cycle < d.at_ := by
  have hslot : o.slotted = true := by rw [EngOp.slotted, hkind]
  refine ⟨_, engineSlot_fill hlive hkind hst hheld, ?_⟩
  rw [fillSlot_waits hf, State.copyDue, if_pos hslot]
  exact ⟨rfl, rfl, _, List.mem_append_right _ (List.mem_singleton_self _), rfl, rfl, Nat.lt_add_of_pos_right (by omega)⟩

/-- A copy into a ring fills its next slot (R303). -/
theorem slotCopyFills (hsrc : (∃ b a, src = .buf b a f) ∨ ∃ va, src = .glob va) (hu : ((s.tile p k).ring h).unused = false) (hf : ((s.tile p k).ring h).free ≠ 0)
    (hc : o.st = .running → s.claimed o h true = false) (hn : (o.prog + 1) * ((s.tile p k).ring h).slotSize ≤ n)
    (hsound : ∀ va, src = .glob va → s.gPoison o.agent (va.toNat + o.prog * ((s.tile p k).ring h).slotSize) ((s.tile p k).ring h).slotSize = none) :
    ∃ t, exec .engineSlotDelivered s = .next t ∧ ((t.tile p k).ring h).prod = ((s.tile p k).ring h).prod + 1 ∧
      ((t.tile p k).ring h).cons = ((s.tile p k).ring h).cons ∧ t.bufs = (slotMoved s o p k cq.val h f src).st.bufs := by
  have hfill := engineSlot_fill hlive hkind hst hheld
  obtain ⟨ho, ha, hp, hk, -⟩ := hlive
  obtain ⟨hm, hrings, hlen⟩ := calm_slotMoved ha hsrc hsound cq.val
  have hconv : convEnds (.buf ((s.tile p k).ring h).buf (BitVec.ofNat 64 (slotOf s o p k h)) f) src = false := by
    rcases hsrc with ⟨b, a, rfl⟩ | ⟨va, rfl⟩
    · exact convEnds_bufs _ _ _ _ _
    · rfl
  have hparts := parts_fillSlot hu hf hc hconv hn hm
  have htile : (fillSlot s o p k cq.val h f src n).tile p k = ((slotMoved s o p k cq.val h f src).st.tile p k).advance h true 1 (s.opCtr :: o.made) :=
    (congrArg (fun ps : List Partition => (ps.getD p Partition.absent).tile k) hparts).trans (State.tile_modTile _ _ _ _ (by rw [hlen]; exact hk))
  have hring : ((fillSlot s o p k cq.val h f src n).tile p k).ring h = ((s.tile p k).ring h).advance true 1 := by
    rw [htile, Tile.ring, Tile.advance, hrings]
    exact Vector.getElem_set_self _
  refine ⟨_, hfill, ?_, ?_, ?_⟩
  · rw [hring]
    rfl
  · rw [hring]
    rfl
  · exact (State.bufs_of_parts hparts).trans (State.bufs_modTile _ _ _ _ fun _ => rfl)

end

theorem copiesMove : CopiesMove := by
  intro s o p k cq hlive
  refine ⟨fun b b2 a a2 f n hkind hne hst h4 hn hfit hfit2 => linearCopyMoves hlive hkind hne hst h4 hn hfit hfit2, ?_⟩
  intro h f src n hkind hst hsrc hheld r z place sound hu
  refine ⟨fun hf hc hn _ hsound => ?_, fun hf => slotCopyWaits hlive hkind hst hheld hf⟩
  obtain ⟨t, hx, hprod, hcons, hbufs⟩ := slotCopyFills hlive hkind hst hheld hsrc hu hf hc hn hsound
  obtain ⟨-, ha, -, hk, -⟩ := hlive
  refine ⟨t, hx, hprod, hcons, fun hfit b a hb hne hfit2 => ?_, fun hfit va hva => ?_⟩
  · subst hb
    rw [State.readBuf_of_bufs hbufs]
    exact readBuf_slotMoved_buf ha hk hfit cq.val hne hfit2
  · subst hva
    rw [State.readBuf_of_bufs hbufs]
    exact readBuf_slotMoved_glob ha hk hfit cq.val (hsound va rfl)

/-- Settles O51: a completion changes what its operation's write says, and the writes of one operation are folded from the state before it. -/
theorem enginesComplete : Obligations.EnginesComplete := by
  unfold Obligations.EnginesComplete
  exact ⟨copiesMove, writeBehindAndSignals, enlargerPlaces, matrixCommandsComplete⟩

end Sys2Proof.Proofs
end

section
/-!
PROOF of O50: the watchdog, the elapsed bounds, and partition events (spec/04 R86, R88; spec/03 R56).
-/

namespace Sys2Proof.Machine

/-! ### Events of a partition (R80, R173) -/

/-- An event of a partition adds its contribution to the partition's. -/
theorem part_partEvent {s : State} {p : Nat} (hp : p < s.parts.length) (cause : Cause) {vote : BitVec 2} (hv : vote ≠ 0) (detail : Word) :
    (partEvent s p cause vote detail).part p = { s.part p with events := (s.part p).events ++ [⟨8, vote, cause, detail⟩] } := by
  rw [State.part, parts_partEvent, getD_modify _ _ _ _ hp, if_neg hv]
  rfl

@[simp] theorem length_parts_partEvent (s : State) (p : Nat) (cause : Cause) (vote : BitVec 2) (detail : Word) :
    (partEvent s p cause vote detail).parts.length = s.parts.length := by
  rw [parts_partEvent, List.length_modify]

/-- The machine after an event of a partition that changes its partition further. -/
theorem part_modPart_partEvent {s : State} {p : Nat} (hp : p < s.parts.length) (cause : Cause) {vote : BitVec 2} (hv : vote ≠ 0) (detail : Word)
    (f : Partition → Partition) : ((partEvent s p cause vote detail).modPart p f).part p =
      f { s.part p with events := (s.part p).events ++ [⟨8, vote, cause, detail⟩] } := by
  rw [State.part_modPart _ _ _ (by rwa [length_parts_partEvent]), part_partEvent hp cause hv]

/-! ### A bound that has elapsed (R56, R83, R86) -/

/-- A vote that has reached the root stands, whatever bound elapses after it. -/
theorem State.boundWash_of_reachedRoot {s : State} {p : Nat} (h : s.reachedRoot p = true) (detail : Word) : s.boundWash p detail = s := by
  unfold State.boundWash
  dsimp only
  rw [h, Bool.true_or, if_pos rfl]

/-- A superstep that runs, and whose vote has not reached the root, is washed. -/
theorem State.boundWash_of_running {s : State} {p : Nat} (h : s.reachedRoot p = false) (hrun : (s.part p).run = .running) (detail : Word) :
    s.boundWash p detail = (partEvent s p .boundWash 1 detail).modPart p fun P => { P with run := .voting } := by
  unfold State.boundWash
  dsimp only
  rw [h, hrun]
  exact if_neg (by decide)

theorem State.part_boundWash {s : State} {p : Nat} (hp : p < s.parts.length) (h : s.reachedRoot p = false) (hrun : (s.part p).run = .running)
    (detail : Word) : ((s.boundWash p detail).part p).run = .voting ∧
      ((s.boundWash p detail).part p).events = (s.part p).events ++ [⟨8, 1, .boundWash, detail⟩] := by
  rw [State.boundWash_of_running h hrun, part_modPart_partEvent hp _ (by decide)]
  exact ⟨rfl, rfl⟩

theorem Partition.preemptDue_iff (P : Partition) (cyc : Nat) : P.preemptDue cyc = true ↔ ∃ k c, (.preempt k, c) ∈ P.stops ∧ c ≤ cyc := by
  rw [Partition.preemptDue, List.any_eq_true]
  constructor
  · rintro ⟨⟨r, c⟩, hmem, hdue⟩
    cases r with
    | preempt k => exact ⟨k, c, hmem, of_decide_eq_true hdue⟩
    | quiesce _ | reset _ | unbind _ => cases hdue
  · rintro ⟨k, c, hmem, hdue⟩
    exact ⟨_, hmem, decide_eq_true hdue⟩

/-- A QUIESCE whose bound has elapsed is pending: a command without a bound has none (R56). -/
def Partition.quiesceDue (P : Partition) (r : CmdRef) (cyc : Nat) : Bool :=
  P.stops.any fun x => decide (x.1 = .quiesce r) && decide (x.2 ≠ 0) && decide (x.2 ≤ cyc)

theorem Partition.quiesceDue_iff (P : Partition) (r : CmdRef) (cyc : Nat) :
    P.quiesceDue r cyc = true ↔ ∃ c, (.quiesce r, c) ∈ P.stops ∧ c ≠ 0 ∧ c ≤ cyc := by
  simp only [Partition.quiesceDue, List.any_eq_true, Bool.and_eq_true, decide_eq_true_eq]
  constructor
  · rintro ⟨⟨q, c⟩, hmem, ⟨rfl, h0⟩, hdue⟩
    exact ⟨c, hmem, h0, hdue⟩
  · rintro ⟨c, hmem, h0, hdue⟩
    exact ⟨_, hmem, ⟨rfl, h0⟩, hdue⟩

/-! ### The rows, by the state of the partition -/

theorem exec_watchdog (s : State) : exec .watchdog s = .next (if s.dogDue s.arg.p then
    (partEvent s s.arg.p .watchdog (if (s.part s.arg.p).dogFired = 0 then 1 else 2) (BitVec.ofNat 64 ((s.cycle - (s.part s.arg.p).dogFrom) / 1024))).modPart s.arg.p
      fun P => { P with dogFired := P.dogFired + 1 }
    else s) := rfl

theorem exec_preemptBoundExpiry (s : State) : exec .preemptBoundExpiry s =
    .next (if (s.part s.arg.p).preemptDue s.cycle && decide ((s.part s.arg.p).launch.map (·.since) = some s.arg.op) then
      (if (s.part s.arg.p).run = .dispatching then s.schedule 1 .preemptBoundExpiry s.arg else s.boundWash s.arg.p 0)
    else s) := rfl

theorem exec_quiesceBoundExpiry (s : State) : exec .quiesceBoundExpiry s =
    .next (if !(s.part s.arg.p).quiesceDue ⟨s.arg.fn, s.arg.q, s.arg.idx⟩ s.cycle then s
    else if (s.part s.arg.p).run = .saving ∨ (s.part s.arg.p).run = .thermal then s.schedule 1800 .quiesceBoundExpiry s.arg
    else if (s.part s.arg.p).run = .dispatching then s.schedule 1 .quiesceBoundExpiry s.arg
    else s.boundWash s.arg.p 1) := rfl

/-- A bound that is due acts on the launch it was set for. -/
theorem exec_preemptBoundExpiry_due {s : State} (hdue : ∃ k c, (.preempt k, c) ∈ (s.part s.arg.p).stops ∧ c ≤ s.cycle)
    (hl : (s.part s.arg.p).launch.map (·.since) = some s.arg.op) : exec .preemptBoundExpiry s =
      .next (if (s.part s.arg.p).run = .dispatching then s.schedule 1 .preemptBoundExpiry s.arg else s.boundWash s.arg.p 0) := by
  rw [exec_preemptBoundExpiry, ((s.part s.arg.p).preemptDue_iff s.cycle).2 hdue, hl, decide_eq_true rfl, Bool.true_and, if_pos rfl]

theorem exec_quiesceBoundExpiry_due {s : State}
    (hdue : ∃ c, (.quiesce ⟨s.arg.fn, s.arg.q, s.arg.idx⟩, c) ∈ (s.part s.arg.p).stops ∧ c ≠ 0 ∧ c ≤ s.cycle) : exec .quiesceBoundExpiry s =
      .next (if (s.part s.arg.p).run = .saving ∨ (s.part s.arg.p).run = .thermal then s.schedule 1800 .quiesceBoundExpiry s.arg
      else if (s.part s.arg.p).run = .dispatching then s.schedule 1 .quiesceBoundExpiry s.arg
      else s.boundWash s.arg.p 1) := by
  rw [exec_quiesceBoundExpiry, ((s.part s.arg.p).quiesceDue_iff _ s.cycle).2 hdue]
  exact congrArg _ (if_neg (by decide))

end Sys2Proof.Machine

namespace Sys2Proof.Proofs

open Sys2Proof Sys2Proof.Machine Sys2Proof.Claims

/-- A watchdog that is due records its event, the first a wash and the later ones a halt (R88). -/
theorem watchdogFires {s : State} (hp : s.arg.p < s.parts.length) (hdue : s.dogDue s.arg.p = true) : let P := s.part s.arg.p
    ∃ t, exec .watchdog s = .next t ∧ (t.part s.arg.p).dogFired = P.dogFired + 1 ∧ (t.part s.arg.p).events =
      P.events ++ [⟨8, if P.dogFired = 0 then 1 else 2, .watchdog, BitVec.ofNat 64 ((s.cycle - P.dogFrom) / 1024)⟩] := by
  have hvote : (if (s.part s.arg.p).dogFired = 0 then 1 else 2 : BitVec 2) ≠ 0 := by split <;> decide
  refine ⟨_, (exec_watchdog s).trans (congrArg _ (if_pos hdue)), ?_⟩
  rw [part_modPart_partEvent hp _ hvote]
  exact ⟨rfl, rfl⟩

theorem watchdogAndBounds : WatchdogAndBounds := by
  intro s p P hp
  refine ⟨watchdogFires hp, fun h => (exec_watchdog s).trans (congrArg _ (if_neg (by rw [h]; decide))), ⟨?_, ?_, ?_⟩, ⟨?_, ?_, ?_, ?_⟩⟩
  · intro hdue hl hroot hrun
    refine ⟨s.boundWash p 0, (exec_preemptBoundExpiry_due hdue hl).trans (congrArg _ (if_neg ?_)), State.part_boundWash hp hroot hrun 0⟩
    rw [hrun]
    decide
  · intro hdue hl hrun
    exact ⟨_, (exec_preemptBoundExpiry_due hdue hl).trans (congrArg _ (if_pos hrun)), rfl, rfl⟩
  · rintro (hdue | ⟨hroot, hrun⟩)
    · have hno : P.preemptDue s.cycle = false := Bool.eq_false_iff.2 fun h => hdue ((P.preemptDue_iff s.cycle).1 h)
      exact (exec_preemptBoundExpiry s).trans (congrArg _ (if_neg (by rw [hno]; simp)))
    · rw [exec_preemptBoundExpiry, if_neg hrun, State.boundWash_of_reachedRoot hroot, ite_self]
  · intro hdue hroot hrun
    refine ⟨s.boundWash p 1, (exec_quiesceBoundExpiry_due hdue).trans (congrArg _ ?_), State.part_boundWash hp hroot hrun 1⟩
    rw [hrun, if_neg (by decide), if_neg (by decide)]
  · intro hdue hrun
    exact ⟨_, (exec_quiesceBoundExpiry_due hdue).trans (congrArg _ (if_pos hrun)), rfl, rfl⟩
  · intro hdue hrun
    refine ⟨s.schedule 1 .quiesceBoundExpiry s.arg, (exec_quiesceBoundExpiry_due hdue).trans (congrArg _ ?_), rfl, rfl⟩
    rw [hrun, if_neg (by decide), if_pos rfl]
  · intro hdue
    have hno : P.quiesceDue ⟨s.arg.fn, s.arg.q, s.arg.idx⟩ s.cycle = false := Bool.eq_false_iff.2 fun h => hdue ((P.quiesceDue_iff _ s.cycle).1 h)
    exact (exec_quiesceBoundExpiry s).trans (congrArg _ (if_pos (by rw [hno]; rfl)))

end Sys2Proof.Proofs
end

section
/-!
PROOF of O50, continued: leads, spilled granules, outside writes and tables (spec/08 R150, R151; spec/05 R108, R110, R119).
-/

namespace Sys2Proof.Machine

/-! ### Leads (R150, R151) -/

theorem part_leadReset {s : State} (hp : s.arg.p < s.parts.length) (hq : s.arg.q ≠ 1) (h : 256 ≤ (s.part s.arg.p).sinceLate) :
    ∃ t, exec .leadReset s = .next t ∧ t.part s.arg.p = { s.part s.arg.p with lead := (s.part s.arg.p).baseLead } := by
  refine ⟨_, rfl, (s.part_modPart _ _ hp).trans ?_⟩
  rw [if_neg hq, if_pos h]

/-- Firmware joins a partition without a launch into a system group (log entry 59), whose class has the lead of R150. -/
theorem part_leadReset_join {s : State} (hp : s.arg.p < s.parts.length) (hq : s.arg.q = 1) (hv : (s.part s.arg.p).valid = true)
    (hl : (s.part s.arg.p).launch = none) :
    ∃ t, exec .leadReset s = .next t ∧ (t.part s.arg.p).sysGroup = true ∧ (t.part s.arg.p).lead = 2048 := by
  refine ⟨_, rfl, ?_⟩
  rw [s.part_modPart _ _ hp, if_pos hq, hv, hl]
  exact ⟨rfl, rfl⟩

/-! ### Tables (R110, R333) -/

theorem exec_extentBuildDone (s : State) : exec .extentBuildDone s =
    .next (if (s.tile s.arg.p s.arg.t).building && decide ((s.tile s.arg.p s.arg.t).build = s.arg.m) &&
        s.listHeld (s.part s.arg.p).transBuild (s.tile s.arg.p s.arg.t).flpa (s.tile s.arg.p s.arg.t).flpn then s.scheduleFree .extent .extentBuildDone s.arg
      else extentBuilt s s.arg.p s.arg.t (decide (s.arg.n = 1)) s.arg.m) := rfl

/-- The end of a build that another has replaced changes nothing. -/
theorem extentBuilt_of_replaced {s : State} {p k m : Nat} (h : (s.tile p k).building = false ∨ (s.tile p k).build ≠ m) (now : Bool) :
    extentBuilt s p k now m = s := by
  unfold extentBuilt
  exact if_pos (by simpa using h)

/-- The end of the build in force puts its table in place; no partition that is released waits for it. -/
theorem extentBuilt_of_building {s : State} {p k : Nat} (hb : (s.tile p k).building = true) (hrel : (s.part p).releasing = false) (now : Bool) :
    extentBuilt s p k now (s.tile p k).build = s.buildDone p k now := by
  have hkeep : ((s.buildDone p k now).part p).releasing = false := (State.buildDone_keeps Partition.releasing (fun _ _ _ => rfl) s p k now p).trans hrel
  unfold extentBuilt
  dsimp only
  rw [hb, hkeep, if_neg (by simp), if_neg (by simp)]

/-- A table that has been built is the current one, or the one of the next superstep. -/
theorem State.tile_buildDone {s : State} {p k : Nat} (hk : k < (s.part p).tiles.length) (now : Bool) :
    let es := s.buildTable p (s.part p).transBuild (s.tile p k).flpa (s.tile p k).flpn
    (s.buildDone p k now).tile p k = if now then { s.tile p k with ext := es, building := false } else { s.tile p k with spare := es, building := false } :=
  s.tile_modTile p k _ hk

theorem State.length_buildTable_le (s : State) (p : Nat) (tr : List PageT) (a : Addr) (n : Nat) : (s.buildTable p tr a n).length ≤ 128 :=
  List.length_take_le _ _

end Sys2Proof.Machine

namespace Sys2Proof.Proofs

open Sys2Proof Sys2Proof.Machine Sys2Proof.Claims

/-- Granules that are copied back leave the shadow area, and no byte changes (R108). -/
theorem spillCopiesBack {s : State} {p k : Nat} (hk : k < (s.part p).tiles.length) :
    ((s.modTile p k fun T => { T with copyBack := [] }).tile p k).copyBack = [] ∧ s.SameBytes (s.modTile p k fun T => { T with copyBack := [] }) := by
  refine ⟨?_, State.sameBytes_of rfl (s.bufs_modTile p k _ fun _ => rfl)⟩
  rw [s.tile_modTile p k _ hk]

/-- A build in force whose list is in service leaves its table as the tile's (R110, R333). -/
theorem tableIsBuilt {s : State} {p k : Nat} (hk : k < (s.part p).tiles.length) :
    let es := s.buildTable p (s.part p).transBuild (s.tile p k).flpa (s.tile p k).flpn
    let T' := (s.buildDone p k (decide (s.arg.n = 1))).tile p k
    T'.building = false ∧ (s.arg.n = 1 → T'.ext = es ∧ T'.spare = (s.tile p k).spare) ∧
      (s.arg.n ≠ 1 → T'.spare = es ∧ T'.ext = (s.tile p k).ext) ∧ es.length ≤ 128 := by
  dsimp only
  rw [State.tile_buildDone hk]
  by_cases h : s.arg.n = 1
  · rw [decide_eq_true h]
    exact ⟨rfl, fun _ => ⟨rfl, rfl⟩, fun hn => absurd h hn, s.length_buildTable_le _ _ _ _⟩
  · rw [decide_eq_false h]
    exact ⟨rfl, fun hn => absurd hn h, fun _ => ⟨rfl, rfl⟩, s.length_buildTable_le _ _ _ _⟩

theorem aroundSupersteps : AroundSupersteps := by
  intro s p k P hp
  refine ⟨fun hq h => ?_, part_leadReset_join hp, fun hk => ⟨_, rfl, spillCopiesBack hk⟩, fun hwf hrec => ?_, fun hb hm hheld => ?_,
    fun hk hb hm hrel hheld => ?_, fun h => ?_⟩
  · obtain ⟨t, hx, ht⟩ := part_leadReset hp hq h
    exact ⟨t, hx, congrArg Partition.lead ht⟩
  · exact ⟨_, rfl, State.physRead_outsideWrite hwf hrec none _ s.arg.data, fun q hv hstill hmaps => State.seen_outsideWrite hv hstill hmaps⟩
  · have hdue : ((s.tile p k).building && decide ((s.tile p k).build = s.arg.m) && s.listHeld P.transBuild (s.tile p k).flpa (s.tile p k).flpn) = true := by
      simp only [Bool.and_eq_true, decide_eq_true_eq]
      exact ⟨⟨hb, hm⟩, hheld⟩
    exact (exec_extentBuildDone s).trans (congrArg _ (if_pos hdue))
  · refine ⟨s.buildDone p k (decide (s.arg.n = 1)), (exec_extentBuildDone s).trans (congrArg _ ((if_neg ?_).trans ?_)), tableIsBuilt hk⟩
    · intro hc
      exact Bool.false_ne_true (hheld.symm.trans (Bool.and_eq_true_iff.1 hc).2)
    · rw [← hm]
      exact extentBuilt_of_building hb hrel _
  · refine (exec_extentBuildDone s).trans (congrArg _ ((if_neg fun hc => ?_).trans (extentBuilt_of_replaced h _)))
    simp only [Bool.and_eq_true, decide_eq_true_eq] at hc
    obtain ⟨⟨hb, hm⟩, -⟩ := hc
    exact h.elim (fun h => Bool.false_ne_true (h.symm.trans hb)) fun h => h hm

end Sys2Proof.Proofs
end

section
/-!
PROOF of O50, concluded: lines that arrive (spec/04 R90), and the claim.
-/

namespace Sys2Proof.Machine

/-! ### Lines that arrive (R90) -/

/-- A thread that waits for a line is ready once it is there. -/
def Thread.wakeOn (la : Addr) (u : Thread) : Thread := if u.wait = .line la then { u with wait := .ready } else u

/-- A tile after a line has arrived. -/
def Tile.takeLine (la : Addr) (bs : List Byte) (T : Tile) : Tile :=
  { T with lines := putLine T.lines ⟨la, bs⟩, fetching := T.fetching.filter (· != la), threads := T.threads.map (Thread.wakeOn la) }

/-- A controller after a line has arrived. -/
def Ctrl.takeLine (la : Addr) (bs : List Byte) (c : Ctrl) : Ctrl :=
  { c with lines := putLine c.lines ⟨la, bs⟩, fetching := c.fetching.filter (· != la), th := c.th.wakeOn la }

/-- What a tile fetches with: its lines, those under way, and its threads. -/
def Tile.fetch (T : Tile) : List Line × List Addr × List Thread := (T.lines, T.fetching, T.threads)

theorem find?_putLine (ls : List Line) (la : Addr) (bs : List Byte) : (putLine ls ⟨la, bs⟩).find? (fun l => l.addr == la) = some ⟨la, bs⟩ := by
  rw [putLine, List.take_cons (by simp [Config.lineBufferLines])]
  exact List.find?_cons_of_pos (beq_self_eq_true la)

theorem Tile.thread_takeLine (T : Tile) (la : Addr) (bs : List Byte) {i : Nat} (hi : i < T.threads.length) :
    (T.takeLine la bs).thread i = (T.thread i).wakeOn la := by
  simp [Tile.thread, Tile.takeLine, List.getD_eq_getElem?_getD, hi]

theorem Tile.fetch_noteFlt (T : Tile) (ssn : BitVec 32) (th : Nat) (cause : Cause) (detail : Word) : (T.noteFlt ssn th cause detail).fetch = T.fetch := by
  unfold Tile.noteFlt
  split <;> simp only [Tile.fetch]

theorem State.modTile_keeps {β : Type} (g : Tile → β) (F : Tile → Tile) (h : ∀ T, g (F T) = g T) (s : State) (p k q j : Nat) :
    g ((s.modTile p k F).tile q j) = g (s.tile q j) :=
  State.modPart_keeps (fun P => g (P.tile j)) (fun P => P.modTile k F) (Partition.tile_modTile_keeps g F h · k j) s p q

/-- An event of a tile enters no handler, and no fetch is lost by it (R173). -/
theorem fetch_tileEvent (s : State) (p k : Nat) (cause : Cause) (vote : BitVec 2) (detail : Word) (phys q j : Nat) :
    ((tileEvent s p k cause vote detail phys).tile q j).fetch = (s.tile q j).fetch := by
  unfold tileEvent tileFault
  refine (State.modTile_keeps Tile.fetch _ (fun T => ?_) _ p k q j).trans ?_
  · exact T.fetch_noteFlt _ _ _ _
  · rw [State.tile, State.part, parts_recordFault]
    rfl

section
variable {s : State} {p k : Nat} {la : Addr} {since : Nat} (hserv : s.chans.toList.any (·.train) = false)
include hserv

/-- A line of which no fetch is under way changes nothing. -/
theorem lineArrives_of_not_fetching (hf : la ∉ (s.tile p k).fetching) : lineArrives s (.tile p k) la since = s := by
  unfold lineArrives
  simp only [State.rangeHeld_in_service hserv, List.contains_eq_mem, hf, decide_false, Bool.false_eq_true, if_false]

/-- A line that a tile fetches joins its buffer and wakes the threads that wait for it, whatever is sampled of it and whatever is found in its bytes. -/
theorem fetch_lineArrives (hk : k < (s.part p).tiles.length) (hf : la ∈ (s.tile p k).fetching) :
    ((lineArrives s (.tile p k) la since).tile p k).fetch = ((s.tile p k).takeLine la (s.codeBytes (.tile p k) la)).fetch := by
  have htake (s0 : State) (ht : (s0.part p).tiles = (s.part p).tiles) :
      ((s0.modTile p k (Tile.takeLine la (s.codeBytes (.tile p k) la))).tile p k).fetch = ((s.tile p k).takeLine la (s.codeBytes (.tile p k) la)).fetch := by
    rw [s0.tile_modTile p k _ (by rwa [ht]), State.tile, Partition.tile, ht]
    rfl
  have hsampled (b : Bool) (v : Nat) : ((if b then s else s.modPart p fun P => P.sample 4 v).part p).tiles = (s.part p).tiles := by
    cases b with
    | true => rfl
    | false => exact s.modPart_keeps Partition.tiles (fun P => P.sample 4 v) (fun _ => rfl) p p
  unfold lineArrives
  dsimp only
  rw [State.rangeHeld_in_service hserv, if_neg Bool.false_ne_true, if_pos (List.contains_iff_mem.2 hf)]
  split
  · split
    · exact htake _ (hsampled _ _)
    · exact (fetch_tileEvent _ _ _ _ _ _ _ _ _).trans (htake _ (hsampled _ _))
  · exact htake _ (hsampled _ _)

/-- A line that a controller fetches joins its buffer and wakes its thread, if that waits for it. -/
theorem lineArrives_ctrl {d : Nat} (hf : la ∈ (s.ctrl d).fetching) :
    lineArrives s (.ctrl d) la since = s.modCtrl d (Ctrl.takeLine la (s.codeBytes (.ctrl d) la)) := by
  unfold lineArrives
  dsimp only
  rw [State.rangeHeld_in_service hserv, if_neg Bool.false_ne_true, if_pos (List.contains_iff_mem.2 hf)]
  rfl

end

theorem State.ctrl_modCtrl (s : State) {d : Nat} (f : Ctrl → Ctrl) (h : d < 4) : (s.modCtrl d f).ctrl d = f (s.ctrl d) := by
  unfold State.modCtrl
  rw [dif_pos h, s.ctrl_eq h]
  exact (vector_getD_set _ _ _ _ _ h).trans (if_pos rfl)

end Sys2Proof.Machine

namespace Sys2Proof.Proofs

open Sys2Proof Sys2Proof.Machine Sys2Proof.Claims

/-- A line arrives at a tile that fetches it. -/
theorem lineArrivesAtTile {s : State} (hserv : s.chans.toList.any (·.train) = false) {p k : Nat} {la : Addr} (since : Nat)
    (hk : k < (s.part p).tiles.length) (hf : la ∈ (s.tile p k).fetching) : let t := lineArrives s (.tile p k) la since
    t.lineAt (.tile p k) la = some (s.codeBytes (.tile p k) la) ∧ la ∉ (t.tile p k).fetching ∧
      ∀ i, i < (s.tile p k).threads.length → (t.tile p k).thread i = ((s.tile p k).thread i).wakeOn la := by
  intro t
  have hfetch : (t.tile p k).fetch = ((s.tile p k).takeLine la (s.codeBytes (.tile p k) la)).fetch := fetch_lineArrives hserv hk hf
  obtain ⟨hlines, hrest⟩ := Prod.mk.inj hfetch
  obtain ⟨hfetching, hthreads⟩ := Prod.mk.inj hrest
  refine ⟨?_, ?_, fun i hi => ?_⟩
  · rw [State.lineAt, hlines]
    exact congrArg _ (find?_putLine _ _ _)
  · rw [hfetching]
    simp [Tile.takeLine]
  · rw [Tile.thread, hthreads]
    exact (s.tile p k).thread_takeLine la _ hi

/-- A line arrives at a controller that fetches it. -/
theorem lineArrivesAtCtrl {s : State} (hserv : s.chans.toList.any (·.train) = false) {d : Nat} (hd : d < 4) {la : Addr} (since : Nat)
    (hf : la ∈ (s.ctrl d).fetching) : let t := lineArrives s (.ctrl d) la since
    t.lineAt (.ctrl d) la = some (s.codeBytes (.ctrl d) la) ∧ (t.ctrl d).th = (s.ctrl d).th.wakeOn la := by
  intro t
  have hctrl : t.ctrl d = (s.ctrl d).takeLine la (s.codeBytes (.ctrl d) la) :=
    (congrArg (State.ctrl · d) (lineArrives_ctrl hserv hf)).trans (s.ctrl_modCtrl _ hd)
  refine ⟨?_, congrArg Ctrl.th hctrl⟩
  rw [State.lineAt, hctrl]
  exact congrArg _ (find?_putLine _ _ _)

theorem linesArrive : LinesArrive := by
  intro s htrain la wake
  have hserv : s.chans.toList.any (·.train) = false := List.any_eq_false.2 fun c hc => Bool.eq_false_iff.1 (htrain c hc)
  have hx {a : Agent} (ha : s.arg.agent = a) : exec .lineArrival s = .next (lineArrives s a la s.arg.op) := ha ▸ rfl
  refine ⟨fun p k ha hf _ hk => ?_, fun d hd ha hf => ?_, fun p k ha hf => ?_⟩
  · exact ⟨_, hx ha, lineArrivesAtTile hserv _ hk hf⟩
  · exact ⟨_, hx ha, lineArrivesAtCtrl hserv hd _ hf⟩
  · exact (hx ha).trans (congrArg _ (lineArrives_of_not_fetching hserv hf))

/-- Settles O50, by the three parts of its claim: leads, granules, outside writes and tables; the watchdog and the bounds; lines that arrive. -/
theorem aroundSuperstepsAndBounds : Obligations.AroundSuperstepsAndBounds := by
  unfold Obligations.AroundSuperstepsAndBounds
  exact ⟨aroundSupersteps, watchdogAndBounds, linesArrive⟩

end Sys2Proof.Proofs
end

section
/-!
PROOF that O48 fails: its clause on a wash says that each running task of the span stands at its last fix, and in Saving a launch that gives way to a
request of still higher priority is switched out at the wash, so that the tiles of its span hold no task (spec/04 R82, R87; log entry 58).
-/

namespace Sys2Proof.Proofs

open Sys2Proof Sys2Proof.Machine Sys2Proof.Claims

/-- A saved tile with one task, which runs and has made its last fix at address 64. -/
def fixedAt64 : Tile := { Tile.zero with saved := true, threads := [{ Thread.zero with task := .running, committed := { Committed.zero with pc := 64 } }] }

/-- The decision of a wash. -/
def washDecided : BarMsg := ⟨1, false, false, .voteWash, 0, false, 2, 0, 0, 0, 0⟩

/-- A partition that saves a launch of function 2, while a launch of function 1, which has fixed a superstep, runs in its place: its wash is decided,
and record 1, of a higher priority than it, is Eligible. -/
def washInSaving : State :=
  let bound (first : Nat) : Fn := { Fn.zero with bind := some ⟨0, .part, 1, 1, first, 1, ⟨true, 65536 * first⟩, 65536⟩ }
  { State.reset with
    fns := [Fn.zero, bound 0, bound 1]
    parts := [{ Partition.absent with
      valid := true, len := 1, nrec := 2, run := .saving, saveFn := some 2, ssn := 1, fixAt := 1, decision := some washDecided
      launch := some ⟨0, 1, 0, 0, 1, 1, 0, false, 2 ^ 32, 2 ^ 32, false⟩
      recs := [{ LRec.idle with st := .running }, { LRec.idle with st := .eligible, image := List.replicate 14 0 ++ [7] }]
      tiles := List.replicate 8 fixedAt64 }] }

/-- After the wash thread 0 of tile 0 stands at address 0, as a thread without a task does: the launch is switched out, and is Eligible again. -/
theorem switchedOut_washInSaving : ((((flip washInSaving 0).part 0).tile 0).thread 0).pc = 0 ∧ ((flip washInSaving 0).part 0).launch = none ∧
    (((flip washInSaving 0).part 0).rcd 0).st = .eligible := by
  decide +kernel

theorem not_washRestores : ¬ WashRestores := by
  intro h
  obtain ⟨-, hwash⟩ := h washInSaving washDecided
  obtain ⟨t, hflip, -, -, -, htiles, -⟩ := hwash rfl (by decide) rfl fun _ => by decide
  obtain ⟨-, -, -, -, hthreads⟩ := htiles 0 .w (by decide)
  obtain ⟨hpc, -⟩ := hthreads 0 (by decide) rfl
  obtain ⟨hzero, -⟩ := switchedOut_washInSaving
  injection hflip with ht
  rw [← ht] at hpc
  exact absurd (hzero.symm.trans hpc) (by decide)

/-- Refutes O48: the launch of `washInSaving` is switched out at its wash, so that its task does not stand at its last fix, though it ran and the
decision was no halt. The clause has no premise on the run state of the partition. -/
theorem not_superstepsAreDecidedFixedAndWashed : ¬ Obligations.SuperstepsAreDecidedFixedAndWashed := by
  rintro ⟨-, -, hwash⟩
  exact not_washRestores hwash

end Sys2Proof.Proofs
end

section
/-!
PROOF of O23: what a store that passes its checks leaves of its thread, before and at its end (spec/13 R241, R247, R249).
-/

namespace Sys2Proof.Machine

open Sys2Proof.Claims

/-! ### The bytes of a stored value -/

theorem leBytes_eq_map (n x : Nat) : leBytes n x = (List.range n).map fun k => BitVec.ofNat 8 (x / 256 ^ k) := by
  induction n generalizing x with
  | zero => rfl
  | succ n ih =>
    rw [leBytes, ih, List.range_succ_eq_map, List.map_cons, List.map_map]
    simp only [Nat.pow_zero, Nat.div_one, Function.comp_def, Nat.succ_eq_add_one, Nat.pow_succ', Nat.div_div_eq_div_mul]

theorem valueByte_eq (v : Word) (k : Nat) : valueByte v k = BitVec.ofNat 8 (v.toNat / 256 ^ k) := by
  rw [valueByte, BitVec.extractLsb', Nat.shiftRight_eq_div_pow, Nat.pow_mul]

theorem leBytes_word (n : Nat) (v : Word) : leBytes n v.toNat = (List.range n).map (valueByte v) := by
  rw [leBytes_eq_map]
  exact List.map_congr_left fun k _ => (valueByte_eq v k).symm

/-- What a memory reads after a store of the n low bytes of a value. -/
theorem Memory.read_writeRun_word (m : Memory) (a n : Nat) (v : Word) (x : Nat) :
    (m.writeRun a (leBytes n v.toNat)).read x = if a ≤ x ∧ x < a + n then valueByte v (x - a) else m.read x := by
  rw [Memory.read_writeRun, length_leBytes]
  by_cases h : a ≤ x ∧ x < a + n
  · have hlt : x - a < n := by omega
    rw [if_pos h, if_pos h, leBytes_word]
    simp [List.getD_eq_getElem?_getD, hlt]
  · rw [if_neg h, if_neg h]

/-! ### Tasks and buffers that stay as they are -/

/-- What the tasks and the buffers' reads of a tile depend on. -/
def Tile.task (T : Tile) : List Thread × Memory × Memory × Memory × List WRec := (T.threads, T.mem)

/-- The current thread, the cycle, and every thread and buffer of the machine. -/
def State.tasks (s : State) : Cur × Nat × (Nat → Thread) × (Nat → List (List Thread × Memory × Memory × Memory × List WRec)) :=
  (s.cur, s.cycle, fun d => (s.ctrl d).th, fun q => (s.part q).tiles.map Tile.task)

section
variable {s t : State} (h : t.tasks = s.tasks)
include h

theorem State.cur_of_tasks : t.cur = s.cur := congrArg Prod.fst h

theorem State.cycle_of_tasks : t.cycle = s.cycle := congrArg (fun x => x.2.1) h

theorem State.th_of_tasks (d : Nat) : (t.ctrl d).th = (s.ctrl d).th := congrFun (congrArg (fun x => x.2.2.1) h) d

theorem State.tiles_of_tasks (q : Nat) : (t.part q).tiles.map Tile.task = (s.part q).tiles.map Tile.task := congrFun (congrArg (fun x => x.2.2.2) h) q

theorem State.length_tiles_of_tasks (q : Nat) : (t.part q).tiles.length = (s.part q).tiles.length := by
  simpa using congrArg List.length (State.tiles_of_tasks h q)

theorem State.tile_of_tasks (q k : Nat) : (t.tile q k).task = (s.tile q k).task := by
  have hmap (u : State) : (u.tile q k).task = ((u.part q).tiles.map Tile.task).getD k Tile.zero.task := by
    rw [State.tile, Partition.tile, List.getD_eq_getElem?_getD, List.getD_eq_getElem?_getD, List.getElem?_map]
    cases (u.part q).tiles[k]? <;> rfl
  rw [hmap, State.tiles_of_tasks h, ← hmap]

theorem State.here_of_tasks : t.here = s.here := by
  unfold State.here
  rw [State.cur_of_tasks h]
  cases s.cur.agent with
  | tile p k => exact congrArg (·.1.getD s.cur.th Thread.zero) (State.tile_of_tasks h p k)
  | ctrl d => exact State.th_of_tasks h d

theorem State.Here_of_tasks (hs : s.Here = true) : t.Here = true := by
  unfold State.Here at *
  rw [State.cur_of_tasks h]
  cases ha : s.cur.agent with
  | tile p k =>
    have hthreads : (t.tile p k).threads = (s.tile p k).threads := congrArg (·.1) (State.tile_of_tasks h p k)
    unfold State.tile at hthreads
    simp only [ha, Bool.and_eq_true, decide_eq_true_eq] at hs ⊢
    obtain ⟨⟨-, hk⟩, hth⟩ := hs
    rw [← State.length_tiles_of_tasks h p] at hk
    exact ⟨⟨State.lt_of_tile hk, hk⟩, by rwa [hthreads]⟩
  | ctrl d => simpa only [ha] using hs

theorem State.sameBufs_of_tasks : s.SameBufs t := fun p k b a =>
  Tile.readBuf_of_mem (congrArg (·.2) (State.tile_of_tasks h p k)) b a 1

end

theorem State.tasks_modPart (s : State) (p : Nat) (f : Partition → Partition) (hf : ∀ P, (f P).tiles.map Tile.task = P.tiles.map Tile.task) :
    (s.modPart p f).tasks = s.tasks := by
  have hparts := funext fun q => s.modPart_keeps (fun P => P.tiles.map Tile.task) f hf p q
  exact congrArg (fun g => (s.cur, s.cycle, (fun d => (s.ctrl d).th), g)) hparts

theorem State.tasks_modTile (s : State) (p k : Nat) (f : Tile → Tile) (hf : ∀ T, (f T).task = T.task) : (s.modTile p k f).tasks = s.tasks := by
  refine s.tasks_modPart p _ fun P => List.ext_getElem? fun i => ?_
  simp only [Partition.modTile, List.getElem?_map, List.getElem?_modify]
  cases P.tiles[i]? <;> by_cases e : k = i <;> simp [e, hf]

theorem State.tasks_physWrite (s : State) (l : Loc) (bs : List Byte) : (s.physWrite l bs).tasks = s.tasks := by
  unfold State.physWrite
  dsimp only
  split
  · rfl
  · split <;> rfl

theorem State.tasks_tagWord (s : State) (w : TagAt) (lo n : Nat) (rs : List (Scope × List Nat)) : (s.tagWord w lo n rs).tasks = s.tasks := rfl

theorem State.tasks_outsideWrite (s : State) (ex : Option Nat) (l : Loc) (bs : List Byte) : (s.outsideWrite ex l bs).tasks = s.tasks := by
  have hparts := funext fun q => congrArg (List.map Tile.task)
    (s.outsideWrite_keeps Partition.tiles (fun _ _ => rfl) (fun _ _ => rfl) ex l bs q)
  have hrest := (s.hide ex l bs.length).tasks_physWrite l bs
  exact Prod.ext (State.cur_of_tasks hrest :) (Prod.ext (State.cycle_of_tasks hrest :) (Prod.ext (funext fun d => (State.th_of_tasks hrest d :)) hparts))

theorem State.tasks_outsideVwrite (s : State) (ex : Option Nat) (tr : List PageT) (va : Nat) (bs : List Byte) :
    (s.outsideVwrite ex tr va bs).tasks = s.tasks := by
  refine foldl_keeps State.tasks _ (fun s x => ?_) _ _
  split
  · exact s.tasks_outsideWrite _ _ _
  · rfl

/-! ### A store before its end -/

/-- A store that has not ended yet has changed of its thread what an access may change of it, and no byte of a buffer. -/
def State.Storing (s t : State) : Prop :=
  s.here.Accessed s.cycle t.here ∧ t.cur = s.cur ∧ t.cycle = s.cycle ∧ t.Here = true ∧ s.SameBufs t

theorem State.SameBufs.trans {s t u : State} (h1 : s.SameBufs t) (h2 : t.SameBufs u) : s.SameBufs u :=
  fun p k b a => (h2 p k b a).trans (h1 p k b a)

theorem State.Storing.trans {s t u : State} (h1 : s.Storing t) (h2 : t.Storing u) : s.Storing u := by
  obtain ⟨acc1, cur1, cyc1, -, bufs1⟩ := h1
  obtain ⟨acc2, cur2, cyc2, here2, bufs2⟩ := h2
  rw [cyc1] at acc2
  exact ⟨acc1.trans acc2, cur2.trans cur1, cyc2.trans cyc1, here2, bufs1.trans bufs2⟩

theorem State.Noted.storing {s t : State} (h : s.Noted t) (hs : s.Here = true) : s.Storing t := by
  have ht := h.Here hs
  obtain ⟨⟨-, hbufs⟩, hacc, hcur, hcyc, -⟩ := h
  exact ⟨hacc, hcur, hcyc, ht, hbufs⟩

theorem State.storing_of_tasks {s t : State} (h : t.tasks = s.tasks) (hs : s.Here = true) : s.Storing t :=
  ⟨State.here_of_tasks h ▸ .refl _ _, State.cur_of_tasks h, State.cycle_of_tasks h, State.Here_of_tasks h hs, State.sameBufs_of_tasks h⟩

theorem State.Storing.Here {s t : State} (h : s.Storing t) : t.Here = true := by
  obtain ⟨-, -, -, hh, -⟩ := h
  exact hh

/-- A thread has made a write: its place in happens-before and in issue order. -/
def Thread.wrote (id : Nat) (t : Thread) : Thread := { t with hb := id :: t.hb, seq := t.seq + 1 }

theorem Thread.accessed_wrote (t : Thread) (cyc id : Nat) : t.Accessed cyc (t.wrote id) := ⟨rfl, Kept.refl _ _, rfl, rfl, rfl⟩

theorem State.noted_madeWrite (s : State) (hs : s.Here = true) : s.Noted s.madeWrite :=
  s.newId.noted_modHere hs (Thread.wrote s.opCtr) (Thread.accessed_wrote _ _ _)

/-! ### The end of a store (R93, R241) -/

/-- A store whose loop return is legal ends as R93 and R241 give it, and the end changes its thread alone. -/
theorem State.Storing.finish {s u : State} (h : s.Storing u) (hl : s.endsLegally = true) : (∃ f, s.finish u = u.modHere f) ∧
    s.Ended (s.finish u) none ∧ s.SameRegs (s.finish u) ∧ AccessFrame s.here (s.finish u).here ∧
    ∃ ps, Kept s.cycle s.here.pend ps ∧ (s.finish u).here.pend = s.leftPend ps := by
  obtain ⟨⟨hframe, hkept, -, hlc, -⟩, -, hcyc, hhere, -⟩ := h
  obtain ⟨hlb, hle, -, -⟩ := AccessFrame.fields hframe
  obtain ⟨hback, hcount⟩ := loopEnd_congr s.here.unit.addr s.here u.here hlb hle hlc
  have hlegal : (((none : Option Addr).or s.loops.2).bind fun a => (targetFault s s.cur.agent a).map fun r => (a, r)) = none := by
    have := State.endsLegally_eq hl
    cases hx : s.loops.2 with
    | none => rfl
    | some a => rw [hx] at this; simpa using this
  have hfin : s.finish u = u.modHere fun _ => { u.here with
      lc := s.loops.1.lc, pend := s.leftPend u.here.pend, pc := s.loops.2.getD s.here.unit.next, wait := .ready, readyAt := s.nextIssue s.loops.2.isSome } := by
    unfold State.finish State.finishAt
    dsimp only
    rw [hback, hcount, hlc, hcyc]
    rw [State.loops] at hlegal ⊢
    rw [hlegal]
    rfl
  have hE := (congrArg State.here hfin).trans (u.here_modHere hhere _)
  have hF : AccessFrame s.here (s.finish u).here := by
    rw [hE]
    exact AccessFrame.ended hframe _ _ _ _ _
  refine ⟨⟨_, hfin⟩, ?_, AccessFrame.sr hF, hF, u.here.pend, hkept, by rw [hE]⟩
  unfold State.Ended
  rw [hE]
  exact ⟨rfl, rfl, rfl, rfl⟩

end Sys2Proof.Machine
end

section
/-!
PROOF of O23, continued: what a store to `g:` changes, by the kind of its page (spec/05 R108; spec/06 R117, R129, R131; spec/08 R164; spec/13 R249).
-/

namespace Sys2Proof.Machine

open Sys2Proof.Claims

/-- Of the current thread's update a partition's write-behind and a tile's contributions know nothing. -/
theorem State.wb_modHere (s : State) (f : Thread → Thread) (q : Nat) : ((s.modHere f).part q).wb = (s.part q).wb :=
  State.modThread_keeps Partition.wb (fun _ _ _ => rfl) s _ _ f q

theorem State.modHere_tile_keeps {β : Type} (g : Tile → β) (hg : ∀ T i f, g (Tile.modThread T i f) = g T) (s : State) (f : Thread → Thread) (q j : Nat) :
    g ((s.modHere f).tile q j) = g (s.tile q j) := by
  unfold State.modHere
  cases s.cur.agent with
  | tile p k => exact State.modTile_keeps g _ (fun T => hg T _ f) s p k q j
  | ctrl d =>
    simp only [State.modThread, State.modCtrl]
    split <;> rfl

theorem State.main_modHere (s : State) (f : Thread → Thread) : (s.modHere f).main = s.main := s.main_modThread _ _ f

theorem State.Noted.sameBytes {s t : State} (h : s.Noted t) : s.SameBytes t := by
  obtain ⟨hbytes, -⟩ := h
  exact hbytes

/-! ### Stores on kind L -/

/-- What HBM and host memory read after a value has been stored at a physical place. -/
def State.PhysStored (s t : State) (l : Loc) (n : Nat) (v : Word) : Prop :=
  (∀ a, t.hbm.read a = if l.host = false ∧ l.addr ≤ a ∧ a < l.addr + n then valueByte v (a - l.addr) else s.hbm.read a) ∧
  ∀ a, t.host.read a = if l.host = true ∧ l.addr ≤ a ∧ a < l.addr + n then valueByte v (a - l.addr) else s.host.read a

theorem State.physStored_physWrite (s : State) (hr : s.boot.recov = false) (l : Loc) (n : Nat) (v : Word) :
    s.PhysStored (s.physWrite l (leBytes n v.toNat)) l n v := by
  unfold State.physWrite State.PhysStored
  dsimp only
  by_cases hl : l.host = true
  · rw [if_pos hl]
    refine ⟨fun a => by simp [hl], fun a => ?_⟩
    exact (s.host.read_writeRun_word l.addr n v a).trans (by simp [hl])
  · rw [if_neg hl, if_neg (by simp [hr])]
    refine ⟨fun a => ?_, fun a => by simp [hl]⟩
    exact (s.hbm.read_writeRun_word l.addr n v a).trans (by simp [hl])

/-! ### Contributions to a region (R108, R164) -/

/-- A contribution as a tile takes it into its latent store. -/
def Tile.contributed (T : Tile) (g : Gran) (c : Contrib) : Tile := { T with contribs := T.contribs ++ [c] }.takeGranules [g]

theorem Tile.task_contributed (T : Tile) (g : Gran) (c : Contrib) : (T.contributed g c).task = T.task := rfl

theorem Tile.granules_contributed_le (T : Tile) (g : Gran) (c : Contrib) : (T.contributed g c).granules.length ≤ T.granules.length + 1 := by
  have h := List.length_filter_le (fun g => !T.granules.contains g) [g]
  simp only [Tile.contributed, Tile.takeGranules, List.length_append]
  simpa using h

theorem State.tiles_outsideVwrite (s : State) (ex : Option Nat) (tr : List PageT) (va : Nat) (bs : List Byte) (q : Nat) :
    ((s.outsideVwrite ex tr va bs).part q).tiles = (s.part q).tiles := by
  refine foldl_keeps (fun s => (State.part s q).tiles) _ (fun s x => ?_) _ _
  split
  · exact s.outsideWrite_keeps Partition.tiles (fun _ _ => rfl) (fun _ _ => rfl) _ _ _ q
  · rfl

section
variable (p k : Nat) (r : Region)

/-- A contribution is taken by its tile, and changes no task; where the latent store has room for a granule, it changes no memory. -/
theorem State.takeContrib_spec (s : State) (c : Contrib) (hk : k < (s.part p).tiles.length) : (s.takeContrib p k r c).tasks = s.tasks ∧
    (∃ g, (s.takeContrib p k r c).tile p k = (s.tile p k).contributed g c) ∧
    ((s.tile p k).granules.length + 1 ≤ Config.latentGranules → (s.takeContrib p k r c).main = s.main) := by
  unfold State.takeContrib
  extract_lets g s1
  have htasks : s1.tasks = s.tasks := s.tasks_modTile p k _ fun T => T.task_contributed g c
  have htile : s1.tile p k = (s.tile p k).contributed g c := s.tile_modTile p k _ hk
  by_cases hfull : (s1.tile p k).overflow.contains g = true
  · rw [if_pos hfull]
    refine ⟨(s1.tasks_outsideVwrite _ _ _ _).trans htasks, ⟨g, ?_⟩, fun hroom => ?_⟩
    · rw [State.tile, Partition.tile, s1.tiles_outsideVwrite]
      exact htile
    · have hle := (s.tile p k).granules_contributed_le g c
      rw [htile, Tile.overflow, List.drop_eq_nil_of_le (hle.trans hroom)] at hfull
      simp at hfull
  · rw [if_neg hfull]
    exact ⟨htasks, ⟨g, htile⟩, fun _ => rfl⟩

/-- Contributions in turn: each joins the tile's, and none changes memory where the latent store has room for a granule of each. -/
theorem State.takeContribs_spec (cs : List Contrib) (s : State) (hk : k < (s.part p).tiles.length) :
    let t := cs.foldl (fun s c => s.takeContrib p k r c) s
    t.tasks = s.tasks ∧ (t.tile p k).contribs.length = (s.tile p k).contribs.length + cs.length ∧
    ((s.tile p k).granules.length + cs.length ≤ Config.latentGranules → t.main = s.main) := by
  induction cs generalizing s with
  | nil => exact ⟨rfl, rfl, fun _ => rfl⟩
  | cons c cs ih =>
    obtain ⟨htasks, ⟨g, htile⟩, hmain⟩ := s.takeContrib_spec p k r c hk
    obtain ⟨htasks2, hcontribs, hmain2⟩ := ih (s.takeContrib p k r c) (by rwa [State.length_tiles_of_tasks htasks])
    have hle := (s.tile p k).granules_contributed_le g c
    rw [htile] at hcontribs hmain2
    refine ⟨htasks2.trans htasks, ?_, fun hroom => ?_⟩
    · simp only [Tile.contributed, Tile.takeGranules, List.length_append, List.length_singleton] at hcontribs
      rw [List.foldl_cons, hcontribs, List.length_cons]
      omega
    · rw [List.length_cons] at hroom
      exact (hmain2 (by omega)).trans (hmain (by omega))

end

/-- The contribution of element i of a record's bytes, which start at an offset of the region. -/
def Region.elementOf (r : Region) (off : Nat) (w : WRec) (i : Nat) : Contrib :=
  ⟨r.base, (off - 64) / r.esize + i, false, { w with data := bytesAt w.data (i * r.esize) r.esize }⟩

/-- Each whole element of a record's bytes joins the contributions of its tile (R129, R164). -/
theorem State.contribute_spec (s : State) (p k : Nat) (r : Region) (off : Nat) (w : WRec) (hk : k < (s.part p).tiles.length) :
    let t := s.contribute p k r off w
    t.tasks = s.tasks ∧ (t.tile p k).contribs.length = (s.tile p k).contribs.length + w.data.length / r.esize ∧
    ((s.tile p k).granules.length + w.data.length / r.esize ≤ Config.latentGranules → t.main = s.main) := by
  have h := State.takeContribs_spec p k r ((List.range (w.data.length / r.esize)).map (r.elementOf off w)) s hk
  rwa [List.foldl_map, List.length_map, List.length_range] at h

/-- An element of a region has 4 or 8 bytes (R163). -/
theorem four_le_esize {s : State} {tr : List PageT} {n va : Nat} {r : Region} (h : regionOf s tr n va = some r) : 4 ≤ r.esize := by
  unfold regionOf at h
  split at h
  · cases h
  split at h
  · injection h with h
    rw [← h]
    dsimp only
    split <;> decide
  · cases h

/-! ### The tile of a store -/

/-- The current thread's tile stands in its partition. -/
theorem State.hereT_lt {s : State} (hs : s.Here = true) (ha : ∃ p k, s.cur.agent = .tile p k) : s.hereT < (s.part s.hereP).tiles.length := by
  obtain ⟨p, k, ha⟩ := ha
  unfold State.Here at hs
  simp only [ha, Bool.and_eq_true, decide_eq_true_eq] at hs
  obtain ⟨⟨-, hk⟩, -⟩ := hs
  simpa only [State.hereT, State.hereP, ha] using hk

/-- A store that is not on kind L is a tile's: a controller reaches physical memory (R322). -/
theorem State.tile_of_gAt {s : State} {ea : Word} (h : (s.gAt ea).2 ≠ .l) : ∃ p k, s.cur.agent = .tile p k := by
  cases ha : s.cur.agent with
  | tile p k => exact ⟨p, k, rfl⟩
  | ctrl d =>
    refine absurd ?_ h
    simp only [State.gAt, ha]

/-- A store that has been noted is of the tile that it was of. -/
theorem State.Noted.hereT_lt {s t : State} (h : s.Noted t) (hs : s.Here = true) (ha : ∃ p k, s.cur.agent = .tile p k) :
    s.hereT < (t.part s.hereP).tiles.length := by
  have ht := h.Here hs
  obtain ⟨-, -, hcur, -⟩ := h
  have hlt := State.hereT_lt ht (hcur ▸ ha)
  simpa only [State.hereT, State.hereP, hcur] using hlt

/-! ### Stores of each kind (R249) -/

/-- The state in which the order of a store to `g:` of a kind has been noted. -/
def State.ordered (s : State) (k : Kind) (m : MemRef) : State := s.modHere fun t => t.noteOrder s.cycle .g k m.order m.scope

section
variable (s : State) (ea : Word) (data : List Byte) (m : MemRef)

/-- A store on kind L writes memory and tags its word. -/
theorem State.gStore_l (hk : (s.gAt ea).2 = .l) : s.gStore ea data m = ((s.ordered .l m).physWrite (s.gAt ea).1 data).tagWord
    (.word ⟨(s.gAt ea).1.host, (s.gAt ea).1.addr / 8 * 8⟩) ((s.gAt ea).1.addr % 8) data.length (s.here.release .g .l (s.here.orderScope .g .l m.order m.scope)) := by
  unfold State.gStore
  simp only [hk, State.ordered]

/-- A store on kind V joins the write-behind of its partition. -/
theorem State.gStore_v (hk : (s.gAt ea).2 = .v) : s.gStore ea data m =
    ((s.ordered .v m).modPart s.hereP fun P => { P with wb := P.wb ++ [s.taskRec (s.gAt ea).1 data] }).madeWrite := by
  unfold State.gStore
  simp only [hk, State.ordered]

/-- A store on a region kind contributes the elements of its bytes. -/
theorem State.gStore_region (hk : (s.gAt ea).2 = .red ∨ (s.gAt ea).2 = .cav) {r : Region}
    (hr : regionOf s s.herePart.transNow s.herePart.tiles.length ea.toNat = some r) : s.gStore ea data m =
      ((s.ordered (s.gAt ea).2 m).contribute s.hereP s.hereT r (ea.toNat - r.base) (s.taskRec ⟨false, 0⟩ data)).madeWrite := by
  unfold State.gStore
  rcases hk with hk | hk <;> simp only [hk, hr, State.ordered]

/-- A store on a region kind where no region stands changes nothing but its order. -/
theorem State.gStore_no_region (hk : (s.gAt ea).2 = .red ∨ (s.gAt ea).2 = .cav)
    (hr : regionOf s s.herePart.transNow s.herePart.tiles.length ea.toNat = none) : s.gStore ea data m = s.ordered (s.gAt ea).2 m := by
  unfold State.gStore
  rcases hk with hk | hk <;> simp only [hk, hr, State.ordered]

end

section
variable {s : State} (hs : s.Here = true) (ea : Word) (n : Nat) (v : Word) (m : MemRef)
include hs

theorem State.noted_ordered (k : Kind) : s.Noted (s.ordered k m) := s.noted_noteOrder hs .g k m.order m.scope

/-- A store on kind L is in memory at once. -/
theorem State.gStore_l_spec (hr : s.boot.recov = false) (hk : (s.gAt ea).2 = .l) : s.Storing (s.gStore ea (leBytes n v.toNat) m) ∧
    s.PhysStored (s.gStore ea (leBytes n v.toNat) m) (s.gAt ea).1 n v := by
  have hnoted := State.noted_ordered hs m .l
  have hrecov : (s.ordered .l m).boot.recov = false := by rw [State.ordered, State.modHere_boot, hr]
  have hwritten := State.physStored_physWrite _ hrecov (s.gAt ea).1 n v
  unfold State.PhysStored at hwritten ⊢
  rw [show (s.ordered .l m).hbm = s.hbm from State.modHere_hbm _ _, show (s.ordered .l m).host = s.host from State.modHere_host _ _] at hwritten
  rw [s.gStore_l ea _ m hk]
  exact ⟨(hnoted.storing hs).trans (State.storing_of_tasks (State.tasks_physWrite _ _ _) (hnoted.Here hs)), hwritten⟩

/-- A store on kind V joins the write-behind, and changes no byte. -/
theorem State.gStore_v_spec (hk : (s.gAt ea).2 = .v) (data : List Byte) : s.Storing (s.gStore ea data m) ∧ s.SameBytes (s.gStore ea data m) ∧
    ((s.gStore ea data m).part s.hereP).wb = (s.part s.hereP).wb ++ [s.taskRec (s.gAt ea).1 data] := by
  have hnoted := State.noted_ordered hs m .v
  have hpart := State.lt_of_tile (hnoted.hereT_lt hs (State.tile_of_gAt (ea := ea) (by rw [hk]; decide)))
  rw [s.gStore_v ea _ m hk]
  generalize hj : (s.ordered .v m).modPart s.hereP (fun P => { P with wb := P.wb ++ [s.taskRec (s.gAt ea).1 data] }) = joined
  have htasks : joined.tasks = (s.ordered .v m).tasks := hj ▸ State.tasks_modPart _ _ _ fun _ => rfl
  have hmain : joined.main = (s.ordered .v m).main := hj ▸ rfl
  have hjoined := State.storing_of_tasks htasks (hnoted.Here hs)
  have hmade := joined.noted_madeWrite hjoined.Here
  refine ⟨((hnoted.storing hs).trans hjoined).trans (hmade.storing hjoined.Here), ?_, ?_⟩
  · exact (hnoted.sameBytes.trans ⟨State.sameMain_of_main hmain, State.sameBufs_of_tasks htasks⟩).trans hmade.sameBytes
  · rw [State.madeWrite, State.wb_modHere, ← hj]
    refine (congrArg Partition.wb (State.part_modPart _ _ _ hpart)).trans ?_
    rw [State.ordered, State.wb_modHere]

/-- A store on a region kind contributes its elements, and changes no byte where the latent store has room. -/
theorem State.gStore_region_spec (hk : (s.gAt ea).2 = .red ∨ (s.gAt ea).2 = .cav) (data : List Byte) (hd : data.length ≤ 8) :
    s.Storing (s.gStore ea data m) ∧ ((s.tile s.hereP s.hereT).granules.length + 2 ≤ Config.latentGranules → s.SameBytes (s.gStore ea data m)) ∧
    ∀ r, regionOf s s.herePart.transNow s.herePart.tiles.length ea.toNat = some r →
      ((s.gStore ea data m).tile s.hereP s.hereT).contribs.length = (s.tile s.hereP s.hereT).contribs.length + data.length / r.esize := by
  have hnoted := State.noted_ordered hs m (s.gAt ea).2
  cases hr : regionOf s s.herePart.transNow s.herePart.tiles.length ea.toNat with
  | none =>
    rw [s.gStore_no_region ea data m hk hr]
    exact ⟨hnoted.storing hs, fun _ => hnoted.sameBytes, fun r h => absurd h (by simp)⟩
  | some r =>
    rw [s.gStore_region ea data m hk hr]
    have hlt := hnoted.hereT_lt hs (State.tile_of_gAt (ea := ea) (by rcases hk with hk | hk <;> rw [hk] <;> decide))
    have hspec := State.contribute_spec (s.ordered (s.gAt ea).2 m) s.hereP s.hereT r (ea.toNat - r.base) (s.taskRec ⟨false, 0⟩ data) hlt
    dsimp only at hspec ⊢
    generalize (s.ordered (s.gAt ea).2 m).contribute s.hereP s.hereT r (ea.toNat - r.base) (s.taskRec ⟨false, 0⟩ data) = held at hspec ⊢
    obtain ⟨htasks, hcontribs, hmain⟩ := hspec
    have hold (g : Tile → Nat) (hg : ∀ T i f, g (Tile.modThread T i f) = g T) : g ((s.ordered (s.gAt ea).2 m).tile s.hereP s.hereT) = g (s.tile s.hereP s.hereT) :=
      State.modHere_tile_keeps g hg s _ _ _
    rw [hold (·.contribs.length) fun _ _ _ => rfl] at hcontribs
    rw [hold (·.granules.length) fun _ _ _ => rfl] at hmain
    have hheld := State.storing_of_tasks htasks (hnoted.Here hs)
    have hmade := held.noted_madeWrite hheld.Here
    refine ⟨((hnoted.storing hs).trans hheld).trans (hmade.storing hheld.Here), fun hroom => ?_, fun r' hr' => ?_⟩
    · have hfew : data.length / r.esize ≤ 2 := (Nat.div_le_div hd (four_le_esize hr) (by decide)).trans (by decide)
      have hsame := hmain ((Nat.add_le_add_left hfew _).trans hroom)
      exact (hnoted.sameBytes.trans ⟨State.sameMain_of_main hsame, State.sameBufs_of_tasks htasks⟩).trans hmade.sameBytes
    · cases hr'
      exact (State.modHere_tile_keeps (·.contribs.length) (fun _ _ _ => rfl) held.newId (Thread.wrote held.opCtr) _ _).trans hcontribs

end

end Sys2Proof.Machine
end

section
/-!
PROOF of O23, concluded: stores of a controller to `m:` (spec/16 R322), stores that wait for the write-behind queue (spec/13 R250), and the claim.
-/

namespace Sys2Proof.Machine

open Sys2Proof.Claims

/-! ### Stores to a die's SRAM (R322) -/

theorem State.ctrl_modCtrl_ne (s : State) {d j : Nat} (f : Ctrl → Ctrl) (h : j ≠ d) : (s.modCtrl d f).ctrl j = s.ctrl j := by
  unfold State.modCtrl
  split
  · next hd => exact (vector_getD_set _ _ _ _ _ hd).trans (if_neg h)
  · rfl

theorem sramAt_lt {e addr f off : Nat} (he : e < 4) (h : sramAt e addr = some (f, off)) : f < 4 := by
  unfold sramAt at h
  split at h
  · cases h
    exact he
  split at h
  · cases h
    omega
  · cases h

section
variable (s : State) {e addr f off : Nat} (n : Nat) (v : Word) (ha : sramAt e addr = some (f, off))
include ha

/-- A store to SRAM writes the n low bytes of its value there, and clears the tag of its word. -/
theorem mWrite_sram : mWrite s e addr n (leNat (leBytes n v.toNat)) = ({ s with tags := s.tags.filterMap (Tag.afterMgmt e addr n) } : State).modCtrl f
    fun c => { c with sram := c.sram.writeRun off (leBytes n v.toNat) } := by
  have hbytes : leBytes n (leNat (leBytes n v.toNat)) = leBytes n v.toNat := by
    have := leBytes_leNat (leBytes n v.toNat)
    rwa [length_leBytes] at this
  unfold mWrite
  dsimp only
  rw [ha]
  simp only [Memory.writeNat, hbytes]

theorem sram_mWrite_sram (he : e < 4) (d a : Nat) : ((mWrite s e addr n (leNat (leBytes n v.toNat))).ctrl d).sram.read a =
    if d = f ∧ off ≤ a ∧ a < off + n then valueByte v (a - off) else (s.ctrl d).sram.read a := by
  rw [mWrite_sram s n v ha]
  by_cases hd : d = f
  · rw [hd, State.ctrl_modCtrl _ _ (sramAt_lt he ha)]
    refine (Memory.read_writeRun_word _ off n v a).trans ?_
    simp only [true_and]
    rfl
  · rw [State.ctrl_modCtrl_ne _ _ hd, if_neg fun h => hd h.1]
    rfl

theorem tasks_mWrite_sram : (mWrite s e addr n (leNat (leBytes n v.toNat))).tasks = s.tasks := by
  rw [mWrite_sram s n v ha]
  generalize hu : ({ s with tags := s.tags.filterMap (Tag.afterMgmt e addr n) } : State) = u
  have htasks : u.tasks = s.tasks := hu ▸ rfl
  rw [← htasks]
  have hth (d : Nat) : ((u.modCtrl f fun c => { c with sram := c.sram.writeRun off (leBytes n v.toNat) }).ctrl d).th = (u.ctrl d).th := by
    by_cases hd : d = f
    · rw [hd]
      by_cases hf : f < 4
      · rw [State.ctrl_modCtrl _ _ hf]
      · rw [State.modCtrl, dif_neg hf]
    · rw [State.ctrl_modCtrl_ne _ _ hd]
  simp only [State.tasks, State.part, State.modCtrl_cur, State.modCtrl_cycle, State.modCtrl_parts, hth]

end

/-! ### How stores run (R247, R249, R250) -/

/-- A store of the table runs as R249 gives it. -/
theorem exec_storeForm {i : Instr} {n : Nat} {d : Sreg} {m : MemRef} (h : storeForm i = some (n, d, m)) (s : State) : exec i s = .next (s.store n d m) := by
  unfold storeForm at h
  split at h <;> cases h <;> rfl

theorem le_of_storeForm {i : Instr} {n : Nat} {d : Sreg} {m : MemRef} (h : storeForm i = some (n, d, m)) : n ≤ 8 := by
  unfold storeForm at h
  split at h <;> cases h <;> decide

/-- The state in which a store to `m:` has been noted. -/
def State.mNoted (s : State) (n : Nat) (m : MemRef) : State :=
  (s.noteM (address s m) n true).modHere fun t => t.noteOrder s.cycle .m .l m.order m.scope

/-- A store to `m:` before its end. -/
def State.mStore (s : State) (e n : Nat) (v : Word) (m : MemRef) : State :=
  (mWrite (s.mNoted n m) e (address s m).toNat n (leNat (leBytes n v.toNat))).tagWord (mWord e (address s m).toNat) ((address s m).toNat % 8) n
    (s.here.release .m .l (s.here.orderScope .m .l m.order m.scope))

section
variable {s : State} (n : Nat) (d : Sreg) {m : MemRef}

/-- A store to `g:` that passes its checks waits where the tile's write-behind queue is full, and else is made and ends. -/
theorem State.store_g (hsp : m.space = .g) (hc : accessCheck s .g (address s m) n n .store = none) : s.store n d m =
    if s.cur.agent = .tile s.hereP s.hereT ∧ s.wbkFull s.hereP s.hereT then s.block .store
    else s.finish (s.gStore (address s m) (leBytes n (s.sr d).toNat) m) := by
  unfold State.store
  rw [s.ea_eq_address]
  dsimp only
  rw [hsp, hc]
  simp only [spaceBuf, reduceCtorEq, if_false]

/-- A controller's store to `m:` that passes its checks is made and ends. -/
theorem State.store_m {e : Nat} (ha : s.cur.agent = .ctrl e) (hsp : m.space = .m) (hc : accessCheck s .m (address s m) n n .store = none) :
    s.store n d m = s.finish (s.mStore e n (s.sr d) m) := by
  unfold State.store
  rw [s.ea_eq_address]
  dsimp only
  rw [hsp, hc]
  simp only [spaceBuf, if_true, ha]
  rfl

end

/-- A store to the SRAM of a die writes it at once, and no other. -/
theorem State.mStore_spec {s : State} (hs : s.Here = true) {e f off : Nat} (he : e < 4) (n : Nat) (v : Word) (m : MemRef)
    (ha : sramAt e (address s m).toNat = some (f, off)) : s.Storing (s.mStore e n v m) ∧ ∀ h a, ((s.mStore e n v m).ctrl h).sram.read a =
      if h = f ∧ off ≤ a ∧ a < off + n then valueByte v (a - off) else (s.ctrl h).sram.read a := by
  have hnoted : s.Noted (s.mNoted n m) := by
    have hm := s.noted_noteM hs (address s m) n true
    have horder := State.noted_noteOrder _ (hm.Here hs) .m .l m.order m.scope
    obtain ⟨-, -, -, hcyc, -⟩ := id hm
    rw [hcyc] at horder
    exact hm.trans horder
  obtain ⟨⟨-, -, -, -, hsame⟩, -⟩ := hnoted.sameBytes
  refine ⟨(hnoted.storing hs).trans (State.storing_of_tasks (tasks_mWrite_sram _ n v ha :) (hnoted.Here hs)), fun h a => ?_⟩
  exact (sram_mWrite_sram (s.mNoted n m) n v ha he h a).trans (by rw [hsame])

end Sys2Proof.Machine

namespace Sys2Proof.Proofs

open Sys2Proof Sys2Proof.Machine Sys2Proof.Claims

theorem globalStoresFollowTheirKind : GlobalStoresFollowTheirKind := by
  intro s i n d m hi hsp hs hc hl hr hroom g
  have hgo : ¬ (s.cur.agent = .tile s.hereP s.hereT ∧ s.wbkFull s.hereP s.hereT) := fun ⟨ha, hfull⟩ =>
    Bool.false_ne_true ((hroom _ _ ha).symm.trans hfull)
  have hexec := (exec_storeForm hi s).trans (congrArg Host.Outcome.next ((State.store_g n d hsp hc).trans (if_neg hgo)))
  have hlen : (leBytes n (s.sr d).toNat).length = n := length_leBytes _ _
  have hlive := State.gStore_l_spec hs (address s m) n (s.sr d) m hr
  have hbehind := fun hk => State.gStore_v_spec hs (address s m) m hk (leBytes n (s.sr d).toNat)
  have hregion := fun hk => State.gStore_region_spec hs (address s m) m hk (leBytes n (s.sr d).toNat) (hlen.trans_le (le_of_storeForm hi))
  generalize s.gStore (address s m) (leBytes n (s.sr d).toNat) m = u at hexec hlive hbehind hregion
  have hstoring : s.Storing u := by
    cases hk : g.2 with
    | l => exact (hlive hk).1
    | v => exact (hbehind hk).1
    | red => exact (hregion (.inl hk)).1
    | cav => exact (hregion (.inr hk)).1
  obtain ⟨⟨f, hf⟩, hended, hregs, hframe, hpend⟩ := hstoring.finish hl
  have hend := u.sameBytes_modHere f
  obtain ⟨-, hendBufs⟩ := id hend
  obtain ⟨-, -, -, -, hbufs⟩ := hstoring
  rw [hf] at hexec hended hregs hframe hpend
  refine ⟨_, hexec, hended, hregs, hbufs.trans hendBufs, hframe, hpend, fun hk => ?_, fun hk => ?_, fun hk => ?_⟩
  · obtain ⟨-, hstored⟩ := hlive hk
    rw [State.modHere_hbm, State.modHere_host]
    exact hstored
  · obtain ⟨-, hbytes, hwb⟩ := hbehind hk
    exact ⟨hbytes.trans hend, _, (u.wb_modHere f _).trans hwb, rfl, rfl, rfl, leBytes_word n _⟩
  · obtain ⟨-, hbytes, hcount⟩ := hregion hk
    rw [hlen] at hcount
    exact ⟨fun hfew => (hbytes hfew).trans hend, fun r hreg =>
      (State.modHere_tile_keeps (·.contribs.length) (fun _ _ _ => rfl) u f _ _).trans (hcount r hreg)⟩

theorem globalStoresWaitForTheQueue : GlobalStoresWaitForTheQueue := by
  intro s i n d m p k hi hsp hs ha hc hfull
  have hwait : s.cur.agent = .tile s.hereP s.hereT ∧ s.wbkFull s.hereP s.hereT := by simpa [State.hereP, State.hereT, ha] using hfull
  have hexec := (exec_storeForm hi s).trans (congrArg Host.Outcome.next ((State.store_g n d hsp hc).trans (if_pos hwait)))
  exact ⟨_, hexec, s.onlyThread_modHere hs _, s.here_modHere hs _⟩

theorem managementStoresWriteAtOnce : ManagementStoresWriteAtOnce := by
  intro s i n e d m hi hsp hs ha hc ea
  have hexec := (exec_storeForm hi s).trans (congrArg Host.Outcome.next (State.store_m n d ha hsp hc))
  refine ⟨hexec, fun f off hsram hl => ?_⟩
  have he : e < 4 := by simpa [State.Here, ha] using hs
  obtain ⟨hstoring, hread⟩ := State.mStore_spec hs he n (s.sr d) m hsram
  obtain ⟨⟨f', hf⟩, hended, hregs, -⟩ := hstoring.finish hl
  refine ⟨_, hexec, hended, hregs, fun h a => ?_⟩
  obtain ⟨⟨-, -, -, -, hend⟩, -⟩ := (s.mStore e n (s.sr d) m).sameBytes_modHere f'
  rw [hf]
  exact (hend h a).trans (hread h a)

/-- Settles O23, by the kind of the page that a store reaches, the room in the write-behind queue, and the word of `m:`. -/
theorem globalStores : Obligations.GlobalStores :=
  ⟨globalStoresFollowTheirKind, globalStoresWaitForTheQueue, managementStoresWriteAtOnce⟩

end Sys2Proof.Proofs
end

section
/-!
SUPPORT. The canonical form of the memories (O57): what it asks of a partition, a tile and a controller, and which updates of the state keep it.
Every lemma `State.memWf.f` says that the operation `f` of the model keeps the form.
-/

-- The lemmas are many and short: elaborated one by one, they do not each hold a thread while the ones before are checked.
set_option Elab.async false

namespace Sys2Proof.Machine

/-! ### The form by parts of the state -/

/-- A partition's tiles in canonical form. -/
def Partition.wf (P : Partition) : Prop := ∀ T ∈ P.tiles, T.wf

/-- A controller's SRAM in canonical form. -/
def Ctrl.wf (c : Ctrl) : Prop := c.sram.wf = true

/-- A meaning that answers a next state answers one in canonical form. -/
def Result.memWf : Result State → Prop
  | .next t => t.memWf
  | .fault _ | .refused _ => True

theorem Result.memWf.of_next {r : Result State} (h : r.memWf) {t : State} (e : r = .next t) : t.memWf := by
  subst e; exact h

theorem Tile.wf.zero : Tile.zero.wf := ⟨Memory.wf_nil, Memory.wf_nil, Memory.wf_nil⟩

theorem Partition.wf.absent : Partition.absent.wf := fun _ hT => nomatch hT

section
variable {T : Tile}

/-- A tile with the buffers of one in canonical form. -/
theorem Tile.wf.frame (h : T.wf)
    {latent granules copyBack fmt fmtC rings ringsC ringHb queues slots flpa flpn flpaC flpnC ext spare building build append appendFull appended
     appendedFull lines fetching flt fltd curTh consec lastIssue faults flost barrier raisers released voted contribs streamed landed syncHb stopIssue
     saved finRanges threads} :
    ({ T with
       latent := latent, granules := granules, copyBack := copyBack, fmt := fmt, fmtC := fmtC, rings := rings, ringsC := ringsC, ringHb := ringHb,
       queues := queues, slots := slots, flpa := flpa, flpn := flpn, flpaC := flpaC, flpnC := flpnC, ext := ext, spare := spare, building := building,
       build := build, append := append, appendFull := appendFull, appended := appended, appendedFull := appendedFull, lines := lines, fetching := fetching,
       flt := flt, fltd := fltd, curTh := curTh, consec := consec, lastIssue := lastIssue, faults := faults, flost := flost, barrier := barrier,
       raisers := raisers, released := released, voted := voted, contribs := contribs, streamed := streamed, landed := landed, syncHb := syncHb,
       stopIssue := stopIssue, saved := saved, finRanges := finRanges, threads := threads } : Tile).wf := h

theorem Tile.wf.buf (h : T.wf) (b : Buf) : (T.buf b).wf = true := by
  obtain ⟨hw, ha, hc⟩ := h
  cases b
  · exact hw
  · exact ha
  · exact hc

end

section
variable {P : Partition}

/-- A partition with the tiles of one in canonical form. -/
theorem Partition.wf.frame (h : P.wf)
    {valid base len wire wireSlots redSlots nrec trans transTlb transBuild transNow run ssn bred lead sinceLate washes washRuns dogFrom dogFired
     lastFixAt fixAt issueFrom seed stops sheet launch recs nextOrder reqs outs stale wb held drains codeOld decision flipAt remote events exchS
     exchSkew xbar arbitrated regen sysGroup links up down kids sentUp flight inPorts failedPorts reduced reducing podwt arb arrayEnd thermalHeld
     shadow restored releasing dogHeld monitors saveFn saveAlso savePrio saveSlot lostData tileErrs retiring sliceTo runFn sliceFrom} :
    ({ P with
       valid := valid, base := base, len := len, wire := wire, wireSlots := wireSlots, redSlots := redSlots, nrec := nrec, trans := trans,
       transTlb := transTlb, transBuild := transBuild, transNow := transNow, run := run, ssn := ssn, bred := bred, lead := lead, sinceLate := sinceLate,
       washes := washes, washRuns := washRuns, dogFrom := dogFrom, dogFired := dogFired, lastFixAt := lastFixAt, fixAt := fixAt, issueFrom := issueFrom,
       seed := seed, stops := stops, sheet := sheet, launch := launch, recs := recs, nextOrder := nextOrder, reqs := reqs, outs := outs, stale := stale,
       wb := wb, held := held, drains := drains, codeOld := codeOld, decision := decision, flipAt := flipAt, remote := remote, events := events,
       exchS := exchS, exchSkew := exchSkew, xbar := xbar, arbitrated := arbitrated, regen := regen, sysGroup := sysGroup, links := links, up := up,
       down := down, kids := kids, sentUp := sentUp, flight := flight, inPorts := inPorts, failedPorts := failedPorts, reduced := reduced,
       reducing := reducing, podwt := podwt, arb := arb, arrayEnd := arrayEnd, thermalHeld := thermalHeld, shadow := shadow, restored := restored,
       releasing := releasing, dogHeld := dogHeld, monitors := monitors, saveFn := saveFn, saveAlso := saveAlso, savePrio := savePrio,
       saveSlot := saveSlot, lostData := lostData, tileErrs := tileErrs, retiring := retiring, sliceTo := sliceTo, runFn := runFn,
       sliceFrom := sliceFrom } : Partition).wf := h

theorem Partition.wf.tile (h : P.wf) (t : Nat) : (P.tile t).wf := by
  unfold Partition.tile
  rw [List.getD_eq_getElem?_getD]
  cases ht : P.tiles[t]? with
  | none => exact .zero
  | some T => exact h T (List.mem_of_getElem? ht)

theorem forall_mem_modify {α : Type} {p : α → Prop} {l : List α} (h : ∀ x ∈ l, p x) (i : Nat) {f : α → α} (hf : ∀ x, p x → p (f x)) :
    ∀ x ∈ l.modify i f, p x := by
  intro x hx
  obtain ⟨j, hj⟩ := List.mem_iff_getElem?.1 hx
  rw [List.getElem?_modify] at hj
  obtain ⟨y, hy, rfl⟩ := Option.map_eq_some_iff.1 hj
  have hp := h y (List.mem_of_getElem? hy)
  split
  · exact hf y hp
  · exact hp

theorem Partition.wf.modTile (h : P.wf) (t : Nat) {f : Tile → Tile} (hf : ∀ T : Tile, T.wf → (f T).wf := by exact fun _ hT => hT.frame) : (P.modTile t f).wf :=
  forall_mem_modify h t hf

/-- The tiles of a partition, each changed. -/
theorem Partition.wf.mapTiles (h : P.wf) {f : Tile → Tile} (hf : ∀ T : Tile, T.wf → (f T).wf := by exact fun _ hT => hT.frame) :
    ∀ T ∈ P.tiles.map f, T.wf :=
  List.forall_mem_map.2 fun T hT => hf T (h T hT)

/-- The tiles of a partition, each changed by its number. -/
theorem Partition.wf.mapTilesIdx (h : P.wf) {f : Tile × Nat → Tile} (hf : ∀ x : Tile × Nat, x.1.wf → (f x).wf) : ∀ T ∈ P.tiles.zipIdx.map f, T.wf :=
  List.forall_mem_map.2 fun x hx => hf x (h _ (List.fst_mem_of_mem_zipIdx hx))

end

theorem Ctrl.wf.zero : Ctrl.zero.wf := Memory.wf_nil

/-- A controller with the SRAM of one in canonical form. -/
theorem Ctrl.wf.frame {c : Ctrl} (h : c.wf) {th : Thread} {lines : List Line} {fetching : List Addr} {back : Option Thread} :
    ({ c with th := th, lines := lines, fetching := fetching, back := back } : Ctrl).wf := h

theorem forall_wf_ofFn {f : Fin 4 → Ctrl} (hf : ∀ d, (f d).wf) : ∀ c ∈ (Vector.ofFn f).toList, c.wf := by
  intro c hc
  obtain ⟨d, rfl⟩ := Vector.mem_ofFn.1 (Vector.mem_toList_iff.1 hc)
  exact hf d

section
variable {s : State}

/-- A state with the memories, partitions and controllers of one in canonical form. -/
theorem State.memWf.frame (h : s.memWf)
    {powered cycle ptime timing flashBad disabled minSecurity retired logical leases leader epoch qcnt qLast qOp quarantine heldFree usedPages poison
     corrected hchain chans ports power cxl pfStarve pfNpLimit fns qslots pendBits lastServed msgs ops cpTurn tags opCtr fresh inputs agenda cur visited
     arg} :
    ({ s with
       powered := powered, cycle := cycle, ptime := ptime, timing := timing, flashBad := flashBad, disabled := disabled, minSecurity := minSecurity,
       retired := retired, logical := logical, leases := leases, leader := leader, epoch := epoch, qcnt := qcnt, qLast := qLast, qOp := qOp,
       quarantine := quarantine, heldFree := heldFree, usedPages := usedPages, poison := poison, corrected := corrected, hchain := hchain, chans := chans,
       ports := ports, power := power, cxl := cxl, pfStarve := pfStarve, pfNpLimit := pfNpLimit, fns := fns, qslots := qslots, pendBits := pendBits,
       lastServed := lastServed, msgs := msgs, ops := ops, cpTurn := cpTurn, tags := tags, opCtr := opCtr, fresh := fresh, inputs := inputs,
       agenda := agenda, cur := cur, visited := visited, arg := arg } : State).memWf := h

/-- A state that differs from one in canonical form in the state of the boot ROM too, with the same mailbox. -/
theorem State.memWf.bootFrame (h : s.memWf)
    {powered cycle ptime timing flashBad disabled minSecurity retired logical leases leader epoch qcnt qLast qOp quarantine heldFree usedPages poison
     corrected hchain chans ports power cxl pfStarve pfNpLimit fns qslots pendBits lastServed msgs ops cpTurn tags opCtr fresh inputs agenda cur
     visited arg}
    {done stage cause mbrdy recov failA failB busy err mblen mboff chunk imgFail last image slot fieldFail} :
    ({ s with
       boot := { s.boot with
         done := done, stage := stage, cause := cause, mbrdy := mbrdy, recov := recov, failA := failA, failB := failB, busy := busy, err := err,
         mblen := mblen, mboff := mboff, chunk := chunk, imgFail := imgFail, last := last, image := image, slot := slot, fieldFail := fieldFail }
       powered := powered, cycle := cycle, ptime := ptime, timing := timing, flashBad := flashBad, disabled := disabled, minSecurity := minSecurity,
       retired := retired, logical := logical, leases := leases, leader := leader, epoch := epoch, qcnt := qcnt, qLast := qLast, qOp := qOp,
       quarantine := quarantine, heldFree := heldFree, usedPages := usedPages, poison := poison, corrected := corrected, hchain := hchain,
       chans := chans, ports := ports, power := power, cxl := cxl, pfStarve := pfStarve, pfNpLimit := pfNpLimit, fns := fns, qslots := qslots,
       pendBits := pendBits, lastServed := lastServed, msgs := msgs, ops := ops, cpTurn := cpTurn, tags := tags, opCtr := opCtr, fresh := fresh,
       inputs := inputs, agenda := agenda, cur := cur, visited := visited, arg := arg } : State).memWf := h

/-- Another state of the boot ROM with the same mailbox. -/
theorem State.memWf.withBoot (h : s.memWf) {t : State} (hb : t.boot.mbox.wf = true) (hh : t.hbm = s.hbm := by rfl) (ho : t.host = s.host := by rfl)
    (hf : t.flash = s.flash := by rfl) (hp : t.parts = s.parts := by rfl) (hc : t.ctrls = s.ctrls := by rfl) : t.memWf := by
  obtain ⟨hhbm, hhost, hflash, _, hparts, hctrls⟩ := h
  unfold State.memWf
  rw [hh, ho, hf, hp, hc]
  exact ⟨hhbm, hhost, hflash, hb, hparts, hctrls⟩

theorem State.memWf.parts (h : s.memWf) : ∀ P ∈ s.parts, P.wf := by
  obtain ⟨_, _, _, _, hparts, _⟩ := h
  exact hparts

theorem State.memWf.ctrls (h : s.memWf) : ∀ c ∈ s.ctrls.toList, c.wf := by
  obtain ⟨_, _, _, _, _, hctrls⟩ := h
  exact hctrls

theorem State.memWf.part (h : s.memWf) (p : Nat) : (s.part p).wf := by
  unfold State.part
  rw [List.getD_eq_getElem?_getD]
  cases hp : s.parts[p]? with
  | none => exact .absent
  | some P => exact h.parts P (List.mem_of_getElem? hp)

theorem State.memWf.tile (h : s.memWf) (p t : Nat) : (s.tile p t).wf := (h.part p).tile t

/-- A state with other partitions, all in canonical form. -/
theorem State.memWf.withParts (h : s.memWf) {t : State} (hp : ∀ P ∈ t.parts, P.wf) (hh : t.hbm = s.hbm := by rfl) (ho : t.host = s.host := by rfl)
    (hf : t.flash = s.flash := by rfl) (hb : t.boot.mbox = s.boot.mbox := by rfl) (hc : t.ctrls = s.ctrls := by rfl) : t.memWf := by
  obtain ⟨hhbm, hhost, hflash, hmbox, _, hctrls⟩ := h
  unfold State.memWf
  rw [hh, ho, hf, hb, hc]
  exact ⟨hhbm, hhost, hflash, hmbox, hp, hctrls⟩

/-- A state with other controllers, all in canonical form. -/
theorem State.memWf.withCtrls (h : s.memWf) {t : State} (hc : ∀ c ∈ t.ctrls.toList, c.wf) (hh : t.hbm = s.hbm := by rfl) (ho : t.host = s.host := by rfl)
    (hf : t.flash = s.flash := by rfl) (hb : t.boot.mbox = s.boot.mbox := by rfl) (hp : t.parts = s.parts := by rfl) : t.memWf := by
  obtain ⟨hhbm, hhost, hflash, hmbox, hparts, _⟩ := h
  unfold State.memWf
  rw [hh, ho, hf, hb, hp]
  exact ⟨hhbm, hhost, hflash, hmbox, hparts, hc⟩

/-- A state with other bytes of HBM. -/
theorem State.memWf.withHbm (h : s.memWf) {t : State} (hh : t.hbm.wf = true) (ho : t.host = s.host := by rfl) (hf : t.flash = s.flash := by rfl)
    (hb : t.boot.mbox = s.boot.mbox := by rfl) (hp : t.parts = s.parts := by rfl) (hc : t.ctrls = s.ctrls := by rfl) : t.memWf := by
  obtain ⟨_, hhost, hflash, hmbox, hparts, hctrls⟩ := h
  unfold State.memWf
  rw [ho, hf, hb, hp, hc]
  exact ⟨hh, hhost, hflash, hmbox, hparts, hctrls⟩

/-- A state with other bytes of flash. -/
theorem State.memWf.withFlash (h : s.memWf) {t : State} (hf : t.flash.wf = true) (hh : t.hbm = s.hbm := by rfl) (ho : t.host = s.host := by rfl)
    (hb : t.boot.mbox = s.boot.mbox := by rfl) (hp : t.parts = s.parts := by rfl) (hc : t.ctrls = s.ctrls := by rfl) : t.memWf := by
  obtain ⟨hhbm, hhost, _, hmbox, hparts, hctrls⟩ := h
  unfold State.memWf
  rw [hh, ho, hb, hp, hc]
  exact ⟨hhbm, hhost, hf, hmbox, hparts, hctrls⟩

/-! ### The parts of the state, updated -/

theorem State.memWf.modPart (h : s.memWf) (p : Nat) {f : Partition → Partition} (hf : ∀ P : Partition, P.wf → (f P).wf := by exact fun _ hP => hP.frame) :
    (s.modPart p f).memWf :=
  h.withParts (forall_mem_modify (p := Partition.wf) h.parts p hf)

theorem State.memWf.modTile (h : s.memWf) (p t : Nat) {f : Tile → Tile} (hf : ∀ T : Tile, T.wf → (f T).wf := by exact fun _ hT => hT.frame) : (s.modTile p t f).memWf :=
  h.modPart p fun _ hP => hP.modTile t hf

theorem State.memWf.ctrl (h : s.memWf) (d : Nat) (hd : d < 4) : (s.ctrls[d]).wf := by
  exact h.ctrls _ (by simp)

theorem State.memWf.modCtrl (h : s.memWf) (d : Nat) {f : Ctrl → Ctrl} (hf : ∀ c : Ctrl, c.wf → (f c).wf := by exact fun _ hc => hc.frame) :
    (s.modCtrl d f).memWf := by
  unfold State.modCtrl
  split
  · next hd =>
    refine h.withCtrls fun c hc => ?_
    rw [Vector.mem_toList_iff] at hc
    rcases Vector.mem_or_eq_of_mem_set (hi := hd) hc with hc | rfl
    · exact h.ctrls c (Vector.mem_toList_iff.2 hc)
    · exact hf _ (h.ctrl d hd)
  · exact h

theorem State.memWf.modThread (h : s.memWf) (a : Agent) (i : Nat) (f : Thread → Thread) : (s.modThread a i f).memWf := by
  cases a with
  | tile p t => exact h.modTile p t
  | ctrl d => exact h.modCtrl d

theorem State.memWf.modHere (h : s.memWf) (f : Thread → Thread) : (s.modHere f).memWf := h.modThread _ _ f

theorem State.memWf.modHereTile (h : s.memWf) {f : Tile → Tile} (hf : ∀ T : Tile, T.wf → (f T).wf := by exact fun _ hT => hT.frame) :
    (s.modHereTile f).memWf := by
  unfold State.modHereTile
  split
  · exact h.modTile _ _ hf
  · exact h

/-- What every step of a fold keeps holds after the fold. -/
theorem foldl_keeps_prop {σ α : Type} {q : σ → Prop} {f : σ → α → σ} (hf : ∀ s x, q s → q (f s x)) (l : List α) {s : σ} (h : q s) : q (l.foldl f s) := by
  induction l generalizing s with
  | nil => exact h
  | cons x xs ih => exact ih (hf _ _ h)

theorem State.memWf.foldl {α : Type} (h : s.memWf) (l : List α) {f : State → α → State} (hf : ∀ s x, s.memWf → (f s x).memWf) : (l.foldl f s).memWf :=
  foldl_keeps_prop hf l h

theorem Tile.wf.foldl {T : Tile} {α : Type} (h : T.wf) (l : List α) {f : Tile → α → Tile} (hf : ∀ T x, T.wf → (f T x).wf) : (l.foldl f T).wf :=
  foldl_keeps_prop hf l h

theorem Partition.wf.foldl {P : Partition} {α : Type} (h : P.wf) (l : List α) {f : Partition → α → Partition} (hf : ∀ P x, P.wf → (f P x).wf) :
    (l.foldl f P).wf :=
  foldl_keeps_prop hf l h

theorem State.memWf.ite {t : State} (h : s.memWf) (ht : t.memWf) {c : Prop} {_ : Decidable c} : (if c then s else t).memWf := by
  split
  · exact h
  · exact ht

theorem State.memWf.dite {c : Prop} [Decidable c] {f : c → State} {g : ¬ c → State} (hf : ∀ h, (f h).memWf) (hg : ∀ h, (g h).memWf) :
    (if h : c then f h else g h).memWf := by
  split
  · exact hf _
  · exact hg _

theorem Tile.wf.ite {T U : Tile} (h : T.wf) (hU : U.wf) {c : Prop} {_ : Decidable c} : (if c then T else U).wf := by
  split
  · exact h
  · exact hU

theorem Partition.wf.ite {P Q : Partition} (h : P.wf) (hQ : Q.wf) {c : Prop} {_ : Decidable c} : (if c then P else Q).wf := by
  split
  · exact h
  · exact hQ

/-! ### Memory -/

theorem State.memWf.physWrite (h : s.memWf) (l : Loc) (bs : List Byte) : (s.physWrite l bs).memWf := by
  obtain ⟨hhbm, hhost, hflash, hmbox, hparts, hctrls⟩ := id h
  unfold State.physWrite
  dsimp only
  split
  · exact ⟨hhbm, Memory.wf_writeRun hhost _ _, hflash, hmbox, hparts, hctrls⟩
  · split
    · exact h
    · exact h.withHbm (Memory.wf_writeRun hhbm _ _)

theorem State.memWf.hide (h : s.memWf) (except : Option Nat) (l : Loc) (n : Nat) : (s.hide except l n).memWf := by
  refine h.withParts (List.forall_mem_map.2 fun x hx => ?_)
  have hP : Partition.wf x.1 := h.parts _ (List.fst_mem_of_mem_zipIdx hx)
  split
  · exact hP
  · split <;> exact hP.frame

theorem State.memWf.wakeCtrls (h : s.memWf) : s.wakeCtrls.memWf := by
  refine h.withCtrls ?_
  unfold State.wakeCtrls
  rw [Vector.toList_map, List.forall_mem_map]
  intro c hc
  split
  · exact (h.ctrls c hc).frame
  · exact h.ctrls c hc

end

end Sys2Proof.Machine
end

section
/-!
PROOF of O57: every operation of the model, in the order of the model's files, keeps the memories in canonical form (spec/05 R95, R109), and so does
every step.
-/

-- The lemmas are many and short: elaborated one by one, they do not each hold a thread while the ones before are checked.
set_option Elab.async false

namespace Sys2Proof.Machine

section
variable {s : State} {T : Tile} {P : Partition}

/-! ### Access to the parts of the state -/

theorem Tile.wf.modThread (h : T.wf) (i : Nat) (f : Thread → Thread) : (T.modThread i f).wf := h.frame

theorem State.memWf.schedule (h : s.memWf) (dt : Nat) (ev : Instr) (arg : Arg) : (s.schedule dt ev arg).memWf := h.frame

theorem State.memWf.scheduleFree (h : s.memWf) (k : Delay) (ev : Instr) (arg : Arg) : (s.scheduleFree k ev arg).memWf := (h.schedule _ _ _).frame

theorem State.memWf.newId (h : s.memWf) : s.newId.memWf := h.frame

theorem Tile.wf.takeGranules (h : T.wf) (gs : List Gran) : (T.takeGranules gs).wf := h.frame

theorem Tile.wf.writeLatent (h : T.wf) (b : Buf) (w : WRec) : (T.writeLatent b w).wf := by
  unfold Tile.writeLatent
  dsimp only
  split
  · exact h
  · exact h.frame.takeGranules _

theorem State.memWf.bufWrite (h : s.memWf) (p t : Nat) (b : Buf) (w : WRec) : (s.bufWrite p t b w).memWf :=
  (h.modTile _ _ fun _ hT => hT.writeLatent _ _).frame

theorem State.memWf.vwrite (h : s.memWf) (tr : List PageT) (va : Nat) (bs : List Byte) : (s.vwrite tr va bs).memWf := h.foldl _ fun _ _ hs => by
  split
  · exact hs.physWrite _ _
  · exact hs

theorem State.memWf.outsideWrite (h : s.memWf) (except : Option Nat) (l : Loc) (bs : List Byte) : (s.outsideWrite except l bs).memWf :=
  (h.hide _ _ _).physWrite _ _

theorem State.memWf.outsideVwrite (h : s.memWf) (except : Option Nat) (tr : List PageT) (va : Nat) (bs : List Byte) :
    (s.outsideVwrite except tr va bs).memWf :=
  h.foldl _ fun _ _ hs => by
    split
    · exact hs.outsideWrite _ _ _
    · exact hs

/-! ### Control registers -/

theorem Tile.wf.writeFmt (h : T.wf) (k : Nat) (v : Word) : (T.writeFmt k v).wf := h.foldl _ fun _ _ hT => by
  dsimp only
  split
  · split
    · exact hT.frame
    · exact hT
  · exact hT

theorem State.memWf.beginBuild (h : s.memWf) (p t k : Nat) : (s.beginBuild p t k).memWf := (h.modTile _ _).scheduleFree _ _ _

theorem State.memWf.restartBuild (h : s.memWf) (p t : Nat) : (s.restartBuild p t).memWf := h.beginBuild _ _ _

theorem State.memWf.writeFlp (h : s.memWf) (p t : Nat) (a : Option Addr) (n : Option Nat) : (s.writeFlp p t a n).memWf :=
  (h.modTile _ _).restartBuild _ _

theorem State.memWf.csrWrite (h : s.memWf) (a : Agent) (i : Nat) (n : BitVec 12) (v : Word) : (csrWrite s a i n v).memWf := by
  unfold Machine.csrWrite
  dsimp only
  split
  · exact h.modThread _ _ _
  · split
    · exact h.writeFlp _ _ _ _
    · split
      · exact h.writeFlp _ _ _ _
      · split
        · exact h.modTile _ _
        · split
          · exact h.modTile _ _ fun _ hT => hT.writeFmt _ _
          · split
            · split
              · exact h.modTile _ _
              · exact h
            · split
              · exact h.modPart _
              · exact h.modThread _ _ _

/-! ### Traps, fault records and the ends of units -/

theorem State.memWf.writeS (h : s.memWf) (L : Nat) (d : Sreg) (v : Word) (fl : Byte) : (s.writeS L d v fl).memWf := by
  unfold State.writeS
  split <;> exact h.modHere _

theorem State.memWf.writeP (h : s.memWf) (d : Preg) (v : Bool) (fl : Byte) : (s.writeP d v fl).memWf := h.modHere _

theorem State.memWf.taskLatent (h : s.memWf) (p t i : Nat) (b : Buf) (a : Nat) (data : List Byte) : (s.taskLatent p t i b a data).memWf :=
  (h.newId.bufWrite _ _ _ _).modTile _ _ fun _ hT => hT.modThread _ _

theorem State.memWf.applyPend (h : s.memWf) (a : Agent) (i : Nat) (x : Pend) : (applyPend a i s x).memWf := by
  unfold Machine.applyPend
  dsimp only
  split
  · exact (h.modThread _ _ _).modThread _ _ _
  · exact (h.modThread _ _ _).modThread _ _ _
  · exact (h.modThread _ _ _).csrWrite _ _ _ _
  · split
    · exact (h.modThread _ _ _).bufWrite _ _ _ _
    · exact h.modThread _ _ _

theorem State.memWf.landThread (h : s.memWf) (a : Agent) (i c : Nat) : (landThread s a i c).memWf :=
  h.foldl _ fun _ _ hs => (hs.modThread _ _ _).applyPend _ _ _

theorem Tile.wf.landFlt (h : T.wf) (c : Nat) : (T.landFlt c).wf := by
  unfold Tile.landFlt
  dsimp only
  split
  · exact h.frame
  · exact h

theorem State.memWf.beforeTrap (h : s.memWf) (p t i : Nat) : (s.beforeTrap p t i).memWf := h.modTile _ _ fun _ hT => (hT.landFlt _).modThread _ _

theorem State.memWf.recordFault (h : s.memWf) (p : Nat) (lt th : Option Nat) (src : Nat) (cause : Cause) (detail tepc : Word) (u : IssueUnit)
    (phys : Nat) :
    (recordFault s p lt th src cause detail tepc u phys).1.memWf := by
  unfold Machine.recordFault
  simp only [apply_ite Prod.fst]
  split
  · exact (h.vwrite _ _ _).wakeCtrls.vwrite _ _ _
  · exact ((h.vwrite _ _ _).wakeCtrls.vwrite _ _ _).vwrite _ _ _

theorem Tile.wf.noteFlt (h : T.wf) (ssn : BitVec 32) (th : Nat) (cause : Cause) (detail : Word) : (T.noteFlt ssn th cause detail).wf := by
  unfold Tile.noteFlt
  dsimp only
  split <;> exact h.frame

theorem State.memWf.tileFault (h : s.memWf) (p t who src : Nat) (cause : Cause) (vote : BitVec 2) (detail tepc : Word) (u : IssueUnit) (phys : Nat) :
    (tileFault s p t who src cause vote detail tepc u phys).memWf :=
  (h.recordFault _ _ _ _ _ _ _ _ _).modTile _ _ fun _ hT => (hT.noteFlt _ _ _ _).frame

theorem Tile.wf.appendPage (h : T.wf) (detail : Word) : (T.appendPage detail).wf := by
  unfold Tile.appendPage
  dsimp only
  split
  · exact h
  · split
    · exact h
    · split <;> exact h.frame

theorem State.memWf.chainExhausted (h : s.memWf) (p t : Nat) (w : Word) : (chainExhausted s p t w).memWf :=
  h.foldl _ fun _ _ hs => (hs.tileFault _ _ _ _ _ _ _ _ _ _).modTile _ _

theorem State.memWf.chainForward (h : s.memWf) (p t i : Nat) (cause : Cause) (detail : Word) (u : IssueUnit) (phys : Nat) :
    (chainForward s p t i cause detail u phys).memWf := by
  unfold Machine.chainForward
  dsimp only
  split
  · exact ((h.tileFault _ _ _ _ _ _ _ _ _ _).modTile _ _ fun _ hT => hT.modThread _ _).chainExhausted _ _ _
  · exact ((((h.tileFault _ _ _ _ _ _ _ _ _ _).modTile _ _ fun _ hT => hT.modThread _ _).beforeTrap _ _ _).tileFault _ _ _ _ _ _ _ _ _ _).modTile _ _
      fun _ hT => hT.modThread _ _

theorem State.memWf.trapTile (h : s.memWf) (p t i : Nat) (cause : Cause) (detail : Word) (u : IssueUnit) (phys : Nat) :
    (trapTile s p t i cause detail u phys).memWf := by
  unfold Machine.trapTile
  dsimp only
  split
  · exact (((h.beforeTrap _ _ _).modTile _ _ fun _ hT => hT.appendPage _).ite (h.beforeTrap _ _ _)).chainForward _ _ _ _ _ _ _
  · exact ((((h.beforeTrap _ _ _).modTile _ _ fun _ hT => hT.appendPage _).ite (h.beforeTrap _ _ _)).tileFault _ _ _ _ _ _ _ _ _ _).modTile _ _
      fun _ hT => hT.modThread _ _

theorem State.memWf.trapCtrl (h : s.memWf) (d : Nat) (cause : Cause) (detail : Word) (u : IssueUnit) : (trapCtrl s d cause detail u).memWf := by
  unfold Machine.trapCtrl
  dsimp only
  split <;> exact h.modCtrl _

theorem State.memWf.trapOn (h : s.memWf) (a : Agent) (i : Nat) (cause : Cause) (detail : Word) (u : IssueUnit) (phys : Nat) :
    (s.trapOn a i cause detail u phys).memWf := by
  unfold State.trapOn
  split
  · exact h.trapTile _ _ _ _ _ _ _
  · exact h.trapCtrl _ _ _ _

theorem State.memWf.raise (h : s.memWf) (cause : Cause) (detail : Word) : (s.raise cause detail).memWf := h.trapOn _ _ _ _ _ _

theorem Tile.wf.setFaultVote (h : T.wf) (who : Nat) (f : BitVec 2 → BitVec 2) : (T.setFaultVote who f).wf := h.frame

theorem State.memWf.tileEvent (h : s.memWf) (p t : Nat) (cause : Cause) (vote : BitVec 2) (detail : Word) (phys : Nat) :
    (tileEvent s p t cause vote detail phys).memWf :=
  h.tileFault _ _ _ _ _ _ _ _ _ _

theorem State.memWf.partEvent (h : s.memWf) (p : Nat) (cause : Cause) (vote : BitVec 2) (detail : Word) : (partEvent s p cause vote detail).memWf :=
  (h.ite (h.recordFault _ _ _ _ _ _ _ _ _)).modPart _ fun _ hP => by
    split
    · exact hP
    · exact hP.frame

theorem State.memWf.holdTarget (h : s.memWf) (tgt : Addr) (r : Refuse) : (s.holdTarget tgt r).memWf := h.modHere _

theorem State.memWf.finishAt (h : s.memWf) {t : State} (ht : t.memWf) (taken : Option Addr) : (s.finishAt t taken).memWf := by
  unfold State.finishAt
  dsimp only
  split
  · split
    · exact h.raise _ _
    · exact h.holdTarget _ _
  · exact ht.modHere _

theorem State.memWf.finish {t : State} (h : s.memWf) (ht : t.memWf) : (s.finish t).memWf := h.finishAt ht _

theorem State.memWf.block (h : s.memWf) (w : Wait) : (s.block w).memWf := h.modHere _

theorem State.memWf.orHold (h : s.memWf) {t : State} (ht : t.memWf) : (s.orHold t).memWf := by
  unfold State.orHold
  split
  · exact h.holdTarget _ _
  · exact ht

theorem State.memWf.blockFor (h : s.memWf) (k : Delay) (w : Wait) : (s.blockFor k w).memWf := (h.block _).scheduleFree _ _ _

theorem State.memWf.blockRead (h : s.memWf) (l : Loc) (k : Delay) (d : Option Sreg) (v : Word) : (s.blockRead l k d v).memWf := by
  unfold State.blockRead
  split
  · exact h.block _
  · exact h.blockFor _ _

theorem State.memWf.blockSpilled (h : s.memWf) (chs : List Nat) (w : Wait) : (s.blockSpilled chs w).memWf := (h.block _).scheduleFree _ _ _

theorem State.memWf.tileOnly {k : State} (h : s.memWf) (hk : k.memWf) : (s.tileOnly k).memWf := by
  unfold State.tileOnly
  split
  · exact h.raise _ _
  · exact hk

theorem Tile.wf.seenAfter (h : T.wf) (hb : List Nat) : (T.seenAfter hb).wf := h.foldl _ fun _ _ hT => by
  split
  · split
    · exact hT.writeLatent _ _
    · exact hT
  · exact hT
  · exact hT
  · exact hT

theorem State.memWf.fork (h : s.memWf) (kind : OpKind) (tok : TokF) : (s.fork kind tok).memWf := (h.newId.modHere _).frame

theorem State.memWf.modOp (h : s.memWf) (id : Nat) (f : EngOp → EngOp) : (s.modOp id f).memWf := h.frame

theorem State.memWf.opWrite (h : s.memWf) (o : EngOp) (cls : WClass) (q p t : Nat) (b : Buf) (a : Nat) (data : List Byte) :
    (s.opWrite o cls q p t b a data).memWf :=
  h.bufWrite _ _ _ _

theorem State.memWf.opDone (h : s.memWf) (id : Nat) (fl : Byte) : (s.opDone id fl).memWf := by
  unfold State.opDone
  split
  · exact h
  · exact (h.modOp _ _).modThread _ _ _

/-! ### HBM channels, monitors and the controllers' address space -/

theorem State.memWf.modChan (h : s.memWf) (ch : Nat) (f : Channel → Channel) : (s.modChan ch f).memWf := by
  unfold State.modChan
  split
  · exact h.frame
  · exact h

theorem State.memWf.trainWrite (h : s.memWf) (ch : Nat) (x : BitVec 32) : (trainWrite s ch x).memWf := by
  unfold Machine.trainWrite
  dsimp only
  split
  · exact h.modChan _ _
  · split
    · split
      · exact h
      · exact (h.modChan _ _).schedule _ _ _
    · exact h.modChan _ _

theorem State.memWf.trainEffective (h : s.memWf) (ch : Nat) : (trainEffective s ch).memWf := by
  unfold Machine.trainEffective
  dsimp only
  split
  · exact h
  · split
    · exact (h.modChan _ _).schedule _ _ _
    · exact h.modChan _ _

theorem State.memWf.patternStart (h : s.memWf) (ch : Nat) : (patternStart s ch).memWf := by
  unfold Machine.patternStart
  dsimp only
  split
  · exact h.modChan _ _
  · split
    · exact h.modChan _ _
    · exact (h.modChan _ _).schedule _ _ _

theorem State.memWf.patternDone (h : s.memWf) (ch : Nat) : (patternDone s ch).memWf := by
  unfold Machine.patternDone
  dsimp only
  split
  · exact h
  · exact (h.modChan _ _).frame.foldl _ fun _ _ hs => by
      split
      · split
        · exact (hs.modCtrl _).schedule _ _ _
        · exact hs
      · exact hs

theorem State.memWf.chanWrite4 (h : s.memWf) (ch off : Nat) (x : BitVec 32) : (chanWrite4 s ch off x).memWf :=
  ((h.patternStart _).ite (h.trainWrite _ _)).ite <| ((h.modChan _ _).ite h).ite <| (h.modChan _ _).ite <| (h.modChan _ _).ite <| (h.modChan _ _).ite <|
    .dite (fun _ => h.modChan _ _) fun _ => .dite (fun _ => h.modChan _ _) fun _ => (h.modChan _ _).ite h

theorem Partition.wf.sample (h : P.wf) (src v : Nat) : (P.sample src v).wf := h.frame

theorem State.memWf.modMon (h : s.memWf) (p i : Nat) (f : Monitor → Monitor) : (s.modMon p i f).memWf := h.modPart _ fun _ hP => by
  split
  · exact hP.frame
  · exact hP

theorem State.memWf.monWrite4 (h : s.memWf) (off : Nat) (x : BitVec 32) : (monWrite4 s off x).memWf := by
  unfold Machine.monWrite4
  dsimp only
  split
  · exact h.modMon _ _ _
  · exact h

theorem State.memWf.setLease (h : s.memWf) (d : Nat) (l : Lease) : (s.setLease d l).memWf := by
  unfold State.setLease
  split
  · split
    · exact h
    · exact h.frame
  · exact h

theorem State.memWf.mWrite4 (h : s.memWf) (addr : Nat) (x : BitVec 32) : (mWrite4 s addr x).memWf := by
  unfold Machine.mWrite4
  dsimp only
  split
  · split
    · exact h.frame
    · exact h
  · split
    · exact h.chanWrite4 _ _ _
    · split
      · split
        · exact h.setLease _ _
        · split
          · exact h.setLease _ _
          · split
            · exact h.setLease _ _
            · split
              · exact h.setLease _ _
              · exact h
      · split
        · exact h.monWrite4 _ _
        · exact h

theorem State.memWf.mWrite (h : s.memWf) (d addr n v : Nat) : (mWrite s d addr n v).memWf := by
  unfold Machine.mWrite
  dsimp only
  split
  · exact h.frame.modCtrl _ (by exact fun _ hc => Memory.wf_writeNat hc _ _ _)
  · split
    · exact h.frame
    · split
      · exact h.frame.setLease _ _
      · exact h.frame.foldl _ fun _ _ hs => hs.mWrite4 _ _

theorem State.memWf.execMonitorSelect (h : s.memWf) : Result.memWf (execMonitorSelect s) := by
  unfold Machine.execMonitorSelect
  split
  · exact h
  · exact h.modMon _ _ _

theorem State.memWf.execMonitorClear (h : s.memWf) : Result.memWf (execMonitorClear s) := by
  unfold Machine.execMonitorClear
  split
  · exact h
  · exact h.modMon _ _ _

/-! ### Row operands -/

theorem State.memWf.writeRow (h : s.memWf) (L : Nat) (d : Row) (bs : List Byte) (fl : Byte) : (s.writeRow L d bs fl).memWf := h.newId.modHere _

theorem State.memWf.endRow {s1 : State} (h : s.memWf) (hs1 : s1.memWf) (L : Nat) (rd : List Row) : (s.endRow s1 L rd).memWf := by
  unfold State.endRow
  dsimp only
  split
  · exact h.orHold (((hs1.block _).schedule _ _ _).frame)
  · exact h.finish hs1

/-! ### Issue, line fetches and the end of a cycle -/

theorem Tile.wf.noteIssue (h : T.wf) (i cyc : Nat) (sw : Bool) : (T.noteIssue i cyc sw).wf := h.frame

theorem Partition.wf.washPending (h : P.wf) : P.washPending.wf := h.frame

theorem Partition.wf.began (h : P.wf) (t cyc : Nat) : (P.began t cyc).wf := by
  unfold Partition.began
  split
  · split
    · exact h.frame.washPending
    · exact h
  · exact h

theorem State.memWf.fetchLine (h : s.memWf) (a : Agent) (la : Addr) : (s.fetchLine a la).memWf := by
  unfold State.fetchLine
  split
  · split
    · exact h
    · exact (h.modTile _ _).scheduleFree _ _ _
  · split
    · exact h
    · exact (h.modCtrl _).scheduleFree _ _ _

theorem State.memWf.waitLine (h : s.memWf) (a : Agent) (i : Nat) (la : Addr) : (s.waitLine a i la).memWf := (h.fetchLine _ _).modThread _ _ _

theorem State.memWf.lineArrives (h : s.memWf) (a : Agent) (la : Addr) (since : Nat) : (lineArrives s a la since).memWf := by
  unfold Machine.lineArrives
  dsimp only
  split
  · dsimp only
    split
    · exact h.scheduleFree _ _ _
    · split
      · split
        · split
          · exact (h.ite (h.modPart _ fun _ hP => hP.sample _ _)).modTile _ _
          · exact ((h.ite (h.modPart _ fun _ hP => hP.sample _ _)).modTile _ _).tileEvent _ _ _ _ _ _
        · exact (h.ite (h.modPart _ fun _ hP => hP.sample _ _)).modTile _ _
      · exact h
  · split
    · split
      · exact h.scheduleFree _ _ _
      · split
        · exact h.modCtrl _
        · exact h
    · split
      · exact h.scheduleFree _ _ _
      · split
        · exact h.modCtrl _
        · exact h

theorem State.memWf.noteBegan (h : s.memWf) : s.noteBegan.memWf := by
  unfold State.noteBegan
  split
  · split
    · exact h.modPart _ fun _ hP => hP.began _ _
    · exact h
  · exact h

theorem State.memWf.prefetched (h : s.memWf) (a : Agent) (la : Addr) : (s.prefetched a la).memWf := by
  unfold State.prefetched
  dsimp only
  split
  · exact h
  · split
    · exact h
    · split
      · exact h
      · split
        · exact h.modTile _ _
        · exact ((h.modTile _ _).modPart _ fun _ hP => hP.sample _ _).frame

theorem State.memWf.bringLine (h : s.memWf) (a : Agent) (la : Addr) : (s.bringLine a la).memWf := by
  unfold State.bringLine
  dsimp only
  split
  · exact h.prefetched _ _
  · exact (h.prefetched _ _).fetchLine _ _

theorem State.memWf.noteBack (h : s.memWf) : s.noteBack.memWf := by
  unfold State.noteBack
  split
  · exact h
  · exact h.modCtrl _

theorem State.memWf.heldFault (h : s.memWf) (tgt : Addr) (c : Cause) (d : Word) : (s.heldFault tgt c d).memWf := by
  unfold State.heldFault
  split
  · exact h.raise _ _
  · split
    · exact h.raise _ _
    · exact h.modHere _

theorem State.memWf.sendPorts (h : s.memWf) : s.sendPorts.memWf := by
  unfold State.sendPorts
  split
  · exact h
  · exact h.frame

theorem State.memWf.tick (h : s.memWf) : s.tick.memWf := ((h.foldl _ fun _ _ hs => hs.foldl _ fun _ _ hs_1 => hs_1.foldl _ fun _ _ hs_2 => by
  dsimp only
  split
  · exact hs_2
  · exact hs_2.landThread _ _ _).foldl _ fun _ _ hs => by
  dsimp only
  split
  · exact hs
  · exact hs.landThread _ _ _).sendPorts.frame

/-! ### Scalar instructions -/

theorem State.memWf.scalarOp (h : s.memWf) (L : Nat) (d : Sreg) (v : Word) (fl : Byte) : (s.scalarOp L d v fl).memWf := h.finish (h.writeS _ _ _ _)

theorem State.memWf.predOp (h : s.memWf) (d : Preg) (v : Bool) (fl : Byte) : (s.predOp d v fl).memWf := h.finish (h.writeP _ _ _)

/-! ### Floating-point instructions -/

theorem State.memWf.fpOp (h : s.memWf) (L : Nat) (d : Sreg) (r : FR) : (s.fpOp L d r).memWf := h.scalarOp _ _ _ _

theorem State.memWf.fcmp (h : s.memWf) (cc : Fcc) (d : Preg) (a b : Sreg) : (s.fcmp cc d a b).memWf := h.predOp _ _ _

theorem State.memWf.fcvt (h : s.memWf) (rm : Rm) (lo hi : Int) (d a : Sreg) : (s.fcvt rm lo hi d a).memWf := h.scalarOp _ _ _ _

/-! ### Control transfers -/

theorem State.memWf.execYield (h : s.memWf) : Result.memWf (execYield s) := h.finish (h.modHereTile)

theorem State.memWf.link (h : s.memWf) : s.link.memWf := h.writeS _ _ _ _

theorem State.memWf.loopSetup (h : s.memWf) (l : Fin 4) (n : Word) (e : Addr) : (s.loopSetup l n e).memWf := by
  unfold State.loopSetup
  dsimp only
  split
  · exact h.finishAt h _
  · exact h.finish (h.modHere _)

theorem State.memWf.execLexit (h : s.memWf) (l : Fin 4) : Result.memWf (execLexit l s) := by
  unfold Machine.execLexit
  dsimp only
  split
  · exact h.finish h
  · exact h.finishAt (h.modHere _) _

theorem State.memWf.execEnter (h : s.memWf) (n8 : BitVec 18) : Result.memWf (execEnter n8 s) := by
  unfold Machine.execEnter
  dsimp only
  split
  · exact h.raise _ _
  · exact h.scalarOp _ _ _ _

/-! ### Loads, stores and atomics -/

theorem State.memWf.meetTag (h : s.memWf) (w : TagAt) (lo n : Nat) (sc : Option Scope) : (s.meetTag w lo n sc).memWf := by
  unfold State.meetTag
  dsimp only
  split
  · exact h
  · exact h.modHere _

theorem State.memWf.tagWord (h : s.memWf) (w : TagAt) (lo n : Nat) (rs : List (Scope × List Nat)) : (s.tagWord w lo n rs).memWf := h.frame

theorem State.memWf.noteM (h : s.memWf) (ea : Word) (n : Nat) (wr : Bool) : (s.noteM ea n wr).memWf := by
  unfold State.noteM
  split
  · split
    · exact h.modHere _
    · exact h
  · exact h

theorem State.memWf.noteOob (h : s.memWf) (b : Buf) (ea : Word) (n : Nat) (wr : Bool) : (s.noteOob b ea n wr).memWf := by
  unfold State.noteOob
  split
  · exact h.modHere _
  · exact h

theorem State.memWf.madeWrite (h : s.memWf) : s.madeWrite.memWf := h.newId.modHere _

theorem State.memWf.sampleRead (h : s.memWf) (n : Nat) : (s.sampleRead n).memWf := by
  unfold State.sampleRead
  split
  · exact h.modPart _ fun _ hP => hP.sample _ _
  · exact h

theorem State.memWf.noteRead (h : s.memWf) (k : Delay) (l : Loc) : (s.noteRead k l).memWf := by
  unfold State.noteRead
  split
  · exact h
  · exact h.sampleRead _

theorem State.memWf.load (h : s.memWf) (n : Nat) (signed : Bool) (d : Sreg) (m : MemRef) : (s.load n signed d m).memWf := by
  unfold State.load
  dsimp only
  split
  · exact h.raise _ _
  · split
    · split
      · exact h.orHold ((((h.noteOob _ _ _ _).modHere _).meetTag _ _ _ _).blockSpilled _ _)
      · exact h.finish ((((h.noteOob _ _ _ _).modHere _).meetTag _ _ _ _).writeS _ _ _ _)
    · split
      · exact h.orHold (((h.noteM _ _ _).modHere _).blockFor _ _)
      · split
        · split
          · exact h.trapOn _ _ _ _ _ _
          · split
            · exact h.orHold (((h.tileEvent _ _ _ _ _ _).noteRead _ _).blockRead _ _ _ _)
            · exact h
        · exact h.orHold (((((h.modHere _).meetTag _ _ _ _).ite (h.modHere _)).noteRead _ _).blockRead _ _ _ _)

theorem State.memWf.takeContrib (h : s.memWf) (p t : Nat) (r : Region) (c : Contrib) : (s.takeContrib p t r c).memWf := by
  unfold State.takeContrib
  dsimp only
  split
  · exact (h.modTile _ _ fun _ hT => hT.frame.takeGranules _).outsideVwrite _ _ _ _
  · exact h.modTile _ _ fun _ hT => hT.frame.takeGranules _

theorem State.memWf.contribute (h : s.memWf) (p t : Nat) (r : Region) (off : Nat) (w : WRec) : (s.contribute p t r off w).memWf :=
  h.foldl _ fun _ _ hs => hs.takeContrib _ _ _ _

theorem State.memWf.gStore (h : s.memWf) (ea : Word) (data : List Byte) (m : MemRef) : (s.gStore ea data m).memWf := by
  unfold State.gStore
  dsimp only
  split
  · exact ((h.modHere _).modPart _).madeWrite
  · exact ((h.modHere _).physWrite _ _).tagWord _ _ _ _
  · split
    · exact ((h.modHere _).contribute _ _ _ _ _).madeWrite
    · exact h.modHere _
  · split
    · exact ((h.modHere _).contribute _ _ _ _ _).madeWrite
    · exact h.modHere _

theorem State.memWf.landRows (h : s.memWf) : s.landRows.memWf := h.foldl _ fun _ _ hs => (hs.modHere _).applyPend _ _ _

theorem State.memWf.store (h : s.memWf) (n : Nat) (d : Sreg) (m : MemRef) : (s.store n d m).memWf := by
  unfold State.store
  dsimp only
  split
  · exact h.raise _ _
  · split
    · exact h.finish (((((h.landRows.ite h).noteOob _ _ _ _).modHere _).taskLatent _ _ _ _ _ _).tagWord _ _ _ _)
    · split
      · split
        · exact h.finish ((((h.noteM _ _ _).modHere _).mWrite _ _ _ _).tagWord _ _ _ _)
        · exact h
      · split
        · exact h.block _
        · exact h.finish (h.gStore _ _ _)

theorem State.memWf.atomic (h : s.memWf) (f : Amo) (d : Sreg) (m : MemRef) (x z : Word) : (s.atomic f d m x z).memWf := by
  unfold State.atomic
  dsimp only
  split
  · exact h.raise _ _
  · split
    · split
      · exact h.orHold (by
          split
          · exact (((((h.noteM _ _ _).modHere _).meetTag _ _ _ _).mWrite _ _ _ _).tagWord _ _ _ _).blockFor _ _
          · exact (((h.noteM _ _ _).modHere _).meetTag _ _ _ _).blockFor _ _)
      · exact h
    · split
      · exact h.trapOn _ _ _ _ _ _
      · exact h.orHold (by
          split
          · exact (((((h.modHere _).meetTag _ _ _ _).physWrite _ _).tagWord _ _ _ _).noteRead _ _).blockRead _ _ _ _
          · exact (((h.modHere _).meetTag _ _ _ _).noteRead _ _).blockRead _ _ _ _)

theorem State.memWf.fenceEdges (h : s.memWf) (o : Order) (sc : Scope) : (s.fenceEdges o sc).memWf := h.modHere _

theorem State.memWf.execFence (h : s.memWf) (o : Order) (sc : Scope) : Result.memWf (execFence o sc s) := by
  unfold Machine.execFence
  dsimp only
  split
  · exact h.finish (h.fenceEdges _ _)
  · exact h.orHold (((h.fenceEdges _ _).block _).schedule _ _ _)

/-! ### Rings, fixes, votes and waits -/

theorem State.memWf.engineAt {t : State} (h : s.memWf) (ht : t.memWf) (kind : OpKind) (tok : TokF) : (s.engineAt t kind tok).memWf := by
  unfold State.engineAt
  dsimp only
  split
  · exact h.block _
  · split
    · split
      · exact h.finish (ht.fork _ _)
      · exact h.orHold ((ht.fork _ _).block _)
    · exact h.finish (ht.fork _ _)

theorem State.memWf.engine (h : s.memWf) (kind : OpKind) (tok : TokF) : (s.engine kind tok).memWf := h.engineAt h _ _

theorem State.memWf.engineDue (h : s.memWf) (kind : OpKind) (tok : TokF) (k : Delay) (ev : Instr) : (s.engineDue kind tok k ev).memWf := by
  unfold State.engineDue
  dsimp only
  split
  · exact h.engine _ _
  · exact (h.engine _ _).scheduleFree _ _ _

theorem State.memWf.withTable (h : s.memWf) (base : Addr) (n : Nat) {k : List Byte → State} (hk : ∀ bs, (k bs).memWf) :
    (s.withTable base n k).memWf := by
  unfold State.withTable
  dsimp only
  split
  · split
    · exact (h.foldl _ fun _ _ hs => hs.prefetched _ _).raise _ _
    · exact (h.foldl _ fun _ _ hs => hs.prefetched _ _).waitLine _ _ _
  · exact hk _

theorem State.memWf.ringAcquire (h : s.memWf) (hd : Hnd) : (s.ringAcquire hd).memWf := h.modHere _

theorem State.memWf.noteRingWait (h : s.memWf) (n : Nat) : (s.noteRingWait n).memWf := h.modPart _ fun _ hP => hP.sample _ _

theorem State.memWf.ringWait (h : s.memWf) (full : Bool) (hd : Hnd) (n : Word) : (s.ringWait full hd n).memWf := by
  unfold State.ringWait
  dsimp only
  split
  · exact h.raise _ _
  · split
    · exact h.finish ((h.ite (h.ringAcquire _)).noteRingWait _)
    · exact h.block _

theorem Tile.wf.advance (h : T.wf) (hd : Hnd) (prod : Bool) (n : Nat) (hb : List Nat) : (T.advance hd prod n hb).wf := h.frame

theorem State.memWf.ringAdvance (h : s.memWf) (prod : Bool) (hd : Hnd) (n : Word) : (s.ringAdvance prod hd n).memWf := by
  unfold State.ringAdvance
  dsimp only
  split
  · split
    · exact h.raise _ _
    · exact h.finish (by
        split
        · exact h
        · exact h.modHereTile fun _ hT => hT.advance _ _ _ _)
  · split
    · exact h.raise _ _
    · exact h.finish (by
        split
        · exact h
        · exact h.modHereTile fun _ hT => hT.advance _ _ _ _)

theorem State.memWf.execTsync (h : s.memWf) : Result.memWf (execTsync s) := h.tileOnly (h.orHold (((h.modHere _).modHereTile).block _))

theorem State.memWf.fixOp (h : s.memWf) (bitmap : BitVec 32) (m : Nat) (off : BitVec 22) (ends : Bool) : (s.fixOp bitmap m off ends).memWf := by
  unfold State.fixOp
  dsimp only
  split
  · exact h.modHere _
  · exact h.withTable _ _ fun _ => by
      split
      · exact h.raise _ _
      · exact h.modHere _

theorem State.memWf.reportVote (h : s.memWf) (v : BitVec 2) : (s.reportVote v).memWf := by
  unfold State.reportVote
  split
  · exact h.modHereTile fun _ hT => hT.setFaultVote _ _
  · exact h

theorem Tile.wf.dropFlp (h : T.wf) (cyc : Nat) : (T.dropFlp cyc).wf := h.frame

theorem State.memWf.execStage (h : s.memWf) (a : Sreg) (imm : Word) : Result.memWf (execStage a imm s) :=
  h.tileOnly (h.finish ((h.modHereTile fun _ hT => hT.dropFlp _).writeFlp _ _ _ _))

theorem State.memWf.execWbk (h : s.memWf) (base : Sreg) (src : Buf) (off : BitVec 19) (len : BitVec 13) (disp : BitVec 20) (tok : TokF) :
    Result.memWf (execWbk base src off len disp tok s) :=
  h.tileOnly (by
  split
  · exact h.raise _ _
  · split
    · exact h.raise _ _
    · split
      · exact h.raise _ _
      · exact h.engineDue _ _ _ _)

theorem State.memWf.joinOps (h : s.memWf) (f : EngOp → Bool) : (s.joinOps f).memWf := h.modHere _

theorem State.memWf.execKwait (h : s.memWf) (k : Fin 16) : Result.memWf (execKwait k s) := by
  unfold Machine.execKwait
  split
  · exact h.finish (h.joinOps _)
  · exact h.block _

theorem State.memWf.execMwait (h : s.memWf) : Result.memWf (execMwait s) := h.tileOnly (by
  split
  · exact h.block _
  · exact h.finish (h.joinOps _))

theorem State.memWf.execTwait (h : s.memWf) (d : Preg) (a : Sreg) : Result.memWf (execTwait d a s) := by
  unfold Machine.execTwait
  dsimp only
  split
  · exact h.predOp _ _ _
  · split
    · exact h.predOp _ _ _
    · exact h.block _

theorem Partition.wf.tlbi (h : P.wf) (vpn n : Nat) : (P.tlbi vpn n).wf := h.frame

theorem State.memWf.completeWait (h : s.memWf) : s.completeWait.memWf := by
  unfold State.completeWait
  dsimp only
  split
  · exact h.finish (by
      split
      · exact h.modHere _
      · exact h)
  · exact h.finish (by
      split
      · exact (h.modHere _).sampleRead _
      · exact h.sampleRead _)
  · split
    · split
      · exact h.modHere _
      · exact h.finish ((h.meetTag _ _ _ _).modHere _)
    · exact h
  · split
    · exact h.raise _ _
    · split
      · exact h.finish ((h.ite (h.ringAcquire _)).noteRingWait _)
      · exact h
  · exact h.finish (h.joinOps _)
  · exact h.modHere _
  · exact h.modHere _
  · exact h.finish (h.joinOps _)
  · exact h.finish (h.modHere _)
  · exact h.predOp _ _ _
  · exact h.finish h
  · exact h.finish h
  · exact h.finish h
  · exact h.finish (h.modPart _ fun _ hP => hP.tlbi _ _)
  · exact h
  · exact h
  · exact h
  · exact h
  · exact h
  · exact h

theorem State.memWf.execBlockingWaitDone (h : s.memWf) : Result.memWf (execBlockingWaitDone s) := by
  unfold Machine.execBlockingWaitDone
  dsimp only
  split
  · exact h.scheduleFree _ _ _
  · split
    · exact h.frame.completeWait
    · exact h

/-! ### Row instructions -/

theorem State.memWf.rowOp (h : s.memWf) (L : Nat) (rd : List Row) (d : Row) (rs : List FR) : (s.rowOp L rd d rs).memWf :=
  h.endRow (h.writeRow _ _ _ _) _ _

theorem State.memWf.vec {k : State} (h : s.memWf) (hk : k.memWf) (ok : Bool) : (s.vec ok k).memWf := h.tileOnly (by
  split
  · exact hk
  · exact h.raise _ _)

theorem State.memWf.rowBin (h : s.memWf) (g : RowFn) (d a : Row) (b : VB) (sat : Bool) : (s.rowBin g d a b sat).memWf := h.vec (h.rowOp _ _ _ _) _

theorem State.memWf.rowRaw (h : s.memWf) (ok : Bool) (g : Nat → Nat → Nat → Nat) (d a : Row) (b : VB) : (s.rowRaw ok g d a b).memWf :=
  h.vec (h.rowOp _ _ _ _) _

theorem State.memWf.rowCmp (h : s.memWf) (c : Vcc) (d a : Row) (b : VB) (u : Bool) : (s.rowCmp c d a b u).memWf := h.vec (h.rowOp _ _ _ _) _

theorem State.memWf.rowMove (h : s.memWf) (L : Nat) (rd : List Row) (d : Row) (xs : List Nat) : (s.rowMove L rd d xs).memWf :=
  h.vec (h.rowOp _ _ _ _) _

theorem State.memWf.rowSfn (h : s.memWf) (g : Nat → FR) (conv : Bool) (d a : Row) : (s.rowSfn g conv d a).memWf := h.vec (h.rowOp _ _ _ _) _

/-! ### Microprograms -/

theorem State.memWf.execMpdef (h : s.memWf) (slot : Fin 4) (off : BitVec 22) (n1 : BitVec 4) : Result.memWf (execMpdef slot off n1 s) :=
  h.tileOnly (h.withTable _ _ fun _ => by
    dsimp only
    split
    · exact h.raise _ _
    · exact h.finish (h.modHereTile))

/-! ### The matrix array and the quantiser -/

theorem State.memWf.queued (h : s.memWf) (c : Option (Nat × Nat)) (kind : OpKind) (tok : TokF) : (s.queued c kind tok).memWf := by
  unfold State.queued
  split
  · exact h.raise _ _
  · exact h.engine _ _

theorem State.memWf.arrayStep (h : s.memWf) (p pod : Nat) : (s.arrayStep p pod).memWf := by
  unfold State.arrayStep
  dsimp only
  split
  · exact h
  · split
    · split
      · exact h
      · exact (h.modTile _ _).modOp _ _
    · exact (((h.ite ((h.modTile _ _).modOp _ _)).modOp _ _).modPart _).schedule _ _ _

theorem State.memWf.arraySteps (h : s.memWf) (p pod : Nat) : (s.arraySteps p pod).memWf := h.foldl _ fun _ _ hs => hs.arrayStep _ _

theorem State.memWf.chooseMatrix (h : s.memWf) (p pod : Nat) : (chooseMatrix s p pod).memWf := by
  unfold Machine.chooseMatrix
  dsimp only
  split
  · exact h
  · exact ((h.modOp _ _).modPart _).frame.arraySteps _ _

theorem State.memWf.completeMatrix (h : s.memWf) (id : Nat) : (completeMatrix s id).memWf := by
  unfold Machine.completeMatrix
  dsimp only
  split
  · exact h
  · split
    · exact h
    · split
      · exact h
      · exact ((h.opWrite _ _ _ _ _ _ _ _).modThread _ _ _).opDone _ _

theorem State.memWf.startQuant (h : s.memWf) (p pod : Nat) : (startQuant s p pod).memWf := by
  unfold Machine.startQuant
  dsimp only
  split
  · exact h
  · split
    · exact h
    · exact (h.modOp _ _).schedule _ _ _

theorem State.memWf.completeQuant (h : s.memWf) (id : Nat) : (completeQuant s id).memWf := by
  unfold Machine.completeQuant
  dsimp only
  split
  · exact h
  · split
    · split
      · exact h
      · split
        · exact (((h.foldl _ fun _ _ hs => hs.opWrite _ _ _ _ _ _ _ _).modThread _ _ _).opDone _ _).startQuant _ _
        · exact ((h.foldl _ fun _ _ hs => hs.opWrite _ _ _ _ _ _ _ _).opDone _ _).startQuant _ _
    · exact h

theorem State.memWf.execQuant (h : s.memWf) (col srcC : Bool) (off pitch : BitVec 12) (emax : BitVec 8) (cnt : Sreg) (woff : BitVec 19) (tok : TokF) :
    Result.memWf (execQuant col srcC off pitch emax cnt woff tok s) :=
  h.tileOnly (by
  split
  · exact h.raise _ _
  · exact (h.engine _ _).startQuant _ _)

/-! ### Functions and queues -/

theorem State.memWf.modFn (h : s.memWf) (n : Nat) (f : Fn → Fn) : (s.modFn n f).memWf := h.frame

theorem State.memWf.modQueue (h : s.memWf) (n q : Nat) (f : Queue → Queue) : (s.modQueue n q f).memWf := h.modFn _ _

theorem State.memWf.modVec (h : s.memWf) (n v : Nat) (f : Vec → Vec) : (s.modVec n v f).memWf := h.modFn _ _

theorem State.memWf.fnWrite (h : s.memWf) (n : Nat) (base : Word) (off : Nat) (bs : List Byte) : (s.fnWrite n base off bs).memWf := by
  unfold State.fnWrite
  dsimp only
  split
  · split
    · exact h.vwrite _ _ _
    · exact h
  · exact h.physWrite _ _

theorem State.memWf.noteWaits (h : s.memWf) : s.noteWaits.memWf := h.foldl _ fun _ _ hs => by
  split
  · exact hs
  · split
    · exact hs.modQueue _ _ _
    · exact hs

/-! ### Copies, write-behind and signals -/

theorem State.memWf.gPut (h : s.memWf) (a : Agent) (va : Nat) (w : WRec) : (s.gPut a va w).memWf := by
  unfold State.gPut
  dsimp only
  split
  · exact h.physWrite _ _
  · exact h.foldl _ fun _ _ hs => by
      split
      · exact hs
      · split
        · exact hs.modPart _
        · exact hs.physWrite _ _
        · split
          · exact hs.contribute _ _ _ _ _
          · exact hs
        · split
          · exact hs.contribute _ _ _ _ _
          · exact hs

theorem State.memWf.mPut (h : s.memWf) (d a : Nat) (bs : List Byte) : (mPut s d a bs).memWf := by
  unfold Machine.mPut
  split
  · exact h.mWrite _ _ _ _
  · exact h.foldl _ fun _ _ hs => hs.mWrite _ _ _ _

theorem State.memWf.engineEcc (h : s.memWf) (a : Agent) (l : Loc) (live : Bool) : (s.engineEcc a l live).memWf := by
  unfold State.engineEcc
  split
  · split
    · exact h
    · exact h.tileEvent _ _ _ _ _ _
  · exact h

theorem State.memWf.runWrite (h : s.memWf) (o : EngOp) (q : Nat) (dst : EndR) (conv : Bool) (ed : Nat) (i : Int) (xs : List Nat) (xf : Byte) :
    (s.runWrite o q dst conv ed i xs xf).1.memWf := by
  unfold State.runWrite
  split
  · split
    · exact h.foldl _ fun _ _ hs => hs.opWrite _ _ _ _ _ _ _ _
    · exact h.opWrite _ _ _ _ _ _ _ _
  · exact h.gPut _ _ _
  · exact h.mPut _ _ _
  · exact h

theorem State.memWf.moveRun (h : s.memWf) (o : EngOp) (q : Nat) (dst src : EndR) (es ed : Nat) (si di : Int) (n : Nat) :
    (s.moveRun o q dst src es ed si di n).st.memWf := by
  unfold State.moveRun
  dsimp only
  split
  · exact ((h.modThread _ _ _).runWrite _ _ _ _ _ _ _ _).engineEcc _ _ _
  · exact (h.modThread _ _ _).runWrite _ _ _ _ _ _ _ _

theorem State.memWf.keepWords {m : State} (h : s.memWf) (hm : m.memWf) (o : EngOp) (q : Nat) (dst : EndR) (ws : List Nat) :
    (s.keepWords m o q dst ws).memWf := by
  unfold State.keepWords
  split
  · exact h.foldl _ fun _ _ hs => hs.gPut _ _ _
  · exact h.foldl _ fun _ _ hs => hs.mPut _ _ _
  · exact hm

theorem State.memWf.moveRuns (h : s.memWf) (o : EngOp) (q : Nat) (dst src : EndR) (es ed : Nat) (rs : List (Int × Int × Nat)) :
    (s.moveRuns o q dst src es ed rs).st.memWf := by
  have hfold := foldl_keeps_prop (q := fun m : Moved × State × Nat => m.1.st.memWf ∧ m.2.1.memWf)
    (f := fun m r => if m.1.stopped then m else
      let x := m.1.st.moveRun o q dst src es ed r.1 r.2.1 r.2.2
      (⟨x.st, m.1.fl ||| x.fl, x.stopped⟩, m.1.st, m.2.2 + if x.stopped then 0 else 1)) (fun m r hm => by
        split
        · exact hm
        · exact ⟨hm.1.moveRun _ _ _ _ _ _ _ _ _, hm.1⟩) rs (s := (⟨s, 0, false⟩, s, 0)) ⟨h, h⟩
  unfold State.moveRuns
  dsimp only
  split
  · split
    · exact (h.keepWords hfold.2 _ _ _ _).moveRun _ _ _ _ _ _ _ _ _
    · exact hfold.1
  · exact hfold.1

theorem State.memWf.copyDue (h : s.memWf) (o : EngOp) : (s.copyDue o).memWf := by
  unfold State.copyDue
  dsimp only
  split <;> exact h.scheduleFree _ _ _

theorem State.memWf.kickCopy (h : s.memWf) (die cq : Nat) : (s.kickCopy die cq).memWf := by
  unfold State.kickCopy
  dsimp only
  split
  · exact h
  · split
    · exact h
    · exact (h.frame.modOp _ _).copyDue _

theorem State.memWf.noteCopyRead (h : s.memWf) (o : EngOp) : (s.noteCopyRead o).memWf := by
  unfold State.noteCopyRead
  split
  · split
    · exact h.modPart _ fun _ hP => hP.sample _ _
    · exact h
  · exact h

theorem State.memWf.copyEnd (h : s.memWf) (o : EngOp) (fl : Byte) : (s.copyEnd o fl).memWf := ((h.noteCopyRead _).opDone _ _).kickCopy _ _

theorem State.memWf.completeCopy (h : s.memWf) (id : Nat) : (completeCopy s id).memWf := by
  unfold Machine.completeCopy
  dsimp only
  split
  · exact h
  · split
    · split
      · exact h
      · split
        · exact h.copyEnd _ _
        · split
          · exact h.copyDue _
          · exact (h.moveRuns _ _ _ _ _ _ _).copyEnd _ _
    · exact h

theorem State.memWf.slotWait (h : s.memWf) (o : EngOp) : (s.slotWait o).memWf := h.copyDue _

theorem State.memWf.next {m : Moved} (h : m.st.memWf) (o : EngOp) (id : Nat) (last : Bool) : (m.next o id last).memWf := by
  unfold Moved.next
  dsimp only
  split
  · exact (h.modOp _ _).copyEnd _ _
  · split
    · exact (h.modOp _ _).schedule _ _ _
    · exact (h.modOp _ _).copyDue _

theorem State.memWf.takeClaim (h : s.memWf) (o : EngOp) (ptr : BitVec 32) : (s.takeClaim o ptr).memWf := by
  unfold State.takeClaim
  split
  · exact h.modOp _ _
  · exact h

theorem State.memWf.fillSlot (h : s.memWf) (o : EngOp) (p t cq : Nat) (hd : Hnd) (f : Byte) (src : EndR) (count : Nat) :
    (fillSlot s o p t cq hd f src count).memWf := by
  unfold Machine.fillSlot
  dsimp only
  split
  · exact h.slotWait _
  · split
    · split
      · exact ((h.newId.takeClaim _ _).moveRuns _ _ _ _ _ _ _).next _ _ _
      · exact (((h.newId.takeClaim _ _).moveRuns _ _ _ _ _ _ _).modTile _ _ fun _ hT => hT.advance _ _ _ _).next _ _ _
    · split
      · exact ((h.newId.takeClaim _ _).moveRuns _ _ _ _ _ _ _).next _ _ _
      · exact (((h.newId.takeClaim _ _).moveRuns _ _ _ _ _ _ _).modTile _ _ fun _ hT => hT.advance _ _ _ _).next _ _ _

theorem State.memWf.gatherBlocks (h : s.memWf) (o : EngOp) (id q : Nat) (dst : EndR) (es ed first : Nat) (xs : List Nat) (xf : Byte) :
    (s.gatherBlocks o id q dst es ed first xs xf).st.memWf := (h.runWrite _ _ _ _ _ _ _ _).modOp _ _

theorem Moved.memWf_ite {m n : Moved} (hm : m.st.memWf) (hn : n.st.memWf) {c : Prop} {_ : Decidable c} : (if c then m else n).st.memWf := by
  split
  · exact hm
  · exact hn

theorem State.memWf.drainSlot (h : s.memWf) (o : EngOp) (p t cq : Nat) (hd : Hnd) (f : Byte) (dst : EndR) (count : Nat) :
    (drainSlot s o p t cq hd f dst count).memWf := by
  have hclaim := h.newId.takeClaim o ((s.tile p t).ring hd).cons
  have hadvanced {m : Moved} (hm : m.st.memWf) : (if m.stopped then m else
      { m with st := m.st.modTile p t fun T => T.advance hd false 1 (s.opCtr :: o.made) }).st.memWf :=
    Moved.memWf_ite hm (hm.modTile _ _ fun _ hT => hT.advance _ _ _ _)
  unfold Machine.drainSlot
  refine State.memWf.ite (h.slotWait _) (State.memWf.next (hadvanced (Moved.memWf_ite ?_ ?_)) _ _ _)
  · exact hclaim.gatherBlocks _ _ _ _ _ _ _ _ _
  · exact hclaim.moveRuns _ _ _ _ _ _ _

theorem State.memWf.pushQueue (h : s.memWf) (o : EngOp) (p t : Nat) (q : Fin 4) (bs : List Byte) : (pushQueue s o p t q bs).memWf := by
  unfold Machine.pushQueue
  dsimp only
  split
  · exact h.modOp _ _
  · exact ((h.modOp _ _).modTile _ _).arraySteps _ _

/-- A slot that has moved, after which its ring may advance. -/
theorem State.memWf.nextAdvanced (h : s.memWf) (p t : Nat) (n : Hnd) (prod : Bool) (made : List Nat) (o : EngOp) (id : Nat) (last : Bool) {c : Prop} {_ : Decidable c} :
    (Moved.next ⟨if c then s.modTile p t fun T => T.advance n prod 1 made else s, 0, false⟩ o id last).memWf :=
  State.memWf.next ((h.modTile _ _ fun _ hT => hT.advance _ _ _ _).ite h) _ _ _

theorem State.memWf.queueSlot (h : s.memWf) (o : EngOp) (p t : Nat) (q : Fin 4) (src : EndR) (count : Nat) :
    (queueSlot s o p t q src count).memWf := by
  unfold Machine.queueSlot
  refine State.memWf.ite (h.slotWait _) ?_
  split
  · refine State.memWf.ite (h.slotWait _) ?_
    exact ((h.newId.takeClaim _ _).pushQueue _ _ _ _ _).nextAdvanced _ _ _ _ _ _ _ _
  · dsimp only
    split
    · exact ((h.newId.modThread _ _ _).engineEcc _ _ _).next _ _ _
    · exact (((h.newId.modThread _ _ _).engineEcc _ _ _).pushQueue _ _ _ _ _).next _ _ _
    · exact ((h.newId.modThread _ _ _).pushQueue _ _ _ _ _).next _ _ _

theorem State.memWf.engineSlot (h : s.memWf) (id : Nat) : (engineSlot s id).memWf := by
  unfold Machine.engineSlot
  split
  · exact h
  · split
    · split
      · exact h
      · split
        · exact h.slotWait _
        · split
          · exact h.queueSlot _ _ _ _ _ _
          · exact h.fillSlot _ _ _ _ _ _ _ _
          · exact h.drainSlot _ _ _ _ _ _ _ _
          · exact h
    · exact h

theorem State.memWf.queueCopy (h : s.memWf) (cq : Fin 8) (dims : Option (List Dim)) (es : Nat) (dst src : EndR) (count : Nat) (tok : TokF) :
    (s.queueCopy cq dims es dst src count tok).memWf := by
  unfold State.queueCopy
  split
  · exact h.finish h
  · exact (h.engine _ _).kickCopy _ _

theorem State.memWf.copyLinear (h : s.memWf) (cq : Fin 8) (dst src : CEnd) (count : Word) (tok : TokF) :
    (s.copyLinear cq dst src count tok).memWf := by
  unfold State.copyLinear
  split
  · exact h.raise _ _
  · exact h.queueCopy _ _ _ _ _ _ _

theorem State.memWf.copyDesc (h : s.memWf) (cq : Fin 8) (dst src : CEnd) (off : Word) (tok : TokF) : (s.copyDesc cq dst src off tok).memWf := by
  unfold State.copyDesc
  split
  · exact h.raise _ _
  · exact h.queueCopy _ _ _ _ _ _ _

theorem State.memWf.completeWbk (h : s.memWf) (id : Nat) : (completeWbk s id).memWf := by
  unfold Machine.completeWbk
  dsimp only
  split
  · exact h
  · split
    · split
      · exact h
      · split
        · exact h.scheduleFree _ _ _
        · exact ((h.modThread _ _ _).gPut _ _ _).opDone _ _
    · exact h

theorem State.memWf.signalAt (h : s.memWf) (l : Loc) (f : SigOp) (v : Word) : (s.signalAt l f v).memWf := (h.physWrite _ _).noteWaits

theorem State.memWf.noteSignalRead (h : s.memWf) (o : EngOp) (l : Loc) (f : SigOp) : (s.noteSignalRead o l f).memWf := by
  unfold State.noteSignalRead
  split
  · split
    · exact h
    · exact h.modPart _ fun _ hP => hP.sample _ _
  · exact h

theorem State.memWf.completeSignal (h : s.memWf) (id : Nat) : (completeSignal s id).memWf := by
  unfold Machine.completeSignal
  dsimp only
  split
  · exact h
  · split
    · split
      · exact h
      · split
        · dsimp only
          split
          · exact h.scheduleFree _ _ _
          · split
            · exact (h.engineEcc _ _ _).opDone _ _
            · exact ((h.noteSignalRead _ _ _).signalAt _ _ _).frame.opDone _ _
        · split
          · exact h.scheduleFree _ _ _
          · split
            · exact (h.engineEcc _ _ _).opDone _ _
            · exact ((h.noteSignalRead _ _ _).signalAt _ _ _).frame.opDone _ _
    · exact h

theorem State.memWf.execSignalInstruction (h : s.memWf) (base v : Sreg) (op : SigOp) (disp : BitVec 20) (tok : TokF) :
    Result.memWf (execSignalInstruction base v op disp tok s) := by
  unfold Machine.execSignalInstruction
  dsimp only
  split
  · exact h.raise _ _
  · exact h.engineDue _ _ _ _

/-! ### System instructions -/

theorem State.memWf.execCsrr (h : s.memWf) (d : Sreg) (n : BitVec 12) : Result.memWf (execCsrr d n s) := by
  unfold Machine.execCsrr
  split
  · exact h.raise _ _
  · exact h.finish (h.writeS _ _ _ _)

theorem State.memWf.csrwOp (h : s.memWf) (n : BitVec 12) (v : Word) : (s.csrwOp n v).memWf := by
  unfold State.csrwOp
  split
  · exact h.raise _ _
  · split
    · exact h.raise _ _
    · split
      · exact h.finish (h.csrWrite _ _ _ _)
      · exact h.finish (h.modHere _)

theorem State.memWf.returnTo (h : s.memWf) {f : State → State} (hf : ∀ t, t.memWf → (f t).memWf) : (s.returnTo f).memWf := by
  unfold State.returnTo
  dsimp only
  split
  · exact h.finishAt h _
  · split
    · exact h.holdTarget _ _
    · exact hf _ (h.finishAt h _)

theorem State.memWf.execRft (h : s.memWf) : Result.memWf (execRft s) := by
  unfold Machine.execRft
  dsimp only
  split
  · exact h.raise _ _
  · exact h.returnTo fun _ hs => (hs.modHereTile fun _ hT => hT.setFaultVote _ _).modHere _
  · exact h.returnTo fun _ hs => hs.modHere _

theorem State.memWf.execHalt (h : s.memWf) : Result.memWf (execHalt s) := by
  unfold Machine.execHalt
  split
  · exact h.orHold (h.block _)
  · exact (h.reportVote _).modHere _

theorem State.memWf.tlbiOp (h : s.memWf) (p : Word) (vpn n : Nat) : (s.tlbiOp p vpn n).memWf := by
  unfold State.tlbiOp
  split
  · exact h.raise _ _
  · split
    · exact h.raise _ _
    · split
      · exact h.finish h
      · exact h.blockFor _ _

/-! ### The exchange -/

theorem State.memWf.regenerateNow (h : s.memWf) (except : Option Nat) (p : Nat) : (s.regenerateNow except p).memWf := by
  unfold State.regenerateNow
  dsimp only
  split
  · exact (h.foldl _ fun _ _ hs => hs.outsideVwrite _ _ _ _).modPart _
  · exact (h.foldl _ fun _ _ hs => hs.outsideVwrite _ _ _ _).modPart _ fun _ hP => by exact hP.mapTiles

theorem State.memWf.regenerateAll (h : s.memWf) : s.regenerateAll.memWf := h.foldl _ fun _ _ hs => by
  split
  · exact hs
  · split
    · exact hs.regenerateNow _ _
    · exact hs.modPart _

theorem State.memWf.regenerateDue (h : s.memWf) (p : Nat) : (s.regenerateDue p).memWf := by
  unfold State.regenerateDue
  split
  · exact (h.regenerateNow _ _).modPart _
  · exact h

theorem State.memWf.modPort (h : s.memWf) (k : Nat) (f : Port → Port) : (s.modPort k f).memWf := by
  unfold State.modPort
  split
  · exact h.frame
  · exact h

theorem State.memWf.sendFlit (h : s.memWf) (k cls part : Nat) (payload : List Byte) : (s.sendFlit k cls part payload).memWf := h.modPort _ _

theorem State.memWf.exchRelease (h : s.memWf) (p S : Nat) (skew root : Bool) : (s.exchRelease p S skew root).memWf :=
  ((h.modPart _).foldl _ fun _ _ hs => by
    split
    · exact hs.schedule _ _ _
    · exact hs.scheduleFree _ _ _).foldl _ fun _ _ hs => hs.sendFlit _ _ _ _

theorem State.memWf.startExchange (h : s.memWf) (p : Nat) : (s.startExchange p).memWf := by
  unfold State.startExchange
  dsimp only
  split
  · exact h
  · split
    · exact (h.modPart _).sendFlit _ _ _ _
    · exact h.exchRelease _ _ _ _

theorem State.memWf.takeExchange (h : s.memWf) (k p : Nat) (m : BarMsg) : (s.takeExchange k p m).memWf := by
  unfold State.takeExchange
  dsimp only
  split
  · split
    · exact h
    · exact h.exchRelease _ _ _ _
  · split
    · exact (h.modPart _).startExchange _
    · exact h

theorem State.memWf.raiseBarrier (h : s.memWf) (p t : Nat) : (raiseBarrier s p t).memWf := by
  unfold Machine.raiseBarrier
  dsimp only
  split
  · exact ((h.modTile _ _).modPart _).startExchange _
  · exact h.startExchange _

theorem State.memWf.slotDue (h : s.memWf) (p t : Nat) (o : EngOp) : (s.slotDue p t o).memWf := by
  unfold State.slotDue
  dsimp only
  split
  · split
    · exact h.scheduleFree _ _ _
    · exact h.schedule _ _ _
  · split
    · exact h
    · exact h.schedule _ _ _
  · exact h.scheduleFree _ _ _
  · exact h

theorem State.memWf.lateAt (h : s.memWf) (p t i : Nat) (u : IssueUnit) : (s.lateAt p t i u).memWf := h.trapTile _ _ _ _ _ _ _

theorem State.memWf.releaseTile (h : s.memWf) (p t : Nat) : (releaseTile s p t).memWf := by
  unfold Machine.releaseTile
  dsimp only
  split
  · exact h
  · split
    · exact h
    · split
      · split
        · exact h.tileEvent _ _ _ _ _ _
        · exact h
      · split
        · split
          · exact ((((h.tileEvent _ _ _ _ _ _).ite h).modTile _ _).lateAt _ _ _ _).foldl _ fun _ _ hs => hs.slotDue _ _ _
          · exact (((h.tileEvent _ _ _ _ _ _).ite h).modTile _ _).foldl _ fun _ _ hs => hs.slotDue _ _ _
        · exact (((h.tileEvent _ _ _ _ _ _).ite h).modTile _ _).foldl _ fun _ _ hs => hs.slotDue _ _ _

theorem State.memWf.execXsync (h : s.memWf) : Result.memWf (execXsync s) := h.tileOnly (by
  split
  · exact h.finish h
  · exact h.orHold ((h.modHere _).block _))

theorem State.memWf.queueTransfer (h : s.memWf) (k : Nat) (port : Option Nat) (walk : Option Refuse) (kind : OpKind) (tok : TokF) :
    (s.queueTransfer k port walk kind tok).memWf := by
  unfold State.queueTransfer
  dsimp only
  split
  · exact h.raise _ _
  · split
    · exact h.raise _ _
    · split
      · exact h.raise _ _
      · split
        · exact (h.engine _ _).slotDue _ _ _
        · exact h.engine _ _

theorem State.memWf.execXmit (h : s.memWf) (slot : BitVec 12) (off : BitVec 16) (idx : Fin 8) (srcC : Bool) (soff : BitVec 12) (tok : TokF) :
    Result.memWf (execXmit slot off idx srcC soff tok s) :=
  h.tileOnly (h.withTable _ _ fun _ => h.queueTransfer _ _ _ _ _)

theorem State.memWf.slipTile (h : s.memWf) (p t k port : Nat) : (s.slipTile p t k port).memWf := by
  unfold State.slipTile
  dsimp only
  split
  · exact h
  · split
    · exact h.trapTile _ _ _ _ _ _ _
    · exact h

theorem Partition.wf.modFlight (h : P.wf) (f : Datum → Datum) : (P.modFlight f).wf := h.frame

theorem State.memWf.sendFar (h : s.memWf) (p k : Nat) (d : Datum) : (s.sendFar p k d).memWf := by
  unfold State.sendFar
  split <;> exact h.foldl _ fun _ _ hs => hs.sendFlit _ _ _ _

theorem Partition.wf.fly (h : P.wf) (d : Datum) : (P.fly d).wf := h.frame

theorem State.memWf.sendDatum (h : s.memWf) (id : Nat) : (sendDatum s id).memWf := by
  unfold Machine.sendDatum
  dsimp only
  split
  · exact h
  · split
    · split
      · exact h
      · split
        · exact h.slotDue _ _ _
        · split
          · exact (((h.modPart _ fun _ hP => hP.fly _).modThread _ _ _).opDone _ _).scheduleFree _ _ _
          · exact (((h.modPart _ fun _ hP => hP.fly _).modThread _ _ _).opDone _ _).schedule _ _ _
    · exact h

theorem State.memWf.untake (h : s.memWf) (o : EngOp) (p t : Nat) : (s.untake o p t).memWf := (h.modTile _ _).modOp _ _

theorem State.memWf.leaveDatum (h : s.memWf) (p : Nat) (d : Datum) : (leaveDatum s p d).memWf :=
  ((h.ite (h.sendFar _ _ _)).modPart _ fun _ hP => hP.modFlight _).schedule _ _ _

theorem State.memWf.landDatum (h : s.memWf) (p id : Nat) : (landDatum s p id).memWf := by
  have h1 : (s.modPart p fun P => { P with flight := P.flight.filter fun x => x.op ≠ id }).memWf := h.modPart _
  unfold Machine.landDatum
  extract_lets P
  split
  · refine State.memWf.ite h1 <| State.memWf.ite ((h1.sendFar _ _ _).ite (h.leaveDatum _ _)) <| State.memWf.ite (h.scheduleFree _ _ _) <|
      State.memWf.ite ?_ <| State.memWf.ite (h1.ite (h1.slipTile _ _ _ _)) <| State.memWf.ite (h1.modPart _ fun _ hP => hP.modFlight _) <|
      State.memWf.ite (h1.modTile _ _) (h1.slipTile _ _ _ _)
    split
    · exact (h1.untake _ _ _).modTile _ _
    · exact h1.modTile _ _
  · split
    · refine State.memWf.ite (State.memWf.ite ?_ ?_) h
      · exact h.modTile _ _
      · exact (h.modTile _ _).slipTile _ _ _ _
    · exact h

theorem State.memWf.takeDatum (h : s.memWf) (o : EngOp) (p t dst : Nat) (d : Datum) : (s.takeDatum o p t dst d).memWf :=
  (((h.foldl _ fun _ _ hs => hs.opWrite _ _ _ _ _ _ _ _).modOp _ _).modThread _ _ _).opDone _ _

theorem State.memWf.takeSlot (h : s.memWf) (id : Nat) : (takeSlot s id).memWf := by
  unfold Machine.takeSlot
  dsimp only
  split
  · exact h
  · split
    · split
      · exact h
      · split
        · exact h.slotDue _ _ _
        · split
          · split
            · exact ((h.modTile _ _).opDone _ _).slipTile _ _ _ _
            · exact (h.modTile _ _).takeDatum _ _ _ _ _
          · split
            · exact h
            · split
              · exact h.opDone _ _
              · exact (h.opDone _ _).trapTile _ _ _ _ _ _ _
    · exact h

/-! ### Reductions and the enlarger -/

theorem State.memWf.notFirmware {k : State} (h : s.memWf) (hk : k.memWf) : (s.notFirmware k).memWf := by
  unfold State.notFirmware
  split
  · exact h.raise _ _
  · exact hk

theorem Partition.wf.hold (h : P.wf) (va : Nat) (bs : List Byte) : (P.hold va bs).wf := h.frame

theorem Partition.wf.reduceRegion (h : P.wf) (r : Region) : (reduceRegion P r).wf := by
  unfold Machine.reduceRegion
  dsimp only
  split
  · exact h.foldl _ fun _ _ hP => hP.hold _ _
  · exact h.hold _ _

theorem State.memWf.reduceNext (h : s.memWf) (p : Nat) : (s.reduceNext p).memWf := by
  unfold State.reduceNext
  split
  · exact h
  · split
    · exact h
    · exact (h.modPart _).scheduleFree _ _ _

theorem State.memWf.streamTile (h : s.memWf) (p t : Nat) : (streamTile s p t).memWf := by
  unfold Machine.streamTile
  split
  · exact (h.modTile _ _).reduceNext _
  · exact h.reduceNext _

theorem State.memWf.reductionErrors (h : s.memWf) (p : Nat) (r : Region) : (s.reductionErrors p r).memWf := by
  unfold State.reductionErrors
  split
  · exact h
  · exact h.foldl _ fun _ _ hs => by
      split
      · exact hs.tileEvent _ _ _ _ _ _
      · exact hs

theorem State.memWf.reductionDone (h : s.memWf) (p base : Nat) : (reductionDone s p base).memWf := by
  unfold Machine.reductionDone
  dsimp only
  split
  · exact h
  · split
    · exact ((((h.modPart _).reductionErrors _ _).modPart _ fun _ hP => hP.reduceRegion _).ite (h.modPart _)).reduceNext _
    · exact (h.modPart _).reduceNext _

theorem State.memWf.foldIn (h : s.memWf) (note : Thread → Thread) (r : Region) (elem : Nat) (xs : List Nat) (tok : TokF) :
    (s.foldIn note r elem xs tok).memWf := by
  unfold State.foldIn
  dsimp only
  split
  · exact h.engineAt (h.modHere _) _ _
  · exact ((h.engineAt (h.modHere _) _ _).foldl _ fun _ _ hs => hs.takeContrib _ _ _ _).opDone _ _

theorem State.memWf.execRsto (h : s.memWf) (base data : Sreg) (disp : BitVec 20) (wide : Bool) (tok : TokF) :
    Result.memWf (execRsto base data disp wide tok s) :=
  h.notFirmware (by
  split
  · exact h.raise _ _
  · split
    · exact h.raise _ _
    · split
      · split
        · exact h.raise _ _
        · exact h.foldIn _ _ _ _ _
      · split
        · exact h.raise _ _
        · exact h.foldIn _ _ _ _ _)

theorem State.memWf.execCpost (h : s.memWf) (base cnt : Sreg) (srcC : Bool) (soff : BitVec 16) (disp : BitVec 20) (tok : TokF) :
    Result.memWf (execCpost base cnt srcC soff disp tok s) :=
  h.notFirmware (by
  dsimp only
  split
  · exact h.raise _ _
  · split
    · exact h.finish h
    · split
      · exact h.raise _ _
      · split
        · split
          · exact h.raise _ _
          · split
            · exact (h.raise _ _).frame
            · exact h.foldIn _ _ _ _ _
        · split
          · exact h.raise _ _
          · split
            · exact (h.raise _ _).frame
            · exact h.foldIn _ _ _ _ _)

theorem State.memWf.execEnl (h : s.memWf) (moff : BitVec 12) (r : Sreg) (tok : TokF) : Result.memWf (execEnl moff r tok s) := h.notFirmware (by
  dsimp only
  split
  · exact h.raise _ _
  · split
    · exact h.raise _ _
    · split
      · exact (h.engineAt (h.noteOob _ _ _ _) _ _).slotDue _ _ _
      · exact h.engineAt (h.noteOob _ _ _ _) _ _)

theorem State.memWf.enlTransfer (h : s.memWf) (id : Nat) : (enlTransfer s id).memWf := by
  unfold Machine.enlTransfer
  split
  · exact h
  · split
    · split
      · exact h
      · refine State.memWf.scheduleFree (State.memWf.modOp ?_ _ _) _ _ _
        exact foldl_keeps_prop (q := fun x : State × Byte => x.1.memWf)
          (fun _ _ hx => (hx.opWrite _ _ _ _ _ _ _ _).modThread _ _ _) _ h
    · exact h

theorem State.memWf.enlComplete (h : s.memWf) (id : Nat) : (enlComplete s id).memWf := by
  unfold Machine.enlComplete
  split
  · exact h
  · split
    · split
      · exact h.opDone _ _
      · exact h
    · split
      · exact h.opDone _ _
      · exact h

/-! ### Events, completions and free pages -/

theorem State.memWf.sendVec (h : s.memWf) (n v : Nat) : (s.sendVec n v).memWf := by
  unfold State.sendVec
  dsimp only
  split
  · exact h.modVec _ _ _
  · exact (h.modVec _ _ _).frame

theorem State.memWf.countTrigger (h : s.memWf) (n v : Nat) : (s.countTrigger n v).memWf := by
  unfold State.countTrigger
  dsimp only
  split
  · exact h.sendVec _ _
  · exact h

theorem State.memWf.coalesceTimer (h : s.memWf) (n v t0 : Nat) (time : BitVec 16) : (s.coalesceTimer n v t0 time).memWf := h.schedule _ _ _

theorem State.memWf.countVec (h : s.memWf) (n v : Nat) : (s.countVec n v).memWf :=
  ((h.modVec _ _ _).ite ((h.modVec _ _ _).coalesceTimer _ _ _ _)).countTrigger _ _

theorem State.memWf.postRing (h : s.memWf) (n code fn q part : Nat) (detail : List Byte) : (s.postRing n code fn q part detail).memWf := by
  unfold State.postRing
  dsimp only
  split
  · exact h
  · split
    · split
      · exact h.modFn _ _
      · exact ((h.physWrite _ _).modFn _ _).countVec _ _
    · split
      · exact h.modFn _ _
      · exact ((h.physWrite _ _).modFn _ _).countVec _ _

theorem State.memWf.postEvent (h : s.memWf) (code fn q part : Nat) (detail : List Byte) (rings : List Nat) :
    (s.postEvent code fn q part detail rings).memWf :=
  (h.postRing _ _ _ _ _ _).foldl _ fun _ _ hs => hs.postRing _ _ _ _ _ _

theorem State.memWf.cmdSignal (h : s.memWf) (fn : Nat) (e : List Byte) : (s.cmdSignal fn e).memWf := by
  unfold State.cmdSignal
  dsimp only
  split
  · exact h.signalAt _ _ _
  · exact h.signalAt _ _ _
  · exact h.signalAt _ _ _
  · exact h

theorem State.memWf.completeAs (h : s.memWf) (r : CmdRef) (status : Nat) (b3 : Option Nat) (sig : Bool) : (s.completeAs r status b3 sig).memWf := by
  unfold State.completeAs
  dsimp only
  split
  · exact h
  · split
    · exact (((((h.fnWrite _ _ _ _).modQueue _ _ _).fnWrite _ _ _ _).cmdSignal _ _).ite (((h.fnWrite _ _ _ _).modQueue _ _ _).fnWrite _ _ _
        _)).noteWaits.countVec _ _
    · exact (((((h.fnWrite _ _ _ _).modQueue _ _ _).fnWrite _ _ _ _).cmdSignal _ _).ite (((h.fnWrite _ _ _ _).modQueue _ _ _).fnWrite _ _ _
        _)).noteWaits

theorem State.memWf.complete (h : s.memWf) (r : CmdRef) (status : Nat) : (s.complete r status).memWf := h.completeAs _ _ _ _

theorem State.memWf.completeOpt (h : s.memWf) (r : Option CmdRef) (status : Nat) : (s.completeOpt r status).memWf := by
  unfold State.completeOpt
  split
  · exact h.complete _ _
  · exact h

theorem State.memWf.setPending (h : s.memWf) (fn q : Nat) : (s.setPending fn q).memWf := by
  unfold State.setPending
  dsimp only
  split
  · exact h
  · exact h.frame.schedule _ _ _

theorem State.memWf.zeroPages (h : s.memWf) (k size : Nat) : (s.zeroPages k size).memWf := by
  obtain ⟨hhbm, _⟩ := id h
  exact h.withHbm (Memory.wf_keep hhbm fun a => decide (a < 65536 * k) || decide (65536 * (k + size) ≤ a))

theorem State.memWf.takePages {size n : Nat} (h : s.memWf) {r : State × List Nat} (e : s.takePages size n = some r) : r.1.memWf := by
  induction n generalizing s r with
  | zero => cases e; exact h
  | succ n ih =>
    obtain ⟨k, _, e⟩ := Option.bind_eq_some_iff.1 e
    obtain ⟨x, hx, rfl⟩ := Option.map_eq_some_iff.1 e
    exact ih (r := x) (State.memWf.zeroPages h.frame k size) hx

theorem State.memWf.freePage (h : s.memWf) (k : Nat) : (s.freePage k).memWf := by
  unfold State.freePage
  split <;> exact h.frame

theorem State.memWf.releaseQuarantine (h : s.memWf) : s.releaseQuarantine.memWf := h.frame

theorem State.memWf.freeEntry (h : s.memWf) (p : Nat) (e : PageT) : (s.freeEntry p e).memWf := by
  unfold State.freeEntry
  dsimp only
  split
  · exact h
  · exact h.foldl _ fun _ _ hs => by
      split
      · exact hs
      · exact hs.freePage _

/-! ### Launch records -/

theorem Partition.wf.modRcd (h : P.wf) (i : Nat) (f : LRec → LRec) : (P.modRcd i f).wf := h.frame

theorem Partition.wf.makeEligible (h : P.wf) (i : Nat) : (P.makeEligible i).wf := (h.modRcd _ _).frame

theorem Partition.wf.recWrite (h : P.wf) (i : Nat) (g : List Byte) : (P.recWrite i g).1.wf := by
  unfold Partition.recWrite
  split
  · exact h
  · exact h.modRcd _ _

theorem Partition.wf.recArm (h : P.wf) (i : Nat) : (P.recArm i).1.wf := by
  unfold Partition.recArm
  split
  · exact h
  · split
    · exact h
    · exact h.modRcd _ _

theorem Partition.wf.recPatch (h : P.wf) (i off : Nat) (d : List Byte) : (P.recPatch i off d).1.wf := by
  unfold Partition.recPatch
  split
  · exact h
  · exact h.modRcd _ _

theorem Partition.wf.recPost (h : P.wf) (i fn : Nat) (cmd : Option CmdRef) : (P.recPost i fn cmd).1.wf := by
  unfold Partition.recPost
  dsimp only
  split
  · exact h
  · split
    · exact h
    · split
      · exact (h.modRcd _ _).makeEligible _
      · exact (h.modRcd _ _).modRcd _ _
    · exact h

theorem State.memWf.stageSeed (h : s.memWf) (p : Nat) : (s.stageSeed p).memWf := h.modPart _

theorem State.memWf.startBound (h : s.memWf) (p : Nat) : (s.startBound p).memWf := by
  unfold State.startBound
  dsimp only
  split
  · exact h
  · split
    · exact (h.modPart _).schedule _ _ _
    · exact h

theorem State.memWf.requestPreempt (h : s.memWf) (p kind : Nat) : (s.requestPreempt p kind).memWf := by
  unfold State.requestPreempt
  dsimp only
  split
  · exact h
  · split
    · exact h
    · split
      · exact h.schedule _ _ _
      · split
        · exact h.modPart _
        · exact (h.modPart _).startBound _

theorem State.memWf.afterRecords (h : s.memWf) (p : Nat) : (s.afterRecords p).memWf := by
  unfold State.afterRecords
  dsimp only
  split
  · exact (h.stageSeed _).requestPreempt _ _
  · exact h.stageSeed _

theorem State.memWf.applyRec (h : s.memWf) (p : Nat) (op : RecOp) (fn : Nat) (cmd : Option CmdRef) : (s.applyRec p op fn cmd).1.memWf := by
  have hP := h.part p
  have hset {P : Partition} (hP : P.wf) : (s.modPart p fun _ => P).memWf := h.modPart p fun _ _ => hP
  unfold State.applyRec
  cases op with
  | write i g =>
    rw [apply_ite Prod.fst]
    refine h.ite (State.memWf.afterRecords ?_ _)
    dsimp only
    split
    · exact (hset (hP.recWrite i g)).regenerateNow _ _
    · exact hset (hP.recWrite i g)
  | patch i off d => rw [apply_ite Prod.fst]; exact h.ite ((hset (hP.recPatch i off d)).afterRecords _)
  | arm i => rw [apply_ite Prod.fst]; exact h.ite ((hset (hP.recArm i)).afterRecords _)
  | post i => rw [apply_ite Prod.fst]; exact h.ite ((hset (hP.recPost i fn cmd)).afterRecords _)
  | postTo q i => rw [apply_ite Prod.fst]; exact h.ite ((hset (hP.recPost i fn cmd)).afterRecords _)
  | postFrom q f i =>
    rw [apply_ite Prod.fst]
    refine h.ite ((hset ?_).afterRecords _)
    dsimp only
    split
    · exact hP
    · exact hP.recPost i f cmd

theorem State.memWf.noteRefusal (h : s.memWf) (p t th code target idx : Nat) : (s.noteRefusal p t th code target idx).memWf := by
  unfold State.noteRefusal
  split
  · exact h
  · exact h.modTile _ _ fun _ hT => hT.modThread _ _

theorem State.memWf.applyHostReq (h : s.memWf) (p : Nat) (r : RecReq) : (s.applyHostReq p r).memWf := by
  unfold State.applyHostReq
  dsimp only
  split
  · exact (h.applyRec _ _ _ _).noteRefusal _ _ _ _ _ _
  · split
    · exact h.applyRec _ _ _ _
    · exact (h.applyRec _ _ _ _).completeOpt _ _
  · exact (h.applyRec _ _ _ _).completeOpt _ _

theorem State.memWf.hostReq (h : s.memWf) (p : Nat) (r : RecReq) : (s.hostReq p r).memWf := by
  unfold State.hostReq
  split
  · exact h.applyHostReq _ _
  · exact h.modPart _

theorem State.memWf.applyDevReq (h : s.memWf) (p fn : Nat) (r : RecReq) : (s.applyDevReq p fn r).memWf := by
  unfold State.applyDevReq
  dsimp only
  split
  · split
    · exact h.noteRefusal _ _ _ _ _ _
    · exact (h.applyRec _ _ _ _).noteRefusal _ _ _ _ _ _
  · split
    · exact h.noteRefusal _ _ _ _ _ _
    · exact (h.applyRec _ _ _ _).noteRefusal _ _ _ _ _ _
  · split
    · exact h.noteRefusal _ _ _ _ _ _
    · exact (h.applyRec _ _ _ _).noteRefusal _ _ _ _ _ _
  · split
    · exact h.noteRefusal _ _ _ _ _ _
    · split
      · exact (h.applyRec _ _ _ _).noteRefusal _ _ _ _ _ _
      · exact h.hostReq _ _
  · exact h
  · exact h

theorem State.memWf.applyReqs (h : s.memWf) (p fn : Nat) (fix : Bool) : (s.applyReqs p fn fix).memWf := by
  unfold State.applyReqs
  dsimp only
  split
  · exact ((h.modPart _).foldl _ fun _ _ hs => hs.applyHostReq _ _).foldl _ fun _ _ hs => hs.applyDevReq _ _ _
  · exact (h.modPart _).foldl _ fun _ _ hs => hs.applyHostReq _ _

theorem State.memWf.recInstr (h : s.memWf) (op : RecOp) : (s.recInstr op).memWf := h.notFirmware (h.finish ((h.modPart _).modHere _))

theorem State.memWf.rearmOne (h : s.memWf) (p i : Nat) : (s.rearmOne p i).memWf := by
  unfold State.rearmOne
  dsimp only
  split
  · split
    · exact h.partEvent _ _ _ _
    · exact h.modPart _ fun _ hP => hP.modRcd _ _
  · exact h.modPart _ fun _ hP => hP.modRcd _ _

theorem Partition.wf.decrement (h : P.wf) (i k fn : Nat) : (P.decrement i k fn).wf := by
  unfold Partition.decrement
  dsimp only
  split
  · split
    · split
      · exact (h.modRcd _ _).makeEligible _
      · exact h.modRcd _ _
    · split
      · exact (h.modRcd _ _).makeEligible _
      · exact h.modRcd _ _
  · exact h

theorem State.memWf.launchComplete (h : s.memWf) (p i : Nat) : (launchComplete s p i).memWf := by
  unfold Machine.launchComplete
  dsimp only
  split
  · exact h
  · exact (((h.modPart _ fun _ hP => hP.modRcd _ _).ite (((h.modPart _ fun _ hP => hP.modRcd _ _).partEvent _ _ _ _).ite ((((h.modPart _
      fun _ hP => hP.modRcd _ _).foldl _ fun _ _ hs => hs.rearmOne _ _).ite (h.modPart _ fun _ hP => hP.modRcd _ _)).modPart _
      fun _ hP => hP.decrement _ _ _))).completeOpt _ _).afterRecords _

theorem State.memWf.execLaunchComplete (h : s.memWf) : Result.memWf (execLaunchComplete s) := (h.launchComplete _ _).modPart _

theorem State.memWf.execNonpreemptibleLimitExpiry (h : s.memWf) : Result.memWf (execNonpreemptibleLimitExpiry s) := by
  unfold Machine.execNonpreemptibleLimitExpiry
  split
  · exact h.requestPreempt _ _
  · exact h

/-! ### Sheets -/

theorem Tile.wf.loadTile (sec : List Byte) (task : Nat → Thread) (mask : Nat) : (loadTile sec task mask).wf := by
  have hput (ds : List (Range × Bool)) (start : Nat) (b : Buf) : Memory.wf (ds.foldl (fun (x : Nat × Memory) d =>
      (x.1 + d.1.len, if d.1.buf = b then x.2.writeRun d.1.start (bytesAt sec x.1 d.1.len) else x.2)) (start, [])).2 = true :=
    foldl_keeps_prop (q := fun x : Nat × Memory => x.2.wf = true) (fun _ _ hx => by
      dsimp only
      split
      · exact Memory.wf_writeRun hx _ _
      · exact hx) ds Memory.wf_nil
  exact ⟨hput _ _ _, hput _ _ _, hput _ _ _⟩

/-! ### Fix and wash of tiles, and translations that change -/

theorem State.memWf.buildDone (h : s.memWf) (p t : Nat) (now : Bool) : (s.buildDone p t now).memWf := h.modTile _ _ fun _ hT => by
  split <;> exact hT.frame

theorem wf_keepNamed (m : Memory) (rs : List Range) (b : Buf) : (keepNamed m rs b).wf = true :=
  foldl_keeps_prop (q := fun m : Memory => m.wf = true) (fun _ _ hm => Memory.wf_writeRun hm _ _) _ Memory.wf_nil

theorem State.memWf.commitWrites (h : s.memWf) (p : Nat) (ws : List WRec) : (s.commitWrites p ws).memWf :=
  (h.foldl _ fun _ _ hs => hs.outsideWrite _ _ _).foldl _ fun _ _ hs => by
    split
    · exact hs.physWrite _ _
    · exact hs

theorem Tile.wf.fresh (h : T.wf) : T.fresh.wf := h.frame

theorem Tile.wf.commit (T : Tile) (k ready : Nat) : (T.commit k ready).wf := ⟨wf_keepNamed _ _ _, wf_keepNamed _ _ _, wf_keepNamed _ _ _⟩

theorem Tile.wf.unplaced (h : T.wf) : T.unplaced.wf := h.fresh.frame

theorem Tile.wf.wash (h : T.wf) (tr : List PageT) (cyc ready : Nat) : (T.wash tr cyc ready).wf := h.fresh.frame

theorem Partition.wf.fresh (h : P.wf) : P.fresh.wf := h.frame

theorem State.memWf.endOps (h : s.memWf) (p : Nat) : (s.endOps p).memWf := h.frame.foldl _ fun _ _ hs => hs.foldl _ fun _ _ hs_1 => hs_1.kickCopy _ _

theorem State.memWf.startBuilds (h : s.memWf) (p : Nat) : (s.startBuilds p).memWf := h.foldl _ fun _ _ hs => hs.restartBuild _ _

theorem Tile.wf.remap (h : T.wf) (now build : List PageT) (cyc : Nat) : (Tile.remap now build cyc T).wf := h.frame

theorem State.memWf.setTrans (h : s.memWf) (p : Nat) (tr : List PageT) (vpn n : Nat) : (s.setTrans p tr vpn n).memWf := (h.modPart _ fun _ hP => by
  dsimp only
  split
  · exact (hP.frame.tlbi _ _).mapTiles fun _ hT => hT.remap _ _ _
  · exact hP.frame.tlbi _ _).stageSeed _

theorem State.memWf.writeField (h : s.memWf) (r : Retired) : (s.writeField r).memWf := by
  obtain ⟨_, _, hflash, _⟩ := id h
  exact h.withFlash (Memory.wf_writeRun hflash _ _)

theorem Partition.wf.moved (h : P.wf) (k n cyc : Nat) : (Partition.moved k n cyc P).wf := h.mapTiles fun _ hT => hT.remap _ _ _

theorem State.memWf.retirePage (h : s.memWf) (k : Nat) : (retirePage s k).memWf := by
  unfold Machine.retirePage
  split
  · next s1 n _ hs =>
    have hcopied := (h.takePages hs).physWrite ⟨false, 65536 * n⟩ (s.physRead ⟨false, 65536 * k⟩ 65536)
    refine State.memWf.writeField (State.memWf.freePage (State.memWf.foldl (hcopied.withParts ?_) _ fun t p ht => ?_) _) _
    · exact List.forall_mem_map.2 fun P hP => Partition.wf.moved (hcopied.parts P hP) _ _ _
    · split
      · exact ht
      · exact ht.stageSeed _
  · exact h

/-! ### The scheduler -/

theorem Partition.wf.setRun (h : P.wf) (r : RunSt) : (P.setRun r).wf := by
  unfold Partition.setRun
  split
  · exact h
  · exact h.frame

theorem State.memWf.tileVote (h : s.memWf) (p t : Nat) : (tileVote s p t).memWf := by
  unfold Machine.tileVote
  dsimp only
  split
  · exact h
  · exact h.modPart _ fun _ hP => by
      split
      · exact (hP.modTile _ fun _ hT => hT.frame).frame.setRun _
      · exact (hP.modTile _ fun _ hT => hT.frame).frame

theorem Partition.wf.skewSample (h : P.wf) : P.skewSample.wf := by
  unfold Partition.skewSample
  split
  · exact h.sample _ _
  · exact h

theorem State.memWf.recordMismatch (h : s.memWf) (p : Nat) (n : BitVec 32) (m : BarMsg) : (s.recordMismatch p n m).memWf := by
  unfold State.recordMismatch
  split
  · exact h
  · exact h.recordFault _ _ _ _ _ _ _ _ _

theorem State.memWf.passDown (h : s.memWf) (p : Nat) (d : BarMsg) (F : Nat) : (s.passDown p d F).memWf := h.foldl _ fun _ _ hs => hs.sendFlit _ _ _ _

theorem Partition.wf.countWash (h : P.wf) (c : Cause) (d : Word) : (P.countWash c d).wf := by
  unfold Partition.countWash
  dsimp only
  split <;> exact h.frame

theorem State.memWf.sendRelease (h : s.memWf) (p : Nat) (d : BarMsg) (F : Nat) : (s.sendRelease p d F).memWf := (h.passDown _ _ _).schedule _ _ _

theorem State.memWf.barrierCombine (h : s.memWf) (p : Nat) : (barrierCombine s p).memWf := by
  unfold Machine.barrierCombine
  dsimp only
  split
  · exact h
  · split
    · exact h
    · split
      · exact ((h.foldl _ fun _ _ hs => hs.recordMismatch _ _ _).modPart _ fun _ hP => hP.skewSample.frame).sendFlit _ _ _ _
      · split
        · split
          · exact (h.foldl _ fun _ _ hs => hs.recordMismatch _ _ _).wakeCtrls.modPart _ fun _ hP => (hP.skewSample.setRun _).frame
          · exact ((h.foldl _ fun _ _ hs => hs.recordMismatch _ _ _).wakeCtrls.modPart _ fun _ hP => (hP.skewSample.setRun _).frame).sendRelease _ _ _
        · split
          · exact (h.foldl _ fun _ _ hs => hs.recordMismatch _ _ _).wakeCtrls.modPart _ fun _ hP => (hP.skewSample.setRun _).frame
          · exact ((h.foldl _ fun _ _ hs => hs.recordMismatch _ _ _).wakeCtrls.modPart _ fun _ hP => (hP.skewSample.setRun _).frame).sendRelease _ _ _

theorem State.memWf.execWashLimitHalt (h : s.memWf) : Result.memWf (execWashLimitHalt s) := by
  unfold Machine.execWashLimitHalt
  dsimp only
  split
  · split
    · exact (h.modPart _).sendRelease _ _ _
    · exact h
  · exact h

theorem State.memWf.takeBarrier (h : s.memWf) (k p : Nat) (m : BarMsg) : (s.takeBarrier k p m).memWf := by
  unfold State.takeBarrier
  dsimp only
  split
  · exact h
  · split
    · exact h.takeExchange _ _ _
    · split
      · exact ((h.modPart _ fun _ hP => (hP.setRun _).frame).passDown _ _ _).scheduleFree _ _ _
      · split
        · exact h.modPart _
        · exact h

theorem State.memWf.execReleaseArrival (h : s.memWf) : Result.memWf (execReleaseArrival s) := h.modPart _ fun _ hP => hP.sample _ _

theorem State.memWf.saveNext (h : s.memWf) (p die : Nat) : (s.saveNext p die).memWf := by
  unfold State.saveNext
  split
  · exact h
  · exact h.scheduleFree _ _ _

theorem State.memWf.reorderSaves (h : s.memWf) (p : Nat) : (s.reorderSaves p).memWf := h.frame.foldl _ fun _ _ hs => hs.saveNext _ _

theorem State.memWf.switchOut (h : s.memWf) (p : Nat) (l : Launch) (b : Binding) (all_ : Bool) : (s.switchOut p l b all_).memWf :=
  (h.outsideWrite _ _ _).modPart _ fun _ hP => by
    exact hP.mapTilesIdx fun _ hT => by
      dsimp only
      split
      · exact hT.fresh.frame
      · exact hT

theorem State.memWf.startSave (h : s.memWf) (p kind : Nat) : (startSave s p kind).memWf := by
  unfold Machine.startSave
  dsimp only
  split
  · exact h
  · split
    · exact h
    · exact ((((h.switchOut _ _ _ _).modPart _).regenerateDue _).stageSeed _).reorderSaves _

theorem State.memWf.saveAgain (h : s.memWf) (p : Nat) : (s.saveAgain p).memWf := by
  unfold State.saveAgain
  dsimp only
  split
  · exact h.startBuilds _
  · split
    · exact (((h.switchOut _ _ _ _).modPart _).stageSeed _).reorderSaves _
    · exact h.startBuilds _

theorem State.memWf.withdraw (h : s.memWf) (p : Nat) : (s.withdraw p).memWf := by
  unfold State.withdraw
  dsimp only
  split
  · exact h
  · exact (((h.endOps _).applyReqs _ _ _).foldl _ fun _ _ hs => hs.complete _ _).modPart _ fun _ hP => by
      exact hP.mapTilesIdx fun _ hT => by
        split
        · exact hT.unplaced
        · exact hT

theorem State.memWf.placeTile (h : s.memWf) (p t ready : Nat) : (s.placeTile p t ready).memWf := by
  unfold State.placeTile
  dsimp only
  split
  · exact h
  · exact (h.modPart _ fun _ hP => (hP.modTile _ fun _ hT => hT.fresh.frame).frame).restartBuild _ _

theorem State.memWf.dispatch (h : s.memWf) (p : Nat) : (dispatch s p).memWf := by
  unfold Machine.dispatch
  dsimp only
  split
  · exact h
  · split
    · exact h
    · split
      · exact (((h.withdraw _).modPart _ fun _ hP => ((hP.modRcd _ _).fresh.setRun _).frame).modPart _).scheduleFree _ _ _
      · split
        · exact (((h.withdraw _).modPart _ fun _ hP => ((hP.modRcd _ _).fresh.setRun _).frame).frame.foldl _
            fun _ _ hs => hs.placeTile _ _ _).reorderSaves _
        · exact ((h.withdraw _).modPart _ fun _ hP => ((hP.modRcd _ _).fresh.setRun _).frame).frame.foldl _ fun _ _ hs => hs.placeTile _ _ _

theorem State.memWf.execDispatch (h : s.memWf) : Result.memWf (execDispatch s) := by
  unfold Machine.execDispatch
  dsimp only
  split
  · exact h
  · split
    · exact h.stageSeed _
    · exact h.dispatch _

theorem State.memWf.releaseSlots (h : s.memWf) (p : Nat) : (s.releaseSlots p).memWf := by
  unfold State.releaseSlots
  dsimp only
  split
  · exact h
  · exact (h.frame.foldl _ fun _ _ hs => hs.setPending _ _).modPart _

theorem State.memWf.kickStops (h : s.memWf) (p : Nat) : (s.kickStops p).memWf := by
  unfold State.kickStops
  split
  · exact h
  · exact h.schedule _ _ _

theorem State.memWf.saveDone (h : s.memWf) (p : Nat) : (s.saveDone p).memWf := ((((h.foldl _ fun _ _ hs => by
  split
  · exact hs.outsideWrite _ _ _
  · exact hs).releaseSlots _).modPart _ fun _ hP => by
  dsimp only
  split
  · exact hP.frame
  · split
    · exact hP.frame.washPending
    · exact hP.frame).kickStops _).afterRecords _

theorem State.memWf.tileSaved (h : s.memWf) (p t die : Nat) : (tileSaved s p t die).memWf := by
  unfold Machine.tileSaved
  dsimp only
  split
  · exact h
  · split
    · split
      · split
        · exact ((h.modTile _ _).placeTile _ _ _).saveDone _
        · exact ((h.modTile _ _).placeTile _ _ _).saveNext _ _
      · split
        · exact (h.modTile _ _).saveDone _
        · exact (h.modTile _ _).saveNext _ _
    · split
      · exact (h.modTile _ _).saveDone _
      · exact (h.modTile _ _).saveNext _ _

theorem State.memWf.haltPart (h : s.memWf) (p : Nat) (d : BarMsg) : (haltPart s p d).memWf := (((h.postEvent _ _ _ _ _ _).modPart _ fun _ hP => by
  dsimp only
  split
  · exact (hP.modRcd _ _).frame
  · exact hP.frame).completeOpt _ _).kickStops _

theorem State.memWf.holdPart (h : s.memWf) (p : Nat) : (s.holdPart p).memWf := ((h.modPart _).regenerateDue _).kickStops _

theorem State.memWf.toRunning (h : s.memWf) (p : Nat) : (s.toRunning p).memWf :=
  (((h.modPart _ fun _ hP => hP.frame.washPending).startBuilds _).startBound _).afterRecords _

theorem State.memWf.goOn (h : s.memWf) (p : Nat) (stops : List StopReq) : (s.goOn p stops).memWf := by
  unfold State.goOn
  dsimp only
  split
  · exact h.saveAgain _
  · split
    · exact h.holdPart _
    · split
      · exact (h.modPart _).startBuilds _
      · split
        · exact h.startSave _ _
        · split
          · exact ((h.modPart _).startBuilds _).afterRecords _
          · exact (h.modPart _).startBuilds _

theorem Partition.wf.clearTasks (h : P.wf) : P.clearTasks.wf := h.mapTilesIdx fun _ hT => by
  dsimp only
  split
  · exact hT.frame
  · exact hT

theorem State.memWf.fixImage (h : s.memWf) (p : Nat) : (fixImage s p).memWf := ((((((h.modPart _ fun _ hP => by
  exact hP.mapTilesIdx fun _ hT => by
    split
    · exact Tile.wf.commit _ _ _
    · exact hT).frame.foldl _ fun _ _ hs => by
  split
  · exact hs
  · exact hs.scheduleFree _ _ _).applyReqs _ _ _).modPart _).commitWrites _ _).foldl _ fun _ _ hs => hs.outsideWrite _ _ _).foldl _
      fun _ _ hs => hs.complete _ _

theorem State.memWf.raiseFailed (h : s.memWf) (p : Nat) : (s.raiseFailed p).memWf := by
  unfold State.raiseFailed
  dsimp only
  split
  · exact h.modPart _
  · exact (h.modPart _).foldl _ fun _ _ hs => hs.partEvent _ _ _ _

theorem State.memWf.fixPoint (h : s.memWf) (p : Nat) (d : BarMsg) : (fixPoint s p d).memWf := by
  unfold Machine.fixPoint
  dsimp only
  split
  · exact ((((((((h.fixImage _).modPart _ fun _ hP => (((hP.sample _ _).sample _ _).sample _ _).fresh.frame).endOps _).modPart _).foldl _
      fun _ _ hs => hs.retirePage _).scheduleFree _ _ _).modPart _ fun _ hP => (hP.clearTasks.setRun _).frame).regenerateDue _).stageSeed _
  · exact ((((((((h.fixImage _).modPart _ fun _ hP => (((hP.sample _ _).sample _ _).sample _ _).fresh.frame).endOps _).modPart _).foldl _
      fun _ _ hs => hs.retirePage _).scheduleFree _ _ _).goOn _ _).raiseFailed _).stageSeed _

theorem State.memWf.washImage (h : s.memWf) (p : Nat) : (washImage s p).memWf := (((h.modPart _ fun _ hP => by
  exact hP.mapTilesIdx fun _ hT => by
    split
    · exact hT.wash _ _ _
    · exact hT).applyReqs _ _ _).modPart _).foldl _ fun _ _ hs => hs.complete _ _

theorem Partition.wf.lateLead (h : P.wf) (c : Cause) : (P.lateLead c).wf := by
  unfold Partition.lateLead
  split
  · exact h.frame
  · exact h

theorem State.memWf.rebuildTree (h : s.memWf) (p : Nat) : (s.rebuildTree p).memWf := h.modPart _

theorem State.memWf.washPoint (h : s.memWf) (p : Nat) (d : BarMsg) : (washPoint s p d).memWf := by
  unfold Machine.washPoint
  dsimp only
  split
  · split
    · split
      · split
        · exact ((((((h.washImage _).modPart _ fun _ hP => (((hP.sample _ _).countWash _ _).lateLead _).fresh.frame).endOps _).regenerateDue
            _).rebuildTree _).goOn _ _).partEvent _ _ _ _
        · exact (((((h.washImage _).modPart _ fun _ hP => (((hP.sample _ _).countWash _ _).lateLead _).fresh.frame).endOps _).regenerateDue
            _).rebuildTree _).goOn _ _
      · split
        · exact ((((((h.washImage _).modPart _ fun _ hP => (((hP.sample _ _).countWash _ _).lateLead _).fresh.frame).endOps _).regenerateDue
            _).rebuildTree _).goOn _ _).partEvent _ _ _ _
        · exact (((((h.washImage _).modPart _ fun _ hP => (((hP.sample _ _).countWash _ _).lateLead _).fresh.frame).endOps _).regenerateDue
            _).rebuildTree _).goOn _ _
    · exact (((((h.washImage _).modPart _ fun _ hP => (((hP.sample _ _).countWash _ _).lateLead _).fresh.frame).endOps _).regenerateDue
        _).rebuildTree _).goOn _ _
  · exact (((((h.washImage _).modPart _ fun _ hP => (((hP.sample _ _).countWash _ _).lateLead _).fresh.frame).endOps _).regenerateDue _).rebuildTree
      _).haltPart _ _

theorem State.memWf.flip (h : s.memWf) (p : Nat) : (flip s p).memWf := by
  unfold Machine.flip
  split
  · exact h
  · split
    · exact h
    · split
      · exact h.fixPoint _ _
      · exact h.washPoint _ _

theorem Partition.wf.joinGroup (h : P.wf) (up : Option Nat) (down : List Nat) (links : List (Nat × Nat)) : (P.joinGroup up down links).wf :=
  h.frame.frame

theorem State.memWf.execLeadReset (h : s.memWf) : Result.memWf (execLeadReset s) := h.modPart _ fun _ hP => by
  split
  · split
    · exact hP.joinGroup _ _ _
    · exact hP
  · split
    · exact hP.frame
    · exact hP

theorem State.memWf.execSpillCopyBackDone (h : s.memWf) : Result.memWf (execSpillCopyBackDone s) := h.modTile _ _

theorem State.memWf.mismatch (h : s.memWf) (p : Nat) (l : Launch) (r : LRec) (expected own : BitVec 32) : (s.mismatch p l r expected own).memWf :=
  (h.modPart _ fun _ hP => by
    exact hP.mapTilesIdx fun _ hT => by
      dsimp only
      split
      · exact hT.fresh.frame
      · exact hT).foldl _ fun _ _ hs => hs.tileEvent _ _ _ _ _ _

theorem State.memWf.resumeSaved (h : s.memWf) (p i : Nat) : (resumeSaved s p i).memWf := by
  unfold Machine.resumeSaved
  dsimp only
  split
  · split
    · exact h
    · split
      · split
        · exact h.mismatch _ _ _ _ _
        · exact ((h.modPart _ fun _ hP => by
            exact hP.mapTilesIdx fun _ hT => by
              split
              · exact Tile.wf.loadTile _ _ _
              · exact hT).foldl _ fun _ _ hs => hs.buildDone _ _ _).startBuilds _
      · split
        · exact h.mismatch _ _ _ _ _
        · exact ((h.modPart _ fun _ hP => by
            exact hP.mapTilesIdx fun _ hT => by
              split
              · exact Tile.wf.loadTile _ _ _
              · exact hT).foldl _ fun _ _ hs => hs.buildDone _ _ _).startBuilds _
  · exact h

theorem State.memWf.execResumeFromSaveArea (h : s.memWf) : Result.memWf (execResumeFromSaveArea s) := by
  unfold Machine.execResumeFromSaveArea
  dsimp only
  split
  · exact h.scheduleFree _ _ _
  · exact h.resumeSaved _ _

theorem State.memWf.extentBuilt (h : s.memWf) (p t : Nat) (now : Bool) (build : Nat) : (extentBuilt s p t now build).memWf := by
  unfold Machine.extentBuilt
  dsimp only
  split
  · exact h
  · split
    · exact ((h.buildDone _ _ _).modPart _).toRunning _
    · exact h.buildDone _ _ _

theorem State.memWf.execExtentBuildDone (h : s.memWf) : Result.memWf (execExtentBuildDone s) := by
  unfold Machine.execExtentBuildDone
  dsimp only
  split
  · exact h.scheduleFree _ _ _
  · exact h.extentBuilt _ _ _ _

theorem State.memWf.execWatchdog (h : s.memWf) : Result.memWf (execWatchdog s) := by
  unfold Machine.execWatchdog
  dsimp only
  split
  · exact (h.partEvent _ _ _ _).modPart _
  · exact h

theorem State.memWf.boundWash (h : s.memWf) (p : Nat) (detail : Word) : (s.boundWash p detail).memWf := by
  unfold State.boundWash
  dsimp only
  split
  · exact h
  · exact (h.partEvent _ _ _ _).modPart _

theorem State.memWf.forceWash (h : s.memWf) (p : Nat) (detail : Word) : (s.forceWash p detail).memWf := by
  unfold State.forceWash
  dsimp only
  split
  · exact h
  · exact (h.partEvent _ _ _ _).modPart _

theorem State.memWf.execPreemptBoundExpiry (h : s.memWf) : Result.memWf (execPreemptBoundExpiry s) := by
  unfold Machine.execPreemptBoundExpiry
  dsimp only
  split
  · split
    · exact h.schedule _ _ _
    · exact h.boundWash _ _
  · exact h

theorem State.memWf.execQuiesceBoundExpiry (h : s.memWf) : Result.memWf (execQuiesceBoundExpiry s) := by
  unfold Machine.execQuiesceBoundExpiry
  dsimp only
  split
  · exact h
  · split
    · exact h.schedule _ _ _
    · split
      · exact h.schedule _ _ _
      · exact h.boundWash _ _

/-! ### Quiesce, restoration and resets -/

theorem State.memWf.withCommand (h : s.memWf) (is : Nat → Bool) (bad : State → CmdRef → List Byte → Bool) (rest : State → CmdRef → List Byte → Nat)
    {ok : State → CmdRef → List Byte → State} (hok : ∀ t r e, t.memWf → (ok t r e).memWf) : (s.withCommand is bad rest ok).memWf := by
  have hQ := h.modQueue s.cmd.fn s.cmd.q Queue.takeOne
  unfold State.withCommand
  dsimp only
  split
  · exact h
  · split
    · exact hQ.complete _ _
    · split
      · exact hQ.complete _ _
      · split
        · exact hQ.complete _ _
        · split
          · exact hQ.complete _ _
          · exact hok _ _ _ hQ

theorem State.memWf.startSheet (h : s.memWf) (p : Nat) (r : CmdRef) (e : List Byte) : (startSheet s p r e).memWf := by
  unfold Machine.startSheet
  dsimp only
  split
  · exact h.complete _ _
  · split
    · exact h.complete _ _
    · exact ((h.modPart _).vwrite _ _ _).scheduleFree _ _ _

theorem State.memWf.finishQuiesce (h : s.memWf) (p : Nat) (r : CmdRef) : (finishQuiesce s p r).memWf := by
  unfold Machine.finishQuiesce
  dsimp only
  split
  · exact h.startSheet _ _ _
  · exact h.complete _ _

theorem State.memWf.finishReset (h : s.memWf) (fn : Nat) : (finishReset s fn).memWf := by
  unfold Machine.finishReset
  dsimp only
  split
  · exact (h.modPart _).postEvent _ _ _ _ _ _
  · exact h.postEvent _ _ _ _ _ _

theorem State.memWf.freeArea (h : s.memWf) (b : Binding) : (s.freeArea b).memWf := by
  unfold State.freeArea
  split
  · exact h.foldl _ fun _ _ hs => hs.freePage _
  · exact h

theorem State.memWf.dropCommands (h : s.memWf) (fn status : Nat) : (s.dropCommands fn status).memWf :=
  h.foldl _ fun _ _ hs => (hs.modQueue _ _ _).foldl _ fun _ _ hs_1 => hs_1.complete _ _

theorem Partition.wf.forgetCommands (h : P.wf) (fn : Nat) : (P.forgetCommands fn).wf := h.frame

theorem State.memWf.finishUnbind (h : s.memWf) (fn : Nat) : (finishUnbind s fn).memWf := by
  unfold Machine.finishUnbind
  split
  · exact h
  · exact (((h.modPart _ fun _ hP => hP.forgetCommands _).dropCommands _ _).freeArea _).modFn _ _

theorem State.memWf.unbound (h : s.memWf) (fn : Nat) : (s.unbound fn).memWf := h.foldl _ fun _ _ hs => hs.complete _ _

theorem State.memWf.stopAt (h : s.memWf) (p : Nat) (x : StopReq) : (s.stopAt p x).memWf := h.modPart _

theorem State.memWf.clearFn (h : s.memWf) (fn : Nat) : (s.clearFn fn).memWf := h.frame.modFn _ _

theorem State.memWf.vfReset (h : s.memWf) (fn : Nat) : (vfReset s fn).memWf := by
  unfold Machine.vfReset
  dsimp only
  split
  · exact h
  · split
    · exact (h.clearFn _).finishReset _
    · split
      · exact (((h.clearFn _).modPart _ fun _ hP => hP.forgetCommands _).stopAt _ _).forceWash _ _
      · exact ((h.clearFn _).modPart _ fun _ hP => hP.forgetCommands _).finishReset _

theorem State.memWf.execVfFunctionLevelReset (h : s.memWf) : Result.memWf (execVfFunctionLevelReset s) := by
  unfold Machine.execVfFunctionLevelReset
  split
  · exact h
  · exact h.vfReset _

theorem State.memWf.destroyPart (h : s.memWf) (p : Nat) : (destroyPart s p).memWf :=
  ((((h.foldl _ fun _ _ hs => hs.freeEntry _ _).foldl _ fun _ _ hs => hs.freePage _).endOps _).modPart _ fun _ _ => Partition.wf.absent).foldl _
      fun _ _ hs => hs.complete _ _

theorem State.memWf.execPfFunctionLevelReset (h : s.memWf) : Result.memWf (execPfFunctionLevelReset s) := (h.foldl _ fun _ _ hs => by
  dsimp only
  split
  · exact hs
  · split
    · exact ((((hs.clearFn _).modPart _ fun _ hP => hP.forgetCommands _).freeArea _).finishReset _).modFn _ _
    · exact ((hs.clearFn _).finishReset _).modFn _ _).foldl _ fun _ _ hs => by
  split
  · exact hs.destroyPart _
  · exact hs

theorem State.memWf.startQuiesce (h : s.memWf) (r : CmdRef) (e : List Byte) : (startQuiesce s r e).memWf := by
  unfold Machine.startQuiesce
  dsimp only
  split
  · exact h.modPart _
  · split
    · exact (h.modPart _).finishQuiesce _ _
    · split
      · exact (h.modPart _ fun _ hP => by exact hP.mapTiles).finishQuiesce _ _
      · exact (h.modPart _).schedule _ _ _

theorem State.memWf.release (h : s.memWf) (p : Nat) : (release s p).memWf := by
  unfold Machine.release
  dsimp only
  split
  · exact h
  · split
    · exact h.modPart _
    · split
      · exact (h.modPart _).foldl _ fun _ _ hs => hs.beginBuild _ _ _
      · exact (h.modPart _).toRunning _

theorem State.memWf.mapFresh {es : List PageT} (h : s.memWf) {r : State × List PageT} (e : s.mapFresh es = some r) : r.1.memWf := by
  induction es generalizing s r with
  | nil => cases e; exact h
  | cons x xs ih =>
    unfold State.mapFresh at e
    split at e
    · next s1 _ _ hs =>
      obtain ⟨y, hy, rfl⟩ := Option.map_eq_some_iff.1 e
      exact ih (s := s1) (r := y) (h.takePages hs) hy
    · cases e

theorem State.memWf.restore (h : s.memWf) (p : Nat) (xs : List Sec) : (restore s p xs).memWf := by
  unfold Machine.restore
  dsimp only
  split
  · exact h
  · next hs =>
    refine State.memWf.regenerateNow (State.memWf.foldl (State.memWf.endOps (State.memWf.modPart (State.memWf.vwrite ?_ _ _ _) _ ?_) _) _ ?_) _ _
    · refine foldl_keeps_prop (q := fun x : State × Nat => x.1.memWf) (fun _ _ hx => hx.physWrite _ _) _ (State.memWf.mapFresh ?_ hs)
      exact (h.modPart p).foldl _ fun _ _ hs => hs.freeEntry _ _
    · refine fun _ _ => List.forall_mem_map.2 fun t _ => ?_
      split
      · exact .loadTile _ _ _
      · exact .loadTile _ _ _
      · exact .zero
    · exact fun _ _ hs => hs.complete _ _

theorem State.memWf.performRestore (h : s.memWf) (p : Nat) (r : CmdRef) (e : List Byte) : (performRestore s p r e).memWf := by
  unfold Machine.performRestore
  dsimp only
  split
  · exact h.complete _ _
  · split
    · exact h.complete _ _
    · split
      · exact h.completeAs _ _ _ _
      · split
        · exact h.completeAs _ _ _ _
        · exact (h.restore _ _).completeAs _ _ _ _

theorem State.memWf.performQuiesce (h : s.memWf) (p : Nat) (r : CmdRef) : (performQuiesce s p r).memWf := by
  unfold Machine.performQuiesce
  dsimp only
  split
  · exact (h.release _).complete _ _
  · exact h.performRestore _ _ _
  · exact h.startQuiesce _ _

theorem State.memWf.takeQuiesce (h : s.memWf) (r : CmdRef) (e : List Byte) : (takeQuiesce s r e).memWf := by
  unfold Machine.takeQuiesce
  dsimp only
  split
  · exact h.modPart _
  · exact h.performQuiesce _ _

theorem State.memWf.settleOne (h : s.memWf) (p : Nat) (x : StopReq × Nat) : (settleOne p s x).memWf := by
  unfold Machine.settleOne
  dsimp only
  split
  · split
    · exact h.modPart _
    · exact h
  · split
    · exact h.modPart _
    · exact h.performQuiesce _ _
  · split
    · exact h.finishReset _
    · exact h.modPart _
  · split
    · exact (h.finishUnbind _).unbound _
    · exact h.modPart _

theorem State.memWf.settleStops (h : s.memWf) (p : Nat) : (settleStops s p).memWf := (h.modPart _).foldl _ fun _ _ hs => hs.settleOne _ _

theorem State.memWf.settleDrained (h : s.memWf) (p : Nat) : (s.settleDrained p).memWf := by
  unfold State.settleDrained
  dsimp only
  split
  · exact h
  · exact h.settleStops _

theorem State.memWf.execWriteBehindDrainDone (h : s.memWf) : Result.memWf (execWriteBehindDrainDone s) := by
  unfold Machine.execWriteBehindDrainDone
  dsimp only
  split
  · exact h.scheduleFree _ _ _
  · split
    · exact h.settleDrained _
    · split
      · exact (h.schedule _ _ _).kickStops _
      · exact (h.modPart _).settleDrained _

theorem State.memWf.execSheetWriteDone (h : s.memWf) : Result.memWf (execSheetWriteDone s) := by
  unfold Machine.execSheetWriteDone
  dsimp only
  split
  · exact h.scheduleFree _ _ _
  · split
    · exact (((h.modPart _).vwrite _ _ _).complete _ _).settleStops _
    · exact h

theorem State.memWf.failSheet (h : s.memWf) (p : Nat) : (s.failSheet p).memWf := by
  unfold State.failSheet
  split
  · exact ((h.modPart _).complete _ _).settleStops _
  · exact h

theorem State.memWf.quiesce (h : s.memWf) (mode : Nat) : (s.quiesce mode).memWf := by
  unfold State.quiesce
  dsimp only
  split
  · exact h.withCommand _ _ _ fun _ _ _ hs => hs.takeQuiesce _ _
  · exact h

/-! ### Host commands -/

theorem State.memWf.execNop (h : s.memWf) : Result.memWf (execNop s) := h.withCommand _ _ _ fun _ _ _ hs => hs.complete _ _

theorem State.memWf.recordCommand (h : s.memWf) (code : Nat) (bad : State → CmdRef → List Byte → Bool) (rest : List Byte → Nat)
    (op : State → Nat → List Byte → RecOp) : (s.recordCommand code bad rest op).memWf :=
  h.withCommand _ _ _ fun _ _ _ ht => by
    split
    · exact ht.hostReq _ _
    · exact ht

theorem State.memWf.execSignalWait (h : s.memWf) : Result.memWf (execSignalWait s) :=
  h.withCommand _ _ _ fun _ _ _ hs => (hs.modQueue _ _ _).noteWaits

theorem State.memWf.execSignalWaitPoll (h : s.memWf) : Result.memWf (execSignalWaitPoll s) := by
  unfold Machine.execSignalWaitPoll
  dsimp only
  split
  · exact h.completeAs _ _ _ _
  · exact h

theorem State.memWf.execSignal (h : s.memWf) : Result.memWf (execSignal s) := h.withCommand _ _ _ fun _ _ _ hs => hs.complete _ _

theorem State.memWf.mapPages {e : List Byte} (h : s.memWf) {r : State × List Loc} (hr : s.mapPages e = some r) : r.1.memWf := by
  unfold State.mapPages at hr
  dsimp only at hr
  split at hr
  · cases hr; exact h
  · split at hr
    · cases hr; exact h
    · obtain ⟨x, hx, rfl⟩ := Option.map_eq_some_iff.1 hr
      exact h.takePages hx

theorem State.memWf.execMap (h : s.memWf) : Result.memWf (execMap s) := h.withCommand _ _ _ fun _ _ _ ht => by
  dsimp only
  split
  · exact ht.complete _ _
  · next hs => exact ((ht.mapPages hs).setTrans _ _ _ _).complete _ _

theorem State.memWf.execUnmap (h : s.memWf) : Result.memWf (execUnmap s) :=
  h.withCommand _ _ _ fun _ _ _ hs => ((hs.setTrans _ _ _ _).foldl _ fun _ _ hs_1 => hs_1.freeEntry _ _).complete _ _

theorem State.memWf.execCopyIn (h : s.memWf) : Result.memWf (execCopyIn s) := h.withCommand _ _ _ fun _ _ _ hs => by
  dsimp only
  split
  · exact (hs.foldl _ fun _ _ hs_1 => by
      split
      · exact hs_1.outsideWrite _ _ _
      · exact hs_1).modPart _
  · exact (hs.foldl _ fun _ _ hs_1 => by
      split
      · exact hs_1.outsideWrite _ _ _
      · exact hs_1).complete _ _

theorem State.memWf.noteCopyOut (h : s.memWf) (p va n : Nat) : (s.noteCopyOut p va n).memWf := by
  unfold State.noteCopyOut
  dsimp only
  split
  · exact (h.modPart _ fun _ hP => hP.sample _ _).frame
  · exact h

theorem State.memWf.execCopyOut (h : s.memWf) : Result.memWf (execCopyOut s) :=
  h.withCommand _ _ _ fun _ _ _ hs => ((hs.physWrite _ _).noteCopyOut _ _ _).complete _ _

theorem Partition.wf.newPartition (p base len wire red nrec : Nat) (ring shadow : List Nat) (hot : Bool) :
    (newPartition p base len wire red nrec ring shadow hot).wf := fun _ hT => by
  rw [List.eq_of_mem_replicate hT]
  exact .zero

theorem State.memWf.execCreatePartition (h : s.memWf) : Result.memWf (execCreatePartition s) := h.withCommand _ _ _ fun _ _ _ ht => by
  dsimp only
  split
  · exact ht.complete _ _
  · next hs => exact ((ht.takePages hs).modPart _ fun _ _ => (Partition.wf.newPartition _ _ _ _ _ _ _ _ _).frame).complete _ _

theorem State.memWf.execDestroyPartition (h : s.memWf) : Result.memWf (execDestroyPartition s) :=
  h.withCommand _ _ _ fun _ _ _ hs => (hs.destroyPart _).complete _ _

theorem State.memWf.execBindVf (h : s.memWf) : Result.memWf (execBindVf s) :=
  h.withCommand _ _ _ fun _ _ _ hs => (((hs.frame.zeroPages _ _).ite hs).modFn _ _).complete _ _

theorem State.memWf.execUnbindVf (h : s.memWf) : Result.memWf (execUnbindVf s) := h.withCommand _ _ _ fun _ _ _ hs => by
  dsimp only
  split
  · exact hs.complete _ _
  · split
    · exact hs.stopAt _ _
    · exact (hs.finishUnbind _).complete _ _

theorem State.memWf.execAttest (h : s.memWf) : Result.memWf (execAttest s) := h.withCommand _ _ _ fun _ _ _ hs => (hs.physWrite _ _).complete _ _

/-! ### The host's registers and the mailbox -/

theorem State.memWf.queueEvent (h : s.memWf) (code fn q : Nat) (detail : List Byte) : (s.queueEvent code fn q detail).memWf := h.postEvent _ _ _ _ _ _

theorem State.memWf.stopQueue (h : s.memWf) (fn q : Nat) (page : Bool) (case : Nat) : (s.stopQueue fn q page case).memWf :=
  ((((h.modQueue _ _ _).fnWrite _ _ _ _).fnWrite _ _ _ _).ite (h.modQueue _ _ _)).queueEvent _ _ _ _

theorem State.memWf.notifyQueue (h : s.memWf) (fn q : Nat) (tail : BitVec 32) : (s.notifyQueue fn q tail).memWf := by
  unfold State.notifyQueue
  dsimp only
  split
  · exact h.stopQueue _ _ _ _
  · split
    · exact h
    · split
      · exact h.stopQueue _ _ _ _
      · split
        · exact h.modQueue _ _ _
        · split
          · exact (h.modQueue _ _ _).stopQueue _ _ _ _
          · exact ((h.modQueue _ _ _).modQueue _ _ _).setPending _ _

theorem State.memWf.notify (h : s.memWf) (fn : Nat) (v : Word) (size : Nat) : (notify s fn v size).memWf := by
  unfold Machine.notify
  dsimp only
  split
  · exact h.wakeCtrls.modFn _ _
  · exact h.wakeCtrls.notifyQueue _ _ _

theorem State.memWf.execNotify (h : s.memWf) : Result.memWf (execNotify s) := by
  unfold Machine.execNotify
  split
  · exact h
  · exact h.notify _ _ _

theorem State.memWf.execQueueSlotAssign (h : s.memWf) : Result.memWf (execQueueSlotAssign s) := by
  unfold Machine.execQueueSlotAssign
  split
  · exact h
  · split
    · exact h.frame
    · split
      · exact h.frame.requestPreempt _ _
      · exact h

theorem State.memWf.execQueueStarved (h : s.memWf) : Result.memWf (execQueueStarved s) := by
  unfold Machine.execQueueStarved
  dsimp only
  split
  · exact h.frame.queueEvent _ _ _ _
  · exact h

theorem State.memWf.coalesceWrite (h : s.memWf) (fn v : Nat) (x : BitVec 32) : (coalesceWrite s fn v x).memWf := by
  unfold Machine.coalesceWrite
  dsimp only
  split
  · exact (h.modVec _ _ _).sendVec _ _
  · exact h.modVec _ _ _

theorem State.memWf.execCoalesceWrite (h : s.memWf) : Result.memWf (execCoalesceWrite s) := by
  unfold Machine.execCoalesceWrite
  split
  · exact h
  · exact h.coalesceWrite _ _ _

theorem State.memWf.execCoalesceTimeExpiry (h : s.memWf) : Result.memWf (execCoalesceTimeExpiry s) := by
  unfold Machine.execCoalesceTimeExpiry
  dsimp only
  split
  · exact h
  · split
    · exact h.sendVec _ _
    · exact h.coalesceTimer _ _ _ _

theorem State.memWf.execMsixUnmask (h : s.memWf) : Result.memWf (execMsixUnmask s) := by
  unfold Machine.execMsixUnmask
  dsimp only
  split
  · exact h
  · split
    · exact h.modVec _ _ _
    · split
      · exact (h.modVec _ _ _).sendVec _ _
      · exact h.modVec _ _ _

theorem State.memWf.mailboxGo (h : s.memWf) (last : Bool) : (mailboxGo s last).memWf := by
  unfold Machine.mailboxGo
  dsimp only
  split
  · exact h
  · split
    · exact h.bootFrame
    · split
      · exact h.bootFrame
      · exact h.bootFrame.scheduleFree _ _ _

theorem State.memWf.execMailboxChunkAppended (h : s.memWf) : Result.memWf (execMailboxChunkAppended s) := by
  have hsram (a : Nat) (bs : List Byte) : (s.modCtrl 0 fun c => { c with sram := c.sram.writeRun a bs }).memWf :=
    h.modCtrl 0 fun _ hc => Memory.wf_writeRun hc _ _
  unfold Machine.execMailboxChunkAppended
  dsimp only
  split
  · exact h
  · split
    · exact (hsram _ _).bootFrame.scheduleFree _ _ _
    · exact (hsram _ _).bootFrame

theorem State.memWf.mailboxAbort (h : s.memWf) : (mailboxAbort s).memWf := h.bootFrame

theorem State.memWf.execMailboxAbort (h : s.memWf) : Result.memWf (execMailboxAbort s) := by
  unfold Machine.execMailboxAbort
  split
  · exact h.mailboxAbort
  · exact h

theorem State.memWf.recoveryWrite (h : s.memWf) (off : Nat) (x : BitVec 32) : (recoveryWrite s off x).memWf := by
  obtain ⟨_, _, _, hmbox, _⟩ := id h
  have hcleared : (if x.getLsbD 30 then { s with boot := { s.boot with err := false } } else s).memWf := h.bootFrame.ite h
  have haborted {t : State} (ht : t.memWf) : (if x.getLsbD 3 then Machine.mailboxAbort t else t).memWf := ht.mailboxAbort.ite ht
  unfold Machine.recoveryWrite
  dsimp only
  split
  · exact h
  · split
    · split
      · exact (haborted hcleared).mailboxGo _
      · exact haborted hcleared
    · split
      · exact h.bootFrame
      · split
        · split
          · exact h.bootFrame
          · exact h.withBoot (Memory.wf_writeRun hmbox _ _)
        · exact h

theorem State.memWf.barWrite4 (h : s.memWf) (fn off : Nat) (x : BitVec 32) : (barWrite4 s fn off x).memWf := by
  unfold Machine.barWrite4
  refine h.ite (.ite ?_ ?_)
  · exact .ite (h.recoveryWrite _ _) (.ite (h.modFn _ _) (.ite (h.notify _ _ _) (.ite (h.modFn _ _) (.ite (h.frame.ite h) (.ite (h.frame.ite h)
      (.ite (h.modFn _ _) (.ite (h.coalesceWrite _ _ _) (.ite (h.monWrite4 _ _) h))))))))
  · exact .ite (h.modFn _ _) (.ite (h.notify _ _ _) (.ite (h.modFn _ _) (.ite (h.modFn _ _) (.ite (h.modFn _ _) (.ite (h.coalesceWrite _ _ _) h)))))

theorem State.memWf.barWrite (h : s.memWf) (fn off size : Nat) (v : Word) : (barWrite s fn off size v).memWf := by
  unfold Machine.barWrite
  split
  · split
    · exact h
    · exact h.notify _ _ _
  · split
    · exact (h.barWrite4 _ _ _).barWrite4 _ _ _
    · split
      · exact h.barWrite4 _ _ _
      · exact h

/-! ### Boot -/

theorem State.memWf.resetCore (h : s.memWf) : s.resetCore.memWf := by
  obtain ⟨hhbm, hhost, hflash, _⟩ := h
  obtain ⟨_, _, _, hmbox, hparts, hctrls⟩ := reset_memWf
  exact ⟨hhbm, hhost, hflash, hmbox, hparts, hctrls⟩

theorem State.memWf.recover (h : s.memWf) (cause : Byte) : (s.recover cause).memWf := h.bootFrame

theorem Ctrl.wf.startCtrl (k cyc : Nat) : (startCtrl k cyc).wf := (Ctrl.wf.zero).frame

theorem State.memWf.startPeriodic (h : s.memWf) : s.startPeriodic.memWf :=
  ((((((h.schedule _ _ _).schedule _ _ _).schedule _ _ _).schedule _ _ _).schedule _ _ _).schedule _ _ _).schedule _ _ _

theorem State.memWf.applyRecords (h : s.memWf) : s.applyRecords.memWf := by
  unfold State.applyRecords
  dsimp only
  split
  · exact h.recover _
  · exact h.bootFrame

theorem State.memWf.startFirmware (h : s.memWf) : s.startFirmware.memWf := by
  obtain ⟨hhbm, hhost, hflash, hmbox, hparts, _⟩ := h
  exact ⟨Memory.wf_writeRun hhbm _ _, hhost, hflash, hmbox, hparts, forall_wf_ofFn fun _ => Memory.wf_nil⟩

theorem State.memWf.retireChannels (h : s.memWf) (bad : List Nat) : (s.retireChannels bad).memWf := h.writeField _

theorem State.memWf.trainChannels (h : s.memWf) : s.trainChannels.memWf := by
  obtain ⟨hhbm, hhost, hflash, hmbox, hparts, hctrls⟩ := h
  have hsram (d : Fin 4) (bs : List Byte) : Ctrl.wf { s.ctrls[d] with sram := s.ctrls[d].sram.writeRun 0x3F800 bs } :=
    Memory.wf_writeRun (hctrls _ (by simp)) _ _
  unfold State.trainChannels
  dsimp only
  split
  · exact ⟨hhbm, hhost, hflash, hmbox, hparts, forall_wf_ofFn fun d => hsram d _⟩
  · refine State.memWf.retireChannels ?_ _
    exact ⟨hhbm, hhost, hflash, hmbox, hparts, forall_wf_ofFn fun d => hsram d _⟩

theorem State.memWf.bootReady (h : s.memWf) : s.bootReady.memWf := (h.bootFrame.postEvent _ _ _ _ _ _).startPeriodic

theorem State.memWf.bootStage (h : s.memWf) : s.bootStage.memWf := by
  unfold State.bootStage
  dsimp only
  split
  · exact h.bootFrame
  · exact h.bootFrame
  · exact h.bootFrame
  · split
    · exact h.bootFrame
    · exact h.bootFrame.recover _
  · exact h.applyRecords
  · exact h.startFirmware
  · exact h.trainChannels
  · exact h.bootReady
  · exact h

theorem State.memWf.execPackageReset (h : s.memWf) : Result.memWf (execPackageReset s) := by
  unfold Machine.execPackageReset
  split
  · exact h.bootStage
  · exact h.resetCore

theorem State.memWf.execMailboxImageVerified (h : s.memWf) : Result.memWf (execMailboxImageVerified s) := by
  unfold Machine.execMailboxImageVerified
  dsimp only
  split
  · exact h
  · split
    · exact (h.modCtrl _).bootFrame
    · exact h.bootFrame

theorem State.memWf.execPowerLoss (h : s.memWf) : Result.memWf (execPowerLoss s) := by
  obtain ⟨_, hhost, hflash, hmbox, hparts, hctrls⟩ := h
  refine ⟨Memory.wf_nil, hhost, ?_, hmbox, hparts, hctrls⟩
  dsimp only
  split
  · exact hflash
  · exact Memory.wf_writeRun hflash _ _

/-! ### Links -/

theorem State.memWf.linkLost (h : s.memWf) (p k : Nat) : (s.linkLost p k).memWf := by
  unfold State.linkLost
  split
  · exact h.modPart _
  · exact h.partEvent _ _ _ _

theorem State.memWf.linkFail (h : s.memWf) (k : Nat) : (linkFail s k).memWf :=
  (((h.modPort _ _).frame.writeField _).frame.ite ((h.modPort _ _).frame.writeField _)).regenerateAll.foldl _ fun _ _ hs => hs.linkLost _ _

theorem State.memWf.execPortRetrain (h : s.memWf) : Result.memWf (execPortRetrain s) := by
  unfold Machine.execPortRetrain
  dsimp only
  split
  · exact h
  · split
    · exact (h.modPort _ _).linkFail _
    · exact h.modPort _ _

theorem State.memWf.execLossOfAPackage (h : s.memWf) : Result.memWf (execLossOfAPackage s) := h.foldl _ fun _ _ hs => hs.scheduleFree _ _ _

theorem State.memWf.timingBeat (h : s.memWf) (k : Nat) (v : Word) (b : Nat) : (timingBeat s k v b).memWf := by
  unfold Machine.timingBeat
  dsimp only
  split
  · exact h
  · split
    · exact h.frame
    · exact h.frame.schedule _ _ _

theorem State.memWf.execSlewStep (h : s.memWf) : Result.memWf (execSlewStep s) := by
  unfold Machine.execSlewStep
  dsimp only
  split
  · exact h
  · split
    · split
      · exact h.frame
      · exact h.frame.schedule _ _ _
    · split
      · exact h.frame
      · exact h.frame.schedule _ _ _

theorem State.memWf.execTimingBeatSend (h : s.memWf) : Result.memWf (execTimingBeatSend s) := by
  unfold Machine.execTimingBeatSend
  dsimp only
  split
  · exact h.frame
  · exact (h.foldl _ fun _ _ hs => hs.sendFlit _ _ _ _).schedule _ _ _

theorem State.memWf.replay (h : s.memWf) (k : Nat) (seq : BitVec 18) : (s.replay k seq).memWf := h.modPort _ _

theorem State.memWf.datumFrom (h : s.memWf) (k p : Nat) (x : Nat × Nat × Byte × List Byte) : (s.datumFrom k p x).memWf := by
  unfold State.datumFrom
  dsimp only
  split
  · exact h
  · exact (h.newId.modPart _ fun _ hP => (hP.fly _).frame).schedule _ _ _

theorem State.memWf.taggedFrom (h : s.memWf) (p : Nat) (x : Nat × Nat × Nat × Byte × List Byte) : (s.taggedFrom p x).memWf := by
  unfold State.taggedFrom
  dsimp only
  split
  · exact h
  · exact (h.newId.modPart _ fun _ hP => hP.fly _).scheduleFree _ _ _

theorem State.memWf.takeFlit (h : s.memWf) (k : Nat) (f : List Byte) : (s.takeFlit k f).memWf := by
  unfold State.takeFlit
  dsimp only
  split
  · exact h.takeBarrier _ _ _
  · exact h.timingBeat _ _ _
  · split
    · exact h.datumFrom _ _ _
    · exact h
  · split
    · exact h.taggedFrom _ _
    · exact h
  · exact h.replay _ _
  · exact h

theorem State.memWf.execFlitReceived (h : s.memWf) : Result.memWf (execFlitReceived s) := by
  unfold Machine.execFlitReceived
  dsimp only
  split
  · exact h
  · split
    · exact (h.modPort _ _).takeFlit _ _
    · split
      · exact (h.modPort _ _).schedule _ _ _
      · exact h.modPort _ _

theorem State.memWf.execWidthNarrowPropose (h : s.memWf) : Result.memWf (execWidthNarrowPropose s) := by
  unfold Machine.execWidthNarrowPropose
  dsimp only
  split
  · split
    · exact h
    · exact (h.modPort _ _).schedule _ _ _
  · split
    · exact h
    · exact (h.modPort _ _).schedule _ _ _

theorem State.memWf.changeWidth (h : s.memWf) (k : Nat) : (s.changeWidth k).memWf := (h.modPort _ _).frame.schedule _ _ _

theorem State.memWf.execWidthProposalAccept (h : s.memWf) : Result.memWf (execWidthProposalAccept s) := by
  unfold Machine.execWidthProposalAccept
  dsimp only
  split
  · exact h
  · split
    · split
      · exact h
      · exact (h.modPort _ _).changeWidth _
    · split
      · exact h.changeWidth _
      · exact h

/-! ### Power and heat -/

theorem State.memWf.setPowerLimit (h : s.memWf) (w : Nat) : (s.setPowerLimit w).memWf := by
  unfold State.setPowerLimit
  dsimp only
  split
  · exact h.frame
  · exact h

theorem State.memWf.execPowerMeasure (h : s.memWf) : Result.memWf (execPowerMeasure s) := by
  unfold Machine.execPowerMeasure
  dsimp only
  split
  · exact h.setPowerLimit _
  · split
    · exact h.frame
    · exact h.frame.schedule _ _ _

theorem State.memWf.setTemp (h : s.memWf) (d t : Nat) : (s.setTemp d t).memWf := by
  unfold State.setTemp
  dsimp only
  split
  · exact h.frame
  · exact h

theorem State.memWf.execThermalStop (h : s.memWf) : Result.memWf (execThermalStop s) := by
  unfold Machine.execThermalStop
  dsimp only
  split
  · split
    · exact h.setTemp _ _
    · exact (h.setTemp _ _).frame.foldl _ fun _ _ hs => by
        split
        · exact (hs.modPart _).forceWash _ _
        · exact hs
  · exact h

theorem State.memWf.coolPart (h : s.memWf) (p : Nat) : (s.coolPart p).memWf := by
  unfold State.coolPart
  dsimp only
  split
  · split
    · exact ((h.modPart _).toRunning _).kickStops _
    · exact h.modPart _
  · exact h

theorem State.memWf.execThermalResume (h : s.memWf) : Result.memWf (execThermalResume s) := by
  unfold Machine.execThermalResume
  dsimp only
  split
  · split
    · exact h.setTemp _ _
    · exact (h.setTemp _ _).frame.foldl _ fun _ _ hs => hs.coolPart _
  · exact h

theorem State.memWf.execMonitorPeriodicSample (h : s.memWf) : Result.memWf (execMonitorPeriodicSample s) := by
  unfold Machine.execMonitorPeriodicSample
  dsimp only
  split
  · exact (h.foldl _ fun _ _ hs => hs.modPart _ fun _ hP => hP.foldl _ fun _ _ hP_1 => hP_1.sample _ _).schedule _ _ _
  · split
    · exact (h.foldl _ fun _ _ hs => hs.modPart _ fun _ hP => hP.foldl _ fun _ _ hP_1 => hP_1.sample _ _).schedule _ _ _
    · exact h

theorem State.memWf.writeLeases (h : s.memWf) (epoch : BitVec 32) (holder : BitVec 2) : (s.writeLeases epoch holder).memWf :=
  h.foldl _ fun _ _ hs => hs.setLease _ _

theorem State.memWf.execLeaseRenewal (h : s.memWf) : Result.memWf (execLeaseRenewal s) := by
  unfold Machine.execLeaseRenewal
  dsimp only
  split
  · exact (h.wakeCtrls.writeLeases _ _).schedule _ _ _
  · exact h.wakeCtrls

theorem Partition.wf.dropHost (h : P.wf) : P.dropHost.wf := h.frame

theorem State.memWf.redoCommands (h : s.memWf) : s.redoCommands.memWf := by
  refine State.memWf.foldl (h.withParts ?_) _ fun _ _ hs => hs.foldl _ fun _ _ hs => hs.setPending _ _
  exact List.forall_mem_map.2 fun P hP => Partition.wf.dropHost (h.parts P hP)

theorem State.memWf.execLeaseTakeoverAttempt (h : s.memWf) : Result.memWf (execLeaseTakeoverAttempt s) := by
  unfold Machine.execLeaseTakeoverAttempt
  dsimp only
  split
  · split
    · exact (((h.writeLeases _ _).frame.schedule _ _ _).postEvent _ _ _ _ _ _).redoCommands
    · exact h.writeLeases _ _
  · exact h

theorem State.memWf.noteCorrected (h : s.memWf) (pages : List Nat) : (s.noteCorrected pages).memWf := h.frame

theorem State.memWf.eccEvent (h : s.memWf) (p t : Nat) (cause : Cause) (vote : BitVec 2) (detail : Word) (phys : Nat) :
    (s.eccEvent p t cause vote detail phys).memWf := by
  unfold State.eccEvent
  dsimp only
  split
  · exact h.tileEvent _ _ _ _ _ _
  · exact h

theorem State.memWf.sheetErrors (h : s.memWf) : s.sheetErrors.memWf := h.foldl _ fun _ _ hs => by
  split
  · exact hs.failSheet _
  · exact hs

theorem State.memWf.eccError (h : s.memWf) : s.eccError.memWf := by
  unfold State.eccError
  dsimp only
  split
  · split
    · exact h.noteCorrected _
    · exact h.frame.sheetErrors
  · exact h.noteCorrected _
  · exact h.modPart _
  · exact h.eccEvent _ _ _ _ _ _
  · exact h.eccEvent _ _ _ _ _ _
  · exact (h.eccEvent _ _ _ _ _ _).failSheet _
  · exact h.eccEvent _ _ _ _ _ _
  · exact h

theorem State.memWf.execHbmScrub (h : s.memWf) : Result.memWf (execHbmScrub s) := by
  unfold Machine.execHbmScrub
  split
  · exact (h.noteCorrected _).schedule _ _ _
  · exact h.eccError

theorem State.memWf.retireFabric (h : s.memWf) (routers ports seqs : List Nat) : (s.retireFabric routers ports seqs).memWf :=
  (h.frame.writeField _).regenerateAll

theorem State.memWf.execPageRetire (h : s.memWf) : Result.memWf (execPageRetire s) := by
  unfold Machine.execPageRetire
  dsimp only
  split
  · split
    · exact h.retireFabric _ _ _
    · exact h
  · split
    · split
      · exact h.retireFabric _ _ _
      · exact h
    · split
      · split
        · exact h.retireFabric _ _ _
        · exact h
      · split
        · exact h
        · split
          · exact h.writeField _
          · split
            · exact h.retirePage _
            · exact h.modPart _

theorem State.memWf.execQcntAdvance (h : s.memWf) : Result.memWf (execQcntAdvance s) := (h.frame.releaseQuarantine.ite h).schedule _ _ _

theorem State.memWf.execQuantumExpiry (h : s.memWf) : Result.memWf (execQuantumExpiry s) := by
  unfold Machine.execQuantumExpiry
  split
  · exact h.requestPreempt _ _
  · exact h

/-- Every instruction and every step of the package keeps the form. -/
theorem State.memWf.exec (h : s.memWf) (i : Instr) : Result.memWf (exec i s) := by
  cases i
  case nopInstruction => exact h.finish h
  case yield => exact h.execYield
  case tsync => exact h.execTsync
  case addReg | addImm | subReg | subImm | andReg | andImm | orReg | orImm | xorReg | xorImm | shlReg | shlImm | shrReg | shrImm | sraReg | sraImm |
      mulReg | mulImm | mulhReg | mulhImm | mulhuReg | mulhuImm | divReg | divImm | divuReg | divuImm | remReg | remImm | remuReg | remuImm |
      minReg | minImm | maxReg | maxImm | minuReg | minuImm | maxuReg | maxuImm | andnReg | andnImm | ornReg | ornImm | clz | popc | movReg |
      movImm | sel | sext | zext | fclass | psave | leave => exact h.scalarOp _ _ _ _
  case cmpEqReg | cmpEqImm | cmpNeReg | cmpNeImm | cmpLtReg | cmpLtImm | cmpGeReg | cmpGeImm | cmpLtuReg | cmpLtuImm | cmpGeuReg | cmpGeuImm | pand |
      por | pxor | pnot | pmov | pset => exact h.predOp _ _ _
  case fadd | fsub | fmul | fmin | fmax | fabs | fneg | fma | fdiv | fsqrt | scvtF | ucvtF => exact h.fpOp _ _ _
  case fcmpEq | fcmpNe | fcmpLt | fcmpLe | fcmpUn => exact h.fcmp _ _ _ _
  case fcvtS | fcvtU => exact h.fcvt _ _ _ _ _
  case pload => exact h.finish (h.modHere _)
  case br | brr | ret => exact h.finishAt h _
  case call | callr => exact h.finishAt h.link _
  case loop => exact h.loopSetup _ _ _
  case lexit => exact h.execLexit _
  case enter => exact h.execEnter _
  case ldBMem | ldBAtom | ldBuMem | ldBuAtom | ldHMem | ldHAtom | ldHuMem | ldHuAtom | ldWMem | ldWAtom | ldWuMem | ldWuAtom | ldDMem | ldDAtom =>
    exact h.load _ _ _ _
  case stBMem | stBAtom | stHMem | stHAtom | stWMem | stWAtom | stDMem | stDAtom => exact h.store _ _ _
  case amoAdd | amoAnd | amoOr | amoXor | amoMin | amoMax | amoMinu | amoMaxu | cas | swap => exact h.atomic _ _ _ _ _
  case fence => exact h.execFence _ _
  case waitf | waite => exact h.tileOnly (h.ringWait _ _ _)
  case advp | advc => exact h.tileOnly (h.ringAdvance _ _ _)
  case fix | fixEnd => exact h.tileOnly (h.fixOp _ _ _ _)
  case vote => exact h.tileOnly (h.finish ((h.reportVote _).modHere _))
  case stage => exact h.execStage _ _
  case wbk => exact h.execWbk _ _ _ _ _ _
  case kwait => exact h.execKwait _
  case mwait => exact h.execMwait
  case twait => exact h.execTwait _ _
  case vadd | vsub | vmul | vmin | vmax | vabs | vneg => exact h.rowBin _ _ _ _ _
  case vfma | vcvt | mprun | expr => exact h.vec (h.rowOp _ _ _ _) _
  case vand | vor | vxor | vnot | vshl | vshr | vsra => exact h.rowRaw _ _ _ _ _
  case vcmpEq | vcmpNe | vcmpLt | vcmpLe | vcmpGt | vcmpGe => exact h.rowCmp _ _ _ _ _
  case vsel | vbcast | vbcastElement | vperm | vpermRot | vmov => exact h.rowMove _ _ _ _
  case vscan | vred => exact h.vec (h.endRow (h.writeRow _ _ _ _) _ _) _
  case vredScalar => exact h.vec (h.endRow (h.writeS _ _ _ _) _ _) _
  case vexp2 | vlog2 | vrcp | vrsq | vtanh | vsig => exact h.rowSfn _ _ _ _
  case mpdef => exact h.execMpdef _ _ _
  case mma | mldt | mzero => exact h.tileOnly (h.queued _ _ _)
  case quant => exact h.execQuant _ _ _ _ _ _ _ _
  case cpy => exact h.copyLinear _ _ _ _ _
  case cpyD => exact h.copyDesc _ _ _ _ _
  case xsync => exact h.execXsync
  case xmit => exact h.execXmit _ _ _ _ _ _
  case xsel => exact h.tileOnly (h.queueTransfer _ _ _ _ _)
  case enl => exact h.execEnl _ _ _
  case rsto => exact h.execRsto _ _ _ _ _
  case cpost => exact h.execCpost _ _ _ _ _ _
  case armInstruction | patchInstruction | postInstruction => exact h.recInstr _
  case signalInstruction => exact h.execSignalInstruction _ _ _ _ _
  case csrr => exact h.execCsrr _ _
  case csrwReg | csrwImm => exact h.csrwOp _ _
  case trap => exact h.raise _ _
  case rft => exact h.execRft
  case halt => exact h.execHalt
  case tlbi | tlbiAll => exact h.tlbiOp _ _ _
  case packageReset => exact h.execPackageReset
  case pcieHotReset => exact h.bootFrame
  case mailboxGo | mailboxLast => exact h.mailboxGo _
  case mailboxChunkAppended => exact h.execMailboxChunkAppended
  case mailboxImageVerified => exact h.execMailboxImageVerified
  case mailboxAbort => exact h.execMailboxAbort
  case registerWrite => exact h.barWrite _ _ _ _
  case notify => exact h.execNotify
  case queueSlotAssign => exact h.execQueueSlotAssign
  case queueStarved => exact h.execQueueStarved
  case nonpreemptibleLimitExpiry => exact h.execNonpreemptibleLimitExpiry
  case nop => exact h.execNop
  case writeRecord | patch | arm | post => exact h.recordCommand _ _ _ _
  case signalWait => exact h.execSignalWait
  case signalWaitPoll => exact h.execSignalWaitPoll
  case signal => exact h.execSignal
  case map => exact h.execMap
  case unmap => exact h.execUnmap
  case copyIn => exact h.execCopyIn
  case copyOut => exact h.execCopyOut
  case createPartition => exact h.execCreatePartition
  case destroyPartition => exact h.execDestroyPartition
  case bindVf => exact h.execBindVf
  case unbindVf => exact h.execUnbindVf
  case quiesceHold | quiesceSheet | quiesceRelease | quiesceRestore => exact h.quiesce _
  case sheetWriteDone => exact h.execSheetWriteDone
  case attest => exact h.execAttest
  case coalesceWrite => exact h.execCoalesceWrite
  case coalesceCountReached => exact h.countTrigger _ _
  case coalesceTimeExpiry => exact h.execCoalesceTimeExpiry
  case msixUnmask => exact h.execMsixUnmask
  case monitorSelect => exact h.execMonitorSelect
  case monitorClear => exact h.execMonitorClear
  case monitorPeriodicSample => exact h.execMonitorPeriodicSample
  case vfFunctionLevelReset => exact h.execVfFunctionLevelReset
  case pfFunctionLevelReset => exact h.execPfFunctionLevelReset
  case flitReceived => exact h.execFlitReceived
  case replayRequest => exact h.replay _ _
  case portRetrain => exact h.execPortRetrain
  case widthNarrowPropose => exact h.execWidthNarrowPropose
  case widthProposalAccept => exact h.execWidthProposalAccept
  case widthProposalLapse | widthChangeDone => exact h.modPort _ _
  case timingBeatSend => exact h.execTimingBeatSend
  case timingBeat => exact h.timingBeat _ _ _
  case slewStep => exact h.execSlewStep
  case powerMeasure => exact h.execPowerMeasure
  case thermalThrottle => exact h.setTemp _ _
  case thermalStop => exact h.execThermalStop
  case thermalResume => exact h.execThermalResume
  case leaseRenewal => exact h.execLeaseRenewal
  case leaseTakeoverAttempt => exact h.execLeaseTakeoverAttempt
  case hbmScrub => exact h.execHbmScrub
  case pageRetire => exact h.execPageRetire
  case qcntAdvance => exact h.execQcntAdvance
  case dispatch => exact h.execDispatch
  case extentBuildDone => exact h.execExtentBuildDone
  case lineArrival => exact h.lineArrives _ _ _
  case blockingWaitDone => exact h.execBlockingWaitDone
  case exchangeBarrier => exact h.raiseBarrier _ _
  case exchangeRelease => exact h.releaseTile _ _
  case xmitSlot => exact h.sendDatum _
  case datumLanded => exact h.landDatum _ _
  case xselSlot => exact h.takeSlot _
  case reductionStream => exact h.streamTile _ _
  case reductionDone => exact h.reductionDone _ _
  case enlTransfer => exact h.enlTransfer _
  case enlComplete => exact h.enlComplete _
  case tileVote => exact h.tileVote _ _
  case barrierCombine => exact h.barrierCombine _
  case releaseArrival => exact h.execReleaseArrival
  case flip => exact h.flip _
  case washLimitHalt => exact h.execWashLimitHalt
  case leadReset => exact h.execLeadReset
  case writeBehindDrainDone => exact h.execWriteBehindDrainDone
  case launchComplete => exact h.execLaunchComplete
  case watchdog => exact h.execWatchdog
  case preemptBoundExpiry => exact h.execPreemptBoundExpiry
  case quiesceBoundExpiry => exact h.execQuiesceBoundExpiry
  case quantumExpiry => exact h.execQuantumExpiry
  case tileSaved => exact h.tileSaved _ _ _
  case copyComplete => exact h.completeCopy _
  case matrixCommandChosen => exact h.chooseMatrix _ _
  case matrixCommandComplete => exact h.completeMatrix _
  case quantComplete => exact h.completeQuant _
  case wbkComplete => exact h.completeWbk _
  case signalComplete => exact h.completeSignal _
  case hchTrainWrite => exact h.trainWrite _ _
  case trainEffective => exact h.trainEffective _
  case patternTestStart => exact h.patternStart _
  case patternTestDone => exact h.patternDone _
  case hchRdall | hchWrall => exact h.modChan _ _
  case outsideWrite => exact h.outsideWrite _ _ _
  case powerLoss => exact h.execPowerLoss
  case lossOfAPackage => exact h.execLossOfAPackage
  case spillCopyBackDone => exact h.execSpillCopyBackDone
  case engineSlotDelivered => exact h.engineSlot _
  case resumeFromSaveArea => exact h.execResumeFromSaveArea

/-! ### Steps -/

theorem State.memWf.dueEvent (h : s.memWf) {t : State} {ev : Instr} (e : s.dueEvent = some (t, ev)) : t.memWf := by
  unfold State.dueEvent at e
  split at e
  · cases e; exact h.frame
  · obtain ⟨r, _, hr⟩ := Option.map_eq_some_iff.1 e
    cases hr
    exact h.frame

theorem State.memWf.dueSlot (h : s.memWf) {t : State} {ev : Instr} (e : s.dueSlot = some (t, ev)) : t.memWf := by
  obtain ⟨r, _, hr⟩ := Option.map_eq_some_iff.1 e
  cases hr
  exact h.frame

theorem State.memWf.backOut (h : s.memWf) {t : State} (e : s.backOut = some t) : t.memWf := by
  unfold State.backOut at e
  split at e
  · cases e
  · obtain ⟨u, _, e⟩ := Option.bind_eq_some_iff.1 e
    split at e
    · cases e
    · cases e; exact (h.modHere _).landThread _ _ _

/-- What the issue of a unit comes to is in canonical form. -/
def Issued.memWf : Issued → Prop
  | .settled t | .runs t _ => t.memWf

theorem Issued.memWf.ite {x y : Issued} (hx : x.memWf) (hy : y.memWf) {c : Prop} {_ : Decidable c} : (if c then x else y).memWf := by
  split
  · exact hx
  · exact hy

theorem State.memWf.issue (h : s.memWf) (a : Agent) (i : Nat) : (s.issue a i).memWf := by
  unfold State.issue
  extract_lets t la u bare took bad k
  have hu : u.memWf := h.frame
  clear_value u
  have hnoted {v : State} (hv : v.memWf) (cyc : Nat) (sw : Bool) : (v.modHereTile fun T => T.noteIssue i cyc sw).memWf :=
    hv.modHereTile fun _ hT => hT.noteIssue _ _ _
  have hbad (c : Cause) (dT dR : Word) : (bad c dT dR).memWf := by
    dsimp only [bad]
    split
    · next hb => exact (hnoted (hu.backOut hb) _ _).raise _ _
    · exact (hnoted (hu.modHere _) _ _).noteBegan.raise _ _
  have htook : (took u).memWf := hnoted hu _ _
  clear_value bad took
  split
  · exact h.bringLine _ _
  · split
    · exact htook.heldFault _ _ _
    · split
      · split
        · exact hbad _ _ _
        · exact hu
      · split
        · exact hbad _ _ _
        · extract_lets r first next gov u1 u2
          refine Issued.memWf.ite (hbad _ _ _) (Issued.memWf.ite (x := .settled u) hu ?_)
          have hunit : u2.memWf := (hnoted (hu.modHere _) _ _).noteBack.noteBegan
          clear_value u2
          split
          · exact hunit.raise _ _
          · exact hunit.raise _ _
          · split
            · split
              · exact hunit.waitLine _ _ _
              · exact hunit
            · split
              · exact hunit.raise _ _
              · exact hunit.finish hunit

/-- A step from memories in canonical form answers such a state. -/
theorem State.memWf.step (h : s.memWf) : Result.memWf (step s) := by
  unfold Machine.step
  split
  · split
    · split
      · exact State.memWf.exec h.frame _
      · exact h.frame
    · split
      · trivial
      · exact h.frame
  · split
    · exact State.memWf.exec h.frame _
    · split
      · next hev => exact (h.dueEvent hev).exec _
      · split
        · exact State.memWf.exec h.frame _
        · split
          · have hissue := h.issue
            split
            · next hi => exact (congrArg Issued.memWf hi).mp (hissue _ _)
            · next hi => exact State.memWf.exec ((congrArg Issued.memWf hi).mp (hissue _ _)) _
          · split
            · next hev => exact (h.dueSlot hev).exec _
            · exact h.tick

end

end Sys2Proof.Machine

namespace Sys2Proof.Proofs

open Sys2Proof Sys2Proof.Machine Sys2Proof.Claims

/-- Settles O57: every operation that a step can come to keeps the form. -/
theorem memoriesStayCanonical : Obligations.MemoriesStayCanonical := fun _ _ h hstep => h.step.of_next hstep

end Sys2Proof.Proofs
end

section
/-!
PROOF of O25: what the landing of a thread's writes does to it and to others (spec/05 R92).
-/

-- One lemma at a time: none holds a thread while the ones before it are checked.
set_option Elab.async false

namespace Sys2Proof.Machine

/-! ### Threads that stand beside the one that changes -/

/-- A thread stands in the state. -/
def State.Has (s : State) (a : Agent) (i : Nat) : Prop :=
  match a with
  | .tile p k => p < s.parts.length ∧ k < (s.part p).tiles.length ∧ i < (s.tile p k).threads.length
  | .ctrl d => d < 4

theorem State.has_iff (s : State) (a : Agent) (i : Nat) : s.Has a i ↔ State.Here { s with cur := ⟨a, i⟩ } = true := by
  cases a with
  | tile p k => simp only [State.Has, State.Here, Bool.and_eq_true, decide_eq_true_eq, and_assoc]; rfl
  | ctrl d => simp only [State.Has, State.Here, decide_eq_true_eq]

/-- Two numbers of a thread and its agent name one thread; a controller has one. -/
def sameThread (a : Agent) (i : Nat) (b : Agent) (j : Nat) : Prop :=
  a = b ∧ match a with
    | .tile .. => i = j
    | .ctrl _ => True

/-- The cycle and package time (R2). -/
def State.clock (s : State) : Nat × Word := (s.cycle, s.ptime)

/-- Every thread but one is as it was, and those that stand do so still. -/
structure State.Beside (b : Agent) (j : Nat) (s t : State) : Prop where
  clock : t.clock = s.clock
  has : ∀ a i, s.Has a i → t.Has a i
  thread : ∀ a i, ¬ sameThread a i b j → t.thread a i = s.thread a i

/-- Every thread is as it was. -/
structure State.SameThreads (s t : State) : Prop where
  clock : t.clock = s.clock
  has : ∀ a i, s.Has a i → t.Has a i
  thread : ∀ a i, t.thread a i = s.thread a i

theorem State.Beside.refl (b : Agent) (j : Nat) (s : State) : State.Beside b j s s := ⟨rfl, fun _ _ h => h, fun _ _ _ => rfl⟩

theorem State.Beside.trans {b : Agent} {j : Nat} {s t u : State} (h1 : State.Beside b j s t) (h2 : State.Beside b j t u) : State.Beside b j s u :=
  ⟨h2.clock.trans h1.clock, fun a i h => h2.has a i (h1.has a i h), fun a i h => (h2.thread a i h).trans (h1.thread a i h)⟩

theorem State.SameThreads.beside {s t : State} (h : s.SameThreads t) (b : Agent) (j : Nat) : State.Beside b j s t := ⟨h.clock, h.has, fun a i _ => h.thread a i⟩

theorem State.SameThreads.refl (s : State) : s.SameThreads s := ⟨rfl, fun _ _ h => h, fun _ _ => rfl⟩

theorem State.tile_modTile_ne (s : State) {p k q l : Nat} (F : Tile → Tile) (h : ¬ (p = q ∧ k = l)) : (s.modTile q l F).tile p k = s.tile p k := by
  by_cases hp : p = q
  · have hk : k ≠ l := fun e => h ⟨hp, e⟩
    exact s.modPart_keeps (fun P => P.tile k) (fun P => P.modTile l F) (fun P => P.tile_modTile_ne F hk) q p
  · exact congrArg (Partition.tile · k) (s.part_modPart_ne _ hp)

/-- A change of a tile that keeps its number of threads leaves each thread standing. -/
theorem State.has_modTile (s : State) (q l : Nat) (F : Tile → Tile) (hF : ∀ T, (F T).threads.length = T.threads.length) (a : Agent) (i : Nat)
    (h : s.Has a i) : (s.modTile q l F).Has a i := by
  cases a with
  | ctrl d => exact h
  | tile p k =>
    obtain ⟨hp, hk, hi⟩ := h
    refine ⟨?_, ?_, ?_⟩
    · rw [State.modTile, s.length_parts_modPart]
      exact hp
    · exact hk.trans_eq (s.modPart_keeps (fun P => P.tiles.length) _ (fun P => P.length_tiles_modTile l F) q p).symm
    · exact hi.trans_eq (s.modTile_keeps (fun T => T.threads.length) F hF q l p k).symm

/-- A change of a tile beside its threads. -/
theorem State.sameThreads_modTile (s : State) (q l : Nat) (F : Tile → Tile) (hF : ∀ T, (F T).threads = T.threads) : s.SameThreads (s.modTile q l F) := by
  refine ⟨rfl, s.has_modTile q l F fun T => congrArg List.length (hF T), fun a i => ?_⟩
  cases a with
  | ctrl d => rfl
  | tile p k => exact s.modTile_keeps (fun T => T.thread i) F (fun T => by rw [Tile.thread, hF]; rfl) q l p k

theorem State.sameThreads_modPart (s : State) (q : Nat) (F : Partition → Partition) (hF : ∀ P, (F P).tiles = P.tiles) : s.SameThreads (s.modPart q F) := by
  have htile (p k : Nat) : (s.modPart q F).tile p k = s.tile p k := s.tile_modPart_of_tiles q F hF p k
  refine ⟨rfl, fun a i h => ?_, fun a i => ?_⟩ <;> cases a with
  | ctrl d => first | exact h | rfl
  | tile p k => first
    | exact ⟨by rw [s.length_parts_modPart]; exact h.1, by rw [s.modPart_keeps (fun P => P.tiles.length) F (fun P => by rw [hF]) q p]; exact h.2.1,
        by rw [htile]; exact h.2.2⟩
    | exact congrArg (Tile.thread · i) (htile p k)

/-- A change of one thread. -/
theorem State.beside_modThread (s : State) (b : Agent) (j : Nat) (f : Thread → Thread) : State.Beside b j s (s.modThread b j f) := by
  cases b with
  | tile q l =>
    refine ⟨rfl, s.has_modTile q l _ fun T => List.length_modify _ _ _, fun a i h => ?_⟩
    cases a with
    | ctrl d => rfl
    | tile p k =>
      by_cases hpk : p = q ∧ k = l
      · obtain ⟨rfl, rfl⟩ := hpk
        have hi : i ≠ j := fun e => h ⟨rfl, e⟩
        exact s.modTile_keeps (fun T => T.thread i) (fun T => T.modThread j f) (fun T => getD_modify_ne _ _ _ _ _ hi) p k p k
      · exact congrArg (Tile.thread · i) (s.tile_modTile_ne _ hpk)
  | ctrl e =>
    by_cases he : e < 4
    · have hx : s.modThread (.ctrl e) j f = { s with ctrls := s.ctrls.set e { s.ctrls[e] with th := f s.ctrls[e].th } } := dif_pos he
      rw [hx]
      refine ⟨rfl, fun a i h => h, fun a i h => ?_⟩
      cases a with
      | tile p k => rfl
      | ctrl d =>
        have hd : d ≠ e := fun x => h ⟨congrArg Agent.ctrl x, trivial⟩
        exact congrArg Ctrl.th ((vector_getD_set _ _ _ _ _ he).trans (if_neg hd))
    · have hx : s.modThread (.ctrl e) j f = s := dif_neg he
      rw [hx]
      exact .refl _ _ _

/-- What a change of a thread makes of it. -/
theorem State.thread_modThread (s : State) {a : Agent} {i : Nat} (h : s.Has a i) (f : Thread → Thread) : (s.modThread a i f).thread a i = f (s.thread a i) := by
  have hh := State.here_modHere { s with cur := ⟨a, i⟩ } ((s.has_iff a i).1 h) f
  cases a with
  | tile p k => exact hh
  | ctrl d =>
    have hx : s.modThread (.ctrl d) i f = { s with ctrls := s.ctrls.set d { s.ctrls[d]'h with th := f (s.ctrls[d]'h).th } } := dif_pos h
    rw [hx]
    exact (congrArg Ctrl.th ((vector_getD_set _ _ _ _ _ h).trans (if_pos rfl))).trans (congrArg (fun c : Ctrl => f c.th) (vector_getD _ _ _ h).symm)

/-! ### Control registers that land (R318) -/

theorem Tile.threads_writeFmt (T : Tile) (k : Nat) (v : Word) : (T.writeFmt k v).threads = T.threads := by
  refine foldl_keeps Tile.threads _ (fun T i => ?_) _ T
  dsimp only
  split
  · split <;> rfl
  · rfl

theorem State.sameThreads_beginBuild (s : State) (p t k : Nat) : s.SameThreads (s.beginBuild p t k) := by
  obtain ⟨hc, hh, ht⟩ := s.sameThreads_modTile p t (fun T => { T with building := true, build := s.fresh }) fun _ => rfl
  exact ⟨hc, hh, ht⟩

theorem State.sameThreads_writeFlp (s : State) (p t : Nat) (a : Option Addr) (n : Option Nat) : s.SameThreads (s.writeFlp p t a n) := by
  obtain ⟨hc, hh, ht⟩ := s.sameThreads_modTile p t (fun T => { T with flpa := a.getD T.flpa, flpn := n.getD T.flpn }) fun _ => rfl
  obtain ⟨hc', hh', ht'⟩ := State.sameThreads_beginBuild (s.modTile p t fun T => { T with flpa := a.getD T.flpa, flpn := n.getD T.flpn }) p t 0
  exact ⟨hc'.trans hc, fun b i h => hh' b i (hh b i h), fun b i => (ht' b i).trans (ht b i)⟩

/-- A write of a control register is one of the thread's own, or changes no thread. -/
theorem csrWrite_cases (s : State) (a : Agent) (i : Nat) (n : BitVec 12) (v : Word) :
    csrWrite s a i n v = s.modThread a i (fun t => t.csrSet n.toNat v) ∨ s.SameThreads (csrWrite s a i n v) := by
  cases a with
  | ctrl d => exact .inl rfl
  | tile p t =>
    unfold csrWrite
    dsimp only
    split
    · exact .inr (s.sameThreads_writeFlp _ _ _ _)
    split
    · exact .inr (s.sameThreads_writeFlp _ _ _ _)
    split
    · exact .inr (s.sameThreads_modTile _ _ _ fun _ => rfl)
    split
    · exact .inr (s.sameThreads_modTile _ _ _ fun T => T.threads_writeFmt _ _)
    split
    · right
      split
      · exact s.sameThreads_modTile _ _ _ fun _ => rfl
      · exact .refl s
    split
    · exact .inr (s.sameThreads_modPart _ _ fun _ => rfl)
    · exact .inl rfl

/-- A thread keeps everything but the control registers that a `csrw` may write. -/
def Thread.CsrFrame (u v : Thread) : Prop :=
  v = { u with ct := v.ct, slim := v.slim, oob := v.oob, drop := v.drop, clamp := v.clamp, fflag := v.fflag, lrerr := v.lrerr, lb := v.lb, le := v.le, lc := v.lc,
               tvec := v.tvec, tepc := v.tepc, tpfx := v.tpfx }

theorem Thread.CsrFrame.dite {u : Thread} {c : Prop} [Decidable c] {a : c → Thread} {b : ¬ c → Thread} (ha : ∀ h, u.CsrFrame (a h)) (hb : ∀ h, u.CsrFrame (b h)) :
    u.CsrFrame (if h : c then a h else b h) := by
  split
  · exact ha _
  · exact hb _

theorem Thread.CsrFrame.ite {u a b : Thread} {c : Prop} [Decidable c] (ha : u.CsrFrame a) (hb : u.CsrFrame b) : u.CsrFrame (if c then a else b) :=
  .dite (fun _ => ha) fun _ => hb

theorem Thread.csrFrame_csrSet (t : Thread) (k : Nat) (v : Word) : t.CsrFrame (t.csrSet k v) :=
  .ite rfl <| .ite rfl <| .ite (.ite rfl rfl) <| .ite rfl <| .ite rfl <| .ite rfl <| .dite (fun _ => rfl) fun _ => .dite (fun _ => rfl) fun _ =>
    .dite (fun _ => rfl) fun _ => .ite rfl <| .ite rfl <| .ite rfl rfl

/-- A write of a thread's own control register keeps its registers, predicates and pending writes. -/
theorem Thread.csrSet_keeps (t : Thread) (k : Nat) (v : Word) :
    (t.csrSet k v).regs = t.regs ∧ (t.csrSet k v).preds = t.preds ∧ (t.csrSet k v).pend = t.pend := by
  rw [t.csrFrame_csrSet k v]
  exact ⟨rfl, rfl, rfl⟩

/-! ### A write that lands (R92, R137) -/

/-- A pending write of the thread `t` lands in `u`. -/
structure Thread.Lands (x : Pend) (t u : Thread) : Prop where
  pend : u.pend = t.pend.erase x
  sreg : ∀ r, u.sreg r = if x.dest = .s r then (if r = 0 then 0 else x.val) else t.sreg r
  preg : ∀ p, u.preg p = if x.dest = .p p then (if p = 0 then true else x.val != 0) else t.preg p
  fflag : (∀ n, x.dest ≠ .csr n) → u.fflag = t.fflag ||| x.flags

theorem Thread.sreg_setP (t : Thread) (d : Preg) (v : Bool) (r : Sreg) : (t.setP d v).sreg r = t.sreg r := by
  unfold Thread.setP
  split <;> rfl

theorem Thread.preg_setS (t : Thread) (d : Sreg) (v : Word) (p : Preg) : (t.setS d v).preg p = t.preg p := by
  unfold Thread.setS
  split <;> rfl

theorem Thread.setS_keeps (t : Thread) (d : Sreg) (v : Word) : (t.setS d v).pend = t.pend ∧ (t.setS d v).fflag = t.fflag := by
  unfold Thread.setS
  split <;> exact ⟨rfl, rfl⟩

theorem Thread.setP_keeps (t : Thread) (d : Preg) (v : Bool) : (t.setP d v).pend = t.pend ∧ (t.setP d v).fflag = t.fflag := by
  unfold Thread.setP
  split <;> exact ⟨rfl, rfl⟩

/-- A thread before its write `x` reaches its destination: the write is no longer pending, and its flags are set. -/
def Thread.taken (t : Thread) (x : Pend) : Thread := { t with pend := t.pend.erase x, fflag := t.fflag ||| x.flags }

theorem Thread.lands_s (t : Thread) {x : Pend} {d : Sreg} (h : x.dest = .s d) : t.Lands x ((t.taken x).setS d x.val) := by
  obtain ⟨hp, hf⟩ := (t.taken x).setS_keeps d x.val
  refine ⟨hp, fun r => ?_, fun p => ?_, fun _ => hf⟩
  · rw [Thread.sreg_setS, h]
    by_cases hr : d = r
    · subst hr
      by_cases h0 : d = 0
      · simp [h0, Thread.sreg]
      · simp [h0]
    · rw [if_neg fun e => hr e.1.symm, if_neg fun e => hr (Dest.s.inj e)]
      rfl
  · rw [Thread.preg_setS, if_neg (by simp [h])]
    rfl

theorem Thread.lands_p (t : Thread) {x : Pend} {d : Preg} (h : x.dest = .p d) : t.Lands x ((t.taken x).setP d (x.val != 0)) := by
  obtain ⟨hp, hf⟩ := (t.taken x).setP_keeps d (x.val != 0)
  refine ⟨hp, fun r => ?_, fun p => ?_, fun _ => hf⟩
  · rw [Thread.sreg_setP, if_neg (by simp [h])]
    rfl
  · rw [Thread.preg_setP, h]
    by_cases hr : d = p
    · subst hr
      by_cases h0 : d = 0
      · simp [h0, Thread.preg]
      · simp [h0]
    · rw [if_neg fun e => hr e.1.symm, if_neg fun e => hr (Dest.p.inj e)]
      rfl

/-- A write that lands beside the registers and predicates. -/
theorem Thread.lands_beside {t u : Thread} {x : Pend} (hs : ∀ d, x.dest ≠ .s d) (hp : ∀ d, x.dest ≠ .p d) (hpend : u.pend = t.pend.erase x)
    (hregs : u.regs = t.regs) (hpreds : u.preds = t.preds) (hf : (∀ n, x.dest ≠ .csr n) → u.fflag = t.fflag ||| x.flags) : t.Lands x u :=
  ⟨hpend, fun r => by rw [if_neg (hs r), Thread.sreg, hregs, Thread.sreg], fun p => by rw [if_neg (hp p), Thread.preg, hpreds, Thread.preg], hf⟩

/-- The state in which a pending write of a thread is about to reach its destination. -/
theorem State.taken_spec (s : State) (a : Agent) (i : Nat) (x : Pend) :
    let t := (s.modThread a i fun t => { t with pend := t.pend.erase x }).modThread a i fun t => t.orFlags x.flags
    State.Beside a i s t ∧ (s.Has a i → t.thread a i = (s.thread a i).taken x) := by
  have h1 := s.beside_modThread a i fun t => { t with pend := t.pend.erase x }
  have h2 := State.beside_modThread (s.modThread a i fun t => { t with pend := t.pend.erase x }) a i fun t => t.orFlags x.flags
  refine ⟨h1.trans h2, fun h => ?_⟩
  rw [State.thread_modThread _ (h1.has a i h), s.thread_modThread h]
  rfl

theorem Tile.threads_writeLatent (T : Tile) (b : Buf) (w : WRec) : (T.writeLatent b w).threads = T.threads := by
  unfold Tile.writeLatent
  dsimp only
  split <;> rfl

theorem State.sameThreads_bufWrite (s : State) (p t : Nat) (b : Buf) (w : WRec) : s.SameThreads (s.bufWrite p t b w) := by
  obtain ⟨hc, hh, ht⟩ := s.sameThreads_modTile p t (fun T => T.writeLatent b w) fun T => T.threads_writeLatent b w
  exact ⟨hc, hh, ht⟩

/-- What a write does as it lands, beside its thread and to it. -/
theorem lands_applyPend (s : State) (a : Agent) (i : Nat) (x : Pend) :
    let t := applyPend a i (s.modThread a i fun t => { t with pend := t.pend.erase x }) x
    State.Beside a i s t ∧ (s.Has a i → (s.thread a i).Lands x (t.thread a i)) := by
  obtain ⟨hbeside, htaken⟩ := s.taken_spec a i x
  unfold applyPend
  dsimp only
  generalize ((s.modThread a i fun t => { t with pend := t.pend.erase x }).modThread a i fun t => t.orFlags x.flags) = t at hbeside htaken ⊢
  have hmod (f : Thread → Thread) : State.Beside a i s (t.modThread a i f) ∧ (s.Has a i → (t.modThread a i f).thread a i = f ((s.thread a i).taken x)) :=
    ⟨hbeside.trans (t.beside_modThread a i f), fun h => by rw [t.thread_modThread (hbeside.has a i h), htaken h]⟩
  have hsame {u : State} (h : t.SameThreads u) : State.Beside a i s u ∧ (s.Has a i → u.thread a i = (s.thread a i).taken x) :=
    ⟨hbeside.trans (h.beside a i), fun hs => by rw [h.thread, htaken hs]⟩
  cases hd : x.dest with
  | s r =>
    obtain ⟨hb, ht⟩ := hmod fun t => t.setS r x.val
    exact ⟨hb, fun h => (ht h).symm ▸ Thread.lands_s _ hd⟩
  | p r =>
    obtain ⟨hb, ht⟩ := hmod fun t => t.setP r (x.val != 0)
    exact ⟨hb, fun h => (ht h).symm ▸ Thread.lands_p _ hd⟩
  | csr n =>
    have hcsr (u : Thread) (hf : ∀ m, x.dest ≠ .csr m) : u.fflag = (s.thread a i).fflag ||| x.flags := absurd hd (hf n)
    rcases csrWrite_cases t a i n x.val with he | h
    · obtain ⟨hb, ht⟩ := hmod fun t => t.csrSet n.toNat x.val
      obtain ⟨hregs, hpreds, hpend⟩ := ((s.thread a i).taken x).csrSet_keeps n.toNat x.val
      dsimp only
      rw [he]
      exact ⟨hb, fun h => (ht h).symm ▸ Thread.lands_beside (by simp [hd]) (by simp [hd]) hpend hregs hpreds (hcsr _)⟩
    · obtain ⟨hb, ht⟩ := hsame h
      exact ⟨hb, fun h => (ht h).symm ▸ Thread.lands_beside (by simp [hd]) (by simp [hd]) rfl rfl rfl (hcsr _)⟩
  | row w =>
    have hrow {u : State} (h : t.SameThreads u) : State.Beside a i s u ∧ (s.Has a i → (s.thread a i).Lands x (u.thread a i)) := by
      obtain ⟨hb, ht⟩ := hsame h
      exact ⟨hb, fun h => (ht h).symm ▸ Thread.lands_beside (by simp [hd]) (by simp [hd]) rfl rfl rfl fun _ => rfl⟩
    cases a with
    | tile p k => exact hrow (t.sameThreads_bufWrite _ _ _ _)
    | ctrl d => exact hrow (.refl t)

/-- The pending writes of `l` land in turn. -/
structure Thread.LandsAll (l : List Pend) (t u : Thread) : Prop where
  pend : u.pend = l.foldl List.erase t.pend
  sreg : ∀ r, u.sreg r = (l.filter fun x => decide (x.dest = .s r)).getLast?.elim (t.sreg r) fun x => if r = 0 then 0 else x.val
  preg : ∀ p, u.preg p = (l.filter fun x => decide (x.dest = .p p)).getLast?.elim (t.preg p) fun x => if p = 0 then true else x.val != 0
  fflag : (∀ x ∈ l, ∀ n, x.dest ≠ .csr n) → u.fflag = l.foldl (fun f x => f ||| x.flags) t.fflag

/-- The last of a list that a condition chooses, where a first element is put before it. -/
theorem elim_getLast?_filter_cons {α β : Type} (q : α → Bool) (x : α) (l : List α) (b : β) (f : α → β) :
    ((x :: l).filter q).getLast?.elim b f = (l.filter q).getLast?.elim (if q x = true then f x else b) f := by
  rw [List.filter_cons]
  split
  · rw [List.getLast?_cons]
    cases (l.filter q).getLast? <;> rfl
  · rfl

theorem Thread.LandsAll.cons {x : Pend} {l : List Pend} {t u v : Thread} (hl : u.LandsAll l v) (h : t.Lands x u) : t.LandsAll (x :: l) v := by
  refine ⟨?_, fun r => ?_, fun p => ?_, fun hc => ?_⟩
  · rw [hl.pend, h.pend]
    rfl
  · rw [hl.sreg, h.sreg, elim_getLast?_filter_cons]
    simp only [decide_eq_true_eq]
  · rw [hl.preg, h.preg, elim_getLast?_filter_cons]
    simp only [decide_eq_true_eq]
  · rw [hl.fflag fun y hy => hc y (List.mem_cons_of_mem _ hy), h.fflag (hc x List.mem_cons_self)]
    rfl

/-- Each write of a list lands in its thread, and no other thread changes. -/
theorem landsAll_foldl (a : Agent) (i : Nat) (l : List Pend) (s : State) :
    let t := l.foldl (fun s x => applyPend a i (s.modThread a i fun t => { t with pend := t.pend.erase x }) x) s
    State.Beside a i s t ∧ (s.Has a i → (s.thread a i).LandsAll l (t.thread a i)) := by
  induction l generalizing s with
  | nil => exact ⟨.refl _ _ _, fun _ => ⟨rfl, fun _ => rfl, fun _ => rfl, fun _ => rfl⟩⟩
  | cons x l ih =>
    obtain ⟨hbeside, hx⟩ := lands_applyPend s a i x
    obtain ⟨hbeside', hl⟩ := ih _
    exact ⟨hbeside.trans hbeside', fun h => (hl (hbeside.has a i h)).cons (hx h)⟩

theorem foldl_erase_cons_of_not_mem {α : Type} [BEq α] [LawfulBEq α] {x : α} (l ys : List α) (h : x ∉ ys) :
    ys.foldl List.erase (x :: l) = x :: ys.foldl List.erase l := by
  induction ys generalizing l with
  | nil => rfl
  | cons y ys ih =>
    obtain ⟨hxy, hys⟩ := not_or.1 (List.mem_cons.not.1 h)
    rw [List.foldl_cons, List.foldl_cons, List.erase_cons_tail (by simpa using hxy)]
    exact ih _ hys

/-- What a condition chooses of a list, taken out of it one by one, leaves what it does not choose. -/
theorem foldl_erase_filter {α : Type} [BEq α] [LawfulBEq α] (q : α → Bool) (l : List α) : (l.filter q).foldl List.erase l = l.filter fun x => !q x := by
  induction l with
  | nil => rfl
  | cons x l ih =>
    by_cases hx : q x = true
    · rw [List.filter_cons_of_pos hx, List.foldl_cons, List.erase_cons_head, ih, List.filter_cons_of_neg (by simp [hx])]
    · have hnot : x ∉ l.filter q := fun hm => hx (List.of_mem_filter hm)
      rw [List.filter_cons_of_neg hx, foldl_erase_cons_of_not_mem _ _ hnot, ih, List.filter_cons_of_pos (by simpa using hx)]

/-! ### The end of a cycle (R92) -/

/-- One thread's writes land at the end of a cycle. -/
def State.landsAt (s : State) (a : Agent) (i : Nat) : State := if (s.thread a i).pend = [] then s else landThread s a i s.cycle

/-- The writes of a thread that are due at the end of a cycle. -/
def Thread.dueAt (t : Thread) (c : Nat) : List Pend := t.pend.filter fun x => decide (x.land ≤ c)

theorem State.landsAt_spec (s : State) (a : Agent) (i : Nat) :
    State.Beside a i s (s.landsAt a i) ∧ (s.Has a i → (s.thread a i).LandsAll ((s.thread a i).dueAt s.cycle) ((s.landsAt a i).thread a i)) := by
  unfold State.landsAt
  split
  · next hp =>
    rw [show (s.thread a i).dueAt s.cycle = [] by rw [Thread.dueAt, hp]; rfl]
    exact ⟨.refl _ _ _, fun _ => ⟨rfl, fun _ => rfl, fun _ => rfl, fun _ => rfl⟩⟩
  · exact landsAll_foldl a i _ s

/-- A fold over all numbers below n of which the k-th step alone leads from P to Q. -/
theorem foldl_range_once {σ : Type} (f : σ → Nat → σ) {n k : Nat} (hk : k < n) (P Q : σ → Prop) (hP : ∀ s j, j ≠ k → P s → P (f s j))
    (hPQ : ∀ s, P s → Q (f s k)) (hQ : ∀ s j, j ≠ k → Q s → Q (f s j)) {s : σ} (h : P s) : Q ((List.range n).foldl f s) := by
  obtain ⟨l, m, hl⟩ := List.append_of_mem (List.mem_range.2 hk)
  have hnd : (l ++ k :: m).Nodup := hl ▸ List.nodup_range
  obtain ⟨-, hm, hlm⟩ := List.nodup_append.1 hnd
  rw [hl, List.foldl_append, List.foldl_cons]
  refine List.foldlRecOn m f (hPQ _ (List.foldlRecOn l f h fun t ht j hj => hP t j ?_ ht)) fun t ht j hj => hQ t j ?_ ht
  · exact hlm j hj k List.mem_cons_self
  · rintro rfl
    exact (List.nodup_cons.1 hm).1 hj

/-- The threads of a state that a thread's landing has not reached yet. -/
structure State.Before (s : State) (a : Agent) (i : Nat) (t : State) : Prop where
  has : t.Has a i
  clock : t.clock = s.clock
  thread : t.thread a i = s.thread a i

/-- A state in which a thread's writes of `s` have landed. -/
structure State.After (s : State) (a : Agent) (i : Nat) (t : State) : Prop where
  has : t.Has a i
  clock : t.clock = s.clock
  lands : (s.thread a i).LandsAll ((s.thread a i).dueAt s.cycle) (t.thread a i)

theorem State.Before.cycle {s t : State} {a : Agent} {i : Nat} (h : s.Before a i t) : t.cycle = s.cycle := congrArg Prod.fst h.clock

section
variable {s t u : State} {a b : Agent} {i j : Nat}

theorem State.Before.beside (h : s.Before a i t) (hb : State.Beside b j t u) (hne : ¬ sameThread a i b j) : s.Before a i u :=
  ⟨hb.has a i h.has, hb.clock.trans h.clock, (hb.thread a i hne).trans h.thread⟩

theorem State.After.beside (h : s.After a i t) (hb : State.Beside b j t u) (hne : ¬ sameThread a i b j) : s.After a i u :=
  ⟨hb.has a i h.has, hb.clock.trans h.clock, (hb.thread a i hne).symm ▸ h.lands⟩

theorem State.Before.landsAt (h : s.Before a i t) : s.After a i (t.landsAt a i) := by
  obtain ⟨hb, hl⟩ := t.landsAt_spec a i
  refine ⟨hb.has a i h.has, hb.clock.trans h.clock, ?_⟩
  rw [← h.thread, ← h.cycle]
  exact hl h.has

end

/-- Every thread's writes land: those of the tiles, and then those of the controllers. -/
def State.landTiles (s : State) : State :=
  (List.range s.parts.length).foldl (fun s p => (List.range (s.part p).tiles.length).foldl (fun s k =>
    (List.range (s.tile p k).threads.length).foldl (fun s i => s.landsAt (.tile p k) i) s) s) s

def State.landCtrls (s : State) : State := (List.range 4).foldl (fun s d => s.landsAt (.ctrl d) 0) s

theorem State.tick_eq (s : State) : s.tick =
    { s.landTiles.landCtrls.sendPorts with cycle := s.landTiles.landCtrls.sendPorts.cycle + 1, ptime := s.landTiles.landCtrls.sendPorts.ptime + 1, visited := 0 } := rfl

/-- A fold of landings keeps what each of them keeps. -/
theorem State.landTiles_keeps (P : State → Prop) (hP : ∀ t p k i, P t → P (t.landsAt (.tile p k) i)) {s : State} (h : P s) : P s.landTiles :=
  foldl_kept P _ (fun _ p ht => foldl_kept P _ (fun _ k ht => foldl_kept P _ (fun t i ht => hP t p k i ht) _ _ ht) _ _ ht) _ s h

theorem State.landCtrls_keeps (P : State → Prop) (hP : ∀ t d, P t → P (t.landsAt (.ctrl d) 0)) {s : State} (h : P s) : P s.landCtrls :=
  foldl_kept P _ hP _ s h

/-- The writes of each thread that stands land once in the cycle. -/
theorem State.after_landTiles (s : State) {p k i : Nat} (h : s.Has (.tile p k) i) : s.After (.tile p k) i s.landTiles := by
  obtain ⟨hp, -, -⟩ := id h
  have hne {q l j : Nat} (hq : ¬ (p = q ∧ k = l ∧ i = j)) : ¬ sameThread (.tile p k) i (.tile q l) j := by
    rintro ⟨e, hij⟩
    cases e
    exact hq ⟨rfl, rfl, hij⟩
  have hP {q l j : Nat} (hq : ¬ (p = q ∧ k = l ∧ i = j)) (t : State) (ht : s.Before (.tile p k) i t) : s.Before (.tile p k) i (t.landsAt (.tile q l) j) :=
    ht.beside (t.landsAt_spec _ _).1 (hne hq)
  have hQ {q l j : Nat} (hq : ¬ (p = q ∧ k = l ∧ i = j)) (t : State) (ht : s.After (.tile p k) i t) : s.After (.tile p k) i (t.landsAt (.tile q l) j) :=
    ht.beside (t.landsAt_spec _ _).1 (hne hq)
  refine foldl_range_once _ hp (s.Before (.tile p k) i) (s.After (.tile p k) i) (fun t q hq ht => ?_) (fun t ht => ?_) (fun t q hq ht => ?_) ⟨h, rfl, rfl⟩
  · exact foldl_kept _ _ (fun t l ht => foldl_kept _ _ (fun t j ht => hP (fun e => hq e.1.symm) t ht) _ _ ht) _ _ ht
  · refine foldl_range_once _ ht.has.2.1 (s.Before (.tile p k) i) (s.After (.tile p k) i) (fun t l hl ht => ?_) (fun t ht => ?_) (fun t l hl ht => ?_) ht
    · exact foldl_kept _ _ (fun t j ht => hP (fun e => hl e.2.1.symm) t ht) _ _ ht
    · exact foldl_range_once _ ht.has.2.2 _ _ (fun t j hj ht => hP (fun e => hj e.2.2.symm) t ht) (fun t ht => ht.landsAt) (fun t j hj ht => hQ (fun e => hj e.2.2.symm) t ht) ht
    · exact foldl_kept _ _ (fun t j ht => hQ (fun e => hl e.2.1.symm) t ht) _ _ ht
  · exact foldl_kept _ _ (fun t l ht => foldl_kept _ _ (fun t j ht => hQ (fun e => hq e.1.symm) t ht) _ _ ht) _ _ ht

theorem State.after_landCtrls {s t : State} {d i : Nat} (h : s.Before (.ctrl d) i t) : s.After (.ctrl d) i t.landCtrls := by
  have hd : d < 4 := h.has
  have hne {e : Nat} (he : e ≠ d) : ¬ sameThread (.ctrl d) i (.ctrl e) 0 := fun x => he (Agent.ctrl.inj x.1).symm
  exact foldl_range_once _ hd (s.Before (.ctrl d) i) (s.After (.ctrl d) i) (fun t e he ht => State.Before.beside ht (t.landsAt_spec _ _).1 (hne he)) (fun t ht => State.Before.landsAt (i := i) ht)
    (fun t e he ht => State.After.beside ht (t.landsAt_spec _ _).1 (hne he)) h

/-- At the end of a cycle the writes of a thread that are due have landed. -/
theorem State.after_landed (s : State) {a : Agent} {i : Nat} (h : s.Has a i) : s.After a i s.landTiles.landCtrls := by
  cases a with
  | tile p k =>
    refine State.landCtrls_keeps _ (fun t d ht => ?_) (s.after_landTiles h)
    exact State.After.beside ht (t.landsAt_spec _ _).1 fun e => nomatch e.1
  | ctrl d =>
    refine State.after_landCtrls (State.landTiles_keeps _ (fun t p k j ht => ?_) ⟨h, rfl, rfl⟩)
    exact State.Before.beside ht (t.landsAt_spec _ _).1 fun e => nomatch e.1

theorem State.thread_sendPorts (s : State) (a : Agent) (i : Nat) : s.sendPorts.thread a i = s.thread a i := by
  unfold State.sendPorts
  split <;> rfl

theorem State.sendPorts_times (s : State) : s.sendPorts.cycle = s.cycle ∧ s.sendPorts.ptime = s.ptime := by
  unfold State.sendPorts
  split <;> exact ⟨rfl, rfl⟩

end Sys2Proof.Machine

namespace Sys2Proof.Proofs

open Sys2Proof Sys2Proof.Machine Sys2Proof.Claims

theorem pendingWritesLandAtTheEndOfTheirCycle : PendingWritesLandAtTheEndOfTheirCycle := by
  intro s a i h
  extract_lets u v due
  obtain ⟨-, hclock, hl⟩ := s.after_landed ((s.has_iff a i).2 h)
  obtain ⟨hcycle, hptime⟩ := s.landTiles.landCtrls.sendPorts_times
  have hv : v = s.landTiles.landCtrls.thread a i := s.landTiles.landCtrls.thread_sendPorts a i
  rw [← hv] at hl
  have hchosen (q : Pend → Bool) : (u.pend.filter due).filter q = u.pend.filter fun x => due x && q x := by
    rw [List.filter_filter]
    exact List.filter_congr fun x _ => Bool.and_comm _ _
  refine ⟨?_, fun r => ?_, fun p => ?_, fun hc => ?_, ?_, ?_⟩
  · exact hl.pend.trans (foldl_erase_filter due u.pend)
  · rw [hl.sreg r, ← hchosen]
    change Option.elim ((u.pend.filter due).filter _).getLast? _ _ = _
    cases ((u.pend.filter due).filter fun x => decide (x.dest = .s r)).getLast? <;> rfl
  · rw [hl.preg p, ← hchosen]
    change Option.elim ((u.pend.filter due).filter _).getLast? _ _ = _
    cases ((u.pend.filter due).filter fun x => decide (x.dest = .p p)).getLast? <;> rfl
  · exact hl.fflag fun x hx => hc x (List.mem_of_mem_filter hx)
  · exact congrArg (· + 1) (hcycle.trans (congrArg Prod.fst hclock))
  · exact congrArg (· + 1) (hptime.trans (congrArg Prod.snd hclock))

end Sys2Proof.Proofs
end

section
/-!
PROOF of O25, continued: what a fence does to its thread, at once or before it waits (spec/06 R124; spec/13 R252).
-/

-- One lemma at a time: none holds a thread while the ones before it are checked.
set_option Elab.async false

namespace Sys2Proof.Machine

open Sys2Proof.Claims

/-! ### What happens before a thread (R124) -/

theorem mem_joinHb {a b : List Nat} {y : Nat} : y ∈ joinHb a b ↔ y ∈ a ∨ y ∈ b := by
  simp only [joinHb, List.mem_append, List.mem_filter, Bool.not_eq_true', List.contains_iff_mem, Bool.eq_false_iff, ne_eq]
  tauto

theorem mem_foldl_joinHb {l : List Tag} {h : List Nat} {y : Nat} : y ∈ l.foldl (fun h g => joinHb g.hb h) h ↔ y ∈ h ∨ ∃ g ∈ l, y ∈ g.hb := by
  induction l generalizing h with
  | nil => simp
  | cons g l ih =>
    rw [List.foldl_cons, ih, mem_joinHb]
    simp only [List.mem_cons, exists_eq_or_imp]
    tauto

/-- A release that an acquire at a scope follows (R124): its value was read, and the two scopes cover each other. -/
def Tag.Followed (g : Tag) (me : Agent) (i : Nat) (c : Scope) : Prop :=
  covers g.scope g.src g.th me i = true ∧ covers c me i g.src g.th = true ∧ g.held ≠ []

theorem Thread.mem_hb_acquire {t : Thread} {cyc : Nat} {me : Agent} {i : Nat} {c : Scope} {gs : List Tag} {y : Nat} :
    y ∈ (t.acquire cyc me i c gs).hb ↔ y ∈ t.hb ∨ ∃ g ∈ gs, g.Followed me i c ∧ y ∈ g.hb := by
  have hb : (t.acquire cyc me i c gs).hb = (gs.filter fun g => (covers g.scope g.src g.th me i && covers c me i g.src g.th) && decide (g.held ≠ [])).foldl
      (fun h g => joinHb g.hb h) t.hb := by
    unfold Thread.acquire
    dsimp only
    split <;> rfl
  rw [hb, mem_foldl_joinHb]
  simp only [List.mem_filter, Bool.and_eq_true, decide_eq_true_eq, Tag.Followed, and_assoc]

theorem Thread.mem_hb_acquires {cyc : Nat} {me : Agent} {i : Nat} {c : Scope} {l : List (List Tag)} {t : Thread} {y : Nat} :
    y ∈ (l.foldl (fun t gs => t.acquire cyc me i c gs) t).hb ↔ y ∈ t.hb ∨ ∃ gs ∈ l, ∃ g ∈ gs, g.Followed me i c ∧ y ∈ g.hb := by
  induction l generalizing t with
  | nil => simp
  | cons gs l ih =>
    rw [List.foldl_cons, ih, mem_hb_acquire, or_assoc]
    simp only [List.mem_cons, exists_eq_or_imp]

theorem Thread.clamp_acquire (t : Thread) (cyc : Nat) (me : Agent) (i : Nat) (c : Scope) (gs : List Tag) : (t.acquire cyc me i c gs).clamp = t.clamp := by
  unfold Thread.acquire
  dsimp only
  split <;> rfl

/-! ### Fences (R252) -/

/-- A thread after the acquire side of a fence. -/
def State.fenceAcquired (s : State) (o : Order) (sc : Scope) (t : Thread) : Thread :=
  if Order.acqSide o then (t.noteClamp s.cycle sc).seen.foldl (fun u gs => u.acquire s.cycle s.cur.agent s.cur.th (t.clampScope sc) gs) (t.noteClamp s.cycle sc)
  else t.noteClamp s.cycle sc

theorem State.fenceOn_acquired (s : State) (o : Order) (sc : Scope) (t : Thread) : (s.fenceOn o sc t).hb = (s.fenceAcquired o sc t).hb ∧
    (s.fenceOn o sc t).clamp = (s.fenceAcquired o sc t).clamp ∧ (Order.relSide o = true → (t.clampScope sc, (s.fenceOn o sc t).hb) ∈ (s.fenceOn o sc t).relF) := by
  change (if Order.relSide o = true then _ else _ : Thread).hb = _ ∧ (if Order.relSide o = true then _ else _ : Thread).clamp = _ ∧
    (_ → (_, (if Order.relSide o = true then _ else _ : Thread).hb) ∈ (if Order.relSide o = true then _ else _ : Thread).relF)
  split
  · exact ⟨rfl, rfl, fun _ => List.mem_cons_self⟩
  · next h => exact ⟨rfl, rfl, fun e => absurd e h⟩

theorem Thread.noteClamp_keeps (t : Thread) (cyc : Nat) (sc : Scope) : (t.noteClamp cyc sc).hb = t.hb ∧ (t.noteClamp cyc sc).seen = t.seen := by
  unfold Thread.noteClamp
  split <;> exact ⟨rfl, rfl⟩

theorem State.mem_hb_fenceOn {s : State} {o : Order} {sc : Scope} {t : Thread} {y : Nat} : y ∈ (s.fenceOn o sc t).hb ↔
    y ∈ t.hb ∨ Order.acqSide o = true ∧ ∃ gs ∈ t.seen, ∃ g ∈ gs, g.Followed s.cur.agent s.cur.th (t.clampScope sc) ∧ y ∈ g.hb := by
  obtain ⟨hhb, hseen⟩ := t.noteClamp_keeps s.cycle sc
  rw [(s.fenceOn_acquired o sc t).1, State.fenceAcquired]
  split
  · next h => rw [Thread.mem_hb_acquires, hhb, hseen, h]; simp
  · next h => rw [hhb]; simp [h]

theorem State.clamp_fenceOn (s : State) (o : Order) (sc : Scope) (t : Thread) :
    (s.fenceOn o sc t).clamp = if t.ceil.code.toNat < sc.code.toNat then true else t.clamp := by
  have hclamp : (t.noteClamp s.cycle sc).clamp = if t.ceil.code.toNat < sc.code.toNat then true else t.clamp := by
    unfold Thread.noteClamp scopeRank
    split <;> rfl
  rw [(s.fenceOn_acquired o sc t).2.1, State.fenceAcquired, ← hclamp]
  split
  · exact foldl_keeps Thread.clamp _ (fun u gs => u.clamp_acquire _ _ _ _ gs) _ _
  · rfl

/-- A fence's pending writes are those of its thread, but for clears of sticky bits that it sets. -/
theorem State.kept_fenceOn (s : State) (o : Order) (sc : Scope) (t : Thread) : Kept s.cycle t.pend (s.fenceOn o sc t).pend := by
  obtain ⟨u, rs, ⟨-, hkept, -⟩, he⟩ := Sys2Proof.Machine.fenceOn_eq s o sc t
  rw [he]
  exact hkept

/-- A thread with no write to land has none when its unit ends. -/
theorem State.leftPend_nil (s : State) : s.leftPend [] = [] := by
  simp [State.leftPend, dropCounts, giveWay]

/-- A fence whose thread has writes to land waits for the last of them. -/
def State.fenceWaits (s : State) (o : Order) (sc : Scope) : State :=
  ((s.modHere (s.fenceOn o sc)).block (.result none 0)).schedule (s.here.lastLand s.cycle + 1 - s.cycle) .blockingWaitDone
    { agent := s.cur.agent, th := s.cur.th, op := s.cycle }

theorem exec_fence (s : State) (o : Order) (sc : Scope) : exec (.fence o sc) s = .next (if s.here.pend = [] then s.finish (s.modHere (s.fenceOn o sc)) else
    s.orHold (s.fenceWaits o sc)) := rfl

theorem State.here_fenceWaits {s : State} (hs : s.Here = true) (o : Order) (sc : Scope) :
    (s.fenceWaits o sc).here = { s.fenceOn o sc s.here with wait := .result none 0, waitFrom := s.cycle } := by
  have hblock : (s.fenceWaits o sc).here = ((s.modHere (s.fenceOn o sc)).block (.result none 0)).here := rfl
  rw [hblock, State.block, State.here_modHere _ ((s.modHere_Here _).trans hs), State.here_modHere _ hs, State.modHere_cycle]

end Sys2Proof.Machine

namespace Sys2Proof.Proofs

open Sys2Proof Sys2Proof.Machine Sys2Proof.Claims

theorem fencesWaitForTheThread : FencesWaitForTheThread := by
  intro s o sc hs
  obtain ⟨hr, hp, hlb, hle, hlc⟩ := fenceOn_keeps s o sc s.here
  -- what the fence leaves of its thread decides all clauses on happens-before, wherever its thread goes on
  have horder {t : State} (hhb : t.here.hb = (s.fenceOn o sc s.here).hb) (hrel : t.here.relF = (s.fenceOn o sc s.here).relF)
      (hclamp : t.here.clamp = (s.fenceOn o sc s.here).clamp) :
      ((o = .acq ∨ o = .ar) → ∀ gs ∈ s.here.seen, ∀ g ∈ gs, g.held ≠ [] → covers g.scope g.src g.th s.cur.agent s.cur.th = true →
        covers (s.here.clampScope sc) s.cur.agent s.cur.th g.src g.th = true → ∀ y ∈ g.hb, y ∈ t.here.hb) ∧
      (∀ y ∈ s.here.hb, y ∈ t.here.hb) ∧ ((o = .rel ∨ o = .ar) → (s.here.clampScope sc, t.here.hb) ∈ t.here.relF) ∧
      (sc.code.toNat ≤ s.here.ceil.code.toNat → t.here.clamp = s.here.clamp) ∧ (s.here.ceil.code.toNat < sc.code.toNat → t.here.clamp = true) := by
    rw [hhb, hrel, hclamp, s.clamp_fenceOn]
    refine ⟨fun ho gs hgs g hg hheld h1 h2 y hy => ?_, fun y hy => State.mem_hb_fenceOn.2 (.inl hy), fun ho => ?_, fun h => if_neg (by omega), fun h => if_pos h⟩
    · exact State.mem_hb_fenceOn.2 (.inr ⟨by simpa [Order.acqSide] using ho, gs, hgs, g, hg, ⟨h1, h2, hheld⟩, hy⟩)
    · exact (s.fenceOn_acquired o sc s.here).2.2 (by simpa [Order.relSide] using ho)
  refine ⟨fun hpend => ?_, fun h => ?_⟩
  · exact holdsItsReturn_of_orHold (t := s.fenceWaits o sc) hs ((exec_fence s o sc).trans (congrArg _ (if_neg hpend)))
  by_cases hpend : s.here.pend = []
  · rw [if_pos hpend] at h
    have hhere := s.here_endedBy hs (s.fenceOn o sc) none
    obtain ⟨honly, hended⟩ := s.endedBy_spec hs (s.fenceOn o sc) none
    refine ⟨s.endedBy (s.fenceOn o sc) none, ?_, honly.2, State.sameRegs_of ?_ ?_, fun _ => ⟨honly, hended, ?_⟩, fun hne => absurd hpend hne, horder ?_ ?_ ?_⟩
    · rw [exec_fence, if_pos hpend, State.finish, s.finishAt_modHere hs _ _ ⟨hlb, hle, hlc⟩ (State.endsLegally_eq h)]
    · rw [hhere]; exact hr
    · rw [hhere]; exact hp
    · have hnil : (s.fenceOn o sc s.here).pend = [] := List.forall₂_nil_left_iff.1 (hpend ▸ s.kept_fenceOn o sc s.here)
      rw [hhere, hnil]
      exact s.leftPend_nil
    all_goals rw [hhere]
  · rw [if_neg hpend] at h
    have hhere := State.here_fenceWaits hs o sc
    refine ⟨s.fenceWaits o sc, ?_, ?_, State.sameRegs_of ?_ ?_, fun he => absurd he hpend, fun _ => ⟨?_, ?_, ?_⟩, horder ?_ ?_ ?_⟩
    · rw [exec_fence, if_neg hpend, State.orHold_none _ _ h]
    · exact (s.sameBytes_modHere _).trans (State.sameBytes_modHere _ _)
    · rw [hhere]; exact hr
    · rw [hhere]; exact hp
    · rw [hhere]
    · rw [hhere]; exact s.kept_fenceOn o sc s.here
    · simp only [State.fenceWaits, State.schedule, State.block, State.modHere_agenda, State.modHere_cycle]
    all_goals rw [hhere]

/-- Settles O25: a fence's effect on its thread at both of its ends, and the landing of each thread's writes once in the end of a cycle. -/
theorem fencesAndLandingWrites : Obligations.FencesAndLandingWrites := ⟨fencesWaitForTheThread, pendingWritesLandAtTheEndOfTheirCycle⟩

end Sys2Proof.Proofs
end

section
/-!
SUPPORT. The end of a unit whose effect goes beyond its thread, and changes of the current tile beside its threads.
-/

-- One lemma at a time: none holds a thread while the ones before it are checked.
set_option Elab.async false

namespace Sys2Proof.Machine

open Sys2Proof.Claims

/-! ### The end of a unit (R93, R241) -/

/-- A thread, its unit's effect done, as the end of the unit in `s` leaves it. -/
def State.ends (s : State) (taken : Option Addr) (u : Thread) : Thread :=
  { u with lc := s.loops.1.lc, pend := s.leftPend u.pend, pc := (taken.or s.loops.2).getD s.here.unit.next, wait := .ready
           readyAt := s.nextIssue (taken.or s.loops.2).isSome }

/-- A unit whose effect leaves the loop registers as they were, and whose transfer or loop return is legal, ends. -/
theorem State.finishAt_of {s u : State} {taken : Option Addr} (hc : u.cycle = s.cycle)
    (hloop : u.here.lb = s.here.lb ∧ u.here.le = s.here.le ∧ u.here.lc = s.here.lc) (hl : ((taken.or s.loops.2).bind (targetFault s s.cur.agent)) = none) :
    s.finishAt u taken = u.modHere (s.ends taken) := by
  obtain ⟨hlb, hle, hlc⟩ := hloop
  obtain ⟨hback, hcount⟩ := loopEnd_congr s.here.unit.addr s.here u.here hlb hle hlc
  have hl' : ((taken.or (loopEnd s.here.unit.addr s.here).2).bind fun a => (targetFault s s.cur.agent a).map fun r => (a, r)) = none := by
    unfold State.loops at hl
    cases hx : taken.or (loopEnd s.here.unit.addr s.here).2 with
    | none => rfl
    | some a => rw [hx] at hl; simpa using hl
  unfold State.finishAt
  dsimp only
  rw [hback, hcount, hlc, hc, hl']
  exact (u.modHere_const (s.ends taken)).symm

theorem State.finish_of {s u : State} (hc : u.cycle = s.cycle) (hloop : u.here.lb = s.here.lb ∧ u.here.le = s.here.le ∧ u.here.lc = s.here.lc)
    (hl : s.endsLegally = true) : s.finish u = u.modHere (s.ends none) := State.finishAt_of hc hloop (State.endsLegally_eq hl)

theorem State.ended_of_here {s t : State} {taken : Option Addr} {u : Thread} (h : t.here = s.ends taken u) : s.Ended t taken := by
  unfold State.Ended
  rw [h]
  exact ⟨rfl, rfl, rfl, rfl⟩

/-! ### Changes beside the threads -/

theorem State.SameThreads.here {s t : State} (h : s.SameThreads t) (hcur : t.cur = s.cur) : t.here = s.here := by
  rw [State.here, hcur]
  exact h.thread _ _

theorem State.SameThreads.Here {s t : State} (h : s.SameThreads t) (hcur : t.cur = s.cur) (hs : s.Here = true) : t.Here = true := by
  have hh := h.has s.cur.agent s.cur.th ((s.has_iff _ _).2 hs)
  rw [← hcur] at hh
  exact (t.has_iff _ _).1 hh

/-- A thread that stands on a tile names a tile. -/
theorem State.tile_of_Here {s : State} {p k : Nat} (hs : s.Here = true) (ha : s.cur.agent = .tile p k) : k < (s.part p).tiles.length := by
  have hh := (s.has_iff s.cur.agent s.cur.th).2 hs
  rw [ha] at hh
  exact hh.2.1

theorem State.hereTile_of {s : State} {p k : Nat} (ha : s.cur.agent = .tile p k) : s.hereTile = s.tile p k := by
  unfold State.hereTile
  rw [ha]

theorem State.modHereTile_of {s : State} {p k : Nat} (ha : s.cur.agent = .tile p k) (F : Tile → Tile) : s.modHereTile F = s.modTile p k F := by
  unfold State.modHereTile
  rw [ha]

/-- An instruction of tiles outside firmware mode (R222). -/
theorem State.tileOnly_of {s : State} (h : s.here.mode ≠ .firmware) (k : State) : s.tileOnly k = k := if_neg h

end Sys2Proof.Machine
end

section
/-!
PROOF of O26: ring waits and advances (spec/05 R105, R106; spec/13 R253, R255).
-/

-- One lemma at a time: none holds a thread while the ones before it are checked.
set_option Elab.async false

namespace Sys2Proof.Machine

open Sys2Proof.Claims

theorem Ring.unused_iff (r : Ring) : r.unused = true ↔ r.space = 0 := by
  simp [Ring.unused]

theorem ringDetail_eq (h : Hnd) (fn : Nat) (hfn : fn < 4) (n : Word) : ringDetail h fn n = ringWord h fn n := by
  have hlow : (BitVec.ofNat 64 (fn * 16 + h.val)).toNat = fn * 16 + h.val := by rw [BitVec.toNat_ofNat]; omega
  have hhigh : ((n &&& 0xFFFFFFFF) <<< 32).toNat = 2 ^ 32 * (n.toNat % 2 ^ 32) := by
    rw [BitVec.toNat_shiftLeft, BitVec.toNat_and, show (0xFFFFFFFF : Word).toNat = 2 ^ 32 - 1 from rfl, Nat.and_two_pow_sub_one_eq_mod, Nat.shiftLeft_eq]
    omega
  apply BitVec.eq_of_toNat_eq
  rw [ringWord, BitVec.toNat_or, hlow, hhigh, ← Nat.two_pow_add_eq_or_of_lt (by omega), ringDetail, BitVec.toNat_ofNat]
  omega

/-- A thread that has acquired what a ring carries (R255). -/
def Thread.follow (hb : List Nat) (t : Thread) : Thread := { t with hb := joinHb hb t.hb }

/-- What a ring wait that holds does before it ends: an acquire unless its count is zero, and a sample of a monitor. -/
def State.ringTaken (s : State) (h : Hnd) (n : Word) : State := (if n = 0 then s else s.ringAcquire h).noteRingWait 0

theorem State.noteRingWait_eq (s : State) {p k : Nat} (ha : s.cur.agent = .tile p k) (n : Nat) : s.noteRingWait n = s.modPart p fun P => P.sample 5 n := by
  unfold State.noteRingWait State.hereP
  rw [ha]

theorem State.ringTaken_spec {s : State} {p k : Nat} (ha : s.cur.agent = .tile p k) (hs : s.Here = true) (h : Hnd) (n : Word) :
    let u := s.ringTaken h n
    u.here = (if n = 0 then s.here else s.here.follow (s.tile p k).ringHb[h]) ∧ u.Here = true ∧ u.cycle = s.cycle ∧ s.SameBytes u ∧
      (u.tile p k).rings = (s.tile p k).rings := by
  obtain ⟨v, hv, hcur, hhere, hH, hcyc, hbytes, hrings⟩ : ∃ v, (if n = 0 then s else s.ringAcquire h) = v ∧ v.cur = s.cur ∧
      v.here = (if n = 0 then s.here else s.here.follow (s.tile p k).ringHb[h]) ∧ v.Here = true ∧ v.cycle = s.cycle ∧ s.SameBytes v ∧
      (v.tile p k).rings = (s.tile p k).rings := by
    by_cases hn : n = 0
    · simp only [hn, if_true]
      exact ⟨s, rfl, rfl, rfl, hs, rfl, .refl s, rfl⟩
    · have he : s.ringAcquire h = s.modHere (Thread.follow (s.tile p k).ringHb[h]) := by
        unfold State.ringAcquire
        rw [State.hereTile_of ha]
        rfl
      simp only [hn, if_false]
      rw [he]
      exact ⟨_, rfl, s.modHere_cur _, s.here_modHere hs _, (s.modHere_Here _).trans hs, s.modHere_cycle _, s.sameBytes_modHere _,
        s.modHere_tile_keeps Tile.rings (fun _ _ _ => rfl) _ p k⟩
  have hsame := v.sameThreads_modPart p (fun P => P.sample 5 0) fun _ => rfl
  dsimp only
  rw [State.ringTaken, hv, v.noteRingWait_eq (hcur ▸ ha)]
  exact ⟨(hsame.here rfl).trans hhere, hsame.Here rfl hH, hcyc, hbytes.trans (v.sameBytes_modPart_of_tiles p _ fun _ => rfl),
    (congrArg Tile.rings (v.tile_modPart_sample p 5 0 p k)).trans hrings⟩

/-- What an advance does before it ends. -/
def State.ringMoved (s : State) (prod : Bool) (h : Hnd) (n : Word) : State :=
  if n = 0 then s else s.modHereTile fun T => T.advance h prod n.toNat s.here.hb

theorem Ring.advance_zero (r : Ring) (prod : Bool) : r.advance prod 0 = r := by
  cases prod <;> simp [Ring.advance]

theorem State.ringMoved_spec {s : State} {p k : Nat} (ha : s.cur.agent = .tile p k) (hs : s.Here = true) (prod : Bool) (h : Hnd) (n : Word) :
    let u := s.ringMoved prod h n
    u.here = s.here ∧ u.Here = true ∧ u.cycle = s.cycle ∧ s.SameBytes u ∧
      (u.tile p k).rings = (s.tile p k).rings.set h.val ((s.tile p k).rings[h].advance prod n.toNat) ∧
      (u.tile p k).ringHb = if n = 0 then (s.tile p k).ringHb else (s.tile p k).ringHb.set h.val (joinHb s.here.hb (s.tile p k).ringHb[h]) := by
  dsimp only
  by_cases hn : n = 0
  · subst hn
    refine ⟨rfl, hs, rfl, .refl s, ?_, rfl⟩
    simp [State.ringMoved, Ring.advance_zero]
  · have he : s.ringMoved prod h n = s.modTile p k fun T => T.advance h prod n.toNat s.here.hb := (if_neg hn).trans (State.modHereTile_of ha _)
    have hsame := s.sameThreads_modTile p k (fun T => T.advance h prod n.toNat s.here.hb) fun _ => rfl
    have htile := s.tile_modTile p k (fun T => T.advance h prod n.toNat s.here.hb) (State.tile_of_Here hs ha)
    rw [he, htile, if_neg hn]
    exact ⟨hsame.here rfl, hsame.Here rfl hs, rfl, State.sameBytes_of rfl (s.bufs_modTile p k _ fun _ => rfl), rfl, rfl⟩

theorem exec_ringWait {s : State} (h : s.here.mode ≠ .firmware) (full : Bool) (g : Hnd) (a : Sreg) (imm : Word) :
    exec (if full then .waitf g a imm else .waite g a imm) s = .next (s.ringWait full g (s.sr a + imm)) := by
  cases full <;> exact congrArg Host.Outcome.next (State.tileOnly_of h _)

theorem exec_ringAdvance {s : State} (h : s.here.mode ≠ .firmware) (prod : Bool) (g : Hnd) (a : Sreg) (imm : Word) :
    exec (if prod then .advp g a imm else .advc g a imm) s = .next (s.ringAdvance prod g (s.sr a + imm)) := by
  cases prod <;> exact congrArg Host.Outcome.next (State.tileOnly_of h _)

/-- What a unit leaves whose effect on its thread is on what happens before its accesses. -/
theorem State.orderFrame_finish {s u : State} {hb : List Nat} (hl : s.endsLegally = true) (hhere : u.here = { s.here with hb := hb }) (hH : u.Here = true)
    (hcyc : u.cycle = s.cycle) : s.SameRegs (s.finish u) ∧ s.Ended (s.finish u) none ∧ OrderFrame s (s.finish u) ∧ (s.finish u).here.hb = hb := by
  have hfin : s.finish u = u.modHere (s.ends none) := State.finish_of hcyc (by rw [hhere]; exact ⟨rfl, rfl, rfl⟩) hl
  have ht : (s.finish u).here = s.ends none { s.here with hb := hb } := by rw [hfin, u.here_modHere hH, hhere]
  refine ⟨State.sameRegs_of (by rw [ht]; rfl) (by rw [ht]; rfl), State.ended_of_here ht, ?_, by rw [ht]; rfl⟩
  unfold OrderFrame
  rw [ht]
  rfl

theorem State.finish_eq_of_here {s u : State} {hb : List Nat} (hl : s.endsLegally = true) (hhere : u.here = { s.here with hb := hb })
    (hcyc : u.cycle = s.cycle) : s.finish u = u.modHere (s.ends none) := State.finish_of hcyc (by rw [hhere]; exact ⟨rfl, rfl, rfl⟩) hl

end Sys2Proof.Machine

namespace Sys2Proof.Proofs

open Sys2Proof Sys2Proof.Machine Sys2Proof.Claims

theorem ringWaitsTestTheCount : RingWaitsTestTheCount := by
  intro s p k h a imm full ha hs hm
  extract_lets i r n
  have hexec : exec i s = .next (s.ringWait full h n) := exec_ringWait hm full h a imm
  have hring : s.hereTile.ring h = r := congrArg (·.ring h) (State.hereTile_of ha)
  have hbad : r.badWait n = true ↔ r.space = 0 ∨ r.count.toNat + 1 < n.toNat := by
    rw [Ring.badWait, Bool.or_eq_true, Ring.unused_iff, decide_eq_true_iff, Ring.slots]
  have hholds : r.holds full n = true ↔ n.toNat ≤ if full then filled r else free r := decide_eq_true_iff
  unfold State.ringWait at hexec
  dsimp only at hexec
  rw [hring] at hexec
  refine ⟨fun hx => ?_, fun hsp hn hc hl => ?_, fun hsp hn hc => ?_⟩
  · rw [if_pos (hbad.2 hx), ringDetail_eq] at hexec
    · exact hexec
    · cases full <;> decide
  · have hgood : ¬ r.badWait n = true := fun e => (hbad.1 e).elim hsp (by omega)
    rw [if_neg hgood, if_pos (hholds.2 hc)] at hexec
    obtain ⟨hhere, hH, hcyc, hbytes, hrings⟩ := State.ringTaken_spec ha hs h n
    have hhb : (s.ringTaken h n).here = { s.here with hb := if n = 0 then s.here.hb else joinHb (s.tile p k).ringHb[h] s.here.hb } := by
      rw [hhere]
      split <;> rfl
    obtain ⟨hregs, hended, hframe, hb⟩ := State.orderFrame_finish hl hhb hH hcyc
    have hfin := State.finish_eq_of_here hl hhb hcyc
    refine ⟨s.finish (s.ringTaken h n), hexec, ?_, hregs, hended, hframe, ?_, fun hn0 x hx => ?_, fun hn0 => ?_⟩
    · rw [hfin]
      exact hbytes.trans (State.sameBytes_modHere _ _)
    · rw [hfin]
      exact (State.modHere_tile_keeps Tile.rings (fun _ _ _ => rfl) _ _ p k).trans hrings
    · rw [hb, if_neg hn0]
      exact mem_joinHb.2 (.inl hx)
    · rw [hb, if_pos hn0]
  · have hgood : ¬ r.badWait n = true := fun e => (hbad.1 e).elim hsp (by omega)
    rw [if_neg hgood, if_neg (fun e => absurd (hholds.1 e) (by omega))] at hexec
    exact ⟨_, hexec, s.onlyThread_modHere hs _, s.here_modHere hs _⟩

theorem ringAdvancesMoveOnePointer : RingAdvancesMoveOnePointer := by
  intro s p k h a imm prod ha hs hm
  extract_lets i r n
  have hexec : exec i s = .next (s.ringAdvance prod h n) := exec_ringAdvance hm prod h a imm
  have hring : s.hereTile.ring h = r := congrArg (·.ring h) (State.hereTile_of ha)
  unfold State.ringAdvance at hexec
  dsimp only at hexec
  rw [hring] at hexec
  have hbad : (r.unused = true ∨ (if prod then r.free else r.filled) < n.toNat) ↔ (r.space = 0 ∨ (if prod then free r else filled r) < n.toNat) :=
    or_congr_left r.unused_iff
  refine ⟨fun hx => ?_, fun hsp hn hl => ?_⟩
  · rw [if_pos (hbad.2 hx), ringDetail_eq] at hexec
    · exact hexec
    · cases prod <;> decide
  · rw [if_neg (hbad.not.2 (not_or.2 ⟨hsp, Nat.not_lt.2 hn⟩))] at hexec
    obtain ⟨hhere, hH, hcyc, hbytes, hrings, hringHb⟩ := State.ringMoved_spec ha hs prod h n
    obtain ⟨hregs, hended, hframe, hb⟩ := State.orderFrame_finish hl (u := s.ringMoved prod h n) (hb := s.here.hb) hhere hH hcyc
    have hfin := State.finish_eq_of_here hl (u := s.ringMoved prod h n) (hb := s.here.hb) hhere hcyc
    have hkeep {β : Type} (g : Tile → β) (hg : ∀ T i f, g (Tile.modThread T i f) = g T) :
        g ((s.finish (s.ringMoved prod h n)).tile p k) = g ((s.ringMoved prod h n).tile p k) := by
      rw [hfin]
      exact State.modHere_tile_keeps g hg _ _ p k
    have hrings' := (hkeep Tile.rings fun _ _ _ => rfl).trans hrings
    have hringHb' := (hkeep Tile.ringHb fun _ _ _ => rfl).trans hringHb
    refine ⟨s.finish (s.ringMoved prod h n), hexec, ?_, hregs, hended, hframe, ?_, fun g hg => ?_, fun hn0 x hx => ?_, fun hn0 => ?_⟩
    · rw [hfin]
      exact hbytes.trans (State.sameBytes_modHere _ _)
    · have hw : n.setWidth 32 = BitVec.ofNat 32 n.toNat := BitVec.eq_of_toNat_eq (by simp)
      rw [hrings', hw]
      exact Vector.getElem_set_self _
    · rw [hrings']
      exact Vector.getElem_set_ne _ _ fun e => hg (Fin.ext e.symm)
    · rw [hringHb', if_neg hn0]
      rw [show ((s.tile p k).ringHb.set h.val (joinHb s.here.hb (s.tile p k).ringHb[h]))[h] = joinHb s.here.hb (s.tile p k).ringHb[h] from Vector.getElem_set_self _]
      exact mem_joinHb.2 (.inl hx)
    · rw [hringHb', if_pos hn0]

/-- Settles O26, by the checks of R253 and the effects of a wait that holds and of an advance. -/
theorem rings : Obligations.Rings := ⟨ringWaitsTestTheCount, ringAdvancesMoveOnePointer⟩

end Sys2Proof.Proofs
end

section
/-!
PROOF of O29: joins, times and the ends of waits (spec/05 R93, R108; spec/13 R264; spec/15 R293; spec/16 R305 to R307; spec/22 R344).
-/

-- One lemma at a time: none holds a thread while the ones before it are checked.
set_option Elab.async false

namespace Sys2Proof.Machine

open Sys2Proof.Claims

/-! ### Units that join what has been done (R124) -/

/-- The unit ended, and its thread's later accesses may follow more than before; nothing else changed. -/
def State.Joined (s t : State) : Prop := s.OnlyThread t ∧ s.SameRegs t ∧ s.Ended t none ∧ OrderFrame s t

theorem State.joined_finish {s : State} (hs : s.Here = true) (hl : s.endsLegally = true) {f : Thread → Thread} {hb : List Nat}
    (hf : f s.here = { s.here with hb := hb }) : s.Joined (s.finish (s.modHere f)) := by
  have hfin : s.finish (s.modHere f) = s.endedBy f none := s.finishAt_modHere hs f none (by rw [hf]; exact ⟨rfl, rfl, rfl⟩) (State.endsLegally_eq hl)
  obtain ⟨hregs, hended, hframe, -⟩ := State.orderFrame_finish hl ((s.here_modHere hs f).trans hf) ((s.modHere_Here f).trans hs) (s.modHere_cycle f)
  refine ⟨?_, hregs, hended, hframe⟩
  rw [hfin]
  exact (s.endedBy_spec hs f none).1

theorem State.joined_finish_self {s : State} (hs : s.Here = true) (hl : s.endsLegally = true) : s.Joined (s.finish s) := by
  have h := State.joined_finish hs hl (f := fun t => t) (hb := s.here.hb) rfl
  rwa [s.modHere_id] at h

theorem State.joined_joinOps {s : State} (hs : s.Here = true) (hl : s.endsLegally = true) (f : EngOp → Bool) : s.Joined (s.finish (s.joinOps f)) :=
  State.joined_finish hs hl rfl

theorem State.blocked_block {s : State} (hs : s.Here = true) (w : Wait) : s.OnlyThread (s.block w) ∧ s.Blocked (s.block w) w :=
  ⟨s.onlyThread_modHere hs _, s.here_modHere hs _⟩

/-! ### Operations that are not complete -/

theorem EngOp.live_iff (o : EngOp) : o.live = true ↔ o.st ≠ .done := by
  simp [EngOp.live]

/-- An operation of a thread that named a token. -/
def EngOp.Named (o : EngOp) (a : Agent) (i : Nat) (j : Fin 16) : Prop := o.agent = a ∧ o.th = i ∧ o.tok = some j

theorem State.tokenCount_eq_zero (s : State) (a : Agent) (i : Nat) (j : Fin 16) : s.tokenCount a i j = 0 ↔ ∀ o ∈ s.ops, o.Named a i j → o.st = .done := by
  simp only [State.tokenCount, List.length_eq_zero_iff, List.filter_eq_nil_iff, Bool.and_eq_true, decide_eq_true_eq, EngOp.live_iff, EngOp.Named]
  exact forall₂_congr fun o _ => by tauto

theorem EngOp.isMatrix_iff (o : EngOp) : o.isMatrix = true ↔ (match o.kind with | .mma .. | .mldt .. | .mzero .. => True | _ => False) := by
  unfold EngOp.isMatrix
  cases o.kind <;> simp

/-- The matrix commands of the current tile that have an entry of its queue. -/
def State.matrixIds (s : State) : List Nat := (s.ops.filter fun o => o.isMatrix && decide (o.agent = s.cur.agent) && s.hasEntry o).map (·.id)

theorem State.mem_matrixIds (s : State) (n : Nat) :
    n ∈ s.matrixIds ↔ ∃ o ∈ s.ops, (o.isMatrix = true ∧ o.agent = s.cur.agent ∧ s.hasEntry o = true) ∧ o.id = n := by
  simp only [State.matrixIds, List.mem_map, List.mem_filter, Bool.and_eq_true, decide_eq_true_eq, and_assoc]

/-- One of a list of operations is not complete. -/
def State.anyLive (s : State) (ids : List Nat) : Bool := s.ops.any fun o => o.live && ids.contains o.id

theorem State.anyLive_iff (s : State) (ids : List Nat) : s.anyLive ids = true ↔ ∃ o ∈ s.ops, o.st ≠ .done ∧ o.id ∈ ids := by
  simp only [State.anyLive, List.any_eq_true, Bool.and_eq_true, EngOp.live_iff, List.contains_iff_mem]

theorem exec_mwait {s : State} (h : s.here.mode ≠ .firmware) :
    exec .mwait s = .next (if s.anyLive s.matrixIds then s.block (.matrix s.matrixIds) else s.finish (s.joinOps fun o => s.matrixIds.contains o.id)) :=
  congrArg Host.Outcome.next (State.tileOnly_of h _)

/-- A first `xsync` raises its thread's bit, and waits. -/
def State.xsyncWaits (s : State) : State := (s.modHere fun t => { t with xsynced := true }).block .xsync

theorem exec_xsync {s : State} (h : s.here.mode ≠ .firmware) : exec .xsync s = .next (if s.here.xsynced then s.finish s else
    s.orHold s.xsyncWaits) := congrArg Host.Outcome.next (State.tileOnly_of h _)

/-! ### The end of a wait (R93) -/

/-- A wait that no event of its own completes ends where it is met. -/
theorem State.joined_completeWait {s : State} (hs : s.Here = true) (hl : s.endsLegally = true)
    (hw : (∃ k, s.here.wait = .token k) ∨ (∃ x, s.here.wait = .matrix x) ∨ (∃ n, s.here.wait = .tsync n) ∨ s.here.wait = .xsync ∨
      s.here.wait = .woken ∨ ∃ o, s.here.wait = .entry o) : s.Joined s.completeWait := by
  unfold State.completeWait
  obtain ⟨k, hw⟩ | ⟨x, hw⟩ | ⟨n, hw⟩ | hw | hw | ⟨o, hw⟩ := hw <;> rw [hw]
  · exact State.joined_joinOps hs hl _
  · exact State.joined_joinOps hs hl _
  · exact State.joined_finish hs hl rfl
  all_goals exact State.joined_finish_self hs hl

end Sys2Proof.Machine

namespace Sys2Proof.Proofs

open Sys2Proof Sys2Proof.Machine Sys2Proof.Claims

theorem twaitComparesWithPackageTime : TwaitComparesWithPackageTime := by
  intro s d a hs
  have hx : exec (.twait d a) s = .next (if s.sr a < s.ptime then s.predOp d true 0 else if s.sr a = s.ptime then s.predOp d false 0 else
      s.block (.time d (s.sr a))) := rfl
  refine ⟨fun hlt hl => ⟨s.predOp d true 0, ?_, s.wroteP_predOp hs hl d true 0⟩, fun heq hl => ⟨s.predOp d false 0, ?_, s.wroteP_predOp hs hl d false 0⟩,
    fun hgt => ⟨s.block (.time d (s.sr a)), ?_, State.blocked_block hs _⟩⟩
  · rw [hx, if_pos (BitVec.lt_def.2 hlt)]
  · rw [hx, if_neg (by rw [heq]; exact BitVec.lt_irrefl _), if_pos heq]
  · rw [hx, if_neg (fun h => absurd (BitVec.lt_def.1 h) (by omega)), if_neg (by rintro h; rw [h] at hgt; omega)]

theorem joinsWaitForTheirOperations : JoinsWaitForTheirOperations := by
  intro s p k j ha hs hm named matrix
  have hkwait : exec (.kwait j) s = .next (if s.tokenCount s.cur.agent s.cur.th j = 0 then s.finish (s.joinOps (s.ofToken j)) else s.block (.token j)) := rfl
  have hmatrix (o : EngOp) : matrix o ↔ o.isMatrix = true ∧ o.agent = s.cur.agent ∧ s.hasEntry o = true := by
    rw [o.isMatrix_iff]
    exact ⟨fun ⟨h1, h2, h3⟩ => ⟨h3, h1, h2⟩, fun ⟨h3, h1, h2⟩ => ⟨h1, h2, h3⟩⟩
  refine ⟨fun hdone hl => ⟨_, ?_, State.joined_joinOps hs hl (s.ofToken j)⟩, fun ⟨o, ho, hn, hst⟩ => ⟨_, ?_, State.blocked_block hs _⟩,
    fun hdone hl => ⟨_, ?_, State.joined_joinOps hs hl fun o => s.matrixIds.contains o.id⟩,
    fun ⟨o, ho, hmo, hst⟩ => ⟨s.block (.matrix s.matrixIds), s.matrixIds, ?_, (State.blocked_block hs _).1, (State.blocked_block hs _).2, fun x hx hmx => ?_⟩,
    fun hsync hl => ⟨s.finish s, ?_, s.went_finishAt hs none (State.endsLegally_eq hl)⟩, fun hsync => ⟨?_, fun hret => ⟨s.xsyncWaits, ?_, ?_, ?_⟩⟩⟩
  · rw [hkwait, if_pos ((s.tokenCount_eq_zero _ _ _).2 hdone)]
  · rw [hkwait, if_neg fun e => hst ((s.tokenCount_eq_zero _ _ _).1 e o ho hn)]
  · rw [exec_mwait hm, if_neg]
    rw [s.anyLive_iff]
    rintro ⟨x, hx, hst, hid⟩
    obtain ⟨o, ho, hmo, hido⟩ := (s.mem_matrixIds _).1 hid
    exact hst (hdone o ho ((hmatrix o).2 hmo) x hx hido.symm)
  · rw [exec_mwait hm, if_pos]
    exact (s.anyLive_iff _).2 ⟨o, ho, hst, (s.mem_matrixIds _).2 ⟨o, ho, (hmatrix o).1 hmo, rfl⟩⟩
  · exact (s.mem_matrixIds _).2 ⟨x, hx, (hmatrix x).1 hmx, rfl⟩
  · rw [exec_xsync hm, if_pos hsync]
  · exact holdsItsReturn_of_orHold hs ((exec_xsync hm).trans (congrArg _ (if_neg (by simp [hsync]))))
  · rw [exec_xsync hm, if_neg (by simp [hsync]), State.orHold_none _ _ hret]
  · rw [State.xsyncWaits, State.block, State.modHere_modHere]
    exact s.onlyThread_modHere hs _
  · rw [State.xsyncWaits, State.block, State.modHere_modHere, State.here_modHere _ hs, State.modHere_cycle]

theorem waitsEndWhenTheyAreMet : WaitsEndWhenTheyAreMet := by
  intro s a i s1 hs
  have hx : exec .blockingWaitDone s = .next (if s.arg.nats.any fun c => (s.chan c).train then s.scheduleFree .memRead .blockingWaitDone s.arg
      else if (s1.here.wait.timed && decide (s1.here.waitFrom = s.arg.op)) || s1.waitMet a i then s1.completeWait else s) := rfl
  refine ⟨fun ⟨c, hc, ht⟩ => ⟨Config.delay .memRead s.fresh, ?_⟩, fun hserv => ?_⟩
  · rw [hx, if_pos (List.any_eq_true.2 ⟨c, hc, ht⟩), State.scheduleFree, State.schedule, Nat.add_assoc]
  have hany : ¬ (s.arg.nats.any fun c => (s.chan c).train) = true := by
    rw [List.any_eq_true]
    rintro ⟨c, hc, ht⟩
    rw [hserv c hc] at ht
    cases ht
  rw [if_neg hany] at hx
  have hmet (h : s1.waitMet a i = true) : exec .blockingWaitDone s = .next s1.completeWait := by
    rw [hx, h, Bool.or_true, if_pos rfl]
  refine ⟨fun hno htimed => ?_, fun h hl hw => ⟨_, hmet h, State.joined_completeWait hs hl hw⟩, fun d x hw h hl => ⟨_, hmet h, ?_⟩, fun hw h => ⟨_, hmet h, ?_⟩⟩
  · rw [hx, hno, Bool.or_false, if_neg]
    rw [Bool.and_eq_true, decide_eq_true_eq]
    rintro ⟨h1, h2⟩
    rcases htimed with h | h
    · rw [h] at h1
      cases h1
    · exact h h2
  · have hc : s1.completeWait = s1.predOp d false 0 := by
      unfold State.completeWait
      rw [hw]
    rw [hc]
    exact s1.wroteP_predOp hs hl d false 0
  · have hc : s1.completeWait = s1.modHere fun t => { t with wait := .ready } := by
      unfold State.completeWait
      rw [hw]
    rw [hc]
    exact ⟨s1.onlyThread_modHere hs _, s1.here_modHere hs _⟩

/-- Settles O29, by the operations that a join finds, the comparison of `twait`, and the wait that BLOCKING_WAIT_DONE meets. -/
theorem waitsAndJoins : Obligations.WaitsAndJoins := ⟨twaitComparesWithPackageTime, joinsWaitForTheirOperations, waitsEndWhenTheyAreMet⟩

end Sys2Proof.Proofs
end

section
/-!
PROOF of O4: the rounded FP32 results and conversions (spec/07 R136, R137; spec/12 R234, R235, R237).
-/

-- One lemma at a time: none holds a thread while the ones before it are checked.
set_option Elab.async false

namespace Sys2Proof.Machine

open Sys2Proof.Claims

/-! ### Encodings that a rounded operation gives (R136, R138) -/

/-- A result is the canonical NaN, or a magnitude up to infinity with a sign. -/
def FFmt.Rounded (f : FFmt) (x : Nat) : Prop := x = f.nan ∨ ∃ neg, ∃ b ≤ f.inf, x = f.signed neg b

theorem FFmt.rounded_nanR (f : FFmt) (inv : Bool) : f.Rounded (f.nanR inv).bits := .inl rfl

theorem FFmt.rounded_signed (f : FFmt) (neg : Bool) {b : Nat} (h : b ≤ f.inf) : f.Rounded (f.signed neg b) := .inr ⟨neg, b, h, rfl⟩

theorem FFmt.rounded_zero (f : FFmt) (neg : Bool) : f.Rounded (f.signed neg 0) := f.rounded_signed neg (Nat.zero_le _)

theorem FFmt.rounded_inf (f : FFmt) (neg : Bool) : f.Rounded (f.signed neg f.inf) := f.rounded_signed neg le_rfl

theorem FFmt.rounded_round (f : FFmt) (rm : Rm) (neg : Bool) (m : Nat) (e : Int) (sticky : Bool) : f.Rounded (f.round rm neg m e sticky).bits := by
  unfold FFmt.round
  split
  · exact f.rounded_zero neg
  · extract_lets ex q r bits toInf
    split
    · refine f.rounded_signed neg ?_
      split
      · exact le_rfl
      · exact Nat.sub_le _ _
    · next h =>
      have hlt : ¬ f.inf ≤ bits := fun hle => h (by simp [hle])
      exact f.rounded_signed neg (by omega)

theorem FFmt.rounded_roundI (f : FFmt) (rm : Rm) (i e : Int) (zneg : Bool) : f.Rounded (f.roundI rm i e zneg).bits := by
  unfold FFmt.roundI
  split
  · exact f.rounded_zero zneg
  · exact f.rounded_round _ _ _ _ _

theorem FFmt.rounded_addV (f : FFmt) (rm : Rm) (x y : FV) : f.Rounded (f.addV rm x y).bits := by
  unfold FFmt.addV
  split
  · exact f.rounded_nanR _
  · exact f.rounded_nanR _
  · exact f.rounded_nanR _
  · split
    · exact f.rounded_inf _
    · exact f.rounded_nanR _
  · exact f.rounded_inf _
  · exact f.rounded_inf _
  · exact f.rounded_roundI _ _ _ _

theorem FFmt.rounded_mulR (f : FFmt) (rm : Rm) (x y : FV) : f.Rounded (f.mulR rm x y).bits := by
  unfold FFmt.mulR
  split
  · exact f.rounded_nanR _
  split
  · exact f.rounded_nanR _
  split
  · exact f.rounded_nanR _
  · exact f.rounded_inf _
  · split
    · exact f.rounded_zero _
    · exact f.rounded_round _ _ _ _ _

theorem FFmt.rounded_fmaV (f : FFmt) (rm : Rm) (x y z : FV) : f.Rounded (f.fmaV rm x y z).bits := by
  unfold FFmt.fmaV
  split
  · exact f.rounded_nanR _
  split
  · exact f.rounded_nanR _
  · exact f.rounded_addV _ _ _

theorem FFmt.rounded_divV (f : FFmt) (rm : Rm) (x y : FV) : f.Rounded (f.divV rm x y).bits := by
  unfold FFmt.divV
  split
  · exact f.rounded_nanR _
  · exact f.rounded_nanR _
  · exact f.rounded_nanR _
  · exact f.rounded_nanR _
  · exact f.rounded_inf _
  · exact f.rounded_zero _
  · split
    · split
      · exact f.rounded_nanR _
      · exact f.rounded_inf _
    · split
      · exact f.rounded_zero _
      · exact f.rounded_round _ _ _ _ _

theorem FFmt.rounded_sqrtV (f : FFmt) (rm : Rm) (x : FV) : f.Rounded (f.sqrtV rm x).bits := by
  cases x with
  | nan s => exact f.rounded_nanR s
  | inf neg =>
    cases neg
    · exact f.rounded_inf false
    · exact f.rounded_nanR true
  | fin neg m e =>
    rw [FFmt.sqrtV]
    extract_lets odd n g s
    -- what is rounded does not matter here
    clear_value s n g odd
    split
    · exact f.rounded_zero neg
    split
    · exact f.rounded_nanR true
    · exact f.rounded_round _ _ _ _ _

theorem toNat_f32W {x : Nat} (h : x < 2 ^ 32) : (f32W x).toNat = x := by
  rw [f32W, BitVec.toNat_setWidth, BitVec.toNat_ofNat, Nat.mod_eq_of_lt h, Nat.mod_eq_of_lt (by omega)]

/-- A magnitude up to infinity with a sign is no NaN of FP32. -/
theorem isNan32_signed {neg : Bool} {b : Nat} (hb : b ≤ fp32.inf) : fp32.signed neg b < 2 ^ 32 ∧ isNan32 (fp32.signed neg b) = false := by
  have hinf : fp32.inf = 0x7F800000 := by decide
  have hsign : fp32.signBit = 2 ^ 31 := by decide
  have hmod : fp32.signed neg b < 2 ^ 32 ∧ fp32.signed neg b % 2 ^ 31 = b := by
    unfold FFmt.signed
    split <;> omega
  refine ⟨hmod.1, ?_⟩
  rw [isNan32, hmod.2, decide_eq_false_iff_not]
  omega

/-- A NaN among the rounded FP32 results is the canonical one. -/
theorem canonical_of_rounded {x : Nat} (h : fp32.Rounded x) (hn : isNan32 (f32W x).toNat = true) : f32W x = 0x7FC00000 := by
  rcases h with rfl | ⟨neg, b, hb, rfl⟩
  · decide
  · obtain ⟨hlt, hno⟩ := isNan32_signed (neg := neg) hb
    rw [toNat_f32W hlt, hno] at hn
    cases hn

/-- An instruction of the table runs as a scalar operation of its class, and one that gives FP32 rounds to it. -/
theorem exec_fpEffect {s : State} {i : Instr} {L : Nat} {d : Sreg} {v : Word} {fl : Byte} (h : fpEffect s i = some (L, d, v, fl)) :
    exec i s = .next (s.scalarOp L d v fl) ∧ 1 < L ∧ ((match i with | .fcvtS .. | .fcvtU .. => False | _ => True) → ∃ x, fp32.Rounded x ∧ v = f32W x) := by
  unfold fpEffect at h
  split at h <;> simp only [Option.some.injEq, Prod.mk.injEq, reduceCtorEq] at h <;> obtain ⟨rfl, rfl, rfl, rfl⟩ := h
  · exact ⟨rfl, by decide, fun _ => ⟨_, fp32.rounded_addV _ _ _, rfl⟩⟩
  · exact ⟨rfl, by decide, fun _ => ⟨_, fp32.rounded_addV _ _ _, rfl⟩⟩
  · exact ⟨rfl, by decide, fun _ => ⟨_, fp32.rounded_mulR _ _ _, rfl⟩⟩
  · exact ⟨rfl, by decide, fun _ => ⟨_, fp32.rounded_fmaV _ _ _ _, rfl⟩⟩
  · exact ⟨rfl, by decide, fun _ => ⟨_, fp32.rounded_divV _ _ _, rfl⟩⟩
  · exact ⟨rfl, by decide, fun _ => ⟨_, fp32.rounded_sqrtV _ _, rfl⟩⟩
  · exact ⟨rfl, by decide, fun hf => hf.elim⟩
  · exact ⟨rfl, by decide, fun hf => hf.elim⟩
  · exact ⟨rfl, by decide, fun _ => ⟨_, fp32.rounded_roundI _ _ _ _, rfl⟩⟩
  · exact ⟨rfl, by decide, fun _ => ⟨_, fp32.rounded_roundI _ _ _ _, rfl⟩⟩

end Sys2Proof.Machine

namespace Sys2Proof.Proofs

open Sys2Proof Sys2Proof.Machine Sys2Proof.Claims

/-- Settles O4, by the encodings that rounding to a format can give. -/
theorem floatResultsLandLaterAndNansAreCanonical : Obligations.FloatResultsLandLaterAndNansAreCanonical := by
  intro s i L d v fl h hs hl
  obtain ⟨hexec, hL, hround⟩ := exec_fpEffect h
  refine ⟨_, hexec, s.laterS_scalarOp hs hl L hL d v fl, fun hi hn => ?_⟩
  obtain ⟨x, hx, rfl⟩ := hround (by cases i <;> first | exact trivial | exact hi)
  exact canonical_of_rounded hx hn

end Sys2Proof.Proofs
end

section
/-!
PROOF of O53: a visit of a thread takes its decoded unit (spec/05 R90, R91; spec/11 R213, R215).
-/

-- One lemma at a time: none holds a thread while the ones before it are checked.
set_option Elab.async false

namespace Sys2Proof.Machine

open Sys2Proof.Claims

/-! ### The unit at a head (R213) -/

theorem rawUnit_head? (hs : List HT) (h : (rawUnit hs).pfxs ≠ []) : (rawUnit hs).pfxs.head? = hs.head? := by
  cases hs with
  | nil => exact absurd rfl h
  | cons x xs =>
    unfold rawUnit at h ⊢
    split
    · next hk => rw [hk] at h; exact absurd rfl h
    · rfl

/-- What a decoded unit says of its heads. -/
theorem decodeUnit_ok {hs : List HT} {u : Unit'} (h : decodeUnit hs = .ok u) :
    (∃ g, (rawUnit hs).gov = some g ∧ u.head = g.head) ∧ u.size = (rawUnit hs).size ∧ u.hasPfx = !(rawUnit hs).pfxs.isEmpty ∧
      u.pfx = if (rawUnit hs).pfxs.isEmpty then 0 else (hs.head?.map (·.head)).getD 0 := by
  unfold decodeUnit at h
  dsimp only at h
  split at h
  · cases h
  split at h
  · cases h
  next g hg =>
    split at h
    · cases h
    · cases h
      refine ⟨⟨g, hg, rfl⟩, rfl, rfl, ?_⟩
      dsimp only
      split
      · next he => rw [List.isEmpty_iff.1 he]; rfl
      · next he => rw [rawUnit_head? hs fun e => he (List.isEmpty_iff.2 e)]

/-- A head's address in its line. -/
theorem lineOfAddr_add (pc : Addr) (n : Nat) (h : pc.getLsbD 0 = false) : lineOfAddr pc + BitVec.ofNat 57 (2 * (headIdx pc + n)) = pc + BitVec.ofNat 57 (2 * n) := by
  have hbit : pc.toNat % 2 = 0 := by
    rw [BitVec.getLsbD, Nat.testBit_zero] at h
    simpa using h
  have hidx : headIdx pc = pc.toNat / 2 % 32 := by
    rw [headIdx, BitVec.extractLsb'_toNat, Nat.shiftRight_eq_div_pow]
  have hline : (lineOfAddr pc).toNat = pc.toNat / 64 * 64 := by
    have := pc.isLt
    rw [lineOfAddr, BitVec.toNat_shiftLeft, BitVec.toNat_ushiftRight, Nat.shiftRight_eq_div_pow, Nat.shiftLeft_eq]
    omega
  apply BitVec.eq_of_toNat_eq
  rw [BitVec.toNat_add, BitVec.toNat_add, hline, hidx, BitVec.toNat_ofNat, BitVec.toNat_ofNat]
  omega

/-! ### Issue of a decoded unit (R90, R91, R215) -/

theorem Thread.nextAddr_ready {t : Thread} (h : t.wait = .ready) : t.nextAddr = t.pc := by
  unfold Thread.nextAddr
  rw [h]

/-- What the visit of a thread comes to whose unit is decoded in the state `t`. -/
def State.issued (t : State) (a : Agent) (i : Nat) (u : Unit') : Issued :=
  if t.here.preg u.pred then (match t.returnAbsent u.instr with
    | some x => .settled (t.waitLine a i x)
    | none => .runs t u.instr)
  else match modeFault u.instr t.here.mode with
    | some c => .settled (t.raise c t.headWord)
    | none => .settled (t.finish t)

/-- A thread's field that no update of it changes. -/
theorem State.thread_modThread_keeps {β : Type} (g : Thread → β) (f : Thread → Thread) (h : ∀ t, g (f t) = g t) (s : State) (b : Agent) (j : Nat) (a : Agent) (i : Nat) :
    g ((s.modThread b j f).thread a i) = g (s.thread a i) := by
  by_cases hs : sameThread a i b j
  · cases b with
    | tile q l =>
      obtain ⟨rfl, -⟩ := hs
      refine s.modTile_keeps (fun T => g (T.thread i)) (fun T => T.modThread j f) (fun T => ?_) q l q l
      by_cases hi : i = j
      · subst hi
        by_cases ht : i < T.threads.length
        · rw [T.thread_modThread f ht, h]
        · have hnone (U : Tile) (hU : U.threads.length = T.threads.length) : U.thread i = Thread.zero := by
            rw [Tile.thread, List.getD_eq_getElem?_getD, List.getElem?_eq_none (by omega)]
            rfl
          rw [hnone _ (List.length_modify _ _ _), hnone T rfl]
      · exact congrArg g (getD_modify_ne _ _ _ _ _ hi)
    | ctrl d =>
      obtain ⟨rfl, -⟩ := hs
      by_cases hd : d < 4
      · exact (congrArg g (s.thread_modThread (a := .ctrl d) (i := j) hd f)).trans (h _)
      · have hx : s.modThread (.ctrl d) j f = s := dif_neg hd
        rw [hx]
  · rw [(s.beside_modThread b j f).thread a i hs]

theorem State.SameThreads.trans {s t u : State} (h1 : s.SameThreads t) (h2 : t.SameThreads u) : s.SameThreads u :=
  ⟨h2.clock.trans h1.clock, fun a i h => h2.has a i (h1.has a i h), fun a i => (h2.thread a i).trans (h1.thread a i)⟩

theorem State.sameThreads_modHereTile (s : State) (F : Tile → Tile) (hF : ∀ T, (F T).threads = T.threads) : s.SameThreads (s.modHereTile F) := by
  unfold State.modHereTile
  split
  · exact s.sameThreads_modTile _ _ F hF
  · exact .refl s

theorem State.sameThreads_noteBack (s : State) : s.SameThreads s.noteBack := by
  unfold State.noteBack
  split
  · exact .refl s
  · next d _ =>
    by_cases hd : d < 4
    · have hx : (s.modCtrl d fun c => { c with back := some c.th }) = { s with ctrls := s.ctrls.set d { s.ctrls[d] with back := some s.ctrls[d].th } } := dif_pos hd
      rw [hx]
      refine ⟨rfl, fun a i h => h, fun a i => ?_⟩
      cases a with
      | tile p k => rfl
      | ctrl e =>
        refine (congrArg Ctrl.th (vector_getD_set _ _ e _ Ctrl.zero hd)).trans ?_
        by_cases he : e = d
        · subst he
          exact (congrArg Ctrl.th (if_pos rfl)).trans (show (s.ctrls[e]'hd).th = (s.ctrl e).th from congrArg Ctrl.th (vector_getD s.ctrls e Ctrl.zero hd).symm)
        · exact congrArg Ctrl.th (if_neg he)
    · have hx : (s.modCtrl d fun c => { c with back := some c.th }) = s := dif_neg hd
      rw [hx]
      exact .refl s

theorem Partition.tiles_began (P : Partition) (t cyc : Nat) : (P.began t cyc).tiles = P.tiles := by
  unfold Partition.began
  split
  · split <;> rfl
  · rfl

theorem State.sameThreads_noteBegan (s : State) : s.SameThreads s.noteBegan := by
  unfold State.noteBegan
  split
  · split
    · exact s.sameThreads_modPart _ _ fun P => P.tiles_began _ _
    · exact .refl s
  · exact .refl s

/-- A visit of a thread on whose issue a unit begins. -/
def State.beginsAt (s : State) (a : Agent) (i : Nat) (w : IssueUnit) (sw : Bool) : State :=
  ((({ s with cur := ⟨a, i⟩, visited := agentKey a + 1 } : State).modHere fun t => { t with unit := w }).modHereTile fun T => T.noteIssue i s.cycle sw).noteBack.noteBegan

theorem begun_eq (s : State) (a : Agent) (i : Nat) (hs : List HT) (u : Unit') : begun s a i hs u =
    s.beginsAt a i ⟨(s.thread a i).pc, unitAfter (s.thread a i).pc hs u.size, u.hasPfx, u.pfx, u.head⟩ (headSW u.head) := rfl

theorem State.cur_beginsAt (s : State) (a : Agent) (i : Nat) (w : IssueUnit) (sw : Bool) : (s.beginsAt a i w sw).cur = ⟨a, i⟩ := by
  have hbegan (t : State) : t.noteBegan.cur = t.cur := by
    unfold State.noteBegan
    split
    · split <;> rfl
    · rfl
  have hback (t : State) : t.noteBack.cur = t.cur := by
    unfold State.noteBack
    split
    · rfl
    · unfold State.modCtrl
      split <;> rfl
  have htile (t : State) (F : Tile → Tile) : (t.modHereTile F).cur = t.cur := by
    unfold State.modHereTile
    split <;> rfl
  rw [State.beginsAt, hbegan, hback, htile, State.modHere_cur]

/-- The beginning of a unit changes of its thread the unit alone. -/
theorem State.here_beginsAt {β : Type} (g : Thread → β) (hg : ∀ t w, g { t with unit := w } = g t) (s : State) (a : Agent) (i : Nat) (w : IssueUnit) (sw : Bool) :
    g (s.beginsAt a i w sw).here = g (s.thread a i) := by
  have h1 := State.sameThreads_modHereTile (({ s with cur := ⟨a, i⟩, visited := agentKey a + 1 } : State).modHere fun t => { t with unit := w })
    (fun T => T.noteIssue i s.cycle sw) fun _ => rfl
  have h := (h1.trans (State.sameThreads_noteBack _)).trans (State.sameThreads_noteBegan _)
  rw [State.here, s.cur_beginsAt]
  exact (congrArg g (h.thread a i)).trans (State.thread_modThread_keeps g _ (hg · w) _ _ _ a i)

/-- A unit at the program counter of its thread, read from the thread that is updated or from the state before. -/
theorem State.modHere_unit (s : State) (next : Addr) (b : Bool) (x h : BitVec 16) :
    (s.modHere fun t => { t with unit := ⟨t.pc, next, b, x, h⟩ }) = s.modHere fun t => { t with unit := ⟨s.here.pc, next, b, x, h⟩ } := by
  rw [s.modHere_const, s.modHere_const fun t => { t with unit := ⟨s.here.pc, next, b, x, h⟩ }]

/-- The visit of a thread whose lines are present and whose unit decodes. -/
theorem State.issue_decoded {s : State} {a : Agent} {i : Nat} {hs : List HT} {u : Unit'} (hf : FetchesAt s a i hs)
    (hu : decodeUnit (hs.drop (headIdx (s.thread a i).pc)) = .ok u) (hp : s.powerHolds a u.head = false) (habs : s.absentLine a (s.thread a i) = none) :
    s.issue a i = (begun s a i hs u).issued a i u := by
  obtain ⟨hwait, bs, hline, hdec, heven, hstart⟩ := hf
  obtain ⟨⟨g, hgov, hhead⟩, hsize, hhas, hpfx⟩ := decodeUnit_ok hu
  have hpreds : (begun s a i hs u).here.preg u.pred = (s.thread a i).preg u.pred := s.here_beginsAt (fun t => t.preg u.pred) (fun _ _ => rfl) a i _ _
  have hmode : (begun s a i hs u).here.mode = (s.thread a i).mode := s.here_beginsAt Thread.mode (fun _ _ => rfl) a i _ _
  have hstarts : ((s.thread a i).pc.getLsbD 0 || !(unitStarts true hs).getD (headIdx (s.thread a i).pc) false) = false := by
    rw [heven, List.getD_eq_getElem?_getD, hstart]
    rfl
  have hnext : (if headIdx (s.thread a i).pc + (rawUnit (hs.drop (headIdx (s.thread a i).pc))).size < hs.length then
      lineOfAddr (s.thread a i).pc + BitVec.ofNat 57 (2 * (headIdx (s.thread a i).pc + (rawUnit (hs.drop (headIdx (s.thread a i).pc))).size))
      else lineOfAddr (s.thread a i).pc + 64) = unitAfter (s.thread a i).pc hs u.size := by
    rw [unitAfter, ← hsize, lineOfAddr_add _ _ heven]
  unfold State.issue
  dsimp only
  rw [habs, ite_self]
  dsimp only
  rw [Thread.nextAddr_ready hwait, hwait]
  dsimp only
  have hline' : State.lineAt { s with cur := ⟨a, i⟩, visited := agentKey a + 1 } a (lineOfAddr (s.thread a i).pc) = some bs := hline
  have hp' : State.powerHolds { s with cur := ⟨a, i⟩, visited := agentKey a + 1 } a u.head = false := hp
  rw [hline']
  dsimp only
  rw [hdec]
  dsimp only
  rw [hstarts, if_neg (by simp), hgov, Option.map_some, Option.getD_some, ← hhead, hp', if_neg (by simp), hnext, hu]
  dsimp only
  rw [← hhas, ← hpfx]
  unfold State.issued
  rw [hpreds, hmode, State.modHere_unit, State.modHere_cycle]
  rfl

end Sys2Proof.Machine

namespace Sys2Proof.Proofs

open Sys2Proof Sys2Proof.Machine Sys2Proof.Claims

theorem step_of_visits {s : State} {a : Agent} {i : Nat} (h : Visits s a i) : step s = match s.issue a i with
    | .settled t => .next t
    | .runs t ins => exec ins t := by
  obtain ⟨hpow, hboot, hdue, hauto, hnext⟩ := h
  unfold step
  rw [hpow, hboot, hdue, hauto, hnext]
  rfl

theorem stepRunsTheDecodedUnit : StepRunsTheDecodedUnit := by
  intro s a i hs u hv hf hu hp t
  refine ⟨fun la hla hline hcheck => ?_, fun x hneeds habs => ?_, fun habs => ?_⟩
  · have hsome : (s.absentLine a (s.thread a i)).isSome = true :=
      List.find?_isSome.2 ⟨la, List.mem_cons_of_mem _ hla, by rw [hline, hcheck]; rfl⟩
    rw [State.threadReady, Option.isNone_eq_false_iff.2 hsome, Bool.and_false]
  · have hissue : s.issue a i = .settled (s.bringLine a x) := by
      unfold State.issue
      dsimp only
      rw [hneeds, if_pos rfl, habs]
    rw [step_of_visits hv, hissue]
  · have hstep : step s = match t.issued a i u with
        | .settled t => .next t
        | .runs t ins => exec ins t := by rw [step_of_visits hv, State.issue_decoded hf hu hp habs]
    unfold State.issued at hstep
    refine ⟨fun hpred hret => ?_, fun x hpred hret => ?_, fun hpred hmode => ?_, fun c hpred hmode => ?_⟩
    · rw [hstep, if_pos hpred, hret]
    · rw [hstep, if_pos hpred, hret]
    · rw [hstep, if_neg (by simp [hpred]), hmode]
    · rw [hstep, if_neg (by simp [hpred]), hmode]

end Sys2Proof.Proofs
end

section
/-!
PROOF of O53, continued: the order of a machine's steps (spec/01 R2; spec/05 R92; spec/13 R254; log entries 1 and 17).
-/

-- One lemma at a time: none holds a thread while the ones before it are checked.
set_option Elab.async false

namespace Sys2Proof.Machine

/-! ### What is due (log entry 1) -/

theorem takeDue_eq_none {c : Nat} {l : List Due} (h : ∀ x ∈ l, c < x.at_) : takeDue c l = none := by
  induction l with
  | nil => rfl
  | cons d l ih =>
    have hd : ¬ d.at_ ≤ c := Nat.not_le.2 (h d List.mem_cons_self)
    rw [takeDue, if_neg hd, ih fun x hx => h x (List.mem_cons_of_mem _ hx)]
    rfl

theorem takeDue_append {c : Nat} {pre post : List Due} {d : Due} (h : ∀ x ∈ pre, c < x.at_) (hd : d.at_ ≤ c) :
    takeDue c (pre ++ d :: post) = some (d, pre ++ post) := by
  induction pre with
  | nil => exact if_pos hd
  | cons x pre ih =>
    have hx : ¬ x.at_ ≤ c := Nat.not_le.2 (h x List.mem_cons_self)
    rw [List.cons_append, takeDue, if_neg hx, ih fun y hy => h y (List.mem_cons_of_mem _ hy)]
    rfl

/-- Of the elements that a condition chooses, the first that is due. -/
theorem takeDue_filter {c : Nat} {q : Due → Bool} {pre post : List Due} {d : Due} (h : ∀ x ∈ pre, c < x.at_ ∨ q x = false) (hd : d.at_ ≤ c) (hq : q d = true) :
    ∃ ds, takeDue c ((pre ++ d :: post).filter q) = some (d, ds) := by
  rw [List.filter_append, List.filter_cons_of_pos hq]
  refine ⟨_, takeDue_append (fun x hx => ?_) hd⟩
  obtain ⟨hx, hqx⟩ := List.mem_filter.1 hx
  exact (h x hx).resolve_right (by simp [hqx])

theorem takeDue_filter_eq_none {c : Nat} {q : Due → Bool} {l : List Due} (h : ∀ x ∈ l, c < x.at_ ∨ q x = false) : takeDue c (l.filter q) = none := by
  refine takeDue_eq_none fun x hx => ?_
  obtain ⟨hx, hqx⟩ := List.mem_filter.1 hx
  exact (h x hx).resolve_right (by simp [hqx])

/-- The first element of its kind is taken out of a list. -/
theorem erase_append_cons {c : Nat} {q : Due → Bool} {pre post : List Due} {d : Due} (h : ∀ x ∈ pre, c < x.at_ ∨ q x = false) (hd : d.at_ ≤ c) (hq : q d = true) :
    (pre ++ d :: post).erase d = pre ++ post := by
  have hnot : d ∉ pre := fun hm => (h d hm).elim (fun e => absurd e (Nat.not_lt.2 hd)) (by simp [hq])
  rw [List.erase_append_right _ hnot, List.erase_cons_head]

theorem afterIssue_iff (ev : Instr) : afterIssue ev = true ↔ ev = .engineSlotDelivered := by
  cases ev <;> simp [afterIssue]

theorem State.dueEvent_input {s : State} {pre post : List Due} {d : Due} (he : s.inputs = pre ++ d :: post) (h : ∀ x ∈ pre, s.cycle < x.at_) (hd : d.at_ ≤ s.cycle) :
    s.dueEvent = some ({ s with inputs := pre ++ post, arg := d.arg }, d.ev) := by
  unfold State.dueEvent
  rw [he, takeDue_append h hd]

theorem State.dueEvent_agenda {s : State} (hin : ∀ x ∈ s.inputs, s.cycle < x.at_) {pre post : List Due} {d : Due} (he : s.agenda = pre ++ d :: post)
    (h : ∀ x ∈ pre, s.cycle < x.at_ ∨ x.ev = .engineSlotDelivered) (hd : d.at_ ≤ s.cycle) (hslot : d.ev ≠ .engineSlotDelivered) :
    s.dueEvent = some ({ s with agenda := pre ++ post, arg := d.arg }, d.ev) := by
  have hpre : ∀ x ∈ pre, s.cycle < x.at_ ∨ (!afterIssue x.ev) = false := fun x hx => (h x hx).imp_right fun e => by rw [(afterIssue_iff _).2 e]; rfl
  have hq : (!afterIssue d.ev) = true := by rw [Bool.not_eq_true', Bool.eq_false_iff]; exact (afterIssue_iff _).not.2 hslot
  obtain ⟨ds, hds⟩ := takeDue_filter (post := post) (q := fun d => !afterIssue d.ev) hpre hd hq
  unfold State.dueEvent
  rw [takeDue_eq_none hin, he, hds]
  dsimp only
  rw [Option.map_some, erase_append_cons (q := fun d => !afterIssue d.ev) hpre hd hq]

theorem State.dueEvent_eq_none {s : State} (hin : ∀ x ∈ s.inputs, s.cycle < x.at_) (h : ∀ x ∈ s.agenda, s.cycle < x.at_ ∨ x.ev = .engineSlotDelivered) :
    s.dueEvent = none := by
  unfold State.dueEvent
  rw [takeDue_eq_none hin, takeDue_filter_eq_none fun x hx => (h x hx).imp_right fun e => by rw [(afterIssue_iff _).2 e]; rfl]
  rfl

theorem State.dueSlot_agenda {s : State} {pre post : List Due} {d : Due} (he : s.agenda = pre ++ d :: post) (h : ∀ x ∈ pre, s.cycle < x.at_) (hd : d.at_ ≤ s.cycle)
    (hslot : d.ev = .engineSlotDelivered) : s.dueSlot = some ({ s with agenda := pre ++ post, arg := d.arg }, d.ev) := by
  have hpre : ∀ x ∈ pre, s.cycle < x.at_ ∨ afterIssue x.ev = false := fun x hx => .inl (h x hx)
  have hq : afterIssue d.ev = true := (afterIssue_iff _).2 hslot
  obtain ⟨ds, hds⟩ := takeDue_filter (post := post) (q := fun d => afterIssue d.ev) hpre hd hq
  unfold State.dueSlot
  rw [he, hds, Option.map_some]
  dsimp only
  rw [erase_append_cons (q := fun d => afterIssue d.ev) hpre hd hq]

theorem State.dueSlot_eq_none {s : State} (h : ∀ x ∈ s.agenda, s.cycle < x.at_) : s.dueSlot = none := by
  unfold State.dueSlot
  rw [takeDue_filter_eq_none fun x hx => .inl (h x hx)]
  rfl

/-! ### The end of a cycle (R2, R92) -/

theorem State.main_beginBuild (s : State) (p t k : Nat) : (s.beginBuild p t k).main = s.main := by
  unfold State.beginBuild
  exact s.main_modTile p t fun T => { T with building := true, build := s.fresh }

theorem State.main_writeFlp (s : State) (p t : Nat) (a : Option Addr) (n : Option Nat) : (s.writeFlp p t a n).main = s.main := by
  unfold State.writeFlp State.restartBuild
  rw [State.main_beginBuild, State.main_modTile]

theorem State.main_csrWrite (s : State) (a : Agent) (i : Nat) (n : BitVec 12) (v : Word) : (csrWrite s a i n v).main = s.main := by
  cases a with
  | ctrl d => exact s.main_modThread _ _ _
  | tile p k =>
    have hdite {c : Prop} [Decidable c] {f : c → State} {g : ¬ c → State} (hf : ∀ h, (f h).main = s.main) (hg : ∀ h, (g h).main = s.main) :
        (if h : c then f h else g h).main = s.main := by
      split
      · exact hf _
      · exact hg _
    have hite {c : Prop} [Decidable c] {t u : State} (ht : t.main = s.main) (hu : u.main = s.main) : (if c then t else u).main = s.main :=
      hdite (fun _ => ht) fun _ => hu
    unfold csrWrite
    refine hite ?_ <| hite ?_ <| hdite (fun _ => ?_) fun _ => hite ?_ <| hite (hite ?_ ?_) <| hite ?_ (s.main_modThread _ _ _)
    · exact s.main_writeFlp _ _ _ _
    · exact s.main_writeFlp _ _ _ _
    · exact s.main_modTile _ _ _
    · exact s.main_modTile _ _ _
    · exact s.main_modTile _ _ _
    · rfl
    · exact s.main_modPart _ _

theorem State.main_applyPend (a : Agent) (i : Nat) (s : State) (x : Pend) : (applyPend a i s x).main = s.main := by
  unfold applyPend
  dsimp only
  split
  · rw [State.main_modThread, State.main_modThread]
  · rw [State.main_modThread, State.main_modThread]
  · rw [State.main_csrWrite, State.main_modThread]
  · cases a with
    | tile p k => rfl
    | ctrl d => exact s.main_modThread _ _ _

theorem State.main_landsAt (s : State) (a : Agent) (i : Nat) : (s.landsAt a i).main = s.main := by
  unfold State.landsAt
  split
  · rfl
  · exact foldl_keeps State.main _ (fun s x => by rw [State.main_applyPend, State.main_modThread]) _ _

theorem State.main_landed (s : State) : s.landTiles.landCtrls.main = s.main :=
  State.landCtrls_keeps (fun t => t.main = s.main) (fun t _ ht => (t.main_landsAt _ _).trans ht)
    (State.landTiles_keeps (fun t => t.main = s.main) (fun t _ _ _ ht => (t.main_landsAt _ _).trans ht) rfl)

theorem State.clock_landsAt (s : State) (a : Agent) (i : Nat) : (s.landsAt a i).clock = s.clock := (s.landsAt_spec a i).1.clock

theorem State.clock_landed (s : State) : s.landTiles.landCtrls.clock = s.clock :=
  State.landCtrls_keeps (fun t => t.clock = s.clock) (fun t _ ht => (t.clock_landsAt _ _).trans ht)
    (State.landTiles_keeps (fun t => t.clock = s.clock) (fun t _ _ _ ht => (t.clock_landsAt _ _).trans ht) rfl)

theorem State.main_sendPorts (s : State) : s.sendPorts.main = s.main := by
  unfold State.sendPorts
  split <;> rfl

theorem State.tick_spec (s : State) : s.tick.cycle = s.cycle + 1 ∧ s.tick.ptime = s.ptime + 1 ∧ s.tick.visited = 0 ∧ s.SameMain s.tick := by
  obtain ⟨hcycle, hptime⟩ := s.landTiles.landCtrls.sendPorts_times
  have hclock := s.clock_landed
  have hmain : s.landTiles.landCtrls.sendPorts.main = s.main := s.landTiles.landCtrls.main_sendPorts.trans s.main_landed
  rw [s.tick_eq]
  exact ⟨congrArg (· + 1) (hcycle.trans (congrArg Prod.fst hclock)), congrArg (· + 1) (hptime.trans (congrArg Prod.snd hclock)), rfl, State.sameMain_of_main hmain⟩

end Sys2Proof.Machine

namespace Sys2Proof.Proofs

open Sys2Proof Sys2Proof.Machine Sys2Proof.Claims

theorem stepsAreTakenInOrder : StepsAreTakenInOrder := by
  intro s slot
  refine ⟨fun hpow hin => ?_, fun hpow hboot => ?_, fun hpow hboot => ?_⟩
  · unfold step
    rw [hpow, hin]
    rfl
  · unfold step
    rw [hpow, hboot]
    rfl
  have hstep : step s = match s.dueEvent with
      | some (t, ev) => exec ev t
      | none => match s.autoEvent with
        | some (ev, arg) => exec ev { s with arg := arg }
        | none => match s.nextAgent with
          | some (a, i) => match s.issue a i with
            | .settled t => .next t
            | .runs t ins => exec ins t
          | none => match s.dueSlot with
            | some (t, ev) => exec ev t
            | none => .next s.tick := by
    unfold step
    rw [hpow, hboot]
    rfl
  refine ⟨fun pre d post he hpre hd => ?_, fun hin => ⟨fun pre d post he hpre hd hslot => ?_, fun hag => ⟨fun ev arg hauto => ?_, fun hauto hnext =>
    ⟨fun pre d post he hpre hd => ?_, fun hlater => ⟨s.tick, ?_, s.tick_spec⟩⟩⟩⟩⟩
  · rw [hstep, State.dueEvent_input he hpre hd]
  · rw [hstep, State.dueEvent_agenda hin he hpre hd hslot]
  · rw [hstep, State.dueEvent_eq_none hin hag, hauto]
  · have hslot : d.ev = .engineSlotDelivered := (hag d (by rw [he]; simp)).resolve_left (Nat.not_lt.2 hd)
    rw [hstep, State.dueEvent_eq_none hin hag, hauto, hnext, State.dueSlot_agenda he hpre hd hslot]
  · rw [hstep, State.dueEvent_eq_none hin hag, hauto, hnext, State.dueSlot_eq_none hlater]

/-- Settles O53, by what a visit makes of a decoded unit, and by the order in which `step` looks for what is next. -/
theorem stepRunsTheUnit : Obligations.StepRunsTheUnit := ⟨stepRunsTheDecodedUnit, stepsAreTakenInOrder⟩

end Sys2Proof.Proofs
end

section
/-!
PROOF of O10: loop and lexit (spec/05 R92; spec/11 R218, R219; spec/12 R240, R242).
-/

-- One lemma at a time: none holds a thread while the ones before it are checked.
set_option Elab.async false

namespace Sys2Proof.Machine

open Sys2Proof.Claims

/-! ### Fields of heads and tails (R212, R219) -/

theorem headOf_fields (tl : BitVec 2) (op : BitVec 6) (fn : BitVec 3) (g : BitVec 5) :
    headOP (headOf tl op fn g) = op.toNat ∧ headTL (headOf tl op fn g) = tl.toNat ∧ headFN (headOf tl op fn g) = fn.toNat := by
  unfold headOP headTL headFN headOf
  refine ⟨?_, ?_, ?_⟩
  · simp (disch := omega) only [BitVec.extractLsb'_append_eq_of_le, BitVec.extractLsb'_append_eq_of_add_le, BitVec.extractLsb'_eq_self, Nat.reduceSub]
  · simp (disch := omega) only [BitVec.extractLsb'_append_eq_of_le, BitVec.extractLsb'_eq_self, Nat.reduceSub]
  · simp (disch := omega) only [BitVec.extractLsb'_append_eq_of_add_le, BitVec.extractLsb'_eq_self]

theorem decodeGoverned_headOf (tl : BitVec 2) (op : BitVec 6) (fn : BitVec 3) (g : BitVec 5) (t : BitVec 64) (p : Pfx) :
    decodeGoverned (headOf tl op fn g) t p = decodeRow op.toNat tl.toNat fn.toNat t p := by
  obtain ⟨hop, htl, hfn⟩ := headOf_fields tl op fn g
  rw [decodeGoverned, hop, htl, hfn]

/-- The tail of a `loop`: its count, the register, the form, the level and the target. -/
def loopTail (n : BitVec 24) (c : BitVec 5) (form : BitVec 1) (L : BitVec 2) (off : BitVec 24) (idx : BitVec 5) : BitVec 64 :=
  n ++ c ++ form ++ L ++ (0 : BitVec 3) ++ off ++ idx

theorem loopTail_fields (n : BitVec 24) (c : BitVec 5) (form : BitVec 1) (L : BitVec 2) (off : BitVec 24) (idx : BitVec 5) :
    let t := loopTail n c form L off idx
    tf t 40 24 = n ∧ tf t 35 5 = c ∧ tf t 34 1 = form ∧ tf t 32 2 = L ∧ dTarget t = some ⟨off, idx⟩ := by
  have hfield {lo k : Nat} {x : BitVec k} (h : (n ++ c ++ form ++ L ++ (0 : BitVec 3) ++ off ++ idx).extractLsb' lo k = x) : tf (loopTail n c form L off idx) lo k = x := h
  have h0 : tf (loopTail n c form L off idx) 0 5 = idx := hfield <| by
    simp (disch := omega) only [BitVec.extractLsb'_append_eq_of_add_le, BitVec.extractLsb'_eq_self]
  have h5 : tf (loopTail n c form L off idx) 5 24 = off := hfield <| by
    simp (disch := omega) only [BitVec.extractLsb'_append_eq_of_le, BitVec.extractLsb'_append_eq_of_add_le, BitVec.extractLsb'_eq_self, Nat.reduceSub]
  have h29 : tf (loopTail n c form L off idx) 29 3 = 0 := hfield <| by
    simp (disch := omega) only [BitVec.extractLsb'_append_eq_of_le, BitVec.extractLsb'_append_eq_of_add_le, BitVec.extractLsb'_eq_self, Nat.reduceSub]
  refine ⟨hfield ?_, hfield ?_, hfield ?_, hfield ?_, by rw [dTarget, rz, h29, h5, h0]; rfl⟩ <;>
    simp (disch := omega) only [BitVec.extractLsb'_append_eq_of_le, BitVec.extractLsb'_append_eq_of_add_le, BitVec.extractLsb'_eq_self, Nat.reduceSub]

theorem getLsbD_of_field {t : BitVec 64} {k : Nat} {b : Bool} (h : tf t k 1 = BitVec.ofBool b) : t.getLsbD k = b := by
  have h0 := congrArg (fun x : BitVec 1 => x.getLsbD 0) h
  simpa using h0

theorem toNat_rrr (d a b : BitVec 5) : (rrr d a b).toNat = b.toNat * 1024 + a.toNat * 32 + d.toNat := by
  have hd := d.isLt
  have ha := a.isLt
  have hb := b.isLt
  rw [rrr, BitVec.toNat_setWidth, BitVec.toNat_append, BitVec.toNat_append, ← Nat.shiftLeft_add_eq_or_of_lt ha, ← Nat.shiftLeft_add_eq_or_of_lt hd,
    Nat.shiftLeft_eq, Nat.shiftLeft_eq]
  omega

/-- The tail of a `lexit` whose reserved bits are clear. -/
theorem rz_rrr_level (d a b : BitVec 5) : rz (rrr d a b) 2 14 = (decide (d.toNat < 4) && a == 0 && b == 0) := by
  have hd := d.isLt
  have ha := a.isLt
  have hb := b.isLt
  have hz {w : Nat} (x : BitVec w) : (x == 0) = decide (x.toNat = 0) := by
    rw [Bool.eq_iff_iff, beq_iff_eq, decide_eq_true_eq, ← BitVec.toNat_inj]
    simp
  rw [rz, tf, hz, hz, hz, BitVec.extractLsb'_toNat, Nat.shiftRight_eq_div_pow, toNat_rrr, ← Bool.decide_and, ← Bool.decide_and]
  exact decide_eq_decide.2 (by omega)

theorem tf_rrr_level (d a b : BitVec 5) : tf (rrr d a b) 0 2 = d.setWidth 2 := by
  have hd := d.isLt
  apply BitVec.eq_of_toNat_eq
  rw [tf, BitVec.extractLsb'_toNat, toNat_rrr, BitVec.toNat_setWidth, Nat.shiftRight_zero]
  omega

/-! ### Units that change the loop registers (R241) -/

/-- A thread, its unit's effect on the loop registers done, as the end of the unit in `s` leaves it. -/
def State.endsLooped (s : State) (taken : Option Addr) (u : Thread) : Thread :=
  { u with lc := (loopEnd s.here.unit.addr u).1.lc, pend := dropCounts s.cycle u.lc (loopEnd s.here.unit.addr u).1.lc u.pend
           pc := (taken.or (loopEnd s.here.unit.addr u).2).getD s.here.unit.next, wait := .ready
           readyAt := s.nextIssue (taken.or (loopEnd s.here.unit.addr u).2).isSome }

theorem State.finishAt_looped {s : State} (hs : s.Here = true) {f : Thread → Thread} {taken : Option Addr}
    (hl : ((taken.or (loopEnd s.here.unit.addr (f s.here)).2).bind (targetFault s s.cur.agent)) = none) :
    s.finishAt (s.modHere f) taken = s.modHere fun t => s.endsLooped taken (f t) := by
  have hl' : ((taken.or (loopEnd s.here.unit.addr (f s.here)).2).bind fun a => (targetFault s s.cur.agent a).map fun r => (a, r)) = none := by
    cases hx : taken.or (loopEnd s.here.unit.addr (f s.here)).2 with
    | none => rfl
    | some a => rw [hx] at hl; simpa using hl
  obtain ⟨-, hcount⟩ := loopEnd_congr s.here.unit.addr (f s.here) (f s.here) rfl rfl rfl
  unfold State.finishAt
  dsimp only
  rw [s.here_modHere hs, hl']
  dsimp only
  rw [State.modHere_modHere, s.modHere_cycle, hcount, s.modHere_const fun t => s.endsLooped taken (f t)]
  rfl

/-- What such a unit leaves of its thread, registers and bytes. -/
theorem State.endsLooped_spec {s : State} (hs : s.Here = true) {f : Thread → Thread} (hf : (f s.here).regs = s.here.regs ∧ (f s.here).preds = s.here.preds)
    (taken : Option Addr) : let t := s.modHere fun t => s.endsLooped taken (f t)
    t.here = s.endsLooped taken (f s.here) ∧ s.OnlyThread t ∧ s.SameRegs t := by
  have hhere := s.here_modHere hs fun t => s.endsLooped taken (f t)
  exact ⟨hhere, s.onlyThread_modHere hs _, State.sameRegs_of ((congrArg Thread.regs hhere).trans hf.1) ((congrArg Thread.preds hhere).trans hf.2)⟩

/-- A unit whose own transfer fails its check has no effect: it raises its fault, or holds it (R218). -/
theorem State.finishAt_refused {s u : State} {tgt : Addr} {c : Cause} {d : Word} (h : targetFault s s.cur.agent tgt = some (c, d)) :
    s.finishAt u (some tgt) = if tgt.getLsbD 0 then s.raise c d else s.holdTarget tgt (c, d) := by
  unfold State.finishAt
  simp [h]

theorem faultsItsTarget_of {i : Instr} {s u : State} {tgt : Addr} {c : Cause} {d : Word} (hs : s.Here = true) (hi : exec i s = .next (s.finishAt u (some tgt)))
    (h : targetFault s s.cur.agent tgt = some (c, d)) : FaultsItsTarget i s tgt c d := by
  rw [State.finishAt_refused h] at hi
  refine ⟨fun hodd => ?_, fun heven => ⟨_, ?_, s.onlyThread_holdTarget hs tgt (c, d), s.here_holdTarget hs tgt (c, d)⟩⟩
  · rw [hi, if_pos hodd]
  · rw [hi, heven, if_neg Bool.false_ne_true]

/-! ### loop and lexit (R240, R242) -/

/-- A thread whose level L a `loop` sets up. -/
def State.setUp (s : State) (L : Fin 4) (n : Word) (e : Addr) (t : Thread) : Thread :=
  { t.dropLoop s.cycle L with lb := t.lb.set L.val s.unit.next, le := t.le.set L.val e, lc := t.lc.set L.val n }

theorem exec_loop (s : State) (L : Fin 4) (n : LoopCount) (e : Target) : exec (.loop L n e) s = .next (if s.loopCount n = 0 then
    s.finishAt s (some (nextUnitAt s s.cur.agent (brTarget s.unit.addr e))) else s.finish (s.modHere (s.setUp L (s.loopCount n) (brTarget s.unit.addr e)))) := rfl

/-- A thread whose level L a `lexit` leaves, with the levels in its body. -/
def State.leaves (s : State) (L : Fin 4) (t : Thread) : Thread :=
  { t.loopExit L with pend := dropCounts s.cycle t.lc (t.loopExit L).lc (t.loopExit L).pend }

theorem exec_lexit (s : State) (L : Fin 4) : exec (.lexit L) s = .next (if s.here.lc[L] = 0 then s.finish s else
    s.finishAt (s.modHere (s.leaves L)) (some (nextUnitAt s s.cur.agent s.here.le[L]))) := rfl

/-- The counts that LoopExit clears: a level that is not active has none to clear. -/
theorem Thread.lc_loopExit (t : Thread) (L K : Fin 4) : (t.loopExit L).lc[K] =
    if K = L ∨ (t.lb[L].toNat ≤ t.le[K].toNat ∧ t.le[K].toNat ≤ t.le[L].toNat) then 0 else t.lc[K] := by
  have he : (t.loopExit L).lc[K] = if K = L ∨ (t.lc[K] ≠ 0 ∧ t.lb[L] ≤ t.le[K] ∧ t.le[K] ≤ t.le[L]) then 0 else t.lc[K] := Vector.getElem_ofFn _
  rw [he]
  simp only [BitVec.le_def]
  by_cases h0 : t.lc[K] = 0
  · simp only [h0, ite_self]
  · simp only [ne_eq, h0, not_false_eq_true, true_and]

end Sys2Proof.Machine

namespace Sys2Proof.Proofs

open Sys2Proof Sys2Proof.Machine Sys2Proof.Claims

theorem loopSetsUpItsLevel : LoopSetsUpItsLevel := by
  intro s L n e hs cnt endAt u
  have hx : exec (.loop L n e) s = .next (if cnt = 0 then s.finishAt s (some (nextUnitAt s s.cur.agent endAt)) else
      s.finish (s.modHere (s.setUp L cnt endAt))) := exec_loop s L n e
  -- the writes that are dropped do not decide where the loop returns
  obtain ⟨hback, hcount⟩ := loopEnd_congr s.here.unit.addr u (s.setUp L cnt endAt s.here) rfl rfl rfl
  refine ⟨fun h0 hl => ?_, fun h0 hl => ?_, fun h0 c d hf => ?_⟩
  · have hl' : (((none : Option Addr).or (loopEnd s.here.unit.addr (s.setUp L cnt endAt s.here)).2).bind (targetFault s s.cur.agent)) = none := by
      rw [Option.none_or, hback]
      exact hl
    obtain ⟨hhere, honly, hregs⟩ := State.endsLooped_spec hs (f := s.setUp L cnt endAt) ⟨rfl, rfl⟩ none
    have hlc : (loopEnd s.here.unit.addr (s.setUp L cnt endAt s.here)).1.lc = (loopEnd s.here.unit.addr u).1.lc := by rw [hcount]
    refine ⟨_, ?_, honly, hregs, ?_, ?_, ?_, ?_, ?_⟩
    · rw [hx, if_neg h0, State.finish, State.finishAt_looped hs hl']
    all_goals rw [hhere]
    · rfl
    · rfl
    · exact hlc
    · change ((none : Option Addr).or (loopEnd s.here.unit.addr (s.setUp L cnt endAt s.here)).2).getD s.here.unit.next = _
      rw [Option.none_or, hback]
    · rfl
  · refine ⟨_, ?_, s.went_finishAt hs (some (nextUnitAt s s.cur.agent endAt)) (by simpa using hl)⟩
    rw [hx, if_pos h0]
  · rw [if_pos h0] at hx
    exact faultsItsTarget_of hs hx hf

theorem lexitLeavesTheLevelAndThoseInIt : LexitLeavesTheLevelAndThoseInIt := by
  intro s L hs
  refine ⟨fun h0 hl => ⟨s.finish s, ?_, s.went_finishAt hs none (State.endsLegally_eq hl)⟩, fun h0 hl => ?_, fun h0 c d hf => ?_⟩
  · rw [exec_lexit, if_pos h0]
  · obtain ⟨hhere, honly, hregs⟩ := State.endsLooped_spec hs (f := s.leaves L) ⟨rfl, rfl⟩ (some (nextUnitAt s s.cur.agent s.here.le[L]))
    obtain ⟨-, hcount⟩ := loopEnd_congr s.here.unit.addr { s.here with lc := (s.here.loopExit L).lc } (s.leaves L s.here) rfl rfl rfl
    refine ⟨_, (s.here.loopExit L).lc, ?_, honly, hregs, ?_, ?_, ?_, s.here.lc_loopExit L, ?_, ?_⟩
    · rw [exec_lexit, if_neg h0, State.finishAt_looped hs (by simpa using hl)]
    all_goals rw [hhere]
    · rfl
    · rfl
    · rfl
    · change (loopEnd s.here.unit.addr (s.leaves L s.here)).1.lc = _
      rw [hcount]
    · rfl
  · have hx := exec_lexit s L
    rw [if_neg h0] at hx
    exact faultsItsTarget_of hs hx hf

theorem loopRowsAreRead : LoopRowsAreRead := by
  intro g d a b c n off idx L
  have hloop (form : BitVec 1) (p : Pfx) : decodeGoverned (headOf 3 0x0C 5 g) (loopTail n c form L off idx) p = dec0C 3 5 (loopTail n c form L off idx) p :=
    decodeGoverned_headOf 3 0x0C 5 g _ p
  have hlexit : decodeGoverned (headOf 1 0x0C 6 g) (rrr d a b) .none = onlyIf (rz (rrr d a b) 2 14) (.lexit (tf (rrr d a b) 0 2).toFin) :=
    decodeGoverned_headOf 1 0x0C 6 g _ _
  have hform (form : Bool) : dec0C 3 5 (loopTail n c (BitVec.ofBool form) L off idx) .none =
      if form then onlyIf (c == 0) (.loop L.toFin (.imm n) ⟨off, idx⟩) else onlyIf (n == 0) (.loop L.toFin (.reg c.toFin) ⟨off, idx⟩) := by
    obtain ⟨hn, hc, hf, hL, ht⟩ := loopTail_fields n c (BitVec.ofBool form) L off idx
    change (dTarget (loopTail n c (BitVec.ofBool form) L off idx)).bind _ = _
    rw [ht, Option.bind_some, getLsbD_of_field hf, rz, rz, tS, hn, hc, hL]
  refine ⟨(hloop 1 .none).trans (hform true), (hloop 0 .none).trans (hform false), fun x => hloop 1 (.wide x), ?_⟩
  rw [hlexit, rz_rrr_level, tf_rrr_level]
  rfl

/-- Settles O10, by the ends of units that change the loop registers and the fields of the tails of `loop` and `lexit`. -/
theorem loopsAreSetUpAndLeft : Obligations.LoopsAreSetUpAndLeft := ⟨loopSetsUpItsLevel, lexitLeavesTheLevelAndThoseInIt, loopRowsAreRead⟩

end Sys2Proof.Proofs
end

section
/-!
PROOF of O18: csrr, csrw and the fields of the control registers.
-/

-- One lemma at a time: none holds a thread while the ones before it are checked.
set_option Elab.async false

namespace Sys2Proof.Machine

open Sys2Proof.Claims

/-- The value of one of a thread's own control registers, those of numbers up to 0x23 (R317). -/
def Thread.ownCsr (t : Thread) (k : Nat) : Word :=
  if k = 0 then t.coord
  else if k = 1 then t.ct.setWidth 64
  else if k = 2 then t.slim.setWidth 64
  else if k = 3 then t.oob
  else if k = 4 then t.scl
  else if k = 5 then t.fflag.setWidth 64
  else if k = 6 then t.lrerr
  else if 0x008 ≤ k ∧ k ≤ 0x00B then (t.lb.toList.getD (k - 8) 0).setWidth 64
  else if 0x00C ≤ k ∧ k ≤ 0x00F then (t.le.toList.getD (k - 12) 0).setWidth 64
  else if 0x010 ≤ k ∧ k ≤ 0x013 then t.lc.toList.getD (k - 16) 0
  else if k = 0x020 then t.tvec
  else if k = 0x021 then t.tepc.setWidth 64
  else if k = 0x022 then t.tstat
  else t.tdet

theorem csrRead_own (s : State) (a : Agent) (i : Nat) (n : BitVec 12) (k : Nat) (hn : n.toNat = k) (hk : k ≤ 0x13 ∧ k ≠ 7 ∨ 0x20 ≤ k ∧ k ≤ 0x23) :
    csrRead s a i n = (s.thread a i).ownCsr k := by
  unfold csrRead Thread.ownCsr
  dsimp only
  rw [hn]
  repeat' refine ite_congr rfl (fun _ => rfl) fun _ => ?_
  rw [if_pos (by omega)]

theorem csrWrite_own (s : State) (a : Agent) (i : Nat) (n : BitVec 12) (v : Word) (h : n.toNat < 0x45) :
    csrWrite s a i n v = s.modThread a i fun t => t.csrSet n.toNat v := by
  unfold csrWrite
  cases a with
  | ctrl d => rfl
  | tile p t =>
    dsimp only
    rw [if_neg (by omega), if_neg (by omega), dif_neg (by omega), if_neg (by omega), if_neg (by omega), if_neg (by omega)]

/-- One of a thread's own control registers, written, reads as its fields leave it. -/
theorem csrRead_csrWrite_own (s : State) {a : Agent} {i : Nat} (h : s.Has a i) (n : BitVec 12) (k : Nat) (v : Word) (hn : n.toNat = k)
    (hk : k ≤ 0x13 ∧ k ≠ 7 ∨ 0x20 ≤ k ∧ k ≤ 0x23) : csrRead (csrWrite s a i n v) a i n = ((s.thread a i).csrSet k v).ownCsr k := by
  rw [csrWrite_own s a i n v (by omega), csrRead_own _ a i n k hn hk, s.thread_modThread h, hn]

/-! ### The fields of the thread's own registers (R317, R318) -/

/-- A mask of n bits, read in a wider word, keeps of the word what it keeps of its n low bits. -/
theorem setWidth_setWidth_and {w n : Nat} (v : BitVec w) (c : BitVec n) : (v.setWidth n &&& c).setWidth w = v &&& c.setWidth w := by
  ext i hi
  simp only [BitVec.getElem_and, BitVec.getElem_setWidth, BitVec.getLsbD_and, BitVec.getLsbD_setWidth, BitVec.getLsbD_eq_getElem hi]
  by_cases h : i < n
  · simp [h]
  · simp [h, BitVec.getLsbD_of_ge c i (by omega)]

/-- A field of n bits reads as the n low bits written. -/
theorem setWidth_setWidth {w n : Nat} (v : BitVec w) : (v.setWidth n).setWidth w = v &&& (BitVec.allOnes n).setWidth w := by
  rw [← setWidth_setWidth_and, BitVec.and_allOnes]

/-- Flags of n bits cleared by ones of a wider word. -/
theorem setWidth_clear {w n : Nat} (f c : BitVec n) (v : BitVec w) :
    (f &&& ~~~(v.setWidth n &&& c)).setWidth w = f.setWidth w &&& ~~~(v &&& c.setWidth w) := by
  rw [← setWidth_setWidth_and]
  generalize v.setWidth n &&& c = m
  ext i hi
  simp only [BitVec.getElem_and, BitVec.getElem_not, BitVec.getElem_setWidth, BitVec.getLsbD_and, BitVec.getLsbD_not]
  by_cases h : i < n
  · simp [h]
  · simp [BitVec.getLsbD_of_ge f i (by omega)]

theorem Thread.ownCsr_scl (t : Thread) : (t.ownCsr 4).getLsbD 9 = t.drop ∧ (t.ownCsr 4).getLsbD 8 = t.clamp := by
  show t.scl.getLsbD 9 = t.drop ∧ t.scl.getLsbD 8 = t.clamp
  unfold Thread.scl
  cases t.ceil <;> cases t.clamp <;> cases t.drop <;> decide

/-- Bit 4 of %tstat is PFX. -/
theorem Thread.tstat_pfx (t : Thread) : t.tstat.getLsbD 4 = t.tpfx := by
  have hv := t.tpvote.isLt
  have hh := t.thops.isLt
  unfold Thread.tstat
  rw [BitVec.getLsbD_ofNat, Nat.testBit_eq_decide_div_mod_eq]
  cases t.tforced <;> cases t.tpfx <;> cases t.tchain <;> simp <;> omega

/-! ### Which writes are refused (R176, R318) -/

theorem State.csrUnassigned_of {s : State} {d : Sreg} {n : BitVec 12} (h : forbidden s.here.mode (.csrr d n) = none) : s.csrUnassigned n = false := by
  unfold forbidden at h
  unfold State.csrUnassigned
  by_cases hm : s.here.mode = .firmware <;> simp_all

/-- The registers without a writable field, and those of a trap in task mode, by their ranges. -/
def csrwRefused (m : Mode) (n : BitVec 12) : Bool :=
  n = 0x000 || (0x040 ≤ n && n ≤ 0x044) || n = 0x023 || n = 0x11A || (0x080 ≤ n && n ≤ 0x09F) || (m = .task && (n = 0x021 || n = 0x022))

theorem csrwRefused_iff (m : Mode) (n : BitVec 12) : csrwRefused m n = true ↔
    (n.toNat = 0 ∨ 0x40 ≤ n.toNat ∧ n.toNat ≤ 0x44 ∨ n.toNat = 0x23 ∨ n.toNat = 0x11A ∨ 0x80 ≤ n.toNat ∧ n.toNat ≤ 0x9F) ∨
      m = .task ∧ (n.toNat = 0x21 ∨ n.toNat = 0x22) := by
  simp [csrwRefused, ← BitVec.toNat_inj, BitVec.le_def, or_assoc]

theorem csrRefused_iff (t : Thread) (n : BitVec 12) :
    csrRefused t n = true ↔ csrWritable n = false ∨ t.mode = .task ∧ (n.toNat = 0x21 ∨ n.toNat = 0x22) := by
  simp [csrRefused, ← BitVec.toNat_inj]

theorem csrWritable_iff (n : BitVec 12) : csrWritable n = true ↔
    1 ≤ n.toNat ∧ n.toNat ≤ 6 ∨ 8 ≤ n.toNat ∧ n.toNat ≤ 0x13 ∨ 0x20 ≤ n.toNat ∧ n.toNat ≤ 0x22 ∨ n.toNat = 0x45 ∨ n.toNat = 0x46 ∨
      0x100 ≤ n.toNat ∧ n.toNat ≤ 0x10F ∨ 0x110 ≤ n.toNat ∧ n.toNat ≤ 0x114 ∨ n.toNat = 0x118 ∨ n.toNat = 0x120 := by
  simp [csrWritable, or_assoc]

/-- The ranges that the statement names are registers that a `csrw` is refused. -/
theorem csrRefused_of_csrwRefused (t : Thread) (n : BitVec 12) (h : csrwRefused t.mode n = true) : csrRefused t n = true := by
  have hw := csrWritable_iff n
  rw [csrwRefused_iff] at h
  rw [csrRefused_iff]
  cases hc : csrWritable n with
  | false => exact .inl rfl
  | true =>
    have := hw.1 hc
    exact h.imp (fun h => by omega) id

/-- Outside those ranges, an assigned register other than %fltd is written. -/
theorem not_csrRefused_of (t : Thread) (n : BitVec 12) (ha : csrAssigned n = true) (hn : n.toNat ≠ 0x119) (h : csrwRefused t.mode n = false) :
    csrRefused t n = false := by
  have hr := (not_congr (csrwRefused_iff t.mode n)).1 (by rw [h]; exact Bool.false_ne_true)
  have hassigned : n.toNat ≤ 6 ∨ 8 ≤ n.toNat ∧ n.toNat ≤ 0x13 ∨ 0x20 ≤ n.toNat ∧ n.toNat ≤ 0x23 ∨ 0x40 ≤ n.toNat ∧ n.toNat ≤ 0x46 ∨
      0x80 ≤ n.toNat ∧ n.toNat ≤ 0x9F ∨ 0x100 ≤ n.toNat ∧ n.toNat ≤ 0x10F ∨ 0x110 ≤ n.toNat ∧ n.toNat ≤ 0x114 ∨
      0x118 ≤ n.toNat ∧ n.toNat ≤ 0x11A ∨ n.toNat = 0x120 := by
    simpa [csrAssigned, or_assoc] using ha
  obtain ⟨hranges, htask⟩ := not_or.1 hr
  refine Bool.eq_false_iff.2 fun hc => ?_
  obtain hw | htask' := (csrRefused_iff t n).1 hc
  · exact Bool.eq_false_iff.1 hw ((csrWritable_iff n).2 (by omega))
  · exact htask htask'

theorem isFmtCsr_iff (n : BitVec 12) : isFmtCsr n = true ↔ 0x110 ≤ n.toNat ∧ n.toNat ≤ 0x114 := by
  simp [isFmtCsr]

/-! ### The format registers (R98) -/

theorem Tile.mem_writeFmt (T : Tile) (k : Nat) (v : Word) : (T.writeFmt k v).mem = T.mem := by
  refine foldl_keeps Tile.mem _ (fun T i => ?_) _ T
  dsimp only
  split
  · split <;> rfl
  · rfl

/-- A bank's code in a format register written: the byte, where the bank allows it. -/
theorem Tile.fmt_writeFmt (T : Tile) {k i : Nat} (v : Word) (hi : i < 8) (hk : 8 * k + i < 40) :
    (T.writeFmt k v).fmt.toList.getD (8 * k + i) 0 =
      if fmtAllowed (fmtBuf (8 * k + i)) (v.extractLsb' (8 * i) 8) = true then v.extractLsb' (8 * i) 8 else T.fmt.toList.getD (8 * k + i) 0 := by
  have hother (U : Tile) (j : Nat) (h : j ≠ i) (b : Byte) : (if h : fmtBase k + j < 40 then
      (if fmtAllowed (fmtBuf (fmtBase k + j)) b then { U with fmt := U.fmt.set (fmtBase k + j) b } else U) else U).fmt.toList.getD (8 * k + i) 0 =
        U.fmt.toList.getD (8 * k + i) 0 := by
    split
    · split
      · rw [vector_getD_set, if_neg (by unfold fmtBase; omega)]
      · rfl
    · rfl
  refine foldl_range_once _ hi (fun U => U.fmt.toList.getD (8 * k + i) 0 = T.fmt.toList.getD (8 * k + i) 0)
    (fun U => U.fmt.toList.getD (8 * k + i) 0 =
      if fmtAllowed (fmtBuf (8 * k + i)) (v.extractLsb' (8 * i) 8) = true then v.extractLsb' (8 * i) 8 else T.fmt.toList.getD (8 * k + i) 0)
    (fun U j hj h => (hother U j hj _).trans h) (fun U h => ?_) (fun U j hj h => (hother U j hj _).trans h) rfl
  have hbase : fmtBase k + i = 8 * k + i := rfl
  simp only [hbase, dif_pos hk]
  split
  · rw [vector_getD_set, if_pos rfl]
  · exact h

end Sys2Proof.Machine
end

section
/-!
PROOF of O18, the statements.
-/

-- One lemma at a time: none holds a thread while the ones before it are checked.
set_option Elab.async false

namespace Sys2Proof.Proofs

open Sys2Proof Sys2Proof.Machine Sys2Proof.Claims

/-- The start, end and count of a loop level, written, read back. -/
theorem loopRegister_written (t : Thread) (v : Word) {k : Nat} (hk : k < 4) :
    (t.csrSet (8 + k) v).ownCsr (8 + k) = v &&& 0x01FFFFFFFFFFFFFE ∧ (t.csrSet (12 + k) v).ownCsr (12 + k) = v &&& 0x01FFFFFFFFFFFFFE ∧
    (t.csrSet (16 + k) v).ownCsr (16 + k) = v := by
  have hcode : (v.setWidth 57 &&& ~~~1 : Addr).setWidth 64 = v &&& 0x01FFFFFFFFFFFFFE := setWidth_setWidth_and v _
  refine ⟨?_, ?_, ?_⟩
  · have h8 : 8 ≤ 8 + k ∧ 8 + k ≤ 11 := by omega
    simp (disch := omega) only [Thread.csrSet, Thread.ownCsr, if_neg, dif_pos h8, if_pos h8]
    rw [vector_getD_set, if_pos rfl, hcode]
  · have h12 : 12 ≤ 12 + k ∧ 12 + k ≤ 15 := by omega
    simp (disch := omega) only [Thread.csrSet, Thread.ownCsr, if_neg, dif_neg, dif_pos h12, if_pos h12]
    rw [vector_getD_set, if_pos rfl, hcode]
  · have h16 : 16 ≤ 16 + k ∧ 16 + k ≤ 19 := by omega
    simp (disch := omega) only [Thread.csrSet, Thread.ownCsr, if_neg, dif_neg, dif_pos h16, if_pos h16]
    rw [vector_getD_set, if_pos rfl]

theorem writtenControlRegistersReadBackByField : WrittenControlRegistersReadBackByField := by
  intro s v hs w r
  have hh := (s.has_iff _ _).2 hs
  have hw (n : BitVec 12) (k : Nat) (hn : n.toNat = k) (hk : k ≤ 0x13 ∧ k ≠ 7 ∨ 0x20 ≤ k ∧ k ≤ 0x23) : w n = (s.here.csrSet k v).ownCsr k :=
    csrRead_csrWrite_own s hh n k v hn hk
  have hr (n : BitVec 12) (k : Nat) (hn : n.toNat = k) (hk : k ≤ 0x13 ∧ k ≠ 7 ∨ 0x20 ≤ k ∧ k ≤ 0x23) : r n = s.here.ownCsr k :=
    csrRead_own s _ _ n k hn hk
  refine ⟨?_, ?_, ?_, ?_, ?_, ?_, ?_, fun k => ?_, ?_, ?_, ?_⟩
  · rw [hw 0x001 1 rfl (by decide)]
    exact setWidth_setWidth (n := 3) v
  · rw [hw 0x002 2 rfl (by decide)]
    exact setWidth_setWidth (n := 18) v
  · rw [hw 0x003 3 rfl (by decide), hr 0x003 3 rfl (by decide)]
    show (if v.getLsbD 63 then { s.here with oob := 0 } else s.here : Thread).oob = _
    split <;> rfl
  · rw [hw 0x005 5 rfl (by decide), hr 0x005 5 rfl (by decide)]
    exact setWidth_clear s.here.fflag 0xDF v
  · rw [hw 0x006 6 rfl (by decide), hr 0x006 6 rfl (by decide)]
    rfl
  · rw [hw 0x020 0x20 rfl (by decide)]
    rfl
  · rw [hw 0x021 0x21 rfl (by decide)]
    exact setWidth_setWidth_and (n := 57) v (~~~1)
  · obtain ⟨hb, he, hc⟩ := loopRegister_written s.here v k.isLt
    have hn (b : Nat) (hb : b ≤ 16) : (BitVec.ofNat 12 b + BitVec.ofNat 12 k).toNat = b + k := by simp; omega
    exact ⟨(hw _ _ (hn 8 (by decide)) (by omega)).trans hb, (hw _ _ (hn 12 (by decide)) (by omega)).trans he, (hw _ _ (hn 16 (by decide)) (by omega)).trans hc⟩
  · rw [hw 0x004 4 rfl (by decide), hr 0x004 4 rfl (by decide), (Thread.ownCsr_scl _).1, (Thread.ownCsr_scl _).1]
    rfl
  · rw [hw 0x004 4 rfl (by decide), hr 0x004 4 rfl (by decide), (Thread.ownCsr_scl _).2, (Thread.ownCsr_scl _).2]
    rfl
  · rw [hw 0x022 0x22 rfl (by decide)]
    exact Thread.tstat_pfx _

/-- A `csrw` in any of its forms. -/
theorem exec_csrw (s : State) (n : BitVec 12) (a : Sreg) (i : Instr) (y : Word) (h : (i = .csrwReg n a ∧ y = s.sr a) ∨ i = .csrwImm n y) :
    exec i s = .next (s.csrwOp n y) := by
  obtain ⟨rfl, rfl⟩ | rfl := h <;> rfl

/-- A `csrw` of a format register. -/
theorem csrw_format {s : State} (hs : s.Here = true) (hl : s.endsLegally = true) {p k : Nat} (ha : s.cur.agent = .tile p k) (n : BitVec 12) (y : Word)
    (hn : 0x110 ≤ n.toNat ∧ n.toNat ≤ 0x114) :
    let t := s.finish (csrWrite s s.cur.agent s.cur.th n y)
    s.SameBytes t ∧ s.Ended t none ∧ s.here.Frame t.here ∧ s.SameRegs t ∧ ∀ i, i < 8 → 8 * (n.toNat - 0x110) + i < 40 →
      (t.tile p k).fmt.toList.getD (8 * (n.toNat - 0x110) + i) 0 =
        if fmtAllowed (fmtBuf (8 * (n.toNat - 0x110) + i)) (y.extractLsb' (8 * i) 8) = true then y.extractLsb' (8 * i) 8
        else (s.tile p k).fmt.toList.getD (8 * (n.toNat - 0x110) + i) 0 := by
  intro t
  have hu : csrWrite s s.cur.agent s.cur.th n y = s.modTile p k fun T => T.writeFmt (n.toNat - 0x110) y := by
    rw [ha]
    unfold csrWrite
    dsimp only
    rw [if_neg (by omega), if_neg (by omega), dif_neg (by omega), if_pos (by omega)]
  have hthreads := s.sameThreads_modTile p k (fun T => T.writeFmt (n.toNat - 0x110) y) fun T => T.threads_writeFmt _ _
  have hhere := hthreads.here rfl
  have hfin : t = (s.modTile p k fun T => T.writeFmt (n.toNat - 0x110) y).modHere (s.ends none) := by
    rw [← State.finish_eq_of_here (hb := s.here.hb) hl hhere rfl, ← hu]
  have ht : t.here = s.ends none s.here := by rw [hfin, State.here_modHere _ (hthreads.Here rfl hs), hhere]
  refine ⟨?_, State.ended_of_here ht, ?_, State.sameRegs_of (by rw [ht]; rfl) (by rw [ht]; rfl), fun i hi hk => ?_⟩
  · rw [hfin]
    have hbytes : s.SameBytes (s.modTile p k fun T => T.writeFmt (n.toNat - 0x110) y) :=
      State.sameBytes_of (s.main_modTile p k _) (s.bufs_modTile p k _ fun T => T.mem_writeFmt _ _)
    exact hbytes.trans (State.sameBytes_modHere _ _)
  · rw [ht]
    rfl
  · rw [hfin, State.modHere_tile_keeps Tile.fmt (fun _ _ _ => rfl), s.tile_modTile p k _ (State.tile_of_Here hs ha)]
    exact (s.tile p k).fmt_writeFmt y hi hk

theorem controlRegistersReadAndWritten : ControlRegistersReadAndWritten := by
  intro s d a n y hs hf refused fmt
  have hassigned := State.csrUnassigned_of hf
  have hfmt : fmt = isFmtCsr n := by
    show (decide _ && decide _) = (decide _ && decide _)
    simp [BitVec.le_def]
  have hop (y : Word) : s.csrwOp n y = if csrRefused s.here n then s.raise .priv (n.setWidth 64)
      else if isFmtCsr n then s.finish (csrWrite s s.cur.agent s.cur.th n y)
      else s.finish (s.modHere fun t => { t with pend := t.pend ++ [⟨s.cycle + 1, .csr n, y, 0⟩] }) := by
    rw [State.csrwOp, hassigned]
    rfl
  refine ⟨fun hl => ?_, fun hr => ?_, fun ha hn hr hf hl => ?_, fun ha hf hl p k hag i y hi => ?_⟩
  · have hread : exec (.csrr d n) s = .next (s.scalarOp 2 d (csrRead s s.cur.agent s.cur.th n) 0) := by
      show Host.Outcome.next (if s.csrUnassigned n then _ else _) = _
      rw [hassigned]
      rfl
    exact ⟨_, hread, s.laterS_scalarOp hs hl 2 (by decide) d _ 0⟩
  · have hpriv (y : Word) : s.csrwOp n y = s.raise .priv (n.setWidth 64) := by rw [hop, csrRefused_of_csrwRefused _ _ hr]; rfl
    exact ⟨congrArg Host.Outcome.next (hpriv _), congrArg Host.Outcome.next (hpriv _)⟩
  · have hqueued (y : Word) : s.Queued (s.csrwOp n y) ⟨s.cycle + 1, .csr n, y, 0⟩ := by
      rw [hop, not_csrRefused_of _ _ ha (fun h => hn (BitVec.eq_of_toNat_eq h)) hr, ← hfmt, hf]
      exact s.queued_finish hs hl _
    exact ⟨⟨_, rfl, hqueued _⟩, _, rfl, hqueued _⟩
  · rw [hfmt] at hf
    have hrange := (isFmtCsr_iff n).1 hf
    have hnot : csrRefused s.here n = false :=
      not_csrRefused_of _ _ ha (by omega) (Bool.eq_false_iff.2 fun h => by have := (csrwRefused_iff _ _).1 h; omega)
    refine ⟨_, exec_csrw s n a i y hi, ?_⟩
    rw [hop, hnot, hf]
    exact csrw_format hs hl hag n y hrange

/-- Settles O18, a written register read through its own fields. -/
theorem controlRegistersAreReadAndWritten : Obligations.ControlRegistersAreReadAndWritten :=
  ⟨controlRegistersReadAndWritten, writtenControlRegistersReadBackByField⟩

end Sys2Proof.Proofs
end

section
/-!
PROOF of O19: the checks of an access, in order, with cause and detail.
-/

-- One lemma at a time: none holds a thread while the ones before it are checked.
set_option Elab.async false

namespace Sys2Proof.Machine

open Sys2Proof.Claims

/-! ### The accesses of the tables (R248, R251) -/

/-- An atomic of the table runs as R251 gives it. -/
theorem exec_atomicForm {s : State} {o : Word} {i : Instr} {d : Sreg} {a : AtomOp} {z : Option Word} (h : atomicForm s o i = some (d, a, z)) :
    ∃ f x y, exec i s = .next (s.atomic f d a.ref x y) := by
  unfold atomicForm at h
  split at h <;> cases h <;> exact ⟨_, _, _, rfl⟩

/-- An instruction is an access of n bytes with a memory operand and a use, by the tables of R248 and R251. -/
def State.Accesses (s : State) (i : Instr) (n : Nat) (m : MemRef) (u : Use) : Prop :=
  (∃ sg d, loadForm i = some (n, sg, d, m)) ∧ u = .load ∨ (∃ d, storeForm i = some (n, d, m)) ∧ u = .store ∨
    (∃ o d a z, atomicForm s o i = some (d, a, z) ∧ m = a.ref) ∧ n = 8 ∧ u = .atomic

/-- An access that fails a check raises its cause and detail. -/
theorem State.Accesses.raises {s : State} {i : Instr} {n : Nat} {m : MemRef} {u : Use} (h : s.Accesses i n m u) {c : Cause} {d : Word}
    (hc : accessCheck s m.space (address s m) n n u = some (c, d)) : Raises i s c d := by
  obtain ⟨⟨sg, r, hi⟩, rfl⟩ | ⟨⟨r, hi⟩, rfl⟩ | ⟨⟨o, r, a, z, hi, rfl⟩, rfl, rfl⟩ := h
  · rw [Raises, exec_loadForm hi, State.load, s.ea_eq_address, hc]
  · rw [Raises, exec_storeForm hi, State.store, s.ea_eq_address, hc]
  · obtain ⟨f, x, y, he⟩ := exec_atomicForm hi
    rw [Raises, he, State.atomic, s.ea_eq_address, hc]

/-- The widths of the accesses. -/
theorem State.Accesses.width {s : State} {i : Instr} {n : Nat} {m : MemRef} {u : Use} (h : s.Accesses i n m u) : n = 1 ∨ n = 2 ∨ n = 4 ∨ n = 8 := by
  obtain ⟨⟨sg, r, hi⟩, -⟩ | ⟨⟨r, hi⟩, -⟩ | ⟨-, rfl, -⟩ := h
  · unfold loadForm at hi
    split at hi <;> cases hi <;> decide
  · unfold storeForm at hi
    split at hi <;> cases hi <;> decide
  · decide

/-- An access is no line fetch. -/
theorem State.Accesses.ne_line {s : State} {i : Instr} {n : Nat} {m : MemRef} {u : Use} (h : s.Accesses i n m u) : u ≠ .line := by
  obtain ⟨-, rfl⟩ | ⟨-, rfl⟩ | ⟨-, -, rfl⟩ := h <;> decide

/-! ### The checks (R247) -/

theorem bufOf_eq_spaceBuf (sp : Space) : bufOf sp = spaceBuf sp := by cases sp <;> rfl

section
variable {s : State} {sp : Space} {ea : Word} {n : Nat} {u : Use}

/-- A buffer, in a mode that has it, is checked for its use alone. -/
theorem accessCheck_buf (hb : bufOf sp ≠ none) (hf : s.here.mode ≠ .firmware) (ha : ea.toNat % n = 0) :
    accessCheck s sp ea n n u = if sp = .w ∧ u ≠ .load ∨ u = .atomic then some (.prot, ea) else none := by
  unfold accessCheck
  cases sp with
  | w => by_cases hu : u = .load <;> simp [hf, ha, hu]
  | a | c => by_cases hu : u = .atomic <;> simp [hf, ha, hu]
  | g | m => exact absurd rfl hb

/-- A global address is checked by its high bits in firmware mode, and else by the tile's tables. -/
theorem accessCheck_g (ha : ea.toNat % n = 0) : accessCheck s .g ea n n u =
    if s.here.mode = .firmware then (if ea.extractLsb' 57 7 ≠ 0 then some (.prot, ea) else none) else globalCheck s s.hereP s.hereT u ea n := by
  unfold accessCheck
  simp [ha, spaceBuf]

/-- `m:` outside firmware mode is refused first. -/
theorem accessCheck_m (h : s.here.mode ≠ .firmware) : accessCheck s .m ea n n u = some (.priv, ea) := by
  unfold accessCheck
  rw [if_pos (by simp [h])]

/-- A buffer in firmware mode is refused first. -/
theorem accessCheck_firmware (hb : bufOf sp ≠ none) (h : s.here.mode = .firmware) : accessCheck s sp ea n n u = some (.priv, ea) := by
  rw [bufOf_eq_spaceBuf] at hb
  unfold accessCheck
  dsimp only
  rw [if_neg (by simp [h]), if_pos ⟨Option.isSome_iff_ne_none.2 hb, decide_eq_true h⟩]

/-- In a space that the mode has, an address that is no multiple of the width is refused next. -/
theorem accessCheck_unaligned (hsp : (sp = .m ↔ s.here.mode = .firmware) ∨ sp = .g) (ha : ea.toNat % n ≠ 0) :
    accessCheck s sp ea n n u = some (.align, ea) := by
  unfold accessCheck
  dsimp only
  rw [if_neg, if_neg, if_pos (.inl ha)]
  · rintro ⟨h, hf⟩
    obtain hsp | rfl := hsp
    · rw [hsp.2 (of_decide_eq_true hf)] at h
      cases h
    · cases h
  · rintro ⟨rfl, hf⟩
    obtain hsp | hsp := hsp
    · simp [hsp.1 rfl] at hf
    · cases hsp

/-- A global address of a tile whose high bits are set is refused before its extent is looked up. -/
theorem globalCheck_high (p t : Nat) (h : ea.extractLsb' 57 7 ≠ 0) : globalCheck s p t u ea n = some (.prot, ea) := by
  unfold globalCheck
  dsimp only
  rw [if_pos (by simpa using h)]

/-- A number whose seven highest bits are clear is a global address. -/
theorem toNat_lt_of_high (h : ea.extractLsb' 57 7 = 0) : ea.toNat < Config.addrSize := by
  have hn := congrArg BitVec.toNat h
  have hlt := ea.isLt
  rw [BitVec.extractLsb'_toNat, Nat.shiftRight_eq_div_pow] at hn
  change _ = 0 at hn
  show ea.toNat < 2 ^ 57
  omega

/-- The checks of an aligned global access: its one piece against the extents and their permissions, and then its region. -/
theorem globalCheck_piece (p t : Nat) (hn : n = 1 ∨ n = 2 ∨ n = 4 ∨ n = 8) (ha : ea.toNat % n = 0) (h : ea.extractLsb' 57 7 = 0) :
    ∃ rest, globalCheck s p t u ea n = (extentCheck (s.part p) (s.tile p t) ea.toNat).or ((permCheck (s.tile p t) u ea.toNat).or rest) := by
  have hpiece : pieces ea.toNat n = [(ea.toNat, n)] := pieces_of_page (by omega) (by rcases hn with rfl | rfl | rfl | rfl <;> omega)
  have hsize : decide (Config.addrSize ≤ ea.toNat) = false := decide_eq_false (Nat.not_le.2 (toNat_lt_of_high h))
  unfold globalCheck
  dsimp only
  rw [if_neg (by simp [h]), hpiece]
  simp only [List.find?_cons, List.find?_nil, hsize, Option.map_none, Option.none_or, List.findSome?_singleton]
  exact ⟨_, rfl⟩

/-- A page that is in no extent, and was not appended. -/
theorem extentCheck_unstaged (P : Partition) (T : Tile) {va : Nat} (h : T.extent va = none) (h1 : T.appended = []) (h2 : T.appendedFull = false) :
    extentCheck P T va = some (.unstaged, BitVec.ofNat 64 (va / 65536 * 65536)) := by
  unfold extentCheck unstagedAs
  simp [h, h1, h2]

/-- An extent that does not give the permission. -/
theorem permCheck_refused (T : Tile) {va : Nat} {e : Extent} (h : T.extent va = some e)
    (hp : u = .load ∧ e.r = false ∨ u = .store ∧ e.w = false ∨ u = .atomic ∧ (e.w = false ∨ e.kind ≠ .l)) :
    extentCheck (s.part p) T va = none ∧ permCheck T u va = some (.prot, BitVec.ofNat 64 va) := by
  refine ⟨by simp [extentCheck, h], ?_⟩
  unfold permCheck
  rw [h]
  obtain ⟨rfl, hr⟩ | ⟨rfl, hw⟩ | ⟨rfl, hw | hk⟩ := hp <;> simp [*]

end

end Sys2Proof.Machine

namespace Sys2Proof.Proofs

open Sys2Proof Sys2Proof.Machine Sys2Proof.Claims

/-- Settles O19: each check, once those before it pass, is the one that `accessCheck` finds. -/
theorem accessesAreCheckedInOrder : Obligations.AccessesAreCheckedInOrder := by
  intro s i n m u h ea fw
  have hraise : ∀ {c d}, accessCheck s m.space ea n n u = some (c, d) → Raises i s c d := State.Accesses.raises h
  refine ⟨fun hm hf => hraise ?_, fun hb hf => hraise (accessCheck_firmware hb (of_decide_eq_true hf)),
    fun hsp ha => hraise (accessCheck_unaligned (hsp.imp_left fun h => h.trans decide_eq_true_iff) ha), fun hf ha hsp => hraise ?_,
    fun hg ha hhigh => hraise ?_, fun p k hag hg hf ha hhigh => ?_⟩
  · rw [hm]
    exact accessCheck_m (of_decide_eq_false hf)
  · have hb : bufOf m.space ≠ none := by
      obtain ⟨h, -⟩ | ⟨h, -⟩ := hsp
      · rw [h]
        decide
      · exact h
    rw [accessCheck_buf hb (of_decide_eq_false hf) ha, if_pos (hsp.imp_right And.right)]
  · rw [hg, accessCheck_g ha]
    by_cases hf : s.here.mode = .firmware
    · rw [if_pos hf, if_pos hhigh]
    · rw [if_neg hf, globalCheck_high _ _ hhigh]
  · have hcheck : accessCheck s m.space ea n n u = globalCheck s p k u ea n := by
      rw [hg, accessCheck_g ha, if_neg (of_decide_eq_false hf), State.hereP, State.hereT, hag]
    obtain ⟨rest, hrest⟩ := globalCheck_piece (s := s) (u := u) p k (State.Accesses.width h) ha hhigh
    refine ⟨fun hext happ hfull => hraise ?_, fun e he hperm => hraise ?_⟩
    · rw [hcheck, hrest, extentCheck_unstaged _ _ hext happ hfull]
      rfl
    · obtain ⟨hnone, hsome⟩ := permCheck_refused (s := s) (p := p) _ he hperm
      rw [hcheck, hrest, hnone, hsome, BitVec.ofNat_toNat, BitVec.setWidth_eq]
      rfl

end Sys2Proof.Proofs
end

section
/-!
PROOF of O20: loads from tile buffers.
-/

-- One lemma at a time: none holds a thread while the ones before it are checked.
set_option Elab.async false

namespace Sys2Proof.Machine

open Sys2Proof.Claims

/-! ### %oob through an access (R101) -/

/-- A recorded access has its valid bit set. -/
theorem Thread.oob_recordOob (t : Thread) (sp : Nat) (wr : Bool) (a : Nat) : (t.recordOob sp wr a).oob.getLsbD 63 = true := by
  unfold Thread.recordOob
  split
  · assumption
  · dsimp only
    rw [BitVec.getLsbD_ofNat, Nat.testBit_eq_decide_div_mod_eq]
    cases wr <;> simp <;> omega

theorem Thread.oob_noteOrder (t : Thread) (cyc : Nat) (sp : Space) (k : Kind) (o : Order) (sc : Scope) : (t.noteOrder cyc sp k o sc).oob = t.oob := by
  unfold Thread.noteOrder Thread.noteClamp
  split
  · rfl
  · split <;> rfl

theorem Thread.oob_meet (t : Thread) (cyc : Nat) (me : Agent) (i : Nat) (gs : List Tag) (sc : Option Scope) : (t.meet cyc me i gs sc).oob = t.oob := by
  cases sc with
  | none => rfl
  | some c =>
    show (Thread.acquire _ _ _ _ _ _).oob = _
    unfold Thread.acquire
    dsimp only
    split <;> rfl

/-! ### An access that acts on its thread alone -/

/-- An access has acted on its thread, and on nothing else. -/
def State.Touched (s t : State) : Prop := t = s.modHere (fun _ => t.here) ∧ s.here.Accessed s.cycle t.here

theorem State.Touched.refl (s : State) : s.Touched s :=
  ⟨((s.modHere_const fun t => t).symm.trans s.modHere_id).symm, .refl _ _⟩

theorem State.touched_modHere {s : State} (hs : s.Here = true) (f : Thread → Thread) (hf : s.here.Accessed s.cycle (f s.here)) : s.Touched (s.modHere f) := by
  have hhere := s.here_modHere hs f
  refine ⟨?_, by rw [hhere]; exact hf⟩
  rw [hhere]
  exact s.modHere_const f

theorem State.Touched.noted {s t : State} (h : s.Touched t) (hs : s.Here = true) : s.Noted t := by
  obtain ⟨ht, hacc⟩ := h
  have hn := s.noted_modHere hs (fun _ => t.here) hacc
  rwa [← ht] at hn

theorem State.Touched.clock {s t : State} (h : s.Touched t) : t.cycle = s.cycle := by
  obtain ⟨ht, -⟩ := h
  rw [ht]
  exact s.modHere_cycle _

theorem State.Touched.trans {s t u : State} (h1 : s.Touched t) (h2 : t.Touched u) : s.Touched u := by
  have hcyc := h1.clock
  obtain ⟨ht, hacc1⟩ := h1
  obtain ⟨hu, hacc2⟩ := h2
  rw [hcyc] at hacc2
  refine ⟨?_, hacc1.trans hacc2⟩
  calc u = t.modHere fun _ => u.here := hu
    _ = (s.modHere fun _ => t.here).modHere fun _ => u.here := congrArg (fun v : State => v.modHere fun _ => u.here) ht
    _ = s.modHere fun _ => u.here := s.modHere_modHere _ _

/-- What an access leaves of %oob: it is as it was, or is set by a byte out of range (R101). -/
theorem State.touched_noteOob {s : State} (hs : s.Here = true) (b : Buf) (ea : Word) (n : Nat) (hn : 0 < n) (wr : Bool) :
    s.Touched (s.noteOob b ea n wr) ∧ (ea.toNat + n ≤ Config.bufSize b → (s.noteOob b ea n wr).here.oob = s.here.oob) ∧
      (Config.bufSize b < ea.toNat + n → (s.noteOob b ea n wr).here.oob.getLsbD 63 = true) := by
  unfold State.noteOob oobByte
  by_cases h : ea.toNat + n ≤ Config.bufSize b
  · rw [if_pos (.inr h)]
    exact ⟨.refl s, fun _ => rfl, fun h' => absurd h (by omega)⟩
  · rw [if_neg (by omega)]
    dsimp only
    refine ⟨State.touched_modHere hs _ (Thread.accessed_oobNow _ _ _ _ _), fun h' => absurd h' h, fun _ => ?_⟩
    rw [s.here_modHere hs]
    exact Thread.oob_recordOob _ _ _ _

theorem State.touched_noteOrder {s : State} (hs : s.Here = true) (sp : Space) (k : Kind) (o : Order) (sc : Scope) :
    s.Touched (s.modHere fun t => t.noteOrder s.cycle sp k o sc) ∧ (s.modHere fun t => t.noteOrder s.cycle sp k o sc).here.oob = s.here.oob := by
  refine ⟨State.touched_modHere hs _ (Thread.accessed_noteOrder _ _ _ _ _ _), ?_⟩
  rw [s.here_modHere hs]
  exact Thread.oob_noteOrder _ _ _ _ _ _

theorem State.touched_meetTag {s : State} (hs : s.Here = true) (w : TagAt) (lo n : Nat) (sc : Option Scope) :
    s.Touched (s.meetTag w lo n sc) ∧ (s.meetTag w lo n sc).here.oob = s.here.oob := by
  rcases s.meetTag_cases w lo n sc with h | ⟨gs, h⟩ <;> rw [h]
  · exact ⟨.refl s, rfl⟩
  · refine ⟨State.touched_modHere hs _ (Thread.accessed_meet _ _ _ _ _ _), ?_⟩
    rw [s.here_modHere hs]
    exact Thread.oob_meet _ _ _ _ _ _

/-- The unit of an access ends with one more write to land. -/
theorem State.Touched.finish_later {s u : State} (h : s.Touched u) (hs : s.Here = true) (hl : s.endsLegally = true) (x : Pend) :
    s.OnlyThread (s.finish (u.modHere fun t => { t with pend := t.pend ++ [x] })) ∧
      (s.finish (u.modHere fun t => { t with pend := t.pend ++ [x] })).here = s.ends none { u.here with pend := u.here.pend ++ [x] } := by
  have hH := (h.noted hs).Here hs
  have hcyc := h.clock
  obtain ⟨hu, ⟨hframe, -, -, hlc, -⟩⟩ := h
  have hhere := u.here_modHere hH fun t => { t with pend := t.pend ++ [x] }
  have hloop : u.here.lb = s.here.lb ∧ u.here.le = s.here.le ∧ u.here.lc = s.here.lc := ⟨by rw [hframe], by rw [hframe], hlc⟩
  have hfin : s.finish (u.modHere fun t => { t with pend := t.pend ++ [x] }) = (u.modHere fun t => { t with pend := t.pend ++ [x] }).modHere (s.ends none) :=
    State.finish_of ((u.modHere_cycle _).trans hcyc) (by rw [hhere]; exact hloop) hl
  have hmod : s.finish (u.modHere fun t => { t with pend := t.pend ++ [x] }) = s.modHere fun _ => s.ends none { u.here with pend := u.here.pend ++ [x] } := by
    rw [hfin, u.modHere_modHere, hu, s.modHere_modHere, ← hu]
  have hthread : (s.finish (u.modHere fun t => { t with pend := t.pend ++ [x] })).here = s.ends none { u.here with pend := u.here.pend ++ [x] } := by
    rw [hmod, s.here_modHere hs]
  refine ⟨⟨?_, ?_⟩, hthread⟩
  · rw [hthread]
    exact hmod
  · rw [hmod]
    exact s.sameBytes_modHere _

/-! ### Loads from tile buffers (R249) -/

/-- What a load of n bytes of a buffer has done when its value is known: out-of-range bytes recorded, its order noted and its word's tags met. -/
def State.bufRead (s : State) (b : Buf) (n : Nat) (m : MemRef) : State :=
  ((s.noteOob b (address s m) n false).modHere fun t => t.noteOrder s.cycle m.space .v m.order m.scope).meetTag
    (.buf s.hereP s.hereT b ((address s m).toNat / 8 * 8)) ((address s m).toNat % 8) n (s.here.orderScope m.space .v m.order m.scope)

theorem State.touched_bufRead {s : State} (hs : s.Here = true) (b : Buf) (n : Nat) (hn : 0 < n) (m : MemRef) : s.Touched (s.bufRead b n m) ∧
    ((address s m).toNat + n ≤ Config.bufSize b → (s.bufRead b n m).here.oob = s.here.oob) ∧
      (Config.bufSize b < (address s m).toNat + n → (s.bufRead b n m).here.oob.getLsbD 63 = true) := by
  obtain ⟨h1, hin, hout⟩ := s.touched_noteOob hs b (address s m) n hn false
  have hH1 := (h1.noted hs).Here hs
  obtain ⟨h2, hoob2⟩ := State.touched_noteOrder hH1 m.space .v m.order m.scope
  rw [h1.clock] at h2 hoob2
  obtain ⟨h3, hoob3⟩ := State.touched_meetTag ((h2.noted hH1).Here hH1) (.buf s.hereP s.hereT b ((address s m).toNat / 8 * 8)) ((address s m).toNat % 8) n
    (s.here.orderScope m.space .v m.order m.scope)
  have hoob : (s.bufRead b n m).here.oob = (s.noteOob b (address s m) n false).here.oob := hoob3.trans hoob2
  rw [hoob]
  exact ⟨(h1.trans h2).trans h3, hin, hout⟩

/-- A load from a tile buffer that passes its checks. -/
theorem State.load_buf {s : State} {n : Nat} {sg : Bool} {d : Sreg} {m : MemRef} {p k : Nat} {b : Buf} (hb : bufOf m.space = some b)
    (ha : s.cur.agent = .tile p k) (hf : s.here.mode ≠ .firmware) (hal : (address s m).toNat % n = 0) :
    let v := extendN n sg (leNat ((s.tile p k).readBuf b (address s m).toNat n))
    s.load n sg d m = if (s.tile p k).spilled b (address s m).toNat n then
        s.orHold ((s.bufRead b n m).blockSpilled (s.shadowChans p k b (address s m).toNat n) (.result (some d) v))
      else s.finish ((s.bufRead b n m).writeS 4 d v 0) := by
  have hcheck : accessCheck s m.space (address s m) n n .load = none := by
    rw [accessCheck_buf (by rw [hb]; simp) hf hal]
    simp
  have hsp : spaceBuf m.space = some b := (bufOf_eq_spaceBuf m.space).symm.trans hb
  unfold State.load
  rw [s.ea_eq_address]
  dsimp only
  rw [hcheck, hsp]
  dsimp only
  have hP : s.hereP = p := by rw [State.hereP, ha]
  have hT : s.hereT = k := by rw [State.hereT, ha]
  rw [State.bufRead, State.hereTile_of ha, hP, hT]

/-- A wait for spilled granules: its end is due, after the channels that hold them (R108, R344). -/
theorem State.Noted.blockSpilled {s t : State} (h : s.Noted t) (hs : s.Here = true) (chs : List Nat) (w : Wait) :
    s.WaitsOn (t.blockSpilled chs w) w ∧ completionAfter s (t.blockSpilled chs w) chs := by
  refine ⟨(h.waitsOn_block hs w).scheduleFree _ _ _, Config.delay .memRead (t.block w).fresh, ?_⟩
  obtain ⟨-, -, hcur, hcyc, hag, -, -⟩ := h
  have hag' : (t.block w).agenda = t.agenda := t.modHere_agenda _
  have hcyc' : (t.block w).cycle = t.cycle := t.modHere_cycle _
  rw [State.blockSpilled, State.agenda_scheduleFree, hag', hcyc', hag, hcyc, hcur, Nat.add_assoc]

/-- A wait for spilled granules leaves %oob as the access did. -/
theorem State.oob_blockSpilled (t : State) (h : t.Here = true) (chs : List Nat) (w : Wait) : (t.blockSpilled chs w).here.oob = t.here.oob := by
  have hhere : (t.blockSpilled chs w).here = (t.block w).here := rfl
  rw [hhere, State.block, t.here_modHere h]

end Sys2Proof.Machine

namespace Sys2Proof.Proofs

open Sys2Proof Sys2Proof.Machine Sys2Proof.Claims

/-- Settles O20: the load acts on its thread alone, and then waits for spilled granules or queues its value. -/
theorem bufferLoadsLandExtended : Obligations.BufferLoadsLandExtended := by
  intro s i n sg d m p k b hi hb ha hs hf hal ea v
  have hn : n = 1 ∨ n = 2 ∨ n = 4 ∨ n = 8 := State.Accesses.width (s := s) (u := .load) (.inl ⟨⟨sg, d, hi⟩, rfl⟩)
  have hv : extendN n sg (leNat ((s.tile p k).readBuf b ea n)) = v := by
    simpa only [Tile.length_readBuf] using extendN_leNat sg ((s.tile p k).readBuf b ea n) (by rw [Tile.length_readBuf]; omega)
  have hexec := (exec_loadForm hi s).trans (congrArg Host.Outcome.next (State.load_buf (sg := sg) (d := d) hb ha hf hal))
  rw [show extendN n sg (leNat ((s.tile p k).readBuf b (address s m).toNat n)) = v from hv] at hexec
  obtain ⟨htouched, hin, hout⟩ := State.touched_bufRead hs b n (by omega) m
  have hnoted := htouched.noted hs
  by_cases hsp : (s.tile p k).spilled b ea n = true
  · rw [if_pos (show (s.tile p k).spilled b (address s m).toNat n = true from hsp)] at hexec
    refine ⟨fun hret => ?_, fun _ => holdsItsReturn_of_orHold hs hexec⟩
    rw [if_pos hsp] at hret
    obtain ⟨⟨hbytes, hregs, hframe, hkept, -, hwait⟩, hdue⟩ := hnoted.blockSpilled hs (s.shadowChans p k b ea n) (.result (some d) v)
    have hoob := State.oob_blockSpilled _ (hnoted.Here hs) (s.shadowChans p k b ea n) (.result (some d) v)
    rw [State.orHold_none _ _ hret] at hexec
    refine ⟨_, hexec, hbytes, hregs, hframe, ?_, ?_⟩
    · rw [if_pos hsp]
      exact ⟨hwait, hkept, hdue⟩
    · rw [hoob]
      exact ⟨hin, hout⟩
  · rw [if_neg (show ¬ (s.tile p k).spilled b (address s m).toNat n = true from hsp)] at hexec
    refine ⟨fun hret => ?_, fun h => absurd h hsp⟩
    rw [if_neg hsp] at hret
    obtain ⟨honly, hhere⟩ := htouched.finish_later hs hret ⟨s.cycle + 3, .s d, v, 0⟩
    have hwrite : (s.bufRead b n m).writeS 4 d v 0 = (s.bufRead b n m).modHere fun t => { t with pend := t.pend ++ [⟨s.cycle + 3, .s d, v, 0⟩] } := by
      unfold State.writeS
      rw [if_neg (by decide), htouched.clock]
      rfl
    obtain ⟨-, hframe, hkept, -, -, -⟩ := htouched
    have hframe' : AccessFrame s.here (s.ends none { (s.bufRead b n m).here with pend := (s.bufRead b n m).here.pend ++ [⟨s.cycle + 3, .s d, v, 0⟩] }) := by
      unfold AccessFrame at *
      rw [hframe]
      rfl
    rw [hwrite] at hexec
    rw [← hhere] at hframe'
    refine ⟨_, hexec, honly.2, AccessFrame.sr hframe', hframe', ?_, ?_⟩
    · rw [if_neg hsp]
      exact ⟨honly, State.ended_of_here hhere, _, hkept, by rw [hhere]; rfl⟩
    · rw [hhere]
      exact ⟨hin, hout⟩

end Sys2Proof.Proofs
end

section
/-!
PROOF of O22: stores to tile buffers.
-/

-- One lemma at a time: none holds a thread while the ones before it are checked.
set_option Elab.async false

namespace Sys2Proof.Machine

open Sys2Proof.Claims

/-! ### One byte of a buffer after a write (R101, R107) -/

/-- A byte read through a record that covers it. -/
theorem overlay_byte {x start : Nat} {b : Byte} {data : List Byte} (h : start ≤ x) (h2 : x < start + data.length) :
    overlay x [b] start data = [data[x - start]'(by omega)] := by
  have hdrop : (data.drop (x - start)).take 1 = [data[x - start]'(by omega)] := by
    rw [List.drop_eq_getElem_cons (by omega)]
    rfl
  unfold overlay
  rw [if_neg (by simp only [List.length_singleton]; omega)]
  by_cases hx : x ≤ start
  · obtain rfl : x = start := by omega
    rw [if_pos hx]
    simp only [Nat.sub_self, List.drop_zero, List.take_zero, List.nil_append, List.length_singleton] at hdrop ⊢
    rw [Nat.add_sub_cancel_left, hdrop, List.drop_eq_nil_of_le (by simp; omega), List.append_nil]
  · rw [if_neg hx]
    show List.take 1 _ ++ List.drop (List.take 1 _).length [b] = _
    rw [hdrop]
    rfl

/-- A byte of a buffer after a write: the written byte where the write covers it within the buffer, else the byte before. -/
theorem Tile.readByte_writeLatent (T : Tile) (b : Buf) (w : WRec) (b2 : Buf) (x : Nat) : (T.writeLatent b w).readBuf b2 x 1 =
    if h : b2 = b ∧ w.loc.addr ≤ x ∧ x < w.loc.addr + w.data.length ∧ x < Config.bufSize b then
      [w.data[x - w.loc.addr]'(by omega)] else T.readBuf b2 x 1 := by
  by_cases hcover : b2 = b ∧ w.loc.addr ≤ x ∧ x < w.loc.addr + w.data.length
  · obtain ⟨rfl, hlo, hhi⟩ := hcover
    by_cases hx : x < Config.bufSize b2
    · rw [dif_pos ⟨rfl, hlo, hhi, hx⟩]
      have hone : min 1 (Config.bufSize b2 - x) = 1 := by omega
      obtain ⟨y, hy⟩ : ∃ y, T.readIn b2 x 1 = [y] := List.length_eq_one_iff.1 (T.length_readIn b2 x 1)
      unfold Tile.readBuf
      dsimp only
      rw [hone, T.readIn_writeLatent, if_pos rfl, hy, overlay_byte hlo (by rw [List.length_take]; omega), List.getElem_take]
      rfl
    · rw [dif_neg (by omega)]
      have hzero : min 1 (Config.bufSize b2 - x) = 0 := by omega
      unfold Tile.readBuf
      dsimp only
      rw [hzero, List.eq_nil_of_length_eq_zero (Tile.length_readIn _ b2 x 0), List.eq_nil_of_length_eq_zero (Tile.length_readIn _ b2 x 0)]
  · rw [dif_neg fun h => hcover ⟨h.1, h.2.1, h.2.2.1⟩, T.readBuf_writeLatent_of_disjoint]
    by_cases hb : b2 = b
    · have hout : ¬ (w.loc.addr ≤ x ∧ x < w.loc.addr + w.data.length) := fun h => hcover ⟨hb, h⟩
      exact .inr (by omega)
    · exact .inl hb

/-! ### Row writes that land before a store (R92, R223, R249) -/

/-- Row writes of the current thread have landed: of the thread its pending writes and flags have changed, and of the memories only its tile's `c:`. -/
structure State.RowsLanded (s t : State) : Prop where
  here : t.here = { s.here with pend := t.here.pend, fflag := t.here.fflag }
  cur : t.cur = s.cur
  clock : t.cycle = s.cycle
  Here : t.Here = true
  main : t.main = s.main

theorem State.RowsLanded.refl {s : State} (hs : s.Here = true) : s.RowsLanded s := ⟨rfl, rfl, rfl, hs, rfl⟩

theorem State.RowsLanded.trans {s t u : State} (h1 : s.RowsLanded t) (h2 : t.RowsLanded u) : s.RowsLanded u := by
  refine ⟨?_, h2.cur.trans h1.cur, h2.clock.trans h1.clock, h2.Here, h2.main.trans h1.main⟩
  rw [h2.here, h1.here]

/-- A change of the thread's pending writes and flags. -/
theorem State.rowsLanded_modHere {s : State} (hs : s.Here = true) (f : Thread → Thread) (hf : f s.here = { s.here with pend := (f s.here).pend, fflag := (f s.here).fflag }) :
    s.RowsLanded (s.modHere f) := by
  refine ⟨?_, s.modHere_cur f, s.modHere_cycle f, (s.modHere_Here f).trans hs, s.main_modHere f⟩
  rw [s.here_modHere hs]
  exact hf

theorem State.rowsLanded_bufWrite {s : State} (hs : s.Here = true) (p k : Nat) (b : Buf) (w : WRec) : s.RowsLanded (s.bufWrite p k b w) := by
  have h := s.sameThreads_bufWrite p k b w
  have hhere := h.here rfl
  exact ⟨by rw [hhere], rfl, rfl, h.Here rfl hs, rfl⟩

theorem State.rowsLanded_applyPend {s : State} (hs : s.Here = true) {a : Agent} {i : Nat} (hc : s.cur = ⟨a, i⟩) {x : Pend} {w : WRec} (hx : x.dest = .row w) :
    s.RowsLanded (applyPend a i (s.modHere fun t => { t with pend := t.pend.erase x }) x) := by
  have herase := State.rowsLanded_modHere hs (fun t => { t with pend := t.pend.erase x }) rfl
  unfold applyPend
  dsimp only
  rw [hx]
  generalize (s.modHere fun t => { t with pend := t.pend.erase x }) = u at herase ⊢
  have hflags := State.rowsLanded_modHere herase.Here (fun t => t.orFlags x.flags) rfl
  rw [State.modHere, herase.cur, hc] at hflags
  cases a with
  | tile p k => exact (herase.trans hflags).trans (State.rowsLanded_bufWrite hflags.Here _ _ _ _)
  | ctrl d => exact herase.trans hflags

theorem State.rowsLanded_foldl (l : List Pend) (hl : ∀ x ∈ l, ∃ w, x.dest = .row w) {s : State} (hs : s.Here = true) :
    s.RowsLanded (l.foldl (fun s x => applyPend s.cur.agent s.cur.th (s.modHere fun t => { t with pend := t.pend.erase x }) x) s) := by
  induction l generalizing s with
  | nil => exact .refl hs
  | cons x l ih =>
    obtain ⟨w, hw⟩ := hl x List.mem_cons_self
    have hx := State.rowsLanded_applyPend hs rfl hw
    exact hx.trans (ih (fun y hy => hl y (List.mem_cons_of_mem _ hy)) hx.Here)

theorem State.rowsLanded_landRows {s : State} (hs : s.Here = true) : s.RowsLanded s.landRows := by
  refine State.rowsLanded_foldl _ (fun x hx => ?_) hs
  have hrow := (Bool.and_eq_true_iff.1 (List.mem_filter.1 hx).2).2
  cases hd : x.dest with
  | row w => exact ⟨w, rfl⟩
  | s r | p r | csr n => simp [hd] at hrow

/-- Without a row write that is due, none lands. -/
theorem State.landRows_of_none_due {s : State} (h : ∀ x ∈ s.here.pend, x.land ≤ s.cycle → ∀ w, x.dest ≠ .row w) : s.landRows = s := by
  unfold State.landRows
  rw [List.filter_eq_nil_iff.2, List.foldl_nil]
  intro x hx
  cases hd : x.dest with
  | row w =>
    have hnot : ¬ x.land ≤ s.cycle := fun hle => h x hx hle w hd
    simp [hnot]
  | s r | p r | csr n => simp

/-! ### A store to a tile buffer (R249) -/

/-- A thread's write to a buffer of its tile: the bytes, and the write's place in its thread's order. -/
theorem State.taskLatent_spec {s : State} (hs : s.Here = true) {p k : Nat} (ha : s.cur.agent = .tile p k) (b : Buf) (a : Nat) (data : List Byte) :
    let t := s.taskLatent p k s.cur.th b a data
    t.here = s.here.wrote s.opCtr ∧ t.cur = s.cur ∧ t.cycle = s.cycle ∧ t.Here = true ∧ t.main = s.main ∧
      ∀ q j b2 x, (t.tile q j).readBuf b2 x 1 = if h : (q = p ∧ j = k) ∧ b2 = b ∧ a ≤ x ∧ x < a + data.length ∧ x < Config.bufSize b then
        [data[x - a]'(by omega)] else (s.tile q j).readBuf b2 x 1 := by
  intro t
  obtain ⟨w, hw, hloc, hdata⟩ : ∃ w : WRec, t = (s.newId.bufWrite p k b w).modHere (Thread.wrote s.opCtr) ∧ w.loc.addr = a ∧ w.data = data :=
    ⟨_, by unfold State.modHere; show _ = State.modThread _ s.cur.agent s.cur.th _; rw [ha]; rfl, rfl, rfl⟩
  subst hloc hdata
  have hthreads := s.newId.sameThreads_bufWrite p k b w
  have hH : (s.newId.bufWrite p k b w).Here = true := hthreads.Here rfl hs
  rw [hw]
  refine ⟨?_, State.modHere_cur _ _, State.modHere_cycle _ _, (State.modHere_Here _ _).trans hH, State.main_modHere _ _, fun q j b2 x => ?_⟩
  · rw [State.here_modHere _ hH, hthreads.here rfl]
    rfl
  · rw [State.modHere_tile_keeps (fun T => T.readBuf b2 x 1) (fun T i f => Tile.readBuf_of_mem rfl _ _ _)]
    show ((s.newId.modTile p k fun T => T.writeLatent b w).tile q j).readBuf b2 x 1 = _
    by_cases hq : q = p ∧ j = k
    · obtain ⟨rfl, rfl⟩ := hq
      rw [s.newId.tile_modTile q j _ (State.tile_of_Here hs ha), Tile.readByte_writeLatent]
      simp only [true_and, and_self]
      rfl
    · rw [dif_neg fun h => hq h.1, State.tile_modTile_ne _ _ hq]
      rfl

/-- The state in which a store to a buffer writes: due row writes have landed before a store to `c:`, out-of-range bytes are recorded and the
store's order is noted. -/
def State.bufStoring (s : State) (b : Buf) (n : Nat) (m : MemRef) : State :=
  ((if b = .c then s.landRows else s).noteOob b (address s m) n true).modHere fun t => t.noteOrder s.cycle m.space .v m.order m.scope

theorem State.rowsLanded_before {s : State} (hs : s.Here = true) (b : Buf) : s.RowsLanded (if b = .c then s.landRows else s) := by
  split
  · exact State.rowsLanded_landRows hs
  · exact .refl hs

theorem State.touched_bufStoring {s : State} (hs : s.Here = true) (b : Buf) {n : Nat} (hn : 0 < n) (m : MemRef) :
    (if b = .c then s.landRows else s).Touched (s.bufStoring b n m) ∧
    ((address s m).toNat + n ≤ Config.bufSize b → (s.bufStoring b n m).here.oob = s.here.oob) ∧
      (Config.bufSize b < (address s m).toNat + n → (s.bufStoring b n m).here.oob.getLsbD 63 = true) := by
  have h0 := State.rowsLanded_before hs b
  unfold State.bufStoring
  generalize (if b = .c then s.landRows else s) = s0 at h0 ⊢
  obtain ⟨h1, hin, hout⟩ := State.touched_noteOob h0.Here b (address s m) n hn true
  have hcyc : (s0.noteOob b (address s m) n true).cycle = s.cycle := h1.clock.trans h0.clock
  obtain ⟨h2, hoob⟩ := State.touched_noteOrder ((h1.noted h0.Here).Here h0.Here) m.space .v m.order m.scope
  rw [hcyc] at h2 hoob
  have hoob0 : s0.here.oob = s.here.oob := by rw [h0.here]
  rw [hoob]
  exact ⟨h1.trans h2, fun h => (hin h).trans hoob0, hout⟩

/-- A store to a tile buffer that passes its checks. -/
theorem State.store_buf {s : State} {n : Nat} {d : Sreg} {m : MemRef} {p k : Nat} {b : Buf} (hb : bufOf m.space = some b) (hw : b ≠ .w)
    (ha : s.cur.agent = .tile p k) (hf : s.here.mode ≠ .firmware) (hal : (address s m).toNat % n = 0) :
    ∃ at_ lo rs, s.store n d m = s.finish
      (((s.bufStoring b n m).taskLatent p k s.cur.th b (address s m).toNat (leBytes n (s.sr d).toNat)).tagWord at_ lo n rs) := by
  have hcheck : accessCheck s m.space (address s m) n n .store = none := by
    have hsp : m.space ≠ .w := by
      intro h
      rw [h] at hb
      cases hb
      exact hw rfl
    rw [accessCheck_buf (by rw [hb]; simp) hf hal]
    simp [hsp]
  have hsp : spaceBuf m.space = some b := (bufOf_eq_spaceBuf m.space).symm.trans hb
  have hP : s.hereP = p := by rw [State.hereP, ha]
  have hT : s.hereT = k := by rw [State.hereT, ha]
  unfold State.store
  rw [s.ea_eq_address]
  dsimp only
  rw [hcheck, hsp]
  dsimp only
  rw [hP, hT]
  exact ⟨_, _, _, rfl⟩

theorem State.SameMain.trans {s t u : State} (h1 : s.SameMain t) (h2 : t.SameMain u) : s.SameMain u := by
  obtain ⟨a1, b1, c1, d1, e1⟩ := h1
  obtain ⟨a2, b2, c2, d2, e2⟩ := h2
  exact ⟨fun a => (a2 a).trans (a1 a), fun a => (b2 a).trans (b1 a), fun a => (c2 a).trans (c1 a), fun a => (d2 a).trans (d1 a),
    fun d a => (e2 d a).trans (e1 d a)⟩

/-- The unit of a store ends, its row writes landed, its access noted and its write made. -/
theorem State.finish_wrote {s s0 s1 u : State} (hl : s.endsLegally = true) (h0 : s.RowsLanded s0) (h1 : s0.Touched s1) {id : Nat}
    (hhere : u.here = s1.here.wrote id) (hcyc : u.cycle = s1.cycle) (hH : u.Here = true) :
    s.finish u = u.modHere (s.ends none) ∧ s.Ended (s.finish u) none ∧ s.SameRegs (s.finish u) ∧ AccessFrame s0.here (s.finish u).here ∧
      (∃ ps, Kept s.cycle s0.here.pend ps ∧ (s.finish u).here.pend = s.leftPend ps) ∧ (s.finish u).here.oob = s1.here.oob := by
  have hs0 := h0.here
  have hclock : u.cycle = s.cycle := hcyc.trans (h1.clock.trans h0.clock)
  obtain ⟨-, hframe, hkept, -, hlc, -⟩ := h1
  rw [h0.clock] at hkept
  have hloop : u.here.lb = s.here.lb ∧ u.here.le = s.here.le ∧ u.here.lc = s.here.lc := by
    rw [hhere]
    exact ⟨by rw [Thread.wrote, hframe, hs0], by rw [Thread.wrote, hframe, hs0], hlc.trans (by rw [hs0])⟩
  have hfin : s.finish u = u.modHere (s.ends none) := State.finish_of hclock hloop hl
  have hthread : (s.finish u).here = s.ends none (s1.here.wrote id) := by rw [hfin, State.here_modHere _ hH, hhere]
  have hkeep : (s.finish u).here.regs = s.here.regs ∧ (s.finish u).here.preds = s.here.preds := by
    rw [hthread, State.ends, Thread.wrote, hframe, hs0]
    exact ⟨rfl, rfl⟩
  refine ⟨hfin, State.ended_of_here hthread, State.sameRegs_of hkeep.1 hkeep.2, ?_, ⟨_, hkept, by rw [hthread]; rfl⟩, by rw [hthread]; rfl⟩
  rw [hthread]
  unfold AccessFrame at *
  rw [hframe]
  rfl

end Sys2Proof.Machine

namespace Sys2Proof.Proofs

open Sys2Proof Sys2Proof.Machine Sys2Proof.Claims

/-- Settles O22: due rows land, the store writes its bytes in its tile's buffer, and its unit ends. -/
theorem bufferStoresChangeTheirBytesAlone : Obligations.BufferStoresChangeTheirBytesAlone := by
  intro s i n d m p k b hi hb hw ha hs hf hal hl ea s0
  have hn : n = 1 ∨ n = 2 ∨ n = 4 ∨ n = 8 := State.Accesses.width (s := s) (u := .store) (.inr (.inl ⟨⟨d, hi⟩, rfl⟩))
  refine ⟨fun hnone => ?_, ?_⟩
  · show (if b = .c then s.landRows else s) = s
    rw [State.landRows_of_none_due hnone, ite_self]
  have h0 : s.RowsLanded s0 := State.rowsLanded_before hs b
  obtain ⟨htouched, hin, hout⟩ := State.touched_bufStoring hs b (show 0 < n by omega) m
  obtain ⟨at_, lo, rs, hstore⟩ := State.store_buf (d := d) hb hw ha hf hal
  have hnoted := htouched.noted h0.Here
  have hH := hnoted.Here h0.Here
  obtain ⟨⟨hmain, hbufs⟩, -, hcur, -⟩ := hnoted
  obtain ⟨hhere, -, hclock, hHere, hmain', hread⟩ :=
    State.taskLatent_spec hH (by rw [hcur, h0.cur]; exact ha) b ea (leBytes n (s.sr d).toNat)
  rw [show (s.bufStoring b n m).cur = s.cur from hcur.trans h0.cur] at hhere hclock hHere hmain' hread
  generalize hu : (s.bufStoring b n m).taskLatent p k s.cur.th b ea (leBytes n (s.sr d).toNat) = u at hhere hclock hHere hmain' hread
  rw [show (s.bufStoring b n m).taskLatent p k s.cur.th b (address s m).toNat (leBytes n (s.sr d).toNat) = u from hu] at hstore
  obtain ⟨hfin, hended, hregs, hframe, hpend, hoob⟩ := State.finish_wrote (u := u.tagWord at_ lo n rs) hl h0 htouched hhere hclock hHere
  refine ⟨_, (exec_storeForm hi s).trans (congrArg Host.Outcome.next hstore), hended, hregs, hframe, hpend, ?_, fun q j b2 a => ?_, ?_⟩
  · rw [hfin]
    exact ((State.sameMain_of_main h0.main).trans hmain).trans (State.sameMain_of_main ((State.main_modHere _ _).trans hmain'))
  · rw [hfin, State.modHere_tile_keeps (fun T => T.readBuf b2 a 1) (fun T i f => Tile.readBuf_of_mem rfl _ _ _)]
    show (u.tile q j).readBuf b2 a 1 = _
    rw [hread, hbufs q j b2 a]
    simp only [leBytes_word, List.getElem_map, List.getElem_range, List.length_map, List.length_range, dite_eq_ite, and_assoc]
    rfl
  · rw [hoob]
    exact ⟨hin, hout⟩

end Sys2Proof.Proofs
end

section
/-!
SUPPORT. The elements of a row: formats, integers, and the bytes and flags of a row of results (spec/05 R97, R134; spec/14 R266, R268, R270).
-/

-- One lemma at a time: none holds a thread while the ones before it are checked.
set_option Elab.async false

namespace Sys2Proof.Machine

open Sys2Proof.Claims

/-! ### Formats of a bank (R97, R268) -/

theorem isIntFmt_iff (f : Byte) : isIntFmt f = true ↔ intFmt f := by simp [isIntFmt, intFmt, or_assoc]

/-- The formats of numbers, each with its size. -/
theorem fpOf_eq_some {f : Byte} {ff : FFmt} (h : fpOf f = some ff) : fpFmt f ∧ 1 + ff.eb + ff.fb = 8 * elemSize f := by
  have hf (k : Nat) (hk : f.toNat = k) : f = BitVec.ofNat 8 k := by rw [← hk, BitVec.ofNat_toNat, BitVec.setWidth_eq]
  unfold fpOf at h
  split at h
  · next hk => obtain rfl := hf _ hk; cases h; exact ⟨by simp [fpFmt], rfl⟩
  · next hk => obtain rfl := hf _ hk; cases h; exact ⟨by simp [fpFmt], rfl⟩
  · next hk => obtain rfl := hf _ hk; cases h; exact ⟨by simp [fpFmt], rfl⟩
  · cases h

theorem fpOf_of_fpFmt {f : Byte} (h : fpFmt f) : ∃ ff, fpOf f = some ff := by
  obtain rfl | rfl | rfl := h
  · exact ⟨fp16, rfl⟩
  · exact ⟨bf16, rfl⟩
  · exact ⟨fp32, rfl⟩

theorem isFpFmt_iff (f : Byte) : isFpFmt f = true ↔ fpFmt f :=
  Option.isSome_iff_exists.trans ⟨fun ⟨_, h⟩ => (fpOf_eq_some h).1, fpOf_of_fpFmt⟩

theorem isArith_iff (f : Byte) : isArith f = true ↔ intFmt f ∨ fpFmt f := by simp [isArith, isIntFmt_iff, isFpFmt_iff]

theorem isAnyRow_iff (f : Byte) : isAnyRow f = true ↔ rowFmts f := by simp [isAnyRow, isArith_iff, isPairFmt, rowFmts, or_assoc]

/-- Integer formats are none of numbers and none of pairs. -/
theorem kinds_of_intFmt {f : Byte} (h : intFmt f) : isIntFmt f = true ∧ fpOf f = none ∧ isFpFmt f = false ∧ isPairFmt f = false := by
  obtain rfl | rfl | rfl := h <;> decide

theorem kinds_of_fpFmt {f : Byte} (h : fpFmt f) : isIntFmt f = false ∧ isFpFmt f = true ∧ isPairFmt f = false := by
  obtain rfl | rfl | rfl := h <;> decide

/-! ### Integer elements (R134, R270) -/

theorem wrapN_eq (w : Nat) (i : Int) : wrapN w i = asBits w i := (BitVec.toNat_ofInt (n := w) i).symm

theorem signedN_eq {w : Nat} (hw : 0 < w) (x : Nat) : signedN w x = asInt w x := by
  have hpow : 2 ^ w = 2 * 2 ^ (w - 1) := by rw [← pow_succ', Nat.sub_add_cancel hw]
  unfold signedN asInt
  rw [BitVec.toInt_eq_toNat_cond, BitVec.toNat_ofNat]
  by_cases h : 2 ^ (w - 1) ≤ x % 2 ^ w
  · rw [if_pos h, if_neg (by omega)]
    push_cast
    rfl
  · rw [if_neg h, if_pos (by omega)]

theorem elemBits_pos (f : Byte) : 0 < 8 * elemSize f := Nat.mul_pos (by decide) (elemSize_256 f).1

theorem elemInt_eq (f : Byte) (x : Nat) : elemInt f x = asInt (8 * elemSize f) x := signedN_eq (elemBits_pos f) x

theorem intElem_eq (f : Byte) (sat : Bool) (i : Int) : intElem f sat i = intResult (8 * elemSize f) sat i := by
  unfold intElem intResult clampI
  cases sat with
  | false => simp [wrapN_eq]
  | true =>
    simp only [if_true, true_and, wrapN_eq]
    split
    · rfl
    · split <;> rfl

/-! ### Bytes of an element (R266) -/

/-- The bytes of an element are those of its low bits. -/
theorem leBytes_mod (e x : Nat) : leBytes e (x % 2 ^ (8 * e)) = leBytes e x := by
  induction e generalizing x with
  | zero => rfl
  | succ e ih =>
    have hpow : 2 ^ (8 * (e + 1)) = 256 * 2 ^ (8 * e) := by rw [Nat.mul_succ, pow_add, Nat.mul_comm]; rfl
    have hbyte : BitVec.ofNat 8 (x % 2 ^ (8 * (e + 1))) = BitVec.ofNat 8 x := by
      apply BitVec.eq_of_toNat_eq
      rw [BitVec.toNat_ofNat, BitVec.toNat_ofNat, hpow, Nat.mod_mul_right_mod]
    rw [leBytes, leBytes, hbyte, hpow, Nat.mod_mul_right_div_self, ih]

/-- Two results that a row of elements of e bytes does not tell apart. -/
def FR.Same (e : Nat) (r q : FR) : Prop := leBytes e r.bits = leBytes e q.bits ∧ r.flags = q.flags

theorem FR.Same.of_eq {e : Nat} {r q : FR} (h : r = q) : r.Same e q := h ▸ ⟨rfl, rfl⟩

theorem FR.Same.of_mod {e : Nat} {r q : FR} (h : r.bits % 2 ^ (8 * e) = q.bits % 2 ^ (8 * e)) (hf : r.flags = q.flags) : r.Same e q :=
  ⟨by rw [← leBytes_mod, h, leBytes_mod], hf⟩

/-! ### Rows of results (R137, R266) -/

/-- A list of results holds the n elements that `g` gives, of e bytes each. -/
structure RowIs (e n : Nat) (g : Nat → FR) (rs : List FR) : Prop where
  length : rs.length = n
  elem : ∀ k (h : k < rs.length), rs[k].Same e (g k)

theorem RowIs.bytes {e n : Nat} {g : Nat → FR} {rs : List FR} (h : RowIs e n g rs) :
    bytesOf e (rs.map (·.bits)) = (List.range n).flatMap fun k => leBytes e (g k).bits := by
  have hbytes : rs.map (fun r => leBytes e r.bits) = (List.range n).map fun k => leBytes e (g k).bits :=
    List.ext_getElem (by simp [h.length]) fun k hk _ => by
      rw [List.length_map] at hk
      obtain ⟨hbits, -⟩ := h.elem k hk
      simpa using hbits
  rw [bytesOf, List.flatMap_map, List.flatMap_def, List.flatMap_def, hbytes]

theorem RowIs.flags {e n : Nat} {g : Nat → FR} {rs : List FR} (h : RowIs e n g rs) :
    orFl rs = (List.range n).foldl (fun fl k => fl ||| (g k).flags) 0 := by
  have hflags : rs.map (·.flags) = (List.range n).map fun k => (g k).flags :=
    List.ext_getElem (by simp [h.length]) fun k hk _ => by
      rw [List.length_map] at hk
      obtain ⟨-, hfl⟩ := h.elem k hk
      simpa using hfl
  have hfold := congrArg (List.foldl (fun fl x : Byte => fl ||| x) 0) hflags
  rwa [List.foldl_map, List.foldl_map] at hfold

section
variable {e n : Nat} {g : Nat → FR}

theorem RowIs.of_map {xs : List Nat} {F : Nat → FR} (hx : xs.length = n) (h : ∀ k, k < n → (F (xs.getD k 0)).Same e (g k)) : RowIs e n g (xs.map F) := by
  refine ⟨by rw [List.length_map, hx], fun k hk => ?_⟩
  rw [List.length_map] at hk
  rw [List.getElem_map, ← List.getD_eq_getElem xs 0 hk]
  exact h k (hx ▸ hk)

theorem RowIs.of_zipWith {xs ys : List Nat} {F : Nat → Nat → FR} (hx : xs.length = n) (hy : ys.length = n)
    (h : ∀ k, k < n → (F (xs.getD k 0) (ys.getD k 0)).Same e (g k)) : RowIs e n g (List.zipWith F xs ys) := by
  refine ⟨by rw [List.length_zipWith, hx, hy, Nat.min_self], fun k hk => ?_⟩
  rw [List.length_zipWith, hx, hy, Nat.min_self] at hk
  rw [List.getElem_zipWith, ← List.getD_eq_getElem xs 0, ← List.getD_eq_getElem ys 0]
  exact h k hk

/-- Three rows, the last two zipped. -/
theorem RowIs.of_zipWith_zip {xs ys zs : List Nat} {F : Nat → Nat × Nat → FR} (hx : xs.length = n) (hy : ys.length = n) (hz : zs.length = n)
    (h : ∀ k, k < n → (F (xs.getD k 0) (ys.getD k 0, zs.getD k 0)).Same e (g k)) : RowIs e n g (List.zipWith F xs (ys.zip zs)) := by
  refine ⟨by simp [hx, hy, hz], fun k hk => ?_⟩
  simp only [List.length_zipWith, List.length_zip, hx, hy, hz, Nat.min_self] at hk
  rw [List.getElem_zipWith, List.getElem_zip, ← List.getD_eq_getElem xs 0, ← List.getD_eq_getElem ys 0, ← List.getD_eq_getElem zs 0]
  exact h k hk

/-- Three rows, the first two zipped. -/
theorem RowIs.of_zip_zipWith {xs ys zs : List Nat} {F : Nat × Nat → Nat → FR} (hx : xs.length = n) (hy : ys.length = n) (hz : zs.length = n)
    (h : ∀ k, k < n → (F (xs.getD k 0, ys.getD k 0) (zs.getD k 0)).Same e (g k)) : RowIs e n g (List.zipWith F (xs.zip ys) zs) := by
  refine ⟨by simp [hx, hy, hz], fun k hk => ?_⟩
  simp only [List.length_zipWith, List.length_zip, hx, hy, hz, Nat.min_self] at hk
  rw [List.getElem_zipWith, List.getElem_zip, ← List.getD_eq_getElem xs 0, ← List.getD_eq_getElem ys 0, ← List.getD_eq_getElem zs 0]
  exact h k hk

/-- Four rows, zipped by twos. -/
theorem RowIs.of_zip_zip {xs ys zs ws : List Nat} {F : Nat × Nat → Nat × Nat → FR} (hx : xs.length = n) (hy : ys.length = n) (hz : zs.length = n)
    (hw : ws.length = n) (h : ∀ k, k < n → (F (xs.getD k 0, ys.getD k 0) (zs.getD k 0, ws.getD k 0)).Same e (g k)) :
    RowIs e n g (List.zipWith F (xs.zip ys) (zs.zip ws)) := by
  refine ⟨by simp [hx, hy, hz, hw], fun k hk => ?_⟩
  simp only [List.length_zipWith, List.length_zip, hx, hy, hz, hw, Nat.min_self] at hk
  rw [List.getElem_zipWith, List.getElem_zip, List.getElem_zip, ← List.getD_eq_getElem xs 0, ← List.getD_eq_getElem ys 0, ← List.getD_eq_getElem zs 0,
    ← List.getD_eq_getElem ws 0]
  exact h k hk

end

/-! ### The rows of the thread's bank (R103, R266, R267) -/

theorem length_elemsOf (e : Nat) (bs : List Byte) : (elemsOf e bs).length = bs.length / e := by simp [elemsOf]

theorem State.length_rowBytes (s : State) (r : Row) : (s.rowBytes r).length = 256 := Tile.length_readBuf _ _ _ _

theorem State.length_row (s : State) (r : Row) : (s.row r).length = 256 / elemSize s.rowFmt := by
  rw [State.row, length_elemsOf, s.length_rowBytes]

theorem State.length_vb (s : State) (b : VB) : (s.vb b).length = 256 / elemSize s.rowFmt := by
  cases b with
  | row r => exact s.length_row r
  | scalar a => exact List.length_replicate

/-- An element of a run of bytes fits its width. -/
theorem elemsOf_getD_lt (e : Nat) (bs : List Byte) (k : Nat) : (elemsOf e bs).getD k 0 < 2 ^ (8 * e) := by
  by_cases hk : k < (elemsOf e bs).length
  · rw [List.getD_eq_getElem _ _ hk]
    simp only [elemsOf, List.getElem_map]
    refine (leNat_lt _).trans_le (Nat.pow_le_pow_right (by decide) ?_)
    have : (bytesAt bs (e * (List.range (bs.length / e))[k]'(by simpa [elemsOf] using hk)) e).length ≤ e := by rw [bytesAt, List.length_take]; exact min_le_left _ _
    omega
  · rw [List.getD_eq_default _ _ (by omega)]
    exact Nat.two_pow_pos _

theorem State.row_getD_lt (s : State) (r : Row) (k : Nat) : (s.row r).getD k 0 < 2 ^ (8 * elemSize s.rowFmt) := elemsOf_getD_lt _ _ _

/-- The size of an element, from the number of elements of a row. -/
theorem rowElems_size (f : Byte) : 256 / (256 / elemSize f) = elemSize f := by
  rcases elemSize_cases f with h | h | h | h <;> rw [h]

/-! ### The end of a row instruction (R93, R108, R266, R268) -/

/-- A row of n results is written later by an instruction that read the rows `rd`, and its unit ends or blocks. -/
def State.endsRow (s : State) (rd : List Row) (L : Nat) (d : Row) (n : Nat) (g : Nat → FR) : State :=
  s.endRow (s.writeRow L d ((List.range n).flatMap fun k => leBytes (256 / n) (g k).bits) ((List.range n).foldl (fun fl k => fl ||| (g k).flags) 0)) L rd

theorem State.rowOp_of {s : State} {g : Nat → FR} {rs : List FR} (h : RowIs (elemSize s.rowFmt) (256 / elemSize s.rowFmt) g rs) (L : Nat) (rd : List Row) (d : Row) :
    s.rowOp L rd d rs = s.endsRow rd L d (256 / elemSize s.rowFmt) g := by
  rw [State.rowOp, State.endsRow, h.bytes, h.flags, rowElems_size]

theorem State.vec_of {s : State} (hm : s.here.mode ≠ .firmware) {ok : Bool} (hok : ok = true) (k : State) : s.vec ok k = k := by
  rw [State.vec, State.tileOnly_of hm, if_pos hok]

/-- The detail of a refused format: code, bank and head side by side. -/
theorem State.fmtDetail_eq (s : State) : s.fmtDetail = formatWord s := by
  have hf := s.rowFmt.isLt
  have hb := s.here.ct.isLt
  have hh := s.here.unit.head.isLt
  have hlow : s.here.ct.toNat <<< 8 + s.rowFmt.toNat = s.here.ct.toNat <<< 8 ||| s.rowFmt.toNat := Nat.shiftLeft_add_eq_or_of_lt hf _
  have hhigh : s.here.unit.head.toNat <<< 16 + (s.here.ct.toNat <<< 8 + s.rowFmt.toNat) =
      s.here.unit.head.toNat <<< 16 ||| (s.here.ct.toNat <<< 8 + s.rowFmt.toNat) := Nat.shiftLeft_add_eq_or_of_lt (by omega) _
  apply BitVec.eq_of_toNat_eq
  unfold State.fmtDetail formatWord State.bank
  simp only [BitVec.toNat_ofNat, BitVec.toNat_or, BitVec.toNat_shiftLeft, BitVec.toNat_setWidth]
  rw [Nat.mod_eq_of_lt (a := s.rowFmt.toNat) (by omega), Nat.mod_eq_of_lt (a := s.here.ct.toNat) (by omega), Nat.mod_eq_of_lt (a := s.here.unit.head.toNat) (by omega),
    Nat.mod_eq_of_lt (a := s.here.ct.toNat <<< 8) (by omega), Nat.mod_eq_of_lt (a := s.here.unit.head.toNat <<< 16) (by omega),
    Nat.or_comm s.rowFmt.toNat, ← hlow, Nat.or_comm, ← hhigh, Nat.mod_eq_of_lt (by omega)]
  omega

theorem State.vec_refused {s : State} (hm : s.here.mode ≠ .firmware) {ok : Bool} (hok : ok = false) (k : State) :
    s.vec ok k = s.raise .illegalTarget (formatWord s) := by
  rw [State.vec, State.tileOnly_of hm, if_neg (by rw [hok]; decide), s.fmtDetail_eq]

end Sys2Proof.Machine
end

section
/-!
SUPPORT. The end of a row instruction: its row is queued and the unit ends, or it blocks on the spilled granules that it reads (spec/05 R92, R93,
R108; spec/14 R266).
-/

-- One lemma at a time: none holds a thread while the ones before it are checked.
set_option Elab.async false

namespace Sys2Proof.Machine

open Sys2Proof.Claims

/-! ### The thread of a row instruction that has issued -/

/-- The row write of an instruction, as an access of its thread (R124, R269). -/
def State.rowRec (s : State) (d : Row) (bs : List Byte) : WRec :=
  { id := s.opCtr, cls := .task, q := 8, ltile := s.hereT, th := s.cur.th, seq := s.here.seq, hb := s.here.landedHb, buf := some .c,
    loc := ⟨false, rowAddr s.bank d⟩, data := bs }

/-- The thread with its row write pending. -/
def State.rowThread (s : State) (L : Nat) (d : Row) (bs : List Byte) (fl : Byte) : Thread :=
  { s.here with pend := s.here.pend ++ [⟨s.cycle + L - 1, .row (s.rowRec d bs), 0, fl⟩], hb := s.opCtr :: s.here.hb, seq := s.here.seq + 1 }

/-- The current thread replaced, and an identity taken where `n` is the next one. -/
def State.withThread (s : State) (n : Nat) (w : Thread) : State := { s with opCtr := n }.modHere fun _ => w

theorem State.writeRow_eq (s : State) (L : Nat) (d : Row) (bs : List Byte) (fl : Byte) :
    s.writeRow L d bs fl = s.withThread (s.opCtr + 1) (s.rowThread L d bs fl) := s.newId.modHere_const _

theorem State.writeS_eq (s : State) {L : Nat} (hL : 1 < L) (r : Sreg) (v : Word) (fl : Byte) :
    s.writeS L r v fl = s.withThread s.opCtr { s.here with pend := s.here.pend ++ [⟨s.cycle + L - 1, .s r, v, fl⟩] } := by
  rw [State.writeS, if_neg (by omega)]
  exact s.modHere_const _

theorem State.here_withThread {s : State} (hs : s.Here = true) (n : Nat) (w : Thread) : (s.withThread n w).here = w :=
  State.here_modHere { s with opCtr := n } hs _

theorem State.Here_withThread {s : State} (hs : s.Here = true) (n : Nat) (w : Thread) : (s.withThread n w).Here = true :=
  (State.modHere_Here { s with opCtr := n } _).trans hs

theorem State.withThread_modHere (s : State) (n : Nat) (w : Thread) (f : Thread → Thread) : (s.withThread n w).modHere f = s.withThread n (f w) :=
  State.modHere_modHere { s with opCtr := n } _ f

theorem State.cycle_withThread (s : State) (n : Nat) (w : Thread) : (s.withThread n w).cycle = s.cycle := State.modHere_cycle { s with opCtr := n } _

theorem State.sameBytes_withThread (s : State) (n : Nat) (w : Thread) : s.SameBytes (s.withThread n w) := State.sameBytes_modHere { s with opCtr := n } _

/-! ### The unit ends (R93) -/

/-- A row instruction that reads no spilled granule ends with its row pending. -/
theorem State.queuedRow_finish {s : State} (hs : s.Here = true) (hl : s.endsLegally = true) (L : Nat) (d : Row) (bs : List Byte) (fl : Byte) :
    s.QueuedRow (s.finish (s.writeRow L d bs fl)) (s.cycle + L - 1) d bs fl := by
  have hhere := State.here_withThread hs (s.opCtr + 1) (s.rowThread L d bs fl)
  have hfin : s.finish (s.writeRow L d bs fl) = s.withThread (s.opCtr + 1) (s.ends none (s.rowThread L d bs fl)) := by
    rw [s.writeRow_eq, State.finish_of (s.cycle_withThread _ _) (by rw [hhere]; exact ⟨rfl, rfl, rfl⟩) hl, s.withThread_modHere]
  have hthread : (s.finish (s.writeRow L d bs fl)).here = s.ends none (s.rowThread L d bs fl) := by rw [hfin, State.here_withThread hs]
  refine ⟨?_, ?_, State.ended_of_here hthread, ?_, State.sameRegs_of (by rw [hthread]; rfl) (by rw [hthread]; rfl), by rw [hthread]; rfl, by rw [hthread]; rfl⟩
  · rw [hthread]
    exact hfin
  · rw [hfin]
    exact s.sameBytes_withThread _ _
  · rw [hthread]
    rfl

/-- Without a spilled granule the unit of a row instruction ends. -/
theorem State.endRow_of_none {s : State} {rd : List Row} (h : ∀ r ∈ rd, rowSpilled s r = false) (s1 : State) (L : Nat) :
    s.endRow s1 L rd = s.finish s1 := by
  unfold State.endRow
  rw [if_neg]
  rw [List.any_eq_true]
  rintro ⟨r, hr, hsp⟩
  exact Bool.eq_false_iff.1 (h r hr) hsp

/-! ### The unit blocks (R93, R108) -/

theorem State.agenda_withThread (s : State) (n : Nat) (w : Thread) : (s.withThread n w).agenda = s.agenda := State.modHere_agenda { s with opCtr := n } _

theorem State.schedule_withThread (s : State) (n : Nat) (w : Thread) (dt : Nat) (ev : Instr) (arg : Arg) :
    (s.withThread n w).schedule dt ev arg = { s.withThread n w with agenda := s.agenda ++ [⟨s.cycle + dt, ev, arg⟩] } :=
  congrArg (fun a => { s.withThread n w with agenda := a }) (by rw [s.agenda_withThread, s.cycle_withThread])

/-- The end of the wait of a row instruction that read the rows `rd`: the step that is due, and the channels that it waits for (R344). -/
def State.rowWaitEnd (s : State) (L : Nat) (rd : List Row) : Due :=
  ⟨s.cycle + (1 + L + Config.delay .memRead s.fresh), .blockingWaitDone,
    { agent := s.cur.agent, th := s.cur.th, op := s.cycle, nats := rd.flatMap fun r => s.shadowChans s.hereP s.hereT .c (rowAddr s.bank r) 256 }⟩

/-- The state of a row instruction that waits for spilled granules, with what it writes pending in the thread `w`. -/
def State.rowWaiting (s : State) (n : Nat) (w : Thread) (L : Nat) (rd : List Row) : State :=
  { s.withThread n { w with wait := .result none 0, waitFrom := s.cycle } with agenda := s.agenda ++ [s.rowWaitEnd L rd], fresh := s.fresh + 1 }

theorem State.endRow_of_spilled {s : State} {rd : List Row} (h : ∃ r ∈ rd, rowSpilled s r = true) (n : Nat) (w : Thread) (L : Nat) :
    s.endRow (s.withThread n w) L rd = s.orHold (s.rowWaiting n w L rd) := by
  have hblock : (s.withThread n w).block (.result none 0) = s.withThread n { w with wait := .result none 0, waitFrom := s.cycle } := by
    rw [State.block, s.withThread_modHere, s.cycle_withThread]
  have hspilled : (rd.any fun r => s.hereTile.spilled .c (rowAddr s.bank r) 256) = true := List.any_eq_true.2 h
  unfold State.endRow
  rw [if_pos hspilled, hblock, s.schedule_withThread]
  rfl

theorem State.here_rowWaiting {s : State} (hs : s.Here = true) (n : Nat) (w : Thread) (L : Nat) (rd : List Row) :
    (s.rowWaiting n w L rd).here = { w with wait := .result none 0, waitFrom := s.cycle } := State.here_withThread hs n _

theorem State.rowWaiting_eq {s : State} (hs : s.Here = true) (n : Nat) (w : Thread) (L : Nat) (rd : List Row) :
    s.rowWaiting n w L rd = { s.withThread n (s.rowWaiting n w L rd).here with agenda := (s.rowWaiting n w L rd).agenda, fresh := s.fresh + 1 } := by
  rw [State.here_rowWaiting hs]
  rfl

theorem State.sameBytes_rowWaiting (s : State) (n : Nat) (w : Thread) (L : Nat) (rd : List Row) : s.SameBytes (s.rowWaiting n w L rd) := by
  obtain ⟨⟨h1, h2, h3, h4, h5⟩, hbufs⟩ := s.sameBytes_withThread n { w with wait := .result none 0, waitFrom := s.cycle }
  exact ⟨⟨h1, h2, h3, h4, h5⟩, hbufs⟩

/-- The step that ends the wait. -/
theorem State.rowWaitEnd_eq (s : State) (L : Nat) (rd : List Row) : ∃ m, s.rowWaitEnd L rd = ⟨s.cycle + 1 + L + m, .blockingWaitDone,
    { agent := s.cur.agent, th := s.cur.th, op := s.cycle, nats := rd.flatMap fun r => s.shadowChans s.hereP s.hereT .c (rowAddr s.bank r) 256 }⟩ := by
  refine ⟨Config.delay .memRead s.fresh, ?_⟩
  unfold State.rowWaitEnd
  rw [← Nat.add_assoc, ← Nat.add_assoc]

/-- A row instruction that reads a spilled granule waits with its row pending. -/
theorem State.rowWaits_rowWaiting {s : State} (hs : s.Here = true) (rd : List Row) (L : Nat) (d : Row) (bs : List Byte) (fl : Byte) :
    RowWaits s (s.rowWaiting (s.opCtr + 1) (s.rowThread L d bs fl) L rd) rd L d bs fl := by
  obtain ⟨m, hm⟩ := s.rowWaitEnd_eq L rd
  refine ⟨State.rowWaiting_eq hs _ _ _ _, s.sameBytes_rowWaiting _ _ _ _, State.here_rowWaiting hs _ _ _ _, m, _, ?_, fun c => List.mem_flatMap⟩
  show s.agenda ++ [s.rowWaitEnd L rd] = _
  rw [hm]

/-! ### What a row instruction does, by whether a row that it reads has spilled -/

/-- An instruction that runs as one that writes a row: it ends, or it waits or holds its return. -/
theorem State.rowLater_of_endRow {s : State} {i : Instr} {rd : List Row} {L : Nat} {d : Row} {bs : List Byte} {fl : Byte}
    (h : exec i s = .next (s.endRow (s.writeRow L d bs fl) L rd)) (hr : RowRuns s) : ∃ t, exec i s = .next t ∧ s.QueuedRow t (s.cycle + L - 1) d bs fl := by
  obtain ⟨hs, -, hl, hnone⟩ := hr
  rw [State.endRow_of_none fun r _ => hnone r] at h
  exact ⟨_, h, State.queuedRow_finish hs hl L d bs fl⟩

theorem State.rowWaits_of_endRow {s : State} {i : Instr} {rd : List Row} {L : Nat} {d : Row} {bs : List Byte} {fl : Byte}
    (h : exec i s = .next (s.endRow (s.writeRow L d bs fl) L rd)) (hs : s.Here = true) (hsp : ∃ r ∈ rd, rowSpilled s r = true) :
    (s.returnRefused = none → ∃ t, exec i s = .next t ∧ RowWaits s t rd L d bs fl) ∧ HoldsItsReturn i s := by
  rw [s.writeRow_eq, State.endRow_of_spilled hsp] at h
  refine ⟨fun hret => ⟨_, ?_, State.rowWaits_rowWaiting hs rd L d bs fl⟩, holdsItsReturn_of_orHold hs h⟩
  rw [h, State.orHold_none _ _ hret]

end Sys2Proof.Machine
end

section
/-!
SUPPORT. The row instructions by their tables: arithmetic, pairs, raw elements and compares (spec/14 R270 to R273).
-/

-- One lemma at a time: none holds a thread while the ones before it are checked.
set_option Elab.async false

namespace Sys2Proof.Machine

open Sys2Proof.Claims

/-! ### An instruction that gives a row -/

/-- The instruction runs as one that writes n results to a row, and reads the rows of its table. -/
def State.GivesRow (s : State) (i : Instr) (L : Nat) (d : Row) (n : Nat) (g : Nat → FR) : Prop :=
  ∃ rd rs, readRows s i = some rs ∧ (∀ r, r ∈ rd ↔ r ∈ rs) ∧ exec i s = .next (s.endsRow rd L d n g)

theorem State.givesRow_of {s : State} {i : Instr} {ok : Bool} {L : Nat} {d : Row} {g : Nat → FR} {rd rs : List Row} {xs : List FR}
    (hm : s.here.mode ≠ .firmware) (h : exec i s = .next (s.vec ok (s.rowOp L rd d xs))) (hok : ok = true)
    (hrow : RowIs (elemSize s.rowFmt) (256 / elemSize s.rowFmt) g xs) (hread : readRows s i = some rs) (hrd : ∀ r, r ∈ rd ↔ r ∈ rs) :
    s.GivesRow i L d (256 / elemSize s.rowFmt) g :=
  ⟨rd, rs, hread, hrd, by rw [h, State.vec_of hm hok, State.rowOp_of hrow]⟩

/-! ### Arithmetic (R270) -/

/-- The sign bit of a number's bits. -/
theorem FFmt.abs_bits (ff : FFmt) {x : Nat} (hx : x < 2 ^ (1 + ff.eb + ff.fb)) :
    x % ff.signBit = if 2 ^ (ff.width - 1) ≤ x then x - 2 ^ (ff.width - 1) else x := by
  have hw : ff.width - 1 = ff.eb + ff.fb := by unfold FFmt.width; omega
  have hpow : 2 ^ (1 + ff.eb + ff.fb) = 2 * 2 ^ (ff.eb + ff.fb) := by rw [Nat.add_assoc, pow_add, pow_one]
  rw [hw, FFmt.signBit]
  split
  · next h => rw [Nat.mod_eq_sub_mod h, Nat.mod_eq_of_lt (by omega)]
  · exact Nat.mod_eq_of_lt (by omega)

/-- A bit above all others is set or cleared. -/
theorem xor_two_pow {n x : Nat} (hx : x < 2 ^ n) : x ^^^ 2 ^ n = x + 2 ^ n ∧ (x + 2 ^ n) ^^^ 2 ^ n = x := by
  have hset : x ^^^ 2 ^ n = x + 2 ^ n := by
    rw [Nat.add_comm, ← Nat.mul_one (2 ^ n), Nat.two_pow_add_eq_or_of_lt hx, Nat.mul_one]
    refine Nat.eq_of_testBit_eq fun j => ?_
    rw [Nat.testBit_xor, Nat.testBit_or, Nat.testBit_two_pow]
    by_cases hj : n = j
    · subst hj
      simp [Nat.testBit_lt_two_pow hx]
    · simp [hj]
  exact ⟨hset, by rw [← hset, Nat.xor_assoc, Nat.xor_self, Nat.xor_zero]⟩

theorem FFmt.neg_bits (ff : FFmt) {x : Nat} (hx : x < 2 ^ (1 + ff.eb + ff.fb)) :
    x ^^^ ff.signBit = if 2 ^ (ff.width - 1) ≤ x then x - 2 ^ (ff.width - 1) else x + 2 ^ (ff.width - 1) := by
  have hw : ff.width - 1 = ff.eb + ff.fb := by unfold FFmt.width; omega
  have hpow : 2 ^ (1 + ff.eb + ff.fb) = 2 * 2 ^ (ff.eb + ff.fb) := by rw [Nat.add_assoc, pow_add, pow_one]
  rw [hw, FFmt.signBit]
  split
  · obtain ⟨-, hclear⟩ := xor_two_pow (n := ff.eb + ff.fb) (x := x - 2 ^ (ff.eb + ff.fb)) (by omega)
    rwa [Nat.sub_add_cancel (by assumption)] at hclear
  · exact (xor_two_pow (by omega)).1

/-- What a two-operand row operation computes, against the functions of its table. -/
structure RowFn.Computes (fn : RowFn) (gi : Int → Int → Int → Int) (gf : FFmt → Nat → Nat → Nat → FR) : Prop where
  int : ∀ x y z, fn.int x y = gi x y z
  fp : ∀ (ff : FFmt) x y z, x < 2 ^ (1 + ff.eb + ff.fb) → fn.fp ff x y = gf ff x y z

/-- The arithmetic of the table is a two-operand operation, or `vfma`. -/
theorem arithRow_cases {s : State} {i : Instr} {d a : Row} {b : VB} {c : Row} {sat : Bool} {gi : Int → Int → Int → Int} {gf : FFmt → Nat → Nat → Nat → FR}
    (h : arithRow i = some (d, a, b, c, sat, gi, gf)) :
    (∃ fn rs, fn.Computes gi gf ∧ exec i s = .next (s.rowBin fn d a b sat) ∧ readRows s i = some rs ∧ ∀ r, r ∈ a :: vbRows b ↔ r ∈ rs) ∨
      i = .vfma d a b c sat ∧ (gi = fun x y z => x * y + z) ∧ gf = fun f x y z => f.fmaV .rne (f.dec x) (f.dec y) (f.dec z) := by
  unfold arithRow at h
  split at h <;> cases h
  · exact .inl ⟨.add, _, ⟨fun _ _ _ => rfl, fun _ _ _ _ _ => rfl⟩, rfl, by cases b <;> rfl, fun _ => Iff.rfl⟩
  · exact .inl ⟨.sub, _, ⟨fun _ _ _ => rfl, fun _ _ _ _ _ => rfl⟩, rfl, by cases b <;> rfl, fun _ => Iff.rfl⟩
  · exact .inl ⟨.mul, _, ⟨fun _ _ _ => rfl, fun _ _ _ _ _ => rfl⟩, rfl, by cases b <;> rfl, fun _ => Iff.rfl⟩
  · exact .inl ⟨.min, _, ⟨fun x y _ => by simp only [RowFn.int, min_def]; grind, fun _ _ _ _ _ => rfl⟩, rfl, by cases b <;> rfl, fun _ => Iff.rfl⟩
  · exact .inl ⟨.max, _, ⟨fun x y _ => by simp only [RowFn.int, max_def]; grind, fun _ _ _ _ _ => rfl⟩, rfl, by cases b <;> rfl, fun _ => Iff.rfl⟩
  · exact .inl ⟨.abs, _, ⟨fun _ _ _ => rfl, fun ff x _ _ hx => congrArg (FR.mk · 0) (ff.abs_bits hx)⟩, rfl, rfl, fun _ => by simp [vbRows]⟩
  · exact .inl ⟨.neg, _, ⟨fun _ _ _ => rfl, fun ff x _ _ hx => congrArg (FR.mk · 0) (ff.neg_bits hx)⟩, rfl, rfl, fun _ => by simp [vbRows]⟩
  · exact .inr ⟨rfl, rfl, rfl⟩

theorem State.givesRow_arithInt {s : State} (hm : s.here.mode ≠ .firmware) {i : Instr} {d a : Row} {b : VB} {c : Row} {sat : Bool}
    {gi : Int → Int → Int → Int} {gf : FFmt → Nat → Nat → Nat → FR} (h : arithRow i = some (d, a, b, c, sat, gi, gf)) (hf : intFmt s.rowFmt) :
    s.GivesRow i 2 d (256 / elemSize s.rowFmt) fun k => intResult (8 * elemSize s.rowFmt) sat (gi (asInt (8 * elemSize s.rowFmt) ((s.row a).getD k 0))
      (asInt (8 * elemSize s.rowFmt) ((s.vb b).getD k 0)) (asInt (8 * elemSize s.rowFmt) ((s.row c).getD k 0))) := by
  obtain ⟨hint, hnone, -, hpair⟩ := kinds_of_intFmt hf
  have hL : s.viVf = 2 := if_pos hint
  obtain ⟨fn, rs, hfn, hexec, hread, hrd⟩ | ⟨rfl, rfl, -⟩ := arithRow_cases (s := s) h
  · rw [State.rowBin, hL] at hexec
    refine State.givesRow_of hm hexec (by simp [isArith, hint]) (.of_zipWith (s.length_row a) (s.length_vb b) fun k _ => .of_eq ?_) hread hrd
    unfold RowFn.elem
    rw [hnone]
    simp only [hpair, Bool.false_eq_true, if_false, intElem_eq, elemInt_eq, hfn.int _ _ (asInt (8 * elemSize s.rowFmt) ((s.row c).getD k 0))]
  · have hexec : exec (.vfma d a b c sat) s = .next (s.vec (isArith s.rowFmt) (s.rowOp s.viVf (a :: c :: vbRows b) d _)) := rfl
    rw [hL] at hexec
    refine State.givesRow_of hm hexec (by simp [isArith, hint]) (.of_zip_zipWith (s.length_row a) (s.length_vb b) (s.length_row c) fun k _ => .of_eq ?_)
      (rs := a :: c :: vbRows b) (by cases b <;> rfl) fun _ => Iff.rfl
    unfold fmaElem
    rw [hnone]
    simp only [intElem_eq, elemInt_eq]

theorem State.givesRow_arithFp {s : State} (hm : s.here.mode ≠ .firmware) {i : Instr} {d a : Row} {b : VB} {c : Row} {sat : Bool}
    {gi : Int → Int → Int → Int} {gf : FFmt → Nat → Nat → Nat → FR} (h : arithRow i = some (d, a, b, c, sat, gi, gf)) {ff : FFmt} (hf : fpOf s.rowFmt = some ff) :
    s.GivesRow i 4 d (256 / elemSize s.rowFmt) fun k => gf ff ((s.row a).getD k 0) ((s.vb b).getD k 0) ((s.row c).getD k 0) := by
  obtain ⟨hfp, hsize⟩ := fpOf_eq_some hf
  obtain ⟨hint, hisfp, -⟩ := kinds_of_fpFmt hfp
  have hL : s.viVf = 4 := if_neg (by rw [hint]; decide)
  obtain ⟨fn, rs, hfn, hexec, hread, hrd⟩ | ⟨rfl, -, rfl⟩ := arithRow_cases (s := s) h
  · rw [State.rowBin, hL] at hexec
    refine State.givesRow_of hm hexec (by simp [isArith, hisfp]) (.of_zipWith (s.length_row a) (s.length_vb b) fun k _ => .of_eq ?_) hread hrd
    unfold RowFn.elem
    rw [hf]
    exact hfn.fp ff _ _ _ (hsize ▸ s.row_getD_lt a k)
  · have hexec : exec (.vfma d a b c sat) s = .next (s.vec (isArith s.rowFmt) (s.rowOp s.viVf (a :: c :: vbRows b) d _)) := rfl
    rw [hL] at hexec
    refine State.givesRow_of hm hexec (by simp [isArith, hisfp]) (.of_zip_zipWith (s.length_row a) (s.length_vb b) (s.length_row c) fun k _ => .of_eq ?_)
      (rs := a :: c :: vbRows b) (by cases b <;> rfl) fun _ => Iff.rfl
    unfold fmaElem
    rw [hf]

theorem State.givesRow_pairs {s : State} (hm : s.here.mode ≠ .firmware) {i : Instr} {d a : Row} {b : VB} {big : Bool}
    (h : pairRow i = some (d, a, b, big)) (hf : s.rowFmt = 0x07) :
    s.GivesRow i 4 d 32 fun k => pairElem big ((s.row a).getD k 0) ((s.vb b).getD k 0) := by
  have hL : s.viVf = 4 := by rw [State.viVf, hf]; rfl
  have hn : 256 / elemSize s.rowFmt = 32 := by rw [hf]; rfl
  obtain ⟨fn, sat, hexec, hread, hbig, hpairs⟩ : ∃ (fn : RowFn) (sat : Bool), exec i s = .next (s.rowBin fn d a b sat) ∧ readRows s i = some (a :: vbRows b) ∧
      decide (fn = .max) = big ∧ fn.onPairs = true := by
    unfold pairRow at h
    split at h <;> cases h
    · exact ⟨.min, _, rfl, by cases b <;> rfl, rfl, rfl⟩
    · exact ⟨.max, _, rfl, by cases b <;> rfl, rfl, rfl⟩
  rw [← hn]
  rw [State.rowBin, hL] at hexec
  refine State.givesRow_of hm hexec (by rw [hpairs, hf]; rfl) (.of_zipWith (s.length_row a) (s.length_vb b) fun k _ => .of_eq ?_) hread fun _ => Iff.rfl
  rw [hf, pairElem, ← hbig]
  rfl

/-! ### Raw elements (R271, R273) -/

/-- An instruction runs as one on rows of the formats `ok`, and writes n results. -/
def State.RowForm (s : State) (i : Instr) (ok : Byte → Prop) (L : Nat) (d : Row) (g : Nat → FR) : Prop :=
  ∃ okb rd rs xs, exec i s = .next (s.vec okb (s.rowOp L rd d xs)) ∧ (okb = true ↔ ok s.rowFmt) ∧
    RowIs (elemSize s.rowFmt) (256 / elemSize s.rowFmt) g xs ∧ readRows s i = some rs ∧ ∀ r, r ∈ rd ↔ r ∈ rs

theorem State.RowForm.gives {s : State} {i : Instr} {ok : Byte → Prop} {L : Nat} {d : Row} {g : Nat → FR} (h : s.RowForm i ok L d g)
    (hm : s.here.mode ≠ .firmware) (hok : ok s.rowFmt) : s.GivesRow i L d (256 / elemSize s.rowFmt) g := by
  obtain ⟨okb, rd, rs, xs, hexec, hiff, hrow, hread, hrd⟩ := h
  exact State.givesRow_of hm hexec (hiff.2 hok) hrow hread hrd

theorem State.RowForm.raises {s : State} {i : Instr} {ok : Byte → Prop} {L : Nat} {d : Row} {g : Nat → FR} (h : s.RowForm i ok L d g)
    (hm : s.here.mode ≠ .firmware) (hok : ¬ ok s.rowFmt) : Raises i s .illegalTarget (formatWord s) := by
  obtain ⟨okb, rd, rs, xs, hexec, hiff, -⟩ := h
  rw [Raises, hexec, State.vec_refused hm (Bool.eq_false_iff.2 fun he => hok (hiff.1 he))]

/-- A row of two operands' raw elements, of which the low bits are kept. -/
theorem State.rowForm_raw {s : State} {i : Instr} {okb : Bool} {G : Nat → Nat → Nat → Nat} {d a : Row} {b : VB} {ok : Byte → Prop} {g : Nat → Nat} {rs : List Row}
    (h : exec i s = .next (s.rowRaw okb G d a b)) (hok : okb = true ↔ ok s.rowFmt)
    (hg : ∀ k, G (8 * elemSize s.rowFmt) ((s.row a).getD k 0) ((s.vb b).getD k 0) % 2 ^ (8 * elemSize s.rowFmt) = g k % 2 ^ (8 * elemSize s.rowFmt))
    (hread : readRows s i = some rs) (hrd : ∀ r, r ∈ a :: vbRows b ↔ r ∈ rs) : s.RowForm i ok 2 d fun k => ⟨g k, 0⟩ :=
  ⟨okb, _, rs, _, h, hok, .of_zipWith (s.length_row a) (s.length_vb b) fun k _ => .of_mod ((Nat.mod_mod _ _).trans (hg k)) rfl, hread, hrd⟩

/-- A row of raw elements moved. -/
theorem State.rowForm_move {s : State} {i : Instr} {L : Nat} {rd : List Row} {d : Row} {xs : List Nat} {g : Nat → Nat}
    (h : exec i s = .next (s.rowMove L rd d xs)) (hx : xs.length = 256 / elemSize s.rowFmt) (hg : ∀ k, k < 256 / elemSize s.rowFmt → xs.getD k 0 = g k)
    (hread : readRows s i = some rd) : s.RowForm i rowFmts L d fun k => ⟨g k, 0⟩ :=
  ⟨_, rd, rd, _, h, isAnyRow_iff _, .of_map hx fun k hk => .of_eq (congrArg (FR.mk · 0) (hg k hk)), hread, fun _ => Iff.rfl⟩

theorem State.rowForm_rawRow {s : State} {i : Instr} {ok : Byte → Prop} {L : Nat} {d : Row} {g : Nat → Nat}
    (h : rawRow s (8 * elemSize s.rowFmt) (256 / elemSize s.rowFmt) i = some (ok, L, d, g)) : s.RowForm i ok L d fun k => ⟨g k, 0⟩ := by
  have hany := isAnyRow_iff s.rowFmt
  have hint := isIntFmt_iff s.rowFmt
  unfold rawRow at h
  split at h <;> cases h
  case h_1 _ a b => exact State.rowForm_raw (b := b) rfl hany (fun _ => rfl) (by cases b <;> rfl) fun _ => Iff.rfl
  case h_2 _ a b => exact State.rowForm_raw (b := b) rfl hany (fun _ => rfl) (by cases b <;> rfl) fun _ => Iff.rfl
  case h_3 _ a b => exact State.rowForm_raw (b := b) rfl hany (fun _ => rfl) (by cases b <;> rfl) fun _ => Iff.rfl
  case h_4 _ a => exact State.rowForm_raw rfl hany (fun _ => rfl) rfl fun _ => by simp [vbRows]
  case h_5 _ a b => exact State.rowForm_raw (b := b) rfl hint (fun _ => by rw [Nat.shiftLeft_eq, Nat.mod_mod]) (by cases b <;> rfl) fun _ => Iff.rfl
  case h_6 _ a b => exact State.rowForm_raw (b := b) rfl hint (fun _ => by rw [Nat.shiftRight_eq_div_pow]) (by cases b <;> rfl) fun _ => Iff.rfl
  case h_7 _ a b =>
    exact State.rowForm_raw (b := b) rfl hint (fun _ => by rw [wrapN_eq, signedN_eq (elemBits_pos _)]) (by cases b <;> rfl) fun _ => Iff.rfl
  case h_8 _ m a b =>
    refine State.rowForm_move rfl (by simp [s.length_row]) (fun k hk => ?_) rfl
    have hk' (r : Row) : k < (s.row r).length := by rwa [s.length_row]
    rw [List.getD_eq_getElem _ _ (by simpa [s.length_row] using hk), List.getElem_zipWith, List.getElem_zip, List.getD_eq_getElem _ _ (hk' m),
      List.getD_eq_getElem _ _ (hk' a), List.getD_eq_getElem _ _ (hk' b)]
  case h_9 _ a => exact State.rowForm_move rfl (s.length_vb _) (fun _ _ => rfl) rfl
  case h_10 _ a b => exact State.rowForm_move rfl List.length_replicate (fun k hk => by rw [List.getD_replicate _ (show k < s.rowN from hk)]; rfl) rfl
  case h_11 _ a b =>
    refine State.rowForm_move rfl (by simp [s.length_row]) (fun k hk => ?_) rfl
    have hk' : k < (s.row b).length := by rwa [s.length_row]
    rw [List.getD_eq_getElem _ _ (by rwa [List.length_map]), List.getElem_map, List.getD_eq_getElem _ _ hk']
    rfl
  case h_12 _ a b =>
    refine State.rowForm_move rfl (by simp [State.rowN]) (fun k hk => ?_) rfl
    rw [List.getD_eq_getElem _ _ (by simpa [State.rowN] using hk), List.getElem_map, List.getElem_range]
    rfl
  case h_13 _ a => exact State.rowForm_move rfl (s.length_row a) (fun _ _ => rfl) rfl

/-! ### Compares (R272) -/

/-- The compare instruction of a condition. -/
def Vcc.instr (c : Vcc) (d a : Row) (b : VB) (u : Bool) : Instr :=
  match c with
  | .eq => .vcmpEq d a b u
  | .ne => .vcmpNe d a b u
  | .lt => .vcmpLt d a b u
  | .le => .vcmpLe d a b u
  | .gt => .vcmpGt d a b u
  | .ge => .vcmpGe d a b u

/-- The compares of the table, by their condition. -/
theorem vcmpRow_cases {i : Instr} {d a : Row} {b : VB} {u : Bool} {cond : Int → Bool} {quiet : Bool} (h : vcmpRow i = some (d, a, b, u, cond, quiet)) :
    ∃ c : Vcc, i = c.instr d a b u ∧ (∀ k, c.holds k = cond k) ∧ (decide (c = .eq) || decide (c = .ne)) = quiet := by
  unfold vcmpRow at h
  split at h <;> cases h
  · exact ⟨.eq, rfl, fun k => rfl, rfl⟩
  · exact ⟨.ne, rfl, fun k => (decide_not (p := k = 0)).symm, rfl⟩
  · exact ⟨.lt, rfl, fun k => rfl, rfl⟩
  · exact ⟨.le, rfl, fun k => rfl, rfl⟩
  · exact ⟨.gt, rfl, fun k => rfl, rfl⟩
  · exact ⟨.ge, rfl, fun k => rfl, rfl⟩

theorem exec_vcmp (s : State) (c : Vcc) (d a : Row) (b : VB) (u : Bool) : exec (c.instr d a b u) s = .next (s.rowCmp c d a b u) := by cases c <;> rfl

theorem readRows_vcmp (s : State) (c : Vcc) (d a : Row) (b : VB) (u : Bool) : readRows s (c.instr d a b u) = some (a :: vbRows b) := by
  cases c <;> cases b <;> rfl

/-- A compare of two numbers: a mask, and NV for the NaNs that its condition signals. -/
def cmpFp (ff : FFmt) (w : Nat) (ne quiet : Bool) (cond : Int → Bool) (x y : Nat) : FR :=
  if (ff.dec x).isNan || (ff.dec y).isNan then
    ⟨if ne then 2 ^ w - 1 else 0, if quiet && !((ff.dec x).isSnan || (ff.dec y).isSnan) then 0 else 0x10⟩
  else ⟨if cond (cmpV (ff.dec x) (ff.dec y)) then 2 ^ w - 1 else 0, 0⟩

theorem FV.isNan_of_isSnan {x : FV} (h : x.isSnan = true) : x.isNan = true := by
  cases x with
  | nan _ => rfl
  | inf _ => cases h
  | fin _ _ _ => cases h

theorem cmpElem_fp {f : Byte} {ff : FFmt} (hf : fpOf f = some ff) (c : Vcc) (u : Bool) (x y : Nat) :
    cmpElem f c u x y = cmpFp ff (8 * elemSize f) (decide (c = .ne)) (decide (c = .eq) || decide (c = .ne)) c.holds x y := by
  unfold cmpElem cmpFp
  rw [hf]
  dsimp only
  by_cases hnan : ((ff.dec x).isNan || (ff.dec y).isNan) = true
  · rw [hnan, if_pos rfl, if_pos rfl]
    cases (decide (c = .eq) || decide (c = .ne)) <;> cases ((ff.dec x).isSnan || (ff.dec y).isSnan) <;> rfl
  · have hsnan : ((ff.dec x).isSnan || (ff.dec y).isSnan) = false := by
      refine Bool.eq_false_iff.2 fun h => hnan ?_
      rw [Bool.or_eq_true] at h ⊢
      exact h.imp FV.isNan_of_isSnan FV.isNan_of_isSnan
    rw [Bool.eq_false_iff.2 hnan, hsnan, ite_self]
    rfl

theorem State.givesRow_cmpInt {s : State} (hm : s.here.mode ≠ .firmware) {i : Instr} {d a : Row} {b : VB} {u : Bool} {cond : Int → Bool} {quiet : Bool}
    (h : vcmpRow i = some (d, a, b, u, cond, quiet)) (hf : intFmt s.rowFmt) : s.GivesRow i 2 d (256 / elemSize s.rowFmt) fun k =>
      ⟨if cond (if u then ((s.row a).getD k 0 : Int) - ((s.vb b).getD k 0 : Int)
          else asInt (8 * elemSize s.rowFmt) ((s.row a).getD k 0) - asInt (8 * elemSize s.rowFmt) ((s.vb b).getD k 0))
        then 2 ^ (8 * elemSize s.rowFmt) - 1 else 0, 0⟩ := by
  obtain ⟨c, rfl, hcond, -⟩ := vcmpRow_cases h
  obtain ⟨hint, hnone, -⟩ := kinds_of_intFmt hf
  have hexec := exec_vcmp s c d a b u
  rw [State.rowCmp, State.viVf, if_pos hint] at hexec
  refine State.givesRow_of hm hexec (by simp [isArith, hint]) (.of_zipWith (s.length_row a) (s.length_vb b) fun k _ => .of_eq ?_) (readRows_vcmp s c d a b u) fun _ => Iff.rfl
  unfold cmpElem
  rw [hnone]
  simp only [hcond, elemInt_eq]

theorem State.givesRow_cmpFp {s : State} (hm : s.here.mode ≠ .firmware) (c : Vcc) (d a : Row) (b : VB) (u : Bool) {ff : FFmt} (hf : fpOf s.rowFmt = some ff) :
    s.GivesRow (c.instr d a b u) 4 d (256 / elemSize s.rowFmt) fun k =>
      cmpFp ff (8 * elemSize s.rowFmt) (decide (c = .ne)) (decide (c = .eq) || decide (c = .ne)) c.holds ((s.row a).getD k 0) ((s.vb b).getD k 0) := by
  obtain ⟨hint, hisfp, -⟩ := kinds_of_fpFmt (fpOf_eq_some hf).1
  have hexec := exec_vcmp s c d a b u
  rw [State.rowCmp, State.viVf, if_neg (by rw [hint]; decide)] at hexec
  exact State.givesRow_of hm hexec (by simp [isArith, hisfp])
    (.of_zipWith (s.length_row a) (s.length_vb b) fun k _ => .of_eq (cmpElem_fp hf c u _ _)) (readRows_vcmp s c d a b u) fun _ => Iff.rfl

theorem State.raises_vcmp {s : State} (hm : s.here.mode ≠ .firmware) (c : Vcc) (d a : Row) (b : VB) (u : Bool) (h : ¬ (intFmt s.rowFmt ∨ fpFmt s.rowFmt)) :
    Raises (c.instr d a b u) s .illegalTarget (formatWord s) := by
  rw [Raises, exec_vcmp, State.rowCmp, State.vec_refused hm (Bool.eq_false_iff.2 fun he => h ((isArith_iff _).1 he))]

end Sys2Proof.Machine
end

section
/-!
SUPPORT. The special functions of rows by their tables (spec/14 R278, R279).
-/

-- One lemma at a time: none holds a thread while the ones before it are checked.
set_option Elab.async false

namespace Sys2Proof.Machine

open Sys2Proof.Claims

/-! ### FP32 encodings (R135) -/

/-- What an FP32 encoding stands for, by its exponent and fraction. -/
theorem fp32_dec (x : Nat) : fp32.dec x =
    if x % 2 ^ 31 = 0x7F800000 then .inf (decide (x / 2 ^ 31 % 2 = 1))
    else if 0x7F800000 < x % 2 ^ 31 then .nan (decide (x % 2 ^ 31 % 2 ^ 23 < 2 ^ 22))
    else if x % 2 ^ 31 / 2 ^ 23 = 0 then .fin (decide (x / 2 ^ 31 % 2 = 1)) (x % 2 ^ 31 % 2 ^ 23) (-149)
    else .fin (decide (x / 2 ^ 31 % 2 = 1)) (x % 2 ^ 31 % 2 ^ 23 + 2 ^ 23) (-149 + (x % 2 ^ 31 / 2 ^ 23 : Nat) - 1) := by
  have hinf : fp32.inf = 0x7F800000 := by decide
  have hsign : fp32.signBit = 2 ^ 31 := by decide
  have hq : fp32.qmin = -149 := by decide
  unfold FFmt.dec
  rw [hinf, hsign, hq]
  rfl

theorem fp32_dec_of_nan {x : Nat} (h : isNan32 x = true) : fp32.dec x = .nan (isSnan32 x) := by
  have hlt : 0x7F800000 < x % 2 ^ 31 := of_decide_eq_true h
  rw [fp32_dec, if_neg (by omega), if_pos hlt, isSnan32, h, Bool.true_and, Nat.testBit_eq_decide_div_mod_eq, ← decide_not]
  refine congrArg FV.nan (decide_eq_decide.2 ?_)
  omega

theorem fp32_dec_of_not_nan {x : Nat} (h : isNan32 x = false) :
    (∃ n, fp32.dec x = .inf n ∧ x % 2 ^ 31 = 0x7F800000) ∨ ∃ n m e, fp32.dec x = .fin n m e ∧ x % 2 ^ 31 < 0x7F800000 ∧ (m = 0 ↔ x % 2 ^ 31 = 0) ∧
      ((m = 0 ∨ (Nat.log2 m : Int) + e < -12) ↔ x % 2 ^ 31 < 0x39800000) := by
  have hle : ¬ 0x7F800000 < x % 2 ^ 31 := of_decide_eq_false h
  rw [fp32_dec]
  by_cases hinf : x % 2 ^ 31 = 0x7F800000
  · exact .inl ⟨_, if_pos hinf, hinf⟩
  · rw [if_neg hinf, if_neg hle]
    right
    by_cases hsub : x % 2 ^ 31 / 2 ^ 23 = 0
    · rw [if_pos hsub]
      refine ⟨_, _, _, rfl, by omega, by omega, iff_of_true ?_ (by omega)⟩
      by_cases hm : x % 2 ^ 31 % 2 ^ 23 = 0
      · exact .inl hm
      · have hlog : Nat.log2 (x % 2 ^ 31 % 2 ^ 23) < 23 := (Nat.log2_lt hm).2 (Nat.mod_lt _ (by decide))
        exact .inr (by omega)
    · rw [if_neg hsub]
      refine ⟨_, _, _, rfl, by omega, by omega, ?_⟩
      have hne : x % 2 ^ 31 % 2 ^ 23 + 2 ^ 23 ≠ 0 := by omega
      have hlo : 23 ≤ Nat.log2 (x % 2 ^ 31 % 2 ^ 23 + 2 ^ 23) := (Nat.le_log2 hne).2 (by omega)
      have hhi : Nat.log2 (x % 2 ^ 31 % 2 ^ 23 + 2 ^ 23) < 24 := (Nat.log2_lt hne).2 (by omega)
      omega

/-! ### The compositions of R279 -/

theorem sigBits_eq (x : Nat) : sigBits x = sig32 x := rfl

theorem tanhBits_eq {x : Nat} (h : isNan32 x = false) : tanhBits x = tanh32 x := by
  unfold tanhBits tanh32
  obtain ⟨n, hdec, hx⟩ | ⟨n, m, e, hdec, -, -, hsmall⟩ := fp32_dec_of_not_nan h <;> rw [hdec]
  · rw [if_neg (show ¬ x % 2 ^ 31 < 0x39800000 by omega)]
    rfl
  · simp only [Bool.or_eq_true, decide_eq_true_eq, hsmall]
    rfl

/-- A composition with its flags: NV for a signalling NaN, NX for a finite result other than zero (log entry 25). -/
theorem compR_eq (g : Nat → Nat) (x : Nat) : compR g x =
    if isNan32 x then ⟨0x7FC00000, if isSnan32 x then 0x10 else 0⟩
    else ⟨g x, if g x % 2 ^ 31 = 0 ∨ 0x7F800000 ≤ g x % 2 ^ 31 then 0 else 0x01⟩ := by
  unfold compR
  cases hx : isNan32 x with
  | true =>
    rw [fp32_dec_of_nan hx]
    rfl
  | false =>
    have hfin : (match fp32.dec (g x) with | .fin _ m _ => (⟨g x, if m = 0 then 0 else fNX⟩ : FR) | _ => ⟨g x, 0⟩) =
        ⟨g x, if g x % 2 ^ 31 = 0 ∨ 0x7F800000 ≤ g x % 2 ^ 31 then 0 else 0x01⟩ := by
      cases hg : isNan32 (g x) with
      | true =>
        have hlt : 0x7F800000 < g x % 2 ^ 31 := of_decide_eq_true hg
        rw [fp32_dec_of_nan hg, if_pos (by omega)]
      | false =>
        obtain ⟨n, hdec, hv⟩ | ⟨n, m, e, hdec, hlt, hm, -⟩ := fp32_dec_of_not_nan hg <;> rw [hdec]
        · rw [if_pos (by omega)]
        · simp only [hm, show ¬ 0x7F800000 ≤ g x % 2 ^ 31 by omega, or_false]
          rfl
    obtain ⟨n, hdec, -⟩ | ⟨n, m, e, hdec, -⟩ := fp32_dec_of_not_nan hx <;> rw [hdec] <;> exact hfin

theorem compR_congr {g h : Nat → Nat} {x : Nat} (he : isNan32 x = false → g x = h x) : compR g x = compR h x := by
  rw [compR_eq, compR_eq]
  cases hx : isNan32 x with
  | true => rfl
  | false => rw [he hx]

/-! ### Special functions of a row (R278) -/

theorem narrow_fp {f : Byte} (hf : fpFmt f) (x : Nat) : narrow f x = convElem .rne 0x06 f x := if_pos ((isFpFmt_iff f).2 hf)

theorem State.rowForm_sfn {s : State} {i : Instr} {d a : Row} {F : Nat → FR} {conv : Bool} {g : Nat → FR} (h : exec i s = .next (s.rowSfn F conv d a))
    (hread : readRows s i = some [a])
    (hg : fpFmt s.rowFmt → ∀ k, (⟨(convElem .rne 0x06 s.rowFmt (F (widen s.rowFmt ((s.row a).getD k 0))).bits).bits,
      if conv then (F (widen s.rowFmt ((s.row a).getD k 0))).flags ||| (convElem .rne 0x06 s.rowFmt (F (widen s.rowFmt ((s.row a).getD k 0))).bits).flags
      else (F (widen s.rowFmt ((s.row a).getD k 0))).flags⟩ : FR) = g k)
    (hm : s.here.mode ≠ .firmware) (hf : fpFmt s.rowFmt) : s.GivesRow i 12 d (256 / elemSize s.rowFmt) g := by
  refine State.givesRow_of hm h ((isFpFmt_iff _).2 hf) (.of_map (s.length_row a) fun k _ => .of_eq ?_) hread fun _ => Iff.rfl
  rw [← hg hf k]
  simp only [narrow_fp hf]

theorem State.givesRow_sfn {s : State} (hm : s.here.mode ≠ .firmware) {i : Instr} {d a : Row} {g : Nat → FR} (h : sfnRow i = some (d, a, g))
    (hf : fpFmt s.rowFmt) : s.GivesRow i 12 d (256 / elemSize s.rowFmt) fun k =>
      let r := g (widen s.rowFmt ((s.row a).getD k 0))
      ⟨(convElem .rne 0x06 s.rowFmt r.bits).bits, r.flags ||| (convElem .rne 0x06 s.rowFmt r.bits).flags⟩ := by
  obtain ⟨hexec, hread⟩ : exec i s = .next (s.rowSfn g true d a) ∧ readRows s i = some [a] := by
    unfold sfnRow at h
    split at h <;> cases h <;> exact ⟨rfl, rfl⟩
  exact State.rowForm_sfn hexec hread (fun _ _ => rfl) hm hf

theorem State.givesRow_comp {s : State} (hm : s.here.mode ≠ .firmware) {i : Instr} {d a : Row} {g : Nat → Nat} (h : compRow i = some (d, a, g))
    (hf : fpFmt s.rowFmt) : s.GivesRow i 12 d (256 / elemSize s.rowFmt) fun k =>
      let x := widen s.rowFmt ((s.row a).getD k 0)
      if isNan32 x then ⟨(convElem .rne 0x06 s.rowFmt 0x7FC00000).bits, if isSnan32 x then 0x10 else 0⟩
      else ⟨(convElem .rne 0x06 s.rowFmt (g x)).bits, if g x % 2 ^ 31 = 0 ∨ 0x7F800000 ≤ g x % 2 ^ 31 then 0 else 0x01⟩ := by
  obtain ⟨F, hexec, hread, hF⟩ : ∃ F, exec i s = .next (s.rowSfn F false d a) ∧ readRows s i = some [a] ∧ ∀ x, F x = compR g x := by
    unfold compRow at h
    split at h <;> cases h
    · exact ⟨_, rfl, rfl, fun x => compR_congr fun hx => tanhBits_eq hx⟩
    · exact ⟨_, rfl, rfl, fun x => rfl⟩
  refine State.rowForm_sfn hexec hread (fun _ k => ?_) hm hf
  dsimp only
  rw [hF, compR_eq]
  split <;> rfl

end Sys2Proof.Machine
end

section
/-!
SUPPORT. Micro-programs, conversions and expressions of rows by their tables (spec/14 R274, R281 to R284).
-/

-- One lemma at a time: none holds a thread while the ones before it are checked.
set_option Elab.async false

namespace Sys2Proof.Machine

open Sys2Proof.Claims

/-! ### Micro-programs on integers (R281, R282) -/

/-- An operation of an integer micro-program. -/
theorem mpOp_int {c : Nat} (h : mpInt c = true) (t y : Nat) : mpOp c t y = ⟨microInt c t y, 0⟩ := by
  have hlo : 0x10 ≤ c := by simp [mpInt] at h; omega
  have hhi : c ≤ 0x1A := by simp [mpInt] at h; omega
  have hfp : mpFp c = false := by simp [mpFp]; omega
  have hsigned (x : Nat) : signedN 32 x = asInt 32 x := signedN_eq (by decide) x
  unfold mpOp
  rw [hfp]
  refine congrArg (FR.mk · 0) ?_
  obtain rfl | rfl | rfl | rfl | rfl | rfl | rfl | rfl | rfl | rfl | rfl : c = 0x10 ∨ c = 0x11 ∨ c = 0x12 ∨ c = 0x13 ∨ c = 0x14 ∨ c = 0x15 ∨ c = 0x16 ∨ c = 0x17 ∨
      c = 0x18 ∨ c = 0x19 ∨ c = 0x1A := by omega
  all_goals simp only [mpIntOp, microInt, wrapN_eq, hsigned, Nat.shiftLeft_eq, Nat.shiftRight_eq_div_pow]

/-- The second operand of an entry. -/
theorem State.mpArg_eq (s : State) (e : MpEntry) (b c : Nat) :
    s.mpArg e b c = if e.k = 0 then (s.sr e.reg).toNat % 2 ^ 32 else if e.k = 1 then e.imm.toNat else if e.k = 2 then b else c := by
  have hf (w : Word) : f32 w = w.toNat % 2 ^ 32 := BitVec.toNat_setWidth 32 w
  unfold State.mpArg
  generalize e.k = k
  match k with
  | 0 | 1 | 2 | 3 => simp [hf]

/-- The temporary of an integer micro-program, and its flags, which stay as they were. -/
theorem State.mpFold_int (s : State) (b c : FR) (es : List MpEntry) (h : ∀ e ∈ es, mpInt e.code.toNat = true) (r : FR) :
    es.foldl (fun (r : FR) e => let x := mpOp e.code.toNat r.bits (s.mpArg e b.bits c.bits); ⟨x.bits, r.flags ||| x.flags⟩) r =
      ⟨microRun s es r.bits b.bits c.bits, r.flags⟩ := by
  induction es generalizing r with
  | nil => rfl
  | cons e es ih =>
    rw [List.foldl_cons, ih fun x hx => h x (List.mem_cons_of_mem _ hx)]
    dsimp only
    rw [mpOp_int (h e List.mem_cons_self), s.mpArg_eq, microRun, microRun, List.foldl_cons]
    exact congrArg (FR.mk _) BitVec.or_zero

/-- A widened integer element. -/
theorem widenR_int {f : Byte} (hf : intFmt f) (x : Nat) : widenR f x = ⟨asBits 32 (asInt (8 * elemSize f) x), 0⟩ := by
  obtain ⟨hint, -, hfp, -⟩ := kinds_of_intFmt hf
  unfold widenR widen
  rw [hint, hfp]
  simp [wrapN_eq, signedN_eq (elemBits_pos f)]

theorem asBits_asInt (w v : Nat) : asBits w (asInt w v) = v % 2 ^ w := by
  rw [asBits, asInt, BitVec.ofInt_toInt, BitVec.toNat_ofNat]

/-- A signed number of w bits does not clamp. -/
theorem intResult_asInt (w v : Nat) : intResult w true (asInt w v) = ⟨v % 2 ^ w, 0⟩ := by
  have hlo : -2 ^ (w - 1) ≤ asInt w v := BitVec.le_toInt (BitVec.ofNat w v)
  have hhi : asInt w v < 2 ^ (w - 1) := BitVec.toInt_lt
  unfold intResult
  dsimp only
  rw [if_neg (by omega), if_neg (by omega), asBits_asInt]

/-- A widened integer converted to an integer bank: it clamps, and sets SAT where it does. -/
theorem narrow_int {f : Byte} (hf : intFmt f) (v : Nat) : (narrow f v).Same (elemSize f) (intResult (8 * elemSize f) true (asInt 32 v)) := by
  have hval : intVal 0x03 v = asInt 32 v := signedN_eq (by decide) v
  have hclamp (g : Byte) (h : narrow g v = intElem g true (intVal 0x03 v)) : (narrow g v).Same (elemSize g) (intResult (8 * elemSize g) true (asInt 32 v)) :=
    .of_eq (by rw [h, intElem_eq, hval])
  obtain rfl | rfl | rfl := hf
  · exact hclamp 0x00 rfl
  · exact hclamp 0x02 rfl
  · rw [show intResult (8 * elemSize 0x03) true (asInt 32 v) = ⟨v % 2 ^ 32, 0⟩ from intResult_asInt 32 v]
    exact .of_mod (Nat.mod_mod v (2 ^ 32)).symm rfl

/-- One element of an integer micro-program. -/
theorem State.mpElem_int {s : State} (hf : intFmt s.rowFmt) {es : List MpEntry} (h : ∀ e ∈ es, mpInt e.code.toNat = true) (a b c : Nat) :
    (s.mpElem es ⟨a, 0⟩ ⟨b, 0⟩ ⟨c, 0⟩).Same (elemSize s.rowFmt) (intResult (8 * elemSize s.rowFmt) true (asInt 32 (microRun s es a b c))) := by
  have hfl : mpFl es ⟨a, 0⟩ ⟨b, 0⟩ ⟨c, 0⟩ = 0 := by simp [mpFl]
  have hnarrow := narrow_int hf (microRun s es a b c)
  obtain ⟨hbits, hflags⟩ := hnarrow
  unfold State.mpElem
  rw [s.mpFold_int _ _ es h, hfl]
  exact ⟨hbits, BitVec.zero_or.trans hflags⟩

/-- The rows that a micro-program reads. -/
theorem readRows_mprun (s : State) (slot : Fin 4) (d a b c : Row) : ∃ rs, readRows s (.mprun slot d a b c) = some rs ∧
    ∀ r, r ∈ a :: ((if s.hereTile.slots[slot].any (·.k = 2) then [b] else []) ++ if s.hereTile.slots[slot].any (·.k = 3) then [c] else []) ↔ r ∈ rs := by
  refine ⟨_, rfl, fun r => ?_⟩
  simp only [List.any_eq_true, decide_eq_true_eq]

theorem State.givesRow_mprun {s : State} (hm : s.here.mode ≠ .firmware) (slot : Fin 4) (d a b c : Row) {g : Nat → FR} (hne : s.hereTile.slots[slot] ≠ [])
    (hs : mpSuits s.rowFmt s.hereTile.slots[slot] = true)
    (hg : ∀ k, (s.mpElem s.hereTile.slots[slot] (widenR s.rowFmt ((s.row a).getD k 0)) (widenR s.rowFmt ((s.row b).getD k 0)) (widenR s.rowFmt ((s.row c).getD k 0))).Same
      (elemSize s.rowFmt) (g k)) :
    s.GivesRow (.mprun slot d a b c) (3 + 2 * s.hereTile.slots[slot].length) d (256 / elemSize s.rowFmt) g := by
  obtain ⟨rs, hread, hrd⟩ := readRows_mprun s slot d a b c
  refine State.givesRow_of hm rfl ?_ (.of_zipWith_zip (s.length_row a) (s.length_row b) (s.length_row c) fun k _ => hg k) hread hrd
  rw [hs, Bool.and_true, Bool.not_eq_true', List.isEmpty_eq_false_iff]
  exact hne

/-! ### Conversions (R274) -/

/-- A part that a conversion names lies within the larger row. -/
theorem part_le {p a b : Nat} (h : a ≤ b) (hp : p < max b a / min b a) : p * a + a ≤ b := by
  rw [max_eq_left h, min_eq_right h] at hp
  calc p * a + a = (p + 1) * a := by rw [Nat.succ_mul]
    _ ≤ b / a * a := Nat.mul_le_mul_right a hp
    _ ≤ b := Nat.div_mul_le_self b a

/-- The elements of a conversion: a part of the source, or the source in its part of the destination, which else stays. -/
theorem vcvtRow_is (rm : Rm) (g f : Byte) {part : Nat} {src old : List Byte} (hs : src.length = 256) (ho : old.length = 256)
    (hp : part < max (256 / elemSize g) (256 / elemSize f) / min (256 / elemSize g) (256 / elemSize f)) :
    RowIs (elemSize f) (256 / elemSize f) (fun k =>
      let ns := 256 / elemSize g
      let nd := 256 / elemSize f
      let xs := elemsOf (elemSize g) src
      if nd ≤ ns then convElem rm g f (xs.getD (part * nd + k) 0)
      else if part * ns ≤ k ∧ k < part * ns + ns then convElem rm g f (xs.getD (k - part * ns) 0)
      else ⟨(elemsOf (elemSize f) old).getD k 0, 0⟩) (vcvtRow rm g f part src old) := by
  have hxs : (elemsOf (elemSize g) src).length = 256 / elemSize g := by rw [length_elemsOf, hs]
  have hos : (elemsOf (elemSize f) old).length = 256 / elemSize f := by rw [length_elemsOf, ho]
  unfold vcvtRow
  generalize elemsOf (elemSize g) src = xs at hxs
  generalize elemsOf (elemSize f) old = os at hos
  generalize 256 / elemSize g = ns at *
  generalize 256 / elemSize f = nd at *
  dsimp only
  by_cases hle : nd ≤ ns
  · have hpart := part_le hle hp
    simp only [if_pos hle]
    refine ⟨by simp only [List.length_map, List.length_take, List.length_drop, hxs]; omega, fun k hk => .of_eq ?_⟩
    simp only [List.length_map, List.length_take, List.length_drop, hxs] at hk
    rw [List.getElem_map, List.getElem_take, List.getElem_drop, List.getD_eq_getElem xs 0 (by omega)]
  · rw [max_comm, min_comm] at hp
    have hpart := part_le (by omega) hp
    simp only [if_neg hle]
    refine ⟨by simp only [List.length_append, List.length_map, List.length_take, List.length_drop, hxs, hos]; omega, fun k hk => .of_eq ?_⟩
    have htake : (os.take (part * ns)).length = part * ns := by rw [List.length_take, hos]; omega
    simp only [List.length_append, List.length_map, List.length_take, List.length_drop, hxs, hos] at hk
    by_cases hbefore : k < part * ns
    · rw [if_neg (by omega), List.getElem_append_left (by simp [hxs]; omega), List.getElem_append_left (by simp; omega), List.getElem_map,
        List.getElem_take, List.getD_eq_getElem os 0 (by omega)]
    · by_cases hin : k < part * ns + ns
      · rw [if_pos (by omega), List.getElem_append_left (by simp [hxs]; omega), List.getElem_append_right (by simp; omega)]
        simp only [List.length_map, htake, List.getElem_map]
        rw [List.getD_eq_getElem xs 0 (by omega)]
      · rw [if_neg (by omega), List.getElem_append_right (by simp [hxs]; omega)]
        simp only [List.length_append, List.length_map, htake, hxs, List.getElem_map, List.getElem_drop]
        rw [List.getD_eq_getElem os 0 (by omega)]
        simp only [show part * ns + ns + (k - (part * ns + ns)) = k by omega]

theorem State.givesRow_vcvt {s : State} (hm : s.here.mode ≠ .firmware) (rm : Rm) (sf : Fmt7) (part : Fin 4) (d a : Row) (hf : intFmt s.rowFmt ∨ fpFmt s.rowFmt)
    (hp : part.val < max (256 / elemSize (code7 sf)) (256 / elemSize s.rowFmt) / min (256 / elemSize (code7 sf)) (256 / elemSize s.rowFmt)) :
    s.GivesRow (.vcvt rm sf part d a) 4 d (256 / elemSize s.rowFmt) fun k =>
      let ns := 256 / elemSize (code7 sf)
      let nd := 256 / elemSize s.rowFmt
      let src := elemsOf (elemSize (code7 sf)) (s.rowBytes a)
      if nd ≤ ns then convElem rm (code7 sf) s.rowFmt (src.getD (part.val * nd + k) 0)
      else if part.val * ns ≤ k ∧ k < part.val * ns + ns then convElem rm (code7 sf) s.rowFmt (src.getD (k - part.val * ns) 0)
      else ⟨(s.row d).getD k 0, 0⟩ := by
  refine State.givesRow_of hm rfl ?_ (vcvtRow_is rm _ _ (s.length_rowBytes a) (s.length_rowBytes d) hp) rfl fun _ => Iff.rfl
  rw [(isArith_iff _).2 hf, Bool.true_and]
  exact decide_eq_true hp

/-! ### Expressions (R283, R284) -/

theorem State.givesRow_expr {s : State} (hm : s.here.mode ≠ .firmware) (w : Word) (d a b c : Row) (hf : intFmt s.rowFmt ∨ fpFmt s.rowFmt) :
    s.GivesRow (.expr w d a b c) (4 + 2 * exprOps w) d (256 / elemSize s.rowFmt) fun k =>
      exprElem s.rowFmt w ((s.row a).getD k 0) ((s.row b).getD k 0) ((s.row c).getD k 0) ((s.row d).getD k 0) := by
  refine State.givesRow_of hm rfl ((isArith_iff _).2 hf)
    (.of_zip_zip (s.length_row a) (s.length_row b) (s.length_row c) (s.length_row d) fun k _ => .of_eq rfl) rfl fun r => ?_
  rw [← List.filterMap_eq_map, List.filterMap_filter]
  simp only [exprUses]
  rfl

end Sys2Proof.Machine
end

section
/-!
SUPPORT. Scans and reductions of rows by their tables (spec/07 R145; spec/14 R275 to R277).
-/

-- One lemma at a time: none holds a thread while the ones before it are checked.
set_option Elab.async false

namespace Sys2Proof.Machine

open Sys2Proof.Claims

/-! ### Scans and pairwise reductions (R145) -/

theorem seqScan_eq (op : Nat → Nat → FR) (x : Nat → Nat) (m j : Nat) (fl : Byte) :
    (seqScan op (scan op x j) fl ((List.range' (j + 1) m).map x)).1 = (List.range' j (m + 1)).map (scan op x) := by
  induction m generalizing j fl with
  | zero => rfl
  | succ m ih =>
    rw [List.range'_succ, List.map_cons, List.range'_succ, List.map_cons, seqScan]
    exact congrArg (List.cons _) (ih (j + 1) _)

/-- The elements of a scan. -/
theorem seqScan_range (op : Nat → Nat → FR) (x : Nat → Nat) {n : Nat} (hn : 0 < n) (fl : Byte) :
    (seqScan op (((List.range n).map x).headD 0) fl (((List.range n).map x).drop 1)).1 = (List.range n).map (scan op x) := by
  obtain ⟨m, rfl⟩ := Nat.exists_eq_succ_of_ne_zero hn.ne'
  rw [List.range_eq_range', List.range'_succ, List.map_cons, List.headD_cons, List.drop_one, List.tail_cons]
  exact seqScan_eq op x m 0 fl

/-- The first level of a pairwise reduction taken apart. -/
theorem pairs_succ (op : Nat → Nat → FR) (x : Nat → Nat) (k j : Nat) :
    pairs op (fun i => (op (x (2 * i)) (x (2 * i + 1))).bits) k j = pairs op x (k + 1) j := by
  induction k generalizing j with
  | zero => rfl
  | succ k ih => rw [pairs, ih, ih]; rfl

theorem pairwise_eq (op : Nat → Nat → FR) (k : Nat) (x : Nat → Nat) {fuel : Nat} (h : k ≤ fuel) (fl : Byte) :
    (pairwise op fuel ((List.range (2 ^ k)).map x) fl).bits = pairs op x k 0 := by
  induction k generalizing fuel x fl with
  | zero =>
    cases fuel with
    | zero => rfl
    | succ n => rfl
  | succ k ih =>
    obtain ⟨n, rfl⟩ : ∃ n, fuel = n + 1 := ⟨fuel - 1, by omega⟩
    have hpos := Nat.two_pow_pos k
    have hpow : 2 ^ (k + 1) = 2 * 2 ^ k := pow_succ' 2 k
    have hnext : (((List.range (2 ^ k)).map fun i => op (((List.range (2 ^ (k + 1))).map x).getD (2 * i) 0) (((List.range (2 ^ (k + 1))).map x).getD (2 * i + 1) 0)).map (·.bits)) =
        (List.range (2 ^ k)).map fun i => (op (x (2 * i)) (x (2 * i + 1))).bits := by
      rw [List.map_map]
      refine List.map_congr_left fun i hi => ?_
      have hlt := List.mem_range.1 hi
      have hget (j : Nat) (hj : j < 2 ^ (k + 1)) : ((List.range (2 ^ (k + 1))).map x).getD j 0 = x j := by
        rw [List.getD_eq_getElem _ _ (by simpa using hj), List.getElem_map, List.getElem_range]
      show (op _ _).bits = _
      rw [hget _ (by omega), hget _ (by omega)]
    unfold pairwise
    rw [List.length_map, List.length_range, if_neg (by omega), show 2 ^ (k + 1) / 2 = 2 ^ k by omega]
    dsimp only
    rw [hnext, ih _ (by omega), pairs_succ]

/-! ### The elements of a reduction (R276) -/

theorem suits_iff (o : RedOp) (f : Byte) : RedOp.suits o f = true ↔ suits o f := by
  cases o <;> simp [RedOp.suits, suits, isIntFmt_iff, isFpFmt_iff, isArith_iff, isPairFmt]

/-- The operators of a row act on its three kinds of bank alone. -/
theorem kinds_of_suits {o : RedOp} {f : Byte} (h : suits o f) : intFmt f ∨ fpFmt f ∨ f = 0x07 := by
  cases o <;> simp only [suits] at h <;> tauto

theorem fpFmt_cases (f : Byte) : fpFmt f ↔ (f = 0x04 ∨ f = 0x05) ∨ f = 0x06 := or_assoc.symm

/-- An element widened for a reduction. -/
theorem widenR_bits (f : Byte) (x : Nat) : (widenR f x).bits = if f = 0x04 ∨ f = 0x05 then (convElem .rne f 0x06 x).bits else widen f x := by
  unfold widenR
  by_cases h : f = 0x04 ∨ f = 0x05
  · have hfp : (isFpFmt f && f != 0x06) = true := by obtain rfl | rfl := h <;> decide
    rw [if_pos hfp, if_pos h]
  · have hfp : (isFpFmt f && f != 0x06) = false := by
      refine Bool.eq_false_iff.2 fun ht => h ?_
      obtain ⟨hf, h6⟩ := Bool.and_eq_true_iff.1 ht
      exact ((fpFmt_cases f).1 ((isFpFmt_iff f).1 hf)).resolve_right (by simpa using h6)
    rw [hfp, if_neg h]
    rfl

/-- Of the operators that give an index, one acts on numbers where it does not act on pairs. -/
theorem index_iff {o : RedOp} {f : Byte} (h : suits o f) : (RedOp.isIndex o = true ∧ isFpFmt f = true) ↔ indexOp o = true ∧ f ≠ 0x07 := by
  refine and_congr_right fun ho => ?_
  have hkind : fpFmt f ∨ f = 0x07 := by cases o <;> simp_all [RedOp.isIndex, suits]
  rw [isFpFmt_iff]
  refine ⟨fun hfp h7 => ?_, hkind.resolve_right⟩
  rw [h7] at hfp
  obtain hf | hf | hf := hfp <;> exact absurd hf (by decide)

theorem State.redElems_eq {s : State} {o : RedOp} (h : suits o s.rowFmt) (a : Row) :
    redElems o s.rowFmt (s.row a) = (List.range (256 / elemSize s.rowFmt)).map (redIn s o a) := by
  have hindex := index_iff h
  have hlen := s.length_row a
  unfold redElems
  refine List.ext_getElem ?_ fun k hk hk' => ?_
  · split <;> simp [hlen]
  · have hn : k < (s.row a).length := by rw [hlen]; simpa using hk'
    simp only [hindex]
    rw [List.getElem_map, List.getElem_range, redIn, List.getD_eq_getElem _ _ hn]
    split <;> simp [widenR_bits]

/-- A NaN of a scan in its canonical form. -/
theorem quieted_eq (f : Byte) (x : Nat) : quieted f x = canonical f x := by
  have hnan (y : Nat) : (fp32.dec y).isNan = isNan32 y := by
    cases hy : isNan32 y with
    | true => rw [fp32_dec_of_nan hy]; rfl
    | false => obtain ⟨n, hdec, -⟩ | ⟨n, m, e, hdec, -⟩ := fp32_dec_of_not_nan hy <;> rw [hdec] <;> rfl
  have hcanon : fp32.nan = 0x7FC00000 := by decide
  unfold quieted canonical
  have hfp : (isFpFmt f = true) = (f = 0x04 ∨ f = 0x05 ∨ f = 0x06) := propext (isFpFmt_iff f)
  simp only [hnan, hcanon, hfp]

/-- A result converted to a bank. -/
theorem narrow_bits {f : Byte} (h : intFmt f ∨ fpFmt f ∨ f = 0x07) (v : Nat) : (narrow f v).bits = redOut f v := by
  obtain h | h | rfl := h
  · obtain ⟨hint, -, hfp, -⟩ := kinds_of_intFmt h
    have h7 : f ≠ 0x07 := by obtain rfl | rfl | rfl := h <;> decide
    rw [narrow, hfp, hint, redOut, if_neg h7, hint]
    rfl
  · obtain ⟨hint, hfp, -⟩ := kinds_of_fpFmt h
    have h7 : f ≠ 0x07 := by obtain rfl | rfl | rfl := h <;> decide
    rw [narrow, hfp, redOut, if_neg h7, hint]
    rfl
  · rfl

/-! ### Scans and reductions of a row (R277) -/

theorem rowElems_pos (f : Byte) : 0 < 256 / elemSize f := by rcases elemSize_cases f with h | h | h | h <;> rw [h] <;> decide

/-- The number of elements of a row is a power of two. -/
theorem rowElems_log2 (f : Byte) : 256 / elemSize f = 2 ^ Nat.log2 (256 / elemSize f) ∧ Nat.log2 (256 / elemSize f) ≤ 8 := by
  rcases elemSize_cases f with h | h | h | h <;> rw [h] <;> decide

theorem State.rowReduce_bits {s : State} {o : RedOp} (h : suits o s.rowFmt) (a : Row) : (s.rowReduce o a).bits = redTotal s o a := by
  obtain ⟨hpow, hle⟩ := rowElems_log2 s.rowFmt
  rw [State.rowReduce, State.redElems_eq h, redTotal]
  generalize Nat.log2 (256 / elemSize s.rowFmt) = k at hpow hle ⊢
  rw [hpow]
  exact pairwise_eq _ k _ hle _

/-- A row instruction on an allowed bank, its bytes written another way. -/
theorem State.exec_row_of {s : State} (hm : s.here.mode ≠ .firmware) {i : Instr} {ok : Bool} {L : Nat} {d : Row} {bs bs' : List Byte} {fl : Byte} {rd : List Row}
    (h : exec i s = .next (s.vec ok (s.endRow (s.writeRow L d bs fl) L rd))) (hok : ok = true) (hbs : bs = bs') :
    ∃ fl, exec i s = .next (s.endRow (s.writeRow L d bs' fl) L rd) := ⟨fl, by rw [h, State.vec_of hm hok, hbs]⟩

/-- `vscan` of an operator that suits the bank. -/
theorem State.exec_vscan {s : State} (hm : s.here.mode ≠ .firmware) {o : RedOp} (h : suits o s.rowFmt) (hi : indexOp o = false ∨ s.rowFmt = 0x07) (d a : Row) :
    ∃ fl, exec (.vscan o d a) s = .next (s.endRow (s.writeRow 8 d (scanBytes s o a) fl) 8 [a]) := by
  have hok : (RedOp.suits o s.rowFmt && !(RedOp.isIndex o && isFpFmt s.rowFmt)) = true := by
    rw [(suits_iff o _).2 h, Bool.true_and]
    obtain hi | h7 := hi
    · rw [show RedOp.isIndex o = false from hi]
      rfl
    · rw [h7, show isFpFmt 0x07 = false by decide, Bool.and_false]
      rfl
  have hscan := seqScan_range (redOp o (isIntFmt s.rowFmt)) (redIn s o a) (rowElems_pos s.rowFmt)
  rw [← State.redElems_eq h a] at hscan
  refine State.exec_row_of hm rfl hok ?_
  rw [hscan, List.map_map, List.map_map, bytesOf, List.flatMap_map, scanBytes]
  simp only [Function.comp_apply, quieted_eq, narrow_bits (kinds_of_suits h)]

/-- The elements of a reduced row: the result, with its index beside it where it has one, and zeros. -/
theorem headRow_eq {n x y : Nat} (hn : 2 ≤ n) (idx : Bool) :
    (if idx then [x, y] else [x]) ++ List.replicate (n - (if idx then [x, y] else [x]).length) 0 =
      (List.range n).map fun k => if k = 0 then x else if k = 1 ∧ idx = true then y else 0 := by
  obtain ⟨m, rfl⟩ : ∃ m, n = m + 2 := ⟨n - 2, by omega⟩
  rw [List.range_succ_eq_map, List.range_succ_eq_map]
  cases idx with
  | true => simp [Function.comp_def, List.map_const']
  | false => simp [Function.comp_def, List.map_const', List.replicate_succ]

/-- `vred` into a row, of an operator that suits the bank. -/
theorem State.exec_vred {s : State} (hm : s.here.mode ≠ .firmware) {o : RedOp} (h : suits o s.rowFmt) (d a : Row) :
    ∃ fl, exec (.vred o d a) s = .next (s.endRow (s.writeRow 8 d (vredBytes s o a) fl) 8 [a]) := by
  have hn : 2 ≤ s.rowN := by
    unfold State.rowN
    rcases elemSize_cases s.rowFmt with h | h | h | h <;> rw [h] <;> decide
  have hidx : (RedOp.isIndex o && isFpFmt s.rowFmt) = decide (indexOp o = true ∧ s.rowFmt ≠ 0x07) := by
    rw [Bool.eq_iff_iff, Bool.and_eq_true, decide_eq_true_eq, index_iff h]
  refine State.exec_row_of hm rfl ((suits_iff o _).2 h) ?_
  rw [headRow_eq hn, State.rowReduce_bits h, hidx, bytesOf, List.flatMap_map, vredBytes]
  refine List.flatMap_congr fun k _ => ?_
  simp only [apply_ite FR.bits, apply_ite (redOut s.rowFmt), narrow_bits (kinds_of_suits h), decide_eq_true_eq]

/-- `vred` into a scalar register, of an operator that suits the bank. -/
theorem State.exec_vredScalar {s : State} (hm : s.here.mode ≠ .firmware) {o : RedOp} (h : suits o s.rowFmt) (r : Sreg) (a : Row) :
    ∃ fl, exec (.vredScalar o r a) s = .next (s.endRow (s.writeS 8 r (vredWord s o a) fl) 8 [a]) := by
  refine ⟨if RedOp.isIndex o then 0 else (s.rowReduce o a).flags, (congrArg Host.Outcome.next (State.vec_of hm ((suits_iff o _).2 h) _)).trans ?_⟩
  rw [State.rowReduce_bits h]
  rfl

end Sys2Proof.Machine
end

section
/-!
PROOF of O35: rows of raw elements and masks, and row instructions that read a spilled row.
-/

-- One lemma at a time: none holds a thread while the ones before it are checked.
set_option Elab.async false

namespace Sys2Proof.Proofs

open Sys2Proof Sys2Proof.Machine Sys2Proof.Claims

/-! ### Every row instruction of the tables -/

/-- A micro-program of integer operations suits an integer bank. -/
theorem mpSuits_int {f : Byte} (hf : intFmt f) {es : List MpEntry} (h : ∀ e ∈ es, mpInt e.code.toNat = true) : mpSuits f es = true := by
  obtain ⟨hint, -⟩ := kinds_of_intFmt hf
  refine List.all_eq_true.2 fun e he => ?_
  have hfp : mpFp e.code.toNat = false := by
    have := h e he
    simp only [mpInt, mpFp, Bool.and_eq_true, decide_eq_true_eq, Bool.and_eq_false_iff, decide_eq_false_iff_not] at this ⊢
    omega
  rw [hfp, hint]
  rfl

/-- A micro-program of operations on numbers suits a bank of numbers. -/
theorem mpSuits_fp {f : Byte} (hf : fpFmt f) {es : List MpEntry} (h : ∀ e ∈ es, mpFp e.code.toNat = true) : mpSuits f es = true :=
  List.all_eq_true.2 fun e he => by rw [h e he, (isFpFmt_iff f).2 hf]; rfl

/-- What a row instruction writes by its table is what its meaning writes. -/
theorem givesRow_of_rowGives {s : State} {i : Instr} {L : Nat} {d : Row} {n : Nat} {g : Nat → FR} (h : RowGives s i L d n g) (hm : s.here.mode ≠ .firmware) :
    s.GivesRow i L d n g := by
  cases h with
  | arithInt i d a b c sat gi gf h hf => exact State.givesRow_arithInt hm h hf
  | arithFp i d a b c sat gi gf ff h hf => exact State.givesRow_arithFp hm h hf
  | pairs i d a b big h hf => exact State.givesRow_pairs hm h hf
  | raw i ok L d g h hok => exact (State.rowForm_rawRow h).gives hm hok
  | cmpInt i d a b u cond quiet h hf => exact State.givesRow_cmpInt hm h hf
  | cmpFp i d a b u cond quiet ff h hf =>
    obtain ⟨c, rfl, hcond, rfl⟩ := vcmpRow_cases h
    obtain rfl : c.holds = cond := funext hcond
    have hgives := State.givesRow_cmpFp hm c d a b u hf
    cases c <;> exact hgives
  | sfn i d a g h hf => exact State.givesRow_sfn hm h hf
  | comp i d a g h hf => exact State.givesRow_comp hm h hf
  | mprunInt slot d a b c hf hne hes =>
    refine State.givesRow_mprun hm slot d a b c hne (mpSuits_int hf hes) fun k => ?_
    rw [widenR_int hf, widenR_int hf, widenR_int hf]
    exact State.mpElem_int hf hes _ _ _
  | mprunFp slot d a b c hf hne hes => exact State.givesRow_mprun hm slot d a b c hne (mpSuits_fp hf hes) fun k => .of_eq rfl
  | vcvt rm sf part d a hf hp => exact State.givesRow_vcvt hm rm sf part d a hf hp
  | expr w d a b c hf => exact State.givesRow_expr hm w d a b c hf

/-- A row instruction of the tables that reads no spilled granule ends with its row pending. -/
theorem rowLater_of_rowGives {s : State} {i : Instr} {L : Nat} {d : Row} {n : Nat} {g : Nat → FR} (h : RowGives s i L d n g) (hr : RowRuns s) :
    ∃ t, exec i s = .next t ∧ RowLater s t L d n g := by
  obtain ⟨-, hm, -⟩ := id hr
  obtain ⟨rd, rs, -, -, hexec⟩ := givesRow_of_rowGives h hm
  exact State.rowLater_of_endRow hexec hr

/-! ### The statements -/

theorem rowsOfRawElements : RowsOfRawElements := by
  intro s i ok L d g h
  exact ⟨fun hok hr => rowLater_of_rowGives (.raw i ok L d g h hok) hr, fun hok hm => (State.rowForm_rawRow h).raises hm hok⟩

theorem rowComparesWriteMasks : RowComparesWriteMasks := by
  intro s i d a b u cond quiet h hm
  refine ⟨fun hf hr => rowLater_of_rowGives (.cmpInt i d a b u cond quiet h hf) hr, fun ff hf hr => rowLater_of_rowGives (.cmpFp i d a b u cond quiet ff h hf) hr,
    fun hint hfp => ?_⟩
  obtain ⟨c, rfl, -, -⟩ := vcmpRow_cases h
  exact State.raises_vcmp hm c d a b u fun hf => hf.elim hint hfp

/-- The channels that a waiting row instruction waits for, by the rows that it reads. -/
theorem rowWaits_congr {s t : State} {rd rs : List Row} (h : ∀ r, r ∈ rd ↔ r ∈ rs) {L : Nat} {d : Row} {bs : List Byte} {fl : Byte} (hw : RowWaits s t rd L d bs fl) :
    RowWaits s t rs L d bs fl := by
  obtain ⟨hstate, hbytes, hhere, m, chs, hagenda, hchs⟩ := hw
  exact ⟨hstate, hbytes, hhere, m, chs, hagenda, fun c => (hchs c).trans (exists_congr fun r => and_congr_left fun _ => h r)⟩

/-- A row instruction of the tables that reads a spilled granule. -/
theorem rowGives_spilled {s : State} {i : Instr} {rs : List Row} {L : Nat} {d : Row} {n : Nat} {g : Nat → FR} (h : RowGives s i L d n g) (hread : readRows s i = some rs)
    (hsp : ∃ r ∈ rs, rowSpilled s r = true) (hs : s.Here = true) (hm : s.here.mode ≠ .firmware) :
    (s.returnRefused = none → ∃ t, exec i s = .next t ∧
      RowWaits s t rs L d ((List.range n).flatMap fun k => leBytes (256 / n) (g k).bits) ((List.range n).foldl (fun fl k => fl ||| (g k).flags) 0)) ∧
    HoldsItsReturn i s := by
  obtain ⟨rd, rs', hread', hmem, hexec⟩ := givesRow_of_rowGives h hm
  obtain rfl : rs' = rs := Option.some.inj (hread'.symm.trans hread)
  obtain ⟨hwaits, hholds⟩ := State.rowWaits_of_endRow hexec hs (hsp.imp fun r hr => ⟨(hmem r).2 hr.1, hr.2⟩)
  refine ⟨fun hret => ?_, hholds⟩
  obtain ⟨t, ht, hw⟩ := hwaits hret
  exact ⟨t, ht, rowWaits_congr hmem hw⟩

/-- A reduction of a spilled row into a scalar register. -/
theorem vredScalar_spilled {s : State} {o : RedOp} {a : Row} {r : Sreg} (ho : suits o s.rowFmt) (hsp : rowSpilled s a = true) (hs : s.Here = true)
    (hm : s.here.mode ≠ .firmware) :
    (s.returnRefused = none → ∃ t fl, exec (.vredScalar o r a) s = .next t ∧ t = { s.modHere (fun _ => t.here) with agenda := t.agenda, fresh := s.fresh + 1 } ∧
      t.here = { s.here with pend := s.here.pend ++ [⟨s.cycle + 7, .s r, vredWord s o a, fl⟩], wait := .result none 0, waitFrom := s.cycle } ∧
      ∃ m, t.agenda = s.agenda ++ [⟨s.cycle + 9 + m, .blockingWaitDone,
        { agent := s.cur.agent, th := s.cur.th, op := s.cycle, nats := s.shadowChans s.hereP s.hereT .c (rowAddr s.bank a) 256 }⟩]) ∧
    HoldsItsReturn (.vredScalar o r a) s := by
  obtain ⟨fl, hexec⟩ := State.exec_vredScalar hm ho r a
  rw [s.writeS_eq (by decide), State.endRow_of_spilled ⟨a, List.mem_singleton_self a, hsp⟩] at hexec
  refine ⟨fun hret => ?_, holdsItsReturn_of_orHold hs hexec⟩
  rw [State.orHold_none _ _ hret] at hexec
  obtain ⟨m, hm⟩ := s.rowWaitEnd_eq 8 [a]
  refine ⟨_, fl, hexec, State.rowWaiting_eq hs _ _ _ _, State.here_rowWaiting hs _ _ _ _, m, ?_⟩
  show s.agenda ++ [s.rowWaitEnd 8 [a]] = _
  rw [hm, List.flatMap_singleton]

theorem spilledRowsWait : SpilledRowsWait := by
  refine ⟨fun s i rs L d n g h hread hsp hs hm => rowGives_spilled h hread hsp hs hm, fun s o d a r ho hsp hs hm => ?_⟩
  have hspilled : ∃ r ∈ [a], rowSpilled s r = true := ⟨a, List.mem_singleton_self a, hsp⟩
  have hscan (hi : indexOp o = false ∨ s.rowFmt = 0x07) : (s.returnRefused = none → ∃ t fl, exec (.vscan o d a) s = .next t ∧ RowWaits s t [a] 8 d (scanBytes s o a) fl) ∧
      HoldsItsReturn (.vscan o d a) s := by
    obtain ⟨fl, hexec⟩ := State.exec_vscan hm ho hi d a
    obtain ⟨hwaits, hholds⟩ := State.rowWaits_of_endRow hexec hs hspilled
    exact ⟨fun hret => (hwaits hret).imp fun t ht => ⟨fl, ht⟩, hholds⟩
  obtain ⟨fl, hexec⟩ := State.exec_vred hm ho d a
  obtain ⟨hwaits, hholds⟩ := State.rowWaits_of_endRow hexec hs hspilled
  obtain ⟨hscalar, hscalarHolds⟩ := vredScalar_spilled (r := r) ho hsp hs hm
  exact ⟨fun hret => ⟨fun hi => (hscan hi).1 hret, (hwaits hret).imp fun t ht => ⟨fl, ht⟩, hscalar hret⟩, fun hi => (hscan hi).2, hholds, hscalarHolds⟩

/-- Settles O35: each instruction of the tables runs as one that writes the row of its table, and ends or waits by the rows that it reads. -/
theorem rowsOfRawElementsAndMasks : Obligations.RowsOfRawElementsAndMasks := ⟨rowsOfRawElements, rowComparesWriteMasks, spilledRowsWait⟩

end Sys2Proof.Proofs
end
